-- ==== Sys2Proof/Word.lean ====
section
/-! DEFINITION. The word types of the Adepoven and their plainest arithmetic: bit fields as R4 numbers them, sign extension as R10 names it. -/

namespace Sys2Proof

/-- A 32-bit register word (R47). -/
abbrev Word := BitVec 32

/-- A 64-bit quantity: an address, a PC, a register pair (R49). -/
abbrev Word64 := BitVec 64

/-- One byte of memory (R4). -/
abbrev Byte := BitVec 8

/-- The field x[hi:lo] read as an unsigned integer (R4). -/
def bitsOf (x hi lo : Nat) : Nat := (x >>> lo) % 2 ^ (hi + 1 - lo)

/-- The single bit x[n] (R4). -/
def bitAt (x n : Nat) : Bool := x.testBit n

/-- SignExt(x, n) of R10: the low n bits of x, with their sign, as an exact integer. -/
def signExt (x n : Nat) : Int :=
  let y := x % 2 ^ n
  if n ≠ 0 ∧ 2 ^ (n - 1) ≤ y then (y : Int) - 2 ^ n else y

/-- An exact integer kept in its low n bits (R9). -/
def lowBits (x : Int) (n : Nat) : Nat := (x % (2 ^ n : Int)).toNat

end Sys2Proof
end

