-- ==== Sys2Proof/Machine/Numbers.lean ====
section
/-! DEFINITION. Floating-point values as exact numbers, and the one procedure that delivers them into a format: the formats of R78 and R82, rounding, Cvt (R86) and CvtInt (R87), and the exact operations that the arithmetic is built from. -/

namespace Sys2Proof.Machine

/-- A floating-point value: NaN, an infinity, or (−1)^neg × m × 2^e exactly; zeros keep their sign. -/
inductive FV where
  | nan
  | inf (neg : Bool)
  | fin (neg : Bool) (m : Nat) (e : Int)
  deriving DecidableEq, Repr, Inhabited

/-- A binary format (R78, R82): exponent and fraction widths and the bias. -/
structure Fmt where
  eb : Nat
  fb : Nat
  bias : Nat
  /-- E4M3: no infinities, and only the all-ones code is NaN -/
  e4m3 : Bool := false
  deriving DecidableEq, Repr

def fp64 : Fmt := { eb := 11, fb := 52, bias := 1023 }
def fp32 : Fmt := { eb := 8, fb := 23, bias := 127 }
def fp16 : Fmt := { eb := 5, fb := 10, bias := 15 }
def bf16 : Fmt := { eb := 8, fb := 7, bias := 127 }
def fp22 : Fmt := { eb := 8, fb := 13, bias := 127 }
def fpE4M3 : Fmt := { eb := 4, fb := 3, bias := 7, e4m3 := true }
def fpE5M2 : Fmt := { eb := 5, fb := 2, bias := 15 }

/-- Rounding modes (R10). -/
inductive Mode where
  | rne | rz | rdn | rup
  deriving DecidableEq, Repr

/-- The rounding field's codes (R54). -/
def modeOf (n : Nat) : Mode := match n with
  | 0 => .rne
  | 1 => .rz
  | 2 => .rdn
  | _ => .rup

def Fmt.bits (f : Fmt) : Nat := 1 + f.eb + f.fb

/-- Smallest exponent of a normal number. -/
def Fmt.emin (f : Fmt) : Int := 1 - (f.bias : Int)

/-- Exponent of the smallest subnormal. -/
def Fmt.qmin (f : Fmt) : Int := f.emin - f.fb

/-- The canonical NaN (R80). -/
def Fmt.nan (f : Fmt) : Nat :=
  if f.e4m3 then 0x7F else (2 ^ f.eb - 1) * 2 ^ f.fb + 2 ^ (f.fb - 1)

/-- The largest finite value: magnitude bits. -/
def Fmt.maxBits (f : Fmt) : Nat :=
  if f.e4m3 then 0x7E else (2 ^ f.eb - 1) * 2 ^ f.fb - 1

/-- The value of an encoding. -/
def Fmt.dec (f : Fmt) (x : Nat) : FV :=
  let neg := x.testBit (f.eb + f.fb)
  let e := bitsOf x (f.eb + f.fb - 1) f.fb
  let fr := bitsOf x (f.fb - 1) 0
  if f.e4m3 && e == 15 && fr == 7 then .nan
  else if !f.e4m3 && e == 2 ^ f.eb - 1 then (if fr == 0 then .inf neg else .nan)
  else if e == 0 then .fin neg fr f.qmin
  else .fin neg (2 ^ f.fb + fr) ((e : Int) - f.bias - f.fb)

/-- Whether an encoding is subnormal. -/
def Fmt.isSub (f : Fmt) (x : Nat) : Bool :=
  bitsOf x (f.eb + f.fb - 1) f.fb == 0 && bitsOf x (f.fb - 1) 0 != 0

/-- The value of an encoding after the fi flush (R144). -/
def Fmt.decF (f : Fmt) (fi : Bool) (x : Nat) : FV :=
  if fi && f.isSub x then .fin (x.testBit (f.eb + f.fb)) 0 0 else f.dec x

/-- Number of bits of a natural number. -/
def bitLen (n : Nat) : Nat := if n = 0 then 0 else Nat.log2 n + 1

/-- m / 2^k to an integer in a rounding mode, for a number of the sign given. -/
def roundShift (mode : Mode) (neg : Bool) (m k : Nat) : Nat :=
  let q := m / 2 ^ k
  let r := m % 2 ^ k
  if r = 0 then q
  else match mode with
    | .rne => if 2 ^ k < 2 * r || (2 ^ k == 2 * r && q % 2 == 1) then q + 1 else q
    | .rz => q
    | .rdn => if neg then q + 1 else q
    | .rup => if neg then q else q + 1

/-- RoundUnbounded of R86: significand and exponent of the rounded magnitude, with no upper limit. -/
def Fmt.round (f : Fmt) (mode : Mode) (neg : Bool) (m : Nat) (e : Int) : Nat × Int :=
  let lead : Int := e + bitLen m - 1
  let q : Int := max (lead - f.fb) f.qmin
  let sh : Int := q - e
  if sh ≤ 0 then (m * 2 ^ (-sh).toNat, q) else (roundShift mode neg m sh.toNat, q)

/-- The magnitude bits of significand × 2^q, which the format can hold or exceed. -/
def Fmt.magBits (f : Fmt) (m : Nat) (q : Int) : Nat :=
  if m = 0 then 0
  else
    let (m', q') := if m = 2 ^ (f.fb + 1) then (2 ^ f.fb, q + 1) else (m, q)
    if m' < 2 ^ f.fb then m'
    else ((q' + f.fb + f.bias).toNat) * 2 ^ f.fb + (m' - 2 ^ f.fb)

def Fmt.withSign (f : Fmt) (neg : Bool) (mag : Nat) : Nat := (if neg then 2 ^ (f.eb + f.fb) else 0) + mag

/-- The result of overflow (R86). -/
def Fmt.over (f : Fmt) (neg : Bool) : Nat :=
  if f.e4m3 then f.nan else f.withSign neg ((2 ^ f.eb - 1) * 2 ^ f.fb)

/-- TowardZero of R86. -/
def towardZero (mode : Mode) (neg : Bool) : Bool :=
  match mode with
  | .rne => false
  | .rz => true
  | .rdn => !neg
  | .rup => neg

/-- Cvt of R86 for a value whose fi flush has been made: the bits of the destination format. -/
def cvtTo (f : Fmt) (mode : Mode) (fo sat : Bool) (x : FV) : Nat :=
  match x with
  | .nan => f.nan
  | .inf neg => if sat then f.withSign neg f.maxBits else f.over neg
  | .fin neg m e =>
    if m = 0 then f.withSign neg 0
    else
      let (y, q) := f.round mode neg m e
      let mag := f.magBits y q
      if f.maxBits < mag then
        (if sat || towardZero mode neg then f.withSign neg f.maxBits else f.over neg)
      else if fo && mag < 2 ^ f.fb then f.withSign neg 0
      else f.withSign neg mag

/-- Round to a format in RNE with subnormals kept and no saturation. -/
def rne (f : Fmt) (x : FV) : Nat := cvtTo f .rne false false x

/-- The value after rounding to a format in RNE. -/
def roundTo (f : Fmt) (x : FV) : FV := f.dec (rne f x)

/-- A dyadic number rounded to an integer (R87, R149). -/
def roundInt (mode : Mode) (neg : Bool) (m : Nat) (e : Int) : Nat :=
  if 0 ≤ e then m * 2 ^ e.toNat else roundShift mode neg m (-e).toNat

/-- CvtInt of R87: NaN gives 0, otherwise round and clamp to the range. -/
def cvtInt (signed : Bool) (w : Nat) (mode : Mode) (x : FV) : Int :=
  let lo : Int := if signed then -(2 ^ (w - 1)) else 0
  let hi : Int := if signed then 2 ^ (w - 1) - 1 else 2 ^ w - 1
  match x with
  | .nan => 0
  | .inf neg => if neg then lo else hi
  | .fin neg m e =>
    -- a magnitude far above every range clamps without computing the power
    if m ≠ 0 ∧ 200 < e then (if neg then lo else hi)
    else
      let r : Int := roundInt mode neg m e
      max lo (min hi (if neg then -r else r))

/-- The value of an integer. -/
def fvInt (x : Int) : FV := .fin (decide (x < 0)) x.natAbs 0

def FV.neg : FV → FV
  | .nan => .nan
  | .inf n => .inf (!n)
  | .fin n m e => .fin (!n) m e

def FV.isZero : FV → Bool
  | .fin _ m _ => m == 0
  | _ => false

def FV.isNan : FV → Bool
  | .nan => true
  | _ => false

def FV.sign : FV → Bool
  | .nan => false
  | .inf n => n
  | .fin n _ _ => n

def FV.abs : FV → FV
  | .nan => .nan
  | .inf _ => .inf false
  | .fin _ m e => .fin false m e

/-- Scale by a power of two, exactly. -/
def FV.scale (k : Int) : FV → FV
  | .fin n m e => .fin n m (e + k)
  | x => x

/-- The sign of an exactly zero sum, whatever its terms: −0 under RDN, else +0 (R86, R146). -/
def zeroSum (mode : Mode) : Bool := mode == .rdn

/-- The exact sum; `mode` decides only the sign of an exact zero. -/
def FV.add (mode : Mode) (x y : FV) : FV :=
  match x, y with
  | .nan, _ => .nan
  | _, .nan => .nan
  | .inf a, .inf b => if a = b then .inf a else .nan
  | .inf a, _ => .inf a
  | _, .inf b => .inf b
  | .fin a m e, .fin b k g =>
    if m = 0 ∧ k = 0 then .fin (zeroSum mode) 0 0
    else if m = 0 then .fin b k g
    else if k = 0 then .fin a m e
    else
      let q := min e g
      let xi : Int := (m * 2 ^ (e - q).toNat : Nat)
      let yi : Int := (k * 2 ^ (g - q).toNat : Nat)
      let s : Int := (if a then -xi else xi) + (if b then -yi else yi)
      if s = 0 then .fin (zeroSum mode) 0 0 else .fin (decide (s < 0)) s.natAbs q

/-- The exact product. -/
def FV.mul (x y : FV) : FV :=
  match x, y with
  | .nan, _ => .nan
  | _, .nan => .nan
  | .inf a, .inf b => .inf (a != b)
  | .inf a, .fin b m _ => if m = 0 then .nan else .inf (a != b)
  | .fin a m _, .inf b => if m = 0 then .nan else .inf (a != b)
  | .fin a m e, .fin b k g => .fin (a != b) (m * k) (if m * k = 0 then 0 else e + g)

/-- A quotient with enough bits, its last bit sticky, so that one rounding of it is the rounding of x / y (R152). -/
def FV.div (x y : FV) : FV :=
  match x, y with
  | .nan, _ => .nan
  | _, .nan => .nan
  | .inf _, .inf _ => .nan
  | .inf a, .fin b _ _ => .inf (a != b)
  | .fin a _ _, .inf b => .fin (a != b) 0 0
  | .fin a m e, .fin b k g =>
    if k = 0 then (if m = 0 then .nan else .inf (a != b))
    else if m = 0 then .fin (a != b) 0 0
    else
      let sh := 70 + bitLen k
      let q := m * 2 ^ sh / k
      let r := m * 2 ^ sh % k
      .fin (a != b) (2 * q + (if r = 0 then 0 else 1)) (e - g - sh - 1)

/-- A square root with enough bits, its last bit sticky (R152). -/
def FV.sqrt (x : FV) : FV :=
  match x with
  | .nan => .nan
  | .inf n => if n then .nan else .inf false
  | .fin n m e =>
    if m = 0 then .fin n 0 0
    else if n then .nan
    else
      -- make the exponent even and the radicand long
      let k : Nat := if e % 2 = 0 then 140 else 141
      let v := m * 2 ^ k
      let r := Nat.sqrt v
      .fin false (2 * r + (if r * r = v then 0 else 1)) ((e - k) / 2 - 1)

/-- Comparison of two values that are not NaN: less, equal or greater; −0 equals +0. -/
def FV.cmp (x y : FV) : Ordering :=
  match x, y with
  | .inf a, .inf b => if a = b then .eq else if a then .lt else .gt
  | .inf a, _ => if a then .lt else .gt
  | _, .inf b => if b then .gt else .lt
  | .fin a m e, .fin b k g =>
    let q := min e g
    let xi : Int := (m * 2 ^ (e - q).toNat : Nat)
    let yi : Int := (k * 2 ^ (g - q).toNat : Nat)
    compare (if a then -xi else xi) (if b then -yi else yi)
  | _, _ => .eq

def FV.lt (x y : FV) : Bool := !x.isNan && !y.isNan && x.cmp y == .lt
def FV.le (x y : FV) : Bool := !x.isNan && !y.isNan && x.cmp y != .gt
def FV.eqv (x y : FV) : Bool := !x.isNan && !y.isNan && x.cmp y == .eq

/-- The lesser of R147: −0 below +0, a single NaN gives the other operand. -/
def minFirst (x y : FV) : Bool :=
  match x, y with
  | .nan, _ => false
  | _, .nan => true
  | x, y => match x.cmp y with
    | .lt => true
    | .gt => false
    | .eq => x.sign || !y.sign

/-- The greater of R147. -/
def maxFirst (x y : FV) : Bool :=
  match x, y with
  | .nan, _ => false
  | _, .nan => true
  | x, y => match x.cmp y with
    | .gt => true
    | .lt => false
    | .eq => !x.sign || y.sign

end Sys2Proof.Machine
end

