-- ==== Sys2Proof/Syntax.lean ====
section
/-! DEFINITION. The syntax of the Adepoven: operands, the fields of a full-form word, the half-ops of a paired word, and one constructor of `Instr` for every row of the opcode table. A row that is an event of the device (a trap post, an engine chunk, a host write) carries what the event names. -/

namespace Sys2Proof

/-- The special operands of R47, codes 0xF0 to 0xF9. -/
inductive Special where
  | zero | lane | tid | crew | stage | gw | meet | link | vclk | core
  deriving DecidableEq, Repr

/-- An 8-bit operand field of R47. A field that holds a predicate or tile number (R51) reads as the `v` with that number. -/
inductive Opnd where
  /-- 0x00–0xBF: v0–v191 -/
  | v (n : Fin 192)
  /-- 0xC0–0xEF: s0–s47 -/
  | s (n : Fin 48)
  /-- 0xF0–0xF9 -/
  | sp (x : Special)
  /-- 0xFF -/
  | none
  deriving DecidableEq, Repr

/-- The guard field of R44 and R45: p[G], inverted when `neg`. -/
structure Guard where
  p : Fin 8
  neg : Bool
  deriving DecidableEq, Repr

/-- The fields of a full-form word other than its major opcode (R44). In the I form `imm` holds imm27 and B, C and X do not exist. -/
structure Args where
  guard : Guard
  m : BitVec 8
  d : Opnd
  a : Opnd
  b : Opnd
  c : Opnd
  x : BitVec 11
  imm : Option (BitVec 27)
  deriving DecidableEq, Repr

/-- One half of a paired word (R61). -/
structure Half where
  op : BitVec 7
  d : Opnd
  s : Opnd
  k : BitVec 8
  deriving DecidableEq, Repr

/-- What an access of the host reaches (R41, R42). -/
inductive HostSide where
  /-- HBM, at an offset of BAR2 -/
  | bar2
  /-- host memory, or CXL-attached capacity, at a host physical address -/
  | memory
  deriving DecidableEq, Repr

/-- The bytes of an access of the host: what it reaches, an offset or address, and its width (R41). -/
structure HostSpan where
  side : HostSide
  off : Nat
  width : Nat
  deriving DecidableEq, Repr

/-- A temperature sensor's reading: the core or the stack, and what it reads in °C (R374). -/
structure Reading where
  part : Nat
  temp : Nat
  deriving DecidableEq, Repr

/-- What a lost link message was (R37). -/
inductive LostMessage where
  /-- a load or atomic: its data return poisoned -/
  | load (id : Nat)
  /-- a ray request -/
  | ray (id : Nat)
  /-- a filter request -/
  | filter (id : Nat)
  /-- a collective chunk: STATUS 3 at this member (R292) -/
  | coll (id : Nat)
  deriving DecidableEq, Repr

/-- What another member of a collective presents at the match (R292): its descriptor's fields and its input elements. -/
structure CollPeer where
  rank : Nat
  op : Nat
  ty : Nat
  red : Nat
  count : Nat
  root : Nat
  group : List Nat
  input : List Nat
  deriving DecidableEq, Repr

/-- A request of a peer device that arrives over Flozor (R219, R35), at a physical address of this device. -/
inductive PeerRequest where
  | load (pa width : Nat)
  | store (pa width value : Nat)
  | atomic (pa : Nat) (w64 signed : Bool) (op b c : Nat)
  /-- a ring operation on a descriptor here, whose BASE is an address of a context of this device; one that waits is served once it can be -/
  | push (ctx desc : Nat) (weir waits : Bool) (entry : Nat)
  | pop (ctx desc : Nat) (weir waits : Bool)
  /-- a member of a collective reports a fault (R292) -/
  | collFault (id : Nat)
  deriving DecidableEq, Repr

/-- One constructor per row of the opcode table, in the table's order. -/
inductive Instr where
  /-- `nop` (R118): Does nothing but advance the PC. -/
  | nop (a : Args)
  /-- `br` (R119): Direct branch under the guard; it is cheap when the guard is uniform over the gang. -/
  | br (a : Args)
  /-- `brd` (R119): Direct branch whose split paths may fuse at once. -/
  | brd (a : Args)
  /-- `bri` (R120): Indirect branch through a 64-bit operand; threads with different targets part. -/
  | bri (a : Args)
  /-- `call` (R121): Direct call that writes %link := PC + 8. -/
  | call (a : Args)
  /-- `calli` (R121): Indirect call that places its threads in callee queues. -/
  | calli (a : Args)
  /-- `ret` (R122): Returns through %link or through a named pair. -/
  | ret (a : Args)
  /-- `exit` (R123): Ends the thread, counts it as arrived at crew-mode barriers and releases its writes. -/
  | exit (a : Args)
  /-- `bar.sync` (R124): Arrives at a crew barrier and waits for its phase to complete. -/
  | barSync (a : Args)
  /-- `bar.arrive` (R124): Arrives at a crew barrier without waiting. -/
  | barArrive (a : Args)
  /-- `bar.wait` (R124): Waits until the thread's pending phase of a barrier has completed. -/
  | barWait (a : Args)
  /-- `vote` (R125): Computes a gang-wide any, all, ballot or equality result. -/
  | vote (a : Args)
  /-- `regang` (R126): Waits for every live thread of the home gang, then binds them into one gang. -/
  | regang (a : Args)
  /-- `meet.x` (R127): Sets %meet to a direct target and clears the pass bit. -/
  | meetX (a : Args)
  /-- `meet.set` (R127): Sets %meet from a 64-bit operand and clears the pass bit. -/
  | meetSet (a : Args)
  /-- `shfl` (R128): Exchanges values between lanes by idx, up, down or xor. -/
  | shfl (a : Args)
  /-- `trap.trap` (R379): Raises USER precisely, with a code. -/
  | trapTrap (a : Args)
  /-- `trap.brk` (R379): Raises BRK precisely, with a code. -/
  | trapBrk (a : Args)
  /-- `trap.svc` (R364): Posts a system call for the gang to the svc ring and waits for the reply. -/
  | trapSvc (a : Args)
  /-- `sget` (R380): Reads a special register into every active thread. -/
  | sget (a : Args)
  /-- `sset` (R380): Writes a special register once per instruction, after the privilege check. -/
  | sset (a : Args)
  /-- `cnt.cclk` (R381): Reads the die's cycle counter. -/
  | cntCclk (a : Args)
  /-- `cnt.vclk` (R381): Reads the crew's virtual counter. -/
  | cntVclk (a : Args)
  /-- `cnt.arm` (R381): Arms the crew timer with a deadline in virtual or wall mode. -/
  | cntArm (a : Args)
  /-- `cnt.disarm` (R381): Disarms the crew timer. -/
  | cntDisarm (a : Args)
  /-- `cnt.left` (R381): Returns the cycles left until the timer's deadline. -/
  | cntLeft (a : Args)
  /-- `iadd` (R133): Integer add, element-wise, with optional saturation. -/
  | iadd (a : Args)
  /-- `isub` (R133): Integer subtract, element-wise, with optional saturation. -/
  | isub (a : Args)
  /-- `imul` (R134): Integer multiply giving the low, high or wide product. -/
  | imul (a : Args)
  /-- `imad` (R134): Integer multiply-add giving the low or wide result. -/
  | imad (a : Args)
  /-- `iminmax` (R135): Integer minimum or maximum. -/
  | iminmax (a : Args)
  /-- `iabsneg` (R135): Integer absolute value or negation. -/
  | iabsneg (a : Args)
  /-- `logic` (R136): Bitwise logic operation. -/
  | logic (a : Args)
  /-- `shift` (R136): Shift or rotate, element-wise. -/
  | shift (a : Args)
  /-- `bfx` (R137): Bit-field extract. -/
  | bfx (a : Args)
  /-- `bfi` (R137): Bit-field insert. -/
  | bfi (a : Args)
  /-- `bitc` (R138): Population count, leading or trailing zero count, or bit reverse. -/
  | bitc (a : Args)
  /-- `icmp` (R139): Integer compare into a predicate. -/
  | icmp (a : Args)
  /-- `sel` (R139): Selects between two operands by a predicate. -/
  | sel (a : Args)
  /-- `plog` (R139): Combines predicates. -/
  | plog (a : Args)
  /-- `mov` (R140): Copies a register or an immediate. -/
  | mov (a : Args)
  /-- `movi` (R140): Places an immediate into part of a register. -/
  | movi (a : Args)
  /-- `lea` (R141): Computes a scaled 64-bit address, with no checks. -/
  | lea (a : Args)
  /-- `perm` (R142): Assembles four bytes from a selector. -/
  | perm (a : Args)
  /-- `idiv` (R143): Integer divide, remainder or both. -/
  | idiv (a : Args)
  /-- `fadd` (R146): Floating add, rounded once. -/
  | fadd (a : Args)
  /-- `fsub` (R146): Floating subtract, rounded once. -/
  | fsub (a : Args)
  /-- `fmul` (R146): Floating multiply, rounded once. -/
  | fmul (a : Args)
  /-- `ffma` (R146): Fused multiply-add, rounded once. -/
  | ffma (a : Args)
  /-- `fminmax` (R147): Floating minimum or maximum. -/
  | fminmax (a : Args)
  /-- `fabsneg` (R147): Clears or inverts the sign bit. -/
  | fabsneg (a : Args)
  /-- `fcmp` (R148): Floating compare into a predicate. -/
  | fcmp (a : Args)
  /-- `fround` (R149): Rounds to an integral value in the same format. -/
  | fround (a : Args)
  /-- `fldexp` (R149): Scales by a power of two. -/
  | fldexp (a : Args)
  /-- `fclass` (R150): Tests the floating class of a value against a mask. -/
  | fclass (a : Args)
  /-- `fdot2` (R151): Two-element dot product with an addend, into FP32. -/
  | fdot2 (a : Args)
  /-- `fsqrt` (R152): Correctly rounded square root. -/
  | fsqrt (a : Args)
  /-- `fdiv` (R152): Correctly rounded division. -/
  | fdiv (a : Args)
  /-- `frcp` (R153): Approximate reciprocal. -/
  | frcp (a : Args)
  /-- `frsq` (R153): Approximate reciprocal square root. -/
  | frsq (a : Args)
  /-- `fex2` (R153): Approximate base-2 exponential. -/
  | fex2 (a : Args)
  /-- `flg2` (R153): Approximate base-2 logarithm. -/
  | flg2 (a : Args)
  /-- `fsin` (R153): Approximate sine. -/
  | fsin (a : Args)
  /-- `fcos` (R153): Approximate cosine. -/
  | fcos (a : Args)
  /-- `cvt` (R96): Converts between integer and floating types. -/
  | cvt (a : Args)
  /-- `cvtf8` (R98): Packs or unpacks four FP8 values with a scale. -/
  | cvtf8 (a : Args)
  /-- `pxpack` (R99): Forms PX4 blocks across lanes. -/
  | pxpack (a : Args)
  /-- `pxunpack` (R100): Reads one element of a PX4 block. -/
  | pxunpack (a : Args)
  /-- `amax` (R101): Absolute maximum over the gang. -/
  | amax (a : Args)
  /-- `fmtw.mk` (R102): Builds a valid format word from an immediate. -/
  | fmtwMk (a : Args)
  /-- `fmtw.chk` (R102): Sets a predicate to whether a format word is valid. -/
  | fmtwChk (a : Args)
  /-- `fmtw.why` (R102): Returns the reason code of a format word. -/
  | fmtwWhy (a : Args)
  /-- `ld` (R175): Loads through the core path after the alignment, steering, bounds and permission checks. -/
  | ld (a : Args)
  /-- `st` (R175): Stores through the core path after the alignment, steering, bounds and permission checks. -/
  | st (a : Args)
  /-- `ldx` (R176): Loads elements through a base-and-extent record. -/
  | ldx (a : Args)
  /-- `stx` (R176): Stores elements through a base-and-extent record. -/
  | stx (a : Args)
  /-- `pref` (R177): Prefetches or touches a line without trapping. -/
  | pref (a : Args)
  /-- `cctl.inv.l1` (R178): Invalidates the whole L1 of the core. -/
  | cctlInvL1 (a : Args)
  /-- `cctl.inv.l1r` (R178): Invalidates the L1 lines of a range. -/
  | cctlInvL1r (a : Args)
  /-- `cctl.wb.l2r` (R178): Writes dirty L2 lines of a range back to memory. -/
  | cctlWbL2r (a : Args)
  /-- `cctl.inv.l2r` (R178): Writes back and invalidates a range in L2 and in the remote-data caches. -/
  | cctlInvL2r (a : Args)
  /-- `cctl.inv.rdcr` (R178): Drops a range from this die's remote-data cache. -/
  | cctlInvRdcr (a : Args)
  /-- `cctl.unpin` (R178): Ends pinning of the lines of a range. -/
  | cctlUnpin (a : Args)
  /-- `cctl.part` (R178): Changes the bin-floor split of the core and returns the write-back count. -/
  | cctlPart (a : Args)
  /-- `mig.hint` (R179): Records a range for Millwright to migrate. -/
  | migHint (a : Args)
  /-- `mig.move` (R179): Migrates every page of a range to a target. -/
  | migMove (a : Args)
  /-- `pgen.reg` (R198): Registers a procedural range from a registration record. -/
  | pgenReg (a : Args)
  /-- `pgen.unreg` (R198): Removes a procedural range once no block of it is FILLING. -/
  | pgenUnreg (a : Args)
  /-- `pfill` (R199): Generator thread arrives to publish its block. -/
  | pfill (a : Args)
  /-- `pfill.fail` (R199): Fails the generator's block at once, with a code. -/
  | pfillFail (a : Args)
  /-- `pstat` (R200): Reads a block's state, ordered at its map home. -/
  | pstat (a : Args)
  /-- `pstat.fault` (R200): Reads a range's last-fault word. -/
  | pstatFault (a : Args)
  /-- `pevict` (R201): Evicts the blocks of a range and counts those that became EMPTY. -/
  | pevict (a : Args)
  /-- `ppin.pin` (R201): Sets the pin bits of the blocks of a range. -/
  | ppinPin (a : Args)
  /-- `ppin.unpin` (R201): Clears the pin bits of the blocks of a range. -/
  | ppinUnpin (a : Args)
  /-- `atom` (R222): Performs an atomic read-modify-write at the target's home and returns the old value. -/
  | atom (a : Args)
  /-- `red` (R222): Performs an atomic reduction with no result. -/
  | red (a : Args)
  /-- `fence` (R223): Acquire, release or two-way fence at a scope. -/
  | fence (a : Args)
  /-- `xfence` (R218): Orders data written by one access path for reads by another. -/
  | xfence (a : Args)
  /-- `wait` (R225): Holds the thread until its outstanding-operation counters are within limits. -/
  | wait (a : Args)
  /-- `arw.init` (R227): Initialises an arrival word. -/
  | arwInit (a : Args)
  /-- `arw.expect` (R227): Adds to an arrival word's target and may complete a generation. -/
  | arwExpect (a : Args)
  /-- `arw.arrive` (R227): Releases and adds bytes to an arrival word's count. -/
  | arwArrive (a : Args)
  /-- `arw.wait` (R227): Holds the thread while the word's generation equals the operand, then acquires. -/
  | arwWait (a : Args)
  /-- `tdef.src` (R256): Appends a node that names a watched source region. -/
  | tdefSrc (a : Args)
  /-- `tdef.stage` (R257): Appends a source node that is staged by Flume on first demand. -/
  | tdefStage (a : Args)
  /-- `tdef.wait` (R257): Appends a source node that waits for an arrival-word generation. -/
  | tdefWait (a : Args)
  /-- `tdef.acc` (R257): Appends a node that reads an accumulator tile. -/
  | tdefAcc (a : Args)
  /-- `tmm` (R258): Appends a matrix-product node into an accumulator tile. -/
  | tmm (a : Args)
  /-- `tew` (R260): Appends an elementwise node. -/
  | tew (a : Args)
  /-- `tred` (R262): Appends a row-reduction node. -/
  | tred (a : Args)
  /-- `tmap` (R263): Appends an index-map node. -/
  | tmap (a : Args)
  /-- `tcvt` (R264): Appends a format-conversion node. -/
  | tcvt (a : Args)
  /-- `tforce.acc` (R265): Forces a node into an accumulator tile. -/
  | tforceAcc (a : Args)
  /-- `tforce.scr` (R265): Forces a node window into a scratchpad or bin-scratch region. -/
  | tforceScr (a : Args)
  /-- `tst` (R266): Forces a node window and stores it through the tile-sequencer path. -/
  | tst (a : Args)
  /-- `tacq` (R268): Takes a tile's token for the home gang, waiting if it is held. -/
  | tacq (a : Args)
  /-- `tacq.try` (R268): Tries to take a tile's token without waiting. -/
  | tacqTry (a : Args)
  /-- `trel` (R268): Releases a tile's token. -/
  | trel (a : Args)
  /-- `tdrop` (R269): Marks a node to be freed once it is unreferenced. -/
  | tdrop (a : Args)
  /-- `tdrop.all` (R269): Marks every node of the crew. -/
  | tdropAll (a : Args)
  /-- `tstat` (R270): Reads a node's state. -/
  | tstat (a : Args)
  /-- `tstat.tab` (R270): Reads thunk-table slot counts. -/
  | tstatTab (a : Args)
  /-- `tstat.tok` (R270): Reads a tile token's holder. -/
  | tstatTok (a : Args)
  /-- `cpy` (R296): Requests a Flume copy of a byte range. -/
  | cpy (a : Args)
  /-- `cpyg` (R296): Requests a Flume gather copy through an index list. -/
  | cpyg (a : Args)
  /-- `spawn` (R297): Writes a continuation record into the run's pool and may queue it. -/
  | spawn (a : Args)
  /-- `q.push` (R298): Appends an entry to a task queue without waiting. -/
  | qPush (a : Args)
  /-- `q.pop` (R298): Removes the head entry of a task queue, waiting while it is empty. -/
  | qPop (a : Args)
  /-- `q.pop.try` (R298): Pops a task queue entry if one is present. -/
  | qPopTry (a : Args)
  /-- `q.popa` (R298): Requests an asynchronous pop into scratchpad that arrives on an arrival word. -/
  | qPopa (a : Args)
  /-- `weir.push` (R299): Appends to a weir, waiting while it is full unless .try is given. -/
  | weirPush (a : Args)
  /-- `weir.pop` (R299): Pops a weir entry. -/
  | weirPop (a : Args)
  /-- `weir.free` (R299): Returns a weir's free-slot count. -/
  | weirFree (a : Args)
  /-- `coll` (R300): Issues a collective from a descriptor. -/
  | coll (a : Args)
  /-- `dcmp` (R301): Submits a Quern compress or expand job. -/
  | dcmp (a : Args)
  /-- `join.dec` (R302): Lowers a pool entry's JOIN and queues the record at zero. -/
  | joinDec (a : Args)
  /-- `join.ret` (R302): Retires a pool entry. -/
  | joinRet (a : Args)
  /-- `trace` (R341): Takes a ray-table slot and sends a ray message. -/
  | trace (a : Args)
  /-- `hitld` (R342): Delivers the next ray event and may call its program. -/
  | hitld (a : Args)
  /-- `hitld.try` (R342): Delivers a ray event if one is ready, without waiting. -/
  | hitldTry (a : Args)
  /-- `hitrep.accept` (R343): Accepts the awaiting candidate. -/
  | hitrepAccept (a : Args)
  /-- `hitrep.ignore` (R343): Ignores the awaiting candidate. -/
  | hitrepIgnore (a : Args)
  /-- `hitrep.term` (R343): Accepts the candidate and ends the traversal. -/
  | hitrepTerm (a : Args)
  /-- `hitrep.commit` (R343): Commits a candidate with a program-given t. -/
  | hitrepCommit (a : Args)
  /-- `hitrep.commit.term` (R343): Commits a candidate and ends the traversal. -/
  | hitrepCommitTerm (a : Args)
  /-- `tlpub.hold` (R344): Holds a treelet for rebuild. -/
  | tlpubHold (a : Args)
  /-- `tlpub.pub` (R344): Publishes a rebuilt treelet once the old page is empty. -/
  | tlpubPub (a : Args)
  /-- `tlpub.stat` (R344): Reads a treelet's version and held state. -/
  | tlpubStat (a : Args)
  /-- `hgrid` (R345): Requests hash-grid filtering into scratchpad. -/
  | hgrid (a : Args)
  /-- `smp.ld` (R345): Loads one texel with no filter. -/
  | smpLd (a : Args)
  /-- `smp.point` (R345): Samples a texture with point filtering. -/
  | smpPoint (a : Args)
  /-- `smp.bilin` (R345): Samples a texture with bilinear filtering. -/
  | smpBilin (a : Args)
  /-- `smp.trilin` (R345): Samples a texture with trilinear filtering. -/
  | smpTrilin (a : Args)
  /-- `smp.aniso` (R345): Samples a texture with anisotropic filtering. -/
  | smpAniso (a : Args)
  /-- `vis` (R346): Starts a primary-visibility pass. -/
  | vis (a : Args)
  /-- `replay` (R339): Re-solves a logged final intersection and writes derivatives. -/
  | replay (a : Args)
  /-- PAIRED_WORD (R64): Issues two restricted half-ops together in one word. -/
  | pairedWord (p : Bool) (h0 h1 : Half)
  /-- POWER_GOOD (R378): Power-good starts stage 0 under the hardware boot sequencer. -/
  | powerGood
  /-- POWER_REMOVED (R378): Removal of power stops everything, with no always-on domain. -/
  | powerRemoved
  /-- BOOT_ROM_AUTHENTICATE (R377): Release of core 0 runs the boot ROM, which authenticates the firmware image. The image lies in the board's flash at `off` with `len` bytes; `code` gives the failure code, should it be refused. -/
  | bootRomAuthenticate (off len code : Nat)
  /-- STACK_TRAINING_DONE (R378): A stack finishes training and enters service, or is retired. -/
  | stackTrainingDone (stack : Nat) (passes passesOnSpares : Bool)
  /-- HOST_LINK_TRAIN (R38): The host link trains to a rate and width. -/
  | hostLinkTrain (rate width : Nat)
  /-- FLOZOR_LINK_BRINGUP (R35): Link bring-up, at which Millwright assigns node identifiers. -/
  | flozorLinkBringup (port rate : Nat) (node : BitVec 12)
  /-- ATTESTATION_REQUEST (R377): The boot core answers with a signed measurement report. -/
  | attestationRequest
  /-- BOOT_STAGE_READ (R40): Mailbox command 1 returns BOOT_STAGE in MBX_IN. -/
  | bootStageRead
  /-- BOOT_IMAGE (R40): Mailbox command 2 boots the image in the boot buffer. -/
  | bootImage
  /-- DEVICE_RESET (R40): Mailbox command 3 resets the device. -/
  | deviceReset
  /-- MBX_MESSAGE (R40): From stage 2, a posted MBX_OUT message is served by Millwright core 1. -/
  | mbxMessage
  /-- MBX_STAT_READ (R40): Reading MBX_STAT clears its reply bit. -/
  | mbxStatRead
  /-- BOOT_BUFFER_WRITE (R40): The host writes a firmware image to the boot buffer in stages 0 and 1. -/
  | bootBufferWrite (off : Nat) (v : Word64)
  /-- BAR2_WIN (R40): A host write places the BAR2 window, and a misaligned address is ignored. -/
  | bar2Win (v : Word64)
  /-- BAR2_RESIZE (R40): A resize of BAR2 clears the BAR2_WIN bits below the new size. -/
  | bar2Resize (log2 : Nat)
  /-- BAR2_ACCESS (R41): A host access through BAR2 reaches HBM on the host path, or aborts before full function. -/
  | bar2Access (x : HostSpan) (store : Option Nat)
  /-- BFP_SCR_WRITE (R168): A BAR0 write of BFP_SCR starts a bin-floor repartition. -/
  | bfpScrWrite (core : Nat) (v : Word)
  /-- NOTIFY (R283): A doorbell write of a new TAIL is applied by the doorbell unit. -/
  | notify (q : Nat) (v : Word)
  /-- SVC_DONE (R364): The server posts the index of a completed svc entry. -/
  | svcDone (ctx idx : Nat)
  /-- REGISTER_WRITE (R40): Write to a register that has no row of its own, with the reserved-value rule. -/
  | registerWrite (off width : Nat) (v : Option Word64)
  /-- EGRESS_WINDOW_PROGRAM (R376): The host or the boot core programs the egress windows before they lock. -/
  | egressWindowProgram (byHost : Bool) (idx base limit : Nat)
  /-- CORE_HOT (R374): A core junction reaches 95 °C and counts as hot for Fantail. -/
  | coreHot (r : Reading)
  /-- CORE_DUTY_CYCLE (R374): At 100 °C, issue is duty-cycled at 50 %. -/
  | coreDutyCycle (core : Nat)
  /-- DUTY_CYCLE_DEEPEN (R374): After 1 ms more, the duty cycle drops to 25 %. -/
  | dutyCycleDeepen (core : Nat)
  /-- HBM_THERMAL_NARROW (R374): An HBM stack at 95 °C drops its channels to 32-bit width. -/
  | hbmThermalNarrow (r : Reading)
  /-- THERMAL_TRIP (R374): Any die at 110 °C removes package power. -/
  | thermalTrip (temp : Nat)
  /-- FANTAIL_MIGRATION (R294): Fantail moves an eligible crew to a cooler core of the same die. -/
  | fantailMigration (crew core : Nat)
  /-- CORRECTED_ERROR (R371): A correctable error is corrected and counted. -/
  | correctedError (part : Nat)
  /-- UNCORRECTABLE_ERROR (R371): An uncorrectable error poisons its 64-byte atom. -/
  | uncorrectableError (key : Nat)
  /-- FLOZOR_LANE_FAIL (R37): A failed Flozor lane is replaced by its spare. -/
  | flozorLaneFail (port lane : Nat)
  /-- FLOZOR_MESSAGE_DROP (R37): A message that fails after retries is dropped and its loss reported. -/
  | flozorMessageDrop (m : LostMessage)
  /-- CHANNEL_RETIRE_BEGIN (R167): Retirement fences an HBM channel onto its spare. -/
  | channelRetireBegin (stack ch : Nat)
  /-- CHANNEL_FENCE_DRAINED (R167): The last pre-fence request completes and copying begins. -/
  | channelFenceDrained (stack ch : Nat)
  /-- ATOM_COPY (R167): The next absent atom is copied to the spare channel. -/
  | atomCopy (stack ch atom : Nat) (uncorrectable : Bool)
  /-- CHANNEL_NARROW (R166): Millwright switches a channel to 32-bit width. -/
  | channelNarrow (stack ch : Nat)
  /-- SPARE_CORE_REPLACE (R373): A spare core takes a retired core's logical index. -/
  | spareCoreReplace (core : Nat)
  /-- DRAM_ROW_REMAP (R373): A failing DRAM row is copied and remapped. -/
  | dramRowRemap (stack bank row : Nat)
  /-- RAY_PIPE_SPARE (R373): A spare ray pipe replaces a failing one at treelet exit. -/
  | rayPipeSpare (stack pipe : Nat)
  /-- BINFLOOR_WAY_SPARE (R373): A spare bin-floor way takes a failing way's place. -/
  | binfloorWaySpare (core way : Nat)
  /-- HOST_CMD_NOP (R281): A NOP command completes at once. -/
  | hostCmdNop (q : Nat)
  /-- HOST_CMD_LAUNCH (R278): A LAUNCH command checks its launch record and admits the run. -/
  | hostCmdLaunch (q : Nat)
  /-- HOST_CMD_WAIT (R281): A WAIT command holds later commands until a word reaches a value. -/
  | hostCmdWait (q : Nat)
  /-- HOST_CMD_SIGNAL (R281): A SIGNAL command writes a value after earlier commands complete. -/
  | hostCmdSignal (q : Nat)
  /-- SEED_ENQUEUE (R279): After its ranges migrate, the run's spans are placed and its seed is queued. -/
  | seedEnqueue (run : Nat)
  /-- WALKER_PASS (R284): The walker passes over the run lists, mapping and unmapping queues. -/
  | walkerPass
  /-- DOORBELL_SWITCH (R283): A mapping completes, and the walker takes the saved DOORBELL value. -/
  | doorbellSwitch (q : Nat)
  /-- UNMAP_WRITEBACK (R283): HEAD and TAIL are written back, and the queue is UNMAPPED. -/
  | unmapWriteback (q : Nat)
  /-- QUEUE_IDLE_TIMEOUT (R284): A mapped queue idle for 2^16 cycles becomes unmappable. -/
  | queueIdleTimeout (q : Nat)
  /-- CREW_SLOT_TAKE (R280): An idle ordinary crew slot takes the next ready record that fits. -/
  | crewSlotTake (die : Nat)
  /-- CREW_RETIRE (R123): A crew retires when all threads have exited and all counters are zero. -/
  | crewRetire (crew : Nat)
  /-- AGE_LIMIT_REACHED (R108): A group's age reaches AGE_LIMIT and takes priority. -/
  | ageLimitReached (crew tid : Nat)
  /-- MEET_TIMEOUT (R114): A meet group is released alone after MEET_LIMIT cycles. -/
  | meetTimeout (crew tid : Nat)
  /-- BARRIER_STALL (R116): A barrier's stall counter reaches STALL_LIMIT and raises STALL. -/
  | barrierStall (crew bar : Nat)
  /-- REGANG_STALL (R116): A waiting regang reaches STALL_LIMIT and raises STALL. -/
  | regangStall (crew hgang : Nat)
  /-- WALK_COMPLETE (R162): A table walk ends at a leaf or an invalid entry. -/
  | walkComplete (walk : Nat)
  /-- FAULT_REPLY_RESOLVED (R162): A resolved reply makes the parked lanes walk again. -/
  | faultReplyResolved (walk : Nat)
  /-- FAULT_REPLY_UNRESOLVABLE (R162): An unresolvable reply delivers PAGE UNMAPPED to the parked lanes. -/
  | faultReplyUnresolvable (walk : Nat)
  /-- XLT_INV (R163): A write with GO starts invalidation of cached translations. -/
  | xltInv (ctx : Nat) (v : Word64)
  /-- XLT_INV_DONE (R163): GO returns to 0 when no copy remains and old accesses have landed. -/
  | xltInvDone (ctx : Nat)
  /-- MIGRATION_START (R164): Millwright allocates a destination frame and begins moving a page. -/
  | migrationStart (ctx va frame : Nat)
  /-- MIGRATION_LINE_COPY (R164): A locked line's copy lands and its moved bit is set. -/
  | migrationLineCopy (mig : Nat)
  /-- LOAD_COMPLETE (R175): A load's data returns and its destination is written. -/
  | loadComplete (ld : Nat)
  /-- STORE_ACK (R175): A store is acknowledged by its home or bank. -/
  | storeAck (st : Nat)
  /-- BFP_CHANGE_COMPLETE (R168): A bin-floor repartition finishes its write-backs and takes effect. -/
  | bfpChangeComplete (core : Nat)
  /-- QUIESCENCE_EPOCH_ADVANCE (R208): A die's quiescence epoch advances once its earlier regions end. -/
  | quiescenceEpochAdvance (die : Nat)
  /-- SHARED_WRITE_RELEASE (R208): A write waiting on a read-shared line proceeds once the readers end. -/
  | sharedWriteRelease (st : Nat)
  /-- RACE_WAIT_EXPIRY (R209): A waiting write passes RACE_WAIT and raises RACE SHARED or CAPACITY. -/
  | raceWaitExpiry (st : Nat)
  /-- GENERATOR_SLOT_TAKE (R188): An idle reserved slot takes a generator record. -/
  | generatorSlotTake (die : Nat)
  /-- BLOCK_FULL (R189): All pfills have arrived and been acknowledged; the block becomes FULL and its waiters wake. -/
  | blockFull (crew : Nat)
  /-- WAIT_LIST_OVERFLOW_RETRY (R187): A demander on the overflow list is retried as entries free. -/
  | waitListOverflowRetry (die : Nat)
  /-- GENERATOR_STEP_ASIDE (R191): A generator that has waited 256 cycles yields its slot to a deeper record. -/
  | generatorStepAside (crew : Nat)
  /-- GENERATOR_RESTORE (R191): A stepped-aside generator is restored into the next idle reserved slot. -/
  | generatorRestore (crew : Nat)
  /-- RECLAIM (R195): Millwright reclaims a page of a RECLAIM range under pressure. -/
  | reclaim (ctx va : Nat)
  /-- QUERN_EXPANSION_DONE (R197): Quern finishes expanding a compressed page and wakes its demanders. -/
  | quernExpansionDone (ctx va frame : Nat)
  /-- QUERN_EXPANSION_FAIL (R197): A failed expansion places the page on the failed-page list. -/
  | quernExpansionFail (ctx va status : Nat)
  /-- RECOMPRESSION (R197): Millwright recompresses an expanded page in the background. -/
  | recompression (ctx va image : Nat)
  /-- ARW_WAIT_STALL (R229): A held arw.wait reaches STALL_LIMIT and raises STALL. -/
  | arwWaitStall (crew tid : Nat)
  /-- WAIT_STALL (R225): A held wait reaches STALL_LIMIT and raises STALL with detail 22. -/
  | waitStall (crew tid : Nat)
  /-- STAGING_LOAD_CHUNK (R257): Flume stages a 4 KiB chunk of a tdef.stage source. -/
  | stagingLoadChunk (req : Nat)
  /-- K_STEP (R92): The matrix array sums one k-step into the FP22 partial. -/
  | kStep (req : Nat)
  /-- PROMOTION (R92): The tile ALU scales the partial and adds it into the accumulator tile. -/
  | promotion (req : Nat)
  /-- ELEMENTWISE_PASS (R261): The tile ALU computes an elementwise, reduction, map or conversion pass. -/
  | elementwisePass (req : Nat)
  /-- STORE_CHUNK (R244): The sequencer writes up to 4 KiB of a destination window. -/
  | storeChunk (req : Nat)
  /-- TILE_REQUEST_COMPLETE (R240): A tile request completes, and its parked threads wake. -/
  | tileRequestComplete (req : Nat)
  /-- TILE_STEP_FAULT (R246): A faulting step is charged to the demanding threads. -/
  | tileStepFault (req : Nat)
  /-- REQUEST_RESUME (R242): A set-aside tile request resumes when its wait ends. -/
  | requestResume (req : Nat)
  /-- TDEF_WAIT_OBSERVE (R257): The sequencer observes the awaited generation of a tdef.wait node. -/
  | tdefWaitObserve (req : Nat)
  /-- TACQ_STALL (R252): A waiting tacq reaches STALL_LIMIT and raises STALL. -/
  | tacqStall (crew tid : Nat)
  /-- THUNK_SLOT_FREED (R247): An append waiting for a free slot proceeds. -/
  | thunkSlotFreed (core : Nat)
  /-- THUNK_APPEND_STALL (R247): An append waiting on a full table reaches STALL_LIMIT. -/
  | thunkAppendStall (crew tid : Nat)
  /-- WATCH_REACHED (R249): A new watch has reached every die, and its append completes. -/
  | watchReached (core slot : Nat)
  /-- FLUME_CHUNK (R290): Flume performs one 4 KiB chunk and arrives with its bytes. -/
  | flumeChunk (req : Nat)
  /-- DEFERRED_ENGINE_FAULT (R291): An engine fault is raised at the thread's next instruction. -/
  | deferredEngineFault (crew tid : Nat)
  /-- RING_SERVE (R288): A ring push or pop is served at the descriptor's home. -/
  | ringServe (req : Nat)
  /-- RING_STALL (R289): A thread waiting at a ring reaches STALL_LIMIT. -/
  | ringStall (crew tid : Nat)
  /-- POPA_ANSWER (R298): A served popa writes its entry to scratchpad and arrives with 32 bytes. -/
  | popaAnswer (req : Nat)
  /-- COLL_MATCH (R292): Collectives of the members are matched, or marked mismatched. -/
  | collMatch (req : Nat) (peers : List CollPeer)
  /-- COLL_CHUNK (R292): The collective engine moves and reduces one 64 KiB chunk. -/
  | collChunk (req : Nat)
  /-- QUERN_BLOCK (R301): Quern processes one 64 KiB block of a job. -/
  | quernBlock (req : Nat)
  /-- RAY_ARRIVAL (R314): A ray message arrives at a base die and is queued in a leat. -/
  | rayArrival (ray : Nat)
  /-- LEAT_RELOAD (R314): Spilled rays are loaded back from the pond. -/
  | leatReload (stack : Nat)
  /-- TREELET_SCHEDULE (R315): The treelet scheduler chooses a leat to drain. -/
  | treeletSchedule (stack : Nat)
  /-- LEAT_AGE_EXPIRY (R315): A leat's oldest ray reaches LEAT_AGE, and the leat takes priority. -/
  | leatAgeExpiry (stack : Nat)
  /-- NODE_VISIT (R317): A ray pipe visits a node or leaf in traversal order. -/
  | nodeVisit (ray : Nat)
  /-- TAILRACE_RECORD (R325): A hit record arrives at the issuing core's ray table. -/
  | tailraceRecord (ray : Nat)
  /-- RAY_END (R325): The END message arrives, and the slot makes the final event once every record is in. -/
  | rayEnd (ray : Nat)
  /-- HOLD_LIMIT_EXPIRY (R329): A treelet held beyond HOLD_LIMIT expires its held rays. -/
  | holdLimitExpiry (hold : Nat)
  /-- PUBLISH_EXCHANGE (R329): PAGE and SHADOW are exchanged once the old page has no ray inside. -/
  | publishExchange (hold : Nat)
  /-- RAY_MESSAGE_LOST (R327): A lost ray message completes the ray with LOST. -/
  | rayMessageLost (ray : Nat)
  /-- FILTER_REQUEST (R335): A filter pipe serves a texture or hash-grid request and writes its result. -/
  | filterRequest (req : Nat)
  /-- VIS_BINNING (R338): A vis pass bins triangles into tiles in the pond. -/
  | visBinning (req : Nat)
  /-- VIS_TILE_TEST (R337): Tests a tile's bins and applies minkey to the visibility buffer. -/
  | visTileTest (req : Nat)
  /-- REPLAY_RESULT (R339): A ray pipe writes the replay result record. -/
  | replayResult (req : Nat)
  /-- SKID_END (R352): 12 cycles after the trap, every home gang stops after its skid. -/
  | skidEnd (crew : Nat)
  /-- CREW_SAVE_COMPLETE (R368): A crew's save image is written and its slot freed. -/
  | crewSaveComplete (crew : Nat)
  /-- TRAP_RECORD_POST (R356): The trap record is written to TRAPRING once its entry is free. -/
  | trapRecordPost (crew : Nat)
  /-- HANDLER_START (R356): A trap-handler crew starts when a core of the die has room. -/
  | handlerStart (crew : Nat)
  /-- CREW_CTL_RESUME (R357): ACT 0 restores the crew at its saved PCs. -/
  | crewCtlResume (crew : Nat)
  /-- CREW_CTL_RESUME_PAST (R357): ACT 1 resumes with the trapping threads past their word. -/
  | crewCtlResumePast (crew : Nat)
  /-- CREW_CTL_KILL (R357): ACT 2 makes every live thread of the crew exit. -/
  | crewCtlKill (crew : Nat)
  /-- CREW_CTL_ABORT (R357): ACT 3 aborts the run. -/
  | crewCtlAbort (crew : Nat)
  /-- TIMER_DUE (R362): An armed crew timer falls due and raises TIMER. -/
  | timerDue (crew : Nat)
  /-- SVC_REPLY (R364): The server's reply writes D of each active lane. -/
  | svcReply (call : Nat) (replies : List Word64)
  /-- SVC_REFUSED (R365): A refused call raises SVC with cause 2. -/
  | svcRefused (call : Nat)
  /-- CONTEXT_SWITCH_REQUEST (R367): A switch request halts every crew of the context on the die. -/
  | contextSwitchRequest (ctx : Nat)
  /-- COLLECTOR_SKID_DONE (R367): Every crew has ended its skid, and the cores' bit is set. -/
  | collectorSkidDone (ctx die : Nat)
  /-- ENGINE_STOP_POINT (R366): An engine reaches its stop point for the context and sets its bit. -/
  | engineStopPoint (ctx die engine : Nat)
  /-- SAVE_DONE (R367): The last saved byte is acknowledged, and the collector is DONE. -/
  | saveDone (ctx die : Nat)
  /-- CONTEXT_RESTORE (R367): Images are read back, the reply log applied, and crews placed before any issue. -/
  | contextRestore (ctx : Nat)
  /-- HITLD_STALL (R342): A thread held at hitld reaches STALL_LIMIT, and its crew takes STALL with detail 21. -/
  | hitldStall (crew tid : Nat)
  /-- FLOZOR_PEER_REQUEST (R219): A load, store, atomic or ring request from a peer device arrives over Flozor and is performed at this device's home slice, following moved bits and channel fences. -/
  | flozorPeerRequest (r : PeerRequest)
  /-- POWER_SHARE_REACHED (R26): A core die nears its power share, and Fantail migration, duty-cycling and HBM narrowing are applied in order. -/
  | powerShareReached (die : Nat)
  /-- CURRENT_LIMITER (R376): The independent current limiter holds the package's supply current within the fused limit, which delays results. -/
  | currentLimiter (die : Nat)
  deriving DecidableEq, Repr

end Sys2Proof
end

