-- ==== Sys2Proof/Decode.lean ====
section
/-! DEFINITION. The decoder of Sweby words: the opcode map (R58), the shape every opcode, modifier and form gives its fields, the checks of R66 in their order, and the encoder that writes the same fields back. -/

namespace Sys2Proof

/-- The major opcodes of R58. -/
inductive Op where
  | nop | br | brd | bri | call | calli | ret | exit
  | bar | vote | regang | meet | trap | sget | sset | cnt
  | iadd | isub | imul | imad | iminmax | iabsneg | logic | shift
  | bfx | bfi | bitc | icmp | sel | mov | movi | lea
  | plog | perm | shfl | idiv
  | fadd | fsub | fmul | ffma | fminmax | fabsneg | fcmp | fround
  | frcp | frsq | fsqrt | fdiv | fex2 | flg2 | fsin | fcos
  | fclass | fldexp | fdot2
  | cvt | cvtf8 | pxpack | pxunpack | amax | fmtw
  | ld | st | ldx | stx | pref | cctl | mig
  | pgen | pfill | pstat | pevict | ppin
  | atom | red | fence | xfence | wait | arw
  | tdef | tmm | tew | tred | tmap | tcvt | tforce | tst
  | tacq | trel | tdrop | tstat | cpy | cpyg | spawn | q
  | weir | coll | dcmp | join | trace | hitld | hitrep | tlpub
  | hgrid | smp | vis | replay
  deriving DecidableEq, Repr

/-- The opcode map of R58, row by row; `none` is a reserved cell. -/
def opMap : List (List (Option Op)) := [
  [some .nop, some .br, some .brd, some .bri, some .call, some .calli, some .ret, some .exit],
  [some .bar, some .vote, some .regang, some .meet, some .trap, some .sget, some .sset, some .cnt],
  [some .iadd, some .isub, some .imul, some .imad, some .iminmax, some .iabsneg, some .logic, some .shift],
  [some .bfx, some .bfi, some .bitc, some .icmp, some .sel, some .mov, some .movi, some .lea],
  [some .plog, some .perm, some .shfl, some .idiv, none, none, none, none],
  [some .fadd, some .fsub, some .fmul, some .ffma, some .fminmax, some .fabsneg, some .fcmp, some .fround],
  [some .frcp, some .frsq, some .fsqrt, some .fdiv, some .fex2, some .flg2, some .fsin, some .fcos],
  [some .fclass, some .fldexp, some .fdot2, none, none, none, none, none],
  [some .cvt, some .cvtf8, some .pxpack, some .pxunpack, some .amax, some .fmtw, none, none],
  [some .ld, some .st, some .ldx, some .stx, some .pref, some .cctl, some .mig, none],
  [some .pgen, some .pfill, some .pstat, some .pevict, some .ppin, none, none, none],
  [some .atom, some .red, some .fence, some .xfence, some .wait, some .arw, none, none],
  [some .tdef, some .tmm, some .tew, some .tred, some .tmap, some .tcvt, some .tforce, some .tst],
  [some .tacq, some .trel, some .tdrop, some .tstat, some .cpy, some .cpyg, some .spawn, some .q],
  [some .weir, some .coll, some .dcmp, some .join, some .trace, some .hitld, some .hitrep, some .tlpub],
  [some .hgrid, some .smp, some .vis, some .replay, none, none, none, none]]

/-- The opcode of a 7-bit code, or `none` for a reserved cell. -/
def opOf (n : Nat) : Option Op := ((opMap[n / 8]?).bind (·[n % 8]?)).join

/-- The 7-bit code of an opcode: its place in the map. -/
def opCode : Op → Nat
  | .nop => 0x00 | .br => 0x01 | .brd => 0x02 | .bri => 0x03 | .call => 0x04 | .calli => 0x05 | .ret => 0x06 | .exit => 0x07
  | .bar => 0x08 | .vote => 0x09 | .regang => 0x0A | .meet => 0x0B | .trap => 0x0C | .sget => 0x0D | .sset => 0x0E | .cnt => 0x0F
  | .iadd => 0x10 | .isub => 0x11 | .imul => 0x12 | .imad => 0x13 | .iminmax => 0x14 | .iabsneg => 0x15 | .logic => 0x16 | .shift => 0x17
  | .bfx => 0x18 | .bfi => 0x19 | .bitc => 0x1A | .icmp => 0x1B | .sel => 0x1C | .mov => 0x1D | .movi => 0x1E | .lea => 0x1F
  | .plog => 0x20 | .perm => 0x21 | .shfl => 0x22 | .idiv => 0x23
  | .fadd => 0x28 | .fsub => 0x29 | .fmul => 0x2A | .ffma => 0x2B | .fminmax => 0x2C | .fabsneg => 0x2D | .fcmp => 0x2E | .fround => 0x2F
  | .frcp => 0x30 | .frsq => 0x31 | .fsqrt => 0x32 | .fdiv => 0x33 | .fex2 => 0x34 | .flg2 => 0x35 | .fsin => 0x36 | .fcos => 0x37
  | .fclass => 0x38 | .fldexp => 0x39 | .fdot2 => 0x3A
  | .cvt => 0x40 | .cvtf8 => 0x41 | .pxpack => 0x42 | .pxunpack => 0x43 | .amax => 0x44 | .fmtw => 0x45
  | .ld => 0x48 | .st => 0x49 | .ldx => 0x4A | .stx => 0x4B | .pref => 0x4C | .cctl => 0x4D | .mig => 0x4E
  | .pgen => 0x50 | .pfill => 0x51 | .pstat => 0x52 | .pevict => 0x53 | .ppin => 0x54
  | .atom => 0x58 | .red => 0x59 | .fence => 0x5A | .xfence => 0x5B | .wait => 0x5C | .arw => 0x5D
  | .tdef => 0x60 | .tmm => 0x61 | .tew => 0x62 | .tred => 0x63 | .tmap => 0x64 | .tcvt => 0x65 | .tforce => 0x66 | .tst => 0x67
  | .tacq => 0x68 | .trel => 0x69 | .tdrop => 0x6A | .tstat => 0x6B | .cpy => 0x6C | .cpyg => 0x6D | .spawn => 0x6E | .q => 0x6F
  | .weir => 0x70 | .coll => 0x71 | .dcmp => 0x72 | .join => 0x73 | .trace => 0x74 | .hitld => 0x75 | .hitrep => 0x76 | .tlpub => 0x77
  | .hgrid => 0x78 | .smp => 0x79 | .vis => 0x7A | .replay => 0x7B

/-- What an operand field of a word holds. -/
inductive Role where
  /-- unused: 0xFF (R46) -/
  | no
  /-- a source at an operation's width of `n` registers: specials stand here, above 64 bits only %zero (R47) -/
  | src (n : Nat)
  /-- a register, pair, quad or octet that an entry limits to "v or s" registers: no special stands here -/
  | grp (n : Nat)
  /-- a base address: a pair or %zero (R174) -/
  | base
  /-- D that is read, of `n` registers: the column "As D" of R47 leaves %zero and no other special -/
  | data (n : Nat)
  /-- a transfer target: a pair, %link or %meet (R120) -/
  | target
  /-- A of `lea`: a pair, %meet, %link or %zero (R141) -/
  | leaBase
  /-- a uniform 32-bit source (R178) -/
  | uni
  /-- a destination of `n` registers: v, s or %zero -/
  | dst (n : Nat)
  /-- a predicate that is read -/
  | pred
  /-- a predicate that is written -/
  | pdst
  /-- an accumulator tile (R51) -/
  | tile
  /-- the role, or 0xFF for none -/
  | opt (r : Role)
  deriving DecidableEq, Repr

/-- What a word with one opcode, modifier and form holds in its fields. -/
structure Shape where
  d : Role := .no
  a : Role := .no
  b : Role := .no
  c : Role := .no
  /-- the values of X allowed in the R form -/
  x : Nat → Bool := (· == 0)
  /-- the values of imm27 allowed in the I form -/
  imm : Nat → Bool := fun _ => true
  /-- whether the form of the word is allowed (R60) -/
  form : Bool := true

/-- The fields of a full-form word as numbers; in the I form `imm` is `some` and B, C, X do not exist. -/
structure Raw where
  g : Nat
  neg : Bool
  op : Nat
  m : Nat
  d : Nat
  a : Nat
  b : Nat := 0xFF
  c : Nat := 0xFF
  x : Nat := 0
  imm : Option Nat
  deriving DecidableEq, Repr

/-- Registers in one element of the width field of an integer modifier (R55). -/
def intRegs (m : Nat) : Nat := if bitsOf m 3 2 = 1 then 2 else 1

/-- The IB immediate's "must be zero" bits (R59). -/
def ibImm (m imm : Nat) : Bool :=
  match bitsOf m 3 2 with
  | 2 => bitsOf imm 26 16 == 0
  | 3 => bitsOf imm 26 8 == 0
  | _ => true

/-- The FB immediate's "must be zero" bits (R59); also those of `fldexp` (R149). -/
def fbImm (m imm : Nat) : Bool := bitsOf m 3 2 < 2 || bitsOf imm 26 16 == 0

/-- The shape, if the modifier is legal. -/
def shapeIf (ok : Bool) (s : Shape) : Option Shape := if ok then some s else none

/-- Legal modifiers and shapes of the integer opcodes (R132). (DEDUCED, log entry 16; DEDUCED, log entry 17) -/
def intShape (op : Op) (m : Nat) (i : Bool) : Option Shape :=
  let sub := bitsOf m 7 5
  let sgn := bitAt m 4
  let wd := bitsOf m 3 2
  let sat := bitAt m 1
  let low := !bitAt m 0
  let n := intRegs m
  let w3264 := wd < 2
  match op with
  | .iadd | .isub => shapeIf (low && sub == 0) { d := .dst n, a := .src n, b := .src n, imm := ibImm m }
  | .imul => shapeIf (low && (sub == 0 || (sub == 1 && w3264 && !sat) || (sub == 2 && wd == 0 && !sat)))
      { d := .dst (if sub = 2 then 2 else n), a := .src n, b := .src n, imm := ibImm m }
  | .imad => shapeIf (low && !sat && ((sub == 0 && wd != 3) || (sub == 2 && wd == 0)))
      { d := .dst (if sub = 2 then 2 else n), a := .src n, b := .src n, c := if sub = 2 then .src 2 else .src n, form := !i }
  | .iminmax => shapeIf (low && sub < 2 && !sat) { d := .dst n, a := .src n, b := .src n, imm := ibImm m }
  | .iabsneg => shapeIf (low && sub < 2 && !sgn) { d := .dst n, a := .src n, form := !i }
  | .logic => shapeIf (low && sub < 6 && !sgn && !sat)
      { d := .dst n, a := .src n, b := if sub = 5 then .no else .src n,
        imm := fun v => if sub = 5 then v == 0 else ibImm m v }
  | .shift => shapeIf (low && sub < 4 && (!sat || sub == 0) && (!sgn || (sub == 0 && sat)))
      { d := .dst n, a := .src n, b := .src n, imm := ibImm m }
  | .bfx => shapeIf (low && sub == 0 && w3264 && !sat)
      { d := .dst n, a := .src n, b := .src 1, imm := fun v => bitsOf v 26 16 == 0 }
  | .bfi => shapeIf (low && sub == 0 && !sgn && w3264 && !sat)
      { d := .dst n, a := .src n, b := .src n, c := .src 1, form := !i }
  | .bitc => shapeIf (low && sub < 4 && !sgn && w3264 && !sat)
      { d := .dst (if sub = 3 then n else 1), a := .src n, form := !i }
  | .icmp => shapeIf (low && sub < 6 && w3264 && !sat) { d := .pdst, a := .src n, b := .src n, imm := ibImm m }
  | .sel => shapeIf (low && sub == 0 && !sgn && w3264 && !sat)
      { d := .dst n, a := .src n, b := .src n, c := .pred, form := !i }
  | .mov => shapeIf (low && sub == 0 && !sgn && !sat)
      { d := .dst n, a := if i then .no else .src n, imm := ibImm m }
  | .movi => shapeIf (low && !sgn && !sat && ((sub == 0 && w3264) || (sub == 1 && wd == 1) || (sub == 2 && w3264)))
      { d := .dst n, form := i,
        imm := fun v => sub != 2 || (if n = 2 then bitsOf v 26 10 == 0 else bitsOf v 26 5 == 0) }
  | .lea => shapeIf (low && w3264 && !sat)
      { d := .dst 2, a := .leaBase, b := .src n, x := fun _ => true }
  | .plog => shapeIf (low && sub < 5 && !sgn && wd == 0 && !sat)
      { d := .pdst, a := .pred, b := if sub < 3 then .pred else .no, form := !i }
  | .perm => shapeIf (m == 0)
      { d := .dst 1, a := if i then .src 2 else .src 1, b := .src 1, c := .src 1,
        imm := fun v => bitsOf v 26 16 == 0 }
  | .shfl => shapeIf (low && sub < 4 && !sgn && w3264 && !sat)
      { d := .dst n, a := .src n, b := .src 1, c := .opt .pdst, imm := fun v => bitsOf v 26 6 == 0 }
  | .idiv => shapeIf (low && sub < 3 && w3264)
      { d := .dst (if sub = 2 then 2 * n else n), a := .src n, b := .src n, imm := ibImm m }
  | _ => none

/-- Legal modifiers and shapes of the floating-point opcodes (R145). -/
def floatShape (op : Op) (m : Nat) (i : Bool) : Option Shape :=
  let rnd := bitsOf m 7 6
  let fi := bitAt m 5
  let fo := bitAt m 4
  let ty := bitsOf m 3 2
  let sat := bitAt m 1
  let b0 := bitAt m 0
  let n := intRegs m
  let scalar := ty < 2
  match op with
  | .fadd | .fsub | .fmul => shapeIf (!b0) { d := .dst n, a := .src n, b := .src n, imm := fbImm m }
  | .ffma => shapeIf (!b0) { d := .dst n, a := .src n, b := .src n, c := .src n, form := !i }
  | .fminmax => shapeIf (rnd == 0 && !fo && !sat) { d := .dst n, a := .src n, b := .src n, imm := fbImm m }
  | .fabsneg => shapeIf (rnd == 0 && !fi && !fo && !sat) { d := .dst n, a := .src n, form := !i }
  | .fcmp => shapeIf (scalar && !fo && !sat) { d := .pdst, a := .src n, b := .src n, imm := fbImm m }
  | .fround => shapeIf (!b0 && !fo && !sat) { d := .dst n, a := .src n, form := !i }
  | .frcp | .frsq | .fex2 | .flg2 | .fsin | .fcos =>
      shapeIf (scalar && rnd == 0 && !b0) { d := .dst n, a := .src n, form := !i }
  | .fsqrt => shapeIf (scalar && !b0) { d := .dst n, a := .src n, form := !i }
  | .fdiv => shapeIf (scalar && !b0) { d := .dst n, a := .src n, b := .src n, form := !i }
  | .fclass => shapeIf (rnd == 0 && !fo && !sat && (!b0 || !scalar))
      { d := .pdst, a := .src n, x := (· < 512), imm := (· < 512) }
  | .fldexp => shapeIf (!b0) { d := .dst n, a := .src n, b := .src 1, imm := fbImm m }
  | .fdot2 => shapeIf (!scalar && !b0) { d := .dst 1, a := .src 1, b := .src 1, c := .src 1, form := !i }
  | _ => none

/-- The types of `cvt` (R94): 0–7 integers, 8–11 floats, 12–13 packed. -/
def cvtRegs (t : Nat) : Nat := if t = 2 ∨ t = 3 ∨ t = 0xB then 2 else 1

/-- Whether a pair of `cvt` types and its X field stand in R95. -/
def cvtOk (dt st x : Nat) : Bool :=
  let isInt := fun t => t < 8
  let isFlt := fun t => 8 ≤ t && t < 12
  let isPck := fun t => t == 12 || t == 13
  let rnd := bitsOf x 10 9
  let fi := bitAt x 8
  let fo := bitAt x 7
  let sat := bitAt x 6
  if isInt st && isInt dt then dt != st && rnd == 0 && !fi && !fo
  else if isInt st && isFlt dt then !fi && !fo
  else if isFlt st && isInt dt then !fo && !sat
  else if isFlt st && isFlt dt then true
  else if st == 0xA && isPck dt then true
  else if isPck st && dt == 0xA then true
  else isPck st && isPck dt && dt != st

/-- The reason code of a format word (R90); 0 when it is valid. -/
def fmtReason (w : Nat) : Nat :=
  let fa := bitsOf w 3 0
  let fb := bitsOf w 7 4
  let fout := bitsOf w 11 8
  let sm := bitsOf w 13 12
  let pc := bitsOf w 16 14
  let eight := fun f => f == 3 || f == 4 || f == 6
  if bitsOf w 31 22 ≠ 0 then 1
  else if 6 < fa ∨ 6 < fb ∨ 6 < fout then 2
  else if sm = 3 then 3
  else if 4 < pc then 4
  else if (fa == 6) != (fb == 6) || (fa == 5) != (fb == 5) then 5
  else if (sm == 2) != (fa == 5 && fb == 5) || (sm == 1 && !(eight fa && eight fb)) then 6
  else if sm = 1 ∧ 2 < pc then 7
  else if (fout = 3 ∨ fout = 4 ∨ fout = 5) ∧ bitsOf w 21 20 ≠ 0 then 8
  else 0

/-- Legal modifiers and shapes of the conversions (R94–R102). -/
def convShape (op : Op) (m x : Nat) (i : Bool) : Option Shape :=
  match op with
  | .cvt =>
      let dt := bitsOf m 7 4
      let st := bitsOf m 3 0
      let pack := dt == 12 || dt == 13
      shapeIf (cvtOk dt st x)
        { d := .dst (if (st == 12 || st == 13) && dt == 0xA then 2 else cvtRegs dt), a := .src (cvtRegs st),
          b := if pack && st == 0xA then .src 1 else .no, x := fun v => bitsOf v 5 0 == 0, form := !i }
  | .cvtf8 => shapeIf (bitsOf m 7 6 == 0 && !bitAt m 0)
      (if bitAt m 2 then { d := .dst 4, a := .src 1, b := .grp 1, form := !i }
       else { d := .dst 1, a := .src 4, b := .grp 1, form := !i })
  | .pxpack => shapeIf (m == 0 || m == 32) { d := .dst 4, a := .src 1, form := !i }
  | .pxunpack => shapeIf (bitsOf m 7 5 == 0 && bitsOf m 3 2 == 0 && !bitAt m 0)
      { d := .dst 1, a := .src 4, b := .src 1, form := !i }
  | .amax => shapeIf (bitsOf m 7 6 == 0 && !bitAt m 4 && !bitAt m 1)
      { d := .dst (intRegs m), a := .src (intRegs m), form := !i }
  | .fmtw =>
      match m with
      | 0 => some { d := .dst 1, form := i, imm := fun v => bitsOf v 26 22 == 0 && fmtReason (bitsOf v 21 0) == 0 }
      | 1 => some { d := .pdst, a := .src 1, form := !i }
      | 2 => some { d := .dst 1, a := .src 1, form := !i }
      | _ => none
  | _ => none

/-- A special register of R359 by its number: width in bits, readable, writable. -/
def spr (n : Nat) : Option (Nat × Bool × Bool) :=
  match n with
  | 0x000 => some (16, true, false)
  | 0x001 => some (1, true, false)
  | 0x002 => some (12, true, false)
  | 0x003 => some (32, true, false)
  | 0x004 => some (64, true, false)
  | 0x010 => some (16, true, true)
  | 0x011 => some (32, true, true)
  | 0x012 => some (32, true, true)
  | 0x013 => some (32, true, true)
  | 0x014 => some (32, true, true)
  | 0x015 => some (32, true, true)
  | 0x016 => some (1, true, true)
  | 0x020 => some (64, true, true)
  | 0x021 => some (64, true, true)
  | 0x022 => some (64, true, true)
  | 0x023 => some (64, true, true)
  | 0x024 => some (64, true, true)
  | 0x030 => some (1, true, true)
  | 0x031 => some (32, true, false)
  | 0x040 => some (32, false, true)
  | _ => none

/-- Registers that a special register's operand occupies. -/
def sprRegs (n : Nat) : Nat := match spr n with
  | some (64, _, _) => 2
  | _ => 1

/-- Legal modifiers and shapes of the control and system opcodes (R118–R127, R379–R381). -/
def controlShape (op : Op) (m imm : Nat) (i : Bool) : Option Shape :=
  let sub := bitsOf m 7 5
  match op with
  | .nop | .exit | .regang => shapeIf (m == 0) { form := !i }
  | .br | .brd | .call => shapeIf (m == 0) { form := i }
  | .bri | .calli | .ret => shapeIf (m == 0) { a := .target, form := !i }
  | .bar => shapeIf (m < 3)
      { form := i, imm := fun v => bitsOf v 26 15 == 0 && bitsOf v 14 4 ≤ 1024 && (m != 2 || bitsOf v 14 4 == 0) }
  | .vote => match m with
      | 0 | 1 => some { d := .pdst, a := .pred, form := !i }
      | 2 => some { d := .dst 2, a := .pred, form := !i }
      | 3 => some { d := .pdst, a := .src 1, form := !i }
      | _ => none
  | .meet => shapeIf (m == 0) { a := if i then .no else .target }
  | .trap => shapeIf (sub < 3 && bitsOf m 4 0 == 0)
      (if sub = 1 then { d := .dst 2, a := .src 4, form := i, imm := fun v => bitsOf v 26 16 == 0 }
       else { form := i, imm := fun v => bitsOf v 26 16 == 0 })
  | .sget => shapeIf (m == 0)
      { d := .dst (sprRegs (bitsOf imm 11 0)), form := i,
        imm := fun v => bitsOf v 26 12 == 0 && (match spr (bitsOf v 11 0) with | some (_, r, _) => r | none => false) }
  | .sset => shapeIf (m == 0)
      { a := .src (sprRegs (bitsOf imm 11 0)), form := i,
        imm := fun v => bitsOf v 26 12 == 0 && (match spr (bitsOf v 11 0) with | some (_, _, w) => w | none => false) }
  | .cnt => shapeIf (sub < 5 && bitsOf m 3 0 == 0 && (!bitAt m 4 || sub == 2))
      (match sub with
       | 0 | 1 | 4 => { d := .dst 2, form := !i }
       | 2 => { a := if i then .no else .src 2 }
       | _ => { form := !i })
  | _ => none

/-- Legal modifiers and shapes of the memory opcodes (R174–R179). -/
def memShape (op : Op) (m : Nat) (i : Bool) : Option Shape :=
  let wd := bitsOf m 7 5
  let strong := bitAt m 4
  let pol := bitsOf m 3 2
  let scope := bitsOf m 1 0
  let n := if wd = 3 then 2 else if wd = 4 then 4 else 1
  let ok := wd < 5 && (if strong then pol == 0 && wd < 4 else scope == 0)
  match op with
  | .ld => shapeIf ok { d := .dst n, a := .base, b := .opt (.src 1), x := fun _ => true }
  | .st => shapeIf ok { d := .data n, a := .base, b := .opt (.src 1), x := fun _ => true }
  | .ldx => shapeIf ok { d := .dst n, a := .grp 4, b := .src 1 }
  | .stx => shapeIf ok { d := .data n, a := .grp 4, b := .src 1 }
  | .pref => shapeIf (wd < 3 && !strong && scope == 0 && pol != 2)
      { a := .base, b := .opt (.src 1), x := fun _ => true }
  | .cctl => match bitsOf m 7 4 with
      | 0 => shapeIf (bitsOf m 3 0 == 0) { form := !i }
      | 6 => shapeIf (bitsOf m 3 0 == 0) { d := .dst 1, b := .uni, imm := (· ≤ 8) }
      | s => shapeIf (bitsOf m 3 0 == 0 && s < 6) { a := .src 2, b := .src 1 }
  | .mig => shapeIf (wd < 2 && bitsOf m 4 0 == 0) { a := .src 2, b := .src 2, c := .src 1, form := !i }
  | _ => none

/-- Legal modifiers and shapes of the Sluice opcodes (R198–R201). -/
def sluiceShape (op : Op) (m : Nat) (i : Bool) : Option Shape :=
  let sub := bitsOf m 7 5
  let z := bitsOf m 4 0 == 0
  match op with
  | .pgen => shapeIf (z && sub < 2) { d := .dst 1, a := if sub = 0 then .src 2 else .src 1, form := !i }
  | .pfill => shapeIf (z && sub < 2) { a := if sub = 0 then .no else .src 1, form := !i }
  | .pstat => shapeIf (z && sub < 2)
      (if sub = 0 then { d := .dst 1, a := .src 2, form := !i } else { d := .dst 4, a := .src 1, form := !i })
  | .pevict => shapeIf (z && sub == 0) { d := .opt (.dst 1), a := .src 2, b := .src 1, form := !i }
  | .ppin => shapeIf (z && sub < 2) { d := .opt (.dst 1), a := .src 2, b := .src 1, form := !i }
  | _ => none

/-- Legal modifiers and shapes of the ordering opcodes (R221–R227). -/
def orderShape (op : Op) (m x : Nat) (i : Bool) : Option Shape :=
  let f := bitsOf m 7 4
  let ord := bitsOf m 3 2
  let scope := bitsOf m 1 0
  let n := if bitAt x 0 then 2 else 1
  let lim := f < 10 && (!bitAt x 1 || f == 1 || f == 2) && (f != 9 || bitAt x 0)
  match op with
  | .atom => shapeIf lim
      { d := .dst n, a := .grp 2, b := .src n, c := if f = 7 then .src n else .no, x := (· < 4), form := !i }
  | .red => shapeIf (lim && f != 6 && f != 7 && !bitAt ord 0) { a := .grp 2, b := .src n, x := (· < 4), form := !i }
  | .fence => shapeIf (f == 0 && ord != 0) { form := !i }
  | .xfence =>
      let p1 := bitsOf m 7 5
      let p2 := bitsOf m 4 2
      shapeIf (p1 != p2 && ((p1 != 7 && p2 != 7) || scope == 3))
        { form := !i || p2 == 3 || p2 == 4, imm := fun v => bitsOf v 26 16 == 0 && bitsOf v 15 0 != 0 }
  | .wait => shapeIf (m == 0) { form := i }
  | .arw =>
      let sub := bitsOf m 7 5
      shapeIf (sub < 4 && bitsOf m 4 0 == 0)
        { d := if sub = 0 then .no else .opt (.dst 1), a := .base, b := .src 1, x := fun _ => true, form := !i }
  | _ => none

/-- Legal modifiers and shapes of the tile opcodes (R255–R270). -/
def tileShape (op : Op) (m : Nat) (i : Bool) : Option Shape :=
  let sub := bitsOf m 7 5
  let z := bitsOf m 4 0 == 0
  let org : Role := .opt (.src 1)
  match op with
  | .tdef => shapeIf (z && sub < 4)
      (match sub with
       | 0 => { d := .dst 1, a := .grp 4, form := !i }
       | 1 => { d := .dst 1, a := .grp 4, b := .grp 4, form := !i }
       | 2 => { d := .dst 1, a := .grp 4, b := .src 1, c := .src 2, form := !i }
       | _ => { d := .dst 1, a := .tile, b := .src 1, form := !i })
  | .tmm => shapeIf (m < 2) { d := .dst 1, a := .src 1, b := .src 1, c := .src 1, x := (· < 16), form := !i }
  | .tew => shapeIf z { d := .dst 1, a := .src 1, b := if sub < 4 then .src 1 else .no, form := !i }
  | .tred => shapeIf (z && sub < 2) { d := .dst 1, a := .src 1, form := !i }
  | .tmap => shapeIf (z && sub < 5)
      { d := .dst 1, a := .src 1, b := if sub = 1 ∨ sub = 4 then .src 1 else .no,
        c := if 1 ≤ sub ∧ sub ≤ 3 then .src 1 else .no, form := !i }
  | .tcvt => shapeIf (m == 0) { d := .dst 1, a := .src 1, b := .src 1, form := !i }
  | .tforce => shapeIf (z && sub < 2)
      (if sub = 0 then { a := .src 1, x := (· < 16), form := !i }
       else { a := .src 1, b := .grp 4, c := org, form := !i })
  | .tst => shapeIf (m == 0) { a := .src 1, b := .grp 4, c := org, form := !i }
  | .tacq => shapeIf (z && sub < 2) { d := if sub = 0 then .no else .pdst, a := .tile, form := !i }
  | .trel => shapeIf (m == 0) { a := .tile, form := !i }
  | .tdrop => shapeIf (z && sub < 2) { a := if sub = 0 then .src 1 else .no, form := !i }
  | .tstat => shapeIf (z && sub < 3)
      { d := .dst 1, a := if sub = 0 then .src 1 else if sub = 1 then .no else .tile, form := !i }
  | _ => none

/-- Legal modifiers and shapes of the task and engine opcodes (R296–R302). -/
def taskShape (op : Op) (m : Nat) (i : Bool) : Option Shape :=
  let sub := bitsOf m 7 5
  let try_ := bitAt m 4
  let z4 := bitsOf m 3 0 == 0
  let pol := bitsOf m 3 2
  match op with
  | .cpy => shapeIf (bitsOf m 7 4 == 0 && bitsOf m 1 0 == 0 && pol != 2)
      { d := .opt (.grp 2), a := .grp 2, b := .grp 2, c := .src 1, form := !i }
  | .cpyg => shapeIf (bitsOf m 7 4 == 0 && bitsOf m 1 0 == 0 && pol != 2)
      { d := .opt (.grp 2), a := .grp 2, b := .grp 2, c := .src 4, form := !i }
  | .spawn => shapeIf (m == 0)
      { d := .data 8, a := .src 1, x := fun v => v < 32 && (bitAt v 4 || v == 0), form := !i }
  | .q => shapeIf (z4 && sub < 3 && (!try_ || sub == 1))
      (match sub with
       | 0 => { d := .data 8, a := .grp 2, c := .opt .pdst, form := !i }
       | 1 => { d := .dst 8, a := .grp 2, c := if try_ then .pdst else .no, form := !i }
       | _ => { d := .grp 2, a := .grp 2, b := .grp 2, form := !i })
  | .weir => shapeIf (z4 && sub < 3 && (!try_ || sub < 2))
      (match sub with
       | 0 => { d := .data 8, a := .grp 2, c := if try_ then .pdst else .opt .pdst, form := !i }
       | 1 => { d := .dst 8, a := .grp 2, c := if try_ then .pdst else .no, form := !i }
       | _ => { d := .dst 1, a := .grp 2, form := !i })
  | .coll | .dcmp => shapeIf (m == 0) { d := .opt (.grp 2), a := .grp 2, form := !i }
  | .join => shapeIf (sub < 2 && bitsOf m 4 0 == 0) { d := .opt (.dst 1), a := .src 1, form := !i }
  | _ => none

/-- Legal modifiers and shapes of the ray and filter opcodes (R341–R346). (DEDUCED, log entry 19; DEDUCED, log entry 20) -/
def rayShape (op : Op) (m : Nat) (i : Bool) : Option Shape :=
  let sub := bitsOf m 7 5
  let z := bitsOf m 4 0 == 0
  match op with
  | .trace => shapeIf (bitsOf m 7 6 != 3 && bitsOf m 3 0 == 0)
      { d := if bitAt m 4 then .data 2 else .no, a := .src (if bitAt m 5 then 16 else 8), b := .src 2, c := .src 1,
        x := fun v => v < 16 && !(bitAt v 2 && bitAt v 3), form := !i }
  | .hitld => shapeIf (bitsOf m 7 5 == 0 && bitsOf m 3 1 == 0)
      { d := .dst 8, c := if bitAt m 4 then .pdst else .no, form := !i }
  | .hitrep => shapeIf (sub < 5 && bitsOf m 3 0 == 0 && (!bitAt m 4 || 3 ≤ sub))
      (if sub < 3 then { d := .opt .pdst, form := !i }
       else { d := .opt .pdst, a := if bitAt m 4 then .src 2 else .src 1, b := .src 1, c := .src 2, form := !i })
  | .tlpub => shapeIf (z && sub < 3) { d := .dst 1, a := .src 2, b := .src 1, form := !i }
  | .hgrid => shapeIf (m == 0) { d := .data 2, a := .src 4, b := .src 2, c := .opt (.src 2), form := !i }
  | .smp => shapeIf (z && sub < 5)
      { d := .dst 4, a := .src (if sub = 4 then 8 else 4), b := .src 2, c := .opt (.src 2), form := !i }
  | .vis => shapeIf (m == 0) { d := .opt (.data 2), a := .src 2, form := !i }
  | .replay => shapeIf (m == 0 || m == 32)
      { d := .data 2, a := .src (if bitAt m 5 then 16 else 8), b := .src 2, c := .src 1, form := !i }
  | _ => none

/-- The shape of a word, or `none` for ILL (MODIFIER). (DEDUCED, log entry 18) -/
def shapeOf (op : Op) (m x imm : Nat) (i : Bool) : Option Shape :=
  match op with
  | .nop | .br | .brd | .bri | .call | .calli | .ret | .exit | .bar | .vote | .regang | .meet | .trap | .sget | .sset | .cnt =>
      controlShape op m imm i
  | .iadd | .isub | .imul | .imad | .iminmax | .iabsneg | .logic | .shift | .bfx | .bfi | .bitc | .icmp | .sel | .mov | .movi | .lea
  | .plog | .perm | .shfl | .idiv => intShape op m i
  | .fadd | .fsub | .fmul | .ffma | .fminmax | .fabsneg | .fcmp | .fround | .frcp | .frsq | .fsqrt | .fdiv | .fex2 | .flg2
  | .fsin | .fcos | .fclass | .fldexp | .fdot2 => floatShape op m i
  | .cvt | .cvtf8 | .pxpack | .pxunpack | .amax | .fmtw => convShape op m x i
  | .ld | .st | .ldx | .stx | .pref | .cctl | .mig => memShape op m i
  | .pgen | .pfill | .pstat | .pevict | .ppin => sluiceShape op m i
  | .atom | .red | .fence | .xfence | .wait | .arw => orderShape op m x i
  | .tdef | .tmm | .tew | .tred | .tmap | .tcvt | .tforce | .tst | .tacq | .trel | .tdrop | .tstat => tileShape op m i
  | .cpy | .cpyg | .spawn | .q | .weir | .coll | .dcmp | .join => taskShape op m i
  | .trace | .hitld | .hitrep | .tlpub | .hgrid | .smp | .vis | .replay => rayShape op m i

/-- A reserved operand code (R47). -/
def codeReserved (v : Nat) : Bool := 0xFA ≤ v && v ≤ 0xFE

/-- A uniform operand code (R50). -/
def codeUniform (v : Nat) : Bool :=
  (0xC0 ≤ v && v < 0xF0) || v == 0xF0 || v == 0xF3 || v == 0xF4 || v == 0xF5 || v == 0xF8 || v == 0xF9

/-- Whether a code may stand in a role (KIND); an unused field is the FIELD check's. (DEDUCED, log entry 14) -/
def Role.kindOk (r : Role) (v : Nat) : Bool :=
  match r with
  | .no => true
  | .src n => v < 0xFA && (n ≤ 2 || v ≤ 0xF0)
  | .grp _ => v < 0xF0
  | .base | .data _ => v ≤ 0xF0
  | .target => v < 0xF0 || v == 0xF6 || v == 0xF7
  | .leaBase => v ≤ 0xF0 || v == 0xF6 || v == 0xF7
  | .uni => codeUniform v
  | .dst _ => v ≤ 0xF0
  | .pred | .pdst => v < 8
  | .tile => v < 16
  | .opt r => v == 0xFF || r.kindOk v

/-- Registers that a role occupies when a register stands in it. -/
def Role.regs : Role → Nat
  | .src n | .grp n | .dst n | .data n => n
  | .base | .target | .leaBase => 2
  | .uni => 1
  | .no | .pred | .pdst | .tile => 0
  | .opt r => r.regs

/-- Group alignment (GROUP): counted from v0 or from s0 (R49). -/
def Role.groupOk (r : Role) (v : Nat) : Bool :=
  match r.regs with
  | 0 => true
  | n => 0xF0 ≤ v || (if v < 0xC0 then v else v - 0xC0) % n == 0

/-- The limits in force for the gang that decodes: least v count, and accumulator tiles of the crew (R48, R251). -/
structure Limits where
  v : Nat := 192
  tiles : Nat := 16
  deriving DecidableEq, Repr

/-- REGRANGE: the whole group below the count in force, and the tile below the crew's. -/
def Role.rangeOk (lim : Limits) (r : Role) (v : Nat) : Bool :=
  match r with
  | .tile => v < lim.tiles
  | .opt r => v == 0xFF || r.rangeOk lim v
  | r => r.regs == 0 || 0xC0 ≤ v || v + r.regs ≤ lim.v

/-- FIELD: an unused field holds 0xFF. -/
def Role.fieldOk (r : Role) (v : Nat) : Bool := r != .no || v == 0xFF

/-- Whether the role reads a non-uniform value (R50). -/
def Role.nonUniform (r : Role) (v : Nat) : Bool :=
  match r with
  | .src _ | .grp _ | .base | .data _ | .target | .leaBase | .uni => !codeUniform v
  | .pred => v != 7
  | .opt r => v != 0xFF && r.nonUniform v
  | .no | .dst _ | .pdst | .tile => false

/-- Whether the role writes an s register. -/
def Role.writesS (r : Role) (v : Nat) : Bool :=
  match r with
  | .dst _ => 0xC0 ≤ v && v < 0xF0
  | .opt (.dst _) => 0xC0 ≤ v && v < 0xF0
  | _ => false

/-- The operand fields that the word has, with their roles: B and C exist in the R form only. (DEDUCED, log entry 15) -/
def Raw.fields (r : Raw) (s : Shape) : List (Role × Nat) :=
  if r.imm.isSome then [(s.d, r.d), (s.a, r.a)] else [(s.d, r.d), (s.a, r.a), (s.b, r.b), (s.c, r.c)]

/-- Whether the tile that `tmm` and `tforce.acc` hold in X is below the crew's count (R251). -/
def tileXOk (lim : Limits) (op : Op) (m x : Nat) : Bool :=
  match op with
  | .tmm => bitsOf x 3 0 < lim.tiles
  | .tforce => m != 0 || bitsOf x 3 0 < lim.tiles
  | _ => true

/-- The first failing check of a full-form word in the order of R66, as its ILL sub-code. -/
def Raw.ill (lim : Limits) (r : Raw) : Option Nat :=
  match opOf r.op with
  | none => some 0x01
  | some op =>
    match shapeOf op r.m r.x (r.imm.getD 0) r.imm.isSome with
    | none => some 0x03
    | some s =>
      let fs := r.fields s
      if fs.any (fun f => codeReserved f.2) then some 0x04
      else if !fs.all (fun f => f.1.kindOk f.2) then some 0x05
      else if !fs.all (fun f => f.1.groupOk f.2) then some 0x06
      else if !(fs.all (fun f => f.1.rangeOk lim f.2) && (r.imm.isSome || tileXOk lim op r.m r.x)) then some 0x07
      else if !(fs.all (fun f => f.1.fieldOk f.2) && (r.imm.isSome || s.x r.x)
          && (op != .regang || (r.g == 7 && !r.neg))) then some 0x08
      else if !s.form then some 0x09
      else if !(r.imm.all s.imm) then some 0x0A
      else if r.g == 7 && r.neg then some 0x0B
      else if fs.any (fun f => f.1.writesS f.2) && fs.any (fun f => f.1.nonUniform f.2) then some 0x0C
      else none

/-- How a half-op reads its fields (R65). -/
inductive HalfForm where
  /-- `nop` -/
  | nop
  /-- `op d, d, s` -/
  | dds
  /-- `op d, d, k` -/
  | ddk
  /-- `op d, s` -/
  | ds
  /-- `mov d, k` -/
  | dk
  /-- `sel d, s, d, pk` -/
  | sel
  deriving DecidableEq, Repr

/-- What K holds in a half (R65). -/
inductive HalfK where
  | zero | signed | unsigned | shift | e4m3 | pred
  deriving DecidableEq, Repr

/-- A row of the half-op table: the full form it is written as. -/
structure HalfRow where
  op : Op
  m : Nat := 0
  x : Nat := 0
  form : HalfForm := .dds
  k : HalfK := .zero
  deriving DecidableEq, Repr

/-- Half-ops 0x00–0x1F (R65). -/
def halfRowsInt : List HalfRow := [
  { op := .nop, form := .nop }, { op := .iadd }, { op := .isub }, { op := .iadd, form := .ddk, k := .signed },
  { op := .imul }, { op := .imul, m := 0x30 }, { op := .imul, m := 0x20 }, { op := .iminmax, m := 0x10 },
  { op := .iminmax, m := 0x30 }, { op := .iminmax }, { op := .iminmax, m := 0x20 }, { op := .iadd, m := 0x12 },
  { op := .isub, m := 0x12 }, { op := .logic }, { op := .logic, m := 0x20 }, { op := .logic, m := 0x40 },
  { op := .logic, m := 0x60 }, { op := .logic, form := .ddk, k := .unsigned },
  { op := .logic, m := 0x20, form := .ddk, k := .unsigned }, { op := .logic, m := 0x40, form := .ddk, k := .unsigned },
  { op := .shift }, { op := .shift, m := 0x20 }, { op := .shift, m := 0x40 }, { op := .shift, m := 0x60 },
  { op := .shift, form := .ddk, k := .shift }, { op := .shift, m := 0x20, form := .ddk, k := .shift },
  { op := .shift, m := 0x40, form := .ddk, k := .shift }, { op := .shift, m := 0x60, form := .ddk, k := .shift },
  { op := .mov, form := .ds }, { op := .mov, form := .dk, k := .signed }, { op := .iabsneg, form := .ds },
  { op := .iabsneg, m := 0x20, form := .ds }]

/-- Half-ops 0x20–0x3F (R65). -/
def halfRowsFloat : List HalfRow := [
  { op := .fadd }, { op := .fsub }, { op := .fmul }, { op := .fminmax },
  { op := .fminmax, m := 0x01 }, { op := .fabsneg, form := .ds }, { op := .fabsneg, m := 0x01, form := .ds },
  { op := .fadd, m := 0x02 }, { op := .fmul, m := 0x02 }, { op := .fadd, m := 0x40 }, { op := .fmul, m := 0x40 },
  { op := .fadd, form := .ddk, k := .e4m3 }, { op := .fmul, form := .ddk, k := .e4m3 },
  { op := .fldexp, form := .ddk, k := .signed }, { op := .fadd, m := 0x08 }, { op := .fsub, m := 0x08 },
  { op := .fmul, m := 0x08 }, { op := .fminmax, m := 0x08 }, { op := .fminmax, m := 0x09 }, { op := .fadd, m := 0x0C },
  { op := .fsub, m := 0x0C }, { op := .fmul, m := 0x0C }, { op := .fminmax, m := 0x0C }, { op := .fminmax, m := 0x0D },
  { op := .cvt, m := 0xA1, form := .ds }, { op := .cvt, m := 0xA0, form := .ds },
  { op := .cvt, m := 0x1A, x := 0x200, form := .ds }, { op := .cvt, m := 0x0A, x := 0x200, form := .ds },
  { op := .sel, form := .sel, k := .pred }, { op := .bitc, form := .ds }, { op := .bitc, m := 0x20, form := .ds },
  { op := .bitc, m := 0x60, form := .ds }]

/-- The row of a half-op code, or `none` for ILL (HALFOP). -/
def halfRow (n : Nat) : Option HalfRow :=
  if n < 0x20 then halfRowsInt[n]? else halfRowsFloat[n - 0x20]?

/-- The fields of a half as numbers (R61). -/
structure RawHalf where
  op : Nat
  d : Nat
  s : Nat
  k : Nat
  deriving DecidableEq, Repr

/-- Whether a half-op reads S. -/
def HalfForm.readsS : HalfForm → Bool
  | .dds | .ds | .sel => true
  | .nop | .ddk | .dk => false

/-- Whether a half-op reads D (R65). -/
def HalfForm.readsD : HalfForm → Bool
  | .dds | .ddk | .sel => true
  | .nop | .ds | .dk => false

/-- Whether K is a legal immediate or sub-field of the half-op. -/
def HalfK.ok (kind : HalfK) (k : Nat) : Bool :=
  match kind with
  | .zero | .signed | .unsigned => true
  | .shift => k < 32
  | .e4m3 => k != 0x7F && k != 0xFF
  | .pred => k < 8

/-- The first failing check of a half in the order of R66. -/
def RawHalf.ill (lim : Limits) (h : RawHalf) : Option Nat :=
  match halfRow h.op with
  | none => some 0x02
  | some r =>
    let rs := r.form.readsS
    if codeReserved h.d || codeReserved h.s then some 0x04
    else if r.form != .nop && 0xC0 ≤ h.d then some 0x05
    else if rs && h.s == 0xFF then some 0x05
    else if (r.form != .nop && lim.v ≤ h.d) || (rs && h.s < 0xC0 && lim.v ≤ h.s) then some 0x07
    else if (!rs && h.s != 0xFF) || (r.k == .zero && h.k != 0) || (r.form == .nop && h.d != 0xFF) then some 0x08
    else if !r.k.ok h.k then some 0x0A
    else none

/-- The v registers a half reads, and the one it writes (R63). -/
def RawHalf.reads (h : RawHalf) : List Nat :=
  match halfRow h.op with
  | none => []
  | some r => (if r.form.readsS && h.s < 0xC0 then [h.s] else []) ++ (if r.form.readsD then [h.d] else [])

def RawHalf.writes (h : RawHalf) : Option Nat :=
  if h.op = 0 then none else some h.d

/-- The first rule of R63 that two halves break. -/
def pairBank (h0 h1 : RawHalf) : Option Nat :=
  let clash := fun (w : Option Nat) (h : RawHalf) => match w with
    | none => false
    | some d => h.reads.contains d || h.writes == some d
  let same := match h0.writes, h1.writes with
    | some a, some b => a % 4 == b % 4
    | _, _ => false
  let rs := h0.reads ++ h1.reads
  if same then some 1
  else if clash h0.writes h1 || clash h1.writes h0 then some 2
  else if [0, 1, 2, 3].any (fun k => 2 < (rs.filter (· % 4 == k)).length) then some 3
  else none

/-- Why a word is not an instruction: a trap and its sub-code or rule number (R66, R63). -/
inductive Bad where
  | ill (sub : Nat)
  | pairbank (rule : Nat)
  deriving DecidableEq, Repr

/-- The 8-bit code of an operand (R47). -/
def Opnd.code : Opnd → Nat
  | .v n => n.val
  | .s n => 0xC0 + n.val
  | .sp .zero => 0xF0 | .sp .lane => 0xF1 | .sp .tid => 0xF2 | .sp .crew => 0xF3 | .sp .stage => 0xF4
  | .sp .gw => 0xF5 | .sp .meet => 0xF6 | .sp .link => 0xF7 | .sp .vclk => 0xF8 | .sp .core => 0xF9
  | .none => 0xFF

/-- The operand of a code; a reserved code reads as none (the decoder refuses it before). -/
def Opnd.ofCode (c : Nat) : Opnd :=
  if h : c < 192 then .v ⟨c, h⟩
  else if h : c - 192 < 48 then .s ⟨c - 192, h⟩
  else match c - 240 with
    | 0 => .sp .zero | 1 => .sp .lane | 2 => .sp .tid | 3 => .sp .crew | 4 => .sp .stage
    | 5 => .sp .gw | 6 => .sp .meet | 7 => .sp .link | 8 => .sp .vclk | 9 => .sp .core
    | _ => .none

/-- The fields of an instruction with a given opcode as numbers. -/
def Args.raw (op : Op) (a : Args) : Raw where
  g := a.guard.p
  neg := a.guard.neg
  op := opCode op
  m := a.m.toNat
  d := a.d.code
  a := a.a.code
  b := a.b.code
  c := a.c.code
  x := a.x.toNat
  imm := a.imm.map BitVec.toNat

/-- The fields of a word as the instruction holds them. -/
def Raw.args (r : Raw) : Args where
  guard := { p := Fin.ofNat 8 r.g, neg := r.neg }
  m := BitVec.ofNat 8 r.m
  d := Opnd.ofCode r.d
  a := Opnd.ofCode r.a
  b := Opnd.ofCode r.b
  c := Opnd.ofCode r.c
  x := BitVec.ofNat 11 r.x
  imm := r.imm.map (BitVec.ofNat 27)

def Half.raw (h : Half) : RawHalf where
  op := h.op.toNat
  d := h.d.code
  s := h.s.code
  k := h.k.toNat

def RawHalf.half (h : RawHalf) : Half where
  op := BitVec.ofNat 7 h.op
  d := Opnd.ofCode h.d
  s := Opnd.ofCode h.s
  k := BitVec.ofNat 8 h.k

/-- A word taken apart (R44, R61). -/
inductive Fields where
  | full (r : Raw)
  | paired (p : Bool) (h0 h1 : RawHalf)
  deriving DecidableEq, Repr

def unpackHalf (h : Nat) : RawHalf :=
  { op := bitsOf h 30 24, d := bitsOf h 23 16, s := bitsOf h 15 8, k := bitsOf h 7 0 }

/-- The fields of a 64-bit word. -/
def unpack (w : Nat) : Fields :=
  if bitAt w 63 then .paired (bitAt w 62) (unpackHalf (bitsOf w 30 0)) (unpackHalf (bitsOf w 61 31))
  else if bitAt w 62 then
    .full { g := bitsOf w 61 59, neg := bitAt w 58, op := bitsOf w 57 51, m := bitsOf w 50 43, d := bitsOf w 42 35,
            a := bitsOf w 34 27, imm := some (bitsOf w 26 0) }
  else
    .full { g := bitsOf w 61 59, neg := bitAt w 58, op := bitsOf w 57 51, m := bitsOf w 50 43, d := bitsOf w 42 35,
            a := bitsOf w 34 27, b := bitsOf w 26 19, c := bitsOf w 18 11, x := bitsOf w 10 0, imm := none }

def packHalf (h : RawHalf) : Nat := h.op * 2 ^ 24 + h.d * 2 ^ 16 + h.s * 2 ^ 8 + h.k

/-- The word with the given fields. -/
def pack : Fields → Nat
  | .paired p h0 h1 => 2 ^ 63 + p.toNat * 2 ^ 62 + packHalf h1 * 2 ^ 31 + packHalf h0
  | .full r =>
    let top := r.g * 2 ^ 59 + r.neg.toNat * 2 ^ 58 + r.op * 2 ^ 51 + r.m * 2 ^ 43 + r.d * 2 ^ 35 + r.a * 2 ^ 27
    match r.imm with
    | some v => 2 ^ 62 + top + v
    | none => top + r.b * 2 ^ 19 + r.c * 2 ^ 11 + r.x

/-- Why the fields are not an instruction, in the order of R66. -/
def Fields.bad (lim : Limits) : Fields → Option Bad
  | .full r => (r.ill lim).map .ill
  | .paired _ h0 h1 =>
    match h0.ill lim, h1.ill lim with
    | some e, _ => some (.ill e)
    | none, some e => some (.ill e)
    | none, none => (pairBank h0 h1).map .pairbank

/-- The instruction that an opcode and its fields stand for: the sub-op chooses the constructor. -/
def build (op : Op) (a : Args) : Option Instr :=
  let m := a.m.toNat
  match op with
  | .nop => some (.nop a)
  | .br => some (.br a)
  | .brd => some (.brd a)
  | .bri => some (.bri a)
  | .call => some (.call a)
  | .calli => some (.calli a)
  | .ret => some (.ret a)
  | .exit => some (.exit a)
  | .bar => match m with | 0 => some (.barSync a) | 1 => some (.barArrive a) | 2 => some (.barWait a) | _ => none
  | .vote => some (.vote a)
  | .regang => some (.regang a)
  | .meet => match a.imm.isSome with | true => some (.meetX a) | false => some (.meetSet a)
  | .trap => match bitsOf m 7 5 with | 0 => some (.trapTrap a) | 1 => some (.trapSvc a) | 2 => some (.trapBrk a) | _ => none
  | .sget => some (.sget a)
  | .sset => some (.sset a)
  | .cnt => match bitsOf m 7 5 with | 0 => some (.cntCclk a) | 1 => some (.cntVclk a) | 2 => some (.cntArm a) | 3 => some (.cntDisarm a) | 4 => some (.cntLeft a) | _ => none
  | .iadd => some (.iadd a)
  | .isub => some (.isub a)
  | .imul => some (.imul a)
  | .imad => some (.imad a)
  | .iminmax => some (.iminmax a)
  | .iabsneg => some (.iabsneg a)
  | .logic => some (.logic a)
  | .shift => some (.shift a)
  | .bfx => some (.bfx a)
  | .bfi => some (.bfi a)
  | .bitc => some (.bitc a)
  | .icmp => some (.icmp a)
  | .sel => some (.sel a)
  | .mov => some (.mov a)
  | .movi => some (.movi a)
  | .lea => some (.lea a)
  | .plog => some (.plog a)
  | .perm => some (.perm a)
  | .shfl => some (.shfl a)
  | .idiv => some (.idiv a)
  | .fadd => some (.fadd a)
  | .fsub => some (.fsub a)
  | .fmul => some (.fmul a)
  | .ffma => some (.ffma a)
  | .fminmax => some (.fminmax a)
  | .fabsneg => some (.fabsneg a)
  | .fcmp => some (.fcmp a)
  | .fround => some (.fround a)
  | .frcp => some (.frcp a)
  | .frsq => some (.frsq a)
  | .fsqrt => some (.fsqrt a)
  | .fdiv => some (.fdiv a)
  | .fex2 => some (.fex2 a)
  | .flg2 => some (.flg2 a)
  | .fsin => some (.fsin a)
  | .fcos => some (.fcos a)
  | .fclass => some (.fclass a)
  | .fldexp => some (.fldexp a)
  | .fdot2 => some (.fdot2 a)
  | .cvt => some (.cvt a)
  | .cvtf8 => some (.cvtf8 a)
  | .pxpack => some (.pxpack a)
  | .pxunpack => some (.pxunpack a)
  | .amax => some (.amax a)
  | .fmtw => match m with | 0 => some (.fmtwMk a) | 1 => some (.fmtwChk a) | 2 => some (.fmtwWhy a) | _ => none
  | .ld => some (.ld a)
  | .st => some (.st a)
  | .ldx => some (.ldx a)
  | .stx => some (.stx a)
  | .pref => some (.pref a)
  | .cctl => match bitsOf m 7 4 with | 0 => some (.cctlInvL1 a) | 1 => some (.cctlInvL1r a) | 2 => some (.cctlWbL2r a) | 3 => some (.cctlInvL2r a) | 4 => some (.cctlInvRdcr a) | 5 => some (.cctlUnpin a) | 6 => some (.cctlPart a) | _ => none
  | .mig => match bitsOf m 7 5 with | 0 => some (.migHint a) | 1 => some (.migMove a) | _ => none
  | .pgen => match bitsOf m 7 5 with | 0 => some (.pgenReg a) | 1 => some (.pgenUnreg a) | _ => none
  | .pfill => match bitsOf m 7 5 with | 0 => some (.pfill a) | 1 => some (.pfillFail a) | _ => none
  | .pstat => match bitsOf m 7 5 with | 0 => some (.pstat a) | 1 => some (.pstatFault a) | _ => none
  | .pevict => some (.pevict a)
  | .ppin => match bitsOf m 7 5 with | 0 => some (.ppinPin a) | 1 => some (.ppinUnpin a) | _ => none
  | .atom => some (.atom a)
  | .red => some (.red a)
  | .fence => some (.fence a)
  | .xfence => some (.xfence a)
  | .wait => some (.wait a)
  | .arw => match bitsOf m 7 5 with | 0 => some (.arwInit a) | 1 => some (.arwExpect a) | 2 => some (.arwArrive a) | 3 => some (.arwWait a) | _ => none
  | .tdef => match bitsOf m 7 5 with | 0 => some (.tdefSrc a) | 1 => some (.tdefStage a) | 2 => some (.tdefWait a) | 3 => some (.tdefAcc a) | _ => none
  | .tmm => some (.tmm a)
  | .tew => some (.tew a)
  | .tred => some (.tred a)
  | .tmap => some (.tmap a)
  | .tcvt => some (.tcvt a)
  | .tforce => match bitsOf m 7 5 with | 0 => some (.tforceAcc a) | 1 => some (.tforceScr a) | _ => none
  | .tst => some (.tst a)
  | .tacq => match bitsOf m 7 5 with | 0 => some (.tacq a) | 1 => some (.tacqTry a) | _ => none
  | .trel => some (.trel a)
  | .tdrop => match bitsOf m 7 5 with | 0 => some (.tdrop a) | 1 => some (.tdropAll a) | _ => none
  | .tstat => match bitsOf m 7 5 with | 0 => some (.tstat a) | 1 => some (.tstatTab a) | 2 => some (.tstatTok a) | _ => none
  | .cpy => some (.cpy a)
  | .cpyg => some (.cpyg a)
  | .spawn => some (.spawn a)
  | .q => match bitsOf m 7 4 with | 0 => some (.qPush a) | 2 => some (.qPop a) | 3 => some (.qPopTry a) | 4 => some (.qPopa a) | _ => none
  | .weir => match bitsOf m 7 5 with | 0 => some (.weirPush a) | 1 => some (.weirPop a) | 2 => some (.weirFree a) | _ => none
  | .coll => some (.coll a)
  | .dcmp => some (.dcmp a)
  | .join => match bitsOf m 7 5 with | 0 => some (.joinDec a) | 1 => some (.joinRet a) | _ => none
  | .trace => some (.trace a)
  | .hitld => match bitAt m 4 with | false => some (.hitld a) | true => some (.hitldTry a)
  | .hitrep => match bitsOf m 7 5 with | 0 => some (.hitrepAccept a) | 1 => some (.hitrepIgnore a) | 2 => some (.hitrepTerm a) | 3 => some (.hitrepCommit a) | 4 => some (.hitrepCommitTerm a) | _ => none
  | .tlpub => match bitsOf m 7 5 with | 0 => some (.tlpubHold a) | 1 => some (.tlpubPub a) | 2 => some (.tlpubStat a) | _ => none
  | .hgrid => some (.hgrid a)
  | .smp => match bitsOf m 7 5 with | 0 => some (.smpLd a) | 1 => some (.smpPoint a) | 2 => some (.smpBilin a) | 3 => some (.smpTrilin a) | 4 => some (.smpAniso a) | _ => none
  | .vis => some (.vis a)
  | .replay => some (.replay a)

/-- The opcode and fields of an instruction that has a full-form word. -/
def Instr.full : Instr → Option (Op × Args)
  | .nop a => some (.nop, a)
  | .br a => some (.br, a)
  | .brd a => some (.brd, a)
  | .bri a => some (.bri, a)
  | .call a => some (.call, a)
  | .calli a => some (.calli, a)
  | .ret a => some (.ret, a)
  | .exit a => some (.exit, a)
  | .barSync a => some (.bar, a)
  | .barArrive a => some (.bar, a)
  | .barWait a => some (.bar, a)
  | .vote a => some (.vote, a)
  | .regang a => some (.regang, a)
  | .meetX a => some (.meet, a)
  | .meetSet a => some (.meet, a)
  | .shfl a => some (.shfl, a)
  | .trapTrap a => some (.trap, a)
  | .trapBrk a => some (.trap, a)
  | .trapSvc a => some (.trap, a)
  | .sget a => some (.sget, a)
  | .sset a => some (.sset, a)
  | .cntCclk a => some (.cnt, a)
  | .cntVclk a => some (.cnt, a)
  | .cntArm a => some (.cnt, a)
  | .cntDisarm a => some (.cnt, a)
  | .cntLeft a => some (.cnt, a)
  | .iadd a => some (.iadd, a)
  | .isub a => some (.isub, a)
  | .imul a => some (.imul, a)
  | .imad a => some (.imad, a)
  | .iminmax a => some (.iminmax, a)
  | .iabsneg a => some (.iabsneg, a)
  | .logic a => some (.logic, a)
  | .shift a => some (.shift, a)
  | .bfx a => some (.bfx, a)
  | .bfi a => some (.bfi, a)
  | .bitc a => some (.bitc, a)
  | .icmp a => some (.icmp, a)
  | .sel a => some (.sel, a)
  | .plog a => some (.plog, a)
  | .mov a => some (.mov, a)
  | .movi a => some (.movi, a)
  | .lea a => some (.lea, a)
  | .perm a => some (.perm, a)
  | .idiv a => some (.idiv, a)
  | .fadd a => some (.fadd, a)
  | .fsub a => some (.fsub, a)
  | .fmul a => some (.fmul, a)
  | .ffma a => some (.ffma, a)
  | .fminmax a => some (.fminmax, a)
  | .fabsneg a => some (.fabsneg, a)
  | .fcmp a => some (.fcmp, a)
  | .fround a => some (.fround, a)
  | .fldexp a => some (.fldexp, a)
  | .fclass a => some (.fclass, a)
  | .fdot2 a => some (.fdot2, a)
  | .fsqrt a => some (.fsqrt, a)
  | .fdiv a => some (.fdiv, a)
  | .frcp a => some (.frcp, a)
  | .frsq a => some (.frsq, a)
  | .fex2 a => some (.fex2, a)
  | .flg2 a => some (.flg2, a)
  | .fsin a => some (.fsin, a)
  | .fcos a => some (.fcos, a)
  | .cvt a => some (.cvt, a)
  | .cvtf8 a => some (.cvtf8, a)
  | .pxpack a => some (.pxpack, a)
  | .pxunpack a => some (.pxunpack, a)
  | .amax a => some (.amax, a)
  | .fmtwMk a => some (.fmtw, a)
  | .fmtwChk a => some (.fmtw, a)
  | .fmtwWhy a => some (.fmtw, a)
  | .ld a => some (.ld, a)
  | .st a => some (.st, a)
  | .ldx a => some (.ldx, a)
  | .stx a => some (.stx, a)
  | .pref a => some (.pref, a)
  | .cctlInvL1 a => some (.cctl, a)
  | .cctlInvL1r a => some (.cctl, a)
  | .cctlWbL2r a => some (.cctl, a)
  | .cctlInvL2r a => some (.cctl, a)
  | .cctlInvRdcr a => some (.cctl, a)
  | .cctlUnpin a => some (.cctl, a)
  | .cctlPart a => some (.cctl, a)
  | .migHint a => some (.mig, a)
  | .migMove a => some (.mig, a)
  | .pgenReg a => some (.pgen, a)
  | .pgenUnreg a => some (.pgen, a)
  | .pfill a => some (.pfill, a)
  | .pfillFail a => some (.pfill, a)
  | .pstat a => some (.pstat, a)
  | .pstatFault a => some (.pstat, a)
  | .pevict a => some (.pevict, a)
  | .ppinPin a => some (.ppin, a)
  | .ppinUnpin a => some (.ppin, a)
  | .atom a => some (.atom, a)
  | .red a => some (.red, a)
  | .fence a => some (.fence, a)
  | .xfence a => some (.xfence, a)
  | .wait a => some (.wait, a)
  | .arwInit a => some (.arw, a)
  | .arwExpect a => some (.arw, a)
  | .arwArrive a => some (.arw, a)
  | .arwWait a => some (.arw, a)
  | .tdefSrc a => some (.tdef, a)
  | .tdefStage a => some (.tdef, a)
  | .tdefWait a => some (.tdef, a)
  | .tdefAcc a => some (.tdef, a)
  | .tmm a => some (.tmm, a)
  | .tew a => some (.tew, a)
  | .tred a => some (.tred, a)
  | .tmap a => some (.tmap, a)
  | .tcvt a => some (.tcvt, a)
  | .tforceAcc a => some (.tforce, a)
  | .tforceScr a => some (.tforce, a)
  | .tst a => some (.tst, a)
  | .tacq a => some (.tacq, a)
  | .tacqTry a => some (.tacq, a)
  | .trel a => some (.trel, a)
  | .tdrop a => some (.tdrop, a)
  | .tdropAll a => some (.tdrop, a)
  | .tstat a => some (.tstat, a)
  | .tstatTab a => some (.tstat, a)
  | .tstatTok a => some (.tstat, a)
  | .cpy a => some (.cpy, a)
  | .cpyg a => some (.cpyg, a)
  | .spawn a => some (.spawn, a)
  | .qPush a => some (.q, a)
  | .qPop a => some (.q, a)
  | .qPopTry a => some (.q, a)
  | .qPopa a => some (.q, a)
  | .weirPush a => some (.weir, a)
  | .weirPop a => some (.weir, a)
  | .weirFree a => some (.weir, a)
  | .coll a => some (.coll, a)
  | .dcmp a => some (.dcmp, a)
  | .joinDec a => some (.join, a)
  | .joinRet a => some (.join, a)
  | .trace a => some (.trace, a)
  | .hitld a => some (.hitld, a)
  | .hitldTry a => some (.hitld, a)
  | .hitrepAccept a => some (.hitrep, a)
  | .hitrepIgnore a => some (.hitrep, a)
  | .hitrepTerm a => some (.hitrep, a)
  | .hitrepCommit a => some (.hitrep, a)
  | .hitrepCommitTerm a => some (.hitrep, a)
  | .tlpubHold a => some (.tlpub, a)
  | .tlpubPub a => some (.tlpub, a)
  | .tlpubStat a => some (.tlpub, a)
  | .hgrid a => some (.hgrid, a)
  | .smpLd a => some (.smp, a)
  | .smpPoint a => some (.smp, a)
  | .smpBilin a => some (.smp, a)
  | .smpTrilin a => some (.smp, a)
  | .smpAniso a => some (.smp, a)
  | .vis a => some (.vis, a)
  | .replay a => some (.replay, a)
  | .pairedWord _ _ _ => none
  | .powerGood | .powerRemoved | .bootRomAuthenticate _ _ _ | .stackTrainingDone _ _ _ | .hostLinkTrain _ _ | .flozorLinkBringup _ _ _ => none
  | .attestationRequest | .bootStageRead | .bootImage | .deviceReset | .mbxMessage | .mbxStatRead => none
  | .bootBufferWrite _ _ | .bar2Win _ | .bar2Resize _ | .bar2Access _ _ | .bfpScrWrite _ _ | .notify _ _ => none
  | .svcDone _ _ | .registerWrite _ _ _ | .egressWindowProgram _ _ _ _ | .coreHot _ | .coreDutyCycle _ | .dutyCycleDeepen _ => none
  | .hbmThermalNarrow _ | .thermalTrip _ | .fantailMigration _ _ | .correctedError _ | .uncorrectableError _ | .flozorLaneFail _ _ => none
  | .flozorMessageDrop _ | .channelRetireBegin _ _ | .channelFenceDrained _ _ | .atomCopy _ _ _ _ | .channelNarrow _ _ | .spareCoreReplace _ => none
  | .dramRowRemap _ _ _ | .rayPipeSpare _ _ | .binfloorWaySpare _ _ | .hostCmdNop _ | .hostCmdLaunch _ | .hostCmdWait _ => none
  | .hostCmdSignal _ | .seedEnqueue _ | .walkerPass | .doorbellSwitch _ | .unmapWriteback _ | .queueIdleTimeout _ => none
  | .crewSlotTake _ | .crewRetire _ | .ageLimitReached _ _ | .meetTimeout _ _ | .barrierStall _ _ | .regangStall _ _ => none
  | .walkComplete _ | .faultReplyResolved _ | .faultReplyUnresolvable _ | .xltInv _ _ | .xltInvDone _ | .migrationStart _ _ _ => none
  | .migrationLineCopy _ | .loadComplete _ | .storeAck _ | .bfpChangeComplete _ | .quiescenceEpochAdvance _ | .sharedWriteRelease _ => none
  | .raceWaitExpiry _ | .generatorSlotTake _ | .blockFull _ | .waitListOverflowRetry _ | .generatorStepAside _ | .generatorRestore _ => none
  | .reclaim _ _ | .quernExpansionDone _ _ _ | .quernExpansionFail _ _ _ | .recompression _ _ _ | .arwWaitStall _ _ | .waitStall _ _ => none
  | .stagingLoadChunk _ | .kStep _ | .promotion _ | .elementwisePass _ | .storeChunk _ | .tileRequestComplete _ => none
  | .tileStepFault _ | .requestResume _ | .tdefWaitObserve _ | .tacqStall _ _ | .thunkSlotFreed _ | .thunkAppendStall _ _ => none
  | .watchReached _ _ | .flumeChunk _ | .deferredEngineFault _ _ | .ringServe _ | .ringStall _ _ | .popaAnswer _ => none
  | .collMatch _ _ | .collChunk _ | .quernBlock _ | .rayArrival _ | .leatReload _ | .treeletSchedule _ => none
  | .leatAgeExpiry _ | .nodeVisit _ | .tailraceRecord _ | .rayEnd _ | .holdLimitExpiry _ | .publishExchange _ => none
  | .rayMessageLost _ | .filterRequest _ | .visBinning _ | .visTileTest _ | .replayResult _ | .skidEnd _ => none
  | .crewSaveComplete _ | .trapRecordPost _ | .handlerStart _ | .crewCtlResume _ | .crewCtlResumePast _ | .crewCtlKill _ => none
  | .crewCtlAbort _ | .timerDue _ | .svcReply _ _ | .svcRefused _ | .contextSwitchRequest _ | .collectorSkidDone _ _ => none
  | .engineStopPoint _ _ _ | .saveDone _ _ | .contextRestore _ | .hitldStall _ _ | .flozorPeerRequest _ | .powerShareReached _ => none
  | .currentLimiter _ => none

/-- The fields of an instruction's word; `none` for an event of the device, which has no word. -/
def fieldsOf (i : Instr) : Option Fields :=
  match i with
  | .pairedWord p h0 h1 => some (.paired p h0.raw h1.raw)
  | i => i.full.map fun (op, a) => .full (a.raw op)

/-- The instruction that legal fields stand for. -/
def Fields.instr : Fields → Option Instr
  | .full r => (opOf r.op).bind fun op => build op r.args
  | .paired p h0 h1 => some (.pairedWord p h0.half h1.half)

/-- The decoder: the instruction of a 64-bit word under the limits in force, or why it is none. -/
def decodeWord (lim : Limits) (w : Nat) : Bad ⊕ Instr :=
  let f := unpack w
  match f.bad lim with
  | some e => .inl e
  | none =>
    match f.instr with
    | some i => .inr i
    | none => .inl (.ill 0x03)

/-- Whether a word can hold the fields: in the I form there is no B, C or X (R44). -/
def Fields.held : Fields → Bool
  | .full r => r.imm.isNone || (r.b == 0xFF && r.c == 0xFF && r.x == 0)
  | .paired .. => true

/-- An instruction whose fields a word can hold and the decoder accepts under the limits. -/
def legal (lim : Limits) (i : Instr) : Bool :=
  match fieldsOf i with
  | some f => f.held && f.bad lim == none && f.instr == some i
  | none => false

/-- The encoder: the word of an instruction, from the field places of R44 and R61. -/
def encode (i : Instr) : Nat :=
  match fieldsOf i with
  | some f => pack f
  | none => 0

/-- The bytes of a word as memory holds them, lowest address first (R43). -/
def wordBytes (w : Nat) : List Byte := (List.range 8).map fun k => BitVec.ofNat 8 (bitsOf w (8 * k + 7) (8 * k))

/-- The word of eight bytes, lowest address first (R43). -/
def bytesWord (bs : List Byte) : Nat := bs.foldr (fun b acc => b.toNat + 256 * acc) 0

/-- Decoding of bytes: the instruction of the first eight and the bytes that follow. -/
def decodeBytes (lim : Limits) (bs : List Byte) : Option (Instr × List Byte) :=
  if bs.length < 8 then none
  else match decodeWord lim (bytesWord (bs.take 8)) with
    | .inr i => some (i, bs.drop 8)
    | .inl _ => none

/-- The instruction of a word whose bits above `nbits` are zero, laid out in memory order and read back. -/
def decodeTableWord (nbits w : Nat) : Option Instr :=
  (decodeBytes {} (wordBytes (w % 2 ^ nbits))).map (·.1)

end Sys2Proof
end

