-- ==== Sys2Proof/Machine/State.lean ====
section
/-! DEFINITION. The state of the Adepoven as plain data: memory, the crews with their threads, the contexts, the runs and queues, the engines with their requests, the rays, the host's registers and the health of the part, and the schedule that says what moves next. -/

namespace Sys2Proof.Machine

/-- A finite map with a default: pairs with strictly rising keys, none holding the default. -/
abbrev SMap (α : Type) := List (Nat × α)

/-- A field of a record to be written to memory: `len` bytes at `off`, little-endian (R4). -/
structure PutField where
  off : Nat
  len : Nat
  val : Nat
  deriving DecidableEq, Repr, Inhabited

/-- A trap as it is raised: what a trap record (R354) says of the event itself. -/
structure TrapInfo where
  code : Nat
  sub : Nat := 0
  /-- the threads that trapped -/
  tids : List Nat := []
  /-- the threads of the trapping gang, which issue nothing more (R352) -/
  gang : List Nat := []
  /-- LANES as the record reports it -/
  lanes : Nat := 0
  addr : Word64 := 0
  detail : List PutField := []
  /-- contents of EXTRA: 0 none, 1 tile, 2 engine, 3 ray -/
  kind2 : Nat := 0
  extra : List PutField := []
  deferred : Bool := false
  exited : Bool := false
  crewLevel : Bool := false
  late : Bool := false
  nested : Bool := false
  deriving DecidableEq, Repr, Inhabited

/-- What a parked thread waits for (R31). -/
inductive Park where
  /-- a table walk (R162), by its id, for an address -/
  | walk (id va : Nat)
  /-- a Sluice block (R187): range number and block index -/
  | block (range idx : Nat)
  /-- a compressed page being expanded (R197), by its VA -/
  | page (va : Nat)
  /-- a tile request (R240) -/
  | tile (req : Nat)
  deriving DecidableEq, Repr

/-- Why a thread does not issue (R107). -/
inductive Hold where
  | none
  /-- held at its meet since this crew cycle (R113) -/
  | meet (since : Nat)
  /-- waits at a barrier for the completion of a phase (R115) -/
  | bar (b phase : Nat)
  | regang
  | parked (p : Park)
  /-- `arw.wait` on the word at this memory key while GEN is `gen` (R227) -/
  | arw (key gen since : Nat) (addr : Word64)
  /-- `wait` with its five limits in imm27 (R225) -/
  | wait (imm since : Nat)
  /-- a ring operation in the hands of request `req` (R289) -/
  | ring (req since : Nat) (desc : Word64)
  | hitld (since : Nat)
  /-- `tacq` of a tile on behalf of home gang `g` (R68, R252) -/
  | tacq (tile g since : Nat)
  /-- an append that waits for a slot, or for the room of so many watches (R247, R249) -/
  | append (since watches : Nat)
  /-- an append whose node, in this slot, has a watch that has not yet reached every die (R249) -/
  | watch (slot : Nat)
  /-- `trap.svc` (R364): call id, or waiting for a free entry -/
  | svc (call : Option Nat)
  /-- a release at a scope that waits until the earlier stores of `who` are acknowledged as that scope asks (R215) -/
  | release (scope : Nat) (who : List Nat)
  /-- a write that has reached its home and waits there (R208), by its number -/
  | write (st : Nat)
  /-- an access to a bin-floor slice that is being repartitioned (R168) -/
  | slice (core : Nat)
  /-- an access to the scratchpad of a crew that is being moved, by its number (R29, R294) -/
  | moving (crew : Nat)
  /-- an access or a fetch whose read of these bytes, as key and length, waits at a fenced channel (R167) -/
  | channel (runs : List (Nat × Nat))
  /-- `pgen.unreg` that waits for FILLING blocks, or `cctl.part` for a repartition -/
  | service (id : Nat)
  deriving DecidableEq, Repr

/-- The outstanding-operation counters of R220. -/
structure Counters where
  loads : Nat := 0
  stores : Nat := 0
  copies : Nat := 0
  tiles : Nat := 0
  rays : Nat := 0
  deriving DecidableEq, Repr, Inhabited

/-- A thread: its registers and the control state of R104. -/
structure Thread where
  tid : Nat
  live : Bool := true
  pc : Word64
  meet : Word64 := BitVec.allOnes 64
  pass : Bool := false
  link : Word64 := BitVec.allOnes 64
  /-- v registers; an unlisted one is zero (R48) -/
  v : SMap Word := []
  /-- p0–p6; an unlisted one is false (R48) -/
  p : SMap Bool := []
  /-- the bound gang it belongs to (R105) -/
  bound : Option Nat := none
  hold : Hold := .none
  /-- pending arrivals: barrier to 1 + phase (R104, R115) -/
  arrivals : SMap Nat := []
  /-- key of the callee queue it stands in (R111) -/
  queue : Option Word64 := none
  /-- path age (R108) -/
  age : Nat := 0
  /-- cycle at which it became ready (R108) -/
  readyAt : Nat := 0
  /-- issues of its group that have left it over, one after another (R106, R110) -/
  left : Nat := 0
  cnt : Counters := {}
  /-- number of its synchronisation-free region (R204) -/
  region : Nat := 0
  /-- region in which it last made a checked access (R204) -/
  accessed : Option Nat := none
  /-- deferred engine faults to raise at its next instruction (R291) -/
  deferred : List TrapInfo := []
  /-- the first request number after its `pfill`, once it has executed one (R189) -/
  pfillAt : Option Nat := none
  /-- woken at this block and not yet executed again (R187) -/
  woken : Option (Nat × Nat) := none
  /-- a completed or faulted tile request that its re-execution finds (R240) -/
  tileDone : Option Nat := none
  /-- the trap that its wake delivers at re-execution (R31, R162, R194) -/
  wakeTrap : Option TrapInfo := none
  /-- the ray slot whose delivered candidate awaits a decision (R342) -/
  candidate : Option Nat := none
  /-- the count that a repartition left, written when `cctl.part` executes again -/
  result : Option Nat := none
  /-- the gang as formed with which it is to issue its word again (R68); empty: none -/
  gang : List Nat := []
  /-- STATUS that its latest filter request returned: 0 OK, 1 LOST (R37); no instruction reads it -/
  filterStatus : Nat := 0
  deriving DecidableEq, Repr, Inhabited

/-- A crew barrier (R115, R116). -/
structure Barrier where
  phase : Nat := 0
  /-- 0 crew mode, n count mode; fixed by the first arrival -/
  mode : Option Nat := none
  arrived : List Nat := []
  stall : Nat := 0
  deriving DecidableEq, Repr, Inhabited

/-- The token of an accumulator tile (R252). -/
inductive Token where
  | nobody
  | gang (g : Nat)
  /-- the sequencer, on behalf of a home gang -/
  | seq (g : Nat)
  deriving DecidableEq, Repr

/-- A crew timer (R361). -/
structure Timer where
  wall : Bool
  deadline : Word64
  deriving DecidableEq, Repr

/-- What a crew is (R188, R274, R356). -/
inductive CrewKind where
  /-- the seed of its run -/
  | seed
  /-- a task started from a pool entry -/
  | task (entry : Nat)
  /-- a generator filling a block at a depth, from record `rec` of its die's queue -/
  | gen (range block depth rec : Nat)
  /-- the handler of the trap record with this index and this SEQ -/
  | handler (record seq : Nat)
  deriving DecidableEq, Repr

/-- The stages of a crew's halt for a trap (R352, R356, R357). -/
inductive HaltPhase where
  | skid
  | saving
  /-- saved, its record not yet written -/
  | toPost
  /-- record written at this index; a handler is to start, or runs -/
  | posted (record : Nat) (handlerDue : Bool)
  /-- CREW_CTL has been written with this action -/
  | disposed (record : Nat) (act : Nat)
  deriving DecidableEq, Repr

/-- A halted crew (R352). -/
structure Halt where
  phase : HaltPhase
  trap : TrapInfo
  /-- the trapping word -/
  pc : Word64
  since : Nat
  /-- instructions of each home gang's skid -/
  skid : SMap Nat := []
  /-- home gangs stopped in the skid by a trap of their own (R353) -/
  stopped : List Nat := []
  vclk : Word64 := 0
  /-- SEQ of its record, once posted -/
  seq : Nat := 0
  deriving DecidableEq, Repr

/-- Where a crew's state is (R366, R367). -/
inductive Residence where
  | resident
  /-- taken off its core: by a trap, a step-aside, a context switch or a migration -/
  | away
  /-- retired -/
  | gone
  deriving DecidableEq, Repr

/-- A crew pre-emption other than a trap's (R366): when its halt was broadcast, whether its skid has ended, and the core that the crew goes to, if it is to go to one. -/
structure Taking where
  since : Nat
  saving : Bool := false
  dest : Option Nat := none
  deriving DecidableEq, Repr

/-- A crew (R27). -/
structure Crew where
  uid : Nat
  kind : CrewKind
  ctx : Nat := 0
  run : Option Nat := none
  span : Nat := 0
  /-- %crew -/
  num : Word := 0
  stage : Nat := 0
  die : Nat := 0
  /-- logical index of its core on the die -/
  core : Nat := 0
  slot : Nat := 0
  where_ : Residence := .resident
  gw : Nat := 32
  regs : Nat := 8
  regsCopy : Nat := 8
  regsEpi : Nat := 8
  nCopy : Nat := 0
  nEpi : Nat := 0
  scratch : Nat := 0
  tiles : Nat := 0
  priv : Bool := false
  strict : Bool := false
  /-- its pool entry has been retired by `join.ret` (R302) -/
  entryGone : Bool := false
  threads : List Thread := []
  /-- s registers; an unlisted one is zero (R48) -/
  s : SMap Word := []
  barriers : SMap Barrier := []
  /-- stall counters of home gangs waiting at `regang` (R116) -/
  regangStall : SMap Nat := []
  /-- accumulator tiles: key 16384 × tile + 128 × row + column, binary32 bits, +0 when unlisted (R251) -/
  acc : SMap Word := []
  tokens : SMap Token := []
  /-- home gangs waiting at `tacq`, in arrival order: tile and gang -/
  tacqWait : List (Nat × Nat) := []
  vclk : Word64 := 0
  timer : Option Timer := none
  /-- a timer event kept pending while halted (R353), with its LATE flag -/
  timerDue : Option Bool := none
  poisonFlag : Bool := false
  halt : Option Halt := none
  /-- traps recorded in the image of a crew that is being switched out, with the trapping word and %vclk at the trap (R353, R354) -/
  nested : List (TrapInfo × Word64 × Word64) := []
  /-- instructions of each home gang's skid in a context switch (R352, R367) -/
  switchSkid : SMap Nat := []
  /-- home gangs that a trap of their own stopped in it (R353) -/
  switchStopped : List Nat := []
  /-- taken off by a context switch that found it resident (R367) -/
  switched : Bool := false
  /-- it is being taken off its core, or moved (R191, R294, R366, R373) -/
  taking : Option Taking := none
  /-- entries of SKID at its latest stop (R354) -/
  stops : List Nat := []
  /-- first byte of its image in the save area and the bytes saved there, while the area holds it (R368) -/
  image : Option (Nat × List Byte) := none
  /-- it has been resident on a core with bin scratch since it was last placed (R245, R367) -/
  sawBin : Bool := false
  /-- its block has left FILLING: what it still does fills nothing (R186) -/
  fillOver : Bool := false
  /-- deferred faults of threads that have exited (R291) -/
  orphanFaults : List TrapInfo := []
  /-- cycle since which every live thread has waited on Sluice lists (R191) -/
  sluiceSince : Option Nat := none
  /-- cycle at which it last started or was restored (R294) -/
  since : Nat := 0
  /-- cycles in which it was resident and not stopped, by which its STALL counters run (R109, R352) -/
  counted : Nat := 0
  nextBound : Nat := 1
  deriving DecidableEq, Repr

/-- A leaf as the translation caches hold it (R160, R162). -/
structure Leaf where
  /-- 0 HBM, 1 CXL, 2 host -/
  tier : Nat
  rn : Bool
  node : Nat
  compressed : Bool
  proc : Bool
  read : Bool
  write : Bool
  exec : Bool
  busy : Bool
  /-- physical address of the page's first byte -/
  pa : Nat
  deriving DecidableEq, Repr, Inhabited

/-- A translation-cache entry (R162): `core` is %core for a TLB entry and `none` for the die's cache. -/
structure TlbEntry where
  ctx : Nat
  die : Nat
  core : Option Nat
  /-- first byte and log2 size of the page -/
  va : Nat
  log2 : Nat
  leaf : Leaf
  deriving DecidableEq, Repr

/-- A table walk, or a fault request it has sent (R162). -/
structure Walk where
  id : Nat
  ctx : Nat
  die : Nat
  core : Nat
  va : Nat
  /-- an entry with V = 0 was met and the fault request is outstanding -/
  faulted : Bool := false
  /-- its leaf was busy: it waits for the entry to be rewritten (R162) -/
  busy : Bool := false
  /-- `pref` or an engine started it: nobody is parked -/
  quiet : Bool := false
  /-- engine requests that wait for a fault reply -/
  engines : List Nat := []
  /-- `pref`s that wait for its leaf (R177): the crew, the sub-op, whether it pins, the address -/
  prefs : List (Nat × Nat × Bool × Nat) := []
  deriving DecidableEq, Repr

/-- A cache that holds copies of lines: those not coherent with the homes (R169, R217), and a die's remote-data cache, which the homes keep coherent (R170). `past` keeps what the sampler (3) or the ray pipes (4) may still see of a sector that a program has written on the core path, until an `xfence` (R217, R304). -/
inductive CacheKind where
  | l1 (core : Nat)
  | rdc (die : Nat)
  | sampler (stack : Nat)
  | node (stack : Nat)
  | past (path : Nat)
  deriving DecidableEq, Repr

/-- A cached 16-byte sector of a line (R165); `sector` is its memory key divided by 16. -/
structure CacheLine where
  kind : CacheKind
  ctx : Nat
  sector : Nat
  bytes : List Byte
  deriving DecidableEq, Repr

/-- The identity of a synchronisation-free region (R204). -/
inductive Region where
  | thread (crew tid num : Nat)
  | engine (req : Nat)
  deriving DecidableEq, Repr

/-- A tag slot: the 4-byte granules a region has read and written (R207). -/
structure TagSlot where
  region : Region
  die : Nat
  core : Nat
  read : BitVec 16
  write : BitVec 16
  deriving DecidableEq, Repr

/-- The read-shared state of a line (R208): per die, the recorded epoch and the regions live there at it. -/
structure SharedLine where
  mask : BitVec 16
  epochs : List (Nat × Nat × List Region)
  deriving DecidableEq, Repr

/-- The tags of one 64-byte line. -/
structure TagLine where
  slots : List TagSlot := []
  shared : Option SharedLine := none
  deriving DecidableEq, Repr, Inhabited

/-- A load, pop or atomic whose destination is not yet written (R175). -/
structure PendingLoad where
  id : Nat
  crew : Nat
  tid : Nat
  /-- v registers to write -/
  vdst : List (Nat × Word)
  /-- s registers to write -/
  sdst : List (Nat × Word)
  pred : Option (Nat × Bool) := none
  /-- raises POISON when written (R372) -/
  poison : Option Word64 := none
  /-- which counter its completion lowers: loads (true) or none -/
  counts : Bool := true
  /-- HBM atoms it reads, as keys / 64 (R167) -/
  atoms : List Nat := []
  /-- its address, and whether a peer holds it (R37) -/
  addr : Word64 := 0
  peer : Bool := false
  /-- number of the first load of its instruction: the s registers of one instruction's loads are written once (R50) -/
  batch : Nat := 0
  deriving DecidableEq, Repr

/-- Why a store that has reached its home waits there (R208, R167, R164). -/
inductive StoreWait where
  | free
  | shared
  | capacity
  deriving DecidableEq, Repr

/-- A store that is not yet acknowledged (R175): its bytes by memory key. -/
structure PendingStore where
  id : Nat
  crew : Nat
  tid : Nat
  region : Region
  bytes : List (Nat × Byte)
  strong : Bool
  /-- crew cycle at which it began to wait at its home -/
  wait : StoreWait := .free
  waited : Nat := 0
  /-- performed already: only the acknowledgement is outstanding (`red`, `arw`, `cctl`) -/
  performed : Bool := false
  /-- pc, home lane and address, for RACE (R210) -/
  pc : Word64 := 0
  lane : Nat := 0
  addr : Word64 := 0
  /-- number of the first store of its instruction: stores of one instruction to one granule keep lane order (R175) -/
  batch : Nat := 0
  /-- poisoned atoms, as keys / 64, that its request covers whole (R372) -/
  clears : List Nat := []
  /-- home lanes of its instruction performed while it waits (R210) -/
  done : Nat := 0
  /-- %core of the core that issued it -/
  core : Nat := 0
  /-- a crew-scope release has passed it: the crew's other threads are ordered after it (R215) -/
  rel : Bool := false
  deriving DecidableEq, Repr

/-- A base-and-extent record (R172). -/
structure Rec where
  base : Nat
  hint : Nat
  cols : Nat
  rows : Nat
  pitch : Nat
  fmt : Nat
  scale : Bool
  ro : Bool
  watch : Bool
  reserved : Bool := false
  deriving DecidableEq, Repr, Inhabited

/-- A procedural range (R182, R194). -/
structure Range where
  num : Nat
  base : Nat
  blocks : Nat
  deferred : Bool
  reclaim : Bool
  gen : Word64
  frame : Word64
  map : Nat
  threads : Nat
  regs : Nat
  scratch : Nat
  gang : Nat
  border : Nat
  /-- bytes 0–15 of the last failure's detail -/
  lastFault : Nat := 0
  deriving DecidableEq, Repr

/-- A demander of a Sluice block (R185, R187). -/
inductive Demander where
  | lanes (crew : Nat) (tids : List Nat)
  /-- the request of an engine, a tile sequencer, a ray pipe or a filter pipe, by id -/
  | engine (req : Nat)
  /-- a touch for which nobody waits, made from a core at a depth, whose spawn waits for room (R186, R188) -/
  | quiet (core depth : Nat)
  deriving DecidableEq, Repr

/-- An entry of a wait list, or of a die's overflow list (R187). -/
structure Waiter where
  ctx : Nat
  die : Nat
  /-- range number and block, or none for the compressed page at `va` -/
  block : Option (Nat × Nat)
  va : Nat
  who : Demander
  overflow : Bool := false
  /-- woken, or failed with `fault`; the result waits for room in the reply log (R192, R370) -/
  due : Bool := false
  fault : Option TrapInfo := none
  deriving DecidableEq, Repr

/-- A record of a die's reserved generator queue (R188). -/
structure GenRec where
  ctx : Nat
  die : Nat
  core : Nat
  range : Nat
  block : Nat
  depth : Nat
  idx : Nat
  deriving DecidableEq, Repr

/-- A context: its descriptor (R349), its registers (R359), its ranges (R181). -/
structure Context where
  id : Nat
  desc : Nat := 0
  trapPc : Word64 := 0
  trapRing : Nat := 0
  trapSlots : Nat := 1
  bfpCtl : Bool := false
  supOk : Bool := false
  faultToHost : Bool := false
  svcToHost : Bool := false
  save : Nat := 0
  saveSize : Nat := 0
  replyLog : Nat := 0
  svcRing : Nat := 0
  svcSlots : Nat := 1
  telem : Nat := 0
  ageLimit : Nat := 4096
  meetLimit : Nat := 65536
  stallLimit : Nat := 0x01000000
  genDepth : Nat := 4
  raceWait : Nat := 0x00100000
  holdLimit : Nat := 0x04000000
  poisonEn : Bool := false
  aperScr : Word64 := 0
  aperSpan : Word64 := 0
  aperStk : Word64 := 0
  xltRoot : Word64 := 0
  /-- the invalidations in progress: GO reads 1 while there is one (R163) -/
  xltInv : List Word64 := []
  trapCnt : Word := 0
  trapNext : Nat := 0
  svcNext : Nat := 0
  svcSeq : Word64 := 0
  ranges : List Range := []
  /-- pending migration hints: the pages of each that are still to be tried, with the die each goes to (R179) -/
  hints : List (List (Nat × Nat)) := []
  /-- telemetry counts, by a number of the model's own -/
  telemetry : SMap Nat := []
  /-- results logged so far (R370) -/
  replySeq : Nat := 0
  /-- next index of each die's generator queue -/
  genNext : SMap Nat := []
  /-- switched out (R366) -/
  out : Bool := false
  /-- bin scratch saved with it: the core, and where its image lies in the save area (R367) -/
  bins : List (Nat × Nat × Nat) := []
  malformed : Bool := false
  /-- its descriptor has been read (R349) -/
  loaded : Bool := false
  deriving DecidableEq, Repr

/-- The fields of a launch record (R277). -/
structure Launch where
  entry : Word64
  cx : Nat
  cy : Nat
  cz : Nat
  gang : Nat
  regs : Nat
  regsCopy : Nat
  regsEpi : Nat
  nCopy : Nat
  nEpi : Nat
  scratch : Nat
  tiles : Nat
  stage : Nat
  spans : Nat
  strict : Bool
  sup : Bool
  dieMask : Nat
  poolN : Nat
  pool : Nat
  stackBase : Nat
  stackSize : Nat
  args : List Word64
  ranges : List (Nat × Nat × Nat)
  reservedBad : Bool
  deriving DecidableEq, Repr, Inhabited

inductive RunState where
  | migrating | running | complete | aborted
  deriving DecidableEq, Repr

/-- A run (R28, R275). -/
structure Run where
  id : Nat
  ctx : Nat
  queue : Option Nat
  /-- command number in its queue -/
  cmd : Nat
  prio : Nat
  launch : Launch
  state : RunState
  counter : Nat
  dies : List Nat := []
  telemetry : Nat := 0
  /-- stage and span that the spawn of each pool entry gave it (R274, R280) -/
  spawned : SMap (Nat × Nat) := []
  deriving DecidableEq, Repr

/-- A record of a ready queue (R280). -/
structure Ready where
  run : Nat
  span : Nat
  prio : Nat
  /-- none: the seed -/
  entry : Option Nat
  stage : Nat
  deriving DecidableEq, Repr

/-- A host queue registered with the device: its doorbell index, context and block's VA, and what its hardware slot holds while mapped (R40, R282, R283). -/
structure HostQueue where
  q : Nat
  ctx : Nat
  block : Nat
  /-- 0 UNMAPPED, 1 MAPPING, 2 MAPPED, 3 UNMAPPING -/
  state : Nat := 0
  head : Nat := 0
  tail : Nat := 0
  /-- cycle since which HEAD = TAIL -/
  idleSince : Nat := 0
  /-- idle for 2^16 cycles: may be unmapped -/
  idle : Bool := false
  /-- commands started and not yet counted in DONE, in ring order: number, and whether complete -/
  started : List (Nat × Bool) := []
  deriving DecidableEq, Repr

/-- Stages of a BFP_SCR change (R168). -/
structure BfpChange where
  mb : Nat
  /-- number of the first request after it: earlier transfers complete first -/
  mark : Nat := 0
  /-- the thread group that waits: crew and its threads with their D -/
  who : Option (Nat × List Nat)
  deriving DecidableEq, Repr

/-- A core (R17): its bin-floor registers (R168), thunk-table use counts (R233), sensor (R374). -/
structure Core where
  mb : Nat := 0
  wb : Nat := 0
  change : List BfpChange := []
  useCount : SMap Nat := []
  /-- what its junction sensor last read, in °C -/
  temp : Nat := 0
  /-- per cent of issue cycles when duty-cycled: 100, 50 or 25 -/
  duty : Nat := 100
  /-- cycle at which that began -/
  dutySince : Nat := 0
  spareUsed : Bool := false
  /-- no spare was left for it: nothing is placed on it (R373) -/
  retired : Bool := false
  waySpares : Nat := 1
  /-- ways lost with no spare left -/
  waysLost : Nat := 0
  deriving DecidableEq, Repr, Inhabited

inductive NodeKind where
  | src | stage | wait | acc | tmm | tew | tred | tmap | tcvt
  deriving DecidableEq, Repr

inductive NodeState where
  | open_ | forcing | done
  deriving DecidableEq, Repr

/-- Where the value of a DONE node is read (R238). -/
inductive Binding where
  | none
  | tile (z : Nat)
  | region (r : Rec)
  deriving DecidableEq, Repr

/-- A node of a thunk table (R233, R238). -/
structure Node where
  core : Nat
  slot : Nat
  seq : Nat
  crew : Nat
  kind : NodeKind
  sub : Nat := 0
  rows : Nat
  cols : Nat
  /-- operand slots, and how often each had been used when the node was appended: a DONE node keeps no operand in its slot -/
  ops : List Nat := []
  opSeqs : List Nat := []
  rec_ : Option Rec := none
  stage : Option Rec := none
  /-- format word, scale, origin, shape or generation, as the kind has it -/
  word : Word := 0
  aux : Word := 0
  addr : Word64 := 0
  tile : Nat := 0
  /-- accumulate rather than zero -/
  accum : Bool := false
  origin : Word64
  state : NodeState := .open_
  dropped : Bool := false
  order : Nat := 0
  progress : Nat := 0
  bind : Binding := .none
  /-- bound by a `tforce` (R239) -/
  byForce : Bool := false
  /-- the request that forces it -/
  owner : Option Nat := none
  /-- staged, or its awaited generation observed -/
  staged : Bool := false
  /-- its watch is on its way to the dies, and has reached every die (R249) -/
  watchDue : Bool := false
  watching : Bool := false
  /-- the destination windows that `tforce.scr` has bound it to: each is watched until the node is freed (R249) -/
  bound : List Rec := []
  deriving DecidableEq, Repr

inductive TileGoal where
  | store (dst : Rec) (row col : Nat)
  | scratch (dst : Rec) (row col : Nat)
  | tile (z : Nat)
  | implicit
  deriving DecidableEq, Repr

inductive TilePhase where
  | queued
  | running
  | aside
  | complete
  | faulted
  deriving DecidableEq, Repr

/-- A window of a node: first row and column, rows and columns. -/
structure Win where
  r0 : Nat
  c0 : Nat
  rows : Nat
  cols : Nat
  deriving DecidableEq, Repr, Inhabited

/-- Values of a node over a window, row-major: FP32 bits, and the encodings in a `tcvt`'s output format. -/
structure TileVals where
  slot : Nat
  win : Win
  bits : List Word
  raw : List Nat := []
  deriving DecidableEq, Repr, Inhabited

/-- A request of a tile sequencer (R240). -/
structure TileReq where
  id : Nat
  core : Nat
  crew : Nat
  tids : List Nat
  hgang : Nat
  pc : Word64
  node : Nat
  win : Win
  goal : TileGoal
  gen : Bool
  phase : TilePhase := .queued
  /-- tiles that it uses (R252) -/
  tiles : List Nat := []
  /-- cycle at which it was set aside -/
  since : Nat := 0
  /-- queued again after giving up its place (R242) -/
  front : Bool := false
  /-- nodes computed for this request by elementwise passes -/
  values : List TileVals := []
  /-- in-array partials of the product in progress: next k-step, and FP22 or 32-bit integer bits per element -/
  part : Option (Nat × List Nat) := none
  /-- chunks written -/
  chunk : Nat := 0
  /-- it stands at an interruption point (R245) -/
  atPoint : Bool := true
  /-- poisoned data was read (R372) -/
  bad : Bool := false
  /-- a fault, the node and the kind of the step that met it -/
  fault : Option (TrapInfo × Nat × Nat) := none
  deriving DecidableEq, Repr

/-- A Flume copy (R290, R296). -/
structure FlumeReq where
  id : Nat
  crew : Nat
  tid : Nat
  die : Nat
  core : Nat
  pc : Word64
  gather : Bool
  dst : Word64
  src : Word64
  len : Nat
  list : Word64 := 0
  elem : Nat := 0
  arw : Option Word64
  pin : Bool := false
  /-- chunks performed -/
  done : Nat := 0
  /-- the indices of the list read so far (R296), and the positions of those read from poisoned bytes (R372) -/
  idx : List Nat := []
  badIdx : List Nat := []
  deriving DecidableEq, Repr

inductive RingOp where
  | push | pop | popTry | popa | weirPush | weirPushTry | weirPop | weirPopTry
  deriving DecidableEq, Repr

/-- A ring request at its descriptor's home (R288). -/
structure RingReq where
  id : Nat
  crew : Nat
  tid : Nat
  core : Nat
  pc : Word64
  op : RingOp
  desc : Word64
  /-- the entry of a push -/
  entry : Nat := 0
  dst : Nat := 0
  dstIsS : Bool := false
  arw : Option Word64 := none
  /-- where a `popa` writes -/
  buf : Word64 := 0
  pred : Option Nat := none
  waiting : Bool := false
  /-- a served `popa` whose entry awaits writing -/
  answer : Option Nat := none
  /-- cycle of its issue, and home lane of its thread -/
  made : Nat := 0
  lane : Nat := 0
  /-- its place in the order of arrival at the descriptor's home, and the descriptor's key there; order 0: still on its way -/
  order : Nat := 0
  home : Nat := 0
  deriving DecidableEq, Repr

/-- A collective request (R292). -/
structure CollReq where
  id : Nat
  crew : Nat
  tid : Nat
  die : Nat
  core : Nat
  pc : Word64
  desc : Word64
  arw : Option Word64
  src : Nat
  dst : Nat
  /-- the fields of its descriptor, and this device's rank in the group -/
  op : Nat
  ty : Nat
  red : Nat
  count : Nat
  root : Nat
  rank : Nat
  group : List Nat
  tag : Nat
  /-- the k of its match -/
  seq : Nat
  matched : Option (List CollPeer) := none
  done : Nat := 0
  deriving DecidableEq, Repr

/-- A `dcmp` job of a Quern (R301). -/
structure QuernJob where
  id : Nat
  crew : Nat
  tid : Nat
  die : Nat
  core : Nat
  pc : Word64
  desc : Word64
  src : Word64
  dst : Word64
  blocks : Nat
  expand : Bool
  arw : Option Word64
  /-- blocks done, and payload bytes of the image so far -/
  done : Nat := 0
  pos : Nat := 0
  deriving DecidableEq, Repr

/-- The migration of one page in progress (R164): lines copied so far. -/
structure Migration where
  id : Nat
  ctx : Nat
  va : Nat
  /-- memory keys of the old frames, in order, and the bytes of each; then the key of the new frame -/
  olds : List Nat
  piece : Nat
  newKey : Nat
  line : Nat := 0
  /-- every line has moved: B is set, and the old translations are being invalidated -/
  shut : Bool := false
  deriving DecidableEq, Repr

/-- A request to move pages: one of `mig.move` for a thread, or the ranges of a launch record for a run (R179, R164). -/
structure MoveReq where
  id : Nat
  ctx : Nat
  /-- pages still to move, with the die each goes to -/
  pages : List (Nat × Nat)
  /-- crew and thread whose copies counter it holds -/
  who : Option (Nat × Nat) := none
  run : Option Nat := none
  deriving DecidableEq, Repr

inductive RayMode where
  | closest | any | occl
  deriving DecidableEq, Repr

/-- A hit or candidate in a ray's own terms (R324, R326). -/
structure Hit where
  /-- t as FP64 bits (exact also for FP32 rays) -/
  t : Nat
  inst : Nat
  prim : Nat
  /-- FP32 bits, or USER -/
  u : Nat := 0
  v : Nat := 0
  sub : Nat := 0
  back : Bool := false
  /-- VA of the instance record, or 0 -/
  instVa : Nat := 0
  /-- final-solve entries of the log (R331): SHAPE (0: none), ITER, RESULT, PRIMADDR and the bracket as FP64 bits -/
  shape : Nat := 1
  iter : Nat := 0
  result : Nat := 0
  primAddr : Nat := 0
  lo : Nat := 0
  hi : Nat := 0
  /-- VA of its callback row, or 0 (R312) -/
  row : Nat := 0
  deriving DecidableEq, Repr, Inhabited

/-- A record on its way to, or waiting in, the issuing core's ray table (R325, R326). -/
structure RayRecord where
  hit : Option Hit
  event : Nat
  status : Nat := 0
  logOver : Bool := false
  fault : Option TrapInfo := none
  /-- VA of the callback row of its event, or 0 -/
  row : Nat := 0
  /-- order in which events became ready -/
  ready : Nat := 0
  deriving DecidableEq, Repr

/-- What a ray holds of its scene descriptor (R305). -/
structure Scene where
  tops : Nat
  table : Nat
  count : Nat
  cbTable : Nat
  rows : Nat
  maxPend : Nat
  deriving DecidableEq, Repr

/-- The instance that a ray is inside (R309): its record's VA, its index in the reference, what the record gives, and the ray in its object space as FP64 bits. -/
structure RayInst where
  va : Nat
  index : Nat
  instId : Nat
  rowOff : Nat
  force : Bool
  org : List Nat
  dir : List Nat
  deriving DecidableEq, Repr

/-- A piece of a ray's pending work inside a treelet: a child reference, its entry distance as FP64 bits, and the next primitive of a leaf. -/
structure RayItem where
  ref : Nat
  entry : Nat
  prim : Nat := 0
  deriving DecidableEq, Repr

/-- A pending treelet visit (R313). -/
structure RayVisit where
  entry : Nat
  treelet : Nat
  inst : Option RayInst
  deriving DecidableEq, Repr

/-- A decision on a candidate, on its way to the ray (R324, R331): DEC, and the candidate as committed. -/
structure Decision where
  dec : Nat
  hit : Hit
  deriving DecidableEq, Repr

inductive RayPlace where
  /-- travelling to this stack's base die -/
  | sent (stack : Nat)
  /-- queued in a leat -/
  | leat (stack : Nat)
  /-- spilled to the pond -/
  | pond (stack : Nat)
  /-- in a pipe -/
  | inside (stack : Nat)
  /-- suspended until a decision returns, still inside its treelet -/
  | suspended (stack : Nat)
  /-- its traversal has ended -/
  | ended
  deriving DecidableEq, Repr

/-- A ray in flight (R313, R314). Rays that are queued stand in the list of rays in the order in which they reached their leats. -/
structure Ray where
  id : Nat
  /-- id of its slot -/
  slot : Nat
  crew : Nat
  tid : Nat
  ctx : Nat
  pc : Word64
  /-- origin, TMIN, direction and TMAX as FP64 bits; exact for FP32 rays -/
  org : List Nat
  tmin : Nat
  dir : List Nat
  tmax : Nat
  f64 : Bool
  ctrl : Nat
  mode : RayMode
  cullB : Bool
  cullF : Bool
  opq : Bool
  fany : Bool
  log : Option Word64
  /-- events made (R331) -/
  logCount : Nat := 0
  sceneVa : Word64
  scene : Option Scene := none
  /-- the stack at which it started, whose replica of the top treelet it reads -/
  home : Nat
  /-- whether it counts toward RAY_ADMIT, and the overflow records it reserves (R316) -/
  admitted : Bool
  reserved : Nat
  best : Option Hit := none
  pend : List RayVisit := []
  /-- the treelet it traverses or goes to, the VA of that treelet's table entry (0 for the top treelet), its page and its bytes in use -/
  treelet : Nat := 0
  entry : Nat := 0
  page : Nat := 0
  /-- VERSION of its table entry when a pipe took the ray in (R331) -/
  version : Nat := 0
  size : Nat := 0
  inst : Option RayInst := none
  entered : Bool := false
  work : List RayItem := []
  /-- records sent over the tailrace -/
  sent : Nat := 0
  place : RayPlace
  /-- the pipe that it is in, while inside a treelet (R315, R373) -/
  pipe : Nat := 0
  since : Nat := 0
  /-- its leat has reached LEAT_AGE through it (R315) -/
  aged : Bool := false
  /-- the candidate that waits for a decision, with its EVENT -/
  cand : Option (Hit × Nat) := none
  decision : Option Decision := none
  /-- records on the tailrace, oldest first -/
  tail : List RayRecord := []
  /-- STATUS of its final record, and the fault it met -/
  status : Nat := 0
  fault : Option TrapInfo := none
  deriving DecidableEq, Repr

/-- A slot of a core's ray table (R341). -/
structure RaySlot where
  id : Nat
  /-- its index in its core's ray table (R313, R369) -/
  idx : Nat
  crew : Nat
  tid : Nat
  pc : Word64
  scene : Word64
  ctrl : Nat
  f64 : Bool
  logged : Bool
  /-- id of its ray -/
  ray : Nat
  received : Nat := 0
  best : Option Hit := none
  /-- events ready for `hitld`, oldest first -/
  events : List RayRecord := []
  /-- final event made -/
  final : Bool := false
  deriving DecidableEq, Repr

/-- A treelet on hold (R329), known by the VA of its table entry. -/
structure HeldTreelet where
  id : Nat
  ctx : Nat
  entry : Nat
  since : Nat
  expired : Bool := false
  deriving DecidableEq, Repr

/-- A `tlpub.pub` whose result is not yet written (R329, R344). -/
structure PubReq where
  id : Nat
  crew : Nat
  tid : Nat
  dst : Option (Nat × Bool)
  ctx : Nat
  entry : Nat
  /-- the old PAGE, once PAGE and SHADOW are exchanged -/
  old : Option Nat := none
  version : Nat := 0
  deriving DecidableEq, Repr

/-- A texture or hash-grid request (R345). -/
structure FilterReq where
  id : Nat
  crew : Nat
  tid : Nat
  pc : Word64
  hgrid : Bool
  /-- 0 ld, 1 point, 2 bilin, 3 trilin, 4 aniso -/
  op : Nat := 0
  desc : Word64
  args : List Word
  /-- register that receives a texel, and whether it is an s register -/
  dst : Option (Nat × Bool) := none
  dstAddr : Word64 := 0
  reshade : Option Word64
  deriving DecidableEq, Repr

/-- A visibility pass (R337, R338). -/
structure VisReq where
  id : Nat
  crew : Nat
  tid : Nat
  pc : Word64
  desc : Word64
  arw : Option Word64
  /-- the stack whose pond holds its bins -/
  stack : Nat
  /-- its descriptor, once read -/
  params : Option Nat := none
  /-- next triangle of the array to bin -/
  next : Nat := 0
  /-- triangles binned and not yet tested, with the tiles that their bounds touch -/
  binned : List (Nat × List Nat) := []
  /-- the tile to test next, while tiles are being tested -/
  tile : Option Nat := none
  deriving DecidableEq, Repr

/-- A replay request (R346). -/
structure ReplayReq where
  id : Nat
  crew : Nat
  tid : Nat
  pc : Word64
  /-- origin, TMIN, direction, TMAX as FP64 bits -/
  ray : List Nat
  log : Word64
  dst : Word64
  mask : Nat
  deriving DecidableEq, Repr

/-- A system call in progress (R364). -/
structure SvcCall where
  id : Nat
  ctx : Nat
  idx : Nat
  crew : Nat
  tids : List Nat
  /-- register pair of D, and whether it is an s register; `%zero` discards (R47) -/
  dst : Option (Nat × Bool)
  /-- the server has answered -/
  answered : Bool := false
  deriving DecidableEq, Repr

/-- The collector of a die in a context switch (R367). -/
inductive CollectorPhase where
  | halting | draining | saving | done
  deriving DecidableEq, Repr

structure Collector where
  ctx : Nat
  die : Nat
  phase : CollectorPhase
  /-- cycle of its switch request -/
  since : Nat := 0
  /-- engines whose bits are set: 0 cores, 1 tile sequencers, 2 Flume, 3 ray pipes, 4 filter pipes, 5 collective engine, 6 Quern -/
  bits : List Nat := []
  deriving DecidableEq, Repr

/-- An entry of a context's reply log (R369) that has not yet been applied. -/
structure Reply where
  ctx : Nat
  kind : Nat
  /-- the crew's unique number -/
  crew : Nat
  seq : Nat
  deriving DecidableEq, Repr

/-- The state of an HBM channel (R166, R167). -/
inductive ChannelPhase where
  | active | fenced | copying | switched
  deriving DecidableEq, Repr

structure Channel where
  phase : ChannelPhase := .active
  narrow : Bool := false
  /-- atoms present on the spare -/
  present : List Nat := []
  retired : Bool := false
  /-- number of the first request after the fence -/
  fence : Nat := 0
  /-- index of the next atom to copy -/
  next : Nat := 0
  /-- failed with no spare left: its atoms are poisoned, but for those written whole since -/
  lost : Bool := false
  deriving DecidableEq, Repr, Inhabited

/-- A host physical window that device accesses may use (R376). -/
structure EgressWindow where
  base : Nat
  limit : Nat
  deriving DecidableEq, Repr

/-- The registers of BAR0 (R40, R316), configuration (R1) and the mailbox. -/
structure Bar0 where
  bootStage : Nat := 0
  failCode : Nat := 0
  bar2Win : Word64 := 0
  /-- log2 of BAR2's size: 256 MiB at reset -/
  bar2Log2 : Nat := 28
  rlPass : Word := 0
  rlHead : SMap Word64 := []
  rayAdmit : Nat := 4194304
  leatAge : Nat := 65536
  extAdmit : Nat := 2097152
  pondRays : SMap Nat := []
  pondBins : SMap Nat := []
  mbxOut : SMap Byte := []
  mbxIn : SMap Byte := []
  mbxPosted : Bool := false
  mbxTaken : Bool := false
  mbxReply : Bool := false
  bootBuffer : SMap Byte := []
  svcDone : SMap Word := []
  deriving DecidableEq, Repr

/-- Power, links, spares and errors of the package (R14, R37, R371–R378). -/
structure Hardware where
  powered : Bool := true
  /-- stacks in service (R378) -/
  trained : List Nat := []
  /-- what each stack's sensor last read, in °C (R374) -/
  stackTemp : SMap Nat := []
  /-- what the board's flash holds, and the image that the boot core has loaded (R377) -/
  flash : List Byte := []
  image : List Byte := []
  /-- the fused SHA3-512 hash of the public key (R377) -/
  keyHash : Nat := 0
  /-- messages in the inbound mailbox of each Millwright core, oldest first, each of 64 bytes as a number (R375) -/
  inbox : SMap (List Nat) := []
  retiredStacks : List Nat := []
  hostRate : Nat := 0
  hostWidth : Nat := 0
  node : BitVec 12 := 0
  ports : SMap Nat := []
  laneSpares : List Nat := []
  egress : SMap EgressWindow := []
  egressLocked : Bool := false
  rollback : Nat := 0
  /-- what the boot core has measured (R377) -/
  measured : List Nat := []
  channels : SMap Channel := []
  channelSpares : SMap Nat := []
  /-- spare cores used, per die -/
  coreSpares : SMap Nat := []
  rowSpares : SMap Nat := []
  pipeSpares : SMap Nat := []
  /-- ray pipes lost with no spare left: stack and pipe -/
  pipesLost : List (Nat × Nat) := []
  /-- pipes to be replaced at the next treelet exit of their ray: stack and pipe (R373) -/
  pipesDue : List (Nat × Nat) := []
  /-- fuses blown: one code per use of a spare -/
  fuses : List Nat := []
  corrected : SMap Nat := []
  dropped : Nat := 0
  /-- poisoned 64-byte atoms, by memory key / 64 -/
  poison : List Nat := []
  currentLimited : List Nat := []
  epochs : SMap Nat := []
  epochLive : SMap (List Region) := []
  deriving DecidableEq, Repr

/-- The gang that issues: the crew, the PC and the threads in ascending home-lane order (R11). -/
structure Issue where
  crew : Nat
  pc : Word64
  tids : List Nat
  deriving DecidableEq, Repr, Inhabited

/-- What Millwright does with messages and at the host's request (R40, R375). -/
inductive Mail where
  /-- core 1 serves the message that the host posted in MBX_OUT -/
  | host
  /-- a core posts 64 bytes, as a number, to the mailbox of another -/
  | post (src dst msg : Nat)
  /-- a core takes the oldest message of its mailbox -/
  | take (core : Nat)
  /-- the host registers a context: Millwright assigns it a CTXID, and its descriptor is sought in the tables at `root` -/
  | context (ctx : Nat) (root : Word64)
  /-- the host registers a queue of a context: its state block gets a doorbell index -/
  | queue (ctx block q : Nat)
  /-- core 7 writes a context's counts to its telemetry area -/
  | telem (ctx : Nat)
  deriving DecidableEq, Repr

/-- An entry of the schedule: how many core cycles pass, and what moves: an event, or the gatherer of a core. -/
structure Turn where
  cycles : Nat := 1
  core : Nat := 0
  ev : Option Instr := none
  deriving DecidableEq, Repr

/-- The machine. -/
structure State where
  /-- every byte that is not zero, by memory key -/
  mem : List Host.Cell := []
  hw : Hardware := {}
  bar : Bar0 := {}
  /-- core cycles since the dies left reset -/
  cycle : Nat := 0
  /-- CCLK of each die (R360) -/
  cclk : SMap Word64 := []
  cores : SMap Core := []
  contexts : List Context := []
  crews : List Crew := []
  issue : Option Issue := none
  /-- issue ports that each core has used in this cycle (R108) -/
  ports : SMap Nat := []
  /-- the threads, as crew and thread, among which each core's second port chooses in this cycle: those that were ready when the first chose, without the group it chose (R108) -/
  turn : SMap (List (Nat × Nat)) := []
  runs : List Run := []
  ready : List Ready := []
  queues : List HostQueue := []
  tlb : List TlbEntry := []
  walks : List Walk := []
  lines : List CacheLine := []
  /-- dirty L2 lines and pinned lines, by key / 64 (R168, R169) -/
  dirty : List Nat := []
  pinned : List Nat := []
  tags : SMap TagLine := []
  loads : List PendingLoad := []
  stores : List PendingStore := []
  waiters : List Waiter := []
  /-- engine requests woken at a block that have not made their step again (R187): request, context, range and block -/
  wokenReqs : List (Nat × Nat × Nat × Nat) := []
  genQueue : List GenRec := []
  nodes : List Node := []
  tileReqs : List TileReq := []
  flume : List FlumeReq := []
  rings : List RingReq := []
  /-- requests that reached a ring descriptor's home in this cycle: cycle, key of the descriptor, %core and home lane (R288) -/
  ringCame : List (Nat × Nat × Nat × Nat) := []
  colls : List CollReq := []
  /-- collectives issued so far with one tag and group list (R292) -/
  collSeq : List (Nat × List Nat × Nat) := []
  querns : List QuernJob := []
  migs : List Migration := []
  moves : List MoveReq := []
  /-- faults of blocks and pages that waiting engine requests and rays will find, by request number (R194) -/
  demandFaults : List (Nat × TrapInfo) := []
  /-- engine writes that wait at a read-shared line or for a tag slot (R209): request, crew, cycles counted -/
  engineWaits : List (Nat × Nat × Nat) := []
  /-- the dies' failed-page lists, oldest first: die, context, page and Quern status (R197) -/
  failed : List (Nat × Nat × Nat × Nat) := []
  /-- expansions that the dies' Querns have still to do: die, context and page (R197, R301) -/
  expansions : List (Nat × Nat × Nat) := []
  rays : List Ray := []
  /-- the leat that each base die has chosen and not yet emptied: context, whether of a top treelet, and VA of the scene or of the table entry (R315) -/
  drains : SMap (Option (Nat × Bool × Nat)) := []
  slots : List RaySlot := []
  held : List HeldTreelet := []
  pubs : List PubReq := []
  filters : List FilterReq := []
  vis : List VisReq := []
  replays : List ReplayReq := []
  svc : List SvcCall := []
  collectors : List Collector := []
  replies : List Reply := []
  /-- what the device has sent out: host messages, reports, link replies -/
  outbox : List (Nat × List Nat) := []
  agenda : List Turn := []
  /-- what Millwright's firmware does next, which is decided outside the machine (R375) -/
  firmware : List Mail := []
  lastCore : Nat := 0
  nextId : Nat := 1
  /-- the model's own counter of free values drawn -/
  freeIdx : Nat := 0
  deriving DecidableEq, Repr

/-- Why a step stops with a fault. -/
inductive Fault where
  /-- raised by `step` when package power is removed and no power-good is scheduled: nothing runs (R378); safe -/
  | powerOff
  deriving DecidableEq, Repr

/-- Why a step is refused. -/
inductive Refusal where
  /-- raised by an arm of `exec` whose instruction has no meaning yet; safe -/
  | notModelled (mnemonic : String)
  deriving DecidableEq, Repr

/-- The machine right after reset: power-good, stage 0 (R378), every register at its reset value. -/
def State.reset : State := {}

end Sys2Proof.Machine
end

