-- ==== Sys2Proof/Machine/Maps.lean ====
section
/-! DEFINITION. Finite maps with a default, in one canonical form: keys strictly rising and no entry equal to the default. Memory (R13) is one such map with the default byte 0. -/

namespace Sys2Proof.Machine

/-- The value at a key, or the default. -/
def mget {α : Type} (d : α) : SMap α → Nat → α
  | [], _ => d
  | (k', v') :: t, k => if k = k' then v' else mget d t k

/-- The map without a key. -/
def mdel {α : Type} (m : SMap α) (k : Nat) : SMap α := m.filter fun e => e.1 != k

/-- A key that the map does not list, put before the first greater one. -/
def mins {α : Type} : SMap α → Nat → α → SMap α
  | [], k, v => [(k, v)]
  | e :: t, k, v => if k < e.1 then (k, v) :: e :: t else e :: mins t k v

/-- The map with a value at a key; writing the default removes the entry. -/
def mput {α : Type} [DecidableEq α] (d : α) (m : SMap α) (k : Nat) (v : α) : SMap α :=
  if v = d then mdel m k else mins (mdel m k) k v

/-- All keys lie above a bound, rise strictly, and no entry holds the default. -/
def mwfFrom {α : Type} [DecidableEq α] (d : α) : Option Nat → SMap α → Bool
  | _, [] => true
  | lo, (k, v) :: t => (match lo with | none => true | some b => decide (b < k)) && decide (v ≠ d) && mwfFrom d (some k) t

/-- The canonical form. -/
def mwf {α : Type} [DecidableEq α] (d : α) (m : SMap α) : Bool := mwfFrom d none m

/-- Memory in canonical form: every listed byte is nonzero, addresses strictly rise. -/
def Memory.wf (m : List Host.Cell) : Bool := mwf (0 : Byte) m

/-- The byte at a memory key; a byte nothing has written reads zero (R13). (PRESUMED, log entry 9) -/
def memByte (m : List Host.Cell) (k : Nat) : Byte := mget 0 m k

/-- Memory with one byte written. -/
def memPut (m : List Host.Cell) (k : Nat) (b : Byte) : List Host.Cell := mput 0 m k b

/-- `n` bytes from a key as a little-endian number (R4). -/
def memRead (m : List Host.Cell) (k : Nat) : Nat → Nat
  | 0 => 0
  | n + 1 => (memByte m k).toNat + 256 * memRead m (k + 1) n

/-- The bytes of a little-endian number from a key, as writes. -/
def byteList (k v : Nat) : Nat → List (Nat × Byte)
  | 0 => []
  | n + 1 => (k, BitVec.ofNat 8 v) :: byteList (k + 1) (v / 256) n

/-- Writes done in order. -/
def memPutAll (m : List Host.Cell) (ws : List (Nat × Byte)) : List Host.Cell := ws.foldl (fun m w => memPut m w.1 w.2) m

/-- Memory with an `n`-byte little-endian number written at a key. -/
def memWrite (m : List Host.Cell) (k n v : Nat) : List Host.Cell := memPutAll m (byteList k v n)

/-- Bytes written from a key upwards. -/
def memFill (m : List Host.Cell) (k : Nat) (bs : List Byte) : List Host.Cell :=
  memPutAll m ((List.range bs.length).zip bs |>.map fun p => (k + p.1, p.2))

/-- Bytes from a key upwards. -/
def memBytes (m : List Host.Cell) (k n : Nat) : List Byte := (List.range n).map fun i => memByte m (k + i)

/-- The spaces of memory keys: HBM, host and CXL, peers (HBM and host tiers), bin scratch, crew scratchpads. -/
def spaceSize : Nat := 2 ^ 52

/-- The key of a byte of a space. (DESIGN CHOICE, log entry 10) -/
def spaceKey (space off : Nat) : Nat := space * spaceSize + off

def hbmKey (pa : Nat) : Nat := spaceKey 0 pa
def hostKey (pa : Nat) : Nat := spaceKey 1 pa
def peerKey (node : Nat) (host : Bool) (pa : Nat) : Nat := spaceKey (2 + 2 * node + host.toNat) pa
/-- Bin scratch of the core %core (R168). -/
def binKey (core off : Nat) : Nat := spaceKey (8194 + core) off
/-- Scratchpad of a crew, by the crew's unique number (R157). -/
def scrKey (uid off : Nat) : Nat := spaceKey (16384 + uid) off

/-- The space of a key, and the offset in it. -/
def keySpace (k : Nat) : Nat := k / spaceSize
def keyOff (k : Nat) : Nat := k % spaceSize

/-- Whether a key is a byte of HBM on this device. -/
def isHbm (k : Nat) : Bool := keySpace k == 0

end Sys2Proof.Machine
end

