-- ==== Sys2Proof/Machine/Ops.lean ====
section
/-! DEFINITION. The named operations over crews, threads and registers: lookups and updates, register and predicate reads and writes, guards, bindings, meets, barriers, the common end of an issue, and the raising of a trap. -/

namespace Sys2Proof.Machine

/-- The result of a meaning. -/
abbrev Out := Host.Outcome State Fault Refusal

/-! ### Crews, threads, contexts, runs -/

def getCrew (s : State) (uid : Nat) : Option Crew := s.crews.find? (·.uid == uid)

def updCrew (s : State) (uid : Nat) (f : Crew → Crew) : State :=
  { s with crews := s.crews.map fun c => if c.uid = uid then f c else c }

def Crew.thread (c : Crew) (tid : Nat) : Option Thread := c.threads.find? (·.tid == tid)

/-- Every thread of a crew changed. -/
def Crew.mapT (c : Crew) (f : Thread → Thread) : Crew := { c with threads := c.threads.map f }

def Crew.upd (c : Crew) (tid : Nat) (f : Thread → Thread) : Crew :=
  c.mapT fun t => if t.tid = tid then f t else t

def updT (s : State) (uid tid : Nat) (f : Thread → Thread) : State := updCrew s uid (·.upd tid f)

def getThread (s : State) (uid tid : Nat) : Option Thread := (getCrew s uid).bind (·.thread tid)

def getCtx (s : State) (id : Nat) : Option Context := s.contexts.find? (·.id == id)

def updCtx (s : State) (id : Nat) (f : Context → Context) : State :=
  { s with contexts := s.contexts.map fun c => if c.id = id then f c else c }

def getRun (s : State) (id : Nat) : Option Run := s.runs.find? (·.id == id)

def updRun (s : State) (id : Nat) (f : Run → Run) : State :=
  { s with runs := s.runs.map fun r => if r.id = id then f r else r }

/-- %core of a crew (R15). -/
def Crew.coreId (c : Crew) : Nat := 256 * c.die + c.core

def coreOf (s : State) (k : Nat) : Core := mget default s.cores k

def updCore (s : State) (k : Nat) (f : Core → Core) : State :=
  { s with cores := mput default s.cores k (f (coreOf s k)) }

/-- Home lane of a thread (R27). -/
def Crew.lane (c : Crew) (tid : Nat) : Nat := tid % c.gw

/-- Home gang of a thread (R104). -/
def Crew.hgang (c : Crew) (tid : Nat) : Nat := tid / c.gw

def Crew.hgangs (c : Crew) : Nat := (c.threads.length + c.gw - 1) / c.gw

/-- Whether the crew is a generator crew, or a trap handler. -/
def Crew.isGen (c : Crew) : Bool := match c.kind with
  | .gen .. => true
  | _ => false

def Crew.isHandler (c : Crew) : Bool := match c.kind with
  | .handler _ _ => true
  | _ => false

/-- Depth of a crew's touches (R190). -/
def Crew.depth (c : Crew) : Nat := match c.kind with
  | .gen _ _ d _ => d
  | _ => 0

/-- v registers in force for a home gang (R254). -/
def Crew.budget (c : Crew) (g : Nat) : Nat :=
  let h := c.hgangs
  if h ≤ g + c.nCopy then c.regsCopy
  else if h ≤ g + c.nCopy + c.nEpi then c.regsEpi
  else c.regs

/-! ### Registers -/

/-- `n` consecutive 32-bit registers from `k` as one little-endian number (R49). -/
def groupVal (m : SMap Word) (k : Nat) : Nat → Nat
  | 0 => 0
  | n + 1 => (mget 0 m k).toNat + 2 ^ 32 * groupVal m (k + 1) n

/-- The registers from `k` with a number written over `n` of them. -/
def groupPut (m : SMap Word) (k v : Nat) : Nat → SMap Word
  | 0 => m
  | n + 1 => groupPut (mput 0 m k (BitVec.ofNat 32 v)) (k + 1) (v / 2 ^ 32) n

/-- The value of a special operand (R47). -/
def special (c : Crew) (t : Thread) : Special → Nat
  | .zero => 0
  | .lane => c.lane t.tid
  | .tid => t.tid
  | .crew => c.num.toNat
  | .stage => c.stage
  | .gw => c.gw
  | .meet => t.meet.toNat
  | .link => t.link.toNat
  | .vclk => c.vclk.toNat % 2 ^ 32
  | .core => c.coreId

/-- A source operand of `n` registers (R47, R49): specials zero-extended, %meet and %link in full above 32 bits. -/
def rd (c : Crew) (t : Thread) (o : Opnd) (n : Nat) : Nat :=
  match o with
  | .v k => groupVal t.v k n
  | .s k => groupVal c.s k n
  | .sp x => special c t x % 2 ^ (32 * n)
  | .none => 0

/-- Predicate `k`; p7 always reads true (R51). -/
def rp (t : Thread) (k : Nat) : Bool := k == 7 || mget false t.p k

/-- A predicate written; a write to p7 is discarded (R51). -/
def wp (t : Thread) (k : Nat) (b : Bool) : Thread := if k = 7 then t else { t with p := mput false t.p k b }

/-- Number in a predicate or tile field (R51). -/
def numOf (o : Opnd) : Nat := o.code

/-- A destination of `n` registers written; %zero discards (R47). -/
def wr (c : Crew) (tid : Nat) (o : Opnd) (n v : Nat) : Crew :=
  match o with
  | .v k => c.upd tid fun t => { t with v := groupPut t.v k v n }
  | .s k => { c with s := groupPut c.s k v n }
  | .sp _ => c
  | .none => c

/-- One write of an instruction to the registers of a thread. -/
inductive Wr where
  | reg (o : Opnd) (n v : Nat)
  | pred (o : Opnd) (b : Bool)
  deriving DecidableEq, Repr

def applyWr (c : Crew) (tid : Nat) : Wr → Crew
  | .reg o n v => wr c tid o n v
  | .pred o b => match o with
    | .none => c
    | o => c.upd tid fun t => wp t (numOf o) b

def applyWrs (c : Crew) (ws : List (Nat × Wr)) : Crew := ws.foldl (fun c w => applyWr c w.1 w.2) c

/-- The guard of a thread (R45). -/
def guardOk (g : Guard) (t : Thread) : Bool := rp t g.p != g.neg

/-! ### The gang that issues -/

/-- What a meaning sees: the state, the crew, the gang and its active threads in home-lane order (R11). -/
structure Env where
  s : State
  c : Crew
  is : Issue
  act : List Thread

/-- The threads of a gang, as formed. -/
def gangThreads (c : Crew) (is : Issue) : List Thread := is.tids.filterMap c.thread

/-- Runs a meaning for the gang that issues; with no gang there is nothing to do. (DESIGN CHOICE, log entry 4) -/
def gangDo (g : Guard) (s : State) (f : Env → Out) : Out :=
  match s.issue with
  | none => .next s
  | some is =>
    match getCrew s is.crew with
    | none => .next { s with issue := none }
    | some c => f { s := s, c := c, is := is, act := (gangThreads c is).filter (guardOk g) }

/-! ### Bindings (R105) -/

/-- Ends the bindings of the bound gangs that hold any of the threads. -/
def endBindings (c : Crew) (tids : List Nat) : Crew :=
  let gs := c.threads.filterMap fun t => if tids.contains t.tid then t.bound else none
  c.mapT fun t => match t.bound with
    | some g => if gs.contains g then { t with bound := none } else t
    | none => t

/-- Makes the threads one new bound gang. -/
def bindGang (c : Crew) (tids : List Nat) : Crew :=
  let c := endBindings c tids
  { c.mapT (fun t => if tids.contains t.tid then { t with bound := some c.nextBound } else t) with
    nextBound := c.nextBound + 1 }

/-! ### Meets (R113, R114) -/

/-- Whether a thread stands at its meet: at its meet address and waiting for nothing else. R113 names a parked thread, one at a barrier and one held at another meet, and R229, R342 and R364 those held at `arw.wait`, `hitld` and `trap.svc`; the model counts one held at any other wait (`wait`, a ring, `tacq`, a release, a full thunk table) in the same way, as not standing. (DESIGN CHOICE, log entry 153) -/
def standsAtMeet (t : Thread) : Bool :=
  t.pc == t.meet && (match t.hold with
    | .none => true
    | .meet _ => true
    | _ => false)

/-- A sibling that keeps `t` held: live, same home gang and meet, pass bit 0, and not standing at its meet. -/
def keepsHeld (c : Crew) (t u : Thread) : Bool :=
  u.tid != t.tid && u.live && c.hgang u.tid == c.hgang t.tid && u.meet == t.meet && !u.pass && !standsAtMeet u

/-- The condition of R113. -/
def mustHold (c : Crew) (t : Thread) : Bool :=
  t.live && t.pc == t.meet && !t.pass && c.threads.any (keepsHeld c t)

def heldAtMeet (t : Thread) : Bool := match t.hold with
  | .meet _ => true
  | _ => false

/-- Releases a meet group: pass bits set, one bound gang (R114). -/
def releaseMeet (c : Crew) (tids : List Nat) : Crew :=
  bindGang (c.mapT fun t => if tids.contains t.tid then { t with pass := true, hold := .none } else t) tids

/-- Releases every meet group whose condition has become false; `arr` are the threads that arrived in this cycle. -/
def releaseMeets (arr : List Nat) (c : Crew) : Crew :=
  let ready := c.threads.filter fun t => heldAtMeet t && !mustHold c t
  let keys := (ready.map fun t => (c.hgang t.tid, t.meet)).eraseDups
  keys.foldl (fun c key =>
    let ids := (c.threads.filter fun t => c.hgang t.tid == key.1 && t.meet == key.2 && t.live && !t.pass && t.pc == t.meet &&
      (heldAtMeet t || (arr.contains t.tid && standsAtMeet t))).map (·.tid)
    releaseMeet c ids) c

/-- Arrivals at a PC: each thread that R113 holds is held and its binding ends; then whole groups are released. -/
def settleMeets (arr : List Nat) (c : Crew) : Crew :=
  let held := (c.threads.filter fun t => arr.contains t.tid && standsAtMeet t && mustHold c t).map (·.tid)
  let c1 := endBindings c held
  releaseMeets arr (c1.mapT fun t => if held.contains t.tid then { t with hold := .meet c.vclk.toNat } else t)

/-! ### The end of an issue -/

/-- Moves threads of a gang to new PCs; a gang whose members part ends its binding, and arrivals are settled. -/
def moveTo (tids : List Nat) (target : Nat → Word64) (c : Crew) : Crew :=
  let pcs := (tids.map target).eraseDups
  let c := if 1 < pcs.length then endBindings c tids else c
  settleMeets tids (c.mapT fun t => if tids.contains t.tid then { t with pc := target t.tid, hold := .none, gang := [] } else t)

/-- The end of an instruction that leaves its gang at one PC: every thread of the gang as formed moves on by one word. -/
def retire (is : Issue) (s : State) : State :=
  { updCrew s is.crew (moveTo is.tids fun _ => is.pc + 8) with issue := none }

/-- The end of an issue in which only some threads move on: the others wait at the word. What ends a binding is the wait itself, where R105 names it. -/
def retireSome (is : Issue) (moved : List Nat) (s : State) : State :=
  { updCrew s is.crew (moveTo moved fun _ => is.pc + 8) with issue := none }

/-- An instruction whose effect is only on registers and predicates: all sources are read before any write (R11). -/
def regInstr (a : Args) (s : State) (f : Crew → Thread → List Wr) : Out :=
  gangDo a.guard s fun e =>
    let ws := e.act.flatMap fun t => (f e.c t).map fun w => (t.tid, w)
    .next (retire e.is (updCrew e.s e.is.crew fun c => applyWrs c ws))

/-! ### Traps -/

/-- Home-lane mask of threads. -/
def laneMask (c : Crew) (tids : List Nat) : Nat := tids.foldl (fun m t => m ||| 2 ^ c.lane t) 0

/-- Home-gang mask of threads. -/
def gangMask (c : Crew) (tids : List Nat) : Nat := tids.foldl (fun m t => m ||| 2 ^ c.hgang t) 0

/-- The least of a list of numbers, or a default. -/
def leastOr (d : Nat) : List Nat → Nat
  | [] => d
  | x :: xs => xs.foldl min x

/-- A trap of given threads, with LANES from their home lanes. -/
def trapOf (c : Crew) (code sub : Nat) (tids : List Nat) (detail : List PutField := []) (addr : Word64 := 0) : TrapInfo :=
  { code := code, sub := sub, tids := tids, lanes := laneMask c tids, detail := detail, addr := addr }

/-- A DETAIL field that holds LANE, the lowest failing home lane (R355). -/
def laneField (c : Crew) (tids : List Nat) : PutField :=
  { off := 0, len := 2, val := leastOr 0xFFFF (tids.map c.lane) }

/-- Whether a context switch is taking a crew's die (R367). -/
def switching (s : State) (c : Crew) : Bool := s.collectors.any fun k => k.ctx == c.ctx && k.die == c.die

/-- Whether a crew stops without a trap of its own: a context switch or a pre-emption is taking it (R366). -/
def stopping (s : State) (c : Crew) : Bool := switching s c || c.taking.isSome

/-- Whether a trap that a crew meets now is reported: not one met while it halts or is being taken off its core; the first of a context switch is (R353). -/
def recordsTrap (s : State) (c : Crew) : Bool := c.halt.isNone && (!stopping s c || (switching s c && c.nested.isEmpty))

/-- Whether a context is switched out or being switched out: nothing of it starts. -/
def ctxOff (s : State) (ctx : Nat) : Bool := (getCtx s ctx).any (·.out) || s.collectors.any (·.ctx == ctx)

/-- Whether an engine has stopped for a crew's context on its die (R366, R367). -/
def engineStopped (s : State) (c : Crew) (engine : Nat) : Bool :=
  (getCtx s c.ctx).any (·.out) || s.collectors.any fun k => k.ctx == c.ctx && k.die == c.die && k.bits.contains engine

/-- Raises a trap: the crew halts and its skid begins (R352). A trap met while it halts, or while it is being taken off its core, stops that home gang only; one met while a context switch takes the crew is kept for its restore (R353). -/
def raise (s : State) (uid : Nat) (pc : Word64) (gang : List Nat) (info : TrapInfo) : State :=
  { updCrew s uid (fun c =>
      match c.halt with
      | none =>
        if stopping s c then { c with
          nested := if switching s c && c.nested.isEmpty then [({ info with gang := gang, nested := true }, pc, c.vclk)] else c.nested
          switchStopped := (c.switchStopped ++ gang.map c.hgang).eraseDups }
        else { c with halt := some {
          phase := .skid, trap := { info with gang := gang }, pc := pc, since := s.cycle, vclk := c.vclk } }
      | some h => { c with halt := some { h with stopped := (h.stopped ++ gang.map c.hgang).eraseDups } }) with issue := none }

/-- Raises a trap at the word the gang issues. -/
def trapGang (e : Env) (info : TrapInfo) : Out := .next (raise e.s e.is.crew e.is.pc e.is.tids info)

/-- Trap codes of R351. -/
def tcILL := 0x01
def tcPAIRBANK := 0x02
def tcPRIV := 0x03
def tcALIGN := 0x04
def tcBOUNDS := 0x05
def tcPAGE := 0x06
def tcPERM := 0x07
def tcRACE := 0x08
def tcFMTDIV := 0x09
def tcTILEALIAS := 0x0A
def tcTHUNKFULL := 0x0B
def tcGENFAULT := 0x0C
def tcGENDEPTH := 0x0D
def tcTOKEN := 0x0E
def tcSTALL := 0x0F
def tcTIMER := 0x10
def tcSVC := 0x11
def tcBRK := 0x12
def tcPOISON := 0x13
def tcUSER := 0x14

/-! ### Waiting and counters -/

/-- Holds threads at the word they stand at. -/
def holdT (s : State) (uid : Nat) (tids : List Nat) (h : Hold) : State :=
  updCrew s uid (·.mapT fun t => if tids.contains t.tid then { t with hold := h } else t)

/-- Keeps a gang at its word, to issue it again as formed (R68); `who` of it are held. -/
def holdGang (s : State) (uid : Nat) (gang who : List Nat) (h : Hold) : State :=
  updCrew s uid (·.mapT fun t =>
    let t1 := if who.contains t.tid then { t with hold := h } else t
    if gang.contains t.tid then { t1 with gang := gang } else t1)

/-- Threads that are to execute the word again apart from the rest of their gang: their binding ends. (DEDUCED, log entry 143) -/
def leaveGang (s : State) (uid : Nat) (tids : List Nat) : State := updCrew s uid fun c => endBindings c tids

/-- Parks threads: they leave the gang, and their binding ends (R31, R105). -/
def parkT (s : State) (uid : Nat) (tids : List Nat) (p : Park) : State :=
  updCrew s uid fun c =>
    let c := endBindings c tids
    c.mapT fun t => if tids.contains t.tid then { t with hold := .parked p } else t

/-- Wakes parked threads: they rejoin the gatherer at the word that parked them (R31). -/
def wakeT (s : State) (uid : Nat) (tids : List Nat) : State := holdT s uid tids .none

/-- Raises a counter of a thread (R220). -/
def countUp (s : State) (uid tid : Nat) (f : Counters → Counters) : State :=
  updT s uid tid fun t => { t with cnt := f t.cnt }

/-! ### Ring operations (R288, R289) -/

/-- Whether an operation holds its thread until it is served. (DEDUCED, log entry 95) -/
def RingOp.holds : RingOp → Bool
  | .push | .weirPushTry | .popa => false
  | _ => true

/-- Whether an operation waits at the home, watched against STALL_LIMIT (R289). -/
def RingOp.waits : RingOp → Bool
  | .pop | .weirPop | .weirPush => true
  | _ => false

def RingOp.isPush : RingOp → Bool
  | .push | .weirPush | .weirPushTry => true
  | _ => false

/-- The counter that an operation holds (R220). -/
def RingOp.count (op : RingOp) (n : Nat → Nat) (k : Counters) : Counters := match op with
  | .popa => { k with copies := n k.copies }
  | op => if op.isPush then { k with stores := n k.stores } else { k with loads := n k.loads }

/-- The threads on whose behalf a request is made, as crew and thread: an engine's, a ring's, a tile sequencer's, a ray's, a filter's or a move's. -/
def requestOwners (s : State) (id : Nat) : List (Nat × Nat) :=
  (s.flume.filter (·.id == id)).map (fun r => (r.crew, r.tid)) ++ (s.colls.filter (·.id == id)).map (fun r => (r.crew, r.tid))
    ++ (s.tileReqs.filter (·.id == id)).flatMap (fun r => r.tids.map fun t => (r.crew, t))
    ++ (s.moves.filter (·.id == id)).filterMap (·.who) ++ (s.rings.filter (·.id == id)).map (fun r => (r.crew, r.tid))
    ++ (s.querns.filter (·.id == id)).map (fun r => (r.crew, r.tid)) ++ (s.rays.filter (·.id == id)).map (fun r => (r.crew, r.tid))
    ++ (s.filters.filter (·.id == id)).map (fun r => (r.crew, r.tid)) ++ (s.vis.filter (·.id == id)).map (fun r => (r.crew, r.tid))
    ++ (s.replays.filter (·.id == id)).map (fun r => (r.crew, r.tid))

/-- The requests of engines, sequencers, ray pipes and filter pipes that a crew has outstanding. -/
def requestsOf (s : State) (uid : Nat) : List Nat :=
  (s.flume.filter (·.crew == uid)).map (·.id) ++ (s.tileReqs.filter (·.crew == uid)).map (·.id) ++ (s.rings.filter (·.crew == uid)).map (·.id)
  ++ (s.colls.filter (·.crew == uid)).map (·.id) ++ (s.querns.filter (·.crew == uid)).map (·.id) ++ (s.rays.filter (·.crew == uid)).map (·.id)
  ++ (s.filters.filter (·.crew == uid)).map (·.id) ++ (s.vis.filter (·.crew == uid)).map (·.id) ++ (s.replays.filter (·.crew == uid)).map (·.id)

/-! ### Numbers, counts and regions -/

/-- A fresh request or store number. (DESIGN CHOICE, log entry 6; DESIGN CHOICE, log entry 7) -/
def fresh (s : State) : Nat × State := (s.nextId, { s with nextId := s.nextId + 1 })

/-- Counts an event in a context's telemetry. -/
def telemetry (s : State) (ctx kind : Nat) : State :=
  updCtx s ctx fun c => { c with telemetry := mput 0 c.telemetry kind (mget 0 c.telemetry kind + 1) }

/-- Ends a thread's synchronisation-free region and begins its next (R203). -/
def syncPoint (s : State) (uid tid : Nat) : State := updT s uid tid fun t => { t with region := t.region + 1 }

end Sys2Proof.Machine
end

