-- ==== Sys2Proof/Machine/Operands.lean ====
section
/-! DEFINITION. The operand forms: modifier fields read as types, integer elements (R131), floating-point elements (R144), the B operand or its immediate (R59), and addresses (R175). -/

namespace Sys2Proof.Machine

/-! ### Modifiers -/

/-- M as a number. -/
def Args.mod (a : Args) : Nat := a.m.toNat

/-- Element width in bits and element count of the integer width field (R55, R131). -/
def intElems (m : Nat) : Nat × Nat := match bitsOf m 3 2 with
  | 0 => (32, 1)
  | 1 => (64, 1)
  | 2 => (16, 2)
  | _ => (8, 4)

/-- The integer modifier read as a record (R55). -/
structure IntMods where
  sub : Nat
  signed : Bool
  w : Nat
  n : Nat
  sat : Bool
  deriving DecidableEq, Repr

def intMods (m : Nat) : IntMods :=
  { sub := bitsOf m 7 5, signed := bitAt m 4, w := (intElems m).1, n := (intElems m).2, sat := bitAt m 1 }

/-- Registers that an operand at the width occupies. -/
def IntMods.regs (k : IntMods) : Nat := if k.w = 64 then 2 else 1

/-- The floating-point modifier read as a record (R54). -/
structure FloatMods where
  mode : Mode
  fi : Bool
  fo : Bool
  /-- 0 f32, 1 f64, 2 f16x2, 3 bf16x2 -/
  ty : Nat
  sat : Bool
  low : Bool
  deriving DecidableEq, Repr

def floatMods (m : Nat) : FloatMods :=
  { mode := modeOf (bitsOf m 7 6), fi := bitAt m 5, fo := bitAt m 4, ty := bitsOf m 3 2, sat := bitAt m 1, low := bitAt m 0 }

/-- The format of a floating-point type. -/
def tyFmt (ty : Nat) : Fmt := match ty with
  | 0 => fp32
  | 1 => fp64
  | 2 => fp16
  | _ => bf16

def tyElems (ty : Nat) : Nat := if ty < 2 then 1 else 2
def tyRegs (ty : Nat) : Nat := if ty = 1 then 2 else 1

/-! ### Elements -/

/-- Element `e` of width `w` of a value (R77). -/
def elem (w v e : Nat) : Nat := v / 2 ^ (w * e) % 2 ^ w

/-- A value made of `n` elements of width `w`. -/
def fromElems (w : Nat) (f : Nat → Nat) (n : Nat) : Nat :=
  (List.range n).foldr (fun e acc => acc ||| (f e % 2 ^ w) * 2 ^ (w * e)) 0

/-- An element read under the signedness given (R131). -/
def asInt (signed : Bool) (w v : Nat) : Int := if signed then signExt v w else (v % 2 ^ w : Nat)

/-- An exact result clamped to the range of a width and signedness (R131). -/
def clampInt (signed : Bool) (w : Nat) (x : Int) : Int :=
  let lo : Int := if signed then -(2 ^ (w - 1)) else 0
  let hi : Int := if signed then 2 ^ (w - 1) - 1 else 2 ^ w - 1
  max lo (min hi x)

/-- The IB immediate at a width, as the register value it stands for (R59). -/
def ibVal (k : IntMods) (imm : Nat) : Nat :=
  if k.n = 1 then lowBits (signExt imm 27) k.w
  else fromElems k.w (fun _ => imm) k.n

/-- B at the operation's width, or the IB immediate in its place. -/
def srcB (c : Crew) (t : Thread) (a : Args) (k : IntMods) : Nat :=
  match a.imm with
  | some v => ibVal k v.toNat
  | none => rd c t a.b k.regs

/-- The FB immediate of a type, as the register value it stands for (R59). -/
def fbVal (ty imm : Nat) : Nat := match ty with
  | 0 => imm * 2 ^ 5
  | 1 => imm * 2 ^ 37
  | _ => fromElems 16 (fun _ => imm) 2

/-- B in a floating-point instruction, or the FB immediate. -/
def srcFB (c : Crew) (t : Thread) (a : Args) (ty : Nat) : Nat :=
  match a.imm with
  | some v => fbVal ty v.toNat
  | none => rd c t a.b (tyRegs ty)

/-- X as a signed 11-bit number (R44). -/
def Args.xs (a : Args) : Int := signExt a.x.toNat 11

/-- imm27 as a number; zero in the R form. -/
def Args.immN (a : Args) : Nat := (a.imm.map BitVec.toNat).getD 0

/-- imm27 as a signed number. -/
def Args.immS (a : Args) : Int := signExt (Args.immN a) 27

/-- A 64-bit address formed modulo 2^64. -/
def addr64 (x : Int) : Word64 := BitVec.ofInt 64 x

/-- The effective address of a class-MO instruction (R175). -/
def effAddr (c : Crew) (t : Thread) (a : Args) : Word64 :=
  let base : Int := (rd c t a.a 2 : Nat)
  match a.imm with
  | some _ => addr64 (base + Args.immS a)
  | none =>
    let off : Int := match a.b with
      | .none => 0
      | o => signExt (rd c t o 1) 32
    addr64 (base + off + Args.xs a)

/-- A branch target of class BR (R59). -/
def brTarget (pc : Word64) (a : Args) : Word64 := addr64 ((pc.toNat : Int) + 8 * Args.immS a)

end Sys2Proof.Machine
end

