-- ==== Sys2Proof/Machine/Flags.lean ====
section
/-! DEFINITION. The conditions that set predicates. The machine has no status flags: no integer instruction sets one (R131) and no floating-point instruction does (R81); comparisons and class tests write predicates. -/

namespace Sys2Proof.Machine

/-- The six conditions of `icmp` on exact integers (R139). -/
def intCond (cc : Nat) (x y : Int) : Bool := match cc with
  | 0 => x == y
  | 1 => x != y
  | 2 => decide (x < y)
  | 3 => decide (x ≤ y)
  | 4 => decide (y < x)
  | _ => decide (y ≤ x)

/-- The eight conditions of `fcmp` (R148). -/
def floatCond (cc : Nat) (x y : FV) : Bool :=
  let un := x.isNan || y.isNan
  match cc with
  | 0 => !un && x.cmp y == .eq
  | 1 => un || x.cmp y != .eq
  | 2 => !un && x.cmp y == .lt
  | 3 => !un && x.cmp y != .gt
  | 4 => !un && x.cmp y == .gt
  | 5 => !un && x.cmp y != .lt
  | 6 => !un
  | _ => un

/-- The class of an encoding, as the bit number of R150; `fi` classes a subnormal as zero of its sign. -/
def floatClass (f : Fmt) (fi : Bool) (x : Nat) : Nat :=
  match f.dec x with
  | .nan => 8
  | .inf n => if n then 0 else 7
  | .fin n m _ =>
    if m = 0 || (fi && f.isSub x) then (if n then 3 else 4)
    else if f.isSub x then (if n then 2 else 5)
    else (if n then 1 else 6)

/-- The logical operations of `plog` (R139). -/
def predOp (sub : Nat) (x y : Bool) : Bool := match sub with
  | 0 => x && y
  | 1 => x || y
  | 2 => x != y
  | 3 => !x
  | _ => x

/-- Strict order of minkey's keys (R222): bits [63:32] as FP32 with −0 below +0 and NaN above all, then bits [31:0]. -/
def keyLess (x y : Nat) : Bool :=
  let fx := fp32.dec (x / 2 ^ 32)
  let fy := fp32.dec (y / 2 ^ 32)
  let lx := x % 2 ^ 32
  let ly := y % 2 ^ 32
  match fx, fy with
  | .nan, .nan => decide (lx < ly)
  | .nan, _ => false
  | _, .nan => true
  | a, b => match a.cmp b with
    | .lt => true
    | .gt => false
    | .eq => if a.sign = b.sign then decide (lx < ly) else a.sign

end Sys2Proof.Machine
end

