-- ==== Sys2Proof/Config.lean ====
section
/-! DEFINITION. What an implementation fixes and the specification leaves open: free values without a body, so that no proof can lean on what they are. -/

namespace Sys2Proof.Config

/-- Where an approximate function's result lies within its bound (R153, R261), by function and input bits: an offset in 2^-20 parts of the bound's unit, clamped to the bound where it is used. DESIGN CHOICE, log entry 22. -/
opaque offset : Nat → Nat → Int

/-- Whether a cached copy that need not be kept is still there when a later access looks (R169, R217), by a running number. DESIGN CHOICE, log entry 47. -/
opaque keepCopy : Nat → Bool

/-- The home slice of a line within its home die, as a core's index, and the set of the slice's ways that holds it (R22, R169), by memory key / 64. DESIGN CHOICE, log entry 139. -/
opaque homeSlice : Nat → Nat × Nat

/-- Whether a 64 KiB page of host physical addresses is CXL memory, whose own page number R22 then takes, by address / 65536. DESIGN CHOICE, log entry 139. -/
opaque cxlPage : Nat → Bool

/-- Whether a line of a slice lies in the ways that a repartition takes (R168), by its memory key / 64 and a running number. DESIGN CHOICE, log entry 53. -/
opaque wayTaken : Nat → Nat → Bool

/-- The bytes of those parts of a save image whose layout is not given (R368), 0 for the header, 1 for a thread's control state and 2 for a ray-table slot, by what the part holds and the place of the byte in it. DESIGN CHOICE, log entry 35. -/
opaque imageByte : Nat → List Nat → Nat → Byte

/-- The 64-bit words of a free value, by a running number. DESIGN CHOICE, log entry 6. -/
opaque freeWord : Nat → Nat

/-- Where a value of a replay lies within its bound (R339), by its inputs: an offset in 2^-20 parts of the bound, clamped to it where it is used. DEDUCED, log entry 23. -/
opaque replayOffset : List Nat → Int

/-- Whether the conservative bounds of a triangle touch a tile that none of its hits lies in (R338), by a running number. DESIGN CHOICE, log entry 149. -/
opaque binTouch : Nat → Bool

/-- Bytes that one bin entry takes in the pond (R338). DESIGN CHOICE, log entry 149. -/
opaque binBytes : Nat

/-- Contents of a retired or reclaimed store whose data the rules call lost, by memory key and a running number. DESIGN CHOICE, log entry 53. -/
opaque lostByte : Nat → Nat → Byte

/-- The SHA3-512 digest of a firmware image, and that of the public key it names (R377). DESIGN CHOICE, log entry 13. -/
opaque digest : List Byte → Nat
opaque imageKey : List Byte → Nat

/-- Whether an image's ML-DSA-87 signature over its digest verifies, and its security version (R377). DESIGN CHOICE, log entry 13. -/
opaque sigVerifies : List Byte → Bool
opaque imageVersion : List Byte → Nat

/-- Where in the device save area of a queue state block its doorbell index is recorded (R40). DESIGN CHOICE, log entry 91. -/
opaque queueMark : Nat

/-- The word of the telemetry area that holds a count, by the count's number (R349, R371). DESIGN CHOICE, log entry 56. -/
opaque telemWord : Nat → Nat

/-- The signed attestation report of a measurement (R377). DESIGN CHOICE, log entry 123. -/
opaque report : List Nat → List Nat

end Sys2Proof.Config
end

