-- ==== Sys2Proof/Machine/Translate.lean ====
section
/-! DEFINITION. Reading memory where it lies (moved lines of a migration among it), and the translation of global virtual addresses: page-table entries, the walk, the translation caches and the egress windows (R159–R164, R376). -/

namespace Sys2Proof.Machine

/-! ### Where a byte lies -/

/-- The new place of a byte of a migrating page, once its line has moved (R164). -/
def Migration.redirect (m : Migration) (k : Nat) : Option Nat :=
  ((List.range m.olds.length).zip m.olds).findSome? fun (i, o) =>
    if o ≤ k ∧ k < o + m.piece ∧ (i * m.piece + (k - o)) / 64 < m.line then some (m.newKey + i * m.piece + (k - o)) else none

/-- The key at which an access to a byte is performed: the new home once the moved bit of its line is set (R164). -/
def place (s : State) (k : Nat) : Nat := (s.migs.findSome? (·.redirect k)).getD k

/-- A byte at its home. -/
def homeByte (s : State) (k : Nat) : Byte := memByte s.mem (place s k)

/-- `n` bytes from a key, little-endian, at their homes. -/
def homeRead (s : State) (k : Nat) : Nat → Nat
  | 0 => 0
  | n + 1 => (homeByte s k).toNat + 256 * homeRead s (k + 1) n

/-- `n` bytes from a key. -/
def homeBytes (s : State) (k n : Nat) : List Byte := (List.range n).map fun i => homeByte s (k + i)

/-- The old place of a byte that has moved with its line: the key by which its page's translation still names it. -/
def Migration.origin (m : Migration) (k : Nat) : Option Nat :=
  let o := k - m.newKey
  if m.newKey ≤ k ∧ o / 64 < m.line then m.olds[o / m.piece]?.map (· + o % m.piece) else none

/-- The key by which translations name the byte that lies at a place. -/
def unplace (s : State) (k : Nat) : Nat := (s.migs.findSome? (·.origin k)).getD k

/-- The stack that holds an HBM byte (R15). -/
def homeStack (k : Nat) : Nat := bitsOf (keyOff k) 39 36

/-- Home die of a byte: HBM by its stack (R160), host and CXL memory by page number mod 4 (R22), a bank by its core. -/
def homeDie (k : Nat) (cxl : Bool) : Nat :=
  match keySpace k with
  | 0 => bitsOf (keyOff k) 39 38
  | 1 => keyOff k / (if cxl then 65536 else 4096) % 4
  | _ => 0

/-- The core whose slice is the home of a line, as %core: on the line's home die (R22). (DESIGN CHOICE, log entry 139) -/
def sliceOf (line : Nat) : Nat :=
  256 * homeDie (64 * line) (Config.cxlPage (keyOff (64 * line) / 65536)) + (Config.homeSlice line).1 % 256

/-- The HBM channel of an atom (R166), as 32 × stack + channel. -/
def channelOf (atom : Nat) : Nat :=
  let pa := keyOff (64 * atom)
  32 * homeStack (64 * atom) + (bitsOf pa 10 6 ^^^ bitsOf pa 15 11)

/-- Whether an atom lies on a channel that was lost, and has not been written whole since (R167). (DEDUCED, log entry 130) -/
def channelLost (s : State) (atom : Nat) : Bool :=
  isHbm (64 * atom) && (let ch := mget default s.hw.channels (channelOf atom)
    ch.lost && !ch.present.contains atom)

/-- Whether some new reads meet an atom that is not yet present on its channel's spare, the channel being fenced: they wait (R167). -/
def readWaits (s : State) (runs : List (Nat × Nat)) : Bool :=
  !s.hw.channels.isEmpty && runs.any fun r => (List.range ((r.1 % 64 + r.2 + 63) / 64)).any fun i =>
    let atom := place s (r.1 / 64 * 64 + 64 * i) / 64
    isHbm (64 * atom) && (let ch := mget default s.hw.channels (channelOf atom)
      ch.phase == .fenced && !ch.present.contains atom)

/-- Whether anything is poisoned. -/
def anyPoison (s : State) : Bool := !s.hw.poison.isEmpty || s.hw.channels.any (·.2.lost)

/-- Whether the 64-byte atom of a byte is poisoned (R371). -/
def poisonedAt (s : State) (k : Nat) : Bool :=
  anyPoison s && (s.hw.poison.contains (place s k / 64) || channelLost s (place s k / 64))

/-- Atoms that a list of written keys covers whole. -/
def wholeAtoms (ks : List Nat) : List Nat :=
  ((ks.map (· / 64)).eraseDups).filter fun a => (List.range 64).all fun i => ks.contains (64 * a + i)

/-- Atoms that writes of some bytes make present on a channel: any that they touch while the spare takes writes, those covered whole on a lost channel (R167). -/
def newlyPresent (i : Nat) (c : Channel) (ks : List Nat) : List Nat :=
  let atoms := if c.lost then wholeAtoms ks else if c.phase == .fenced || c.phase == .copying then (ks.map (· / 64)).eraseDups else []
  atoms.filter fun a => isHbm (64 * a) && channelOf a == i && !c.present.contains a

/-- What writes do to the hardware's records: poison of atoms covered whole goes (R372), and presence bits are set (R167). -/
def noteWrites (h : Hardware) (ks : List Nat) : Hardware :=
  let h1 := if h.poison.isEmpty then h else { h with poison := h.poison.filter fun a => !(wholeAtoms ks).contains a }
  if h1.channels.isEmpty then h1
  else { h1 with channels := h1.channels.map fun (i, c) => (i, { c with present := newlyPresent i c ks ++ c.present }) }

/-- Atoms that the lanes of one instruction cover whole between them: their poison goes. -/
def noteCovered (h : Hardware) (atoms : List Nat) : Hardware :=
  if atoms.isEmpty then h
  else { h with
    poison := h.poison.filter fun a => !atoms.contains a
    channels := h.channels.map fun (i, c) =>
      (i, if c.lost then { c with present := (atoms.filter fun a => isHbm (64 * a) && channelOf a == i && !c.present.contains a) ++ c.present } else c) }

/-- Whether a core is registered in the tags of a line: by a slot, or as one of the readers of a read-shared line (R207, R208). -/
def registered (s : State) (core line : Nat) : Bool :=
  let t := mget default s.tags line
  t.slots.any (fun sl => sl.core == core) || t.shared.any fun sh => sh.epochs.any fun e => e.1 == core / 256

/-- Whether a write at the home takes a copy of one of its lines with it: every L1 copy but the writing core's, so that no load returns what the write has superseded (R207), and every remote-data cache's (R170). (DEDUCED, log entry 47) -/
def copyGoes (src : Option Nat) (atoms : List Nat) (l : CacheLine) : Bool :=
  match l.kind with
  | .l1 core => atoms.contains (l.sector / 4) && src != some core
  | .rdc _ => atoms.contains (l.sector / 4)
  | _ => false

/-- Whether a write on the host path takes a copy with it: an L1 copy that is registered (R207), and every remote-data cache's (R170). The others stay until an acquire or an `xfence` (R41, R217). -/
def hostGoes (s : State) (atoms : List Nat) (l : CacheLine) : Bool :=
  match l.kind with
  | .l1 core => atoms.contains (l.sector / 4) && registered s core (l.sector / 4)
  | .rdc _ => atoms.contains (l.sector / 4)
  | _ => false

/-- Writes performed at their homes: memory changes, copies go with them, lines become dirty in L2, and atoms covered whole lose their poison (R372). -/
def writeHome (goes : List Nat → CacheLine → Bool) (s : State) (ws : List (Nat × Byte)) : State :=
  let ws := ws.map fun (k, b) => (place s k, b)
  let lines := (ws.map fun w => w.1 / 64).eraseDups
  let atoms := lines.filter fun a => keySpace (64 * a) ≤ 1
  { s with
    mem := memPutAll s.mem ws
    lines := s.lines.filter fun l => !goes lines l
    dirty := (atoms.filter fun a => !s.dirty.contains a) ++ s.dirty
    hw := noteWrites s.hw (ws.map (·.1)) }

/-- Writes of the device and its peers. `src` is the core whose store it is, which has seen to its own L1 copy as it issued (R169). -/
def homeWrite (s : State) (src : Option Nat) (ws : List (Nat × Byte)) : State := writeHome (copyGoes src) s ws

/-- Writes on the host path to the device's own memory (R41). -/
def hostWrite (s : State) (ws : List (Nat × Byte)) : State := writeHome (hostGoes s) s ws

/-! ### Copies -/

/-- The bytes of a sector as they lie at its place. -/
def sectorBytes (s : State) (sec : Nat) : List Byte := (List.range 16).map fun i => memByte s.mem (16 * sec + i)

/-- Whether a cached sector is a cache's copy for a context: a remote-data cache serves its whole die. -/
def CacheLine.isCopy (l : CacheLine) (kind : CacheKind) (ctx sec : Nat) : Bool :=
  l.kind == kind && l.sector == sec && (l.ctx == ctx || (match kind with
    | .rdc _ => true
    | _ => false))

/-- What a path may still see of the sectors that a program is about to write on the core path, whose new bytes reach the sampler and the ray pipes only through an `xfence` (R217, R304): the bytes as they are. (DEDUCED, log entry 167) -/
def pastCopies (s : State) (ctx : Nat) (keys : List Nat) : List CacheLine :=
  let secs := ((keys.map (place s)).filter fun k => keySpace k ≤ 1).map (· / 16)
  secs.eraseDups.flatMap fun sec => [3, 4].filterMap fun path =>
    if s.lines.any (·.isCopy (.past path) ctx sec) then none else some { kind := .past path, ctx := ctx, sector := sec, bytes := sectorBytes s sec }

/-- A state before a write of the core path, with what the other paths may still see of it. -/
def keepPast (s : State) (ctx : Nat) (keys : List Nat) : State := { s with lines := s.lines ++ pastCopies s ctx keys }

/-- A sector as a path that misses in its caches finds it: at its home, or, by a free choice, as it was before writes of the core path that no `xfence` has brought to the path (R217, R304). -/
def pathSector (path ctx sec : Nat) (s : State) : State × List Byte :=
  match s.lines.find? (·.isCopy (.past path) ctx sec) with
  | some l =>
    let s1 := { s with freeIdx := s.freeIdx + 1 }
    if Config.keepCopy s.freeIdx then (s1, l.bytes) else ({ s1 with lines := s1.lines.filter fun q => !q.isCopy (.past path) ctx sec }, sectorBytes s sec)
  | none => (s, sectorBytes s sec)

/-- A number written over `n` bytes from a key. -/
def homeWriteN (s : State) (k n v : Nat) : State := homeWrite s none (byteList k v n)

/-! ### Page-table entries (R160, R161) -/

/-- The leaf an entry holds. -/
def leafOf (e : Nat) : Leaf :=
  { tier := bitsOf e 3 2, rn := bitAt e 4, node := bitsOf e 63 52, compressed := bitAt e 5, proc := bitAt e 6,
    read := bitAt e 7, write := bitAt e 8, exec := bitAt e 9, busy := bitAt e 10, pa := bitsOf e 51 12 * 4096 }

/-- A pointer that R161 calls malformed. An address beyond the device's 1 TiB names no table (log entry 50). (DEDUCED, log entry 50) -/
def pointerBad (level e : Nat) : Bool :=
  level == 0 || bitsOf e 10 2 != 0 || (bitAt e 11 && level != 1) || bitsOf e 63 52 != 0 || bitsOf e 51 40 != 0

/-- A leaf that R161 calls malformed, at a level, in a table of the given grain. -/
def leafBad (node level : Nat) (g64 : Bool) (e : Nat) : Bool :=
  let l := leafOf e
  2 ≤ level || bitAt e 11 || l.tier == 3 || (!l.rn && l.node != 0) || (l.rn && l.node == node)
    || (level == 1 && (l.tier != 0 || bitsOf e 20 12 != 0))
    || (level == 0 && !g64 && l.tier != 2)
    || (level == 0 && g64 && (l.tier != 1 || bitsOf e 15 12 != 0))
    || (l.compressed && (l.tier != 0 || l.rn))
    || (l.proc && l.tier == 2)
    || (l.tier == 0 && !l.rn && bitsOf e 51 40 != 0)

/-- How a walk ends (R162). -/
inductive WalkEnd where
  /-- a leaf, with the log2 of its page and the key of its entry -/
  | leaf (l : Leaf) (log2 key : Nat)
  | invalid
  | malformed
  | poisoned
  deriving DecidableEq, Repr

/-- The index of an address at a level (R159). -/
def vaIndex (level : Nat) (g64 : Bool) (va : Nat) : Nat := match level with
  | 4 => bitsOf va 55 48
  | 3 => bitsOf va 47 39
  | 2 => bitsOf va 38 30
  | 1 => bitsOf va 29 21
  | _ => if g64 then bitsOf va 20 16 else bitsOf va 20 12

def pageLog2 (level : Nat) (g64 : Bool) : Nat := if level = 1 then 21 else if g64 then 16 else 12

/-- One look at the entry of a level; `down` goes on through a pointer. -/
def walkEntry (s : State) (va level : Nat) (g64 : Bool) (table : Nat) (down : Bool → Nat → WalkEnd) : WalkEnd :=
  let k := hbmKey (table + 8 * vaIndex level g64 va)
  if poisonedAt s k then .poisoned
  else
    let e := homeRead s k 8
    if !bitAt e 0 then .invalid
    else if bitAt e 1 then
      if leafBad s.hw.node.toNat level g64 e then .malformed else .leaf (leafOf e) (pageLog2 level g64) k
    else if pointerBad level e then .malformed
    else down (bitAt e 11) (bitsOf e 51 12 * 4096)

/-- The walk from a level down. -/
def walkFrom (s : State) (va : Nat) : Nat → Bool → Nat → WalkEnd
  | 0, g64, table => walkEntry s va 0 g64 table fun _ _ => .malformed
  | n + 1, g64, table => walkEntry s va (n + 1) g64 table fun g t => walkFrom s va n g t

/-- The walk of a context's tree for an address below 2^56 (R159). -/
def walkTree (s : State) (ctx va : Nat) : WalkEnd :=
  match getCtx s ctx with
  | none => .invalid
  | some c => walkFrom s va 4 false (bitsOf c.xltRoot.toNat 51 12 * 4096)

/-- The keys of the entries that a walk reads, from a level down. -/
def walkKeys (s : State) (va : Nat) : Nat → Bool → Nat → List Nat
  | 0, g64, table => [hbmKey (table + 8 * vaIndex 0 g64 va)]
  | n + 1, g64, table =>
    let k := hbmKey (table + 8 * vaIndex (n + 1) g64 va)
    let e := homeRead s k 8
    k :: if bitAt e 0 && !bitAt e 1 && !pointerBad (n + 1) e then walkKeys s va n (bitAt e 11) (bitsOf e 51 12 * 4096) else []

/-- Whether a walk of a context's tree meets a read that waits at its channel (R167). -/
def walkWaits (s : State) (ctx va : Nat) : Bool :=
  !s.hw.channels.isEmpty && (getCtx s ctx).any fun c =>
    readWaits s ((walkKeys s va 4 false (bitsOf c.xltRoot.toNat 51 12 * 4096)).map fun k => (k, 8))

/-! ### Cached translations (R162) -/

def TlbEntry.covers (e : TlbEntry) (va : Nat) : Bool := e.va ≤ va && va < e.va + 2 ^ e.log2

/-- The memory key of an address that an entry maps. -/
def TlbEntry.key (e : TlbEntry) (va : Nat) : Nat :=
  let pa := e.leaf.pa + (va - e.va)
  if e.leaf.rn then peerKey e.leaf.node (e.leaf.tier != 0) pa
  else if e.leaf.tier = 0 then hbmKey pa else hostKey pa

/-- The translation a core holds of an address: its TLB's, else its die's cache's. -/
def heldLeaf (s : State) (ctx die core va : Nat) : Option TlbEntry :=
  match s.tlb.find? fun e => e.ctx == ctx && e.core == some core && e.covers va with
  | some e => some e
  | none => s.tlb.find? fun e => e.ctx == ctx && e.die == die && e.core.isNone && e.covers va

/-- Entries kept per TLB and per die's cache (R162): beyond them the oldest goes. (DESIGN CHOICE, log entry 49) -/
def trimTlb (n : Nat) (p : TlbEntry → Bool) (es : List TlbEntry) : List TlbEntry :=
  if (es.filter p).length ≤ n then es
  else match (es.filter p).getLast? with
    | some old => es.erase old
    | none => es

/-- A leaf brought into a core's TLB and its die's cache. -/
def fillTlb (s : State) (ctx die core va : Nat) (l : Leaf) (log2 : Nat) : State :=
  let base := va / 2 ^ log2 * 2 ^ log2
  let e : TlbEntry := { ctx := ctx, die := die, core := some core, va := base, log2 := log2, leaf := l }
  let es := s.tlb.filter fun x => !(x.ctx == ctx && x.va == base && x.log2 == log2 && (x.core == some core || (x.core.isNone && x.die == die)))
  let die' := trimTlb 16384 (fun x => x.core.isNone && x.die == die) (e :: { e with core := none } :: es)
  { s with tlb := trimTlb 1024 (fun x => x.core == some core) die' }

/-- What a requester other than a core's lanes finds: the die's cached leaf, or the end of a walk made for it. -/
def walkNow (s : State) (ctx die va : Nat) : WalkEnd :=
  match s.tlb.find? fun e => e.ctx == ctx && e.die == die && e.core.isNone && e.covers va with
  | some e => .leaf e.leaf e.log2 0
  | none => walkTree s ctx va

/-- Whether an address lies in an egress window, as it must for host and CXL memory (R376). (DEDUCED, log entry 59) -/
def egressOk (s : State) (pa : Nat) : Bool := s.hw.egress.any fun w => w.2.base ≤ pa && pa < w.2.limit

/-- Whether a die's cache lacks a translation and the walk for it would wait at a channel. -/
def walkHeld (s : State) (ctx die va : Nat) : Bool :=
  !s.hw.channels.isEmpty && !(s.tlb.any fun e => e.ctx == ctx && e.die == die && e.core.isNone && e.covers va) && walkWaits s ctx va

/-- Whether the device may make an access that a leaf maps to host or CXL memory of its own host. -/
def leafEgressOk (s : State) (l : Leaf) (off : Nat) : Bool := l.rn || l.tier == 0 || egressOk s (l.pa + off)

/-- The walk that a miss of an address joins: one to the same page from the same die. -/
def sameWalk (s : State) (ctx die va : Nat) (w : Walk) : Bool :=
  let log2 := match walkTree s ctx va with
    | .leaf _ n _ => n
    | _ => 12
  w.ctx == ctx && w.die == die && w.va / 2 ^ log2 == va / 2 ^ log2

/-- Whether a walk has a walker of its die: the first 64 that are neither waiting for a fault reply nor for a busy entry to be rewritten (R162). -/
def hasWalker (s : State) (w : Walk) : Bool :=
  ((s.walks.filter fun x => x.die == w.die && !x.faulted && !x.busy).take 64).any (·.id == w.id)

/-- Starts or joins a walk (R162). -/
def startWalk (s : State) (ctx die core va : Nat) (quiet : Bool) : State × Nat :=
  match s.walks.find? (sameWalk s ctx die va) with
  | some w => (s, w.id)
  | none => ({ s with walks := s.walks ++ [{ id := s.nextId, ctx := ctx, die := die, core := core, va := va, quiet := quiet }],
                      nextId := s.nextId + 1 }, s.nextId)

/-- Parks a thread on the walk of an address (R162). -/
def parkWalk (s : State) (c : Crew) (tid va : Nat) : State :=
  let (s1, id) := startWalk s c.ctx c.die c.coreId va false
  parkT s1 c.uid [tid] (.walk id va)

end Sys2Proof.Machine
end

