-- ==== Sys2Proof/Machine/Records.lean ====
section
/-! DEFINITION. Generic addresses and base-and-extent records: the steering of an address to a scratchpad, a stack or global memory (R155–R158), the reading and checking of records with their extents and scale planes (R172, R173, R85), and the watched regions of tile nodes (R249, R250). -/

namespace Sys2Proof.Machine

/-! ### Steering (R156–R158) -/

/-- What a generic address reaches. -/
inductive Target where
  /-- a byte of a scratchpad or of bin scratch, with the core whose slice holds it -/
  | bank (key : Nat) (slice : Option Nat)
  /-- global virtual addresses with their lengths; more than one for a wide stack access -/
  | glob (vas : List (Nat × Nat)) (stack : Bool)
  | bounds (reason : Nat)
  | noncanon
  deriving DecidableEq, Repr

/-- Offset of an address in an aperture window, if it lies in the enabled window (R155). -/
def aperOffset (v : Word64) (ea : Nat) : Option Nat :=
  let base := bitsOf v.toNat 63 32 * 2 ^ 32
  if bitAt v.toNat 0 && base ≤ ea && ea < base + bitsOf v.toNat 31 24 * 2 ^ 32 then some (ea - base) else none

/-- Bin scratch of a crew's core (R157, R168). -/
def binTarget (s : State) (c : Crew) (o w : Nat) : Target :=
  if o + w ≤ (coreOf s c.coreId).mb * 2 ^ 20 then .bank (binKey c.coreId o) (some c.coreId) else .bounds 6

/-- The APER_SCR window (R157). -/
def scrTarget (s : State) (c : Crew) (o w : Nat) : Target :=
  if o < 0x80000000 then (if o + w ≤ c.scratch then .bank (scrKey c.uid o) none else .bounds 6)
  else binTarget s c (o - 0x80000000) w

/-- The crew of a crew's span with a given %crew that is resident, or that pre-emption is moving to another core (R29, R157, R294). -/
def spanCrew (s : State) (c : Crew) (num : Nat) : Option Crew :=
  if c.run.isNone then none
  else s.crews.find? fun d => d.run == c.run && d.span == c.span && d.num.toNat == num && (d.where_ == .resident || d.taking.isSome) && !d.isHandler

/-- The crew, other than the accessing one, that is being moved and whose scratchpad holds a byte: accesses to it wait (R29, R294). -/
def movingCrew (s : State) (c : Crew) (k : Nat) : Option Nat :=
  (s.crews.find? fun d => d.uid + 16384 == keySpace k && d.uid != c.uid && d.taking.isSome).map (·.uid)

/-- The APER_SPAN window (R157). -/
def spanTarget (s : State) (c : Crew) (o w : Nat) : Target :=
  match spanCrew s c (o / 0x40000) with
  | some d => if o % 0x40000 + w ≤ d.scratch then .bank (scrKey d.uid (o % 0x40000)) none else .bounds 6
  | none => .bounds 6

/-- Stack size and backing base of a crew (R158). -/
def stackOf (s : State) (c : Crew) : Nat × Nat := match c.run.bind (getRun s) with
  | some r => (r.launch.stackSize, r.launch.stackBase)
  | none => (0, 0)

/-- Global address of a stack byte (R158). -/
def stackVa (base size num tid o : Nat) : Nat := base + num * size * 1024 + (o / 4 * 1024 + tid) * 4 + o % 4

/-- The APER_STK window: accesses wider than 32 bits are split into words (R158). -/
def stackTarget (s : State) (c : Crew) (tid o w : Nat) : Target :=
  let (size, base) := stackOf s c
  if c.isGen || c.isHandler || size < o + w then .bounds 6
  else
    let va := stackVa base size c.num.toNat tid
    let vas := if w ≤ 4 then [(va o, w)] else (List.range (w / 4)).map fun i => (va (o + 4 * i), 4)
    if vas.all fun v => v.1 < 2 ^ 56 then .glob vas true else .noncanon

/-- Steers a generic address (R156). -/
def steer (s : State) (c : Crew) (tid : Nat) (ea : Word64) (w : Nat) : Target :=
  match getCtx s c.ctx with
  | none => .noncanon
  | some x =>
    match aperOffset x.aperScr ea.toNat, aperOffset x.aperSpan ea.toNat, aperOffset x.aperStk ea.toNat with
    | some o, _, _ => scrTarget s c o w
    | none, some o, _ => spanTarget s c o w
    | none, none, some o => stackTarget s c tid o w
    | none, none, none => if ea.toNat < 2 ^ 56 then .glob [(ea.toNat, w)] false else .noncanon

/-- Whether an address lies in an enabled aperture window. -/
def inAperture (s : State) (ctx : Nat) (ea : Nat) : Bool := match getCtx s ctx with
  | none => false
  | some x => (aperOffset x.aperScr ea).isSome || (aperOffset x.aperSpan ea).isSome || (aperOffset x.aperStk ea).isSome

/-! ### Records (R172, R173) -/

/-- A record read from its 16 bytes. -/
def recOf (v : Nat) : Rec :=
  let fmt := bitsOf v 119 112
  { base := bitsOf v 55 0, hint := bitsOf v 58 56, cols := bitsOf v 79 64, rows := bitsOf v 95 80, pitch := bitsOf v 111 96,
    fmt := fmt, scale := bitAt v 120, ro := bitAt v 121, watch := bitAt v 122,
    reserved := bitsOf v 63 59 != 0 || 4 ≤ bitsOf v 58 56 || 7 ≤ fmt || bitsOf v 127 123 != 0 || (bitAt v 120 && fmt < 3) }

/-- Half-bytes in one element of a format (R172). -/
def fmtHalves (fmt : Nat) : Nat := match fmt with
  | 0 => 8
  | 1 | 2 => 4
  | 5 => 1
  | _ => 2

/-- Offset, from the region's start, of element index `i`. -/
def Rec.elemOff (r : Rec) (i : Nat) : Nat := r.base + i * fmtHalves r.fmt / 2

/-- End of the data (R173). -/
def Rec.dataEnd (r : Rec) : Nat := r.base + (((r.rows - 1) * r.pitch + r.cols) * fmtHalves r.fmt + 1) / 2

/-- First byte of the scale plane (R85). -/
def Rec.plane (r : Rec) : Nat := (r.base + (r.rows * r.pitch * fmtHalves r.fmt + 1) / 2 + 63) / 64 * 64

/-- Bytes of the scale plane (R173). -/
def Rec.planeLen (r : Rec) : Nat :=
  if r.fmt = 5 then 2 * r.rows * r.pitch / 16 else 4 * r.rows * ((r.pitch + 127) / 128)

/-- End of the extent. -/
def Rec.extentEnd (r : Rec) : Nat := if r.scale then r.plane + r.planeLen else r.dataEnd

/-- What an offset of a record's region reaches. -/
def Rec.target (s : State) (c : Crew) (r : Rec) (o w : Nat) : Target := match r.hint with
  | 0 => if o + w ≤ 2 ^ 56 then .glob [(o, w)] false else .noncanon
  | 1 => if o + w ≤ c.scratch then .bank (scrKey c.uid o) none else .bounds 6
  | 2 => binTarget s c o w
  | _ => spanTarget s c o w

/-- The generic address of an offset of a record's region. -/
def Rec.address (s : State) (c : Crew) (r : Rec) (o : Nat) : Word64 :=
  match getCtx s c.ctx with
  | none => 0
  | some x =>
    let win := fun v : Word64 => bitsOf v.toNat 63 32 * 2 ^ 32
    match r.hint with
    | 0 => BitVec.ofNat 64 o
    | 1 => BitVec.ofNat 64 (win x.aperScr + o)
    | 2 => BitVec.ofNat 64 (win x.aperScr + 0x80000000 + o)
    | _ => BitVec.ofNat 64 (win x.aperSpan + o)

/-- Whether the extent lies inside the region that HINT names (reason 5). -/
def Rec.inRegion (s : State) (c : Crew) (r : Rec) : Bool := match r.hint with
  | 0 => true
  | 1 => r.extentEnd ≤ c.scratch
  | 2 => r.extentEnd ≤ (coreOf s c.coreId).mb * 2 ^ 20
  | _ => match spanCrew s c (r.base / 0x40000) with
    | some d => r.base % 0x40000 + (r.extentEnd - r.base) ≤ d.scratch
    | none => false

/-- The first failing check of reasons 1 to 5 (R173). -/
def recCheck (s : State) (c : Crew) (r : Rec) : Option Nat :=
  if r.reserved then some 1
  else if r.cols = 0 || r.rows = 0 || r.pitch < r.cols || (r.fmt == 5 && r.pitch % 16 != 0) then some 2
  else if r.fmt != 5 && r.base % (fmtHalves r.fmt / 2) != 0 then some 3
  else if r.hint == 0 && 2 ^ 56 < r.extentEnd then some 4
  else if !r.inRegion s c then some 5
  else none

/-! ### Watched regions (R249, R250) -/

/-- A run of bytes: global addresses of a context, or keys of banks, with the address that names its first byte. -/
structure Span where
  glob : Bool
  lo : Nat
  len : Nat
  ea : Nat
  deriving DecidableEq, Repr

/-- The bytes that a part of a record's region holds. -/
def Rec.span (s : State) (c : Crew) (r : Rec) (lo hi : Nat) : Span := match r.target s c lo 0 with
  | .bank k _ => { glob := false, lo := k, len := hi - lo, ea := (r.address s c lo).toNat }
  | _ => { glob := true, lo := lo, len := hi - lo, ea := lo }

def Rec.extent (s : State) (c : Crew) (r : Rec) : Span := r.span s c r.base r.extentEnd

/-- Regions that a node watches (R249). -/
def Node.watched (s : State) (n : Node) : List Span :=
  match getCrew s n.crew with
  | none => []
  | some c =>
    let src := match n.kind with
      | .src | .stage => n.rec_.toList ++ n.stage.toList
      | .wait => if n.watching then n.rec_.toList else []
      | _ => []
    (src ++ n.bound).map (·.extent s c)

/-- The lowest byte of two runs in common. -/
def Span.meet (x y : Span) : Option Nat :=
  let lo := max x.lo y.lo
  if x.glob == y.glob && lo < min (x.lo + x.len) (y.lo + y.len) then some lo else none

/-- Nodes of a context that are watched now. -/
def watchers (s : State) (ctx : Nat) : List Node :=
  s.nodes.filter fun n => n.watching && (getCrew s n.crew).any (·.ctx == ctx)

/-- The lowest watched byte of some runs, by the address that the write names it by, with the node that watches it. -/
def watchHit (s : State) (ctx : Nat) (xs : List Span) : Option (Nat × Node) :=
  let hits := (watchers s ctx).flatMap fun n => (n.watched s).flatMap fun w => xs.filterMap fun x => (w.meet x).map fun b => (x.ea + (b - x.lo), n)
  hits.foldl (fun best h => match best with
    | none => some h
    | some b => if h.1 < b.1 then some h else some b) none

/-- A node's number (R233). -/
def Node.number (n : Node) : Nat := n.slot + 64 * n.seq

/-- A TILEALIAS: the lowest byte, its node, the kind of write and the lanes that met a watch (R250). (DEDUCED, log entry 57) -/
def tileAlias (uid kind addr lanes : Nat) (n : Node) : TrapInfo :=
  let own := n.crew == uid
  { code := tcTILEALIAS, tids := [], addr := BitVec.ofNat 64 addr,
    detail := [{ off := 0, len := 8, val := addr }, { off := 8, len := 4, val := if own then n.number else 0xFFFFFFFF },
      { off := 12, len := 1, val := kind }, { off := 16, len := 8, val := if own then n.origin.toNat else 0 },
      { off := 24, len := 8, val := lanes }] }

end Sys2Proof.Machine
end

