-- ==== Sys2Proof/Machine/Sync.lean ====
section
/-! DEFINITION. Stores in flight and their order; release and acquire as the core makes them at each scope (R171, R175, R212, R214, R215); the drop of cached lines that hold no registration. -/

namespace Sys2Proof.Machine

/-! ### Slices under repartition (R168) -/

/-- Whether a transfer of Flume or a tile sequencer that a repartition finds in flight is still in flight (R168 step 1). -/
def binTransfers (s : State) (core mark : Nat) : Bool :=
  let inBin := fun (u tid : Nat) (ea : Word64) => (getCrew s u).any fun c => match steer s c tid ea 1 with
    | .bank _ (some k) => k == core
    | _ => false
  (s.flume.any fun r => r.id < mark && (inBin r.crew r.tid r.dst || inBin r.crew r.tid r.src || (r.gather && inBin r.crew r.tid r.list)))
    || s.tileReqs.any fun r => r.id < mark && r.core == core && r.phase == .running

/-- The slices, as %core, that new accesses wait for: a change is under way there, and the transfers that it found in flight are complete (R168 steps 1 and 2). -/
def shutSlices (s : State) : List Nat := s.cores.filterMap fun k => match k.2.change with
  | [] => none
  | ch :: _ => if binTransfers s k.1 ch.mark then none else some k.1

/-- The slice that accesses to runs of bytes wait for: the home of one of their lines (R168). -/
def sliceWait (s : State) (runs : List (Nat × Nat)) : Option Nat :=
  let shut := shutSlices s
  if shut.isEmpty then none
  else runs.findSome? fun r => (List.range ((r.1 % 64 + r.2 + 63) / 64)).findSome? fun i =>
    let line := place s (r.1 / 64 * 64 + 64 * i) / 64
    if keySpace (64 * line) ≤ 1 && shut.contains (sliceOf line) then some (sliceOf line) else none

/-- Whether a walk of a context's tree meets an entry whose home slice new accesses wait for. -/
def walkShut (s : State) (ctx va : Nat) : Bool :=
  !(shutSlices s).isEmpty && (getCtx s ctx).any fun c =>
    (sliceWait s ((walkKeys s va 4 false (bitsOf c.xltRoot.toNat 51 12 * 4096)).map fun k => (k, 8))).isSome

/-- Whether a store on its way waits for the home slice of its line (R168). -/
def PendingStore.shut (s : State) (p : PendingStore) : Bool := (sliceWait s (p.bytes.map fun w => (w.1, 1))).isSome

/-! ### Stores in flight (R171, R175, R212) -/

/-- Whether two runs of written bytes share a 4-byte granule. -/
def shareGranule (x y : List (Nat × Byte)) : Bool := x.any fun a => y.any fun b => a.1 / 4 == b.1 / 4

/-- A core's L1 copies of the bytes of a store take them, so that its copy of a line is never older than its own stores (R169). -/
def updateL1 (s : State) (core : Nat) (ws : List (Nat × Byte)) : State :=
  let put := fun l : CacheLine => { l with bytes := (List.range 16).map fun i => match (ws.find? fun w => place s w.1 == 16 * l.sector + i) with
    | some w => w.2
    | none => l.bytes.getD i 0 }
  { s with lines := s.lines.map fun l => if l.kind = .l1 core ∧ ws.any (fun w => place s w.1 / 16 == l.sector) then put l else l }

/-- A store performed at its home; its acknowledgement is still to come. A `.b128` store and a wide store to a stack are performed as one. (DESIGN CHOICE, log entry 140) -/
def performStore (s : State) (p : PendingStore) : State :=
  let s0 := match getCrew s p.crew with
    | some c => keepPast s c.ctx (p.bytes.map (·.1))
    | none => s
  let s1 := updateL1 (homeWrite s0 (some p.core) p.bytes) p.core p.bytes
  { s1 with
    stores := s1.stores.map fun q => if q.id = p.id then { q with performed := true } else q
    hw := noteCovered s1.hw p.clears }

/-- Whether a store on its way stands before the accesses of a thread: its own, and those of its crew that a crew-scope release has passed (R212, R215). -/
def PendingStore.before (p : PendingStore) (uid tid : Nat) : Bool := p.crew == uid && (p.tid == tid || p.rel) && !p.performed

/-- Whether a store cannot be performed yet: an earlier store of the thread or of the instruction to a common granule must come first, or its home slice is under repartition (R168). (DEDUCED, log entry 61) -/
def storeBlocked (s : State) (p : PendingStore) : Bool :=
  p.shut s || s.stores.any fun q => q.id < p.id && !q.performed && (q.before p.crew p.tid || q.batch == p.batch) && shareGranule q.bytes p.bytes

/-- The stores of a list that stand before accesses to some bytes: those to their granules, and earlier ones to the granules of these. -/
def standBefore (sel : PendingStore → Bool) (ks : List (Nat × Byte)) : List PendingStore → List PendingStore × List (Nat × Byte)
  | [] => ([], ks)
  | q :: qs =>
    let (ps, ks') := standBefore sel ks qs
    if sel q && shareGranule q.bytes ks' then (q :: ps, q.bytes ++ ks') else (ps, ks')

/-- The queued stores that stand before a thread's access to some bytes are performed, in order (R171, R219). -/
def drainStores (s : State) (uid tid : Nat) (ks : List (Nat × Byte)) : State :=
  (standBefore (·.before uid tid) ks s.stores).1.foldl performStore s

/-! ### Release (R215) -/

/-- Whether a store is to memory that another party holds: host, CXL or a peer. -/
def PendingStore.abroad (p : PendingStore) : Bool := p.bytes.any fun w => 1 ≤ keySpace w.1 && keySpace w.1 < 8194

/-- The core that holds a bank, or the home slice of an HBM line. -/
def keyCore (s : State) (k : Nat) : Option Nat :=
  if keySpace k = 0 then some (sliceOf (place s k / 64))
  else if 16384 ≤ keySpace k then (getCrew s (keySpace k - 16384)).map (·.coreId)
  else if 8194 ≤ keySpace k then some (keySpace k - 8194)
  else none

/-- Whether a store holds up a release of its thread at a scope: at crew scope until the core's own homes and banks have accepted it, at span and device scope until it is acknowledged, which for host, CXL and peer memory is when the device accepts it, and at system scope until it is acknowledged (R214, R215); none is accepted by a slice under repartition (R168). -/
def PendingStore.holds (s : State) (scope : Nat) (p : PendingStore) : Bool := match scope with
  | 0 => !p.performed && p.bytes.any fun w => keyCore s w.1 == some p.core
  | 3 => true
  | _ => !p.abroad || (!p.performed && p.shut s)

/-- Whether a release of a thread at a scope has something to wait for: a store, or, wider than its crew, a push that is not served (R215, R220). -/
def owesStores (s : State) (scope uid tid : Nat) : Bool :=
  (s.stores.any fun p => p.crew == uid && p.tid == tid && p.holds s scope)
    || (scope != 0 && s.rings.any fun r => r.crew == uid && r.tid == tid && r.op.isPush)

/-- What a release of threads leaves behind it: at crew scope their stores stand before the crew's later accesses; at a wider scope what the device has yet to accept of them, and what crew-scope releases have passed, is performed. -/
def passStores (s : State) (scope uid : Nat) (tids : List Nat) : State :=
  if scope = 0 then { s with stores := s.stores.map fun p => if p.crew == uid && tids.contains p.tid then { p with rel := true } else p }
  else (s.stores.filter fun p => p.crew == uid && (tids.contains p.tid || p.rel) && !p.performed && p.wait == .free).foldl performStore s

/-- A release by threads of a gang at a scope: while one of them has something to wait for, the gang as formed waits at the word (R68), and nothing of it takes effect yet; then the instruction goes on. (DEDUCED, log entry 46) -/
def releaseGate (scope : Nat) (s : State) (uid : Nat) (gang who : List Nat) (k : State → Out) : Out :=
  let late := who.filter (owesStores s scope uid)
  if late.isEmpty then k (passStores s scope uid who)
  else .next { holdGang s uid gang late (.release scope late) with issue := none }

/-- A release by the active threads. -/
def withRelease (scope : Nat) (e : Env) (k : Env → Out) : Out :=
  releaseGate scope e.s e.is.crew e.is.tids (e.act.map (·.tid)) fun s => k { e with s := s }

/-! ### Acquire (R207, R215) -/

/-- An acquire on a core: at span scope or wider, every L1 line without registration is dropped (R207). -/
def acquireOn (s : State) (core scope : Nat) : State :=
  if scope = 0 then s
  else { s with lines := s.lines.filter fun l => !(l.kind == .l1 core && !registered s core (l.sector / 4)) }

/-- An acquire by a crew's thread at a scope (R215). -/
def acquire (s : State) (uid scope : Nat) : State :=
  match getCrew s uid with
  | some c => acquireOn s c.coreId scope
  | none => s

/-- Whether an address lies in memory that another device holds, or in host or CXL memory: what is synchronised there is synchronised at system scope (R189, R203, R288). -/
def farAt (s : State) (ctx va : Nat) : Bool := match walkTree s ctx va with
  | .leaf l .. => l.rn || l.tier != 0
  | _ => false

/-- Every active thread ends its region (R203). -/
def syncActive (s : State) (uid : Nat) (tids : List Nat) : State :=
  updCrew s uid (·.mapT fun t => if tids.contains t.tid then { t with region := t.region + 1 } else t)

end Sys2Proof.Machine
end

