-- ==== Sys2Proof/Machine/Control.lean ====
section
/-! DEFINITION. The meanings of the control-flow and thread instructions (R117–R128): branches, calls, barriers, votes, `regang`, meets and the lane exchange. -/

namespace Sys2Proof.Machine

/-! ### Control transfers -/

/-- `nop` (R118): moves on, whatever the guard. -/
def execNop (a : Args) (s : State) : Out := gangDo a.guard s fun e => .next (retire e.is e.s)

/-- A transfer of the active threads to their targets; the others move on by one word. -/
def transfer (e : Env) (f : Crew → Crew) (target : Thread → Word64) : State :=
  { updCrew e.s e.is.crew (fun c =>
      moveTo e.is.tids (fun tid => match e.act.find? (·.tid == tid) with
        | some t => target t
        | none => e.is.pc + 8) (f c)) with issue := none }

/-- `br` (R119). -/
def execBr (a : Args) (s : State) : Out :=
  gangDo a.guard s fun e => .next (transfer e id fun _ => brTarget e.is.pc a)

/-- `brd` (R119): the same effect, at another cost. -/
def execBrd (a : Args) (s : State) : Out :=
  gangDo a.guard s fun e => .next (transfer e id fun _ => brTarget e.is.pc a)

/-- Indirect targets of the active threads; ALIGN for the gang if any is misaligned (R117). -/
def withTargets (a : Args) (e : Env) (k : (Thread → Word64) → Out) : Out :=
  let target := fun t : Thread => BitVec.ofNat 64 (rd e.c t a.a 2)
  match e.act.filter fun t => (target t).toNat % 8 != 0 with
  | [] => k target
  | bad =>
    trapGang e { trapOf e.c tcALIGN 0 (e.act.map (·.tid)) [laneField e.c (bad.map (·.tid))] with
      addr := ((bad.head?.map target).getD 0) }

/-- `bri` (R120). -/
def execBri (a : Args) (s : State) : Out :=
  gangDo a.guard s fun e => withTargets a e fun target => .next (transfer e id target)

/-- The link registers of the active threads written (R121). -/
def linkActive (e : Env) (c : Crew) : Crew :=
  c.mapT fun t => if (e.act.map (·.tid)).contains t.tid then { t with link := e.is.pc + 8 } else t

/-- `call` (R121). -/
def execCall (a : Args) (s : State) : Out :=
  gangDo a.guard s fun e => .next (transfer e (linkActive e) fun _ => brTarget e.is.pc a)

/-- Keys of the callee queues in use (R111). -/
def queueKeys (c : Crew) : List Word64 := (c.threads.filterMap (·.queue)).eraseDups

/-- A thread joins the callee queue keyed by its target, or a free queue; with all sixteen in use it stays unbound (R111). -/
def joinQueue (c : Crew) (tid : Nat) (x : Word64) : Crew :=
  let ks := queueKeys c
  if ks.contains x || ks.length < 16 then c.upd tid fun t => { t with queue := some x } else c

/-- `calli` (R121): one common target acts as `call`; otherwise the threads enter callee queues. -/
def execCalli (a : Args) (s : State) : Out :=
  gangDo a.guard s fun e => withTargets a e fun target =>
    let s1 := transfer e (linkActive e) target
    if (e.act.map target).eraseDups.length ≤ 1 then .next s1
    else .next (updCrew s1 e.is.crew fun c => e.act.foldl (fun c t => joinQueue c t.tid (target t)) c)

/-- `ret` (R122). -/
def execRet (a : Args) (s : State) : Out :=
  gangDo a.guard s fun e => withTargets a e fun target => .next (transfer e id target)

/-! ### Barriers (R115, R124) -/

def barrierOf (c : Crew) (b : Nat) : Barrier := mget default c.barriers b

def setBarrier (c : Crew) (b : Nat) (x : Barrier) : Crew := { c with barriers := mput default c.barriers b x }

/-- Whether the current phase of a barrier is complete (R115). -/
def barrierDone (c : Crew) (x : Barrier) : Bool :=
  match x.mode with
  | none => false
  | some 0 => (c.threads.filter fun t => x.arrived.contains t.tid || !t.live).length == c.threads.length
  | some n => x.arrived.length == n

/-- Whether a thread waits at barrier `b` for phase `ph`. -/
def waitsAt (b ph : Nat) (t : Thread) : Bool := t.hold == .bar b ph

/-- Binds released threads of one home gang that stand at one PC (R115). -/
def bindReleased (c : Crew) (tids : List Nat) : Crew :=
  let keys := ((c.threads.filter fun t => tids.contains t.tid).map fun t => (c.hgang t.tid, t.pc)).eraseDups
  keys.foldl (fun c k => bindGang c ((c.threads.filter fun t =>
    tids.contains t.tid && c.hgang t.tid == k.1 && t.pc == k.2).map (·.tid))) c

/-- Completes a barrier's phase if its condition holds: the phase advances and its waiting threads go on (R115). -/
def completeBarrier (b : Nat) (c : Crew) : Crew :=
  let x := barrierOf c b
  if barrierDone c x then
    let ids := (c.threads.filter (waitsAt b x.phase)).map (·.tid)
    let c1 := setBarrier c b { phase := x.phase + 1 }
    let c2 := c1.mapT fun t => if ids.contains t.tid then
      { t with hold := .none, pc := t.pc + 8, arrivals := mput 0 t.arrivals b 0, region := t.region + 1 } else t
    settleMeets ids (bindReleased c2 ids)
  else c

/-- A thread arrives at a barrier (R115): a synchronisation point (R203), also when its arrival is not counted again. -/
def arriveAt (b count tid : Nat) (c : Crew) : Crew :=
  let x := barrierOf c b
  match c.thread tid with
  | none => c
  | some t =>
    if mget 0 t.arrivals b = x.phase + 1 then c.upd tid fun t => { t with region := t.region + 1 }
    else
      let c1 := setBarrier c b { x with arrived := x.arrived ++ [tid], mode := some (x.mode.getD count) }
      completeBarrier b (c1.upd tid fun t => { t with arrivals := mput 0 t.arrivals b (x.phase + 1), region := t.region + 1 })

/-- A thread arrives and waits: it stands at the word until the phase completes. -/
def arriveWait (b count tid : Nat) (c : Crew) : Crew :=
  arriveAt b count tid (c.upd tid fun t => { t with hold := .bar b (barrierOf c b).phase })

/-- Barrier index and count of the immediate (R124). -/
def barIndex (a : Args) : Nat := bitsOf (Args.immN a) 3 0
def barCount (a : Args) : Nat := bitsOf (Args.immN a) 14 4

/-- The threads of the gang whose guards are false move on; the binding ends when others wait. -/
def inactiveMoveOn (e : Env) (c : Crew) : Crew :=
  moveTo (e.is.tids.filter fun i => !(e.act.map (·.tid)).contains i) (fun _ => e.is.pc + 8) c

/-- `bar.sync` (R124). (DEDUCED, log entry 42) -/
def execBarSync (a : Args) (s : State) : Out :=
  gangDo a.guard s fun e =>
    if e.act.isEmpty then .next (retire e.is e.s)
    else withRelease 0 e fun e => .next { updCrew e.s e.is.crew (fun c =>
      inactiveMoveOn e (e.act.foldl (fun c t => arriveWait (barIndex a) (barCount a) t.tid c) (endBindings c e.is.tids)))
      with issue := none }

/-- `bar.arrive` (R124). -/
def execBarArrive (a : Args) (s : State) : Out :=
  gangDo a.guard s fun e => withRelease 0 e fun e =>
    .next (retire e.is (updCrew e.s e.is.crew fun c =>
      e.act.foldl (fun c t => arriveAt (barIndex a) (barCount a) t.tid c) c))

/-- Whether a thread's arrival is pending for the current phase of a barrier. -/
def arrivalPending (c : Crew) (b : Nat) (t : Thread) : Bool := mget 0 t.arrivals b == (barrierOf c b).phase + 1

/-- `bar.wait` (R124): a thread with no arrival pending for the current phase proceeds at once. -/
def execBarWait (a : Args) (s : State) : Out :=
  gangDo a.guard s fun e =>
    let b := barIndex a
    let wait := (e.act.filter (arrivalPending e.c b)).map (·.tid)
    let go := (e.act.filter fun t => !arrivalPending e.c b t).map (·.tid)
    let s1 := updCrew e.s e.is.crew fun c => (if wait.isEmpty then c else endBindings c e.is.tids).mapT fun t =>
      if wait.contains t.tid then { t with hold := .bar b (barrierOf e.c b).phase }
      else if go.contains t.tid then { t with arrivals := mput 0 t.arrivals b 0, region := t.region + 1 } else t
    .next (retireSome e.is (e.is.tids.filter fun i => !wait.contains i) s1)

/-! ### Votes, gangs, meets and lanes -/

/-- `vote` (R125). -/
def execVote (a : Args) (s : State) : Out :=
  gangDo a.guard s fun e =>
    let ps := e.act.map fun t => rp t (numOf a.a)
    let ballot := e.act.foldl (fun m t => if rp t (numOf a.a) then m ||| 2 ^ e.c.lane t.tid else m) 0
    let vals := (e.act.map fun t => rd e.c t a.a 1).eraseDups
    let w : Wr := match a.m.toNat with
      | 0 => .pred a.d (ps.any id)
      | 1 => .pred a.d (ps.all id)
      | 2 => .reg a.d 2 ballot
      | _ => .pred a.d (vals.length ≤ 1)
    .next (retire e.is (updCrew e.s e.is.crew fun c => applyWrs c (e.act.map fun t => (t.tid, w))))

/-- Releases each home gang whose live threads all wait at one `regang` (R126). -/
def releaseRegangs (c : Crew) : Crew :=
  (List.range c.hgangs).foldl (fun c g =>
    let mem := c.threads.filter fun t => t.live && c.hgang t.tid == g
    if !mem.isEmpty && mem.all (fun t => t.hold == .regang) && (mem.map (·.pc)).eraseDups.length == 1 then
      let ids := mem.map (·.tid)
      let c1 := c.mapT fun t => if ids.contains t.tid then { t with hold := .none, pc := t.pc + 8 } else t
      settleMeets ids { bindGang c1 ids with regangStall := mput 0 c.regangStall g 0 }
    else c) c

/-- `regang` (R126). -/
def execRegang (a : Args) (s : State) : Out :=
  gangDo a.guard s fun e => .next { updCrew e.s e.is.crew (fun c =>
    releaseRegangs ((endBindings c e.is.tids).mapT fun t =>
      if e.is.tids.contains t.tid then { t with hold := .regang } else t)) with issue := none }

/-- The meet register of the active threads set and their pass bits cleared (R127). -/
def setMeet (e : Env) (f : Thread → Word64) : State :=
  updCrew e.s e.is.crew (·.mapT fun t =>
    if (e.act.map (·.tid)).contains t.tid then { t with meet := f t, pass := false } else t)

/-- `meet.x` (R127). -/
def execMeetX (a : Args) (s : State) : Out :=
  gangDo a.guard s fun e => .next (retire e.is (setMeet e fun _ => brTarget e.is.pc a))

/-- `meet.set` (R127). -/
def execMeetSet (a : Args) (s : State) : Out :=
  gangDo a.guard s fun e => .next (retire e.is (setMeet e fun t => BitVec.ofNat 64 (rd e.c t a.a 2)))

/-- The lane a thread reads from, if the sub-op gives one (R128). -/
def shflSource (sub gw h b : Nat) : Option Nat :=
  match sub with
  | 0 => some (b % gw)
  | 1 => if b ≤ h then some (h - b) else none
  | 2 => if h + b < gw then some (h + b) else none
  | _ => if h ^^^ b < gw then some (h ^^^ b) else none

/-- `shfl` (R128). -/
def execShfl (a : Args) (s : State) : Out :=
  let k := intMods a.m.toNat
  gangDo a.guard s fun e =>
    let ws := e.act.flatMap fun t =>
      let b := match a.imm with
        | some v => v.toNat
        | none => rd e.c t a.b 1
      let src := (shflSource k.sub e.c.gw (e.c.lane t.tid) b).bind fun l => e.act.find? fun u => e.c.lane u.tid == l
      let val := rd e.c (src.getD t) a.a k.regs
      let pw : List (Nat × Wr) := if a.imm.isSome then [] else [(t.tid, .pred a.c src.isSome)]
      (t.tid, Wr.reg a.d k.regs val) :: pw
    .next (retire e.is (updCrew e.s e.is.crew fun c => applyWrs c ws))

end Sys2Proof.Machine
end

