-- ==== Sys2Proof/Machine/Race.lean ====
section
/-! DEFINITION. Synchronisation-free regions, the tag slots of a line, and the race check that an ordinary access meets at its home (R203–R210). -/

namespace Sys2Proof.Machine

/-! ### Regions (R204) -/

def regionOwners (s : State) : Region → List (Nat × Nat)
  | .thread u t _ => [(u, t)]
  | .engine id => requestOwners s id

/-- Whether a region is live (R204). -/
def regionLive (s : State) (r : Region) : Bool :=
  match r with
  | .thread u t n => (getThread s u t).any (fun x => x.live && x.region == n) || s.stores.any (·.region == r)
  | .engine id => !(requestOwners s id).isEmpty

/-- Whether two regions belong to one thread or to requests it issued, which never race (R204). -/
def sameOwner (s : State) (x y : Region) : Bool := (regionOwners s x).any fun o => (regionOwners s y).contains o

/-- The region of a thread. -/
def regionOf (uid : Nat) (t : Thread) : Region := .thread uid t.tid t.region

/-- Regions live on a die (R204, R208): those of threads that have made an access, those that still have a store unacknowledged, and those of engine requests and of the copies made for `mig.move`. -/
def liveOn (s : State) (die : Nat) : List Region :=
  let crews := s.crews.filter fun c => c.die == die && c.where_ != .gone
  crews.flatMap fun c =>
    (c.threads.filter fun t => t.live && t.accessed == some t.region).map (regionOf c.uid)
      ++ ((s.stores.filter (·.crew == c.uid)).map (·.region)).eraseDups
      ++ ((s.flume.filter (·.crew == c.uid)).map fun r => Region.engine r.id)
      ++ ((s.colls.filter (·.crew == c.uid)).map fun r => Region.engine r.id)
      ++ ((s.tileReqs.filter (·.crew == c.uid)).map fun r => Region.engine r.id)
      ++ ((s.moves.filter fun m => m.who.any (·.1 == c.uid)).map fun m => Region.engine m.id)

/-! ### The check (R207, R208) -/

/-- The 4-byte granules of a line that an access touches. -/
def granules (k n : Nat) : BitVec 16 :=
  let lo := k % 64 / 4
  let hi := min 15 ((k % 64 + n - 1) / 4)
  BitVec.ofNat 16 ((2 ^ (hi + 1) - 1) / 2 ^ lo * 2 ^ lo)

/-- How a checked access ends at its home. -/
inductive RaceEnd where
  | ok (s : State)
  /-- a live region conflicts: its slot -/
  | conflict (sl : TagSlot)
  | wait (w : StoreWait)

/-- Who makes a checked access. -/
structure Accessor where
  region : Region
  die : Nat
  core : Nat
  deriving DecidableEq, Repr

def TagSlot.conflicts (sl : TagSlot) (m : BitVec 16) (write : Bool) : Bool :=
  (sl.write &&& m) != 0 || (write && (sl.read &&& m) != 0)

/-- Whether the readers of a read-shared line still hold a write up (R208). -/
def sharedHolds (s : State) (a : Accessor) (sh : SharedLine) : Bool :=
  sh.epochs.any fun (d, ep, regs) =>
    if d = a.die then regs.any fun r => r != a.region && regionLive s r else mget 0 s.hw.epochs d < ep + 2

/-- The line with the access entered in its region's slot, or in one that is free or no longer live. -/
def enterSlot (s : State) (a : Accessor) (m : BitVec 16) (write : Bool) (l : TagLine) : Option TagLine :=
  let mark := fun sl : TagSlot => if write then { sl with write := sl.write ||| m } else { sl with read := sl.read ||| m }
  let fresh := mark { region := a.region, die := a.die, core := a.core, read := 0, write := 0 }
  if l.slots.any (·.region == a.region) then
    some { l with slots := l.slots.map fun sl => if sl.region = a.region then mark sl else sl }
  else if l.slots.length < 4 then some { l with slots := l.slots ++ [fresh] }
  else match l.slots.find? fun sl => !regionLive s sl.region with
    | some dead => some { l with slots := l.slots.map fun sl => if sl.region = dead.region then fresh else sl }
    | none => none

/-- A read joins the read-shared state of a line. -/
def joinShared (s : State) (a : Accessor) (m : BitVec 16) (l : TagLine) : TagLine :=
  let old := l.shared.getD { mask := 0, epochs := [] }
  let prior := (old.epochs.filter fun e => e.1 == a.die).flatMap fun e => e.2.2
  let now := (mget 0 s.hw.epochs a.die, (a.region :: (prior ++ liveOn s a.die)).eraseDups)
  { l with shared := some { mask := old.mask ||| m, epochs := (a.die, now) :: old.epochs.filter fun e => e.1 != a.die } }

/-- The write that ends the read-shared state of a line takes its copies from every L1 of the dies recorded (R208). -/
def dropShared (s : State) (line : Nat) (sh : Option SharedLine) : State := match sh with
  | none => s
  | some x => { s with lines := s.lines.filter fun l => match l.kind with
      | .l1 core => l.sector / 4 != line || !(x.epochs.any fun e => e.1 == core / 256)
      | _ => true }

/-- The check of one access to bytes of one line (R207, R208). -/
def raceLine (s : State) (a : Accessor) (k n : Nat) (write : Bool) : RaceEnd :=
  let key := place s k / 64
  let l := mget default s.tags key
  let m := granules k n
  match l.slots.find? fun sl => sl.conflicts m write && sl.region != a.region && regionLive s sl.region && !sameOwner s sl.region a.region with
  | some sl => .conflict sl
  | none =>
    let shared := l.shared.filter fun sh => write && (sh.mask &&& m) != 0
    if shared.any (sharedHolds s a) then .wait .shared
    else
      let l1 := if shared.isSome then { l with shared := none } else l
      match enterSlot s a m write l1 with
      | some l2 => .ok { dropShared s key shared with tags := mput default s.tags key l2 }
      | none => if write then .wait .capacity else .ok { s with tags := mput default s.tags key (joinShared s a m l1) }

/-- The parts of a run of bytes that lie in one line each. -/
def lineParts (k n : Nat) : List (Nat × Nat) :=
  (List.range ((k + n + 63) / 64 - k / 64)).map fun i =>
    let lo := max k (64 * (k / 64 + i))
    (lo, min (k + n) (64 * (k / 64 + i) + 64) - lo)

/-- The check of a run of bytes, line by line; stops at the first line that conflicts or waits. (DEDUCED, log entry 60) -/
def raceCheck (s : State) (a : Accessor) (write : Bool) : List (Nat × Nat) → RaceEnd × Nat
  | [] => (.ok s, 0)
  | (k, n) :: rest => match raceLine s a k n write with
    | .ok s1 => raceCheck s1 a write rest
    | r => (r, k)

/-- The check of bytes given as runs. -/
def raceRuns (s : State) (a : Accessor) (write : Bool) (runs : List (Nat × Nat)) : RaceEnd × Nat :=
  raceCheck s a write (runs.flatMap fun r => lineParts r.1 r.2)

/-! ### The detail (R210) -/

/-- The lowest granule of a conflict, as an offset in the line. -/
def firstGranule (sl : TagSlot) (m : BitVec 16) (write : Bool) : Nat :=
  let x := (sl.write &&& m) ||| (if write then sl.read &&& m else 0)
  4 * (((List.range 16).find? fun i => x.toNat.testBit i).getD 0)

/-- The key of the first granule at which a write that waits for a line conflicts: the lowest that its readers share, or, for want of a slot, the lowest that it touches (R208, R210). -/
def waitGranule (s : State) (k n : Nat) : Nat :=
  let line := place s k / 64
  let m := granules k n
  let x := match (mget default s.tags line).shared with
    | some sh => if (sh.mask &&& m) != 0 then sh.mask &&& m else m
    | none => m
  k - k % 64 + 4 * (((List.range 16).find? fun i => x.toNat.testBit i).getD 0)

/-- OCREW and OTID of a region (R210). -/
def otherOf (s : State) (r : Region) : Nat × Nat :=
  let name := fun (o : Nat × Nat) (e : Nat) => match getCrew s o.1 with
    | some c => (if c.isGen then 0xFFFF else c.num.toNat % 65536, o.2 + e)
    | none => (0xFFFF, o.2 + e)
  match r with
  | .thread u t _ => name (u, t) 0
  | .engine id => match (requestOwners s id).head? with
    | some o => name o 0x8000
    | none => (0xFFFF, 0xFFFF)

/-- A RACE (R210). -/
def raceTrap (sub : Nat) (addr : Word64) (kind ocrew otid done raced : Nat) : TrapInfo :=
  { code := tcRACE, sub := sub, tids := [], addr := addr,
    detail := [{ off := 0, len := 8, val := addr.toNat }, { off := 8, len := 2, val := sub }, { off := 10, len := 1, val := kind },
      { off := 12, len := 2, val := ocrew }, { off := 14, len := 2, val := otid }, { off := 16, len := 8, val := done },
      { off := 24, len := 8, val := raced }] }

/-- The RACE of a conflict with a slot, for an access that named the byte at key `k` by address `ea` (R210). -/
def conflictTrap (s : State) (sl : TagSlot) (ea : Word64) (k n : Nat) (write : Bool) (done raced : Nat) : TrapInfo :=
  let m := granules k n
  let (oc, ot) := otherOf s sl.region
  raceTrap 1 (ea - BitVec.ofNat 64 (k % 64) + BitVec.ofNat 64 (firstGranule sl m write))
    ((if write then 1 else 0) + (if (sl.write &&& m) != 0 then 2 else 0)) oc ot done raced

end Sys2Proof.Machine
end

