-- ==== Sys2Proof/Machine/Touch.lean ====
section
/-! DEFINITION. Touches of procedural ranges: the range of an address, the state of a block in its sluice map, what a touch meets, the wait lists, the spawning of generators, and the two ends of a fill (R181–R196). -/

namespace Sys2Proof.Machine

/-! ### Ranges and their maps -/

/-- The registered range and block of an address (R181). -/
def blockOf (c : Context) (va : Nat) : Option (Range × Nat) :=
  (c.ranges.find? fun r => r.base ≤ va && va < r.base + r.blocks * 65536).map fun r => (r, (va - r.base) / 65536)

/-- Bytes of states, and of the whole map, of a range (R183). -/
def stateBytes (blocks : Nat) : Nat := 64 * ((blocks + 255) / 256)
def mapBytes (blocks : Nat) : Nat := stateBytes blocks + 64 * ((blocks + 511) / 512)

/-- The key of a byte of a map, found through the tables; a map lies in HBM pages with P = 0. -/
def mapKey (s : State) (ctx va : Nat) : Option Nat :=
  match walkTree s ctx va with
  | .leaf l log2 _ => some (TlbEntry.key { ctx := ctx, die := 0, core := none, va := va / 2 ^ log2 * 2 ^ log2, log2 := log2, leaf := l } va)
  | _ => none

/-- A field of `n` bits at bit `lo` of a map byte. -/
def mapField (s : State) (ctx va lo n : Nat) : Nat :=
  match mapKey s ctx va with
  | some k => bitsOf (homeByte s k).toNat (lo + n - 1) lo
  | none => 0

/-- The same field written, by the home slice that owns the line; no L1 or remote-data cache keeps a copy of it (R183). -/
def setMapField (s : State) (ctx va lo n v : Nat) : State :=
  match mapKey s ctx va with
  | some k =>
    let b := (homeByte s k).toNat
    { s with
      mem := memPut s.mem (place s k) (BitVec.ofNat 8 (b - bitsOf b (lo + n - 1) lo * 2 ^ lo + v % 2 ^ n * 2 ^ lo))
      lines := s.lines.filter fun l => match l.kind with
        | .l1 _ | .rdc _ => l.sector / 4 != place s k / 64
        | _ => true }
  | none => s

/-- Block states (R183). -/
def stEmpty := 0
def stFilling := 1
def stFull := 2
def stFailed := 3

def blockState (s : State) (ctx : Nat) (r : Range) (i : Nat) : Nat := mapField s ctx (r.map + i / 4) (2 * (i % 4)) 2
def setBlockState (s : State) (ctx : Nat) (r : Range) (i v : Nat) : State := setMapField s ctx (r.map + i / 4) (2 * (i % 4)) 2 v
def blockPinned (s : State) (ctx : Nat) (r : Range) (i : Nat) : Bool :=
  mapField s ctx (r.map + stateBytes r.blocks + i / 8) (i % 8) 1 == 1
def setPin (s : State) (ctx : Nat) (r : Range) (i : Nat) (b : Bool) : State :=
  setMapField s ctx (r.map + stateBytes r.blocks + i / 8) (i % 8) 1 b.toNat

/-- Whether bytes lie in a map line of a registered range, which its home slice owns (R183). -/
def isMapLine (c : Context) (va len : Nat) : Bool :=
  c.ranges.any fun r => va < r.map + mapBytes r.blocks && r.map < va + len

/-- VA of a block's first byte. -/
def Range.blockVa (r : Range) (i : Nat) : Nat := r.base + i * 65536

/-- The die that homes the map line of a block. -/
def mapDie (s : State) (ctx : Nat) (r : Range) (i : Nat) : Nat :=
  match mapKey s ctx (r.map + i / 4) with
  | some k => homeDie k false
  | none => 0

/-! ### Details -/

/-- The 32-byte Sluice detail (R194). -/
def sluiceDetail (range cause code block gtrap gsub gpc : Nat) : List PutField :=
  [{ off := 0, len := 2, val := range }, { off := 2, len := 2, val := cause }, { off := 4, len := 4, val := code },
   { off := 8, len := 8, val := block }, { off := 16, len := 2, val := gtrap }, { off := 18, len := 2, val := gsub },
   { off := 24, len := 8, val := gpc }]

/-- A GENFAULT with its detail (R194). -/
def genFault (range cause code block gtrap gsub gpc : Nat) : TrapInfo :=
  { code := tcGENFAULT, sub := cause, tids := [], addr := BitVec.ofNat 64 block,
    detail := sluiceDetail range cause code block gtrap gsub gpc }

/-! ### What a touch meets (R186, R190) -/

/-- Who touches: the place its generator would start at, its depth, and, if it is a generator's, its block and whether that is still its to fill. -/
structure Toucher where
  ctx : Nat
  die : Nat
  core : Nat
  depth : Nat := 0
  own : Option (Nat × Nat) := none
  fills : Bool := true
  deriving DecidableEq, Repr

/-- The toucher that a thread of a crew, or work on its behalf, is. -/
def Crew.toucher (c : Crew) : Toucher :=
  { ctx := c.ctx, die := c.die, core := c.coreId, depth := c.depth, fills := !c.fillOver,
    own := match c.kind with
      | .gen r b _ _ => some (r, b)
      | _ => none }

inductive TouchEnd where
  | go
  | wait
  | fault (info : TrapInfo)
  deriving DecidableEq, Repr

/-- Blocks on which the generator crew of a block waits, its lanes or work done on their behalf. -/
def genWaits (s : State) (ctx : Nat) (blk : Nat × Nat) : List (Nat × Nat) :=
  let crews := (s.crews.filter fun c => c.ctx == ctx && (match c.kind with
    | .gen r b _ _ => (r, b) == blk && !c.fillOver
    | _ => false)).map (·.uid)
  s.waiters.filterMap fun w =>
    let mine := match w.who with
      | .lanes u _ => crews.contains u
      | .engine id => (requestOwners s id).any fun o => crews.contains o.1
      | .quiet .. => false
    if w.ctx == ctx && !w.overflow && !w.due && mine then w.block else none

/-- The chain check: 0 it ends, 2 it reaches the block, 3 it has not ended after the links allowed. -/
def chainCheck (s : State) (ctx : Nat) (x : Nat × Nat) : Nat → List (Nat × Nat) → Nat
  | 0, front => if front.isEmpty then 0 else 3
  | n + 1, front =>
    if front.contains x then 2
    else if front.isEmpty then 0
    else chainCheck s ctx x n ((front.flatMap (genWaits s ctx)).eraseDups)

/-- A GENDEPTH (R190). -/
def genDepthTrap (sub : Nat) : TrapInfo := { code := tcGENDEPTH, sub := sub, tids := [] }

/-- What a touch that would wait meets at a block. -/
def touchJudge (s : State) (t : Toucher) (r : Range) (i : Nat) : TouchEnd :=
  let st := blockState s t.ctx r i
  if st = stFull then .go
  else if st = stFailed then .fault (genFault r.num 4 0 (r.blockVa i) 0 0 0)
  else if st = stFilling then
    if t.own = some (r.num, i) && t.fills then .go
    else match t.own with
      | none => .wait
      | some x => match chainCheck s t.ctx x 8 (genWaits s t.ctx (r.num, i)) with
        | 0 => .wait
        | sub => .fault (genDepthTrap sub)
  else match getCtx s t.ctx, t.own with
    | some c, some _ => if c.genDepth < t.depth + 1 then .fault (genDepthTrap 1) else .wait
    | _, _ => .wait

/-! ### Spawning and waiting (R187, R188) -/

/-- Whether a die's generator queue has an entry free. -/
def genRoom (s : State) (ctx die : Nat) : Bool :=
  (s.genQueue.filter fun g => g.ctx == ctx && g.die == die).length < 65536

/-- EMPTY to FILLING, with the generator's record queued (R186, R188). (DESIGN CHOICE, log entry 162) -/
def spawnGen (s : State) (t : Toucher) (r : Range) (i : Nat) : State :=
  let idx := ((getCtx s t.ctx).map fun c => mget 0 c.genNext t.die).getD 0
  let s1 := setBlockState s t.ctx r i stFilling
  let s2 := updCtx s1 t.ctx fun c => { c with genNext := mput 0 c.genNext t.die ((idx + 1) % 65536) }
  { s2 with genQueue := s2.genQueue ++ [{ ctx := t.ctx, die := t.die, core := t.core, range := r.num, block := i, depth := t.depth + 1, idx := idx }] }

/-- The demander joins the block's wait list, or the die's overflow list when no entry is free (R187); an EMPTY block begins to fill. -/
def touchWait (s : State) (t : Toucher) (r : Range) (i : Nat) (who : Demander) : State :=
  let die := mapDie s t.ctx r i
  let empty := blockState s t.ctx r i == stEmpty
  let full := 8192 ≤ (s.waiters.filter fun w => w.die == die && w.block.isSome && !w.overflow && !w.due).length || (empty && !genRoom s t.ctx t.die)
  let s1 := if empty && !full then spawnGen s t r i else s
  { s1 with waiters := s1.waiters ++ [{ ctx := t.ctx, die := die, block := some (r.num, i), va := r.blockVa i, who := who, overflow := full }] }

/-- Whether a spawn at a toucher's depth is beyond GEN_DEPTH (R190). -/
def Toucher.tooDeep (s : State) (t : Toucher) : Bool :=
  t.own.isSome && (getCtx s t.ctx).any fun c => c.genDepth < t.depth + 1

/-- A touch for which nobody waits: `pref.touch`, and `smp` and `hgrid` in deferred mode (R186). A spawn that finds the queue full waits on the overflow list (R188). -/
def touchQuiet (s : State) (t : Toucher) (r : Range) (i : Nat) : State :=
  if blockState s t.ctx r i != stEmpty || t.tooDeep s then s
  else if genRoom s t.ctx t.die then spawnGen s t r i
  else { s with waiters := s.waiters ++ [{
    ctx := t.ctx, die := mapDie s t.ctx r i, block := some (r.num, i), va := r.blockVa i, who := .quiet t.core t.depth, overflow := true }] }

/-! ### The reply log (R369, R370) -/

/-- The CREW field that names a crew in the log. -/
def replyCrew (c : Crew) : Nat := match c.kind with
  | .gen _ _ _ idx => 0x80000000 + c.die * 65536 + idx
  | .handler rec _ => 0x40000000 + rec
  | _ => c.num.toNat

/-- Results of a context that wait in its log. -/
def logFull (s : State) (ctx : Nat) : Bool := 4096 ≤ (s.replies.filter (·.ctx == ctx)).length

/-- Whether a result must wait at its source: its crew is away and the log is full (R370). -/
def logBlocked (s : State) (c : Crew) : Bool := c.where_ == .away && logFull s c.ctx

/-- An entry written to the log for a crew that is away; its effect is applied before the crew issues. (DEDUCED, log entry 102) -/
def logReply (s : State) (c : Crew) (kind target key : Nat) (payload : List PutField) : State :=
  if c.where_ == .away && !logFull s c.ctx then
    match getCtx s c.ctx with
    | none => s
    | some x =>
      let base := x.replyLog + 64 * (x.replySeq % 4096)
      let fs : List PutField := [{ off := 0, len := 4, val := kind }, { off := 4, len := 4, val := replyCrew c },
        { off := 8, len := 8, val := target }, { off := 16, len := 8, val := key }, { off := 24, len := 8, val := x.replySeq }]
        ++ payload.map fun f => { f with off := f.off + 32 }
      let s1 := fs.foldl (fun s f => match mapKey s c.ctx (base + f.off) with
        | some k => homeWriteN s k f.len f.val
        | none => s) s
      { updCtx s1 c.ctx (fun y => { y with replySeq := y.replySeq + 1 }) with
        replies := s1.replies ++ [{ ctx := c.ctx, kind := kind, crew := c.uid, seq := x.replySeq }] }
  else s

/-! ### The end of a wait -/

/-- Lanes woken at a block: each executes its instruction again; the wake is an acquire at device scope and ends their regions (R189). -/
def wakeLanes (s : State) (uid : Nat) (tids : List Nat) (key : Nat) (blk : Option (Nat × Nat)) (fault : Option TrapInfo) : State :=
  match getCrew s uid with
  | none => s
  | some c =>
    let s1 := logReply s c (if fault.isSome then 4 else 3) (tids.headD 0) key ((fault.map (·.detail)).getD [])
    acquireOn (updCrew s1 uid (·.mapT fun t => if tids.contains t.tid then
      { t with hold := .none, wakeTrap := fault, woken := blk, region := t.region + 1 } else t)) c.coreId 2

/-- The wake of an engine's step is an acquire for the threads it works for, and ends their regions (R189). -/
def wakeOwners (s : State) (id : Nat) : State :=
  (requestOwners s id).foldl (fun s o => match getCrew s o.1 with
    | some c => acquireOn (syncPoint s o.1 o.2) c.coreId 2
    | none => s) s

/-- Wakes one demander, with the fault it is to find, if any; where its crew is away and the log has no room, its entry stays, due (R192, R370). -/
def wakeDemander (s : State) (w : Waiter) (fault : Option TrapInfo) : State :=
  match w.who with
  | .lanes u tids =>
    if (getCrew s u).any (logBlocked s) then { s with waiters := s.waiters ++ [{ w with overflow := false, due := true, fault := fault }] }
    else wakeLanes s u tids w.va w.block fault
  | .engine id =>
    let s1 := wakeOwners s id
    match fault, w.block with
    | some f, _ => { s1 with demandFaults := s1.demandFaults ++ [(id, f)] }
    | none, some b => { s1 with wokenReqs := s1.wokenReqs ++ [(id, w.ctx, b)] }
    | none, none => s1
  | .quiet .. => s

/-- Results that waited at their sources reach the threads of crews that can take them now, in order (R370). -/
def settleDue (s : State) : State :=
  (s.waiters.filter (·.due)).foldl (fun s w => match w.who with
    | .lanes u _ =>
      if (getCrew s u).any (logBlocked s) then s else wakeDemander { s with waiters := s.waiters.erase w } { w with due := false } w.fault
    | _ => s) s

/-- Wakes every waiter of a block in wait-list order (R187). -/
def wakeBlock (s : State) (ctx : Nat) (blk : Nat × Nat) (fault : Option TrapInfo) : State :=
  let p := fun w : Waiter => w.ctx == ctx && w.block == some blk && !w.overflow && !w.due
  let ws := s.waiters.filter p
  ws.foldl (fun s w => wakeDemander s w fault) { s with waiters := s.waiters.filter fun w => !p w }

/-- The generator crews of a block fill it no more: it has left FILLING (R186). -/
def endFill (s : State) (ctx range i : Nat) : State :=
  { s with crews := s.crews.map fun c => match c.kind with
      | .gen r b _ _ => if c.ctx = ctx ∧ r = range ∧ b = i then { c with fillOver := true } else c
      | _ => c }

/-- Telemetry count of failed blocks of deferred ranges (R193). -/
def telFailedDeferred := 1

/-- A block fails: its state, the range's last-fault word and its waiters (R186, R194). (DEDUCED, log entry 71) -/
def failBlock (s : State) (ctx range i cause code gtrap gsub gpc : Nat) : State :=
  match (getCtx s ctx).bind fun c => c.ranges.find? (·.num == range) with
  | none => s
  | some r =>
    let f := genFault range cause code (r.blockVa i) gtrap gsub gpc
    let word := range + 2 ^ 16 * cause + 2 ^ 32 * code + 2 ^ 64 * r.blockVa i
    let s1 := setBlockState s ctx r i stFailed
    let s2 := updCtx s1 ctx fun c => { c with ranges := c.ranges.map fun q => if q.num = range then { q with lastFault := word } else q }
    let s3 := if r.deferred then telemetry s2 ctx telFailedDeferred else s2
    wakeBlock (endFill s3 ctx range i) ctx (range, i) (some f)

/-- Whether a generator crew's block is FILLING, and by it (R186). -/
def stillFills (s : State) (c : Crew) : Bool := match c.kind with
  | .gen r b _ _ => !c.fillOver && (getCtx s c.ctx).any fun x => x.ranges.any fun q => q.num == r && blockState s c.ctx q b == stFilling
  | _ => false

/-- Every copy of a block's or page's lines dropped: in every L1 of the context, and in every remote-data, sampler and node cache (R195). -/
def dropCopies (s : State) (ctx : Nat) (keys : Nat → Bool) : State :=
  { s with lines := s.lines.filter fun l => !((match l.kind with
      | .l1 _ => l.ctx == ctx
      | _ => true) && keys (16 * l.sector)) }

end Sys2Proof.Machine
end

