-- ==== Sys2Proof/Machine/Access.lean ====
section
/-! DEFINITION. The core path from the lanes to the homes (R165, R169, R175): the checks in their order, the lanes that park, the race check lane by lane, and the issue of loads and stores. -/

namespace Sys2Proof.Machine

/-- One active lane's access: its thread, its address, and what the address reaches. -/
structure LaneAcc where
  t : Thread
  ea : Word64
  tgt : Target
  /-- through a record that is read-only (R176) -/
  ro : Bool := false

/-- A run of bytes of an access: its address (or key, in a bank), its key, and its length. -/
structure Piece where
  va : Nat
  key : Nat
  len : Nat
  glob : Bool
  /-- the die that homes it, where it is this device's global memory (R22) -/
  home : Option Nat := none
  deriving DecidableEq, Repr

/-- What an instruction asks of its accesses. -/
structure Need where
  w : Nat
  load : Bool := false
  store : Bool := false
  strong : Bool := false
  /-- no touch of a map line or pool is a store: only arrival words -/
  kind : Nat := 1
  /-- its bytes are read as it issues: it waits where the read waits at a fenced channel (R167) -/
  now : Bool := false
  deriving DecidableEq, Repr

/-! ### The checks of R175 -/

/-- A trap of lanes at their lowest lane's address. (DEDUCED, log entry 24) -/
def lanesTrap (e : Env) (code sub : Nat) (ls : List LaneAcc) (more : List PutField) : Out :=
  let tids := ls.map (·.t.tid)
  trapGang e (trapOf e.c code sub tids (laneField e.c tids :: more) ((ls.head?.map (·.ea)).getD 0))

/-- ALIGN (R165), and the limits of the stack window (R158). -/
def alignBad (n : Need) (l : LaneAcc) : Bool :=
  l.ea.toNat % n.w != 0 || (match l.tgt with
    | .glob _ true => n.strong && 4 < n.w
    | .bounds _ => false
    | _ => false)

/-- The code and sub-code of a failed steering. -/
def steerBad (l : LaneAcc) : Option (Nat × Nat) := match l.tgt with
  | .bounds r => some (tcBOUNDS, r)
  | .noncanon => some (tcPAGE, 1)
  | _ => none

/-- Lines that their home slice owns: sluice maps, pools of live runs, entries of held treelets (R183, R273, R306). -/
def ownedLine (s : State) (ctx va len : Nat) : Bool :=
  (getCtx s ctx).any (isMapLine · va len)
    || (s.runs.any fun r => r.ctx == ctx && (r.state == .migrating || r.state == .running)
        && 0 < r.launch.poolN && va < (r.launch.pool + 32 * r.launch.poolN + 63) / 64 * 64 && r.launch.pool / 64 * 64 < va + len)
    || (s.held.any fun h => h.ctx == ctx && va / 64 ≤ h.entry / 64 && h.entry / 64 ≤ (va + len - 1) / 64)

/-- Whether an access lacks a permission at a held leaf: byte 2 of the detail (R162, R376). -/
def permBad (s : State) (c : Crew) (n : Need) (l : LaneAcc) : Option Nat := match l.tgt, n.store && l.ro with
  | _, true => some 0
  | .glob vas _, false =>
    if n.store && vas.any (fun v => ownedLine s c.ctx v.1 v.2) then some 0
    else vas.findSome? fun v => (heldLeaf s c.ctx c.die c.coreId v.1).bind fun x =>
      if (n.load && !x.leaf.read) || (n.store && !x.leaf.write) then some 0
      else if !leafEgressOk s x.leaf (v.1 - x.va) then some 1 else none
  | _, false => none

/-- The bytes of a lane as the watches see them. -/
def LaneAcc.spans (l : LaneAcc) (w : Nat) : List Span := match l.tgt with
  | .bank k _ => [{ glob := false, lo := k, len := w, ea := l.ea.toNat }]
  | .glob vas _ => vas.map fun v => { glob := true, lo := v.1, len := v.2, ea := v.1 }
  | _ => []

/-- Whether every byte of a lane's store lies in the block that its own generator crew is filling (R250). -/
def ownFill (s : State) (c : Crew) (l : LaneAcc) : Bool := match c.kind, l.tgt, getCtx s c.ctx with
  | .gen r b _ _, .glob vas _, some x => vas.all fun v => (match blockOf x v.1 with
      | some (q, i) => q.num == r && i == b && blockState s c.ctx q i == stFilling
      | none => false)
  | _, _, _ => false

/-- The lanes whose stores meet a watch, with the lowest watched byte and its node (R250). -/
def aliasHit (s : State) (c : Crew) (n : Need) (ls : List LaneAcc) : Option (Nat × Node × List LaneAcc) :=
  if !n.store || s.nodes.isEmpty then none
  else
    let hit := ls.filter fun l => !ownFill s c l && (watchHit s c.ctx (l.spans n.w)).isSome
    (watchHit s c.ctx (hit.flatMap (·.spans n.w))).map fun h => (h.1, h.2, hit)

/-! ### Lanes that do not go on -/

/-- Why a lane does not go on, once no check has failed. -/
inductive Stay where
  | walk (va : Nat)
  | block (r : Range) (i : Nat)
  | slice (core : Nat)
  /-- the scratchpad belongs to a crew that is being moved (R29, R294) -/
  | moving (crew : Nat)
  /-- a read of these bytes waits at a fenced channel (R167) -/
  | channel (runs : List (Nat × Nat))
  | fault (info : TrapInfo)

/-- The resolved pieces of a lane that goes on. -/
def lanePieces (s : State) (c : Crew) (w : Nat) (l : LaneAcc) : List Piece := match l.tgt with
  | .bank k _ => [{ va := k, key := k, len := w, glob := false }]
  | .glob vas _ => vas.filterMap fun v => (heldLeaf s c.ctx c.die c.coreId v.1).map fun x =>
      { va := v.1, key := x.key v.1, len := v.2, glob := true,
        home := if x.leaf.rn then none else some (homeDie (x.key v.1) (x.leaf.tier == 1)) }
  | _ => []

/-- What keeps a lane whose address is translated at the homes: a slice under repartition, or a fenced channel (R167, R168). -/
def homeStay (s : State) (c : Crew) (n : Need) (l : LaneAcc) : Option Stay :=
  let runs := ((lanePieces s c n.w l).filter (·.glob)).map fun p => (p.key, p.len)
  match sliceWait s runs with
  | some core => some (.slice core)
  | none => if n.now && readWaits s runs then some (.channel runs) else none

/-- What keeps a lane: a missing translation, a slice under repartition, a crew that is being moved, a fenced channel, or a block that is not FULL. -/
def laneStay (s : State) (c : Crew) (n : Need) (l : LaneAcc) : Option Stay := match l.tgt with
  | .bank _ (some core) => if (coreOf s core).change.isEmpty then none else some (.slice core)
  | .bank k none => (movingCrew s c k).map .moving
  | .glob vas _ =>
    match vas.find? fun v => (heldLeaf s c.ctx c.die c.coreId v.1).isNone with
    | some v => some (.walk v.1)
    | none => (vas.findSome? fun v => (heldLeaf s c.ctx c.die c.coreId v.1).bind fun x =>
      if x.leaf.proc then ((getCtx s c.ctx).bind (blockOf · v.1)).bind fun (r, i) => match touchJudge s c.toucher r i with
        | .go => none
        | .wait => some (.block r i)
        | .fault f => some (.fault f)
      else none).or (homeStay s c n l)
  | _ => none

/-- Parks the lanes of a gang that wait for one block, as one entry of its wait list (R187). -/
def parkBlock (s : State) (c : Crew) (r : Range) (i : Nat) (tids : List Nat) : State :=
  parkT (touchWait s c.toucher r i (.lanes c.uid tids)) c.uid tids (.block r.num i)

/-- Parks or holds every lane that stays. -/
def parkLanes (s : State) (c : Crew) (ls : List (LaneAcc × Stay)) : State :=
  let s1 := ls.foldl (fun s (l, st) => match st with
    | .walk va => parkWalk s c l.t.tid va
    | .slice core => holdT (leaveGang s c.uid [l.t.tid]) c.uid [l.t.tid] (.slice core)
    | .moving uid => holdT (leaveGang s c.uid [l.t.tid]) c.uid [l.t.tid] (.moving uid)
    | .channel runs => holdT (leaveGang s c.uid [l.t.tid]) c.uid [l.t.tid] (.channel runs)
    | _ => s) s
  let blocks := (ls.filterMap fun (_, st) => match st with
    | .block r i => some (r, i)
    | _ => none).eraseDups
  blocks.foldl (fun s (r, i) => parkBlock s c r i (ls.filterMap fun (l, st) => match st with
    | .block r' i' => if r' = r ∧ i' = i then some l.t.tid else none
    | _ => none)) s1

/-- A lane that goes on, with its pieces. -/
abbrev Ready' := LaneAcc × List Piece

/-- The checks of an access in their order, then the parking of the lanes that stay; `k` receives the lanes that go on. -/
def memGate (e : Env) (n : Need) (ls : List LaneAcc) (k : State → List Ready' → Out) : Out :=
  let align := ls.filter (alignBad n)
  let steer := ls.filter fun l => (steerBad l).isSome
  let perm := ls.filter fun l => (permBad e.s e.c n l).isSome
  if !align.isEmpty then lanesTrap e tcALIGN 0 align []
  else match steer.head?.bind steerBad with
    | some (code, sub) => lanesTrap e code sub steer []
    | none => match perm.head?.bind (permBad e.s e.c n) with
      | some b => lanesTrap e tcPERM 0 perm [{ off := 2, len := 1, val := b }]
      | none => match aliasHit e.s e.c n ls with
        | some (addr, node, hit) =>
          let tids := hit.map (·.t.tid)
          let m := laneMask e.c tids
          trapGang e { tileAlias e.is.crew n.kind addr m node with tids := tids, lanes := m }
        | none =>
          let st := ls.filterMap fun l => (laneStay e.s e.c n l).map fun x => (l, x)
          match st.findSome? fun (_, x) => match x with
            | .fault f => some f
            | _ => none with
          | some f =>
            let tids := (st.filter fun (_, x) => match x with
              | .fault g => g == f
              | _ => false).map (·.1.t.tid)
            trapGang e { f with tids := tids, lanes := laneMask e.c tids }
          | none =>
            let stay := st.map (·.1.t.tid)
            k (parkLanes e.s e.c st)
              ((ls.filter fun l => !stay.contains l.t.tid).map fun l => (l, lanePieces e.s e.c n.w l))

/-! ### Loads -/

/-- Copies of a line leave the L1 of a core (R169). -/
def dropL1Line (s : State) (core line : Nat) : State :=
  { s with lines := s.lines.filter fun l => !(l.kind == .l1 core && l.sector / 4 == line) }

/-- A sector copied into a cache from its home. -/
def fillSector (s : State) (kind : CacheKind) (ctx sec : Nat) : State :=
  { s with lines := s.lines.filter (fun l => !l.isCopy kind ctx sec) ++ [{ kind := kind, ctx := ctx, sector := sec, bytes := sectorBytes s sec }] }

/-- A sector as a cache gives it: its copy, if that is still there, else by the way that `fetch` takes, and then the cache holds it. (DESIGN CHOICE, log entry 48) -/
def throughCache (kind : CacheKind) (ctx sec : Nat) (fetch : State → State × List Byte) (s : State) : State × List Byte :=
  let miss := fun s : State =>
    let (s1, bs) := fetch s
    ({ s1 with lines := s1.lines.filter (fun l => !l.isCopy kind ctx sec) ++ [{ kind := kind, ctx := ctx, sector := sec, bytes := bs }] }, bs)
  match s.lines.find? (·.isCopy kind ctx sec) with
  | some l =>
    let s1 := { s with freeIdx := s.freeIdx + 1 }
    if Config.keepCopy s.freeIdx then (s1, l.bytes) else miss s1
  | none => miss s

/-- A sector as it comes from beyond a core's L1: from its home, or, when another die homes it, through the die's remote-data cache (R170). -/
def beyondL1 (c : Crew) (p : Piece) (sec : Nat) (s : State) : State × List Byte :=
  if p.home.any (· != c.die) then throughCache (.rdc c.die) c.ctx sec (fun s => (s, sectorBytes s sec)) s else (s, sectorBytes s sec)

/-- A sector on the ordinary path: through the L1, or past it under `.nol1` (R169). -/
def ordinarySector (c : Crew) (nol1 : Bool) (p : Piece) (s : State) (sec : Nat) : State × List Byte :=
  if nol1 then beyondL1 c p sec s else throughCache (.l1 c.coreId) c.ctx sec (beyondL1 c p sec) s

/-- The bytes of sectors on the ordinary path, one after another. -/
def ordinarySectors (c : Crew) (nol1 : Bool) (p : Piece) (s : State) : List Nat → State × List Byte
  | [] => (s, [])
  | sec :: secs =>
    let (s1, bs) := ordinarySector c nol1 p s sec
    let (s2, more) := ordinarySectors c nol1 p s1 secs
    (s2, bs ++ more)

/-- Reads a piece on the ordinary path, sector by sector (R169). -/
def readOrdinary (s : State) (c : Crew) (nol1 : Bool) (p : Piece) : State × List Byte :=
  let key := place s p.key
  let (s1, bs) := ordinarySectors c nol1 p s ((List.range ((key % 16 + p.len + 15) / 16)).map (key / 16 + ·))
  (s1, (bs.drop (key % 16)).take p.len)

/-- The request that the coalescer makes of one 128-byte segment: the smallest aligned block of 16, 32, 64 or 128 bytes that holds the bytes from `lo` to `hi` of it (R165), as its first sector and their number. -/
def coalesced (lo hi : Nat) : Nat × Nat :=
  let n := (([16, 32, 64].find? fun n => lo / n == hi / n)).getD 128
  (lo / n * n / 16, n / 16)

/-- The sectors that a gang's requests name, segment by segment (R165). -/
def requestSectors (s : State) (ps : List Piece) : List Nat :=
  let spans := (ps.filter (·.glob)).map fun p => let k := place s p.key; (k, k + p.len - 1)
  ((spans.map fun x => x.1 / 128).eraseDups).flatMap fun g =>
    let mine := spans.filter fun x => x.1 / 128 == g
    let r := coalesced (leastOr 0 (mine.map (·.1))) (mine.foldl (fun m x => max m x.2) 0)
    (List.range r.2).map (r.1 + ·)

/-- The sectors that a gang's requests name beside those of its bytes are filled, where the L1 lacks them (R165, R169). -/
def fillRequests (s : State) (c : Crew) (ps : List Piece) : State :=
  let touched := ps.map fun p => place s p.key / 16
  ((requestSectors s ps).filter fun sec => !touched.contains sec).foldl (fun s sec =>
    if s.lines.any (·.isCopy (.l1 c.coreId) c.ctx sec) then s else fillSector s (.l1 c.coreId) c.ctx sec) s

/-- How a load or store treats the L1 (R56, R169). -/
structure Path where
  strong : Bool
  /-- 0 normal, 1 `.stream`, 2 `.nol1`, 3 `.pin` -/
  policy : Nat
  deriving DecidableEq, Repr

/-- Whether a path allocates in the L1 and may hit there. -/
def Path.cached (p : Path) : Bool := !p.strong && p.policy != 2

/-- Whether a store of a crew's other threads that a crew-scope release has passed stands before an access to some bytes (R215). -/
def passedStore (s : State) (uid tid k n : Nat) : Bool :=
  s.stores.any fun q => q.before uid tid && q.tid != tid && shareGranule q.bytes ((List.range n).map fun i => (k + i, 0))

/-- The bytes of a thread's latest store on its way to some bytes, when it covers them all (R171), and nothing of another thread stands before the access. -/
def ownBytes (s : State) (uid tid k n : Nat) : Option (List Byte) :=
  if passedStore s uid tid k n then none else
  let mine := s.stores.filter fun q => q.crew == uid && q.tid == tid && !q.performed && q.bytes.any fun w => k ≤ w.1 && w.1 < k + n
  mine.getLast?.bind fun q =>
    let bs := (List.range n).filterMap fun i => (q.bytes.find? (·.1 == k + i)).map (·.2)
    if bs.length = n then some bs else none

/-- Whether a byte of a piece is poisoned. -/
def piecePoison (s : State) (p : Piece) : Bool := (List.range p.len).any fun i => poisonedAt s (p.key + i)

/-- The first poisoned address of a lane's access (R355). -/
def poisonEa (s : State) (ea : Word64) (ps : List Piece) : Option Word64 :=
  if !anyPoison s then none
  else ((ps.flatMap fun p => (List.range p.len).map (p.key + ·)).findIdx? (poisonedAt s)).map fun i => ea + BitVec.ofNat 64 i

/-- Reads the bytes of a piece for a thread: from its own latest store on its way, if that covers them; else once the stores that stand before it are performed, for partial merging is never done (R171). Poisoned bytes read zero (R372). -/
def readPiece (s : State) (c : Crew) (tid : Nat) (path : Path) (p : Piece) : State × List Byte :=
  let s0 := if path.strong && p.glob then dropL1Line s c.coreId (place s p.key / 64) else s
  if piecePoison s p then
    let s1 := drainStores s0 c.uid tid ((List.range p.len).map fun i => (p.key + i, 0))
    (s1, (List.range p.len).map fun i => if poisonedAt s1 (p.key + i) then 0 else homeByte s1 (p.key + i))
  else match ownBytes s c.uid tid p.key p.len with
    | some bs => (s0, bs)
    | none =>
      let s1 := drainStores s0 c.uid tid ((List.range p.len).map fun i => (p.key + i, 0))
      if path.strong || !p.glob then (s1, homeBytes s1 p.key p.len) else readOrdinary s1 c (path.policy == 2) p

/-- Reads all pieces of an access as one little-endian number. -/
def readPieces (s : State) (c : Crew) (tid : Nat) (path : Path) : List Piece → State × List Byte
  | [] => (s, [])
  | p :: ps =>
    let (s1, bs) := readPiece s c tid path p
    let (s2, more) := readPieces s1 c tid path ps
    (s2, bs ++ more)

/-- The number that bytes form, little-endian (R4). -/
def bytesVal (bs : List Byte) : Nat := bs.foldr (fun b acc => b.toNat + 256 * acc) 0

/-- The registers that a destination of `n` words writes with a value. -/
def dstWords (o : Opnd) (n v : Nat) : List (Nat × Word) × List (Nat × Word) :=
  let ws := fun k : Nat => (List.range n).map fun i => (k + i, BitVec.ofNat 32 (v / 2 ^ (32 * i)))
  match o with
  | .v k => (ws k, [])
  | .s k => ([], ws k)
  | _ => ([], [])

/-- A load on its way: its destination is written when it completes (R175). (DESIGN CHOICE, log entry 45) -/
def issueLoad (s : State) (uid tid : Nat) (d : Opnd) (n v : Nat) (poison : Option Word64) (atoms : List Nat)
    (ea : Word64 := 0) (peer : Bool := false) : State :=
  let (vd, sd) := dstWords d n v
  let s1 := countUp s uid tid fun k => { k with loads := k.loads + 1 }
  { s1 with
    loads := s1.loads ++ [{ id := s1.nextId, crew := uid, tid := tid, vdst := vd, sdst := sd, poison := poison, atoms := atoms,
                            addr := ea, peer := peer }]
    nextId := s1.nextId + 1 }

/-- Further telemetry counts of the model: what each number counts (R371). -/
def telPrefDropped := 2
def telMoveDropped := 3
def telNoFrame := 4
def telHintDropped := 5
def telPinDropped := 6

/-- Whether half of the ways of a line's set in its home slice hold pinned lines already (R169). -/
def setPinned (s : State) (line : Nat) : Bool :=
  let set := fun k => (sliceOf k, (Config.homeSlice k).2)
  (16 - (coreOf s (sliceOf line)).mb) / 2 ≤ (s.pinned.filter fun k => set k == set line).length

/-- Pins a line in its home slice's ways; beyond half of a set's ways the pin is only counted (R169). (DESIGN CHOICE, log entry 55) -/
def pinLine (ctx : Nat) (s : State) (line : Nat) : State :=
  if s.pinned.contains line then s
  else if setPinned s line then telemetry s ctx telPinDropped
  else { s with pinned := line :: s.pinned }

/-- Pins the lines of an access. -/
def pinLines (s : State) (ctx : Nat) (ps : List Piece) : State :=
  ((ps.filter fun p => p.glob && p.home.isSome).map fun p => place s p.key / 64).foldl (pinLine ctx) s

/-- HBM atoms that pieces read. -/
def pieceAtoms (s : State) (ps : List Piece) : List Nat := ((ps.map fun p => place s p.key / 64).filter fun a => isHbm (64 * a)).eraseDups

/-- Whether pieces lie on a peer. -/
def piecesPeer (ps : List Piece) : Bool := ps.any fun p => 2 ≤ keySpace p.key && keySpace p.key < 8194

/-- The crew's poison flag set (R372). -/
def setPoison (s : State) (uid : Nat) : State := updCrew s uid fun c => { c with poisonFlag := true }

/-- One lane's load. -/
def loadLane (c : Crew) (path : Path) (d : Opnd) (n : Nat) (s : State) (l : Ready') : State :=
  let bad := poisonEa s l.1.ea l.2
  let (s1, bs) := readPieces s c l.1.t.tid path l.2
  let s2 := if path.policy = 3 then pinLines s1 c.ctx l.2 else s1
  let s3 := issueLoad s2 c.uid l.1.t.tid d n (bytesVal bs) bad (pieceAtoms s l.2) l.1.ea (piecesPeer l.2)
  if bad.isSome then setPoison s3 c.uid else s3

/-! ### Stores -/

/-- The bytes that a value stores to pieces. -/
def pieceBytes (v : Nat) : List Piece → List (Nat × Byte)
  | [] => []
  | p :: ps => byteList p.key v p.len ++ pieceBytes (v / 256 ^ p.len) ps

/-- A store on its way (R175). -/
def issueStore (s : State) (c : Crew) (t : Thread) (pc ea : Word64) (strong : Bool) (wait : StoreWait) (batch : Nat) (clears : List Nat)
    (bytes : List (Nat × Byte)) : State :=
  let s1 := countUp s c.uid t.tid fun k => { k with stores := k.stores + 1 }
  { s1 with
    stores := s1.stores ++ [{ id := s1.nextId, crew := c.uid, tid := t.tid, region := regionOf c.uid t, bytes := bytes, strong := strong,
                              wait := wait, pc := pc, lane := c.lane t.tid, addr := ea, batch := batch, clears := clears, core := c.coreId }]
    nextId := s1.nextId + 1 }

/-- One lane's store: it updates its core's L1 copy as it issues; a strong one, one under `.nol1`, and one that waits at its home drop the copy (R169). -/
def storeLane (c : Crew) (is : Issue) (path : Path) (batch : Nat) (clears : List Nat) (val : Thread → Nat) (wait : StoreWait) (s : State) (l : Ready') : State :=
  let s1 := if !path.cached || wait != .free then l.2.foldl (fun s p => if p.glob then dropL1Line s c.coreId (place s p.key / 64) else s) s
    else updateL1 s c.coreId (pieceBytes (val l.1.t) l.2)
  let s2 := if path.policy = 3 then pinLines s1 c.ctx l.2 else s1
  issueStore s2 c l.1.t is.pc l.1.ea path.strong wait batch clears (pieceBytes (val l.1.t) l.2)

/-! ### Lane by lane -/

/-- What becomes of the lanes of an instruction as they reach their homes. -/
structure Passage where
  s : State
  done : List Nat := []
  held : List Nat := []
  race : Option (LaneAcc × TagSlot × Nat × Nat) := none

/-- One lane, in ascending home-lane order: checked, then performed; a conflict stops the lanes after it (R210). -/
def passLane (c : Crew) (checked store : Bool) (act : StoreWait → State → Ready' → State) (p : Passage) (l : Ready') : Passage :=
  if p.race.isSome then p
  else if !checked || (match l.1.tgt with
      | .glob _ true => true
      | _ => false) then { p with s := act .free p.s l, done := p.done ++ [l.1.t.tid] }
  else
    let t := l.1.t
    match raceRuns p.s { region := regionOf c.uid t, die := c.die, core := c.coreId } store (l.2.map fun x => (x.key, x.len)) with
    | (.ok s1, _) =>
      let s2 := updT s1 c.uid t.tid fun x => { x with accessed := some x.region }
      { p with s := act .free s2 l, done := p.done ++ [t.tid] }
    | (.conflict sl, k) => { p with race := some (l.1, sl, k, (l.2.map (·.len)).foldl (· + ·) 0) }
    | (.wait w, _) =>
      let s1 := act w p.s l
      { p with s := holdT s1 c.uid [t.tid] (.write (s1.nextId - 1)), held := p.held ++ [t.tid] }

/-- The loads that one instruction issued, those after the first `n`, are one batch: the crew's write of their s registers is made once (R50). -/
def onceS (n : Nat) (s : State) : State :=
  let first := ((s.loads.drop n).head?.map (·.id)).getD 0
  { s with loads := s.loads.take n ++ (s.loads.drop n).map fun l => { l with batch := first } }

/-- The common end of a load or store: lanes that went on and threads whose guards are false move on, and `fin` ends the instruction's requests; a RACE stops the gang (R175, R210). -/
def passAll (e : Env) (checked store : Bool) (act : StoreWait → State → Ready' → State) (fin : State → State) (s : State) (ls : List Ready') : Out :=
  let p := ls.foldl (passLane e.c checked store act) { s := s }
  match p.race with
  | some (l, sl, k, n) =>
    let raced := laneMask e.c [l.t.tid]
    let info := conflictTrap p.s sl l.ea k n store (laneMask e.c p.done) raced
    .next (raise p.s e.is.crew e.is.pc e.is.tids { info with tids := [l.t.tid], lanes := raced })
  | none =>
    let act := e.act.map (·.tid)
    let mark := fun q : PendingStore => if q.wait != .free && q.crew == e.is.crew && p.held.contains q.tid && q.done == 0
      then { q with done := laneMask e.c p.done } else q
    .next (retireSome e.is (e.is.tids.filter fun i => !act.contains i || p.done.contains i)
      (fin { p.s with stores := p.s.stores.map mark }))

end Sys2Proof.Machine
end

