-- ==== Sys2Proof/Machine/Approx.lean ====
section
/-! DEFINITION. The bounded approximations (R153, R261): a reference value computed in long fixed point, and the place inside the stated bound left free. -/

namespace Sys2Proof.Machine

/-- The approximate functions. -/
inductive ApproxFn where
  | rcp | rsq | ex2 | lg2 | sin | cos | gelu | silu
  deriving DecidableEq, Repr

/-- A number of each function, for the free offset. -/
def ApproxFn.code : ApproxFn → Nat
  | .rcp => 0 | .rsq => 1 | .ex2 => 2 | .lg2 => 3 | .sin => 4 | .cos => 5 | .gelu => 6 | .silu => 7

/-- Bits after the point of the fixed-point references. -/
def fixBits : Nat := 200

/-- Σ (±1)^k pow / (2k+1), with pow divided by x² at each step: arctangents of 1/x. -/
def atanInvLoop (x2 : Nat) : Nat → Nat → Int → Bool → Int
  | 0, _, _, _ => 0
  | fuel + 1, k, pow, neg =>
    let term : Int := pow / (2 * k + 1)
    (if neg then -term else term) + atanInvLoop x2 fuel (k + 1) (pow / x2) (!neg)

/-- π × 2^p by Machin's formula. -/
def piFix (p : Nat) : Int :=
  let g := p + 16
  let at' := fun x : Nat => atanInvLoop (x * x) (g / 4 + 4) 0 ((2 ^ g : Nat) / x : Nat) false
  (16 * at' 5 - 4 * at' 239) / 2 ^ 16

/-- Σ z^(2k+1) / (2k+1) in fixed point of p bits: the inverse hyperbolic tangent. -/
def atanhLoop (p : Nat) (z2 : Int) : Nat → Nat → Int → Int
  | 0, _, _ => 0
  | fuel + 1, k, pow => pow / (2 * k + 1) + atanhLoop p z2 fuel (k + 1) (pow * z2 / 2 ^ p)

def atanhFix (p : Nat) (z : Int) : Int := atanhLoop p (z * z / 2 ^ p) (p / 3 + 8) 0 z

/-- ln 2 × 2^p. -/
def ln2Fix (p : Nat) : Int := 2 * atanhFix p ((2 ^ p : Nat) / 3 : Nat)

/-- Σ z^k / k! in fixed point. -/
def expLoop (p : Nat) (z : Int) : Nat → Nat → Int → Int
  | 0, _, _ => 0
  | fuel + 1, k, term => term + expLoop p z fuel (k + 1) (term * z / 2 ^ p / (k + 1))

/-- A finite value times 2^p, rounded down. -/
def toFix (p : Nat) (neg : Bool) (m : Nat) (e : Int) : Int :=
  let v : Int := if neg then -(m : Int) else m
  let k := e + p
  if 0 ≤ k then v * 2 ^ k.toNat else if -k > 4000 then (if v < 0 then -1 else 0) else v / 2 ^ (-k).toNat

/-- 2^x for a fixed-point x of `fixBits` bits, as a finite positive value. -/
def exp2Fix (x : Int) : FV :=
  let p := fixBits
  let n := x / 2 ^ p
  let f := x % 2 ^ p
  let y := expLoop p (f * ln2Fix p / 2 ^ p) 90 0 (2 ^ p)
  .fin false y.natAbs (n - p)

/-- The value of an integer in fixed point, as a finite value with a sticky last bit. -/
def fixVal (p : Nat) (x : Int) : FV := .fin (decide (x < 0)) (2 * x.natAbs + 1) (-(p : Int) - 1)

/-- log₂ of m × 2^e > 0. -/
def log2Ref (m : Nat) (e : Int) : FV :=
  let p := fixBits
  let l := bitLen m
  let top := 2 ^ (l - 1)
  let z : Int := ((m - top) * 2 ^ p / (m + top) : Nat)
  let ln := 2 * atanhFix p z
  fixVal p ((e + l - 1) * 2 ^ p + ln * 2 ^ p / ln2Fix p)

/-- Σ (−1)^k r^(2k+a) / (2k+a)! in fixed point, from a first term. -/
def trigLoop (p : Nat) (r2 : Int) : Nat → Nat → Int → Int
  | 0, _, _ => 0
  | fuel + 1, k, term => term + trigLoop p r2 fuel (k + 2) (-(term * r2 / 2 ^ p / ((k + 1) * (k + 2))))

/-- m × 2^e modulo 2π, in fixed point. -/
def reduceAngle (m : Nat) (e : Int) : Int :=
  let p := fixBits
  let extra := (max 0 (e + bitLen m)).toNat
  let q := p + extra
  (toFix q false m e % (2 * piFix q)) / 2 ^ extra

/-- sin and cos of m × 2^e ≥ 0. -/
def sinRef (m : Nat) (e : Int) : FV :=
  if e + bitLen m < -60 then .fin false m e
  else
    let r := reduceAngle m e
    fixVal fixBits (trigLoop fixBits (r * r / 2 ^ fixBits) 90 1 r)

def cosRef (m : Nat) (e : Int) : FV :=
  if e + bitLen m < -60 then .fin false 1 0
  else
    let r := reduceAngle m e
    fixVal fixBits (trigLoop fixBits (r * r / 2 ^ fixBits) 90 0 (2 ^ fixBits))

/-- 1/√(m × 2^e). -/
def rsqRef (m : Nat) (e : Int) : FV :=
  let (m, e) := if e % 2 = 0 then (m, e) else (2 * m, e - 1)
  let k := 140 + bitLen m
  .fin false (2 * Nat.sqrt (2 ^ (2 * k) / m) + 1) (-(k : Int) - e / 2 - 1)

/-- Σ (−1)^n x^(2n+1) / (2^n n! (2n+1)) in fixed point of p bits. -/
def phiLoop (p : Nat) (x2 : Int) : Nat → Nat → Int → Int
  | 0, _, _ => 0
  | fuel + 1, n, pow => pow / (2 * n + 1) + phiLoop p x2 fuel (n + 1) (-(pow * x2 / 2 ^ p / (2 * (n + 1))))

/-- x Φ(x) for |x| < 16. -/
def geluRef (neg : Bool) (m : Nat) (e : Int) : FV :=
  let p := 480
  let x := toFix p neg m e
  let sum := phiLoop p (x * x / 2 ^ p) 700 0 x
  let root : Int := Nat.sqrt ((2 * piFix p).natAbs * 2 ^ p)
  let phi := 2 ^ (p - 1) + sum * 2 ^ p / root
  (FV.fin neg m e).mul (.fin false (2 * phi.natAbs + 1) (-(p : Int) - 1))

/-- x / (1 + e^(−x)). -/
def siluRef (neg : Bool) (m : Nat) (e : Int) : FV :=
  let p := fixBits
  let ax := if e + bitLen m > 12 then (2 ^ (12 + p) : Int) else toFix p false m e
  let u := exp2Fix (-(ax * 2 ^ p / ln2Fix p))
  let den := FV.add .rne (.fin false 1 0) u
  if neg then ((FV.fin neg m e).mul u).div den else (FV.fin neg m e).div den

/-- The bound of an approximation: units in the last place, or an absolute power of two. -/
inductive Bound where
  | exact
  | ulps (k : Nat)
  | abs (e : Int)
  deriving DecidableEq, Repr

/-- A reference rounded to the type, moved by a free offset inside the bound. -/
def withinBound (f : Fmt) (b : Bound) (off : Int) (ref : FV) : FV :=
  match b, ref with
  | .exact, r => r
  | .ulps k, .fin n m e =>
    let (y, q) := f.round .rne n m e
    let lim : Int := (k * 2 ^ 20 : Nat)
    let d := max (-lim) (min lim off)
    let v : Int := (y * 2 ^ 20 : Nat) + d
    if v < 0 then .fin (!n) v.natAbs (q - 20) else .fin n v.natAbs (q - 20)
  | .abs ae, .fin n m e =>
    let (y, q) := f.round .rne n m e
    let d := max (-(2 ^ 20)) (min (2 ^ 20) off)
    FV.add .rne (.fin n y q) (.fin (decide (d < 0)) d.natAbs (ae - 20))
  | _, r => r

/-- Whether m is a power of two. -/
def isPow2 (m : Nat) : Bool := m != 0 && m == 2 ^ Nat.log2 m

/-- Whether m × 2^e is an integer. -/
def isIntegral (m : Nat) (e : Int) : Bool := decide (0 ≤ e) || (decide (-e < 4000) && m % 2 ^ (-e).toNat == 0)

/-- The free offset of a function at an input magnitude. (DESIGN CHOICE, log entry 22) -/
def freeOffset (fn : ApproxFn) (f : Fmt) (x : FV) : Int := Config.offset (fn.code + 16 * f.bits) (rne f x)

/-- The absolute bound of `flg2`, `fsin` and `fcos` (R153). -/
def absBound (f : Fmt) : Int := if f.bits = 64 then -51 else -22

/-- Whether a positive value lies in [0.5, 2]. -/
def nearOne (x : FV) : Bool := !(x.lt (.fin false 1 (-1))) && !((FV.fin false 1 1).lt x)

/-- The approximation y of a function at In(A), with the exact and special values of R153 and R261. -/
def approx (fn : ApproxFn) (f : Fmt) (x : FV) : FV :=
  let off := freeOffset fn f x
  let offAbs := freeOffset fn f x.abs
  match x with
  | .nan => .nan
  | .inf n =>
    match fn with
    | .rcp => .fin n 0 0
    | .rsq => if n then .nan else .fin false 0 0
    | .ex2 => if n then .fin false 0 0 else .inf false
    | .lg2 => if n then .nan else .inf false
    | .sin | .cos => .nan
    | .gelu | .silu => if n then .fin true 0 0 else .inf false
  | .fin n m e =>
    if m = 0 then
      match fn with
      | .rcp | .rsq => .inf n
      | .ex2 | .cos => .fin false 1 0
      | .lg2 => .inf true
      | .sin | .silu => .fin n 0 0
      | .gelu => .fin false 0 0
    else
      match fn with
      | .rcp =>
        let ref := (FV.fin false 1 0).div (.fin false m e)
        let y := if isPow2 m then .fin false 1 (-(e + Nat.log2 m)) else withinBound f (.ulps 1) offAbs ref
        if n then y.neg else y
      | .rsq =>
        if n then .nan
        else if isPow2 m && (e + Nat.log2 m) % 2 == 0 then .fin false 1 (-((e + Nat.log2 m) / 2))
        else withinBound f (.ulps 1) off (rsqRef m e)
      | .ex2 =>
        if 12 < e + bitLen m then
          if !n then .fin false 1 4000
          else if isIntegral m e then .fin false 1 (-4000)
          else withinBound f (.ulps 2) off (.fin false 1 (-4000))
        else if isIntegral m e then .fin false 1 (toFix 0 n m e)
        else withinBound f (.ulps 2) off (exp2Fix (toFix fixBits n m e))
      | .lg2 =>
        if n then .nan
        else if isPow2 m then fvInt (e + Nat.log2 m)
        else withinBound f (if nearOne (.fin false m e) then .abs (absBound f) else .ulps 2) off (log2Ref m e)
      | .sin =>
        let y := withinBound f (.abs (absBound f)) offAbs (sinRef m e)
        if n then y.neg else y
      | .cos => withinBound f (.abs (absBound f)) offAbs (cosRef m e)
      | .gelu =>
        if !n && !((FV.fin n m e).lt (.fin false 6 0)) then .fin n m e
        else if 4 < e + bitLen m then withinBound f (.ulps 2) off (.fin true 1 (-4000))
        else withinBound f (.ulps 2) off (geluRef n m e)
      | .silu => withinBound f (.ulps 2) off (siluRef n m e)

end Sys2Proof.Machine
end

