-- ==== Sys2Proof/Machine/RayTable.lean ====
section
/-! DEFINITION. The ray table and the admission of rays (R305, R316, R327, R341): the operands of `trace`, the rays that are bad, and whether a lane can take a slot. -/

namespace Sys2Proof.Machine

/-- The stack nearest to a core (R15). -/
def nearStack (c : Crew) : Nat := 4 * c.die + c.core / 64

/-- An operand of eight values, FP32 or FP64, as FP64 bits (R341). -/
def eightValues (f64 : Bool) (v : Nat) : List Nat :=
  (List.range 8).map fun i => if f64 then rne fp64 (fp64.dec (elem 64 v i)) else rne fp64 (fp32.dec (elem 32 v i))

/-- What a lane's `trace` asks. -/
structure TraceAsk where
  f64 : Bool
  vals : List Nat
  scene : Nat
  ctrl : Nat
  log : Option Nat

def traceAsk (a : Args) (c : Crew) (t : Thread) : TraceAsk :=
  let f64 := bitAt a.m.toNat 5
  { f64 := f64, vals := eightValues f64 (rd c t a.a (if f64 then 16 else 8)), scene := rd c t a.b 2, ctrl := rd c t a.c 1
    log := if bitAt a.m.toNat 4 then some (rd c t a.d 2) else none }

def TraceAsk.fv (k : TraceAsk) (i : Nat) : FV := fp64.dec ((k.vals[i]?).getD 0)

/-- A ray that is bad in itself (R327): NaN anywhere, an infinite origin, a zero direction, TMIN above TMAX. -/
def TraceAsk.bad (k : TraceAsk) : Bool :=
  (List.range 8).any (fun i => (k.fv i).isNan)
    || (List.range 3).any (fun i => match k.fv i with
      | .inf _ => true
      | _ => false)
    || (List.range 3).all (fun i => (k.fv (4 + i)).isZero) || (k.fv 7).lt (k.fv 3)

/-- MAXPEND and PREC of a scene whose descriptor can be read when the ray is issued. -/
def sceneLook (s : State) (ctx va : Nat) : Option (Nat × Nat) :=
  match walkTree s ctx va with
  | .leaf l log2 _ =>
    let base := va / 2 ^ log2 * 2 ^ log2
    let blk := if l.proc then (getCtx s ctx).bind (blockOf · va) else none
    let full := match blk with
      | some (r, i) => blockState s ctx r i == stFull
      | none => true
    if l.read && !l.busy && !l.compressed && full && va < 2 ^ 56 then
      let k := TlbEntry.key { ctx := ctx, die := 0, core := none, va := base, log2 := log2, leaf := l } va
      some (homeRead s (k + 36) 2, homeRead s (k + 20) 1)
    else none
  | _ => none

/-- Whether a ray completes as bad without being sent (R327). -/
def rayBad (s : State) (ctx : Nat) (k : TraceAsk) : Bool :=
  k.bad || (match sceneLook s ctx k.scene with
    | some (_, prec) => prec < 2 && prec != k.f64.toNat
    | none => false)

/-- Overflow records for MAXPEND pending visits (R313). -/
def extRecords (maxPend : Nat) : Nat := ((max maxPend 2 - 2) + 9) / 10

/-- Overflow records that a ray reserves when it is issued (R316); one whose scene cannot be read yet reserves them once it is read. (DEDUCED, log entry 103) -/
def extNeed (s : State) (ctx : Nat) (k : TraceAsk) : Nat := match sceneLook s ctx k.scene with
  | some (n, _) => extRecords n
  | none => 0

/-- Overflow records that rays have reserved. -/
def extUsed (s : State) : Nat := (s.rays.map (·.reserved)).foldl (· + ·) 0

/-- Slots of a core's ray table that are taken (R341). -/
def coreSlots (s : State) (core : Nat) : Nat :=
  (s.slots.filter fun x => (getCrew s x.crew).any fun c => c.coreId == core && c.where_ == .resident).length

/-- The lowest index of a core's ray table that no slot has taken (R341). -/
def freeIndex (s : State) (core : Nat) : Nat :=
  let used := (s.slots.filter fun x => (getCrew s x.crew).any fun c => c.coreId == core && c.where_ == .resident).map (·.idx)
  ((List.range (used.length + 1)).find? fun i => !used.contains i).getD 0

/-- The slots of a crew that has come to a core, given indices of that core's ray table. -/
def reindexSlots (s : State) (uid core : Nat) : State :=
  let mine := s.slots.filter (·.crew == uid)
  { s with slots := mine.foldl (fun xs x =>
      let used := (xs.filter fun y => y.crew != uid && (getCrew s y.crew).any fun c => c.coreId == core && c.where_ == .resident).map (·.idx)
        ++ (xs.filter fun y => y.crew == uid && y.id < x.id).map (·.idx)
      let i := if used.contains x.idx then ((List.range (used.length + 1)).find? fun i => !used.contains i).getD 0 else x.idx
      xs.map fun y => if y.id = x.id then { y with idx := i } else y) s.slots }

/-- Slots that a thread holds. -/
def threadSlots (s : State) (uid tid : Nat) : Nat := (s.slots.filter fun x => x.crew == uid && x.tid == tid).length

/-- Whether a lane can take a slot and its ray be admitted (R316, R341). -/
def traceFits (s : State) (c : Crew) (tid : Nat) (k : TraceAsk) : Bool :=
  threadSlots s c.uid tid < 63 && coreSlots s c.coreId < 4096
    && (rayBad s c.ctx k || ((s.rays.filter (·.admitted)).length < s.bar.rayAdmit
      && extUsed s + extNeed s c.ctx k ≤ s.bar.extAdmit))

/-- Whether a word is a `trace` that a thread cannot issue yet (R341). -/
def traceBlocked (s : State) (c : Crew) (t : Thread) (w : Nat) : Bool := match unpack w with
  | .full r => opOf r.op == some .trace && guardOk r.args.guard t && !traceFits s c t.tid (traceAsk r.args c t)
  | .paired .. => false

end Sys2Proof.Machine
end

