-- ==== Sys2Proof/Machine/Crews.lean ====
section
/-! DEFINITION. Room on a core and the start of crews: register needs by role, the limits of ordinary and reserved slots, and a crew of any kind with its uniform registers (R18, R19, R188, R251, R254, R274, R356). -/

namespace Sys2Proof.Machine

/-- What a crew needs and how it is shaped. -/
structure CrewShape where
  threads : Nat
  gw : Nat
  regs : Nat
  regsCopy : Nat
  regsEpi : Nat
  nCopy : Nat := 0
  nEpi : Nat := 0
  scratch : Nat := 0
  tiles : Nat := 0
  deriving DecidableEq, Repr

/-- Home gangs of a shape. -/
def CrewShape.gangs (h : CrewShape) : Nat := (h.threads + h.gw - 1) / h.gw

/-- Register words, each home gang at its role's budget (R19, R254). -/
def CrewShape.words (h : CrewShape) : Nat :=
  (List.range h.gangs).foldl (fun n g =>
    let budget := if h.gangs ≤ g + h.nCopy then h.regsCopy else if h.gangs ≤ g + h.nCopy + h.nEpi then h.regsEpi else h.regs
    n + min h.gw (h.threads - g * h.gw) * budget) 0

/-- The shape of a crew that exists. -/
def Crew.shape (c : Crew) : CrewShape :=
  { threads := c.threads.length, gw := c.gw, regs := c.regs, regsCopy := c.regsCopy, regsEpi := c.regsEpi,
    nCopy := c.nCopy, nEpi := c.nEpi, scratch := c.scratch, tiles := c.tiles }

/-- Crews resident on a core in ordinary slots. -/
def ordinaryOn (s : State) (core : Nat) : List Crew :=
  s.crews.filter fun c => c.where_ == .resident && c.coreId == core && !c.isGen

/-- Generator crews resident on a core, in its reserved slots. -/
def generatorsOn (s : State) (core : Nat) : List Crew :=
  s.crews.filter fun c => c.where_ == .resident && c.coreId == core && c.isGen

/-- Whether crews of the given shapes fit the ordinary part of a core together (R18, R251). -/
def shapesFit (hs : List CrewShape) : Bool :=
  let sum := fun f : CrewShape → Nat => (hs.map f).foldl (· + ·) 0
  hs.length ≤ 30 && sum (·.threads) ≤ 1920 && sum (·.words) ≤ 122880 && sum (·.scratch) ≤ 229376 && sum (·.tiles) ≤ 16

/-- Whether a spare is about to take a core's place: its crews are being taken off, to return to it (R373). -/
def replacing (s : State) (core : Nat) : Bool := s.crews.any fun c => c.coreId == core && c.taking.any fun k => k.dest == some core

/-- Whether a core may take a crew. -/
def coreOpen (s : State) (core : Nat) : Bool := !(coreOf s core).retired && !replacing s core

/-- Whether a core has room for one more ordinary crew. -/
def coreHasRoom (s : State) (core : Nat) (h : CrewShape) : Bool :=
  coreOpen s core && shapesFit (h :: (ordinaryOn s core).map (·.shape))

/-- Ordinary slots that are free on a die: 30 on each core that is not retired, less those that crews stand in (R279, R280, R373). (DEDUCED, log entry 165) -/
def freeSlots (s : State) (die : Nat) : Nat :=
  let lost := (s.cores.filter fun k => k.1 / 256 == die && k.2.retired).map (·.1)
  30 * (256 - lost.length) - (s.crews.filter fun c => c.where_ == .resident && c.die == die && !c.isGen && !lost.contains c.coreId).length

/-- The lowest slot of a list that no resident crew of the core holds. (DEDUCED, log entry 88) -/
def lowestSlot (s : State) (core : Nat) (slots : List Nat) : Option Nat :=
  slots.find? fun k => !(s.crews.any fun c => c.where_ == .resident && c.coreId == core && c.slot == k)

def ordinarySlot (s : State) (core : Nat) : Option Nat := lowestSlot s core (List.range 30)
def reservedSlot (s : State) (core : Nat) : Option Nat := if coreOpen s core then lowestSlot s core [30, 31] else none

/-- The lowest-numbered core of a die with room for an ordinary crew (R280). -/
def placeCore (s : State) (die : Nat) (h : CrewShape) : Option Nat :=
  (List.range 256).find? fun i => coreHasRoom s (256 * die + i) h

/-- Threads of a new crew: every home gang one bound gang (R105), all at the entry. -/
def newThreads (h : CrewShape) (entry : Word64) : List Thread :=
  (List.range h.threads).map fun i => { tid := i, pc := entry, bound := some (i / h.gw) }

/-- A register file with 64-bit values at even registers and 32-bit values at single ones. -/
def uniformRegs (pairs : List (Nat × Nat)) (words : List (Nat × Nat)) : SMap Word :=
  let m := pairs.foldl (fun m p => groupPut m p.1 p.2 2) []
  words.foldl (fun m p => groupPut m p.1 p.2 1) m

/-- A crew started on a core: it takes a slot, its registers are zero but for the uniform ones given, and its counters begin at 0. (DEDUCED, log entry 11) -/
def startCrew (s : State) (kind : CrewKind) (ctx : Nat) (run : Option Nat) (span : Nat) (num : Word) (stage core slot : Nat) (h : CrewShape)
    (priv strict : Bool) (entry : Word64) (regs : SMap Word) : State :=
  let (uid, s1) := fresh s
  { s1 with crews := s1.crews ++ [{
      uid := uid, kind := kind, ctx := ctx, run := run, span := span, num := num, stage := stage, die := core / 256, core := core % 256,
      slot := slot, gw := h.gw, regs := h.regs, regsCopy := h.regsCopy, regsEpi := h.regsEpi, nCopy := h.nCopy, nEpi := h.nEpi,
      scratch := h.scratch, tiles := h.tiles, priv := priv, strict := strict, threads := newThreads h entry, s := regs,
      nextBound := h.gangs, since := s.cycle, sawBin := (coreOf s core).mb != 0 }] }

/-- The table number that holds the nodes of a crew that is away (R245). -/
def savedTable (uid : Nat) : Nat := 1024 + uid

/-- Nodes and tile requests of a crew carried to a table: requests go back to the queue as they stand at their interruption points, and nothing of them is redone (R245). (DEDUCED, log entry 74) -/
def carryNodes (s : State) (uid core : Nat) : State :=
  { s with
    nodes := s.nodes.map fun n => if n.crew = uid then { n with core := core } else n
    tileReqs := s.tileReqs.map fun r =>
      if r.crew != uid then r
      else if r.phase == .running || r.phase == .aside then { r with core := core, phase := .queued, front := true }
      else { r with core := core } }

/-- Whether a table has free the slot of each node of a crew, and ordinary crews keep within their share (R245, R248). -/
def nodesFit (s : State) (c : Crew) (core : Nat) : Bool :=
  let mine := s.nodes.filter (·.crew == c.uid)
  let there := s.nodes.filter fun n => n.core == core && n.crew != c.uid
  mine.isEmpty || (mine.all (fun n => !there.any (·.slot == n.slot))
    && (c.isGen || (there.filter fun n => !((getCrew s n.crew).any Crew.isGen)).length + mine.length ≤ 60))

/-- Whether a crew that is away must be restored on the logical core it left (R245, R367). -/
def sameCoreOnly (c : Crew) : Bool := c.sawBin

/-- Whether a core can take a crew that is away. -/
def coreTakes (s : State) (c : Crew) (core : Nat) : Bool :=
  nodesFit s c core && (if c.isGen then (reservedSlot s core).isSome else coreHasRoom s core c.shape)

/-- The core that has room for a crew that is away: the one it left, or else the first of its die. -/
def roomyCore (s : State) (c : Crew) : Option Nat :=
  if coreTakes s c c.coreId then some c.coreId
  else if sameCoreOnly c then none
  else (List.range 256).map (256 * c.die + ·) |>.find? (coreTakes s c)

/-- Whether a crew's timer has reached its deadline (R361). -/
def timerReached (s : State) (c : Crew) : Bool := match c.timer with
  | some t => t.deadline.toNat ≤ (if t.wall then mget 0 s.cclk c.die else c.vclk).toNat
  | none => false

/-- A ring request that waits at its home is withdrawn: its thread executes the instruction again (R289). -/
def withdrawRing (s : State) (r : RingReq) : State :=
  let s1 := countUp { s with rings := s.rings.filter (·.id != r.id) } r.crew r.tid (r.op.count (· - 1))
  updT s1 r.crew r.tid fun t => { t with hold := match t.hold with
    | .ring i n d => if i = r.id then .none else .ring i n d
    | h => h }

/-- A crew leaves its core: its nodes are saved with it (R245), its waiting ring requests are withdrawn (R289), and a timer that is due already stays pending (R353). -/
def leaveCore (s : State) (uid : Nat) : State :=
  let s1 := (s.rings.filter fun r => r.crew == uid && r.op.waits).foldl withdrawRing s
  updCrew (carryNodes s1 uid (savedTable uid)) uid fun c => { c with where_ := .away, sluiceSince := none, timerDue := if timerReached s c then some (c.timerDue.getD false) else none }

/-- The tag slots of a crew's regions name the core that it is on (R207). -/
def retagCrew (s : State) (uid core : Nat) : State :=
  { s with tags := s.tags.map fun (k, t) => (k, { t with slots := t.slots.map fun x => match x.region with
      | .thread u _ _ => if u = uid then { x with core := core } else x
      | .engine _ => x }) }

/-- A crew restored on a core, which holds no L1 copies of its context: its logged results have been applied, those that waited at their sources reach it, and it issues again (R366, R370). A wall timer that fell due meanwhile fires late (R362). -/
def restoreOn (s : State) (uid core : Nat) : State :=
  match getCrew s uid with
  | none => s
  | some c =>
    let slot := ((if c.isGen then reservedSlot s core else ordinarySlot s core)).getD 0
    let s1 := updCrew s uid fun c => { c with
      where_ := .resident, core := core % 256, slot := slot, since := s.cycle, sluiceSince := none, taking := none, sawBin := (coreOf s core).mb != 0
      timerDue := if c.timer.any (·.wall) && timerReached s c && c.timerDue.isNone then some true else c.timerDue }
    settleDue (reindexSlots (carryNodes (retagCrew { s1 with
      replies := s1.replies.filter (·.crew != uid)
      lines := s1.lines.filter fun l => !(l.kind == .l1 core && l.ctx == c.ctx) } uid core) uid core) uid core)

/-! ### Pre-emption (R366) -/

/-- A crew's pre-emption begins: the halt is broadcast, and its skid runs. -/
def beginTaking (s : State) (uid : Nat) (dest : Option Nat) : State :=
  updCrew s uid fun c => { c with taking := some { since := s.cycle, dest := dest }, switchSkid := [], switchStopped := [] }

/-- Whether a crew may be taken off its core: it is resident, and no halt of it is under way. -/
def mayTake (s : State) (c : Crew) : Bool := c.where_ == .resident && c.halt.isNone && c.taking.isNone && !ctxOff s c.ctx

/-- Whether nothing of a crew's own moves any more: its loads and the ring requests that are served at arrival have returned, and its sequencer stands at interruption points (R245, R352). -/
def crewStill (s : State) (c : Crew) : Bool :=
  s.loads.all (·.crew != c.uid) && s.rings.all (fun r => r.crew != c.uid || r.op.waits || r.op == .popa)
    && s.tileReqs.all fun r => r.crew != c.uid || r.phase != .running || r.atPoint

end Sys2Proof.Machine
end

