-- ==== Sys2Proof/Machine/Memory.lean ====
section
/-! DEFINITION. The meanings of the memory instructions: `ld`, `st`, `ldx`, `stx`, `pref`, `cctl` and `mig` (R174–R179). -/

namespace Sys2Proof.Machine

/-! ### Loads and stores (R174, R175) -/

/-- Width in bytes of the memory modifier (R56). -/
def memWidth (a : Args) : Nat := 2 ^ bitsOf a.m.toNat 7 5

/-- Registers that hold a datum of a width. -/
def memRegs (w : Nat) : Nat := max 1 (w / 4)

def memStrong (a : Args) : Bool := bitAt a.m.toNat 4

def memPath (a : Args) : Path := { strong := memStrong a, policy := bitsOf a.m.toNat 3 2 }

/-- The accesses of class MO: each active thread at its effective address. -/
def moLanes (e : Env) (a : Args) (w : Nat) : List LaneAcc :=
  e.act.map fun t =>
    let ea := effAddr e.c t a
    { t := t, ea := ea, tgt := steer e.s e.c t.tid ea w }

/-- Atoms that the lanes of one instruction cover whole, looked for only while some atom is poisoned (R372). -/
def coveredAtoms (s : State) (ls : List Ready') : List Nat :=
  if !anyPoison s then []
  else wholeAtoms (ls.flatMap fun l => l.2.flatMap fun p => (List.range p.len).map fun i => place s (p.key + i))

/-- The loads of an instruction. -/
def doLoad (e : Env) (a : Args) (ls : List LaneAcc) : Out :=
  let w := memWidth a
  memGate e { w := w, load := true, strong := memStrong a } ls fun s rs =>
    passAll e (!memStrong a) false (fun _ => loadLane e.c (memPath a) a.d (memRegs w))
      (fun t => onceS s.loads.length (if (memPath a).cached then fillRequests t e.c (rs.flatMap (·.2)) else t)) s rs

/-- The stores of an instruction. -/
def doStore (e : Env) (a : Args) (ls : List LaneAcc) : Out :=
  let w := memWidth a
  memGate e { w := w, store := true, strong := memStrong a } ls fun s rs =>
    passAll e (!memStrong a) true
      (fun wait => storeLane e.c e.is (memPath a) s.nextId (coveredAtoms s rs) (fun t => rd e.c t a.d (memRegs w)) wait) id s rs

/-- `ld` (R175). -/
def execLd (a : Args) (s : State) : Out := gangDo a.guard s fun e => doLoad e a (moLanes e a (memWidth a))

/-- `st` (R175). -/
def execSt (a : Args) (s : State) : Out := gangDo a.guard s fun e => doStore e a (moLanes e a (memWidth a))

/-! ### Loads and stores through a record (R176) -/

/-- Row and column of a thread. -/
def rowCol (c : Crew) (t : Thread) (a : Args) : Nat × Nat :=
  let v := match a.imm with
    | some i => i.toNat
    | none => rd c t a.b 1
  (bitsOf v 31 16, bitsOf v 15 0)

/-- The element checks: reasons 8 and 7, and the even column of a PX4 byte. (DEDUCED, log entry 58) -/
def elemBad (w : Nat) (r : Rec) (row col : Nat) : Option Nat :=
  let n := 2 * w / fmtHalves r.fmt
  if n < 1 then some 8
  else if r.rows ≤ row || r.cols < col + n then some 7
  else if r.fmt == 5 && (row * r.pitch + col) % 2 != 0 then some 3
  else none

/-- The accesses of `ldx` and `stx`, after the record and element checks. -/
def recLanes (e : Env) (a : Args) (k : List LaneAcc → Out) : Out :=
  let w := memWidth a
  let recs := e.act.map fun t => (t, recOf (rd e.c t a.a 4))
  let bad := recs.filter fun x => (recCheck e.s e.c x.2).isSome
  let trap := fun (r : Nat) (xs : List (Thread × Rec)) =>
    let tids := xs.map (·.1.tid)
    trapGang e (trapOf e.c tcBOUNDS r tids [laneField e.c tids])
  match bad.head?.bind fun x => recCheck e.s e.c x.2 with
  | some r => trap r bad
  | none =>
    let judge := fun x : Thread × Rec => let rc := rowCol e.c x.1 a; elemBad w x.2 rc.1 rc.2
    let off := recs.filter fun x => (judge x).isSome
    match off.head?.bind judge with
    | some r => trap r off
    | none => k (recs.map fun (t, r) =>
        let rc := rowCol e.c t a
        let o := r.elemOff (rc.1 * r.pitch + rc.2)
        { t := t, ea := r.address e.s e.c o, tgt := r.target e.s e.c o w, ro := r.ro })

/-- `ldx` (R176). -/
def execLdx (a : Args) (s : State) : Out := gangDo a.guard s fun e => recLanes e a (doLoad e a)

/-- `stx` (R176). -/
def execStx (a : Args) (s : State) : Out := gangDo a.guard s fun e => recLanes e a (doStore e a)

/-! ### `pref` (R177) -/

/-- A line brought into the remote-data cache, when another die homes it, and into a core's L1 (R169, R170). -/
def fetchLine (s : State) (c : Crew) (l1 : Bool) (p : Piece) : State :=
  (List.range 4).foldl (fun s i =>
    let sec := place s (p.key / 64 * 64 + 16 * i) / 16
    let s1 := if p.home.any (· != c.die) then fillSector s (.rdc c.die) c.ctx sec else s
    if l1 then fillSector s1 (.l1 c.coreId) c.ctx sec else s1) s

/-- The state of a compressed page's leaf: an expansion begins when it is EMPTY, and is the die's Quern's to do (R197). -/
def startExpansion (s : State) (ctx va key : Nat) (l : Leaf) : State :=
  if l.compressed && !l.busy && !(s.failed.any fun f => f.2.1 == ctx && f.2.2.1 == va / 2 ^ 21 * 2 ^ 21)
  then { homeWriteN s (key + 1) 1 ((homeByte s (key + 1)).toNat ||| 4) with
    expansions := s.expansions ++ [(bitsOf l.pa 39 38, ctx, va / 2 ^ 21 * 2 ^ 21)] }
  else s

/-- One thread's `pref` once its leaf is found: sub-op 0 `.l1`, 1 `.l2`, 2 `.touch`. A leaf that does not let the device read there drops it, and counts. -/
def prefAct (c : Crew) (sub : Nat) (pin : Bool) (va : Nat) (x : TlbEntry) (pte : Nat) (s : State) : State :=
  let l := x.leaf
  if !l.read || !leafEgressOk s l (va - x.va) then telemetry s c.ctx telPrefDropped
  else if sub = 2 then
    if l.compressed then startExpansion s c.ctx va pte l
    else if l.proc then match (getCtx s c.ctx).bind (blockOf · va) with
      | some (r, i) => touchQuiet s c.toucher r i
      | none => s
    else s
  else if l.busy || l.compressed || readWaits s [(x.key va / 64 * 64, 64)] || (sliceWait s [(x.key va, 1)]).isSome then s
  else
    let p : Piece := { va := va, key := x.key va, len := 1, glob := true, home := if l.rn then none else some (homeDie (x.key va) (l.tier == 1)) }
    let s1 := fetchLine s c (sub == 0) p
    if pin then pinLines s1 c.ctx [p] else s1

/-- One thread's `pref`: it acts on a leaf that the core holds, or starts a walk, or joins one, and acts when that ends. -/
def prefLane (c : Crew) (sub : Nat) (pin : Bool) (s : State) (va : Nat) : State :=
  if inAperture s c.ctx va || 2 ^ 56 ≤ va then telemetry s c.ctx telPrefDropped
  else match heldLeaf s c.ctx c.die c.coreId va with
    | some x => prefAct c sub pin va x 0 s
    | none =>
      let (s1, id) := startWalk s c.ctx c.die c.coreId va true
      if s1.walks.any fun w => w.id == id && w.faulted then telemetry s1 c.ctx telPrefDropped
      else { s1 with walks := s1.walks.map fun w => if w.id = id then { w with prefs := w.prefs ++ [(c.uid, sub, pin, va)] } else w }

/-- `pref` (R177). -/
def execPref (a : Args) (s : State) : Out :=
  gangDo a.guard s fun e =>
    .next (retire e.is (e.act.foldl (fun s t =>
      prefLane e.c (bitsOf a.m.toNat 7 5) (bitsOf a.m.toNat 3 2 == 3) s (effAddr e.c t a).toNat) e.s))

/-! ### `cctl` (R178) -/

/-- The keys of a range of global addresses, page by page; unmapped pages are skipped. (DESIGN CHOICE, log entry 160) -/
def rangeRuns (s : State) (ctx die va len : Nat) : List (Nat × Nat) :=
  (List.range ((va % 4096 + len + 4095) / 4096)).filterMap fun i =>
    let lo := max va ((va / 4096 + i) * 4096)
    let hi := min (va + len) ((va / 4096 + i + 1) * 4096)
    if 2 ^ 56 ≤ lo then none
    else match walkNow s ctx die lo with
      | .leaf l log2 _ => some (TlbEntry.key { ctx := ctx, die := die, core := none, va := lo / 2 ^ log2 * 2 ^ log2, log2 := log2, leaf := l } lo, hi - lo)
      | _ => none

/-- Whether a 64-byte line, known by where it lies, meets some runs of bytes as translations name them. -/
def lineIn (s : State) (runs : List (Nat × Nat)) (line : Nat) : Bool :=
  let l := unplace s (64 * line) / 64
  runs.any fun r => r.1 / 64 ≤ l && l ≤ (r.1 + r.2 - 1) / 64

/-- The lines that a range form names: those of its mapped pages, but for the sluice-map lines of registered ranges (R178, R183). -/
def namedLine (s : State) (ctx die va len : Nat) : Nat → Bool :=
  let runs := rangeRuns s ctx die va len
  let maps := ((getCtx s ctx).map (·.ranges)).getD [] |>.flatMap fun r => rangeRuns s ctx die r.map (mapBytes r.blocks)
  fun line => lineIn s runs line && !lineIn s maps line

/-- Whether a run of addresses meets an enabled aperture window. -/
def runInAperture (s : State) (ctx va len : Nat) : Bool := (getCtx s ctx).any fun x =>
  [x.aperScr, x.aperSpan, x.aperStk].any fun v =>
    let base := bitsOf v.toNat 63 32 * 2 ^ 32
    bitAt v.toNat 0 && va < base + bitsOf v.toNat 31 24 * 2 ^ 32 && base < va + len

/-- Base and length of a thread's range. -/
def rangeOf (c : Crew) (t : Thread) (a : Args) : Nat × Nat :=
  (rd c t a.a 2, match a.imm with
    | some v => v.toNat
    | none => rd c t a.b 1)

/-- A counted request whose work is done and whose acknowledgement is still to come. -/
def issueAck (s : State) (c : Crew) (t : Thread) : State :=
  let s1 := countUp s c.uid t.tid fun k => { k with stores := k.stores + 1 }
  { s1 with
    stores := s1.stores ++ [{ id := s1.nextId, crew := c.uid, tid := t.tid, region := regionOf c.uid t, bytes := [], strong := false,
                              wait := .free, pc := 0, lane := c.lane t.tid, addr := 0, batch := s1.nextId, core := c.coreId, performed := true }]
    nextId := s1.nextId + 1 }

/-- The range forms: each active thread with a length other than 0 acts on the lines that its range names and raises its stores counter. -/
def cctlRange (a : Args) (s : State) (f : Crew → State → (Nat → Bool) → State) : Out :=
  gangDo a.guard s fun e =>
    let acts := e.act.filter fun t => (rangeOf e.c t a).2 != 0
    let bad := acts.filter fun t => runInAperture e.s e.c.ctx (rangeOf e.c t a).1 (rangeOf e.c t a).2
    if !bad.isEmpty then
      let tids := bad.map (·.tid)
      trapGang e (trapOf e.c tcBOUNDS 6 tids [laneField e.c tids] (BitVec.ofNat 64 ((bad.head?.map fun t => (rangeOf e.c t a).1).getD 0)))
    else .next (retire e.is (acts.foldl (fun s t =>
      let r := rangeOf e.c t a
      issueAck (f e.c s (namedLine s e.c.ctx e.c.die r.1 r.2)) e.c t) e.s))

/-- `cctl.inv.l1` (R178): once per instruction. -/
def execCctlInvL1 (a : Args) (s : State) : Out :=
  gangDo a.guard s fun e =>
    .next (retire e.is (if e.act.isEmpty then e.s
      else { e.s with lines := e.s.lines.filter fun l => l.kind != .l1 e.c.coreId }))

/-- Cached copies of named lines dropped from the caches that a test picks. -/
def dropNamed (s : State) (kind : CacheKind → Bool) (named : Nat → Bool) : State :=
  { s with lines := s.lines.filter fun l => !(kind l.kind && named (l.sector / 4)) }

/-- `cctl.inv.l1r` (R178). -/
def execCctlInvL1r (a : Args) (s : State) : Out :=
  cctlRange a s fun c s named => dropNamed s (· == .l1 c.coreId) named

/-- `cctl.wb.l2r` (R178): dirty lines go back to memory and stay valid. -/
def execCctlWbL2r (a : Args) (s : State) : Out :=
  cctlRange a s fun _ s named => { s with dirty := s.dirty.filter fun l => !named l }

/-- `cctl.inv.l2r` (R178): written back and invalidated in L2, pins with them, and in every remote-data cache. (DESIGN CHOICE, log entry 159) -/
def execCctlInvL2r (a : Args) (s : State) : Out :=
  cctlRange a s fun _ s named => dropNamed { s with
    dirty := s.dirty.filter fun l => !named l
    pinned := s.pinned.filter fun l => !named l } (fun k => match k with
      | .rdc _ => true
      | _ => false) named

/-- `cctl.inv.rdcr` (R178): the range leaves this die's remote-data cache. -/
def execCctlInvRdcr (a : Args) (s : State) : Out :=
  cctlRange a s fun c s named => dropNamed s (· == .rdc c.die) named

/-- `cctl.unpin` (R178). -/
def execCctlUnpin (a : Args) (s : State) : Out :=
  cctlRange a s fun _ s named => { s with pinned := s.pinned.filter fun l => !named l }

/-- A PRIV at the gang (R355). -/
def privTrap (e : Env) (op : Nat) : Out := trapGang e (trapOf e.c tcPRIV 0 (e.act.map (·.tid)) [{ off := 0, len := 2, val := op }])

/-- Whether `cctl.part` may run: the context's permission, and no other context's crew on the core. -/
def partAllowed (s : State) (c : Crew) : Bool :=
  (getCtx s c.ctx).any (·.bfpCtl) && s.crews.all fun d => d.where_ != .resident || d.coreId != c.coreId || d.ctx == c.ctx

/-- `cctl.part` (R178): threads wait for the change; re-executed after it, they write the count it left. (DEDUCED, log entry 54) -/
def execCctlPart (a : Args) (s : State) : Out :=
  gangDo a.guard s fun e =>
    let n := match a.imm with
      | some v => v.toNat
      | none => ((e.act.head?).map fun t => rd e.c t a.b 1).getD 0
    let fin := fun (v : Thread → Nat) =>
      .next (retire e.is (updCrew e.s e.is.crew fun c =>
        (applyWrs c (e.act.map fun t => (t.tid, Wr.reg a.d 1 (v t)))).mapT fun t => { t with result := if (e.act.map (·.tid)).contains t.tid then none else t.result }))
    if e.act.isEmpty then .next (retire e.is e.s)
    else if e.act.all (·.result.isSome) then fin fun t => t.result.getD 0
    else if !partAllowed e.s e.c then privTrap e 0x4D
    else if 8 < n then fin fun _ => 0xFFFFFFFF
    else
      let k := coreOf e.s e.c.coreId
      if k.change.isEmpty && n = k.mb then fin fun _ => 0
      else
        let tids := e.act.map (·.tid)
        let s1 := updCore e.s e.c.coreId fun k => { k with change := k.change ++ [{ mb := n, mark := e.s.nextId, who := some (e.is.crew, tids) }] }
        .next { holdGang s1 e.is.crew e.is.tids tids (.service 0) with issue := none }

/-! ### `mig` (R179) -/

/-- The home die of the page that a leaf maps, if it is this device's (R22). -/
def leafDie (l : Leaf) : Nat := if l.tier = 0 then bitsOf l.pa 39 38 else homeDie (hostKey l.pa) (l.tier == 1)

/-- The leaves of a 2 MiB page, each with its log2 and the key of its entry; none where a part is unmapped. -/
def pageLeaves (s : State) (ctx va : Nat) : Option (List (Leaf × Nat × Nat)) := match walkTree s ctx va with
  | .leaf _ log2 _ =>
    let parts := (List.range (2 ^ (21 - log2))).map fun i => match walkTree s ctx (va + i * 2 ^ log2) with
      | .leaf m n k => if n = log2 then some (m, n, k) else none
      | _ => none
    if parts.all Option.isSome then some (parts.filterMap id) else none
  | _ => none

/-- Whether a 2 MiB page is to be moved to a die: mapped here, not busy, its leaves not all homed there already, the device allowed to read all of it, no block FILLING; a compressed page stays. (DESIGN CHOICE, log entry 144) -/
def movable (s : State) (ctx va die : Nat) : Bool :=
  match pageLeaves s ctx va with
  | some ls =>
    ls.all (fun x => !x.1.busy && !x.1.rn && !x.1.compressed && leafEgressOk s x.1 0 && leafEgressOk s x.1 (2 ^ x.2.1 - 1))
      && !(ls.all fun x => leafDie x.1 == die)
      && ((getCtx s ctx).all fun c => c.ranges.all fun r => (List.range 32).all fun i =>
        let b := va + i * 65536
        !(r.base ≤ b && b < r.base + r.blocks * 65536 && blockState s ctx r ((b - r.base) / 65536) == stFilling))
  | none => false

/-- The die that a target code names for page `i` of a range (R179). -/
def targetDie (s : State) (c : Crew) (target i : Nat) : Nat :=
  if target < 4 then target
  else if target = 4 then c.die
  else match c.run.bind (getRun s) with
    | some r => (r.dies[i % r.dies.length]?).getD c.die
    | none => c.die

/-- The pages of a range, widened to 2 MiB boundaries, each with its die. -/
def rangePages (base len : Nat) (die : Nat → Nat) : List (Nat × Nat) :=
  let lo := base / 2 ^ 21
  let hi := (base + len + 2 ^ 21 - 1) / 2 ^ 21
  (List.range (if len = 0 then 0 else hi - lo)).filterMap fun i =>
    let va := (lo + i) * 2 ^ 21
    if va < 2 ^ 56 then some (va, die i) else none

/-- The pages of a range that a move is to move, each with its die. -/
def movePages (s : State) (ctx base len : Nat) (die : Nat → Nat) : List (Nat × Nat) :=
  (rangePages base len die).filter fun p => movable s ctx p.1 p.2

/-- One thread's range and target. -/
def migArgs (c : Crew) (t : Thread) (a : Args) : Nat × Nat × Nat := (rd c t a.a 2, rd c t a.b 2, rd c t a.c 1)

/-- `mig.hint` (R179): its pages are recorded for Millwright; at most 256 hints of a context are pending. -/
def execMigHint (a : Args) (s : State) : Out :=
  gangDo a.guard s fun e =>
    .next (retire e.is (e.act.foldl (fun s t =>
      let m := migArgs e.c t a
      if 5 < m.2.2 then telemetry s e.c.ctx telMoveDropped
      else if 256 ≤ ((getCtx s e.c.ctx).map (·.hints.length)).getD 0 then telemetry s e.c.ctx telHintDropped
      else match rangePages m.1 m.2.1 (targetDie s e.c m.2.2) with
        | [] => s
        | p :: ps => updCtx s e.c.ctx fun x => { x with hints := x.hints ++ [p :: ps] }) e.s))

/-- `mig.move` (R179): the copies counter is held until the last page has switched. -/
def execMigMove (a : Args) (s : State) : Out :=
  gangDo a.guard s fun e =>
    .next (retire e.is (e.act.foldl (fun s t =>
      let m := migArgs e.c t a
      if 5 < m.2.2 then telemetry s e.c.ctx telMoveDropped
      else
        let pages := movePages s e.c.ctx m.1 m.2.1 (targetDie s e.c m.2.2)
        if pages.isEmpty then s
        else
          let s1 := countUp s e.is.crew t.tid fun k => { k with copies := k.copies + 1 }
          { s1 with moves := s1.moves ++ [{ id := s1.nextId, ctx := e.c.ctx, pages := pages, who := some (e.is.crew, t.tid) }]
                    nextId := s1.nextId + 1 }) e.s))

end Sys2Proof.Machine
end

