-- ==== Sys2Proof/Machine/Sluice.lean ====
section
/-! DEFINITION. The meanings of the Sluice instructions: `pgen`, `pfill`, `pstat`, `pevict` and `ppin` (R181–R201). -/

namespace Sys2Proof.Machine

/-! ### Registration (R181–R183, R198) -/

/-- A registration record as read. -/
structure RegRecord where
  base : Nat
  blocks : Nat
  mode : Nat
  reclaim : Bool
  gen : Nat
  frame : Nat
  map : Nat
  threads : Nat
  regs : Nat
  scratch : Nat
  gang : Nat
  border : Nat
  deriving DecidableEq, Repr

/-- The record's fields from its 64 bytes as a number (R182). -/
def regRecordOf (v : Nat) : RegRecord :=
  { base := bitsOf v 63 0, blocks := bitsOf v 95 64, mode := bitsOf v 103 96, reclaim := bitAt v 104, gen := bitsOf v 191 128,
    frame := bitsOf v 255 192, map := bitsOf v 319 256, threads := bitsOf v 327 320, regs := bitsOf v 335 328, scratch := bitsOf v 351 336,
    gang := bitsOf v 359 352, border := bitsOf v 511 384 }

/-- Whether the record breaks R182 (code FF01): reserved fields, or a value outside its limits. (DEDUCED, log entry 70) -/
def regMalformed (v : Nat) : Bool :=
  let r := regRecordOf v
  2 ^ 56 ≤ r.base || r.base % 65536 != 0 || r.blocks == 0 || 2 ^ 24 < r.blocks || 2 ^ 56 < r.base + r.blocks * 65536
    || 2 ≤ r.mode || bitsOf v 111 105 != 0 || bitsOf v 127 112 != 0
    || r.gen % 8 != 0 || 2 ^ 56 ≤ r.gen || r.map % 64 != 0 || 2 ^ 56 < r.map + mapBytes r.blocks
    || r.threads == 0 || 64 < r.threads || r.regs % 8 != 0 || r.regs < 8 || 64 < r.regs
    || r.scratch % 64 != 0 || 16384 < r.scratch || !(r.gang == 32 || r.gang == 64) || bitsOf v 383 360 != 0

def rangesOf (s : State) (ctx : Nat) : List Range := ((getCtx s ctx).map (·.ranges)).getD []

/-- The lowest range number that is free. -/
def freeRange (rs : List Range) : Option Nat := (List.range 64).find? fun n => !(rs.any (·.num == n))

/-- Two runs of bytes overlap. -/
def runsMeet (a la b lb : Nat) : Bool := a < b + lb && b < a + la

/-- The leaves that cover a run of addresses, each with the first address of its page, log2 and entry key; none where one is missing. -/
def leavesFrom (s : State) (ctx stop : Nat) : Nat → Nat → Option (List (Leaf × Nat × Nat × Nat))
  | 0, _ => some []
  | n + 1, va =>
    if stop ≤ va then some []
    else match walkTree s ctx va with
      | .leaf l log2 k =>
        let page := va / 2 ^ log2 * 2 ^ log2
        (leavesFrom s ctx stop n (page + 2 ^ log2)).map fun rest => (l, page, log2, k) :: rest
      | _ => none

def coverLeaves (s : State) (ctx va len : Nat) : Option (List (Leaf × Nat × Nat × Nat)) :=
  leavesFrom s ctx (va + len) (len / 4096 + 2) va

/-- Whether a leaf may carry a range (R181). -/
def rangeLeafOk (l : Leaf) : Bool := l.tier != 2 && !l.rn && !l.compressed && l.read && l.write

/-- Whether a map's place is legal (R183): HBM pages with P = 0, clear of every range and every other map, the new range among them. -/
def mapOk (s : State) (ctx : Nat) (r : RegRecord) : Bool :=
  let len := mapBytes r.blocks
  (match coverLeaves s ctx r.map len with
    | some ls => ls.all fun l => l.1.tier == 0 && !l.1.rn && !l.1.compressed && !l.1.proc
    | none => false)
    && !runsMeet r.map len r.base (r.blocks * 65536)
    && (rangesOf s ctx).all fun q => !runsMeet r.map len q.base (q.blocks * 65536) && !runsMeet r.map len q.map (mapBytes q.blocks)

/-- The status of a registration: a failure code, or the number it takes (R198). (DESIGN CHOICE, log entry 155) -/
def regStatus (s : State) (ctx v : Nat) : Except Nat Nat :=
  let r := regRecordOf v
  if regMalformed v then .error 0xFFFFFF01
  else match freeRange (rangesOf s ctx) with
    | none => .error 0xFFFFFF02
    | some n =>
      if (rangesOf s ctx).any fun q => runsMeet r.base (r.blocks * 65536) q.base (q.blocks * 65536) then .error 0xFFFFFF03
      else if !((coverLeaves s ctx r.base (r.blocks * 65536)).any fun ls => ls.all fun l => rangeLeafOk l.1) then .error 0xFFFFFF04
      else if !mapOk s ctx r then .error 0xFFFFFF05
      else .ok n

/-- P written in some leaves, their cached copies dropped (R163). -/
def setLeavesP (s : State) (ctx : Nat) (ls : List (Leaf × Nat × Nat × Nat)) (p : Bool) : State :=
  let s1 := ls.foldl (fun s l =>
    let b := (homeByte s l.2.2.2).toNat
    let b1 := b - (if bitAt b 6 then 64 else 0) + (if p then 64 else 0)
    homeWrite s none [(l.2.2.2, BitVec.ofNat 8 b1)]) s
  { s1 with tlb := s1.tlb.filter fun e => !(e.ctx == ctx && ls.any fun l => runsMeet e.va (2 ^ e.log2) l.2.1 (2 ^ l.2.2.1)) }

/-- Bytes of a global run written with zero, through the tables. -/
def zeroRun (s : State) (ctx va len : Nat) : State :=
  let ks := (coverLeaves s ctx va len).getD [] |>.map fun l =>
    let lo := max va l.2.1
    (TlbEntry.key { ctx := ctx, die := 0, core := none, va := l.2.1, log2 := l.2.2.1, leaf := l.1 } lo, min (va + len) (l.2.1 + 2 ^ l.2.2.1) - lo)
  ks.foldl (fun s r => homeWriteN s r.1 r.2 0) s

/-- A range registered (R198): P in its leaves, its map zeroed, its number taken. -/
def registerRange (s : State) (ctx n v : Nat) : State :=
  let r := regRecordOf v
  let ls := (coverLeaves s ctx r.base (r.blocks * 65536)).getD []
  let s1 := setLeavesP s ctx (ls.filter fun l => !l.1.proc) true
  let s2 := zeroRun s1 ctx r.map (mapBytes r.blocks)
  updCtx s2 ctx fun c => { c with ranges := c.ranges ++ [{
    num := n, base := r.base, blocks := r.blocks, deferred := r.mode == 1, reclaim := r.reclaim, gen := BitVec.ofNat 64 r.gen,
    frame := BitVec.ofNat 64 r.frame, map := r.map, threads := r.threads, regs := r.regs, scratch := r.scratch, gang := r.gang,
    border := r.border }] }

/-- A status written to the D of a thread. -/
def putD (s : State) (uid tid : Nat) (d : Opnd) (v : Nat) : State := updCrew s uid fun c => wr c tid d 1 v

/-- A poisoned read by a lane: the crew's flag, and POISON at the next instruction when it is enabled (R372). -/
def lanePoison (s : State) (c : Crew) (tid : Nat) (ea : Word64) : State :=
  let s1 := setPoison s c.uid
  if (getCtx s c.ctx).any (·.poisonEn) then
    updT s1 c.uid tid fun t => { t with deferred := t.deferred ++ [{ code := tcPOISON, tids := [tid], lanes := laneMask c [tid], addr := ea, deferred := true, detail := [laneField c [tid]] }] }
  else s1

/-- The poison that a lane's read met, by the machine before it. -/
def lanePoisons (before s : State) (c : Crew) (l : Ready') : State := match poisonEa before l.1.ea l.2 with
  | some ea => lanePoison s c l.1.t.tid ea
  | none => s

/-- One lane's registration: the record it has read, and its status. -/
def regLane (a : Args) (c : Crew) (s : State) (l : Ready') : State :=
  let (s1, bs) := readPieces s c l.1.t.tid { strong := false, policy := 0 } l.2
  let s2 := lanePoisons s s1 c l
  match regStatus s2 c.ctx (bytesVal bs) with
  | .error k => putD s2 c.uid l.1.t.tid a.d k
  | .ok n => putD (registerRange s2 c.ctx n (bytesVal bs)) c.uid l.1.t.tid a.d n

/-- Threads that stay at the word and issue it again together, once all of them are ready. -/
def stayTogether (s : State) (uid : Nat) (tids : List Nat) : State := holdGang (leaveGang s uid tids) uid tids [] .none

/-- `pgen.reg` (R198): the record is a 64-byte load on the core path; each lane's request is made in order, so that a lane that stays at the word keeps those after it there. -/
def execPgenReg (a : Args) (s : State) : Out :=
  gangDo a.guard s fun e =>
    let ls := e.act.map fun t =>
      let ea := BitVec.ofNat 64 (rd e.c t a.a 2)
      ({ t := t, ea := ea, tgt := steer e.s e.c t.tid ea 64 } : LaneAcc)
    memGate e { w := 64, load := true, now := true } ls fun s rs =>
      let first := (ls.map (·.t.tid)).takeWhile fun i => rs.any (·.1.t.tid == i)
      let go := rs.filter fun l => first.contains l.1.t.tid
      let stay := (ls.map (·.t.tid)).filter fun i => !first.contains i
      .next (retireSome e.is (e.is.tids.filter fun i => !stay.contains i) (stayTogether (go.foldl (regLane a e.c) s) e.is.crew stay))

/-- Whether some block of a range is FILLING. -/
def anyFilling (s : State) (ctx : Nat) (r : Range) : Bool := (List.range r.blocks).any fun i => blockState s ctx r i == stFilling

/-- The valid leaves that cover a run of addresses; what is unmapped is passed over. -/
def validLeaves (s : State) (ctx stop : Nat) : Nat → Nat → List (Leaf × Nat × Nat × Nat)
  | 0, _ => []
  | n + 1, va =>
    if stop ≤ va then []
    else match walkTree s ctx va with
      | .leaf l log2 k =>
        let page := va / 2 ^ log2 * 2 ^ log2
        (l, page, log2, k) :: validLeaves s ctx stop n (page + 2 ^ log2)
      | _ => validLeaves s ctx stop n ((va / 4096 + 1) * 4096)

/-- A range removed (R198): P goes from the leaves that no other range covers, and the number is free. -/
def removeRange (s : State) (ctx : Nat) (r : Range) : State :=
  let others := (rangesOf s ctx).filter (·.num != r.num)
  let ls := validLeaves s ctx (r.base + r.blocks * 65536) (r.blocks * 16 + 2) r.base
  let mine := ls.filter fun l => !(others.any fun q => runsMeet l.2.1 (2 ^ l.2.2.1) q.base (q.blocks * 65536))
  updCtx (setLeavesP s ctx mine false) ctx fun c => { c with ranges := c.ranges.filter (·.num != r.num) }

/-- One lane's `pgen.unreg`: its status and the state, or nothing while it waits for FILLING blocks. -/
def unregLane (s : State) (c : Crew) (n : Nat) : Option (State × Nat) :=
  match (rangesOf s c.ctx).find? (·.num == n) with
  | none => some (s, 0xFFFFFF06)
  | some r =>
    let own := match c.kind with
      | .gen q _ _ _ => q == n
      | _ => false
    if own then some (s, 0xFFFFFF07)
    else if anyFilling s c.ctx r then none
    else some (removeRange s c.ctx r, 0)

/-- The lanes served in order up to the first that waits; their states and threads. -/
def unregLanes (a : Args) (e : Env) : List Thread → State → State × List Nat
  | [], s => (s, [])
  | t :: ts, s => match unregLane s e.c (rd e.c t a.a 1) with
    | none => (s, [])
    | some (s1, v) =>
      let (s2, done) := unregLanes a e ts (putD s1 e.is.crew t.tid a.d v)
      (s2, t.tid :: done)

/-- `pgen.unreg` (R198): lanes that must wait for a FILLING block stay at the word, and so do those after them. (DEDUCED, log entry 66) -/
def execPgenUnreg (a : Args) (s : State) : Out :=
  gangDo a.guard s fun e =>
    let (s1, done) := unregLanes a e e.act e.s
    let stay := (e.act.map (·.tid)).filter fun i => !done.contains i
    .next (retireSome e.is (e.is.tids.filter fun i => !stay.contains i) (stayTogether s1 e.is.crew stay))

/-! ### `pfill` (R189, R199) -/

/-- Raises PRIV outside a generator crew (R199). -/
def inGenerator (e : Env) (k : Nat → Nat → Out) : Out := match e.c.kind with
  | .gen r b _ _ => k r b
  | _ => if e.act.isEmpty then .next (retire e.is e.s) else privTrap e 0x51

/-- The scope at which a fill of a block is synchronised: device, or system for a block in CXL memory (R189). -/
def fillScope (s : State) (ctx r i : Nat) : Nat :=
  if ((rangesOf s ctx).find? (·.num == r)).any fun q => farAt s ctx (q.blockVa i) then 3 else 2

/-- `pfill` (R199): each active thread arrives; the arrival is a release and ends its region (R189). -/
def execPfill (a : Args) (s : State) : Out :=
  gangDo a.guard s fun e => inGenerator e fun r b => withRelease (fillScope e.s e.c.ctx r b) e fun e =>
    let mark := e.s.nextId
    .next (retire e.is (updCrew e.s e.is.crew (·.mapT fun t =>
      if (e.act.map (·.tid)).contains t.tid then
        { t with pfillAt := some (t.pfillAt.getD mark), region := t.region + 1 } else t)))

/-- `pfill.fail` (R199): a block still FILLING becomes FAILED with the code of the lowest active lane. -/
def execPfillFail (a : Args) (s : State) : Out :=
  gangDo a.guard s fun e => inGenerator e fun r b =>
    match e.act.head? with
    | none => .next (retire e.is e.s)
    | some t =>
      .next (retire e.is (if stillFills e.s e.c then failBlock e.s e.c.ctx r b 2 (rd e.c t a.a 1) 0 0 0 else e.s))

/-! ### `pstat` (R200) -/

/-- State of a compressed page. (DEDUCED, log entry 67) -/
def pageState (s : State) (ctx va : Nat) (l : Leaf) (log2 : Nat) : Nat :=
  if s.failed.any fun f => f.2.1 == ctx && f.2.2.1 == va / 2 ^ log2 * 2 ^ log2 then stFailed
  else if l.busy then stFilling else stEmpty

/-- The word `pstat` gives for an address, or the walk it needs. -/
def pstatWord (s : State) (c : Crew) (ea : Nat) : Option Nat :=
  let none' := some 0x8000
  if inAperture s c.ctx ea || 2 ^ 56 ≤ ea then none'
  else match (getCtx s c.ctx).bind (blockOf · ea) with
    | some (r, i) => some (blockState s c.ctx r i + 4 * (blockPinned s c.ctx r i).toNat + 8 * r.deferred.toNat + 256 * r.num)
    | none => match heldLeaf s c.ctx c.die c.coreId ea with
      | some x => if x.leaf.compressed then some (0x4000 + pageState s c.ctx ea x.leaf x.log2) else none'
      | none => match walkTree s c.ctx ea with
        | .leaf l log2 _ => if l.compressed then some (0x4000 + pageState s c.ctx ea l log2) else none
        | _ => none'

/-- `pstat` (R200): lanes whose address needs a walk park; the others read the state at the map's home. -/
def execPstat (a : Args) (s : State) : Out :=
  gangDo a.guard s fun e =>
    let ls := e.act.map fun t =>
      let ea := rd e.c t a.a 2
      (t, ea, pstatWord e.s e.c ea)
    let s1 := ls.foldl (fun s l => match l.2.2 with
      | some v => issueLoad s e.is.crew l.1.tid a.d 1 v none []
      | none => parkWalk s e.c l.1.tid l.2.1) e.s
    let go := (ls.filter (·.2.2.isSome)).map (·.1.tid)
    .next (retireSome e.is (e.is.tids.filter fun i => !(e.act.map (·.tid)).contains i || go.contains i) (onceS e.s.loads.length s1))

/-- `pstat.fault` (R200): the range's last-fault word, or RANGE 0xFFFF when there is no such range. -/
def execPstatFault (a : Args) (s : State) : Out :=
  gangDo a.guard s fun e =>
    .next (retire e.is (onceS e.s.loads.length (e.act.foldl (fun s t =>
      let v := match (rangesOf s e.c.ctx).find? (·.num == rd e.c t a.a 1) with
        | some r => r.lastFault
        | none => 0xFFFF
      issueLoad s e.is.crew t.tid a.d 4 v none []) e.s)))

/-! ### Eviction and pins (R195, R196, R201) -/

/-- Whether a byte of memory belongs to the 64 KiB from a key, migrated lines among them. -/
def inBlock (s : State) (base k : Nat) : Bool :=
  (base ≤ k && k < base + 65536) || s.migs.any fun m =>
    m.newKey ≤ k && k < m.newKey + 2 ^ 21 && (let i := k - m.newKey
      let o := m.olds.getD (i / m.piece) 0 + i % m.piece
      base ≤ o && o < base + 65536)

/-- The context's cached copies of a block dropped (R189, R195). -/
def dropBlock (s : State) (ctx : Nat) (r : Range) (i : Nat) : State :=
  match mapKey s ctx (r.blockVa i) with
  | some k => dropCopies s ctx (inBlock s k)
  | none => s

/-- Dirty lines of a block discarded: what their memory then holds is a free value (R195). -/
def loseDirty (s : State) (ctx : Nat) (r : Range) (i : Nat) : State :=
  match mapKey s ctx (r.blockVa i) with
  | none => s
  | some k =>
    let mine := s.dirty.filter fun l => inBlock s k (64 * l)
    let ks := mine.flatMap fun l => (List.range 64).map (64 * l + ·)
    { s with
      mem := ks.foldl (fun m k => memPut m k (Config.lostByte k s.freeIdx)) s.mem
      freeIdx := s.freeIdx + 1
      dirty := s.dirty.filter fun l => !inBlock s k (64 * l) }

/-- FULL to EMPTY (R195). -/
def evictBlock (s : State) (ctx : Nat) (r : Range) (i : Nat) : State :=
  setBlockState (loseDirty (dropBlock s ctx r i) ctx r i) ctx r i stEmpty

/-- Whether a block overlaps a source region of an unforced tile node of the context (R186). -/
def blockWatched (s : State) (ctx : Nat) (r : Range) (i : Nat) : Bool :=
  s.nodes.any fun n => (getCrew s n.crew).any (·.ctx == ctx) && (n.watched s).any fun w => w.glob && runsMeet w.lo w.len (r.blockVa i) 65536

/-- One block under `pevict`: the state after, and whether it is counted (R186). -/
def evictOne (s : State) (ctx : Nat) (r : Range) (i : Nat) : State × Bool :=
  let st := blockState s ctx r i
  if st = stFull then
    if blockPinned s ctx r i || blockWatched s ctx r i then (s, false) else (evictBlock s ctx r i, true)
  else if st = stFailed then (setBlockState s ctx r i stEmpty, true)
  else (s, false)

/-- Blocks of registered ranges that a run of addresses overlaps, in ascending address order. -/
def blocksIn (s : State) (ctx va len : Nat) : List (Range × Nat) :=
  let xs := (rangesOf s ctx).filter fun r => 0 < len && runsMeet va len r.base (r.blocks * 65536)
  let byBase := xs.foldl (fun (acc : List Range) r => acc.filter (fun q => q.base < r.base) ++ [r] ++ acc.filter (fun q => r.base ≤ q.base)) []
  byBase.flatMap fun r =>
    let lo := (max va r.base - r.base) / 65536
    let hi := (min (va + len) (r.base + r.blocks * 65536) - r.base + 65535) / 65536
    (List.range (hi - lo)).map fun k => (r, lo + k)

/-- The act of each lane on the blocks of its range, in lane order: the stores counter is raised until the changes are made, and D receives the count. -/
def onBlocks (a : Args) (s : State) (f : State → Crew → Nat → Nat → State × Nat) : Out :=
  gangDo a.guard s fun e =>
    .next (retire e.is (onceS e.s.loads.length (e.act.foldl (fun s t =>
      let (s1, n) := f s e.c (rd e.c t a.a 2) (rd e.c t a.b 1)
      let s2 := issueAck s1 e.c t
      match a.d with
      | .none => s2
      | d => issueLoad s2 e.is.crew t.tid d 1 n none []) e.s)))

/-- Blocks acted on one after another, counting. -/
def countBlocks (f : State → Range → Nat → State × Bool) (s : State) (xs : List (Range × Nat)) : State × Nat :=
  xs.foldl (fun acc x =>
    let (s1, b) := f acc.1 x.1 x.2
    (s1, acc.2 + b.toNat)) (s, 0)

/-- `pevict` (R201): blocks, and failed compressed pages, of the range. -/
def execPevict (a : Args) (s : State) : Out :=
  onBlocks a s fun s c va len =>
    let (s1, n) := countBlocks (fun s r i => evictOne s c.ctx r i) s (blocksIn s c.ctx va len)
    let hit := fun f : Nat × Nat × Nat × Nat => f.2.1 == c.ctx && 0 < len && runsMeet va len f.2.2.1 (2 ^ 21)
    ({ s1 with failed := s1.failed.filter fun f => !hit f }, n + (((s1.failed.filter hit).map fun f => f.2.2.1).eraseDups).length)

/-- One block's pin bit set or cleared: whether it changed. -/
def pinOne (ctx : Nat) (b : Bool) (s : State) (r : Range) (i : Nat) : State × Bool :=
  (setPin s ctx r i b, blockPinned s ctx r i != b)

/-- `ppin.pin` (R201). -/
def execPpinPin (a : Args) (s : State) : Out := onBlocks a s fun s c va len => countBlocks (pinOne c.ctx true) s (blocksIn s c.ctx va len)

/-- `ppin.unpin` (R201). -/
def execPpinUnpin (a : Args) (s : State) : Out := onBlocks a s fun s c va len => countBlocks (pinOne c.ctx false) s (blocksIn s c.ctx va len)

end Sys2Proof.Machine
end

