-- ==== Sys2Proof/Machine/Device.lean ====
section
/-! DEFINITION. The device's own reads and writes of a context's memory, and the context descriptor (R349, R350). -/

namespace Sys2Proof.Machine

/-! ### The device's own reads and writes of a context's memory -/

/-- The keys of a run of virtual addresses for the device's own use; none where a page is missing, lacks the permission, or lies outside the egress windows. -/
def devKeys (s : State) (ctx va len : Nat) (store : Bool) : Option (List Nat) :=
  if 2 ^ 56 < va + len then none
  else
    let part := fun lo : Nat => match walkTree s ctx lo with
      | .leaf l log2 _ =>
        let page := lo / 2 ^ log2 * 2 ^ log2
        if l.compressed || !leafEgressOk s l (lo - page) || (if store then !l.write else !l.read) then none
        else some (TlbEntry.key { ctx := ctx, die := 0, core := none, va := page, log2 := log2, leaf := l } lo)
      | _ => none
    let ks := (List.range len).map fun i => part (va + i)
    if ks.all Option.isSome then some (ks.filterMap id) else none

/-- Whether an access of the device's own to a run of virtual addresses waits: a read, its walk's among them, for an atom that a fenced channel lacks (R167), or any access for a slice under repartition (R168). -/
def devHeld (s : State) (ctx va len : Nat) (store : Bool := false) : Bool :=
  (!s.hw.channels.isEmpty || !(shutSlices s).isEmpty) && (List.range ((va % 64 + len + 63) / 64)).any fun i =>
    let lo := va / 64 * 64 + 64 * i
    walkWaits s ctx lo || walkShut s ctx lo
      || (devKeys s ctx lo 1 store).any fun ks => (!store && readWaits s (ks.map (·, 1))) || (sliceWait s (ks.map (·, 1))).isSome

/-- Bytes the device reads for itself; none on a fault such as PAGE, PERM or poison. -/
def devRead (s : State) (ctx va len : Nat) : Option (List Byte) :=
  (devKeys s ctx va len false).bind fun ks => if ks.any (poisonedAt s) then none else some (ks.map (homeByte s))

/-- A number the device reads for itself. -/
def devNum (s : State) (ctx va len : Nat) : Option Nat := (devRead s ctx va len).map bytesVal

/-- Bytes the device writes for itself; none on a fault. -/
def devWrite (s : State) (ctx va : Nat) (bs : List Byte) : Option State :=
  (devKeys s ctx va bs.length true).bind fun ks =>
    if ks.any (poisonedAt s) then none else some (homeWrite s none (ks.zip bs))

/-- A number of `len` bytes the device writes for itself; nothing on a fault. -/
def devPut (s : State) (ctx va len v : Nat) : State := (devWrite s ctx va ((byteList 0 v len).map (·.2))).getD s

/-- A context's counts written to its telemetry area, which may lie in host memory (R349, R371). (DESIGN CHOICE, log entry 56) -/
def flushTelemetry (s : State) (ctx : Nat) : State := match getCtx s ctx with
  | none => s
  | some x => if x.telem = 0 then s else x.telemetry.foldl (fun s k => devPut s ctx (x.telem + 8 * (Config.telemWord k.1 % 8192)) 8 k.2) s

/-! ### The context descriptor (R349) -/

/-- Whether a run of addresses lies in HBM pages of this device. -/
def inHbm (s : State) (ctx va len : Nat) : Bool :=
  va + len ≤ 2 ^ 56 && (coverLeaves s ctx va len).any fun ls => ls.all fun l => l.1.tier == 0 && !l.1.rn

/-- Whether a run of addresses lies in HBM pages of this device or in host memory (R349). -/
def inHbmOrHost (s : State) (ctx va len : Nat) : Bool :=
  va + len ≤ 2 ^ 56 && (coverLeaves s ctx va len).any fun ls => ls.all fun l => (l.1.tier == 0 || l.1.tier == 2) && !l.1.rn

/-- The reset value of an aperture register that a context's creation installs for 0 (R155). -/
def aperDefault (v base : Nat) : Word64 := if v = 0 then BitVec.ofNat 64 base else BitVec.ofNat 64 v

/-- Whether an aperture value is legal by itself: its reserved bits are zero (R8), its SIZE is not 0, and an enabled window lies from 2^56 on (R155). -/
def aperShape (v : Word64) : Bool :=
  bitsOf v.toNat 23 1 == 0 && bitsOf v.toNat 31 24 != 0 && (!bitAt v.toNat 0 || 0x01000000 ≤ bitsOf v.toNat 63 32)

/-- Whether two enabled windows overlap. -/
def aperMeet (x y : Word64) : Bool :=
  bitAt x.toNat 0 && bitAt y.toNat 0 && runsMeet (bitsOf x.toNat 63 32) (bitsOf x.toNat 31 24) (bitsOf y.toNat 63 32) (bitsOf y.toNat 31 24)

/-- Three aperture values of which no two enabled windows overlap (R155). -/
def apersApart (x y z : Word64) : Bool := !aperMeet x y && !aperMeet x z && !aperMeet y z

/-- Three aperture values that a descriptor may hold (R155). -/
def apersOk (x y z : Word64) : Bool := aperShape x && aperShape y && aperShape z && apersApart x y z

/-- The context as a descriptor sets it (R349). -/
def descContext (c : Context) (v : Nat) : Context :=
  let part := fun k n : Nat => bitsOf v (8 * (k + n) - 1) (8 * k)
  let perms := part 52 4
  { c with
    xltRoot := BitVec.ofNat 64 (part 0 8), aperScr := aperDefault (part 8 8) 0xFF00000001000001
    aperSpan := aperDefault (part 16 8) 0xFE00000001000001, aperStk := aperDefault (part 24 8) 0xFD00000001000001
    trapPc := BitVec.ofNat 64 (part 32 8), trapRing := part 40 8, trapSlots := part 48 4, bfpCtl := bitAt perms 0, supOk := bitAt perms 1
    faultToHost := bitAt perms 2, svcToHost := bitAt perms 3, save := part 56 8, saveSize := part 64 8, replyLog := part 72 8
    svcRing := part 80 8, svcSlots := part 88 4, telem := part 96 8, loaded := true }

/-- Whether a descriptor breaks R349, given the context it would make. -/
def descBad (s : State) (c : Context) (v : Nat) : Bool :=
  let part := fun k n : Nat => bitsOf v (8 * (k + n) - 1) (8 * k)
  c.desc % 256 != 0 || c.trapPc.toNat % 8 != 0 || 2 ^ 56 ≤ c.trapPc.toNat || c.trapRing % 512 != 0 || c.trapSlots == 0 || 4096 < c.trapSlots
    || bitsOf (part 52 4) 31 4 != 0 || c.save % 65536 != 0 || c.replyLog % 4096 != 0 || c.svcRing % 4096 != 0 || c.svcSlots == 0
    || 1024 < c.svcSlots || part 92 4 != 0 || part 104 152 != 0 || bitsOf c.xltRoot.toNat 63 52 != 0 || c.xltRoot.toNat % 4096 != 0
    || !apersOk c.aperScr c.aperSpan c.aperStk
    || !inHbm s c.id c.trapRing (512 * c.trapSlots) || !inHbm s c.id c.save c.saveSize || !inHbm s c.id c.replyLog 262144
    || (c.svcRing != 0 && !inHbm s c.id c.svcRing (4096 * c.svcSlots)) || (c.telem != 0 && !inHbmOrHost s c.id c.telem 65536)

/-- Millwright reads the descriptor: its values are installed, or the context's queues stop (R349, R350). Its areas are sought in the tables that its own XLT_ROOT names. -/
def readDescriptor (s : State) (ctx : Nat) : State :=
  match getCtx s ctx with
  | none => s
  | some c => match devNum s ctx c.desc 256 with
    | none => updCtx s ctx fun c => { c with malformed := true }
    | some v =>
      let d := descContext c v
      if descBad (updCtx s ctx fun _ => d) d v then updCtx s ctx fun c => { c with malformed := true } else updCtx s ctx fun _ => d

/-- The descriptor, which a queue's block names, is read when the context is first mapped (R282, R349). -/
def loadContext (s : State) (ctx desc : Nat) : State :=
  if (getCtx s ctx).any (·.loaded) then s else readDescriptor (updCtx s ctx fun c => { c with desc := desc }) ctx

/-! ### Reports and spares (R373, R376) -/

/-- A report to the host or to a peer, by a number of the model's own. (DESIGN CHOICE, log entry 8) -/
def report (s : State) (kind : Nat) (v : List Nat) : State := { s with outbox := s.outbox ++ [(kind, v)] }

/-- A use of a spare recorded in a fuse; fuses are never unblown (R373, R376). -/
def blowFuse (s : State) (code : Nat) : State := { s with hw := { s.hw with fuses := s.hw.fuses ++ [code] } }

/-- A part with no spare left is retired with less capacity, and the host is told. -/
def partLost (s : State) (part : List Nat) : State := report s 6 part

end Sys2Proof.Machine
end

