-- ==== Sys2Proof/Machine/Images.lean ====
section
/-! DEFINITION. The save images of crews and of bin scratch, their writing to a context's save area and their reading back (R366–R368), and the trap record (R354). -/

namespace Sys2Proof.Machine

/-! ### What an image holds (R368) -/

/-- A size rounded up to 64 KiB. -/
def roundImage (n : Nat) : Nat := (n + 65535) / 65536 * 65536

/-- Bytes of a crew's save image, rounded up to 64 KiB (R368). -/
def imageSize (s : State) (c : Crew) : Nat :=
  let regs := (c.threads.map fun t => 64 + 4 * c.budget (c.hgang t.tid)).foldl (· + ·) 0
  let slots := (s.slots.filter (·.crew == c.uid)).length
  roundImage (8192 + regs + c.scratch + 65536 * c.tiles + 64 * slots)

/-- A 32-bit word as its bytes. -/
def wordLe (w : Word) : List Byte := (List.range 4).map fun i => w.extractLsb' (8 * i) 8

/-- Pairs of numbers, one after another. -/
def flatPairs (xs : List (Nat × Nat)) : List Nat := xs.flatMap fun x => [x.1, x.2]

/-- The control state of a thread (R104). -/
def controlWords (t : Thread) : List Nat :=
  [t.pc.toNat, t.meet.toNat, t.pass.toNat, t.link.toNat, t.live.toNat, (t.bound.map (· + 1)).getD 0, (t.queue.map BitVec.toNat).getD 0, t.age] ++ flatPairs t.arrivals

/-- What the header holds: the identifier that R369 keeps, barriers, meets, callee queues, tokens, requests, nodes and the timer, and the s registers. -/
def headerWords (s : State) (c : Crew) : List Nat :=
  [replyCrew c] ++ c.barriers.flatMap (fun b => [b.1, b.2.phase, (b.2.mode.map (· + 1)).getD 0] ++ b.2.arrived)
    ++ c.threads.flatMap (fun t => [t.tid, t.meet.toNat, (match t.hold with
      | .meet since => since + 1
      | _ => 0), (t.queue.map (·.toNat + 1)).getD 0])
    ++ c.tokens.flatMap (fun z => z.1 :: (match z.2 with
      | .nobody => [0]
      | .gang g => [1, g]
      | .seq g => [2, g]))
    ++ requestsOf s c.uid ++ ((s.nodes.filter (·.crew == c.uid)).flatMap fun n => [n.slot, n.seq, n.progress])
    ++ (match c.timer with
      | none => []
      | some t => [t.wall.toNat, t.deadline.toNat])
    ++ flatPairs (c.s.map fun r => (r.1, r.2.toNat))

/-- What 64 bytes hold of a ray-table slot. -/
def slotWords (x : RaySlot) : List Nat := [x.idx, x.tid, x.pc.toNat, x.scene.toNat, x.ctrl, x.ray, x.received, x.final.toNat]

/-- A part of an image whose layout is not given. -/
def openPart (kind len : Nat) (words : List Nat) : List Byte := (List.range len).map (Config.imageByte kind words)

/-- The v registers of a thread, as many as its role has. -/
def regBytes (c : Crew) (t : Thread) : List Byte := (List.range (c.budget (c.hgang t.tid))).flatMap fun r => wordLe (mget 0 t.v r)

/-- A crew's save image: header, control state and registers of each thread, scratchpad, accumulator tiles, ray slots (R368). (DEDUCED, log entry 36) -/
def crewImage (s : State) (c : Crew) : List Byte :=
  openPart 0 8192 (headerWords s c) ++ c.threads.flatMap (fun t => openPart 1 64 (controlWords t) ++ regBytes c t)
    ++ ((List.range c.scratch).map fun o => memByte s.mem (scrKey c.uid o))
    ++ ((List.range (16384 * c.tiles)).flatMap fun e => wordLe (mget 0 c.acc e))
    ++ (s.slots.filter (·.crew == c.uid)).flatMap fun x => openPart 2 64 (slotWords x)

/-! ### Its place and its writing -/

/-- The runs of a context's save area that images take: crews' and cores' bin scratch. -/
def imageRuns (s : State) (x : Context) : List (Nat × Nat) :=
  (s.crews.filter (·.ctx == x.id)).filterMap (fun c => c.image.map fun i => (i.1, roundImage i.2.length)) ++ x.bins.map fun b => (b.2.1, b.2.2)

/-- Where an image of some bytes goes: to the start of a gap of the save area that holds it, beside no other image; which gap is not given. (DESIGN CHOICE, log entry 35) -/
def imageBase (s : State) (ctx size : Nat) : Option Nat := (getCtx s ctx).bind fun x =>
  let used := imageRuns s x
  let fits := fun b : Nat => b + size ≤ x.save + x.saveSize && used.all fun u => b + size ≤ u.1 || u.1 + u.2 ≤ b
  match (x.save :: used.map fun u => u.1 + u.2).filter fits with
  | [] => none
  | [b] => some b
  | bs => bs[Config.freeWord s.freeIdx % bs.length]?

/-- The memory keys of `n` bytes of a save area, page by page; none for bytes that cannot be reached. -/
def imageKeys (s : State) (ctx base n : Nat) (store : Bool) : List (Option Nat) :=
  ((List.range (roundImage n / 65536)).flatMap fun i => match devKeys s ctx (base + 65536 * i) 1 store with
    | some (k :: _) => (List.range 65536).map fun j => some (k + j)
    | _ => List.replicate 65536 none).take n

/-- The writes of bytes to a context's save area, where they have a place. -/
def saveWrites (s : State) (ctx : Nat) (base : Option Nat) (bs : List Byte) : List (Nat × Byte) := match base with
  | none => []
  | some b => ((imageKeys s ctx b bs.length true).zip bs).filterMap fun (k, b) => k.map fun k => (k, b)

/-- The writes of a crew's image. -/
def imageWrites (s : State) (c : Crew) : List (Nat × Byte) := saveWrites s c.ctx (imageBase s c.ctx (imageSize s c)) (crewImage s c)

/-- A crew's image is written (R352, R368). -/
def saveImage (s : State) (c : Crew) : State :=
  let base := imageBase s c.ctx (imageSize s c)
  updCrew { homeWrite s none (imageWrites s c) with freeIdx := s.freeIdx + 1 } c.uid fun d => { d with image := base.map fun b => (b, crewImage s c) }

/-- Bytes of a core's bin scratch. -/
def binSize (s : State) (core : Nat) : Nat := (coreOf s core).mb * 2 ^ 20

/-- The writes of a core's bin scratch to the save area (R367). -/
def binWrites (s : State) (ctx core : Nat) : List (Nat × Byte) :=
  saveWrites s ctx (imageBase s ctx (binSize s core)) ((List.range (binSize s core)).map fun o => memByte s.mem (binKey core o))

/-- A core's bin scratch is written to the save area. -/
def saveBin (s : State) (ctx core : Nat) : State :=
  updCtx { homeWrite s none (binWrites s ctx core) with freeIdx := s.freeIdx + 1 } ctx fun x =>
    { x with bins := x.bins ++ (imageBase s ctx (binSize s core)).toList.map fun b => (core, b, binSize s core) }

/-! ### Its reading back (R367, R370) -/

/-- Bytes of the save area as they stand now; none for those that cannot be read. -/
def savedBytes (s : State) (ctx base n : Nat) : List (Option Byte) :=
  (imageKeys s ctx base n false).map fun k => k.bind fun k => if poisonedAt s k then none else some (homeByte s k)

/-- A byte read back: what the image holds now, unless a result of the reply log, which is applied after the reading, has changed it since the save. -/
def backByte (now saved : Byte) (mem : Option Byte) : Byte := if now = saved then mem.getD now else now

/-- 32-bit words of a run of bytes, into a map from key `k` on. -/
def wordsBack (m : SMap Word) (k : Nat) : Nat → List Byte → SMap Word
  | 0, _ => m
  | n + 1, bs => wordsBack (mput 0 m k (BitVec.ofNat 32 (bytesVal (bs.take 4)))) (k + 1) n (bs.drop 4)

/-- The threads' registers from an image, past its header. -/
def threadsBack (c : Crew) : List Thread → List Byte → List Thread × List Byte
  | [], bs => ([], bs)
  | t :: ts, bs =>
    let n := c.budget (c.hgang t.tid)
    let (more, rest) := threadsBack c ts (bs.drop (64 + 4 * n))
    ({ t with v := wordsBack t.v 0 n (bs.drop 64) } :: more, rest)

/-- A crew's registers, scratchpad and tiles read back from its image; the parts whose layout is not given stand as they were saved. (DESIGN CHOICE, log entry 37) -/
def imageBack (s : State) (c : Crew) : State := match c.image with
  | none => s
  | some (base, saved) =>
    let bs := List.zipWith (fun x m => backByte x.1 x.2 m) ((crewImage s c).zip saved) (savedBytes s c.ctx base saved.length)
    let (ts, rest) := threadsBack c c.threads (bs.drop 8192)
    let scr := ((List.range c.scratch).zip rest).map fun x => (scrKey c.uid x.1, x.2)
    updCrew { s with mem := memPutAll s.mem scr } c.uid fun d => { d with
      threads := ts, acc := wordsBack d.acc 0 (16384 * c.tiles) (rest.drop c.scratch), image := none }

/-- A core's bin scratch read back from the save area. -/
def binBack (s : State) (ctx : Nat) (b : Nat × Nat × Nat) : State :=
  let bs := savedBytes s ctx b.2.1 b.2.2
  { s with mem := memPutAll s.mem (((List.range b.2.2).zip bs).filterMap fun x => x.2.map fun v => (binKey b.1 x.1, v)) }

/-- Whether the reading back of a crew's image waits (R167, R168). -/
def imageHeld (s : State) (c : Crew) : Bool := c.image.any fun i => devHeld s c.ctx i.1 i.2.length

/-- The core on which a crew that is away can be restored now. -/
def restoreCore (s : State) (c : Crew) : Option Nat := if imageHeld s c then none else roomyCore s c

/-- A crew that is away restored on a core: its image is read back, and it is placed (R367). -/
def bringBack (s : State) (uid core : Nat) : State := match getCrew s uid with
  | none => s
  | some c => restoreOn (imageBack s c) uid core

/-! ### The trap record (R354) -/

/-- Entry g of SKID: the PC of the home gang's lowest live thread at the stop, its skid count, and whether it has a live thread. -/
def skidEntry (c : Crew) (skid : SMap Nat) (g : Nat) : Nat :=
  match (c.threads.filter fun t => t.live && c.hgang t.tid == g).map (·.tid) with
  | [] => mget 0 skid g * 2 ^ 56
  | ids => ((c.thread (leastOr 0 ids)).map fun t => t.pc.toNat % 2 ^ 56).getD 0 + mget 0 skid g * 2 ^ 56 + 2 ^ 63

/-- A crew at its stop: the entries of SKID are those of now. -/
def atItsStop (skid : SMap Nat) (c : Crew) : Crew := { c with stops := (List.range 32).map (skidEntry c skid) }

/-- FLAGS of a record. -/
def trapFlags (f : TrapInfo) : Nat := f.late.toNat + 2 * f.deferred.toNat + 4 * f.exited.toNat + 8 * f.crewLevel.toNat + 16 * f.nested.toNat

/-- The fields of a trap record. -/
def trapRecord (c : Crew) (h : Halt) (seq : Nat) : List PutField :=
  let f := h.trap
  [{ off := 0, len := 2, val := f.code }, { off := 2, len := 2, val := f.sub }, { off := 4, len := 1, val := trapFlags f },
   { off := 5, len := 1, val := f.kind2 }, { off := 6, len := 1, val := 1 }, { off := 7, len := 1, val := 0 }, { off := 8, len := 8, val := h.pc.toNat },
   { off := 16, len := 4, val := c.num.toNat }, { off := 20, len := 2, val := c.hgang (leastOr 0 f.tids) }, { off := 22, len := 2, val := c.coreId },
   { off := 24, len := 8, val := f.lanes }, { off := 32, len := 8, val := gangMask c (if f.exited then f.tids else f.gang) }, { off := 40, len := 8, val := h.vclk.toNat },
   { off := 48, len := 8, val := f.addr.toNat }, { off := 56, len := 8, val := seq }, { off := 64, len := 192, val := 0 }]
  ++ f.detail.map (fun d => { d with off := 64 + d.off }) ++ f.extra.map (fun d => { d with off := 224 + d.off })
  ++ (List.range 32).map fun g => { off := 256 + 8 * g, len := 8, val := c.stops.getD g 0 }

/-- Bytes of fields laid over zeros, a later field over an earlier one. -/
def fieldBytes (len : Nat) (fs : List PutField) : List Byte :=
  (List.range len).map fun i => match (fs.filter fun f => f.off ≤ i && i < f.off + f.len).getLast? with
    | some f => BitVec.ofNat 8 (f.val / 2 ^ (8 * (i - f.off)))
    | none => 0

/-- A crew's trap record as the number that its bytes form. -/
def recordNum (c : Crew) (h : Halt) (seq : Nat) : Nat := bytesVal (fieldBytes 512 (trapRecord c h seq))

end Sys2Proof.Machine
end

