-- ==== Sys2Proof/Machine/MemEvents.lean ====
section
/-! DEFINITION. The events of the memory hierarchy: loads and stores that complete, walks and their replies, invalidations, migrations, repartitions, and the waits of the race check (R162–R168, R175, R208, R209). -/

namespace Sys2Proof.Machine

/-! ### Loads and stores that complete (R175) -/

/-- Whether a read of an atom, admitted with a number, waits at a fenced channel (R167). -/
def channelWaits (s : State) (id atom : Nat) : Bool :=
  let ch := mget default s.hw.channels (channelOf atom)
  ch.phase == .fenced && ch.fence ≤ id && !ch.present.contains atom

/-- A POISON for a thread, taken at its next instruction (R372). -/
def poisonTrap (c : Crew) (tid : Nat) (addr : Word64) : TrapInfo :=
  { code := tcPOISON, tids := [tid], lanes := laneMask c [tid], addr := addr, deferred := true, detail := [laneField c [tid]] }

/-- The registers that a completed load writes; an s register is the crew's. The results of a thread that has exited are discarded (R123). -/
def writeLoad (l : PendingLoad) (c : Crew) : Crew :=
  let alive := (c.thread l.tid).any (·.live)
  Crew.upd { c with s := if alive then l.sdst.foldl (fun m w => mput 0 m w.1 w.2) c.s else c.s } l.tid fun t =>
    let t1 := if t.live then { t with v := l.vdst.foldl (fun m w => mput 0 m w.1 w.2) t.v } else t
    let t2 := match l.pred with
      | some (k, b) => if t.live then wp t1 k b else t1
      | none => t1
    { t2 with cnt := { t2.cnt with loads := t2.cnt.loads - (if l.counts then 1 else 0) } }

/-- The loads that remain once one has completed: where its thread is live its batch's s registers are written, and no other load of the batch writes them again (R50). -/
def loadsAfter (s : State) (l : PendingLoad) : List PendingLoad :=
  let wrote := l.batch != 0 && (getCrew s l.crew).any fun c => (c.thread l.tid).any (·.live)
  (s.loads.filter (·.id != l.id)).map fun q => if wrote && q.batch == l.batch then { q with sdst := [] } else q

/-- LOAD_COMPLETE (R175): the destination is written and the loads counter lowered; poison is due at the next instruction (R372). (DEDUCED, log entry 44) -/
def execLoadComplete (ld : Nat) (s : State) : Out :=
  match s.loads.find? (·.id == ld) with
  | none => .next s
  | some l =>
    if l.atoms.any (channelWaits s l.id) then .next s
    else
      let s1 := { updCrew s l.crew (writeLoad l) with loads := loadsAfter s l }
      match l.poison, getCrew s l.crew with
      | some a, some c =>
        if (getCtx s c.ctx).any (·.poisonEn) then
          .next (updT s1 l.crew l.tid fun t => if t.live then { t with deferred := t.deferred ++ [poisonTrap c l.tid a] } else t)
        else .next s1
      | _, _ => .next s1

/-- STORE_ACK (R175): the store is performed at its home, in order with its thread's and its instruction's stores to the granule, and acknowledged. (DEDUCED, log entry 62) -/
def execStoreAck (st : Nat) (s : State) : Out :=
  match s.stores.find? (·.id == st) with
  | none => .next s
  | some p =>
    if p.wait != .free || (!p.performed && storeBlocked s p) then .next s
    else
      let s1 := if p.performed then s else performStore s p
      let s2 := { s1 with stores := s1.stores.filter (·.id != st) }
      .next (countUp s2 p.crew p.tid fun k => { k with stores := k.stores - 1 })

/-! ### Writes that wait at their homes (R208, R209) -/

/-- A thread held with its write moves past the word. -/
def passWrite (s : State) (p : PendingStore) : State :=
  updCrew s p.crew fun c => match c.thread p.tid with
    | some t => if t.hold == .write p.id then moveTo [p.tid] (fun _ => p.pc + 8) c else c
    | none => c

/-- A store withdrawn because it raised RACE: not performed, not counted. -/
def withdraw (s : State) (p : PendingStore) : State :=
  let s1 := { s with stores := s.stores.filter (·.id != p.id) }
  let s2 := countUp s1 p.crew p.tid fun k => { k with stores := k.stores - 1 }
  updT s2 p.crew p.tid fun t => if t.hold == .write p.id then { t with hold := .none } else t

/-- The RACE of a waiting write (R210). -/
def raceStore (s : State) (p : PendingStore) (info : TrapInfo) : State :=
  raise (withdraw s p) p.crew p.pc [p.tid] { info with tids := [p.tid], lanes := 2 ^ p.lane }

/-- The runs of bytes of a store. -/
def storeRuns (p : PendingStore) : List (Nat × Nat) := p.bytes.map fun w => (w.1, 1)

/-- The other lanes of a store's instruction that wait learn that it is performed (R210). -/
def noteDone (s : State) (p : PendingStore) : State :=
  { s with stores := s.stores.map fun q => if q.batch = p.batch ∧ q.wait != .free then { q with done := q.done ||| 2 ^ p.lane } else q }

/-- SHARED_WRITE_RELEASE (R208): the readers have ended, or a slot is free, and the write proceeds. -/
def execSharedWriteRelease (st : Nat) (s : State) : Out :=
  match s.stores.find? fun p => p.id == st && p.wait != .free with
  | none => .next s
  | some p => match getCrew s p.crew with
    | none => .next s
    | some c =>
      match raceRuns s { region := p.region, die := c.die, core := c.coreId } true (storeRuns p) with
      | (.ok s1, _) =>
        let s2 := { s1 with stores := s1.stores.map fun q => if q.id = st then { q with wait := .free } else q }
        let s3 := updT s2 p.crew p.tid fun t => { t with accessed := some t.region }
        .next (passWrite (noteDone s3 p) p)
      | (.conflict sl, k) =>
        let off := k - (p.bytes.head?.map (·.1)).getD k
        .next (raceStore s p (conflictTrap s sl (p.addr + BitVec.ofNat 64 off) k 1 true p.done (2 ^ p.lane)))
      | (.wait _, _) => .next s

/-- The address of the first granule at which a waiting store conflicts, as the access named it (R210). -/
def waitAddr (s : State) (p : PendingStore) : Word64 :=
  let k := (p.bytes.head?.map (·.1)).getD 0
  p.addr - BitVec.ofNat 64 (k % 4) + BitVec.ofNat 64 (waitGranule s k p.bytes.length - k / 4 * 4)

/-- RACE_WAIT_EXPIRY (R209): the wait passes RACE_WAIT cycles, and the write raises RACE SHARED or CAPACITY. -/
def execRaceWaitExpiry (st : Nat) (s : State) : Out :=
  match s.stores.find? fun p => p.id == st && p.wait != .free with
  | none => .next s
  | some p => match (getCrew s p.crew).bind fun c => getCtx s c.ctx with
    | none => .next s
    | some x =>
      if p.waited ≤ x.raceWait then .next s
      else .next (raceStore s p (raceTrap (if p.wait == .shared then 2 else 3) (waitAddr s p) 1 0xFFFF 0xFFFF p.done (2 ^ p.lane)))

/-- QUIESCENCE_EPOCH_ADVANCE (R208): every region live on the die at the previous advance has ended. -/
def execQuiescenceEpochAdvance (die : Nat) (s : State) : Out :=
  if (mget [] s.hw.epochLive die).any (regionLive s) then .next s
  else .next { s with hw := { s.hw with
    epochs := mput 0 s.hw.epochs die (mget 0 s.hw.epochs die + 1)
    epochLive := mput [] s.hw.epochLive die (liveOn s die) } }

/-! ### Walks (R162) -/

/-- The threads parked for a reason, with their crews. -/
def parkedOn (s : State) (p : Park → Bool) : List (Crew × Thread) :=
  s.crews.flatMap fun c => (c.threads.filter fun t => match t.hold with
    | .parked k => p k
    | _ => false).map fun t => (c, t)

def onWalk (id : Nat) : Park → Bool
  | .walk i _ => i == id
  | _ => false

/-- The address for which a thread is parked. -/
def parkVa (t : Thread) : Nat := match t.hold with
  | .parked (.walk _ va) | .parked (.page va) => va
  | _ => 0

/-- Wakes a parked thread, with the trap it is to meet. A crew that is away gets it through its log: where that is full, a translation's result is dropped and the thread walks again, and any other stays at its source (R31, R370). -/
def wakeParkedOne (kind : Nat) (trap : Option TrapInfo) (s : State) (x : Crew × Thread) : State :=
  let (c, t) := x
  let f := trap.map fun f => if f.code == tcPAGE then { f with addr := BitVec.ofNat 64 (parkVa t) } else f
  if logBlocked s c && 2 < kind then
    { s with waiters := s.waiters ++ [{ ctx := c.ctx, die := c.die, block := none, va := parkVa t, who := .lanes c.uid [t.tid], due := true, fault := f }] }
  else
    updT (logReply s c kind t.tid (parkVa t) ((f.filter fun _ => kind == 4).map (·.detail) |>.getD [])) c.uid t.tid fun t =>
      { t with hold := .none, wakeTrap := if logBlocked s c then none else f }

/-- Several of them, in order. -/
def wakeParked (s : State) (ts : List (Crew × Thread)) (kind : Nat) (trap : Option TrapInfo) : State :=
  ts.foldl (wakeParkedOne kind trap) s

/-- Re-parks threads for another reason. -/
def repark (s : State) (ts : List (Crew × Thread)) (p : Park) : State := ts.foldl (fun s (c, t) => holdT s c.uid [t.tid] (.parked p)) s

/-- A PAGE (R162). -/
def pageTrap (sub : Nat) : TrapInfo := { code := tcPAGE, sub := sub, tids := [] }

/-- The `pref`s that wait for a walk's leaf act on it (R177). -/
def actPrefs (s : State) (w : Walk) (x : TlbEntry) (pte : Nat) : State :=
  w.prefs.foldl (fun s (u, sub, pin, va) => match getCrew s u with
    | some c => prefAct c sub pin va x pte s
    | none => s) s

/-- The `pref`s that wait for a walk that finds no leaf are dropped and counted (R177). -/
def dropPrefs (s : State) (w : Walk) : State := w.prefs.foldl (fun s _ => telemetry s w.ctx telPrefDropped) s

/-- Where a context's fault requests go: 0 Millwright's memory-management core, 1 the host (R162, R349). -/
def faultRoute (s : State) (ctx : Nat) : Nat := ((getCtx s ctx).map (·.faultToHost.toNat)).getD 0

/-- A walk that ended at an entry with V = 0 sends its fault request (R162). -/
def sendFault (s : State) (w : Walk) : State :=
  { dropPrefs s w with
    walks := s.walks.map fun x => if x.id = w.id then { x with faulted := true, busy := false, prefs := [] } else x
    outbox := s.outbox ++ [(1, [w.ctx, w.va, faultRoute s w.ctx])] }

/-- WALK_COMPLETE (R162, R197): a leaf is cached and the lanes wake; a busy leaf makes them wait until the entry is rewritten; a compressed page begins to expand; an invalid entry sends a fault request. (DEDUCED, log entry 161) -/
def execWalkComplete (walk : Nat) (s : State) : Out :=
  match s.walks.find? fun w => w.id == walk && !w.faulted with
  | none => .next s
  | some w =>
    let ts := parkedOn s (onWalk walk)
    let s0 := { s with walks := s.walks.filter (·.id != walk) }
    if walkWaits s w.ctx w.va || walkShut s w.ctx w.va || !(w.busy || hasWalker s w) then .next s
    else match walkTree s w.ctx w.va with
    | .malformed => .next (wakeParked (dropPrefs s0 w) ts 2 (some (pageTrap 3)))
    | .poisoned => .next (wakeParked (dropPrefs s0 w) ts 2 (some (pageTrap 4)))
    | .invalid => .next (if ts.isEmpty && w.engines.isEmpty then dropPrefs s0 w else sendFault s w)
    | .leaf l log2 k =>
      let page := w.va / 2 ^ log2 * 2 ^ log2
      let s1 := actPrefs s0 w { ctx := w.ctx, die := w.die, core := none, va := page, log2 := log2, leaf := l } k
      if l.compressed then
        match s.failed.find? fun f => f.2.1 == w.ctx && f.2.2.1 == page with
        | some f => .next (wakeParked s1 ts 4 (some (genFault 0xFFFF 5 f.2.2.2 page 0 0 0)))
        | none => .next (repark (if ts.isEmpty then s1 else startExpansion s1 w.ctx w.va k l) ts (.page page))
      else if l.busy then .next { s with walks := s.walks.map fun x => if x.id = walk then { x with busy := true } else x }
      else .next (wakeParked (fillTlb s1 w.ctx w.die w.core w.va l log2) ts 1 none)

/-- FAULT_REPLY_RESOLVED (R162): the lanes walk again when they wake. -/
def execFaultReplyResolved (walk : Nat) (s : State) : Out :=
  match s.walks.find? fun w => w.id == walk && w.faulted with
  | none => .next s
  | some _ => .next (wakeParked { s with walks := s.walks.filter (·.id != walk) } (parkedOn s (onWalk walk)) 1 none)

/-- FAULT_REPLY_UNRESOLVABLE (R162): each lane meets PAGE UNMAPPED when it re-executes, and each engine at its next step. -/
def execFaultReplyUnresolvable (walk : Nat) (s : State) : Out :=
  match s.walks.find? fun w => w.id == walk && w.faulted with
  | none => .next s
  | some w =>
    let s1 := { s with
      walks := s.walks.filter (·.id != walk)
      demandFaults := s.demandFaults ++ w.engines.map fun id => (id, { pageTrap 2 with addr := BitVec.ofNat 64 w.va }) }
    .next (wakeParked s1 (parkedOn s (onWalk walk)) 2 (some (pageTrap 2)))

/-! ### XLT_INV (R163) -/

/-- A legal write of XLT_INV with GO. -/
def xltInvOk (v : Word64) : Bool :=
  bitAt v.toNat 0 && bitsOf v.toNat 2 1 < 2 && bitsOf v.toNat 11 3 == 0 && bitsOf v.toNat 63 56 == 0

/-- Starts an invalidation; a write that is not legal is ignored (R8). -/
def startInv (s : State) (ctx : Nat) (v : Word64) : State :=
  if xltInvOk v then updCtx s ctx fun c => { c with xltInv := c.xltInv ++ [v] } else s

/-- XLT_INV (R163). (DEDUCED, log entry 51) -/
def execXltInv (ctx : Nat) (v : Word64) (s : State) : Out := .next (startInv s ctx v)

/-- Whether an invalidation names a cached entry of its context. -/
def invNames (v : Word64) (e : TlbEntry) : Bool := bitsOf v.toNat 2 1 == 1 || e.covers (bitsOf v.toNat 55 12 * 4096)

/-- Whether a context has stores that have not reached their homes. -/
def storesFlying (s : State) (ctx : Nat) : Bool := s.stores.any fun p => !p.performed && (getCrew s p.crew).any (·.ctx == ctx)

/-- XLT_INV_DONE (R163): no copy remains, and every access made with an old copy has reached its home. -/
def execXltInvDone (ctx : Nat) (s : State) : Out :=
  match getCtx s ctx with
  | none => .next s
  | some c =>
    if c.xltInv.isEmpty || storesFlying s ctx then .next s
    else .next { updCtx s ctx (fun c => { c with xltInv := [] }) with
      tlb := s.tlb.filter fun e => !(e.ctx == ctx && c.xltInv.any (invNames · e)) }

/-! ### Migration (R164, R179) -/

/-- The key of the entry that a walk reads at a level, following pointers. -/
def entryKeyFrom (s : State) (va stop : Nat) : Nat → Bool → Nat → Option Nat
  | level, g64, table =>
    let k := hbmKey (table + 8 * vaIndex level g64 va)
    if level = stop then some k
    else match level with
      | 0 => none
      | n + 1 =>
        let e := homeRead s k 8
        if bitAt e 0 && !bitAt e 1 && !pointerBad (n + 1) e then entryKeyFrom s va stop n (bitAt e 11) (bitsOf e 51 12 * 4096) else none

/-- The key of the level-1 entry of an address. -/
def level1Key (s : State) (ctx va : Nat) : Option Nat :=
  (getCtx s ctx).bind fun c => entryKeyFrom s va 1 4 false (bitsOf c.xltRoot.toNat 51 12 * 4096)

/-- The frames that hold a 2 MiB page now, in order, and the bytes of each. -/
def pageFrames (s : State) (ctx va : Nat) : Option (List Nat × Nat) := (pageLeaves s ctx va).map fun ls =>
  (ls.map fun x => TlbEntry.key { ctx := ctx, die := 0, core := none, va := va, log2 := x.2.1, leaf := x.1 } va,
    2 ^ ((ls.head?.map (·.2.1)).getD 21))

/-- A page leaves every request and every hint that asked to move it; a request with none left completes, a hint is no longer pending (R179). -/
def pageSettled (s : State) (ctx va : Nat) : State :=
  let moves := s.moves.map fun m => if m.ctx = ctx then { m with pages := m.pages.filter (·.1 != va) } else m
  let s1 := (moves.filter (·.pages.isEmpty)).foldl (fun s m => match m.who with
    | some (u, t) => countUp s u t fun k => { k with copies := k.copies - 1 }
    | none => s) s
  updCtx { s1 with moves := moves.filter fun m => !m.pages.isEmpty } ctx fun c =>
    { c with hints := (c.hints.map fun h => h.filter (·.1 != va)).filter fun h => !h.isEmpty }

/-- The die to which a page has been asked to go. -/
def askedDie (s : State) (ctx va : Nat) : Option Nat :=
  match s.moves.findSome? fun m => if m.ctx = ctx then (m.pages.find? (·.1 == va)).map (·.2) else none with
  | some d => some d
  | none => (getCtx s ctx).bind fun c => c.hints.findSome? fun h => (h.find? (·.1 == va)).map (·.2)

/-- Whether every line of a frame may be read: one in host or CXL memory lies in the egress windows (R376). -/
def frameEgressOk (s : State) (piece o : Nat) : Bool :=
  keySpace o != 1 || (List.range (piece / 64)).all fun i => egressOk s (keyOff o + 64 * i) && egressOk s (keyOff o + 64 * i + 63)

/-- MIGRATION_START (R164): a frame of the asked die is given and the move begins; with no frame, or a page that is not to move or that no access may reach (R376), the request passes over it (R179). -/
def execMigrationStart (ctx va frame : Nat) (s : State) : Out :=
  if va % 2 ^ 21 != 0 || s.migs.any (fun m => m.ctx == ctx && m.va == va) then .next s
  else match askedDie s ctx va with
    | none => .next s
    | some die =>
      if !movable s ctx va die then .next (pageSettled s ctx va)
      else if frame % 2 ^ 21 != 0 || 2 ^ 40 ≤ frame || bitsOf frame 39 38 != die then .next (telemetry (pageSettled s ctx va) ctx telNoFrame)
      else match pageFrames s ctx va with
        | none => .next (pageSettled s ctx va)
        | some (olds, piece) =>
          if !olds.all (frameEgressOk s piece) then .next (pageSettled s ctx va)
          else .next { s with migs := s.migs ++ [{ id := s.nextId, ctx := ctx, va := va, olds := olds, piece := piece, newKey := hbmKey frame }], nextId := s.nextId + 1 }

/-- The old key of line `i` of a migrating page. -/
def Migration.oldLine (m : Migration) (i : Nat) : Nat := m.olds.getD (64 * i / m.piece) 0 + 64 * i % m.piece

/-- The new leaf's entry: an HBM page at the new frame with the old page's permissions (R160). -/
def movedEntry (l : Leaf) (pa : Nat) : Nat :=
  3 + 64 * l.proc.toNat + 128 * l.read.toNat + 256 * l.write.toNat + 512 * l.exec.toNat + pa

/-- Whether a store has yet to reach one of a page's old frames. -/
def flyingTo (s : State) (m : Migration) : Bool :=
  s.stores.any fun p => !p.performed && p.bytes.any fun w => m.olds.any fun o => o ≤ w.1 && w.1 < o + m.piece

/-- Every line has moved: B is set in the page's leaves, and their cached copies go (R163, R164). -/
def shutPage (s : State) (m : Migration) : State :=
  let s1 := ((pageLeaves s m.ctx m.va).getD []).foldl (fun s x =>
    let b := (homeByte s (x.2.2 + 1)).toNat
    homeWriteN s (x.2.2 + 1) 1 (b ||| 4)) s
  { s1 with
    migs := s1.migs.map fun x => if x.id = m.id then { x with shut := true } else x
    tlb := s1.tlb.filter fun e => !(e.ctx == m.ctx && e.va < m.va + 2 ^ 21 && m.va < e.va + 2 ^ e.log2) }

/-- The new leaf is written, with the new PA and B clear: it replaces the level-0 table of a host or CXL page (R164). -/
def switchPage (s : State) (m : Migration) : State :=
  let s1 := { s with migs := s.migs.filter (·.id != m.id) }
  pageSettled (match level1Key s m.ctx m.va, (pageLeaves s m.ctx m.va).bind List.head? with
    | some k, some (l, _) => homeWriteN s1 k 8 (movedEntry l (keyOff m.newKey))
    | _, _ => s1) m.ctx m.va

/-- Whether a migrating page is still where it was when its move began. -/
def inPlace (s : State) (m : Migration) : Bool := (pageFrames s m.ctx m.va).any fun x => x.1 == m.olds

/-- MIGRATION_LINE_COPY (R164): the next line is locked, copied, and its moved bit set, and no cache holds what lay in its new frame before; after the last, the leaf is made busy and invalidated, and once every access made with an old translation is at its home, the page switches. (DEDUCED, log entry 52) -/
def execMigrationLineCopy (mig : Nat) (s : State) : Out :=
  match s.migs.find? (·.id == mig) with
  | none => .next s
  | some m =>
    if m.line < 32768 then
      let old := m.oldLine m.line
      let new := m.newKey + 64 * m.line
      let bs := homeBytes s old 64
      let s1 := { s with
        mem := memFill s.mem new bs
        lines := s.lines.filter fun l => l.sector / 4 != new / 64
        tags := mput default (mput default s.tags (new / 64) (mget default s.tags (old / 64))) (old / 64) default
        hw :=
          let h := noteWrites s.hw ((List.range 64).map (new + ·))
          if poisonedAt s old then { h with poison := (new / 64) :: h.poison } else h
        migs := s.migs.map fun x => if x.id = mig then { x with line := m.line + 1 } else x }
      .next s1
    else if !inPlace s m then .next (pageSettled { s with migs := s.migs.filter (·.id != mig) } m.ctx m.va)
    else if !m.shut then .next (shutPage s m)
    else if flyingTo s m then .next s
    else .next (switchPage s m)

/-! ### The bin floor (R168) -/

/-- BFP_SCR_WRITE (R168): the host's write starts the same change as `cctl.part`; a value above 8 is reserved. -/
def execBfpScrWrite (core : Nat) (v : Word) (s : State) : Out :=
  if 1024 ≤ core || 8 < v.toNat then .next s
  else .next (updCore s core fun k => { k with change := k.change ++ [{ mb := v.toNat, mark := s.nextId, who := none }] })

/-- BFP_WAYS.WAYS (R168). -/
def bfpWays (k : Core) : Nat := 16 - k.mb

/-- Whether a line lies in the ways that a change of a slice takes. Which they are is internal: it is left free. (DESIGN CHOICE, log entry 53) -/
def inTaken (s : State) (core : Nat) (line : Nat) : Bool := sliceOf line == core && Config.wayTaken line s.freeIdx

/-- The dirty lines that are written back as ways are taken, at most those that the ways hold. -/
def writtenBack (s : State) (core m n : Nat) : List Nat := (s.dirty.filter (inTaken s core)).take ((n - m) * 16384)

/-- BFP_CHANGE_COMPLETE (R168): once the transfers in flight are complete, the lines in the ways taken are written back and leave the cache, pins with them; the split takes effect, megabytes given up are discarded, and the threads that wait go on. -/
def execBfpChangeComplete (core : Nat) (s : State) : Out :=
  let k := coreOf s core
  match k.change with
  | [] => .next s
  | ch :: rest =>
    if binTransfers s core ch.mark then .next s
    else
      let same := ch.mb == k.mb
      let back := if k.mb < ch.mb then writtenBack s core k.mb ch.mb else []
      let s1 := { s with
        freeIdx := s.freeIdx + 1
        dirty := s.dirty.filter fun l => !back.contains l
        pinned := if k.mb < ch.mb then s.pinned.filter fun l => !inTaken s core l else s.pinned
        mem := if ch.mb < k.mb then s.mem.filter fun c => !(binKey core (ch.mb * 2 ^ 20) ≤ c.1 && c.1 < binKey core (2 ^ 24)) else s.mem
        crews := if ch.mb = 0 then s.crews else s.crews.map fun c => if c.where_ == .resident && c.coreId == core then { c with sawBin := true } else c }
      let s2 := updCore s1 core fun k => { k with mb := ch.mb, wb := if same then k.wb else back.length, change := rest }
      let s3 := match ch.who with
        | some (u, ts) => updCrew s2 u (·.mapT fun t => if ts.contains t.tid then
            { t with hold := .none, result := some (if same then 0 else back.length) } else t)
        | none => s2
      let free := rest.isEmpty
      .next { s3 with crews := s3.crews.map fun c => c.mapT fun t => if free && t.hold == .slice core then { t with hold := .none } else t }

end Sys2Proof.Machine
end

