-- ==== Sys2Proof/Machine/Runs.lean ====
section
/-! DEFINITION. Runs: launch records and their checks, the host queues with their doorbells and walker, ready queues, the retirement of pool entries and crews, and the completion and abort of a run (R272–R285, R358). -/

namespace Sys2Proof.Machine

/-! ### Launch records (R277, R278) -/

/-- A launch record from its 256 bytes as a number. -/
def launchOf (v : Nat) : Launch :=
  let byte := fun k : Nat => bitsOf v (8 * k + 7) (8 * k)
  let part := fun k n : Nat => bitsOf v (8 * (k + n) - 1) (8 * k)
  let used := (List.range 8).filterMap fun i =>
    let b := part (128 + 16 * i) 8
    if bitsOf b 63 56 = 0xFF then none else some (bitsOf b 55 0, part (136 + 16 * i) 8, bitsOf b 63 56)
  { entry := BitVec.ofNat 64 (part 0 8), cx := part 8 2, cy := part 10 2, cz := part 12 2, gang := byte 14, regs := byte 15,
    regsCopy := byte 16, regsEpi := byte 17, nCopy := byte 18, nEpi := byte 19, scratch := part 20 4, tiles := byte 24, stage := byte 25,
    spans := byte 26, strict := bitAt (byte 27) 0, sup := bitAt (byte 27) 1, dieMask := bitsOf (byte 28) 3 0, poolN := part 32 4,
    pool := part 40 8, stackBase := part 48 8, stackSize := part 56 4, args := (List.range 8).map fun i => BitVec.ofNat 64 (part (64 + 8 * i) 8),
    ranges := used
    reservedBad := bitsOf (byte 27) 7 2 != 0 || bitsOf (byte 28) 7 4 != 0 || part 29 3 != 0 || part 36 4 != 0 || part 60 4 != 0
      || part 0 8 % 8 != 0 || byte 7 != 0 || byte 47 != 0 || byte 55 != 0 || 16 ≤ byte 25 }

def Launch.product (l : Launch) : Nat := l.cx * l.cy * l.cz

/-- A role's budget; 0 means REGS. -/
def Launch.budget (l : Launch) (n : Nat) : Nat := if n = 0 then l.regs else n

/-- The shape of the run's crews (R274). -/
def Launch.shape (l : Launch) : CrewShape :=
  { threads := l.product, gw := l.gang, regs := l.regs, regsCopy := l.budget l.regsCopy, regsEpi := l.budget l.regsEpi,
    nCopy := l.nCopy, nEpi := l.nEpi, scratch := l.scratch, tiles := l.tiles }

def regsLegal (n : Nat) : Bool := n % 8 == 0 && 8 ≤ n && n ≤ 192

/-- Bits set in a mask of four. -/
def maskDies (m : Nat) : List Nat := (List.range 4).filter (bitAt m)

/-- The first failing check of R278, as its error number. -/
def launchError (s : State) (ctx : Nat) (l : Launch) : Option Nat :=
  let gangs := (l.product + l.gang - 1) / l.gang
  if l.reservedBad || (l.sup && !(getCtx s ctx).any (·.supOk)) then some 1
  else if l.entry == 0 || l.product == 0 || 1024 < l.product then some 2
  else if !(l.gang == 32 || l.gang == 64) || !regsLegal l.regs || !regsLegal (l.budget l.regsCopy) || !regsLegal (l.budget l.regsEpi)
      || l.regs < l.budget l.regsCopy || l.regs < l.budget l.regsEpi || gangs < l.nCopy + l.nEpi then some 3
  else if l.scratch % 64 != 0 || 229376 < l.scratch then some 4
  else if 16 < l.tiles then some 5
  else if l.spans == 0 || 4 < l.spans || (l.dieMask != 0 && (maskDies l.dieMask).length < l.spans) then some 6
  else if 16383 < l.poolN || (0 < l.poolN && (l.pool % 32 != 0 || 2 ^ 56 < l.pool + 32 * l.poolN)) then some 7
  else if l.stackSize % 256 != 0 || 2 ^ 56 < l.stackBase + 16384 * l.stackSize * 1024 then some 8
  else if l.ranges.any fun r => 2 ^ 56 ≤ r.1 + r.2.1 || 5 < r.2.2 then some 9
  else if !shapesFit [l.shape] then some 10
  else none

/-- The dies of a run's spans (R279). -/
def spanDies (s : State) (l : Launch) : List Nat :=
  if l.dieMask ≠ 0 then (maskDies l.dieMask).take l.spans
  else
    let pick := fun (taken : List Nat) =>
      ((List.range 4).filter fun d => !taken.contains d).foldl (fun (best : Option Nat) d => match best with
        | none => some d
        | some b => if freeSlots s b < freeSlots s d then some d else some b) none
    (List.range l.spans).foldl (fun taken _ => taken ++ (pick taken).toList) []

/-! ### Accesses of the device's own that wait -/

/-- The gang stays at its word as it stands, to issue it again. -/
def keepGang (e : Env) : Out := .next { holdGang e.s e.is.crew e.is.tids [] .none with issue := none }

/-- An instruction whose accesses through the device wait is tried again later (R167, R168). -/
def unlessHeld (e : Env) (held : Bool) (k : Out) : Out := if held then keepGang e else k

/-! ### Queue state blocks (R282) -/

def getQueue (s : State) (q : Nat) : Option HostQueue := s.queues.find? (·.q == q)

def updQueue (s : State) (q : Nat) (f : HostQueue → HostQueue) : State :=
  { s with queues := s.queues.map fun x => if x.q = q then f x else x }

/-- A field of a queue state block. -/
def qRead (s : State) (x : HostQueue) (off len : Nat) : Nat := (devNum s x.ctx (x.block + off) len).getD 0
def qWrite (s : State) (x : HostQueue) (off len v : Nat) : State := devPut s x.ctx (x.block + off) len v

def qPrio (s : State) (x : HostQueue) : Nat := bitsOf (qRead s x 12 1) 2 0
def qEnabled (s : State) (x : HostQueue) : Bool := bitAt (qRead s x 13 1) 2
def qError (s : State) (x : HostQueue) : Bool := bitAt (qRead s x 13 1) 3
def qSize (s : State) (x : HostQueue) : Nat := qRead s x 8 4

/-- Whether the device's accesses to a queue's state block wait (R167, R168). -/
def blockHeld (s : State) (x : HostQueue) : Bool := devHeld s x.ctx x.block 64

/-- The mapping state written to the slot and the block (R283). -/
def qState (s : State) (x : HostQueue) (st : Nat) : State :=
  updQueue (qWrite s x 13 1 (qRead s x 13 1 / 4 * 4 + st)) x.q fun y => { y with state := st }

/-- ERROR with its code; Millwright reports it to the host. -/
def setQError (s : State) (x : HostQueue) (code : Nat) : State :=
  let s1 := qWrite (qWrite s x 13 1 (qRead s x 13 1 ||| 8)) x 14 2 code
  { s1 with outbox := s1.outbox ++ [(2, [x.q, code])] }

/-- Commands complete in ring order advance DONE. -/
def advanceDone (s : State) (q : Nat) : State :=
  match getQueue s q with
  | none => s
  | some x =>
    let n := (x.started.takeWhile (·.2)).length
    let s1 := if n = 0 then s else qWrite s x 48 4 ((qRead s x 48 4 + n) % 2 ^ 32)
    updQueue s1 q fun y => { y with started := y.started.drop n }

/-- A command of a queue is complete. -/
def commandDone (s : State) (q cmd : Nat) : State :=
  advanceDone (updQueue s q fun y => { y with started := y.started.map fun c => if c.1 = cmd then (c.1, true) else c }) q

/-! ### The end of a run (R275, R276, R358) -/

/-- A run's completion reported to its queue: DONE and ACTIVE (R275). -/
def completeRun (s : State) (id : Nat) (st : RunState) : State :=
  match getRun s id with
  | none => s
  | some r =>
    let s1 := updRun s id fun r => { r with state := st }
    match r.queue.bind (getQueue s1) with
    | none => s1
    | some x => commandDone (qWrite s1 x 52 4 (qRead s1 x 52 4 - 1)) x.q r.cmd

/-- One retirement off the spawn-tree counter; at 0 the run is complete (R275). -/
def lowerCounter (s : State) (id : Nat) : State :=
  match getRun s id with
  | none => s
  | some r =>
    let s1 := updRun s id fun r => { r with counter := r.counter - 1 }
    if r.counter = 1 && r.state == .running then completeRun s1 id .complete else s1

/-- VA of a pool entry (R273). -/
def entryVa (r : Run) (i : Nat) : Nat := r.launch.pool + 32 * i

/-- Span of a record, from its SPAN field and the spawning crew's span; 5 takes the span with the most free slots (R280). -/
def recordSpan (s : State) (r : Run) (span own : Nat) : Nat :=
  if span = 4 then own
  else if span = 5 then
    (List.range r.dies.length).foldl (fun best j =>
      if freeSlots s (r.dies.getD best 0) < freeSlots s (r.dies.getD j 0) then j else best) 0
  else span

/-- A record enters its ready queue (R280). -/
def enqueue (s : State) (r : Run) (i : Nat) (span stage : Nat) : State :=
  let w := (devNum s r.ctx (entryVa r i) 8).getD 0
  { s with ready := s.ready ++ [{ run := r.id, span := recordSpan s r (bitsOf w 60 58) span, prio := bitsOf w 63 61, entry := some i, stage := stage }] }

/-- JOIN of an entry lowered by one at its home: its new value, when V = 1 and JOIN > 0. -/
def lowerJoin (s : State) (r : Run) (i : Nat) : Option (State × Nat) :=
  let v := bitAt ((devNum s r.ctx (entryVa r i) 1).getD 0) 0
  let j := (devNum s r.ctx (entryVa r i + 16) 4).getD 0
  if v && 0 < j then some (devPut s r.ctx (entryVa r i + 16) 4 (j - 1), j - 1) else none

/-- The stage and span that a record's spawn gave it. -/
def spawnedAs (r : Run) (i : Nat) : Nat × Nat := mget (0, 0) r.spawned i

/-- A record enters its queue when its JOIN has reached 0. -/
def enqueueSpawned (s : State) (r : Run) (i : Nat) : State := enqueue s r i (spawnedAs r i).2 (spawnedAs r i).1

/-- A pool entry retired (R276): V := 0, the successor's JOIN lowered, the counter lowered. -/
def retireEntry (s : State) (r : Run) (i : Nat) : State :=
  let va := entryVa r i
  let b := (devNum s r.ctx va 1).getD 0
  let succ := (devNum s r.ctx (va + 20) 4).getD 0xFFFFFFFF
  let s1 := devPut s r.ctx va 1 (b / 2 * 2)
  let s2 := if succ = 0xFFFFFFFF then s1
    else match lowerJoin s1 r succ with
      | none => updRun s1 r.id fun r => { r with telemetry := r.telemetry + 1 }
      | some (s2, j) => if j = 0 then enqueueSpawned s2 r succ else s2
  lowerCounter s2 r.id

/-- Whether an access to a pool entry waits (R167, R168). -/
def entryHeld (s : State) (r : Run) (i : Nat) : Bool := devHeld s r.ctx (entryVa r i) 32

/-- Whether the accesses that the retirement of a pool entry makes wait: to the entry, or to its successor. -/
def entryRetireHeld (s : State) (r : Run) (i : Nat) : Bool :=
  let succ := (devNum s r.ctx (entryVa r i + 20) 4).getD 0xFFFFFFFF
  entryHeld s r i || (succ != 0xFFFFFFFF && entryHeld s r succ)

/-- Whether the accesses that a run's next retirement makes for the device wait: those to its queue's block and, for a pool entry, to the entry and its successor (R167, R168). -/
def retireHeld (s : State) (r : Run) (entry : Option Nat) : Bool :=
  (r.queue.bind (getQueue s)).any (blockHeld s) || entry.any (entryRetireHeld s r)

/-! ### Crews that go -/

/-- Use counts of the slots of freed nodes raised (R233). -/
def freeNodes (s : State) (p : Node → Bool) : State :=
  let gone := s.nodes.filter p
  let s1 := gone.foldl (fun s n => if 1024 ≤ n.core then s else updCore s n.core fun k => { k with useCount := mput 0 k.useCount n.slot ((mget 0 k.useCount n.slot + 1) % 65536) }) s
  { s1 with nodes := s1.nodes.filter fun n => !p n }

/-- A crew taken out of the machine with everything that is only its own: nodes, tiles, scratchpad and requests. Stores already issued are performed. -/
def removeCrew (s : State) (uid : Nat) : State :=
  let s1 := (s.stores.filter fun p => p.crew == uid && !p.performed && p.wait == .free).foldl performStore s
  let s2 := freeNodes s1 fun n => n.crew == uid
  let mine := requestsOf s2 uid
  { s2 with
    crews := s2.crews.filter (·.uid != uid)
    mem := s2.mem.filter fun c => keySpace c.1 != 16384 + uid
    loads := s2.loads.filter (·.crew != uid)
    stores := s2.stores.filter (·.crew != uid)
    engineWaits := s2.engineWaits.filter (·.2.1 != uid)
    waiters := s2.waiters.filter fun w => match w.who with
      | .lanes u _ => u != uid
      | .engine id => !mine.contains id
      | .quiet .. => true
    wokenReqs := s2.wokenReqs.filter fun w => !mine.contains w.1
    tileReqs := s2.tileReqs.filter (·.crew != uid)
    flume := s2.flume.filter (·.crew != uid)
    rings := s2.rings.filter (·.crew != uid)
    colls := s2.colls.filter (·.crew != uid)
    querns := s2.querns.filter (·.crew != uid)
    rays := s2.rays.filter (·.crew != uid)
    slots := s2.slots.filter (·.crew != uid)
    pubs := s2.pubs.filter (·.crew != uid)
    walks := s2.walks.map fun w => { w with engines := w.engines.filter fun id => !mine.contains id }
    demandFaults := s2.demandFaults.filter fun f => !mine.contains f.1
    filters := s2.filters.filter (·.crew != uid)
    vis := s2.vis.filter (·.crew != uid)
    replays := s2.replays.filter (·.crew != uid)
    svc := s2.svc.filter (·.crew != uid)
    replies := s2.replies.filter (·.crew != uid)
    moves := s2.moves.map fun m => match m.who with
      | some (u, _) => if u = uid then { m with who := none } else m
      | none => m
    issue := match s2.issue with
      | some i => if i.crew = uid then none else s2.issue
      | none => none }

/-- VA of a record of TRAPRING. -/
def recordVa (x : Context) (rec : Nat) : Nat := x.trapRing + 512 * rec

/-- RSTATE := 2 in a record of TRAPRING (R357). -/
def closeRecord (s : State) (x : Context) (rec : Nat) : State := devPut s x.id (recordVa x rec + 6) 1 2

/-- The records that crews of a run still have open are closed: nothing will dispose of them any more (R358). (DEDUCED, log entry 158) -/
def closeRecords (s : State) (run : Nat) : State :=
  s.crews.foldl (fun u c => match c.halt, getCtx s c.ctx with
    | some h, some x => (match h.phase with
      | .posted rec _ => if c.run = some run then closeRecord u x rec else u
      | _ => u)
    | _, _ => u) s

/-- A run aborted (R358): its crews and handlers stop, its open records are closed, it completes, and its queue takes ERROR with code 19. Millwright passes the trap record, given as the number that its 512 bytes form, to the host. -/
def abortRun (s : State) (id : Nat) (record : Nat) : State :=
  match getRun s id with
  | none => s
  | some r =>
    if r.state == .complete || r.state == .aborted then s
    else
      let gone := (s.crews.filter fun c => c.run == some id).map (·.uid)
      let s1 := gone.foldl removeCrew (closeRecords s id)
      let s2 := { s1 with ready := s1.ready.filter (·.run != id), outbox := s1.outbox ++ [(3, [id, record])] }
      let s3 := completeRun s2 id .aborted
      match r.queue.bind (getQueue s3) with
      | none => s3
      | some x => setQError s3 x 19

/-! ### Host commands (R281) -/

/-- The address of the command at the head of a queue. -/
def commandVa (s : State) (x : HostQueue) : Nat := qRead s x 0 8 + 64 * (x.head % max 1 (qSize s x))

/-- The next command of a mapped queue, once its block and the command can be read: its number and 64 bytes as a number, or the fault of reading it. -/
def nextCommand (s : State) (q : Nat) : Option (HostQueue × Option Nat) :=
  (getQueue s q).bind fun x =>
    if blockHeld s x || x.state != 2 || qError s x || x.head == x.tail || ctxOff s x.ctx || (getCtx s x.ctx).any (·.malformed) then none
    else if devHeld s x.ctx (commandVa s x) 64 then none
    else some (x, devNum s x.ctx (commandVa s x) 64)

/-- Whether a command breaks R281: kind, flags, reserved bytes, or its ADDR. -/
def commandBad (v : Nat) : Bool :=
  let kind := bitsOf v 7 0
  let addr := bitsOf v 127 64
  4 ≤ kind || bitsOf v 15 9 != 0 || bitsOf v 63 16 != 0 || bitsOf v 511 192 != 0
    || (kind == 1 && (addr % 256 != 0 || 2 ^ 56 < addr + 256)) || ((kind == 2 || kind == 3) && (addr % 8 != 0 || 2 ^ 56 < addr + 8))

/-- The command is read: HEAD advances, and it stands among those started. (DEDUCED, log entry 92) -/
def takeCommand (s : State) (x : HostQueue) (done : Bool) : State :=
  let head := (x.head + 1) % 2 ^ 32
  advanceDone (updQueue s x.q fun y => { y with head := head, idleSince := s.cycle, idle := false, started := y.started ++ [(x.head, done)] }) x.q

/-- Runs a command of one kind at the head of a queue, its errors first; BARRIER waits for every earlier command. -/
def onCommand (s : State) (q kind : Nat) (f : HostQueue → Nat → Out) : Out :=
  match nextCommand s q with
  | none => .next s
  | some (x, none) => if kind = 0 then .next (setQError s x 18) else .next s
  | some (x, some v) =>
    if commandBad v then (if bitsOf v 7 0 = kind || (4 ≤ bitsOf v 7 0 && kind = 0) then .next (setQError s x 16) else .next s)
    else if bitsOf v 7 0 != kind then .next s
    else if bitAt v 8 && !x.started.isEmpty then .next s
    else f x v

/-- HOST_CMD_NOP (R281). -/
def execHostCmdNop (q : Nat) (s : State) : Out := onCommand s q 0 fun x _ => .next (takeCommand s x true)

/-- HOST_CMD_WAIT (R281): later commands are held until Mem64[ADDR] ≥ VALUE. -/
def execHostCmdWait (q : Nat) (s : State) : Out :=
  onCommand s q 2 fun x v => if devHeld s x.ctx (bitsOf v 127 64) 8 then .next s else match devNum s x.ctx (bitsOf v 127 64) 8 with
    | none => .next (setQError s x 18)
    | some m => if bitsOf v 191 128 ≤ m then .next (takeCommand s x true) else .next s

/-- HOST_CMD_SIGNAL (R281): once every earlier command is complete, VALUE is written. -/
def execHostCmdSignal (q : Nat) (s : State) : Out :=
  onCommand s q 3 fun x v =>
    if !x.started.isEmpty || devHeld s x.ctx (bitsOf v 127 64) 8 true then .next s
    else match devWrite s x.ctx (bitsOf v 127 64) ((byteList 0 (bitsOf v 191 128) 8).map (·.2)) with
      | none => .next (setQError s x 18)
      | some s1 => .next (takeCommand s1 x true)

/-- Migrations that a run's ranges ask for (R279, R179). (DESIGN CHOICE, log entry 164) -/
def runPages (s : State) (ctx : Nat) (l : Launch) (dies : List Nat) : List (Nat × Nat) :=
  l.ranges.flatMap fun r => movePages s ctx r.1 r.2.1 fun i =>
    if r.2.2 < 4 then r.2.2 else if r.2.2 = 4 then dies.headD 0 else dies.getD (i % max 1 dies.length) 0

/-- HOST_CMD_LAUNCH (R277–R279): the record is checked, and the run is admitted with its ranges to migrate. -/
def execHostCmdLaunch (q : Nat) (s : State) : Out :=
  onCommand s q 1 fun x v => if devHeld s x.ctx (bitsOf v 127 64) 256 then .next s else match devNum s x.ctx (bitsOf v 127 64) 256 with
    | none => .next (setQError s x 18)
    | some w =>
      let l := launchOf w
      match launchError s x.ctx l with
      | some k => .next (setQError s x k)
      | none =>
        let pages := runPages s x.ctx l (spanDies s l)
        let s1 := { s with
          runs := s.runs ++ [{ id := s.nextId, ctx := x.ctx, queue := some q, cmd := x.head, prio := qPrio s x, launch := l, state := .migrating, counter := 0 }]
          moves := if pages.isEmpty then s.moves else s.moves ++ [{ id := s.nextId + 1, ctx := x.ctx, pages := pages, run := some s.nextId }]
          nextId := s.nextId + 2 }
        .next (takeCommand (qWrite s1 x 52 4 ((qRead s1 x 52 4 + 1) % 2 ^ 32)) x false)

/-- SEED_ENQUEUE (R279): once the run's ranges have moved, its spans are placed and its seed enters span 0's queue at the priority of its host queue. -/
def execSeedEnqueue (run : Nat) (s : State) : Out :=
  match getRun s run with
  | none => .next s
  | some r =>
    if r.state != .migrating || s.moves.any (·.run == some run) then .next s
    else
      let s1 := updRun s run fun r => { r with state := .running, counter := 1, dies := spanDies s r.launch }
      .next { s1 with ready := s1.ready ++ [{ run := run, span := 0, prio := r.prio, entry := none, stage := r.launch.stage }] }

/-! ### Doorbells and the walker (R283, R284) -/

/-- ERRCODE 17: NOTIFY more than SIZE ahead of HEAD. -/
def tailCheck (s : State) (q : Nat) : State :=
  match getQueue s q with
  | none => s
  | some x => if qSize s x < (x.tail + 2 ^ 32 - x.head) % 2 ^ 32 && !qError s x then setQError s x 17 else s

/-- A new TAIL in the slot and the block. -/
def setTail (s : State) (x : HostQueue) (v : Nat) : State :=
  tailCheck (updQueue (qWrite s x 20 4 v) x.q fun y => { y with tail := v, idle := false, idleSince := s.cycle }) x.q

/-- NOTIFY (R283): to the slot while mapped, else to DOORBELL with PEND. -/
def execNotify (q : Nat) (v : Word) (s : State) : Out :=
  match getQueue s q with
  | none => .next s
  | some x => if x.state = 2 then .next (setTail s x v.toNat) else .next (qWrite s x 24 8 (v.toNat + 2 ^ 32))

/-- DOORBELL_SWITCH (R283): MAPPING to MAPPED; the saved DOORBELL is read and cleared, and taken as TAIL when PEND was 1. -/
def execDoorbellSwitch (q : Nat) (s : State) : Out :=
  match getQueue s q with
  | none => .next s
  | some x =>
    if x.state != 1 || blockHeld s x then .next s
    else
      let d := qRead s x 24 8
      let s1 := qWrite (qState s x 2) x 24 8 0
      let s2 := updQueue s1 q fun y => { y with head := qRead s x 16 4, tail := qRead s x 20 4, idle := false, idleSince := s.cycle }
      .next (match getQueue s2 q with
        | some y => if bitAt d 32 then setTail s2 y (bitsOf d 31 0) else s2
        | none => s2)

/-- UNMAP_WRITEBACK (R283): HEAD and TAIL are written back, and the queue is UNMAPPED. -/
def execUnmapWriteback (q : Nat) (s : State) : Out :=
  match getQueue s q with
  | none => .next s
  | some x => if x.state = 3 && !blockHeld s x then .next (qState (qWrite (qWrite s x 16 4 x.head) x 20 4 x.tail) x 0) else .next s

/-- QUEUE_IDLE_TIMEOUT (R284): a mapped queue idle for 2^16 cycles may be unmapped. -/
def execQueueIdleTimeout (q : Nat) (s : State) : Out :=
  match getQueue s q with
  | none => .next s
  | some x =>
    if x.state = 2 && x.head == x.tail && x.idleSince + 65536 ≤ s.cycle then
      .next (updQueue s q fun y => { y with idle := true })
    else .next s

/-- Queues that hold a hardware slot. -/
def slotsUsed (s : State) : Nat := (s.queues.filter (·.state != 0)).length

/-- The idle mapped queue of the lowest priority. -/
def idleVictim (s : State) : Option HostQueue :=
  (s.queues.filter fun x => x.state == 2 && x.idle).foldl (fun best x => match best with
    | none => some x
    | some b => if qPrio s x < qPrio s b then some x else some b) none

/-- Whether a queue state block holds a reserved field or value that is not legal (R8, R282). -/
def blockBad (s : State) (x : HostQueue) : Bool :=
  qRead s x 0 8 % 64 != 0 || !((List.range 17).any fun i => qSize s x == 2 ^ (i + 4)) || 8 ≤ qRead s x 12 1 || 16 ≤ qRead s x 13 1 || qRead s x 28 4 / 2 != 0

/-- The walker's visit to one block. A block that breaks R282 is rejected with ERROR; which ERRCODE is not said, so it is free. (DEDUCED, log entry 90; DESIGN CHOICE, log entry 147) -/
def visitBlock (s : State) (x : HostQueue) : State :=
  if blockHeld s x || devHeld s x.ctx (qRead s x 40 8) 256 then s
  else if !qEnabled s x then (if x.state = 2 then qState s x 3 else s)
  else if x.state = 0 && !qError s x && (qRead s x 20 4 != qRead s x 16 4 || bitAt (qRead s x 24 8) 32) then
    if blockBad s x then { setQError s x (Config.freeWord s.freeIdx % 65536) with freeIdx := s.freeIdx + 1 }
    else if slotsUsed s < 256 then
      let s1 := loadContext s x.ctx (qRead s x 40 8)
      if (getCtx s1 x.ctx).any (·.malformed) then setQError s1 x 20 else qState s1 x 1
    else match idleVictim s with
      | some y => qState s y 3
      | none => s
  else s

/-- A pass along one chain of blocks, following NEXT. -/
def walkList (s : State) : Nat → Nat → State
  | 0, _ => s
  | n + 1, va =>
    if va = 0 then s
    else match s.queues.find? (·.block == va) with
      | none => s
      | some x => walkList (visitBlock s x) n (qRead s x 32 8)

/-- WALKER_PASS (R284): over the lists from priority 7 down; RL_PASS counts it. -/
def execWalkerPass (s : State) : Out :=
  if s.bar.bootStage < 3 then .next s
  else
    let s1 := [7, 6, 5, 4, 3, 2, 1, 0].foldl (fun s p => walkList s 32768 (mget 0 s.bar.rlHead p).toNat) s
    .next { s1 with bar := { s1.bar with rlPass := s1.bar.rlPass + 1 } }

/-! ### Ready queues and crew slots (R274, R280) -/

/-- The heads of the ready queues of a die, with their runs. -/
def readyHeads (s : State) (die : Nat) : List (Ready × Run) :=
  let mine := s.ready.filterMap fun r => (getRun s r.run).bind fun x =>
    if x.state == .running && x.dies[r.span]? == some die && !ctxOff s x.ctx then some (r, x) else none
  mine.foldl (fun acc r => if acc.any fun q => q.1.run == r.1.run && q.1.span == r.1.span && q.1.prio == r.1.prio then acc else acc ++ [r]) []

/-- The place of a run in the order of admission. -/
def admission (s : State) (id : Nat) : Nat := (s.runs.takeWhile (·.id != id)).length

/-- Order in which an idle slot takes work: highest priority, then order of admission. -/
def readyBefore (s : State) (x y : Ready × Run) : Bool :=
  x.1.prio > y.1.prio || (x.1.prio == y.1.prio && admission s x.1.run < admission s y.1.run)

/-- The heads in that order. -/
def sortHeads (s : State) : List (Ready × Run) → List (Ready × Run)
  | [] => []
  | x :: xs =>
    let ys := sortHeads s xs
    ys.takeWhile (fun y => readyBefore s y x) ++ [x] ++ ys.dropWhile (fun y => readyBefore s y x)

/-- A crew started from a ready record on a core (R274); its start is an acquire at device scope. -/
def startRecord (s : State) (x : Ready) (r : Run) (core : Nat) : State :=
  let l := r.launch
  let slot := (ordinarySlot s core).getD 0
  let s0 := { s with ready := s.ready.erase x }
  let s1 := match x.entry with
    | none =>
      let args := ((List.range 8).zip l.args).map fun p => (2 * p.1, p.2.toNat)
      startCrew s0 .seed r.ctx (some r.id) x.span 0 x.stage core slot l.shape l.sup l.strict l.entry (uniformRegs args [])
    | some i =>
      let w := fun off len => (devNum s r.ctx (entryVa r i + off) len).getD 0
      startCrew s0 (.task i) r.ctx (some r.id) x.span (BitVec.ofNat 32 (i + 1)) x.stage core slot l.shape l.sup l.strict
        (BitVec.ofNat 64 (bitsOf (w 0 8) 55 3 * 8)) (uniformRegs [(0, w 8 8), (2, w 24 8)] [(4, i)])
  acquireOn s1 core 2

/-- Handlers that wait for room on a die hold every ready record of their context back (R356). -/
def handlerWaits (s : State) (ctx die : Nat) : Bool :=
  s.crews.any fun c => c.ctx == ctx && c.die == die && (match c.halt with
    | some h => (match h.phase with
      | .posted _ due => due
      | _ => false)
    | none => false)

/-- CREW_SLOT_TAKE (R280): the first ready record, in order, that fits a core of the die. -/
def execCrewSlotTake (die : Nat) (s : State) : Out :=
  let heads := (sortHeads s (readyHeads s die)).filter fun x => !handlerWaits s x.2.ctx die
  match heads.findSome? fun x => (placeCore s die x.2.launch.shape).map fun i => (x, i) with
  | none => .next s
  | some (x, i) => if x.1.entry.any (entryHeld s x.2) then .next s else .next (startRecord s x.1 x.2 (256 * die + i))

end Sys2Proof.Machine
end

