-- ==== Sys2Proof/Machine/Fetch.lean ====
section
/-! DEFINITION. The passing of time, the readiness of threads, the gatherer's choice of a gang, and the fetch and decoding of its word (R52, R105–R112, R162, R352, R360). -/

namespace Sys2Proof.Machine

/-! ### Time (R109, R116, R209, R360) -/

/-- A thread that has neither arrived at a barrier nor exited. -/
def missing (x : Barrier) (t : Thread) : Bool := t.live && !x.arrived.contains t.tid

def isParked (t : Thread) : Bool := match t.hold with
  | .parked _ => true
  | _ => false

/-- Waits on a Sluice list, itself or through the tile request that it is parked on (R191). (DEDUCED, log entry 163) -/
def onSluice (s : State) (t : Thread) : Bool := match t.hold with
  | .parked (.block ..) | .parked (.page _) => true
  | .parked (.tile id) => s.waiters.any fun w => w.who == .engine id && !w.due
  | _ => false

/-- The barriers of a crew after some counted cycles (R116). -/
def tickBarriers (n : Nat) (c : Crew) : SMap Barrier :=
  c.barriers.map fun (b, x) =>
    let waits := c.threads.any (waitsAt b x.phase)
    let parked := c.threads.any fun t => missing x t && isParked t
    (b, if waits && !parked then { x with stall := x.stall + n } else x)

/-- The stall counters of `regang` (R116). -/
def tickRegangs (n : Nat) (c : Crew) : SMap Nat :=
  (List.range c.hgangs).foldl (fun m g =>
    let mem := c.threads.filter fun t => t.live && c.hgang t.tid == g
    if mem.any (·.hold == .regang) && !mem.any isParked then mput 0 m g (mget 0 m g + n) else m) c.regangStall

/-- Whether a crew's cycles count: it is resident, and neither halted nor being taken off its core. -/
def Crew.counts (c : Crew) : Bool := c.where_ == .resident && c.halt.isNone && c.taking.isNone

/-- `n` cycles pass for a crew: VCLK counts those in which it is resident (R360), the STALL counters those in which it is also not stopped (R109, R116, R352). (DEDUCED, log entry 141) -/
def tickCrew (s : State) (n : Nat) (c : Crew) : Crew :=
  if c.where_ != .resident then c
  else
    let waits := c.isGen && c.threads.any (·.live) && c.threads.all fun t => !t.live || onSluice s t
    let c1 := { c with
      vclk := c.vclk + BitVec.ofNat 64 n
      sluiceSince := if waits then some (c.sluiceSince.getD c.vclk.toNat) else none }
    if !c.counts || switching s c then c1
    else { c1 with counted := c.counted + n, barriers := tickBarriers n c, regangStall := tickRegangs n c }

/-- `n` core cycles pass. (DESIGN CHOICE, log entry 3; DESIGN CHOICE, log entry 137) -/
def tick (n : Nat) (s : State) : State :=
  if n = 0 then s
  else
    let resident := (s.crews.filter (·.where_ == .resident)).map (·.uid)
    { s with
      cycle := s.cycle + n
      ports := []
      turn := []
      cclk := (List.range 4).foldl (fun m d => mput 0 m d (mget 0 m d + BitVec.ofNat 64 n)) s.cclk
      crews := s.crews.map (tickCrew s n)
      stores := s.stores.map fun p => if p.wait != .free && resident.contains p.crew then { p with waited := p.waited + n } else p
      engineWaits := s.engineWaits.map fun (id, u, k) => (id, u, if resident.contains u then k + n else k) }

/-! ### The next word of a thread -/

/-- The word at a PC as a core's lanes would fetch it now, if nothing stands in the way. -/
def peekWord (s : State) (c : Crew) (pc : Nat) : Option Nat :=
  (heldLeaf s c.ctx c.die c.coreId pc).bind fun x => if x.leaf.exec then some (homeRead s (x.key pc) 8) else none

/-- Registers that an operand field names, as codes of R47; predicates from 1000 on. -/
def fieldUses (r : Role) (v : Nat) : List Nat := match r with
  | .no | .tile => []
  | .pred | .pdst => [1000 + v]
  | .opt .pred | .opt .pdst => if v = 0xFF then [] else [1000 + v]
  | r => if 0xF0 ≤ v then [] else (List.range r.regs).map (v + ·)

/-- What a half reads or writes (R65). -/
def halfUses (h : RawHalf) : List Nat := match halfRow h.op with
  | none => []
  | some r => (if r.form.readsS && h.s < 0xF0 then [h.s] else []) ++ (if r.form == .nop then [] else [h.d]) ++ (if r.k == .pred then [1000 + h.k] else [])

/-- Everything a word reads or writes, but for p7, which reads true always (R51). -/
def wordUses (w : Nat) : List Nat :=
  let uses := match unpack w with
    | .full r =>
      let imm := r.imm.getD 0
      (match (opOf r.op).bind fun op => shapeOf op r.m r.x imm r.imm.isSome with
      | some sh => (1000 + r.g) :: (r.fields sh).flatMap fun (f : Role × Nat) => fieldUses f.1 f.2
      | none => ([] : List Nat))
    | .paired p h0 h1 => (if p then [1000] else []) ++ halfUses h0 ++ halfUses h1
  uses.filter (· != 1007)

/-- The codes of registers from one on. -/
def dstCodes (d : Option (Nat × Bool)) (n : Nat) : List Nat := match d with
  | some (k, isS) => (List.range n).map fun i => (if isS then 0xC0 else 0) + k + i
  | none => []

/-- The s registers of some codes: the whole crew's. -/
def crewCodes (d : List Nat) : List Nat := d.filter fun k => 0xC0 ≤ k && k < 0xF0

/-- The codes that a request in flight will write, as a thread of its crew sees them: its own thread sees all, the others the s registers. -/
def dueCodes (mine : Bool) (d : List Nat) : List Nat := if mine then d else crewCodes d

/-- The registers that a ring request will write. -/
def RingReq.due (r : RingReq) : List Nat :=
  (match r.op with
    | .pop | .popTry | .weirPop | .weirPopTry => dstCodes (some (r.dst, r.dstIsS)) 8
    | _ => []) ++ (r.pred.map (1000 + ·)).toList

/-- Destinations that are not yet written, as far as they stop a thread: its own, and the s registers that any thread of its crew has to write (R50, R52). (DESIGN CHOICE, log entry 142) -/
def pendingDests (s : State) (uid tid : Nat) : List Nat :=
  (s.loads.filter (·.crew == uid)).flatMap (fun l =>
    dueCodes (l.tid == tid) (l.vdst.map (·.1) ++ l.sdst.map (0xC0 + ·.1) ++ (l.pred.map (1000 + ·.1)).toList))
  ++ (s.rings.filter (·.crew == uid)).flatMap (fun r => dueCodes (r.tid == tid) r.due)
  ++ (s.filters.filter (·.crew == uid)).flatMap (fun f => dueCodes (f.tid == tid) (dstCodes f.dst 4))
  ++ (s.pubs.filter (·.crew == uid)).flatMap (fun f => dueCodes (f.tid == tid) (dstCodes f.dst 1))
  ++ (s.svc.filter (·.crew == uid)).flatMap fun f => dueCodes false (dstCodes f.dst 2)

/-- What an instruction adds to the counters of an active thread (R220). -/
def raises (op : Op) (m : Nat) (dNone : Bool) : Counters :=
  let sub := bitsOf m 7 5
  match op with
  | .ld | .ldx | .atom | .pstat | .tlpub => { loads := 1 }
  | .st | .stx | .red => { stores := 1 }
  | .pevict | .ppin => { loads := if dNone then 0 else 1, stores := 1 }
  | .arw => { stores := if sub < 3 then 1 else 0 }
  | .cctl => { stores := if bitsOf m 7 4 == 0 || bitsOf m 7 4 == 6 then 0 else 1 }
  | .q => if sub = 0 then { stores := 1 } else if sub = 2 then { copies := 1 } else { loads := 1 }
  | .weir => if sub = 0 then { stores := 1 } else if sub = 1 then { loads := 1 } else {}
  | .cpy | .cpyg | .coll | .dcmp => { copies := 1 }
  | .mig => { copies := if sub = 1 then 1 else 0 }
  | .tst | .tforce => { tiles := 1 }
  | .trace | .smp | .hgrid | .vis | .replay => { rays := 1 }
  | _ => {}

/-- Whether a word would take a counter of a thread past 63 (R107). -/
def overCount (w : Nat) (t : Thread) : Bool := match unpack w with
  | .paired .. => false
  | .full r => match opOf r.op with
    | none => false
    | some op =>
      let k := raises op r.m (r.d == 0xFF)
      guardOk { p := Fin.ofNat 8 r.g, neg := r.neg } t
        && (63 < t.cnt.loads + k.loads || 63 < t.cnt.stores + k.stores || 63 < t.cnt.copies + k.copies
          || 63 < t.cnt.tiles + k.tiles || 63 < t.cnt.rays + k.rays)

/-- Whether the interlocks and the counters allow a thread's next instruction (R52, R107), and the ray table and the admission of rays, unless they are left aside (R341). A word that cannot be read yet is let through: its fetch parks or traps. -/
def wordReady (s : State) (c : Crew) (rays : Bool) (t : Thread) : Bool :=
  match peekWord s c t.pc.toNat with
  | none => true
  | some w =>
    let pend := pendingDests s c.uid t.tid
    (pend.isEmpty || !(wordUses w).any pend.contains) && !overCount w t && !(rays && traceBlocked s c t w)

/-! ### Readiness (R107) -/

/-- A deferred fault ends a hold at `wait`, `arw.wait` or `bar` (R291). -/
def faultEnds (t : Thread) : Bool := !t.deferred.isEmpty && (match t.hold with
  | .wait .. | .arw .. | .bar .. => true
  | _ => false)

/-- Whether a thread of a halting crew may still issue in its skid (R352). -/
def skidAllows (s : State) (c : Crew) (h : Halt) (t : Thread) : Bool :=
  h.phase == .skid && s.cycle < h.since + 12 && !h.trap.gang.contains t.tid && !h.stopped.contains (c.hgang t.tid)
    && mget 0 h.skid (c.hgang t.tid) < 12

/-- Whether a crew that a context switch or a pre-emption is taking may still issue in its skid, which began at a cycle (R352, R366, R367). -/
def skidOpen (s : State) (c : Crew) (t : Thread) (since : Nat) : Bool :=
  s.cycle < since + 12 && mget 0 c.switchSkid (c.hgang t.tid) < 12 && !c.switchStopped.contains (c.hgang t.tid)

def switchAllows (s : State) (c : Crew) (t : Thread) : Bool :=
  (match s.collectors.find? fun k => k.ctx == c.ctx && k.die == c.die with
    | none => true
    | some k => k.phase == .halting && skidOpen s c t k.since)
  && (match c.taking with
    | none => true
    | some k => !k.saving && skidOpen s c t k.since)

/-- Whether a thread's counters are within the limits of a `wait` word (R225). -/
def waitMet (imm : Nat) (t : Thread) : Bool :=
  let within := fun (n lim all : Nat) => lim == all || n ≤ lim
  within t.cnt.loads (bitsOf imm 26 21) 63 && within t.cnt.stores (bitsOf imm 20 15) 63 && within t.cnt.copies (bitsOf imm 14 9) 63
    && within t.cnt.tiles (bitsOf imm 8 4) 31 && within t.cnt.rays (bitsOf imm 3 0) 15

/-- Whether what a thread is held for has come about: its counters, the generation of its arrival word, the stores that its gang's release waits for, or the atoms of a fenced channel (R167, R215, R225, R227). -/
def holdOver (s : State) (uid : Nat) (t : Thread) : Bool := match t.hold with
  | .none => true
  | .wait imm _ => waitMet imm t
  | .arw key gen _ _ => memRead s.mem (key + 8) 4 != gen
  | .release scope who => !who.any (owesStores s scope uid)
  | .channel runs => !readWaits s runs
  | .moving q => !(getCrew s q).any (·.taking.isSome)
  | _ => false

/-- Ready but for the callee queue it may stand in, and, with `rays` false, for the limits of R341. -/
def readyBut (s : State) (c : Crew) (rays : Bool) (t : Thread) : Bool :=
  t.live && c.where_ == .resident && switchAllows s c t && (match c.halt with
    | none => true
    | some h => skidAllows s c h t)
  && (faultEnds t || (holdOver s c.uid t && (!t.deferred.isEmpty || t.wakeTrap.isSome || wordReady s c rays t)))

def threadReady (s : State) (c : Crew) (t : Thread) : Bool := readyBut s c true t

/-- Whether no `trace` can be held back by the limits of R341: no ray and no slot is there, and a scene's overflow records fit. -/
def tracesFree (s : State) : Bool := s.slots.isEmpty && s.rays.isEmpty && 0 < s.bar.rayAdmit && extRecords 65535 ≤ s.bar.extAdmit

/-- Bindings end where the members have come to stand, none of them waiting, at more than one PC, and where, at a `trace`, some can issue and the others are held back only by the limits of R341 (R105). -/
def splitBindings (s : State) (c : Crew) : Crew :=
  ((c.threads.filterMap (·.bound)).eraseDups).foldl (fun d b =>
    let mem := c.threads.filter fun t => t.bound == some b && t.live
    let parted := mem.all (·.hold == .none) && 1 < ((mem.map (·.pc)).eraseDups).length
    let ready := if tracesFree s then [] else mem.filter (threadReady s c)
    if parted || (!ready.isEmpty && ready.length < mem.length && mem.all (readyBut s c false)) then endBindings d (mem.map (·.tid)) else d) c

/-- A crew as the gatherer finds it: bindings that R105 ends are ended, and a meet group whose condition a wake has made false is released, without the thread that woke (R114). -/
def atGather (s : State) (c : Crew) : Crew := releaseMeets [] (splitBindings s c)

/-! ### Groups (R105–R108, R112) -/

structure Group where
  crew : Nat
  slot : Nat
  gw : Nat
  tids : List Nat
  bound : Bool
  /-- key of its callee queue -/
  queue : Option Word64 := none
  pc : Word64
  age : Nat
  readyAt : Nat
  /-- AGE_LIMIT of its context (R109) -/
  limit : Nat
  /-- its threads that AGE_LIMIT issues have left over (R110) -/
  late : List Nat := []
  deriving DecidableEq, Repr

/-- A group of threads of a crew. -/
def groupFrom (limit : Nat) (c : Crew) (bound : Bool) (queue : Option Word64) (pc : Word64) (ts : List Thread) : Group :=
  { limit := limit, crew := c.uid, slot := c.slot, gw := c.gw, tids := ts.map (·.tid), bound := bound, queue := queue, pc := pc,
    late := (ts.filter fun t => limit ≤ t.left).map (·.tid), age := ts.foldl (fun a t => max a t.age) 0, readyAt := leastOr 0 ((ts.map (·.readyAt)).filter (· != 0)) }

/-- Whether a gang may issue as formed: all its members are ready, or a deferred fault of one held at a wait is taken without the others (R291). -/
def gangReady (ready mem : List Thread) : Bool :=
  let is := fun u : Thread => ready.any (·.tid == u.tid)
  mem.all is || mem.any fun u => is u && faultEnds u

/-- Bound gangs that may issue. -/
def boundGroups (limit : Nat) (c : Crew) (ready : List Thread) : List Group :=
  ((c.threads.filterMap (·.bound)).eraseDups).filterMap fun b =>
    let mem := c.threads.filter fun t => t.bound == some b && t.live
    match mem with
    | [] => none
    | t :: _ => if gangReady ready mem then some (groupFrom limit c true none t.pc mem) else none

/-- Unbound gangs that are to issue their word again as formed (R68). -/
def gangGroups (limit : Nat) (c : Crew) (ready : List Thread) : List Group :=
  (((c.threads.filter (·.bound.isNone)).map (·.gang)).eraseDups).filterMap fun g =>
    let mem := c.threads.filter fun t => t.bound.isNone && t.gang == g && t.live
    match g, mem with
    | _ :: _, t :: _ => if gangReady ready mem then some (groupFrom limit c true none t.pc mem) else none
    | _, _ => none

/-- Ready unbound threads by PC, those of callee queues apart. -/
def freeGroups (limit : Nat) (c : Crew) (ready : List Thread) : List Group :=
  let ts := ready.filter fun t => t.bound.isNone && t.queue.isNone && t.gang.isEmpty
  ((ts.map (·.pc)).eraseDups).map fun pc => groupFrom limit c false none pc (ts.filter (·.pc == pc))

/-- The threads of callee queues that are otherwise ready, by queue (R111). -/
def queueGroups (limit : Nat) (c : Crew) (ready : List Thread) : List Group :=
  let ts := ready.filter fun t => t.bound.isNone && t.queue.isSome && t.gang.isEmpty
  ((ts.filterMap (·.queue)).eraseDups).map fun q => groupFrom limit c false (some q) q (ts.filter (·.queue == some q))

/-- Home lanes that a group covers. -/
def coverage (g : Group) : Nat := ((g.tids.map (· % g.gw)).eraseDups).length

/-- Ready groups of a crew; queues join under R112. -/
def crewGroups (limit : Nat) (c : Crew) (ready : List Thread) : List Group :=
  let base := boundGroups limit c ready ++ gangGroups limit c ready ++ freeGroups limit c ready
  let qs := queueGroups limit c ready
  let full := qs.filter fun g => coverage g == g.gw || limit ≤ g.age
  if !(base ++ full).isEmpty then base ++ full
  else
    let best := qs.foldl (fun b g => match b with
      | none => some g
      | some h => if coverage h < coverage g || (coverage g == coverage h && g.pc.toNat < h.pc.toNat) then some g else some h) none
    best.toList

/-- Order of choice: aged groups first, oldest first; then by the cycle they became ready; then slot and lowest thread (R108). -/
def groupKey (now : Nat) (g : Group) : List Nat :=
  if g.limit ≤ g.age then [0, 0x10000 - g.age, g.slot, leastOr 0 g.tids] else [1, if g.readyAt = 0 then now + 1 else g.readyAt, g.slot, leastOr 0 g.tids]

def keyLe : List Nat → List Nat → Bool
  | [], _ => true
  | _, [] => false
  | x :: xs, y :: ys => x < y || (x == y && keyLe xs ys)

/-- The first group of a list in the order of their keys. -/
def firstGroup (key : Group → List Nat) : List Group → Option Group
  | [] => none
  | g :: gs => match firstGroup key gs with
    | none => some g
    | some h => some (if keyLe (key g) (key h) then g else h)

/-- Crews resident on a core. -/
def coreCrews (s : State) (core : Nat) : List Crew := s.crews.filter fun c => c.where_ == .resident && c.coreId == core

def ageLimitOf (s : State) (ctx : Nat) : Nat := ((getCtx s ctx).map (·.ageLimit)).getD 4096

/-- Whether a core's duty cycle lets it issue in this cycle (R374): every cycle, every second, or every fourth. -/
def dutyOk (s : State) (core : Nat) : Bool := match (coreOf s core).duty with
  | 100 => true
  | 50 => s.cycle % 2 == 0
  | _ => s.cycle % 4 == 0

/-- The threads of a crew among which a core's gatherer may choose: the ready ones, or, for the second port of a cycle, those of them that were ready when the first chose (R108). -/
def candidateThreads (s : State) (core : Nat) (c : Crew) : List Thread :=
  let ready := c.threads.filter (threadReady s c)
  if mget 0 s.ports core = 0 then ready else ready.filter fun t => (mget [] s.turn core).contains (c.uid, t.tid)

/-- The groups that `f` makes of those threads of a core's crews, under their contexts' age limits. -/
def groupsBy (f : Nat → Crew → List Thread → List Group) (s : State) (core : Nat) : List Group :=
  (coreCrews s core).flatMap fun c => f (ageLimitOf s c.ctx) (atGather s c) (candidateThreads s core (atGather s c))

/-- The ready groups of a core. -/
def coreGroups (s : State) (core : Nat) : List Group := groupsBy crewGroups s core

/-- Its callee queues that hold threads otherwise ready, in turn or not (R112). -/
def coreQueues (s : State) (core : Nat) : List Group := groupsBy queueGroups s core

/-- The gang of a group: for each home lane the lowest thread, in lane order (R106); where some of the lane have been left over AGE_LIMIT times, the lowest of these, so that each comes to issue (R110). (DEDUCED, log entry 157) -/
def gangOf (g : Group) : List Nat :=
  (List.range g.gw).filterMap fun h => match g.tids.filter fun t => t % g.gw == h with
    | [] => none
    | ts => some (leastOr (leastOr 0 ts) (ts.filter g.late.contains))

/-- The age of the groups after an issue: the chosen one's returns to 0, the others' rise on an opportunity (R108). -/
def agedTo (chosen : Option Group) (opportunity : Bool) (g : Group) : Nat :=
  if chosen == some g then 0 else if opportunity && chosen.isSome then min 0xFFFF (g.age + 1) else g.age

/-- The ages of a core's groups after the choice of `chosen` (R108), those of callee queues that are not in turn among them (R112). Threads that it leaves over stay ready since they became so, and their leavings are counted (R106, R110). (DESIGN CHOICE, log entry 41) -/
def ageGroups (s : State) (core : Nat) (groups queues : List Group) (chosen : Option Group) (opportunity : Bool) : State :=
  let goes := (chosen.map gangOf).getD []
  { s with crews := s.crews.map fun c =>
      if c.where_ == .resident && c.coreId == core then
        c.mapT fun t =>
          let has := fun g : Group => g.crew == c.uid && g.tids.contains t.tid
          match groups.find? has, queues.find? has with
          | some g, _ =>
            let out := chosen == some g && goes.contains t.tid
            { t with
              age := agedTo chosen opportunity g
              readyAt := if out then 0 else if t.readyAt = 0 then s.cycle + 1 else t.readyAt
              left := if out then 0 else if chosen == some g then t.left + 1 else t.left }
          | none, some g => { t with age := agedTo chosen opportunity g, readyAt := 0 }
          | none, none => { t with readyAt := 0 }
      else c }

/-- The cycle at which the groups of a crew became ready, noted as time goes on: those that stand ready at the end of a cycle compete from the next (R108). -/
def noteCrew (s : State) (c : Crew) : Crew :=
  if c.where_ != .resident then c
  else
    let d := atGather s c
    let gs := crewGroups (ageLimitOf s c.ctx) d (d.threads.filter (threadReady s d))
    c.mapT fun t => { t with readyAt := if gs.any (·.tids.contains t.tid) then (if t.readyAt = 0 then s.cycle + 1 else t.readyAt) else 0 }

/-- `n` cycles pass, and what became ready before them is noted. -/
def pass (n : Nat) (s : State) : State :=
  if n = 0 then s else tick n { s with crews := s.crews.map (noteCrew s) }

/-- Issue ports that a gang of a width takes (R108). -/
def portsOf (gw : Nat) : Nat := if gw = 64 then 2 else 1

/-- The threads left to a core's second port, once its first has chosen (R108). -/
def turnAfter (s : State) (core : Nat) (g : Group) : List (Nat × Nat) :=
  ((coreCrews s core).flatMap fun c => (candidateThreads s core (atGather s c)).map fun t => (c.uid, t.tid)).filter fun x =>
    !(x.1 == g.crew && g.tids.contains x.2)

/-- A core's gatherer chooses a gang for the ports that it has left in this cycle: a 64-wide gang takes both, and is passed over once one is taken (R108). -/
def gather (s : State) (core : Nat) : State :=
  let used := mget 0 s.ports core
  let groups := coreGroups s core
  let cand := groups.filter fun g => used + portsOf g.gw ≤ 2
  match if dutyOk s core then firstGroup (groupKey s.cycle) cand else none with
  | none => { ageGroups s core groups (coreQueues s core) none (used == 0) with issue := none }
  | some g =>
    let tids := gangOf g
    let s0 := { s with crews := s.crews.map fun c => if c.where_ == .resident && c.coreId == core then atGather s c else c }
    let s1 := ageGroups s0 core groups (coreQueues s core) (some g) (used == 0)
    let s2 := updCrew s1 g.crew (·.mapT fun t => if tids.contains t.tid then { t with queue := none, woken := none, gang := [] } else t)
    let count := fun (c : Crew) (m : SMap Nat) => ((tids.map c.hgang).eraseDups).foldl (fun m g => mput 0 m g (mget 0 m g + 1)) m
    let s3 := updCrew s2 g.crew fun c => match c.halt with
      | none => if stopping s2 c then { c with switchSkid := count c c.switchSkid } else c
      | some h => { c with halt := some { h with skid := count c h.skid } }
    { s3 with issue := some { crew := g.crew, pc := g.pc, tids := tids }, lastCore := core, ports := mput 0 s.ports core (used + portsOf g.gw)
              turn := mput [] s.turn core (turnAfter s core g) }

/-! ### Traps that come before the word -/

/-- A due timer, or one kept pending (R353, R362). -/
def timerOf (s : State) (c : Crew) : Option (Timer × Bool) :=
  if c.halt.isSome || c.taking.isSome then none
  else match c.timer with
    | none => none
    | some t =>
      let now := if t.wall then mget 0 s.cclk c.die else c.vclk
      if t.deadline.toNat ≤ now.toNat then some (t, c.timerDue.getD false) else none

/-- A TIMER record's detail (R355). -/
def timerTrap (s : State) (c : Crew) (t : Timer) (late : Bool) (tids : List Nat) : TrapInfo :=
  let now := if t.wall then mget 0 s.cclk c.die else c.vclk
  { code := tcTIMER, tids := tids, lanes := laneMask c tids, crewLevel := true, late := late,
    detail := [{ off := 0, len := 8, val := t.deadline.toNat }, { off := 8, len := 8, val := now.toNat }] }

/-- The trap a gang takes in place of its word: a timer, a fault of an exited thread, a wake's trap, or a deferred fault (R31, R291, R362). -/
def preTrap (s : State) (c : Crew) (is : Issue) : Option (TrapInfo × (Crew → Crew)) :=
  let ts := gangThreads c is
  match timerOf s c with
  | some (t, late) => some (timerTrap s c t late is.tids, fun c => { c with timer := none, timerDue := none })
  | none =>
    match c.orphanFaults, c.halt.isNone && c.taking.isNone with
    | f :: fs, true => some (f, fun c => { c with orphanFaults := fs })
    | _, _ =>
      match ts.findSome? (·.wakeTrap) with
      | some f =>
        let ids := (ts.filter fun t => t.wakeTrap.map (fun g => { g with addr := 0 }) == some { f with addr := 0 }).map (·.tid)
        some ({ f with tids := ids, lanes := laneMask c ids,
                       detail := if f.code == tcPAGE || f.code == tcPERM then laneField c ids :: f.detail.filter (·.off != 0) else f.detail },
          fun c => c.mapT fun t => if ids.contains t.tid then { t with wakeTrap := none } else t)
      | none =>
        match ts.find? fun t => !t.deferred.isEmpty with
        | some t => match t.deferred with
          | f :: fs => some ({ f with tids := [t.tid], lanes := laneMask c [t.tid], deferred := true },
              fun c => c.upd t.tid fun t => { t with deferred := fs })
          | [] => none
        | none => none

/-! ### Fetch -/

/-- What the step does with the gang that issues. -/
inductive Fetched where
  /-- a trap, or threads parked: the step ends here -/
  | done (s : State)
  | run (i : Instr) (s : State)

/-- A fetch trap of the whole gang. (DEDUCED, log entry 21) -/
def fetchTrap (s : State) (c : Crew) (is : Issue) (code sub : Nat) (more : List PutField) : Fetched :=
  .done (raise s c.uid is.pc is.tids (trapOf c code sub is.tids (laneField c is.tids :: more) is.pc))

/-- The word decoded under the limits of the gang's threads, or its trap (R48, R66, R67). -/
def decodeGang (s : State) (c : Crew) (is : Issue) (w : Nat) : Fetched :=
  let limit := fun tid => c.budget (c.hgang tid)
  let least := leastOr 192 (is.tids.map limit)
  match decodeWord { v := least, tiles := c.tiles } w with
  | .inr i => .run i s
  | .inl b =>
    let (code, sub) := match b with
      | .ill k => (tcILL, k)
      | .pairbank k => (tcPAIRBANK, k)
    let beyond := is.tids.filter fun tid => (match decodeWord { v := limit tid, tiles := c.tiles } w with
      | .inl b' => b' == b
      | .inr _ => false)
    let tids := if b == .ill 0x07 then beyond else is.tids
    .done (raise s c.uid is.pc is.tids (trapOf c code sub tids))

/-- The fetch of the word at the gang's PC: translation, permission, touch, waits at its home, poison, decoding (R162, R167, R168, R185, R372). -/
def fetchWord (s : State) (c : Crew) (is : Issue) : Fetched :=
  let pc := is.pc.toNat
  if 2 ^ 56 ≤ pc then fetchTrap s c is tcPAGE 1 []
  else match heldLeaf s c.ctx c.die c.coreId pc with
    | none =>
      let (s1, id) := startWalk s c.ctx c.die c.coreId pc false
      .done { parkT s1 c.uid is.tids (.walk id pc) with issue := none }
    | some x =>
      if !x.leaf.exec then fetchTrap s c is tcPERM 0 [{ off := 2, len := 1, val := 0 }]
      else if !leafEgressOk s x.leaf (pc - x.va) then fetchTrap s c is tcPERM 0 [{ off := 2, len := 1, val := 1 }]
      else
        let blk := if x.leaf.proc then (getCtx s c.ctx).bind (blockOf · pc) else none
        let meets : Option (Range × Nat × TouchEnd) := blk.map fun (r, i) => (r, i, touchJudge s c.toucher r i)
        match meets with
        | some (r, i, .wait) => .done { parkBlock s c r i is.tids with issue := none }
        | some (_, _, .fault f) => .done (raise s c.uid is.pc is.tids { f with tids := is.tids, lanes := laneMask c is.tids })
        | _ =>
          let k := x.key pc
          match sliceWait s [(k, 8)], readWaits s [(k, 8)] with
          | some core, _ => .done { holdGang s c.uid is.tids is.tids (.slice core) with issue := none }
          | none, true => .done { holdGang s c.uid is.tids is.tids (.channel [(k, 8)]) with issue := none }
          | none, false => if poisonedAt s k then fetchTrap s c is tcPOISON 0 [] else decodeGang s c is (homeRead s k 8)

/-- A trap taken in place of a gang's word: what the waiting threads were held for ends (R291). (DEDUCED, log entry 99) -/
def takePre (s : State) (c : Crew) (is : Issue) (f : TrapInfo) (clear : Crew → Crew) : State :=
  let s1 := if recordsTrap s c then updCrew s c.uid fun c => (clear c).mapT fun t => if is.tids.contains t.tid && faultEnds t then { t with hold := .none } else t else s
  raise s1 c.uid is.pc is.tids f

/-- The gang's word, after the traps that come before it. -/
def fetch (s : State) : Fetched :=
  match s.issue with
  | none => .done s
  | some is => match getCrew s is.crew with
    | none => .done { s with issue := none }
    | some c => match preTrap s c is with
      | some (f, clear) => .done (takePre s c is f clear)
      | none => fetchWord s c is

/-- What moves in a step. -/
inductive Move where
  /-- power is off and nothing is to restore it -/
  | dead
  | done (s : State)
  | run (i : Instr) (s : State)
  /-- nothing is scheduled: a core issues, an event of the device happens, or time passes -/
  | free (s : State)

/-- The issue of a core's next gang. -/
def issueOn (s : State) (core : Nat) : Move :=
  match fetch (gather s core) with
  | .done s1 => .done s1
  | .run i s1 => .run i s1

/-- The head of the schedule, if there is one (power must be on for anything but power-good). -/
def nextMove (s : State) : Move :=
  match s.agenda with
  | [] => if s.hw.powered then .free s else .dead
  | t :: rest =>
    let s1 := pass t.cycles { s with agenda := rest, issue := none }
    match t.ev with
    | some i => if s.hw.powered || i == .powerGood then .run i s1 else .done s1
    | none => if s.hw.powered then issueOn s1 t.core else .done s1

/-! ### With nothing scheduled -/

/-- The first core, in turn after the last that issued, with a ready group. -/
def turnCore (s : State) : Option Nat :=
  let cores := ((s.crews.filter (·.where_ == .resident)).map (·.coreId)).eraseDups
  let after := (List.range 1024).map fun i => (s.lastCore + 1 + i) % 1024
  after.find? fun k => cores.contains k && dutyOk s k && !(coreGroups s k).isEmpty

end Sys2Proof.Machine
end

