-- ==== Sys2Proof/Machine/Quern.lean ====
section
/-! DEFINITION. The Quern format (R293): the CRC-32C of a block, the three methods, and the compression and expansion of one 64 KiB block. -/

namespace Sys2Proof.Machine

/-- Bytes in a block. -/
def blockBytes : Nat := 65536

/-- One bit of CRC-32C, reflected. -/
def crcBit (c : BitVec 32) : BitVec 32 := if c.getLsbD 0 then (c >>> 1) ^^^ 0x82F63B78#32 else c >>> 1

/-- One byte of CRC-32C. -/
def crcByte (c : BitVec 32) (b : Byte) : BitVec 32 := (List.range 8).foldl (fun c _ => crcBit c) (c ^^^ b.zeroExtend 32)

/-- CRC-32C (Castagnoli) of bytes. -/
def crc32c (bs : List Byte) : BitVec 32 := ~~~(bs.foldl crcByte 0xFFFFFFFF#32)

/-- The 64-byte lines of a block. -/
def blockLines (bs : List Byte) : List (List Byte) := (List.range 1024).map fun l => (bs.drop (64 * l)).take 64

def zeroLine (l : List Byte) : Bool := l.all (· == 0)

/-- The 128-byte mask of the lines that are not all zero. -/
def lineMask (ls : List (List Byte)) : List Byte :=
  (List.range 128).map fun k => BitVec.ofNat 8 ((List.range 8).foldl (fun m i =>
    if zeroLine ((ls[8 * k + i]?).getD []) then m else m + 2 ^ i) 0)

/-- The method with the smallest length, a tie to the lower, and the payload (R293). -/
def packBlock (bs : List Byte) : Nat × List Byte :=
  let ls := blockLines bs
  let full := ls.filter fun l => !zeroLine l
  if full.isEmpty then (1, [])
  else if 128 + 64 * full.length < blockBytes then (2, lineMask ls ++ full.flatten)
  else (0, bs)

/-- The table entry of a block. -/
def packEntry (bs : List Byte) : Nat :=
  let (m, payload) := packBlock bs
  m + 4 * payload.length + 2 ^ 32 * (crc32c bs).toNat

/-- Bytes of an image's table. -/
def tableLen (n : Nat) : Nat := (8 * n + 63) / 64 * 64

/-- METHOD and LEN of an entry, and the bytes its payload takes in the image. -/
def entryMethod (e : Nat) : Nat := bitsOf e 1 0
def entryLen (e : Nat) : Nat := bitsOf e 18 2
def entrySpan (e : Nat) : Nat := (entryLen e + 63) / 64 * 64

/-- Whether an entry is well formed but for its payload. -/
def entryOk (e : Nat) : Bool :=
  bitsOf e 31 19 == 0 && (match entryMethod e with
    | 0 => entryLen e == blockBytes
    | 1 => entryLen e == 0
    | 2 => 128 ≤ entryLen e && entryLen e ≤ 128 + blockBytes
    | _ => false)

/-- The lines set in a mask, from their payload. -/
def unmask (mask : List Byte) : List Nat → List Byte → List Byte
  | [], _ => []
  | l :: rest, p =>
    if ((mask[l / 8]?).getD 0).getLsbD (l % 8) then p.take 64 ++ unmask mask rest (p.drop 64)
    else List.replicate 64 0 ++ unmask mask rest p

/-- Lines set in a mask. -/
def maskCount (mask : List Byte) : Nat :=
  (List.range 1024).foldl (fun n l => if ((mask[l / 8]?).getD 0).getLsbD (l % 8) then n + 1 else n) 0

/-- The block that an entry and its payload stand for; none when CORRUPT (R293). -/
def expandBlock (e : Nat) (payload : List Byte) : Option (List Byte) :=
  if !entryOk e then none
  else
    let mask := payload.take 128
    let bs := match entryMethod e with
      | 0 => some payload
      | 1 => some (List.replicate blockBytes 0)
      | _ => if entryLen e = 128 + 64 * maskCount mask then some (unmask mask (List.range 1024) (payload.drop 128)) else none
    bs.filter fun b => (crc32c b).toNat == bitsOf e 63 32

end Sys2Proof.Machine
end

