-- ==== Sys2Proof/Machine/SluiceEvents.lean ====
section
/-! DEFINITION. The events of the Sluice: generators that take slots, step aside and return, blocks that become FULL, the overflow lists, reclaim, and the compressed tier (R187–R197). -/

namespace Sys2Proof.Machine

/-! ### Generators (R188, R191) -/

/-- Whether a result due to a crew waits at its source for room in the log (R370). -/
def wakeDue (s : State) (uid : Nat) : Bool := s.waiters.any fun w => w.due && (match w.who with
  | .lanes u _ => u == uid
  | _ => false)

/-- Whether a generator crew that stepped aside has ended its wait. -/
def asideReady (s : State) (die : Nat) (c : Crew) : Bool :=
  c.isGen && c.where_ == .away && c.die == die && c.halt.isNone && !ctxOff s c.ctx
    && (wakeDue s c.uid || c.threads.any fun t => t.live && !onSluice s t)

/-- Order of waiting records: deepest first, then oldest. -/
def firstRecord : List GenRec → Option GenRec
  | [] => none
  | g :: gs => match firstRecord gs with
    | none => some g
    | some h => if g.depth < h.depth then some h else some g

/-- A reserved slot for a record: on its own core, else the first idle one of the die. -/
def recordCore (s : State) (g : GenRec) : Option Nat :=
  if (reservedSlot s g.core).isSome then some g.core
  else (List.range 256).map (256 * g.die + ·) |>.find? fun k => (reservedSlot s k).isSome

/-- Records of a die whose contexts run. -/
def waitingRecords (s : State) (die : Nat) : List GenRec := s.genQueue.filter fun g => g.die == die && !ctxOff s g.ctx

/-- A generator crew started from a record (R188): its start is an acquire at device scope (R203). -/
def startGenerator (s : State) (g : GenRec) (r : Range) (core : Nat) : State :=
  let h : CrewShape := { threads := r.threads, gw := r.gang, regs := r.regs, regsCopy := r.regs, regsEpi := r.regs, scratch := r.scratch }
  let regs := uniformRegs [(0, r.blockVa g.block), (4, r.frame.toNat)] [(2, g.block), (3, r.num), (6, g.depth)]
  acquireOn (startCrew s (.gen g.range g.block g.depth g.idx) g.ctx none 0 0xFFFFFFFF#32 0 core ((reservedSlot s core).getD 30) h false false r.gen regs) core 2

/-- GENERATOR_SLOT_TAKE (R188): an idle reserved slot takes the deepest, then oldest, record; stepped-aside crews that may return come first. -/
def execGeneratorSlotTake (die : Nat) (s : State) : Out :=
  if s.crews.any fun c => asideReady s die c && (restoreCore s c).isSome then .next s
  else match firstRecord (waitingRecords s die) with
    | none => .next s
    | some g => match recordCore s g, (rangesOf s g.ctx).find? (·.num == g.range) with
      | some core, some r => .next (startGenerator { s with genQueue := s.genQueue.erase g } g r core)
      | _, _ => .next s

/-- GENERATOR_STEP_ASIDE (R191): every live thread has waited on Sluice lists for more than 256 cycles while a deeper record waits for a slot of the die; the crew's pre-emption begins (R366). -/
def execGeneratorStepAside (crew : Nat) (s : State) : Out :=
  match getCrew s crew with
  | none => .next s
  | some c =>
    let waited := match c.sluiceSince with
      | some n => 256 < c.vclk.toNat - n
      | none => false
    let deeper := (waitingRecords s c.die).any fun g => c.depth < g.depth && (recordCore s g).isNone
    if c.isGen && mayTake s c && waited && deeper then
      .next (beginTaking s crew none)
    else .next s

/-- GENERATOR_RESTORE (R191): its wait ended, it returns into the next idle reserved slot of the die. -/
def execGeneratorRestore (crew : Nat) (s : State) : Out :=
  match getCrew s crew with
  | none => .next s
  | some c => match asideReady s c.die c, restoreCore s c with
    | true, some core => .next (bringBack s crew core)
    | _, _ => .next s

/-! ### The end of a fill (R189) -/

/-- Whether a thread's stores, copies and tile stores issued before its `pfill` are acknowledged; an exited thread's all count. -/
def fillSettled (s : State) (uid : Nat) (t : Thread) : Bool :=
  let mark := t.pfillAt.getD s.nextId
  !(s.stores.any fun p => p.crew == uid && p.tid == t.tid && p.id < mark)
    && !(s.flume.any fun r => r.crew == uid && r.tid == t.tid && r.id < mark)
    && !(s.tileReqs.any fun r => r.crew == uid && r.tids.contains t.tid && r.id < mark && r.phase != .complete && r.phase != .faulted)
    && !(s.colls.any fun r => r.crew == uid && r.tid == t.tid && r.id < mark)
    && !(s.querns.any fun r => r.crew == uid && r.tid == t.tid && r.id < mark)

/-- Whether a generator crew's fill is complete. -/
def fillComplete (s : State) (c : Crew) : Bool :=
  c.threads.all (fun t => t.pfillAt.isSome || !t.live) && c.threads.any (·.pfillAt.isSome) && c.threads.all (fillSettled s c.uid)

/-- FILLING to FULL: the data is made visible to every path, then every waiter wakes in order (R189). -/
def fillBlock (s : State) (c : Crew) : State := match c.kind with
  | .gen r b _ _ => match (rangesOf s c.ctx).find? (·.num == r) with
    | some q =>
      if stillFills s c then
        wakeBlock (endFill (setBlockState (dropBlock s c.ctx q b) c.ctx q b stFull) c.ctx r b) c.ctx (r, b) none
      else s
    | none => s
  | _ => s

/-- BLOCK_FULL (R189). -/
def execBlockFull (crew : Nat) (s : State) : Out :=
  match getCrew s crew with
  | none => .next s
  | some c => .next (if c.isGen && fillComplete s c then fillBlock s c else s)

/-! ### Overflow (R187) -/

/-- Who touches on behalf of a demander: its crew, or that for whose thread the request works, or a touch for which nobody waits. -/
def Waiter.toucher (s : State) (w : Waiter) : Option Toucher := match w.who with
  | .lanes u _ => (getCrew s u).map (·.toucher)
  | .engine id => ((requestOwners s id).head?.bind fun o => getCrew s o.1).map (·.toucher)
  | .quiet core depth => some { ctx := w.ctx, die := core / 256, core := core, depth := depth }

/-- A demander of the overflow list touches again: it goes on, or fails, or joins the wait list; none while it would only overflow again. -/
def retouch (s : State) (w : Waiter) (r : Range) (i : Nat) (t : Toucher) : Option State := match w.who with
  | .quiet .. =>
    if blockState s w.ctx r i != stEmpty then some s else if genRoom s w.ctx t.die then some (spawnGen s t r i) else none
  | _ => match touchJudge s t r i with
    | .go => some (wakeDemander s w none)
    | .fault f => some (wakeDemander s w (some f))
    | .wait =>
      let s1 := touchWait s t r i w.who
      if s1.waiters.any fun x => x.who == w.who && x.block == w.block && x.overflow then none else some s1

/-- WAIT_LIST_OVERFLOW_RETRY (R187): the oldest demander of a die's overflow list touches again, on behalf of the thread that it works for. -/
def execWaitListOverflowRetry (die : Nat) (s : State) : Out :=
  match s.waiters.find? fun w => w.die == die && w.overflow with
  | none => .next s
  | some w =>
    let s0 := { s with waiters := s.waiters.erase w }
    let range := w.block.bind fun b => ((rangesOf s w.ctx).find? (·.num == b.1)).map fun r => (r, b.2)
    match range, w.toucher s with
    | some (r, i), some t => .next ((retouch s0 w r i t).getD s)
    | none, _ => .next (wakeDemander s0 w none)
    | _, none => .next s0

/-! ### Reclaim (R195) -/

/-- Whether a thread or an engine's step woken at a block has yet to execute again, or its wake has yet to reach it (R187). (DEDUCED, log entry 65) -/
def wokenAt (s : State) (ctx : Nat) (blk : Nat × Nat) : Bool :=
  (s.crews.any fun c => c.ctx == ctx && c.threads.any fun t => t.live && t.woken == some blk)
    || (s.wokenReqs.any fun w => w.2.1 == ctx && w.2.2 == blk && !(requestOwners s w.1).isEmpty)
    || s.waiters.any fun w => w.ctx == ctx && w.block == some blk && w.due

/-- Whether a page may be reclaimed: HBM, all of it in ranges with RECLAIM, no block FILLING, pinned or watched while FULL, or just woken. (DEDUCED, log entry 69) -/
def mayReclaim (s : State) (ctx va : Nat) : Bool :=
  let bs := blocksIn s ctx va (2 ^ 21)
  bs.length == 32 && bs.all fun (r, i) =>
    let st := blockState s ctx r i
    r.reclaim && !wokenAt s ctx (r.num, i)
      && (st == stEmpty || st == stFailed || (st == stFull && !blockPinned s ctx r i && !blockWatched s ctx r i))

/-- RECLAIM (R195): the page's blocks go to EMPTY, the leaf is invalidated and the frame is free. -/
def execReclaim (ctx va : Nat) (s : State) : Out :=
  match walkTree s ctx va with
  | .leaf l log2 k =>
    if va % 2 ^ 21 = 0 && log2 = 21 && !l.busy && !(s.migs.any fun m => m.ctx == ctx && m.va == va) && mayReclaim s ctx va then
      let s1 := (blocksIn s ctx va (2 ^ 21)).foldl (fun s x =>
        if blockState s ctx x.1 x.2 = stFull then evictBlock s ctx x.1 x.2 else setBlockState s ctx x.1 x.2 stEmpty) s
      let s2 := homeWriteN s1 k 1 ((homeByte s1 k).toNat - 1)
      .next { s2 with tlb := s2.tlb.filter fun e => !(e.ctx == ctx && e.covers va) }
    else .next s
  | _ => .next s

/-! ### The compressed tier (R197) -/

/-- The 32 entries of a page's image, and the offset of each payload. -/
def imageEntries (s : State) (pa : Nat) : List (Nat × Nat) :=
  ((List.range 32).foldl (fun (acc : List (Nat × Nat) × Nat) i =>
    let e := homeRead s (hbmKey (pa + 8 * i)) 8
    (acc.1 ++ [(e, acc.2)], acc.2 + entrySpan e)) ([], tableLen 32)).1

/-- How an image reads. -/
inductive ImageEnd where
  | good (bytes : List Byte)
  | corrupt
  | poisoned

/-- Whether any atom of a run is poisoned. (DEDUCED, log entry 68) -/
def runPoisoned (s : State) (k len : Nat) : Bool :=
  (s.hw.poison.any fun a => k / 64 ≤ a && a ≤ (k + len - 1) / 64)
    || ((s.hw.channels.any (·.2.lost)) && (List.range ((k + len - 1) / 64 + 1 - k / 64)).any fun i => channelLost s (k / 64 + i))

/-- A page's image expanded, block by block. -/
def readImage (s : State) (pa : Nat) : ImageEnd :=
  if runPoisoned s (hbmKey pa) (tableLen 32) then .poisoned
  else (imageEntries s pa).foldl (fun acc x => match acc with
    | .good bs =>
      if x.1 % 4 != 1 && runPoisoned s (hbmKey (pa + x.2)) (max 1 (entryLen x.1)) then .poisoned
      else match expandBlock x.1 (homeBytes s (hbmKey (pa + x.2)) (entryLen x.1)) with
        | some b => .good (bs ++ b)
        | none => .corrupt
    | e => e) (.good [])

/-- A level-1 leaf's entry with new address, C and B. -/
def leafEntry (l : Leaf) (c b : Bool) (pa : Nat) : Nat :=
  3 + 32 * c.toNat + 64 * l.proc.toNat + 128 * l.read.toNat + 256 * l.write.toNat + 512 * l.exec.toNat + 1024 * b.toNat + pa

/-- The requests that wait for a compressed page go on, or meet its fault at their next step (R197). -/
def wakePageEngines (s : State) (ctx page : Nat) (fault : Option TrapInfo) : State :=
  let p := fun w : Waiter => w.ctx == ctx && w.va == page && w.block.isNone && !w.due && (match w.who with
    | .engine _ => true
    | _ => false)
  (s.waiters.filter p).foldl (fun s w => wakeDemander s w fault) { s with waiters := s.waiters.filter fun w => !p w }

/-- The threads parked on a compressed page. -/
def onPage (ctx page : Nat) (s : State) : List (Crew × Thread) := (parkedOn s fun p => p == .page page).filter fun x => x.1.ctx == ctx

/-- An expansion is no longer its Quern's to do; the requests that waited for it look again, or meet its fault. -/
def endExpansion (s : State) (ctx va : Nat) (fault : Option TrapInfo := none) : State :=
  wakePageEngines { s with expansions := s.expansions.filter fun x => x.2 != (ctx, va) } ctx va fault

/-- QUERN_EXPANSION_DONE (R197): the page is expanded into a frame of its stack, the leaf names it, and the demanders wake. -/
def execQuernExpansionDone (ctx va frame : Nat) (s : State) : Out :=
  match walkTree s ctx va with
  | .leaf l _ k =>
    if !(l.compressed && l.busy) || va % 2 ^ 21 != 0 || frame % 2 ^ 21 != 0 || 2 ^ 40 ≤ frame || bitsOf frame 39 36 != bitsOf l.pa 39 36 then
      .next (if l.compressed && l.busy then s else endExpansion s ctx va)
    else match readImage s l.pa with
      | .good bs =>
        let s1 := homeWrite s none (((List.range bs.length).zip bs).map fun x => (hbmKey frame + x.1, x.2))
        let s2 := homeWriteN s1 k 8 (leafEntry l false false frame)
        .next (wakeParked { endExpansion s2 ctx va with tlb := s2.tlb.filter fun e => !(e.ctx == ctx && e.covers va) } (onPage ctx va s2) 1 none)
      | _ => .next s
  | _ => .next (endExpansion s ctx va)

/-- Whether a Quern status is the one the image gives: 1 CORRUPT, 3 POISON; 2 NOFRAME is the pool's. -/
def statusFits (s : State) (pa status : Nat) : Bool := match status, readImage s pa with
  | 1, .corrupt | 3, .poisoned | 2, _ => true
  | _, _ => false

/-- The failed-page list of a die with one more page; a full list of 128 drops its oldest. -/
def addFailed (fs : List (Nat × Nat × Nat × Nat)) (f : Nat × Nat × Nat × Nat) : List (Nat × Nat × Nat × Nat) :=
  let mine := fs.filter (·.1 == f.1)
  (if mine.length < 128 then fs else match mine.head? with
    | some old => fs.erase old
    | none => fs) ++ [f]

/-- QUERN_EXPANSION_FAIL (R197): the page goes on the failed-page list, and each demander receives GENFAULT with cause 5. -/
def execQuernExpansionFail (ctx va status : Nat) (s : State) : Out :=
  match walkTree s ctx va with
  | .leaf l _ k =>
    if !(l.compressed && l.busy) || va % 2 ^ 21 != 0 || !statusFits s l.pa status then
      .next (if l.compressed && l.busy then s else endExpansion s ctx va)
    else
      let s1 := homeWriteN s k 8 (leafEntry l true false l.pa)
      let s2 := { endExpansion s1 ctx va (some (genFault 0xFFFF 5 status va 0 0 0)) with failed := addFailed s1.failed (bitsOf l.pa 39 38, ctx, va, status) }
      .next (wakeParked s2 (onPage ctx va s2) 4 (some (genFault 0xFFFF 5 status va 0 0 0)))
  | _ => .next (endExpansion s ctx va)

/-- The image of a page's bytes. -/
def pageImage (bs : List Byte) : List Byte :=
  let blocks := (List.range 32).map fun i => (bs.drop (65536 * i)).take 65536
  (byteList 0 ((blocks.map packEntry).foldr (fun e acc => e + 2 ^ 64 * acc) 0) (tableLen 32)).map (·.2)
    ++ blocks.flatMap fun b => (packBlock b).2

/-- RECOMPRESSION (R197): Quern writes the image of an expanded page, the leaf takes C = 1, and cached copies go. -/
def execRecompression (ctx va image : Nat) (s : State) : Out :=
  match walkTree s ctx va with
  | .leaf l log2 k =>
    let key := hbmKey l.pa
    if log2 != 21 || va % 2 ^ 21 != 0 || l.busy || l.compressed || l.proc || l.rn || image % 2 ^ 21 != 0 || 2 ^ 40 ≤ image || image == l.pa
      || (s.migs.any fun m => m.ctx == ctx && m.va == va) || runPoisoned s key (2 ^ 21)
      || (s.stores.any fun p => !p.performed && p.bytes.any fun w => key ≤ w.1 && w.1 < key + 2 ^ 21) then .next s
    else
      let img := pageImage (homeBytes s key (2 ^ 21))
      let s1 := homeWrite s none (((List.range img.length).zip img).map fun x => (hbmKey image + x.1, x.2))
      let s2 := homeWriteN s1 k 8 (leafEntry l true false image)
      .next (dropCopies { s2 with
        tlb := s2.tlb.filter fun e => !(e.ctx == ctx && e.covers va)
        dirty := s2.dirty.filter fun a => !(key / 64 ≤ a && a < (key + 2 ^ 21) / 64) } ctx fun x => key ≤ x && x < key + 2 ^ 21)
  | _ => .next s

end Sys2Proof.Machine
end

