-- ==== Sys2Proof/Machine/Float.lean ====
section
/-! DEFINITION. The meanings of the floating-point instructions (R144–R153). -/

namespace Sys2Proof.Machine

/-- Element-wise delivery of a computed value through Cvt in the type's format (R144). -/
def floatResult (k : FloatMods) (f : Nat → FV) : Nat :=
  let fm := tyFmt k.ty
  fromElems fm.bits (fun e => cvtTo fm k.mode k.fo k.sat (f e)) (tyElems k.ty)

/-- In(x) of an element (R144). -/
def inElem (k : FloatMods) (x e : Nat) : FV :=
  let fm := tyFmt k.ty
  fm.decF k.fi (elem fm.bits x e)

/-- A two-operand instruction with exact operation `op` (R146). -/
def floatBinary (a : Args) (op : Mode → FV → FV → FV) (c : Crew) (t : Thread) : List Wr :=
  let k := floatMods a.m.toNat
  let n := tyRegs k.ty
  let x := rd c t a.a n
  let y := srcFB c t a k.ty
  [.reg a.d n (floatResult k fun e => op k.mode (inElem k x e) (inElem k y e))]

/-- What `fadd` writes (R146). -/
def wrFadd (a : Args) (c : Crew) (t : Thread) : List Wr := floatBinary a FV.add c t

/-- `fadd` (R146). -/
def execFadd (a : Args) (s : State) : Out := regInstr a s (wrFadd a)

/-- What `fsub` writes (R146). -/
def wrFsub (a : Args) (c : Crew) (t : Thread) : List Wr := floatBinary a (fun m x y => FV.add m x y.neg) c t

/-- `fsub` (R146). -/
def execFsub (a : Args) (s : State) : Out := regInstr a s (wrFsub a)

/-- What `fmul` writes (R146). -/
def wrFmul (a : Args) (c : Crew) (t : Thread) : List Wr := floatBinary a (fun _ x y => x.mul y) c t

/-- `fmul` (R146). -/
def execFmul (a : Args) (s : State) : Out := regInstr a s (wrFmul a)

/-- What `ffma` writes (R146): the product is not rounded on its own. -/
def wrFfma (a : Args) (c : Crew) (t : Thread) : List Wr :=
  let k := floatMods a.m.toNat
  let n := tyRegs k.ty
  let x := rd c t a.a n
  let y := rd c t a.b n
  let z := rd c t a.c n
  [.reg a.d n (floatResult k fun e => FV.add k.mode ((inElem k x e).mul (inElem k y e)) (inElem k z e))]

/-- `ffma` (R146). -/
def execFfma (a : Args) (s : State) : Out := regInstr a s (wrFfma a)

/-- An encoding after the fi flush, bit for bit. -/
def flushBits (f : Fmt) (fi : Bool) (x : Nat) : Nat :=
  if fi && f.isSub x then f.withSign (x.testBit (f.eb + f.fb)) 0 else x

/-- The chosen operand of `fminmax` on encodings (R147). -/
def minmaxBits (f : Fmt) (isMax fi : Bool) (x y : Nat) : Nat :=
  let x := flushBits f fi x
  let y := flushBits f fi y
  if (f.dec x).isNan && (f.dec y).isNan then f.nan
  else if (if isMax then maxFirst (f.dec x) (f.dec y) else minFirst (f.dec x) (f.dec y)) then x else y

/-- What `fminmax` writes (R147): the chosen operand, bit for bit after the flush. -/
def wrFminmax (a : Args) (c : Crew) (t : Thread) : List Wr :=
  let k := floatMods a.m.toNat
  let n := tyRegs k.ty
  let fm := tyFmt k.ty
  let x := rd c t a.a n
  let y := srcFB c t a k.ty
  [.reg a.d n (fromElems fm.bits (fun e => minmaxBits fm k.low k.fi (elem fm.bits x e) (elem fm.bits y e)) (tyElems k.ty))]

/-- `fminmax` (R147). -/
def execFminmax (a : Args) (s : State) : Out := regInstr a s (wrFminmax a)

/-- What `fabsneg` writes (R147): the sign bit of each element cleared or inverted. -/
def wrFabsneg (a : Args) (c : Crew) (t : Thread) : List Wr :=
  let k := floatMods a.m.toNat
  let n := tyRegs k.ty
  let fm := tyFmt k.ty
  let top := 2 ^ (fm.bits - 1)
  let x := rd c t a.a n
  [.reg a.d n (fromElems fm.bits (fun e =>
    let v := elem fm.bits x e
    if k.low then v ^^^ top else v % top) (tyElems k.ty))]

/-- `fabsneg` (R147). -/
def execFabsneg (a : Args) (s : State) : Out := regInstr a s (wrFabsneg a)

/-- What `fcmp` writes (R148): the condition stands in M[7:6] and M[0]. -/
def wrFcmp (a : Args) (c : Crew) (t : Thread) : List Wr :=
  let k := floatMods a.m.toNat
  let cc := bitsOf a.m.toNat 7 6 * 2 + bitsOf a.m.toNat 0 0
  [.pred a.d (floatCond cc (inElem k (rd c t a.a (tyRegs k.ty)) 0) (inElem k (srcFB c t a k.ty) 0))]

/-- `fcmp` (R148). -/
def execFcmp (a : Args) (s : State) : Out := regInstr a s (wrFcmp a)

/-- A value rounded to an integral value, keeping its sign when it rounds to zero (R149). -/
def roundIntegral (mode : Mode) : FV → FV
  | .fin n m e => .fin n (roundInt mode n m e) 0
  | x => x

/-- What `fround` writes (R149). -/
def wrFround (a : Args) (c : Crew) (t : Thread) : List Wr :=
  let k := floatMods a.m.toNat
  let n := tyRegs k.ty
  let x := rd c t a.a n
  [.reg a.d n (floatResult k fun e => roundIntegral k.mode (inElem k x e))]

/-- `fround` (R149). -/
def execFround (a : Args) (s : State) : Out := regInstr a s (wrFround a)

/-- The exponent operand of `fldexp` for an element (R149). -/
def ldexpArg (c : Crew) (t : Thread) (a : Args) (ty e : Nat) : Int :=
  match a.imm with
  | some v => if ty < 2 then signExt v.toNat 27 else signExt v.toNat 16
  | none =>
    let b := rd c t a.b 1
    if ty < 2 then signExt b 32 else signExt (elem 16 b e) 16

/-- A scale that Cvt cannot tell from a larger one: beyond it every format overflows or underflows alike. -/
def clampScale (x : Int) : Int := max (-10000) (min 10000 x)

/-- What `fldexp` writes (R149). -/
def wrFldexp (a : Args) (c : Crew) (t : Thread) : List Wr :=
  let k := floatMods a.m.toNat
  let n := tyRegs k.ty
  let x := rd c t a.a n
  [.reg a.d n (floatResult k fun e => (inElem k x e).scale (clampScale (ldexpArg c t a k.ty e)))]

/-- `fldexp` (R149). -/
def execFldexp (a : Args) (s : State) : Out := regInstr a s (wrFldexp a)

/-- What `fclass` writes (R150). -/
def wrFclass (a : Args) (c : Crew) (t : Thread) : List Wr :=
  let k := floatMods a.m.toNat
  let fm := tyFmt k.ty
  let mask := match a.imm with
    | some v => v.toNat
    | none => a.x.toNat
  let x := elem fm.bits (rd c t a.a (tyRegs k.ty)) (if k.low then 1 else 0)
  [.pred a.d (mask.testBit (floatClass fm k.fi x))]

/-- `fclass` (R150). -/
def execFclass (a : Args) (s : State) : Out := regInstr a s (wrFclass a)

/-- The exact sum of three terms, whose zero takes its sign as a sum's does. -/
def add3 (mode : Mode) (x y z : FV) : FV := FV.add mode (FV.add mode x y) z

/-- What `fdot2` writes (R151): two products and an FP32 addend, rounded once into FP32. -/
def wrFdot2 (a : Args) (c : Crew) (t : Thread) : List Wr :=
  let k := floatMods a.m.toNat
  let x := rd c t a.a 1
  let y := rd c t a.b 1
  let z := fp32.decF k.fi (rd c t a.c 1)
  let p := fun e => (inElem k x e).mul (inElem k y e)
  [.reg a.d 1 (cvtTo fp32 k.mode k.fo k.sat (add3 k.mode (p 0) (p 1) z))]

/-- `fdot2` (R151). -/
def execFdot2 (a : Args) (s : State) : Out := regInstr a s (wrFdot2 a)

/-- What `fsqrt` writes (R152). -/
def wrFsqrt (a : Args) (c : Crew) (t : Thread) : List Wr :=
  let k := floatMods a.m.toNat
  let n := tyRegs k.ty
  let x := rd c t a.a n
  [.reg a.d n (floatResult k fun e => (inElem k x e).sqrt)]

/-- `fsqrt` (R152). -/
def execFsqrt (a : Args) (s : State) : Out := regInstr a s (wrFsqrt a)

/-- What `fdiv` writes (R152). -/
def wrFdiv (a : Args) (c : Crew) (t : Thread) : List Wr :=
  let k := floatMods a.m.toNat
  let n := tyRegs k.ty
  let x := rd c t a.a n
  let y := rd c t a.b n
  [.reg a.d n (floatResult k fun e => (inElem k x e).div (inElem k y e))]

/-- `fdiv` (R152). -/
def execFdiv (a : Args) (s : State) : Out := regInstr a s (wrFdiv a)

/-- An approximate function delivered through Cvt in RNE (R153). -/
def floatApprox (fn : ApproxFn) (a : Args) (c : Crew) (t : Thread) : List Wr :=
  let k := floatMods a.m.toNat
  let n := tyRegs k.ty
  let fm := tyFmt k.ty
  let x := rd c t a.a n
  [.reg a.d n (cvtTo fm .rne k.fo k.sat (approx fn fm (inElem k x 0)))]

/-- What `frcp` writes (R153). -/
def wrFrcp (a : Args) (c : Crew) (t : Thread) : List Wr := floatApprox .rcp a c t

/-- `frcp` (R153). -/
def execFrcp (a : Args) (s : State) : Out := regInstr a s (wrFrcp a)

/-- What `frsq` writes (R153). -/
def wrFrsq (a : Args) (c : Crew) (t : Thread) : List Wr := floatApprox .rsq a c t

/-- `frsq` (R153). -/
def execFrsq (a : Args) (s : State) : Out := regInstr a s (wrFrsq a)

/-- What `fex2` writes (R153). -/
def wrFex2 (a : Args) (c : Crew) (t : Thread) : List Wr := floatApprox .ex2 a c t

/-- `fex2` (R153). -/
def execFex2 (a : Args) (s : State) : Out := regInstr a s (wrFex2 a)

/-- What `flg2` writes (R153). -/
def wrFlg2 (a : Args) (c : Crew) (t : Thread) : List Wr := floatApprox .lg2 a c t

/-- `flg2` (R153). -/
def execFlg2 (a : Args) (s : State) : Out := regInstr a s (wrFlg2 a)

/-- What `fsin` writes (R153). -/
def wrFsin (a : Args) (c : Crew) (t : Thread) : List Wr := floatApprox .sin a c t

/-- `fsin` (R153). -/
def execFsin (a : Args) (s : State) : Out := regInstr a s (wrFsin a)

/-- What `fcos` writes (R153). -/
def wrFcos (a : Args) (c : Crew) (t : Thread) : List Wr := floatApprox .cos a c t

/-- `fcos` (R153). -/
def execFcos (a : Args) (s : State) : Out := regInstr a s (wrFcos a)

end Sys2Proof.Machine
end

