-- ==== Sys2Proof/Machine/Engine.lean ====
section
/-! DEFINITION. The memory accesses of engines (R156, R185, R206, R250, R290, R291, R372): how a run of bytes is reached, what keeps an engine waiting, the race and alias checks of its steps, and the deferred engine fault. -/

namespace Sys2Proof.Machine

/-- On whose behalf an engine works: the request, the crew and the thread that issued it. -/
structure Mover where
  req : Nat
  crew : Crew
  tid : Nat

/-- How a run of bytes is reached. -/
inductive Reach where
  | ok (s : State) (runs : List (Nat × Nat))
  | wait (s : State)
  | fault (info : TrapInfo)

/-- What an engine does with the bytes. -/
structure Use where
  load : Bool := false
  store : Bool := false
  deriving DecidableEq, Repr

/-- A fault of an engine step, with the home lane of the thread it is charged to. (DEDUCED, log entry 97) -/
def engineTrap (m : Mover) (code sub : Nat) (addr : Nat) (more : List PutField := []) : TrapInfo :=
  { code := code, sub := sub, addr := BitVec.ofNat 64 addr, detail := laneField m.crew [m.tid] :: more }

/-- Whether a request waits on a block or on a fault reply. -/
def engineHeld (s : State) (req : Nat) : Bool :=
  s.waiters.any (·.who == .engine req) || s.walks.any (·.engines.contains req)

/-- The fault that a wait of a request ended with, if any, taken from the list. -/
def takeFault (s : State) (req : Nat) : Option (TrapInfo × State) :=
  (s.demandFaults.find? (·.1 == req)).map fun f => (f.2, { s with demandFaults := s.demandFaults.erase f })

/-- The first address of some parts of global memory that the fault of an earlier wait concerns, in the fault's place: its block, its compressed page, or the 4 KiB page of its address. -/
def lateFault (late : Option TrapInfo) (parts : List (Nat × Nat)) : Option TrapInfo := late.bind fun f =>
  let len := if f.code != tcGENFAULT then 4096 else if f.sub = 5 then 2 ^ 21 else 65536
  let base := f.addr.toNat / len * len
  (parts.find? fun p => p.1 < base + len && base < p.1 + p.2).map fun p =>
    if f.code == tcGENFAULT then f else { f with addr := BitVec.ofNat 64 p.1 }

/-- A walk with a fault request is joined by an engine (R162). (DEDUCED, log entry 72) -/
def engineWalk (s : State) (m : Mover) (va : Nat) : State :=
  let (s1, id) := startWalk s m.crew.ctx m.crew.die m.crew.coreId va true
  { s1 with walks := s1.walks.map fun w => if w.id = id then { w with engines := w.engines ++ [m.req] } else w }

/-- A request makes its step at a block: it counts no longer as woken there (R187). -/
def stepMade (s : State) (req : Nat) (blk : Nat × Nat) : State :=
  if s.wokenReqs.isEmpty then s else { s with wokenReqs := s.wokenReqs.filter fun w => !(w.1 == req && w.2.2 == blk) }

/-- A request demands a compressed page: it waits for its expansion to end (R197). -/
def awaitPage (s : State) (m : Mover) (page : Nat) (l : Leaf) : State :=
  { s with waiters := s.waiters ++ [{ ctx := m.crew.ctx, die := bitsOf l.pa 39 38, block := none, va := page, who := .engine m.req }] }

/-- One part of a run of global addresses that lies in one 4 KiB page. A page already on the failed-page list gives cause 5 with the status it was put there with. (DESIGN CHOICE, log entry 145) -/
def reachPage (s : State) (m : Mover) (u : Use) (va len : Nat) : Reach :=
  if 2 ^ 56 < va + len then .fault (engineTrap m tcPAGE 1 va)
  else if walkHeld s m.crew.ctx m.crew.die va || walkShut s m.crew.ctx va then .wait s
  else match walkNow s m.crew.ctx m.crew.die va with
    | .malformed => .fault (engineTrap m tcPAGE 3 va)
    | .poisoned => .fault (engineTrap m tcPAGE 4 va)
    | .invalid => .wait (engineWalk s m va)
    | .leaf l log2 k =>
      let page := va / 2 ^ log2 * 2 ^ log2
      let key := TlbEntry.key { ctx := m.crew.ctx, die := m.crew.die, core := none, va := page, log2 := log2, leaf := l } va
      if l.compressed then
        match s.failed.find? fun f => f.2.1 == m.crew.ctx && f.2.2.1 == page with
        | some f => .fault (genFault 0xFFFF 5 f.2.2.2 page 0 0 0)
        | none => .wait (awaitPage (startExpansion s m.crew.ctx va k l) m page l)
      else if l.busy then .wait s
      else if (u.load && !l.read) || (u.store && (!l.write || ownedLine s m.crew.ctx va len)) then
        .fault (engineTrap m tcPERM 0 va [{ off := 2, len := 1, val := 0 }])
      else if !leafEgressOk s l (va - page) then .fault (engineTrap m tcPERM 0 va [{ off := 2, len := 1, val := 1 }])
      else if (u.load && readWaits s [(key, len)]) || (sliceWait s [(key, len)]).isSome then .wait s
      else match (if l.proc then (getCtx s m.crew.ctx).bind (blockOf · va) else none) with
        | none => .ok s [(key, len)]
        | some (r, i) => match touchJudge s m.crew.toucher r i with
          | .go => .ok (stepMade s m.req (r.num, i)) [(key, len)]
          | .wait => .wait (touchWait (stepMade s m.req (r.num, i)) m.crew.toucher r i (.engine m.req))
          | .fault f => .fault f

/-- The parts of a run of addresses, page by page. -/
def pageParts (va len : Nat) : List (Nat × Nat) :=
  if len = 0 then []
  else (List.range ((va % 4096 + len + 4095) / 4096)).map fun i =>
    let lo := max va ((va / 4096 + i) * 4096)
    (lo, min (va + len) ((va / 4096 + i + 1) * 4096) - lo)

/-- Parts reached in order; the first that waits or faults ends it. -/
def reachParts (s : State) (m : Mover) (u : Use) : List (Nat × Nat) → Reach
  | [] => .ok s []
  | (va, len) :: rest => match reachPage s m u va len with
    | .ok s1 xs => match reachParts s1 m u rest with
      | .ok s2 ys => .ok s2 (xs ++ ys)
      | r => r
    | r => r

/-- Whether a slice takes a request's accesses now: it is not being repartitioned, or the request was in flight before (R168). -/
def sliceTakes (s : State) (core req : Nat) : Bool := match (coreOf s core).change with
  | [] => true
  | ch :: _ => req < ch.mark

/-- The parts of global memory that runs of generic addresses name (R156). -/
def globalParts (s : State) (m : Mover) (xs : List (Nat × Nat)) : List (Nat × Nat) := xs.flatMap fun x =>
  match steer s m.crew m.tid (BitVec.ofNat 64 x.1) x.2 with
  | .glob vas _ => vas.flatMap fun v => pageParts v.1 v.2
  | _ => []

/-- A run of bytes at a generic address (R156): in a bank, or through the translation. -/
def reach (s : State) (m : Mover) (u : Use) (ea len : Nat) : Reach :=
  if len = 0 then .ok s []
  else match steer s m.crew m.tid (BitVec.ofNat 64 ea) len with
    | .bank k (some core) => if sliceTakes s core m.req then .ok s [(k, len)] else .wait s
    | .bank k none => if (movingCrew s m.crew k).isSome then .wait s else .ok s [(k, len)]
    | .bounds r => .fault (engineTrap m tcBOUNDS r ea)
    | .noncanon => .fault (engineTrap m tcPAGE 1 ea)
    | .glob vas _ => reachParts s m u (vas.flatMap fun v => pageParts v.1 v.2)

/-- Several runs reached in order. -/
def reachAll (s : State) (m : Mover) (u : Use) : List (Nat × Nat) → Reach
  | [] => .ok s []
  | (ea, len) :: rest => match reach s m u ea len with
    | .ok s1 xs => match reachAll s1 m u rest with
      | .ok s2 ys => .ok s2 (xs ++ ys)
      | r => r
    | r => r

/-- The bytes of some runs, poisoned atoms reading zero (R372), and whether any was poisoned. -/
def engineRead (s : State) (runs : List (Nat × Nat)) : List Byte × Bool :=
  let ks := runs.flatMap fun r => (List.range r.2).map (r.1 + ·)
  (ks.map fun k => if poisonedAt s k then 0 else homeByte s k, anyPoison s && ks.any (poisonedAt s))

/-- Bytes written over some runs; with `bad` the atoms they reach are poisoned (R372). -/
def engineWrite (s : State) (runs : List (Nat × Nat)) (bs : List Byte) (bad : Bool) : State :=
  let ks := runs.flatMap fun r => (List.range r.2).map (r.1 + ·)
  let s1 := homeWrite s none (ks.zip bs)
  if bad then { s1 with hw := { s1.hw with poison := ((ks.map fun k => place s1 k / 64) ++ s1.hw.poison).eraseDups } } else s1

/-- The number in `n` bytes at the start of a list. -/
def bytesNat (bs : List Byte) (off n : Nat) : Nat := bytesVal ((bs.drop off).take n)

/-! ### Races and watches of engine steps -/

/-- How the check of a step's accesses ends. -/
inductive Checked where
  | ok (s : State)
  | wait (s : State)
  | fault (info : TrapInfo)

/-- Cycles that an engine's write has waited at its home. -/
def engineWaited (s : State) (req : Nat) : Nat := ((s.engineWaits.find? (·.1 == req)).map (·.2.2)).getD 0

/-- Whether a generic address lies in the stack window, whose accesses are not checked (R206). -/
def onStack (s : State) (m : Mover) (ea : Nat) : Bool := match steer s m.crew m.tid (BitVec.ofNat 64 ea) 1 with
  | .glob _ b => b
  | _ => false

/-- The address of a byte at an offset of some runs of addresses. -/
def addrAt : List (Nat × Nat) → Nat → Nat
  | [], _ => 0
  | (ea, len) :: rest, off => if off < len then ea + off else addrAt rest (off - len)

/-- The first poisoned address of some runs of addresses, given the keys they reach (R355, R372). -/
def poisonAddr (s : State) (xs runs : List (Nat × Nat)) : Option Nat :=
  if !anyPoison s then none
  else ((runs.flatMap fun r => (List.range r.2).map (r.1 + ·)).findIdx? (poisonedAt s)).map (addrAt xs)

/-- The race check of an engine's accesses to runs of addresses, given the keys they reach (R206–R210); a write that waits too long raises SHARED or CAPACITY. -/
def engineRace (s : State) (m : Mover) (store : Bool) (xs runs : List (Nat × Nat)) : Checked :=
  let off := fun k : Nat => (runs.foldl (fun (acc : Nat × Option Nat) r =>
    match acc.2 with
    | some _ => acc
    | none => if r.1 ≤ k && k < r.1 + r.2 then (acc.1, some (acc.1 + (k - r.1))) else (acc.1 + r.2, none)) (0, none)).2.getD 0
  let part := fun k : Nat => min (64 - k % 64) ((runs.map (·.2)).foldl (· + ·) 0)
  if onStack s m ((xs.head?.map (·.1)).getD 0) then .ok s
  else
  let forget := fun s : State => { s with engineWaits := s.engineWaits.filter (·.1 != m.req) }
  match raceRuns s { region := .engine m.req, die := m.crew.die, core := m.crew.coreId } store runs with
  | (.ok s1, _) => .ok (forget s1)
  | (.conflict sl, k) => .fault (conflictTrap s sl (BitVec.ofNat 64 (addrAt xs (off k))) k (part k) store 0 0)
  | (.wait w, k) =>
    let limit := ((getCtx s m.crew.ctx).map (·.raceWait)).getD 0x00100000
    if limit < engineWaited s m.req then
      .fault (raceTrap (if w == .shared then 2 else 3) (BitVec.ofNat 64 (addrAt xs (off k) - k % 64 + waitGranule s k (part k) % 64)) 1 0xFFFF 0xFFFF 0 0)
    else if s.engineWaits.any (·.1 == m.req) then .wait s
    else .wait { s with engineWaits := s.engineWaits ++ [(m.req, m.crew.uid, 0)] }

/-- The bytes of a run of generic addresses as the watches see them. -/
def eaSpans (s : State) (m : Mover) (ea len : Nat) : List Span :=
  if len = 0 then []
  else match steer s m.crew m.tid (BitVec.ofNat 64 ea) len with
    | .bank k _ => [{ glob := false, lo := k, len := len, ea := ea }]
    | .glob vas _ => vas.map fun v => { glob := true, lo := v.1, len := v.2, ea := v.1 }
    | _ => []

/-- Whether global bytes all lie in the block that the crew's own generator is filling (R250). -/
def inOwnFill (s : State) (c : Crew) (xs : List Span) : Bool := match c.kind, getCtx s c.ctx with
  | .gen r b _ _, some x => xs.all fun v => v.glob && (match blockOf x v.lo with
      | some (q, i) => q.num == r && i == b && v.lo + v.len ≤ q.blockVa i + 65536 && blockState s c.ctx q i == stFilling
      | none => false)
  | _, _ => false

/-- The watch that a write of some bytes meets, if any (R250). -/
def spanAlias (s : State) (c : Crew) (xs : List Span) : Option (Nat × Node) :=
  if s.nodes.isEmpty || inOwnFill s c xs then none else watchHit s c.ctx xs

/-! ### Deferred engine faults (R291) -/

/-- INST and SIDE codes of the engine detail. -/
def engineDetail (ipc : Word64) (offset side inst : Nat) : List PutField :=
  [{ off := 0, len := 8, val := ipc.toNat }, { off := 8, len := 4, val := offset }, { off := 12, len := 1, val := side },
   { off := 13, len := 1, val := inst }]

/-- The trap that a deferred engine fault raises for a thread. -/
def deferredOf (m : Mover) (info : TrapInfo) (extra : List PutField) (kind2 : Nat) : TrapInfo :=
  { info with tids := [m.tid], lanes := laneMask m.crew [m.tid], deferred := true, kind2 := kind2, extra := extra }

/-- A fault charged to the thread of a request: it traps at the thread's next instruction, or, when the thread has exited, at its crew's (R291). -/
def chargeFault (s : State) (m : Mover) (info : TrapInfo) : State :=
  match getCrew s m.crew.uid with
  | none => s
  | some c =>
    let s1 := logReply s c 10 m.tid info.addr.toNat info.detail
    if (c.thread m.tid).any (·.live) then
      updT s1 c.uid m.tid fun t => { t with deferred := t.deferred ++ [info] }
    else updCrew s1 c.uid fun c => { c with orphanFaults := c.orphanFaults ++ [{ info with exited := true, gang := [m.tid] }] }

/-- A POISON that an engine takes under POISON_EN, and the crew's flag (R372). -/
def enginePoison (s : State) (m : Mover) (addr : Nat) : State × Option TrapInfo :=
  (setPoison s m.crew.uid,
   if (getCtx s m.crew.ctx).any (·.poisonEn) then some (engineTrap m tcPOISON 0 addr) else none)

/-- Bytes delivered to an arrival word (R228): a malformed word, or one that no longer maps, is a fault. -/
def arrivalKey (s : State) (m : Mover) (ea : Word64) : Except (Nat × Nat) Nat :=
  if ea.toNat % 16 != 0 then .error (tcALIGN, 0)
  else match steer s m.crew m.tid ea 16 with
    | .bank k _ => if 8 ≤ memRead s.mem (k + 12) 4 then .error (tcBOUNDS, 10) else .ok k
    | _ => .error (tcBOUNDS, 9)

end Sys2Proof.Machine
end

