-- ==== Sys2Proof/Machine/Tasks.lean ====
section
/-! DEFINITION. The meanings of `spawn`, `join`, `q` and `weir`, and the service of rings at their homes (R272–R276, R286–R289, R295, R297–R299, R302). -/

namespace Sys2Proof.Machine

/-! ### Checks at issue (R295) -/

/-- A trap of some lanes with the address of the lowest. -/
def threadsTrap (e : Env) (code sub : Nat) (bad : List (Thread × Nat)) : Out :=
  let tids := bad.map (·.1.tid)
  trapGang e (trapOf e.c code sub tids [laneField e.c tids] (BitVec.ofNat 64 ((bad.head?.map (·.2)).getD 0)))

/-- The lanes that fail a check, with their address. -/
def failing (e : Env) (f : Thread → Option Nat) : List (Thread × Nat) := e.act.filterMap fun t => (f t).map fun a => (t, a)

/-- The checks of an engine or ring instruction over all active threads: ALIGN, then those that give a code, a sub-code and an address. (DEDUCED, log entry 93) -/
def issueGate (e : Env) (align : Thread → Option Nat) (check : Thread → Option (Nat × Nat × Nat)) (k : Out) : Out :=
  match failing e align with
  | x :: xs => threadsTrap e tcALIGN 0 (x :: xs)
  | [] => match e.act.findSome? check with
    | none => k
    | some (code, sub, _) =>
      threadsTrap e code sub (failing e fun t => (check t).bind fun r => if r.1 = code ∧ r.2.1 = sub then some r.2.2 else none)

/-- The first address of a list that is not a multiple of its number. -/
def misaligned (xs : List (Nat × Nat)) : Option Nat := (xs.find? fun x => x.1 % x.2 != 0).map (·.1)

/-- A failed steering of a run of bytes, with its address (R156, R157). -/
def steerFail (s : State) (c : Crew) (tid ea len : Nat) : Option (Nat × Nat × Nat) :=
  match steer s c tid (BitVec.ofNat 64 ea) len with
  | .bounds r => some (tcBOUNDS, r, ea)
  | .noncanon => some (tcPAGE, 1, ea)
  | _ => none

/-- A failed check of an arrival word's address other than its alignment (R226). -/
def arwFail (s : State) (c : Crew) (tid ea : Nat) : Option (Nat × Nat × Nat) :=
  match steer s c tid (BitVec.ofNat 64 ea) 16 with
  | .bank k _ => if 8 ≤ memRead s.mem (k + 12) 4 then some (tcBOUNDS, 10, ea) else none
  | _ => some (tcBOUNDS, 9, ea)

/-- The arrival word that D names, if any. -/
def arwOf (c : Crew) (t : Thread) (o : Opnd) : Option Nat := match o with
  | .none => none
  | o => some (rd c t o 2)

/-! ### `spawn` (R297) -/

/-- Reason 13: a continuation record and index that are not valid for the run. (DEDUCED, log entry 89) -/
def spawnBad (r : Run) (d i : Nat) : Bool :=
  let span := bitsOf d 60 58
  let succ := bitsOf d 191 160
  bitsOf d 2 1 != 0 || bitsOf d 57 56 != 0 || !(span < r.launch.spans || span == 4 || span == 5)
    || !(succ < r.launch.poolN || succ == 0xFFFFFFFF) || r.launch.poolN ≤ i

/-- Whether a pool entry is free. -/
def entryFree (s : State) (r : Run) (i : Nat) : Bool := !bitAt ((devNum s r.ctx (entryVa r i) 1).getD 0) 0

/-- One lane's spawn: the record is written with V := 1, the counter rises, and with JOIN 0 it enters its ready queue. -/
def spawnOne (r : Run) (span stage : Nat) (s : State) (x : Nat × Nat) : State :=
  let (d, i) := x
  let w := devPut s r.ctx (entryVa r i) 32 (d / 2 * 2 + 1)
  let s1 := { w with lines := w.lines ++ pastCopies s r.ctx ((devKeys s r.ctx (entryVa r i) 32 true).getD []) }
  let s2 := updRun s1 r.id fun r => { r with counter := r.counter + 1, spawned := mput (0, 0) r.spawned i (stage, span) }
  match bitsOf d 159 128, getRun s2 r.id with
  | 0, some r2 => enqueue s2 r2 i span stage
  | _, _ => s2

/-- `spawn` (R297). -/
def execSpawn (a : Args) (s : State) : Out :=
  gangDo a.guard s fun e =>
    if e.act.isEmpty then .next (retire e.is e.s)
    else match e.c.run.bind (getRun e.s) with
      | none => privTrap e 0x6E
      | some r =>
        let arg := fun t : Thread => (rd e.c t a.d 8, rd e.c t a.a 1)
        let stage := if bitAt a.x.toNat 4 then bitsOf a.x.toNat 3 0 else e.c.stage
        let bad13 := e.act.filter fun t => spawnBad r (arg t).1 (arg t).2
        let bad14 := e.act.filter fun t => !entryFree e.s r (arg t).2 || (e.act.takeWhile (·.tid != t.tid)).any fun u => (arg u).2 == (arg t).2
        if bad13.isEmpty && e.act.any (fun t => entryHeld e.s r (arg t).2) then keepGang e
        else if !bad13.isEmpty then threadsTrap e tcBOUNDS 13 (bad13.map fun t => (t, 0))
        else if !bad14.isEmpty then threadsTrap e tcBOUNDS 14 (bad14.map fun t => (t, 0))
        else withRelease 2 e fun e =>
          let s1 := (e.act.map arg).foldl (spawnOne r e.c.span stage) e.s
          .next (retire e.is (syncActive s1 e.is.crew (e.act.map (·.tid))))

/-! ### `join` (R302) -/

/-- The lanes of a `join`, after the check of their index and the release, once nothing keeps their accesses waiting. -/
def joinLanes (a : Args) (s : State) (held : State → Run → Nat → Bool) (f : State → Run → Nat → State × Nat) : Out :=
  gangDo a.guard s fun e =>
    let run := e.c.run.bind (getRun e.s)
    let bad := e.act.filter fun t => match run with
      | some r => r.launch.poolN ≤ rd e.c t a.a 1
      | none => true
    if !bad.isEmpty then threadsTrap e tcBOUNDS 13 (bad.map fun t => (t, 0))
    else withRelease 2 e fun e => unlessHeld e (run.any fun r => e.act.any fun t => held e.s r (rd e.c t a.a 1)) <|
      let s1 := e.act.foldl (fun s t => match run.bind fun r => getRun s r.id with
        | none => s
        | some r =>
          let (s1, v) := f s r (rd e.c t a.a 1)
          match a.d with
          | .none => s1
          | d => putD s1 e.is.crew t.tid d v) e.s
      .next (retire e.is (syncActive s1 e.is.crew (e.act.map (·.tid))))

/-- `join.dec` (R302). -/
def execJoinDec (a : Args) (s : State) : Out :=
  joinLanes a s entryHeld fun s r i => match lowerJoin s r i with
    | none => (s, 0xFFFFFFFF)
    | some (s1, j) => (if j = 0 then enqueueSpawned s1 r i else s1, j)

/-- `join.ret` (R302): the entry is retired; a record still waiting or queued never starts, and a crew started from it retires nothing further. -/
def execJoinRet (a : Args) (s : State) : Out :=
  joinLanes a s entryRetireHeld fun s r i =>
    if entryFree s r i then (s, 0)
    else
      let s1 := { s with
        ready := s.ready.filter fun x => !(x.run == r.id && x.entry == some i)
        crews := s.crews.map fun c => if c.run == some r.id && c.kind == .task i then { c with entryGone := true } else c }
      (retireEntry s1 r i, 1)

/-! ### Rings at issue (R298, R299) -/

/-- The register of a pop's D. -/
def dstPlace : Opnd → Option (Nat × Bool)
  | .v k => some (k, false)
  | .s k => some (k, true)
  | _ => none

/-- One lane's request sent to the home. -/
def sendRing (a : Args) (op : RingOp) (c : Crew) (pc : Word64) (s : State) (t : Thread) : State :=
  let desc := BitVec.ofNat 64 (rd c t a.a 2)
  let dst := if op.isPush || op == .popa then none else dstPlace a.d
  let r : RingReq := {
    id := s.nextId, crew := c.uid, tid := t.tid, core := c.coreId, pc := pc, op := op, desc := desc
    entry := if op.isPush then rd c t a.d 8 else 0, dst := (dst.map (·.1)).getD 1024, dstIsS := (dst.map (·.2)).getD false
    arw := if op == .popa then some (BitVec.ofNat 64 (rd c t a.d 2)) else none, made := s.cycle, lane := c.lane t.tid
    buf := BitVec.ofNat 64 (rd c t a.b 2)
    pred := match a.c with
      | .none => none
      | o => some (numOf o) }
  let s1 := countUp { s with rings := s.rings ++ [r], nextId := s.nextId + 1 } c.uid t.tid (op.count (· + 1))
  if op.holds then holdT s1 c.uid [t.tid] (if op.waits then .ring r.id c.counted desc else .service r.id) else s1

/-- The scope at which a ring's operations synchronise: device, or system when its descriptor lies on another device or in host or CXL memory (R288). -/
def ringScope (s : State) (c : Crew) (desc : Nat) : Nat := if farAt s c.ctx desc then 3 else 2

/-- A ring instruction: the checks at issue, the release of a push, and one request for each active thread in lane order. -/
def ringInstr (a : Args) (op : RingOp) (s : State) : Out :=
  gangDo a.guard s fun e =>
    let desc := fun t => rd e.c t a.a 2
    let align := fun t => misaligned ([(desc t, 64)] ++ (if op == .popa then [(rd e.c t a.d 2, 16), (rd e.c t a.b 2, 32)] else []))
    let check := fun t : Thread => match steerFail e.s e.c t.tid (desc t) 64 with
      | some f => some f
      | none =>
        if op != .popa then none
        else match arwFail e.s e.c t.tid (rd e.c t a.d 2) with
          | some f => some f
          | none => match steer e.s e.c t.tid (BitVec.ofNat 64 (rd e.c t a.b 2)) 32 with
            | .bank k none => if keySpace k = 16384 + e.c.uid then none else some (tcBOUNDS, 5, rd e.c t a.b 2)
            | _ => some (tcBOUNDS, 5, rd e.c t a.b 2)
    issueGate e align check <|
      let send := fun e : Env =>
        let s1 := e.act.foldl (sendRing a op e.c e.is.pc) e.s
        let s2 := if op.isPush then syncActive s1 e.is.crew (e.act.map (·.tid)) else s1
        if op.holds then
          .next (retireSome e.is (e.is.tids.filter fun i => !(e.act.map (·.tid)).contains i) s2)
        else .next (retire e.is s2)
      if op.isPush then withRelease (e.act.foldl (fun m t => max m (ringScope e.s e.c (desc t))) 2) e send else send e

/-- `q.push` (R298). -/
def execQPush (a : Args) (s : State) : Out := ringInstr a .push s
/-- `q.pop` (R298). -/
def execQPop (a : Args) (s : State) : Out := ringInstr a .pop s
/-- `q.pop.try` (R298). -/
def execQPopTry (a : Args) (s : State) : Out := ringInstr a .popTry s
/-- `q.popa` (R298). -/
def execQPopa (a : Args) (s : State) : Out := ringInstr a .popa s
/-- `weir.push` (R299), with `.try` in M[4]. -/
def execWeirPush (a : Args) (s : State) : Out := ringInstr a (if bitAt a.m.toNat 4 then .weirPushTry else .weirPush) s
/-- `weir.pop` (R299), with `.try` in M[4]. -/
def execWeirPop (a : Args) (s : State) : Out := ringInstr a (if bitAt a.m.toNat 4 then .weirPopTry else .weirPop) s

/-! ### Ring descriptors (R286) -/

/-- A ring descriptor from its 64 bytes. -/
structure Ring where
  base : Nat
  slots : Nat
  kind : Nat
  ended : Bool
  head : Nat
  tail : Nat
  deriving DecidableEq, Repr

def ringOf (v : Nat) : Ring :=
  { base := bitsOf v 63 0, slots := bitsOf v 95 64, kind := bitsOf v 103 96, ended := bitAt v 104, head := bitsOf v 191 128, tail := bitsOf v 255 192 }

/-- Reason 15: a descriptor that is not valid, or not of the kind. -/
def ringBad (v kind : Nat) : Bool :=
  let r := ringOf v
  r.base % 32 != 0 || bitsOf r.base 63 56 != 0 || r.slots < 2 || 2 ^ 24 < r.slots || r.slots != 2 ^ Nat.log2 r.slots || r.kind != kind
    || bitsOf v 111 105 != 0 || bitsOf v 127 112 != 0 || bitsOf v 511 256 != 0 || r.slots < (r.tail + 2 ^ 64 - r.head) % 2 ^ 64

/-- Entries in a ring. -/
def Ring.used (r : Ring) : Nat := (r.tail + 2 ^ 64 - r.head) % 2 ^ 64
def Ring.entryVa (r : Ring) (n : Nat) : Nat := r.base + 32 * (n % r.slots)

/-- `weir.free` (R299): the descriptor is read at its home, and D receives the free-slot count. -/
def execWeirFree (a : Args) (s : State) : Out :=
  gangDo a.guard s fun e =>
    let ls := e.act.map fun t =>
      let ea := BitVec.ofNat 64 (rd e.c t a.a 2)
      ({ t := t, ea := ea, tgt := steer e.s e.c t.tid ea 64 } : LaneAcc)
    memGate e { w := 64, load := true, strong := true, now := true } ls fun s rs =>
      let s := rs.foldl (fun u l => lanePoisons s u e.c l) s
      let read := rs.map fun l => (l, bytesVal (readPieces s e.c l.1.t.tid { strong := true, policy := 0 } l.2).2)
      let bad := read.filter fun x => ringBad x.2 2 || !(x.1.2.all (·.glob))
      if !bad.isEmpty then threadsTrap { e with s := s } tcBOUNDS 15 (bad.map fun x => (x.1.1.t, x.1.1.ea.toNat))
      else
        let s1 := read.foldl (fun s x => putD s e.is.crew x.1.1.t.tid a.d ((ringOf x.2).slots - (ringOf x.2).used)) s
        let go := rs.map (·.1.t.tid)
        .next (retireSome e.is (e.is.tids.filter fun i => !(e.act.map (·.tid)).contains i || go.contains i) s1)

/-! ### Service at the home (R288) -/

/-- INST of an operation's engine detail. -/
def RingOp.inst : RingOp → Nat
  | .push => 10
  | .pop | .popTry => 11
  | .popa => 3
  | .weirPush | .weirPushTry => 12
  | .weirPop | .weirPopTry => 13

/-- KIND of the descriptor that an operation needs. -/
def RingOp.kind : RingOp → Nat
  | .push | .pop | .popTry | .popa => 1
  | _ => 2

/-- A request of a ring ends: its counter falls, and a thread it held moves past the word. -/
def endRing (s : State) (r : RingReq) : State :=
  let s1 := countUp { s with rings := s.rings.filter (·.id != r.id) } r.crew r.tid (r.op.count (· - 1))
  if r.op.holds then updCrew s1 r.crew fun c => match c.thread r.tid with
    | some t => (match t.hold with
      | .ring i _ _ | .service i => if i = r.id then moveTo [r.tid] (fun _ => r.pc + 8) c else c
      | _ => c)
    | none => c
  else s1

/-- The predicate of a request written. -/
def ringPred (s : State) (r : RingReq) (b : Bool) : State := match r.pred with
  | some k => updT s r.crew r.tid fun t => if t.live then wp t k b else t
  | none => s

/-- The deferred fault of a ring operation, which has no effect (R291). (DEDUCED, log entry 94) -/
def ringFault (s : State) (m : Mover) (r : RingReq) (info : TrapInfo) (side : Nat) : State :=
  let s1 := if r.op.isPush then ringPred s r false else s
  chargeFault (endRing s1 r) m (deferredOf m info (engineDetail r.pc 0 side r.op.inst) 2)

/-- The entry that a pop found, delivered: its acquire is made and its region ends. -/
def deliver (s : State) (c : Crew) (r : RingReq) (v : Nat) : State :=
  let s1 := updCrew s r.crew fun c =>
    if (c.thread r.tid).any (·.live) then
      (if r.dst = 1024 then c else if r.dstIsS then { c with s := groupPut c.s r.dst v 8 } else c.upd r.tid fun t => { t with v := groupPut t.v r.dst v 8 })
    else c
  acquireOn (syncPoint (endRing (ringPred s1 r true) r) r.crew r.tid) c.coreId (ringScope s c r.desc.toNat)

/-- Whether a waiting request cannot be served in the ring's present state. -/
def stuck (g : Ring) (q : RingReq) : Bool := q.waiting && (if q.op.isPush then !g.ended && g.used == g.slots else g.used == 0)

/-- Whether a request that reached the home earlier is to be served first (R288). -/
def olderWaits (s : State) (r : RingReq) (g : Ring) : Bool :=
  s.rings.any fun q => q.home == r.home && 0 < q.order && q.order < r.order && q.answer.isNone && !stuck g q

/-- Whether a request on its way reaches its descriptor's home, at `key`, only later: one that its thread, or its instruction in a lower home lane, sent to the same descriptor is still on its way, or one of a higher %core or home lane has come in this cycle (R288). (DEDUCED, log entry 148) -/
def comesLater (s : State) (r : RingReq) (key : Nat) : Bool :=
  (s.rings.any fun q => q.id < r.id && q.order == 0 && q.desc == r.desc && q.crew == r.crew && (q.tid == r.tid || (q.pc == r.pc && q.made == r.made)))
    || s.ringCame.any fun x => x.1 == s.cycle && x.2.1 == key && (r.core < x.2.2.1 || (r.core == x.2.2.1 && r.lane < x.2.2.2))

/-- A request reaches its descriptor's home. -/
def comesHome (s : State) (r : RingReq) (key : Nat) : State × RingReq :=
  if r.order ≠ 0 then (s, r)
  else
    let r1 := { r with order := s.nextId, home := key }
    ({ s with
      rings := s.rings.map fun q => if q.id = r.id then r1 else q
      nextId := s.nextId + 1
      ringCame := (s.ringCame.filter (·.1 == s.cycle)) ++ [(s.cycle, key, r.core, r.lane)] }, r1)

def markWaiting (s : State) (r : RingReq) : State :=
  { s with rings := s.rings.map fun q => if q.id = r.id then { q with waiting := true } else q }

/-- Poisoned bytes met in a ring's descriptor or entry: the flag, and a fault when POISON is enabled (R372). (DEDUCED, log entry 96) -/
def ringPoison (s : State) (m : Mover) (r : RingReq) (bad : Bool) (side ea : Nat) (k : State → Out) : Out :=
  if !bad then k s
  else match enginePoison s m ea with
    | (s1, some f) => .next (ringFault s1 m r f side)
    | (s1, none) => k s1

/-- A push at the home (R287, R288, R299). -/
def servePush (s : State) (m : Mover) (r : RingReq) (runs : List (Nat × Nat)) (g : Ring) : Out :=
  if g.ended || ((r.op == .push || r.op == .weirPushTry) && g.used == g.slots) then .next (endRing (ringPred s r false) r)
  else if g.used == g.slots then .next (markWaiting s r)
  else match reach s m { store := true } (g.entryVa g.tail) 32 with
    | .wait s1 => .next s1
    | .fault f => .next (ringFault s m r f 2)
    | .ok s1 eruns =>
      let s2 := engineWrite s1 eruns ((byteList 0 r.entry 32).map (·.2)) false
      let k := (runs.head?.map (·.1)).getD 0
      let s3 := homeWriteN s2 (k + 24) 8 ((g.tail + 1) % 2 ^ 64)
      let s4 := if bitAt r.entry 1 then homeWriteN s3 (k + 13) 1 1 else s3
      .next (endRing (ringPred s4 r true) r)

/-- A pop at the home (R287, R288). -/
def servePop (s : State) (m : Mover) (r : RingReq) (runs : List (Nat × Nat)) (g : Ring) : Out :=
  if g.used = 0 then
    if r.op == .popTry || r.op == .weirPopTry then .next (endRing (ringPred s r false) r) else .next (markWaiting s r)
  else match reach s m { load := true } (g.entryVa g.head) 32 with
    | .wait s1 => .next s1
    | .fault f => .next (ringFault s m r f 1)
    | .ok s1 eruns =>
      let (bs, bad) := engineRead s1 eruns
      ringPoison s1 m r bad 1 (g.entryVa g.head) fun s1 =>
        let v := bytesVal bs
        let k := (runs.head?.map (·.1)).getD 0
        let s2 := if bitAt v 1 then s1 else homeWriteN s1 (k + 16) 8 ((g.head + 1) % 2 ^ 64)
        if r.op == .popa then .next { s2 with rings := s2.rings.map fun q => if q.id = r.id then { q with answer := some v, waiting := false } else q }
        else .next (deliver s2 m.crew r v)

/-- RING_SERVE (R288): a request reaches its descriptor's home, and is served there in its turn, with the descriptor and the entry locked together; one whose result its crew's full log cannot take waits at its source (R370). -/
def execRingServe (req : Nat) (s : State) : Out :=
  match s.rings.find? fun r => r.id == req && r.answer.isNone with
  | none => .next s
  | some r => match getCrew s r.crew with
    | none => .next s
    | some c =>
      let m : Mover := { req := req, crew := c, tid := r.tid }
      if engineHeld s req || logBlocked s c then .next s
      else
        let go := fun (s : State) (late : Option TrapInfo) => match reach s m { load := true, store := true } r.desc.toNat 64 with
          | .wait s1 => match late with
            | some f => Host.Outcome.next (ringFault s m r f 5)
            | none => .next s1
          | .fault f => .next (ringFault s m r (late.getD f) 5)
          | .ok s1 runs => match late with
            | some f => .next (ringFault s m r f (if r.op.isPush then 2 else 1))
            | none =>
              let key := (runs.head?.map fun x => place s1 x.1).getD 0
              if r.order = 0 && comesLater s1 r key then .next s1 else
              let (s1, r) := comesHome s1 r key
              let (bs, bad) := engineRead s1 runs
              ringPoison s1 m r bad 5 r.desc.toNat fun s1 =>
                let v := bytesVal bs
                if ringBad v r.op.kind || inAperture s1 c.ctx r.desc.toNat then .next (ringFault s1 m r (engineTrap m tcBOUNDS 15 r.desc.toNat) 5)
                else if olderWaits s1 r (ringOf v) then .next s1
                else if r.op.isPush then servePush s1 m r runs (ringOf v) else servePop s1 m r runs (ringOf v)
        match takeFault s req with
        | some (f, s1) => go s1 (some f)
        | none => go s none

/-- Bytes delivered at an arrival word, or the code and reason of its fault (R228). -/
def arriveAtWord (s : State) (m : Mover) (ea : Word64) (n : Nat) : Except (Nat × Nat) State :=
  match arrivalKey s m ea with
  | .error x => .error x
  | .ok k =>
    let t := memRead s.mem k 4
    let c := (memRead s.mem (k + 4) 4 + n) % 2 ^ 32
    let g := memRead s.mem (k + 8) 4
    let f := memRead s.mem (k + 12) 4
    if t ≠ 0 ∧ t ≤ c then
      let keep := bitAt f 0
      let late := bitAt f 1 || t < c
      .ok { s with mem := memWrite (memWrite (memWrite (memWrite s.mem k 4 (if keep then t else 0)) (k + 4) 4 0) (k + 8) 4 ((g + 1) % 2 ^ 32)) (k + 12) 4 (keep.toNat + 2 * late.toNat) }
    else .ok { s with mem := memWrite s.mem (k + 4) 4 c }

/-- An arrival of an engine, logged for a crew that is away (R369). -/
def engineArrive (s : State) (m : Mover) (ea : Word64) (n : Nat) : Except (Nat × Nat) State :=
  match getCrew s m.crew.uid with
  | some c => arriveAtWord (logReply s c 9 m.req ea.toNat [{ off := 0, len := 8, val := n }]) m ea n
  | none => arriveAtWord s m ea n

/-- POPA_ANSWER (R298): the entry is written to scratchpad, and the arrival word receives 32 bytes. -/
def execPopaAnswer (req : Nat) (s : State) : Out :=
  match s.rings.find? (·.id == req) with
  | none => .next s
  | some r => match r.answer, getCrew s r.crew with
    | some v, some c =>
      let m : Mover := { req := req, crew := c, tid := r.tid }
      if logBlocked s c then .next s else
      let s0 := logReply s c 6 r.tid r.buf.toNat [{ off := 0, len := 32, val := v }]
      let s1 := match steer s0 c r.tid r.buf 32 with
        | .bank k _ => homeWriteN s0 k 32 v
        | _ => s0
      match r.arw with
      | none => .next (endRing s1 r)
      | some w => match arriveAtWord s1 m w 32 with
        | .ok s2 => .next (endRing s2 r)
        | .error (code, sub) => .next (ringFault s1 m r (engineTrap m code sub w.toNat) 4)
    | _, _ => .next s

end Sys2Proof.Machine
end

