-- ==== Sys2Proof/Machine/Flume.lean ====
section
/-! DEFINITION. The meanings of `cpy` and `cpyg`, the chunks that Flume performs for them, and the raising of deferred engine faults (R290, R291, R296). -/

namespace Sys2Proof.Machine

/-! ### Issue (R295, R296) -/

/-- A failed check of a `cpyg`'s element size (reason 16). -/
def sizeFail (z ea : Nat) : Option (Nat × Nat × Nat) := if z % 16 = 0 ∧ 16 ≤ z ∧ z ≤ 4096 then none else some (tcBOUNDS, 16, ea)

/-- The first of some checks that fails. -/
def firstFail : List (Option (Nat × Nat × Nat)) → Option (Nat × Nat × Nat)
  | [] => none
  | some f :: _ => some f
  | none :: rest => firstFail rest

/-- What one thread asks of Flume. -/
def flumeOf (a : Args) (gather : Bool) (c : Crew) (pc : Word64) (id : Nat) (t : Thread) : FlumeReq :=
  let q := rd c t a.c 4
  let z := bitsOf q 127 96
  { id := id, crew := c.uid, tid := t.tid, die := c.die, core := c.coreId, pc := pc, gather := gather
    dst := BitVec.ofNat 64 (rd c t a.a 2), src := BitVec.ofNat 64 (rd c t a.b 2)
    len := if gather then bitsOf q 95 64 * z else rd c t a.c 1, list := BitVec.ofNat 64 (bitsOf q 63 0), elem := z
    arw := (arwOf c t a.d).map (BitVec.ofNat 64), pin := bitsOf a.m.toNat 3 2 == 3 }

/-- ALIGN at issue. -/
def flumeAlign (r : FlumeReq) : Option Nat :=
  misaligned ((r.arw.map fun w => (w.toNat, 16)).toList
    ++ if r.gather then [(r.list.toNat, 4)] else [(r.dst.toNat, 16), (r.src.toNat, 16), (r.len, 16)])

/-- The checks of one lane at issue after its alignment: steering, then the arrival word (R295). -/
def flumeCheck (s : State) (c : Crew) (r : FlumeReq) : Option (Nat × Nat × Nat) :=
  firstFail [steerFail s c r.tid r.dst.toNat r.len, steerFail s c r.tid r.src.toNat (if r.gather then 0 else r.len),
    if r.gather then firstFail [sizeFail r.elem r.list.toNat, steerFail s c r.tid r.list.toNat (r.len / r.elem * 4)] else none,
    r.arw.bind fun w => arwFail s c r.tid w.toNat]

/-- `cpy` and `cpyg`: the checks over all active threads, then one request for each, in lane order. -/
def flumeInstr (a : Args) (gather : Bool) (s : State) : Out :=
  gangDo a.guard s fun e =>
    let req := fun t => flumeOf a gather e.c e.is.pc 0 t
    issueGate e (fun t => flumeAlign (req t)) (fun t => flumeCheck e.s e.c (req t)) <|
      let spans := fun t : Thread => eaSpans e.s { req := 0, crew := e.c, tid := t.tid } (req t).dst.toNat (req t).len
      let hit := e.act.filter fun t => (spanAlias e.s e.c (spans t)).isSome
      match spanAlias e.s e.c (hit.flatMap spans) with
      | some (addr, n) =>
        let tids := hit.map (·.tid)
        let m := laneMask e.c tids
        trapGang e { tileAlias e.is.crew 2 addr m n with tids := tids, lanes := m }
      | none =>
        .next (retire e.is (e.act.foldl (fun s t =>
          countUp { s with flume := s.flume ++ [{ req t with id := s.nextId }], nextId := s.nextId + 1 } e.is.crew t.tid
            fun k => { k with copies := k.copies + 1 }) e.s))

/-- `cpy` (R296). -/
def execCpy (a : Args) (s : State) : Out := flumeInstr a false s

/-- `cpyg` (R296). -/
def execCpyg (a : Args) (s : State) : Out := flumeInstr a true s

/-! ### Chunks (R290) -/

/-- How a part of an engine's step ends: it goes on, waits, or faults on a side; beside a fault stand the crews whose poison flag the step had found or set by then. -/
inductive Part (α : Type) where
  | ok (s : State) (x : α)
  | wait (s : State)
  | stop (info : TrapInfo) (side : Nat) (flags : List Nat)

/-- A fault on a side. -/
def Part.fault {α : Type} (info : TrapInfo) (side : Nat) : Part α := .stop info side []

/-- The poison flags that a step had set when it faulted stay set: only what it would have written is given up (R372). -/
def keepPoison (s : State) (flags : List Nat) : State := flags.foldl setPoison s

/-- The end of a step that reaches `parts` of global memory: a wait that ended with a fault at one of them ends it with that fault (R162, R194). -/
def settle (late : Option TrapInfo) (side : Nat) (parts : List (Nat × Nat)) (r : Reach) : Part (List (Nat × Nat)) :=
  match lateFault late parts with
  | some f => .fault f side
  | none => match r with
    | .ok s1 runs => .ok s1 runs
    | .fault f => .fault f side
    | .wait s1 => .wait s1

/-- Runs reached for one side. -/
def reachSide (s : State) (m : Mover) (u : Use) (late : Option TrapInfo) (side : Nat) (xs : List (Nat × Nat)) : Part (List (Nat × Nat)) :=
  settle late side (if late.isNone then [] else globalParts s m xs) (reachAll s m u xs)

/-- The race check of one side of a step. -/
def raceSide (s : State) (m : Mover) (store : Bool) (side : Nat) (xs runs : List (Nat × Nat)) : Part Unit :=
  match engineRace s m store xs runs with
  | .ok s1 => .ok s1 ()
  | .wait s1 => .wait s1
  | .fault f => .fault f side

/-- The next part of a step. -/
def Part.bind {α β : Type} (p : Part α) (f : State → α → Part β) : Part β := match p with
  | .ok s x => (match f s x with
    | .stop i side [] => .stop i side ((s.crews.filter (·.poisonFlag)).map (·.uid))
    | p => p)
  | .wait s => .wait s
  | .stop i side flags => .stop i side flags

/-- Bytes of some runs, each with whether it is poisoned. -/
def markedRead (s : State) (runs : List (Nat × Nat)) : List (Byte × Bool) :=
  (runs.flatMap fun r => (List.range r.2).map (r.1 + ·)).map fun k => if poisonedAt s k then (0, true) else (homeByte s k, false)

/-- Bytes written over some runs; an atom that takes a poisoned byte becomes poisoned (R372). -/
def markedWrite (s : State) (runs : List (Nat × Nat)) (bs : List (Byte × Bool)) : State :=
  let ks := runs.flatMap fun r => (List.range r.2).map (r.1 + ·)
  let s1 := homeWrite s none (ks.zip (bs.map (·.1)))
  if bs.any (·.2) then
    let bad := ((ks.zip bs).filter (·.2.2)).map fun x => place s1 x.1 / 64
    { s1 with hw := { s1.hw with poison := (bad ++ s1.hw.poison).eraseDups } }
  else s1

/-- Bytes of a chunk. -/
def FlumeReq.chunkLen (r : FlumeReq) : Nat := min 4096 (r.len - 4096 * r.done)

/-- Chunks of a copy; one with no bytes has one. -/
def FlumeReq.chunks (r : FlumeReq) : Nat := max 1 ((r.len + 4095) / 4096)

/-- Elements of a gather that the chunk needs. -/
def FlumeReq.lastElem (r : FlumeReq) : Nat := (4096 * r.done + r.chunkLen + r.elem - 1) / r.elem

/-- What a copy has read of its list: the indices, the positions of the poisoned ones, and the first poisoned address of this chunk's reads. -/
structure ListRead where
  idx : List Nat
  bad : List Nat
  at_ : Option Nat := none

/-- The list read until it holds the indices of the chunk, 4 KiB at a time. (DEDUCED, log entry 98) -/
def readList (m : Mover) (r : FlumeReq) (late : Option TrapInfo) : Nat → State → ListRead → Part ListRead
  | 0, s, x => .ok s x
  | n + 1, s, x =>
    if r.lastElem ≤ x.idx.length then .ok s x
    else
      let ea := r.list.toNat + 4 * x.idx.length
      let len := 4 * min 1024 (r.len / r.elem - x.idx.length)
      (reachSide s m { load := true } late 3 [(ea, len)]).bind fun s1 runs =>
        (raceSide s1 m false 3 [(ea, len)] runs).bind fun s2 _ =>
          let bs := markedRead s2 runs
          let is := List.range (len / 4)
          readList m r late n s2 {
            idx := x.idx ++ is.map fun i => bytesNat (bs.map (·.1)) (4 * i) 4
            bad := x.bad ++ (is.filter fun i => ((bs.drop (4 * i)).take 4).any (·.2)).map (x.idx.length + ·)
            at_ := x.at_ <|> poisonAddr s2 [(ea, len)] runs }

/-- The source addresses of a chunk, in destination order. -/
def chunkSource (r : FlumeReq) (idx : List Nat) : List (Nat × Nat) :=
  let lo := 4096 * r.done
  let hi := lo + r.chunkLen
  if r.chunkLen = 0 then []
  else if !r.gather then [(r.src.toNat + lo, r.chunkLen)]
  else (List.range (r.lastElem - lo / r.elem)).map fun i =>
    let j := lo / r.elem + i
    let from' := max lo (j * r.elem)
    ((r.src.toNat + (idx[j]?).getD 0 * r.elem + (from' - j * r.elem)) % 2 ^ 64, min hi ((j + 1) * r.elem) - from')

/-- A gathered element that leaves the aperture of its base (R296). -/
def leavesAperture (s : State) (m : Mover) (r : FlumeReq) (x : Nat × Nat) : Bool :=
  inAperture s m.crew.ctx r.src.toNat && (!inAperture s m.crew.ctx x.1 || x.1 < r.src.toNat)

/-- The bytes of a chunk with those of poisoned list entries marked: what is written from them is poisoned too (R372). -/
def markGathered (r : FlumeReq) (bad : List Nat) (bs : List (Byte × Bool)) : List (Byte × Bool) :=
  if bad.isEmpty then bs
  else ((List.range bs.length).zip bs).map fun x => (x.2.1, x.2.2 || bad.contains ((4096 * r.done + x.1) / r.elem))

/-- The lines of this device that a chunk's destination takes, pinned (R169, R296). -/
def pinRuns (s : State) (ctx : Nat) (runs : List (Nat × Nat)) : State :=
  let lines := (runs.filter fun r => keySpace r.1 < 2).flatMap fun r =>
    (List.range ((r.1 % 64 + r.2 + 63) / 64)).map fun i => place s (r.1 / 64 * 64 + 64 * i) / 64
  lines.eraseDups.foldl (pinLine ctx) s

/-- One chunk: the list, the whole source, then the destination, with the alias and race checks; with the list as read, and the address and side of the first poisoned byte. -/
def flumeStep (s : State) (m : Mover) (r : FlumeReq) (late : Option TrapInfo) : Part (ListRead × Option (Nat × Nat)) :=
  (if r.gather then readList m r late 8 s { idx := r.idx, bad := r.badIdx } else .ok s { idx := r.idx, bad := r.badIdx }).bind fun s l =>
    let s := if l.at_.isSome then setPoison s m.crew.uid else s
    let xs := chunkSource r l.idx
    let dea := r.dst.toNat + 4096 * r.done
    match xs.find? (leavesAperture s m r) with
    | some x => .fault (engineTrap m tcBOUNDS 6 x.1) 1
    | none =>
      (reachSide s m { load := true } late 1 xs).bind fun s srcs =>
        (reachSide s m { store := true } late 2 (if r.chunkLen = 0 then [] else [(dea, r.chunkLen)])).bind fun s dsts =>
          match spanAlias s m.crew (eaSpans s m dea r.chunkLen) with
          | some (addr, n) => .fault (tileAlias m.crew.uid 2 addr (laneMask m.crew [m.tid]) n) 2
          | none =>
            (raceSide s m false 1 xs srcs).bind fun s _ =>
              (raceSide s m true 2 [(dea, r.chunkLen)] dsts).bind fun s _ =>
                let bs := markGathered r l.bad (markedRead s srcs)
                let bad := (l.at_.map fun a => (a, 3)) <|> ((poisonAddr s xs srcs).map fun a => (a, 1))
                let s1 := markedWrite s dsts bs
                .ok (if r.pin then pinRuns s1 m.crew.ctx dsts else s1) (l, bad)

/-- A copy leaves Flume: its counter falls. -/
def endFlume (s : State) (r : FlumeReq) : State :=
  countUp { s with flume := s.flume.filter (·.id != r.id), engineWaits := s.engineWaits.filter (·.1 != r.id) } r.crew r.tid fun k => { k with copies := k.copies - 1 }

/-- A fault of a copy's step (R291). -/
def flumeFault (s : State) (m : Mover) (r : FlumeReq) (info : TrapInfo) (side : Nat) : State :=
  chargeFault (endFlume s r) m (deferredOf m info (engineDetail r.pc (4096 * r.done) side (if r.gather then 2 else 1)) 2)

/-- The arrival of a chunk, and the copy's end after the last (R290, R228). -/
def flumeArrive (s : State) (m : Mover) (r : FlumeReq) : State :=
  let fin := fun s : State =>
    if r.done + 1 = r.chunks then endFlume s r
    else { s with flume := s.flume.map fun q => if q.id = r.id then { q with done := r.done + 1, idx := r.idx, badIdx := r.badIdx } else q }
  match r.arw with
  | none => fin s
  | some w => match engineArrive s m w r.chunkLen with
    | .ok s1 => fin s1
    | .error (code, sub) => flumeFault s m r (engineTrap m code sub w.toNat) 4

/-- FLUME_CHUNK (R290): Flume performs one chunk of at most 4 KiB and arrives with its bytes. -/
def execFlumeChunk (req : Nat) (s : State) : Out :=
  match s.flume.find? (·.id == req) with
  | none => .next s
  | some r => match getCrew s r.crew with
    | none => .next s
    | some c =>
      let m : Mover := { req := req, crew := c, tid := r.tid }
      if engineHeld s req || logBlocked s c || engineStopped s c 2 then .next s
      else
        let (s0, late) : State × Option TrapInfo := match takeFault s req with
          | some (f, s1) => (s1, some f)
          | none => (s, none)
        match flumeStep s0 m r late with
        | .wait s1 => .next s1
        | .stop f side fl => .next (flumeFault (keepPoison s0 fl) m r f side)
        | .ok s1 (l, bad) =>
          let r1 := { r with idx := l.idx, badIdx := l.bad }
          match bad with
          | none => .next (flumeArrive s1 m r1)
          | some (addr, side) => match enginePoison s1 m addr with
            | (s2, some f) => .next (flumeFault s2 m r1 f side)
            | (s2, none) => .next (flumeArrive s2 m r1)

/-! ### Deferred engine faults (R291) -/

/-- The word that issued a request, from the engine detail of its fault. -/
def issuingPc (f : TrapInfo) : Word64 := BitVec.ofNat 64 (((f.extra.find? (·.off == 0)).map (·.val)).getD 0)

/-- DEFERRED_ENGINE_FAULT (R291): the fault is raised at the next instruction its thread issues, or, when no thread of the crew is live, at once. -/
def execDeferredEngineFault (crew tid : Nat) (s : State) : Out :=
  match getCrew s crew with
  | none => .next s
  | some c =>
    if c.halt.isSome || ctxOff s c.ctx || (c.where_ != .resident && c.threads.any (·.live)) then .next s
    else if !c.threads.any (·.live) then
      match c.orphanFaults with
      | f :: fs => .next (raise (updCrew s crew fun c => { c with orphanFaults := fs }) crew (issuingPc f) f.gang f)
      | [] => .next s
    else match (coreGroups s c.coreId).find? fun g => g.crew == crew && (gangOf g).contains tid with
      | none => .next s
      | some g =>
        let is : Issue := { crew := crew, pc := g.pc, tids := gangOf g }
        if !(gangThreads c is).any (fun t => !t.deferred.isEmpty) && c.orphanFaults.isEmpty then .next s
        else match preTrap s c is with
          | some (f, clear) => .next (takePre s c is f clear)
          | none => .next s

end Sys2Proof.Machine
end

