-- ==== Sys2Proof/Machine/Coll.lean ====
section
/-! DEFINITION. Collectives: their descriptors and group records, the match with the other members, and the chunks of 64 KiB (R292, R300); the jobs of a Quern (R293, R301). -/

namespace Sys2Proof.Machine

/-! ### Descriptors read at issue -/

/-- A read of `len` bytes at a generic address by a lane, on the core path. -/
def recordLane (e : Env) (t : Thread) (ea len : Nat) : LaneAcc :=
  { t := t, ea := BitVec.ofNat 64 ea, tgt := match steer e.s e.c t.tid (BitVec.ofNat 64 ea) len with
      | .glob vas k => .glob (vas.flatMap fun v => pageParts v.1 v.2) k
      | r => r }

/-- The bytes that a lane reads. -/
def recordBytes (s : State) (c : Crew) (l : Ready') (len : Nat) : Nat := match l.1.tgt with
  | .bank k _ => bytesVal (homeBytes s k len)
  | _ => bytesVal (readPieces s c l.1.t.tid { strong := true, policy := 0 } l.2).2

/-- Records read by the lanes that `addr` names, after the checks of the core path; `k` receives each lane's number. -/
def readRecords (e : Env) (xs : List (Thread × Nat × Nat)) (k : Env → List (Thread × Nat) → Out) : Out :=
  memGate e { w := 1, load := true, now := true } (xs.map fun x => recordLane e x.1 x.2.1 x.2.2) fun s rs =>
    let read := rs.map fun l => (l.1.t, recordBytes s e.c l (((xs.find? fun x => x.1.tid == l.1.t.tid).map (·.2.2)).getD 0))
    k { e with s := rs.foldl (fun u l => lanePoisons s u e.c l) s } read

/-- The threads of a gang that go past an instruction when only some lanes went on. -/
def pastWith (e : Env) (go : List Nat) (s : State) : Out :=
  .next (retireSome e.is (e.is.tids.filter fun i => !(e.act.map (·.tid)).contains i || go.contains i) s)

/-- The checks at issue of `coll` and `dcmp`: the arrival word in D and the descriptor in A. -/
def jobGate (a : Args) (e : Env) (k : Out) : Out :=
  issueGate e (fun t => misaligned (((arwOf e.c t a.d).map fun w => (w, 16)).toList ++ [(rd e.c t a.a 2, 64)]))
    (fun t => firstFail [steerFail e.s e.c t.tid (rd e.c t a.a 2) 64, (arwOf e.c t a.d).bind (arwFail e.s e.c t.tid)]) k

/-- Reason 16 for some lanes. -/
def badRecord (e : Env) (a : Args) (bad : List Thread) : Out := threadsTrap e tcBOUNDS 16 (bad.map fun t => (t, rd e.c t a.a 2))

/-! ### Collectives (R292) -/

/-- Bytes `k` to `k + n − 1` of a record as a number. -/
def partOf (v k n : Nat) : Nat := bitsOf v (8 * (k + n) - 1) (8 * k)

/-- Whether a collective descriptor is malformed in itself. -/
def collBad (v : Nat) : Bool :=
  let op := partOf v 32 1
  partOf v 24 8 == 0 || 2 ^ 40 < partOf v 24 8 || 3 < op || 4 < partOf v 33 1 || ((op == 0 || op == 2) && 2 < partOf v 34 1)
    || partOf v 35 1 != 0 || partOf v 44 20 != 0

/-- Members of a group record. -/
def groupOf (v n : Nat) : List Nat := (List.range n).map fun i => partOf v (8 + 2 * i) 2

/-- Whether a group record, with its descriptor, is malformed: it names this device exactly once, and the root is a rank. -/
def groupBad (s : State) (d g n : Nat) : Bool :=
  partOf g 4 4 != 0 || ((groupOf g n).filter (· == s.hw.node.toNat)).length != 1 || (partOf d 32 1 == 3 && n ≤ partOf d 36 2)

/-- Position of this device in a list. -/
def rankIn (s : State) (g : List Nat) : Nat := (g.takeWhile (· != s.hw.node.toNat)).length

/-- One collective issued. -/
def issueColl (a : Args) (c : Crew) (pc : Word64) (s : State) (x : Thread × Nat × List Nat) : State :=
  let (t, d, g) := x
  let tag := partOf d 38 2
  let seq := ((s.collSeq.find? fun q => q.1 == tag && q.2.1 == g).map (·.2.2)).getD 0
  let r : CollReq := {
    id := s.nextId, crew := c.uid, tid := t.tid, die := c.die, core := c.coreId, pc := pc, desc := BitVec.ofNat 64 (rd c t a.a 2)
    arw := (arwOf c t a.d).map (BitVec.ofNat 64), src := partOf d 0 8, dst := partOf d 8 8, op := partOf d 32 1, ty := partOf d 33 1
    red := partOf d 34 1, count := partOf d 24 8, root := partOf d 36 2, rank := rankIn s g, group := g, tag := tag, seq := seq }
  countUp { s with
    colls := s.colls ++ [r], nextId := s.nextId + 1
    collSeq := (tag, g, seq + 1) :: s.collSeq.filter fun q => !(q.1 == tag && q.2.1 == g) } c.uid t.tid fun k => { k with copies := k.copies + 1 }

/-- `coll` (R300): the descriptor and the group record are read at issue. -/
def execColl (a : Args) (s : State) : Out :=
  gangDo a.guard s fun e => jobGate a e <|
    readRecords e (e.act.map fun t => (t, rd e.c t a.a 2, 64)) fun e1 ds =>
      let bad := ds.filter fun x => collBad x.2
      if !bad.isEmpty then badRecord e1 a (bad.map (·.1))
      else readRecords e1 (ds.map fun x => (x.1, partOf x.2 16 8, 8)) fun e2 hs =>
        let n := fun t : Thread => (((hs.find? fun h => h.1.tid == t.tid).map (·.2)).getD 0) % 2 ^ 32
        let go := ds.filter fun x => hs.any fun h => h.1.tid == x.1.tid
        let bad := go.filter fun x => n x.1 < 2 || 4096 < n x.1
        if !bad.isEmpty then badRecord e2 a (bad.map (·.1))
        else readRecords e2 (go.map fun x => (x.1, partOf x.2 16 8, 8 + 2 * n x.1)) fun e3 gs =>
          let full := gs.filterMap fun g => (ds.find? fun x => x.1.tid == g.1.tid).map fun x => (x.1, x.2, g.2)
          let bad := full.filter fun x => groupBad e3.s x.2.1 x.2.2 (n x.1)
          if !bad.isEmpty then badRecord e3 a (bad.map (·.1))
          else
            let s1 := (full.map fun x => (x.1, x.2.1, groupOf x.2.2 (n x.1))).foldl (issueColl a e.c e.is.pc) e3.s
            pastWith e3 (full.map (·.1.tid)) s1

/-- A collective leaves its engine: the counter falls. -/
def endColl (s : State) (r : CollReq) : State :=
  countUp { s with colls := s.colls.filter (·.id != r.id), engineWaits := s.engineWaits.filter (·.1 != r.id) } r.crew r.tid fun k => { k with copies := k.copies - 1 }

/-- STATUS written at the descriptor, where it can be reached. -/
def putStatus (s : State) (m : Mover) (ea v : Nat) : State := match reach s m { store := true } ea 4 with
  | .ok s1 runs => engineWrite s1 runs ((byteList 0 v 4).map (·.2)) false
  | _ => s

/-- A local fault of a collective: STATUS 4, and the deferred fault (R291, R292). -/
def collFaultAt (s : State) (m : Mover) (r : CollReq) (info : TrapInfo) (side : Nat) : State :=
  chargeFault (endColl (putStatus s m (r.desc.toNat + 40) 4) r) m (deferredOf m info (engineDetail r.pc (65536 * r.done) side 4) 2)

/-- Whether two members' collectives agree. -/
def agrees (r : CollReq) (p : CollPeer) : Bool :=
  p.op == r.op && p.ty == r.ty && (p.red == r.red) && p.count == r.count && p.root == r.root && p.group == r.group

/-- Elements that a member's input holds. -/
def CollReq.inputLen (r : CollReq) (rank : Nat) : Nat := match r.op with
  | 2 => r.group.length * r.count
  | 3 => if rank = r.root then r.count else 0
  | _ => r.count

/-- COLL_MATCH (R292): the k-th collectives of all members are matched; where they differ, STATUS becomes 2 and nothing is written. (DEDUCED, log entry 100) -/
def execCollMatch (req : Nat) (peers : List CollPeer) (s : State) : Out :=
  match s.colls.find? fun r => r.id == req && r.matched.isNone with
  | none => .next s
  | some r => match getCrew s r.crew with
    | none => .next s
    | some c =>
      let m : Mover := { req := req, crew := c, tid := r.tid }
      let first := s.colls.all fun q => !(q.matched.isNone && q.tag == r.tag && q.group == r.group && q.seq < r.seq)
      let others := (List.range r.group.length).filter (· != r.rank)
      if !first || engineHeld s req || engineStopped s c 5 || peers.map (·.rank) != others then .next s
      else if !peers.all (agrees r) then
        match reachSide s m { store := true } none 5 [(r.desc.toNat + 40, 4)] with
        | .ok s1 _ => .next (endColl (putStatus s1 m (r.desc.toNat + 40) 2) r)
        | .wait s1 => .next s1
        | .stop f side _ => .next (if logBlocked s c then s else chargeFault (endColl s r) m (deferredOf m f (engineDetail r.pc 0 side 4) 2))
      else if !peers.all fun p => r.inputLen p.rank ≤ p.input.length then .next s
      else .next { s with colls := s.colls.map fun q => if q.id = req then { q with matched := some peers } else q }

/-! ### Chunks -/

/-- Bytes of an element. -/
def CollReq.size (r : CollReq) : Nat := match r.ty with
  | 1 => 8
  | 2 => 2
  | _ => 4

/-- Elements of the output. -/
def CollReq.outLen (r : CollReq) : Nat := if r.op = 1 then r.group.length * r.count else r.count

def CollReq.chunks (r : CollReq) : Nat := (r.outLen * r.size + 65535) / 65536

/-- First element of the chunk, and the one after its last. -/
def CollReq.window (r : CollReq) : Nat × Nat :=
  let per := 65536 / r.size
  (r.done * per, min r.outLen ((r.done + 1) * per))

/-- Elements of SRCBUF that the chunk reads, in pieces: first and count. A reduce-scatter reads its part of every rank's block. -/
def CollReq.reads (r : CollReq) : List (Nat × Nat) :=
  let (lo, hi) := r.window
  (match r.op with
  | 0 => [(lo, hi - lo)]
  | 1 =>
    let a := max lo (r.rank * r.count)
    let b := min hi ((r.rank + 1) * r.count)
    [(a - r.rank * r.count, b - a)]
  | 2 => (List.range r.group.length).map fun j => (j * r.count + lo, hi - lo)
  | _ => if r.rank = r.root then [(lo, hi - lo)] else []).filter (·.2 != 0)

/-- Where element `i` of SRCBUF stands among the elements that some pieces read, if they do. -/
def pieceIndex : List (Nat × Nat) → Nat → Option Nat
  | [], _ => none
  | (a, n) :: rest, i => if a ≤ i ∧ i < a + n then some (i - a) else (pieceIndex rest i).map (n + ·)

/-- The element of SRCBUF that element `e` of the output takes from this member. -/
def CollReq.uses (r : CollReq) (e : Nat) : Option Nat := match r.op with
  | 0 => some e
  | 1 => if e / r.count = r.rank then some (e % r.count) else none
  | 2 => some (r.rank * r.count + e)
  | _ => if r.rank = r.root then some e else none

/-- One step of a reduction, RNE in the type with subnormals kept (R292). -/
def reduce2 (ty red x y : Nat) : Nat :=
  let int := fun signed : Bool =>
    let (i, j) := (asInt signed 32 x, asInt signed 32 y)
    match red with
    | 0 => (x + y) % 2 ^ 32
    | 1 => if j < i then y else x
    | _ => if i < j then y else x
  let float := fun f : Fmt => match red with
    | 0 => cvtTo f .rne false false ((f.dec x).add .rne (f.dec y))
    | 1 => minmaxBits f false false x y
    | _ => minmaxBits f true false x y
  match ty with
  | 0 => float fp32
  | 1 => float fp64
  | 2 => float bf16
  | 3 => int true
  | _ => int false

/-- Element `e` of the output, folded in ascending rank; `own` gives this member's input elements. -/
def outElem (r : CollReq) (peers : List CollPeer) (own : Nat → Nat) (e : Nat) : Nat :=
  let input := fun rank i : Nat =>
    if rank = r.rank then own i
    else ((peers.find? (·.rank == rank)).bind fun p => p.input[i]?).getD 0 % 256 ^ r.size
  let fold := fun i : Nat => match (List.range r.group.length).map fun k => input k i with
    | [] => 0
    | x :: xs => xs.foldl (reduce2 r.ty r.red) x
  match r.op with
  | 0 => fold e
  | 1 => input (e / r.count) (e % r.count)
  | 2 => fold (r.rank * r.count + e)
  | _ => input r.root e

/-- One chunk: the source, the output and, at the last, the descriptor are reached and checked; then the output is written. -/
def collStep (s : State) (m : Mover) (r : CollReq) (peers : List CollPeer) (late : Option TrapInfo) : Part (Option Nat × Nat) :=
  let (lo, hi) := r.window
  let last := r.done + 1 = r.chunks
  let xs := r.reads.map fun p => (r.src + p.1 * r.size, p.2 * r.size)
  let ys := [(r.dst + lo * r.size, (hi - lo) * r.size)]
  let ds := if last then [(r.desc.toNat + 40, 4)] else []
  (reachSide s m { load := true } late 1 xs).bind fun s srcs =>
    (reachSide s m { store := true } late 2 ys).bind fun s dsts =>
      (reachSide s m { store := true } late 5 ds).bind fun s stat =>
        (raceSide s m false 1 xs srcs).bind fun s _ => (raceSide s m true 2 ys dsts).bind fun s _ => (raceSide s m true 5 ds stat).bind fun s _ =>
          let bs := markedRead s srcs
          let raw := bs.map (·.1)
          let own := fun i : Nat => ((pieceIndex r.reads i).map fun k => bytesNat raw (k * r.size) r.size).getD 0
          let ownBad := fun e : Nat => ((r.uses e).bind (pieceIndex r.reads)).any fun k => ((bs.drop (k * r.size)).take r.size).any (·.2)
          let out := (List.range (hi - lo)).flatMap fun i => (byteList 0 (outElem r peers own (lo + i)) r.size).map fun b => (b.2, ownBad (lo + i))
          let s1 := markedWrite s dsts out
          let s2 := if last then engineWrite s1 stat ((byteList 0 1 4).map (·.2)) false else s1
          .ok s2 (poisonAddr s xs srcs, (hi - lo) * r.size)

/-- The arrival of a chunk, and the end after the last. -/
def collArrive (s : State) (m : Mover) (r : CollReq) (n : Nat) : State :=
  let fin := fun s : State =>
    if r.done + 1 = r.chunks then endColl s r
    else { s with colls := s.colls.map fun q => if q.id = r.id then { q with done := r.done + 1 } else q }
  match r.arw with
  | none => fin s
  | some w => match engineArrive s m w n with
    | .ok s1 => fin s1
    | .error (code, sub) => collFaultAt s m r (engineTrap m code sub w.toNat) 4

/-- COLL_CHUNK (R292): the engine moves and reduces one chunk of 64 KiB. -/
def execCollChunk (req : Nat) (s : State) : Out :=
  match s.colls.find? (·.id == req) with
  | none => .next s
  | some r => match getCrew s r.crew, r.matched with
    | some c, some peers =>
      let m : Mover := { req := req, crew := c, tid := r.tid }
      if engineHeld s req || logBlocked s c || engineStopped s c 5 then .next s
      else
        let (s0, late) : State × Option TrapInfo := match takeFault s req with
          | some (f, s1) => (s1, some f)
          | none => (s, none)
        match collStep s0 m r peers late with
        | .wait s1 => .next s1
        | .stop f side fl => .next (collFaultAt (keepPoison s0 fl) m r f side)
        | .ok s1 (none, n) => .next (collArrive s1 m r n)
        | .ok s1 (some addr, n) => match enginePoison s1 m addr with
          | (s2, some f) => .next (collFaultAt s2 m r f 1)
          | (s2, none) => .next (collArrive s2 m r n)
    | _, _ => .next s

/-! ### Quern jobs (R301) -/

/-- Whether a job descriptor is malformed. -/
def jobBad (v : Nat) : Bool :=
  partOf v 0 8 % 64 != 0 || partOf v 8 8 % 64 != 0 || partOf v 16 4 == 0 || 2 ^ 20 < partOf v 16 4 || 1 < partOf v 20 1
    || partOf v 21 3 != 0 || partOf v 36 28 != 0

/-- One job submitted. -/
def issueJob (a : Args) (c : Crew) (pc : Word64) (s : State) (x : Thread × Nat) : State :=
  let (t, d) := x
  let q : QuernJob := {
    id := s.nextId, crew := c.uid, tid := t.tid, die := c.die, core := c.coreId, pc := pc, desc := BitVec.ofNat 64 (rd c t a.a 2)
    src := BitVec.ofNat 64 (partOf d 0 8), dst := BitVec.ofNat 64 (partOf d 8 8), blocks := partOf d 16 4, expand := partOf d 20 1 == 1
    arw := (arwOf c t a.d).map (BitVec.ofNat 64) }
  countUp { s with querns := s.querns ++ [q], nextId := s.nextId + 1 } c.uid t.tid fun k => { k with copies := k.copies + 1 }

/-- `dcmp` (R301): the job descriptor is read at issue. -/
def execDcmp (a : Args) (s : State) : Out :=
  gangDo a.guard s fun e => jobGate a e <|
    readRecords e (e.act.map fun t => (t, rd e.c t a.a 2, 64)) fun e1 ds =>
      let bad := ds.filter fun x => jobBad x.2
      if !bad.isEmpty then badRecord e1 a (bad.map (·.1))
      else pastWith e1 (ds.map (·.1.tid)) (ds.foldl (issueJob a e.c e.is.pc) e1.s)

/-- Runs of global addresses reached by a Quern, which takes no aperture address (R156). -/
def quernReach (s : State) (m : Mover) (u : Use) (late : Option TrapInfo) (side : Nat) (xs : List (Nat × Nat)) : Part (List (Nat × Nat)) :=
  let parts := xs.flatMap fun x => pageParts x.1 x.2
  settle late side parts (reachParts s m u parts)

/-- A job leaves its Quern. -/
def endJob (s : State) (q : QuernJob) : State :=
  countUp { s with querns := s.querns.filter (·.id != q.id) } q.crew q.tid fun k => { k with copies := k.copies - 1 }

/-- A fault of a job (R291). -/
def jobFault (s : State) (m : Mover) (q : QuernJob) (info : TrapInfo) (side : Nat) : State :=
  chargeFault (endJob s q) m (deferredOf m info (engineDetail q.pc (65536 * q.done) side 5) 2)

/-- Bytes written to DSTBUF once a job has done some blocks. -/
def jobOut (q : QuernJob) (done pos : Nat) : Nat :=
  if q.expand then 65536 * done else pos + (if done = q.blocks then tableLen q.blocks else 8 * done)

/-- STATUS, OUTLEN and FAILBLK as one number of 12 bytes. -/
def jobResult (q : QuernJob) (status done pos fail : Nat) : Nat := status + 2 ^ 32 * (jobOut q done pos % 2 ^ 32) + 2 ^ 64 * fail

/-- What a block comes to: the runs to write with their bytes and the payload bytes of the image, or the status that ends the job, with the poisoned address. -/
inductive BlockEnd where
  | good (ws : List (Nat × List Byte)) (pos : Nat)
  | bad (status : Nat) (addr : Nat := 0)

/-- One block read and worked. -/
def quernWork (s : State) (m : Mover) (q : QuernJob) (late : Option TrapInfo) : Part BlockEnd :=
  let src := q.src.toNat
  let dst := q.dst.toNat
  if !q.expand then
    let xs := [(src + 65536 * q.done, 65536)]
    (quernReach s m { load := true } late 1 xs).bind fun s runs =>
      let (bs, bad) := engineRead s runs
      if bad then .ok s (.bad 3 ((poisonAddr s xs runs).getD 0))
      else
        let payload := (packBlock bs).2
        let entry := ((byteList 0 (packEntry bs) 8).map (·.2))
        let pad := if q.done + 1 = q.blocks then List.replicate (tableLen q.blocks - 8 * q.blocks) 0 else []
        .ok s (.good [(dst + 8 * q.done, entry ++ pad), (dst + tableLen q.blocks + q.pos, payload)] (q.pos + payload.length))
  else
    let xs := [(src + 8 * q.done, 8)]
    (quernReach s m { load := true } late 1 xs).bind fun s runs =>
      let (es, bad) := engineRead s runs
      let entry := bytesVal es
      if bad then .ok s (.bad 3 ((poisonAddr s xs runs).getD 0))
      else if !entryOk entry then .ok s (.bad 2)
      else
        let xs := [(src + tableLen q.blocks + q.pos, entryLen entry)]
        (quernReach s m { load := true } late 1 xs).bind fun s runs =>
        let (bs, bad) := engineRead s runs
        if bad then .ok s (.bad 3 ((poisonAddr s xs runs).getD 0))
        else match expandBlock entry bs with
          | none => .ok s (.bad 2)
          | some out => .ok s (.good [(dst + 65536 * q.done, out)] (q.pos + entrySpan entry))

/-- One block: worked, its destination and, at the job's end, the descriptor reached, then written. (DEDUCED, log entry 101) -/
def quernStep (s : State) (m : Mover) (q : QuernJob) (late : Option TrapInfo) : Part (BlockEnd × Nat) :=
  (quernWork s m q late).bind fun s w => match w with
    | .good ws pos =>
      let last := q.done + 1 = q.blocks
      (quernReach s m { store := true } late 2 (ws.map fun x => (x.1, x.2.length))).bind fun s dsts =>
        (reachSide s m { store := true } late 5 (if last then [(q.desc.toNat + 24, 12)] else [])).bind fun s stat =>
          let s1 := engineWrite s dsts (ws.flatMap (·.2)) false
          let s2 := if last then engineWrite s1 stat ((byteList 0 (jobResult q 1 q.blocks pos 0xFFFFFFFF) 12).map (·.2)) false else s1
          .ok s2 (.good ws pos, (ws.map (·.2.length)).foldl (· + ·) 0)
    | .bad status addr =>
      let s := if status = 3 then setPoison s m.crew.uid else s
      (reachSide s m { store := true } late 5 [(q.desc.toNat + 24, 12)]).bind fun s stat =>
        .ok (engineWrite s stat ((byteList 0 (jobResult q status q.done q.pos q.done) 12).map (·.2)) false) (.bad status addr, 0)

/-- The arrival of a block, and the end after the last. -/
def jobArrive (s : State) (m : Mover) (q : QuernJob) (pos n : Nat) : State :=
  let fin := fun s : State =>
    if q.done + 1 = q.blocks then endJob s q
    else { s with querns := s.querns.map fun x => if x.id = q.id then { x with done := q.done + 1, pos := pos } else x }
  match q.arw with
  | none => fin s
  | some w => match engineArrive s m w n with
    | .ok s1 => fin s1
    | .error (code, sub) => jobFault s m q (engineTrap m code sub w.toNat) 4

/-- QUERN_BLOCK (R301): the die's Quern works one block of its oldest job, after the expansions of R197. -/
def execQuernBlock (req : Nat) (s : State) : Out :=
  match s.querns.find? (·.id == req) with
  | none => .next s
  | some q => match getCrew s q.crew with
    | none => .next s
    | some c =>
      let m : Mover := { req := req, crew := c, tid := q.tid }
      if engineHeld s req || logBlocked s c || engineStopped s c 6 || s.querns.any (fun x => x.die == q.die && x.id < q.id) || s.expansions.any (·.1 == q.die) then .next s
      else
        let (s0, late) : State × Option TrapInfo := match takeFault s req with
          | some (f, s1) => (s1, some f)
          | none => (s, none)
        match quernStep s0 m q late with
        | .wait s1 => .next s1
        | .stop f side fl => .next (jobFault (keepPoison s0 fl) m q f side)
        | .ok s1 (.good _ pos, n) => .next (jobArrive s1 m q pos n)
        | .ok s1 (.bad status addr, _) =>
          if status = 3 then match enginePoison s1 m addr with
            | (s2, some f) => .next (jobFault s2 m q f 1)
            | (s2, none) => .next (endJob s2 q)
          else .next (endJob s1 q)

end Sys2Proof.Machine
end

