-- ==== Sys2Proof/Machine/Order.lean ====
section
/-! DEFINITION. The meanings of atomics, fences, `wait` and arrival words (R211–R229). -/

namespace Sys2Proof.Machine

/-! ### Atomics (R221, R222) -/

/-- The fields of an atomic's modifier and X. -/
structure AtomMods where
  op : Nat
  order : Nat
  scope : Nat
  w64 : Bool
  signed : Bool
  deriving DecidableEq, Repr

def atomMods (a : Args) : AtomMods :=
  { op := bitsOf a.m.toNat 7 4, order := bitsOf a.m.toNat 3 2, scope := bitsOf a.m.toNat 1 0, w64 := bitAt a.x.toNat 0, signed := bitAt a.x.toNat 1 }

/-- Bytes of the operand. -/
def AtomMods.w (k : AtomMods) : Nat := if k.w64 then 8 else 4

def AtomMods.acquires (k : AtomMods) : Bool := bitAt k.order 0
def AtomMods.releases (k : AtomMods) : Bool := bitAt k.order 1

/-- OpFn of R222 on values of `w` bytes. -/
def atomFn (op w : Nat) (signed : Bool) (old b c : Nat) : Nat :=
  let n := 8 * w
  match op with
  | 0 => (old + b) % 2 ^ n
  | 1 => if asInt signed n b < asInt signed n old then b else old
  | 2 => if asInt signed n old < asInt signed n b then b else old
  | 3 => old &&& b
  | 4 => old ||| b
  | 5 => old ^^^ b
  | 6 => b
  | 7 => if old = b then c else old
  | 8 =>
    let f := if w = 8 then fp64 else fp32
    cvtTo f .rne false false ((f.dec old).add .rne (f.dec b))
  | _ => if keyLess b old then b else old

/-- Whether the operation writes: cas only when the expected value stands there. -/
def atomWrites (op old b : Nat) : Bool := op != 7 || old == b

/-- The bytes of an access's pieces, in order. -/
def pieceKeys (ps : List Piece) : List Nat := ps.flatMap fun p => (List.range p.len).map (p.key + ·)

/-- One atomic read-modify-write at its home (R219): queued writes of the thread drain first; a poisoned atom is not changed and reads zero (R372). -/
def atomAt (s : State) (c : Crew) (tid : Nat) (ps : List Piece) (op w : Nat) (signed : Bool) (b x : Nat) : State × Nat :=
  let ks := pieceKeys ps
  let s1 := drainStores s c.uid tid (ks.map fun k => (k, 0))
  let s2 := ps.foldl (fun s p => if p.glob then dropL1Line s c.coreId (place s p.key / 64) else s) s1
  if ps.any fun p => poisonedAt s2 p.key then (setPoison s2 c.uid, 0)
  else
    let old := bytesVal (ks.map (homeByte s2))
    if atomWrites op old b then (homeWrite (keepPast s2 c.ctx ks) none (pieceBytes (atomFn op w signed old b x) ps), old) else (s2, old)

/-- The lanes of an atomic: each active thread at the address in A. -/
def atomLanes (e : Env) (a : Args) (w : Nat) : List LaneAcc :=
  e.act.map fun t =>
    let ea := BitVec.ofNat 64 (rd e.c t a.a 2)
    { t := t, ea := ea, tgt := steer e.s e.c t.tid ea w }

/-- The lanes of an instruction that may go on move past it; the others stay. -/
def retireLanes (e : Env) (s : State) (go : List Nat) : State :=
  retireSome e.is (e.is.tids.filter fun i => !(e.act.map (·.tid)).contains i || go.contains i) s

/-- `atom` and `red` (R222): the checks, the release, each lane in order, the acquire. (DEDUCED, log entry 25; DEDUCED, log entry 63) -/
def doAtomic (a : Args) (s : State) (load : Bool) : Out :=
  let k := atomMods a
  let n := if k.w64 then 2 else 1
  gangDo a.guard s fun e =>
    memGate e { w := k.w, load := true, store := true, strong := true, now := true } (atomLanes e a k.w) fun s rs =>
      let go := rs.map (·.1.t.tid)
      let staying := (e.act.map (·.tid)).filter fun i => !go.contains i
      let gate := fun cont : State → Out =>
        if k.releases then releaseGate k.scope s e.is.crew (e.is.tids.filter fun i => !staying.contains i) go cont else cont s
      gate fun s =>
        let s1 := onceS s.loads.length <| rs.foldl (fun s l =>
          let t := l.1.t
          let (s2, old) := atomAt s e.c t.tid l.2 k.op k.w k.signed (rd e.c t a.b n) (rd e.c t a.c n)
          if load then issueLoad s2 e.is.crew t.tid a.d n old none (pieceAtoms s2 l.2) l.1.ea (piecesPeer l.2) else issueAck s2 e.c t) s
        let s2 := if k.acquires then acquire s1 e.is.crew k.scope else s1
        let s3 := if k.order != 0 then syncActive s2 e.is.crew go else s2
        .next (retireLanes e s3 go)

/-- `atom` (R222). -/
def execAtom (a : Args) (s : State) : Out := doAtomic a s true

/-- `red` (R222). -/
def execRed (a : Args) (s : State) : Out := doAtomic a s false

/-! ### Fences (R223, R224) -/

/-- `fence` (R223). -/
def execFence (a : Args) (s : State) : Out :=
  let k := atomMods a
  gangDo a.guard s fun e =>
    let fin := fun e : Env =>
      let s1 := if k.acquires && !e.act.isEmpty then acquire e.s e.is.crew k.scope else e.s
      .next (retire e.is (syncActive s1 e.is.crew (e.act.map (·.tid))))
    if k.releases then withRelease k.scope e fin else fin e

/-- Whether a thread has a request outstanding on a path (R218 step 1). -/
def pathBusy (s : State) (uid tid path : Nat) : Bool :=
  match path with
  | 1 => s.flume.any fun r => r.crew == uid && r.tid == tid
  | 2 => s.tileReqs.any fun r => r.crew == uid && r.tids.contains tid
  | 3 => s.filters.any fun r => r.crew == uid && r.tid == tid
  | 4 => (s.slots.any fun r => r.crew == uid && r.tid == tid && !r.final) || (s.replays.any fun r => r.crew == uid && r.tid == tid)
      || s.vis.any fun r => r.crew == uid && r.tid == tid
  | 5 => s.colls.any fun r => r.crew == uid && r.tid == tid
  | 6 => s.querns.any fun r => r.crew == uid && r.tid == tid
  | _ => false

/-- The stacks whose caches an `xfence` invalidates (R218, R224). -/
def fenceStacks (a : Args) (die scope : Nat) : List Nat :=
  match a.imm with
  | some m => (List.range 16).filter fun j => bitAt m.toNat j
  | none => if scope < 2 then (List.range 4).map (4 * die + ·) else List.range 16

/-- Step 3 of R218. -/
def dropPath (s : State) (c : Crew) (path scope : Nat) (which : List Nat) : State :=
  match path with
  | 0 => acquireOn s c.coreId scope
  | 3 => { s with lines := s.lines.filter fun l => !(l.ctx == c.ctx && ((which.any fun j => l.kind == .sampler j) || (l.kind == .past 3 && (!isHbm (16 * l.sector) || which.contains (homeStack (16 * l.sector)))))) }
  | 4 => { s with lines := s.lines.filter fun l => !(l.ctx == c.ctx && ((which.any fun j => l.kind == .node j) || l.kind == .past 4)) }
  | _ => s

/-- `xfence` (R218, R224): once per instruction, after the threads' own requests on P1 are complete, or, where P1 is the core path, their stores acknowledged as a release at the scope asks; those that still stand queued are then performed. -/
def execXfence (a : Args) (s : State) : Out :=
  let p1 := bitsOf a.m.toNat 7 5
  let p2 := bitsOf a.m.toNat 4 2
  let scope := bitsOf a.m.toNat 1 0
  gangDo a.guard s fun e =>
    let fin := fun e : Env =>
      if e.act.isEmpty then .next (retire e.is e.s)
      else .next (retire e.is (dropPath e.s e.c p2 scope (fenceStacks a e.c.die scope)))
    if p1 = 0 then withRelease scope e fun e => fin { e with s := passStores e.s 3 e.is.crew (e.act.map (·.tid)) }
    else if e.act.any fun t => pathBusy e.s e.is.crew t.tid p1 then .next { holdGang e.s e.is.crew e.is.tids [] .none with issue := none }
    else fin e

/-! ### `wait` (R225) -/

/-- `wait` (R225): threads above a limit are held at the word; the gang goes on when none is. (DEDUCED, log entry 43) -/
def execWait (a : Args) (s : State) : Out :=
  gangDo a.guard s fun e =>
    let over' := (e.act.filter fun t => !waitMet (Args.immN a) t).map (·.tid)
    if over'.isEmpty then .next (retire e.is e.s)
    else .next { holdGang e.s e.is.crew e.is.tids over' (.wait (Args.immN a) e.c.counted) with issue := none }

/-! ### Arrival words (R226, R227) -/

/-- An arrival word as it stands at a bank. -/
structure ArrWord where
  target : Nat
  count : Nat
  gen : Nat
  flags : Nat
  deriving DecidableEq, Repr

def readArr (s : State) (k : Nat) : ArrWord :=
  { target := memRead s.mem k 4, count := memRead s.mem (k + 4) 4, gen := memRead s.mem (k + 8) 4, flags := memRead s.mem (k + 12) 4 }

def writeArr (s : State) (k : Nat) (w : ArrWord) : State :=
  { s with mem := memWrite (memWrite (memWrite (memWrite s.mem k 4 w.target) (k + 4) 4 w.count) (k + 8) 4 w.gen) (k + 12) 4 w.flags }

/-- Complete() of R227. -/
def completeArr (w : ArrWord) : ArrWord :=
  if w.target ≠ 0 ∧ w.target ≤ w.count then
    let keep := bitAt w.flags 0
    let over' := bitAt w.flags 1 || w.target < w.count
    { target := if keep then w.target else 0, count := 0, gen := (w.gen + 1) % 2 ^ 32, flags := keep.toNat + 2 * over'.toNat }
  else w

/-- The lanes' own queued stores to their words are performed first: a thread's accesses to one granule take effect in program order (R206, R212). -/
def settleArr (s : State) (uid : Nat) (ls : List (Nat × Nat)) : State :=
  ls.foldl (fun s l => drainStores s uid l.1 ((List.range 16).map fun i => (l.2 + i, 0))) s

/-- Bytes added to a word's count; a generation may complete (R227, R228). -/
def arriveArr (s : State) (k n : Nat) : State :=
  let w := readArr s k
  writeArr s k (completeArr { w with count := (w.count + n) % 2 ^ 32 })

/-- A malformed word: a reserved flag is set (R226). (DEDUCED, log entry 64) -/
def arrBad (s : State) (k : Nat) : Bool := 8 ≤ (readArr s k).flags

/-- What the check of a word's address gives: its key, or the trap code and reason (R226). -/
def arrKey (s : State) (c : Crew) (ea : Word64) : Except (Nat × Nat) Nat :=
  if ea.toNat % 16 != 0 then .error (tcALIGN, 0)
  else match steer s c 0 ea 16 with
    | .bank k _ => if arrBad s k then .error (tcBOUNDS, 10) else .ok k
    | _ => .error (tcBOUNDS, 9)

/-- One lane of an `arw`: its thread, its address, and the key of its word. -/
structure ArrLane where
  t : Thread
  ea : Word64
  key : Nat

/-- The slice whose repartition keeps an address waiting (R168). -/
def arrSlice (s : State) (c : Crew) (ea : Word64) : Option Nat := match steer s c 0 ea 16 with
  | .bank _ (some core) => if (coreOf s core).change.isEmpty then none else some core
  | _ => none

/-- The keys of the words that active lanes name, where the address is a bank's whose slice takes accesses. -/
def arrKeys (e : Env) (ea : Thread → Word64) : List (Nat × Nat) := e.act.filterMap fun t =>
  if (ea t).toNat % 16 != 0 || (arrSlice e.s e.c (ea t)).isSome then none
  else match steer e.s e.c 0 (ea t) 16 with
    | .bank k _ => some (t.tid, k)
    | _ => none

/-- The lanes' own stores to their words are performed; then the checks, ALIGN first; then `k` on the lanes, in order. -/
def arrLanes (a : Args) (e : Env) (k : State → List ArrLane → Out) : Out :=
  let at' := fun t : Thread => addr64 ((rd e.c t a.a 2 : Nat) + Args.xs a)
  let e := { e with s := settleArr e.s e.is.crew (arrKeys e at') }
  let ls := e.act.map fun t => (t, at' t, arrKey e.s e.c (at' t))
  let fails := fun (code : Nat) => ls.filter fun l => match l.2.2 with
    | .error (k, _) => k == code
    | .ok _ => false
  let trap := fun (code : Nat) (xs : List (Thread × Word64 × Except (Nat × Nat) Nat)) =>
    let tids := xs.map (·.1.tid)
    let sub := match xs.head?.map (·.2.2) with
      | some (.error (_, r)) => r
      | _ => 0
    trapGang e (trapOf e.c code sub tids [laneField e.c tids] ((xs.head?.map (·.2.1)).getD 0))
  if !(fails tcALIGN).isEmpty then trap tcALIGN (fails tcALIGN)
  else if !(fails tcBOUNDS).isEmpty then trap tcBOUNDS (fails tcBOUNDS)
  else
    let held := ls.filterMap fun l => (arrSlice e.s e.c l.2.1).map fun core => (l.1.tid, core)
    if !held.isEmpty then .next { held.foldl (fun s h => holdGang s e.is.crew e.is.tids [h.1] (.slice h.2)) e.s with issue := none }
    else k e.s (ls.filterMap fun l => match l.2.2 with
      | .ok key => some { t := l.1, ea := l.2.1, key := key }
      | .error _ => none)

/-- The D of a lane, or nothing where it holds 0xFF. -/
def arrDst (a : Args) (s : State) (uid tid v : Nat) : State := match a.d with
  | .none => s
  | d => updCrew s uid fun c => wr c tid d 1 v

/-- `arw.init` (R227). -/
def execArwInit (a : Args) (s : State) : Out :=
  gangDo a.guard s fun e => arrLanes a e fun s ls =>
    .next (retire e.is (ls.foldl (fun s l =>
      let b := rd e.c l.t a.b 1
      issueAck (writeArr s l.key { target := b, count := 0, gen := 0, flags := if b ≠ 0 then 1 else 0 }) e.c l.t) s))

/-- `arw.expect` (R227). -/
def execArwExpect (a : Args) (s : State) : Out :=
  gangDo a.guard s fun e => arrLanes a e fun s ls =>
    .next (retire e.is (ls.foldl (fun s l =>
      let w := readArr s l.key
      let s1 := writeArr s l.key (completeArr { w with target := (w.target + rd e.c l.t a.b 1) % 2 ^ 32 })
      arrDst a (issueAck s1 e.c l.t) e.is.crew l.t.tid w.gen) s))

/-- `arw.arrive` (R227): a release at span scope, then the bytes. -/
def execArwArrive (a : Args) (s : State) : Out :=
  gangDo a.guard s fun e => arrLanes a e fun s _ => withRelease 1 { e with s := s } fun e => arrLanes a e fun s ls =>
    let s1 := ls.foldl (fun s l =>
      let gen := (readArr s l.key).gen
      arrDst a (issueAck (arriveArr s l.key (rd e.c l.t a.b 1)) e.c l.t) e.is.crew l.t.tid gen) s
    .next (retire e.is (syncActive s1 e.is.crew (e.act.map (·.tid))))

/-- `arw.wait` (R227): lanes whose generation is still B are held; when none is, D receives GEN and the acquire is made. -/
def execArwWait (a : Args) (s : State) : Out :=
  gangDo a.guard s fun e => arrLanes a e fun s ls =>
    let held := ls.filter fun l => (readArr s l.key).gen == rd e.c l.t a.b 1
    if held.isEmpty then
      let s1 := ls.foldl (fun s l => arrDst a s e.is.crew l.t.tid (readArr s l.key).gen) s
      let s2 := if ls.isEmpty then s1 else acquire s1 e.is.crew 1
      .next (retire e.is (syncActive s2 e.is.crew (e.act.map (·.tid))))
    else .next { held.foldl (fun s l =>
      let w := readArr s l.key
      holdGang (writeArr s l.key { w with flags := w.flags ||| 4 }) e.is.crew e.is.tids [l.t.tid] (.arw l.key w.gen e.c.counted l.ea)) s with issue := none }

end Sys2Proof.Machine
end

