-- ==== Sys2Proof/Machine/Thunk.lean ====
section
/-! DEFINITION. The thunk table: nodes, their numbers, roots and freeing, the appends, the demands of `tst` and `tforce`, the tokens, `tdrop` and `tstat` (R233–R240, R247–R270). -/

namespace Sys2Proof.Machine

/-! ### Nodes (R233, R237) -/

def nodeAt (s : State) (core slot : Nat) : Option Node := s.nodes.find? fun n => n.core == core && n.slot == slot

def updNode (s : State) (core slot : Nat) (f : Node → Node) : State :=
  { s with nodes := s.nodes.map fun n => if n.core = core ∧ n.slot = slot then f n else n }

/-- The node that a number names for a crew (R234). -/
def nodeNamed (s : State) (c : Crew) (v : Nat) : Option Node :=
  if bitsOf v 31 22 != 0 then none
  else (nodeAt s c.coreId (v % 64)).filter fun n => n.seq == bitsOf v 21 6 && n.crew == c.uid

/-- Whether a node is in state OPEN or FORCING. -/
def Node.open' (n : Node) : Bool := n.state != .done

/-- The nodes in state OPEN or FORCING that reference a slot. -/
def referrers (s : State) (core slot : Nat) : List Node := s.nodes.filter fun n => n.core == core && n.open' && n.ops.contains slot

def isRoot (s : State) (n : Node) : Bool := (referrers s n.core n.slot).isEmpty

/-- Kinds that name data (R237). -/
def NodeKind.isDef : NodeKind → Bool
  | .src | .stage | .wait | .acc => true
  | _ => false

/-- Whether a request has a node as its target: its freeing then waits for the request (log entry 83). (DEDUCED, log entry 83) -/
def wanted (s : State) (core slot : Nat) : Bool :=
  s.tileReqs.any fun r => r.core == core && r.node == slot && r.phase != .complete && r.phase != .faulted

/-- A slot becomes FREE, and the freeing goes down (R239); an operand that a request is forcing is freed when that is over. -/
def freeSlot : Nat → State → Nat → Nat → State
  | 0, s, _, _ => s
  | fuel + 1, s, core, slot => match nodeAt s core slot with
    | none => s
    | some n =>
      if wanted s core slot then updNode s core slot fun n => { n with dropped := true }
      else
        let s1 := freeNodes s fun m => m.core == core && m.slot == slot
        (n.ops.zip n.opSeqs).foldl (fun s o => match (nodeAt s core o.1).filter fun m => m.seq == o.2 && m.crew == n.crew with
          | none => s
          | some m =>
            if isRoot s m && (m.dropped || (!m.kind.isDef && !m.byForce)) then
              (if m.state == .forcing then updNode s core o.1 fun m => { m with dropped := true } else freeSlot fuel s core o.1)
            else s) s1

/-- A node freed with what goes down with it. -/
def freeNode (s : State) (core slot : Nat) : State := freeSlot 65 s core slot

/-- Dropped nodes that nothing references any more are freed (R238). -/
def sweepDropped (s : State) (core : Nat) : State :=
  s.nodes.foldl (fun s n => match nodeAt s core n.slot with
    | some m => if n.core == core && m.dropped && m.state != .forcing && isRoot s m then freeNode s core n.slot else s
    | none => s) s

/-- A crew's slots of its core's table. -/
def crewNodes (s : State) (c : Crew) : List Node := s.nodes.filter fun n => n.core == c.coreId && n.crew == c.uid

/-- OPEN roots of a crew. -/
def openRoots (s : State) (c : Crew) : List Node := (crewNodes s c).filter fun n => n.state == .open_ && isRoot s n

/-! ### Agreement (R234, R255) -/

/-- ILL, sub-code NODE. -/
def nodeTrap (e : Env) (field v : Nat) : Out :=
  trapGang e (trapOf e.c tcILL 0x0D (e.act.map (·.tid)) [{ off := 0, len := 1, val := field }, { off := 4, len := 4, val := v % 2 ^ 32 }])

/-- An operand that must agree: its field, the operand, its registers, and whether it names a node. -/
structure Agree where
  field : Nat
  o : Opnd
  n : Nat := 1
  isNode : Bool := false

/-- The value of an operand in the lowest active lane. -/
def lowVal (e : Env) (o : Opnd) (n : Nat) : Nat := ((e.act.head?).map fun t => rd e.c t o n).getD 0

/-- The node operands and agreeing operands of an instruction checked in field order (R234, R255); a gang with no active thread does nothing. -/
def agreeGate (e : Env) (xs : List Agree) (k : Out) : Out :=
  if e.act.isEmpty then .next (retire e.is e.s)
  else match xs.find? fun x => e.act.any (fun t => rd e.c t x.o x.n != lowVal e x.o x.n) || (x.isNode && (nodeNamed e.s e.c (lowVal e x.o 1)).isNone) with
    | some x => nodeTrap e x.field (lowVal e x.o x.n)
    | none => k

/-- BOUNDS for the whole gang. -/
def boundsAll (e : Env) (reason : Nat) : Out :=
  let tids := e.act.map (·.tid)
  trapGang e (trapOf e.c tcBOUNDS reason tids [laneField e.c tids])

/-- FMTDIV with its detail (R91). -/
def fmtTrap (e : Env) (detail : Nat) : Out := trapGang e (trapOf e.c tcFMTDIV detail (e.act.map (·.tid)))

/-- A voted register: detail 9 when active threads differ. -/
def voted (e : Env) (o : Opnd) (k : Nat → Out) : Out :=
  if e.act.any fun t => rd e.c t o 1 != lowVal e o 1 then fmtTrap e 9 else k (lowVal e o 1)

/-- A voted format word, checked (R91). -/
def votedFormat (e : Env) (o : Opnd) (k : Nat → Out) : Out :=
  voted e o fun w => if fmtReason w = 0 then k w else fmtTrap e (fmtReason w)

/-- The first failing check of a list that answers a BOUNDS reason. -/
def firstReason : List (Option Nat) → Option Nat
  | [] => none
  | some r :: _ => some r
  | none :: rest => firstReason rest

/-- BOUNDS checks in order, each a reason or nothing. -/
def boundsGate (e : Env) (xs : List (Option Nat)) (k : Out) : Out := match firstReason xs with
  | some r => boundsAll e r
  | none => k

/-- A packed pair of 16-bit halves. -/
def lo16 (v : Nat) : Nat := bitsOf v 15 0
def hi16 (v : Nat) : Nat := bitsOf v 31 16

def check (ok : Bool) (reason : Nat) : Option Nat := if ok then none else some reason

/-! ### Tokens (R252, R253) -/

def tokenOf (c : Crew) (z : Nat) : Token := mget .nobody c.tokens z
def setToken (c : Crew) (z : Nat) (t : Token) : Crew := { c with tokens := mput .nobody c.tokens z t }

/-- Whether a token counts as held by a home gang for its own requests and its `tacq`. -/
def holdsToken (c : Crew) (z g : Nat) : Bool := tokenOf c z == .gang g || tokenOf c z == .seq g

/-- A TOKEN (R253). -/
def tokenTrap (e : Env) (z cause : Nat) : Out :=
  let (holder, g) := match tokenOf e.c z with
    | .nobody => (0, 0xFFFF)
    | .gang g => (1, g)
    | .seq g => (2, g)
  trapGang e (trapOf e.c tcTOKEN 0 (e.act.map (·.tid)) [{ off := 0, len := 1, val := z }, { off := 1, len := 1, val := cause },
    { off := 2, len := 1, val := holder }, { off := 4, len := 2, val := g }])

/-- A token that nobody holds any more goes to the oldest waiting `tacq`, whose gangs move on past it as they were formed: their active threads have acquired (R68, R252, R268). (DEDUCED, log entry 84) -/
def passToken (c : Crew) (z : Nat) : Crew :=
  match c.tacqWait.find? (·.1 == z) with
  | none => setToken c z .nobody
  | some (_, g) =>
    let c1 := { setToken c z (.gang g) with tacqWait := c.tacqWait.filter fun w => !(w.1 == z && w.2 == g) }
    let got := c1.threads.filter fun t => t.live && (match t.hold with
      | .tacq y q _ => y == z && q == g
      | _ => false)
    let ids := got.map (·.tid)
    let c2 := c1.mapT fun t => if ids.contains t.tid then { t with region := t.region + 1 } else t
    ((got.map (·.pc)).eraseDups).foldl (fun c pc =>
      let at' := got.filter (·.pc == pc)
      moveTo ((c.threads.filter fun t => t.live && t.pc == pc && at'.any fun u => u.tid == t.tid || u.gang.contains t.tid).map (·.tid)) (fun _ => pc + 8) c) c2

/-- The home gang on whose behalf an instruction acts: that of its lowest active thread (R68). -/
def actingGang (e : Env) : Nat := e.c.hgang (leastOr 0 (e.act.map (·.tid)))

/-! ### Demand (R241) -/

/-- Rows and columns past the end. -/
def Win.r1 (w : Win) : Nat := w.r0 + w.rows
def Win.c1 (w : Win) : Nat := w.c0 + w.cols

def Node.all (n : Node) : Win := { r0 := 0, c0 := 0, rows := n.rows, cols := n.cols }

/-- The smallest window that holds two. (DEDUCED, log entry 76) -/
def Win.hull (x y : Win) : Win :=
  if x.rows = 0 ∨ x.cols = 0 then y else if y.rows = 0 ∨ y.cols = 0 then x
  else
    let r := min x.r0 y.r0
    let c := min x.c0 y.c0
    { r0 := r, c0 := c, rows := max x.r1 y.r1 - r, cols := max x.c1 y.c1 - c }

def Win.empty (w : Win) : Bool := w.rows == 0 || w.cols == 0

/-- One dimension of a broadcast: reduced to its single place. -/
def spread (n lo k : Nat) : Nat × Nat := if n = 1 then (0, 1) else (lo, k)

/-- A window cut to one dimension of an operand after a move by a signed distance. -/
def shifted (n lo k : Nat) (d : Int) : Nat × Nat :=
  let a := max 0 ((lo : Int) - d)
  let b := min (n : Int) ((lo + k : Nat) - d)
  (a.toNat, (b - a).toNat)

/-- A window widened to whole blocks of 16 columns, within a number of columns. -/
def Win.blocks (w : Win) (cols : Nat) : Win :=
  let a := w.c0 / 16 * 16
  { w with c0 := a, cols := min cols ((w.c1 + 15) / 16 * 16) - a }

/-- Output format of a format word. -/
def outFmt (w : Nat) : Nat := bitsOf w 11 8

/-- The windows of its operands that a window of a computed node needs (R241). -/
def operandWins (s : State) (n : Node) (w : Win) : List (Nat × Win) :=
  if n.kind.isDef || n.state == .done || w.empty then []
  else
    let x := n.ops.head?.bind (nodeAt s n.core)
    let y := n.ops.tail.head?.bind (nodeAt s n.core)
    match x with
    | none => []
    | some x =>
      let two := match y with
        | some y =>
          let (r, k) := spread y.rows w.r0 w.rows
          let (c, j) := spread y.cols w.c0 w.cols
          [(y.slot, ({ r0 := r, c0 := c, rows := k, cols := j } : Win))]
        | none => []
      match n.kind with
      | .tew => (x.slot, w) :: two
      | .tred => [(x.slot, { r0 := w.r0, c0 := 0, rows := w.rows, cols := x.cols })]
      | .tcvt => [(x.slot, if outFmt n.word.toNat = 5 then w.blocks x.cols else w)]
      | .tmm => (x.slot, x.all) :: (y.map fun y => (y.slot, y.all)).toList
      | .tmap => match n.sub with
        | 0 => [(x.slot, { r0 := w.c0, c0 := w.r0, rows := w.cols, cols := w.rows })]
        | 1 => [(x.slot, { w with r0 := w.r0 + lo16 n.aux.toNat, c0 := w.c0 + hi16 n.aux.toNat })]
        | 2 =>
          let (r, k) := spread x.rows w.r0 w.rows
          let (c, j) := spread x.cols w.c0 w.cols
          [(x.slot, { r0 := r, c0 := c, rows := k, cols := j })]
        | 3 =>
          let a := (w.r0 * n.cols + w.c0) / x.cols
          let b := ((w.r1 - 1) * n.cols + (w.c1 - 1)) / x.cols
          [(x.slot, { r0 := a, c0 := 0, rows := b + 1 - a, cols := x.cols })]
        | _ =>
          let (r, k) := shifted x.rows w.r0 w.rows (signExt (lo16 n.aux.toNat) 16)
          let (c, j) := shifted x.cols w.c0 w.cols (signExt (hi16 n.aux.toNat) 16)
          [(x.slot, { r0 := r, c0 := c, rows := k, cols := j })]
      | _ => []

/-- Windows added to those demanded so far. -/
def addWins (acc xs : List (Nat × Win)) : List (Nat × Win) :=
  xs.foldl (fun acc x =>
    if x.2.empty then acc
    else if acc.any (·.1 == x.1) then acc.map fun y => if y.1 = x.1 then (y.1, y.2.hull x.2) else y
    else acc ++ [x]) acc

/-- Everything that a window of a node demands, by slot: later nodes first, since a node names only earlier ones. -/
def demands (s : State) (n : Node) (w : Win) : List (Nat × Win) :=
  ((s.nodes.filter fun m => m.core == n.core && m.crew == n.crew).reverse).foldl (fun acc m =>
    match acc.find? (·.1 == m.slot) with
    | some d => addWins acc (operandWins s m d.2)
    | none => acc) [(n.slot, w)]

/-- The tile that reading or computing a demanded node uses (R252). -/
def tileUsed (n : Node) : Option Nat := match n.state, n.bind with
  | .done, .tile z => some z
  | .done, _ => none
  | _, _ => if n.kind == .acc || n.kind == .tmm then some n.tile else none

/-- The tiles that a request uses. -/
def tilesUsed (s : State) (n : Node) (w : Win) (goal : TileGoal) : List Nat :=
  let ns := (demands s n w).filterMap fun d => (nodeAt s n.core d.1).bind tileUsed
  (ns ++ (match goal with
    | .tile z => [z]
    | _ => [])).eraseDups

/-! ### Requests (R240) -/

/-- A request made for a gang: its tokens pass to the sequencer, its threads' tiles counters rise, and they park. -/
def makeRequest (e : Env) (n : Node) (w : Win) (goal : TileGoal) (tiles : List Nat) : Out :=
  let g := actingGang e
  let tids := e.act.map (·.tid)
  let id := e.s.nextId
  let r : TileReq := {
    id := id, core := e.c.coreId, crew := e.is.crew, tids := tids, hgang := g, pc := e.is.pc, node := n.slot, win := w, goal := goal
    gen := e.c.isGen, tiles := tiles }
  let s1 := { e.s with tileReqs := e.s.tileReqs ++ [r], nextId := id + 1 }
  let s2 := updCrew s1 e.is.crew fun c => tiles.foldl (fun c z => setToken c z (.seq g)) c
  let s3 := tids.foldl (fun s t => countUp s e.is.crew t fun k => { k with tiles := k.tiles + 1 }) s2
  .next (retireSome e.is (e.is.tids.filter fun i => !tids.contains i) (parkT s3 e.is.crew tids (.tile id)))

/-- The tokens of a request checked (R252): cause 1 at the first tile that its home gang may not use. -/
def tokenGate (e : Env) (tiles : List Nat) (k : Out) : Out :=
  match tiles.find? fun z => !holdsToken e.c z (actingGang e) with
  | some z => tokenTrap e z 1
  | none => k

/-! ### Appends (R233, R247, R248) -/

/-- Regions that all watches take now. -/
def watchCount (s : State) : Nat := ((s.nodes.filter fun n => n.watching || n.watchDue).map fun n => (n.watched s).length).foldl (· + ·) 0

/-- The lowest slot open to a crew, if the watches have room for what the append adds (R248, R249). -/
def openSlot (s : State) (c : Crew) (watches : Nat) : Option Nat :=
  let ordinary := s.nodes.filter fun n => n.core == c.coreId && !((getCrew s n.crew).any Crew.isGen)
  if (!c.isGen && 60 ≤ ordinary.length) || 16384 < watchCount s + watches then none
  else (List.range 64).find? fun k => (nodeAt s c.coreId k).isNone

/-- THUNKFULL (R247). (DEDUCED, log entry 82) -/
def thunkFull (e : Env) : Out :=
  trapGang e (trapOf e.c tcTHUNKFULL 0 (e.act.map (·.tid))
    [{ off := 0, len := 4, val := (crewNodes e.s e.c).length }, { off := 4, len := 4, val := (openRoots e.s e.c).length }])

/-- A node placed in a slot, and its number in the D of every active thread. The gang goes on, or, for a watched region, once the watch has reached every die (R249). -/
def placeNode (e : Env) (d : Opnd) (n : Node) (slot : Nat) : Out :=
  let m := { n with
    slot := slot, seq := mget 0 (coreOf e.s e.c.coreId).useCount slot
    opSeqs := n.ops.map fun o => ((nodeAt e.s e.c.coreId o).map (·.seq)).getD 0 }
  let s1 := { e.s with nodes := e.s.nodes ++ [m] }
  let s2 := updCrew s1 e.is.crew fun c => applyWrs c (e.act.map fun t => (t.tid, Wr.reg d 1 m.number))
  if m.watchDue then .next { holdT s2 e.is.crew e.is.tids (.watch slot) with issue := none } else .next (retire e.is s2)

/-- The threads of a crew that wait for the watch of the node in a slot go past their append. (DEDUCED, log entry 81) -/
def watchSpread (core slot : Nat) (c : Crew) : Crew :=
  let held := (c.threads.filter fun t => t.live && t.hold == .watch slot).map (·.tid)
  if c.coreId == core && c.where_ == .resident && !held.isEmpty then
    moveTo held (fun i => ((c.thread i).map (·.pc)).getD 0 + 8) c
  else c

/-- WATCH_REACHED (R249): a new watch has reached every die: writes are checked against it from now on (R250), and its append completes. -/
def execWatchReached (core slot : Nat) (s : State) : Out :=
  .next { updNode s core slot fun n => if n.watchDue then { n with watchDue := false, watching := true } else n with
    crews := s.crews.map (watchSpread core slot) }

/-- An append: it takes a slot, or overflows (R247); where its watches would exceed the room for them, it waits (R249). -/
def append (e : Env) (d : Opnd) (n : Node) : Out :=
  let watches := if n.kind == .wait then 0 else n.rec_.toList.length + n.stage.toList.length
  let wait := fun s : State => Host.Outcome.next { holdGang s e.is.crew e.is.tids (e.act.map (·.tid)) (.append e.c.counted watches) with issue := none }
  match openSlot e.s e.c watches with
  | some k => placeNode e d n k
  | none =>
    if 16384 < watchCount e.s + watches then wait e.s
    else if e.c.strict || e.c.isGen then thunkFull e
    else
      let mine := (crewNodes e.s e.c).filter fun m => m.kind == .tmm && isRoot e.s m
      match mine.find? (·.state == .done) with
      | some m =>
        let s1 := freeNode e.s e.c.coreId m.slot
        match openSlot s1 e.c watches with
        | some k => placeNode { e with s := s1 } d n k
        | none => wait s1
      | none => match mine.find? (·.state == .open_) with
        | some m =>
          let tiles := tilesUsed e.s m m.all .implicit
          tokenGate e tiles (makeRequest e m m.all .implicit tiles)
        | none => wait e.s

/-- What every node of an append records: its place, its maker and the word that appended it. -/
def newNode (e : Env) (kind : NodeKind) (rows cols : Nat) : Node :=
  { core := e.c.coreId, slot := 0, seq := 0, crew := e.is.crew, kind := kind, rows := rows, cols := cols, origin := e.is.pc
    order := e.s.nextId }

/-- The bytes of a record's region that a record's extent overlaps. -/
def extentMeet (s : State) (c : Crew) (r : Rec) (d : Crew) (q : Rec) : Option Nat := (r.extent s c).meet (q.extent s d)

/-- `tdef.src` (R256). -/
def execTdefSrc (a : Args) (s : State) : Out :=
  gangDo a.guard s fun e => agreeGate e [{ field := 1, o := a.a, n := 4 }] <|
    let r := recOf (lowVal e a.a 4)
    boundsGate e [recCheck s e.c r, check r.watch 11] <|
      append e a.d { newNode e .src r.rows r.cols with rec_ := some r, watchDue := true }

/-- `tdef.stage` (R256, R257): a staging extent that overlaps another node's raises TILEALIAS (R250). -/
def execTdefStage (a : Args) (s : State) : Out :=
  gangDo a.guard s fun e => agreeGate e [{ field := 1, o := a.a, n := 4 }, { field := 2, o := a.b, n := 4 }] <|
    let r := recOf (lowVal e a.a 4)
    let g := recOf (lowVal e a.b 4)
    boundsGate e [recCheck s e.c r, recCheck s e.c g,
        check (r.watch && g.watch && (g.hint == 1 || g.hint == 2) && g.rows == r.rows && g.cols == r.cols && g.fmt == r.fmt && g.scale == r.scale) 11] <|
      let hits := e.s.nodes.filterMap fun n =>
        if n.core == e.c.coreId then (n.stage.bind fun q => (getCrew e.s n.crew).bind fun d => extentMeet e.s e.c g d q).map fun k => (k, n) else none
      match hits.foldl (fun (b : Option (Nat × Node)) h => match b with
          | none => some h
          | some x => if h.1 < x.1 then some h else some x) none with
      | some (k, n) =>
        let tids := e.act.map (·.tid)
        let m := laneMask e.c tids
        trapGang e { tileAlias e.is.crew 4 ((g.extent e.s e.c).ea + (k - (g.extent e.s e.c).lo)) m n with tids := tids, lanes := m }
      | none => append e a.d { newNode e .stage r.rows r.cols with rec_ := some r, stage := some g, watchDue := true }

/-- `tdef.wait` (R256, R257): its region is watched once the awaited generation is observed (R249). -/
def execTdefWait (a : Args) (s : State) : Out :=
  gangDo a.guard s fun e =>
    agreeGate e [{ field := 1, o := a.a, n := 4 }, { field := 2, o := a.b }, { field := 3, o := a.c, n := 2 }] <|
    let r := recOf (lowVal e a.a 4)
    boundsGate e [recCheck s e.c r, check r.watch 11] <|
      append e a.d { newNode e .wait r.rows r.cols with
        rec_ := some r, word := BitVec.ofNat 32 (lowVal e a.b 1), addr := BitVec.ofNat 64 (lowVal e a.c 2) }

/-- `tdef.acc` (R256). -/
def execTdefAcc (a : Args) (s : State) : Out :=
  gangDo a.guard s fun e => agreeGate e [{ field := 2, o := a.b }] <|
    let v := lowVal e a.b 1
    boundsGate e [check (1 ≤ lo16 v && lo16 v ≤ 128 && 1 ≤ hi16 v && hi16 v ≤ 128) 12] <|
      append e a.d { newNode e .acc (lo16 v) (hi16 v) with tile := numOf a.a }

/-- The node an operand names, once checked. -/
def nodeArg (e : Env) (o : Opnd) (k : Node → Out) : Out := match nodeNamed e.s e.c (lowVal e o 1) with
  | some n => k n
  | none => nodeTrap e 1 (lowVal e o 1)

/-- The region in which the array finds an operand of `tmm` (R258). -/
def Node.region (n : Node) : Option Rec := match n.kind, n.state, n.bind with
  | _, .done, .region r => some r
  | .src, _, _ | .wait, _, _ => n.rec_
  | .stage, _, _ => n.stage
  | _, _, _ => none

/-- `tmm` (R258). -/
def execTmm (a : Args) (s : State) : Out :=
  gangDo a.guard s fun e => agreeGate e [{ field := 1, o := a.a, isNode := true }, { field := 2, o := a.b, isNode := true }] <|
    nodeArg e a.a fun x => nodeArg e a.b fun y =>
      boundsGate e [check (x.region.any (·.hint == 1) && y.region.any fun r => r.hint == 1 || r.hint == 2) 11,
          check (x.rows ≤ 128 && y.cols ≤ 128 && x.cols == y.rows) 12] <|
        votedFormat e a.c fun w =>
          let fmts := x.region.any (·.fmt == bitsOf w 3 0) && y.region.any (·.fmt == bitsOf w 7 4)
          let scales := bitsOf w 13 12 == 0 || (x.region.any (·.scale) && y.region.any (·.scale))
          if !fmts then fmtTrap e 10
          else if !scales then fmtTrap e 11
          else append e a.d { newNode e .tmm x.rows y.cols with
            ops := [x.slot, y.slot], word := BitVec.ofNat 32 w, tile := bitsOf a.x.toNat 3 0, accum := bitAt a.m.toNat 0 }

/-- Whether a shape agrees with x's under broadcast (R260). -/
def broadcasts (x y : Node) : Bool := (y.rows == x.rows || y.rows == 1) && (y.cols == x.cols || y.cols == 1)

/-- `tew` (R260). -/
def execTew (a : Args) (s : State) : Out :=
  let sub := bitsOf a.m.toNat 7 5
  let isTwo := sub == 0 || sub == 1 || sub == 3
  gangDo a.guard s fun e =>
    agreeGate e ({ field := 1, o := a.a, isNode := true } :: if isTwo then [{ field := 2, o := a.b, isNode := true }] else []) <|
    nodeArg e a.a fun x =>
      let n := { newNode e .tew x.rows x.cols with sub := sub, ops := [x.slot] }
      if isTwo then nodeArg e a.b fun y => boundsGate e [check (broadcasts x y) 12] (append e a.d { n with ops := [x.slot, y.slot] })
      else if sub = 2 then voted e a.b fun v => append e a.d { n with word := BitVec.ofNat 32 v }
      else append e a.d n

/-- `tred` (R262). -/
def execTred (a : Args) (s : State) : Out :=
  gangDo a.guard s fun e => agreeGate e [{ field := 1, o := a.a, isNode := true }] <|
    nodeArg e a.a fun x => append e a.d { newNode e .tred x.rows 1 with sub := bitsOf a.m.toNat 7 5, ops := [x.slot] }

/-- `tmap` (R263). -/
def execTmap (a : Args) (s : State) : Out :=
  let sub := bitsOf a.m.toNat 7 5
  let useB := sub == 1 || sub == 4
  let useC := 1 ≤ sub && sub ≤ 3
  gangDo a.guard s fun e =>
    agreeGate e ({ field := 1, o := a.a, isNode := true } :: ((if useB then [{ field := 2, o := a.b }] else []) ++ if useC then [{ field := 3, o := a.c }] else [])) <|
    nodeArg e a.a fun x =>
      let b := lowVal e a.b 1
      let (r, c) := if useC then (lo16 (lowVal e a.c 1), hi16 (lowVal e a.c 1)) else if sub = 0 then (x.cols, x.rows) else (x.rows, x.cols)
      let fits := match sub with
        | 1 => lo16 b + r ≤ x.rows && hi16 b + c ≤ x.cols
        | 2 => (x.rows == 1 || x.rows == r) && (x.cols == 1 || x.cols == c)
        | 3 => r * c == x.rows * x.cols
        | _ => true
      boundsGate e [check (r != 0 && c != 0 && fits) 12]
        (append e a.d { newNode e .tmap r c with sub := sub, ops := [x.slot], aux := BitVec.ofNat 32 b })

/-- `tcvt` (R264). -/
def execTcvt (a : Args) (s : State) : Out :=
  gangDo a.guard s fun e => agreeGate e [{ field := 1, o := a.a, isNode := true }] <|
    nodeArg e a.a fun x => votedFormat e a.b fun w =>
      append e a.d { newNode e .tcvt x.rows x.cols with ops := [x.slot], word := BitVec.ofNat 32 w }

/-! ### `tst` and `tforce` (R265–R267) -/

/-- The bytes of a destination window as the watches see them, rows and headers apart (R250). -/
def windowSpans (s : State) (c : Crew) (r : Rec) : List Span :=
  let rows := (List.range r.rows).map fun i =>
    let lo := r.base + i * r.pitch * fmtHalves r.fmt / 2
    r.span s c lo (lo + (r.cols * fmtHalves r.fmt + 1) / 2)
  let heads := if r.fmt = 5 ∧ r.scale then (List.range r.rows).map fun i =>
      let lo := r.plane + 2 * (i * r.pitch / 16)
      r.span s c lo (lo + 2 * ((r.cols + 15) / 16))
    else []
  rows ++ heads

/-- The first of a request's records that fails reasons 1 to 5 now. -/
def recordsBad (s : State) (c : Crew) (n : Node) (w : Win) : Option Nat :=
  firstReason ((demands s n w).flatMap fun d => match nodeAt s n.core d.1 with
    | some m => if m.kind.isDef then (m.rec_.toList ++ m.stage.toList).map (recCheck s c) else []
    | none => [])

/-- The threads whose request has ended move past the word, and their tiles counters fall (R240). (DEDUCED, log entry 73) -/
def afterRequest (e : Env) (k : Env → Out) : Out :=
  let back := (e.act.filter (·.tileDone.isSome)).map (·.tid)
  if back.isEmpty then k e
  else
    let s1 := updCrew e.s e.is.crew (·.mapT fun t => if back.contains t.tid then
      { t with tileDone := none, cnt := { t.cnt with tiles := t.cnt.tiles - 1 } } else t)
    .next (retireSome e.is (e.is.tids.filter fun i => !(e.act.map (·.tid)).contains i || back.contains i) s1)

/-- The demand of a `tst` or `tforce`: the checks of R267, the fence of R243, and the request. -/
def demand (e : Env) (n : Node) (w : Win) (goal : TileGoal) (dest : List (Option Nat)) (spans : List Span) : Out :=
  let tiles := tilesUsed e.s n w goal
  tokenGate e tiles <| boundsGate e dest <|
    match spanAlias e.s e.c spans with
    | some (addr, m) =>
      let tids := e.act.map (·.tid)
      let mask := laneMask e.c tids
      trapGang e { tileAlias e.is.crew 3 addr mask m with tids := tids, lanes := mask }
    | none => boundsGate e [recordsBad e.s e.c n w] <|
      withRelease 1 e fun e => makeRequest e n w goal tiles

/-- `tforce.acc` (R265). (DEDUCED, log entry 85) -/
def execTforceAcc (a : Args) (s : State) : Out :=
  gangDo a.guard s fun e => afterRequest e fun e => agreeGate e [{ field := 1, o := a.a, isNode := true }] <|
    nodeArg e a.a fun n => demand e n n.all (.tile (bitsOf a.x.toNat 3 0)) [check (n.rows ≤ 128 && n.cols ≤ 128) 12] []

/-- The window form of `tforce.scr` and `tst`. -/
def windowForm (a : Args) (s : State) (near : Bool) (goal : Rec → Nat → Nat → TileGoal) : Out :=
  gangDo a.guard s fun e => afterRequest e fun e =>
    agreeGate e ([{ field := 1, o := a.a, isNode := true }, { field := 2, o := a.b, n := 4 }] ++ (if a.c = .none then [] else [{ field := 3, o := a.c }])) <|
    nodeArg e a.a fun n =>
      let r := recOf (lowVal e a.b 4)
      let o := if a.c = .none then 0 else lowVal e a.c 1
      let w : Win := { r0 := lo16 o, c0 := hi16 o, rows := r.rows, cols := r.cols }
      demand e n w (goal r (lo16 o) (hi16 o))
        [recCheck e.s e.c r, check (!near || r.hint == 1 || r.hint == 2) 11, check (r.scale == (r.fmt == 5)) 11,
          check (w.r1 ≤ n.rows && w.c1 ≤ n.cols) 12]
        (windowSpans e.s e.c r)

/-- `tforce.scr` (R265). -/
def execTforceScr (a : Args) (s : State) : Out := windowForm a s true .scratch

/-- `tst` (R266). -/
def execTst (a : Args) (s : State) : Out := windowForm a s false .store

/-! ### `tacq` and `trel` (R268) -/

/-- The acquire of a `tacq` at crew scope, which ends the threads' regions (R203). -/
def tookToken (e : Env) (s : State) : State := syncActive s e.is.crew (e.act.map (·.tid))

/-- `tacq` (R268). -/
def execTacq (a : Args) (s : State) : Out :=
  let z := numOf a.a
  gangDo a.guard s fun e =>
    let g := actingGang e
    if e.act.isEmpty then .next (retire e.is e.s)
    else if holdsToken e.c z g then .next (retire e.is (tookToken e e.s))
    else if tokenOf e.c z == .nobody then .next (retire e.is (tookToken e (updCrew e.s e.is.crew fun c => setToken c z (.gang g))))
    else
      let s1 := updCrew e.s e.is.crew fun c => { c with tacqWait := c.tacqWait ++ [(z, g)] }
      .next { holdGang s1 e.is.crew e.is.tids (e.act.map (·.tid)) (.tacq z g e.c.counted) with issue := none }

/-- `tacq.try` (R268): a synchronisation point whether or not it takes the token (R203). -/
def execTacqTry (a : Args) (s : State) : Out :=
  let z := numOf a.a
  gangDo a.guard s fun e =>
    let g := actingGang e
    let free := tokenOf e.c z == .nobody
    let got := holdsToken e.c z g || free
    let s1 := if !e.act.isEmpty && free then updCrew e.s e.is.crew fun c => setToken c z (.gang g) else e.s
    let s2 := updCrew s1 e.is.crew fun c => applyWrs c (e.act.map fun t => (t.tid, Wr.pred a.d got))
    .next (retire e.is (tookToken e s2))

/-- `trel` (R268). -/
def execTrel (a : Args) (s : State) : Out :=
  let z := numOf a.a
  gangDo a.guard s fun e =>
    if e.act.isEmpty then .next (retire e.is e.s)
    else if tokenOf e.c z != .gang (actingGang e) then tokenTrap e z 2
    else withRelease 0 e fun e =>
      .next (retire e.is (tookToken e (updCrew e.s e.is.crew fun c => passToken c z)))

/-! ### `tdrop` and `tstat` (R269, R270) -/

/-- `tdrop` (R269). -/
def execTdrop (a : Args) (s : State) : Out :=
  gangDo a.guard s fun e => agreeGate e [{ field := 1, o := a.a, isNode := true }] <|
    nodeArg e a.a fun n =>
      .next (retire e.is (sweepDropped (updNode e.s n.core n.slot fun n => { n with dropped := true }) n.core))

/-- `tdrop.all` (R269). -/
def execTdropAll (a : Args) (s : State) : Out :=
  gangDo a.guard s fun e =>
    if e.act.isEmpty then .next (retire e.is e.s)
    else .next (retire e.is (sweepDropped { e.s with nodes := e.s.nodes.map fun n =>
      if n.core == e.c.coreId && n.crew == e.is.crew then { n with dropped := true } else n } e.c.coreId))

/-- Codes of the kinds (R270). -/
def NodeKind.code : NodeKind → Nat
  | .src => 0 | .stage => 1 | .wait => 2 | .acc => 3 | .tmm => 4 | .tew => 5 | .tred => 6 | .tmap => 7 | .tcvt => 8

def NodeState.code : NodeState → Nat
  | .open_ => 1 | .forcing => 2 | .done => 3

/-- The word that `tstat` gives for a node. (DEDUCED, log entry 86) -/
def statWord (s : State) (n : Node) : Nat :=
  n.state.code + 4 * n.kind.code + 64 * (isRoot s n).toNat + 128 * n.dropped.toNat + 256 * (referrers s n.core n.slot).length
    + 2 ^ 14 * n.staged.toNat + 2 ^ 16 * (n.progress % 65536)

/-- A status instruction: each active thread writes D. -/
def statInstr (a : Args) (s : State) (f : Env → Thread → Nat) : Out :=
  gangDo a.guard s fun e =>
    .next (retire e.is (updCrew e.s e.is.crew fun c => applyWrs c (e.act.map fun t => (t.tid, Wr.reg a.d 1 (f e t)))))

/-- `tstat` (R270): a number that names no node, or that is not the same in every active thread (R234), gives 0. -/
def execTstat (a : Args) (s : State) : Out :=
  statInstr a s fun e t =>
    let v := rd e.c t a.a 1
    if e.act.all fun u => rd e.c u a.a 1 == v then ((nodeNamed e.s e.c v).map (statWord e.s)).getD 0 else 0

/-- `tstat.tab` (R270). -/
def execTstatTab (a : Args) (s : State) : Out :=
  statInstr a s fun e _ =>
    (64 - (e.s.nodes.filter (·.core == e.c.coreId)).length) + 2 ^ 8 * (crewNodes e.s e.c).length + 2 ^ 16 * (openRoots e.s e.c).length

/-- `tstat.tok` (R270). -/
def execTstatTok (a : Args) (s : State) : Out :=
  statInstr a s fun e _ => match tokenOf e.c (numOf a.a) with
    | .nobody => 0xFFFF0000
    | .gang g => 1 + 2 ^ 16 * g
    | .seq g => 2 + 2 ^ 16 * g

end Sys2Proof.Machine
end

