-- ==== Sys2Proof/Machine/Geometry.lean ====
section
/-! DEFINITION. The geometry of rays (R309, R317–R323): arithmetic that rounds each operation, the transform into object space, the box test, the triangle test with its edge rules, the micro-map, and the asphere with its bracket and its iteration. -/

namespace Sys2Proof.Machine

/-! ### Arithmetic -/

/-- The operations in which a formula is evaluated. -/
structure Arith (α : Type) where
  add : α → α → α
  sub : α → α → α
  mul : α → α → α
  div : α → α → α
  sqrt : α → α
  /-- a constant -/
  lit : FV → α
  /-- the value, without derivatives -/
  val : α → FV

/-- Every operation rounded RNE to a format. -/
def arith (f : Fmt) : Arith FV where
  add := fun x y => roundTo f (FV.add .rne x y)
  sub := fun x y => roundTo f (FV.add .rne x y.neg)
  mul := fun x y => roundTo f (x.mul y)
  div := fun x y => roundTo f (x.div y)
  sqrt := fun x => roundTo f x.sqrt
  lit := id
  val := id

def fv (n : Int) : FV := fvInt n

/-- Three components. -/
structure V3 (α : Type) where
  x : α
  y : α
  z : α
  deriving Repr

def V3.get {α : Type} (v : V3 α) (k : Nat) : α := match k with
  | 0 => v.x
  | 1 => v.y
  | _ => v.z

def V3.map {α β : Type} (f : α → β) (v : V3 α) : V3 β := ⟨f v.x, f v.y, f v.z⟩

/-- Three components of a list. -/
def v3Of {α : Type} (d : α) (l : List α) : V3 α := ⟨(l[0]?).getD d, (l[1]?).getD d, (l[2]?).getD d⟩

section
variable {α : Type} (A : Arith α)

def vAdd (u v : V3 α) : V3 α := ⟨A.add u.x v.x, A.add u.y v.y, A.add u.z v.z⟩
def vSub (u v : V3 α) : V3 α := ⟨A.sub u.x v.x, A.sub u.y v.y, A.sub u.z v.z⟩
def vScale (k : α) (v : V3 α) : V3 α := ⟨A.mul k v.x, A.mul k v.y, A.mul k v.z⟩

/-- u · v as (u.x × v.x + u.y × v.y) + u.z × v.z (R322). -/
def vDot (u v : V3 α) : α := A.add (A.add (A.mul u.x v.x) (A.mul u.y v.y)) (A.mul u.z v.z)

def vCross (u v : V3 α) : V3 α :=
  ⟨A.sub (A.mul u.y v.z) (A.mul u.z v.y), A.sub (A.mul u.z v.x) (A.mul u.x v.z), A.sub (A.mul u.x v.y) (A.mul u.y v.x)⟩

/-- XFORM applied to (v, last), in column order (R309). -/
def xform (m : List α) (v : V3 α) (last : FV) : V3 α :=
  let e := fun k : Nat => (m[k]?).getD (A.lit (fv 0))
  let row := fun r : Nat =>
    A.add (A.add (A.add (A.mul (e (4 * r)) v.x) (A.mul (e (4 * r + 1)) v.y)) (A.mul (e (4 * r + 2)) v.z)) (A.mul (e (4 * r + 3)) (A.lit last))
  ⟨row 0, row 1, row 2⟩

/-- A vector carried by the transpose of XFORM's linear part (R339). -/
def xformT (m : List α) (v : V3 α) : V3 α :=
  let e := fun k : Nat => (m[k]?).getD (A.lit (fv 0))
  let col := fun k : Nat => A.add (A.add (A.mul (e k) v.x) (A.mul (e (4 + k)) v.y)) (A.mul (e (8 + k)) v.z)
  ⟨col 0, col 1, col 2⟩

end

/-! ### The box test (R317) -/

def fvMax (x y : FV) : FV := if x.lt y then y else x
def fvMin (x y : FV) : FV := if y.lt x then y else x

/-- The part of an interval of t in which a ray is between two planes of an axis; exact but for the last bit of the quotients. -/
def boxAxis (o d lo hi : FV) (t : Option (FV × FV)) : Option (FV × FV) :=
  t.bind fun (t0, t1) =>
    if d.isZero then (if o.lt lo || hi.lt o then none else some (t0, t1))
    else
      let near := FV.div (FV.add .rne (if d.sign then hi else lo) o.neg) d
      let far := FV.div (FV.add .rne (if d.sign then lo else hi) o.neg) d
      some (if near.isNan then t0 else fvMax t0 near, if far.isNan then t1 else fvMin t1 far)

/-- Where the ray enters a box within [TMIN, TMAX], if it meets it. The entry is rounded down and the exit up, so no box that the exact ray meets is rejected. (DESIGN CHOICE, log entry 105) -/
def boxEntry (o d : V3 FV) (tmin tmax : FV) (lo hi : V3 FV) : Option FV :=
  (boxAxis o.z d.z lo.z hi.z (boxAxis o.y d.y lo.y hi.y (boxAxis o.x d.x lo.x hi.x (some (tmin, tmax))))).bind fun (a, b) =>
    if (fp64.dec (cvtTo fp64 .rdn false false a)).le (fp64.dec (cvtTo fp64 .rup false false b)) then some a else none

/-- An entry distance as it is kept: FP64, rounded down. -/
def entryBits (x : FV) : Nat := cvtTo fp64 .rdn false false x

/-! ### The triangle test (R318–R320) -/

/-- The sign of a value; 2 for a NaN. -/
def sgn (x : FV) : Int := if x.isNan then 2 else if x.isZero then 0 else if x.sign then -1 else 1

/-- The axes (kx, ky, kz). -/
def rayAxes (d : V3 FV) : Nat × Nat × Nat :=
  let kz := if d.x.abs.lt d.y.abs then (if d.y.abs.lt d.z.abs then 2 else 1) else if d.x.abs.lt d.z.abs then 2 else 0
  let kx := (kz + 1) % 3
  let ky := (kx + 1) % 3
  if (d.get kz).lt (fv 0) then (ky, kx, kz) else (kx, ky, kz)

/-- A vertex in the sheared frame: its index, X, Y and Z. -/
structure Sheared where
  i : Nat
  x : FV
  y : FV
  z : FV

/-- X, Y and Z of a vertex. -/
def shear (A : Arith FV) (o d : V3 FV) (ks : Nat × Nat × Nat) (i : Nat) (v : V3 FV) : Sheared :=
  let (kx, ky, kz) := ks
  let p := vSub A v o
  let sx := A.div (d.get kx) (d.get kz)
  let sy := A.div (d.get ky) (d.get kz)
  let sz := A.div (fv 1) (d.get kz)
  { i := i, x := A.sub (p.get kx) (A.mul sx (p.get kz)), y := A.sub (p.get ky) (A.mul sy (p.get kz)), z := A.mul sz (p.get kz) }

/-- Operations without rounding; quotients do not occur in it. -/
def exactly : Arith FV where
  add := FV.add .rne
  sub := fun x y => FV.add .rne x y.neg
  mul := FV.mul
  div := FV.div
  sqrt := FV.sqrt
  lit := id
  val := id

/-- X and Y times |D'[kz]|, exactly: the signs of X, Y and the edge values are those of the exact ones. -/
def shearExact (o d : V3 FV) (ks : Nat × Nat × Nat) (i : Nat) (v : V3 FV) : Sheared :=
  let (kx, ky, kz) := ks
  let p := vSub exactly v o
  let dz := d.get kz
  let side := fun k : Nat =>
    let x := exactly.sub ((p.get k).mul dz) ((d.get k).mul (p.get kz))
    if dz.sign then x.neg else x
  { i := i, x := side kx, y := side ky, z := fv 0 }

/-- E'(p → q). -/
def edgeValue (A : Arith FV) (p q : Sheared) : FV :=
  let e := fun i j : Sheared => A.sub (A.mul i.x j.y) (A.mul i.y j.x)
  if p.i < q.i then e p q else (e q p).neg

/-- Edge k of a triangle: wa is b → c, wb is c → a, wc is a → b. (DEDUCED, log entry 106) -/
def triEdge (v : V3 Sheared) (k : Nat) : Sheared × Sheared := match k with
  | 0 => (v.y, v.z)
  | 1 => (v.z, v.x)
  | _ => (v.x, v.y)

/-- The signs that settle whether a triangle with three different indices is hit (R319), from the first signs and the vertices of the second computation. -/
def settleSigns (first : List Int) (again : Arith FV) (v : V3 Sheared) : Bool :=
  let sg := (List.range 3).map fun k =>
    let s := (first[k]?).getD 0
    if s = 0 then (let e := triEdge v k; sgn (edgeValue again e.1 e.2)) else s
  let at' := fun k : Nat => (sg[k]?).getD 0
  let zeros := (List.range 3).filter fun k => at' k == 0
  let same := fun a b c : Int => (a == 1 && b == 1 && c == 1) || (a == -1 && b == -1 && c == -1)
  match zeros with
  | [] => same (at' 0) (at' 1) (at' 2)
  | [k] =>
    let e := triEdge v k
    let x := at' ((k + 1) % 3)
    e.1.i < e.2.i && same x (at' ((k + 2) % 3)) x
  | [k, l] =>
    let (k1, k2) := if (k + 1) % 3 = l then (k, l) else (l, k)
    let p := (triEdge v k1).1
    let q := (triEdge v k2).2
    let s1 := if p.y.isZero then - sgn p.x else sgn p.y
    let s2 := if q.y.isZero then sgn q.x else - sgn q.y
    same s1 s2 (at' ((k2 + 1) % 3))
  | _ => false

/-- What the triangle test gives: the values of R320, and whether the triangle is hit. -/
structure TriTest where
  t : FV
  u : FV
  v : FV
  s : FV
  hit : Bool

/-- The triangle test in a scene's precision. (DESIGN CHOICE, log entry 166) -/
def triTest (f64 : Bool) (o d : V3 FV) (verts : V3 (V3 FV)) (ix : V3 Nat) : TriTest :=
  let f := if f64 then fp64 else fp32
  let A := arith f
  let ks := rayAxes d
  let frame := fun sh : Nat → V3 FV → Sheared => (⟨sh ix.x verts.x, sh ix.y verts.y, sh ix.z verts.z⟩ : V3 Sheared)
  let p := frame (shear A o d ks)
  let w := fun k : Nat => let e := triEdge p k; edgeValue A e.1 e.2
  let first := [sgn (w 0), sgn (w 1), sgn (w 2)]
  let distinct := ix.x != ix.y && ix.y != ix.z && ix.x != ix.z
  let inside := distinct && (if f64 then settleSigns first exactly (frame (shearExact o d ks))
    else settleSigns first (arith fp64) (frame (shear (arith fp64) o d ks)))
  let s := A.add (A.add (w 0) (w 1)) (w 2)
  let tt := A.add (A.add (A.mul (w 0) p.x.z) (A.mul (w 1) p.y.z)) (A.mul (w 2) p.z.z)
  { t := A.div tt s, u := roundTo fp32 (A.div (w 1) s), v := roundTo fp32 (A.div (w 2) s), s := s
    hit := inside && !s.isZero && !s.isNan }

/-! ### Micro-maps (R321) -/

/-- ⌊x⌋ of a finite value; 0 otherwise. -/
def fvFloor : FV → Int
  | .fin n m e =>
    let v : Int := if n then -(m : Int) else m
    if 0 ≤ e then v * 2 ^ e.toNat else v / 2 ^ (-e).toNat
  | _ => 0

/-- The sub-triangle of a hit at level n. -/
def subTriangle (n : Nat) (u v : FV) : Nat :=
  let big : Int := 2 ^ n
  let un := u.scale n
  let vn := v.scale n
  let j := max 0 (min (fvFloor vn) (big - 1))
  let i := max 0 (min (fvFloor un) (big - 1 - j))
  let frac := fun x : FV => FV.add .rne x (fv (-(fvFloor x)))
  let h : Int := if i + j + 1 < big && (fv 1).le (FV.add .rne (frac un) (frac vn)) then 1 else 0
  (j * (2 * big - j) + 2 * i + h).toNat

/-! ### Aspheres (R322, R323) -/

/-- An asphere record (R310). -/
structure Asphere (α : Type) where
  vtx : V3 α
  axis : V3 α
  c : α
  k : α
  /-- A4 to A20 -/
  a : List α
  rclear : FV
  zmin : FV
  zmax : FV

def Asphere.map {α β : Type} (f : α → β) (r : Asphere α) : Asphere β :=
  { vtx := r.vtx.map f, axis := r.axis.map f, c := f r.c, k := f r.k, a := r.a.map f, rclear := r.rclear, zmin := r.zmin, zmax := r.zmax }

section
variable {α : Type} (A : Arith α)

/-- w, z and s at t. -/
def aspherePoint (o d : V3 α) (r : Asphere α) (t : α) : V3 α × α × α :=
  let w := vSub A (vAdd A o (vScale A t d)) r.vtx
  let z := vDot A w r.axis
  let s := A.sub (vDot A w w) (A.mul z z)
  (w, z, if (A.val s).lt (fv 0) then A.lit (fv 0) else s)

/-- Q at s. -/
def asphereQ (r : Asphere α) (s : α) : α :=
  A.sqrt (A.sub (A.lit (fv 1)) (A.mul (A.mul (A.add (A.lit (fv 1)) r.k) (A.mul r.c r.c)) s))

/-- sag(s). -/
def sag (r : Asphere α) (s : α) : α :=
  let poly := match r.a.reverse with
    | [] => A.lit (fv 0)
    | x :: xs => xs.foldl (fun h a => A.add a (A.mul s h)) x
  A.add (A.div (A.mul r.c s) (A.add (A.lit (fv 1)) (asphereQ A r s))) (A.mul (A.mul s s) poly)

/-- sag′(s). -/
def sagSlope (r : Asphere α) (s : α) : α :=
  let n := r.a.length
  let h := ((List.range n).zip r.a).reverse.foldl (fun (h : Option α) (i, a) =>
    let na := A.mul (A.lit (fv ((i : Int) + 2))) a
    some (match h with
      | none => na
      | some h => A.add na (A.mul s h))) none
  A.add (A.div r.c (A.mul (A.lit (fv 2)) (asphereQ A r s))) (A.mul s (h.getD (A.lit (fv 0))))

/-- g(t). -/
def asphereG (o d : V3 α) (r : Asphere α) (t : α) : α :=
  let (_, z, s) := aspherePoint A o d r t
  A.sub z (sag A r s)

/-- g′(t). -/
def asphereSlope (o d : V3 α) (r : Asphere α) (t : α) : α :=
  let (w, z, s) := aspherePoint A o d r t
  let dz := vDot A d r.axis
  let ds := A.mul (A.lit (fv 2)) (A.sub (vDot A w d) (A.mul z dz))
  A.sub dz (A.mul (sagSlope A r s) ds)

end

/-- The next FP64 value below. -/
def nextDown (x : FV) : FV :=
  let b := rne fp64 x
  if x.isNan || x == .inf true then x
  else if x.isZero then .fin true 1 fp64.qmin
  else fp64.dec (if x.sign then b + 1 else b - 1)

/-- The next FP64 value above. -/
def nextUp (x : FV) : FV := (nextDown x.neg).neg

/-- The part of [TMIN, TMAX] in which the surface may lie (R322). -/
def asphereSpan (o d : V3 FV) (r : Asphere FV) (tmin tmax : FV) : Option (FV × FV) :=
  let A := arith fp64
  let w0 := vSub A o r.vtx
  let z0 := vDot A w0 r.axis
  let dz := vDot A d r.axis
  let p0 := vSub A w0 (vScale A z0 r.axis)
  let pd := vSub A d (vScale A dz r.axis)
  let a := vDot A pd pd
  let b := A.mul (fv 2) (vDot A p0 pd)
  let c := A.sub (vDot A p0 p0) (A.mul r.rclear r.rclear)
  let zs : Option (Option (FV × FV)) :=
    if dz.isZero then (if r.zmin.le z0 && z0.le r.zmax then some none else none)
    else
      let t1 := A.div (A.sub r.zmin z0) dz
      let t2 := A.div (A.sub r.zmax z0) dz
      some (some (fvMin t1 t2, fvMax t1 t2))
  let ss : Option (Option (FV × FV)) :=
    if a.isZero then (if c.le (fv 0) then some none else none)
    else
      let disc := A.sub (A.mul b b) (A.mul (A.mul (fv 4) a) c)
      if disc.lt (fv 0) then none
      else
        let q := if (fv 0).le b then A.div (A.add b (A.sqrt disc)).neg (fv 2) else A.div (A.sub b (A.sqrt disc)).neg (fv 2)
        if q.isZero then some (some (fv 0, fv 0))
        else
          let ua := A.div q a
          let ub := A.div c q
          some (some (fvMin ua ub, fvMax ua ub))
  let meet := fun (x : FV × FV) (y : Option (FV × FV)) => match y with
    | none => x
    | some y => (fvMax x.1 y.1, fvMin x.2 y.2)
  zs.bind fun z => ss.bind fun s =>
    let x := meet (meet (tmin, tmax) z) s
    if x.2.lt x.1 then none else some x

/-- How a search ends. -/
inductive Root where
  | miss
  /-- a root at t after some iterations, with the starting bracket -/
  | hit (t : FV) (iter : Nat) (lo hi : FV)
  | unresolved (t lo hi : FV)

/-- The bracketed Newton iteration (R323), with some iterations left. -/
def newtonLoop (g g' : FV → FV) (glo : Int) (lo0 hi0 : FV) : Nat → Nat → FV → FV → FV → Root
  | 0, _, _, _, t => .unresolved t lo0 hi0
  | fuel + 1, n, lo, hi, t =>
    let A := arith fp64
    let gt := g t
    if gt.isZero then .hit t (n + 1) lo0 hi0
    else
      let (lo, hi) := if sgn gt = glo then (t, hi) else (lo, t)
      let dg := g' t
      let tn := A.sub t (A.div gt dg)
      let tn := if dg.isZero || !(lo.lt tn && tn.lt hi) then A.div (A.add lo hi) (fv 2) else tn
      let step := A.sub tn t
      if step.abs.le (tn.abs.scale (-44)) then .hit tn (n + 1) lo0 hi0
      else newtonLoop g g' glo lo0 hi0 fuel (n + 1) lo hi tn

/-- The iteration from a bracket; a bracket with lo = hi marks a root at a sample (R339). -/
def solveBracket (o d : V3 FV) (r : Asphere FV) (lo hi : FV) : Root :=
  let A := arith fp64
  let g := asphereG A o d r
  if lo.eqv hi then (if (g lo).isZero then .hit lo 0 lo hi else .unresolved lo lo hi)
  else newtonLoop g (asphereSlope A o d r) (sgn (g lo)) lo hi 16 0 lo hi (A.div (A.add lo hi) (fv 2))

/-- The samples of a bracket: a root at one, or the first sign change. -/
def searchSamples (g : FV → FV) (ts : List FV) : Option (FV × FV) :=
  let gs := ts.map fun t => (t, sgn (g t))
  match gs.find? fun x => x.2 == 0 with
  | some x => some (x.1, x.1)
  | none => ((gs.zip (gs.drop 1)).find? fun p => (p.1.2 == 1 && p.2.2 == -1) || (p.1.2 == -1 && p.2.2 == 1)).map fun p => (p.1.1, p.2.1)

/-- The asphere test within [TMIN, TMAX]. -/
def asphereTest (o d : V3 FV) (r : Asphere FV) (tmin tmax : FV) : Root :=
  let A := arith fp64
  match asphereSpan o d r tmin tmax with
  | none => .miss
  | some (a, b) =>
    let ta := nextDown a
    let tb := nextUp b
    let ts := (List.range 9).map fun i : Nat => A.add ta (A.div (A.mul (fv (Int.ofNat i)) (A.sub tb ta)) (fv 8))
    match searchSamples (asphereG A o d r) ts with
    | none => .miss
    | some (lo, hi) => solveBracket o d r lo hi

end Sys2Proof.Machine
end

