-- ==== Sys2Proof/Machine/Rays.lean ====
section
/-! DEFINITION. The meanings of `trace`, `hitld`, `hitrep` and `tlpub` (R340–R344), the hit record (R326), and the exchange of a publication (R329). -/

namespace Sys2Proof.Machine

/-! ### Slots and rays -/

def getSlot (s : State) (id : Nat) : Option RaySlot := s.slots.find? (·.id == id)
def updSlot (s : State) (id : Nat) (f : RaySlot → RaySlot) : State :=
  { s with slots := s.slots.map fun x => if x.id = id then f x else x }
def dropSlot (s : State) (id : Nat) : State := { s with slots := s.slots.filter (·.id != id) }
def getRay (s : State) (id : Nat) : Option Ray := s.rays.find? (·.id == id)
def updRay (s : State) (id : Nat) (f : Ray → Ray) : State :=
  { s with rays := s.rays.map fun x => if x.id = id then f x else x }

/-- EVENT codes (R326). -/
def evNone := 0
def evClosest := 1
def evMiss := 2
def evAnyHit := 3
def evCustom := 4
def evUnresolved := 5
def evOccluded := 6
def evClear := 7

/-- A candidate, which waits for a decision; every other record is final. -/
def candidateEvent (ev : Nat) : Bool := ev == 3 || ev == 4 || ev == 5

/-- The 32 bytes of a record as a number (R326). (DEDUCED, log entry 110) -/
def recordWord (f64 : Bool) (ctrl : Nat) (logged : Bool) (r : RayRecord) : Nat :=
  let h := r.hit.getD { t := 0, inst := 0xFFFFFFFF, prim := 0xFFFFFFFF }
  let t := if f64 then h.t else rne fp32 (fp64.dec h.t)
  t + 2 ^ 64 * h.inst + 2 ^ 96 * h.prim + 2 ^ 128 * h.u + 2 ^ 160 * h.v + 2 ^ 192 * h.sub + 2 ^ 208 * r.event + 2 ^ 216 * r.status
    + 2 ^ 224 * (ctrl / 2 ^ 16) + 2 ^ 240 * (h.back.toNat + 2 * logged.toNat + 4 * r.logOver.toNat)

/-- A decision sent to the ray of a thread's candidate: the thread holds it no longer. -/
def decide' (s : State) (uid tid : Nat) (d : Hit → Decision) : State :=
  match (getThread s uid tid).bind (·.candidate) with
  | none => s
  | some id =>
    let s1 := updT s uid tid fun t => { t with candidate := none }
    match (getSlot s id).bind fun x => getRay s x.ray with
    | none => s1
    | some r => updRay s1 r.id fun r => { r with decision := r.cand.map fun c => d c.1 }

/-- A candidate left without a decision is defaulted (R342): accepted for ANYHIT and UNRESOLVED, ignored for CUSTOM. -/
def defaultCand (s : State) (uid tid : Nat) : State := decide' s uid tid fun h => { dec := 6, hit := h }

/-! ### `trace` (R341) -/

/-- Mode of M[7:6]. -/
def rayMode (m : Nat) : RayMode := match bitsOf m 7 6 with
  | 0 => .closest
  | 1 => .any
  | _ => .occl

/-- A ray issued: a slot is taken, the rays counter rises, and the message is sent to the nearest base die; a bad ray only completes. -/
def issueRay (a : Args) (c : Crew) (pc : Word64) (s : State) (t : Thread) : State :=
  let k := traceAsk a c t
  let s0 := defaultCand s c.uid t.tid
  let bad := rayBad s c.ctx k
  let x := a.x.toNat
  let slot : RaySlot := {
    id := s.nextId, idx := freeIndex s c.coreId, crew := c.uid, tid := t.tid, pc := pc, scene := BitVec.ofNat 64 k.scene, ctrl := k.ctrl, f64 := k.f64
    logged := k.log.isSome, ray := s.nextId + 1 }
  let ray : Ray := {
    id := s.nextId + 1, slot := s.nextId, crew := c.uid, tid := t.tid, ctx := c.ctx, pc := pc
    org := k.vals.take 3, tmin := (k.vals[3]?).getD 0, dir := (k.vals.drop 4).take 3, tmax := (k.vals[7]?).getD 0
    f64 := k.f64, ctrl := k.ctrl, mode := rayMode a.m.toNat, cullB := bitAt x 0, cullF := bitAt x 1, opq := bitAt x 2, fany := bitAt x 3
    log := k.log.map (BitVec.ofNat 64), sceneVa := BitVec.ofNat 64 k.scene, home := nearStack c, admitted := !bad
    reserved := if bad then 0 else extNeed s c.ctx k, place := if bad then .ended else .sent (nearStack c)
    status := if bad then 4 else 0 }
  countUp { s0 with slots := s0.slots ++ [slot], rays := s0.rays ++ [ray], nextId := s.nextId + 2 } c.uid t.tid
    fun n => { n with rays := n.rays + 1 }

/-- Whether an address is global (R156). -/
def globalEa (s : State) (c : Crew) (tid ea : Nat) : Bool := match steer s c tid (BitVec.ofNat 64 ea) 1 with
  | .glob _ st => !st
  | _ => false

/-- `trace` (R341): lanes that cannot take a slot stay at the word; the others send their rays, in home-lane order. -/
def execTrace (a : Args) (s : State) : Out :=
  gangDo a.guard s fun e =>
    let ask := traceAsk a e.c
    issueGate e (fun t => misaligned (((ask t).scene, 64) :: ((ask t).log.map fun l => (l, 4096)).toList))
      (fun t => (ask t).log.bind fun l => if globalEa e.s e.c t.tid l then none else some (tcBOUNDS, 11, l)) <|
      let (s1, left) := e.act.foldl (fun (x : State × List Nat) t =>
        if traceFits x.1 e.c t.tid (ask t) then (issueRay a e.c e.is.pc x.1 t, x.2) else (x.1, x.2 ++ [t.tid])) (e.s, [])
      .next (retireSome e.is (e.is.tids.filter fun i => !left.contains i) (leaveGang s1 e.is.crew left))

/-! ### `hitld` (R342) -/

/-- The event of a thread that became ready first, with its slot. -/
def firstEvent (s : State) (uid tid : Nat) : Option (RaySlot × RayRecord) :=
  (s.slots.filter fun x => x.crew == uid && x.tid == tid).foldl (fun best x => match best, x.events with
    | none, r :: _ => some (x, r)
    | some b, r :: _ => if r.ready < b.2.ready then some (x, r) else some b
    | b, [] => b) none

/-- Byte of the callback row that an event selects (R312). -/
def rowByte (ev : Nat) : Option Nat := match ev with
  | 3 => some 0
  | 1 => some 8
  | 2 => some 16
  | 4 | 5 => some 24
  | _ => none

/-- VA of the code address that a delivered record calls for, if any. -/
def codeVa (r : RayRecord) : Option Nat := if r.row = 0 || r.status != 0 then none else (rowByte r.event).map (r.row + ·)

/-- An event delivered to a thread: a final one frees the slot, a candidate waits for its decision. -/
def takeEvent (s : State) (uid tid : Nat) (x : RaySlot) (r : RayRecord) : State :=
  if candidateEvent r.event then
    updT (updSlot s x.id fun y => { y with events := y.events.drop 1 }) uid tid fun t => { t with candidate := some x.id }
  else dropSlot s x.id

/-- The effect of `hitld` on a lane: its state, what it writes, and where it goes (none: it waits). (DEDUCED, log entry 114) -/
def hitldLane (a : Args) (tr : Bool) (pc : Word64) (c : Crew) (codes : List (Nat × Nat)) (s : State) (t : Thread) : State × List Wr × Option Word64 :=
  let past := some (pc + 8)
  if threadSlots s c.uid t.tid = 0 then (s, [.reg a.d 8 0], past)
  else match firstEvent s c.uid t.tid with
    | none => if tr then (s, [.pred a.c false], past) else (s, [], none)
    | some (x, r) =>
      let code := ((codes.find? (·.1 == t.tid)).map (·.2)).getD 0
      (takeEvent s c.uid t.tid x r, [.reg a.d 8 (recordWord x.f64 x.ctrl x.logged r)] ++ (if tr then [.pred a.c true] else []),
        some (if code = 0 then pc + 8 else BitVec.ofNat 64 code))

/-- The lanes of a `hitld`, once the code addresses are known. -/
def hitldLanes (a : Args) (tr : Bool) (e : Env) (lanes : List Thread) (codes : List (Nat × Nat)) : Out :=
  let s0 := lanes.foldl (fun s t => defaultCand s e.is.crew t.tid) e.s
  let (s1, outs) := lanes.foldl (fun (acc : State × List (Nat × List Wr × Option Word64)) t =>
    let (s', ws, tgt) := hitldLane a tr e.is.pc e.c codes acc.1 t
    (s', acc.2 ++ [(t.tid, ws, tgt)])) (s0, [])
  let waits := (outs.filter fun o => o.2.2.isNone).map (·.1)
  let active := e.act.map (·.tid)
  let moved := e.is.tids.filter fun i => !active.contains i || (outs.any fun o => o.1 == i && o.2.2.isSome)
  let called := codes.filter fun x => x.2 != 0 && moved.contains x.1
  .next { updCrew s1 e.is.crew (fun c =>
    let c := applyWrs c (outs.flatMap fun o => o.2.1.map fun w => (o.1, w))
    let c := if !moved.isEmpty && moved.length < e.is.tids.length then endBindings c e.is.tids else c
    let c := c.mapT fun t =>
      if called.any (·.1 == t.tid) then { t with link := e.is.pc + 8 }
      else if waits.contains t.tid then { t with hold := .hitld c.counted } else t
    let c := moveTo moved (fun i => (((outs.find? (·.1 == i)).bind (·.2.2))).getD (e.is.pc + 8)) c
    called.foldl (fun c x => joinQueue c x.1 (BitVec.ofNat 64 x.2)) c) with issue := none }

/-- A code address that breaks the layout of its row (R312). -/
def codeBad (v : Nat) : Bool := v % 8 != 0 || bitsOf v 63 56 != 0

/-- `hitld` with and without `.try`: a FAULT traps when its record would be delivered, its thread's candidate defaulted and its slot freed where the trap is reported; the callback rows are read on the core path. -/
def hitldInstr (a : Args) (tr : Bool) (s : State) : Out :=
  gangDo a.guard s fun e =>
    let ev := fun t : Thread => firstEvent e.s e.is.crew t.tid
    match e.act.findSome? fun t => (ev t).bind fun x => if x.2.status = 2 then some (t, x) else none with
    | some (t, x, r) =>
      let f := r.fault.getD { code := tcBOUNDS, sub := 17 }
      let s1 := if recordsTrap e.s e.c then dropSlot (defaultCand e.s e.is.crew t.tid) x.id else e.s
      .next (raise s1 e.is.crew e.is.pc e.is.tids { f with tids := [t.tid], lanes := laneMask e.c [t.tid] })
    | none =>
      let calls := if bitAt a.m.toNat 0 then [] else e.act.filterMap fun t => ((ev t).bind fun x => codeVa x.2).map fun va => (t, va, 8)
      let fin := fun (e : Env) (codes : List (Thread × Nat)) =>
        let bad := codes.filter fun x => codeBad x.2
        if !bad.isEmpty then threadsTrap e tcBOUNDS 17 (bad.map fun x => (x.1, ((calls.find? fun y => y.1.tid == x.1.tid).map (·.2.1)).getD 0))
        else
          let go := e.act.filter fun t => !(calls.any fun x => x.1.tid == t.tid) || codes.any fun x => x.1.tid == t.tid
          hitldLanes a tr e go (codes.map fun x => (x.1.tid, x.2))
      if calls.isEmpty then fin e [] else readRecords e calls fin

/-- `hitld` (R342). -/
def execHitld (a : Args) (s : State) : Out := hitldInstr a false s

/-- `hitld.try` (R342). -/
def execHitldTry (a : Args) (s : State) : Out := hitldInstr a true s

/-! ### `hitrep` (R343) -/

/-- What a lane's `hitrep` does with its candidate: the decision, if one is made, and the predicate. -/
abbrev Verdict := Option (Hit → Decision) × Bool

/-- A `hitrep` of the active lanes. -/
def hitrepInstr (a : Args) (judge : Crew → Thread → Ray → Hit → Nat → Verdict) (s : State) : Out :=
  gangDo a.guard s fun e =>
    let vs := e.act.map fun t =>
      let r := (t.candidate.bind (getSlot e.s)).bind fun x => getRay e.s x.ray
      (t, match r with
        | none => ((none, false) : Verdict)
        | some r => match r.cand with
          | none => (none, false)
          | some (h, ev) => judge e.c t r h ev)
    let s1 := vs.foldl (fun s v => match v.2.1 with
      | some d => decide' s e.is.crew v.1.tid d
      | none => s) e.s
    .next (retire e.is (updCrew s1 e.is.crew fun c => applyWrs c (vs.map fun v => (v.1.tid, Wr.pred a.d v.2.2))))

/-- Accept and terminate: for ANYHIT and UNRESOLVED, at the record's t. -/
def judgeAccept (dec ev : Nat) : Verdict := if ev = evCustom then (none, false) else (some fun h => { dec := dec, hit := h }, true)

/-- `hitrep.accept` (R343). -/
def execHitrepAccept (a : Args) (s : State) : Out := hitrepInstr a (fun _ _ _ _ ev => judgeAccept 1 ev) s

/-- `hitrep.ignore` (R343). -/
def execHitrepIgnore (a : Args) (s : State) : Out := hitrepInstr a (fun _ _ _ _ _ => (some fun h => { dec := 2, hit := h }, true)) s

/-- `hitrep.term` (R343). -/
def execHitrepTerm (a : Args) (s : State) : Out := hitrepInstr a (fun _ _ _ _ ev => judgeAccept 3 ev) s

/-- The commit forms: t, SUB, U and V are the program's. -/
def judgeCommit (a : Args) (dec : Nat) (c : Crew) (t : Thread) (r : Ray) (_ : Hit) (ev : Nat) : Verdict :=
  let f64 := bitAt a.m.toNat 4
  if ev = evAnyHit || f64 != r.f64 then (none, false)
  else
    let x := if f64 then fp64.dec (rd c t a.a 2) else fp32.dec (rd c t a.a 1)
    if x.isNan || x.lt (fp64.dec r.tmin) || (fp64.dec r.tmax).lt x then (some fun h => { dec := 2, hit := h }, false)
    else
      let uv := rd c t a.c 2
      (some fun h => { dec := dec, hit := { h with
        t := rne fp64 x, sub := rd c t a.b 1 % 2 ^ 16, u := uv % 2 ^ 32, v := uv / 2 ^ 32, result := if ev = evUnresolved then 1 else h.result } }, true)

/-- `hitrep.commit` (R343). -/
def execHitrepCommit (a : Args) (s : State) : Out := hitrepInstr a (judgeCommit a 4) s

/-- `hitrep.commit.term` (R343). -/
def execHitrepCommitTerm (a : Args) (s : State) : Out := hitrepInstr a (judgeCommit a 5) s

/-! ### Scenes and treelet entries (R305, R306) -/

/-- A scene descriptor read, or nothing where it breaks its layout (R311). (DEDUCED, log entry 104) -/
def sceneOf (v : Nat) : Option (Scene × Nat) :=
  let sc : Scene := {
    tops := partOf v 0 8, table := partOf v 8 8, count := partOf v 16 4, cbTable := partOf v 24 8, rows := partOf v 32 4
    maxPend := if partOf v 36 2 = 0 then 2 else partOf v 36 2 }
  let prec := partOf v 20 1
  if sc.tops % 2 ^ 21 != 0 || sc.table % 32 != 0 || sc.count = 0 || 2 ^ 24 < sc.count || 1 < prec || partOf v 21 3 != 0 || sc.cbTable % 32 != 0
    || 256 < sc.rows || partOf v 36 2 == 1 || 1002 < sc.maxPend || partOf v 38 26 != 0 then none
  else some (sc, prec)

/-- A treelet table entry that breaks its layout. (DEDUCED, log entry 107) -/
def entryBad (v : Nat) : Bool := partOf v 0 8 % 2 ^ 21 != 0 || partOf v 8 8 % 2 ^ 21 != 0 || 4 ≤ partOf v 20 1 || partOf v 21 11 != 0

/-- A table entry at its home. (DEDUCED, log entry 108) -/
def entryRead (s : State) (ctx va : Nat) : Nat := match mapKey s ctx va with
  | some k => homeRead s k 32
  | none => 0

/-- Bytes of a table entry written by its home slice (R306). -/
def putEntry (s : State) (ctx va off len v : Nat) : State := match mapKey s ctx (va + off) with
  | some k => homeWriteN s k len v
  | none => s

/-- The hold of a treelet, if it is HELD. -/
def heldAt (s : State) (ctx entry : Nat) : Option HeldTreelet := s.held.find? fun h => h.ctx == ctx && h.entry == entry

/-- The stack that homes the page at an address, or a default where it is not in this device's HBM. -/
def pageStack (s : State) (ctx va dflt : Nat) : Nat := match mapKey s ctx va with
  | some k => if isHbm k then homeStack k else dflt
  | none => dflt

/-! ### `tlpub` (R329, R344) -/

/-- Copies of a 2 MiB page dropped from every node cache. -/
def dropNodePage (s : State) (ctx va : Nat) : State := match mapKey s ctx va with
  | none => s
  | some k =>
    let lo := place s k
    { s with lines := s.lines.filter fun l => match l.kind with
      | .node _ | .past 4 => !(l.ctx == ctx && lo ≤ 16 * l.sector && 16 * l.sector < lo + 2 ^ 21)
      | _ => true }

/-- A ray that waits in the leat of a treelet. -/
def waitsIn (ctx entry : Nat) (r : Ray) : Bool := r.ctx == ctx && r.entry == entry && r.entry != 0 && (match r.place with
  | .leat _ | .pond _ => true
  | _ => false)

/-- Whether a ray is inside a page: a pipe has taken it there and it has not left (R315). (DEDUCED, log entry 111) -/
def insidePage (ctx page : Nat) (r : Ray) : Bool := r.ctx == ctx && r.page == page && (match r.place with
  | .inside _ | .suspended _ => true
  | _ => false)

/-- The result of a publication written to its D, and its loads counter lowered. -/
def finishPub (s : State) (p : PubReq) (v : Nat) : State :=
  let s1 := { s with pubs := s.pubs.filter (·.id != p.id) }
  let s2 := countUp s1 p.crew p.tid fun k => { k with loads := k.loads - 1 }
  updCrew s2 p.crew fun c => if (c.thread p.tid).any (·.live) then (match p.dst with
    | some (k, true) => { c with s := groupPut c.s k v 1 }
    | some (k, false) => c.upd p.tid fun t => { t with v := groupPut t.v k v 1 }
    | none => c) else c

/-- A publication reaches the home of its treelet's entry: of a HELD treelet PAGE and SHADOW are exchanged and the held rays move to the new page's home; otherwise it answers that the treelet is not held (R329). (DEDUCED, log entry 115) -/
def servePub (s : State) (p : PubReq) : State :=
  if p.old.isSome then s
  else match heldAt s p.ctx p.entry with
    | none => finishPub s p 0xFFFFFFFF
    | some h =>
      let v := entryRead s p.ctx p.entry
      let old := partOf v 0 8
      let new := partOf v 8 8
      let ver := (partOf v 16 4 + 1) % 2 ^ 32
      let s1 := putEntry (putEntry (putEntry s p.ctx p.entry 0 16 (new + 2 ^ 64 * old)) p.ctx p.entry 16 4 ver) p.ctx p.entry 20 1 0
      let s2 := dropNodePage (dropNodePage s1 p.ctx old) p.ctx new
      { s2 with
        held := s2.held.filter (·.id != h.id)
        rays := s2.rays.map fun r => if waitsIn p.ctx p.entry r then
          { r with page := new, place := .leat (pageStack s2 p.ctx new (match r.place with
            | .leat k | .pond k => k
            | _ => 0)) } else r
        pubs := s2.pubs.map fun q => if q.id = p.id then { q with old := some old, version := ver } else q }

/-- Publications of a treelet that have not yet reached its home do so before a later request. -/
def servePubs (s : State) (ctx entry : Nat) : State :=
  (s.pubs.filter fun p => p.ctx == ctx && p.entry == entry).foldl servePub s

/-- PUBLISH_EXCHANGE (R329): the exchange is made, and D is written once no ray is inside the old page. -/
def execPublishExchange (hold : Nat) (s : State) : Out :=
  match s.pubs.find? (·.id == hold) with
  | none => .next s
  | some p =>
    let s1 := (s.pubs.filter fun q => q.id ≤ p.id && q.ctx == p.ctx && q.entry == p.entry).foldl servePub s
    match s1.pubs.find? (·.id == hold) with
    | none => .next s1
    | some q => match q.old with
      | some page => .next (if s1.rays.any (insidePage q.ctx page) then s1 else finishPub s1 q q.version)
      | none => .next s1

/-- The lanes of a `tlpub`: the descriptor and the entry are read, and `f` serves each lane's treelet. -/
def tlpubInstr (a : Args) (f : Env → State → Thread → Nat → State) (s : State) : Out :=
  gangDo a.guard s fun e =>
    let scene := fun t => rd e.c t a.a 2
    let num := fun t => rd e.c t a.b 1
    issueGate e (fun t => misaligned [(scene t, 64)]) (fun _ => none) <|
      let some' := e.act.filter fun t => num t != 0
      readRecords e (some'.map fun t => (t, scene t, 64)) fun e1 ds =>
        let scs := ds.map fun x => (x.1, sceneOf x.2)
        let bad := scs.filter fun x => x.2.isNone
        if !bad.isEmpty then threadsTrap e1 tcBOUNDS 17 (bad.map fun x => (x.1, scene x.1))
        else
          let known := scs.filterMap fun x => x.2.map fun sc => (x.1, sc.1)
          let inside := known.filter fun x => num x.1 < x.2.count
          readRecords e1 (inside.map fun x => (x.1, x.2.table + 32 * num x.1, 32)) fun e2 es =>
            let bad := es.filter fun x => entryBad x.2
            if !bad.isEmpty then threadsTrap e2 tcBOUNDS 17 (bad.map fun x =>
              (x.1, (((inside.find? fun y => y.1.tid == x.1.tid).map fun y => y.2.table + 32 * num y.1)).getD 0))
            else
              let go := e2.act.filter fun t => num t = 0 || (known.any fun x => x.1.tid == t.tid && x.2.count ≤ num t) || es.any fun x => x.1.tid == t.tid
              let s1 := onceS e2.s.loads.length <| go.foldl (fun s t =>
                if num t = 0 then issueLoad s e.is.crew t.tid a.d 1 0xFFFFFFFE none []
                else match inside.find? fun x => x.1.tid == t.tid with
                  | none => issueLoad s e.is.crew t.tid a.d 1 0xFFFFFFFD none []
                  | some x => f e2 s t (x.2.table + 32 * num t)) e2.s
              pastWith e2 (go.map (·.tid)) s1

/-- `tlpub.hold` (R344). -/
def execTlpubHold (a : Args) (s : State) : Out :=
  tlpubInstr a (fun e s t entry =>
    let s0 := servePubs s e.c.ctx entry
    if (heldAt s0 e.c.ctx entry).isSome then issueLoad s0 e.is.crew t.tid a.d 1 0xFFFFFFFF none []
    else
      let s1 := putEntry s0 e.c.ctx entry 20 1 1
      let s2 := { s1 with held := s1.held ++ [{ id := s1.nextId, ctx := e.c.ctx, entry := entry, since := s1.cycle }], nextId := s1.nextId + 1 }
      issueLoad s2 e.is.crew t.tid a.d 1 (partOf (entryRead s0 e.c.ctx entry) 16 4) none []) s

/-- `tlpub.stat` (R344). -/
def execTlpubStat (a : Args) (s : State) : Out :=
  tlpubInstr a (fun e s t entry =>
    let s0 := servePubs s e.c.ctx entry
    let ver := partOf (entryRead s0 e.c.ctx entry) 16 4
    issueLoad s0 e.is.crew t.tid a.d 1 (ver % 2 ^ 31 + 2 ^ 31 * (heldAt s0 e.c.ctx entry).isSome.toNat) none []) s

/-- `tlpub.pub` (R344): the effect of `xfence core, raypipe` at device scope for its thread, then the request. -/
def execTlpubPub (a : Args) (s : State) : Out :=
  gangDo a.guard s fun e => withRelease 2 e fun e =>
    tlpubInstr a (fun e s t entry =>
      let s1 := { s with lines := s.lines.filter fun l => match l.kind with
        | .node _ | .past 4 => l.ctx != e.c.ctx
        | _ => true }
      countUp { s1 with
        pubs := s1.pubs ++ [{ id := s1.nextId, crew := e.is.crew, tid := t.tid, dst := dstPlace a.d, ctx := e.c.ctx, entry := entry }]
        nextId := s1.nextId + 1 } e.is.crew t.tid fun k => { k with loads := k.loads + 1 }) e.s

end Sys2Proof.Machine
end

