-- ==== Sys2Proof/Machine/Traverse.lean ====
section
/-! DEFINITION. The ray pipes, leats and tailrace (R307–R331): how a ray reads, what it does at a node, a leaf, an instance and at the end of a treelet, the decisions on its candidates, its log, and the events that move it. -/

namespace Sys2Proof.Machine

/-! ### Reading (R217, R311, R327, R372) -/

/-- The code of the path that a cache serves (R217). -/
def CacheKind.path : CacheKind → Nat
  | .sampler _ => 3
  | .node _ => 4
  | .past p => p
  | .l1 _ | .rdc _ => 0

/-- A run of bytes read through caches that are not coherent with the homes; `kind` names the cache that serves a byte. (DEDUCED, log entry 117) -/
def cachedRun (kind : Nat → CacheKind) (ctx : Nat) (s : State) (run : Nat × Nat) : State × List Byte :=
  let (k, len) := run
  let n := if len = 0 then 0 else (k + len - 1) / 16 - k / 16 + 1
  let (s1, bs) := (List.range n).foldl (fun (acc : State × List Byte) i =>
    let key := 16 * (k / 16 + i)
    let sec := place acc.1 key / 16
    let (s2, more) := throughCache (kind key) ctx sec (pathSector (kind key).path ctx sec) acc.1
    (s2, acc.2 ++ more)) (s, [])
  (s1, (bs.drop (k % 16)).take len)

/-- Runs read through such a cache, poisoned bytes as zero (R372), and whether any was poisoned. -/
def cachedRead (kind : Nat → CacheKind) (ctx : Nat) (s : State) (runs : List (Nat × Nat)) : State × List Byte × Bool :=
  runs.foldl (fun (acc : State × List Byte × Bool) run =>
    let (s1, bs) := cachedRun kind ctx acc.1 run
    let marked := ((List.range run.2).zip bs).map fun (i, b) => if poisonedAt s1 (run.1 + i) then (0, true) else (b, false)
    (s1, acc.2.1 ++ marked.map (·.1), acc.2.2 || marked.any (·.2))) (s, [], false)

/-- The place of a failing read in a ray's fault: treelet and offset (R327). -/
def Ray.at (r : Ray) (off : Nat) : Nat := off + 2 ^ 32 * r.treelet

/-- The stack whose pipe a ray is in. -/
def Ray.stack (r : Ray) : Nat := match r.place with
  | .sent k | .leat k | .pond k | .inside k | .suspended k => k
  | .ended => r.home

/-- BOUNDS with reason 17 (R311). -/
def malformed (m : Mover) (va : Nat) : TrapInfo := engineTrap m tcBOUNDS 17 va

/-- A fault that leaves the poison flags as they are now. -/
def stopKeeping {α : Type} (s : State) (info : TrapInfo) (side : Nat) : Part α := .stop info side ((s.crews.filter (·.poisonFlag)).map (·.uid))

/-- A read of a ray's traversal; `off` is the offset of the node or record in its treelet. (DEDUCED, log entry 113) -/
def rayFetch (s : State) (m : Mover) (r : Ray) (late : Option TrapInfo) (off va len : Nat) : Part (Nat × Bool) :=
  (quernReach s m { load := true } late (r.at off) [(va, len)]).bind fun s1 runs =>
    let (s2, bs, bad) := cachedRead (fun _ => .node r.stack) r.ctx s1 runs
    if !bad then .ok s2 (bytesVal bs, false)
    else match enginePoison s2 m ((poisonAddr s2 [(va, len)] runs).getD va) with
      | (s3, some f) => stopKeeping s3 f (r.at off)
      | (s3, none) => .ok s3 (bytesVal bs, true)

/-! ### The log (R331) -/

/-- Sixteen bytes of a ray's log written on the ray-pipe path. -/
def putLog (s : State) (m : Mover) (r : Ray) (late : Option TrapInfo) (entry v : Nat) : Part Unit := match r.log with
  | none => .ok s ()
  | some va => (quernReach s m { store := true } late (r.at 0) [(va.toNat + 16 * entry, 16)]).bind fun s1 runs =>
    .ok (engineWrite s1 runs ((byteList 0 v 16).map (·.2)) false) ()

/-- An event made: written while an entry is left, and counted. (DEDUCED, log entry 109) -/
def logEvent (s : State) (m : Mover) (r : Ray) (late : Option TrapInfo) (v : Nat) : Part Ray :=
  if r.log.isNone then .ok s r
  else
    let r1 := { r with logCount := r.logCount + 1 }
    if r.logCount < 253 then (putLog s m r late (3 + r.logCount) v).bind fun s1 _ => .ok s1 r1 else .ok s r1

def Ray.logOver (r : Ray) : Bool := r.log.isSome && 253 < r.logCount

/-- A treelet visit. -/
def visitEntry (r : Ray) (version : Nat) : Nat :=
  1 + 2 ^ 32 * r.treelet + 2 ^ 64 * version + 2 ^ 96 * ((r.inst.map (·.index)).getD 0xFFFFFFFF)

/-- A decision. -/
def decisionEntry (dec : Nat) (h : Hit) : Nat :=
  2 + 2 ^ 8 * dec + 2 ^ 16 * h.sub + 2 ^ 32 * h.inst + 2 ^ 64 * h.prim + 2 ^ 96 * rne fp32 (fp64.dec h.t)

/-- Entry 0: the header. -/
def headerEntry (r : Ray) (fin : Option Hit) : Nat :=
  2 ^ 8 * (r.logOver.toNat + 2 * r.f64.toNat + 4 * (fin.any (·.shape != 0)).toNat) + 2 ^ 32 * r.logCount
    + 2 ^ 64 * ((fin.map (·.instVa)).getD 0)

/-- Entry 1: the final solve. -/
def solveEntry (h : Hit) : Nat :=
  3 + 2 ^ 8 * h.shape + 2 ^ 16 * h.iter + 2 ^ 24 * h.result + 2 ^ 32 * h.inst + 2 ^ 64 * h.primAddr

/-- The entries written when a ray ends. -/
def closeLog (s : State) (m : Mover) (r : Ray) (late : Option TrapInfo) (fin : Option Hit) : Part Unit :=
  (putLog s m r late 0 (headerEntry r fin)).bind fun s _ => match fin with
    | some h => if h.shape = 0 then .ok s ()
      else (putLog s m r late 1 (solveEntry h)).bind fun s _ =>
        putLog s m r late 2 (if h.shape = 2 then h.lo + 2 ^ 64 * h.hi else 0)
    | none => .ok s ()

/-! ### Decisions (R324) -/

/-- Whether a key is below the best so far. -/
def keyBelow (h : Hit) (best : Option Hit) : Bool := match best with
  | none => true
  | some b =>
    let t := fp64.dec h.t
    let u := fp64.dec b.t
    t.lt u || (t.eqv u && (h.inst < b.inst || (h.inst == b.inst && (h.prim < b.prim || (h.prim == b.prim && h.sub < b.sub)))))

/-- A candidate accepted or committed; `term` ends the traversal, as any does in any and occlusion mode. -/
def takeHit (r : Ray) (h : Hit) (term : Bool) : Ray :=
  let r1 := if keyBelow h r.best then { r with best := some h, tmax := h.t } else r
  if term || r.mode != .closest then { r1 with work := [], pend := [] } else r1

/-- Whether a candidate is pursued: within the limits, and at TMAX only below the best hit's INSTID and PRIM. -/
def pursued (r : Ray) (t : FV) (inst prim : Nat) : Bool :=
  let hi := fp64.dec r.tmax
  let b := (r.best.map fun h => (h.inst, h.prim)).getD (0xFFFFFFFF, 0xFFFFFFFF)
  (fp64.dec r.tmin).le t && t.le hi && (t.lt hi || inst < b.1 || (inst == b.1 && prim < b.2))

/-- A record sent over the tailrace. -/
def sendRecord (r : Ray) (h : Hit) (ev : Nat) : Ray :=
  { r with tail := r.tail ++ [{ hit := some h, event := ev, logOver := r.logOver, row := h.row }], sent := (r.sent + 1) % 256 }

/-- A candidate that the hardware accepts, and whether the traversal ends. -/
def acceptHit (s : State) (m : Mover) (r : Ray) (late : Option TrapInfo) (h : Hit) : Part (Ray × Bool) :=
  (logEvent s m r late (decisionEntry 0 h)).bind fun s r => .ok s (takeHit (sendRecord r h evNone) h false, r.mode != .closest)

/-- A candidate sent to the issuing core: the ray is suspended until its decision returns (R325). -/
def askProgram (r : Ray) (h : Hit) (ev : Nat) : Ray := { sendRecord r h ev with cand := some (h, ev), place := .suspended r.stack }

/-- The decision that has returned takes effect. -/
def settleDecision (s : State) (m : Mover) (r : Ray) (late : Option TrapInfo) (d : Decision) (ev : Nat) : Part Ray :=
  (logEvent s m r late (decisionEntry d.dec d.hit)).bind fun s r =>
    let r1 := { r with cand := none, decision := none, place := .inside r.stack }
    if d.dec = 2 || (d.dec = 6 && ev = evCustom) then .ok s r1
    else .ok s (takeHit r1 d.hit (d.dec == 3 || d.dec == 5))

/-! ### Space and rows -/

def v3Bits (l : List Nat) : V3 FV := (v3Of 0 l).map fp64.dec

/-- Origin and direction in the space of the treelet. -/
def Ray.frame (r : Ray) : V3 FV × V3 FV := match r.inst with
  | some i => (v3Bits i.org, v3Bits i.dir)
  | none => (v3Bits r.org, v3Bits r.dir)

def Ray.instId (r : Ray) : Nat := (r.inst.map (·.instId)).getD 0xFFFFFFFF
def Ray.forced (r : Ray) : Bool := (r.inst.map (·.force)).getD false

/-- VA of a callback row, or 0 for none (R312). -/
def rowVa (r : Ray) (off : Nat) : Nat := match r.scene with
  | none => 0
  | some sc =>
    let row := (bitsOf r.ctrl 15 8 + off) % 256
    if sc.cbTable = 0 || sc.rows ≤ row then 0 else sc.cbTable + 32 * row

/-- The row of the instance that the ray is in. -/
def Ray.row (r : Ray) : Nat := rowVa r ((r.inst.map (·.rowOff)).getD 0)

/-- A code address of the ray's row. -/
def rowCode (s : State) (m : Mover) (r : Ray) (late : Option TrapInfo) (byte : Nat) : Part Nat :=
  if r.row = 0 then .ok s 0
  else (rayFetch s m r late 0 (r.row + byte) 8).bind fun s x => if codeBad x.1 then .fault (malformed m (r.row + byte)) (r.at 0) else .ok s x.1

/-- The `i`-th value of a structure from a byte on. -/
def valAt (f64 : Bool) (v off i : Nat) : FV := if f64 then fp64.dec (partOf v (off + 8 * i) 8) else fp32.dec (partOf v (off + 4 * i) 4)

def v3At (f64 : Bool) (v off i : Nat) : V3 FV := ⟨valAt f64 v off i, valAt f64 v off (i + 1), valAt f64 v off (i + 2)⟩

def bitsV3 (v : V3 FV) : List Nat := [rne fp64 v.x, rne fp64 v.y, rne fp64 v.z]

/-! ### Nodes (R307, R317) -/

def refType (ref : Nat) : Nat := bitsOf ref 3 0
def refCount (ref : Nat) : Nat := bitsOf ref 7 4
def refOff (ref : Nat) : Nat := bitsOf ref 31 8 * 256
def refId (ref : Nat) : Nat := bitsOf ref 63 32

/-- Whether a child reference breaks its layout, for the ray and the treelet it stands in (R311). -/
def refBad (r : Ray) (ref : Nat) : Bool :=
  let ty := refType ref
  6 < ty || (refCount ref != 0 && !(2 ≤ ty && ty ≤ 4)) || (refId ref != 0 && ty < 5) || 2 ^ 21 ≤ refOff ref || (ty != 0 && r.size ≤ refOff ref)
    || (ty == 3 && !r.f64) || (ty == 6 && r.treelet != 0)

/-- An item put in its place: nearest entry first, equal ones after those before it. -/
def insertItem (x : RayItem) : List RayItem → List RayItem
  | [] => [x]
  | y :: ys => if (fp64.dec x.entry).lt (fp64.dec y.entry) then x :: y :: ys else y :: insertItem x ys

/-- A node visited: the children whose boxes the ray meets stand first in the work, nearest first. -/
def visitNode (s : State) (m : Mover) (r : Ray) (late : Option TrapInfo) (ref : Nat) (rest : List RayItem) : Part Ray :=
  let off := refOff ref
  let esz := if r.f64 then 64 else 32
  if r.size < off + 8 * esz then .fault (malformed m (r.page + off)) (r.at off)
  else (rayFetch s m r late off (r.page + off) (8 * esz)).bind fun s x =>
    if x.2 then .ok s { r with work := rest }
    else
      let child := fun k => partOf x.1 (k * esz + (if r.f64 then 48 else 24)) 8
      let odd := fun k => r.f64 && partOf x.1 (k * 64 + 56) 8 != 0
      if (List.range 8).any fun k => refBad r (child k) || odd k then .fault (malformed m (r.page + off)) (r.at off)
      else
        let (o, d) := r.frame
        let hits := (List.range 8).filterMap fun k =>
          if refType (child k) = 0 then none
          else (boxEntry o d (fp64.dec r.tmin) (fp64.dec r.tmax) (v3At r.f64 x.1 (k * esz) 0) (v3At r.f64 x.1 (k * esz) 3)).map fun t =>
            ({ ref := child k, entry := entryBits t } : RayItem)
        .ok s { r with work := hits.foldl (fun l x => insertItem x l) [] ++ rest }

/-! ### Instances and links (R309, R313) -/

/-- A pending visit added; more than the scene's MAXPEND are a fault. -/
def addVisit (s : State) (m : Mover) (r : Ray) (off : Nat) (v : RayVisit) : Part Ray :=
  if ((r.scene.map (·.maxPend)).getD 2) < r.pend.length + 1 then .fault (malformed m r.sceneVa.toNat) (r.at off)
  else .ok s { r with pend := r.pend ++ [v] }

/-- An instance met: if its MASK meets the ray's, the visit of its root treelet is added, with the ray carried into object space. -/
def visitInst (s : State) (m : Mover) (r : Ray) (late : Option TrapInfo) (it : RayItem) : Part Ray :=
  let off := refOff it.ref
  let n := if r.f64 then 128 else 64
  let q := if r.f64 then 96 else 48
  let va := r.page + off
  if r.size < off + n then .fault (malformed m va) (r.at off)
  else (rayFetch s m r late off va n).bind fun s x =>
    if x.2 then .ok s r else
    let v := x.1
    let root := partOf v q 4
    if 1 < partOf v (q + 5) 1 || partOf v (q + 12) (n - q - 12) != 0 || root = 0 || ((r.scene.map (·.count)).getD 0) ≤ root then
      .fault (malformed m va) (r.at off)
    else if partOf v (q + 4) 1 &&& bitsOf r.ctrl 7 0 = 0 then .ok s r
    else
      let A := arith (if r.f64 then fp64 else fp32)
      let mx := (List.range 12).map (valAt r.f64 v 0)
      let inst : RayInst := {
        va := va, index := refId it.ref, instId := partOf v (q + 8) 4, rowOff := partOf v (q + 6) 2, force := bitAt (partOf v (q + 5) 1) 0
        org := bitsV3 (xform A mx (v3Bits r.org) (fv 1)), dir := bitsV3 (xform A mx (v3Bits r.dir) (fv 0)) }
      addVisit s m r off { entry := it.entry, treelet := root, inst := some inst }

/-! ### Leaves (R308, R310, R321–R323) -/

/-- What settles a candidate. -/
inductive Settle where
  | miss | accept | ask
  deriving DecidableEq, Repr

/-- A candidate settled, given its opaque flag, the state of its micro-map if it has one, and whether the row has an ANYHIT program (R321). -/
def settleCand (r : Ray) (opaq : Bool) (omm : Option Nat) (anyHit : Bool) : Settle :=
  let force := r.forced
  match omm with
  | none => if r.fany && !force then .ask else if opaq || r.opq || force then .accept else .ask
  | some 0 => .miss
  | some 1 => if r.fany && !force then .ask else .accept
  | some k =>
    if r.fany && !force then .ask
    else if r.opq || force || !anyHit then (if k = 3 then .accept else .miss)
    else .ask

/-- A candidate of the hardware, settled and carried out; the flag says that the leaf is left. -/
def carryOut (s : State) (m : Mover) (r : Ray) (late : Option TrapInfo) (h : Hit) : Settle → Part (Ray × Bool)
  | .miss => .ok s (r, false)
  | .accept => acceptHit s m r late h
  | .ask => .ok s (askProgram r h evAnyHit, true)

/-- The state of a hit's sub-triangle and its number, from the micro-map at an offset. -/
def readOmm (s : State) (m : Mover) (r : Ray) (late : Option TrapInfo) (off : Nat) (u v : FV) : Part (Nat × Nat) :=
  if r.size < off + 8 then .fault (malformed m (r.page + off)) (r.at off)
  else (rayFetch s m r late off (r.page + off) 8).bind fun s x =>
    let n := x.1
    if 6 < n || r.size < off + 8 + (4 ^ n + 3) / 4 then .fault (malformed m (r.page + off)) (r.at off)
    else
      let sub := subTriangle n u v
      (rayFetch s m r late off (r.page + off + 8 + sub / 4) 1).bind fun s y => .ok s (bitsOf y.1 (2 * (sub % 4) + 1) (2 * (sub % 4)), sub)

/-- Offsets of a triangle block's parts: triangles, their stride, indices within a triangle, and PRIM. -/
def blockLayout (f64 : Bool) : Nat × Nat × Nat := if f64 then (84, 72, 336) else (48, 36, 192)

/-- Whether a triangle block breaks its layout. -/
def trisBad (f64 : Bool) (v : Nat) : Bool :=
  let p := (blockLayout f64).2.2
  (List.range 4).any (fun k => 4 ≤ partOf v (p + 32 + k) 1) || partOf v (p + 36) ((if f64 then 512 else 256) - p - 36) != 0

/-- Vertices and indices of triangle k of a block. -/
def blockTri (f64 : Bool) (v k : Nat) : V3 (V3 FV) × V3 Nat :=
  let (st, ix, _) := blockLayout f64
  (⟨v3At f64 v (st * k) 0, v3At f64 v (st * k) 3, v3At f64 v (st * k) 6⟩,
   ⟨partOf v (st * k + ix) 4, partOf v (st * k + ix + 4) 4, partOf v (st * k + ix + 8) 4⟩)

/-- One triangle of a block tested, and its candidate carried out. -/
def visitTri (s : State) (m : Mover) (r : Ray) (late : Option TrapInfo) (off v k : Nat) : Part (Ray × Bool) :=
  let p := (blockLayout r.f64).2.2
  let flags := partOf v (p + 32 + k) 1
  if !bitAt flags 0 then .ok s (r, false)
  else
    let (o, d) := r.frame
    let (verts, ix) := blockTri r.f64 v k
    let x := triTest r.f64 o d verts ix
    let front := (fv 0).lt x.s
    let prim := partOf v (p + 4 * k) 4
    if !x.hit || (front && r.cullF) || (!front && r.cullB) || !pursued r x.t r.instId prim then .ok s (r, false)
    else
      let h : Hit := {
        t := rne fp64 x.t, inst := r.instId, prim := prim, u := rne fp32 x.u, v := rne fp32 x.v, back := !front
        instVa := (r.inst.map (·.va)).getD 0, shape := 1, primAddr := r.page + off + k, row := r.row }
      let omm := partOf v (p + 16 + 4 * k) 4
      if omm = 0 then carryOut s m r late h (settleCand r (bitAt flags 1) none false)
      else (readOmm s m r late omm x.u x.v).bind fun s (st, sub) =>
        (if 2 ≤ st then rowCode s m r late 0 else .ok s 0).bind fun s code =>
          carryOut s m r late { h with sub := sub } (settleCand r (bitAt flags 1) (some st) (code != 0))

/-- The work left once `n` of a leaf's primitives are done. -/
def leafWork (it : RayItem) (rest : List RayItem) (n total : Nat) : List RayItem := if n < total then { it with prim := n } :: rest else rest

/-- Triangles of a block in order, until the leaf is left. -/
def visitTris (m : Mover) (late : Option TrapInfo) (off v : Nat) (it : RayItem) (rest : List RayItem) (total base : Nat) :
    List Nat → State → Ray → Part Ray
  | [], s, r => .ok s r
  | k :: ks, s, r =>
    (visitTri s m { r with work := leafWork it rest (base + k + 1) total } late off v k).bind fun s (r, left) =>
      if left then .ok s r else visitTris m late off v it rest total base ks s r

/-- An asphere record read, or nothing where it breaks its layout. -/
def asphereOf (v : Nat) : Option (Asphere FV) :=
  let x := fun i => fp64.dec (partOf v (8 * i) 8)
  let A := arith fp64
  let r : Asphere FV := {
    vtx := ⟨x 0, x 1, x 2⟩, axis := ⟨x 3, x 4, x 5⟩, c := x 6, k := x 7, a := (List.range 9).map fun i => x (8 + i)
    rclear := x 17, zmin := x 18, zmax := x 19 }
  let slope := A.mul (A.mul (A.add (fv 1) r.k) (A.mul r.c r.c)) (A.mul r.rclear r.rclear)
  if slope.lt (fv 1) && r.zmin.le r.zmax && (fv 0).lt r.rclear && partOf v 164 1 < 2 && partOf v 165 91 == 0 then some r else none

/-- A candidate for the row's ISECT program; without one it is ignored. An instance that forces opaque accepts it without a program (R309). -/
def askIsect (s : State) (m : Mover) (r : Ray) (late : Option TrapInfo) (h : Hit) (ev : Nat) : Part Ray :=
  if r.forced then (acceptHit s m r late h).bind fun s x => .ok s x.1
  else (rowCode s m r late 24).bind fun s code =>
    if code != 0 then .ok s (askProgram r h ev)
    else .ok (if ev = evUnresolved then telemetry s r.ctx 6 else s) r

/-- One asphere record. -/
def visitAsphere (s : State) (m : Mover) (r : Ray) (late : Option TrapInfo) (off v : Nat) : Part Ray :=
  match asphereOf v with
  | none => .fault (malformed m (r.page + off)) (r.at off)
  | some a =>
    let (o, d) := r.frame
    let prim := partOf v 160 4
    let hit := fun (t : FV) (iter : Nat) (lo hi : FV) => ({
      t := rne fp64 t, inst := r.instId, prim := prim, instVa := (r.inst.map (·.va)).getD 0, shape := 2, iter := iter
      primAddr := r.page + off, lo := rne fp64 lo, hi := rne fp64 hi, row := r.row } : Hit)
    match asphereTest o d a (fp64.dec r.tmin) (fp64.dec r.tmax) with
    | .miss => .ok s r
    | .hit t iter lo hi =>
      if !pursued r t r.instId prim then .ok s r
      else (carryOut s m r late (hit t iter lo hi) (settleCand r (bitAt (partOf v 164 1) 0) none false)).bind fun s x => .ok s x.1
    | .unresolved t lo hi =>
      if !pursued r t r.instId prim then .ok s r else askIsect s m r late (hit t 16 lo hi) evUnresolved

/-- One custom record: a candidate with T at the box entry (R323). (DEDUCED, log entry 150) -/
def visitCustom (s : State) (m : Mover) (r : Ray) (late : Option TrapInfo) (off v : Nat) : Part Ray :=
  let box := if r.f64 then 48 else 24
  if partOf v box (48 - box) != 0 || partOf v 56 8 != 0 then .fault (malformed m (r.page + off)) (r.at off)
  else
    let (o, d) := r.frame
    let prim := partOf v 48 4
    match boxEntry o d (fp64.dec r.tmin) (fp64.dec r.tmax) (v3At r.f64 v 0 0) (v3At r.f64 v 0 3) with
    | none => .ok s r
    | some t =>
      let t := roundTo (if r.f64 then fp64 else fp32) t
      if !pursued r t r.instId prim then .ok s r
      else askIsect s m r late {
        t := rne fp64 t, inst := r.instId, prim := prim, u := partOf v 52 4, instVa := (r.inst.map (·.va)).getD 0, shape := 0, row := r.row } evCustom

/-- One block or record of a leaf. -/
def visitLeaf (s : State) (m : Mover) (r : Ray) (late : Option TrapInfo) (it : RayItem) (rest : List RayItem) : Part Ray :=
  let ty := refType it.ref
  let n := refCount it.ref + 1
  let per := if ty = 2 then 4 else 1
  let size := if ty = 4 then 64 else if ty = 2 && r.f64 then 512 else 256
  let b := it.prim / per
  let off := refOff it.ref + b * size
  let total := n * per
  if r.size < off + size then .fault (malformed m (r.page + off)) (r.at off)
  else (rayFetch s m r late off (r.page + off) size).bind fun s x =>
    let past := { r with work := leafWork it rest ((b + 1) * per) total }
    if x.2 then .ok s past
    else if ty = 2 then
      if trisBad r.f64 x.1 then .fault (malformed m (r.page + off)) (r.at off)
      else visitTris m late off x.1 it rest total (4 * b) ((List.range 4).drop (it.prim % 4)) s r
    else if ty = 3 then visitAsphere s m past late off x.1
    else visitCustom s m past late off x.1

/-! ### Treelets (R306, R307, R314) -/

/-- A ray's traversal ends with a status. -/
def stopRay (r : Ray) (status : Nat) (fault : Option TrapInfo) : Ray :=
  { r with place := .ended, status := status, fault := fault, cand := none, decision := none }

/-- A table entry read by a ray; a poisoned one reads as 0 and sets the flag (R372). -/
def entryFetch (s : State) (m : Mover) (r : Ray) (late : Option TrapInfo) : Part Nat :=
  (quernReach s m { load := true } late (r.at 0) [(r.entry, 32)]).bind fun s1 runs =>
    let (bs, bad) := engineRead s1 runs
    if !bad then .ok s1 (bytesVal bs)
    else match enginePoison s1 m ((poisonAddr s1 [(r.entry, 32)] runs).getD r.entry) with
      | (s2, some f) => stopKeeping s2 f (r.at 0)
      | (s2, none) => .ok s2 0

/-- Entering a treelet: the descriptor at the start, for which the overflow records not reserved at issue are reserved (R316); the table entry, with PAGE as it stood when a pipe took the ray (R329); and the header. A page homed elsewhere sends the ray on. -/
def enterTreelet (s : State) (m : Mover) (r : Ray) (late : Option TrapInfo) : Part Ray :=
  let header := fun (s : State) (r : Ray) (version : Nat) =>
    (rayFetch s m r late 0 r.page 256).bind fun s x =>
      let v := x.1
      let root := partOf v 8 4
      let size := partOf v 12 4
      if partOf v 0 4 != r.treelet || partOf v 4 1 != r.f64.toNat || partOf v 5 3 != 0 || partOf v 16 240 != 0 || root = 0 || root % 256 != 0
          || 2 ^ 21 < size || size ≤ root then .fault (malformed m r.page) (r.at 0)
      else (logEvent s m r late (visitEntry r version)).bind fun s r =>
        .ok s { r with entered := true, size := size, work := [{ ref := 1 + root, entry := r.tmin }] }
  if r.treelet = 0 then
    (rayFetch s m r late 0 r.sceneVa.toNat 64).bind fun s x => match sceneOf x.1 with
      | none => .fault (malformed m r.sceneVa.toNat) (r.at 0)
      | some (sc, prec) =>
        let more := extRecords sc.maxPend - r.reserved
        if prec != r.f64.toNat then .ok s (stopRay r 4 none)
        else if s.bar.extAdmit < extUsed s + more then .ok s { r with place := .leat r.stack }
        else header s { r with scene := some sc, page := sc.tops + 2 ^ 21 * r.home, reserved := r.reserved + more } 0
  else
    (entryFetch s m r late).bind fun s v =>
      if entryBad v then .fault (malformed m r.entry) (r.at 0)
      else
        let page := if v = 0 then 0 else r.page
        (quernReach s m { load := true } late (r.at 0) [(page, 1)]).bind fun s ks =>
          let stack := ((ks.head?.filter fun k => isHbm k.1).map fun k => homeStack k.1).getD r.stack
          if stack != r.stack then .ok s { r with page := page, place := .sent stack }
          else header s { r with page := page } r.version

/-- Order of pending visits: nearest entry, then treelet number, then instance index (R317). -/
def visitBefore (x y : RayVisit) : Bool :=
  let a := fp64.dec x.entry
  let b := fp64.dec y.entry
  let i := fun v : RayVisit => (v.inst.map (·.index)).getD 0xFFFFFFFF
  a.lt b || (a.eqv b && (x.treelet < y.treelet || (x.treelet == y.treelet && i x < i y)))

/-- The first pending visit in that order. -/
def firstVisit : List RayVisit → Option RayVisit
  | [] => none
  | v :: vs => match firstVisit vs with
    | none => some v
    | some w => some (if visitBefore w v then w else v)

/-- Leaving a treelet: to the home of the next pending treelet, or the end of the traversal. -/
def leaveTreelet (s : State) (m : Mover) (r : Ray) (late : Option TrapInfo) : Part Ray :=
  match firstVisit (r.pend.filter fun v => !(fp64.dec r.tmax).lt (fp64.dec v.entry)) with
  | none => (closeLog s m r late r.best).bind fun s _ => .ok s { r with place := .ended, pend := [] }
  | some v =>
    let sc := r.scene.getD { tops := 0, table := 0, count := 0, cbTable := 0, rows := 0, maxPend := 2 }
    let r1 := { r with treelet := v.treelet, entry := sc.table + 32 * v.treelet, inst := v.inst, entered := false, pend := r.pend.erase v }
    if v.treelet = 0 || sc.count ≤ v.treelet then .fault (malformed m r.page) (r1.at 0)
    else (entryFetch s m r1 late).bind fun s x =>
      let page := partOf x 0 8
      if entryBad x then .fault (malformed m r1.entry) (r1.at 0)
      else (quernReach s m { load := true } late (r1.at 0) [(page, 1)]).bind fun s ks =>
        .ok s { r1 with page := page, place := .sent (((ks.head?.filter fun k => isHbm k.1).map fun k => homeStack k.1).getD r.stack) }

/-- One step of a ray in its pipe. -/
def rayStep (s : State) (m : Mover) (r : Ray) (late : Option TrapInfo) : Part Ray :=
  match r.decision, r.cand with
  | some d, some c => settleDecision s m r late d c.2
  | _, _ =>
    if !r.entered then enterTreelet s m r late
    else match r.work with
      | [] => leaveTreelet s m r late
      | it :: rest =>
        if (fp64.dec r.tmax).lt (fp64.dec it.entry) then .ok s { r with work := rest }
        else match refType it.ref with
          | 1 => visitNode s m r late it.ref rest
          | 5 => addVisit s m { r with work := rest } (refOff it.ref) { entry := it.entry, treelet := refId it.ref, inst := r.inst }
          | 6 => visitInst s m { r with work := rest } late it
          | _ => visitLeaf s m r late it rest

/-- Ray pipes of a stack that are free: neither lost, nor due for replacement, nor with a ray in them (R14, R373). -/
def freePipes (s : State) (stack : Nat) : List Nat :=
  (List.range 64).filter fun p => !s.hw.pipesLost.contains (stack, p) && !s.hw.pipesDue.contains (stack, p)
    && !s.rays.any fun r => r.place == .inside stack && r.pipe == p

/-- The pipe in which a suspended ray goes on: the one it was in, if no other ray is there, else a free one. -/
def pipeFor (s : State) (stack : Nat) (r : Ray) : Option Nat :=
  if s.rays.any fun q => q.place == .inside stack && q.pipe == r.pipe then (freePipes s stack).head? else some r.pipe

/-- Whether a ray is, or was before its suspension, in a pipe of a stack. -/
def inPipe (s : State) (stack pipe : Nat) : Bool :=
  s.rays.any fun r => r.pipe == pipe && (r.place == .inside stack || r.place == .suspended stack)

/-- A failing pipe replaced by one of the 2 spares of its base die, or lost; Millwright reports a loss to the host (R373). -/
def replacePipe (s : State) (stack pipe : Nat) : State :=
  let used := mget 0 s.hw.pipeSpares stack
  let s1 := { s with hw := { s.hw with pipesDue := s.hw.pipesDue.filter (· != (stack, pipe)) } }
  if used < 2 then blowFuse { s1 with hw := { s1.hw with pipeSpares := mput 0 s1.hw.pipeSpares stack (used + 1) } } (0x600 + stack)
  else partLost { s1 with hw := { s1.hw with pipesLost := s1.hw.pipesLost ++ [(stack, pipe)] } } [5, stack, pipe]

/-- The pipes due for replacement whose ray has left its treelet are replaced. -/
def settlePipes (s : State) : State :=
  (s.hw.pipesDue.filter fun x => !inPipe s x.1 x.2).foldl (fun s x => replacePipe s x.1 x.2) s

/-- A ray that ends early: what its log can still take is written. -/
def abandonRay (s : State) (m : Mover) (r : Ray) (status : Nat) (fault : Option TrapInfo) : State :=
  let s1 := match closeLog s m r none none with
    | .ok s1 _ => s1
    | _ => s
  updRay s1 r.id fun _ => stopRay r status fault

/-- A fault that a ray meets, with the ray detail (R327). -/
def rayTrap (r : Ray) (info : TrapInfo) (at' : Nat) : TrapInfo :=
  { info with kind2 := 3, extra := [{ off := 0, len := 8, val := r.pc.toNat }, { off := 8, len := 4, val := at' / 2 ^ 32 }, { off := 12, len := 4, val := at' % 2 ^ 32 }] }

/-- NODE_VISIT (R317): a ray in a pipe takes one step; a suspended one goes on once its decision has returned and a pipe is free. -/
def execNodeVisit (ray : Nat) (s : State) : Out :=
  match getRay s ray with
  | none => .next s
  | some r => match getCrew s r.crew with
    | none => .next s
    | some c =>
      let m : Mover := { req := ray, crew := c, tid := r.tid }
      let able := match r.place with
        | .inside _ => true
        | .suspended k => r.decision.isSome && (pipeFor s k r).isSome && !ctxOff s r.ctx
        | _ => false
      let r := match r.place with
        | .suspended k => { r with pipe := (pipeFor s k r).getD r.pipe }
        | _ => r
      if !able || engineHeld s ray || engineStopped s c 3 then .next s
      else
        let (s0, late) : State × Option TrapInfo := match takeFault s ray with
          | some (f, s1) => (s1, some f)
          | none => (s, none)
        match rayStep s0 m r late with
        | .wait s1 => .next s1
        | .ok s1 r1 => .next (settlePipes (updRay s1 ray fun _ => r1))
        | .stop f at' fl => .next (settlePipes (abandonRay (keepPoison s0 fl) m r 2 (some (rayTrap r f at'))))

/-! ### Leats (R314–R316, R329) -/

/-- A ray ended from outside its pipe. -/
def endQueued (s : State) (status : Nat) (r : Ray) : State := match getCrew s r.crew with
  | some c => abandonRay s { req := r.id, crew := c, tid := r.tid } r status none
  | none => s

/-- Bytes of a message (R313). -/
def Ray.bytes (r : Ray) : Nat := if r.f64 then 96 else 64

/-- Leat SRAM in use on a stack. -/
def leatBytes (s : State) (stack : Nat) : Nat :=
  ((s.rays.filter fun r => r.place == .leat stack || r.place == .suspended stack).map (·.bytes)).foldl (· + ·) 0

/-- The leat of a ray: one per treelet of a context. -/
def leatOf (r : Ray) : Nat × Bool × Nat := (r.ctx, r.treelet == 0, if r.treelet = 0 then r.sceneVa.toNat else r.entry)

/-- Whether a ray waits on a stack. -/
def Ray.queuedAt (r : Ray) (stack : Nat) : Bool := r.place == .leat stack || r.place == .pond stack

/-- Whether rays of a leat stand in its stack's pond: they are its newest. -/
def spilled (s : State) (k : Nat) (leat : Nat × Bool × Nat) : Bool := s.rays.any fun q => q.place == .pond k && leatOf q == leat

/-- RAY_ARRIVAL (R314): the ray joins its treelet's leat as the newest, in the pond when leat SRAM is full or older rays of the leat stand there; at an expired hold it completes (R329). -/
def execRayArrival (ray : Nat) (s : State) : Out :=
  match getRay s ray with
  | none => .next s
  | some r => match r.place with
    | .sent k =>
      if r.treelet != 0 && (heldAt s r.ctx r.entry).any (·.expired) then .next (endQueued s 3 r)
      else
        let place : RayPlace := if 2 ^ 25 < leatBytes s k + r.bytes || spilled s k (leatOf r) then .pond k else .leat k
        let empty := !s.rays.any fun q => q.queuedAt k && leatOf q == leatOf r
        .next { s with
          rays := s.rays.filter (·.id != ray) ++ [{ r with place := place, since := s.cycle, aged := false }]
          drains := if empty && mget none s.drains k == some (leatOf r) then mput none s.drains k none else s.drains }
    | _ => .next s

/-- LEAT_RELOAD (R314): the oldest spilled rays, up to 4 KiB, come back when there is room. -/
def execLeatReload (stack : Nat) (s : State) : Out :=
  let chunk := (s.rays.filter fun r => r.place == .pond stack).foldl (fun (acc : List Nat × Nat) r =>
    if acc.2 + r.bytes ≤ 4096 then (acc.1 ++ [r.id], acc.2 + r.bytes) else acc) ([], 0)
  if chunk.1.isEmpty || 2 ^ 25 < leatBytes s stack + chunk.2 then .next s
  else .next { s with rays := s.rays.map fun r => if chunk.1.contains r.id then { r with place := .leat stack } else r }

/-- A ray that has waited LEAT_AGE cycles. -/
def leatDue (s : State) (r : Ray) : Bool := r.aged || s.bar.leatAge ≤ s.cycle - r.since

/-- The leat to drain (R315): the oldest that is due, else the one chosen before until it is empty, else the one with the most rays. (DESIGN CHOICE, log entry 112) -/
def chooseLeat (s : State) (stack : Nat) (rs : List Ray) : Option (Nat × Bool × Nat) :=
  let keys := (rs.map leatOf).eraseDups
  let due := (rs.filter (leatDue s)).foldl (fun (b : Option Ray) r => match b with
    | none => some r
    | some x => some (if r.since < x.since then r else x)) none
  match due with
  | some r => some (leatOf r)
  | none => match (mget none s.drains stack).filter keys.contains with
    | some k => some k
    | none =>
      let count := fun k => (rs.filter fun r => leatOf r == k).length
      keys.foldl (fun (b : Option (Nat × Bool × Nat)) k => match b with
        | none => some k
        | some x => some (if count x < count k then k else x)) none

/-- A ray taken into a pipe, inside its treelet from now on: it finishes on PAGE as it stands (R329). -/
def takeRay (s : State) (stack pipe : Nat) (r : Ray) : Ray :=
  let v := if r.treelet = 0 then 0 else entryRead s r.ctx r.entry
  { r with place := .inside stack, pipe := pipe, aged := false, page := if r.treelet = 0 then r.page else partOf v 0 8, version := partOf v 16 4 }

/-- The rays of the leats that the scheduler of a stack may choose: those with rays in leat SRAM, neither of a HELD treelet nor of a context that is switched out (R315). -/
def drainable (s : State) (stack : Nat) : List Ray :=
  let rs := s.rays.filter fun r => r.queuedAt stack && !(r.treelet != 0 && (heldAt s r.ctx r.entry).isSome) && !ctxOff s r.ctx
  rs.filter fun r => rs.any fun q => q.place == .leat stack && leatOf q == leatOf r

/-- TREELET_SCHEDULE (R315): rays of the chosen leat are taken into free pipes, in order. -/
def execTreeletSchedule (stack : Nat) (s : State) : Out :=
  let rs := drainable s stack
  match chooseLeat s stack rs with
  | none => .next s
  | some key =>
    let mine := rs.filter fun r => leatOf r == key
    let take := ((mine.takeWhile fun r => r.place == .leat stack).map (·.id)).zip (freePipes s stack)
    .next (settlePipes { s with
      rays := s.rays.map fun r => match take.find? (·.1 == r.id) with
        | some x => takeRay s stack x.2 r
        | none => r
      drains := mput none s.drains stack (if take.length < mine.length then some key else none) })

/-- LEAT_AGE_EXPIRY (R315). -/
def execLeatAgeExpiry (stack : Nat) (s : State) : Out :=
  .next { s with rays := s.rays.map fun r => if r.queuedAt stack && s.bar.leatAge ≤ s.cycle - r.since then { r with aged := true } else r }

/-- HOLD_LIMIT_EXPIRY (R329): STATE.EXPIRED is set and every held ray completes. -/
def execHoldLimitExpiry (hold : Nat) (s : State) : Out :=
  match s.held.find? fun h => h.id == hold && !h.expired with
  | none => .next s
  | some h =>
    let limit := ((getCtx s h.ctx).map (·.holdLimit)).getD 0x04000000
    if s.cycle - h.since < limit then .next s
    else
      let s1 := putEntry { s with held := s.held.map fun x => if x.id = hold then { x with expired := true } else x } h.ctx h.entry 20 1 3
      .next ((s1.rays.filter (waitsIn h.ctx h.entry)).foldl (fun s r => endQueued s 3 r) s1)

/-- RAY_MESSAGE_LOST (R327): a message between dies is dropped and counted, and the ray completes with LOST. (DEDUCED, log entry 116) -/
def execRayMessageLost (ray : Nat) (s : State) : Out :=
  match getRay s ray with
  | none => .next s
  | some r => match r.place with
    | .sent _ => .next (endQueued { s with hw := { s.hw with dropped := s.hw.dropped + 1 } } 1 r)
    | _ => .next s

/-! ### The tailrace (R325, R330) -/

/-- A thread held at `hitld` goes on. -/
def wakeHitld (s : State) (uid tid : Nat) : State := updT s uid tid fun t => { t with hold := match t.hold with
  | .hitld _ => .none
  | h => h }

/-- A record put among a thread's events. -/
def pushEvent (s : State) (x : RaySlot) (rec : RayRecord) : State :=
  let s1 := updSlot { s with nextId := s.nextId + 1 } x.id fun y => { y with events := y.events ++ [{ rec with ready := s.nextId }] }
  wakeHitld s1 x.crew x.tid

/-- TAILRACE_RECORD (R325): the oldest record on its way reaches the ray table; a candidate of a thread that has exited is defaulted (R342). -/
def execTailraceRecord (ray : Nat) (s : State) : Out :=
  match getRay s ray with
  | none => .next s
  | some r => match r.tail, getSlot s r.slot, getCrew s r.crew with
    | rec :: rest, some x, some c =>
      if logBlocked s c then .next s
      else
        let s0 := logReply s c 5 x.idx 0 [{ off := 0, len := 32, val := recordWord x.f64 x.ctrl x.logged rec }]
        let s1 := updSlot (updRay s0 ray fun q => { q with tail := rest }) x.id fun y => { y with received := (y.received + 1) % 256 }
        if !candidateEvent rec.event then .next (updSlot s1 x.id fun y => { y with best := rec.hit })
        else if (c.thread r.tid).any (·.live) then .next (pushEvent s1 x rec)
        else .next (updRay s1 ray fun q => { q with decision := q.cand.map fun h => { dec := 6, hit := h.1 } })
    | _, _, _ => .next s

/-- The final record of a ray. -/
def finalRecord (r : Ray) : RayRecord :=
  let ok := r.status = 0
  let ev := if !ok then evNone else match r.mode, r.best with
    | .occl, some _ => evOccluded
    | .occl, none => evClear
    | _, some _ => evClosest
    | _, none => evMiss
  { hit := if ok then r.best else none, event := ev, status := r.status, logOver := r.logOver, fault := r.fault
    row := if !ok then 0 else match r.best with
      | some h => h.row
      | none => rowVa r 0 }

/-- RAY_END (R325): once every record has arrived the slot makes the final event, the admission is released and the rays counter lowered. -/
def execRayEnd (ray : Nat) (s : State) : Out :=
  match getRay s ray with
  | none => .next s
  | some r => match getSlot s r.slot, getCrew s r.crew with
    | some x, some c =>
      if r.place != .ended || !r.tail.isEmpty || x.received != r.sent || logBlocked s c then .next s
      else
        let rec' := finalRecord r
        let s0 := logReply s c 5 x.idx 0 [{ off := 0, len := 32, val := recordWord x.f64 x.ctrl x.logged rec' }]
        let s1 := { s0 with
          rays := s0.rays.filter (·.id != ray), waiters := s0.waiters.filter (·.who != .engine ray)
          walks := s0.walks.map fun w => { w with engines := w.engines.filter (· != ray) }
          demandFaults := s0.demandFaults.filter (·.1 != ray) }
        let s2 := countUp s1 r.crew r.tid fun k => { k with rays := k.rays - 1 }
        if (c.thread r.tid).any (·.live) then .next (pushEvent (updSlot s2 x.id fun y => { y with final := true }) x rec')
        else .next (dropSlot s2 x.id)
    | _, _ => .next s

end Sys2Proof.Machine
end

