-- ==== Sys2Proof/Machine/Exit.lean ====
section
/-! DEFINITION. The end of threads and crews: `exit` (R123), what a thread lets go as it exits, and the retirement of a crew (R123, R186, R275, R358). -/

namespace Sys2Proof.Machine

/-- A candidate that no program will see is defaulted (R342). -/
def defaultOn (s : State) (x : RaySlot) : State := updRay s x.ray fun r => { r with decision := r.cand.map fun c => { dec := 6, hit := c.1 } }

/-- What a thread leaves at the ray table: its pending decision is defaulted, later events are discarded, and a slot whose ray has ended is free (R342). -/
def leaveRays (s : State) (uid tid : Nat) : State :=
  let s1 := defaultCand s uid tid
  (s1.slots.filter fun x => x.crew == uid && x.tid == tid).foldl (fun s x =>
    let s2 := if x.events.any fun r => candidateEvent r.event then defaultOn s x else s
    if x.final then dropSlot s2 x.id else updSlot s2 x.id fun y => { y with events := [] }) s1

/-- Tokens of home gangs none of whose threads is live pass on (R252). -/
def leaveTokens (c : Crew) : Crew :=
  let dead := fun g => !(c.threads.any fun t => t.live && c.hgang t.tid == g)
  let c1 := { c with tacqWait := c.tacqWait.filter fun w => !dead w.2 }
  (List.range 16).foldl (fun c z => match tokenOf c z with
    | .gang g | .seq g => if dead g then passToken c z else c
    | .nobody => c) c1

/-- Threads cease to be live: bindings end, crew-mode barriers, meets and `regang` waits that they held up are settled. -/
def endThreads (tids : List Nat) (c : Crew) : Crew :=
  let c1 := (endBindings c tids).mapT fun t => if tids.contains t.tid then
    { t with live := false, hold := .none, queue := none, deferred := [], wakeTrap := none, candidate := none, region := t.region + 1 } else t
  let c2 := (List.range 16).foldl (fun c b => completeBarrier b c) c1
  leaveTokens (releaseRegangs (releaseMeets [] c2))

/-- A generator crew whose last thread exits without `pfill` fails its block with cause 3 (R186). -/
def leaveFill (s : State) (uid : Nat) : State := match getCrew s uid with
  | none => s
  | some c => match c.kind with
    | .gen r b _ _ =>
      if stillFills s c && !c.threads.any (fun t => t.live || t.pfillAt.isSome) then failBlock s c.ctx r b 3 0 0 0 0 else s
    | _ => s

/-- Threads of a crew exit (R123); a ring operation that held one of them is withdrawn. -/
def exitThreads (s : State) (uid : Nat) (tids : List Nat) : State :=
  let s1 := tids.foldl (fun s i => leaveRays s uid i) s
  let s2 := updCrew s1 uid (endThreads tids)
  let held := s2.rings.filter fun r => r.crew == uid && tids.contains r.tid && r.op.holds
  let s3 := held.foldl endRing s2
  leaveFill s3 uid

/-- `exit` (R123): a release; the threads whose guards are false move on. -/
def execExit (a : Args) (s : State) : Out :=
  gangDo a.guard s fun e =>
    if e.act.isEmpty then .next (retire e.is e.s)
    else withRelease 3 e fun e =>
      let s1 := updCrew e.s e.is.crew fun c => inactiveMoveOn e (endBindings c e.is.tids)
      .next { exitThreads s1 e.is.crew (e.act.map (·.tid)) with issue := none }

/-! ### Retirement -/

def Counters.zero (n : Counters) : Bool := n == {}

/-- Whether a crew has nothing left to do: every thread has exited, every counter is zero, and no fault waits to be raised. -/
def mayRetire (c : Crew) : Bool :=
  c.threads.all (fun t => !t.live && t.cnt.zero) && c.halt.isNone && c.orphanFaults.isEmpty

/-- The record that is open at an index with this SEQ, as a number, with the run of its crew. -/
def openRecord (s : State) (ctx rec seq : Nat) : Option (Option Nat × Nat) :=
  s.crews.findSome? fun c => if c.ctx != ctx then none else c.halt.bind fun h => match h.phase with
    | .posted r _ => if r = rec ∧ h.seq = seq then some (c.run, recordNum c h h.seq) else none
    | _ => none

/-- The pool entry that a crew's end retires. -/
def retiring (c : Crew) : Option Nat := match c.kind with
  | .task i => if c.entryGone then none else some i
  | _ => none

/-- CREW_RETIRE (R123): a generator's fill is completed; a seed or a task lowers its run's counter; a handler that left its record open aborts the run (R358). -/
def execCrewRetire (crew : Nat) (s : State) : Out :=
  match getCrew s crew with
  | none => .next s
  | some c =>
    if !mayRetire c || (c.run.bind (getRun s)).any (retireHeld s · (retiring c)) then .next s
    else match c.kind with
      | .gen .. =>
        let s1 := if fillComplete s c then fillBlock s c else s
        .next (removeCrew s1 crew)
      | .seed =>
        let s1 := removeCrew s crew
        .next (match c.run with
          | some r => lowerCounter s1 r
          | none => s1)
      | .task i =>
        let s1 := removeCrew s crew
        .next (if c.entryGone then s1 else match c.run.bind (getRun s1) with
          | some r => retireEntry s1 r i
          | none => s1)
      | .handler rec seq => match openRecord s c.ctx rec seq with
        | some (some r, record) => .next (abortRun s r record)
        | _ => .next (removeCrew s crew)

end Sys2Proof.Machine
end

