-- ==== Sys2Proof/Machine/System.lean ====
section
/-! DEFINITION. The system instructions: `trap`, `sget`, `sset` and `cnt` (R348, R357, R359–R365, R379–R381), and the answers of the svc server. -/

namespace Sys2Proof.Machine

/-! ### `trap.trap` and `trap.brk` (R379) -/

/-- A trap raised by its own instruction, with the code in DETAIL; a gang with no active thread raises nothing. -/
def trapInstr (a : Args) (code : Nat) (s : State) : Out :=
  gangDo a.guard s fun e =>
    if e.act.isEmpty then .next (retire e.is e.s)
    else trapGang e (trapOf e.c code 0 (e.act.map (·.tid)) [{ off := 0, len := 2, val := bitsOf (Args.immN a) 15 0 }])

/-- `trap.trap` (R379). -/
def execTrapTrap (a : Args) (s : State) : Out := trapInstr a tcUSER s

/-- `trap.brk` (R379). -/
def execTrapBrk (a : Args) (s : State) : Out := trapInstr a tcBRK s

/-! ### `trap.svc` (R363–R365) -/

/-- An SVC trap. -/
def svcTrap (cause num : Nat) : TrapInfo :=
  { code := tcSVC, detail := [{ off := 0, len := 2, val := cause }, { off := 2, len := 2, val := num }] }

def svcVa (x : Context) (idx : Nat) : Nat := x.svcRing + 4096 * idx

/-- Whether the device's accesses to a context's svc ring wait (R167, R168). -/
def svcHeld (s : State) (x : Context) : Bool := devHeld s x.id x.svcRing (4096 * x.svcSlots)

/-- Whether the answer of a call cannot be taken yet: the reply log has no room for it (R370), or its entry cannot be read. -/
def svcBlocked (s : State) (k : SvcCall) : Bool := (getCrew s k.crew).any (logBlocked s) || (getCtx s k.ctx).any (svcHeld s)

/-- The next entry in ring order whose STATE is 0. -/
def freeSvc (s : State) (x : Context) : Option Nat :=
  ((List.range x.svcSlots).map fun k => (x.svcNext + k) % x.svcSlots).find? fun i => devNum s x.id (svcVa x i + 3) 1 == some 0

/-- The bytes of an entry but for its replies: the A quad and the %tid of each lane of the gang, active or not, zeros, and free words for the quad and %tid of a home lane that the gang lacks. (DESIGN CHOICE, log entry 156) -/
def svcFields (s : State) (x : Context) (c : Crew) (pc : Word64) (gang : List (Thread × Nat)) (act : List Nat) (num : Nat) : List PutField :=
  let free := fun i : Nat => Config.freeWord (s.freeIdx + i) % 2 ^ 64
  let lane := fun h : Nat => match gang.find? fun t => c.lane t.1.tid == h with
    | some (t, q) => { off := 128 + 32 * h, len := 32, val := q + 2 ^ 128 * t.tid }
    | none => { off := 128 + 32 * h, len := 32,
                val := if c.gw ≤ h then 0 else free (4 * h) + 2 ^ 64 * free (4 * h + 1) + 2 ^ 128 * (free (4 * h + 2) % 2 ^ 32) }
  [{ off := 0, len := 2, val := num }, { off := 2, len := 1, val := c.gw }, { off := 4, len := 4, val := c.num.toNat },
   { off := 8, len := 8, val := pc.toNat }, { off := 16, len := 8, val := laneMask c act },
   { off := 24, len := 8, val := (x.svcSeq + 1).toNat }, { off := 32, len := 2, val := x.id }, { off := 34, len := 94, val := 0 }]
  ++ (List.range 64).map lane ++ [{ off := 2176, len := 384, val := 0 }, { off := 3072, len := 1024, val := 0 }]

/-- Fields of a record written by the device for itself. -/
def devFields (s : State) (ctx va : Nat) (fs : List PutField) : State := fs.foldl (fun s f => devPut s ctx (va + f.off) f.len f.val) s

/-- An entry posted to the server. -/
def postSvc (a : Args) (e : Env) (x : Context) (idx num : Nat) : State :=
  let act := e.act.map (·.tid)
  let s1 := devFields e.s x.id (svcVa x idx) (svcFields e.s x e.c e.is.pc ((gangThreads e.c e.is).map fun t => (t, rd e.c t a.a 4)) act num)
  let s2 := devPut s1 x.id (svcVa x idx + 3) 1 1
  let call : SvcCall := { id := s2.nextId, ctx := x.id, idx := idx, crew := e.is.crew, tids := act, dst := dstPlace a.d }
  let s3 := updCtx { s2 with
    svc := s2.svc ++ [call], nextId := s2.nextId + 1, freeIdx := s2.freeIdx + 256
    outbox := s2.outbox ++ [(4, [x.id, idx, x.svcToHost.toNat])] } x.id
    fun y => { y with svcNext := (idx + 1) % y.svcSlots, svcSeq := y.svcSeq + 1 }
  { holdT s3 e.is.crew e.is.tids (.svc (some call.id)) with issue := none }

/-- `trap.svc` (R364, R379): a release, then the entry is posted, or the gang waits for a free one. (DEDUCED, log entry 38) -/
def execTrapSvc (a : Args) (s : State) : Out :=
  gangDo a.guard s fun e =>
    let num := bitsOf (Args.immN a) 15 0
    if e.act.isEmpty then .next (retire e.is e.s)
    else match getCtx e.s e.c.ctx with
      | none => .next (retire e.is e.s)
      | some x =>
        if x.svcRing = 0 then
          let f := svcTrap 1 num
          let ids := e.act.map (·.tid)
          trapGang e { f with tids := ids, lanes := laneMask e.c ids }
        else withRelease 3 e fun e => unlessHeld e (svcHeld e.s x) <|
          match freeSvc e.s x with
          | none => .next { holdGang e.s e.is.crew e.is.tids e.is.tids (.svc none) with issue := none }
          | some idx => .next (postSvc a { e with s := syncActive e.s e.is.crew (e.act.map (·.tid)) } x idx num)

/-- Threads of a context that wait for a free entry look again. -/
def wakeSvc (s : State) (ctx : Nat) : State :=
  { s with crews := s.crews.map fun c => if c.ctx = ctx then c.mapT fun t => if t.hold = .svc none then { t with hold := .none } else t else c }

/-- An entry returned to STATE 0. -/
def freeEntry (s : State) (x : Context) (k : SvcCall) : State :=
  wakeSvc { devPut s x.id (svcVa x k.idx + 3) 1 0 with svc := s.svc.filter (·.id != k.id) } x.id

/-- The answer of an entry taken (R364, R365): STATE 2 writes D of each active lane; STATE 3 is SVC at the word. -/
def takeSvc (s : State) (k : SvcCall) : State :=
  match getCtx s k.ctx, getCrew s k.crew with
  | some x, some c =>
    let st := (devNum s x.id (svcVa x k.idx + 3) 1).getD 0
    let held := (c.threads.filter fun t => t.live && t.hold == .svc (some k.id)).map (·.tid)
    let log := fun s : State => logReply s c 7 (leastOr 0 k.tids) (svcVa x k.idx) []
    if st = 2 then
      let vals := k.tids.map fun i => (i, (devNum s x.id (svcVa x k.idx + 2560 + 8 * c.lane i) 8).getD 0)
      let put := fun (c : Crew) (v : Nat × Nat) =>
        if (c.thread v.1).any (·.live) then
          (match k.dst with
            | some (r, true) => { c with s := groupPut c.s r v.2 2 }
            | some (r, false) => c.upd v.1 fun t => { t with v := groupPut t.v r v.2 2 }
            | none => c)
        else c
      let s1 := updCrew (freeEntry (log s) x k) c.uid fun c =>
        let c1 := vals.foldl put c
        let pc := ((held.head?.bind c1.thread).map (·.pc)).getD 0
        moveTo held (fun _ => pc + 8) c1
      acquire (syncActive s1 c.uid k.tids) c.uid 3
    else if st = 3 then
      let num := (devNum s x.id (svcVa x k.idx) 2).getD 0
      updCrew (freeEntry (log s) x k) c.uid (·.mapT fun t => if held.contains t.tid then
        { t with hold := .none, wakeTrap := if k.tids.contains t.tid then some (svcTrap 2 num) else none } else t)
    else s
  | some x, none => { devPut s x.id (svcVa x k.idx + 3) 1 0 with svc := s.svc.filter (·.id != k.id) }
  | _, _ => s

/-- An answered call is taken once its crew can take the answer, or the reply log has room for it (R364, R370). -/
def takeAnswered (call : Nat) (s : State) : Out := match s.svc.find? fun k => k.id == call && k.answered with
  | none => .next s
  | some k => .next (if svcBlocked s k then s else takeSvc s k)

/-- The server's answer to a call: REPLY of each lane and STATE, and the index in SVC_DONE. -/
def answerSvc (s : State) (call st : Nat) (replies : List Word64) : State :=
  match s.svc.find? (·.id == call) with
  | none => s
  | some k => match getCtx s k.ctx with
    | none => s
    | some x =>
      if k.answered then s
      else
        let s1 := ((List.range replies.length).zip replies).foldl (fun s (h, v) =>
          if h < 64 then devPut s x.id (svcVa x k.idx + 2560 + 8 * h) 8 v.toNat else s) s
        let s2 := devPut s1 x.id (svcVa x k.idx + 3) 1 st
        let s3 := { s2 with
          bar := { s2.bar with svcDone := mput 0 s2.bar.svcDone k.ctx (BitVec.ofNat 32 k.idx) }
          svc := s2.svc.map fun q => if q.id = k.id then { q with answered := true } else q }
        if svcBlocked s3 k then s3 else takeSvc s3 k

/-- SVC_REPLY (R364): the server has replied. (DEDUCED, log entry 39) -/
def execSvcReply (call : Nat) (replies : List Word64) (s : State) : Out := .next (answerSvc s call 2 replies)

/-- SVC_REFUSED (R365): the server has refused; the threads meet SVC at the word. -/
def execSvcRefused (call : Nat) (s : State) : Out := .next (answerSvc s call 3 [])

/-! ### Special registers (R359, R380) -/

def b2n (b : Bool) : Nat := b.toNat

/-- The value that `sget` reads. (DEDUCED, log entry 138) -/
def sprRead (s : State) (c : Crew) (x : Context) (n : Nat) : Nat := match n with
  | 0x000 => x.id
  | 0x001 => b2n c.priv
  | 0x002 => s.hw.node.toNat
  | 0x003 => 0x00010000
  | 0x004 => x.desc
  | 0x010 => x.ageLimit
  | 0x011 => x.meetLimit
  | 0x012 => x.stallLimit
  | 0x013 => x.genDepth
  | 0x014 => x.raceWait
  | 0x015 => x.holdLimit
  | 0x016 => b2n x.poisonEn
  | 0x020 => x.aperScr.toNat
  | 0x021 => x.aperSpan.toNat
  | 0x022 => x.aperStk.toNat
  | 0x023 => x.xltRoot.toNat
  | 0x024 => b2n (!x.xltInv.isEmpty)
  | 0x030 => b2n c.poisonFlag
  | 0x031 => x.trapCnt.toNat
  | _ => 0

/-- `sget` (R380): every active thread receives the value. -/
def execSget (a : Args) (s : State) : Out :=
  gangDo a.guard s fun e =>
    let n := bitsOf (Args.immN a) 11 0
    let v := match getCtx e.s e.c.ctx with
      | some x => sprRead e.s e.c x n
      | none => 0
    let ws := e.act.map fun t => (t.tid, Wr.reg a.d (sprRegs n) v)
    .next (retire e.is (updCrew e.s e.is.crew fun c => applyWrs c ws))

/-- The crew of a run that a CREW_CTL value names: halted, with an open record. (DEDUCED, log entry 33) -/
def ctlTarget (s : State) (run : Option Nat) (num : Nat) : Option (Crew × Nat) :=
  s.crews.findSome? fun c =>
    if run.isNone || c.run != run || c.num.toNat % 2 ^ 16 != num then none
    else c.halt.bind fun h => match h.phase with
      | .posted rec _ => some (c, rec)
      | _ => none

/-- A write of CREW_CTL (R357): the record is closed and the action stands; one that names no such crew changes nothing, and one that sets a reserved bit is ignored as a whole. (DESIGN CHOICE, log entry 146) -/
def crewCtl (s : State) (w : Crew) (v : Nat) : State :=
  if v / 2 ^ 18 != 0 then s
  else match ctlTarget s w.run (v % 2 ^ 16), getCtx s w.ctx with
    | some (c, rec), some x =>
      updCrew (closeRecord s x rec) c.uid fun c => { c with halt := c.halt.map fun h => { h with phase := .disposed rec (bitsOf v 17 16) } }
    | _, _ => s

/-- A value within a range set, or the write ignored (R8). -/
def ranged (s : State) (ctx v lo hi : Nat) (f : Context → Context) : State := if lo ≤ v ∧ v ≤ hi then updCtx s ctx f else s

/-- An aperture value set if it is legal and no two enabled windows then overlap (R155). -/
def setAper (s : State) (x : Context) (v : Nat) (f : Context → Context) : State :=
  let y := f x
  if aperShape (BitVec.ofNat 64 v) && apersApart y.aperScr y.aperSpan y.aperStk then updCtx s x.id f else s

/-- The effect of a write (R109, R155, R159, R163, R184, R209, R316, R359). -/
def sprWrite (s : State) (c : Crew) (x : Context) (n v : Nat) : State := match n with
  | 0x010 => ranged s x.id v 1 0xFFFF fun y => { y with ageLimit := v }
  | 0x011 => ranged s x.id v 256 0xFFFFFFFF fun y => { y with meetLimit := v }
  | 0x012 => ranged s x.id v 0x00010000 0xFFFFFFFF fun y => { y with stallLimit := v }
  | 0x013 => ranged s x.id v 1 7 fun y => { y with genDepth := v }
  | 0x014 => ranged s x.id v 1024 0xFFFFFFFF fun y => { y with raceWait := v }
  | 0x015 => ranged s x.id v 0x00010000 0xFFFFFFFF fun y => { y with holdLimit := v }
  | 0x016 => ranged s x.id v 0 1 fun y => { y with poisonEn := v == 1 }
  | 0x020 => setAper s x v fun y => { y with aperScr := BitVec.ofNat 64 v }
  | 0x021 => setAper s x v fun y => { y with aperSpan := BitVec.ofNat 64 v }
  | 0x022 => setAper s x v fun y => { y with aperStk := BitVec.ofNat 64 v }
  | 0x023 => if v % 4096 = 0 ∧ v < 2 ^ 52 then updCtx s x.id fun y => { y with xltRoot := BitVec.ofNat 64 v } else s
  | 0x024 => startInv s x.id (BitVec.ofNat 64 v)
  | 0x030 => if v = 0 then updCrew s c.uid fun c => { c with poisonFlag := false } else s
  | 0x040 => crewCtl s c v
  | _ => s

/-- `sset` (R348, R380): PRIV for an unprivileged crew unless it writes POISONFLAG; it acts once, with the lowest active lane's value. -/
def execSset (a : Args) (s : State) : Out :=
  gangDo a.guard s fun e =>
    let n := bitsOf (Args.immN a) 11 0
    match e.act with
    | [] => .next (retire e.is e.s)
    | t :: _ =>
      if !e.c.priv && n != 0x030 then trapGang e (trapOf e.c tcPRIV 0 (e.act.map (·.tid)) [{ off := 0, len := 2, val := 0x0E }])
      else match getCtx e.s e.c.ctx with
        | none => .next (retire e.is e.s)
        | some x => .next (retire e.is (sprWrite e.s e.c x n (rd e.c t a.a (sprRegs n))))

/-! ### Counters and the timer (R360–R362, R381) -/

/-- The counter of a mode. -/
def counterOf (s : State) (c : Crew) (wall : Bool) : Word64 := if wall then mget 0 s.cclk c.die else c.vclk

/-- A 64-bit value written to D of every active thread. -/
def putPair (a : Args) (f : State → Crew → Nat) (s : State) : Out :=
  gangDo a.guard s fun e =>
    let v := f e.s e.c
    .next (retire e.is (updCrew e.s e.is.crew fun c => applyWrs c (e.act.map fun t => (t.tid, Wr.reg a.d 2 v))))

/-- `cnt.cclk` (R381). -/
def execCntCclk (a : Args) (s : State) : Out := putPair a (fun s c => (counterOf s c true).toNat) s

/-- `cnt.vclk` (R381). -/
def execCntVclk (a : Args) (s : State) : Out := putPair a (fun s c => (counterOf s c false).toNat) s

/-- `cnt.left` (R381): what is left until the deadline, 0 when due, all ones when disarmed. -/
def execCntLeft (a : Args) (s : State) : Out :=
  putPair a (fun s c => match c.timer with
    | none => 2 ^ 64 - 1
    | some t => t.deadline.toNat - (counterOf s c t.wall).toNat) s

/-- `cnt.arm` (R381): a new deadline, from the lowest active lane's interval. -/
def execCntArm (a : Args) (s : State) : Out :=
  gangDo a.guard s fun e =>
    let wall := bitAt a.m.toNat 4
    match e.act with
    | [] => .next (retire e.is e.s)
    | t :: _ =>
      let n := match a.imm with
        | some v => v.toNat
        | none => rd e.c t a.a 2
      .next (retire e.is (updCrew e.s e.is.crew fun c => { c with
        timer := some { wall := wall, deadline := counterOf e.s e.c wall + BitVec.ofNat 64 n }, timerDue := none }))

/-- `cnt.disarm` (R381). -/
def execCntDisarm (a : Args) (s : State) : Out :=
  gangDo a.guard s fun e =>
    .next (retire e.is (if e.act.isEmpty then e.s else updCrew e.s e.is.crew fun c => { c with timer := none, timerDue := none }))

end Sys2Proof.Machine
end

