-- ==== Sys2Proof/Machine/Halt.lean ====
section
/-! DEFINITION. What follows a trap: the end of the skid, the save, the record, the handler and its dispositions (R190, R352–R358, R368); the crew timer as an event (R362); and the context switch with its collectors (R366–R370). -/

namespace Sys2Proof.Machine

/-! ### From the trap to the handler (R190, R352, R356, R358) -/

/-- The halt of a crew in a phase. -/
def haltOf (c : Crew) (p : HaltPhase → Bool) : Option Halt := c.halt.filter fun h => p h.phase

def setPhase (s : State) (uid : Nat) (p : HaltPhase) : State := updCrew s uid fun c => { c with halt := c.halt.map fun h => { h with phase := p } }

/-- A generator crew stopped by a trap: its block, if it still fills it, fails with the trap as the cause, and the crew is gone (R190). -/
def endGenerator (s : State) (c : Crew) (f : TrapInfo) (pc : Word64) : State := match c.kind with
  | .gen r b _ _ => removeCrew (if stillFills s c then failBlock s c.ctx r b 1 0 f.code f.sub pc.toNat else s) c.uid
  | _ => s

/-- SKID_END (R352, R366): twelve cycles after the trap, or after its pre-emption began, every home gang of a crew has stopped. A generator that trapped fails its block and is gone (R190); any other crew is saved. (DEDUCED, log entry 34) -/
def execSkidEnd (crew : Nat) (s : State) : Out :=
  match getCrew s crew with
  | none => .next s
  | some c => match haltOf c (· == .skid), c.taking with
    | some h, _ =>
      if s.cycle < h.since + 12 then .next s
      else match c.kind with
        | .gen .. => .next (endGenerator s c h.trap h.pc)
        | _ => .next (setPhase (updCrew s crew (atItsStop h.skid)) crew .saving)
    | none, some k =>
      if s.cycle < k.since + 12 || c.where_ != .resident || c.halt.isSome then .next s
      else .next (updCrew s crew fun c => { c with taking := some { k with saving := true } })
    | none, none => .next s

/-- A crew that pre-emption has taken off its core: it goes to the core it is to go to, or, if that has no room any more, back or to another; one whose core is to be replaced waits for the spare, and a generator for its own wait's end (R191, R294, R373). -/
def afterTaking (s : State) (c : Crew) (k : Taking) : State :=
  match k.dest with
  | none => updCrew s c.uid fun c => { c with taking := none }
  | some core =>
    if core = c.coreId then s
    else match if coreTakes s c core && !imageHeld s c then some core else restoreCore s c with
      | some core => bringBack s c.uid core
      | none => s

/-- CREW_SAVE_COMPLETE (R352, R366, R368): the image of a crew that is still is written and its slot is free. -/
def execCrewSaveComplete (crew : Nat) (s : State) : Out :=
  match getCrew s crew with
  | none => .next s
  | some c => match haltOf c (· == .saving), c.taking.filter fun k => k.saving && c.halt.isNone with
    | some _, _ => .next (if crewStill s c then setPhase (leaveCore (saveImage s c) crew) crew .toPost else s)
    | none, some k =>
      if c.where_ == .away then .next (if ctxOff s c.ctx then s else afterTaking s c k)
      else if !crewStill s c then .next s
      else
        let s1 := leaveCore (saveImage s c) crew
        .next (match getCrew s1 crew with
          | some c1 => afterTaking s1 c1 k
          | none => s1)
    | none, none => .next s

/-- Aborts the run of a crew; the host gets the record of the trap that ends it. -/
def abortOf (s : State) (c : Crew) (h : Halt) : State := match c.run with
  | some r => abortRun s r (recordNum c h h.seq)
  | none => s

/-- Whether the writes that end a crew's run wait (R167, R168). -/
def abortHeld (s : State) (c : Crew) : Bool := (c.run.bind (getRun s)).any fun r => retireHeld s r none

/-- TRAP_RECORD_POST (R356): the record goes to the next entry of TRAPRING once that entry is closed; its write is a release at device scope, which the crew's unacknowledged stores hold up. In a context without a handler, or for a trap of a handler, the run is aborted, whether or not the entry is closed; so it is when the record cannot be written (R358). (DEDUCED, log entry 31) -/
def execTrapRecordPost (crew : Nat) (s : State) : Out :=
  match getCrew s crew with
  | none => .next s
  | some c => match haltOf c (· == .toPost), getCtx s c.ctx with
    | some h, some x =>
      let seq := (x.trapCnt + 1).toNat
      let rec' := x.trapNext % max 1 x.trapSlots
      if ctxOff s c.ctx || s.stores.any (fun p => p.crew == crew && p.holds s 2) || devHeld s x.id (recordVa x rec') 512 || abortHeld s c then .next s
      else
        let s0 := passStores s 2 crew (c.threads.map (·.tid))
        match devNum s0 x.id (recordVa x rec' + 6) 1, x.trapPc = 0 || c.isHandler with
        | none, _ => .next (abortOf s0 c { h with seq := seq })
        | some 1, true => .next (abortOf s0 c { h with seq := seq })
        | some 1, false => .next s
        | some _, ends => match devWrite s0 x.id (recordVa x rec') (fieldBytes 512 (trapRecord c h seq)) with
          | none => .next (abortOf s0 c { h with seq := seq })
          | some s1 =>
            let s2 := updCtx s1 x.id fun y => { y with trapCnt := y.trapCnt + 1, trapNext := (rec' + 1) % max 1 y.trapSlots }
            if ends then .next (abortOf (closeRecord s2 x rec') c { h with seq := seq })
            else .next (updCrew s2 crew fun c => { c with halt := c.halt.map fun h => { h with phase := .posted rec' true, seq := seq } })
    | _, _ => .next s

/-- The shape of a handler (R356). (DEDUCED, log entry 32) -/
def handlerShape : CrewShape := { threads := 32, gw := 32, regs := 64, regsCopy := 64, regsEpi := 64, scratch := 4096 }

/-- The core of a handler: the trapped crew's, else the lowest-numbered of the die with room. (DEDUCED, log entry 29) -/
def handlerCore (s : State) (c : Crew) : Option Nat :=
  if coreHasRoom s c.coreId handlerShape then some c.coreId else (placeCore s c.die handlerShape).map (256 * c.die + ·)

/-- The slot of a handler: the one that the trapped crew freed, where it is idle. -/
def handlerSlot (s : State) (c : Crew) (core : Nat) : Nat :=
  let taken := s.crews.any fun q => q.where_ == .resident && q.coreId == core && q.slot == c.slot
  if core = c.coreId && c.slot < 30 && !taken then c.slot else (ordinarySlot s core).getD 0

/-- HANDLER_START (R356): a handler crew starts when some core of the die has room; its start is an acquire. -/
def execHandlerStart (crew : Nat) (s : State) : Out :=
  match getCrew s crew with
  | none => .next s
  | some c => match c.halt, getCtx s c.ctx with
    | some h, some x => match h.phase with
      | .posted rec true =>
        if ctxOff s c.ctx then .next s
        else match handlerCore s c with
          | none => .next s
          | some core =>
            let s1 := setPhase s crew (.posted rec false)
            let s2 := startCrew s1 (.handler rec h.seq) c.ctx c.run c.span 0xFFFFFFFE#32 0 core (handlerSlot s c core) handlerShape true c.strict x.trapPc
              (uniformRegs [(0, recordVa x rec)] [(2, rec), (3, c.num.toNat)])
            .next (acquireOn s2 core 2)
      | _ => .next s
    | _, _ => .next s

/-! ### Dispositions (R357) -/

/-- The halt of a crew that has been disposed of with an action. (DEDUCED, log entry 26) -/
def disposed (c : Crew) (act : Nat) : Option Halt := haltOf c fun p => match p with
  | .disposed _ a => a == act
  | _ => false

/-- A crew restored on a core of its die once there is room, its halt ended. -/
def resumeWith (crew act : Nat) (f : Halt → Crew → Crew) (s : State) : Out :=
  match getCrew s crew with
  | none => .next s
  | some c => match disposed c act, restoreCore s c with
    | some h, some core =>
      if ctxOff s c.ctx then .next s else .next (updCrew (bringBack s crew core) crew fun c => f h { c with halt := none })
    | _, _ => .next s

/-- CREW_CTL_RESUME (R357): every thread goes on from its saved PC; a deferred fault of a live thread is met again. -/
def execCrewCtlResume (crew : Nat) (s : State) : Out :=
  resumeWith crew 0 (fun h c => if h.trap.deferred && !h.trap.exited then
    c.mapT fun t => if h.trap.tids.contains t.tid then { t with deferred := h.trap :: t.deferred } else t else c) s

/-- The trapping threads past their words (R357, R408): waits are not completed, and a binding that would part ends. -/
def pastTrap (h : Halt) (c : Crew) : Crew :=
  if h.trap.exited then c
  else
    let ids := h.trap.tids
    let c1 := if h.trap.gang.any (fun i => !ids.contains i) then endBindings c h.trap.gang else c
    let at' := fun i => ((c.thread i).map (·.pc)).getD 0
    let c2 := moveTo ids (fun i => at' i + 8) c1
    { c2 with tacqWait := c2.tacqWait.filter fun w => c2.threads.any fun t => (match t.hold with
        | .tacq z g _ => z == w.1 && g == w.2
        | _ => false) }

/-- CREW_CTL_RESUME_PAST (R357). -/
def execCrewCtlResumePast (crew : Nat) (s : State) : Out := resumeWith crew 1 pastTrap s

/-- CREW_CTL_KILL (R357): every live thread exits, and the crew retires normally. (DEDUCED, log entry 27; DEDUCED, log entry 28) -/
def execCrewCtlKill (crew : Nat) (s : State) : Out :=
  match getCrew s crew with
  | none => .next s
  | some c => match disposed c 2 with
    | none => .next s
    | some _ =>
      let ids := (c.threads.filter (·.live)).map (·.tid)
      .next (exitThreads (updCrew s crew fun c => { c with halt := none, timer := none, timerDue := none }) crew ids)

/-- CREW_CTL_ABORT (R357, R358). -/
def execCrewCtlAbort (crew : Nat) (s : State) : Out :=
  match getCrew s crew with
  | none => .next s
  | some c => match disposed c 3 with
    | none => .next s
    | some h => if abortHeld s c then .next s else .next (abortOf s c h)

/-- TIMER_DUE (R362): the first gang of the crew to reach an issue takes TIMER in place of its word. -/
def execTimerDue (crew : Nat) (s : State) : Out :=
  match getCrew s crew with
  | none => .next s
  | some c =>
    if c.where_ != .resident || (timerOf s c).isNone then .next s
    else match (coreGroups s c.coreId).find? fun g => g.crew == crew with
      | none => .next s
      | some g =>
        let is : Issue := { crew := crew, pc := g.pc, tids := gangOf g }
        match preTrap s c is with
        | some (f, clear) => .next (takePre s c is f clear)
        | none => .next s

/-! ### The context switch (R366–R368) -/

/-- Room that a switch needs in the save area. -/
def switchNeed (s : State) (ctx : Nat) : Nat :=
  ((s.crews.filter fun c => c.ctx == ctx && c.where_ == .resident).map (imageSize s)).foldl (· + ·) 0
    + (s.cores.map fun k => k.2.mb * 2 ^ 20).foldl (· + ·) 0

/-- A crew as the halt of a switch finds it: one that pre-emption has taken off its core already stands among those that the restore places (R366, R367). -/
def switchMark (c : Crew) : Crew :=
  { c with switchSkid := [], switchStopped := [], nested := [], taking := none, switched := c.switched || (c.taking.isSome && c.where_ == .away) }

/-- CONTEXT_SWITCH_REQUEST (R367): the halt is broadcast on every die; a second request is merged, and a save area that is too small is reported. -/
def execContextSwitchRequest (ctx : Nat) (s : State) : Out :=
  match getCtx s ctx with
  | none => .next s
  | some x =>
    if ctxOff s ctx then .next s
    else if x.saveSize < switchNeed s ctx then .next { s with outbox := s.outbox ++ [(5, [ctx])] }
    else .next { s with
      collectors := s.collectors ++ (List.range 4).map fun d => { ctx := ctx, die := d, phase := .halting, since := s.cycle }
      crews := s.crews.map fun c => if c.ctx = ctx then switchMark c else c }

def updCollector (s : State) (ctx die : Nat) (f : Collector → Collector) : State :=
  { s with collectors := s.collectors.map fun k => if k.ctx = ctx ∧ k.die = die then f k else k }

/-- The collector of a context on a die, in a phase. -/
def collectorIn (s : State) (ctx die : Nat) (p : CollectorPhase) : Option Collector :=
  s.collectors.find? fun k => k.ctx == ctx && k.die == die && k.phase == p

/-- COLLECTOR_SKID_DONE (R367): HALTING to DRAINING, with the cores' bit. -/
def execCollectorSkidDone (ctx die : Nat) (s : State) : Out :=
  match collectorIn s ctx die .halting with
  | none => .next s
  | some k =>
    let skidding := s.crews.any fun c => c.ctx == ctx && c.die == die && (haltOf c (· == .skid)).isSome
    if s.cycle < k.since + 12 || skidding then .next s
    else .next (updCollector s ctx die fun k => { k with phase := .draining, bits := [0] })

/-- Crews of a context on a die. -/
def onDie (s : State) (ctx die uid : Nat) : Bool := (getCrew s uid).any fun c => c.ctx == ctx && c.die == die

/-- Whether an engine is at its stop point for every request of a context (R366): its work moves in the units of that rule, so only a tile request between interruption points, a ray inside its treelet and a filter request in service are not; one that waits at a list is. (DEDUCED, log entry 30) -/
def atStop (s : State) (ctx die engine : Nat) : Bool := match engine with
  | 1 => s.tileReqs.all fun r => !(onDie s ctx die r.crew) || r.phase != .running || r.atPoint
  | 3 => s.rays.all fun r => !(onDie s ctx die r.crew) || engineHeld s r.id || (match r.place with
    | .inside _ => false
    | _ => true)
  | 4 => s.filters.all fun r => !(onDie s ctx die r.crew) || engineHeld s r.id
  | _ => true

/-- ENGINE_STOP_POINT (R366, R367): the engine's bit; with all seven the collector is SAVING. -/
def execEngineStopPoint (ctx die engine : Nat) (s : State) : Out :=
  match collectorIn s ctx die .draining with
  | none => .next s
  | some k =>
    if engine = 0 || 6 < engine || k.bits.contains engine || !atStop s ctx die engine then .next s
    else .next (updCollector s ctx die fun k =>
      let bits := k.bits ++ [engine]
      { k with bits := bits, phase := if bits.length = 7 then .saving else .draining })

/-- Cores of a die with bin scratch. -/
def binCoresOf (s : State) (die : Nat) : List Nat := (s.cores.filter fun k => k.1 / 256 == die && k.2.mb != 0).map (·.1)

/-- The crews of a context that stand on a die. -/
def switchCrews (s : State) (ctx die : Nat) : List Crew := s.crews.filter fun c => c.ctx == ctx && c.die == die && c.where_ == .resident

/-- Crew images and bin scratch written (R367). -/
def saveDie (s : State) (ctx die : Nat) : State := (binCoresOf s die).foldl (fun s k => saveBin s ctx k) ((switchCrews s ctx die).foldl saveImage s)

/-- Crews of a context on a die taken off their cores. -/
def takeOff (s : State) (ctx die : Nat) : State :=
  (switchCrews s ctx die).foldl (fun s c =>
    if (haltOf c (· == .saving)).isSome then setPhase (leaveCore s c.uid) c.uid .toPost
    else leaveCore (updCrew s c.uid fun c => { atItsStop c.switchSkid c with switched := true }) c.uid) s

/-- SAVE_DONE (R367): the images of the die's crews, which are all still, are written and slots are freed; with every die's collector DONE the context is out. -/
def execSaveDone (ctx die : Nat) (s : State) : Out :=
  match collectorIn s ctx die .saving with
  | none => .next s
  | some _ =>
    let s2 := updCollector (takeOff (saveDie s ctx die) ctx die) ctx die fun k => { k with phase := .done }
    if !(switchCrews s ctx die).all (crewStill s) then .next s
    else if (s2.collectors.filter (·.ctx == ctx)).all (·.phase == .done) then
      .next (updCtx { s2 with collectors := s2.collectors.filter (·.ctx != ctx) } ctx fun x => { x with out := true })
    else .next s2

/-- The descriptor read again on a restore: XLT_ROOT and the apertures keep their values (R349). -/
def rereadDescriptor (s : State) (ctx : Nat) : State := match getCtx s ctx with
  | none => s
  | some x => updCtx (readDescriptor s ctx) ctx fun y => { y with xltRoot := x.xltRoot, aperScr := x.aperScr, aperSpan := x.aperSpan, aperStk := x.aperStk }

/-- A trap met during the switch is delivered now (R353); a generator's fails its block (R190). -/
def deliverNested (s : State) (c : Crew) : State := match c.nested with
  | (f, pc, clk) :: _ => if c.isGen then endGenerator s c f pc else updCrew s c.uid fun c => { c with
      nested := [], switched := false, halt := some { phase := .toPost, trap := f, pc := pc, since := s.cycle, vclk := clk, skid := c.switchSkid } }
  | [] => s

/-- Crews placed in order; none if one finds no room. -/
def placeAll (s : State) : List Crew → Option State
  | [] => some s
  | c :: cs => (restoreCore s c).bind fun core => placeAll (updCrew (bringBack s c.uid core) c.uid fun c => { c with switched := false }) cs

/-- The queues of a context whose descriptor is found malformed stop (R350). -/
def stopQueues (s : State) (ctx : Nat) : State := (s.queues.filter fun x => x.ctx == ctx && x.state != 0 && !qError s x).foldl (fun s x => setQError s x 20) s

/-- CONTEXT_RESTORE (R367): images and bin scratch are read back, logged results stand applied, and every crew is placed before any issues. -/
def execContextRestore (ctx : Nat) (s : State) : Out :=
  match getCtx s ctx with
  | none => .next s
  | some x =>
    if !x.out || devHeld s ctx x.desc 256 || (imageRuns s x).any (fun r => devHeld s ctx r.1 r.2) then .next s
    else
      let s1 := rereadDescriptor s ctx
      if (getCtx s1 ctx).any (·.malformed) then .next (stopQueues s1 ctx)
      else
        let s2 := x.bins.foldl (fun s b => binBack s ctx b) s1
        let mine := s2.crews.filter fun c => c.ctx == ctx && c.switched
        let s3 := (mine.filter fun c => !c.nested.isEmpty).foldl deliverNested s2
        let rest := mine.filter (·.nested.isEmpty)
        match placeAll s3 (rest.filter sameCoreOnly ++ rest.filter fun c => !sameCoreOnly c) with
        | none => .next s
        | some s4 => .next (updCtx s4 ctx fun x => { x with out := false, bins := [] })

end Sys2Proof.Machine
end

