-- ==== Sys2Proof/Machine/Boot.lean ====
section
/-! DEFINITION. Bring-up and the host's side: power, the boot stages, the stage-0 mailbox, attestation and links (R14, R35, R38, R42, R375–R378), and the registers and windows of BAR0 and BAR2 (R8, R39–R41, R316, R364, R376). -/

namespace Sys2Proof.Machine

/-! ### Power and stages (R378) -/

/-- Memory that is not this device's own: host and CXL memory, and the peers'. -/
def offDevice (k : Nat) : Bool := 1 ≤ keySpace k && keySpace k < 8194

/-- The machine at stage 0: everything at its reset value but for the fuses with what they record, memory outside the device, what has been sent out, and the schedule. (DEDUCED, log entry 122) -/
def powerUp (s : State) (powered : Bool) : State :=
  { State.reset with
    mem := s.mem.filter fun c => offDevice c.1
    hw := {
      powered := powered, flash := s.hw.flash, keyHash := s.hw.keyHash, rollback := s.hw.rollback, fuses := s.hw.fuses, laneSpares := s.hw.laneSpares
      retiredStacks := s.hw.retiredStacks
      channels := (s.hw.channels.filter fun c => c.2.retired).map fun c => (c.1, { retired := true })
      channelSpares := s.hw.channelSpares, coreSpares := s.hw.coreSpares, rowSpares := s.hw.rowSpares, pipeSpares := s.hw.pipeSpares
      pipesLost := s.hw.pipesLost }
    cores := (s.cores.map fun k => (k.1, { spareUsed := k.2.spareUsed, retired := k.2.retired, waySpares := k.2.waySpares, waysLost := k.2.waysLost })).filter
      fun k => k.2 != default
    outbox := s.outbox, agenda := s.agenda, firmware := s.firmware, nextId := s.nextId, freeIdx := s.freeIdx }

/-- POWER_GOOD (R378): stage 0 begins under the hardware boot sequencer. -/
def execPowerGood (s : State) : Out := .next (powerUp s true)

/-- POWER_REMOVED (R378): nothing runs. -/
def execPowerRemoved (s : State) : Out := .next (powerUp s false)

/-- Whether the boot core accepts an image: its key has the fused hash, its signature verifies, and its security version is not below the fused rollback count (R377). -/
def imageAccepted (s : State) : Bool :=
  Config.imageKey s.hw.image == s.hw.keyHash && Config.sigVerifies s.hw.image && s.hw.rollback ≤ Config.imageVersion s.hw.image

/-- BOOT_ROM_AUTHENTICATE (R377, R378): an image in flash, at an offset and of a length, releases core 0, which starts stage 1; in stage 1 the image loaded is accepted and measured, which starts stage 2 and locks the egress windows, or the device stays there with a failure code other than 0. (DESIGN CHOICE, log entry 13) -/
def execBootRomAuthenticate (off len code : Nat) (s : State) : Out :=
  match s.bar.bootStage with
  | 0 =>
    let image := (s.hw.flash.drop off).take len
    if image.isEmpty then .next s
    else .next { s with bar := { s.bar with bootStage := 1, failCode := 0 }, hw := { s.hw with image := image } }
  | 1 =>
    if s.bar.failCode != 0 then .next s
    else if imageAccepted s then
      .next { s with
        bar := { s.bar with bootStage := 2 }
        hw := { s.hw with egressLocked := true, measured := s.hw.measured ++ [Config.digest s.hw.image] } }
    else .next { s with bar := { s.bar with failCode := code % 255 + 1 } }
  | _ => .next s

/-- Whether a stack has been dealt with by training. -/
def stackSettled (s : State) (j : Nat) : Bool := s.hw.trained.contains j || s.hw.retiredStacks.contains j

/-- STACK_TRAINING_DONE (R378): the next stack in order enters service, with its spare channels if it needs them, or is retired; the last starts stage 3. (DEDUCED, log entry 133) -/
def execStackTrainingDone (stack : Nat) (passes passesOnSpares : Bool) (s : State) : Out :=
  if s.bar.bootStage != 2 || (List.range 16).find? (fun j => !stackSettled s j) != some stack then .next s
  else
    let used := mget 0 s.hw.channelSpares stack
    let s1 :=
      if passes then { s with hw := { s.hw with trained := s.hw.trained ++ [stack] } }
      else if passesOnSpares && used < 2 then
        blowFuse { s with hw := { s.hw with trained := s.hw.trained ++ [stack], channelSpares := mput 0 s.hw.channelSpares stack (used + 1) } } (0x100 + stack)
      else report (blowFuse { s with hw := { s.hw with retiredStacks := s.hw.retiredStacks ++ [stack] } } (0x200 + stack)) 6 [0, stack]
    .next (if (List.range 16).all (stackSettled s1) then { s1 with bar := { s1.bar with bootStage := 3 } } else s1)

/-! ### Links and attestation (R35, R37, R38, R377) -/

/-- HOST_LINK_TRAIN (R38): the link trains to a rate, in tenths of a GT/s, and a width that the standard allows. (DESIGN CHOICE, log entry 135) -/
def execHostLinkTrain (rate width : Nat) (s : State) : Out :=
  if [640, 320, 160, 80, 50, 25].contains rate && [16, 8, 4, 2, 1].contains width then
    .next { s with hw := { s.hw with hostRate := rate, hostWidth := width } }
  else .next s

/-- FLOZOR_LINK_BRINGUP (R35, R37, R378): from stage 2 a port trains, and Millwright assigns the node identifier. -/
def execFlozorLinkBringup (port rate : Nat) (node : BitVec 12) (s : State) : Out :=
  if port < 32 && 2 ≤ s.bar.bootStage && rate ≤ 4480 then
    .next { s with hw := { s.hw with ports := mput 0 s.hw.ports port rate, node := node } }
  else .next s

/-- ATTESTATION_REQUEST (R377): the boot core answers with the signed report of its measurements. (DEDUCED, log entry 123) -/
def execAttestationRequest (s : State) : Out :=
  if s.bar.bootStage < 2 then .next s else .next (report s 7 (Config.report s.hw.measured))

/-! ### The mailbox (R40, R375) -/

/-- A byte of MBX_OUT. -/
def mbxByte (s : State) (i : Nat) : Nat := (mget 0 s.bar.mbxOut i).toNat

/-- A run of bytes of MBX_OUT as a number. -/
def mbxNum (s : State) (i : Nat) : Nat → Nat
  | 0 => 0
  | n + 1 => mbxByte s i + 256 * mbxNum s (i + 1) n

/-- A number laid over bytes of a map. -/
def putBytes (m : SMap Byte) (off n v : Nat) : SMap Byte := memWrite m off n v

/-- A boot command taken by the boot sequencer, in stages 0 and 1. -/
def bootCommand (s : State) (cmd : Nat) : Bool := s.bar.bootStage ≤ 1 && s.bar.mbxPosted && mbxByte s 0 == cmd

/-- A posted message taken, with or without a reply. -/
def takeMessage (s : State) (reply : Bool) : State :=
  { s with bar := { s.bar with mbxPosted := false, mbxTaken := true, mbxReply := s.bar.mbxReply || reply } }

/-- BOOT_STAGE as software reads it (R378). -/
def bootStageWord (s : State) : Nat := s.bar.bootStage + 256 * s.bar.failCode

/-- BOOT_STAGE_READ (R40): command 1. -/
def execBootStageRead (s : State) : Out :=
  if bootCommand s 1 then
    let s1 := takeMessage s true
    .next { s1 with bar := { s1.bar with mbxIn := putBytes s1.bar.mbxIn 0 4 (bootStageWord s) } }
  else .next s

/-- BOOT_IMAGE (R40, R377, R378): command 2 boots the image in the boot buffer, where the flash holds none: core 0 is released, and stage 1 begins. -/
def execBootImage (s : State) : Out :=
  if bootCommand s 2 && mbxNum s 8 8 ≤ 2 ^ 24 then
    let s1 := takeMessage s false
    if !s.hw.flash.isEmpty then .next s1
    else .next { s1 with
      bar := { s1.bar with bootStage := 1, failCode := 0 }
      hw := { s1.hw with image := (List.range (mbxNum s 8 8)).map (mget 0 s.bar.bootBuffer) } }
  else .next s

/-- DEVICE_RESET (R40): command 3. -/
def execDeviceReset (s : State) : Out := if bootCommand s 3 then .next (powerUp s true) else .next s

/-- Millwright core 1 serves MBX_OUT; the manual does not give its replies, so the reply is free. -/
def serveHost (s : State) : State :=
  if !s.bar.mbxPosted then s
  else
    let s1 := takeMessage s true
    let put := fun (m : SMap Byte) (i : Nat) => putBytes m (8 * i) 8 (Config.freeWord (s.freeIdx + i) % 2 ^ 64)
    { s1 with bar := { s1.bar with mbxIn := (List.range 8).foldl put s1.bar.mbxIn }, freeIdx := s.freeIdx + 8 }

/-- A core's mailbox holds 16 messages; one posted to a full mailbox is not taken (R375). (DESIGN CHOICE, log entry 124) -/
def postMail (s : State) (src dst msg : Nat) : State :=
  let box := mget [] s.hw.inbox dst
  if 8 ≤ src || 8 ≤ dst || src = dst || 16 ≤ box.length then s
  else { s with hw := { s.hw with inbox := mput [] s.hw.inbox dst (box ++ [msg % 2 ^ 512]) } }

/-- A context registered, its CTXID assigned (R40). -/
def addContext (s : State) (ctx : Nat) (root : Word64) : State :=
  if 4096 ≤ ctx || (getCtx s ctx).isSome || root.toNat % 4096 != 0 || 2 ^ 52 ≤ root.toNat then s
  else { s with contexts := s.contexts ++ [{ id := ctx, xltRoot := root }] }

/-- A queue registered: its state block gets a doorbell index, which is recorded in the block's device save area (R40, R282). (DESIGN CHOICE, log entry 91) -/
def addQueue (s : State) (ctx block q : Nat) : State :=
  if 32768 ≤ q || block % 256 != 0 || (getCtx s ctx).isNone || s.queues.any (fun x => x.q == q || (x.ctx == ctx && x.block == block)) then s
  else { devPut s ctx (block + 56 + Config.queueMark % 197) 4 q with queues := s.queues ++ [{ q := q, ctx := ctx, block := block }] }

/-- What Millwright's firmware does in one turn. -/
def firmwareTurn (s : State) (m : Mail) : State := match m with
  | .host => serveHost s
  | .post src dst msg => postMail s src dst msg
  | .take core => { s with hw := { s.hw with inbox := mput [] s.hw.inbox core ((mget [] s.hw.inbox core).drop 1) } }
  | .context ctx root => addContext s ctx root
  | .queue ctx block q => addQueue s ctx block q
  | .telem ctx => flushTelemetry s ctx

/-- MBX_MESSAGE (R40, R375): from stage 2 Millwright's firmware takes its next turn; with none laid down, core 1 serves the host's message. -/
def execMbxMessage (s : State) : Out :=
  if s.bar.bootStage < 2 then .next s
  else match s.firmware with
    | [] => .next (serveHost s)
    | m :: rest => .next (firmwareTurn { s with firmware := rest } m)

/-- MBX_STAT (R40). -/
def mbxStat (s : State) : Nat := s.bar.mbxTaken.toNat + 2 * s.bar.mbxReply.toNat

/-- MBX_STAT_READ (R40): the read returns the register and clears its reply bit. -/
def execMbxStatRead (s : State) : Out :=
  .next (report { s with bar := { s.bar with mbxReply := false } } 8 [mbxStat s])

/-- BOOT_BUFFER_WRITE (R40): in stages 0 and 1 the host writes the image. -/
def execBootBufferWrite (off : Nat) (v : Word64) (s : State) : Out :=
  if s.bar.bootStage ≤ 1 && off + 8 ≤ 2 ^ 24 && off % 8 == 0 then
    .next { s with bar := { s.bar with bootBuffer := putBytes s.bar.bootBuffer off 8 v.toNat } }
  else .next s

/-! ### BAR2 (R39–R42) -/

/-- BAR2_WIN (R40): an address that is not a multiple of the BAR's size is ignored. -/
def execBar2Win (v : Word64) (s : State) : Out :=
  if v.toNat < 2 ^ 52 && v.toNat % 2 ^ s.bar.bar2Log2 == 0 then .next { s with bar := { s.bar with bar2Win := v } } else .next s

/-- BAR2_RESIZE (R39, R40): a resize to 256 MiB to 1 TiB clears the bits of BAR2_WIN below the new size. (DESIGN CHOICE, log entry 154) -/
def execBar2Resize (log2 : Nat) (s : State) : Out :=
  if 28 ≤ log2 && log2 ≤ 40 then
    .next { s with bar := { s.bar with
      bar2Log2 := log2, bar2Win := BitVec.ofNat 64 (s.bar.bar2Win.toNat / 2 ^ log2 * 2 ^ log2) } }
  else .next s

/-- Where the bytes of an access at an offset of BAR2 lie: HBM of stacks in service, at full function. -/
def bar2Keys (s : State) (off width : Nat) : Option (List Nat) :=
  let pa := s.bar.bar2Win.toNat + off
  let ks := (List.range width).map (hbmKey pa + ·)
  if s.bar.bootStage == 3 && off + width ≤ 2 ^ s.bar.bar2Log2 && pa + width ≤ 2 ^ 40 && ks.all (fun k => s.hw.trained.contains (homeStack k)) then some ks else none

/-- Bytes on the host path as they are read, a free value for each poisoned one. -/
def hostBytes (s : State) (ks : List Nat) : Nat :=
  bytesVal ((ks.zip (List.range ks.length)).map fun k => if poisonedAt s k.1 then BitVec.ofNat 8 (Config.freeWord (s.freeIdx + k.2)) else homeByte s k.1)

/-- The host's own write of host or CXL memory: of the device's caches only the remote-data caches let their copies go (R170); the others are not snooped (R38, R41). -/
def hostStore (s : State) (off width v : Nat) : State :=
  let ws := byteList (hostKey off) v width
  let lines := (ws.map fun w => w.1 / 64).eraseDups
  { s with mem := memPutAll s.mem ws, hw := noteWrites s.hw (ws.map (·.1)), lines := s.lines.filter fun l => match l.kind with
      | .rdc _ => !lines.contains (l.sector / 4)
      | _ => true }

/-- BAR2_ACCESS (R41, R42): an access of the host, of any width and alignment: on the host path to HBM, or Completer Abort with no memory changed; or to its own memory, which programs read too. It waits for a fence and a change of a slice (R167, R168). (DEDUCED, log entry 125) -/
def execBar2Access (x : HostSpan) (store : Option Nat) (s : State) : Out :=
  let off := x.off
  let width := x.width
  match x.side with
  | .bar2 => match bar2Keys s off width, store with
    | none, _ => .next (report s 9 [off])
    | some ks, some v => if (sliceWait s [(ks.headD 0, width)]).isSome then .next s else .next (hostWrite s (byteList (ks.headD 0) v width))
    | some ks, none =>
      if (sliceWait s [(ks.headD 0, width)]).isSome || ks.any fun k => channelWaits s s.nextId (place s k / 64) then .next s
      else .next (report { s with freeIdx := s.freeIdx + width } 10 [hostBytes s ks])
  | .memory =>
    if 2 ^ 52 < off + width then .next s
    else match store with
      | some v => .next (hostStore s off width v)
      | none => .next (report { s with freeIdx := s.freeIdx + width } 10 [hostBytes s ((List.range width).map (hostKey off + ·))])

/-! ### Other registers (R40) -/

/-- SVC_DONE (R364): the index is posted, and the device takes the entry. (DEDUCED, log entry 134) -/
def execSvcDone (ctx idx : Nat) (s : State) : Out :=
  let s1 := { s with bar := { s.bar with svcDone := mput 0 s.bar.svcDone ctx (BitVec.ofNat 32 idx) } }
  if 4096 ≤ ctx || 2 ^ 32 ≤ idx then .next s
  else match s.svc.find? fun k => k.ctx == ctx && k.idx == idx with
    | none => .next s1
    | some k =>
      let s2 := { s1 with svc := s1.svc.map fun q => if q.id = k.id then { q with answered := true } else q }
      .next (if svcBlocked s k then s2 else takeSvc s2 k)

/-- EGRESS_WINDOW_PROGRAM (R376): only the host in stage 0, or the boot core in stage 1, and only before the windows lock. -/
def execEgressWindowProgram (byHost : Bool) (idx base limit : Nat) (s : State) : Out :=
  if idx < 16 && !s.hw.egressLocked && s.bar.bootStage == (if byHost then 0 else 1) && limit ≤ 2 ^ 52 then
    .next { s with hw := { s.hw with egress := mput ⟨0, 0⟩ s.hw.egress idx ⟨base, limit⟩ } }
  else .next s

def pondRays (s : State) (j : Nat) : Nat := mget 512 s.bar.pondRays j

/-- The rule that keeps room for every admitted ray on every stack (R316). -/
def pondsHold (adm ext : Nat) (pond : Nat → Nat) : Bool :=
  (List.range 16).all fun j => 96 * adm + 64 * ext ≤ 2 ^ 25 + pond j * 2 ^ 20

/-- A write of a register of one word that has no row of its own; out of its range it is reserved, and ignored (R8, R40, R316). -/
def barWord (s : State) (off v : Nat) : State :=
  let b := s.bar
  if off = 0x80 then
    if 4096 ≤ v && v ≤ 2 ^ 26 && pondsHold v b.extAdmit (pondRays s) then { s with bar := { b with rayAdmit := v } } else s
  else if off = 0x84 then if 1024 ≤ v then { s with bar := { b with leatAge := v } } else s
  else if off = 0x88 then
    if v ≤ 2 ^ 26 && pondsHold b.rayAdmit v (pondRays s) then { s with bar := { b with extAdmit := v } } else s
  else if 0x100 ≤ off && off < 0x140 then
    let j := (off - 0x100) / 4
    if 64 ≤ v && v ≤ 4096 && pondsHold b.rayAdmit b.extAdmit (fun i => if i = j then v else pondRays s i) then
      { s with bar := { b with pondRays := mput 512 b.pondRays j v } }
    else s
  else if 0x140 ≤ off && off < 0x180 then
    if v ≤ 4096 then { s with bar := { b with pondBins := mput 256 b.pondBins ((off - 0x140) / 4) v } } else s
  else if off = 0x1040 then if v = 1 then { s with bar := { b with mbxPosted := true, mbxTaken := false } } else s
  else s

/-- A write of BAR0 (R40): a naturally aligned write of a register's own width; any other changes nothing. -/
def barWrite (off width : Nat) (v : Word64) (s : State) : Out :=
  if width = 8 then
    if off = 0x8 then execBar2Win v s
    else if 0x40 ≤ off && off < 0x80 then .next { s with bar := { s.bar with rlHead := mput 0 s.bar.rlHead ((off - 0x40) / 8) v } }
    else if 0x1000 ≤ off && off < 0x1040 then .next { s with bar := { s.bar with mbxOut := putBytes s.bar.mbxOut (off - 0x1000) 8 v.toNat } }
    else if 0x01000000 ≤ off && off < 0x02000000 then execBootBufferWrite (off - 0x01000000) v s
    else .next s
  else if 0x1000 ≤ off && off + width ≤ 0x1040 then
    .next { s with bar := { s.bar with mbxOut := putBytes s.bar.mbxOut (off - 0x1000) width v.toNat } }
  else if 0x01000000 ≤ off && off + width ≤ 0x02000000 then
    if s.bar.bootStage ≤ 1 then .next { s with bar := { s.bar with bootBuffer := putBytes s.bar.bootBuffer (off - 0x01000000) width v.toNat } } else .next s
  else if (width = 2 && 0x100 ≤ off && off < 0x180 && off % 4 == 0) || width = 4 then
    let w := v.toNat % 256 ^ width
    let i := off - 0x100000
    if 0x100000 ≤ off && off < 0x140000 then
      if i % 0x40 = 4 && i % 0x10000 < 0x4000 then execBfpScrWrite (256 * (i / 0x10000) + i % 0x10000 / 0x40) (BitVec.ofNat 32 w) s else .next s
    else if 0x02000000 ≤ off && off < 0x03000000 then
      if off % 0x1000 = 0 then execSvcDone ((off - 0x02000000) / 0x1000) w s else .next s
    else if 0x08000000 ≤ off && off < 0x10000000 then
      if off % 0x1000 = 0 then execNotify ((off - 0x08000000) / 0x1000) (BitVec.ofNat 32 w) s else .next s
    else .next (barWord s off w)
  else .next s

/-- A 64-bit register at an offset. -/
def barLong (s : State) (off : Nat) : Option Nat :=
  if off = 0x8 then some s.bar.bar2Win.toNat
  else if 0x40 ≤ off && off < 0x80 then some (mget 0 s.bar.rlHead ((off - 0x40) / 8)).toNat
  else none

/-- A register of a core's slice (R168): BFP_WAYS, BFP_SCR or BFP_WB. -/
def bfpRead (k : Core) (reg : Nat) : Nat := match reg with
  | 0 => bfpWays k
  | 4 => k.mb
  | 8 => k.wb
  | _ => 0

/-- A register of one word as software reads it, zero at an offset that R40 does not name; what MBX_GO and NOTIFY read as is free. -/
def barRead4 (s : State) (off : Nat) : Nat :=
  let i := off - 0x100000
  if off = 0 then bootStageWord s
  else if off = 0x10 then s.bar.rlPass.toNat
  else if off = 0x80 then s.bar.rayAdmit
  else if off = 0x84 then s.bar.leatAge
  else if off = 0x88 then s.bar.extAdmit
  else if 0x100 ≤ off && off < 0x140 then pondRays s ((off - 0x100) / 4)
  else if 0x140 ≤ off && off < 0x180 then mget 256 s.bar.pondBins ((off - 0x140) / 4)
  else if off = 0x10C0 then mbxStat s
  else if 0x100000 ≤ off && off < 0x140000 then (if i % 0x10000 < 0x4000 then bfpRead (coreOf s (256 * (i / 0x10000) + i % 0x10000 / 0x40)) (i % 0x40) else 0)
  else if 0x02000000 ≤ off && off < 0x03000000 && off % 0x1000 = 0 then (mget 0 s.bar.svcDone ((off - 0x02000000) / 0x1000)).toNat
  else if off = 0x1040 || (0x08000000 ≤ off && off < 0x10000000 && off % 0x1000 = 0) then Config.freeWord s.freeIdx % 2 ^ 32
  else 0

/-- What a naturally aligned read of BAR0 returns (R40): a register of its own width, a half of a 64-bit one, bytes of a mailbox or of the boot buffer, or zero. -/
def barRead (s : State) (off width : Nat) : Nat :=
  let run := fun (m : SMap Byte) (at' : Nat) => bytesVal ((List.range width).map fun i => mget 0 m (at' + i))
  if 0x1000 ≤ off && off + width ≤ 0x1040 then run s.bar.mbxOut (off - 0x1000)
  else if 0x1080 ≤ off && off + width ≤ 0x10C0 then run s.bar.mbxIn (off - 0x1080)
  else if 0x01000000 ≤ off && off + width ≤ 0x02000000 then (if s.bar.bootStage ≤ 1 then run s.bar.bootBuffer (off - 0x01000000) else 0)
  else if width = 8 then (barLong s off).getD 0
  else if width = 4 then match barLong s (off / 8 * 8) with
    | some v => bitsOf v (8 * (off % 8) + 31) (8 * (off % 8))
    | none => barRead4 s off
  else if width = 2 && 0x100 ≤ off && off < 0x180 && off % 4 == 0 then barRead4 s off
  else 0

/-- REGISTER_WRITE (R40): a write of BAR0, or, with no value, a read, which returns its value and, at MBX_STAT, clears the reply bit. -/
def execRegisterWrite (off width : Nat) (v : Option Word64) (s : State) : Out :=
  let aligned := [1, 2, 4, 8].contains width && off % width == 0
  match v with
  | some v => if aligned then barWrite off width v s else .next s
  | none =>
    let val := if aligned then barRead s off width else 0
    let s1 := if aligned && off = 0x10C0 && width = 4 then { s with bar := { s.bar with mbxReply := false } } else s
    .next (report { s1 with freeIdx := s.freeIdx + 1 } 13 [off, val])

end Sys2Proof.Machine
end

