-- ==== Sys2Proof/Machine/Convert.lean ====
section
/-! DEFINITION. The meanings of the conversion instructions and of the format word (R94–R102). -/

namespace Sys2Proof.Machine

/-- Width of an integer type of `cvt` (R94). -/
def cvtWidth (t : Nat) : Nat := match t / 2 with
  | 0 => 32
  | 1 => 64
  | 2 => 16
  | _ => 8

/-- Odd integer type codes are signed. -/
def cvtSigned (t : Nat) : Bool := t % 2 == 1

/-- Format of a floating-point type of `cvt`; for the packed types, of an element. -/
def cvtFmt (t : Nat) : Fmt := match t with
  | 8 => fp16
  | 9 => bf16
  | 10 => fp32
  | 11 => fp64
  | 12 => fp16
  | _ => bf16

/-- An integer of a type as registers hold it: narrow signed values fill the word with their sign (R77). -/
def intReg (t : Nat) (x : Int) : Nat :=
  let w := cvtWidth t
  if cvtSigned t then lowBits (signExt (lowBits x w) w) (max w 32) else lowBits x w

/-- The fields that X holds in `cvt` (R94). -/
structure CvtMods where
  mode : Mode
  fi : Bool
  fo : Bool
  sat : Bool
  deriving DecidableEq, Repr

def cvtMods (x : Nat) : CvtMods :=
  { mode := modeOf (bitsOf x 10 9), fi := bitAt x 8, fo := bitAt x 7, sat := bitAt x 6 }

/-- The conversion of R95 from source bits, with B for a packed destination. -/
def convert (k : CvtMods) (dt st a b : Nat) : Nat :=
  let flt := fun (v : Nat) (sf df : Fmt) => cvtTo df k.mode k.fo k.sat (sf.decF k.fi v)
  if st < 8 then
    let v := asInt (cvtSigned st) (cvtWidth st) a
    if dt < 8 then intReg dt (if k.sat then clampInt (cvtSigned dt) (cvtWidth dt) v else v)
    else cvtTo (cvtFmt dt) k.mode false k.sat (fvInt v)
  else
    let sf := cvtFmt st
    let lo := elem 16 a 0
    let hi := elem 16 a 1
    if st < 12 then
      let v := a % 2 ^ sf.bits
      if dt < 8 then intReg dt (cvtInt (cvtSigned dt) (cvtWidth dt) k.mode (sf.decF k.fi v))
      else if dt < 12 then flt v sf (cvtFmt dt)
      else flt a fp32 (cvtFmt dt) + 2 ^ 16 * flt b fp32 (cvtFmt dt)
    else if dt = 10 then flt lo sf fp32 + 2 ^ 32 * flt hi sf fp32
    else flt lo sf (cvtFmt dt) + 2 ^ 16 * flt hi sf (cvtFmt dt)

/-- What `cvt` writes (R96). -/
def wrCvt (a : Args) (c : Crew) (t : Thread) : List Wr :=
  let dt := bitsOf a.m.toNat 7 4
  let st := bitsOf a.m.toNat 3 0
  let n := if (st = 12 ∨ st = 13) ∧ dt = 10 then 2 else cvtRegs dt
  [.reg a.d n (convert (cvtMods a.x.toNat) dt st (rd c t a.a (cvtRegs st)) (rd c t a.b 1))]

/-- `cvt` (R96). -/
def execCvt (a : Args) (s : State) : Out := regInstr a s (wrCvt a)

/-- What `cvtf8` writes (R98). -/
def wrCvtf8 (a : Args) (c : Crew) (t : Thread) : List Wr :=
  let m := a.m.toNat
  let f := if bitAt m 3 then fpE5M2 else fpE4M3
  let fi := bitAt m 5
  let fo := bitAt m 4
  let sat := bitAt m 1
  let sc := fp32.dec (rd c t a.b 1)
  if bitAt m 2 then
    let x := rd c t a.a 1
    [.reg a.d 4 (fromElems 32 (fun i => cvtTo fp32 .rne fo sat ((f.decF fi (elem 8 x i)).mul sc)) 4)]
  else
    let x := rd c t a.a 4
    [.reg a.d 1 (fromElems 8 (fun i => cvtTo f .rne fo sat ((fp32.decF fi (elem 32 x i)).mul sc)) 4)]

/-- `cvtf8` (R98). -/
def execCvtf8 (a : Args) (s : State) : Out := regInstr a s (wrCvtf8 a)

/-! ### PX4 (R83, R99, R100) -/

/-- The magnitude of an E2M1 code, in halves. -/
def e2m1Halves (code : Nat) : Nat := match code % 8 with
  | 0 => 0 | 1 => 1 | 2 => 2 | 3 => 3 | 4 => 4 | 5 => 6 | 6 => 8 | _ => 12

/-- The value of an element of a block with exponent E and micro-bit m. -/
def px4Val (e m code : Nat) : FV :=
  if e = 0xFF then .nan else .fin (code.testBit 3) (e2m1Halves code) ((e : Int) - 127 - m - 1)

/-- |x| compared with k × 2^e. -/
def absLe (x : FV) (k : Nat) (e : Int) : Bool := x.abs.le (.fin false k e)

/-- The code of the E2M1 grid nearest to q, ties to the code whose bit 0 is zero; |q| is clamped to 6. -/
def e2m1Round (q : FV) : Nat :=
  -- midpoints between neighbouring codes, in quarters, and whether a tie goes down
  let mids : List (Nat × Bool) := [(1, true), (3, false), (5, true), (7, false), (10, true), (14, false), (20, true)]
  let mag := (mids.filter fun p =>
    let mid : FV := .fin false p.1 (-2)
    mid.lt q.abs || (!p.2 && mid.eqv q.abs)).length
  mag + (if q.sign then 8 else 0)

/-- The PX4 block of sixteen values: exponent, micro-bits and codes (R99). -/
def px4Block (xs : List FV) : Nat × Nat × List Nat :=
  if xs.any FV.isNan then (0xFF, 0, List.replicate 16 0)
  else
    let isInf := fun x : FV => match x with
      | .inf _ => true
      | _ => false
    let fins := xs.filter fun x => !isInf x
    let e := leastOr 254 ((List.range 255).filter fun (e : Nat) => fins.all fun x => absLe x 6 ((e : Int) - 127))
    let ms := (List.range 8).map fun i =>
      let p := xs.getD (2 * i) (.fin false 0 0)
      let q := xs.getD (2 * i + 1) (.fin false 0 0)
      if isInf p || isInf q then 0
      else if absLe p 3 ((e : Int) - 127) && absLe q 3 ((e : Int) - 127) then 1 else 0
    let codes := (List.range 16).map fun j => match xs.getD j (.fin false 0 0) with
      | .inf n => if n then 15 else 7
      | x => e2m1Round (x.scale (-((e : Int) - 127 - (ms.getD (j / 2) 0 : Nat))))
    (e, (List.range 8).foldl (fun acc i => acc + ms.getD i 0 * 2 ^ i) 0, codes)

/-- Values of block group `g` of a gang: inactive lanes contribute +0 (R99). -/
def px4Inputs (e : Env) (a : Args) (fi : Bool) (g : Nat) : List FV :=
  (List.range 16).map fun j =>
    match e.act.find? fun t => e.c.lane t.tid == 16 * g + j with
    | some t => fp32.decF fi (rd e.c t a.a 1)
    | none => .fin false 0 0

/-- `pxpack` (R99). -/
def execPxpack (a : Args) (s : State) : Out :=
  let fi := bitAt a.m.toNat 5
  gangDo a.guard s fun e =>
    let ws := e.act.map fun t =>
      let (ex, mb, codes) := px4Block (px4Inputs e a fi (e.c.lane t.tid / 16))
      let data := fromElems 4 (fun j => codes.getD j 0) 16
      (t.tid, Wr.reg a.d 4 (data + 2 ^ 64 * (mb * 256 + ex)))
    .next (retire e.is (updCrew e.s e.is.crew fun c => applyWrs c ws))

/-- What `pxunpack` writes (R100). -/
def wrPxunpack (a : Args) (c : Crew) (t : Thread) : List Wr :=
  let m := a.m.toNat
  let x := rd c t a.a 4
  let j := rd c t a.b 1 % 16
  let ex := bitsOf x 71 64
  let mb := bitsOf x (72 + j / 2) (72 + j / 2)
  [.reg a.d 1 (cvtTo fp32 .rne (bitAt m 4) (bitAt m 1) (px4Val ex mb (elem 4 x j)))]

/-- `pxunpack` (R100). -/
def execPxunpack (a : Args) (s : State) : Out := regInstr a s (wrPxunpack a)

/-- The greatest magnitude of a list of values, +0 when there is none (R101). -/
def absMax (nn : Bool) (xs : List FV) : FV :=
  if !nn && xs.any FV.isNan then .nan
  else (xs.filter fun x => !x.isNan).foldl (fun m x => if m.lt x.abs then x.abs else m) (.fin false 0 0)

/-- `amax` (R101). -/
def execAmax (a : Args) (s : State) : Out :=
  let k := floatMods a.m.toNat
  let f := tyFmt k.ty
  let n := tyRegs k.ty
  gangDo a.guard s fun e =>
    let xs := e.act.map fun t => rd e.c t a.a n
    let out := fromElems f.bits (fun h => rne f (absMax k.low (xs.map fun x => f.decF k.fi (elem f.bits x h)))) (tyElems k.ty)
    .next (retire e.is (updCrew e.s e.is.crew fun c => applyWrs c (e.act.map fun t => (t.tid, .reg a.d n out))))

/-! ### The format word (R102) -/

/-- `fmtw.mk` (R102). -/
def execFmtwMk (a : Args) (s : State) : Out := regInstr a s fun _ _ => [.reg a.d 1 (bitsOf (Args.immN a) 21 0)]

/-- `fmtw.chk` (R102). -/
def execFmtwChk (a : Args) (s : State) : Out := regInstr a s fun c t => [.pred a.d (fmtReason (rd c t a.a 1) == 0)]

/-- `fmtw.why` (R102). -/
def execFmtwWhy (a : Args) (s : State) : Out := regInstr a s fun c t => [.reg a.d 1 (fmtReason (rd c t a.a 1))]

end Sys2Proof.Machine
end

