-- ==== Sys2Proof/Machine/Filters.lean ====
section
/-! DEFINITION. The meanings of `hgrid` and `smp`, and the filter pipes that serve them (R332–R336, R345): descriptors, the reads of texels and entries with deferred ranges, the filters in FP32, and the re-shade bit. -/

namespace Sys2Proof.Machine

/-! ### Issue (R345) -/

/-- The checks at issue of `hgrid` and `smp`, then one request for each active thread in lane order. -/
def filterInstr (a : Args) (hgrid : Bool) (op : Nat) (s : State) : Out :=
  gangDo a.guard s fun e =>
    let desc := fun t => rd e.c t a.b 2
    let dst := fun t => rd e.c t a.d 2
    let bit := fun t => match a.c with
      | .none => none
      | o => some (rd e.c t o 2)
    let check := fun t : Thread => firstFail [
      if !hgrid then none else match steer e.s e.c t.tid (BitVec.ofNat 64 (dst t)) 4 with
        | .bank k none => if keySpace k = 16384 + e.c.uid then none else some (tcBOUNDS, 5, dst t)
        | _ => some (tcBOUNDS, 5, dst t),
      (bit t).bind fun b => if globalEa e.s e.c t.tid (b / 8) then none else some (tcBOUNDS, 11, b / 8)]
    issueGate e (fun t => misaligned ((desc t, 64) :: (if hgrid then [(dst t, 16)] else []))) check <|
      let send := fun (s : State) (t : Thread) =>
        let n := if op = 4 && !hgrid then 8 else 4
        let v := rd e.c t a.a n
        let r : FilterReq := {
          id := s.nextId, crew := e.is.crew, tid := t.tid, pc := e.is.pc, hgrid := hgrid, op := op, desc := BitVec.ofNat 64 (desc t)
          args := (List.range n).map fun i => BitVec.ofNat 32 (v / 2 ^ (32 * i)), dst := if hgrid then none else dstPlace a.d
          dstAddr := if hgrid then BitVec.ofNat 64 (dst t) else 0, reshade := (bit t).map (BitVec.ofNat 64) }
        countUp { s with filters := s.filters ++ [r], nextId := s.nextId + 1 } e.is.crew t.tid fun k => { k with rays := k.rays + 1 }
      .next (retire e.is (e.act.foldl send e.s))

/-- `hgrid` (R345). -/
def execHgrid (a : Args) (s : State) : Out := filterInstr a true 0 s
/-- `smp.ld` (R345). -/
def execSmpLd (a : Args) (s : State) : Out := filterInstr a false 0 s
/-- `smp.point` (R345). -/
def execSmpPoint (a : Args) (s : State) : Out := filterInstr a false 1 s
/-- `smp.bilin` (R345). -/
def execSmpBilin (a : Args) (s : State) : Out := filterInstr a false 2 s
/-- `smp.trilin` (R345). -/
def execSmpTrilin (a : Args) (s : State) : Out := filterInstr a false 3 s
/-- `smp.aniso` (R345). -/
def execSmpAniso (a : Args) (s : State) : Out := filterInstr a false 4 s

/-! ### FP32 (R333) -/

def f32 : Arith FV := arith fp32

/-- lerp(a, b, f) := a + f × (b − a). -/
def lerp (a b f : FV) : FV := f32.add a (f32.mul f (f32.sub b a))

def f32Bits (w : Word) : FV := fp32.dec w.toNat

/-! ### Reads on the sampler path (R185, R193, R217, R336) -/

/-- A block of a deferred range, not FULL, that some bytes lie in: it gives BORDER in their place. -/
def deferredBlock (s : State) (m : Mover) (va len : Nat) : Option (Range × Nat) :=
  (pageParts va len).findSome? fun p =>
    match walkNow s m.crew.ctx m.crew.die p.1 with
    | .leaf l _ _ => if !l.proc || !l.read || l.busy || l.compressed then none
      else ((getCtx s m.crew.ctx).bind (blockOf · p.1)).bind fun (r, i) =>
        let st := blockState s m.crew.ctx r i
        let own := st == stFilling && m.crew.toucher.fills && m.crew.toucher.own == some (r.num, i)
        if r.deferred && st != stFull && !own then some (r, i) else none
    | _ => none

/-- A texel or entry read: its bytes as a number, and whether the re-shade bit is to be set. -/
def sampleRead (s : State) (m : Mover) (late : Option TrapInfo) (va len : Nat) : Part (Nat × Bool) :=
  match deferredBlock s m va len with
  | some (r, i) =>
    let st := blockState s m.crew.ctx r i
    if st == stEmpty && m.crew.toucher.tooDeep s then .fault { genDepthTrap 1 with addr := BitVec.ofNat 64 va } 1
    else .ok (touchQuiet s m.crew.toucher r i) (r.border % 256 ^ len, st == stEmpty || st == stFilling)
  | none =>
    (quernReach s m { load := true } late 1 [(va, len)]).bind fun s1 runs =>
      let near := nearStack m.crew
      let (s2, bs, bad) := cachedRead (fun k => .sampler (if isHbm k then homeStack k else near)) m.crew.ctx s1 runs
      .ok (if bad then setPoison s2 m.crew.uid else s2) (if bad then 0 else bytesVal bs, false)

/-- Several of them, in order: their values, and whether any asks for the re-shade bit. -/
def sampleAll (m : Mover) (late : Option TrapInfo) (len : Nat) : List Nat → State → Part (List (Nat × Nat) × Bool)
  | [], s => .ok s ([], false)
  | va :: vas, s => (sampleRead s m late va len).bind fun s x =>
    (sampleAll m late len vas s).bind fun s y => .ok s ((va, x.1) :: y.1, x.2 || y.2)

/-- A descriptor read by the filter pipe. -/
def descRead (s : State) (m : Mover) (late : Option TrapInfo) (va len : Nat) : Part Nat :=
  (quernReach s m { load := true } late 5 [(va, len)]).bind fun s1 runs =>
    let near := nearStack m.crew
    let (s2, bs, bad) := cachedRead (fun k => .sampler (if isHbm k then homeStack k else near)) m.crew.ctx s1 runs
    .ok (if bad then setPoison s2 m.crew.uid else s2) (bytesVal bs)

/-! ### Hash grids (R332, R333) -/

/-- A hash-grid descriptor. -/
structure HashGrid where
  base : Nat
  levels : Nat
  tbits : Nat
  ch : Nat
  res : List Nat

def hashGridOf (v : Nat) : Option HashGrid :=
  let g : HashGrid := {
    base := partOf v 0 8, levels := partOf v 8 1, tbits := partOf v 9 1, ch := partOf v 10 1, res := (List.range 16).map fun l => partOf v (16 + 2 * l) 2 }
  if g.base % 64 != 0 || g.levels = 0 || 16 < g.levels || g.tbits < 8 || 24 < g.tbits || g.ch = 0 || 4 < g.ch || partOf v 11 5 != 0
      || partOf v 48 16 != 0 || (g.res.take g.levels).contains 0 || (g.res.drop g.levels).any (· != 0) then none else some g

/-- A coordinate clamped to [0, 1]; NaN gives 0. -/
def unitClamp (x : FV) : FV := if x.isNan || x.lt (fv 0) then fv 0 else if (fv 1).lt x then fv 1 else x

/-- Cell and fraction of a coordinate at a resolution. -/
def gridCell (x : FV) (res : Nat) : Nat × FV :=
  let p := f32.mul (unitClamp x) (fv res)
  let i := min (fvFloor p).toNat (res - 1)
  (i, f32.sub p (fv i))

/-- index(ix, iy, iz) of a level. -/
def gridIndex (g : HashGrid) (res ix iy iz : Nat) : Nat :=
  if (res + 1) ^ 3 ≤ 2 ^ g.tbits then ix + iy * (res + 1) + iz * (res + 1) ^ 2
  else (((ix * 1) ^^^ (iy * 0xB4F23A6D)) ^^^ (iz * 0x7D52C9A3)) % 2 ^ 32 % 2 ^ g.tbits

/-- Address of the corner (dx, dy, dz), given as a number of three bits, of the cell of a point at a level. -/
def gridVa (g : HashGrid) (p : List FV) (l corner : Nat) : Nat :=
  let res := (g.res[l]?).getD 1
  let i := fun k => (gridCell ((p[k]?).getD .nan) res).1 + bitsOf corner k k
  g.base + (l * 2 ^ g.tbits + gridIndex g res (i 0) (i 1) (i 2)) * 8

/-- The value of a channel at a level, from the corners' entries. -/
def gridValue (g : HashGrid) (p : List FV) (read : Nat → Nat) (l ch : Nat) : FV :=
  let res := (g.res[l]?).getD 1
  let f := fun k => (gridCell ((p[k]?).getD .nan) res).2
  let e := fun corner => fp16.dec (elem 16 (read (gridVa g p l corner)) ch)
  let c := fun yz => lerp (e (2 * yz)) (e (2 * yz + 1)) (f 0)
  lerp (lerp (c 0) (c 1) (f 1)) (lerp (c 2) (c 3) (f 1)) (f 2)

/-! ### Textures (R334, R335) -/

/-- A texture descriptor. -/
structure Texture where
  base : Nat
  stride : Nat
  w : Nat
  h : Nat
  layers : Nat
  levels : Nat
  fmt : Nat
  ch : Nat
  addr : Nat
  maxAniso : Nat
  border : List FV

def Texture.size (t : Texture) : Nat := t.ch * (match t.fmt with
  | 0 => 4
  | 1 | 2 => 2
  | _ => 1)

def Texture.wl (t : Texture) (l : Nat) : Nat := max 1 (t.w / 2 ^ l)
def Texture.hl (t : Texture) (l : Nat) : Nat := max 1 (t.h / 2 ^ l)

/-- OFF(l). -/
def Texture.off (t : Texture) : Nat → Nat
  | 0 => 0
  | l + 1 => (t.off l + t.wl l * t.hl l * t.size + 63) / 64 * 64

def textureOf (v : Nat) : Option Texture :=
  let t : Texture := {
    base := partOf v 0 8, stride := partOf v 8 8, w := partOf v 16 2, h := partOf v 18 2, layers := partOf v 20 2, levels := partOf v 22 1
    fmt := partOf v 23 1, ch := partOf v 24 1, addr := partOf v 25 1, maxAniso := partOf v 26 1
    border := (List.range 4).map fun i => fp32.dec (partOf v (32 + 4 * i) 4) }
  if t.base % 64 != 0 || t.stride % 64 != 0 || t.w = 0 || 32768 < t.w || t.h = 0 || 32768 < t.h || t.layers = 0 || 2048 < t.layers
      || t.levels = 0 || 16 < t.levels || 3 < t.fmt || t.ch = 0 || 4 < t.ch || 16 ≤ t.addr || !([1, 2, 4, 8, 16].contains t.maxAniso)
      || partOf v 27 5 != 0 || partOf v 48 16 != 0 || t.stride < t.off t.levels then none else some t

/-- A place in a texture: a texel, or BORDER. -/
abbrev Texel := Option Nat

/-- Address of a texel of a level and layer. -/
def Texture.va (t : Texture) (layer l x y : Nat) : Nat := t.base + layer * t.stride + t.off l + (x + y * t.wl l) * t.size

/-- A coordinate under an address mode; none: border. -/
def addrMode (mode : Nat) (w : Nat) (x : Int) : Option Nat := match mode with
  | 0 => some (max 0 (min x (w - 1))).toNat
  | 1 => some (x % w).toNat
  | 2 =>
    let m := (x % (2 * w)).toNat
    some (if w ≤ m then 2 * w - 1 - m else m)
  | _ => if 0 ≤ x && x < w then some x.toNat else none

/-- The texel at integer coordinates under the address modes. -/
def Texture.at (t : Texture) (layer l : Nat) (x y : Int) : Texel :=
  match addrMode (bitsOf t.addr 1 0) (t.wl l) x, addrMode (bitsOf t.addr 3 2) (t.hl l) y with
  | some i, some j => some (t.va layer l i j)
  | _, _ => none

/-- The value of a channel of a texel, from its bytes. -/
def Texture.value (t : Texture) (read : Nat → Nat) (ch : Nat) : Texel → FV
  | none => (t.border[ch]?).getD (fv 0)
  | some va => match t.fmt with
    | 0 => fp32.dec (elem 32 (read va) ch)
    | 1 => fp16.dec (elem 16 (read va) ch)
    | 2 => bf16.dec (elem 16 (read va) ch)
    | _ => roundTo fp32 ((fv (elem 8 (read va) ch)).div (fv 255))

/-- A scaled coordinate made finite. -/
def finiteCoord (x : FV) : FV :=
  if x.isNan then fv 0 else if (FV.fin false 1 31).le x.abs then .fin x.sign 1 31 else x

/-- A lod taken as a number of a level: NaN as 0, clamped to the levels. -/
def Texture.lod (t : Texture) (x : FV) : FV :=
  if x.isNan || x.lt (fv 0) then fv 0 else if (fv (t.levels - 1 : Nat)).lt x then fv (t.levels - 1 : Nat) else x

/-- The level of point and bilinear. -/
def Texture.level (t : Texture) (x : FV) : Nat := (cvtInt false 8 .rne (t.lod x)).toNat

/-- What a filter asks: a weighted tree of texels. -/
inductive Taps where
  | texel (t : Texel)
  | lerp (a b : Taps) (f : FV)

def Taps.vas : Taps → List Nat
  | .texel t => t.toList
  | .lerp a b _ => a.vas ++ b.vas

def Taps.value (t : Texture) (read : Nat → Nat) (ch : Nat) : Taps → FV
  | .texel x => t.value read ch x
  | .lerp a b f => Machine.lerp (a.value t read ch) (b.value t read ch) f

/-- The bilinear filter at a level. -/
def bilinTaps (t : Texture) (layer l : Nat) (u v : FV) : Taps :=
  let coord := fun x w => finiteCoord (f32.sub (f32.mul x (fv (w : Nat))) (FV.fin false 1 (-1)))
  let x := coord u (t.wl l)
  let y := coord v (t.hl l)
  let i := fvFloor x
  let j := fvFloor y
  let fx := f32.sub x (fv i)
  let fy := f32.sub y (fv j)
  let at' := fun di dj : Int => Taps.texel (t.at layer l (i + di) (j + dj))
  .lerp (.lerp (at' 0 0) (at' 1 0) fx) (.lerp (at' 0 1) (at' 1 1) fx) fy

/-- The trilinear filter at a lod. -/
def trilinTaps (t : Texture) (layer : Nat) (u v lod : FV) : Taps :=
  let x := t.lod lod
  let l := (fvFloor x).toNat
  .lerp (bilinTaps t layer l u v) (bilinTaps t layer (min (l + 1) (t.levels - 1)) u v) (f32.sub x (fv l))

/-- The smallest power of two at least a ratio, at most a bound. -/
def probeCount (limit : Nat) (ratio : FV) : Nat := (([1, 2, 4, 8].filter (· < limit)).find? fun n => ratio.le (fv (n : Nat))).getD limit

/-- The probes of the anisotropic filter. -/
def anisoTaps (t : Texture) (layer : Nat) (u v dudx dvdx dudy dvdy : FV) : List Taps :=
  let len := fun du dv : FV =>
    let x := f32.mul du (fv t.w)
    let y := f32.mul dv (fv t.h)
    f32.sqrt (f32.add (f32.mul x x) (f32.mul y y))
  let lx := len dudx dvdx
  let ly := len dudy dvdy
  let yMajor := lx.lt ly
  let (major, minor) := if yMajor then (ly, lx) else (lx, ly)
  let (du, dv) := if yMajor then (dudy, dvdy) else (dudx, dvdx)
  let ratio := f32.div major minor
  let n := if minor.isZero then t.maxAniso else if ratio.isNan then 1 else probeCount t.maxAniso ratio
  let lod := roundTo fp32 (approx .lg2 fp32 (f32.div major (fv (n : Nat))))
  (List.range n).map fun k =>
    let w := f32.sub (f32.div (f32.add (fv (k : Nat)) (FV.fin false 1 (-1))) (fv (n : Nat))) (FV.fin false 1 (-1))
    trilinTaps t layer (f32.add u (f32.mul w du)) (f32.add v (f32.mul w dv)) lod

/-- The taps of a request: one tree, or the probes whose mean is the result. -/
def smpTaps (t : Texture) (op : Nat) (args : List Word) : List Taps :=
  let w := fun i => (args[i]?).getD 0
  let f := fun i => f32Bits (w i)
  let layer := min (w 2).toNat (t.layers - 1)
  match op with
  | 0 =>
    let l := (w 3).toNat
    let inside := l < t.levels && (w 2).toNat < t.layers && (w 0).toNat < t.wl l && (w 1).toNat < t.hl l
    [.texel (if inside then some (t.va (w 2).toNat l (w 0).toNat (w 1).toNat) else none)]
  | 1 =>
    let l := t.level (f 3)
    let coord := fun x w => fvFloor (finiteCoord (f32.mul x (fv (w : Nat))))
    [.texel (t.at layer l (coord (f 0) (t.wl l)) (coord (f 1) (t.hl l)))]
  | 2 => [bilinTaps t layer (t.level (f 3)) (f 0) (f 1)]
  | 3 => [trilinTaps t layer (f 0) (f 1) (f 3)]
  | _ => anisoTaps t layer (f 0) (f 1) (f 4) (f 5) (f 6) (f 7)

/-- The value of a channel: of one tree, or the sum of the probes times 1 / N. -/
def smpValue (t : Texture) (read : Nat → Nat) (taps : List Taps) (ch : Nat) : FV := match taps with
  | [] => fv 0
  | [x] => x.value t read ch
  | x :: xs =>
    let sum := xs.foldl (fun acc y => f32.add acc (y.value t read ch)) (x.value t read ch)
    f32.mul sum (roundTo fp32 ((fv 1).div (fv (taps.length : Nat))))

/-! ### Service (R328, R336) -/

/-- A request leaves its pipe: the rays counter falls. -/
def endFilter (s : State) (r : FilterReq) : State :=
  countUp { s with filters := s.filters.filter (·.id != r.id) } r.crew r.tid fun k => { k with rays := k.rays - 1 }

/-- The status of a thread's latest request that ended (R37). -/
def filterAs (s : State) (r : FilterReq) (status : Nat) : State := updT s r.crew r.tid fun t => { t with filterStatus := status }

/-- A fault of a request: nothing is written to its destination. (DEDUCED, log entry 118) -/
def filterFault (s : State) (m : Mover) (r : FilterReq) (info : TrapInfo) (side : Nat) : State :=
  chargeFault (filterAs (endFilter s r) r 0) m (deferredOf m info (engineDetail r.pc 0 side (if r.hgrid then 7 else 6)) 2)

/-- The re-shade bit set by an atomic OR at its home. -/
def setReshade (s : State) (m : Mover) (r : FilterReq) (late : Option TrapInfo) (mark : Bool) : Part Unit := match r.reshade, mark with
  | some b, true => (quernReach s m { load := true, store := true } late 2 [(b.toNat / 8, 1)]).bind fun s runs =>
    let k := (runs.head?.map (·.1)).getD 0
    .ok (homeWrite s none [(k, homeByte s k ||| BitVec.ofNat 8 (2 ^ (b.toNat % 8)))]) ()
  | _, _ => .ok s ()

/-- Registers of a thread written with four words. -/
def writeQuad (s : State) (r : FilterReq) (v : Nat) : State := updCrew s r.crew fun c =>
  if (c.thread r.tid).any (·.live) then (match r.dst with
    | some (k, true) => { c with s := groupPut c.s k v 4 }
    | some (k, false) => c.upd r.tid fun t => { t with v := groupPut t.v k v 4 }
    | none => c) else c

/-- The work of a request: descriptor, reads, filter, re-shade bit, result. -/
def filterStep (s : State) (m : Mover) (r : FilterReq) (late : Option TrapInfo) : Part Unit :=
  (descRead s m late r.desc.toNat 64).bind fun s v =>
    let bad : Part Unit := .fault (malformed m r.desc.toNat) 5
    let look := fun (xs : List (Nat × Nat)) (va : Nat) => ((xs.find? (·.1 == va)).map (·.2)).getD 0
    if r.hgrid then match hashGridOf v with
      | none => bad
      | some g =>
        let n := g.levels * g.ch
        match steer s m.crew m.tid r.dstAddr (4 * n) with
        | .bank k none =>
          if keySpace k != 16384 + m.crew.uid then .fault (engineTrap m tcBOUNDS 5 r.dstAddr.toNat) 2
          else
            let p := (r.args.take 3).map f32Bits
            let vas := ((List.range g.levels).flatMap fun l => (List.range 8).map fun c => gridVa g p l c).eraseDups
            (sampleAll m late 8 vas s).bind fun s x =>
              (setReshade s m r late x.2).bind fun s _ =>
                let out := (List.range g.levels).flatMap fun l => (List.range g.ch).map fun c => rne fp32 (gridValue g p (look x.1) l c)
                .ok (homeWriteN s k (4 * n) (fromElems 32 (fun i => (out[i]?).getD 0) n)) ()
        | _ => .fault (engineTrap m tcBOUNDS 5 r.dstAddr.toNat) 2
    else match textureOf v with
      | none => bad
      | some t =>
        let taps := smpTaps t r.op r.args
        (sampleAll m late t.size ((taps.flatMap Taps.vas).eraseDups) s).bind fun s x =>
          (setReshade s m r late x.2).bind fun s _ =>
            let ch := fun c => if c < t.ch then rne fp32 (smpValue t (look x.1) taps c) else if c = 3 then rne fp32 (fv 1) else 0
            .ok (writeQuad s r (fromElems 32 ch 4)) ()

/-- FILTER_REQUEST (R335): a filter pipe serves a request and writes its result before the counter falls. -/
def execFilterRequest (req : Nat) (s : State) : Out :=
  match s.filters.find? (·.id == req) with
  | none => .next s
  | some r => match getCrew s r.crew with
    | none => .next s
    | some c =>
      let m : Mover := { req := req, crew := c, tid := r.tid }
      if engineHeld s req || logBlocked s c || engineStopped s c 4 then .next s
      else
        let (s0, late) : State × Option TrapInfo := match takeFault s req with
          | some (f, s1) => (s1, some f)
          | none => (s, none)
        match filterStep s0 m r late with
        | .wait s1 => .next s1
        | .ok s1 _ => .next (filterAs (endFilter s1 r) r 0)
        | .stop f side fl => .next (filterFault (keepPoison s0 fl) m r f side)

end Sys2Proof.Machine
end

