-- ==== Sys2Proof/Machine/Health.lean ====
section
/-! DEFINITION. Heat and power (R26, R294, R374, R376), errors and spares (R37, R166, R167, R371–R373), and the requests of peer devices (R35, R37, R219, R288, R292). -/

namespace Sys2Proof.Machine

/-! ### Heat (R374) -/

/-- A core is hot for Fantail from 95 °C, and cool up to 85 °C. -/
def coreHot (k : Core) : Bool := 95 ≤ k.temp
def coreCool (k : Core) : Bool := k.temp ≤ 85

/-- Issue duty-cycled at 50 %. -/
def dutyHalf (s : State) (core : Nat) : State := updCore s core fun k => { k with duty := 50, dutySince := s.cycle }

/-- CORE_HOT (R374): a core's junction sensor reads a temperature, and with it the core is hot, cool or neither; below 100 °C its duty cycle ends. (DEDUCED, log entry 126) -/
def execCoreHot (r : Reading) (s : State) : Out :=
  if r.part < 1024 then .next (updCore s r.part fun k => { k with temp := r.temp, duty := if r.temp < 100 then 100 else k.duty }) else .next s

/-- CORE_DUTY_CYCLE (R374): at 100 °C issue is duty-cycled at 50 %. -/
def execCoreDutyCycle (core : Nat) (s : State) : Out :=
  if core < 1024 && (coreOf s core).duty == 100 && 100 ≤ (coreOf s core).temp then .next (dutyHalf s core) else .next s

/-- DUTY_CYCLE_DEEPEN (R374): after 1 ms, which is 1,250,000 cycles (R16), the duty cycle drops to 25 %. -/
def execDutyCycleDeepen (core : Nat) (s : State) : Out :=
  if (coreOf s core).duty == 50 && 100 ≤ (coreOf s core).temp && (coreOf s core).dutySince + 1250000 ≤ s.cycle then
    .next (updCore s core fun k => { k with duty := 25 })
  else .next s

def updChannel (s : State) (i : Nat) (f : Channel → Channel) : State :=
  { s with hw := { s.hw with channels := mput default s.hw.channels i (f (mget default s.hw.channels i)) } }

/-- The channels of a stack at 32-bit width (R166). -/
def narrowStack (s : State) (stack : Nat) : State :=
  (List.range 32).foldl (fun s ch => updChannel s (32 * stack + ch) fun c => { c with narrow := true }) s

/-- HBM_THERMAL_NARROW (R374): a stack's sensor reads a temperature; from 95 °C its channels drop to 32-bit width. -/
def execHbmThermalNarrow (r : Reading) (s : State) : Out :=
  if 16 ≤ r.part then .next s
  else
    let s1 := { s with hw := { s.hw with stackTemp := mput 0 s.hw.stackTemp r.part r.temp } }
    .next (if 95 ≤ r.temp then narrowStack s1 r.part else s1)

/-- CHANNEL_NARROW (R166): half the bandwidth, and nothing else that a program can see. -/
def execChannelNarrow (stack ch : Nat) (s : State) : Out :=
  if stack < 16 && ch < 32 then .next (updChannel s (32 * stack + ch) fun c => { c with narrow := true }) else .next s

/-- THERMAL_TRIP (R374): at 110 °C package power is removed. -/
def execThermalTrip (temp : Nat) (s : State) : Out := if 110 ≤ temp then .next (powerUp s false) else .next s

/-! ### Fantail (R26, R294) -/

/-- Whether Fantail may move a crew off its core (R168, R294). -/
def mayLeave (s : State) (c : Crew) : Bool :=
  !c.isGen && mayTake s c && c.since + 2 ^ 22 ≤ s.cycle && coreHot (coreOf s c.coreId) && (coreOf s c.coreId).mb == 0 && (coreOf s c.coreId).change.isEmpty

/-- Whether a core may take a crew: cool, of the same die, with room for the crew, its nodes and its ray slots (R18, R245, R251, R294). -/
def mayEnter (s : State) (c : Crew) (core : Nat) : Bool :=
  core / 256 == c.die && core != c.coreId && coreCool (coreOf s core) && coreHasRoom s core c.shape && nodesFit s c core
    && coreSlots s core + (s.slots.filter (·.crew == c.uid)).length ≤ 4096

/-- FANTAIL_MIGRATION (R294, R366): the crew's pre-emption begins; when it is saved it goes to the core. -/
def execFantailMigration (crew core : Nat) (s : State) : Out :=
  match getCrew s crew with
  | none => .next s
  | some c => if mayLeave s c && mayEnter s c core then .next (beginTaking s crew (some core)) else .next s

/-- The first crew of a die that Fantail may move, and where to. (DEDUCED, log entry 127) -/
def fantailChoice (s : State) (die : Nat) : Option (Nat × Nat) :=
  (s.crews.filter fun c => c.die == die && mayLeave s c).findSome? fun c =>
    ((List.range 256).find? fun i => mayEnter s c (256 * die + i)).map fun i => (c.uid, 256 * die + i)

/-- The first stack of a die that is at its thermal limit with a channel still at full width. -/
def stackToNarrow (s : State) (die : Nat) : Option Nat :=
  ((List.range 4).map (4 * die + ·)).find? fun j =>
    95 ≤ mget 0 s.hw.stackTemp j && (List.range 32).any fun ch => !(mget default s.hw.channels (32 * j + ch)).narrow

/-- POWER_SHARE_REACHED (R26): Fantail moves a crew; else a hot core is duty-cycled; else the channels of a stack at its thermal limit go narrow. -/
def execPowerShareReached (die : Nat) (s : State) : Out :=
  if 4 ≤ die then .next s
  else match fantailChoice s die with
    | some (u, core) => .next (beginTaking s u (some core))
    | none => match s.cores.find? fun k => k.1 / 256 == die && coreHot k.2 && k.2.duty == 100 with
      | some k => .next (dutyHalf s k.1)
      | none => .next (match stackToNarrow s die with
        | some j => narrowStack s j
        | none => s)

/-- CURRENT_LIMITER (R376): results are delayed, and nothing else changes. (DEDUCED, log entry 128) -/
def execCurrentLimiter (die : Nat) (s : State) : Out :=
  if die < 4 && !s.hw.currentLimited.contains die then .next { s with hw := { s.hw with currentLimited := s.hw.currentLimited ++ [die] } }
  else .next s

/-! ### Errors (R371) -/

/-- CORRECTED_ERROR (R371): counted in Millwright's log and in TELEM. -/
def execCorrectedError (part : Nat) (s : State) : Out :=
  let s1 := { s with hw := { s.hw with corrected := mput 0 s.hw.corrected part (mget 0 s.hw.corrected part + 1) } }
  .next (s1.contexts.foldl (fun s c => flushTelemetry (telemetry s c.id 7) c.id) s1)

/-- UNCORRECTABLE_ERROR (R371): the atom that holds the data is poisoned. -/
def execUncorrectableError (key : Nat) (s : State) : Out :=
  if s.hw.poison.contains (key / 64) then .next s else .next { s with hw := { s.hw with poison := key / 64 :: s.hw.poison } }

/-! ### Spares (R37, R167, R373) -/

/-- FLOZOR_LANE_FAIL (R37, R373): the port's spare lane takes its place at the same rate. -/
def execFlozorLaneFail (port lane : Nat) (s : State) : Out :=
  if 32 ≤ port || 4 ≤ lane then .next s
  else if s.hw.laneSpares.contains port then .next (partLost s [1, port, lane])
  else .next (blowFuse { s with hw := { s.hw with laneSpares := s.hw.laneSpares ++ [port] } } (0x300 + port))

/-- CHANNEL_RETIRE_BEGIN (R167): new requests go to a spare; with none left the channel runs narrow if its fault allows, else its atoms are poisoned. (DEDUCED, log entry 129) -/
def execChannelRetireBegin (stack ch : Nat) (s : State) : Out :=
  let i := 32 * stack + ch
  let c := mget default s.hw.channels i
  let used := mget 0 s.hw.channelSpares stack
  if 16 ≤ stack || 32 ≤ ch || c.lost || c.phase == .fenced || c.phase == .copying then .next s
  else if used < 2 then
    let s1 := updChannel s i fun c => { c with phase := .fenced, present := [], fence := s.nextId, next := 0 }
    .next (blowFuse { s1 with hw := { s1.hw with channelSpares := mput 0 s1.hw.channelSpares stack (used + 1) } } (0x100 + stack))
  else if Config.freeWord s.freeIdx % 2 = 0 then
    .next { updChannel s i (fun c => { c with narrow := true }) with freeIdx := s.freeIdx + 1 }
  else .next (partLost { updChannel s i (fun c => { c with lost := true, present := [] }) with freeIdx := s.freeIdx + 1 } [2, stack, ch])

/-- Whether a request admitted before a channel's fence is still outstanding there. -/
def beforeFence (s : State) (i fence : Nat) : Bool :=
  (s.loads.any fun l => l.id < fence && l.atoms.any fun a => isHbm (64 * a) && channelOf a == i)
    || s.stores.any fun p => p.id < fence && !p.performed && p.bytes.any fun b => isHbm b.1 && channelOf (b.1 / 64) == i

/-- CHANNEL_FENCE_DRAINED (R167): waiting reads of absent atoms are served from the old channel from now on. -/
def execChannelFenceDrained (stack ch : Nat) (s : State) : Out :=
  let i := 32 * stack + ch
  let c := mget default s.hw.channels i
  if c.phase == .fenced && !beforeFence s i c.fence then .next (updChannel s i fun c => { c with phase := .copying }) else .next s

/-- The n-th atom of a channel (R166). -/
def channelAtom (stack ch n : Nat) : Nat := stack * 2 ^ 30 + n * 32 + (ch ^^^ n % 32)

/-- ATOM_COPY (R167): the next absent atom is copied and marked present, poisoned if its read is uncorrectable; with the last one present the map names the spare. -/
def execAtomCopy (stack ch atom : Nat) (uncorrectable : Bool) (s : State) : Out :=
  let i := 32 * stack + ch
  let c := mget default s.hw.channels i
  let there := fun n => c.present.contains (channelAtom stack ch n)
  let switched := fun s : State => updChannel s i fun c => { c with phase := .switched, present := [], next := 0, retired := true }
  if c.phase != .copying || atom < c.next || 2 ^ 25 < atom || !((List.range (atom - c.next)).all fun k => there (c.next + k)) then .next s
  else if atom = 2 ^ 25 then .next (switched s)
  else if there atom then .next s
  else
    let a := channelAtom stack ch atom
    let s1 := if uncorrectable && !s.hw.poison.contains a then { s with hw := { s.hw with poison := a :: s.hw.poison } } else s
    .next (if atom + 1 = 2 ^ 25 then switched s1 else updChannel s1 i fun c => { c with next := atom + 1 })

/-- Copies that a physical core holds in its own caches. -/
def dropCore (s : State) (core : Nat) : State :=
  { s with lines := s.lines.filter fun l => l.kind != .l1 core, tlb := s.tlb.filter fun e => e.core != some core }

/-- The crews that stand on a core. -/
def standOn (s : State) (core : Nat) : List Crew := s.crews.filter fun c => c.where_ == .resident && c.coreId == core

/-- The crews that a core's replacement waits for are taken off it, each to go to a core; one that a trap is taking off goes by itself. -/
def takeAll (s : State) (core : Nat) (dest : Crew → Nat) : State :=
  ((standOn s core).filter (mayTake s)).foldl (fun s c => beginTaking s c.uid (some (dest c))) s

/-- The spare takes the logical index, with the slice's contents, and the crews that were taken off are restored there (R15, R373). -/
def spareTakes (s : State) (core : Nat) : State :=
  let die := core / 256
  let back := (s.crews.filter fun c => c.where_ == .away && c.coreId == core && c.taking.any (·.dest == some core)).map (·.uid)
  let s1 := updCore (dropCore s core) core fun k => { k with temp := 0, duty := 100, dutySince := 0, spareUsed := true, waySpares := 1, waysLost := 0 }
  let s2 := { s1 with
    hw := { s1.hw with coreSpares := mput 0 s1.hw.coreSpares die (mget 0 s1.hw.coreSpares die + 1) }
    crews := s1.crews.map fun c => if c.taking.any (·.dest == some core) && c.coreId == core then { c with taking := none } else c }
  back.foldl (fun s u => if (getCrew s u).any fun c => c.halt.isNone && !ctxOff s c.ctx then bringBack s u core else s) (blowFuse s2 (0x400 + die))

/-- SPARE_CORE_REPLACE (R15, R366, R373): the core's crews are pre-empted, and when none stands on it the spare takes its place. With no spare left the core is retired, and its crews go to others of its die; one with bin scratch stays until that is given up. -/
def execSpareCoreReplace (core : Nat) (s : State) : Out :=
  let die := core / 256
  if 1024 ≤ core || (coreOf s core).retired then .next s
  else if mget 0 s.hw.coreSpares die < 8 then
    if s.crews.any fun c => c.coreId == core && c.taking.isSome && c.where_ == .away && imageHeld s c then .next s
    else if (standOn s core).isEmpty then .next (spareTakes s core) else .next (takeAll s core fun c => c.coreId)
  else if (coreOf s core).mb != 0 then .next s
  else
    let s1 := updCore (dropCore s core) core fun k => { k with retired := true }
    let dest := fun c : Crew => (((List.range 256).map (256 * die + ·)).find? fun k => k != core && coreTakes s1 c k).getD (256 * die + (core + 1) % 256)
    .next (takeAll (partLost s1 [3, core]) core dest)

/-- DRAM_ROW_REMAP (R373): 64 spare rows per bank. -/
def execDramRowRemap (stack bank row : Nat) (s : State) : Out :=
  let k := stack * 2 ^ 20 + bank
  let used := mget 0 s.hw.rowSpares k
  if 16 ≤ stack || 2 ^ 20 ≤ bank then .next s
  else if used < 64 then .next (blowFuse { s with hw := { s.hw with rowSpares := mput 0 s.hw.rowSpares k (used + 1) } } (0x500 + stack))
  else .next (partLost s [4, stack, bank, row])

/-- RAY_PIPE_SPARE (R373): 2 spare pipes per base die; one takes the place of a failing pipe at the next treelet exit of the pipe's ray. -/
def execRayPipeSpare (stack pipe : Nat) (s : State) : Out :=
  if 16 ≤ stack || 64 ≤ pipe || s.hw.pipesLost.contains (stack, pipe) || s.hw.pipesDue.contains (stack, pipe) then .next s
  else if inPipe s stack pipe then .next { s with hw := { s.hw with pipesDue := s.hw.pipesDue ++ [(stack, pipe)] } }
  else .next (replacePipe s stack pipe)

/-- BINFLOOR_WAY_SPARE (R373): one spare way per slice. -/
def execBinfloorWaySpare (core way : Nat) (s : State) : Out :=
  if 1024 ≤ core || 16 ≤ way then .next s
  else if 0 < (coreOf s core).waySpares then .next (blowFuse (updCore s core fun k => { k with waySpares := k.waySpares - 1 }) (0x700 + core / 256))
  else .next (partLost (updCore s core fun k => { k with waysLost := k.waysLost + 1 }) [7, core, way])

/-! ### Lost messages (R37) -/

/-- Words that a lost reply leaves: the rules give no value beside the status. -/
def freeWords (s : State) (n : Nat) : Nat × State :=
  (fromElems 64 (fun i => Config.freeWord (s.freeIdx + i) % 2 ^ 64) n, { s with freeIdx := s.freeIdx + n })

/-- A filter request lost (R37): it ends with status LOST, and the data that it would have written are free. -/
def loseFilter (s : State) (r : FilterReq) : State := match getCrew s r.crew with
  | none => s
  | some c =>
    let lost := fun s : State => filterAs (endFilter s r) r 1
    if !r.hgrid then
      let (v, s1) := freeWords s 2
      lost (writeQuad s1 r v)
    else
      let n := (((devNum s c.ctx r.desc.toNat 64).bind hashGridOf).map fun g => g.levels * g.ch).getD 0
      match steer s c r.tid r.dstAddr (4 * n) with
      | .bank k none =>
        let (v, s1) := freeWords s ((n + 1) / 2)
        lost (if keySpace k = 16384 + c.uid then homeWriteN s1 k (4 * n) v else s1)
      | _ => lost s

/-- FLOZOR_MESSAGE_DROP (R37, R372): the message is dropped and counted, and the requester learns of the loss. (DEDUCED, log entry 131) -/
def execFlozorMessageDrop (m : LostMessage) (s : State) : Out :=
  let s1 := { s with hw := { s.hw with dropped := s.hw.dropped + 1 } }
  match m with
  | .load id => match s.loads.find? fun l => l.id == id && l.peer with
    | none => .next s
    | some l =>
      let zero := fun ws : List (Nat × Word) => ws.map fun w => (w.1, (0 : Word))
      .next (setPoison { s1 with loads := s1.loads.map fun q => if q.id = id then
        { q with vdst := zero q.vdst, sdst := zero q.sdst, poison := some q.addr } else q } l.crew)
  | .ray id => execRayMessageLost id s
  | .filter id => match s.filters.find? (·.id == id) with
    | none => .next s
    | some r => .next (loseFilter s1 r)
  | .coll id => match s.colls.find? fun r => r.id == id && r.matched.isSome with
    | none => .next s
    | some r => match getCrew s r.crew with
      | none => .next s
      | some c => .next (endColl (putStatus s1 { req := id, crew := c, tid := r.tid } (r.desc.toNat + 40) 3) r)

/-! ### Requests of peers (R35, R219) -/

/-- Whether this device serves an access of a peer to some bytes of its HBM now: full function, a stack in service, and no fence and no change of a slice to wait for (R167, R168). -/
def peerServed (s : State) (pa width : Nat) (load : Bool) : Bool :=
  s.bar.bootStage == 3 && pa + width ≤ 2 ^ 40 && s.hw.trained.contains (homeStack (hbmKey pa)) && (sliceWait s [(hbmKey pa, width)]).isNone
    && !(load && (List.range (width / 64 + 2)).any fun i => channelWaits s s.nextId (place s (64 * (hbmKey pa / 64 + i)) / 64) && 64 * (pa / 64 + i) < pa + width)

/-- Whether a request of this device waits at a ring whose descriptor lies at a key. -/
def ringQueue (s : State) (k : Nat) (isPush : Bool) : Bool :=
  s.rings.any fun r => r.waiting && r.op.isPush == isPush && r.home == place s k

/-- A peer's push (R287, R288): the reply is 1 when the entry was taken. -/
def peerPush (s : State) (ctx k : Nat) (weir waits : Bool) (entry : Nat) : State :=
  let v := homeRead s k 64
  let g := ringOf v
  if ringBad v (if weir then 2 else 1) then report s 12 [3]
  else if g.ended then report s 12 [0]
  else if g.used == g.slots || ringQueue s k true then (if waits then s else report s 12 [0])
  else if devHeld s ctx (g.entryVa g.tail) 32 true then s
  else match devWrite s ctx (g.entryVa g.tail) ((byteList 0 entry 32).map (·.2)) with
    | none => report s 12 [3]
    | some s1 =>
      let s2 := homeWriteN s1 (k + 24) 8 ((g.tail + 1) % 2 ^ 64)
      report (if bitAt entry 1 then homeWriteN s2 (k + 13) 1 1 else s2) 12 [1]

/-- A peer's pop: the reply is 1 and the entry. -/
def peerPop (s : State) (ctx k : Nat) (weir waits : Bool) : State :=
  let v := homeRead s k 64
  let g := ringOf v
  if ringBad v (if weir then 2 else 1) then report s 12 [3]
  else if g.used == 0 || ringQueue s k false then (if waits then s else report s 12 [0])
  else if devHeld s ctx (g.entryVa g.head) 32 then s
  else match devNum s ctx (g.entryVa g.head) 32 with
    | none => report s 12 [3]
    | some e => report (if bitAt e 1 then s else homeWriteN s (k + 16) 8 ((g.head + 1) % 2 ^ 64)) 12 [1, e]

/-- FLOZOR_PEER_REQUEST (R219): performed at the home slice, which follows moved bits and channel fences; the reply leaves in the outbox. (DEDUCED, log entry 132; DESIGN CHOICE, log entry 136) -/
def execFlozorPeerRequest (r : PeerRequest) (s : State) : Out :=
  match r with
  | .load pa width =>
    if !peerServed s pa width true then .next s
    else
      let ks := (List.range width).map (hbmKey pa + ·)
      .next (report s 11 [bytesVal (ks.map fun k => if poisonedAt s k then 0 else homeByte s k), (ks.any (poisonedAt s)).toNat])
  | .store pa width v =>
    if !peerServed s pa width false then .next s else .next (homeWrite s none (byteList (hbmKey pa) v width))
  | .atomic pa w64 signed op b c =>
    let w := if w64 then 8 else 4
    if !peerServed s pa w true || pa % w != 0 then .next s
    else if poisonedAt s (hbmKey pa) then .next (report s 11 [0, 1])
    else
      let old := homeRead s (hbmKey pa) w
      let s1 := if atomWrites op old b then homeWriteN s (hbmKey pa) w (atomFn op w signed old b c) else s
      .next (report s1 11 [old, 0])
  | .push ctx desc weir waits entry => if !peerServed s desc 64 true || desc % 64 != 0 then .next s else .next (peerPush s ctx (hbmKey desc) weir waits entry)
  | .pop ctx desc weir waits => if !peerServed s desc 64 true || desc % 64 != 0 then .next s else .next (peerPop s ctx (hbmKey desc) weir waits)
  | .collFault id => match s.colls.find? (·.id == id) with
    | none => .next s
    | some q => match getCrew s q.crew with
      | none => .next s
      | some c => .next (endColl (putStatus s { req := id, crew := c, tid := q.tid } (q.desc.toNat + 40) 4) q)

end Sys2Proof.Machine
end

