-- ==== Sys2Proof/Machine/Integer.lean ====
section
/-! DEFINITION. The meanings of the integer, logic, predicate and address instructions (R131–R143). -/

namespace Sys2Proof.Machine

/-- The element-wise integer instruction of R131 with exact operation `op`. -/
def intElementwise (a : Args) (op : Int → Int → Int) (c : Crew) (t : Thread) : List Wr :=
  let k := intMods a.m.toNat
  let x := rd c t a.a k.regs
  let y := srcB c t a k
  let out := fromElems k.w (fun e =>
    let r := op (asInt k.signed k.w (elem k.w x e)) (asInt k.signed k.w (elem k.w y e))
    lowBits (if k.sat then clampInt k.signed k.w r else r) k.w) k.n
  [.reg a.d k.regs out]

/-- What `iadd` writes (R133). -/
def wrIadd (a : Args) (c : Crew) (t : Thread) : List Wr := intElementwise a (· + ·) c t

/-- `iadd` (R133). -/
def execIadd (a : Args) (s : State) : Out := regInstr a s (wrIadd a)

/-- What `isub` writes (R133). -/
def wrIsub (a : Args) (c : Crew) (t : Thread) : List Wr := intElementwise a (· - ·) c t

/-- `isub` (R133). -/
def execIsub (a : Args) (s : State) : Out := regInstr a s (wrIsub a)

/-- The exact product of two 32- or 64-bit operands under a signedness. -/
def intProduct (k : IntMods) (x y : Nat) : Int := asInt k.signed k.w x * asInt k.signed k.w y

/-- What `imul` writes (R134): low, high or wide product. -/
def wrImul (a : Args) (c : Crew) (t : Thread) : List Wr :=
  let k := intMods a.m.toNat
  if k.sub = 0 then intElementwise a (· * ·) c t
  else
    let p := intProduct k (rd c t a.a k.regs) (srcB c t a k)
    if k.sub = 1 then [.reg a.d k.regs (lowBits (p / 2 ^ k.w) k.w)]
    else [.reg a.d 2 (lowBits p 64)]

/-- `imul` (R134). -/
def execImul (a : Args) (s : State) : Out := regInstr a s (wrImul a)

/-- What `imad` writes (R134): low or wide multiply-add. -/
def wrImad (a : Args) (c : Crew) (t : Thread) : List Wr :=
  let k := intMods a.m.toNat
  let x := rd c t a.a k.regs
  let y := rd c t a.b k.regs
  if k.sub = 2 then
    [.reg a.d 2 (lowBits (intProduct k x y + asInt k.signed 64 (rd c t a.c 2)) 64)]
  else
    let z := rd c t a.c k.regs
    [.reg a.d k.regs (fromElems k.w (fun e =>
      lowBits (asInt k.signed k.w (elem k.w x e) * asInt k.signed k.w (elem k.w y e) + asInt k.signed k.w (elem k.w z e)) k.w) k.n)]

/-- `imad` (R134). -/
def execImad (a : Args) (s : State) : Out := regInstr a s (wrImad a)

/-- What `iminmax` writes (R135). -/
def wrIminmax (a : Args) (c : Crew) (t : Thread) : List Wr :=
  intElementwise a (if (intMods a.m.toNat).sub = 0 then min else max) c t

/-- `iminmax` (R135). -/
def execIminmax (a : Args) (s : State) : Out := regInstr a s (wrIminmax a)

/-- What `iabsneg` writes (R135): A is read signed; the most negative element is unchanged, or the largest under `.sat`. -/
def wrIabsneg (a : Args) (c : Crew) (t : Thread) : List Wr :=
  let k := intMods a.m.toNat
  let x := rd c t a.a k.regs
  [.reg a.d k.regs (fromElems k.w (fun e =>
    let v := signExt (elem k.w x e) k.w
    let r := if k.sub = 0 then (if v < 0 then -v else v) else -v
    lowBits (if k.sat then clampInt true k.w r else r) k.w) k.n)]

/-- `iabsneg` (R135). -/
def execIabsneg (a : Args) (s : State) : Out := regInstr a s (wrIabsneg a)

/-- The bitwise operation of a `logic` sub-op at a width of `n` bits (R136). -/
def logicOp (sub n x y : Nat) : Nat :=
  let ones := 2 ^ n - 1
  match sub with
  | 0 => x &&& y
  | 1 => x ||| y
  | 2 => x ^^^ y
  | 3 => x &&& (ones - y)
  | 4 => x ||| (ones - y)
  | _ => ones - x

/-- What `logic` writes (R136): the packed widths act as `.w32` on the register's bits. -/
def wrLogic (a : Args) (c : Crew) (t : Thread) : List Wr :=
  let k := intMods a.m.toNat
  let n := 32 * k.regs
  [.reg a.d k.regs (logicOp k.sub n (rd c t a.a k.regs) (srcB c t a k % 2 ^ n))]

/-- `logic` (R136). -/
def execLogic (a : Args) (s : State) : Out := regInstr a s (wrLogic a)

/-- One element of `shift` (R136). -/
def shiftElem (k : IntMods) (x n : Nat) : Nat :=
  let w := k.w
  match k.sub with
  | 0 =>
    if k.sat then
      let v := asInt k.signed w x
      if n < w then lowBits (clampInt k.signed w (v * 2 ^ n)) w
      else if v = 0 then 0
      else lowBits (clampInt k.signed w (v * 2 ^ w)) w
    else if n < w then x * 2 ^ n % 2 ^ w
    else 0
  | 1 => if n < w then x / 2 ^ n else 0
  | 2 => lowBits (signExt x w / 2 ^ (min n w)) w
  | _ =>
    let r := n % w
    (x * 2 ^ r + x / 2 ^ (w - r)) % 2 ^ w

/-- What `shift` writes (R136). -/
def wrShift (a : Args) (c : Crew) (t : Thread) : List Wr :=
  let k := intMods a.m.toNat
  let x := rd c t a.a k.regs
  let y := srcB c t a k
  [.reg a.d k.regs (fromElems k.w (fun e => shiftElem k (elem k.w x e) (elem k.w y e)) k.n)]

/-- `shift` (R136). -/
def execShift (a : Args) (s : State) : Out := regInstr a s (wrShift a)

/-- A bit field of `x` at `pos` of `len` bits, bits at or above the width reading 0 (R137). -/
def fieldAt (w x pos len : Nat) : Nat := x % 2 ^ w / 2 ^ pos % 2 ^ len

/-- What `bfx` writes (R137). -/
def wrBfx (a : Args) (c : Crew) (t : Thread) : List Wr :=
  let k := intMods a.m.toNat
  let x := rd c t a.a k.regs
  let b := match a.imm with
    | some v => v.toNat
    | none => rd c t a.b 1
  let len := min (bitsOf b 15 8) k.w
  let f := fieldAt k.w x (bitsOf b 7 0) len
  [.reg a.d k.regs (if len = 0 then 0 else if k.signed then lowBits (signExt f len) k.w else f)]

/-- `bfx` (R137). -/
def execBfx (a : Args) (s : State) : Out := regInstr a s (wrBfx a)

/-- `x` with `len` bits at `pos` replaced by the low bits of `y`, inside `w` bits (R137). -/
def insertField (w x y pos len : Nat) : Nat :=
  let n := min len (w - pos)
  let mask := (2 ^ n - 1) * 2 ^ pos
  (x &&& (2 ^ w - 1 - mask)) ||| (y % 2 ^ n * 2 ^ pos)

/-- What `bfi` writes (R137). -/
def wrBfi (a : Args) (c : Crew) (t : Thread) : List Wr :=
  let k := intMods a.m.toNat
  let f := rd c t a.c 1
  let pos := bitsOf f 7 0
  let len := min (bitsOf f 15 8) k.w
  let x := rd c t a.a k.regs
  [.reg a.d k.regs (if k.w ≤ pos then x else insertField k.w x (rd c t a.b k.regs) pos len)]

/-- `bfi` (R137). -/
def execBfi (a : Args) (s : State) : Out := regInstr a s (wrBfi a)

/-- Number of 1 bits of a `w`-bit value. -/
def popCount (w x : Nat) : Nat := ((List.range w).filter x.testBit).length

/-- Bits of a `w`-bit value in reverse order. -/
def bitReverse (w x : Nat) : Nat := (List.range w).foldl (fun acc i => 2 * acc + (x.testBit i).toNat) 0

/-- Number of trailing zeros of a `w`-bit value. -/
def trailingZeros (w x : Nat) : Nat := ((List.range w).takeWhile fun i => !x.testBit i).length

/-- What `bitc` writes (R138). -/
def wrBitc (a : Args) (c : Crew) (t : Thread) : List Wr :=
  let k := intMods a.m.toNat
  let x := rd c t a.a k.regs
  match k.sub with
  | 0 => [.reg a.d 1 (popCount k.w x)]
  | 1 => [.reg a.d 1 (k.w - (if x = 0 then 0 else Nat.log2 x + 1))]
  | 2 => [.reg a.d 1 (trailingZeros k.w x)]
  | _ => [.reg a.d k.regs (bitReverse k.w x)]

/-- `bitc` (R138). -/
def execBitc (a : Args) (s : State) : Out := regInstr a s (wrBitc a)

/-- What `icmp` writes (R139). -/
def wrIcmp (a : Args) (c : Crew) (t : Thread) : List Wr :=
  let k := intMods a.m.toNat
  [.pred a.d (intCond k.sub (asInt k.signed k.w (rd c t a.a k.regs)) (asInt k.signed k.w (srcB c t a k)))]

/-- `icmp` (R139). -/
def execIcmp (a : Args) (s : State) : Out := regInstr a s (wrIcmp a)

/-- What `sel` writes (R139). -/
def wrSel (a : Args) (c : Crew) (t : Thread) : List Wr :=
  let k := intMods a.m.toNat
  [.reg a.d k.regs (if rp t (numOf a.c) then rd c t a.a k.regs else rd c t a.b k.regs)]

/-- `sel` (R139). -/
def execSel (a : Args) (s : State) : Out := regInstr a s (wrSel a)

/-- What `plog` writes (R139). -/
def wrPlog (a : Args) (_ : Crew) (t : Thread) : List Wr :=
  let sub := bitsOf a.m.toNat 7 5
  [.pred a.d (predOp sub (rp t (numOf a.a)) (rp t (numOf a.b)))]

/-- `plog` (R139). -/
def execPlog (a : Args) (s : State) : Out := regInstr a s (wrPlog a)

/-- What `mov` writes (R140). -/
def wrMov (a : Args) (c : Crew) (t : Thread) : List Wr :=
  let k := intMods a.m.toNat
  [.reg a.d k.regs (match a.imm with
    | some v => ibVal k v.toNat
    | none => rd c t a.a k.regs)]

/-- `mov` (R140). -/
def execMov (a : Args) (s : State) : Out := regInstr a s (wrMov a)

/-- What `movi` writes (R140): an immediate placed into part of D. -/
def wrMovi (a : Args) (c : Crew) (t : Thread) : List Wr :=
  let k := intMods a.m.toNat
  let v := Args.immN a
  let old := rd c t a.d k.regs
  match k.sub with
  | 0 => [.reg a.d k.regs v]
  | 1 => [.reg a.d 2 (bitsOf old 26 0 + v * 2 ^ 27 + bitsOf old 63 54 * 2 ^ 54)]
  | _ =>
    if k.regs = 2 then [.reg a.d 2 (bitsOf old 53 0 + bitsOf v 9 0 * 2 ^ 54)]
    else [.reg a.d 1 (bitsOf old 26 0 + bitsOf v 4 0 * 2 ^ 27)]

/-- `movi` (R140). -/
def execMovi (a : Args) (s : State) : Out := regInstr a s (wrMovi a)

/-- What `lea` writes (R141): a scaled 64-bit address, unchecked. -/
def wrLea (a : Args) (c : Crew) (t : Thread) : List Wr :=
  let k := intMods a.m.toNat
  let sc := bitsOf a.m.toNat 7 5
  let base : Int := (rd c t a.a 2 : Nat)
  let off : Int := match a.imm with
    | some _ => Args.immS a * 2 ^ sc
    | none => asInt k.signed k.w (rd c t a.b k.regs) * 2 ^ sc + Args.xs a
  [.reg a.d 2 (lowBits (base + off) 64)]

/-- `lea` (R141). -/
def execLea (a : Args) (s : State) : Out := regInstr a s (wrLea a)

/-- What `perm` writes (R142): four bytes chosen by nibbles of a selector. -/
def wrPerm (a : Args) (c : Crew) (t : Thread) : List Wr :=
  let (src, sel) := match a.imm with
    | some v => (rd c t a.a 2, v.toNat)
    | none => (rd c t a.a 1 + 2 ^ 32 * rd c t a.b 1, rd c t a.c 1)
  [.reg a.d 1 (fromElems 8 (fun i =>
    let nib := elem 4 sel i
    if nib.testBit 3 then 0 else elem 8 src (nib % 8)) 4)]

/-- `perm` (R142). -/
def execPerm (a : Args) (s : State) : Out := regInstr a s (wrPerm a)

/-- Quotient toward zero and remainder with the sign of the dividend, with the borderline cases of R143. -/
def divRem (k : IntMods) (x y : Nat) : Int × Int :=
  let a := asInt k.signed k.w x
  let b := asInt k.signed k.w y
  if b = 0 then (-1, a)
  else
    let q := Int.tdiv a b
    (if k.sat && decide (q = 2 ^ (k.w - 1)) && k.signed then q - 1 else q, Int.tmod a b)

/-- What `idiv` writes (R143). -/
def wrIdiv (a : Args) (c : Crew) (t : Thread) : List Wr :=
  let k := intMods a.m.toNat
  let (q, r) := divRem k (rd c t a.a k.regs) (srcB c t a k)
  match k.sub with
  | 0 => [.reg a.d k.regs (lowBits q k.w)]
  | 1 => [.reg a.d k.regs (lowBits r k.w)]
  | _ => [.reg a.d (2 * k.regs) (lowBits q k.w + 2 ^ k.w * lowBits r k.w)]

/-- `idiv` (R143). -/
def execIdiv (a : Args) (s : State) : Out := regInstr a s (wrIdiv a)

end Sys2Proof.Machine
end

