-- ==== Sys2Proof/Machine/Paired.lean ====
section
/-! DEFINITION. The meaning of a paired word (R61–R65): two half-ops, each the full-form instruction it is written as, both reading before either writes. -/

namespace Sys2Proof.Machine

/-- The immediate that K stands for, as the imm27 of the full form (R65). -/
def halfImm (kind : HalfK) (k : Nat) : BitVec 27 :=
  match kind with
  | .signed => BitVec.ofInt 27 (signExt k 8)
  | .e4m3 => BitVec.ofNat 27 (rne fp32 (fpE4M3.dec k) / 2 ^ 5)
  | _ => BitVec.ofNat 27 k

/-- The full-form fields of a half: A equal to D and B equal to S, or the immediate (R65). -/
def halfArgs (g : Guard) (r : HalfRow) (h : Half) : Args :=
  let m := BitVec.ofNat 8 r.m
  let x := BitVec.ofNat 11 r.x
  match r.form with
  | .nop => { guard := g, m := m, d := .none, a := .none, b := .none, c := .none, x := x, imm := none }
  | .dds => { guard := g, m := m, d := h.d, a := h.d, b := h.s, c := .none, x := x, imm := none }
  | .ddk => { guard := g, m := m, d := h.d, a := h.d, b := .none, c := .none, x := x, imm := some (halfImm r.k h.k.toNat) }
  | .ds => { guard := g, m := m, d := h.d, a := h.s, b := .none, c := .none, x := x, imm := none }
  | .dk => { guard := g, m := m, d := h.d, a := .none, b := .none, c := .none, x := x, imm := some (halfImm r.k h.k.toNat) }
  | .sel => { guard := g, m := m, d := h.d, a := h.s, b := h.d, c := Opnd.ofCode (h.k.toNat % 8), x := x, imm := none }

/-- What a half-op writes for a thread: that of the full form it is written as. -/
def halfWrites (op : Op) (a : Args) (c : Crew) (t : Thread) : List Wr :=
  match op with
  | .iadd => wrIadd a c t
  | .isub => wrIsub a c t
  | .imul => wrImul a c t
  | .iminmax => wrIminmax a c t
  | .logic => wrLogic a c t
  | .shift => wrShift a c t
  | .mov => wrMov a c t
  | .iabsneg => wrIabsneg a c t
  | .fadd => wrFadd a c t
  | .fsub => wrFsub a c t
  | .fmul => wrFmul a c t
  | .fminmax => wrFminmax a c t
  | .fabsneg => wrFabsneg a c t
  | .fldexp => wrFldexp a c t
  | .cvt => wrCvt a c t
  | .sel => wrSel a c t
  | .bitc => wrBitc a c t
  | _ => []

/-- The writes of one half. -/
def wrHalf (g : Guard) (h : Half) (c : Crew) (t : Thread) : List Wr :=
  match halfRow h.op.toNat with
  | some r => halfWrites r.op (halfArgs g r h) c t
  | none => []

/-- The guard of a paired word: p0 for both halves, or none (R61). -/
def pairGuard (p : Bool) : Guard := { p := if p then 0 else 7, neg := false }

/-- A paired word (R64). -/
def execPairedWord (p : Bool) (h0 h1 : Half) (s : State) : Out :=
  gangDo (pairGuard p) s fun e =>
    let ws := e.act.flatMap fun t =>
      ((wrHalf (pairGuard p) h0 e.c t) ++ (wrHalf (pairGuard p) h1 e.c t)).map fun w => (t.tid, w)
    .next (retire e.is (updCrew e.s e.is.crew fun c => applyWrs c ws))

end Sys2Proof.Machine
end

