-- ==== Sys2Proof/Machine/Place.lean ====
section
/-! DEFINITION. A machine made ready to run one word: a context, a run and a crew of one thread whose PC names the word, with its translation cached and its issue scheduled. It stands for what a launch leaves (R277–R280). -/

namespace Sys2Proof.Machine

/-- Where the word stands. -/
def placeVa : Nat := 0x10000

/-- The context that runs it: the aperture values of R155. -/
def placeContext : Context :=
  { id := 0, aperScr := 0xFF00000001000001, aperSpan := 0xFE00000001000001, aperStk := 0xFD00000001000001 }

/-- Its one thread. -/
def placeThread (pc : Word64) : Thread := { tid := 0, pc := pc, bound := some 0 }

/-- Its crew, on core 0 of die 0. -/
def placeCrew : Crew :=
  { uid := 0, kind := .seed, run := some 0, gw := 32, regs := 192, regsCopy := 192, regsEpi := 192, scratch := 4096, tiles := 4,
    threads := [placeThread (BitVec.ofNat 64 placeVa)] }

/-- The launch its run stands for. -/
def placeRun : Run :=
  { id := 0, ctx := 0, queue := none, cmd := 0, prio := 0, launch := { (default : Launch) with entry := BitVec.ofNat 64 placeVa },
    state := .running, counter := 1, dies := [0] }

/-- The leaf that maps the word's page. -/
def placeLeaf : Leaf :=
  { tier := 0, rn := false, node := 0, compressed := false, proc := false, read := true, write := true, exec := true, busy := false, pa := 0 }

/-- The machine with the word and zeros after it where the crew fetches. (DESIGN CHOICE, log entry 5) -/
def placeWord (s : State) (w : Nat) : State :=
  { s with
    mem := memWrite s.mem (hbmKey placeVa) 8 w
    contexts := [placeContext], runs := [placeRun], crews := [placeCrew]
    tlb := [{ ctx := 0, die := 0, core := some 0, va := 0, log2 := 21, leaf := placeLeaf }]
    agenda := [{ cycles := 1, core := 0 }], issue := none
    hw := { s.hw with powered := true } }

end Sys2Proof.Machine
end

