-- ==== Sys2Proof/Machine/Vis.lean ====
section
/-! DEFINITION. Primary visibility (R337, R338, R346): the pass's descriptor, its binning, and the test of a tile's pixels with minkey at the visibility buffer. -/

namespace Sys2Proof.Machine

/-- `vis` (R346). -/
def execVis (a : Args) (s : State) : Out :=
  gangDo a.guard s fun e =>
    issueGate e (fun t => misaligned (((arwOf e.c t a.d).map fun w => (w, 16)).toList ++ [(rd e.c t a.a 2, 128)]))
      (fun t => (arwOf e.c t a.d).bind (arwFail e.s e.c t.tid)) <|
      let send := fun (s : State) (t : Thread) =>
        let r : VisReq := {
          id := s.nextId, crew := e.is.crew, tid := t.tid, pc := e.is.pc, desc := BitVec.ofNat 64 (rd e.c t a.a 2)
          arw := (arwOf e.c t a.d).map (BitVec.ofNat 64), stack := nearStack e.c }
        countUp { s with vis := s.vis ++ [r], nextId := s.nextId + 1 } e.is.crew t.tid fun k => { k with rays := k.rays + 1 }
      .next (retire e.is (e.act.foldl send e.s))

/-! ### The descriptor -/

/-- A `vis` descriptor. -/
structure VisPass where
  tris : Nat
  blocks : Nat
  buf : Nat
  w : Nat
  h : Nat
  /-- pixels along a side of a tile -/
  tile : Nat
  cullB : Bool
  cullF : Bool
  o : V3 FV
  f : V3 FV
  rx : V3 FV
  ry : V3 FV
  tmin : FV
  tmax : FV

def visPass (v : Nat) : VisPass := {
  tris := partOf v 0 8, blocks := partOf v 8 4, buf := partOf v 16 8, w := partOf v 24 2, h := partOf v 26 2, tile := 8 * 2 ^ partOf v 28 1
  cullB := bitAt (partOf v 29 1) 0, cullF := bitAt (partOf v 29 1) 1
  o := v3At false v 32 0, f := v3At false v 32 3, rx := v3At false v 32 6, ry := v3At false v 32 9
  tmin := valAt false v 80 0, tmax := valAt false v 80 1 }

/-- Whether a descriptor breaks its layout. -/
def visBad (v : Nat) : Bool :=
  partOf v 8 4 == 0 || 2 ^ 24 < partOf v 8 4 || partOf v 12 4 != 0 || partOf v 24 2 == 0 || 32768 < partOf v 24 2 || partOf v 26 2 == 0
    || 32768 < partOf v 26 2 || 2 < partOf v 28 1 || 4 ≤ partOf v 29 1 || partOf v 30 2 != 0 || partOf v 88 40 != 0

/-- Tiles along a side of so many pixels. -/
def VisPass.across (p : VisPass) (n : Nat) : Nat := (n + p.tile - 1) / p.tile

/-- The pixels of a tile, row by row. -/
def VisPass.pixels (p : VisPass) (t : Nat) : List (Nat × Nat) :=
  let x0 := t % p.across p.w * p.tile
  let y0 := t / p.across p.w * p.tile
  (List.range p.tile).flatMap fun j => (List.range p.tile).filterMap fun i =>
    if x0 + i < p.w && y0 + j < p.h then some (x0 + i, y0 + j) else none

/-- Direction to a pixel, in the order written. -/
def VisPass.dir (p : VisPass) (x y : Nat) : V3 FV :=
  let half := fun n : Nat => f32.add (fv n) (FV.fin false 1 (-1))
  vAdd f32 (vAdd f32 p.f (vScale f32 (half x) p.rx)) (vScale f32 (half y) p.ry)

/-! ### Reads -/

/-- A read of a pass through the node caches of its stack; poisoned bytes are zero and set the flag. -/
def visRead (s : State) (m : Mover) (r : VisReq) (late : Option TrapInfo) (side va len : Nat) : Part (Nat × Bool) :=
  (quernReach s m { load := true } late side [(va, len)]).bind fun s1 runs =>
    let (s2, bs, bad) := cachedRead (fun _ => .node r.stack) m.crew.ctx s1 runs
    .ok (if bad then setPoison s2 m.crew.uid else s2) (bytesVal bs, bad)

/-- A leaf block of the array: a poisoned one is empty (R372). -/
def visBlock (s : State) (m : Mover) (r : VisReq) (late : Option TrapInfo) (p : VisPass) (b : Nat) : Part Nat :=
  let va := p.tris + 256 * b
  (visRead s m r late 1 va 256).bind fun s x =>
    if x.2 then .ok s 0 else if trisBad false x.1 then .fault (malformed m va) 1 else .ok s x.1

/-! ### A tile -/

/-- Whether a hit of a triangle counts, by its micro-map: an offset within the 2 MiB page that holds the block. (DESIGN CHOICE, log entry 120) -/
def visOpaque (s : State) (m : Mover) (r : VisReq) (late : Option TrapInfo) (va omm : Nat) (u v : FV) : Part Bool :=
  if omm = 0 then .ok s true
  else
    let page := va / 2 ^ 21 * 2 ^ 21
    if 2 ^ 21 < omm + 8 then .fault (malformed m (page + omm)) 1
    else (visRead s m r late 1 (page + omm) 8).bind fun s x =>
      let n := x.1
      if 6 < n || 2 ^ 21 < omm + 8 + (4 ^ n + 3) / 4 then .fault (malformed m (page + omm)) 1
      else
        let sub := subTriangle n u v
        (visRead s m r late 1 (page + omm + 8 + sub / 4) 1).bind fun s y => .ok s (bitAt y.1 (2 * (sub % 4)))

/-- A key: t as FP32 above PRIM. -/
abbrev VisKey := Nat

/-- The key of one triangle of a block at a pixel, if its ray hits it. -/
def visTri (s : State) (m : Mover) (r : VisReq) (late : Option TrapInfo) (p : VisPass) (b v k x y : Nat) : Part (Option VisKey) :=
  let q := (blockLayout false).2.2
  if !bitAt (partOf v (q + 32 + k) 1) 0 then .ok s none
  else
    let (verts, ix) := blockTri false v k
    let h := triTest false p.o (p.dir x y) verts ix
    let front := (fv 0).lt h.s
    if !h.hit || (front && p.cullF) || (!front && p.cullB) || !(p.tmin.le h.t && h.t.le p.tmax) then .ok s none
    else (visOpaque s m r late (p.tris + 256 * b) (partOf v (q + 16 + 4 * k) 4) h.u h.v).bind fun s ok =>
      .ok s (if ok then some (rne fp32 h.t * 2 ^ 32 + partOf v (q + 4 * k) 4) else none)

/-- The keys of some triangles at some pixels, each with the pixel. -/
def visKeys (m : Mover) (r : VisReq) (late : Option TrapInfo) (p : VisPass) :
    List (Nat × Nat × Nat × Nat × Nat) → State → Part (List (Nat × Nat × VisKey))
  | [], s => .ok s []
  | (b, v, k, x, y) :: rest, s => (visTri s m r late p b v k x y).bind fun s h =>
    (visKeys m r late p rest s).bind fun s more => .ok s ((h.map fun key => (x, y, key)).toList ++ more)

/-- The blocks of triangles binned, read: each triangle with the bytes of its block. -/
def visBlocks (m : Mover) (r : VisReq) (late : Option TrapInfo) (p : VisPass) : List Nat → State → Part (List (Nat × Nat))
  | [], s => .ok s []
  | t :: ts, s => (visBlock s m r late p (t / 4)).bind fun s v => (visBlocks m r late p ts s).bind fun s more => .ok s ((t, v) :: more)

/-- `atom.minkey` of a word of the buffer at its home (R222). -/
def minkeyAt (s : State) (runs : List (Nat × Nat)) (key : VisKey) : State :=
  let ks := runs.flatMap fun q => (List.range q.2).map (q.1 + ·)
  if ks.any (poisonedAt s) then s
  else
    let old := bytesVal (ks.map (homeByte s))
    if keyLess key old then homeWrite s none (ks.zip ((byteList 0 key 8).map (·.2))) else s

/-- Keys taken into the buffer. -/
def visApply (m : Mover) (late : Option TrapInfo) (p : VisPass) : List (Nat × Nat × VisKey) → State → Part Unit
  | [], s => .ok s ()
  | (x, y, key) :: rest, s =>
    (quernReach s m { load := true, store := true } late 2 [(p.buf + 8 * (y * p.w + x), 8)]).bind fun s runs =>
      let poisoned := runs.any fun q => poisonedAt s q.1
      visApply m late p rest (if poisoned then setPoison s m.crew.uid else minkeyAt s runs key)

/-- A tile tested: every triangle binned there at every pixel, then the keys. -/
def visTile (s : State) (m : Mover) (r : VisReq) (late : Option TrapInfo) (p : VisPass) (t : Nat) : Part Unit :=
  (visBlocks m r late p ((r.binned.filter (·.2.contains t)).map (·.1)) s).bind fun s bs =>
    (visKeys m r late p (bs.flatMap fun b => (p.pixels t).map fun q => (b.1 / 4, b.2, b.1 % 4, q.1, q.2)) s).bind fun s keys =>
      visApply m late p keys s

/-! ### Events -/

/-- A pass leaves its pipes: the rays counter falls. -/
def endVis (s : State) (r : VisReq) : State :=
  countUp { s with vis := s.vis.filter (·.id != r.id) } r.crew r.tid fun k => { k with rays := k.rays - 1 }

def updVis (s : State) (r : VisReq) : State := { s with vis := s.vis.map fun x => if x.id = r.id then r else x }

/-- A fault of a pass, charged to its thread (R328). -/
def visFault (s : State) (m : Mover) (r : VisReq) (info : TrapInfo) (side : Nat) : State :=
  chargeFault (endVis s r) m (deferredOf m info (engineDetail r.pc (256 * (r.next / 4)) side 8) 2)

/-- The end of a pass, with the arrival of the whole buffer's bytes. -/
def finishVis (s : State) (m : Mover) (r : VisReq) (p : VisPass) : State := match r.arw with
  | none => endVis s r
  | some w => match engineArrive s m w (8 * p.w * p.h) with
    | .ok s1 => endVis s1 r
    | .error (code, sub) => visFault s m r (engineTrap m code sub w.toNat) 4

/-- A step of a pass, if nothing keeps it: passes of one stack run in issue order. (DEDUCED, log entry 119) -/
def visDo (req : Nat) (s : State) (go : State → Mover → VisReq → Option TrapInfo → Part State) : Out :=
  match s.vis.find? (·.id == req) with
  | none => .next s
  | some r => match getCrew s r.crew with
    | none => .next s
    | some c =>
      let m : Mover := { req := req, crew := c, tid := r.tid }
      if engineHeld s req || logBlocked s c || engineStopped s c 3 || s.vis.any (fun x => x.stack == r.stack && x.id < r.id) then .next s
      else
        let (s0, late) : State × Option TrapInfo := match takeFault s req with
          | some (f, s1) => (s1, some f)
          | none => (s, none)
        match go s0 m r late with
        | .wait s1 => .next s1
        | .ok _ s1 => .next s1
        | .stop f side fl => .next (visFault (keepPoison s0 fl) m r f side)

/-- Tiles of the screen. -/
def VisPass.tiles (p : VisPass) : List Nat := List.range (p.across p.w * p.across p.h)

/-- Whether a triangle of a block is hit by the ray of a pixel, whatever its micro-map says. -/
def VisPass.meets (p : VisPass) (v k : Nat) (q : Nat × Nat) : Bool :=
  let (verts, ix) := blockTri false v k
  (triTest false p.o (p.dir q.1 q.2) verts ix).hit

/-- The tiles that the conservative bounds of a triangle touch: every tile with a pixel whose ray hits it, and any others. (DESIGN CHOICE, log entry 149) -/
def binTiles (s : State) (p : VisPass) (v k : Nat) : State × List Nat :=
  if !bitAt (partOf v ((blockLayout false).2.2 + 32 + k) 1) 0 then (s, [])
  else
    ({ s with freeIdx := s.freeIdx + p.tiles.length },
      p.tiles.filter fun t => (p.pixels t).any (p.meets v k) || Config.binTouch (s.freeIdx + t))

/-- Whether so many bin entries fit in the POND_BINS part of a stack's pond. -/
def binsHold (s : State) (stack n : Nat) : Bool := n * max 1 Config.binBytes ≤ mget 256 s.bar.pondBins stack * 2 ^ 20

/-- The first tile at or after `t` that holds bins. -/
def nextTile (r : VisReq) (p : VisPass) (t : Nat) : Option Nat :=
  (p.tiles.drop t).find? fun t => r.binned.any (·.2.contains t)

/-- The tiles from `t` on: the next one that holds bins is tested next; after the last the bins are free, and binning goes on at the next triangle or the pass ends. -/
def visTiles (s : State) (m : Mover) (r : VisReq) (p : VisPass) (t : Nat) : State := match nextTile r p t with
  | some t => updVis s { r with tile := some t }
  | none =>
    if r.next < 4 * p.blocks then updVis s { r with tile := none, binned := [] } else finishVis s m r p

/-- VIS_BINNING (R338): the descriptor, then one triangle of the array at a time, in array order; when its bins do not fit, the tiles that hold bins are tested first. A triangle whose bins alone do not fit is binned by itself. -/
def execVisBinning (req : Nat) (s : State) : Out :=
  visDo req s fun s m r late => match r.params with
    | none => (visRead s m r late 5 r.desc.toNat 128).bind fun s x =>
      if visBad x.1 then .fault (malformed m r.desc.toNat) 5 else .ok s (updVis s { r with params := some x.1 })
    | some v =>
      let p := visPass v
      if r.tile.isSome || 4 * p.blocks ≤ r.next then .ok s s
      else (visBlock s m r late p (r.next / 4)).bind fun s v =>
        let (s1, ts) := binTiles s p v (r.next % 4)
        let used := (r.binned.map (·.2.length)).foldl (· + ·) 0
        if !r.binned.isEmpty && !binsHold s1 r.stack (used + ts.length) then .ok s (visTiles s m r p 0)
        else
          let r1 := { r with next := r.next + 1, binned := if ts.isEmpty then r.binned else r.binned ++ [(r.next, ts)] }
          .ok s1 (if r1.next < 4 * p.blocks then updVis s1 r1 else visTiles s1 m r1 p 0)

/-- VIS_TILE_TEST (R337, R338): the tile to test next. -/
def execVisTileTest (req : Nat) (s : State) : Out :=
  visDo req s fun s m r late => match r.params, r.tile with
    | some v, some t =>
      let p := visPass v
      (visTile s m r late p t).bind fun s _ => .ok s (visTiles s m r p (t + 1))
    | _, _ => .ok s s

end Sys2Proof.Machine
end

