-- ==== Sys2Proof/Machine/Replay.lean ====
section
/-! DEFINITION. The replay of a logged final intersection (R339, R346): the re-solved hit, its normal, and the derivatives of hit and normal with respect to the parameters that a mask names. -/

namespace Sys2Proof.Machine

/-- `replay` (R346). -/
def execReplay (a : Args) (s : State) : Out :=
  gangDo a.guard s fun e =>
    let f64 := bitAt a.m.toNat 5
    issueGate e (fun t => misaligned [(rd e.c t a.d 2, 64), (rd e.c t a.b 2, 4096)]) (fun _ => none) <|
      let send := fun (s : State) (t : Thread) =>
        let r : ReplayReq := {
          id := s.nextId, crew := e.is.crew, tid := t.tid, pc := e.is.pc, ray := eightValues f64 (rd e.c t a.a (if f64 then 16 else 8))
          log := BitVec.ofNat 64 (rd e.c t a.b 2), dst := BitVec.ofNat 64 (rd e.c t a.d 2), mask := rd e.c t a.c 1 % 2 ^ 32 }
        countUp { s with replays := s.replays ++ [r], nextId := s.nextId + 1 } e.is.crew t.tid fun k => { k with rays := k.rays + 1 }
      .next (retire e.is (e.act.foldl send e.s))

/-! ### Derivatives -/

/-- A value with its derivative along one direction. -/
structure Dual where
  v : FV
  d : FV

/-- The format in which derivatives are worked out: far finer than their bound, so that its error vanishes within it. -/
def fpWide : Fmt := { eb := 18, fb := 300, bias := 131071 }

def wide : Arith FV := arith fpWide

/-- Operations on values with derivatives. -/
def dualArith : Arith Dual where
  add := fun x y => ⟨wide.add x.v y.v, wide.add x.d y.d⟩
  sub := fun x y => ⟨wide.sub x.v y.v, wide.sub x.d y.d⟩
  mul := fun x y => ⟨wide.mul x.v y.v, wide.add (wide.mul x.v y.d) (wide.mul x.d y.v)⟩
  div := fun x y => ⟨wide.div x.v y.v, wide.div (wide.sub (wide.mul x.d y.v) (wide.mul x.v y.d)) (wide.mul y.v y.v)⟩
  sqrt := fun x => let r := wide.sqrt x.v; ⟨r, wide.div x.d (wide.mul (fv 2) r)⟩
  lit := fun x => ⟨x, fv 0⟩
  val := fun x => x.v

/-- A constant. -/
def still (x : FV) : Dual := ⟨x, fv 0⟩

/-! ### The surface -/

/-- The shape of a logged hit. -/
inductive Surface where
  | asphere (r : Asphere FV)
  | triangle (v : V3 (V3 FV)) (ix : V3 Nat)

/-- A replay's inputs: the ray, the instance's transform if there is one, and the shape. -/
structure Replayed where
  o : V3 FV
  d : V3 FV
  xf : Option (List FV)
  shape : Surface

/-- The parameters as values with derivatives, the derivative of θj being 1; none seeds nothing. -/
structure Seeded where
  o : V3 Dual
  d : V3 Dual
  xf : Option (List Dual)
  asph : Option (Asphere Dual)
  tri : V3 (V3 Dual)

/-- A value seeded when its number is the parameter's. -/
def seed (j : Option Nat) (k : Nat) (x : FV) : Dual := ⟨x, if j = some k then fv 1 else fv 0⟩

def seedV3 (j : Option Nat) (k : Nat) (v : V3 FV) : V3 Dual := ⟨seed j k v.x, seed j (k + 1) v.y, seed j (k + 2) v.z⟩

/-- The parameters of the mask's bits (R339). -/
def seeded (q : Replayed) (j : Option Nat) : Seeded :=
  let zero : V3 Dual := ⟨still (fv 0), still (fv 0), still (fv 0)⟩
  let base : Seeded := {
    o := seedV3 j 11 q.o, d := seedV3 j 14 q.d, xf := q.xf.map fun l => l.map still, asph := none, tri := ⟨zero, zero, zero⟩ }
  match q.shape with
  | .asphere r =>
    let d := r.map still
    { base with asph := some { d with c := seed j 0 r.c, k := seed j 1 r.k, a := ((List.range r.a.length).zip r.a).map fun (i, x) => seed j (2 + i) x } }
  | .triangle v _ => { base with tri := ⟨seedV3 j 0 v.x, seedV3 j 3 v.y, seedV3 j 6 v.z⟩ }

/-- g and the gradient or face normal, carried to world space, at t. -/
def surface (q : Seeded) (t : Dual) : Dual × V3 Dual :=
  let A := dualArith
  let (o, d) := match q.xf with
    | some m => (xform A m q.o (fv 1), xform A m q.d (fv 0))
    | none => (q.o, q.d)
  let (g, n) := match q.asph with
    | some r =>
      let (w, z, s) := aspherePoint A o d r t
      (A.sub z (sag A r s), vSub A r.axis (vScale A (A.mul (A.lit (fv 2)) (sagSlope A r s)) (vSub A w (vScale A z r.axis))))
    | none =>
      let n := vCross A (vSub A q.tri.y q.tri.x) (vSub A q.tri.z q.tri.x)
      (vDot A n (vSub A (vAdd A o (vScale A t d)) q.tri.x), n)
  (g, match q.xf with
    | some m => xformT A m n
    | none => n)

/-- A vector normalised, and turned if `flip`. -/
def unitOf (flip : Bool) (v : V3 Dual) : V3 Dual :=
  let A := dualArith
  let len := A.sqrt (vDot A v v)
  let u : V3 Dual := ⟨A.div v.x len, A.div v.y len, A.div v.z len⟩
  if flip then vScale A (A.lit (fv (-1))) u else u

/-- A value as FP64 bits: exact where FP64 holds it, as R389 has the normals of its run, else placed within its bound of 2^-40 × (1 + |value|) by the free offset of its inputs. (DEDUCED, log entry 23) -/
def replayValue (inputs : List Nat) (x : FV) : Nat := match x with
  | .fin .. =>
    if (fp64.dec (rne fp64 x)).eqv x then rne fp64 x
    else
    let off := max (-(2 ^ 20)) (min (2 ^ 20) (Config.replayOffset inputs))
    let bound := (FV.add .rne (fv 1) x.abs).scale (-60)
    rne fp64 (FV.add .rne x ((fv off).mul bound))
  | x => rne fp64 x

/-- What a replay finds: T, STATUS and ITER. -/
structure Solved where
  t : FV
  status : Nat
  iter : Nat

/-- The final intersection re-solved in FP64. -/
def resolve (q : Replayed) (lo hi : FV) : Solved :=
  let A := arith fp64
  let (o, d) := match q.xf with
    | some m => (xform A m q.o (fv 1), xform A m q.d (fv 0))
    | none => (q.o, q.d)
  match q.shape with
  | .asphere r => match solveBracket o d r lo hi with
    | .hit t n _ _ => { t := t, status := 0, iter := n }
    | .unresolved t _ _ => { t := t, status := 2, iter := if lo.eqv hi then 0 else 16 }
    | .miss => { t := lo, status := 2, iter := 0 }
  | .triangle v ix =>
    let x := triTest true o d v ix
    { t := x.t, status := if x.hit then 0 else 4, iter := 0 }

/-- Numbers in eight bytes each, little-endian, the first lowest. -/
def words64 (l : List Nat) : Nat := l.foldr (fun x acc => x % 2 ^ 64 + 2 ^ 64 * acc) 0

/-- The seven values dT, dP and dN for a parameter. -/
def derivatives (q : Replayed) (t gt : FV) (flip : Bool) (j : Nat) : List FV :=
  let A := dualArith
  let p := seeded q (some j)
  let dT := (wide.div (surface p (still t)).1.d gt).neg
  let tt : Dual := ⟨t, dT⟩
  let pos := vAdd A p.o (vScale A tt p.d)
  let n := unitOf flip (surface p tt).2
  [dT, pos.x.d, pos.y.d, pos.z.d, n.x.d, n.y.d, n.z.d]

/-- The bits of a mask. -/
def maskBits (m : Nat) : List Nat := (List.range 32).filter (bitAt m)

/-- The result record of a shape, with its blocks. -/
def replayRecord (q : Replayed) (lo hi : FV) (mask : Nat) (inputs : List Nat) : Nat :=
  let r := resolve q lo hi
  let A := arith fp64
  let still0 := seeded q none
  let (_, n0) := surface still0 (still r.t)
  let gt := (surface still0 ⟨r.t, fv 1⟩).1.d
  let flip := (fv 0).le (vDot wide (n0.map (·.v)) q.d)
  let n := (unitOf flip n0).map (·.v)
  let p := vAdd A q.o (vScale A r.t q.d)
  let val := fun (k : Nat) (x : FV) => replayValue (k :: inputs) x
  let base := words64 [rne fp64 r.t, rne fp64 p.x, rne fp64 p.y, rne fp64 p.z, val 4 n.x, val 5 n.y, val 6 n.z, r.status + 2 ^ 32 * r.iter]
  let blocks := (maskBits mask).flatMap fun j =>
    (((List.range 7).zip (derivatives q r.t gt flip j)).map fun (i, x) => val (8 * (j + 1) + i) x) ++ [0]
  base + 2 ^ 512 * words64 blocks

/-! ### The request -/

/-- Reads of a replay through the node caches of the core's nearest stack; poisoned bytes are zero and set the flag. -/
def replayRead (s : State) (m : Mover) (late : Option TrapInfo) (va len : Nat) : Part Nat :=
  (quernReach s m { load := true } late 1 [(va, len)]).bind fun s1 runs =>
    let (s2, bs, bad) := cachedRead (fun _ => .node (nearStack m.crew)) m.crew.ctx s1 runs
    .ok (if bad then setPoison s2 m.crew.uid else s2) (bytesVal bs)

/-- Whether the first three entries of a log break their layout (R331); aspheres stand only in FP64 scenes (R310). -/
def logBad (v : Nat) : Bool :=
  partOf v 0 1 != 0 || 8 ≤ partOf v 1 1 || partOf v 2 2 != 0
    || (bitAt (partOf v 1 1) 2 && (partOf v 16 1 != 3 || 1 < partOf v 19 1
      || (match partOf v 17 1 with
        | 1 => partOf v 32 16 != 0
        | 2 => !bitAt (partOf v 1 1) 1
        | _ => true)))

/-- Parameters that a shape lacks. -/
def maskLacks (asphere : Bool) (mask : Nat) : Bool := (maskBits mask).any fun j => 17 ≤ j || (!asphere && (j == 9 || j == 10))

/-- Whether an instance record breaks its layout, as far as a log alone shows it: a reserved bit, or a root that is no treelet (R309). -/
def instBad (f64 : Bool) (v : Nat) : Bool :=
  let q := if f64 then 96 else 48
  1 < partOf v (q + 5) 1 || partOf v q 4 == 0 || partOf v (q + 12) (if f64 then 20 else 4) != 0

/-- The transform of the logged instance, if there is one (R309). -/
def replayXform (s : State) (m : Mover) (late : Option TrapInfo) (f64 : Bool) (va : Nat) : Part (Nat × Option (List FV)) :=
  if va = 0 then .ok s (0, none)
  else (replayRead s m late va (if f64 then 128 else 64)).bind fun s x =>
    if instBad f64 x then .fault (malformed m va) 1
    else .ok s (x % 2 ^ (if f64 then 768 else 384), some ((List.range 12).map (valAt f64 x 0)))

/-- The logged primitive: its bytes and its shape; none if it breaks its layout. -/
def replayShape (s : State) (m : Mover) (late : Option TrapInfo) (f64 asphere : Bool) (va : Nat) : Part (Nat × Option Surface) :=
  if asphere then (replayRead s m late va 256).bind fun s x => .ok s (x, (asphereOf x).map Surface.asphere)
  else
    let k := va % 4
    (replayRead s m late (va - k) (if f64 then 512 else 256)).bind fun s x =>
      let b := blockTri f64 x k
      .ok s (x, if trisBad f64 x then none else some (.triangle b.1 b.2))

/-- Bytes of a record written at the destination. -/
def replayWrite (s : State) (m : Mover) (late : Option TrapInfo) (va len v : Nat) : Part Unit :=
  (quernReach s m { store := true } late 2 [(va, len)]).bind fun s1 runs => .ok (engineWrite s1 runs ((byteList 0 v len).map (·.2)) false) ()

/-- The record of a log without a final solve: STATUS 1, and each value NaN or zero (R390), which of them is free. -/
def noSolveRecord (s : State) (mask : Nat) : State × Nat :=
  let n := (maskBits mask).length
  let w := fun i => if bitAt (Config.freeWord (s.freeIdx + i)) 0 then rne fp64 .nan else 0
  let base := words64 ((List.range 7).map w ++ [1 + 2 ^ 32 * (Config.freeWord (s.freeIdx + 7) % 2 ^ 8)])
  let blocks := words64 ((List.range n).flatMap fun b => ((List.range 7).map fun i => w (8 * (b + 1) + i)) ++ [0])
  ({ s with freeIdx := s.freeIdx + 8 * (n + 1) }, base + 2 ^ 512 * blocks)

/-- The work of a replay. (DEDUCED, log entry 121) -/
def replayStep (s : State) (m : Mover) (r : ReplayReq) (late : Option TrapInfo) : Part Unit :=
  let len := 64 * ((maskBits r.mask).length + 1)
  (replayRead s m late r.log.toNat 48).bind fun s v =>
    let f64 := bitAt (partOf v 1 1) 1
    let asphere := partOf v 17 1 == 2
    if logBad v then .fault (malformed m r.log.toNat) 1
    else if !bitAt (partOf v 1 1) 2 then
      let x := noSolveRecord s r.mask
      replayWrite x.1 m late r.dst.toNat len x.2
    else if maskLacks asphere r.mask then replayWrite s m late (r.dst.toNat + 56) 4 3
    else (replayXform s m late f64 (partOf v 8 8)).bind fun s xf =>
      (replayShape s m late f64 asphere (partOf v 24 8)).bind fun s sh => match sh.2 with
        | none => .fault (malformed m (partOf v 24 8)) 1
        | some shape =>
          let q : Replayed := { o := v3Bits (r.ray.take 3), d := v3Bits ((r.ray.drop 4).take 3), xf := xf.2, shape := shape }
          let lo := fp64.dec (partOf v 32 8)
          let hi := fp64.dec (partOf v 40 8)
          replayWrite s m late r.dst.toNat len (replayRecord q lo hi r.mask (r.ray ++ [partOf v 17 1, partOf v 24 8 % 4, partOf v 32 16, xf.1, sh.1]))

/-- A replay leaves its pipe: the rays counter falls. -/
def endReplay (s : State) (r : ReplayReq) : State :=
  countUp { s with replays := s.replays.filter (·.id != r.id) } r.crew r.tid fun k => { k with rays := k.rays - 1 }

/-- REPLAY_RESULT (R339): a ray pipe writes the record, and the rays counter is lowered. -/
def execReplayResult (req : Nat) (s : State) : Out :=
  match s.replays.find? (·.id == req) with
  | none => .next s
  | some r => match getCrew s r.crew with
    | none => .next s
    | some c =>
      let m : Mover := { req := req, crew := c, tid := r.tid }
      if engineHeld s req || logBlocked s c || engineStopped s c 3 then .next s
      else
        let (s0, late) : State × Option TrapInfo := match takeFault s req with
          | some (f, s1) => (s1, some f)
          | none => (s, none)
        match replayStep s0 m r late with
        | .wait s1 => .next s1
        | .ok s1 _ => .next (endReplay s1 r)
        | .stop f side fl => .next (chargeFault (endReplay (keepPoison s0 fl) r) m (deferredOf m f (engineDetail r.pc 0 side 9) 2))

end Sys2Proof.Machine
end

