-- ==== Sys2Proof/Machine/Sequencer.lean ====
section
/-! DEFINITION. The tile sequencer: the steps of a request in their order, staging loads, k-steps, promotions, elementwise passes and store chunks, and the ends of a request (R92, R93, R231, R238–R246, R257–R266). -/

namespace Sys2Proof.Machine

/-! ### Reading records -/

/-- Runs of bytes at offsets of a record's region reached for an engine step. -/
def reachRec (s : State) (m : Mover) (u : Use) (r : Rec) : List (Nat × Nat) → Reach
  | [] => .ok s []
  | (o, len) :: rest =>
    let more := fun (s1 : State) (xs : List (Nat × Nat)) => match reachRec s1 m u r rest with
      | .ok s2 ys => Reach.ok s2 (xs ++ ys)
      | e => e
    let ea := (r.address s m.crew o).toNat
    if len = 0 then more s []
    else match r.target s m.crew o len with
      | .bank k (some core) => if sliceTakes s core m.req then more s [(k, len)] else .wait s
      | .bank k none => more s [(k, len)]
      | .bounds b => .fault (engineTrap m tcBOUNDS b ea)
      | .noncanon => .fault (engineTrap m tcPAGE 1 ea)
      | .glob vas _ => match reachParts s m u (vas.flatMap fun v => pageParts v.1 v.2) with
        | .ok s1 xs => more s1 xs
        | e => e

/-- The parts of global memory that some bytes of a record's region lie in. -/
def recParts (s : State) (c : Crew) (r : Rec) (xs : List (Nat × Nat)) : List (Nat × Nat) := xs.flatMap fun x => match r.target s c x.1 x.2 with
  | .glob vas _ => vas.flatMap fun v => pageParts v.1 v.2
  | _ => []

/-- The step's check of a record, its reach, and its race check, in one. -/
def openRec (s : State) (m : Mover) (store : Bool) (late : Option TrapInfo) (r : Rec) (xs : List (Nat × Nat)) : Part (List (Nat × Nat)) :=
  match recCheck s m.crew r with
  | some b => .fault (engineTrap m tcBOUNDS b (r.address s m.crew r.base).toNat) 0
  | none =>
    (settle late 0 (if late.isNone then [] else recParts s m.crew r xs) (reachRec s m { load := !store, store := store } r xs)).bind fun s1 runs =>
      (raceSide s1 m store 0 (xs.map fun x => ((r.address s1 m.crew x.1).toNat, x.2)) runs).bind fun s2 _ => .ok s2 runs

/-- Bytes that `n` elements take from column `c` of a row. -/
def rowBytes (fmt c n : Nat) : Nat := ((c + n) * fmtHalves fmt + 1) / 2 - c * fmtHalves fmt / 2

/-- Offset of a row's byte. -/
def Rec.rowOff (r : Rec) (i c : Nat) : Nat := r.base + (i * r.pitch + c) * fmtHalves r.fmt / 2

/-- The value of an encoding of a record format; PX4 codes carry their header above bit 4. -/
def fmtVal (fmt raw : Nat) : FV := match fmt with
  | 0 => fp32.dec raw
  | 1 => fp16.dec raw
  | 2 => bf16.dec raw
  | 3 => fpE4M3.dec raw
  | 4 => fpE5M2.dec raw
  | 5 => px4Val (bitsOf raw 11 4) (bitsOf raw 19 12 / 2 ^ (bitsOf raw 23 20) % 2) (raw % 16)
  | _ => fvInt (signExt raw 8)

/-- The binary format of a record format that has one. -/
def fmtOf : Nat → Option Fmt
  | 0 => some fp32
  | 1 => some fp16
  | 2 => some bf16
  | 3 => some fpE4M3
  | 4 => some fpE5M2
  | _ => none

/-- The value as an operand of the array, flushed under fi (R92). (DEDUCED, log entry 78) -/
def fmtValF (fi : Bool) (fmt raw : Nat) : FV := match fmtOf fmt with
  | some f => f.decF fi raw
  | none => fmtVal fmt raw

/-- FP32 bits of an encoding, exact. -/
def fmtWord (fmt raw : Nat) : Word := BitVec.ofNat 32 (if fmt = 0 then raw else rne fp32 (fmtVal fmt raw))

/-- A PX4 code with its header: code, exponent, micro-bits and the pair in the block. -/
def px4Raw (code e mb j : Nat) : Nat := code + 16 * e + 2 ^ 12 * mb + 2 ^ 20 * (j / 2)

/-- The first poisoned address of some bytes of a record's region, given the keys they reach. -/
def recPoison (s : State) (c : Crew) (r : Rec) (xs runs : List (Nat × Nat)) : Option Nat :=
  poisonAddr s (xs.map fun x => ((r.address s c x.1).toNat, x.2)) runs

/-- Elements of a window read from a record's region, row-major, as encodings; and the first poisoned address. A PX4 record without a scale plane has no headers: what stands for them is free. (DEDUCED, log entry 77; DESIGN CHOICE, log entry 151) -/
def readWin (s : State) (m : Mover) (late : Option TrapInfo) (r : Rec) (w : Win) : Part (List Nat × Option Nat) :=
  if w.empty then .ok s ([], none)
  else
    let len := rowBytes r.fmt w.c0 w.cols
    let data := (List.range w.rows).map fun i => (r.rowOff (w.r0 + i) w.c0, len)
    let b0 := w.c0 / 16
    let nb := (w.c1 + 15) / 16 - b0
    let bare := r.fmt = 5 && !r.scale
    let heads := if r.fmt = 5 && r.scale then (List.range w.rows).map fun i => (r.plane + 2 * ((w.r0 + i) * r.pitch / 16 + b0), 2 * nb) else []
    (openRec s m false late r (data ++ heads)).bind fun s1 runs =>
      let (bs, _) := engineRead s1 runs
      let bad := recPoison s1 m.crew r (data ++ heads) runs
      let z := fmtHalves r.fmt / 2
      let rows := (List.range w.rows).map fun i =>
        let row := (bs.drop (i * len)).take len
        let head := if bare then (List.range (2 * nb)).map fun k => BitVec.ofNat 8 (Config.freeWord (s1.freeIdx + i * 2 * nb + k))
          else (bs.drop (w.rows * len + i * 2 * nb)).take (2 * nb)
        (List.range w.cols).map fun j =>
          if r.fmt = 5 then
            let c := w.c0 + j
            let byte := (row.getD (c / 2 - w.c0 / 2) 0).toNat
            px4Raw (byte / 16 ^ (c % 2) % 16) (head.getD (2 * (c / 16 - b0)) 0).toNat (head.getD (2 * (c / 16 - b0) + 1) 0).toNat (c % 16)
          else bytesNat row (j * z) z
      .ok (if bare then { s1 with freeIdx := s1.freeIdx + w.rows * 2 * nb } else s1) (rows.flatten, bad)

/-- Values of an accumulator tile over a window, row-major (R251). -/
def accVals (c : Crew) (z : Nat) (w : Win) : List Word :=
  (List.range w.rows).flatMap fun i => (List.range w.cols).map fun j => mget 0 c.acc (16384 * z + 128 * (w.r0 + i) + (w.c0 + j))

/-- Values of some elements written to an accumulator tile, from row-major place `k` of a window on. -/
def putAcc (c : Crew) (z : Nat) (w : Win) (k : Nat) (xs : List Word) : Crew :=
  { c with acc := ((List.range xs.length).zip xs).foldl (fun m p =>
      let i := k + p.1
      mput 0 m (16384 * z + 128 * (w.r0 + i / w.cols) + (w.c0 + i % w.cols)) p.2) c.acc }

/-! ### The order of a request's steps (R242) -/

/-- What a request does next. -/
inductive TileStep where
  | stage (slot : Nat)
  | wait (slot : Nat)
  | kstep (slot : Nat)
  | promote (slot : Nat)
  | pass (slot : Nat)
  | chunk
  | done
  deriving DecidableEq, Repr

/-- Demanded nodes in operand order: operands before the node that needs them. -/
def operandOrder (s : State) (core : Nat) (need : List Nat) : Nat → List Nat → Nat → List Nat
  | 0, acc, _ => acc
  | fuel + 1, acc, slot =>
    if acc.contains slot || !need.contains slot then acc
    else match nodeAt s core slot with
      | none => acc
      | some n =>
        let acc := if n.state == .done || n.kind.isDef then acc else n.ops.foldl (operandOrder s core need fuel) acc
        acc ++ [slot]

/-- k-steps of a product (R92). -/
def kSteps (s : State) (n : Node) : Nat := (((n.ops.head?.bind (nodeAt s n.core)).map (·.cols)).getD 0 + 31) / 32

/-- Promotion interval of a format word. -/
def promoteEvery (w : Nat) : Nat := 2 ^ bitsOf w 16 14

/-- The step that a product needs next: the promotion is due when the interval or the last k-step is reached. -/
def productStep (s : State) (r : TileReq) (n : Node) : TileStep := match r.part with
  | some (k, _) => if k % promoteEvery n.word.toNat = 0 || k = kSteps s n then .promote n.slot else .kstep n.slot
  | none => .kstep n.slot

/-- The step that a demanded node needs before it can be read. -/
def nodeStep (s : State) (r : TileReq) (n : Node) : Option TileStep := match n.kind, n.state with
  | .stage, _ => if n.staged then none else some (.stage n.slot)
  | .wait, _ => if n.staged then none else some (.wait n.slot)
  | .src, _ | .acc, _ => none
  | _, .done => none
  | .tmm, _ => some (productStep s r n)
  | _, _ => if r.values.any (·.slot == n.slot) then none else some (.pass n.slot)

/-- Elements of the window. -/
def Win.size (w : Win) : Nat := w.rows * w.cols

/-- Chunks that a request writes: 4 KiB of destination bytes each (R244). (DEDUCED, log entry 87) -/
def TileReq.chunks (r : TileReq) : Nat := match r.goal with
  | .store d _ _ | .scratch d _ _ => (d.rows * rowBytes d.fmt 0 d.cols + 4095) / 4096
  | .tile _ => (r.win.size * 4 + 4095) / 4096
  | .implicit => 0

/-- Whether computing the target is all that is wanted: a product forced implicitly or into its own tile. -/
def TileReq.computeOnly (r : TileReq) (n : Node) : Bool := match r.goal with
  | .implicit => true
  | .tile z => n.kind == .tmm && (n.state != .done || n.bind == .tile z) && n.tile == z
  | _ => false

/-- The next step of a request. -/
def nextStep (s : State) (r : TileReq) : TileStep :=
  match nodeAt s r.core r.node with
  | none => .done
  | some n =>
    let need := (demands s n r.win).map (·.1)
    let order := operandOrder s r.core need 66 [] n.slot
    match order.findSome? fun k => (nodeAt s r.core k).bind (nodeStep s r) with
    | some st => st
    | none =>
      if r.computeOnly n then .done
      else if !r.values.any (·.slot == n.slot) then .pass n.slot
      else if r.chunk < r.chunks then .chunk else .done

/-! ### Places in the sequencer (R242) -/

def updReq (s : State) (id : Nat) (f : TileReq → TileReq) : State :=
  { s with tileReqs := s.tileReqs.map fun r => if r.id = id then f r else r }

def TileReq.inPlace (r : TileReq) : Bool := r.phase == .running || r.phase == .aside

/-- Computed nodes that a request forces: those it demands that are not DONE. (DEDUCED, log entry 75) -/
def toForce (s : State) (r : TileReq) : List Node := match nodeAt s r.core r.node with
  | none => []
  | some n => (demands s n r.win).filterMap fun d => (nodeAt s r.core d.1).filter fun m => !m.kind.isDef && m.state != .done

/-- Whether another request is forcing a node that this one needs. -/
def contended (s : State) (r : TileReq) : Bool := (toForce s r).any fun n => n.state == .forcing && n.owner != some r.id

/-- Whether a request of the queue goes before another: generators first, then those queued again, then by age. -/
def goesBefore (x y : TileReq) : Bool :=
  if x.gen != y.gen then x.gen else if x.front != y.front then x.front else x.id < y.id

/-- Whether a crew's requests are to stop at their next interruption points: its skid has ended, and it is being taken off its core (R245). -/
def seqStops (s : State) (c : Crew) : Bool :=
  (c.halt.any fun h => h.phase == .saving) || c.taking.any (·.saving) || switching s c

/-- A request's crew is on its core, and the request is not to stop where it stands. -/
def seqRuns (s : State) (r : TileReq) : Bool :=
  (getCrew s r.crew).any fun c => c.where_ == .resident && !engineStopped s c 1 && !(r.atPoint && seqStops s c)

/-- A request takes its place: when eight are taken, a generator's takes that of the ordinary request that has waited longest. -/
def takePlace (s : State) (r : TileReq) : Option State :=
  let here := s.tileReqs.filter fun q => q.core == r.core
  if here.any fun q => q.phase == .queued && seqRuns s q && goesBefore q r then none
  else
    let room := if (here.filter (·.inPlace)).length < 8 then some s
      else if !r.gen then none
      else
        let waits := here.filter fun q => q.phase == .aside && !q.gen
        match waits.foldl (fun (b : Option TileReq) q => match b with
            | none => some q
            | some x => if q.since < x.since then some q else some x) none with
        | some q => some (updReq s q.id fun q => { q with phase := .queued, front := true })
        | none => none
    room.map fun s => updReq s r.id fun r => { r with phase := .running, front := false }

/-- A request with its nodes FORCING, ready for a step; set aside while another forces a node that it needs. -/
def beginStep (s : State) (id : Nat) : State × Option (TileReq × Mover) :=
  match s.tileReqs.find? (·.id == id) with
  | none => (s, none)
  | some r =>
    if !seqRuns s r || r.phase == .complete || r.phase == .faulted || r.phase == .aside || engineHeld s id then (s, none)
    else
      let placed := if r.phase == .running then some s else takePlace s r
      match placed with
      | none => (s, none)
      | some s1 =>
        if contended s1 r then (updReq s1 id fun r => { r with phase := .aside, since := s1.cycle }, none)
        else
          let force := (toForce s1 r).map (·.slot)
          let s2 := { s1 with nodes := s1.nodes.map fun n => if n.core == r.core && force.contains n.slot then { n with state := .forcing, owner := some id } else n }
          match s2.tileReqs.find? (·.id == id), getCrew s2 r.crew with
          | some r2, some c => (s2, some (r2, { req := id, crew := c, tid := leastOr 0 r.tids }))
          | _, _ => (s, none)

/-- A step that waits: the request is set aside when what it waits for will tell it. -/
def setAside (s : State) (id : Nat) : State :=
  if engineHeld s id then updReq s id fun r => { r with phase := .aside, since := s.cycle } else s

/-- A step that faults (R246): delivered by the request's own event. -/
def stepFault (s : State) (id slot kind : Nat) (info : TrapInfo) : State :=
  updReq s id fun r => { r with phase := .faulted, fault := some (info, slot, kind), part := none }

/-- A poisoned read of a step, at an address: the flag, the request's mark, and a fault when POISON is enabled (R372). (DEDUCED, log entry 80) -/
def stepPoison (s : State) (m : Mover) (slot kind : Nat) (bad : Option Nat) (k : State → State) : State := match bad with
  | none => k s
  | some addr =>
    let s1 := updReq s m.req fun r => { r with bad := true }
    match enginePoison s1 m addr with
    | (s2, some f) => stepFault s2 m.req slot kind f
    | (s2, none) => k s2

/-- The common form of a step's event: it runs only when the request's next step is of its kind. -/
def tileEvent (s : State) (req : Nat) (kind : Nat) (pick : TileStep → Option Nat)
    (run : State → TileReq → Mover → Node → Option TrapInfo → Part State) : Out :=
  match s.tileReqs.find? (·.id == req) with
  | none => .next s
  | some r0 => match pick (nextStep s r0) with
    | none => .next s
    | some _ => match beginStep s req with
      | (s1, none) => .next s1
      | (s1, some (r, m)) => match (pick (nextStep s1 r)).bind (nodeAt s1 r.core) with
        | none => .next s1
        | some n =>
          let (s2, late) : State × Option TrapInfo := match takeFault s1 req with
            | some (f, s2) => (s2, some f)
            | none => (s1, none)
          match run s2 r m n late with
          | .ok _ t => .next t
          | .wait t => .next (setAside t req)
          | .stop f _ fl => .next (stepFault (keepPoison s2 fl) req n.slot kind f)

/-! ### Staging (R257) -/

/-- The bytes of a record that hold its elements and scales, row by row: offsets and lengths. -/
def recPieces (r : Rec) : List (Nat × Nat) :=
  let rows := (List.range r.rows).map fun i => (r.rowOff i 0, rowBytes r.fmt 0 r.cols)
  let heads := if !r.scale then []
    else if r.fmt = 5 then (List.range r.rows).map fun i => (r.plane + 2 * (i * r.pitch / 16), 2 * ((r.cols + 15) / 16))
    else (List.range r.rows).map fun i => (r.plane + 4 * (i * ((r.pitch + 127) / 128)), 4 * ((r.cols + 127) / 128))
  rows ++ heads

/-- Bytes `lo` to `hi − 1` of a sequence of pieces. -/
def cutPieces : List (Nat × Nat) → Nat → Nat → List (Nat × Nat)
  | [], _, _ => []
  | (o, len) :: rest, lo, hi =>
    let a := min lo len
    let b := min hi len
    (if a < b then [(o + a, b - a)] else []) ++ cutPieces rest (lo - len) (hi - len)

/-- Bytes in a sequence of pieces. -/
def piecesLen (xs : List (Nat × Nat)) : Nat := (xs.map (·.2)).foldl (· + ·) 0

/-- STAGING_LOAD_CHUNK (R257): one 4 KiB chunk of the source is copied into the staging region. -/
def execStagingLoadChunk (req : Nat) (s : State) : Out :=
  tileEvent s req 1 (fun t => match t with
    | .stage k => some k
    | _ => none) fun s _ m n late =>
    match n.rec_, n.stage with
    | some src, some dst =>
      let xs := recPieces src
      let ys := recPieces dst
      let lo := 4096 * n.progress
      (openRec s m false late src (cutPieces xs lo (lo + 4096))).bind fun s from' =>
        (openRec s m true late dst (cutPieces ys lo (lo + 4096))).bind fun s dsts =>
          let bs := markedRead s from'
          let s1 := markedWrite s dsts bs
          let last := piecesLen xs ≤ lo + 4096
          .ok s1 (stepPoison s1 m n.slot 1 (recPoison s m.crew src (cutPieces xs lo (lo + 4096)) from') fun s =>
            updReq (updNode s n.core n.slot fun n => { n with progress := n.progress + 1, staged := last }) m.req fun r => { r with atPoint := true })
    | _, _ => .ok s s

/-! ### `tdef.wait` (R257) -/

/-- TDEF_WAIT_OBSERVE (R257): the arrival word's GEN differs from the awaited one; the region is watched from now on, and read. -/
def execTdefWaitObserve (req : Nat) (s : State) : Out :=
  match s.tileReqs.find? (·.id == req) with
  | none => .next s
  | some r =>
    let r1 := { r with phase := .running }
    match nextStep s r1 with
    | .wait slot => match nodeAt s r.core slot, getCrew s r.crew with
      | some n, some c =>
        if r.phase == .queued || r.phase == .faulted || c.where_ != .resident then .next (beginStep s req).1
        else
          let m : Mover := { req := req, crew := c, tid := leastOr 0 r.tids }
          match arrivalKey s m n.addr with
          | .error (code, sub) => .next (stepFault s req slot 6 (engineTrap m code sub n.addr.toNat))
          | .ok k =>
            if BitVec.ofNat 32 (memRead s.mem (k + 8) 4) == n.word then .next (if r.phase == .running then updReq s req fun r => { r with phase := .aside, since := s.cycle } else s)
            else .next (updReq (updNode s n.core slot fun n => { n with staged := true, watching := true }) req fun r => { r with phase := .running })
      | _, _ => .next s
    | _ => .next s

/-- Whether what a request set aside waits for has come about. -/
def waitOver (s : State) (r : TileReq) : Bool :=
  !engineHeld s r.id && !contended s r && (match nextStep s r with
    | .wait slot => match nodeAt s r.core slot, getCrew s r.crew with
      | some n, some c => match arrivalKey s { req := r.id, crew := c, tid := leastOr 0 r.tids } n.addr with
        | .ok k => BitVec.ofNat 32 (memRead s.mem (k + 8) 4) != n.word
        | .error _ => true
      | _, _ => true
    | _ => true)

/-- REQUEST_RESUME (R242): a request set aside runs on when its wait ends. -/
def execRequestResume (req : Nat) (s : State) : Out :=
  match s.tileReqs.find? fun r => r.id == req && r.phase == .aside with
  | none => .next s
  | some r => if waitOver s r && seqRuns s r then .next (updReq s req fun r => { r with phase := .running }) else .next s

/-! ### The product (R92, R93, R259) -/

/-- Rows of a row-major list. -/
def asRows {α : Type} (cols : Nat) : Nat → List α → List (List α)
  | 0, _ => []
  | n + 1, xs => xs.take cols :: asRows cols n (xs.drop cols)

/-- Columns of a list of rows. -/
def asCols {α : Type} (d : α) (cols : Nat) (rows : List (List α)) : List (List α) := (List.range cols).map fun j => rows.map fun r => r.getD j d

/-- The exact sum of products. -/
def dotExact (xs ys : List FV) : FV := (List.zipWith FV.mul xs ys).foldl (FV.add .rne) (.fin false 0 0)

/-- The partial after one more k-step (R92, R93). -/
def addPartial (int : Bool) (part : Nat) (sum : FV) : Nat :=
  if int then lowBits (cvtInt true 64 .rne sum + signExt part 32) 32
  else rne fp22 ((roundTo fp22 sum).add .rne (fp22.dec part))

/-- Operand regions of a product, with their formats (R258). -/
def productArgs (s : State) (n : Node) : Option (Node × Rec × Node × Rec) :=
  match n.ops.head?.bind (nodeAt s n.core), n.ops.tail.head?.bind (nodeAt s n.core) with
  | some x, some y => match x.region, y.region with
    | some p, some q => some (x, p, y, q)
    | _, _ => none
  | _, _ => none

/-- K_STEP (R92): one k-step is summed into the partial; the tile is cleared first at k-step 0 of a `.zero` product. -/
def execKStep (req : Nat) (s : State) : Out :=
  tileEvent s req 2 (fun t => match t with
    | .kstep k => some k
    | _ => none) fun s r m n late =>
    match productArgs s n with
    | none => .ok s s
    | some (x, p, y, q) =>
      let fw := n.word.toNat
      let fi := bitAt fw 17
      let int := bitsOf fw 3 0 == 6
      let (k, part) := r.part.getD (n.progress, List.replicate (n.rows * n.cols) 0)
      let len := min 32 (x.cols - 32 * k)
      (readWin s m late p { r0 := 0, c0 := 32 * k, rows := x.rows, cols := len }).bind fun s xs =>
        (readWin s m late q { r0 := 32 * k, c0 := 0, rows := len, cols := y.cols }).bind fun s ys =>
          let rows := asRows len x.rows (xs.1.map (fmtValF fi p.fmt))
          let cols := asCols (.fin false 0 0) y.cols (asRows y.cols len (ys.1.map (fmtValF fi q.fmt)))
          let sums := rows.flatMap fun a => cols.map fun b => dotExact a b
          .ok s (stepPoison s m n.slot 2 (xs.2 <|> ys.2) fun s =>
            let s1 := if k = 0 && !n.accum then updCrew s m.crew.uid fun c => putAcc c n.tile n.all 0 (List.replicate (n.rows * n.cols) 0) else s
            updReq s1 req fun r => { r with part := some (k + 1, List.zipWith (addPartial int) part sums), atPoint := false })

/-- The per-128 scales of a product at k-step `k`, one for each row of A or column of B (R85). -/
def readScales (s : State) (m : Mover) (late : Option TrapInfo) (r : Rec) (offs : List Nat) : Part (List FV × Option Nat) :=
  let xs := offs.map fun o => (r.plane + 4 * o, 4)
  (openRec s m false late r xs).bind fun s runs =>
    let (bs, _) := engineRead s runs
    .ok s ((List.range offs.length).map fun i => fp32.dec (bytesNat bs (4 * i) 4), recPoison s m.crew r xs runs)

/-- PROMOTION (R92): the partial is scaled and added into the accumulator tile, and the progress mark moves on; after the last k-step the node is DONE. -/
def execPromotion (req : Nat) (s : State) : Out :=
  tileEvent s req 3 (fun t => match t with
    | .promote k => some k
    | _ => none) fun s r m n late =>
    match productArgs s n, r.part with
    | some (_, p, _, q), some (k, part) =>
      let fw := n.word.toNat
      let int := bitsOf fw 3 0 == 6
      let scaled := bitsOf fw 13 12 == 1
      let st := k - 1
      let pa := (p.pitch + 127) / 128
      let pb := (q.pitch + 127) / 128
      let ones : Nat → List FV := fun l => List.replicate l (.fin false 1 0)
      (if scaled then readScales s m late p ((List.range n.rows).map fun i => i * pa + 32 * st / 128) else .ok s (ones n.rows, none)).bind fun s as =>
        (if scaled then readScales s m late q ((List.range n.cols).map fun j => 32 * st / 128 * pb + j / 128) else .ok s (ones n.cols, none)).bind fun s bs =>
          .ok s (stepPoison s m n.slot 3 (as.2 <|> bs.2) fun s =>
            let acc := accVals ((getCrew s m.crew.uid).getD m.crew) n.tile n.all
            let parts := part.map fun x => if int then roundTo fp32 (fvInt (signExt x 32)) else fp22.dec x
            let scs := as.1.flatMap fun a => bs.1.map fun b => roundTo fp32 (a.mul b)
            let out := List.zipWith (fun (z : Word) (q : FV) => BitVec.ofNat 32 (rne fp32 ((fp32.dec z.toNat).add .rne q)))
              acc (List.zipWith (fun x sc => roundTo fp32 (x.mul sc)) parts scs)
            let s1 := updReq (updCrew s m.crew.uid fun c => putAcc c n.tile n.all 0 out) req fun r => { r with part := none, atPoint := true }
            if k = kSteps s n then
              sweepDropped (updNode s1 n.core n.slot fun n => { n with progress := k, state := .done, owner := none, bind := .tile n.tile, byForce := false }) n.core
            else updNode s1 n.core n.slot fun n => { n with progress := k })
    | _, _ => .ok s s

/-! ### Elementwise passes (R235, R260–R264) -/

/-- Values kept for a request, over a part of their window. -/
def TileVals.cut (v : TileVals) (w : Win) : List Word × List Nat :=
  let start := fun i : Nat => (w.r0 + i - v.win.r0) * v.win.cols + (w.c0 - v.win.c0)
  ((List.range w.rows).flatMap fun i => (v.bits.drop (start i)).take w.cols, (List.range w.rows).flatMap fun i => (v.raw.drop (start i)).take w.cols)

/-- The values of a node that need no further step: kept, bound, or read from its data. -/
def nodeVals (s : State) (m : Mover) (late : Option TrapInfo) (r : TileReq) (n : Node) (w : Win) : Part ((List Word × List Nat) × Option Nat) :=
  match r.values.find? (·.slot == n.slot) with
  | some v => .ok s (v.cut w, none)
  | none =>
    let fromRec := fun (q : Rec) => (readWin s m late q w).bind fun s x =>
      .ok s ((x.1.map (fmtWord q.fmt), if n.kind == .tcvt && outFmt n.word.toNat == q.fmt then x.1 else []), x.2)
    match n.state, n.bind, n.region with
    | .done, .tile z, _ => .ok s ((accVals m.crew z w, []), none)
    | .done, .region q, _ => fromRec q
    | _, _, some q => fromRec q
    | _, _, none => .ok s ((accVals m.crew n.tile w, []), none)

/-- One FP32 operation of the tile ALU (R261). -/
def tileOp (sub : Nat) (x y : Word) : Word :=
  let a := fp32.dec x.toNat
  let b := fp32.dec y.toNat
  let deliver := fun v : FV => BitVec.ofNat 32 (rne fp32 v)
  match sub with
  | 0 => deliver (a.add .rne b)
  | 1 | 2 => deliver (a.mul b)
  | 3 => BitVec.ofNat 32 (minmaxBits fp32 true false x.toNat y.toNat)
  | 4 => if a.isNan then BitVec.ofNat 32 fp32.nan else if (FV.fin false 0 0).lt a then x else 0
  | 5 => deliver (approx .gelu fp32 a)
  | 6 => deliver (approx .silu fp32 a)
  | _ => deliver (approx .ex2 fp32 a)

/-- The encoding in an output format of a `tcvt`, other than PX4, and the value it stands for (R264). -/
def tileConvert (fw : Nat) (x : Word) : Word × Nat :=
  let v := fp32.decF (bitAt fw 17) x.toNat
  let mode := modeOf (bitsOf fw 21 20)
  match fmtOf (outFmt fw) with
  | some f =>
    let raw := cvtTo f mode (bitAt fw 18) (bitAt fw 19) v
    (fmtWord (outFmt fw) raw, raw)
  | none =>
    let raw := lowBits (cvtInt true 8 mode v) 8
    (fmtWord 6 raw, raw)

/-- The PX4 encodings of a row of values that starts at a block's first column (R244). -/
def px4Row : Nat → List FV → List Nat
  | 0, _ => []
  | _, [] => []
  | fuel + 1, xs =>
    let blk := xs.take 16
    let (e, mb, codes) := px4Block ((List.range 16).map fun j => blk.getD j (.fin false 0 0))
    (List.range blk.length).map (fun j => px4Raw (codes.getD j 0) e mb j) ++ px4Row fuel (xs.drop 16)

/-- The values of a computed node over a window, from those of its operands' windows. -/
def computeNode (s : State) (n : Node) (w : Win) (ops : List (Win × List Word)) : List Word × List Nat :=
  let at' := fun (k i j : Nat) => match ops[k]? with
    | some (v, xs) => xs.getD ((i - v.r0) * v.cols + (j - v.c0)) 0
    | none => 0
  let grid := fun (f : Nat → Nat → Word) => (List.range w.rows).flatMap fun i => (List.range w.cols).map fun j => f (w.r0 + i) (w.c0 + j)
  let x := n.ops.head?.bind (nodeAt s n.core)
  let y := n.ops.tail.head?.bind (nodeAt s n.core)
  let xr := (x.map (·.rows)).getD 1
  let xc := (x.map (·.cols)).getD 1
  let one := fun (k i : Nat) => if k = 1 then 0 else i
  match n.kind with
  | .tew => (grid fun i j => tileOp n.sub (at' 0 i j)
      (if n.sub = 2 then n.word else match y with
        | some y => at' 1 (one y.rows i) (one y.cols j)
        | none => 0), [])
  | .tred => (grid fun i _ =>
      let row := (List.range xc).map fun j => at' 0 i j
      match row with
      | [] => 0
      | a :: as => as.foldl (fun u v => tileOp (if n.sub = 0 then 0 else 3) u v) a, [])
  | .tmap =>
    let b := n.aux.toNat
    (match n.sub with
      | 0 => grid fun i j => at' 0 j i
      | 1 => grid fun i j => at' 0 (i + lo16 b) (j + hi16 b)
      | 2 => grid fun i j => at' 0 (one xr i) (one xc j)
      | 3 => grid fun i j => let k := i * n.cols + j; at' 0 (k / xc) (k % xc)
      | _ => grid fun i j =>
        let p := (i : Int) - signExt (lo16 b) 16
        let q := (j : Int) - signExt (hi16 b) 16
        if 0 ≤ p ∧ p < xr ∧ 0 ≤ q ∧ q < xc then at' 0 p.toNat q.toNat else 0, [])
  | .tcvt =>
    let fw := n.word.toNat
    if outFmt fw = 5 then
      let v := (ops.head?.map (·.1)).getD w
      let raw := (List.range w.rows).flatMap fun i =>
        let row := (List.range v.cols).map fun j => fp32.decF (bitAt fw 17) (at' 0 (w.r0 + i) (v.c0 + j)).toNat
        ((px4Row (v.cols + 1) row).drop (w.c0 - v.c0)).take w.cols
      (raw.map (fmtWord 5), raw)
    else
      let out := (grid fun i j => at' 0 i j).map (tileConvert fw)
      (out.map (·.1), out.map (·.2))
  | _ => (grid fun i j => at' 0 i j, [])

/-- Operand values of a pass, in operand order. -/
def gatherOps (m : Mover) (late : Option TrapInfo) (r : TileReq) (core : Nat) : List (Nat × Win) → State → Part (List (Win × List Word) × Option Nat)
  | [], s => .ok s ([], none)
  | (slot, w) :: rest, s => match nodeAt s core slot with
    | none => gatherOps m late r core rest s
    | some n => (nodeVals s m late r n w).bind fun s v =>
      (gatherOps m late r core rest s).bind fun s more => .ok s ((w, v.1.1) :: more.1, v.2 <|> more.2)

/-- ELEMENTWISE_PASS (R261): the tile ALU computes a node's demanded window, or brings the target's values into the staging rows. -/
def execElementwisePass (req : Nat) (s : State) : Out :=
  tileEvent s req 4 (fun t => match t with
    | .pass k => some k
    | _ => none) fun s r m n late =>
    match nodeAt s r.core r.node with
    | none => .ok s s
    | some target =>
      let w := (((demands s target r.win).find? (·.1 == n.slot)).map (·.2)).getD r.win
      let keep := fun (s : State) (xs : List Word × List Nat) (bad : Option Nat) =>
        stepPoison s m n.slot 4 bad fun s => updReq s req fun r => { r with values := r.values ++ [{ slot := n.slot, win := w, bits := xs.1, raw := xs.2 }], atPoint := false }
      if n.kind.isDef || n.kind == .tmm || n.state == .done then (nodeVals s m late r n w).bind fun s v => .ok s (keep s v.1 v.2)
      else (gatherOps m late r r.core (operandWins s n w) s).bind fun s ops => .ok s (keep s (computeNode s n w ops.1) ops.2)

/-! ### Stores (R244) -/

/-- The encodings in a destination's format of the values of a window that starts at a column, row-major. PX4 values whose blocks do not line up with the destination's are formed into blocks anew. (DESIGN CHOICE, log entry 152) -/
def storeRaw (n : Node) (d : Rec) (c0 : Nat) (v : List Word × List Nat) : List Nat :=
  if n.kind == .tcvt && outFmt n.word.toNat == d.fmt && !v.2.isEmpty && (d.fmt != 5 || c0 % 16 == 0) then v.2
  else if d.fmt = 5 then (asRows d.cols d.rows (v.1.map fun x => fp32.dec x.toNat)).flatMap (px4Row (d.cols + 1))
  else v.1.map fun x => match fmtOf d.fmt with
    | some f => rne f (fp32.dec x.toNat)
    | none => lowBits (cvtInt true 8 .rne (fp32.dec x.toNat)) 8

/-- The bytes of one row. -/
def rowOut (fmt : Nat) (xs : List Nat) : List Byte :=
  if fmt = 5 then (List.range ((xs.length + 1) / 2)).map fun i => BitVec.ofNat 8 (xs.getD (2 * i) 0 % 16 + 16 * (xs.getD (2 * i + 1) 0 % 16))
  else xs.flatMap fun x => (byteList 0 x (fmtHalves fmt / 2)).map (·.2)

/-- Headers of the PX4 blocks whose last byte lies in a chunk: offset and the two bytes (R244). -/
def chunkHeads (d : Rec) (rows : List (List Nat)) (lo hi : Nat) : List (Nat × List Byte) :=
  let len := rowBytes d.fmt 0 d.cols
  if d.fmt != 5 then []
  else ((List.range rows.length).zip rows).flatMap fun (i, row) => (List.range ((d.cols + 15) / 16)).filterMap fun b =>
    let last := i * len + min len (8 * b + 8) - 1
    let x := row.getD (16 * b) 0
    if lo ≤ last && last < hi then some (d.plane + 2 * (i * d.pitch / 16 + b), [BitVec.ofNat 8 (bitsOf x 11 4), BitVec.ofNat 8 (bitsOf x 19 12)]) else none

/-- One chunk of a destination region. -/
def storeRegion (s : State) (r : TileReq) (m : Mover) (n : Node) (d : Rec) (late : Option TrapInfo) : Part State :=
  match r.values.find? (·.slot == n.slot) with
  | none => .ok s s
  | some v =>
    let rows := asRows d.cols d.rows (storeRaw n d r.win.c0 (v.cut r.win))
    let lo := 4096 * r.chunk
    let hi := lo + 4096
    let pieces := cutPieces ((List.range d.rows).map fun i => (d.rowOff i 0, rowBytes d.fmt 0 d.cols)) lo hi
    let bytes := ((rows.flatMap (rowOut d.fmt)).drop lo).take 4096
    let heads := chunkHeads d rows lo hi
    if d.ro then .fault (engineTrap m tcPERM 0 (d.address s m.crew d.base).toNat [{ off := 2, len := 1, val := 0 }]) 0
    else (openRec s m true late d (pieces ++ heads.map fun h => (h.1, 2))).bind fun s runs =>
      let s1 := engineWrite s runs (bytes ++ heads.flatMap (·.2)) r.bad
      .ok s1 (updNode (updReq s1 r.id fun r => { r with chunk := r.chunk + 1, atPoint := true }) n.core n.slot fun n => if n.kind == .tmm then n else { n with progress := r.chunk + 1 })

/-- STORE_CHUNK (R244): up to 4 KiB of the window is written to its region or tile. (DEDUCED, log entry 79) -/
def execStoreChunk (req : Nat) (s : State) : Out :=
  let target := (s.tileReqs.find? (·.id == req)).map (·.node)
  tileEvent s req 5 (fun t => match t with
    | .chunk => target
    | _ => none) fun s r m n late => match r.goal with
    | .store d _ _ | .scratch d _ _ => storeRegion s r m n d late
    | .tile z => match r.values.find? (·.slot == n.slot) with
      | none => .ok s s
      | some v =>
        let xs := ((v.cut r.win).1.drop (1024 * r.chunk)).take 1024
        let s1 := updCrew s r.crew fun c => putAcc c z r.win (1024 * r.chunk) xs
        .ok s1 (updNode (updReq s1 req fun r => { r with chunk := r.chunk + 1, atPoint := true }) n.core n.slot fun n => if n.kind == .tmm then n else { n with progress := r.chunk + 1 })
    | .implicit => .ok s s

/-! ### The ends of a request (R238, R240, R246, R252) -/

/-- The tokens of a request return to its home gang, unless another of its requests uses the tile. -/
def returnTokens (s : State) (r : TileReq) : State :=
  let others := s.tileReqs.filter fun q => q.id != r.id && q.crew == r.crew && q.hgang == r.hgang
  updCrew s r.crew fun c => r.tiles.foldl (fun c z =>
    if tokenOf c z == .seq r.hgang && !others.any (·.tiles.contains z) then setToken c z (.gang r.hgang) else c) c

/-- Nodes that a request was forcing return to OPEN. -/
def releaseNodes (s : State) (id : Nat) : State :=
  { s with nodes := s.nodes.map fun n => if n.owner == some id then { n with owner := none, state := if n.state == .forcing then .open_ else n.state } else n }

/-- A request leaves the sequencer. -/
def removeReq (s : State) (r : TileReq) : State :=
  let s1 := releaseNodes (returnTokens s r) r.id
  { s1 with
    tileReqs := s1.tileReqs.filter (·.id != r.id)
    waiters := s1.waiters.filter (·.who != .engine r.id)
    engineWaits := s1.engineWaits.filter (·.1 != r.id) }

/-- What the target becomes when its request completes (R238); a destination window is watched from its binding (R249). -/
def settleTarget (s : State) (r : TileReq) (n : Node) : State :=
  let whole := r.win == n.all
  let done := fun (b : Binding) (windows : List Rec) => updNode s n.core n.slot fun n =>
    { n with state := .done, bind := b, byForce := true, bound := (windows ++ n.bound).eraseDups, watching := n.watching || !windows.isEmpty }
  match r.goal with
  | .implicit => if isRoot s n then freeNode s n.core n.slot else s
  | .store _ _ _ => if whole && isRoot s n && n.kind.isDef == false then freeNode s n.core n.slot else s
  | .scratch d _ _ => if whole && !n.kind.isDef then done (.region d) [d] else s
  | .tile z => if n.kind.isDef then s else done (.tile z) []

/-- The threads of a request that has completed wake and find it so (R240); an overflowing append simply executes again (R247). -/
def wakeRequest (s : State) (r : TileReq) : State :=
  match getCrew s r.crew with
  | none => s
  | some c =>
    let s1 := logReply s c 8 r.id r.node []
    let implicit := r.goal == .implicit
    updCrew s1 r.crew (·.mapT fun t =>
      if t.hold == .parked (.tile r.id) then
        { t with hold := .none, tileDone := if implicit then none else some r.id, cnt := if implicit then { t.cnt with tiles := t.cnt.tiles - 1 } else t.cnt }
      else t)

/-- TILE_REQUEST_COMPLETE (R240, R243): the last step is done; the target settles, the tokens return, and the parked threads wake. -/
def execTileRequestComplete (req : Nat) (s : State) : Out :=
  match s.tileReqs.find? (·.id == req) with
  | none => .next s
  | some r =>
    if r.phase != .running || !seqRuns s r || nextStep s r != .done then .next s
    else
      let s1 := removeReq s r
      let s2 := match nodeAt s1 r.core r.node with
        | some n => settleTarget s1 r n
        | none => s1
      let s3 := match getCrew s2 r.crew with
        | some c => acquireOn s2 c.coreId 1
        | none => s2
      .next (wakeRequest (sweepDropped s3 r.core) r)

/-- The 16-byte tile detail (R246). -/
def tileDetail (n : Option Node) (step : Nat) : List PutField :=
  [{ off := 0, len := 8, val := ((n.map Node.origin).getD 0).toNat }, { off := 8, len := 4, val := (n.map Node.number).getD 0 }, { off := 12, len := 1, val := step }]

/-- TILE_STEP_FAULT (R246): the fault is delivered to every thread parked on the request, at its instruction. -/
def execTileStepFault (req : Nat) (s : State) : Out :=
  match s.tileReqs.find? (·.id == req) with
  | none => .next s
  | some r => match r.fault, getCrew s r.crew with
    | some (info, slot, step), some c =>
      if logBlocked s c then .next s
      else
      let f := { info with kind2 := 1, extra := tileDetail (nodeAt s r.core slot) step, tids := r.tids, lanes := laneMask c r.tids }
      let s1 := sweepDropped (removeReq s r) r.core
      let s2 := logReply s1 c 8 r.id r.node []
      .next (updCrew s2 r.crew (·.mapT fun t =>
        if t.hold == .parked (.tile req) then { t with hold := .none, wakeTrap := some f, cnt := { t.cnt with tiles := t.cnt.tiles - 1 } } else t))
    | _, _ => .next s

/-- THUNK_SLOT_FREED (R247): a slot of the core is free, and the appends that wait execute again. -/
def execThunkSlotFreed (core : Nat) (s : State) : Out :=
  let free := fun (c : Crew) (t : Thread) => match t.hold with
    | .append _ w => if (openSlot s c w).isSome then { t with hold := .none } else t
    | _ => t
  .next { s with crews := s.crews.map fun c => if c.coreId == core && c.where_ == .resident then c.mapT (free c) else c }

end Sys2Proof.Machine
end

