-- ==== Sys2Proof/Machine/Stall.lean ====
section
/-! DEFINITION. The watched waits: the limits of meets, barriers, `regang`, arrival words, `wait`, rings, `hitld`, `tacq` and appends, and the ages of groups (R108, R114, R116, R225, R229, R408). -/

namespace Sys2Proof.Machine

/-- STALL (R355, R408): the trapping threads, what they wait at, its address or number, and further detail. -/
def stallTrap (c : Crew) (tids : List Nat) (kind addr : Nat) (more : List PutField) : TrapInfo :=
  let g := c.hgang (leastOr 0 tids)
  { code := tcSTALL, tids := tids, lanes := laneMask c (tids.filter fun t => c.hgang t == g), crewLevel := true,
    detail := [{ off := 0, len := 4, val := kind }, { off := 8, len := 8, val := addr }] ++ more }

/-- Raises STALL at the word of the lowest trapping thread. -/
def raiseStall (s : State) (c : Crew) (tids : List Nat) (kind addr : Nat) (more : List PutField) : State :=
  match c.thread (leastOr 0 tids) with
  | none => s
  | some t => raise s c.uid t.pc tids (stallTrap c tids kind addr more)

/-- The 1,024-bit map of threads (R116). -/
def threadMap (tids : List Nat) : PutField := { off := 32, len := 128, val := tids.foldl (fun m t => m ||| 2 ^ t) 0 }

def stallLimitOf (s : State) (c : Crew) : Nat := ((getCtx s c.ctx).map (·.stallLimit)).getD 0x01000000

/-- A crew whose counters run: resident and not stopped. -/
def countingCrew (s : State) (uid : Nat) : Option Crew := (getCrew s uid).filter (·.counts)

/-- The threads held at the word of a thread, for the same kind of wait, whose counters have reached the limit; `since` gives the start of such a wait. -/
def stalledWith (s : State) (c : Crew) (t : Thread) (since : Hold → Option Nat) : List Nat :=
  (c.threads.filter fun u => u.live && u.pc == t.pc && (match since u.hold with
    | some n => stallLimitOf s c ≤ c.counted - n
    | none => false)).map (·.tid)

/-- A wait watched by its thread's own counter: at the limit the crew takes STALL, and the counters return to 0. -/
def stallAt (s : State) (crew tid : Nat) (since : Hold → Option Nat) (reset : Nat → Hold → Hold)
    (info : Thread → Nat × Nat × List PutField) : State :=
  match countingCrew s crew with
  | none => s
  | some c => match c.thread tid with
    | none => s
    | some t =>
      let ids := stalledWith s c t since
      if !ids.contains tid then s
      else match c.thread (leastOr tid ids) with
        | none => s
        | some low =>
          let (kind, addr, more) := info low
          let s1 := raiseStall s c ids kind addr more
          updCrew s1 crew (·.mapT fun t => if ids.contains t.tid then { t with hold := reset c.counted t.hold } else t)

/-- ARW_WAIT_STALL (R229): the word's address, and the awaited generation, for which the layout of R355 has no place, at bytes 16 to 19. (DESIGN CHOICE, log entry 40) -/
def execArwWaitStall (crew tid : Nat) (s : State) : Out :=
  .next (stallAt s crew tid
    (fun h => match h with
      | .arw _ _ n _ => some n
      | _ => none)
    (fun now h => match h with
      | .arw k g _ a => .arw k g now a
      | h => h)
    fun t => match t.hold with
      | .arw _ g _ a => (17, a.toNat, [{ off := 16, len := 4, val := g }])
      | _ => (17, 0, []))

/-- The counters of a thread held at `wait`, one byte each (R225). -/
def counterBytes (t : Thread) : List PutField :=
  [{ off := 16, len := 1, val := t.cnt.loads }, { off := 17, len := 1, val := t.cnt.stores }, { off := 18, len := 1, val := t.cnt.copies },
   { off := 19, len := 1, val := t.cnt.tiles }, { off := 20, len := 1, val := t.cnt.rays }]

/-- WAIT_STALL (R225). -/
def execWaitStall (crew tid : Nat) (s : State) : Out :=
  .next (stallAt s crew tid
    (fun h => match h with
      | .wait _ n => some n
      | _ => none)
    (fun now h => match h with
      | .wait i _ => .wait i now
      | h => h)
    fun t => match t.hold with
      | .wait i _ => (22, i, counterBytes t)
      | _ => (22, 0, []))

/-- RING_STALL (R289): the descriptor's address. -/
def execRingStall (crew tid : Nat) (s : State) : Out :=
  .next (stallAt s crew tid
    (fun h => match h with
      | .ring _ n _ => some n
      | _ => none)
    (fun now h => match h with
      | .ring r _ d => .ring r now d
      | h => h)
    fun t => match t.hold with
      | .ring _ _ d => (18, d.toNat, [])
      | _ => (18, 0, []))

/-- HITLD_STALL (R342). -/
def execHitldStall (crew tid : Nat) (s : State) : Out :=
  .next (stallAt s crew tid
    (fun h => match h with
      | .hitld n => some n
      | _ => none)
    (fun now h => match h with
      | .hitld _ => .hitld now
      | h => h)
    fun t => (21, t.pc.toNat, []))

/-- TACQ_STALL (R252): the tile number. -/
def execTacqStall (crew tid : Nat) (s : State) : Out :=
  .next (stallAt s crew tid
    (fun h => match h with
      | .tacq _ _ n => some n
      | _ => none)
    (fun now h => match h with
      | .tacq z g _ => .tacq z g now
      | h => h)
    fun t => match t.hold with
      | .tacq z _ _ => (19, z, [])
      | _ => (19, 0, []))

/-- THUNK_APPEND_STALL (R247): the append's address. -/
def execThunkAppendStall (crew tid : Nat) (s : State) : Out :=
  .next (stallAt s crew tid
    (fun h => match h with
      | .append n _ => some n
      | _ => none)
    (fun now h => match h with
      | .append _ w => .append now w
      | h => h)
    fun t => (20, t.pc.toNat, []))

/-- BARRIER_STALL (R116): every thread waiting on the barrier traps; the map shows who has neither arrived nor exited. -/
def execBarrierStall (crew bar : Nat) (s : State) : Out :=
  match countingCrew s crew with
  | none => .next s
  | some c =>
    let x := barrierOf c bar
    let ids := (c.threads.filter (waitsAt bar x.phase)).map (·.tid)
    if ids.isEmpty || x.stall < stallLimitOf s c then .next s
    else
      let absent := (c.threads.filter (missing x)).map (·.tid)
      let s1 := raiseStall s c ids bar 0 [threadMap absent]
      .next (updCrew s1 crew fun c => setBarrier c bar { x with stall := 0 })

/-- REGANG_STALL (R116): the word's address and the live threads of the home gang that are not at it. -/
def execRegangStall (crew hgang : Nat) (s : State) : Out :=
  match countingCrew s crew with
  | none => .next s
  | some c =>
    let mem := c.threads.filter fun t => t.live && c.hgang t.tid == hgang
    let waits := mem.filter (·.hold == .regang)
    match waits with
    | [] => .next s
    | t :: _ =>
      if mget 0 c.regangStall hgang < stallLimitOf s c then .next s
      else
        let s1 := raiseStall s c (waits.map (·.tid)) 16 t.pc.toNat [threadMap ((mem.filter (·.pc != t.pc)).map (·.tid))]
        .next (updCrew s1 crew fun c => { c with regangStall := mput 0 c.regangStall hgang 0 })

/-- The cycle since which a thread is held at its meet. -/
def meetSince (t : Thread) : Option Nat := match t.hold with
  | .meet n => some n
  | _ => none

/-- MEET_TIMEOUT (R114): MEET_LIMIT cycles after its first member was held, a meet group is released alone. -/
def execMeetTimeout (crew tid : Nat) (s : State) : Out :=
  match countingCrew s crew with
  | none => .next s
  | some c => match c.thread tid, getCtx s c.ctx with
    | some t, some x =>
      let grp := c.threads.filter fun u => heldAtMeet u && c.hgang u.tid == c.hgang tid && u.meet == t.meet
      let first := leastOr c.vclk.toNat (grp.filterMap meetSince)
      if heldAtMeet t && x.meetLimit ≤ c.vclk.toNat - first then .next (updCrew s crew fun c => releaseMeet c (grp.map (·.tid)))
      else .next s
    | _, _ => .next s

/-- AGE_LIMIT_REACHED (R108): the members of a group of that age take it, and the group is chosen first. -/
def execAgeLimitReached (crew tid : Nat) (s : State) : Out :=
  match getCrew s crew with
  | none => .next s
  | some c => match c.thread tid with
    | none => .next s
    | some t =>
      if t.age < ageLimitOf s c.ctx || t.hold != .none then .next s
      else .next (updCrew s crew (·.mapT fun u =>
        let same := match t.bound with
          | some b => u.bound == some b
          | none => u.bound.isNone && u.queue == t.queue && u.pc == t.pc && u.hold == .none
        if same && u.live then { u with age := max u.age t.age } else u))

end Sys2Proof.Machine
end

