-- ==== Sys2Proof/Machine/Schedule.lean ====
section
/-! DEFINITION. One step over a meaning of instructions and events: the schedule's head, or, with nothing scheduled, an event of the device in turn with a core's next gang. -/

namespace Sys2Proof.Machine

/-! ### Events of the device that may be due

Each is only tried: its meaning says whether it happens. Events that carry a choice of the outside world (a fault reply, a host write, a part that fails) are not among them; a schedule names those. -/

/-- An event with what it names: what it does to the machine. -/
abbrev Event := State → Out

/-- Events of the memory hierarchy. -/
def memoryEvents (s : State) : List Event :=
  s.loads.map (fun l => execLoadComplete l.id) ++ s.stores.map (fun p => execStoreAck p.id)
    ++ (s.stores.filter (·.wait != .free)).flatMap (fun p => [execSharedWriteRelease p.id, execRaceWaitExpiry p.id])
    ++ s.walks.map (fun w => execWalkComplete w.id) ++ s.migs.map (fun m => execMigrationLineCopy m.id)
    ++ (s.cores.filter fun k => !k.2.change.isEmpty).map (fun k => execBfpChangeComplete k.1)
    ++ (s.contexts.filter fun c => !c.xltInv.isEmpty).map (fun c => execXltInvDone c.id)

/-- Events of the engines and the rings. -/
def engineEvents (s : State) : List Event :=
  s.flume.map (fun r => execFlumeChunk r.id) ++ s.rings.flatMap (fun r => [execRingServe r.id, execPopaAnswer r.id])
    ++ s.colls.map (fun r => execCollChunk r.id) ++ s.querns.map (fun q => execQuernBlock q.id)
    ++ s.tileReqs.flatMap (fun r => [execStagingLoadChunk r.id, execTdefWaitObserve r.id, execKStep r.id, execPromotion r.id, execElementwisePass r.id,
        execStoreChunk r.id, execTileRequestComplete r.id, execTileStepFault r.id, execRequestResume r.id])
    ++ (s.nodes.filter (·.watchDue)).map (fun n => execWatchReached n.core n.slot)

/-- Events of the ray and filter pipes, and answers of the svc server that wait for their crews. -/
def rayEvents (s : State) : List Event :=
  s.rays.flatMap (fun r => [execRayArrival r.id, execNodeVisit r.id, execTailraceRecord r.id, execRayEnd r.id])
    ++ (if s.rays.isEmpty then [] else (List.range 16).flatMap fun j => [execLeatReload j, execLeatAgeExpiry j, execTreeletSchedule j])
    ++ s.held.map (fun h => execHoldLimitExpiry h.id) ++ s.pubs.map (fun p => execPublishExchange p.id)
    ++ s.filters.map (fun r => execFilterRequest r.id) ++ s.vis.flatMap (fun r => [execVisBinning r.id, execVisTileTest r.id])
    ++ s.replays.map (fun r => execReplayResult r.id) ++ (s.svc.filter (·.answered)).map (fun k => takeAnswered k.id)

/-- Events of a thread: its limits, and a deferred fault when nothing of its crew is left to issue. -/
def threadEvents (c : Crew) (t : Thread) : List Event :=
  (match t.hold with
    | .meet _ => [execMeetTimeout c.uid t.tid]
    | .arw .. => [execArwWaitStall c.uid t.tid]
    | .wait .. => [execWaitStall c.uid t.tid]
    | .ring .. => [execRingStall c.uid t.tid]
    | .hitld _ => [execHitldStall c.uid t.tid]
    | .tacq .. => [execTacqStall c.uid t.tid]
    | .append .. => [execThunkAppendStall c.uid t.tid, execThunkSlotFreed c.coreId]
    | _ => [])
  ++ (if t.deferred.isEmpty && c.orphanFaults.isEmpty then [] else [execDeferredEngineFault c.uid t.tid])

/-- Events of crews: their traps, timers, barriers and ends, and those of their threads. -/
def crewEvents (s : State) : List Event := s.crews.flatMap fun c =>
  c.threads.flatMap (threadEvents c)
    ++ c.barriers.map (fun b => execBarrierStall c.uid b.1) ++ c.regangStall.map (fun g => execRegangStall c.uid g.1)
    ++ (if c.timer.isSome then [execTimerDue c.uid] else [])
    ++ (if c.halt.isSome then [execSkidEnd c.uid, execCrewSaveComplete c.uid, execTrapRecordPost c.uid, execHandlerStart c.uid, execCrewCtlResume c.uid,
          execCrewCtlResumePast c.uid, execCrewCtlKill c.uid, execCrewCtlAbort c.uid] else [])
    ++ (match c.taking with
      | some k => [execSkidEnd c.uid, execCrewSaveComplete c.uid] ++ (if k.dest == some c.coreId then [execSpareCoreReplace c.coreId] else [])
      | none => [])
    ++ (if c.isGen then [execBlockFull c.uid, execGeneratorStepAside c.uid, execGeneratorRestore c.uid] else [])
    ++ (if c.threads.any (·.live) then [] else [execCrewRetire c.uid])

/-- Events of queues, runs and contexts. -/
def runEvents (s : State) : List Event :=
  s.queues.flatMap (fun q => [execHostCmdNop q.q, execHostCmdLaunch q.q, execHostCmdWait q.q, execHostCmdSignal q.q, execDoorbellSwitch q.q,
      execUnmapWriteback q.q, execQueueIdleTimeout q.q])
    ++ s.runs.map (fun r => execSeedEnqueue r.id)
    ++ (if s.ready.isEmpty then [] else (List.range 4).map execCrewSlotTake)
    ++ (if s.genQueue.isEmpty then [] else (List.range 4).map execGeneratorSlotTake)
    ++ (if s.waiters.any (·.overflow) then (List.range 4).map execWaitListOverflowRetry else [])
    ++ s.collectors.flatMap (fun k => [execCollectorSkidDone k.ctx k.die] ++ (List.range 6).map (fun i => execEngineStopPoint k.ctx k.die (i + 1))
        ++ [execSaveDone k.ctx k.die])

/-- Events of the device as a whole. -/
def deviceEvents (s : State) : List Event :=
  if s.bar.bootStage < 3 then [] else execWalkerPass :: (List.range 4).map execQuiescenceEpochAdvance

/-- All of them, started at a place that moves with the cycle so that none is passed over for ever. -/
def candidates (s : State) : List Event :=
  let xs := memoryEvents s ++ engineEvents s ++ rayEvents s ++ crewEvents s ++ runEvents s ++ deviceEvents s
  let k := s.cycle / 2 % max 1 xs.length
  xs.drop k ++ xs.take k

/-- The first event that changes anything. -/
def eventMove (s : State) : Option Out :=
  (candidates s).findSome? fun f => match f s with
    | .next t => if t = s then none else some (.next t)
    | _ => none

/-- A step with nothing scheduled. -/
def stepFree (ex : Instr → State → Out) (s : State) : Out :=
  let s1 := pass 1 { s with issue := none }
  let early := if s1.cycle % 2 = 0 then none else eventMove s1
  match early with
  | some o => o
  | none => match turnCore s1 with
    | some k => match issueOn s1 k with
      | .run i s2 => ex i s2
      | .done s2 => .next s2
      | _ => .next s1
    | none => (eventMove s1).getD (.next s1)

/-- One step, given what instructions and events do. (DESIGN CHOICE, log entry 2) -/
def stepWith (ex : Instr → State → Out) (s : State) : Out :=
  match nextMove s with
  | .dead => .fault .powerOff
  | .done s1 => .next s1
  | .run i s1 => ex i s1
  | .free s1 => stepFree ex s1

end Sys2Proof.Machine
end

