-- ==== Sys2Proof/Machine/Dispatch.lean ====
section
/-! DEFINITION. The meaning of each constructor of `Instr`, one arm each. -/

namespace Sys2Proof.Machine

/-- What an instruction, or an event of the device, does. -/
def exec (i : Instr) (s : State) : Host.Outcome State Fault Refusal :=
  match i with
  | .nop a => Sys2Proof.Machine.execNop a s
  | .br a => Sys2Proof.Machine.execBr a s
  | .brd a => Sys2Proof.Machine.execBrd a s
  | .bri a => Sys2Proof.Machine.execBri a s
  | .call a => Sys2Proof.Machine.execCall a s
  | .calli a => Sys2Proof.Machine.execCalli a s
  | .ret a => Sys2Proof.Machine.execRet a s
  | .exit a => Sys2Proof.Machine.execExit a s
  | .barSync a => Sys2Proof.Machine.execBarSync a s
  | .barArrive a => Sys2Proof.Machine.execBarArrive a s
  | .barWait a => Sys2Proof.Machine.execBarWait a s
  | .vote a => Sys2Proof.Machine.execVote a s
  | .regang a => Sys2Proof.Machine.execRegang a s
  | .meetX a => Sys2Proof.Machine.execMeetX a s
  | .meetSet a => Sys2Proof.Machine.execMeetSet a s
  | .shfl a => Sys2Proof.Machine.execShfl a s
  | .trapTrap a => Sys2Proof.Machine.execTrapTrap a s
  | .trapBrk a => Sys2Proof.Machine.execTrapBrk a s
  | .trapSvc a => Sys2Proof.Machine.execTrapSvc a s
  | .sget a => Sys2Proof.Machine.execSget a s
  | .sset a => Sys2Proof.Machine.execSset a s
  | .cntCclk a => Sys2Proof.Machine.execCntCclk a s
  | .cntVclk a => Sys2Proof.Machine.execCntVclk a s
  | .cntArm a => Sys2Proof.Machine.execCntArm a s
  | .cntDisarm a => Sys2Proof.Machine.execCntDisarm a s
  | .cntLeft a => Sys2Proof.Machine.execCntLeft a s
  | .iadd a => Sys2Proof.Machine.execIadd a s
  | .isub a => Sys2Proof.Machine.execIsub a s
  | .imul a => Sys2Proof.Machine.execImul a s
  | .imad a => Sys2Proof.Machine.execImad a s
  | .iminmax a => Sys2Proof.Machine.execIminmax a s
  | .iabsneg a => Sys2Proof.Machine.execIabsneg a s
  | .logic a => Sys2Proof.Machine.execLogic a s
  | .shift a => Sys2Proof.Machine.execShift a s
  | .bfx a => Sys2Proof.Machine.execBfx a s
  | .bfi a => Sys2Proof.Machine.execBfi a s
  | .bitc a => Sys2Proof.Machine.execBitc a s
  | .icmp a => Sys2Proof.Machine.execIcmp a s
  | .sel a => Sys2Proof.Machine.execSel a s
  | .plog a => Sys2Proof.Machine.execPlog a s
  | .mov a => Sys2Proof.Machine.execMov a s
  | .movi a => Sys2Proof.Machine.execMovi a s
  | .lea a => Sys2Proof.Machine.execLea a s
  | .perm a => Sys2Proof.Machine.execPerm a s
  | .idiv a => Sys2Proof.Machine.execIdiv a s
  | .fadd a => Sys2Proof.Machine.execFadd a s
  | .fsub a => Sys2Proof.Machine.execFsub a s
  | .fmul a => Sys2Proof.Machine.execFmul a s
  | .ffma a => Sys2Proof.Machine.execFfma a s
  | .fminmax a => Sys2Proof.Machine.execFminmax a s
  | .fabsneg a => Sys2Proof.Machine.execFabsneg a s
  | .fcmp a => Sys2Proof.Machine.execFcmp a s
  | .fround a => Sys2Proof.Machine.execFround a s
  | .fldexp a => Sys2Proof.Machine.execFldexp a s
  | .fclass a => Sys2Proof.Machine.execFclass a s
  | .fdot2 a => Sys2Proof.Machine.execFdot2 a s
  | .fsqrt a => Sys2Proof.Machine.execFsqrt a s
  | .fdiv a => Sys2Proof.Machine.execFdiv a s
  | .frcp a => Sys2Proof.Machine.execFrcp a s
  | .frsq a => Sys2Proof.Machine.execFrsq a s
  | .fex2 a => Sys2Proof.Machine.execFex2 a s
  | .flg2 a => Sys2Proof.Machine.execFlg2 a s
  | .fsin a => Sys2Proof.Machine.execFsin a s
  | .fcos a => Sys2Proof.Machine.execFcos a s
  | .cvt a => Sys2Proof.Machine.execCvt a s
  | .cvtf8 a => Sys2Proof.Machine.execCvtf8 a s
  | .pxpack a => Sys2Proof.Machine.execPxpack a s
  | .pxunpack a => Sys2Proof.Machine.execPxunpack a s
  | .amax a => Sys2Proof.Machine.execAmax a s
  | .fmtwMk a => Sys2Proof.Machine.execFmtwMk a s
  | .fmtwChk a => Sys2Proof.Machine.execFmtwChk a s
  | .fmtwWhy a => Sys2Proof.Machine.execFmtwWhy a s
  | .ld a => Sys2Proof.Machine.execLd a s
  | .st a => Sys2Proof.Machine.execSt a s
  | .ldx a => Sys2Proof.Machine.execLdx a s
  | .stx a => Sys2Proof.Machine.execStx a s
  | .pref a => Sys2Proof.Machine.execPref a s
  | .cctlInvL1 a => Sys2Proof.Machine.execCctlInvL1 a s
  | .cctlInvL1r a => Sys2Proof.Machine.execCctlInvL1r a s
  | .cctlWbL2r a => Sys2Proof.Machine.execCctlWbL2r a s
  | .cctlInvL2r a => Sys2Proof.Machine.execCctlInvL2r a s
  | .cctlInvRdcr a => Sys2Proof.Machine.execCctlInvRdcr a s
  | .cctlUnpin a => Sys2Proof.Machine.execCctlUnpin a s
  | .cctlPart a => Sys2Proof.Machine.execCctlPart a s
  | .migHint a => Sys2Proof.Machine.execMigHint a s
  | .migMove a => Sys2Proof.Machine.execMigMove a s
  | .pgenReg a => Sys2Proof.Machine.execPgenReg a s
  | .pgenUnreg a => Sys2Proof.Machine.execPgenUnreg a s
  | .pfill a => Sys2Proof.Machine.execPfill a s
  | .pfillFail a => Sys2Proof.Machine.execPfillFail a s
  | .pstat a => Sys2Proof.Machine.execPstat a s
  | .pstatFault a => Sys2Proof.Machine.execPstatFault a s
  | .pevict a => Sys2Proof.Machine.execPevict a s
  | .ppinPin a => Sys2Proof.Machine.execPpinPin a s
  | .ppinUnpin a => Sys2Proof.Machine.execPpinUnpin a s
  | .atom a => Sys2Proof.Machine.execAtom a s
  | .red a => Sys2Proof.Machine.execRed a s
  | .fence a => Sys2Proof.Machine.execFence a s
  | .xfence a => Sys2Proof.Machine.execXfence a s
  | .wait a => Sys2Proof.Machine.execWait a s
  | .arwInit a => Sys2Proof.Machine.execArwInit a s
  | .arwExpect a => Sys2Proof.Machine.execArwExpect a s
  | .arwArrive a => Sys2Proof.Machine.execArwArrive a s
  | .arwWait a => Sys2Proof.Machine.execArwWait a s
  | .tdefSrc a => Sys2Proof.Machine.execTdefSrc a s
  | .tdefStage a => Sys2Proof.Machine.execTdefStage a s
  | .tdefWait a => Sys2Proof.Machine.execTdefWait a s
  | .tdefAcc a => Sys2Proof.Machine.execTdefAcc a s
  | .tmm a => Sys2Proof.Machine.execTmm a s
  | .tew a => Sys2Proof.Machine.execTew a s
  | .tred a => Sys2Proof.Machine.execTred a s
  | .tmap a => Sys2Proof.Machine.execTmap a s
  | .tcvt a => Sys2Proof.Machine.execTcvt a s
  | .tforceAcc a => Sys2Proof.Machine.execTforceAcc a s
  | .tforceScr a => Sys2Proof.Machine.execTforceScr a s
  | .tst a => Sys2Proof.Machine.execTst a s
  | .tacq a => Sys2Proof.Machine.execTacq a s
  | .tacqTry a => Sys2Proof.Machine.execTacqTry a s
  | .trel a => Sys2Proof.Machine.execTrel a s
  | .tdrop a => Sys2Proof.Machine.execTdrop a s
  | .tdropAll a => Sys2Proof.Machine.execTdropAll a s
  | .tstat a => Sys2Proof.Machine.execTstat a s
  | .tstatTab a => Sys2Proof.Machine.execTstatTab a s
  | .tstatTok a => Sys2Proof.Machine.execTstatTok a s
  | .cpy a => Sys2Proof.Machine.execCpy a s
  | .cpyg a => Sys2Proof.Machine.execCpyg a s
  | .spawn a => Sys2Proof.Machine.execSpawn a s
  | .qPush a => Sys2Proof.Machine.execQPush a s
  | .qPop a => Sys2Proof.Machine.execQPop a s
  | .qPopTry a => Sys2Proof.Machine.execQPopTry a s
  | .qPopa a => Sys2Proof.Machine.execQPopa a s
  | .weirPush a => Sys2Proof.Machine.execWeirPush a s
  | .weirPop a => Sys2Proof.Machine.execWeirPop a s
  | .weirFree a => Sys2Proof.Machine.execWeirFree a s
  | .coll a => Sys2Proof.Machine.execColl a s
  | .dcmp a => Sys2Proof.Machine.execDcmp a s
  | .joinDec a => Sys2Proof.Machine.execJoinDec a s
  | .joinRet a => Sys2Proof.Machine.execJoinRet a s
  | .trace a => Sys2Proof.Machine.execTrace a s
  | .hitld a => Sys2Proof.Machine.execHitld a s
  | .hitldTry a => Sys2Proof.Machine.execHitldTry a s
  | .hitrepAccept a => Sys2Proof.Machine.execHitrepAccept a s
  | .hitrepIgnore a => Sys2Proof.Machine.execHitrepIgnore a s
  | .hitrepTerm a => Sys2Proof.Machine.execHitrepTerm a s
  | .hitrepCommit a => Sys2Proof.Machine.execHitrepCommit a s
  | .hitrepCommitTerm a => Sys2Proof.Machine.execHitrepCommitTerm a s
  | .tlpubHold a => Sys2Proof.Machine.execTlpubHold a s
  | .tlpubPub a => Sys2Proof.Machine.execTlpubPub a s
  | .tlpubStat a => Sys2Proof.Machine.execTlpubStat a s
  | .hgrid a => Sys2Proof.Machine.execHgrid a s
  | .smpLd a => Sys2Proof.Machine.execSmpLd a s
  | .smpPoint a => Sys2Proof.Machine.execSmpPoint a s
  | .smpBilin a => Sys2Proof.Machine.execSmpBilin a s
  | .smpTrilin a => Sys2Proof.Machine.execSmpTrilin a s
  | .smpAniso a => Sys2Proof.Machine.execSmpAniso a s
  | .vis a => Sys2Proof.Machine.execVis a s
  | .replay a => Sys2Proof.Machine.execReplay a s
  | .pairedWord p h0 h1 => Sys2Proof.Machine.execPairedWord p h0 h1 s
  | .powerGood => Sys2Proof.Machine.execPowerGood s
  | .powerRemoved => Sys2Proof.Machine.execPowerRemoved s
  | .bootRomAuthenticate off len code => Sys2Proof.Machine.execBootRomAuthenticate off len code s
  | .stackTrainingDone stack passes passesOnSpares => Sys2Proof.Machine.execStackTrainingDone stack passes passesOnSpares s
  | .hostLinkTrain rate width => Sys2Proof.Machine.execHostLinkTrain rate width s
  | .flozorLinkBringup port rate node => Sys2Proof.Machine.execFlozorLinkBringup port rate node s
  | .attestationRequest => Sys2Proof.Machine.execAttestationRequest s
  | .bootStageRead => Sys2Proof.Machine.execBootStageRead s
  | .bootImage => Sys2Proof.Machine.execBootImage s
  | .deviceReset => Sys2Proof.Machine.execDeviceReset s
  | .mbxMessage => Sys2Proof.Machine.execMbxMessage s
  | .mbxStatRead => Sys2Proof.Machine.execMbxStatRead s
  | .bootBufferWrite off v => Sys2Proof.Machine.execBootBufferWrite off v s
  | .bar2Win v => Sys2Proof.Machine.execBar2Win v s
  | .bar2Resize log2 => Sys2Proof.Machine.execBar2Resize log2 s
  | .bar2Access x store => Sys2Proof.Machine.execBar2Access x store s
  | .bfpScrWrite core v => Sys2Proof.Machine.execBfpScrWrite core v s
  | .notify q v => Sys2Proof.Machine.execNotify q v s
  | .svcDone ctx idx => Sys2Proof.Machine.execSvcDone ctx idx s
  | .registerWrite off width v => Sys2Proof.Machine.execRegisterWrite off width v s
  | .egressWindowProgram byHost idx base limit => Sys2Proof.Machine.execEgressWindowProgram byHost idx base limit s
  | .coreHot r => Sys2Proof.Machine.execCoreHot r s
  | .coreDutyCycle core => Sys2Proof.Machine.execCoreDutyCycle core s
  | .dutyCycleDeepen core => Sys2Proof.Machine.execDutyCycleDeepen core s
  | .hbmThermalNarrow r => Sys2Proof.Machine.execHbmThermalNarrow r s
  | .thermalTrip temp => Sys2Proof.Machine.execThermalTrip temp s
  | .fantailMigration crew core => Sys2Proof.Machine.execFantailMigration crew core s
  | .correctedError part => Sys2Proof.Machine.execCorrectedError part s
  | .uncorrectableError key => Sys2Proof.Machine.execUncorrectableError key s
  | .flozorLaneFail port lane => Sys2Proof.Machine.execFlozorLaneFail port lane s
  | .flozorMessageDrop m => Sys2Proof.Machine.execFlozorMessageDrop m s
  | .channelRetireBegin stack ch => Sys2Proof.Machine.execChannelRetireBegin stack ch s
  | .channelFenceDrained stack ch => Sys2Proof.Machine.execChannelFenceDrained stack ch s
  | .atomCopy stack ch atom uncorrectable => Sys2Proof.Machine.execAtomCopy stack ch atom uncorrectable s
  | .channelNarrow stack ch => Sys2Proof.Machine.execChannelNarrow stack ch s
  | .spareCoreReplace core => Sys2Proof.Machine.execSpareCoreReplace core s
  | .dramRowRemap stack bank row => Sys2Proof.Machine.execDramRowRemap stack bank row s
  | .rayPipeSpare stack pipe => Sys2Proof.Machine.execRayPipeSpare stack pipe s
  | .binfloorWaySpare core way => Sys2Proof.Machine.execBinfloorWaySpare core way s
  | .hostCmdNop q => Sys2Proof.Machine.execHostCmdNop q s
  | .hostCmdLaunch q => Sys2Proof.Machine.execHostCmdLaunch q s
  | .hostCmdWait q => Sys2Proof.Machine.execHostCmdWait q s
  | .hostCmdSignal q => Sys2Proof.Machine.execHostCmdSignal q s
  | .seedEnqueue run => Sys2Proof.Machine.execSeedEnqueue run s
  | .walkerPass => Sys2Proof.Machine.execWalkerPass s
  | .doorbellSwitch q => Sys2Proof.Machine.execDoorbellSwitch q s
  | .unmapWriteback q => Sys2Proof.Machine.execUnmapWriteback q s
  | .queueIdleTimeout q => Sys2Proof.Machine.execQueueIdleTimeout q s
  | .crewSlotTake die => Sys2Proof.Machine.execCrewSlotTake die s
  | .crewRetire crew => Sys2Proof.Machine.execCrewRetire crew s
  | .ageLimitReached crew tid => Sys2Proof.Machine.execAgeLimitReached crew tid s
  | .meetTimeout crew tid => Sys2Proof.Machine.execMeetTimeout crew tid s
  | .barrierStall crew bar => Sys2Proof.Machine.execBarrierStall crew bar s
  | .regangStall crew hgang => Sys2Proof.Machine.execRegangStall crew hgang s
  | .walkComplete walk => Sys2Proof.Machine.execWalkComplete walk s
  | .faultReplyResolved walk => Sys2Proof.Machine.execFaultReplyResolved walk s
  | .faultReplyUnresolvable walk => Sys2Proof.Machine.execFaultReplyUnresolvable walk s
  | .xltInv ctx v => Sys2Proof.Machine.execXltInv ctx v s
  | .xltInvDone ctx => Sys2Proof.Machine.execXltInvDone ctx s
  | .migrationStart ctx va frame => Sys2Proof.Machine.execMigrationStart ctx va frame s
  | .migrationLineCopy mig => Sys2Proof.Machine.execMigrationLineCopy mig s
  | .loadComplete ld => Sys2Proof.Machine.execLoadComplete ld s
  | .storeAck st => Sys2Proof.Machine.execStoreAck st s
  | .bfpChangeComplete core => Sys2Proof.Machine.execBfpChangeComplete core s
  | .quiescenceEpochAdvance die => Sys2Proof.Machine.execQuiescenceEpochAdvance die s
  | .sharedWriteRelease st => Sys2Proof.Machine.execSharedWriteRelease st s
  | .raceWaitExpiry st => Sys2Proof.Machine.execRaceWaitExpiry st s
  | .generatorSlotTake die => Sys2Proof.Machine.execGeneratorSlotTake die s
  | .blockFull crew => Sys2Proof.Machine.execBlockFull crew s
  | .waitListOverflowRetry die => Sys2Proof.Machine.execWaitListOverflowRetry die s
  | .generatorStepAside crew => Sys2Proof.Machine.execGeneratorStepAside crew s
  | .generatorRestore crew => Sys2Proof.Machine.execGeneratorRestore crew s
  | .reclaim ctx va => Sys2Proof.Machine.execReclaim ctx va s
  | .quernExpansionDone ctx va frame => Sys2Proof.Machine.execQuernExpansionDone ctx va frame s
  | .quernExpansionFail ctx va status => Sys2Proof.Machine.execQuernExpansionFail ctx va status s
  | .recompression ctx va image => Sys2Proof.Machine.execRecompression ctx va image s
  | .arwWaitStall crew tid => Sys2Proof.Machine.execArwWaitStall crew tid s
  | .waitStall crew tid => Sys2Proof.Machine.execWaitStall crew tid s
  | .stagingLoadChunk req => Sys2Proof.Machine.execStagingLoadChunk req s
  | .kStep req => Sys2Proof.Machine.execKStep req s
  | .promotion req => Sys2Proof.Machine.execPromotion req s
  | .elementwisePass req => Sys2Proof.Machine.execElementwisePass req s
  | .storeChunk req => Sys2Proof.Machine.execStoreChunk req s
  | .tileRequestComplete req => Sys2Proof.Machine.execTileRequestComplete req s
  | .tileStepFault req => Sys2Proof.Machine.execTileStepFault req s
  | .requestResume req => Sys2Proof.Machine.execRequestResume req s
  | .tdefWaitObserve req => Sys2Proof.Machine.execTdefWaitObserve req s
  | .tacqStall crew tid => Sys2Proof.Machine.execTacqStall crew tid s
  | .thunkSlotFreed core => Sys2Proof.Machine.execThunkSlotFreed core s
  | .thunkAppendStall crew tid => Sys2Proof.Machine.execThunkAppendStall crew tid s
  | .watchReached core slot => Sys2Proof.Machine.execWatchReached core slot s
  | .flumeChunk req => Sys2Proof.Machine.execFlumeChunk req s
  | .deferredEngineFault crew tid => Sys2Proof.Machine.execDeferredEngineFault crew tid s
  | .ringServe req => Sys2Proof.Machine.execRingServe req s
  | .ringStall crew tid => Sys2Proof.Machine.execRingStall crew tid s
  | .popaAnswer req => Sys2Proof.Machine.execPopaAnswer req s
  | .collMatch req peers => Sys2Proof.Machine.execCollMatch req peers s
  | .collChunk req => Sys2Proof.Machine.execCollChunk req s
  | .quernBlock req => Sys2Proof.Machine.execQuernBlock req s
  | .rayArrival ray => Sys2Proof.Machine.execRayArrival ray s
  | .leatReload stack => Sys2Proof.Machine.execLeatReload stack s
  | .treeletSchedule stack => Sys2Proof.Machine.execTreeletSchedule stack s
  | .leatAgeExpiry stack => Sys2Proof.Machine.execLeatAgeExpiry stack s
  | .nodeVisit ray => Sys2Proof.Machine.execNodeVisit ray s
  | .tailraceRecord ray => Sys2Proof.Machine.execTailraceRecord ray s
  | .rayEnd ray => Sys2Proof.Machine.execRayEnd ray s
  | .holdLimitExpiry hold => Sys2Proof.Machine.execHoldLimitExpiry hold s
  | .publishExchange hold => Sys2Proof.Machine.execPublishExchange hold s
  | .rayMessageLost ray => Sys2Proof.Machine.execRayMessageLost ray s
  | .filterRequest req => Sys2Proof.Machine.execFilterRequest req s
  | .visBinning req => Sys2Proof.Machine.execVisBinning req s
  | .visTileTest req => Sys2Proof.Machine.execVisTileTest req s
  | .replayResult req => Sys2Proof.Machine.execReplayResult req s
  | .skidEnd crew => Sys2Proof.Machine.execSkidEnd crew s
  | .crewSaveComplete crew => Sys2Proof.Machine.execCrewSaveComplete crew s
  | .trapRecordPost crew => Sys2Proof.Machine.execTrapRecordPost crew s
  | .handlerStart crew => Sys2Proof.Machine.execHandlerStart crew s
  | .crewCtlResume crew => Sys2Proof.Machine.execCrewCtlResume crew s
  | .crewCtlResumePast crew => Sys2Proof.Machine.execCrewCtlResumePast crew s
  | .crewCtlKill crew => Sys2Proof.Machine.execCrewCtlKill crew s
  | .crewCtlAbort crew => Sys2Proof.Machine.execCrewCtlAbort crew s
  | .timerDue crew => Sys2Proof.Machine.execTimerDue crew s
  | .svcReply call replies => Sys2Proof.Machine.execSvcReply call replies s
  | .svcRefused call => Sys2Proof.Machine.execSvcRefused call s
  | .contextSwitchRequest ctx => Sys2Proof.Machine.execContextSwitchRequest ctx s
  | .collectorSkidDone ctx die => Sys2Proof.Machine.execCollectorSkidDone ctx die s
  | .engineStopPoint ctx die engine => Sys2Proof.Machine.execEngineStopPoint ctx die engine s
  | .saveDone ctx die => Sys2Proof.Machine.execSaveDone ctx die s
  | .contextRestore ctx => Sys2Proof.Machine.execContextRestore ctx s
  | .hitldStall crew tid => Sys2Proof.Machine.execHitldStall crew tid s
  | .flozorPeerRequest r => Sys2Proof.Machine.execFlozorPeerRequest r s
  | .powerShareReached die => Sys2Proof.Machine.execPowerShareReached die s
  | .currentLimiter die => Sys2Proof.Machine.execCurrentLimiter die s

end Sys2Proof.Machine
end

