-- ==== Sys2Proof/Machine/Step.lean ====
section
/-! DEFINITION. One step of the machine, and the placing of a word where the next step fetches. -/

namespace Sys2Proof.Machine

/-- One step: what the schedule moves next, with the meaning `exec` gives it. (DESIGN CHOICE, log entry 1) -/
def step (s : State) : Host.Outcome State Fault Refusal := stepWith exec s

/-- `s` with an instruction of `nbits` bits stored where the next step fetches, zeros above. -/
def State.withFetchWord (s : State) (nbits w : Nat) : State := placeWord s (w % 2 ^ nbits)

end Sys2Proof.Machine
end

