-- ==== Sys2Proof/Safety.lean ====
section
/-! DEFINITION. The terms in which claims speak of runs: steps, the states they reach, safe runs, the gang that issues, what a gang of threads writes, and which parts of two states agree. -/

namespace Sys2Proof

open Machine

/-! ### Runs -/

/-- One step to a next state. -/
def Steps (s t : State) : Prop := step s = .next t

/-- States reached from a state by steps. -/
inductive Reaches (s : State) : State → Prop where
  | refl : Reaches s s
  | tail {t u : State} : Reaches s t → Steps t u → Reaches s u

/-- A run from `s` is safe when no state it reaches refuses to move for want of a meaning. -/
def Safe (s : State) : Prop := ∀ t, Reaches s t → ∀ r, step t ≠ .refused r

/-- The bytes of memory are listed in the canonical form of `Memory.wf`. -/
def Canonical (s : State) : Prop := Memory.wf s.mem = true

/-! ### The gang that issues -/

/-- The gang `is` of the crew `c` is the one that issues in `s`. -/
structure Issues (s : State) (is : Issue) (c : Crew) : Prop where
  issue : s.issue = some is
  crew : getCrew s is.crew = some c

/-- The active threads of a gang under a guard, in home-lane order (R11, R45). -/
def active (c : Crew) (is : Issue) (g : Guard) : List Thread := (gangThreads c is).filter (guardOk g)

/-- What the meaning of an instruction sees when the gang `is` of `c` issues it under a guard. -/
def envOf (s : State) (is : Issue) (c : Crew) (g : Guard) : Env := { s := s, c := c, is := is, act := active c is g }

/-- `s` after the gang has made some writes to registers and predicates and moved on by one word. -/
def regsWritten (s : State) (is : Issue) (ws : List (Nat × Wr)) : State :=
  retire is (updCrew s is.crew fun c => applyWrs c ws)

/-- One write for each active thread. -/
def eachLane (c : Crew) (is : Issue) (g : Guard) (f : Thread → Wr) : List (Nat × Wr) := (active c is g).map fun t => (t.tid, f t)

/-- `i` answers `s` with one write of `n` registers to D for each active thread, whose value has a property. -/
def WritesD (i : Instr) (a : Args) (s : State) (is : Issue) (c : Crew) (n : Nat) (P : Thread → Nat → Prop) : Prop :=
  ∃ f : Thread → Nat, exec i s = .next (regsWritten s is (eachLane c is a.guard fun t => .reg a.d n (f t))) ∧
    ∀ t ∈ active c is a.guard, P t (f t)

/-- `i` answers `s` with the predicate D of each active thread written. -/
def WritesP (i : Instr) (a : Args) (s : State) (is : Issue) (c : Crew) (f : Thread → Bool) : Prop :=
  exec i s = .next (regsWritten s is (eachLane c is a.guard fun t => .pred a.d (f t)))

/-- Each element of a value is an exact result in its low bits, clamped first under `.sat` (R131). -/
def Elements (k : IntMods) (signed : Bool) (x : Nat → Int) (v : Nat) : Prop :=
  ∀ e < k.n, elem k.w v e = lowBits (if k.sat then clampInt signed k.w (x e) else x e) k.w

/-- After a control transfer: every active thread of the gang stands at its target and every other one of it a word on; with `link` the %link of an active thread names the next word; but for these, of a thread only the hold, pass bit, binding and the gang with which it is to issue again, and with `queues` the callee queue, may differ (R117, R119–R122). -/
def Transferred (s t : State) (is : Issue) (c : Crew) (g : Guard) (link queues : Bool) (target : Thread → Word64) : Prop :=
  (t = { s with crews := t.crews, issue := none } ∧ ∀ u, u ≠ is.crew → getCrew t u = getCrew s u) ∧
  ∃ c', getCrew t is.crew = some c' ∧ c' = { c with threads := c'.threads, nextBound := c'.nextBound } ∧
    ∀ u, c.thread u.tid = some u → ∃ u', c'.thread u.tid = some u' ∧ u' = { u with
      pc := if u ∈ active c is g then target u else if u ∈ gangThreads c is then is.pc + 8 else u.pc
      link := if link = true ∧ u ∈ active c is g then is.pc + 8 else u.link
      hold := u'.hold, pass := u'.pass, bound := u'.bound, gang := u'.gang
      queue := if queues then u'.queue else u.queue }

/-- The least the next state of an instruction of a gang keeps: all of the machine but the crews and the issue, and every other crew. -/
def OnlyCrew (s t : State) (uid : Nat) : Prop :=
  t = { s with crews := t.crews, issue := t.issue } ∧ ∀ u, u ≠ uid → getCrew t u = getCrew s u

/-- No thread of a crew has the number of another, as R27 numbers them. -/
def Distinct (c : Crew) : Prop := (c.threads.map (·.tid)).Nodup

/-- No active thread has a store or a push on its way, and no other store of the crew is to be performed for it: a release at any scope need not wait and leaves nothing to be done (R175, R215, R220). -/
def NoStoresOut (s : State) (is : Issue) (c : Crew) (g : Guard) : Prop :=
  (∀ p ∈ s.stores, p.crew = is.crew → p.rel = false ∧ ∀ t ∈ active c is g, p.tid ≠ t.tid) ∧
    ∀ r ∈ s.rings, r.crew = is.crew → r.op.isPush = true → ∀ t ∈ active c is g, r.tid ≠ t.tid

/-! ### Memory -/

/-- No check of the core path fails for the lanes of an access, and nothing keeps one of them waiting (R175). -/
def PathClear (s : State) (c : Crew) (n : Need) (ls : List LaneAcc) : Prop :=
  (∀ l ∈ ls, alignBad n l = false ∧ steerBad l = none ∧ permBad s c n l = none ∧ laneStay s c n l = none) ∧ aliasHit s c n ls = none

/-- No region has a write on record in the tags of any line (R207). -/
def NoWriteTags (s : State) : Prop := ∀ k, ∀ sl ∈ (mget default s.tags k).slots, sl.write = 0

/-- `i` answers `s` with one load on its way for each lane, in their order. Memory keeps every byte but those of the crew's stores, and all of it and the stores where no store of the crew is still to be performed; the loads are one batch, whose write of s registers is made once, by the first that completes. The value that a strong load brings is the bytes at their homes, where nothing is on its way or poisoned (R50, R171, R175, R212). -/
def LoadsLanes (i : Instr) (a : Args) (s : State) (is : Issue) (c : Crew) (ls : List LaneAcc) : Prop :=
  ∃ (t : State) (new : List PendingLoad) (batch : Nat), exec i s = .next t ∧ t.issue = none ∧ t.loads = s.loads ++ new ∧ new.length = ls.length ∧
    ((∀ p ∈ s.stores, p.crew = is.crew → p.performed = true) → t.mem = s.mem ∧ t.stores = s.stores) ∧
    (∀ k, (∀ p ∈ s.stores, p.crew = is.crew → ∀ w ∈ p.bytes, place s w.1 ≠ k) → memByte t.mem k = memByte s.mem k) ∧
    ∀ (j : Nat) (l : LaneAcc) (p : PendingLoad), ls[j]? = some l → new[j]? = some p → p.crew = is.crew ∧ p.tid = l.t.tid ∧ p.addr = l.ea ∧ ∃ v,
      p.vdst = (dstWords a.d (memRegs (memWidth a)) v).1 ∧ p.sdst = (dstWords a.d (memRegs (memWidth a)) v).2 ∧ p.batch = batch ∧
      (memStrong a = true → s.stores = [] → anyPoison s = false →
        v = bytesVal ((lanePieces s c (memWidth a) l).flatMap fun x => homeBytes s x.key x.len))

/-- `i` answers `s` with one store on its way for each lane, of the bytes of its register at the lane's address, and memory and loads as they were (R175). -/
def StoresLanes (i : Instr) (a : Args) (s : State) (is : Issue) (c : Crew) (ls : List LaneAcc) : Prop :=
  ∃ t, exec i s = .next t ∧ t.mem = s.mem ∧ t.loads = s.loads ∧ t.issue = none ∧ t.stores.length = s.stores.length + ls.length ∧
    ∀ l ∈ ls, ∃ p ∈ t.stores, p.crew = is.crew ∧ p.tid = l.t.tid ∧ p.addr = l.ea ∧ p.performed = false ∧
      p.bytes = pieceBytes (rd c l.t a.d (memRegs (memWidth a))) (lanePieces s c (memWidth a) l)

/-- The lanes of an access through a record, each at its element (R176). -/
def recordLanes (s : State) (is : Issue) (c : Crew) (a : Args) : List LaneAcc :=
  (active c is a.guard).map fun t =>
    let r := recOf (rd c t a.a 4)
    let o := r.elemOff ((rowCol c t a).1 * r.pitch + (rowCol c t a).2)
    { t := t, ea := r.address s c o, tgt := r.target s c o (memWidth a), ro := r.ro }

/-- Every active thread's record and element pass their checks (R173, R176). -/
def RecordsFit (s : State) (is : Issue) (c : Crew) (a : Args) : Prop :=
  ∀ t ∈ active c is a.guard, let r := recOf (rd c t a.a 4)
    recCheck s c r = none ∧ elemBad (memWidth a) r (rowCol c t a).1 (rowCol c t a).2 = none

/-- A range form of `cctl`: where no active thread's range meets an aperture window it completes, with one counted request for each thread whose range has a length, and what `P` says of the state and the lines that the thread's range names; where one does, BOUNDS (R178). -/
def RangeForm (i : Instr) (a : Args) (s : State) (is : Issue) (c : Crew) (P : State → (Nat → Bool) → Prop) : Prop :=
  let acts := (active c is a.guard).filter fun t => (rangeOf c t a).2 != 0
  let meets := fun t => runInAperture s c.ctx (rangeOf c t a).1 (rangeOf c t a).2
  ((∀ t ∈ acts, meets t = false) → ∃ s1 : State, exec i s = .next (retire is s1) ∧ s1.mem = s.mem ∧ s1.loads = s.loads ∧
    s1.stores.length = s.stores.length + acts.length ∧ (∀ p ∈ s1.stores, p ∈ s.stores ∨ p.performed = true ∧ p.bytes = []) ∧
    ∀ t ∈ acts, P s1 (namedLine s c.ctx c.die (rangeOf c t a).1 (rangeOf c t a).2)) ∧
  ((∃ t ∈ acts, meets t = true) → ∃ f : TrapInfo, f.code = 0x05 ∧ f.sub = 6 ∧ exec i s = .next (raise s is.crew is.pc is.tids f))

/-! ### Thunks -/

/-- The active threads hold one value in an operand of some registers (R234, R255). -/
def Agreed (e : Env) (o : Opnd) (n : Nat) : Prop := ∀ t ∈ e.act, rd e.c t o n = lowVal e o n

/-- The active threads agree on a number, and it names this node of their crew (R234). -/
def NamesNode (e : Env) (o : Opnd) (x : Node) : Prop := Agreed e o 1 ∧ nodeNamed e.s e.c (lowVal e o 1) = some x

/-- Where a slot is open, `i` answers with the node placed in it and its number in D of every active thread; the gang moves on, or stands at the word while the watch of the node's region spreads (R233, R247, R249). -/
def Appends (i : Instr) (a : Args) (e : Env) (n : Node) (watches : Nat) : Prop :=
  ∀ k, openSlot e.s e.c watches = some k →
    let m := { n with slot := k, seq := mget 0 (coreOf e.s e.c.coreId).useCount k, opSeqs := n.ops.map fun o => ((nodeAt e.s e.c.coreId o).map (·.seq)).getD 0 }
    exec i e.s = placeNode e a.d n k ∧ ∃ u, exec i e.s = .next u ∧ u.mem = e.s.mem ∧ u.issue = none ∧ u.nodes = e.s.nodes ++ [m] ∧
      ∀ t ∈ e.act, ∀ r : Fin 192, a.d = .v r → ∃ t', getThread u e.is.crew t.tid = some t' ∧ mget 0 t'.v r = BitVec.ofNat 32 m.number

/-! ### Engines and rings -/

/-- `i` sends one ring request of a sort to its home for each active thread, where the checks at issue pass and a push need not wait for stores: those that hold their thread keep it at the word (R286–R289, R295). -/
def RingsSent (i : Instr) (a : Args) (op : RingOp) (s : State) (is : Issue) (c : Crew) : Prop :=
  let act := active c is a.guard
  (∀ t ∈ act, rd c t a.a 2 % 64 = 0 ∧ steerFail s c t.tid (rd c t a.a 2) 64 = none) → (op.isPush = true → NoStoresOut s is c a.guard) →
  (op = .popa → ∀ t ∈ act, rd c t a.d 2 % 16 = 0 ∧ rd c t a.b 2 % 32 = 0 ∧ arwFail s c t.tid (rd c t a.d 2) = none ∧
    ∃ k, steer s c t.tid (BitVec.ofNat 64 (rd c t a.b 2)) 32 = .bank k none ∧ keySpace k = 16384 + c.uid) →
  ∃ s1, exec i s = .next (if op.holds then retireSome is (is.tids.filter fun j => !(act.map (·.tid)).contains j) s1 else retire is s1) ∧ s1.mem = s.mem ∧
    s1.rings.length = s.rings.length + act.length ∧ ∀ t ∈ act, (∃ r ∈ s1.rings, r.crew = is.crew ∧ r.tid = t.tid ∧ r.op = op ∧ r.pc = is.pc ∧
      r.desc = BitVec.ofNat 64 (rd c t a.a 2) ∧ (op.isPush = true → r.entry = rd c t a.d 8)) ∧
      (op.holds = true → ∃ t', getThread s1 is.crew t.tid = some t' ∧ t'.hold ≠ .none ∧ t'.pc = t.pc)

/-- The number in a record of `len` bytes that a lane reads at its home (R175). -/
def recordNum (s : State) (c : Crew) (l : LaneAcc) (len : Nat) : Nat := match l.tgt with
  | .bank k _ => bytesVal (homeBytes s k len)
  | _ => bytesVal ((lanePieces s c 1 l).flatMap fun x => homeBytes s x.key x.len)

/-- A request of an engine may take its next step: nothing holds it, no fault of a wait is pending for it, its crew is not waiting for the reply log, and no context switch has stopped its engine (R290, R367, R370). -/
def EngineFree (s : State) (c : Crew) (req engine : Nat) : Prop :=
  engineHeld s req = false ∧ takeFault s req = none ∧ logBlocked s c = false ∧ engineStopped s c engine = false

/-! ### Rays and pipes -/

/-- `i` makes a lane's decision on its candidate, or none, and writes whether it counted to D (R343). -/
def Decides (i : Instr) (a : Args) (s : State) (is : Issue) (t : Thread) (d : Option (Hit → Decision)) (ok : Bool) : Prop :=
  exec i s = .next (regsWritten (match d with
    | some f => decide' s is.crew t.tid f
    | none => s) is [(t.tid, .pred a.d ok)])

/-- `i` sends its pipe one request for each active thread, which the rays counter holds, and moves its gang on: the requests that `mk` makes of a number and a thread, added to the list `get` (R345, R346). -/
def PipeSends {α : Type} (i : Instr) (g : Guard) (s : State) (is : Issue) (c : Crew) (get : State → List α) (mk : Nat → Thread → α) : Prop :=
  ∃ s1, exec i s = .next (retire is s1) ∧ s1.mem = s.mem ∧ (get s1).length = (get s).length + (active c is g).length ∧ (∀ r ∈ get s, r ∈ get s1) ∧
    ∀ t ∈ active c is g, (∃ n, s.nextId ≤ n ∧ mk n t ∈ get s1) ∧
      (is.tids.Nodup → ∃ t', getThread s1 is.crew t.tid = some t' ∧ t' = { t with cnt := { t.cnt with rays := t.cnt.rays + 1 } })

/-- A ray's numbers are its own: no two rays in flight share one. -/
def RaysNumbered (s : State) : Prop := (s.rays.map (·.id)).Nodup

/-! ### Steps of the tile sequencer -/

/-- The request `id` takes its next step `st` now: in its place it is `r`, its mover `m`, the step's node `n`, and no fault of a wait is pending for it (R242). -/
structure TileRuns (s : State) (id : Nat) (st : TileStep) (slot : Nat) (s1 : State) (r : TileReq) (m : Mover) (n : Node) : Prop where
  request : ∃ r0, s.tileReqs.find? (·.id == id) = some r0 ∧ nextStep s r0 = st ∧ r0.node = r.node
  begun : beginStep s id = (s1, some (r, m))
  step : nextStep s1 r = st
  node : nodeAt s1 r.core slot = some n
  calm : takeFault s1 id = none

/-- A watched wait ends in STALL: the crew halts with the threads of a list, what they wait at is named, and their holds may only be renewed (R116, R408). -/
def Stalls (i : Instr) (s : State) (uid : Nat) (tids : Nat → Prop) (kind : Nat) : Prop :=
  ∃ (f : TrapInfo) (pc : Word64) (g : Crew → Crew), f.code = 0x0F ∧ (∀ t, tids t → t ∈ f.tids) ∧ ({ off := 0, len := 4, val := kind } : PutField) ∈ f.detail ∧
    (∀ c, (g c).halt = c.halt ∧ (g c).uid = c.uid ∧ (g c).threads.map (·.pc) = c.threads.map (·.pc)) ∧ exec i s = .next (updCrew (raise s uid pc f.tids f) uid g)

end Sys2Proof
end

