-- ==== Sys2Proof/WellFormed.lean ====
section
/-! DEFINITION. Which terms of `Instr` the device has: an instruction whose word passes every check of R66 and R63 under the widest limits, and an event of the device, which has no word. -/

namespace Sys2Proof

/-- Whether a constructor is an event of the device. -/
def Instr.isEvent (i : Instr) : Bool := (fieldsOf i).isNone

/-- Well-formed: a word of the device under the widest limits, or an event. -/
def Instr.wf (i : Instr) : Bool := i.isEvent || legal {} i

end Sys2Proof
end

