-- ==== Sys2Proof/Certificates/Slice0/Obligations.lean ====
section
/-! DEFINITION. The statements for the provers: what the encoding, the steps, the instructions and the events of the device do, each from the rules it cites. -/

open Sys2Proof Sys2Proof.Machine

/-- Words that the chapters print are the instructions they are printed for (R44, R45, R59, R61, R131, R140, R175, R222). -/
def Obligations.PrintedWordsDecode : Prop :=
  let g : Guard := { p := 7, neg := false }
  decodeWord {} 0x380007FFFFFFF800 = .inr (.nop { guard := g, m := 0, d := .none, a := .none, b := .none, c := .none, x := 0, imm := none }) ∧
  decodeWord {} 0x788000181FFFFFFB = .inr (.iadd { guard := g, m := 0, d := .v 3, a := .v 3, b := .none, c := .none, x := 0, imm := some (-5) }) ∧
  decodeWord {} 0x3880D0303847F800 = .inr (.iadd { guard := g, m := 0x1A, d := .v 6, a := .v 7, b := .v 8, c := .none, x := 0, imm := none }) ∧
  decodeWord {} 0x383807FFFFFFF800 = .inr (.exit { guard := g, m := 0, d := .none, a := .none, b := .none, c := .none, x := 0, imm := none }) ∧
  decodeWord {} 0x784007FFF8000003 = .inr (.barSync { guard := g, m := 0, d := .none, a := .none, b := .none, c := .none, x := 0, imm := some 3 }) ∧
  decodeWord {} 0x3A42004027FFF810 = .inr (.ld { guard := g, m := 0x40, d := .v 8, a := .v 4, b := .none, c := .none, x := 16, imm := none }) ∧
  decodeWord {} 0x7AE007FFF81FFFFF = .inr (.wait { guard := g, m := 0, d := .none, a := .none, b := .none, c := .none, x := 0, imm := some 0x1FFFFF })

/-- The word of a well-formed instruction decodes to that instruction: no operand, modifier or immediate bit is lost (R43–R66). -/
def Obligations.DecodeOfEncode : Prop :=
  ∀ i : Instr, i.isEvent = false → i.wf = true → encode i < 2 ^ 64 ∧ decodeWord {} (encode i) = .inr i

/-- A word has one meaning: what it decodes to, under any limits, is encoded by that word and by no other (R43–R66). A full-form word whose major opcode the table does not list is ILL with sub-code 0x01, whatever its other fields (R46, R66). -/
def Obligations.WordsHaveOneMeaning : Prop :=
  (∀ (lim : Limits) (w : Nat) (i : Instr), w < 2 ^ 64 → decodeWord lim w = .inr i → encode i = w ∧ legal lim i = true) ∧
  (∀ (lim : Limits) (w : Nat), bitAt w 63 = false → opOf (bitsOf w 57 51) = none → decodeWord lim w = .inl (.ill 0x01))

/-- When the bytes at the PC of the gang that a core's gatherer chooses decode to an instruction, and nothing stands before the word (a pending trap, a missing or forbidden translation, a touch, a slice under repartition, a fenced channel, poison), the step is that instruction's meaning after the time of the step and the gatherer's choice. Model readings and choices that it rests on: log entry 4. -/
def Obligations.StepRunsDecodedWord : Prop :=
  ∀ (s s1 : State) (t : Turn) (rest : List Turn) (is : Issue) (c : Crew) (x : TlbEntry) (i : Instr),
    s.agenda = t :: rest → t.ev = none → s.hw.powered = true →
    s1 = gather (pass t.cycles { s with agenda := rest, issue := none }) t.core →
    Issues s1 is c → preTrap s1 c is = none → is.pc.toNat < 2 ^ 56 →
    heldLeaf s1 c.ctx c.die c.coreId is.pc.toNat = some x → x.leaf.exec = true → leafEgressOk s1 x.leaf (is.pc.toNat - x.va) = true →
    x.leaf.proc = false → sliceWait s1 [(x.key is.pc.toNat, 8)] = none → readWaits s1 [(x.key is.pc.toNat, 8)] = false → poisonedAt s1 (x.key is.pc.toNat) = false →
    decodeWord { v := leastOr 192 (is.tids.map fun tid => c.budget (c.hgang tid)), tiles := c.tiles } (homeRead s1 (x.key is.pc.toNat) 8) = .inr i →
    step s = exec i s1

/-- When the head of the schedule names an event, the step is that event's meaning after the time of the step; without power only the return of power is. Model readings and choices that it rests on: log entry 2. -/
def Obligations.StepRunsScheduledEvent : Prop :=
  ∀ (s : State) (t : Turn) (rest : List Turn) (i : Instr), s.agenda = t :: rest → t.ev = some i →
    let s1 := pass t.cycles { s with agenda := rest, issue := none }
    (s.hw.powered = true ∨ i = .powerGood → step s = exec i s1) ∧
    (s.hw.powered = false → i ≠ .powerGood → step s = .next s1)

/-- Every instruction and every event answers a next state, whatever its operands and the state: nothing is refused and nothing faults. An instruction with no gang issued and an event that is not enabled answer the state as it was, which is the model's choice. A step stops only where power is off and no return of power is scheduled (R378). Model readings and choices that it rests on: log entries 1, 2, 4. -/
def Obligations.NothingStops : Prop :=
  (∀ (i : Instr) (s : State), ∃ t, exec i s = .next t) ∧
  (∀ s : State, (∃ t, step s = .next t) ∨ (s.agenda = [] ∧ s.hw.powered = false ∧ step s = .fault .powerOff))

/-- The values that the rules give for reset: boot stage 0, BAR2_WIN 0, the admission and age limits of the ray fabric, the counters of the dies at zero; no crew, context or run, and memory that lists nothing (R40, R316, R360, R378). The memory at reset is in the canonical form that `StepKeepsMemoryCanonical` says every step keeps. Model readings and choices that it rests on: log entries 9, 12. -/
def Obligations.ResetState : Prop :=
  (let s := State.reset
   s.bar.bootStage = 0 ∧ s.bar.bar2Win = 0 ∧ s.bar.rayAdmit = 4194304 ∧ s.bar.leatAge = 65536 ∧ s.bar.extAdmit = 2097152 ∧ s.hw.powered = true ∧
   (∀ d, mget 0 s.cclk d = 0) ∧ s.crews = [] ∧ s.contexts = [] ∧ s.runs = [] ∧ s.issue = none ∧ (∀ k, memByte s.mem k = 0)) ∧
  (Canonical State.reset)

/-- Every step keeps the canonical form of memory: addresses strictly rise and no listed byte is zero. -/
def Obligations.StepKeepsMemoryCanonical : Prop :=
  ∀ s t : State, Canonical s → Steps s t → Canonical t

/-- A little-endian number written to memory reads back in its low bytes, and every byte outside it reads as before (R4). A register write is read back by every reader of its file, and touches nothing but its own registers; %zero and an absent destination discard it; p7 reads true and discards writes (R47–R51). -/
def Obligations.WritesReadBack : Prop :=
  (∀ (m : List Host.Cell) (k n v : Nat), memRead (memWrite m k n v) k n = v % 2 ^ (8 * n) ∧
     (∀ j, j < k ∨ k + n ≤ j → memByte (memWrite m k n v) j = memByte m j) ∧
     (Memory.wf m = true → Memory.wf (memWrite m k n v) = true)) ∧
  ((∀ (c : Crew) (t : Thread) (k : Fin 192) (n v : Nat), c.thread t.tid = some t →
     ∃ t' : Thread, (wr c t.tid (.v k) n v).thread t.tid = some t' ∧ rd c t' (.v k) n = v % 2 ^ (32 * n) ∧
       (∀ j, j < k.val ∨ k.val + n ≤ j → mget 0 t'.v j = mget 0 t.v j) ∧ t' = { t with v := t'.v } ∧
       ∀ u, u ≠ t.tid → (wr c t.tid (.v k) n v).thread u = c.thread u) ∧
   (∀ (c : Crew) (t : Thread) (k : Fin 48) (n v : Nat), rd (wr c t.tid (.s k) n v) t (.s k) n = v % 2 ^ (32 * n) ∧
     (∀ j, j < k.val ∨ k.val + n ≤ j → mget 0 (wr c t.tid (.s k) n v).s j = mget 0 c.s j) ∧
     wr c t.tid (.s k) n v = { c with s := (wr c t.tid (.s k) n v).s }) ∧
   (∀ (c : Crew) (tid n v : Nat) (x : Special), wr c tid (.sp x) n v = c ∧ wr c tid .none n v = c) ∧
   (∀ (c : Crew) (t : Thread) (n : Nat), rd c t (.sp .zero) n = 0) ∧
   (∀ (t : Thread) (k j : Nat) (b : Bool), rp (wp t k b) j = if j = 7 then true else if j = k then b else rp t j))

/-- What the end of a register instruction changes: the registers and predicates that it writes, the PC of its gang, and what an arrival at a PC may change (R11, R113): the hold, pass bit and binding of threads, and the gang with which they are to issue again. All else of the crew, every other crew, and memory are as before. -/
def Obligations.RegisterInstructionFrame : Prop :=
  ∀ (s : State) (is : Issue) (c : Crew) (ws : List (Nat × Wr)), Issues s is c → Distinct c →
    let t := regsWritten s is ws
    OnlyCrew s t is.crew ∧ t.issue = none ∧ t.mem = s.mem ∧
    ∃ c' : Crew, getCrew t is.crew = some c' ∧ c' = { c with threads := c'.threads, s := c'.s, nextBound := c'.nextBound } ∧
      (∀ j, (∀ w ∈ ws, ∀ (k : Fin 48) (n v : Nat), w.2 = .reg (.s k) n v → j < k.val ∨ k.val + n ≤ j) → mget 0 c'.s j = mget 0 c.s j) ∧
      c'.threads.map (·.tid) = c.threads.map (·.tid) ∧
      ∀ u u', c.thread u.tid = some u → c'.thread u.tid = some u' →
        u' = { u with v := u'.v, p := u'.p, pc := if is.tids.contains u.tid then is.pc + 8 else u.pc, hold := u'.hold, pass := u'.pass, bound := u'.bound, gang := u'.gang } ∧
        (∀ j, (∀ w ∈ ws, w.1 = u.tid → ∀ (k : Fin 192) (n v : Nat), w.2 = .reg (.v k) n v → j < k.val ∨ k.val + n ≤ j) → mget 0 u'.v j = mget 0 u.v j) ∧
        (∀ j, (∀ w ∈ ws, w.1 = u.tid → ∀ (o : Opnd) (b : Bool), w.2 = .pred o b → numOf o ≠ j) → rp u' j = rp u j)

/-- `nop` is opcode 0x00 with M 0, no operands and X 0 in the full form; under every guard but the one that R66 makes NEVER (G = 7 with N = 1) it decodes, its word with G = 7 is the printed one, and, whatever its guard, it only moves its gang on by one word (R118). -/
def Obligations.NopMovesOn : Prop :=
  (∀ (lim : Limits) (w : Nat) (a : Args), w < 2 ^ 64 → decodeWord lim w = .inr (.nop a) → bitsOf w 57 51 = 0x00 ∧ bitAt w 62 = false ∧
    a = { guard := a.guard, m := 0, d := .none, a := .none, b := .none, c := .none, x := 0, imm := none }) ∧
  (∀ (lim : Limits) (g : Guard), let i := Instr.nop { guard := g, m := 0, d := .none, a := .none, b := .none, c := .none, x := 0, imm := none }
    (¬(g.p = 7 ∧ g.neg = true) → decodeWord lim (encode i) = .inr i) ∧ (g = { p := 7, neg := false } → encode i = 0x380007FFFFFFF800)) ∧
  (∀ (s : State) (is : Issue) (c : Crew) (a : Args), Issues s is c → exec (.nop a) s = .next (retire is s) ∧ Transferred s (retire is s) is c a.guard false false (fun _ => is.pc + 8))

/-- `iadd` writes a + b and `isub` writes a − b element by element, clamped under `.sat` to the range of the signedness in force; without `.sat` the signed and the unsigned readings of the sources give the same bits, so M[4] matters only with `.sat` (R133). -/
def Obligations.AddAndSubtract : Prop :=
  ∀ (s : State) (is : Issue) (c : Crew) (a : Args), Issues s is c →
    let k := intMods a.m.toNat
    let A := fun (g : Bool) (t : Thread) (e : Nat) => asInt g k.w (elem k.w (rd c t a.a k.regs) e)
    let B := fun (g : Bool) (t : Thread) (e : Nat) => asInt g k.w (elem k.w (srcB c t a k) e)
    WritesD (.iadd a) a s is c k.regs (fun t => Elements k k.signed fun e => A k.signed t e + B k.signed t e) ∧
    WritesD (.isub a) a s is c k.regs (fun t => Elements k k.signed fun e => A k.signed t e - B k.signed t e) ∧
    (k.sat = false → ∀ g, WritesD (.iadd a) a s is c k.regs (fun t => Elements k g fun e => A g t e + B g t e) ∧
      WritesD (.isub a) a s is c k.regs (fun t => Elements k g fun e => A g t e - B g t e))

/-- The element-wise instructions `iadd`, `isub`, `imul.lo`, `imad.lo`, `iminmax` and `iabsneg` complete for every operand, and each element of D is the exact result on the matching elements, kept in its low bits or clamped under `.sat` (R131, R133–R135). `imul.hi`, `imul.wide` and `imad.wide` complete and keep the named bits of the exact product or sum; `idiv` gives the quotient rounded toward zero and the remainder, with the stated results for a zero divisor and for the most negative dividend divided by −1 (R134, R143). -/
def Obligations.IntegerArithmetic : Prop :=
  (∀ (s : State) (is : Issue) (c : Crew) (a : Args), Issues s is c →
     let k := intMods a.m.toNat
     let A := fun (t : Thread) (e : Nat) => asInt k.signed k.w (elem k.w (rd c t a.a k.regs) e)
     let B := fun (t : Thread) (e : Nat) => asInt k.signed k.w (elem k.w (srcB c t a k) e)
     WritesD (.iadd a) a s is c k.regs (fun t => Elements k k.signed fun e => A t e + B t e) ∧
     WritesD (.isub a) a s is c k.regs (fun t => Elements k k.signed fun e => A t e - B t e) ∧
     (k.sub = 0 → WritesD (.imul a) a s is c k.regs fun t => Elements k k.signed fun e => A t e * B t e) ∧
     (k.sub ≠ 2 → WritesD (.imad a) a s is c k.regs fun t => Elements { k with sat := false } k.signed fun e =>
       A t e * asInt k.signed k.w (elem k.w (rd c t a.b k.regs) e) + asInt k.signed k.w (elem k.w (rd c t a.c k.regs) e)) ∧
     WritesD (.iminmax a) a s is c k.regs (fun t => Elements k k.signed fun e => if k.sub = 0 then min (A t e) (B t e) else max (A t e) (B t e)) ∧
     WritesD (.iabsneg a) a s is c k.regs fun t => Elements k true fun e =>
       let x := signExt (elem k.w (rd c t a.a k.regs) e) k.w
       if k.sub = 0 then |x| else -x) ∧
  (∀ (s : State) (is : Issue) (c : Crew) (a : Args), Issues s is c →
     let k := intMods a.m.toNat
     let A := fun t => asInt k.signed k.w (rd c t a.a k.regs)
     let B := fun t => asInt k.signed k.w (srcB c t a k)
     let q : Thread → Int := fun t => if B t = 0 then -1
       else if k.sat ∧ k.signed ∧ A t = -(2 ^ (k.w - 1)) ∧ B t = -1 then 2 ^ (k.w - 1) - 1 else (A t).tdiv (B t)
     let r : Thread → Int := fun t => if B t = 0 then A t else (A t).tmod (B t)
     (k.sub = 1 → WritesD (.imul a) a s is c k.regs fun t v => v = lowBits (A t * B t / 2 ^ k.w) k.w) ∧
     (k.sub = 2 → WritesD (.imul a) a s is c 2 fun t v => v = lowBits (A t * B t) 64) ∧
     (k.sub = 2 → WritesD (.imad a) a s is c 2 fun t v =>
       v = lowBits (A t * asInt k.signed k.w (rd c t a.b k.regs) + asInt k.signed 64 (rd c t a.c 2)) 64) ∧
     (k.sub = 0 → WritesD (.idiv a) a s is c k.regs fun t v => v = lowBits (q t) k.w) ∧
     (k.sub = 1 → WritesD (.idiv a) a s is c k.regs fun t v => v = lowBits (r t) k.w) ∧
     (1 < k.sub → WritesD (.idiv a) a s is c (2 * k.regs) fun t v => v = lowBits (q t) k.w + 2 ^ k.w * lowBits (r t) k.w))

/-- `logic` and `shift` complete; `logic` acts on each bit of the registers, and each element of `shift` moves as the table of R136 says, for amounts below the width and from it on. `bfx`, `bfi`, `bitc` and `perm` complete: the extracted field, the inserted bits, the counts and the reversal, and the bytes that a selector chooses (R137, R138, R142). -/
def Obligations.LogicShiftAndBitFields : Prop :=
  (∀ (s : State) (is : Issue) (c : Crew) (a : Args), Issues s is c →
     let k := intMods a.m.toNat
     let X := fun t => rd c t a.a k.regs
     let Y := fun t => srcB c t a k
     let n := fun (t : Thread) (e : Nat) => elem k.w (Y t) e
     WritesD (.logic a) a s is c k.regs (fun t v => ∀ j < 32 * k.regs,
       v.testBit j = match k.sub with
         | 0 => (X t).testBit j && (Y t).testBit j
         | 1 => (X t).testBit j || (Y t).testBit j
         | 2 => (X t).testBit j ^^ (Y t).testBit j
         | 3 => (X t).testBit j && !(Y t).testBit j
         | 4 => (X t).testBit j || !(Y t).testBit j
         | _ => !(X t).testBit j) ∧
     WritesD (.shift a) a s is c k.regs fun t v => ∀ e < k.n,
       let x := elem k.w (X t) e
       let y := elem k.w v e
       (k.sub = 0 → k.sat = false → y = if n t e < k.w then x * 2 ^ n t e % 2 ^ k.w else 0) ∧
       (k.sub = 0 → k.sat = true → y = lowBits (clampInt k.signed k.w (asInt k.signed k.w x * 2 ^ n t e)) k.w) ∧
       (k.sub = 1 → ∀ j < k.w, y.testBit j = (decide (j + n t e < k.w) && x.testBit (j + n t e))) ∧
       (k.sub = 2 → ∀ j < k.w, y.testBit j = x.testBit (min (j + n t e) (k.w - 1))) ∧
       (2 < k.sub → ∀ j < k.w, y.testBit j = x.testBit ((j + k.w - n t e % k.w) % k.w))) ∧
  (∀ (s : State) (is : Issue) (c : Crew) (a : Args), Issues s is c →
     let k := intMods a.m.toNat
     let X := fun t => rd c t a.a k.regs
     let F := fun t => match a.imm with
       | some v => v.toNat
       | none => rd c t a.b 1
     WritesD (.bfx a) a s is c k.regs (fun t v => v < 2 ^ k.w ∧ ∀ j < k.w,
       let len := min (bitsOf (F t) 15 8) k.w
       let bit := fun i => decide (i < k.w) && (X t).testBit i
       v.testBit j = (decide (0 < len) && (if j < len then bit (bitsOf (F t) 7 0 + j) else k.signed && bit (bitsOf (F t) 7 0 + len - 1)))) ∧
     WritesD (.bfi a) a s is c k.regs (fun t v => ∀ j < k.w,
       let pos := bitsOf (rd c t a.c 1) 7 0
       let len := min (bitsOf (rd c t a.c 1) 15 8) k.w
       v.testBit j = if pos ≤ j ∧ j < pos + len then (rd c t a.b k.regs).testBit (j - pos) else (X t).testBit j) ∧
     (k.sub = 0 → WritesD (.bitc a) a s is c 1 fun t v => v = ((List.range k.w).countP fun j => (X t).testBit j)) ∧
     (k.sub = 1 → k.n = 1 → WritesD (.bitc a) a s is c 1 fun t v => v ≤ k.w ∧ X t < 2 ^ (k.w - v) ∧ (v < k.w → (X t).testBit (k.w - 1 - v) = true)) ∧
     (k.sub = 2 → WritesD (.bitc a) a s is c 1 fun t v => v ≤ k.w ∧ (∀ j < v, (X t).testBit j = false) ∧ (v < k.w → (X t).testBit v = true)) ∧
     (2 < k.sub → WritesD (.bitc a) a s is c k.regs fun t v => ∀ j < k.w, v.testBit j = (X t).testBit (k.w - 1 - j)) ∧
     WritesD (.perm a) a s is c 1 fun t v => ∀ i < 4,
       let src := if a.imm.isSome then rd c t a.a 2 else rd c t a.a 1 + 2 ^ 32 * rd c t a.b 1
       let sel := if a.imm.isSome then Args.immN a else rd c t a.c 1
       elem 8 v i = if sel.testBit (4 * i + 3) then 0 else elem 8 src (elem 4 sel i % 8))

/-- `icmp` writes the comparison under the signedness, `sel` moves the bits that its predicate picks, `plog` combines predicates, and `vote` gives every active thread the gang's any, all, ballot or equality (R125, R139). `mov`, `movi` and `lea` complete: a copy or an immediate, the parts of D that each `movi` form replaces and keeps, and the scaled address modulo 2^64, with no check made (R140, R141). -/
def Obligations.PredicatesMovesAndAddresses : Prop :=
  (∀ (s : State) (is : Issue) (c : Crew) (a : Args), Issues s is c →
     let k := intMods a.m.toNat
     let act := active c is a.guard
     let ps := act.map fun t => rp t (numOf a.a)
     WritesP (.icmp a) a s is c (fun t =>
       let x := asInt k.signed k.w (rd c t a.a k.regs)
       let y := asInt k.signed k.w (srcB c t a k)
       match k.sub with
       | 0 => decide (x = y) | 1 => decide (x ≠ y) | 2 => decide (x < y) | 3 => decide (x ≤ y) | 4 => decide (x > y) | _ => decide (x ≥ y)) ∧
     WritesD (.sel a) a s is c k.regs (fun t v => v = if rp t (numOf a.c) then rd c t a.a k.regs else rd c t a.b k.regs) ∧
     WritesP (.plog a) a s is c (fun t => match bitsOf a.m.toNat 7 5 with
       | 0 => rp t (numOf a.a) && rp t (numOf a.b) | 1 => rp t (numOf a.a) || rp t (numOf a.b) | 2 => rp t (numOf a.a) ^^ rp t (numOf a.b)
       | 3 => !rp t (numOf a.a) | _ => rp t (numOf a.a)) ∧
     (a.m = 0 → WritesP (.vote a) a s is c fun _ => decide (true ∈ ps)) ∧
     (a.m = 1 → WritesP (.vote a) a s is c fun _ => decide (false ∉ ps)) ∧
     (a.m = 2 → WritesD (.vote a) a s is c 2 fun _ v => ∀ h, v.testBit h = act.any fun t => c.lane t.tid == h && rp t (numOf a.a)) ∧
     (2 < a.m.toNat → WritesP (.vote a) a s is c fun _ => decide (∀ t ∈ act, ∀ u ∈ act, rd c t a.a 1 = rd c u a.a 1))) ∧
  (∀ (s : State) (is : Issue) (c : Crew) (a : Args), Issues s is c →
     let k := intMods a.m.toNat
     let old := fun t => rd c t a.d k.regs
     let imm := Args.immN a
     (a.imm = none → WritesD (.mov a) a s is c k.regs fun t v => v = rd c t a.a k.regs) ∧
     (a.imm.isSome → k.n = 1 → WritesD (.mov a) a s is c k.regs fun _ v => v = lowBits (signExt imm 27) k.w) ∧
     (a.imm.isSome → k.n ≠ 1 → WritesD (.mov a) a s is c k.regs fun _ v => ∀ e < k.n, elem k.w v e = imm % 2 ^ k.w) ∧
     (k.sub = 0 → WritesD (.movi a) a s is c k.regs fun _ v => v = imm) ∧
     (k.sub = 1 → WritesD (.movi a) a s is c 2 fun t v => bitsOf v 53 27 = imm ∧ bitsOf v 26 0 = bitsOf (old t) 26 0 ∧ bitsOf v 63 54 = bitsOf (old t) 63 54) ∧
     (1 < k.sub → k.regs = 1 → WritesD (.movi a) a s is c 1 fun t v => bitsOf v 31 27 = bitsOf imm 4 0 ∧ bitsOf v 26 0 = bitsOf (old t) 26 0) ∧
     (1 < k.sub → k.regs = 2 → WritesD (.movi a) a s is c 2 fun t v => bitsOf v 63 54 = bitsOf imm 9 0 ∧ bitsOf v 53 0 = bitsOf (old t) 53 0) ∧
     (a.imm = none → WritesD (.lea a) a s is c 2 fun t v =>
       v = lowBits ((rd c t a.a 2 : Int) + asInt k.signed k.w (rd c t a.b k.regs) * 2 ^ k.sub + signExt a.x.toNat 11) 64) ∧
     (a.imm.isSome → WritesD (.lea a) a s is c 2 fun t v => v = lowBits ((rd c t a.a 2 : Int) + signExt imm 27 * 2 ^ k.sub) 64))

/-- The instructions that round once: each element of D is the exact result on In of the matching elements, delivered by Cvt in the type and rounding mode; `fdot2` sums two products and a binary32 addend before its one rounding (R144, R146, R149, R151, R152). -/
def Obligations.FloatRoundedOnce : Prop :=
  ∀ (s : State) (is : Issue) (c : Crew) (a : Args), Issues s is c →
    let k := floatMods a.m.toNat
    let fm := tyFmt k.ty
    let n := tyRegs k.ty
    let A := fun (t : Thread) (e : Nat) => fm.decF k.fi (elem fm.bits (rd c t a.a n) e)
    let FB := fun (t : Thread) (e : Nat) => fm.decF k.fi (elem fm.bits (srcFB c t a k.ty) e)
    let B := fun (t : Thread) (e : Nat) => fm.decF k.fi (elem fm.bits (rd c t a.b n) e)
    let C := fun (t : Thread) (e : Nat) => fm.decF k.fi (elem fm.bits (rd c t a.c n) e)
    let Rounded := fun (x : Thread → Nat → FV) (t : Thread) (v : Nat) =>
      ∀ e < tyElems k.ty, elem fm.bits v e = cvtTo fm k.mode k.fo k.sat (x t e) % 2 ^ fm.bits
    WritesD (.fadd a) a s is c n (Rounded fun t e => FV.add k.mode (A t e) (FB t e)) ∧
    WritesD (.fsub a) a s is c n (Rounded fun t e => FV.add k.mode (A t e) (FB t e).neg) ∧
    WritesD (.fmul a) a s is c n (Rounded fun t e => (A t e).mul (FB t e)) ∧
    WritesD (.ffma a) a s is c n (Rounded fun t e => FV.add k.mode ((A t e).mul (B t e)) (C t e)) ∧
    WritesD (.fsqrt a) a s is c n (Rounded fun t e => (A t e).sqrt) ∧
    WritesD (.fdiv a) a s is c n (Rounded fun t e => (A t e).div (B t e)) ∧
    WritesD (.fround a) a s is c n (Rounded fun t e => roundIntegral k.mode (A t e)) ∧
    WritesD (.fldexp a) a s is c n (Rounded fun t e => (A t e).scale (clampScale (ldexpArg c t a k.ty e))) ∧
    WritesD (.fdot2 a) a s is c 1 fun t v =>
      let p := fun e => (fm.decF k.fi (elem fm.bits (rd c t a.a 1) e)).mul (fm.decF k.fi (elem fm.bits (rd c t a.b 1) e))
      v = cvtTo fp32 k.mode k.fo k.sat (FV.add k.mode (FV.add k.mode (p 0) (p 1)) (fp32.decF k.fi (rd c t a.c 1)))

/-- `fminmax` gives one of its operands bit for bit after the flush, or the canonical NaN when both are NaN; `fabsneg` touches the sign bit of each element only; `fcmp` and `fclass` write a predicate: the condition on In(A) and In(B), with NaN unordered, or whether the mask holds the class (R147, R148, R150). The approximate functions deliver one value y by Cvt in RNE; y has the special values of the table of R153 and the stated symmetries, and is exact for `frcp` of powers of two. Where y lies inside its bound is free: no clause says it (R153). Model readings and choices that it rests on: log entry 22. -/
def Obligations.FloatTestsAndApproximations : Prop :=
  (∀ (s : State) (is : Issue) (c : Crew) (a : Args), Issues s is c →
     let k := floatMods a.m.toNat
     let fm := tyFmt k.ty
     let n := tyRegs k.ty
     let A := fun (t : Thread) (e : Nat) => flushBits fm k.fi (elem fm.bits (rd c t a.a n) e)
     let B := fun (t : Thread) (e : Nat) => flushBits fm k.fi (elem fm.bits (srcFB c t a k.ty) e)
     let x := fun t => fm.decF k.fi (elem fm.bits (rd c t a.a n) 0)
     let y := fun t => fm.decF k.fi (elem fm.bits (srcFB c t a k.ty) 0)
     let ord := fun t => !(x t).isNan && !(y t).isNan
     WritesD (.fminmax a) a s is c n (fun t v => ∀ e < tyElems k.ty,
       let an := (fm.dec (A t e)).isNan
       let bn := (fm.dec (B t e)).isNan
       let r := elem fm.bits v e
       (an = true → bn = true → r = fm.nan) ∧ (an = true → bn = false → r = B t e % 2 ^ fm.bits) ∧ (an = false → bn = true → r = A t e % 2 ^ fm.bits) ∧
       (an = false → bn = false → r = (if (if k.low then maxFirst (fm.dec (A t e)) (fm.dec (B t e)) else minFirst (fm.dec (A t e)) (fm.dec (B t e))) then A t e else B t e) % 2 ^ fm.bits)) ∧
     WritesD (.fabsneg a) a s is c n (fun t v => ∀ e < tyElems k.ty, ∀ j < fm.bits,
       (elem fm.bits v e).testBit j =
         if j + 1 < fm.bits then (elem fm.bits (rd c t a.a n) e).testBit j else k.low && !(elem fm.bits (rd c t a.a n) e).testBit j) ∧
     WritesP (.fcmp a) a s is c (fun t => match bitsOf a.m.toNat 7 6 * 2 + bitsOf a.m.toNat 0 0 with
       | 0 => ord t && (x t).cmp (y t) == .eq
       | 1 => !ord t || (x t).cmp (y t) != .eq
       | 2 => ord t && (x t).cmp (y t) == .lt
       | 3 => ord t && (x t).cmp (y t) != .gt
       | 4 => ord t && (x t).cmp (y t) == .gt
       | 5 => ord t && (x t).cmp (y t) != .lt
       | 6 => ord t
       | _ => !ord t) ∧
     WritesP (.fclass a) a s is c fun t => (a.imm.elim a.x.toNat BitVec.toNat).testBit
       (floatClass fm k.fi (elem fm.bits (rd c t a.a n) (if k.low then 1 else 0)))) ∧
  ((∀ (s : State) (is : Issue) (c : Crew) (a : Args), Issues s is c →
     let k := floatMods a.m.toNat
     let fm := tyFmt k.ty
     let n := tyRegs k.ty
     let Gives := fun (fn : ApproxFn) (t : Thread) (v : Nat) => v = cvtTo fm .rne k.fo k.sat (approx fn fm (fm.decF k.fi (elem fm.bits (rd c t a.a n) 0)))
     WritesD (.frcp a) a s is c n (Gives .rcp) ∧ WritesD (.frsq a) a s is c n (Gives .rsq) ∧ WritesD (.fex2 a) a s is c n (Gives .ex2) ∧
     WritesD (.flg2 a) a s is c n (Gives .lg2) ∧ WritesD (.fsin a) a s is c n (Gives .sin) ∧ WritesD (.fcos a) a s is c n (Gives .cos)) ∧
   (∀ (f : Fmt) (neg : Bool) (m : Nat) (e : Int), m ≠ 0 →
     approx .rcp f (.fin true m e) = (approx .rcp f (.fin false m e)).neg ∧ approx .sin f (.fin true m e) = (approx .sin f (.fin false m e)).neg ∧
     approx .cos f (.fin true m e) = approx .cos f (.fin false m e) ∧ approx .rsq f (.fin true m e) = .nan ∧ approx .lg2 f (.fin true m e) = .nan ∧
     approx .rcp f (.fin neg 1 e) = .fin neg 1 (-e)) ∧
   (∀ (f : Fmt) (neg : Bool) (e : Int),
     approx .rcp f (.fin neg 0 e) = .inf neg ∧ approx .rsq f (.fin neg 0 e) = .inf neg ∧ approx .ex2 f (.fin neg 0 e) = .fin false 1 0 ∧
     approx .lg2 f (.fin neg 0 e) = .inf true ∧ approx .sin f (.fin neg 0 e) = .fin neg 0 0 ∧ approx .cos f (.fin neg 0 e) = .fin false 1 0 ∧
     approx .rcp f (.inf neg) = .fin neg 0 0 ∧ approx .rsq f (.inf neg) = (if neg then .nan else .fin false 0 0) ∧
     approx .ex2 f (.inf neg) = (if neg then .fin false 0 0 else .inf false) ∧ approx .lg2 f (.inf neg) = (if neg then .nan else .inf false) ∧
     approx .sin f (.inf neg) = .nan ∧ approx .cos f (.inf neg) = .nan ∧ ∀ fn, approx fn f .nan = .nan))

/-- The conversions complete: `cvt` writes the conversion of R95 into as many registers as its types give; `cvtf8` scales and converts four elements each way; `pxunpack` gives one element of a PX4 block; `pxpack` gives each active lane its block of sixteen lanes; `amax` gives every active lane the greatest magnitude of the gang (R95–R101). `fmtw.mk` writes the 22 bits of its format word, `fmtw.why` the first reason of R102 for which a word is not valid, and `fmtw.chk` whether there is none (R102). -/
def Obligations.ConversionsAndFormats : Prop :=
  (∀ (s : State) (is : Issue) (c : Crew) (a : Args), Issues s is c →
     let m := a.m.toNat
     let dt := bitsOf m 7 4
     let st := bitsOf m 3 0
     let f8 := if bitAt m 3 then fpE5M2 else fpE4M3
     let sc := fun t => fp32.dec (rd c t a.b 1)
     let k := floatMods m
     let fm := tyFmt k.ty
     WritesD (.cvt a) a s is c (if (st = 12 ∨ st = 13) ∧ dt = 10 then 2 else cvtRegs dt)
       (fun t v => v = convert (cvtMods a.x.toNat) dt st (rd c t a.a (cvtRegs st)) (rd c t a.b 1)) ∧
     (bitAt m 2 = true → WritesD (.cvtf8 a) a s is c 4 fun t v => ∀ i < 4,
       elem 32 v i = cvtTo fp32 .rne (bitAt m 4) (bitAt m 1) ((f8.decF (bitAt m 5) (elem 8 (rd c t a.a 1) i)).mul (sc t)) % 2 ^ 32) ∧
     (bitAt m 2 = false → WritesD (.cvtf8 a) a s is c 1 fun t v => ∀ i < 4,
       elem 8 v i = cvtTo f8 .rne (bitAt m 4) (bitAt m 1) ((fp32.decF (bitAt m 5) (elem 32 (rd c t a.a 4) i)).mul (sc t)) % 2 ^ 8) ∧
     WritesD (.pxunpack a) a s is c 1 (fun t v =>
       let x := rd c t a.a 4
       let j := rd c t a.b 1 % 16
       v = cvtTo fp32 .rne (bitAt m 4) (bitAt m 1) (px4Val (bitsOf x 71 64) (bitsOf x (72 + j / 2) (72 + j / 2)) (elem 4 x j))) ∧
     WritesD (.pxpack a) a s is c 4 (fun t v =>
       let (ex, mb, codes) := px4Block (px4Inputs (envOf s is c a.guard) a (bitAt m 5) (c.lane t.tid / 16))
       v / 2 ^ 64 = mb * 256 + ex ∧ ∀ j < 16, elem 4 (v % 2 ^ 64) j = codes.getD j 0 % 16) ∧
     WritesD (.amax a) a s is c (tyRegs k.ty) fun _ v => ∀ h < tyElems k.ty,
       elem fm.bits v h = rne fm (absMax k.low ((active c is a.guard).map fun t => fm.decF k.fi (elem fm.bits (rd c t a.a (tyRegs k.ty)) h))) % 2 ^ fm.bits) ∧
  (∀ (s : State) (is : Issue) (c : Crew) (a : Args), Issues s is c →
     WritesD (.fmtwMk a) a s is c 1 (fun _ v => v = bitsOf (Args.immN a) 21 0) ∧
     WritesD (.fmtwWhy a) a s is c 1 (fun t v => v = fmtReason (rd c t a.a 1)) ∧
     WritesP (.fmtwChk a) a s is c fun t => decide (fmtReason (rd c t a.a 1) = 0))

/-- A paired word runs both halves, under p0 or none, and both read before either writes: the writes of both are computed from the crew as it stood. For each of the 64 half-op codes, in either half, a half writes exactly what the full form that R65 writes it as would write under the same guard, with A equal to D and B equal to S, or with the immediate that K stands for (R61, R64, R65). -/
def Obligations.PairedWordRunsBothHalves : Prop :=
  ∀ (s : State) (is : Issue) (c : Crew) (p : Bool), Issues s is c →
    let g : Guard := { p := if p then 0 else 7, neg := false }
    let form := fun (m x : Nat) (d a b pk : Opnd) (imm : Option (BitVec 27)) =>
      ({ guard := g, m := BitVec.ofNat 8 m, d := d, a := a, b := b, c := pk, x := BitVec.ofNat 11 x, imm := imm } : Args)
    let dds := fun (m : Nat) (h : Half) => form m 0 h.d h.d h.s .none none
    let ds := fun (m x : Nat) (h : Half) => form m x h.d h.s .none .none none
    let ddk := fun (m : Nat) (h : Half) (v : BitVec 27) => form m 0 h.d h.d .none .none (some v)
    let signed := fun h : Half => BitVec.ofInt 27 (signExt h.k.toNat 8)
    let plain := fun h : Half => BitVec.ofNat 27 h.k.toNat
    let e4m3 := fun h : Half => BitVec.ofNat 27 (rne fp32 (fpE4M3.dec h.k.toNat) / 2 ^ 5)
    let arithmetic : List (Half → Instr) := [
      fun _ => .nop (form 0 0 .none .none .none .none none), fun h => .iadd (dds 0 h), fun h => .isub (dds 0 h), fun h => .iadd (ddk 0 h (signed h)),
      fun h => .imul (dds 0 h), fun h => .imul (dds 0x30 h), fun h => .imul (dds 0x20 h), fun h => .iminmax (dds 0x10 h),
      fun h => .iminmax (dds 0x30 h), fun h => .iminmax (dds 0 h), fun h => .iminmax (dds 0x20 h), fun h => .iadd (dds 0x12 h),
      fun h => .isub (dds 0x12 h), fun h => .logic (dds 0 h), fun h => .logic (dds 0x20 h), fun h => .logic (dds 0x40 h)]
    let bits : List (Half → Instr) := [
      fun h => .logic (dds 0x60 h), fun h => .logic (ddk 0 h (plain h)), fun h => .logic (ddk 0x20 h (plain h)), fun h => .logic (ddk 0x40 h (plain h)),
      fun h => .shift (dds 0 h), fun h => .shift (dds 0x20 h), fun h => .shift (dds 0x40 h), fun h => .shift (dds 0x60 h),
      fun h => .shift (ddk 0 h (plain h)), fun h => .shift (ddk 0x20 h (plain h)), fun h => .shift (ddk 0x40 h (plain h)), fun h => .shift (ddk 0x60 h (plain h)),
      fun h => .mov (ds 0 0 h), fun h => .mov (form 0 0 h.d .none .none .none (some (signed h))), fun h => .iabsneg (ds 0 0 h), fun h => .iabsneg (ds 0x20 0 h)]
    let single : List (Half → Instr) := [
      fun h => .fadd (dds 0 h), fun h => .fsub (dds 0 h), fun h => .fmul (dds 0 h), fun h => .fminmax (dds 0 h),
      fun h => .fminmax (dds 0x01 h), fun h => .fabsneg (ds 0 0 h), fun h => .fabsneg (ds 0x01 0 h), fun h => .fadd (dds 0x02 h),
      fun h => .fmul (dds 0x02 h), fun h => .fadd (dds 0x40 h), fun h => .fmul (dds 0x40 h), fun h => .fadd (ddk 0 h (e4m3 h)),
      fun h => .fmul (ddk 0 h (e4m3 h)), fun h => .fldexp (ddk 0 h (signed h)), fun h => .fadd (dds 0x08 h), fun h => .fsub (dds 0x08 h)]
    let packed : List (Half → Instr) := [
      fun h => .fmul (dds 0x08 h), fun h => .fminmax (dds 0x08 h), fun h => .fminmax (dds 0x09 h), fun h => .fadd (dds 0x0C h),
      fun h => .fsub (dds 0x0C h), fun h => .fmul (dds 0x0C h), fun h => .fminmax (dds 0x0C h), fun h => .fminmax (dds 0x0D h),
      fun h => .cvt (ds 0xA1 0 h), fun h => .cvt (ds 0xA0 0 h), fun h => .cvt (ds 0x1A 0x200 h), fun h => .cvt (ds 0x0A 0x200 h),
      fun h => .sel (form 0 0 h.d h.s h.d (Opnd.ofCode (h.k.toNat % 8)) none), fun h => .bitc (ds 0 0 h), fun h => .bitc (ds 0x20 0 h), fun h => .bitc (ds 0x60 0 h)]
    (∀ h0 h1 : Half, exec (.pairedWord p h0 h1) s = .next (regsWritten s is ((active c is g).flatMap fun t =>
      (wrHalf g h0 c t).map (fun w => (t.tid, w)) ++ (wrHalf g h1 c t).map fun w => (t.tid, w)))) ∧
    ∀ (h : Half) (full : Half → Instr), (arithmetic ++ bits ++ single ++ packed)[h.op.toNat]? = some full →
      exec (full h) s = .next (regsWritten s is ((active c is g).flatMap fun t => (wrHalf g h c t).map fun w => (t.tid, w)))

/-- `nop` moves its gang on whatever the guard; a direct branch or call takes its active threads to PC + 8 × the signed immediate and the others one word on, and `call` writes %link (R117–R119, R121). Indirect transfers: where every active target is a multiple of 8 the active threads stand at the value of A, `calli` writes %link and may queue its threads, `ret` leaves %link; where one is not, the gang takes ALIGN at the word and nothing is written (R117, R120–R122). -/
def Obligations.ControlTransfers : Prop :=
  (∀ (s : State) (is : Issue) (c : Crew) (a : Args), Issues s is c →
     let target : Thread → Word64 := fun _ => BitVec.ofInt 64 (is.pc.toNat + 8 * signExt (Args.immN a) 27)
     exec (.nop a) s = .next (retire is s) ∧
     (∃ t, exec (.br a) s = .next t ∧ Transferred s t is c a.guard false false target) ∧
     (∃ t, exec (.brd a) s = .next t ∧ Transferred s t is c a.guard false false target) ∧
     (∃ t, exec (.call a) s = .next t ∧ Transferred s t is c a.guard true false target)) ∧
  (∀ (s : State) (is : Issue) (c : Crew) (a : Args), Issues s is c →
     let target : Thread → Word64 := fun t => BitVec.ofNat 64 (rd c t a.a 2)
     let act := active c is a.guard
     ((∀ t ∈ act, (target t).toNat % 8 = 0) →
       (∃ t, exec (.bri a) s = .next t ∧ Transferred s t is c a.guard false false target) ∧
       (∃ t, exec (.ret a) s = .next t ∧ Transferred s t is c a.guard false false target) ∧
       (∃ t, exec (.calli a) s = .next t ∧ Transferred s t is c a.guard true true target ∧
         ((∀ u ∈ act, ∀ v ∈ act, target u = target v) → Transferred s t is c a.guard true false target))) ∧
     ((∃ t ∈ act, (target t).toNat % 8 ≠ 0) → ∃ info : TrapInfo,
       info.code = 0x04 ∧ info.addr.toNat % 8 ≠ 0 ∧ info.tids = act.map (·.tid) ∧
       exec (.bri a) s = .next (raise s is.crew is.pc is.tids info) ∧ exec (.calli a) s = .next (raise s is.crew is.pc is.tids info) ∧
       exec (.ret a) s = .next (raise s is.crew is.pc is.tids info)))

/-- `shfl` gives each active thread the value of the lane that its sub-op names, or its own where that lane is absent or inactive, and in the R form a predicate says which; the I form writes no predicate (R128). `meet.x` and `meet.set` write %meet of the active threads and clear their pass bits before the gang arrives at the next word; `regang` makes its gang wait and releases the home gang when all its live threads wait at one (R113, R126, R127). Model readings and choices that it rests on: log entry 153. -/
def Obligations.LanesMeet : Prop :=
  (∀ (s : State) (is : Issue) (c : Crew) (a : Args), Issues s is c →
     let k := intMods a.m.toNat
     let act := active c is a.guard
     let B := fun t => a.imm.elim (rd c t a.b 1) BitVec.toNat
     ∃ src : Thread → Option Thread,
       exec (.shfl a) s = .next (regsWritten s is (act.flatMap fun t =>
         (t.tid, Wr.reg a.d k.regs (rd c ((src t).getD t) a.a k.regs)) :: if a.imm.isSome then [] else [(t.tid, .pred a.c (src t).isSome)])) ∧
       ∀ t ∈ act, (∀ u, src t = some u → u ∈ act ∧ shflSource k.sub c.gw (c.lane t.tid) (B t) = some (c.lane u.tid)) ∧
         (src t = none → ∀ u ∈ act, shflSource k.sub c.gw (c.lane t.tid) (B t) ≠ some (c.lane u.tid))) ∧
  (∀ (s : State) (is : Issue) (c : Crew) (a : Args), Issues s is c →
     let act := active c is a.guard
     let Met := fun (t : State) (f : Thread → Word64) => ∃ s1 : State, t = retire is s1 ∧ OnlyCrew s s1 is.crew ∧
       getCrew s1 is.crew = some (c.mapT fun u => if (act.map (·.tid)).contains u.tid then { u with meet := f u, pass := false } else u)
     (∃ t, exec (.meetX a) s = .next t ∧ Met t fun _ => BitVec.ofInt 64 (is.pc.toNat + 8 * signExt (Args.immN a) 27)) ∧
     (∃ t, exec (.meetSet a) s = .next t ∧ Met t fun u => BitVec.ofNat 64 (rd c u a.a 2)) ∧
     ∃ t, exec (.regang a) s = .next t ∧ t.issue = none ∧ OnlyCrew s t is.crew ∧
       getCrew t is.crew = some (releaseRegangs ((endBindings c is.tids).mapT fun u => if is.tids.contains u.tid then { u with hold := .regang } else u)))

/-- An arrival at a barrier: a second one of a thread in a phase is not counted and only ends the thread's region; the first of a phase fixes its mode; where the phase is not complete the thread is counted and nobody moves; where it is, the phase number rises, the count returns to 0, and every thread that waited for the phase stands one word on and waits for it no more (R115, R203). The barrier instructions complete where no active thread has a store out: `bar.sync` makes each active thread arrive and wait while the others move on, `bar.arrive` counts and moves the gang on, and `bar.wait` holds exactly the threads whose arrival for the current phase is pending (R115, R124). Model readings and choices that it rests on: log entry 42. -/
def Obligations.CrewBarriers : Prop :=
  (∀ (c : Crew) (b count : Nat) (t : Thread), Distinct c → c.thread t.tid = some t →
     let x := barrierOf c b
     let x' := { x with arrived := x.arrived ++ [t.tid], mode := some (x.mode.getD count) }
     let c' := arriveAt b count t.tid c
     (mget 0 t.arrivals b = x.phase + 1 → c' = c.upd t.tid fun t => { t with region := t.region + 1 }) ∧
     (mget 0 t.arrivals b ≠ x.phase + 1 → barrierDone c x' = false →
       barrierOf c' b = x' ∧ ∀ u v, c.thread u = some v → ∃ v', c'.thread u = some v' ∧ v'.pc = v.pc ∧ v'.hold = v.hold) ∧
     (mget 0 t.arrivals b ≠ x.phase + 1 → barrierDone c x' = true →
       barrierOf c' b = { phase := x.phase + 1 } ∧
       ∀ u v, c.thread u = some v → waitsAt b x.phase v = true → ∃ v', c'.thread u = some v' ∧ v'.pc = v.pc + 8 ∧ waitsAt b x.phase v' = false)) ∧
  (∀ (s : State) (is : Issue) (c : Crew) (a : Args), Issues s is c → NoStoresOut s is c a.guard →
     let act := active c is a.guard
     let b := bitsOf (Args.immN a) 3 0
     let count := bitsOf (Args.immN a) 14 4
     (act ≠ [] → ∃ t, exec (.barSync a) s = .next t ∧ t.issue = none ∧ OnlyCrew s t is.crew ∧
       getCrew t is.crew = some (moveTo (is.tids.filter fun i => !(act.map (·.tid)).contains i) (fun _ => is.pc + 8)
         (act.foldl (fun c u => arriveWait b count u.tid c) (endBindings c is.tids)))) ∧
     (∃ s1 : State, exec (.barArrive a) s = .next (retire is s1) ∧ OnlyCrew s s1 is.crew ∧
       getCrew s1 is.crew = some (act.foldl (fun c u => arriveAt b count u.tid c) c)) ∧
     ∃ t c', exec (.barWait a) s = .next t ∧ t.issue = none ∧ OnlyCrew s t is.crew ∧ getCrew t is.crew = some c' ∧
       ∀ u, c.thread u.tid = some u → u ∈ act → ∃ u', c'.thread u.tid = some u' ∧
         if mget 0 u.arrivals b = (barrierOf c b).phase + 1 then u'.pc = u.pc ∧ u'.hold = .bar b (barrierOf c b).phase
         else u'.pc = is.pc + 8 ∧ mget 0 u'.arrivals b = 0)

/-- A release waits for stores at its scope: where an active thread has a store or push to wait for, `bar.sync` and `bar.arrive` at crew scope, `exit` at system scope and a `fence` of release order at its own change nothing but the hold of those threads and the gang that is to issue the word again as formed; a store that is not acknowledged is such a one at system scope, and at crew scope only one that its own core has still to accept (R68, R175, R215, R223). Fences: `fence` of release order waits for stores and goes on where there are none, an acquire drops the core's unregistered copies, and every active thread's region ends; `xfence` goes on once its threads have nothing outstanding on P1 and drops what P2 caches, at device scope without a mask all that the sampler or the ray pipes may still hold of the context's older data, and until then its gang stands at the word to issue again as formed (R68, R215, R217, R218, R223, R224). Model readings and choices that it rests on: log entries 46, 47, 167. -/
def Obligations.ReleasesAndFences : Prop :=
  (∀ (s : State) (is : Issue) (c : Crew) (a : Args), Issues s is c →
     let late := fun scope => ((active c is a.guard).map (·.tid)).filter (owesStores s scope is.crew)
     let held := fun scope => { holdGang s is.crew is.tids (late scope) (.release scope (late scope)) with issue := none }
     (late 0 ≠ [] → exec (.barSync a) s = .next (held 0) ∧ exec (.barArrive a) s = .next (held 0)) ∧
     (late 3 ≠ [] → exec (.exit a) s = .next (held 3)) ∧
     (bitAt a.m.toNat 3 = true → late (atomMods a).scope ≠ [] → exec (.fence a) s = .next (held (atomMods a).scope)) ∧
     (∀ p ∈ s.stores, ∀ t ∈ active c is a.guard, p.crew = is.crew → p.tid = t.tid →
       t.tid ∈ late 3 ∧ (p.performed = false → (∃ w ∈ p.bytes, keyCore s w.1 = some p.core) → t.tid ∈ late 0)) ∧
     ∀ t, t ∈ late 0 → ∃ p ∈ s.stores, p.crew = is.crew ∧ p.tid = t ∧ p.performed = false ∧ ∃ w ∈ p.bytes, keyCore s w.1 = some p.core) ∧
  (∀ (s : State) (is : Issue) (c : Crew) (a : Args), Issues s is c →
     let k := atomMods a
     let act := active c is a.guard
     let p1 := bitsOf a.m.toNat 7 5
     let dropped := dropPath s c (bitsOf a.m.toNat 4 2) (bitsOf a.m.toNat 1 0) (fenceStacks a c.die (bitsOf a.m.toNat 1 0))
     ((bitAt a.m.toNat 3 = true → NoStoresOut s is c a.guard) → ∃ s1 : State, exec (.fence a) s = .next (retire is (syncActive s1 is.crew (act.map (·.tid)))) ∧
       s1 = { s with lines := s1.lines } ∧ (∀ l ∈ s1.lines, l ∈ s.lines) ∧
       (act ≠ [] → bitAt a.m.toNat 2 = true → k.scope ≠ 0 →
         ∀ l ∈ s1.lines, l.kind = .l1 c.coreId → registered s c.coreId (l.sector / 4) = true)) ∧
     (a.imm = none → 2 ≤ bitsOf a.m.toNat 1 0 → ∀ l ∈ dropped.lines, l.ctx = c.ctx →
       (bitsOf a.m.toNat 4 2 = 3 → l.kind ≠ .past 3 ∧ ∀ j, j < 16 → l.kind ≠ .sampler j) ∧
       (bitsOf a.m.toNat 4 2 = 4 → l.kind ≠ .past 4 ∧ ∀ j, j < 16 → l.kind ≠ .node j)) ∧
     (act ≠ [] → p1 = 0 → NoStoresOut s is c a.guard → exec (.xfence a) s = .next (retire is dropped)) ∧
     (act ≠ [] → p1 ≠ 0 → (∀ t ∈ act, pathBusy s is.crew t.tid p1 = false) → exec (.xfence a) s = .next (retire is dropped)) ∧
     (p1 ≠ 0 → (∃ t ∈ act, pathBusy s is.crew t.tid p1 = true) → exec (.xfence a) s = .next { holdGang s is.crew is.tids [] .none with issue := none }) ∧
     (act = [] → NoStoresOut s is c a.guard → exec (.xfence a) s = .next (retire is s)))

/-- `exit` ends its active threads where none has a store out: they are live no more, and the others move on; a crew with no live thread, no outstanding operation, no halt and no fault to raise is retired, a seed with its run's counter lowered where the device can reach the queue's block (R123, R275). Model readings and choices that it rests on: log entry 28. -/
def Obligations.ExitAndRetire : Prop :=
  (∀ (s : State) (is : Issue) (c : Crew) (a : Args), Issues s is c → NoStoresOut s is c a.guard → active c is a.guard ≠ [] →
    ∃ t, exec (.exit a) s = .next t ∧ t.issue = none ∧ t =
      { exitThreads (updCrew s is.crew fun c => moveTo (is.tids.filter fun i => !((active c is a.guard).map (·.tid)).contains i) (fun _ => is.pc + 8) (endBindings c is.tids))
          is.crew ((active c is a.guard).map (·.tid)) with issue := none }) ∧
  (∀ (c : Crew) (tids : List Nat) (u : Thread), c.thread u.tid = some u →
    ∃ u', (endThreads tids c).thread u.tid = some u' ∧ (tids.contains u.tid = true → u'.live = false) ∧ (tids.contains u.tid = false → u'.live = u.live) ∧ u'.v = u.v) ∧
  (∀ (s : State) (uid : Nat) (c : Crew), getCrew s uid = some c → mayRetire c = true → c.kind = .seed →
    (∀ r, c.run.bind (getRun s) = some r → retireHeld s r none = false) →
    exec (.crewRetire uid) s = .next (match c.run with
      | some r => lowerCounter (removeCrew s uid) r
      | none => removeCrew s uid)) ∧
  (∀ (s : State) (uid : Nat) (c : Crew), getCrew s uid = some c → mayRetire c = false → exec (.crewRetire uid) s = .next s)

/-- Raising a trap halts the crew: it keeps the trap, its word and its clock, the trapping gang has nothing written and stands at its word, and no memory changes; in a halted crew the gang only stops with it (R352, R353). `trap.trap` takes USER and `trap.brk` takes BRK, with the active lanes as its threads and the 16-bit code in DETAIL; a gang with no active thread moves on (R379). -/
def Obligations.TrapsHalt : Prop :=
  (∀ (s : State) (uid : Nat) (pc : Word64) (gang : List Nat) (info : TrapInfo) (c : Crew), getCrew s uid = some c →
     let t := raise s uid pc gang info
     OnlyCrew s t uid ∧ t.issue = none ∧
     (c.halt = none → stopping s c = false → getCrew t uid = some { c with halt := some {
       phase := .skid, trap := { info with gang := gang }, pc := pc, since := s.cycle, vclk := c.vclk } }) ∧
     (∀ h, c.halt = some h → getCrew t uid = some { c with halt := some { h with stopped := (h.stopped ++ gang.map c.hgang).eraseDups } })) ∧
  (∀ (s : State) (is : Issue) (c : Crew) (a : Args), Issues s is c →
     let act := active c is a.guard
     let info := fun code => trapOf c code 0 (act.map (·.tid)) [{ off := 0, len := 2, val := bitsOf (Args.immN a) 15 0 }]
     (act ≠ [] → exec (.trapTrap a) s = .next (raise s is.crew is.pc is.tids (info 0x14)) ∧
       exec (.trapBrk a) s = .next (raise s is.crew is.pc is.tids (info 0x12))) ∧
     (act = [] → exec (.trapTrap a) s = .next (retire is s) ∧ exec (.trapBrk a) s = .next (retire is s)))

/-- `trap.svc` with an entry free posts it, STATE 1 last, and holds its gang for the answer; with none free the gang waits; with SVCRING 0 it takes SVC with cause 1 (R364, R365, R379). The answers of calls: a reply writes D of each active lane that is live and moves the gang past its word, and a refusal leaves each of its threads to meet SVC with cause 2 there; either way the entry is free again; an answer that the reply log has no room for, or whose entry must be waited for, waits (R364, R365, R370). Model readings and choices that it rests on: log entries 38, 39, 156. -/
def Obligations.SystemCalls : Prop :=
  (∀ (s : State) (is : Issue) (c : Crew) (a : Args) (x : Context), Issues s is c → NoStoresOut s is c a.guard → active c is a.guard ≠ [] →
     getCtx s c.ctx = some x → svcHeld s x = false →
     let s1 := syncActive s is.crew ((active c is a.guard).map (·.tid))
     (x.svcRing ≠ 0 → ∀ idx, freeSvc s x = some idx → ∃ t call, exec (.trapSvc a) s = .next t ∧ t = postSvc a { envOf s is c a.guard with s := s1 } x idx (bitsOf (Args.immN a) 15 0) ∧
       t.issue = none ∧ call ∈ t.svc ∧ call.idx = idx ∧ call.ctx = x.id ∧ call.crew = is.crew ∧ call.tids = (active c is a.guard).map (·.tid)) ∧
     (x.svcRing ≠ 0 → freeSvc s x = none → exec (.trapSvc a) s = .next { holdGang s is.crew is.tids is.tids (.svc none) with issue := none }) ∧
     (x.svcRing = 0 → ∃ info : TrapInfo, info.code = 0x11 ∧ (∃ f ∈ info.detail, f.off = 0 ∧ f.val = 1) ∧ exec (.trapSvc a) s = .next (raise s is.crew is.pc is.tids info))) ∧
  ((∀ (s : State) (k : SvcCall) (x : Context) (c : Crew) (replies : List Word64), s.svc.find? (·.id == k.id) = some k → getCtx s k.ctx = some x → getCrew s k.crew = some c →
     k.answered = false →
     let put := fun st =>
       let s1 := ((List.range replies.length).zip (if st = 2 then replies else [])).foldl (fun s hv => if hv.1 < 64 then devPut s x.id (svcVa x k.idx + 2560 + 8 * hv.1) 8 hv.2.toNat else s) s
       let s2 := devPut s1 x.id (svcVa x k.idx + 3) 1 st
       { s2 with bar := { s2.bar with svcDone := mput 0 s2.bar.svcDone k.ctx (BitVec.ofNat 32 k.idx) }, svc := s2.svc.map fun q => if q.id = k.id then { q with answered := true } else q }
     let Answered := fun st (i : Instr) => (svcBlocked (put st) k = false → exec i s = .next (takeSvc (put st) k)) ∧ (svcBlocked (put st) k = true → exec i s = .next (put st))
     Answered 2 (.svcReply k.id replies) ∧ Answered 3 (.svcRefused k.id) ∧ (logBlocked s c = true → exec (.svcReply k.id replies) s = .next (put 2))) ∧
   (∀ (s : State) (k : SvcCall) (x : Context) (c : Crew) (t : Thread), getCtx s k.ctx = some x → getCrew s k.crew = some c → c.where_ = .resident → Distinct c →
     c.thread t.tid = some t → t.live = true → t.hold = .svc (some k.id) →
     (devNum s x.id (svcVa x k.idx + 3) 1 = some 2 → (∀ u ∈ c.threads, u.hold = .svc (some k.id) → u.pc = t.pc) →
       ∃ (c' : Crew) (t' : Thread), getCrew (takeSvc s k) k.crew = some c' ∧ c'.thread t.tid = some t' ∧ t'.pc = t.pc + 8 ∧ (∀ q ∈ (takeSvc s k).svc, q.id ≠ k.id) ∧
         let v := fun i => (devNum s x.id (svcVa x k.idx + 2560 + 8 * c.lane i) 8).getD 0
         (k.dst = none → t'.v = t.v ∧ c'.s = c.s) ∧
         (∀ d, k.dst = some (d, false) → t.tid ∈ k.tids → mget 0 t'.v d = BitVec.ofNat 32 (v t.tid) ∧ mget 0 t'.v (d + 1) = BitVec.ofNat 32 (v t.tid / 2 ^ 32)) ∧
         (∀ d is, k.dst = some (d, true) → k.tids = is ++ [t.tid] → mget 0 c'.s d = BitVec.ofNat 32 (v t.tid) ∧ mget 0 c'.s (d + 1) = BitVec.ofNat 32 (v t.tid / 2 ^ 32))) ∧
     (devNum s x.id (svcVa x k.idx + 3) 1 = some 3 → ∃ t' : Thread, getThread (takeSvc s k) k.crew t.tid = some t' ∧ t'.pc = t.pc ∧ t'.v = t.v ∧ (∀ q ∈ (takeSvc s k).svc, q.id ≠ k.id) ∧
       (t.tid ∈ k.tids → ∃ f, t'.wakeTrap = some f ∧ f.code = 0x11 ∧ ({ off := 0, len := 2, val := 2 } : PutField) ∈ f.detail))))

/-- `sget` gives every active thread the special register's value and changes nothing else (R359, R380). `sset` by a privileged crew, or of POISONFLAG by any, acts once with the lowest active lane's value and moves the gang on; a value outside a limit register's range changes nothing; from an unprivileged crew it takes PRIV and writes nothing (R8, R109, R348, R359, R380). -/
def Obligations.SpecialRegisters : Prop :=
  (∀ (s : State) (is : Issue) (c : Crew) (a : Args) (x : Context), Issues s is c → getCtx s c.ctx = some x →
     let n := bitsOf (Args.immN a) 11 0
     WritesD (.sget a) a s is c (sprRegs n) (fun _ v => v = sprRead s c x n) ∧
     sprRead s c x 0x000 = x.id ∧ sprRead s c x 0x001 = (if c.priv then 1 else 0) ∧ sprRead s c x 0x002 = s.hw.node.toNat ∧
     sprRead s c x 0x010 = x.ageLimit ∧ sprRead s c x 0x011 = x.meetLimit ∧ sprRead s c x 0x012 = x.stallLimit ∧ sprRead s c x 0x013 = x.genDepth ∧
     sprRead s c x 0x014 = x.raceWait ∧ sprRead s c x 0x015 = x.holdLimit ∧ sprRead s c x 0x016 = (if x.poisonEn then 1 else 0) ∧
     sprRead s c x 0x020 = x.aperScr.toNat ∧ sprRead s c x 0x021 = x.aperSpan.toNat ∧ sprRead s c x 0x022 = x.aperStk.toNat ∧
     sprRead s c x 0x023 = x.xltRoot.toNat ∧ sprRead s c x 0x030 = (if c.poisonFlag then 1 else 0) ∧ sprRead s c x 0x031 = x.trapCnt.toNat) ∧
  ((∀ (s : State) (is : Issue) (c : Crew) (a : Args) (x : Context) (t : Thread) (ts : List Thread), Issues s is c → getCtx s c.ctx = some x →
     active c is a.guard = t :: ts →
     let n := bitsOf (Args.immN a) 11 0
     let v := rd c t a.a (sprRegs n)
     (c.priv = true ∨ n = 0x030 → exec (.sset a) s = .next (retire is (sprWrite s c x n v))) ∧
     (c.priv = false → n ≠ 0x030 → ∃ info : TrapInfo, info.code = 0x03 ∧ info.tids = (active c is a.guard).map (·.tid) ∧
       exec (.sset a) s = .next (raise s is.crew is.pc is.tids info))) ∧
   (∀ (s : State) (c : Crew) (x : Context) (v : Nat),
     sprWrite s c x 0x010 v = (if 1 ≤ v ∧ v ≤ 65535 then updCtx s x.id fun y => { y with ageLimit := v } else s) ∧
     sprWrite s c x 0x011 v = (if 256 ≤ v ∧ v ≤ 0xFFFFFFFF then updCtx s x.id fun y => { y with meetLimit := v } else s) ∧
     sprWrite s c x 0x012 v = (if 0x10000 ≤ v ∧ v ≤ 0xFFFFFFFF then updCtx s x.id fun y => { y with stallLimit := v } else s) ∧
     sprWrite s c x 0x013 v = (if 1 ≤ v ∧ v ≤ 7 then updCtx s x.id fun y => { y with genDepth := v } else s) ∧
     sprWrite s c x 0x016 v = (if v ≤ 1 then updCtx s x.id fun y => { y with poisonEn := v == 1 } else s) ∧
     sprWrite s c x 0x030 v = (if v = 0 then updCrew s c.uid fun c => { c with poisonFlag := false } else s)))

/-- `cnt.cclk` and `cnt.vclk` read the die's clock and the crew's; `cnt.arm` sets a deadline that many cycles after the chosen clock, `cnt.left` gives what is left of it, 0 once due and all ones when disarmed, and `cnt.disarm` removes it (R360–R362, R381). A crew whose timer is due takes TIMER at the next issue of one of its gangs, in place of its word, and the timer is spent (R361, R362). -/
def Obligations.CountersAndTimers : Prop :=
  (∀ (s : State) (is : Issue) (c : Crew) (a : Args), Issues s is c →
     let act := active c is a.guard
     let wall := bitAt a.m.toNat 4
     let now := fun w : Bool => if w then mget 0 s.cclk c.die else c.vclk
     WritesD (.cntCclk a) a s is c 2 (fun _ v => v = (mget 0 s.cclk c.die).toNat) ∧
     WritesD (.cntVclk a) a s is c 2 (fun _ v => v = c.vclk.toNat) ∧
     WritesD (.cntLeft a) a s is c 2 (fun _ v => v = match c.timer with
       | none => 2 ^ 64 - 1
       | some t => t.deadline.toNat - (now t.wall).toNat) ∧
     (∀ t ts, act = t :: ts → exec (.cntArm a) s = .next (retire is (updCrew s is.crew fun c => { c with
       timer := some { wall := wall, deadline := now wall + BitVec.ofNat 64 (a.imm.elim (rd c t a.a 2) BitVec.toNat) }, timerDue := none }))) ∧
     (act ≠ [] → exec (.cntDisarm a) s = .next (retire is (updCrew s is.crew fun c => { c with timer := none, timerDue := none })))) ∧
  (∀ (s : State) (c : Crew) (g : Group) (t : Timer) (late : Bool), getCrew s c.uid = some c → c.where_ = .resident → timerOf s c = some (t, late) → switching s c = false →
     (coreGroups s c.coreId).find? (fun g => g.crew == c.uid) = some g →
     ∃ (u : State) (c' : Crew) (h : Halt), exec (.timerDue c.uid) s = .next u ∧ u.mem = s.mem ∧ u.issue = none ∧ getCrew u c.uid = some c' ∧ c'.timer = none ∧ c'.halt = some h ∧ h.phase = .skid ∧ h.pc = g.pc ∧
       h.since = s.cycle ∧ h.trap.code = 0x10 ∧ h.trap.crewLevel = true ∧ h.trap.late = late ∧ h.trap.tids = gangOf g ∧ c'.threads.map (·.pc) = c.threads.map (·.pc) ∧
       ({ off := 0, len := 8, val := t.deadline.toNat } : PutField) ∈ h.trap.detail)

/-- `ld` and `ldx` issue one load for each active lane where no check fails and nothing keeps a lane: strong ones always, ordinary ones where no region has written what they read. Memory changes only where a store of the thread's that stands before the read is performed first; an s register receives the value of one lane, once (R50, R171, R175, R176, R205). `st` and `stx` issue one store for each active lane where no check fails and nothing keeps a lane: strong ones always, an ordinary one of a single active lane where no line has tags; every byte of memory is as before until the store is performed (R175, R176, R205). A load that completes writes its destination and lowers the loads counter, and where it has written s registers no other load of its instruction writes them again; the result for a thread that has exited is discarded; a store's acknowledgement performs it: each of its bytes reads as stored at its home, every other byte of memory reads as before, and the stores counter falls (R50, R123, R175). Model readings and choices that it rests on: log entries 44, 45, 140, 142. -/
def Obligations.LoadsAndStores : Prop :=
  (∀ (s : State) (is : Issue) (c : Crew) (a : Args), Issues s is c →
     let need : Need := { w := memWidth a, load := true, strong := memStrong a }
     (memStrong a = true ∨ NoWriteTags s) →
     (PathClear s c need (moLanes (envOf s is c a.guard) a (memWidth a)) →
       LoadsLanes (.ld a) a s is c (moLanes (envOf s is c a.guard) a (memWidth a))) ∧
     (RecordsFit s is c a → PathClear s c need (recordLanes s is c a) → LoadsLanes (.ldx a) a s is c (recordLanes s is c a))) ∧
  (∀ (s : State) (is : Issue) (c : Crew) (a : Args), Issues s is c →
     let need : Need := { w := memWidth a, store := true, strong := memStrong a }
     (memStrong a = true ∨ (s.tags = [] ∧ (active c is a.guard).length = 1)) →
     (PathClear s c need (moLanes (envOf s is c a.guard) a (memWidth a)) →
       StoresLanes (.st a) a s is c (moLanes (envOf s is c a.guard) a (memWidth a))) ∧
     (RecordsFit s is c a → PathClear s c need (recordLanes s is c a) → StoresLanes (.stx a) a s is c (recordLanes s is c a))) ∧
  ((∀ (s : State) (l : PendingLoad) (id : Nat), s.loads.find? (·.id == id) = some l → l.atoms.any (channelWaits s l.id) = false → l.poison = none →
     let wrote := l.batch != 0 && (getCrew s l.crew).any fun c => (c.thread l.tid).any (·.live)
     exec (.loadComplete id) s = .next { updCrew s l.crew (writeLoad l) with
       loads := (s.loads.filter (·.id != id)).map fun q => if wrote && q.batch == l.batch then { q with sdst := [] } else q }) ∧
   (∀ (l : PendingLoad) (c : Crew) (t : Thread), c.thread l.tid = some t → t.live = false → (writeLoad l c).s = c.s ∧
     ∃ t' : Thread, (writeLoad l c).thread l.tid = some t' ∧ t'.v = t.v ∧ t'.p = t.p) ∧
   (∀ (l : PendingLoad) (c : Crew) (t : Thread), c.thread l.tid = some t → t.live = true → ∃ t' : Thread, (writeLoad l c).thread l.tid = some t' ∧
     t'.v = l.vdst.foldl (fun m w => mput 0 m w.1 w.2) t.v ∧ (writeLoad l c).s = l.sdst.foldl (fun m w => mput 0 m w.1 w.2) c.s ∧ t'.pc = t.pc ∧
     t'.cnt.loads = t.cnt.loads - (if l.counts then 1 else 0)) ∧
   (∀ (s : State) (p : PendingStore) (id : Nat), s.stores.find? (·.id == id) = some p → p.wait = .free → p.performed = false → storeBlocked s p = false →
     ∃ t, exec (.storeAck id) s = .next t ∧ t.stores = s.stores.filter (·.id != id) ∧ t.loads = s.loads ∧ t.issue = s.issue ∧
       t.mem = memPutAll s.mem (p.bytes.map fun w => (place s w.1, w.2)) ∧
       ∀ k, (∀ w ∈ p.bytes, place s w.1 ≠ k) → memByte t.mem k = memByte s.mem k))

/-- The checks of a load or store come in their order: a misaligned lane is ALIGN; with none, a lane whose address is outside what it may name is BOUNDS, or PAGE when it is not canonical; with none, a lane without permission is PERM; a watched byte is TILEALIAS. In each case the gang traps at the word and nothing of the access is made (R165, R175, R250). Model readings and choices that it rests on: log entries 24, 57. -/
def Obligations.AccessChecksInOrder : Prop :=
  ∀ (s : State) (is : Issue) (c : Crew) (a : Args), Issues s is c →
    let ls := moLanes (envOf s is c a.guard) a (memWidth a)
    let Traps := fun (i : Instr) (n : Need) =>
      ((∃ l ∈ ls, alignBad n l = true) → ∃ f : TrapInfo, f.code = 0x04 ∧ exec i s = .next (raise s is.crew is.pc is.tids f)) ∧
      ((∀ l ∈ ls, alignBad n l = false) → (∃ l ∈ ls, steerBad l ≠ none) →
        ∃ f : TrapInfo, (f.code = 0x05 ∨ f.code = 0x06 ∧ f.sub = 1) ∧ exec i s = .next (raise s is.crew is.pc is.tids f)) ∧
      ((∀ l ∈ ls, alignBad n l = false ∧ steerBad l = none) → (∃ l ∈ ls, permBad s c n l ≠ none) →
        ∃ f : TrapInfo, f.code = 0x07 ∧ exec i s = .next (raise s is.crew is.pc is.tids f)) ∧
      ((∀ l ∈ ls, alignBad n l = false ∧ steerBad l = none ∧ permBad s c n l = none) → aliasHit s c n ls ≠ none →
        ∃ f : TrapInfo, f.code = 0x0A ∧ exec i s = .next (raise s is.crew is.pc is.tids f))
    Traps (.ld a) { w := memWidth a, load := true, strong := memStrong a } ∧ Traps (.st a) { w := memWidth a, store := true, strong := memStrong a }

/-- `pref` never traps and never waits: its gang moves on, and without `.touch` it leaves memory, the crews, the loads and the stores as they were; where the core holds the leaf, the device may read there and the page is plain, `.l1` brings the four sectors of the line into the L1. `cctl.inv.l1` empties the core's L1. Each range form of `cctl` completes where no active thread's range meets an aperture window: it drops the lines that it names from its cache or from the L2's lines to be written back or kept, leaves the other caches, and raises the stores counter; a range that meets a window is BOUNDS (R169, R170, R177, R178). `cctl.part` of a permitted context asks for the new split and holds its gang, or answers 0 at once where the split stands so already and all ones above 8; once the change has left a count, the word gives that to each thread; without the permission it is PRIV. `mig.hint` records the pages of each active thread's range for its context and `mig.move` a request that holds the thread's copies counter; both move on, and none of the three changes memory (R168, R178, R179). Model readings and choices that it rests on: log entries 54, 55, 139, 144, 159, 160. -/
def Obligations.HintsAndPlacement : Prop :=
  (∀ (s : State) (is : Issue) (c : Crew) (a : Args), Issues s is c →
     let act := active c is a.guard
     let sub := bitsOf a.m.toNat 7 5
     (∃ s1 : State, exec (.pref a) s = .next (retire is s1) ∧
       (sub ≠ 2 → s1.mem = s.mem ∧ s1.crews = s.crews ∧ s1.loads = s.loads ∧ s1.stores = s.stores) ∧
       ∀ (t : Thread) (x : TlbEntry), act = [t] → sub = 0 → bitsOf a.m.toNat 3 2 ≠ 3 →
         let va := (effAddr c t a).toNat
         inAperture s c.ctx va = false → va < 2 ^ 56 → heldLeaf s c.ctx c.die c.coreId va = some x → x.leaf.read = true →
         leafEgressOk s x.leaf (va - x.va) = true → x.leaf.busy = false → x.leaf.compressed = false → readWaits s [(x.key va / 64 * 64, 64)] = false → sliceWait s [(x.key va, 1)] = none →
         ∀ j, j < 4 → let sec := place s (x.key va / 64 * 64 + 16 * j) / 16
           ({ kind := .l1 c.coreId, ctx := c.ctx, sector := sec, bytes := sectorBytes s sec } : CacheLine) ∈ s1.lines) ∧
     (act ≠ [] → exec (.cctlInvL1 a) s = .next (retire is { s with lines := s.lines.filter fun l => l.kind != .l1 c.coreId })) ∧
     (act = [] → exec (.cctlInvL1 a) s = .next (retire is s)) ∧
     RangeForm (.cctlInvL1r a) a s is c (fun s1 named => s1.dirty = s.dirty ∧ s1.pinned = s.pinned ∧
       (∀ l ∈ s1.lines, l ∈ s.lines ∧ ¬ (l.kind = .l1 c.coreId ∧ named (l.sector / 4) = true)) ∧ ∀ l ∈ s.lines, l.kind ≠ .l1 c.coreId → l ∈ s1.lines) ∧
     RangeForm (.cctlWbL2r a) a s is c (fun s1 named => s1.lines = s.lines ∧ s1.pinned = s.pinned ∧ ∀ l ∈ s1.dirty, l ∈ s.dirty ∧ named l = false) ∧
     RangeForm (.cctlInvL2r a) a s is c (fun s1 named => (∀ l ∈ s1.dirty, l ∈ s.dirty ∧ named l = false) ∧ (∀ l ∈ s1.pinned, l ∈ s.pinned ∧ named l = false) ∧
       (∀ l ∈ s1.lines, l ∈ s.lines ∧ ∀ die, l.kind = .rdc die → named (l.sector / 4) = false) ∧ ∀ l ∈ s.lines, (∀ die, l.kind ≠ .rdc die) → l ∈ s1.lines) ∧
     RangeForm (.cctlInvRdcr a) a s is c (fun s1 named => s1.dirty = s.dirty ∧ s1.pinned = s.pinned ∧
       (∀ l ∈ s1.lines, l ∈ s.lines ∧ ¬ (l.kind = .rdc c.die ∧ named (l.sector / 4) = true)) ∧ ∀ l ∈ s.lines, l.kind ≠ .rdc c.die → l ∈ s1.lines) ∧
     RangeForm (.cctlUnpin a) a s is c (fun s1 named => s1.lines = s.lines ∧ s1.dirty = s.dirty ∧ ∀ l ∈ s1.pinned, l ∈ s.pinned ∧ named l = false)) ∧
  (∀ (s : State) (is : Issue) (c : Crew) (a : Args) (t : Thread) (ts : List Thread) (x : Context), Issues s is c → active c is a.guard = t :: ts →
     getCtx s c.ctx = some x →
     let n := a.imm.elim (rd c t a.b 1) BitVec.toNat
     let k := coreOf s c.coreId
     let tids := (t :: ts).map (·.tid)
     let Answers := fun v : Thread → Nat => exec (.cctlPart a) s = .next (retire is (updCrew s is.crew fun c =>
       (applyWrs c ((t :: ts).map fun u => (u.tid, Wr.reg a.d 1 (v u)))).mapT fun u => { u with result := if tids.contains u.tid then none else u.result }))
     let pages := fun u => let m := migArgs c u a; rangePages m.1 m.2.1 (targetDie s c m.2.2)
     let moved := fun u => let m := migArgs c u a; movePages s c.ctx m.1 m.2.1 (targetDie s c m.2.2)
     (t.result = none → partAllowed s c = true → n ≤ 8 → ¬ (k.change = [] ∧ n = k.mb) → ∃ w, exec (.cctlPart a) s = .next w ∧ w.mem = s.mem ∧ w.issue = none ∧
       coreOf w c.coreId = { k with change := k.change ++ [{ mb := n, mark := s.nextId, who := some (is.crew, tids) }] } ∧
       ∀ u ∈ t :: ts, ∃ u', getThread w is.crew u.tid = some u' ∧ u'.hold = .service 0 ∧ u'.gang = is.tids ∧ u'.pc = u.pc) ∧
     (t.result = none → partAllowed s c = true → n ≤ 8 → k.change = [] → n = k.mb → Answers fun _ => 0) ∧
     (t.result = none → partAllowed s c = true → 8 < n → Answers fun _ => 0xFFFFFFFF) ∧
     ((∀ u ∈ t :: ts, u.result.isSome = true) → Answers fun u => u.result.getD 0) ∧
     (t.result = none → partAllowed s c = false → ∃ f : TrapInfo, f.code = 0x03 ∧ exec (.cctlPart a) s = .next (raise s is.crew is.pc is.tids f)) ∧
     (∃ s1 y, exec (.migHint a) s = .next (retire is s1) ∧ s1.mem = s.mem ∧ s1.crews = s.crews ∧ getCtx s1 c.ctx = some y ∧
       (∃ more, y.hints = x.hints ++ more ∧ ∀ h ∈ more, ∃ u ∈ t :: ts, h = pages u) ∧
       (x.hints.length + (t :: ts).length ≤ 256 → ∀ u ∈ t :: ts, (migArgs c u a).2.2 ≤ 5 → pages u ≠ [] → pages u ∈ y.hints)) ∧
     ∃ s1 more, exec (.migMove a) s = .next (retire is s1) ∧ s1.mem = s.mem ∧ s1.moves = s.moves ++ more ∧
       (∀ m ∈ more, m.ctx = c.ctx ∧ ∃ u ∈ t :: ts, m.who = some (is.crew, u.tid) ∧ m.pages = moved u ∧ m.pages ≠ []) ∧
       (∀ u ∈ t :: ts, (migArgs c u a).2.2 ≤ 5 → moved u ≠ [] → (∃ m ∈ more, m.who = some (is.crew, u.tid) ∧ m.pages = moved u) ∧
         (is.tids.Nodup → ∃ u', getThread s1 is.crew u.tid = some u' ∧ u'.cnt.copies = u.cnt.copies + 1)))

/-- An atomic of one active lane that no check stops and no release delays reads the old value at the home and writes what the operation gives, a `cas` only where the expected value stands; every other byte of memory is as before; `atom` brings the old value to D and `red` raises the stores counter (R219, R221, R222). `atom` and `red` complete for every gang whose accesses no check stops and whose release no store delays: one load to D, or one counted request, for each active lane in order; bytes that no lane's operand covers are as before (R68, R219, R222). The atomic operations on w bytes: the sum wraps, minimum and maximum follow the signedness, the logical operations act on bits, an exchange gives B, a compare-and-swap gives C where B stands and changes nothing elsewhere, `fadd` gives the sum rounded to nearest even in f32 or f64 with subnormals kept and no saturation, and `minkey` gives B exactly where its key is the lesser: bits [63:32] as FP32, with −0 below +0 and every NaN equal and above all, then bits [31:0] unsigned (R222). Model readings and choices that it rests on: log entry 63. -/
def Obligations.Atomics : Prop :=
  (∀ (s : State) (is : Issue) (c : Crew) (a : Args) (t : Thread), Issues s is c → active c is a.guard = [t] →
     let k := atomMods a
     let n := if k.w64 then 2 else 1
     let ls := atomLanes (envOf s is c a.guard) a k.w
     PathClear s c { w := k.w, load := true, store := true, strong := true, now := true } ls → NoStoresOut s is c a.guard → s.stores = [] → anyPoison s = false →
     let ps := ls.flatMap (lanePieces s c k.w)
     let old := bytesVal ((pieceKeys ps).map (homeByte s))
     let b := rd c t a.b n
     let Acted := fun u : State => u.issue = none ∧
       u.mem = (if k.op = 7 ∧ old ≠ b then s.mem
         else memPutAll s.mem ((pieceBytes (atomFn k.op k.w k.signed old b (rd c t a.c n)) ps).map fun w => (place s w.1, w.2))) ∧
       ∀ j, (∀ x ∈ pieceKeys ps, place s x ≠ j) → memByte u.mem j = memByte s.mem j
     (∃ u : State, exec (.atom a) s = .next u ∧ Acted u ∧ ∃ p ∈ u.loads, p.crew = is.crew ∧ p.tid = t.tid ∧ (p.vdst, p.sdst) = dstWords a.d n old) ∧
     (∃ u : State, exec (.red a) s = .next u ∧ Acted u ∧ u.loads = s.loads ∧ ∃ p ∈ u.stores, p.crew = is.crew ∧ p.tid = t.tid ∧ p.performed = true)) ∧
  (∀ (s : State) (is : Issue) (c : Crew) (a : Args), Issues s is c → NoStoresOut s is c a.guard →
     let k := atomMods a
     let ls := atomLanes (envOf s is c a.guard) a k.w
     PathClear s c { w := k.w, load := true, store := true, strong := true, now := true } ls →
     let Else := fun u : State => u.issue = none ∧ ∀ j, (∀ l ∈ ls, ∀ x ∈ pieceKeys (lanePieces s c k.w l), place s x ≠ j) → memByte u.mem j = memByte s.mem j
     (∃ (u : State) (new : List PendingLoad), exec (.atom a) s = .next u ∧ Else u ∧ u.loads = s.loads ++ new ∧ new.map (·.tid) = ls.map (·.t.tid)) ∧
     (∃ (u : State) (new : List PendingStore), exec (.red a) s = .next u ∧ Else u ∧ u.stores = s.stores ++ new ∧ new.map (·.tid) = ls.map (·.t.tid) ∧
       ∀ p ∈ new, p.performed = true)) ∧
  (∀ (w old b x : Nat) (signed : Bool), old < 2 ^ (8 * w) → b < 2 ^ (8 * w) → 0 < w →
     atomFn 0 w signed old b x = (old + b) % 2 ^ (8 * w) ∧
     asInt signed (8 * w) (atomFn 1 w signed old b x) = min (asInt signed (8 * w) old) (asInt signed (8 * w) b) ∧
     asInt signed (8 * w) (atomFn 2 w signed old b x) = max (asInt signed (8 * w) old) (asInt signed (8 * w) b) ∧
     (∀ j, (atomFn 3 w signed old b x).testBit j = (old.testBit j && b.testBit j) ∧ (atomFn 4 w signed old b x).testBit j = (old.testBit j || b.testBit j) ∧
       (atomFn 5 w signed old b x).testBit j = (old.testBit j ^^ b.testBit j)) ∧
     atomFn 6 w signed old b x = b ∧ (old = b → atomFn 7 w signed old b x = x) ∧ (old ≠ b → atomFn 7 w signed old b x = old) ∧
     atomWrites 7 old b = decide (old = b) ∧
     atomFn 8 4 signed old b x = cvtTo fp32 .rne false false (FV.add .rne (fp32.dec old) (fp32.dec b)) ∧
     atomFn 8 8 signed old b x = cvtTo fp64 .rne false false (FV.add .rne (fp64.dec old) (fp64.dec b)) ∧
     (let f := fp32.dec (bitsOf b 63 32)
      let g := fp32.dec (bitsOf old 63 32)
      let Below := (f ≠ .nan ∧ g = .nan) ∨ (f ≠ .nan ∧ g ≠ .nan ∧ (f.cmp g = .lt ∨ (f.cmp g = .eq ∧ f.sign = true ∧ g.sign = false)))
      let Same := (f = .nan ∧ g = .nan) ∨ (f ≠ .nan ∧ g ≠ .nan ∧ f.cmp g = .eq ∧ f.sign = g.sign)
      let Lesser := Below ∨ (Same ∧ bitsOf b 31 0 < bitsOf old 31 0)
      w = 8 → (Lesser → atomFn 9 8 signed old b x = b) ∧ (¬ Lesser → atomFn 9 8 signed old b x = old)))

/-- `wait` moves its gang on where every active thread's counters are within the five limits of the immediate, where 63, 31 and 15 stand for no limit; else it holds exactly the threads above a limit, and the gang is to issue the word again as formed (R68, R220, R225). Completion of an arrival word: where TARGET is not 0 and COUNT has reached it, GEN rises by one modulo 2^32 and COUNT returns to 0, TARGET stays under KEEP and becomes 0 without it, and EXCESS records a count past the target; else nothing changes (R227). The `arw` forms of one active lane at a well-formed word: `init` sets it, `expect` adds to TARGET and `arrive` to COUNT before completion is judged and D receives the GEN before, `wait` goes on with the GEN where it differs from B and is held at it where it does not; no byte outside the word changes (R226–R228). The `arw` forms complete for every gang whose words are well formed and free of a repartition and whose threads have no store out, `wait` where no word's GEN is the lane's B: the gang moves on, and no byte outside the words changes (R226, R227). Model readings and choices that it rests on: log entries 43, 64. -/
def Obligations.WaitsAndArrivalWords : Prop :=
  (∀ (s : State) (is : Issue) (c : Crew) (a : Args), Issues s is c →
     let i := Args.immN a
     let Within := fun t : Thread => (bitsOf i 26 21 = 63 ∨ t.cnt.loads ≤ bitsOf i 26 21) ∧ (bitsOf i 20 15 = 63 ∨ t.cnt.stores ≤ bitsOf i 20 15) ∧
       (bitsOf i 14 9 = 63 ∨ t.cnt.copies ≤ bitsOf i 14 9) ∧ (bitsOf i 8 4 = 31 ∨ t.cnt.tiles ≤ bitsOf i 8 4) ∧ (bitsOf i 3 0 = 15 ∨ t.cnt.rays ≤ bitsOf i 3 0)
     ((∀ t ∈ active c is a.guard, Within t) → exec (.wait a) s = .next (retire is s)) ∧
     (¬ (∀ t ∈ active c is a.guard, Within t) → ∃ (u : State) (c' : Crew), exec (.wait a) s = .next u ∧ u.issue = none ∧ OnlyCrew s u is.crew ∧ getCrew u is.crew = some c' ∧
       ∀ t ∈ active c is a.guard, ∃ t' : Thread, c'.thread t.tid = some t' ∧ (¬ Within t → t' = { t with hold := .wait i c.counted, gang := is.tids }) ∧
         (Within t → t' = { t with gang := is.tids }))) ∧
  (∀ w : ArrWord, (w.target = 0 ∨ w.count < w.target → completeArr w = w) ∧
     (w.target ≠ 0 → w.target ≤ w.count → (completeArr w).gen = (w.gen + 1) % 2 ^ 32 ∧ (completeArr w).count = 0 ∧
       (completeArr w).target = (if w.flags.testBit 0 then w.target else 0) ∧ (completeArr w).flags.testBit 0 = w.flags.testBit 0 ∧
       (completeArr w).flags.testBit 1 = (w.flags.testBit 1 || decide (w.target < w.count)) ∧ (completeArr w).flags.testBit 2 = false)) ∧
  (∀ (s : State) (is : Issue) (c : Crew) (a : Args) (t : Thread) (k : Nat), Issues s is c → active c is a.guard = [t] → NoStoresOut s is c a.guard →
     let ea := addr64 ((rd c t a.a 2 : Nat) + Args.xs a)
     arrKey s c ea = .ok k → arrSlice s c ea = none →
     let b := rd c t a.b 1
     let w := readArr s k
     let Else := fun u : State => ∀ j, j < k ∨ k + 16 ≤ j → memByte u.mem j = memByte s.mem j
     let Gets := fun (u : State) (v : Nat) => ∃ s1 : State, u = retire is s1 ∧ OnlyCrew { s with mem := s1.mem, stores := s1.stores, nextId := s1.nextId } { s1 with lines := s.lines } is.crew ∧
       ∃ c1, getCrew s1 is.crew = some c1 ∧ (a.d = .none ∨ ∃ t1, c1.thread t.tid = some t1 ∧ ∀ r : Fin 192, a.d = .v r → mget 0 t1.v r = BitVec.ofNat 32 v)
     (∃ u : State, exec (.arwInit a) s = .next u ∧ readArr u k = { target := b, count := 0, gen := 0, flags := if b ≠ 0 then 1 else 0 } ∧ Else u) ∧
     (∃ u : State, exec (.arwExpect a) s = .next u ∧ readArr u k = completeArr { w with target := (w.target + b) % 2 ^ 32 } ∧ Gets u w.gen ∧ Else u) ∧
     (∃ u : State, exec (.arwArrive a) s = .next u ∧ readArr u k = completeArr { w with count := (w.count + b) % 2 ^ 32 } ∧ Gets u w.gen ∧ Else u) ∧
     (w.gen ≠ b → ∃ u : State, exec (.arwWait a) s = .next u ∧ u.mem = s.mem ∧ Gets u w.gen) ∧
     (w.gen = b → ∃ (u : State) (c' : Crew) (t' : Thread), exec (.arwWait a) s = .next u ∧ u.issue = none ∧ readArr u k = { w with flags := w.flags ||| 4 } ∧ Else u ∧
       getCrew u is.crew = some c' ∧ c'.thread t.tid = some t' ∧ t' = { t with hold := .arw k w.gen c.counted ea, gang := is.tids })) ∧
  (∀ (s : State) (is : Issue) (c : Crew) (a : Args) (key : Thread → Nat), Issues s is c → NoStoresOut s is c a.guard →
     let ea := fun t => addr64 ((rd c t a.a 2 : Nat) + Args.xs a)
     let act := active c is a.guard
     (∀ t ∈ act, arrKey s c (ea t) = .ok (key t) ∧ arrSlice s c (ea t) = none) →
     let Else := fun u : State => ∀ j, (∀ t ∈ act, j < key t ∨ key t + 16 ≤ j) → memByte u.mem j = memByte s.mem j
     (∃ s1 : State, exec (.arwInit a) s = .next (retire is s1) ∧ s1.stores.length = s.stores.length + act.length ∧ Else s1) ∧
     (∃ s1 : State, exec (.arwExpect a) s = .next (retire is s1) ∧ s1.stores.length = s.stores.length + act.length ∧ Else s1) ∧
     (∃ s1 : State, exec (.arwArrive a) s = .next (retire is s1) ∧ s1.stores.length = s.stores.length + act.length ∧ Else s1) ∧
     ((∀ t ∈ act, (readArr s (key t)).gen ≠ rd c t a.b 1) → ∃ s1 : State, exec (.arwWait a) s = .next (retire is s1) ∧ s1.mem = s.mem ∧ s1.stores = s.stores))

/-- An ordinary access of one lane to a line where a live region of another owner has written its granule, or read it where the access writes, raises RACE for the gang at the word and is not made; memory does not change (R205, R207, R210). Writes that wait at their homes: once the readers' regions have ended and nothing conflicts the write proceeds, its thread goes past the word, and the lanes of its instruction that still wait count it as done; one that has waited past RACE_WAIT raises RACE and is withdrawn. A die's quiescence epoch advances when every region that was live at the advance before has ended (R208–R210). Model readings and choices that it rests on: log entries 60, 61. -/
def Obligations.RacesAndWaitingWrites : Prop :=
  (∀ (s : State) (is : Issue) (c : Crew) (a : Args) (t : Thread) (l : LaneAcc) (p : Piece) (sl : TagSlot), Issues s is c → active c is a.guard = [t] →
     memStrong a = false → moLanes (envOf s is c a.guard) a (memWidth a) = [l] → (∃ vas, l.tgt = .glob vas false) → lanePieces s c (memWidth a) l = [p] →
     p.key % 64 + p.len ≤ 64 → 0 < p.len →
     sl ∈ (mget default s.tags (place s p.key / 64)).slots → sl.region ≠ regionOf is.crew t → regionLive s sl.region = true → sameOwner s sl.region (regionOf is.crew t) = false →
     (sl.write &&& granules p.key p.len ≠ 0 →
       PathClear s c { w := memWidth a, load := true } [l] → ∃ f : TrapInfo, f.code = 0x08 ∧ f.tids = [t.tid] ∧ exec (.ld a) s = .next (raise s is.crew is.pc is.tids f)) ∧
     (sl.write &&& granules p.key p.len ≠ 0 ∨ sl.read &&& granules p.key p.len ≠ 0 →
       PathClear s c { w := memWidth a, store := true } [l] → ∃ f : TrapInfo, f.code = 0x08 ∧ f.tids = [t.tid] ∧ exec (.st a) s = .next (raise s is.crew is.pc is.tids f))) ∧
  ((∀ (s : State) (p : PendingStore) (c : Crew), s.stores.find? (fun q => q.id == p.id && q.wait != .free) = some p → getCrew s p.crew = some c →
     (∀ w k, raceRuns s { region := p.region, die := c.die, core := c.coreId } true (storeRuns p) = (.ok w, k) →
       exec (.sharedWriteRelease p.id) s = .next (passWrite (noteDone (updT { w with stores := w.stores.map fun q => if q.id = p.id then { q with wait := .free } else q } p.crew p.tid fun t =>
         { t with accessed := some t.region }) p) p)) ∧
     (∀ x, getCtx s c.ctx = some x →
       (p.waited ≤ x.raceWait → exec (.raceWaitExpiry p.id) s = .next s) ∧
       (x.raceWait < p.waited → ∃ f : TrapInfo, f.code = 0x08 ∧ (f.sub = if p.wait = .shared then 2 else 3) ∧ f.tids = [p.tid] ∧ f.addr = waitAddr s p ∧ exec (.raceWaitExpiry p.id) s = .next (raise (withdraw s p) p.crew p.pc [p.tid] f)))) ∧
   (∀ (s : State) (p : PendingStore), (∀ q ∈ (withdraw s p).stores, q ∈ s.stores ∧ q.id ≠ p.id) ∧ (withdraw s p).mem = s.mem) ∧
   (∀ (s : State) (die : Nat), ((mget [] s.hw.epochLive die).any (regionLive s) = true → exec (.quiescenceEpochAdvance die) s = .next s) ∧
     ((mget [] s.hw.epochLive die).any (regionLive s) = false → ∃ u : State, exec (.quiescenceEpochAdvance die) s = .next u ∧ u = { s with hw := u.hw } ∧
       mget 0 u.hw.epochs die = mget 0 s.hw.epochs die + 1 ∧ mget [] u.hw.epochLive die = liveOn s die ∧ ∀ d, d ≠ die → mget 0 u.hw.epochs d = mget 0 s.hw.epochs d)))

/-- `pgen.reg` of one lane reads its 64-byte record and answers a number with the range registered, or the failure code with nothing changed; `pgen.unreg` answers its code or removes the range, and a lane stays at the word while a block of the range is FILLING (R181–R183, R198). Every gang's registration completes: `pgen.reg` where no check fails and no lane waits, with a status to each active thread in order; `pgen.unreg` always, its lanes served in order up to the first that must wait, and that one and those after it stay at the word together (R198). In a generator crew `pfill` marks its active threads as arrived and ends their regions once none has a store out, and `pfill.fail` fails a block that is still FILLING for it with the lowest lane's code; in any other crew both are PRIV (R189, R199). Model readings and choices that it rests on: log entries 66, 70, 155. -/
def Obligations.RangesAndFills : Prop :=
  (∀ (s : State) (is : Issue) (c : Crew) (a : Args) (t : Thread), Issues s is c → active c is a.guard = [t] →
     let ea := BitVec.ofNat 64 (rd c t a.a 2)
     let l : LaneAcc := { t := t, ea := ea, tgt := steer s c t.tid ea 64 }
     let v := bytesVal ((lanePieces s c 64 l).flatMap fun x => homeBytes s x.key x.len)
     let n := rd c t a.a 1
     let Answers := fun (i : Instr) (k : Nat) (P : State → Prop) => ∃ s1 : State, exec i s = .next (retireSome is is.tids s1) ∧
       getCrew s1 is.crew = some (wr c t.tid a.d 1 k) ∧ P s1
     (PathClear s c { w := 64, load := true, now := true } [l] → s.lines = [] → s.stores = [] → s.migs = [] → anyPoison s = false →
       (∀ k, regStatus s c.ctx v = .error k → Answers (.pgenReg a) k fun s1 => s1.mem = s.mem ∧ s1.contexts = s.contexts) ∧
       (∀ k, regStatus s c.ctx v = .ok k → (getCtx s c.ctx).isSome = true →
         Answers (.pgenReg a) k fun s1 => ∃ x, getCtx s1 c.ctx = some x ∧ ∃ r ∈ x.ranges, r.num = k)) ∧
     ((rangesOf s c.ctx).find? (·.num == n) = none → Answers (.pgenUnreg a) 0xFFFFFF06 fun s1 => s1.mem = s.mem ∧ s1.contexts = s.contexts) ∧
     (∀ r, (rangesOf s c.ctx).find? (·.num == n) = some r → (∀ q b d i, c.kind = .gen q b d i → q ≠ n) →
       (anyFilling s c.ctx r = false → Answers (.pgenUnreg a) 0 fun s1 => ∀ x, getCtx s1 c.ctx = some x → ∀ q ∈ x.ranges, q.num ≠ n) ∧
       (anyFilling s c.ctx r = true → exec (.pgenUnreg a) s = .next (retireSome is (is.tids.filter fun i => !([t.tid].contains i)) (stayTogether s is.crew [t.tid])))) ∧
     (∀ r b d i, (rangesOf s c.ctx).find? (·.num == n) = some r → c.kind = .gen n b d i → Answers (.pgenUnreg a) 0xFFFFFF07 fun s1 => s1.mem = s.mem)) ∧
  (∀ (s : State) (is : Issue) (c : Crew) (a : Args), Issues s is c →
     let act := active c is a.guard
     (PathClear s c { w := 64, load := true, now := true } (act.map fun t =>
         { t := t, ea := BitVec.ofNat 64 (rd c t a.a 2), tgt := steer s c t.tid (BitVec.ofNat 64 (rd c t a.a 2)) 64 }) →
       ∃ s1 : State, exec (.pgenReg a) s = .next (retireSome is is.tids s1)) ∧
     ∃ (s1 : State) (stay : List Nat), exec (.pgenUnreg a) s = .next (retireSome is (is.tids.filter fun i => !stay.contains i) (stayTogether s1 is.crew stay)) ∧
       (∀ i ∈ stay, i ∈ act.map (·.tid)) ∧ ∀ t ts, act = t :: ts → (unregLane s c (rd c t a.a 1)).isSome = true → stay.length ≤ ts.length) ∧
  (∀ (s : State) (is : Issue) (c : Crew) (a : Args) (t : Thread) (ts : List Thread), Issues s is c → active c is a.guard = t :: ts →
     (∀ r b d i, c.kind = .gen r b d i →
       (NoStoresOut s is c a.guard → ∃ s1 : State, exec (.pfill a) s = .next (retire is s1) ∧ OnlyCrew s s1 is.crew ∧ getCrew s1 is.crew = some (c.mapT fun u =>
         if ((t :: ts).map (·.tid)).contains u.tid then { u with pfillAt := some (u.pfillAt.getD s.nextId), region := u.region + 1 } else u)) ∧
       (∀ q, c.fillOver = false → (rangesOf s c.ctx).find? (·.num == r) = some q → blockState s c.ctx q b = stFilling →
         exec (.pfillFail a) s = .next (retire is (failBlock s c.ctx r b 2 (rd c t a.a 1) 0 0 0))) ∧
       (c.fillOver = true ∨ (∀ q ∈ rangesOf s c.ctx, q.num = r → blockState s c.ctx q b ≠ stFilling) → exec (.pfillFail a) s = .next (retire is s))) ∧
     (c.isGen = false → ∃ f : TrapInfo, f.code = 0x03 ∧ f.tids = (t :: ts).map (·.tid) ∧
       exec (.pfill a) s = .next (raise s is.crew is.pc is.tids f) ∧ exec (.pfillFail a) s = .next (raise s is.crew is.pc is.tids f)))

/-- `pstat` answers the word of its address, or parks its lane on the walk that the answer needs; `pstat.fault` answers a range's last-fault word, or 0xFFFF; `pevict`, `ppin.pin` and `ppin.unpin` act on the blocks of their range in address order, raise the stores counter, and answer how many they changed (R195, R196, R200, R201). The block instructions complete for every gang: `pstat.fault`, `ppin` and `pevict` always, and `pstat` where no address of an active thread needs a walk, each with one load or one counted request for each active thread (R200, R201). Generators: an idle reserved slot takes the deepest, then oldest, waiting record; once every live thread of a generator crew has arrived, one at least has, and every store, copy, tile store, collective and packing that they issued before is acknowledged, a block still FILLING for it reads FULL, no other bit of its byte and no other byte of memory changes, no L1 of the context and no other cache keeps a line of it, and its waiters wake in order, and before that nothing changes; a generator's pre-emption begins only after 256 cycles on Sluice lists with a deeper record waiting, and it returns to an idle slot (R188, R189, R191, R366). Model readings and choices that it rests on: log entries 65, 67, 162, 163. -/
def Obligations.BlocksAndGenerators : Prop :=
  (∀ (s : State) (is : Issue) (c : Crew) (a : Args) (t : Thread), Issues s is c → active c is a.guard = [t] →
     let va := rd c t a.a 2
     let len := rd c t a.b 1
     let Loads := fun (u : State) (n v : Nat) => ∃ p ∈ u.loads, p.crew = is.crew ∧ p.tid = t.tid ∧ (p.vdst, p.sdst) = dstWords a.d n v
     let Acts := fun (i : Instr) (r : State × Nat) => ∃ u : State, exec i s = .next u ∧ u.mem = r.1.mem ∧ u.contexts = r.1.contexts ∧
       (∃ p ∈ u.stores, p.crew = is.crew ∧ p.tid = t.tid ∧ p.performed = true) ∧ (a.d ≠ .none → Loads u 1 r.2)
     (∀ v, pstatWord s c va = some v → ∃ u : State, exec (.pstat a) s = .next u ∧ u.mem = s.mem ∧ Loads u 1 v) ∧
     (pstatWord s c va = none → ∃ u c' t' id, exec (.pstat a) s = .next u ∧ u.loads = s.loads ∧ getCrew u is.crew = some c' ∧
       c'.thread t.tid = some t' ∧ t'.hold = .parked (.walk id va) ∧ t'.pc = t.pc) ∧
     (∃ u : State, exec (.pstatFault a) s = .next u ∧ u.mem = s.mem ∧
       Loads u 4 (((rangesOf s c.ctx).find? (·.num == rd c t a.a 1)).elim 0xFFFF (·.lastFault))) ∧
     Acts (.ppinPin a) (countBlocks (pinOne c.ctx true) s (blocksIn s c.ctx va len)) ∧
     Acts (.ppinUnpin a) (countBlocks (pinOne c.ctx false) s (blocksIn s c.ctx va len)) ∧
     (s.failed = [] → Acts (.pevict a) (countBlocks (fun s r i => evictOne s c.ctx r i) s (blocksIn s c.ctx va len)))) ∧
  (∀ (s : State) (is : Issue) (c : Crew) (a : Args), Issues s is c →
     let act := active c is a.guard
     let Counted := fun i : Instr => ∃ s1 : State, exec i s = .next (retire is s1) ∧ s1.stores.length = s.stores.length + act.length ∧
       s1.loads.length = s.loads.length + (if a.d = .none then 0 else act.length)
     (∃ s1 : State, exec (.pstatFault a) s = .next (retire is s1) ∧ s1.mem = s.mem ∧ s1.loads.length = s.loads.length + act.length) ∧
     ((∀ t ∈ act, (pstatWord s c (rd c t a.a 2)).isSome = true) →
       ∃ s1 : State, exec (.pstat a) s = .next (retire is s1) ∧ s1.mem = s.mem ∧ s1.loads.length = s.loads.length + act.length) ∧
     Counted (.ppinPin a) ∧ Counted (.ppinUnpin a) ∧ Counted (.pevict a)) ∧
  ((∀ (s : State) (die : Nat) (g : GenRec) (core : Nat) (r : Range), (∀ c ∈ s.crews, ¬ (asideReady s die c = true ∧ (restoreCore s c).isSome = true)) →
     firstRecord (waitingRecords s die) = some g → recordCore s g = some core → (rangesOf s g.ctx).find? (·.num == g.range) = some r →
     exec (.generatorSlotTake die) s = .next (startGenerator { s with genQueue := s.genQueue.erase g } g r core)) ∧
   (∀ (gs : List GenRec) (g : GenRec), firstRecord gs = some g →
     ∃ older newer, gs = older ++ g :: newer ∧ (∀ h ∈ older, h.depth < g.depth) ∧ ∀ h ∈ newer, h.depth ≤ g.depth) ∧
   (∀ (s : State) (uid r b d i : Nat) (c : Crew) (q : Range), getCrew s uid = some c → c.kind = .gen r b d i → (rangesOf s c.ctx).find? (·.num == r) = some q →
     let Over := fun t : Thread =>
       let mark := t.pfillAt.getD s.nextId
       (∀ p ∈ s.stores, p.crew = c.uid → p.tid = t.tid → mark ≤ p.id) ∧ (∀ p ∈ s.flume, p.crew = c.uid → p.tid = t.tid → mark ≤ p.id) ∧
       (∀ p ∈ s.tileReqs, p.crew = c.uid → t.tid ∈ p.tids → p.id < mark → p.phase = .complete ∨ p.phase = .faulted) ∧
       (∀ p ∈ s.colls, p.crew = c.uid → p.tid = t.tid → mark ≤ p.id) ∧ (∀ p ∈ s.querns, p.crew = c.uid → p.tid = t.tid → mark ≤ p.id)
     let Filled := (∀ t ∈ c.threads, t.live = true → t.pfillAt ≠ none) ∧ (∃ t ∈ c.threads, t.pfillAt ≠ none) ∧ ∀ t ∈ c.threads, Over t
     (¬ Filled ∨ c.fillOver = true ∨ (∀ p ∈ rangesOf s c.ctx, p.num = r → blockState s c.ctx p b ≠ stFilling) → exec (.blockFull uid) s = .next s) ∧
     (Filled → c.fillOver = false → blockState s c.ctx q b = stFilling → ∃ (s1 : State) (k : Nat), exec (.blockFull uid) s = .next (wakeBlock s1 c.ctx (r, b) none) ∧
       mapKey s c.ctx (q.map + b / 4) = some k ∧ s1.waiters = s.waiters ∧
       bitsOf (memByte s1.mem (place s k)).toNat (2 * (b % 4) + 1) (2 * (b % 4)) = stFull ∧
       (∀ j, j / 2 ≠ b % 4 → (memByte s1.mem (place s k)).toNat.testBit j = (memByte s.mem (place s k)).toNat.testBit j) ∧
       (∀ j, j ≠ place s k → memByte s1.mem j = memByte s.mem j) ∧
       (∀ key, mapKey s c.ctx (q.blockVa b) = some key → ∀ l ∈ s1.lines, (∀ core, l.kind = .l1 core → l.ctx = c.ctx) → inBlock s key (16 * l.sector) = false) ∧
       ∃ c1, getCrew s1 uid = some c1 ∧ c1 = { c with fillOver := true })) ∧
   (∀ (s : State) (uid n : Nat) (c : Crew) (g : GenRec), getCrew s uid = some c → c.isGen = true → mayTake s c = true → c.sluiceSince = some n →
     g ∈ waitingRecords s c.die → c.depth < g.depth → recordCore s g = none →
     exec (.generatorStepAside uid) s = .next (if n + 256 < c.vclk.toNat then beginTaking s uid none else s)) ∧
   (∀ (s : State) (uid : Nat) (c : Crew), getCrew s uid = some c → mayTake s c = false ∨ c.sluiceSince = none ∨ (∀ g ∈ waitingRecords s c.die, g.depth ≤ c.depth) →
     exec (.generatorStepAside uid) s = .next s) ∧
   (∀ (s : State) (uid core : Nat) (c : Crew), getCrew s uid = some c → asideReady s c.die c = true → restoreCore s c = some core →
     exec (.generatorRestore uid) s = .next (bringBack s uid core)))

/-- A die's overflow list is retried oldest first: a demander whose block has become FULL wakes, one that would meet a fault wakes with it, and one that must wait stands in a list again; a 2 MiB page whose blocks may all be reclaimed has them EMPTY and its leaf invalid, and one with a block FILLING, pinned or just woken is left alone (R187, R195). The compressed tier: a good image is expanded into a frame of its stack, the leaf names the frame and the waiting lanes wake; a corrupt or poisoned image puts the page on its die's failed list and each waiting lane and request meets GENFAULT with cause 5; recompression writes the page's image and the leaf names it with C = 1 (R197). Model readings and choices that it rests on: log entries 68, 69, 145. -/
def Obligations.OverflowAndCompression : Prop :=
  ((∀ (s : State) (die : Nat) (w : Waiter) (r : Range) (i uid : Nat) (tids : List Nat) (c : Crew), s.waiters.find? (fun w => w.die == die && w.overflow) = some w →
     w.block = some (r.num, i) → (rangesOf s w.ctx).find? (·.num == r.num) = some r → w.who = .lanes uid tids → getCrew s uid = some c →
     let s0 := { s with waiters := s.waiters.erase w }
     (touchJudge s0 c.toucher r i = .go → exec (.waitListOverflowRetry die) s = .next (wakeDemander s0 w none)) ∧
     (∀ f, touchJudge s0 c.toucher r i = .fault f → exec (.waitListOverflowRetry die) s = .next (wakeDemander s0 w (some f))) ∧
     (touchJudge s0 c.toucher r i = .wait → ∃ u : State, exec (.waitListOverflowRetry die) s = .next u ∧ ∃ x ∈ u.waiters, x.who = w.who ∧ x.block = w.block)) ∧
   (∀ (s : State) (ctx va : Nat) (l : Leaf) (k : Nat), walkTree s ctx va = .leaf l 21 k → va % 2 ^ 21 = 0 → l.busy = false →
     (∀ m ∈ s.migs, ¬ (m.ctx = ctx ∧ m.va = va)) →
     let s1 := (blocksIn s ctx va (2 ^ 21)).foldl (fun s x =>
       if blockState s ctx x.1 x.2 = stFull then evictBlock s ctx x.1 x.2 else setBlockState s ctx x.1 x.2 stEmpty) s
     (mayReclaim s ctx va = true → ∃ u, exec (.reclaim ctx va) s = .next u ∧ (∀ e ∈ u.tlb, e.ctx = ctx → e.covers va = false) ∧
       u.mem = (homeWriteN s1 k 1 ((homeByte s1 k).toNat - 1)).mem) ∧
     (mayReclaim s ctx va = false → exec (.reclaim ctx va) s = .next s))) ∧
  ((∀ (s : State) (ctx va frame log2 k : Nat) (l : Leaf) (bs : List Byte), walkTree s ctx va = .leaf l log2 k → l.compressed = true → l.busy = true →
     va % 2 ^ 21 = 0 → frame % 2 ^ 21 = 0 → frame < 2 ^ 40 → bitsOf frame 39 36 = bitsOf l.pa 39 36 → readImage s l.pa = .good bs →
     let s1 := homeWrite s none (((List.range bs.length).zip bs).map fun x => (hbmKey frame + x.1, x.2))
     let s2 := homeWriteN s1 k 8 (leafEntry l false false frame)
     exec (.quernExpansionDone ctx va frame) s = .next (wakeParked { endExpansion s2 ctx va with
       tlb := s2.tlb.filter fun e => !(e.ctx == ctx && e.covers va) } (onPage ctx va s2) 1 none)) ∧
   (∀ (s : State) (ctx va status log2 k : Nat) (l : Leaf), walkTree s ctx va = .leaf l log2 k → l.compressed = true → l.busy = true →
     va % 2 ^ 21 = 0 → statusFits s l.pa status = true →
     let s1 := homeWriteN s k 8 (leafEntry l true false l.pa)
     let f := genFault 0xFFFF 5 status va 0 0 0
     let s2 := { endExpansion s1 ctx va (some f) with failed := addFailed s1.failed (bitsOf l.pa 39 38, ctx, va, status) }
     exec (.quernExpansionFail ctx va status) s = .next (wakeParked s2 (onPage ctx va s2) 4 (some f))) ∧
   (∀ (s : State) (ctx va image k : Nat) (l : Leaf), walkTree s ctx va = .leaf l 21 k → va % 2 ^ 21 = 0 → l.busy = false → l.compressed = false →
     l.proc = false → l.rn = false → image % 2 ^ 21 = 0 → image < 2 ^ 40 → image ≠ l.pa → s.migs = [] → s.stores = [] → anyPoison s = false →
     let img := pageImage (homeBytes s (hbmKey l.pa) (2 ^ 21))
     ∃ u : State, exec (.recompression ctx va image) s = .next u ∧ (∀ e ∈ u.tlb, e.ctx = ctx → e.covers va = false) ∧
       u.mem = memWrite (memPutAll s.mem (((List.range img.length).zip img).map fun x => (hbmKey image + x.1, x.2))) k 8 (leafEntry l true false image)))

/-- The appends place a node in the lowest slot open to the crew, with the shape, the operands and the words that their rules give, and its number goes to D of every active thread; a watched region holds the gang until its watch has spread. The premises are the checks of each form: operands that agree, records and shapes that fit, a valid format word, nodes that the numbers name (R233, R234, R247, R249, R255–R258, R260, R262–R264). An append waits where the watches it adds would exceed 16,384. One that finds no slot otherwise: a strict crew or a generator takes THUNKFULL; another frees its oldest DONE product that nothing references and takes that slot, or forces its oldest OPEN one, or waits for a slot. A number that names no node, or on which the lanes differ, is ILL with sub-code 0x0D (R234, R247, R249). Model readings and choices that it rests on: log entry 81. -/
def Obligations.ThunkAppends : Prop :=
  (∀ (s : State) (is : Issue) (c : Crew) (a : Args), Issues s is c → active c is a.guard ≠ [] →
     let e := envOf s is c a.guard
     let A := lowVal e a.a 4
     let B := lowVal e a.b 1
     let r := recOf A
     let g := recOf (lowVal e a.b 4)
     let sub := bitsOf a.m.toNat 7 5
     let C := lowVal e a.c 1
     (Agreed e a.a 4 → recCheck s c r = none → r.watch = true →
       Appends (.tdefSrc a) a e { newNode e .src r.rows r.cols with rec_ := some r, watchDue := true } 1 ∧
       (Agreed e a.b 4 → recCheck s c g = none → g.watch = true → (g.hint = 1 ∨ g.hint = 2) → (g.rows, g.cols, g.fmt, g.scale) = (r.rows, r.cols, r.fmt, r.scale) →
         (∀ n ∈ s.nodes, n.core = c.coreId → ∀ q d, n.stage = some q → getCrew s n.crew = some d → extentMeet s c g d q = none) →
         Appends (.tdefStage a) a e { newNode e .stage r.rows r.cols with rec_ := some r, stage := some g, watchDue := true } 2) ∧
       (Agreed e a.b 1 → Agreed e a.c 2 →
         Appends (.tdefWait a) a e { newNode e .wait r.rows r.cols with rec_ := some r, word := BitVec.ofNat 32 B, addr := BitVec.ofNat 64 (lowVal e a.c 2) } 0)) ∧
     (Agreed e a.b 1 → 1 ≤ lo16 B → lo16 B ≤ 128 → 1 ≤ hi16 B → hi16 B ≤ 128 →
       Appends (.tdefAcc a) a e { newNode e .acc (lo16 B) (hi16 B) with tile := numOf a.a } 0) ∧
     (∀ x, NamesNode e a.a x →
       (∀ y p q, NamesNode e a.b y → x.region = some p → y.region = some q → p.hint = 1 → (q.hint = 1 ∨ q.hint = 2) → x.rows ≤ 128 → y.cols ≤ 128 → x.cols = y.rows →
         Agreed e a.c 1 → fmtReason C = 0 → p.fmt = bitsOf C 3 0 → q.fmt = bitsOf C 7 4 → (bitsOf C 13 12 = 0 ∨ p.scale = true ∧ q.scale = true) →
         Appends (.tmm a) a e { newNode e .tmm x.rows y.cols with
           ops := [x.slot, y.slot], word := BitVec.ofNat 32 C, tile := bitsOf a.x.toNat 3 0, accum := bitAt a.m.toNat 0 } 0) ∧
       (∀ y, sub = 0 ∨ sub = 1 ∨ sub = 3 → NamesNode e a.b y → (y.rows = x.rows ∨ y.rows = 1) → (y.cols = x.cols ∨ y.cols = 1) →
         Appends (.tew a) a e { newNode e .tew x.rows x.cols with sub := sub, ops := [x.slot, y.slot] } 0) ∧
       (sub = 2 → Agreed e a.b 1 → Appends (.tew a) a e { newNode e .tew x.rows x.cols with sub := sub, ops := [x.slot], word := BitVec.ofNat 32 B } 0) ∧
       (3 < sub → Appends (.tew a) a e { newNode e .tew x.rows x.cols with sub := sub, ops := [x.slot] } 0) ∧
       Appends (.tred a) a e { newNode e .tred x.rows 1 with sub := sub, ops := [x.slot] } 0 ∧
       (Agreed e a.b 1 → fmtReason B = 0 → Appends (.tcvt a) a e { newNode e .tcvt x.rows x.cols with ops := [x.slot], word := BitVec.ofNat 32 B } 0) ∧
       (∀ rows cols, Agreed e a.b 1 → Agreed e a.c 1 → rows ≠ 0 → cols ≠ 0 →
         (sub = 0 ∧ rows = x.cols ∧ cols = x.rows ∨ 3 < sub ∧ rows = x.rows ∧ cols = x.cols ∨ (1 ≤ sub ∧ sub ≤ 3) ∧ rows = lo16 C ∧ cols = hi16 C) →
         (sub = 1 → lo16 B + rows ≤ x.rows ∧ hi16 B + cols ≤ x.cols) → (sub = 2 → (x.rows = 1 ∨ x.rows = rows) ∧ (x.cols = 1 ∨ x.cols = cols)) →
         (sub = 3 → rows * cols = x.rows * x.cols) →
         Appends (.tmap a) a e { newNode e .tmap rows cols with sub := sub, ops := [x.slot], aux := BitVec.ofNat 32 B } 0))) ∧
  ((∀ (e : Env) (d : Opnd) (n : Node), let watches := if n.kind = .wait then 0 else n.rec_.toList.length + n.stage.toList.length
     openSlot e.s e.c watches = none →
     let mine := (crewNodes e.s e.c).filter fun m => m.kind == .tmm && isRoot e.s m
     let Waits := fun (s : State) => append e d n = .next { holdGang s e.is.crew e.is.tids (e.act.map (·.tid))
       (.append e.c.counted watches) with issue := none }
     (16384 < watchCount e.s + watches → Waits e.s) ∧
     (watchCount e.s + watches ≤ 16384 → e.c.strict = true ∨ e.c.isGen = true → ∃ f : TrapInfo, f.code = 0x0B ∧ append e d n = .next (raise e.s e.is.crew e.is.pc e.is.tids f)) ∧
     (watchCount e.s + watches ≤ 16384 → e.c.strict = false → e.c.isGen = false →
       (∀ m, mine.find? (·.state == .done) = some m →
         (∀ k, openSlot (freeNode e.s e.c.coreId m.slot) e.c watches = some k →
           append e d n = placeNode { e with s := freeNode e.s e.c.coreId m.slot } d n k) ∧
         (openSlot (freeNode e.s e.c.coreId m.slot) e.c watches = none → Waits (freeNode e.s e.c.coreId m.slot))) ∧
       (∀ m, mine.find? (·.state == .done) = none → mine.find? (·.state == .open_) = some m →
         (∀ z ∈ tilesUsed e.s m m.all .implicit, holdsToken e.c z (actingGang e) = true) → append e d n = makeRequest e m m.all .implicit (tilesUsed e.s m m.all .implicit)) ∧
       (mine.find? (·.state == .done) = none → mine.find? (·.state == .open_) = none → Waits e.s))) ∧
   (∀ (s : State) (is : Issue) (c : Crew) (a : Args), Issues s is c → (∃ t ∈ active c is a.guard, ∃ u ∈ active c is a.guard,
       rd c t a.a 1 ≠ rd c u a.a 1 ∨ nodeNamed s c (rd c t a.a 1) = none) →
     ∃ f : TrapInfo, f.code = 0x01 ∧ f.sub = 0x0D ∧ f.tids = (active c is a.guard).map (·.tid) ∧ exec (.tred a) s = .next (raise s is.crew is.pc is.tids f) ∧
       exec (.tcvt a) s = .next (raise s is.crew is.pc is.tids f) ∧ exec (.tdrop a) s = .next (raise s is.crew is.pc is.tids f)))

/-- `tst`, `tforce.acc` and `tforce.scr` whose checks pass make a request of the core's sequencer: it names the node and its window, the tiles it uses pass to the sequencer, its threads' tiles counters rise and they park; when they execute again after its end they move past the word and the counters fall (R240, R252, R265–R267). `tdrop` and `tdrop.all` mark nodes as dropped and free those that nothing references and nothing forces; `tstat` gives the status word of the node that all active threads name, or 0, `tstat.tab` the free slots, the crew's nodes and its open roots, and `tstat.tok` the holder of a token; none changes memory (R234, R238, R239, R269, R270). Model readings and choices that it rests on: log entries 74, 83. -/
def Obligations.ThunkDemands : Prop :=
  (∀ (s : State) (is : Issue) (c : Crew) (a : Args) (n : Node), Issues s is c → active c is a.guard ≠ [] →
     let e := envOf s is c a.guard
     let r := recOf (lowVal e a.b 4)
     let o := if a.c = .none then 0 else lowVal e a.c 1
     let w : Win := { r0 := lo16 o, c0 := hi16 o, rows := r.rows, cols := r.cols }
     let Makes := fun (i : Instr) (w : Win) (goal : TileGoal) (spans : List Span) =>
       (∀ z ∈ tilesUsed s n w goal, holdsToken c z (actingGang e) = true) → spanAlias s c spans = none → recordsBad s c n w = none →
       exec i s = makeRequest e n w goal (tilesUsed s n w goal) ∧ ∃ u : State, exec i s = .next u ∧ u.mem = s.mem ∧ u.issue = none ∧
         (∃ q, u.tileReqs = s.tileReqs ++ [q] ∧ q.id = s.nextId ∧ q.node = n.slot ∧ q.win = w ∧ q.goal = goal ∧ q.tids = e.act.map (·.tid) ∧ q.phase = .queued) ∧
         (is.tids.Nodup → ∀ t ∈ e.act, ∃ t' : Thread, getThread u is.crew t.tid = some t' ∧ t'.hold = .parked (.tile s.nextId) ∧ t'.pc = t.pc ∧ t'.cnt = { t.cnt with tiles := t.cnt.tiles + 1 })
     ((∀ t ∈ e.act, t.tileDone = none) → NoStoresOut s is c a.guard → NamesNode e a.a n →
       (n.rows ≤ 128 → n.cols ≤ 128 → Makes (.tforceAcc a) n.all (.tile (bitsOf a.x.toNat 3 0)) []) ∧
       (Agreed e a.b 4 → (a.c ≠ .none → Agreed e a.c 1) → recCheck s c r = none → r.scale = (r.fmt == 5) → w.r1 ≤ n.rows → w.c1 ≤ n.cols →
         Makes (.tst a) w (.store r (lo16 o) (hi16 o)) (windowSpans s c r) ∧
         ((r.hint = 1 ∨ r.hint = 2) → Makes (.tforceScr a) w (.scratch r (lo16 o) (hi16 o)) (windowSpans s c r)))) ∧
     ((∃ t ∈ e.act, t.tileDone.isSome = true) → ∃ s1 moved, OnlyCrew s s1 is.crew ∧ (∀ t ∈ e.act, t.tileDone.isSome = true → t.tid ∈ moved) ∧
       getCrew s1 is.crew = some (c.mapT fun t => if ∃ u ∈ e.act, u.tileDone.isSome = true ∧ u.tid = t.tid then
         { t with tileDone := none, cnt := { t.cnt with tiles := t.cnt.tiles - 1 } } else t) ∧
       exec (.tst a) s = .next (retireSome is moved s1) ∧ exec (.tforceAcc a) s = .next (retireSome is moved s1) ∧ exec (.tforceScr a) s = .next (retireSome is moved s1))) ∧
  (∀ (s : State) (is : Issue) (c : Crew) (a : Args), Issues s is c →
     let e := envOf s is c a.guard
     (∀ n, e.act ≠ [] → NamesNode e a.a n → ∃ s1 : State, exec (.tdrop a) s = .next (retire is s1) ∧ s1.mem = s.mem ∧ s1.crews = s.crews ∧
       (∀ m ∈ s1.nodes, m.core = n.core → m.slot = n.slot → m.dropped = true) ∧
       (n.state ≠ .forcing → isRoot s n = true → wanted s n.core n.slot = false → ∀ m ∈ s1.nodes, ¬ (m.core = n.core ∧ m.slot = n.slot))) ∧
     (e.act ≠ [] → ∃ s1 : State, exec (.tdropAll a) s = .next (retire is s1) ∧ s1.mem = s.mem ∧ s1.crews = s.crews ∧
       ∀ m ∈ s1.nodes, m.core = c.coreId → m.crew = is.crew → m.dropped = true) ∧
     WritesD (.tstat a) a s is c 1 (fun t v =>
       ((∀ u ∈ e.act, rd c u a.a 1 = rd c t a.a 1) → v = ((nodeNamed s c (rd c t a.a 1)).map (statWord s)).getD 0) ∧
       ((∃ u ∈ e.act, rd c u a.a 1 ≠ rd c t a.a 1) → v = 0)) ∧
     WritesD (.tstatTab a) a s is c 1 (fun _ v =>
       v = 64 - (s.nodes.filter (·.core == c.coreId)).length + 2 ^ 8 * (crewNodes s c).length + 2 ^ 16 * (openRoots s c).length) ∧
     WritesD (.tstatTok a) a s is c 1 fun _ v => match tokenOf c (numOf a.a) with
       | .nobody => v = 0xFFFF0000
       | .gang g => v = 1 + 2 ^ 16 * g
       | .seq g => v = 2 + 2 ^ 16 * g)

/-- Tokens: `tacq` takes a free tile or keeps its own and ends its threads' regions, and else waits its turn; `tacq.try` says whether it has it and ends the regions in either case; `trel` gives its own up to the oldest that waits, and one not its own is TOKEN; a token given up goes to the oldest waiter or to nobody (R68, R203, R252, R253, R268). Model readings and choices that it rests on: log entry 84. -/
def Obligations.TokensPass : Prop :=
  (∀ (s : State) (is : Issue) (c : Crew) (a : Args), Issues s is c → active c is a.guard ≠ [] →
    let e := envOf s is c a.guard
    let z := numOf a.a
    let g := actingGang e
    let tids := e.act.map (·.tid)
    let given := updCrew s is.crew fun c => setToken c z (.gang g)
    let waits := updCrew s is.crew fun c => { c with tacqWait := c.tacqWait ++ [(z, g)] }
    let D := fun (s : State) (b : Bool) => updCrew s is.crew fun c => applyWrs c (e.act.map fun t => (t.tid, Wr.pred a.d b))
    (holdsToken c z g = true → exec (.tacq a) s = .next (retire is (syncActive s is.crew tids)) ∧
      exec (.tacqTry a) s = .next (retire is (syncActive (D s true) is.crew tids))) ∧
    (tokenOf c z = .nobody → exec (.tacq a) s = .next (retire is (syncActive given is.crew tids)) ∧
      exec (.tacqTry a) s = .next (retire is (syncActive (D given true) is.crew tids))) ∧
    (holdsToken c z g = false → tokenOf c z ≠ .nobody → exec (.tacqTry a) s = .next (retire is (syncActive (D s false) is.crew tids)) ∧
      exec (.tacq a) s = .next { holdGang waits is.crew is.tids tids (.tacq z g c.counted) with issue := none }) ∧
    (tokenOf c z = .gang g → NoStoresOut s is c a.guard → exec (.trel a) s = .next (retire is (syncActive (updCrew s is.crew fun c => passToken c z) is.crew tids))) ∧
    (tokenOf c z ≠ .gang g → ∃ f : TrapInfo, f.code = 0x0E ∧ f.tids = tids ∧ exec (.trel a) s = .next (raise s is.crew is.pc is.tids f))) ∧
  (∀ (c : Crew) (z : Nat), (c.tacqWait.find? (·.1 == z) = none → passToken c z = setToken c z .nobody) ∧
    ∀ x, c.tacqWait.find? (·.1 == z) = some x → tokenOf (passToken c z) z = .gang x.2) ∧
  (∀ (c : Crew) (z y : Nat) (t : Token), tokenOf (setToken c z t) y = if y = z then t else tokenOf c y)

/-- `spawn` of one lane whose record, index and entry pass writes the continuation record with V := 1, raises the run's counter and, with JOIN 0, puts it in its ready queue; a bad record or index is BOUNDS 13 and a taken entry BOUNDS 14 (R272, R297). `join.dec` lowers a positive JOIN and gives what is left, or all ones, and `join.ret` frees a taken entry and gives 1, or 0 (R302); while an access to the entry must wait, the gang stays at the word (R167, R168). `spawn` and `join` complete for every gang of a run whose threads have no store out: `spawn` where every lane's record and index are valid and its entry free and no other lane's, `join` where every index lies in the pool, and no access to an entry must wait; the gang moves on (R167, R168, R297, R302). A run whose ranges have moved is running, and its seed stands in span 0's queue at its queue's priority. An idle slot takes the first ready record that fits a core of its die, and the record's crew starts there, once its pool entry can be read: a seed at ENTRY with the eight ARGS, a task at its record's PC with its ARGS and its pool entry's number (R27, R48, R167, R168, R274, R279, R280). Model readings and choices that it rests on: log entries 88, 89, 165. -/
def Obligations.TasksAndRuns : Prop :=
  (∀ (s : State) (is : Issue) (c : Crew) (a : Args) (t : Thread) (r : Run), Issues s is c → active c is a.guard = [t] → c.run = some r.id → getRun s r.id = some r →
     let d := rd c t a.d 8
     let i := rd c t a.a 1
     let stage := if bitAt a.x.toNat 4 then bitsOf a.x.toNat 3 0 else c.stage
     let Traps := fun (i : Instr) (sub : Nat) => ∃ f : TrapInfo, f.code = 0x05 ∧ f.sub = sub ∧ f.tids = [t.tid] ∧ exec i s = .next (raise s is.crew is.pc is.tids f)
     let Answers := fun (i : Instr) (w : State) (v : Nat) => exec i s = .next (retire is (syncActive (if a.d = .none then w else putD w is.crew t.tid a.d v) is.crew [t.tid]))
     let Stays := fun i : Instr => exec i s = .next { holdGang s is.crew is.tids [] .none with issue := none }
     (spawnBad r d i = false → entryHeld s r i = false → entryFree s r i = true → NoStoresOut s is c a.guard → ∃ u : State, exec (.spawn a) s = .next (retire is (syncActive u is.crew [t.tid])) ∧
       u.mem = (devPut s r.ctx (entryVa r i) 32 (d / 2 * 2 + 1)).mem ∧ (∃ r', getRun u r.id = some r' ∧ r'.counter = r.counter + 1 ∧ r'.state = r.state) ∧
       (bitsOf d 159 128 ≠ 0 → u.ready = s.ready) ∧
       (bitsOf d 159 128 = 0 → ∃ q, u.ready = s.ready ++ [q] ∧ q.run = r.id ∧ q.entry = some i ∧ q.stage = stage)) ∧
     (spawnBad r d i = true → Traps (.spawn a) 13) ∧ (spawnBad r d i = false → entryHeld s r i = false → entryFree s r i = false → Traps (.spawn a) 14) ∧
     (spawnBad r d i = false → entryHeld s r i = true → Stays (.spawn a)) ∧
     (r.launch.poolN ≤ rd c t a.a 1 → Traps (.joinDec a) 13 ∧ Traps (.joinRet a) 13) ∧
     (rd c t a.a 1 < r.launch.poolN → NoStoresOut s is c a.guard →
       (entryHeld s r i = true → Stays (.joinDec a)) ∧ (entryRetireHeld s r i = true → Stays (.joinRet a)) ∧
       (entryHeld s r i = false → lowerJoin s r i = none → Answers (.joinDec a) s 0xFFFFFFFF) ∧
       (entryHeld s r i = false → ∀ w j, lowerJoin s r i = some (w, j) → Answers (.joinDec a) (if j = 0 then enqueueSpawned w r i else w) j) ∧
       (entryRetireHeld s r i = false → entryFree s r i = true → Answers (.joinRet a) s 0) ∧
       (entryRetireHeld s r i = false → entryFree s r i = false → ∃ w, Answers (.joinRet a) (retireEntry w r i) 1 ∧ w.mem = s.mem ∧ w.runs = s.runs ∧
         ∀ q ∈ w.ready, q ∈ s.ready ∧ ¬ (q.run = r.id ∧ q.entry = some i)))) ∧
  (∀ (s : State) (is : Issue) (c : Crew) (a : Args) (r : Run), Issues s is c → c.run = some r.id → getRun s r.id = some r → NoStoresOut s is c a.guard →
     let act := active c is a.guard
     let Moves := fun i : Instr => ∃ u : State, exec i s = .next (retire is (syncActive u is.crew (act.map (·.tid))))
     (act ≠ [] → (∀ t ∈ act, spawnBad r (rd c t a.d 8) (rd c t a.a 1) = false ∧ entryHeld s r (rd c t a.a 1) = false ∧ entryFree s r (rd c t a.a 1) = true) → (act.map fun t => rd c t a.a 1).Nodup →
       Moves (.spawn a)) ∧
     ((∀ t ∈ act, rd c t a.a 1 < r.launch.poolN) → ((∀ t ∈ act, entryHeld s r (rd c t a.a 1) = false) → Moves (.joinDec a)) ∧
       ((∀ t ∈ act, entryRetireHeld s r (rd c t a.a 1) = false) → Moves (.joinRet a)))) ∧
  ((∀ (s : State) (r : Run), getRun s r.id = some r → r.state = .migrating → (∀ m ∈ s.moves, m.run ≠ some r.id) → exec (.seedEnqueue r.id) s =
     .next { updRun s r.id (fun r => { r with state := .running, counter := 1, dies := spanDies s r.launch }) with
       ready := s.ready ++ [{ run := r.id, span := 0, prio := r.prio, entry := none, stage := r.launch.stage }] }) ∧
   (∀ (s : State) (die : Nat) (pre post : List (Ready × Run)) (x : Ready) (r : Run) (i : Nat),
     (sortHeads s (readyHeads s die)).filter (fun x => !handlerWaits s x.2.ctx die) = pre ++ (x, r) :: post → (∀ y ∈ pre, placeCore s die y.2.launch.shape = none) →
     placeCore s die r.launch.shape = some i → exec (.crewSlotTake die) s = .next (if x.entry.any (entryHeld s r) then s else startRecord s x r (256 * die + i))) ∧
   (∀ (s : State) (x : Ready) (r : Run) (core : Nat), ∃ k : Crew, (startRecord s x r core).crews = s.crews ++ [k] ∧ (startRecord s x r core).mem = s.mem ∧ (startRecord s x r core).ready = s.ready.erase x ∧
     k.uid = s.nextId ∧ k.ctx = r.ctx ∧ k.run = some r.id ∧ k.span = x.span ∧ k.stage = x.stage ∧ k.coreId = core ∧ k.where_ = .resident ∧ k.halt = none ∧ k.gw = r.launch.gang ∧
     k.threads.length = r.launch.product ∧ (∀ t ∈ k.threads, t.live = true ∧ t.v = [] ∧ t.p = [] ∧ t.hold = .none) ∧ k.threads.map (·.tid) = List.range r.launch.product ∧
     (x.entry = none → k.kind = .seed ∧ k.num = 0 ∧ (∀ t ∈ k.threads, t.pc = r.launch.entry) ∧ ∀ i a, i < 8 → r.launch.args[i]? = some a →
       mget 0 k.s (2 * i) = BitVec.ofNat 32 a.toNat ∧ mget 0 k.s (2 * i + 1) = BitVec.ofNat 32 (a.toNat / 2 ^ 32)) ∧
     (∀ i, x.entry = some i → k.kind = .task i ∧ k.num = BitVec.ofNat 32 (i + 1) ∧ mget 0 k.s 4 = BitVec.ofNat 32 i ∧
       let w := fun off len => (devNum s r.ctx (r.launch.pool + 32 * i + off) len).getD 0
       (∀ t ∈ k.threads, t.pc = BitVec.ofNat 64 (8 * bitsOf (w 0 8) 55 3)) ∧ mget 0 k.s 0 = BitVec.ofNat 32 (w 8 8) ∧ mget 0 k.s 1 = BitVec.ofNat 32 (w 8 8 / 2 ^ 32) ∧
       mget 0 k.s 2 = BitVec.ofNat 32 (w 24 8) ∧ mget 0 k.s 3 = BitVec.ofNat 32 (w 24 8 / 2 ^ 32))))

/-- `q` and `weir` send one request a lane to the home of its ring descriptor; `weir.free` reads the descriptor there and gives the free slots (R286–R289, R298, R299). A ring served at its home: a request takes its place in the order of arrival, where none that comes before it is still on its way, and is served where no earlier one of its ring can be. A push writes the entry at TAIL and raises TAIL, or is turned away by END or, for a `.try` or posted form, by a full ring; a pop takes the entry at HEAD and raises HEAD, but for an end marker, or answers false at once in its `.try` form, or waits; `popa` then writes the entry to the scratchpad and arrives with 32 bytes (R286–R288, R298, R299). Where its crew is away and the log is full, it waits (R370). Model readings and choices that it rests on: log entries 95, 148. -/
def Obligations.Rings : Prop :=
  (∀ (s : State) (is : Issue) (c : Crew) (a : Args), Issues s is c →
     RingsSent (.qPush a) a .push s is c ∧ RingsSent (.qPop a) a .pop s is c ∧ RingsSent (.qPopTry a) a .popTry s is c ∧ RingsSent (.qPopa a) a .popa s is c ∧
     RingsSent (.weirPush a) a (if bitAt a.m.toNat 4 then .weirPushTry else .weirPush) s is c ∧
     RingsSent (.weirPop a) a (if bitAt a.m.toNat 4 then .weirPopTry else .weirPop) s is c ∧
     (s.stores = [] → anyPoison s = false →
       (∀ t ∈ active c is a.guard, let l : LaneAcc := { t := t, ea := BitVec.ofNat 64 (rd c t a.a 2), tgt := steer s c t.tid (BitVec.ofNat 64 (rd c t a.a 2)) 64 }
         let ps := lanePieces s c 64 l
         PathClear s c { w := 64, load := true, strong := true, now := true } [l] ∧ ps.all (·.glob) = true ∧ ringBad (bytesVal (ps.flatMap fun x => homeBytes s x.key x.len)) 2 = false) →
       ∃ u : State, exec (.weirFree a) s = .next (retireSome is is.tids u) ∧ u.mem = s.mem) ∧
     ∀ t, active c is a.guard = [t] →
       let ea := BitVec.ofNat 64 (rd c t a.a 2)
       let l : LaneAcc := { t := t, ea := ea, tgt := steer s c t.tid ea 64 }
       let ps := lanePieces s c 64 l
       let v := bytesVal (ps.flatMap fun x => homeBytes s x.key x.len)
       PathClear s c { w := 64, load := true, strong := true, now := true } [l] → s.stores = [] → anyPoison s = false →
         (ringBad v 2 = false → ps.all (·.glob) = true → ∃ u : State, exec (.weirFree a) s = .next (retireSome is is.tids u) ∧ u.mem = s.mem ∧
           getCrew u is.crew = some (wr c t.tid a.d 1 ((ringOf v).slots - (ringOf v).used))) ∧
         (ringBad v 2 = true → ∃ f : TrapInfo, ∃ w, f.code = 0x05 ∧ f.sub = 15 ∧ w.mem = s.mem ∧ exec (.weirFree a) s = .next (raise w is.crew is.pc is.tids f))) ∧
  ((∀ (s : State) (r : RingReq) (c : Crew) (k : Nat), s.rings.find? (fun q => q.id == r.id && q.answer.isNone) = some r → getCrew s r.crew = some c →
     engineHeld s r.id = false → logBlocked s c = false → takeFault s r.id = none → anyPoison s = false → inAperture s c.ctx r.desc.toNat = false →
     let m : Mover := { req := r.id, crew := c, tid := r.tid }
     let g := ringOf (bytesVal (homeBytes s k 64))
     let s0 := (comesHome s r (place s k)).1
     let r0 := (comesHome s r (place s k)).2
     let late := r.order = 0 ∧ comesLater s r (place s k) = true
     reach s m { load := true, store := true } r.desc.toNat 64 = .ok s [(k, 64)] →
     (late → exec (.ringServe r.id) s = .next s) ∧
     (r0.crew = r.crew ∧ r0.id = r.id ∧ r0.op = r.op ∧ s0.mem = s.mem ∧ (r.order ≠ 0 → s0 = s ∧ r0 = r) ∧ (r.order = 0 → r0.order = s.nextId ∧ r0.home = place s k)) ∧
     (¬ late → ringBad (bytesVal (homeBytes s k 64)) r.op.kind = true → ∃ f : TrapInfo, f.code = 0x05 ∧ f.sub = 15 ∧ exec (.ringServe r.id) s = .next (ringFault s0 m r0 f 5)) ∧
     (¬ late → ringBad (bytesVal (homeBytes s k 64)) r.op.kind = false → olderWaits s0 r0 g = true → exec (.ringServe r.id) s = .next s0) ∧
     (¬ late → ringBad (bytesVal (homeBytes s k 64)) r.op.kind = false → olderWaits s0 r0 g = false → r.op.isPush = true →
       (g.ended = true → exec (.ringServe r.id) s = .next (endRing (ringPred s0 r0 false) r0)) ∧
       (g.ended = false → g.used = g.slots → r.op = .weirPush → exec (.ringServe r.id) s = .next (markWaiting s0 r0)) ∧
       (g.ended = false → g.used = g.slots → r.op ≠ .weirPush → exec (.ringServe r.id) s = .next (endRing (ringPred s0 r0 false) r0)) ∧
       (g.ended = false → g.used ≠ g.slots → ∀ ke, reach s0 m { store := true } (g.entryVa g.tail) 32 = .ok s0 [(ke, 32)] →
         let w := homeWriteN (homeWriteN s0 ke 32 r.entry) (k + 24) 8 ((g.tail + 1) % 2 ^ 64)
         exec (.ringServe r.id) s = .next (endRing (ringPred (if bitAt r.entry 1 then homeWriteN w (k + 13) 1 1 else w) r0 true) r0))) ∧
     (¬ late → ringBad (bytesVal (homeBytes s k 64)) r.op.kind = false → olderWaits s0 r0 g = false → r.op.isPush = false →
       (g.used = 0 → (r.op = .popTry ∨ r.op = .weirPopTry → exec (.ringServe r.id) s = .next (endRing (ringPred s0 r0 false) r0)) ∧
         (r.op ≠ .popTry → r.op ≠ .weirPopTry → exec (.ringServe r.id) s = .next (markWaiting s0 r0))) ∧
       (g.used ≠ 0 → ∀ ke, reach s0 m { load := true } (g.entryVa g.head) 32 = .ok s0 [(ke, 32)] →
         let v := bytesVal (homeBytes s ke 32)
         let w := if bitAt v 1 then s0 else homeWriteN s0 (k + 16) 8 ((g.head + 1) % 2 ^ 64)
         (r.op ≠ .popa → exec (.ringServe r.id) s = .next (deliver w c r0 v)) ∧
         (r.op = .popa → exec (.ringServe r.id) s = .next { w with rings := w.rings.map fun q => if q.id = r.id then { q with answer := some v, waiting := false } else q })))) ∧
   (∀ (s : State) (r : RingReq) (c : Crew), s.rings.find? (fun q => q.id == r.id && q.answer.isNone) = some r → getCrew s r.crew = some c →
     logBlocked s c = true → exec (.ringServe r.id) s = .next s) ∧
   (∀ (s w : State) (r : RingReq) (c : Crew) (v k : Nat) (b : Option Nat) (x : Word64), s.rings.find? (·.id == r.id) = some r → r.answer = some v → getCrew s r.crew = some c → c.where_ = .resident →
     steer s c r.tid r.buf 32 = .bank k b → r.arw = some x → arriveAtWord (homeWriteN s k 32 v) { req := r.id, crew := c, tid := r.tid } x 32 = .ok w →
     exec (.popaAnswer r.id) s = .next (endRing w r)) ∧
   (∀ (s : State) (m : Mover) (ea : Word64) (n k : Nat), arrivalKey s m ea = .ok k →
     ∃ w, arriveAtWord s m ea n = .ok w ∧ readArr w k = completeArr { readArr s k with count := ((readArr s k).count + n) % 2 ^ 32 } ∧
       w = { s with mem := w.mem } ∧ ∀ j, j < k ∨ k + 16 ≤ j → memByte w.mem j = memByte s.mem j))

/-- `cpy` and `cpyg` whose checks pass over all active lanes make one request a lane, which the copies counter holds; a failed check is ALIGN, or the BOUNDS reason it names, and no request is made (R295, R296). One chunk of a copy whose ranges can be reached: the destination's bytes become the source's, and after the last chunk the copies counter falls (R290). A fault that is charged to a live thread stands in its list; it is raised at the next word of its gang (R291). Model readings and choices that it rests on: log entries 97, 98. -/
def Obligations.Copies : Prop :=
  (∀ (s : State) (is : Issue) (c : Crew) (a : Args), Issues s is c →
     let act := active c is a.guard
     let Issued := fun (i : Instr) (gather : Bool) =>
       let q := flumeOf a gather c is.pc 0
       ((∀ t ∈ act, flumeAlign (q t) = none ∧ flumeCheck s c (q t) = none ∧ spanAlias s c (eaSpans s { req := 0, crew := c, tid := t.tid } (q t).dst.toNat (q t).len) = none) →
         ∃ s1 : State, exec i s = .next (retire is s1) ∧ s1.mem = s.mem ∧ s1.flume.length = s.flume.length + act.length ∧ (∀ r ∈ s.flume, r ∈ s1.flume) ∧
           ∀ t ∈ act, (∃ r ∈ s1.flume, s.nextId ≤ r.id ∧ r = { q t with id := r.id }) ∧
             (is.tids.Nodup → ∃ t' : Thread, getThread s1 is.crew t.tid = some t' ∧ t' = { t with cnt := { t.cnt with copies := t.cnt.copies + 1 } })) ∧
       ((∃ t ∈ act, flumeAlign (q t) ≠ none) → ∃ f : TrapInfo, f.code = 0x04 ∧ exec i s = .next (raise s is.crew is.pc is.tids f)) ∧
       ((∀ t ∈ act, flumeAlign (q t) = none) → ∀ t ∈ act, ∀ code sub ea, flumeCheck s c (q t) = some (code, sub, ea) → (∀ u ∈ act, ∀ x, flumeCheck s c (q u) = some x → x.1 = code ∧ x.2.1 = sub) →
         ∃ f : TrapInfo, f.code = code ∧ f.sub = sub ∧ t.tid ∈ f.tids ∧ exec i s = .next (raise s is.crew is.pc is.tids f))
     Issued (.cpy a) false ∧ Issued (.cpyg a) true) ∧
  ((∀ (s s2 s3 : State) (r : FlumeReq) (c : Crew) (srcs dsts : List (Nat × Nat)), s.flume.find? (·.id == r.id) = some r → getCrew s r.crew = some c → EngineFree s c r.id 2 →
     let m : Mover := { req := r.id, crew := c, tid := r.tid }
     let xs := [(r.src.toNat + 4096 * r.done, r.chunkLen)]
     let ys := [(r.dst.toNat + 4096 * r.done, r.chunkLen)]
     r.gather = false → r.pin = false → r.badIdx = [] → r.chunkLen ≠ 0 → anyPoison s = false → (∀ x ∈ xs, leavesAperture s m r x = false) →
     reachAll s m { load := true } xs = .ok s srcs → reachAll s m { store := true } ys = .ok s dsts →
     spanAlias s c (eaSpans s m (r.dst.toNat + 4096 * r.done) r.chunkLen) = none → engineRace s m false xs srcs = .ok s2 →
     engineRace s2 m true ys dsts = .ok s3 →
     let keys := fun (x : List (Nat × Nat)) => x.flatMap fun p => (List.range p.2).map (p.1 + ·)
     let w := homeWrite s3 none ((keys dsts).zip ((keys srcs).map (homeByte s)))
     exec (.flumeChunk r.id) s = .next (flumeArrive w m r) ∧ w.mem = memPutAll s.mem (((keys dsts).zip ((keys srcs).map (homeByte s))).map fun x => (place s x.1, x.2)) ∧
     (r.arw = none → r.done + 1 = r.chunks → flumeArrive w m r = endFlume w r ∧ ∀ q ∈ (endFlume w r).flume, q.id ≠ r.id) ∧
     (r.arw = none → r.done + 1 ≠ r.chunks → ∃ q ∈ (flumeArrive w m r).flume, q.id = r.id ∧ q.done = r.done + 1)) ∧
   (∀ (s : State) (m : Mover) (f : TrapInfo) (c : Crew) (t : Thread), getCrew s m.crew.uid = some c → c.where_ = .resident → c.thread m.tid = some t → t.live = true →
     ∃ t' : Thread, getThread (chargeFault s m f) m.crew.uid m.tid = some t' ∧ t' = { t with deferred := t.deferred ++ [f] }) ∧
   (∀ (s : State) (uid tid : Nat) (c : Crew) (g : Group), getCrew s uid = some c → c.halt = none → ctxOff s c.ctx = false → c.where_ = .resident → c.threads.any (·.live) = true →
     (coreGroups s c.coreId).find? (fun g => g.crew == uid && (gangOf g).contains tid) = some g →
     let is : Issue := { crew := uid, pc := g.pc, tids := gangOf g }
     (∃ t ∈ gangThreads c is, t.deferred ≠ []) →
     ∀ f clear, preTrap s c is = some (f, clear) → exec (.deferredEngineFault uid tid) s = .next (takePre s c is f clear)))

/-- `coll` of one lane reads its descriptor and group record at issue and makes one request; matched members that agree take their inputs, and where they differ STATUS becomes 2 and nothing else is written; a chunk that can be reached is moved and arrives. The fold of a reduction goes up the ranks; integer sums wrap (R292, R300). `dcmp` of one lane reads its job at issue and submits it; a block of a die's oldest job that can be reached is worked and arrives, where no expansion of a page is the Quern's to do first (R197, R301). Model readings and choices that it rests on: log entries 100, 101. -/
def Obligations.CollectivesAndQuern : Prop :=
  ((∀ (s : State) (is : Issue) (c : Crew) (a : Args) (t : Thread), Issues s is c → active c is a.guard = [t] →
     let ea := rd c t a.a 2
     let e := envOf s is c a.guard
     let d := recordNum s c (recordLane e t ea 64) 64
     let ga := partOf d 16 8
     let n := recordNum s c (recordLane e t ga 8) 8 % 2 ^ 32
     let g := recordNum s c (recordLane e t ga (8 + 2 * n)) (8 + 2 * n)
     let Clear := fun (ea len : Nat) => PathClear s c { w := 1, load := true, now := true } [recordLane e t ea len]
     ea % 64 = 0 → steerFail s c t.tid ea 64 = none → (∀ w, arwOf c t a.d = some w → w % 16 = 0 ∧ arwFail s c t.tid w = none) →
     s.stores = [] → anyPoison s = false → Clear ea 64 →
     (collBad d = true → ∃ (f : TrapInfo) (w : State), f.code = 0x05 ∧ f.sub = 16 ∧ w.mem = s.mem ∧ exec (.coll a) s = .next (raise w is.crew is.pc is.tids f)) ∧
     (collBad d = false → Clear ga 8 → 2 ≤ n → n ≤ 4096 → Clear ga (8 + 2 * n) → groupBad s d g n = false →
       ∃ (u : State) (r : CollReq), exec (.coll a) s = .next (retireSome is is.tids u) ∧ u.mem = s.mem ∧ u.colls = s.colls ++ [r] ∧ r.tid = t.tid ∧ r.crew = is.crew ∧ r.desc = BitVec.ofNat 64 ea ∧
         r.src = partOf d 0 8 ∧ r.dst = partOf d 8 8 ∧ r.count = partOf d 24 8 ∧ r.op = partOf d 32 1 ∧ r.ty = partOf d 33 1 ∧ r.red = partOf d 34 1 ∧ r.root = partOf d 36 2 ∧
         r.group = groupOf g n ∧ r.rank = rankIn s (groupOf g n) ∧ r.matched = none)) ∧
   (∀ (s : State) (is : Issue) (c : Crew) (a : Args) (d g n : Thread → Nat), Issues s is c → s.stores = [] → anyPoison s = false →
     let e := envOf s is c a.guard
     let Clear := fun (t : Thread) (ea len : Nat) => PathClear s c { w := 1, load := true, now := true } [recordLane e t ea len]
     (∀ t ∈ e.act, rd c t a.a 2 % 64 = 0 ∧ steerFail s c t.tid (rd c t a.a 2) 64 = none ∧ (∀ w, arwOf c t a.d = some w → w % 16 = 0 ∧ arwFail s c t.tid w = none) ∧
       Clear t (rd c t a.a 2) 64 ∧ d t = recordNum s c (recordLane e t (rd c t a.a 2) 64) 64 ∧ collBad (d t) = false ∧
       Clear t (partOf (d t) 16 8) 8 ∧ n t = recordNum s c (recordLane e t (partOf (d t) 16 8) 8) 8 % 2 ^ 32 ∧ 2 ≤ n t ∧ n t ≤ 4096 ∧
       Clear t (partOf (d t) 16 8) (8 + 2 * n t) ∧ g t = recordNum s c (recordLane e t (partOf (d t) 16 8) (8 + 2 * n t)) (8 + 2 * n t) ∧ groupBad s (d t) (g t) (n t) = false) →
     ∃ u : State, exec (.coll a) s = .next (retireSome is is.tids u) ∧ u.mem = s.mem ∧ u.colls.length = s.colls.length + e.act.length) ∧
   (∀ (s : State) (r : CollReq) (c : Crew) (peers : List CollPeer), s.colls.find? (fun q => q.id == r.id && q.matched.isNone) = some r → getCrew s r.crew = some c →
     engineHeld s r.id = false → engineStopped s c 5 = false → (∀ q ∈ s.colls, q.matched = none → q.tag = r.tag → q.group = r.group → r.seq ≤ q.seq) →
     peers.map (·.rank) = (List.range r.group.length).filter (· != r.rank) →
     (peers.all (agrees r) = true → (∀ p ∈ peers, r.inputLen p.rank ≤ p.input.length) →
       exec (.collMatch r.id peers) s = .next { s with colls := s.colls.map fun q => if q.id = r.id then { q with matched := some peers } else q }) ∧
     (peers.all (agrees r) = false → ∀ runs, reach s { req := r.id, crew := c, tid := r.tid } { store := true } (r.desc.toNat + 40) 4 = .ok s runs →
       exec (.collMatch r.id peers) s = .next (endColl (engineWrite s runs ((byteList 0 2 4).map (·.2)) false) r))) ∧
   (∀ (s w : State) (r : CollReq) (c : Crew) (peers : List CollPeer) (n : Nat), s.colls.find? (·.id == r.id) = some r → getCrew s r.crew = some c → r.matched = some peers →
     EngineFree s c r.id 5 → collStep s { req := r.id, crew := c, tid := r.tid } r peers none = .ok w (none, n) →
     exec (.collChunk r.id) s = .next (collArrive w { req := r.id, crew := c, tid := r.tid } r n)) ∧
   (∀ x y : Nat, reduce2 3 0 x y = (x + y) % 2 ^ 32 ∧ reduce2 4 0 x y = (x + y) % 2 ^ 32 ∧ reduce2 4 1 x y % 2 ^ 32 = min (x % 2 ^ 32) (y % 2 ^ 32) ∧
     reduce2 4 2 x y % 2 ^ 32 = max (x % 2 ^ 32) (y % 2 ^ 32))) ∧
  ((∀ (s : State) (is : Issue) (c : Crew) (a : Args) (t : Thread), Issues s is c → active c is a.guard = [t] →
     let ea := rd c t a.a 2
     let l := recordLane (envOf s is c a.guard) t ea 64
     let d := recordNum s c l 64
     ea % 64 = 0 → steerFail s c t.tid ea 64 = none → (∀ w, arwOf c t a.d = some w → w % 16 = 0 ∧ arwFail s c t.tid w = none) →
     s.stores = [] → anyPoison s = false → PathClear s c { w := 1, load := true, now := true } [l] →
     (jobBad d = true → ∃ (f : TrapInfo) (w : State), f.code = 0x05 ∧ f.sub = 16 ∧ w.mem = s.mem ∧ exec (.dcmp a) s = .next (raise w is.crew is.pc is.tids f)) ∧
     (jobBad d = false → ∃ (u : State) (q : QuernJob), exec (.dcmp a) s = .next (retireSome is is.tids u) ∧ u.mem = s.mem ∧ u.querns = s.querns ++ [q] ∧ q.tid = t.tid ∧ q.crew = is.crew ∧
       q.src.toNat = partOf d 0 8 ∧ q.dst.toNat = partOf d 8 8 ∧ q.blocks = partOf d 16 4 ∧ q.expand = decide (partOf d 20 1 = 1) ∧ q.done = 0)) ∧
   (∀ (s : State) (is : Issue) (c : Crew) (a : Args), Issues s is c → s.stores = [] → anyPoison s = false →
     let e := envOf s is c a.guard
     (∀ t ∈ e.act, rd c t a.a 2 % 64 = 0 ∧ steerFail s c t.tid (rd c t a.a 2) 64 = none ∧ (∀ w, arwOf c t a.d = some w → w % 16 = 0 ∧ arwFail s c t.tid w = none) ∧
       PathClear s c { w := 1, load := true, now := true } [recordLane e t (rd c t a.a 2) 64] ∧ jobBad (recordNum s c (recordLane e t (rd c t a.a 2) 64) 64) = false) →
     ∃ u : State, exec (.dcmp a) s = .next (retireSome is is.tids u) ∧ u.mem = s.mem ∧ u.querns.length = s.querns.length + e.act.length) ∧
   (∀ (s w : State) (q : QuernJob) (c : Crew) (ws : List (Nat × List Byte)) (pos n : Nat), s.querns.find? (·.id == q.id) = some q → getCrew s q.crew = some c →
     EngineFree s c q.id 6 → (∀ x ∈ s.querns, x.die = q.die → q.id ≤ x.id) → (∀ x ∈ s.expansions, x.1 ≠ q.die) → quernStep s { req := q.id, crew := c, tid := q.tid } q none = .ok w (.good ws pos, n) →
     exec (.quernBlock q.id) s = .next (jobArrive w { req := q.id, crew := c, tid := q.tid } q pos n)))

/-- Compression loses nothing: a block of 64 KiB expands from its own entry and payload to itself, and the payload is no longer than the block (R293). -/
def Obligations.QuernExpandsWhatItPacked : Prop :=
  ∀ bs : List Byte, bs.length = 65536 → (packBlock bs).2.length ≤ 65536 ∧ expandBlock (packEntry bs) (packBlock bs).2 = some bs

/-- `trace` of a lane that has room sends its ray and takes a slot of the table, and one with none stays at the word, its binding ended; every lane of a gang with room for all sends its own; `hitld` gives the thread's first event, its record in eight registers, and frees the slot of a final one; without an event it gives zeros where the thread has no slot, and else waits, or answers false in its `.try` form; a code address of the record's callback row is called; a FAULT traps (R312, R341, R342). Each form of `hitrep` completes for every gang. A thread with no candidate gets false; `accept` and `term` take an any-hit or unresolved candidate and not a custom one, `ignore` drops any, and the `commit` forms take a custom or unresolved one at a t of the ray's precision inside its limits, and reject a t outside them or NaN; a decision goes to the ray and the thread holds its candidate no longer (R324, R343). Model readings and choices that it rests on: log entries 103, 114, 143. -/
def Obligations.Rays : Prop :=
  ((∀ (s : State) (is : Issue) (c : Crew) (a : Args), Issues s is c → is.tids.Nodup →
     let act := active c is a.guard
     let need := fun t => extNeed s c.ctx (traceAsk a c t)
     (∀ t ∈ act, (traceAsk a c t).scene % 64 = 0 ∧ (∀ l, (traceAsk a c t).log = some l → l % 4096 = 0 ∧ globalEa s c t.tid l = true) ∧ threadSlots s c.uid t.tid < 63) →
     coreSlots s c.coreId + act.length ≤ 4096 → (s.rays.filter (·.admitted)).length + act.length ≤ s.bar.rayAdmit → extUsed s + (act.map need).sum ≤ s.bar.extAdmit →
     ∃ u : State, exec (.trace a) s = .next (retireSome is is.tids u) ∧ u.mem = s.mem ∧ u.slots.length = s.slots.length + act.length ∧ u.rays.length = s.rays.length + act.length) ∧
   ∀ (s : State) (is : Issue) (c : Crew) (a : Args) (t : Thread), Issues s is c → active c is a.guard = [t] →
     let k := traceAsk a c t
     let Past := fun (u : State) (w : Nat) => u.issue = none ∧ ∃ t' : Thread, getThread u is.crew t.tid = some t' ∧ t'.pc = is.pc + 8 ∧ (∀ n, t'.hold ≠ .hitld n) ∧
       ∀ r : Fin 192, a.d = .v r → groupVal t'.v r 8 = w % 2 ^ 256
     let Both := fun (P : Instr → Prop) => P (.hitld a) ∧ P (.hitldTry a)
     (k.scene % 64 = 0 → (∀ l, k.log = some l → l % 4096 = 0 ∧ globalEa s c t.tid l = true) →
       (traceFits s c t.tid k = false → exec (.trace a) s = .next (retireSome is (is.tids.filter fun i => !([t.tid].contains i)) (leaveGang s is.crew [t.tid]))) ∧
       (traceFits s c t.tid k = true → ∃ (u : State) (slot : RaySlot) (ray : Ray), exec (.trace a) s = .next (retireSome is (is.tids.filter fun i => !(([] : List Nat).contains i)) u) ∧ u.mem = s.mem ∧
         u.slots = s.slots ++ [slot] ∧ slot.crew = is.crew ∧ slot.tid = t.tid ∧ slot.ray = ray.id ∧ slot.events = [] ∧ ray ∈ u.rays ∧ ray.slot = slot.id ∧
         [ray.org, [ray.tmin], ray.dir, [ray.tmax]].flatten = k.vals ∧ ray.f64 = k.f64 ∧ ray.ctrl = k.ctrl ∧ ray.mode = rayMode a.m.toNat ∧
         (rayBad s c.ctx k = false → ray.place = .sent (nearStack c)) ∧ (rayBad s c.ctx k = true → ray.place = .ended ∧ ray.status = 4) ∧
         ∃ t' : Thread, getThread u is.crew t.tid = some t' ∧ t'.cnt = { t.cnt with rays := t.cnt.rays + 1 })) ∧
     (threadSlots s is.crew t.tid = 0 → Both fun i => ∃ u : State, exec i s = .next u ∧ u.mem = s.mem ∧ Past u 0) ∧
     (threadSlots s is.crew t.tid ≠ 0 → firstEvent s is.crew t.tid = none →
       (∃ (u : State) (t' : Thread), exec (.hitld a) s = .next u ∧ u.mem = s.mem ∧ u.issue = none ∧ getThread u is.crew t.tid = some t' ∧ t'.hold = .hitld c.counted ∧ t'.pc = t.pc) ∧
       (∃ (u : State) (t' : Thread), exec (.hitldTry a) s = .next u ∧ u.mem = s.mem ∧ getThread u is.crew t.tid = some t' ∧ t'.pc = is.pc + 8 ∧ t'.v = t.v ∧ (numOf a.c ≠ 7 → a.c ≠ .none → rp t' (numOf a.c) = false))) ∧
     (∀ x r, firstEvent s is.crew t.tid = some (x, r) → r.status ≠ 2 → (bitAt a.m.toNat 0 = true ∨ codeVa r = none) →
       Both fun i => ∃ u : State, exec i s = .next u ∧ u.mem = s.mem ∧ Past u (recordWord x.f64 x.ctrl x.logged r) ∧
         (candidateEvent r.event = false → ∀ y ∈ u.slots, y.id ≠ x.id) ∧
         (candidateEvent r.event = true → ∃ t' : Thread, getThread u is.crew t.tid = some t' ∧ t'.candidate = some x.id)) ∧
     (∀ x r f, firstEvent s is.crew t.tid = some (x, r) → r.status = 2 → r.fault = some f →
       Both fun i => exec i s = .next (raise (if recordsTrap s c then dropSlot (defaultCand s is.crew t.tid) x.id else s) is.crew is.pc is.tids
         { f with tids := [t.tid], lanes := laneMask c [t.tid] })) ∧
     (∀ x r va, firstEvent s is.crew t.tid = some (x, r) → r.status ≠ 2 → bitAt a.m.toNat 0 = false → codeVa r = some va → s.stores = [] → anyPoison s = false →
       let l := recordLane (envOf s is c a.guard) t va 8
       let d := recordNum s c l 8
       PathClear s c { w := 1, load := true, now := true } [l] →
       (codeBad d = true → Both fun i => ∃ (u : State) (f : TrapInfo), f.code = 0x05 ∧ f.sub = 17 ∧ exec i s = .next (raise u is.crew is.pc is.tids f)) ∧
       (codeBad d = false → Both fun i => ∃ (u : State) (t' : Thread), exec i s = .next u ∧ u.mem = s.mem ∧ getThread u is.crew t.tid = some t' ∧
         t'.pc = (if d = 0 then is.pc + 8 else BitVec.ofNat 64 d) ∧ (d ≠ 0 → t'.link = is.pc + 8) ∧
         ∀ q : Fin 192, a.d = .v q → groupVal t'.v q 8 = recordWord x.f64 x.ctrl x.logged r % 2 ^ 256))) ∧
  ((∀ (s : State) (is : Issue) (c : Crew) (a : Args) (t : Thread), Issues s is c → active c is a.guard = [t] →
     let All := fun (P : Instr → Nat → Prop) => P (.hitrepAccept a) 1 ∧ P (.hitrepIgnore a) 2 ∧ P (.hitrepTerm a) 3 ∧ P (.hitrepCommit a) 4 ∧ P (.hitrepCommitTerm a) 5
     let f64 := bitAt a.m.toNat 4
     let x := if f64 then fp64.dec (rd c t a.a 2) else fp32.dec (rd c t a.a 1)
     (t.candidate = none → All fun i _ => Decides i a s is t none false) ∧
     (∀ id y r h ev, t.candidate = some id → getSlot s id = some y → getRay s y.ray = some r → r.cand = some (h, ev) →
       Decides (.hitrepIgnore a) a s is t (some fun h => { dec := 2, hit := h }) true ∧
       (ev ≠ evCustom → Decides (.hitrepAccept a) a s is t (some fun h => { dec := 1, hit := h }) true ∧ Decides (.hitrepTerm a) a s is t (some fun h => { dec := 3, hit := h }) true) ∧
       (ev = evCustom → Decides (.hitrepAccept a) a s is t none false ∧ Decides (.hitrepTerm a) a s is t none false) ∧
       (ev = evAnyHit ∨ f64 ≠ r.f64 → Decides (.hitrepCommit a) a s is t none false ∧ Decides (.hitrepCommitTerm a) a s is t none false) ∧
       (ev ≠ evAnyHit → f64 = r.f64 →
         (x.isNan = true ∨ x.lt (fp64.dec r.tmin) = true ∨ (fp64.dec r.tmax).lt x = true →
           Decides (.hitrepCommit a) a s is t (some fun h => { dec := 2, hit := h }) false ∧ Decides (.hitrepCommitTerm a) a s is t (some fun h => { dec := 2, hit := h }) false) ∧
         (x.isNan = false → x.lt (fp64.dec r.tmin) = false → (fp64.dec r.tmax).lt x = false →
           let d := fun (n : Nat) (h : Hit) => ({ dec := n, hit := { h with t := rne fp64 x, sub := rd c t a.b 1 % 2 ^ 16, u := rd c t a.c 2 % 2 ^ 32, v := rd c t a.c 2 / 2 ^ 32, result := if ev = evUnresolved then 1 else h.result } } : Decision)
           Decides (.hitrepCommit a) a s is t (some (d 4)) true ∧ Decides (.hitrepCommitTerm a) a s is t (some (d 5)) true)))) ∧
   (∀ (s : State) (is : Issue) (c : Crew) (a : Args), Issues s is c →
     let Completes := fun i : Instr => ∃ (s1 : State) (ws : List (Nat × Wr)), exec i s = .next (regsWritten s1 is ws) ∧ s1.mem = s.mem ∧ ws.map (·.1) = (active c is a.guard).map (·.tid)
     Completes (.hitrepAccept a) ∧ Completes (.hitrepIgnore a) ∧ Completes (.hitrepTerm a) ∧ Completes (.hitrepCommit a) ∧ Completes (.hitrepCommitTerm a)) ∧
   (∀ (s : State) (uid id : Nat) (t : Thread) (y : RaySlot) (r : Ray) (d : Hit → Decision), getThread s uid t.tid = some t → t.candidate = some id → getSlot s id = some y → getRay s y.ray = some r →
     getRay (decide' s uid t.tid d) y.ray = some { r with decision := r.cand.map fun c => d c.1 } ∧
     getThread (decide' s uid t.tid d) uid t.tid = some { t with candidate := none }))

/-- The way of a ray: it arrives at the leat of its treelet, or at the pond when the leats are full or older rays of its leat stand there; spilled rays come back; free pipes take rays of the chosen leat, one each, on the page of the treelet as it then stands; a leat that has waited is marked; a hold that outlives its limit is marked and its rays end with HOLD; a lost message is counted and ends its ray with LOST (R314–R316, R327, R329). The lanes of a `tlpub` that read their scenes and entries each send a request. `tlpub` of one lane reads the scene and the treelet's entry: the top treelet and one past the count are answered at once; `hold` holds a treelet and gives its version, or all ones where it is held; `stat` gives the version and whether it is held; `pub` asks for the exchange, which swaps PAGE and SHADOW of a held treelet, raises its version and ends the hold, and which answers once no ray is inside the old page (R305, R306, R329, R344). Model readings and choices that it rests on: log entries 112, 115, 116, 167. -/
def Obligations.RayMovesAndPublications : Prop :=
  ((∀ (s : State) (r : Ray) (k : Nat), getRay s r.id = some r → r.place = .sent k →
     ((r.treelet = 0 ∨ ∀ h, heldAt s r.ctx r.entry = some h → h.expired = false) →
       let emptied := !(s.rays.any fun q => q.queuedAt k && leatOf q == leatOf r) && mget none s.drains k == some (leatOf r)
       exec (.rayArrival r.id) s = .next { s with
         rays := s.rays.filter (·.id != r.id) ++ [{ r with place := if 2 ^ 25 < leatBytes s k + r.bytes ∨ ∃ q ∈ s.rays, q.place = .pond k ∧ leatOf q = leatOf r then .pond k else .leat k, since := s.cycle, aged := false }]
         drains := if emptied then mput none s.drains k none else s.drains }) ∧
     (∀ h, r.treelet ≠ 0 → heldAt s r.ctx r.entry = some h → h.expired = true → exec (.rayArrival r.id) s = .next (endQueued s 3 r)) ∧
     (exec (.rayMessageLost r.id) s = .next (endQueued { s with hw := { s.hw with dropped := s.hw.dropped + 1 } } 1 r)) ∧
     (∀ c, getCrew s r.crew = some c → r.log = none → ∀ st, getRay (endQueued s st r) r.id = some (stopRay r st none))) ∧
   (∀ (s : State) (stack : Nat), RaysNumbered s →
     let spilled := s.rays.filter fun r => r.place == .pond stack
     let total := (spilled.map (·.bytes)).sum
     spilled ≠ [] → total ≤ 4096 → leatBytes s stack + total ≤ 2 ^ 25 →
     exec (.leatReload stack) s = .next { s with rays := s.rays.map fun r => if r.place = .pond stack then { r with place := .leat stack } else r }) ∧
   (∀ (s : State) (stack : Nat), RaysNumbered s → ∃ u : State, exec (.treeletSchedule stack) s = .next u ∧ u.mem = s.mem ∧ u.rays.map (·.id) = s.rays.map (·.id) ∧
     (s.hw.pipesDue = [] → u = { s with rays := u.rays, drains := u.drains }) ∧
     let Alone := fun w : State => ∀ x ∈ w.rays, ∀ y ∈ w.rays, x.place = .inside stack → y.place = .inside stack → x.pipe = y.pipe → x.id = y.id
     (Alone s → Alone u) ∧
     (∀ r, s.rays.filter (fun r => r.queuedAt stack) = [r] → r.place = .leat stack → (r.treelet = 0 ∨ heldAt s r.ctx r.entry = none) → ctxOff s r.ctx = false →
       freePipes s stack ≠ [] → ∃ r' ∈ u.rays, r'.id = r.id ∧ r'.place = .inside stack ∧ r'.aged = false ∧ r'.pipe ∈ freePipes s stack ∧
         r'.page = if r.treelet = 0 then r.page else partOf (entryRead s r.ctx r.entry) 0 8)) ∧
   (∀ (s : State) (stack : Nat), 
     let due := fun r : Ray => r.queuedAt stack = true ∧ s.bar.leatAge ≤ s.cycle - r.since
     exec (.leatAgeExpiry stack) s = .next { s with rays := s.rays.map fun r => if due r then { r with aged := true } else r }) ∧
   (∀ (s : State) (h : HeldTreelet) (x : Context), RaysNumbered s → s.held.find? (fun y => y.id == h.id && !y.expired) = some h → getCtx s h.ctx = some x → x.holdLimit ≤ s.cycle - h.since →
     ∃ u : State, exec (.holdLimitExpiry h.id) s = .next u ∧ (∀ y ∈ u.held, y.id = h.id → y.expired = true) ∧
       ∀ r ∈ s.rays, waitsIn h.ctx h.entry r = true → (getCrew s r.crew).isSome = true → ∃ r' ∈ u.rays, r'.id = r.id ∧ r'.place = .ended ∧ r'.status = 3)) ∧
  ((∀ (s : State) (is : Issue) (c : Crew) (a : Args) (t : Thread), Issues s is c → active c is a.guard = [t] →
     let e := envOf s is c a.guard
     let scene := rd c t a.a 2
     let n := rd c t a.b 1
     let d := recordNum s c (recordLane e t scene 64) 64
     let Clear := fun (ea len : Nat) => PathClear s c { w := 1, load := true, now := true } [recordLane e t ea len]
     let Answers := fun (i : Instr) (v : Nat) (P : State → Prop) => ∃ u : State, exec i s = .next (retireSome is is.tids u) ∧ P u ∧
       ∃ p ∈ u.loads, p.crew = is.crew ∧ p.tid = t.tid ∧ (p.vdst, p.sdst) = dstWords a.d 1 v
     let All := fun (v : Nat) => Answers (.tlpubHold a) v (fun u => u.mem = s.mem) ∧ Answers (.tlpubStat a) v (fun u => u.mem = s.mem) ∧
       (NoStoresOut s is c a.guard → Answers (.tlpubPub a) v fun u => u.mem = s.mem)
     scene % 64 = 0 → (n = 0 → All 0xFFFFFFFE) ∧
     (∀ sc prec, n ≠ 0 → s.stores = [] → anyPoison s = false → Clear scene 64 → sceneOf d = some (sc, prec) →
       let entry := sc.table + 32 * n
       let v := entryRead s c.ctx entry
       (sc.count ≤ n → All 0xFFFFFFFD) ∧
       (n < sc.count → Clear entry 32 → entryBad (recordNum s c (recordLane e t entry 32) 32) = false → (∀ p ∈ s.pubs, ¬ (p.ctx = c.ctx ∧ p.entry = entry)) →
         (heldAt s c.ctx entry = none → Answers (.tlpubHold a) (partOf v 16 4) (fun u => (∃ h ∈ u.held, h.ctx = c.ctx ∧ h.entry = entry ∧ h.since = s.cycle ∧ h.expired = false) ∧
             u.mem = (putEntry s c.ctx entry 20 1 1).mem) ∧ Answers (.tlpubStat a) (partOf v 16 4 % 2 ^ 31) fun u => u.mem = s.mem) ∧
         ((heldAt s c.ctx entry).isSome = true → Answers (.tlpubHold a) 0xFFFFFFFF (fun u => u.mem = s.mem ∧ u.held = s.held) ∧
             Answers (.tlpubStat a) (partOf v 16 4 % 2 ^ 31 + 2 ^ 31) fun u => u.mem = s.mem) ∧
         (∃ (u : State) (p : PubReq), exec (.tlpubPub a) s = .next (retireSome is is.tids u) ∧ u.mem = s.mem ∧ u.pubs = s.pubs ++ [p] ∧
           p.crew = is.crew ∧ p.tid = t.tid ∧ p.ctx = c.ctx ∧ p.entry = entry ∧ p.old = none ∧ ∀ l ∈ u.lines, l ∈ s.lines ∧ (l.ctx = c.ctx → l.kind ≠ .past 4 ∧ ∀ k, l.kind ≠ .node k))))) ∧
   (∀ (s : State) (is : Issue) (c : Crew) (a : Args), Issues s is c → s.stores = [] → anyPoison s = false →
     let e := envOf s is c a.guard
     let Clear := fun (t : Thread) (ea len : Nat) => PathClear s c { w := 1, load := true, now := true } [recordLane e t ea len]
     (∀ t ∈ e.act, rd c t a.a 2 % 64 = 0 ∧ rd c t a.b 1 ≠ 0 ∧ Clear t (rd c t a.a 2) 64 ∧ ∃ sc prec, sceneOf (recordNum s c (recordLane e t (rd c t a.a 2) 64) 64) = some (sc, prec) ∧
       let entry := sc.table + 32 * rd c t a.b 1
       rd c t a.b 1 < sc.count ∧ Clear t entry 32 ∧ entryBad (recordNum s c (recordLane e t entry 32) 32) = false) →
     let Loads := fun i : Instr => ∃ u : State, exec i s = .next (retireSome is is.tids u) ∧ u.loads.length = s.loads.length + e.act.length
     Loads (.tlpubHold a) ∧ Loads (.tlpubStat a) ∧
     (NoStoresOut s is c a.guard → ∃ u : State, exec (.tlpubPub a) s = .next (retireSome is is.tids u) ∧ u.mem = s.mem ∧ u.pubs.length = s.pubs.length + e.act.length)) ∧
   (∀ (s : State) (p : PubReq), s.pubs = [p] → p.old = none →
     let v := entryRead s p.ctx p.entry
     let put := putEntry (putEntry (putEntry s p.ctx p.entry 0 16 (partOf v 8 8 + 2 ^ 64 * partOf v 0 8)) p.ctx p.entry 16 4 ((partOf v 16 4 + 1) % 2 ^ 32)) p.ctx p.entry 20 1 0
     (heldAt s p.ctx p.entry = none → exec (.publishExchange p.id) s = .next (finishPub s p 0xFFFFFFFF)) ∧
     (∀ h, heldAt s p.ctx p.entry = some h → ∃ u : State, exec (.publishExchange p.id) s = .next u ∧ u.mem = put.mem ∧ (∀ x ∈ u.held, x.id ≠ h.id) ∧
       (s.rays = [] → u.pubs = []) ∧ ((∃ r ∈ s.rays, waitsIn p.ctx p.entry r = false ∧ insidePage p.ctx (partOf v 0 8) r = true) → ∃ q ∈ u.pubs, q.id = p.id ∧ q.old = some (partOf v 0 8)))))

/-- `hgrid`, the `smp` forms, `vis` and `replay` whose checks pass send one request a lane to their pipe (R332, R335, R337, R339, R345, R346). Steps of the pipes: a ray in a pipe becomes what its step makes of it, or ends with FAULT; a candidate on the tailrace reaches its thread's events and an accepted one only its slot's best; a ray whose records have all arrived makes its final event, its number is free and the rays counter falls; a filter, whose thread's status is then 0, a visibility pass and a replay that finish their step leave or go on (R37, R317, R325, R328, R335, R338, R339). Model readings and choices that it rests on: log entries 23, 117, 119, 121, 149. -/
def Obligations.FilterVisibilityAndReplay : Prop :=
  (∀ (s : State) (is : Issue) (c : Crew) (a : Args), Issues s is c →
     let act := active c is a.guard
     let bit := fun t : Thread => match a.c with
       | .none => none
       | o => some (rd c t o 2)
     let arw := fun t : Thread => arwOf c t a.d
     let words := fun (t : Thread) (n : Nat) => (List.range n).map fun i => BitVec.ofNat 32 (rd c t a.a n / 2 ^ (32 * i))
     let filter := fun (op n : Nat) (id : Nat) (t : Thread) => ({
       id := id, crew := is.crew, tid := t.tid, pc := is.pc, hgrid := false, op := op, desc := BitVec.ofNat 64 (rd c t a.b 2), args := words t n, dst := dstPlace a.d, dstAddr := 0, reshade := (bit t).map (BitVec.ofNat 64) } : FilterReq)
     let f64 := bitAt a.m.toNat 5
     ((∀ t ∈ act, rd c t a.b 2 % 64 = 0 ∧ ∀ b, bit t = some b → globalEa s c t.tid (b / 8) = true) →
       PipeSends (.smpLd a) a.guard s is c State.filters (filter 0 4) ∧ PipeSends (.smpPoint a) a.guard s is c State.filters (filter 1 4) ∧
       PipeSends (.smpBilin a) a.guard s is c State.filters (filter 2 4) ∧ PipeSends (.smpTrilin a) a.guard s is c State.filters (filter 3 4) ∧
       PipeSends (.smpAniso a) a.guard s is c State.filters (filter 4 8) ∧
       ((∀ t ∈ act, rd c t a.d 2 % 16 = 0 ∧ ∃ k, steer s c t.tid (BitVec.ofNat 64 (rd c t a.d 2)) 4 = .bank k none ∧ keySpace k = 16384 + c.uid) →
         PipeSends (.hgrid a) a.guard s is c State.filters fun id t => { filter 0 4 id t with hgrid := true, dst := none, dstAddr := BitVec.ofNat 64 (rd c t a.d 2) })) ∧
     ((∀ t ∈ act, rd c t a.a 2 % 128 = 0 ∧ ∀ w, arw t = some w → w % 16 = 0 ∧ arwFail s c t.tid w = none) →
       PipeSends (.vis a) a.guard s is c State.vis fun id t => { id := id, crew := is.crew, tid := t.tid, pc := is.pc, desc := BitVec.ofNat 64 (rd c t a.a 2), arw := (arw t).map (BitVec.ofNat 64), stack := nearStack c }) ∧
     ((∀ t ∈ act, rd c t a.d 2 % 64 = 0 ∧ rd c t a.b 2 % 4096 = 0) →
       PipeSends (.replay a) a.guard s is c State.replays fun id t => { id := id, crew := is.crew, tid := t.tid, pc := is.pc, ray := eightValues f64 (rd c t a.a (if f64 then 16 else 8)), log := BitVec.ofNat 64 (rd c t a.b 2), dst := BitVec.ofNat 64 (rd c t a.d 2), mask := rd c t a.c 1 % 2 ^ 32 })) ∧
  ((∀ (s : State) (r : Ray) (c : Crew) (k : Nat), getRay s r.id = some r → getCrew s r.crew = some c →
     let m : Mover := { req := r.id, crew := c, tid := r.tid }
     (r.place = .inside k → engineHeld s r.id = false → takeFault s r.id = none → engineStopped s c 3 = false →
       (∀ w, rayStep s m r none = .wait w → exec (.nodeVisit r.id) s = .next w) ∧
       (∀ w r', rayStep s m r none = .ok w r' → exec (.nodeVisit r.id) s = .next (settlePipes (updRay w r.id fun _ => r'))) ∧
       (∀ f x fl, rayStep s m r none = .stop f x fl → exec (.nodeVisit r.id) s = .next (settlePipes (abandonRay (keepPoison s fl) m r 2 (some (rayTrap r f x)))))) ∧
     (∀ p w r', r.place = .suspended k → r.decision.isSome = true → pipeFor s k r = some p → ctxOff s r.ctx = false → engineHeld s r.id = false → takeFault s r.id = none →
       engineStopped s c 3 = false → rayStep s m { r with pipe := p } none = .ok w r' → exec (.nodeVisit r.id) s = .next (settlePipes (updRay w r.id fun _ => r'))) ∧
     (∀ y rec rest, getSlot s r.slot = some y → c.where_ = .resident → r.tail = rec :: rest → (c.thread r.tid).any (·.live) = true → ∃ u y', exec (.tailraceRecord r.id) s = .next u ∧
       (∃ r', getRay u r.id = some r' ∧ r' = { r with tail := rest }) ∧ getSlot u y.id = some y' ∧
       (candidateEvent rec.event = true → y' = { y with received := (y.received + 1) % 256, events := y.events ++ [{ rec with ready := s.nextId }] }) ∧
       (candidateEvent rec.event = false → y' = { y with received := (y.received + 1) % 256, best := rec.hit })) ∧
     (∀ y t, getSlot s r.slot = some y → (y.crew, y.tid) = (r.crew, r.tid) → c.where_ = .resident → r.place = .ended → r.tail = [] → y.received = r.sent → c.thread r.tid = some t → t.live = true → ∃ u y' t', exec (.rayEnd r.id) s = .next u ∧
       (∀ q ∈ u.rays, q.id ≠ r.id) ∧ getSlot u y.id = some y' ∧ y' = { y with final := true, events := y.events ++ [{ finalRecord r with ready := s.nextId }] } ∧
       getThread u r.crew r.tid = some t' ∧ t'.cnt.rays = t.cnt.rays - 1 ∧ ∀ n, t'.hold ≠ .hitld n)) ∧
   (∀ (s w : State) (r : FilterReq) (c : Crew), s.filters.find? (·.id == r.id) = some r → getCrew s r.crew = some c → EngineFree s c r.id 4 →
     filterStep s { req := r.id, crew := c, tid := r.tid } r none = .ok w () → exec (.filterRequest r.id) s = .next (filterAs (endFilter w r) r 0)) ∧
   (∀ (s : State) (r : VisReq) (c : Crew), s.vis.find? (·.id == r.id) = some r → getCrew s r.crew = some c → EngineFree s c r.id 3 → (∀ x ∈ s.vis, x.stack = r.stack → r.id ≤ x.id) →
     let m : Mover := { req := r.id, crew := c, tid := r.tid }
     (∀ w v b, r.params = none → visRead s m r none 5 r.desc.toNat 128 = .ok w (v, b) → visBad v = false → exec (.visBinning r.id) s = .next (updVis w { r with params := some v })) ∧
     (∀ v w b, r.params = some v → r.tile = none → r.next < 4 * (visPass v).blocks → visBlock s m r none (visPass v) (r.next / 4) = .ok w b →
       let x := binTiles w (visPass v) b (r.next % 4)
       let room := binsHold x.1 r.stack ((r.binned.map (·.2.length)).foldl (· + ·) 0 + x.2.length)
       let r1 := { r with next := r.next + 1, binned := if x.2.isEmpty then r.binned else r.binned ++ [(r.next, x.2)] }
       (r.binned ≠ [] → room = false → exec (.visBinning r.id) s = .next (visTiles x.1 m r (visPass v) 0)) ∧
       (r.binned = [] ∨ room = true → exec (.visBinning r.id) s = .next (if r1.next < 4 * (visPass v).blocks then updVis x.1 r1 else visTiles x.1 m r1 (visPass v) 0))) ∧
     (∀ v w x t, r.params = some v → r.tile = some t → visTile s m r none (visPass v) t = .ok w x →
       let rest := (visPass v).tiles.drop (t + 1)
       let free := fun t => !(r.binned.any fun b => b.2.contains t)
       (∀ u, rest.find? (fun t => !free t) = some u → exec (.visTileTest r.id) s = .next (updVis w { r with tile := some u })) ∧
       (rest.all free = true → r.next < 4 * (visPass v).blocks → exec (.visTileTest r.id) s = .next (updVis w { r with tile := none, binned := [] })) ∧
       (rest.all free = true → 4 * (visPass v).blocks ≤ r.next → exec (.visTileTest r.id) s = .next (finishVis w m r (visPass v))))) ∧
   (∀ (s w : State) (r : ReplayReq) (c : Crew), s.replays.find? (·.id == r.id) = some r → getCrew s r.crew = some c → EngineFree s c r.id 3 →
     replayStep s { req := r.id, crew := c, tid := r.tid } r none = .ok w () → exec (.replayResult r.id) s = .next (endReplay w r)))

/-- The steps of a tile request whose reads and writes can be reached: a staging load copies one chunk; a k-step adds one exact sum a place to the partial, and clears the tile first where the product does not accumulate; a promotion rounds the scaled partial into the tile and at the last step binds the node to it; a pass keeps the values that the node's kind computes; a store writes one chunk (R92, R93, R244, R251, R257, R259–R264). The ends of tile requests: one whose steps are done leaves the sequencer and its threads wake to find it so; a fault of a step reaches every parked thread with the tile detail; a request set aside runs on when its wait is over; an awaited generation that has passed has the region watched, and one that has not sets the request aside; a freed slot wakes appends; a watch that has reached every die is checked against, and completes its append (R240, R242, R246, R247, R249, R250, R257). Model readings and choices that it rests on: log entries 75, 77, 78, 80, 151, 152. -/
def Obligations.TileSequencer : Prop :=
  (∀ (s s1 s2 s3 : State) (id slot : Nat) (r : TileReq) (m : Mover) (n : Node),
     (∀ src dst xs ys, TileRuns s id (.stage slot) slot s1 r m n → n.rec_ = some src → n.stage = some dst → anyPoison s3 = false →
       let lo := 4096 * n.progress
       openRec s1 m false none src (cutPieces (recPieces src) lo (lo + 4096)) = .ok s2 xs → openRec s2 m true none dst (cutPieces (recPieces dst) lo (lo + 4096)) = .ok s3 ys →
       exec (.stagingLoadChunk id) s = .next (updReq (updNode (markedWrite s3 ys (markedRead s3 xs)) n.core n.slot fun n =>
         { n with progress := n.progress + 1, staged := decide (piecesLen (recPieces src) ≤ lo + 4096) }) m.req fun r => { r with atPoint := true })) ∧
     (∀ x p y q xs ys, TileRuns s id (.kstep slot) slot s1 r m n → productArgs s1 n = some (x, p, y, q) →
       let fi := bitAt n.word.toNat 17
       let kp := r.part.getD (n.progress, List.replicate (n.rows * n.cols) 0)
       let k := kp.1
       let len := min 32 (x.cols - 32 * k)
       readWin s1 m none p { r0 := 0, c0 := 32 * k, rows := x.rows, cols := len } = .ok s2 (xs, none) →
       readWin s2 m none q { r0 := 32 * k, c0 := 0, rows := len, cols := y.cols } = .ok s3 (ys, none) →
       let rows := asRows len x.rows (xs.map (fmtValF fi p.fmt))
       let cols := asCols (.fin false 0 0) y.cols (asRows y.cols len (ys.map (fmtValF fi q.fmt)))
       let sums := rows.flatMap fun a => cols.map fun b => (List.zipWith FV.mul a b).foldl (FV.add .rne) (.fin false 0 0)
       let w := if k = 0 ∧ n.accum = false then updCrew s3 m.crew.uid fun c => putAcc c n.tile n.all 0 (List.replicate (n.rows * n.cols) 0) else s3
       exec (.kStep id) s = .next (updReq w id fun r => { r with part := some (k + 1, List.zipWith (addPartial (bitsOf n.word.toNat 3 0 == 6)) kp.2 sums), atPoint := false })) ∧
     (∀ x p y q k part as bs, TileRuns s id (.promote slot) slot s1 r m n → productArgs s1 n = some (x, p, y, q) → r.part = some (k, part) →
       let scaled := bitsOf n.word.toNat 13 12 == 1
       let one := FV.fin false 1 0
       let A := (List.range n.rows).map fun i => i * ((p.pitch + 127) / 128) + 32 * (k - 1) / 128
       let B := (List.range n.cols).map fun j => 32 * (k - 1) / 128 * ((q.pitch + 127) / 128) + j / 128
       (scaled = true → readScales s1 m none p A = .ok s2 (as, none) ∧ readScales s2 m none q B = .ok s3 (bs, none)) →
       (scaled = false → s3 = s1 ∧ as = List.replicate n.rows one ∧ bs = List.replicate n.cols one) →
       ∀ c, getCrew s3 m.crew.uid = some c →
       let vals := part.map fun z => if bitsOf n.word.toNat 3 0 = 6 then roundTo fp32 (fvInt (signExt z 32)) else fp22.dec z
       let scs := as.flatMap fun a => bs.map fun b => roundTo fp32 (a.mul b)
       let out := List.zipWith (fun (z : Word) (v : FV) => BitVec.ofNat 32 (rne fp32 ((fp32.dec z.toNat).add .rne v))) (accVals c n.tile n.all)
         (List.zipWith (fun v sc => roundTo fp32 (v.mul sc)) vals scs)
       let w := updReq (updCrew s3 m.crew.uid fun c => putAcc c n.tile n.all 0 out) id fun r => { r with part := none, atPoint := true }
       (k ≠ kSteps s3 n → exec (.promotion id) s = .next (updNode w n.core n.slot fun n => { n with progress := k })) ∧
       (k = kSteps s3 n → exec (.promotion id) s = .next (sweepDropped (updNode w n.core n.slot fun n =>
         { n with progress := k, state := .done, owner := none, bind := .tile n.tile, byForce := false }) n.core))) ∧
     (∀ target, TileRuns s id (.pass slot) slot s1 r m n → nodeAt s1 r.core r.node = some target →
       let w := (((demands s1 target r.win).find? (·.1 == n.slot)).map (·.2)).getD r.win
       let Kept := fun (s : State) (x : List Word × List Nat) => updReq s id fun r => { r with values := r.values ++ [{ slot := n.slot, win := w, bits := x.1, raw := x.2 }], atPoint := false }
       (∀ v, n.kind.isDef = true ∨ n.kind = .tmm ∨ n.state = .done → nodeVals s1 m none r n w = .ok s2 (v, none) → exec (.elementwisePass id) s = .next (Kept s2 v)) ∧
       (∀ ops, n.kind.isDef = false → n.kind ≠ .tmm → n.state ≠ .done → gatherOps m none r r.core (operandWins s1 n w) s1 = .ok s2 (ops, none) →
         exec (.elementwisePass id) s = .next (Kept s2 (computeNode s2 n w ops)))) ∧
     (∀ d a b t, TileRuns s id .chunk r.node s1 r m n → (r.goal = .store d a b ∨ r.goal = .scratch d a b) → storeRegion s1 r m n d none = .ok s2 t → exec (.storeChunk id) s = .next t) ∧
     (∀ z v, TileRuns s id .chunk r.node s1 r m n → r.goal = .tile z → r.values.find? (·.slot == n.slot) = some v →
       let w := updCrew s1 r.crew fun c => putAcc c z r.win (1024 * r.chunk) (((v.cut r.win).1.drop (1024 * r.chunk)).take 1024)
       exec (.storeChunk id) s = .next (updNode (updReq w id fun r => { r with chunk := r.chunk + 1, atPoint := true }) n.core n.slot fun n => if n.kind == .tmm then n else { n with progress := r.chunk + 1 }))) ∧
  ((∀ (s : State) (r : TileReq) (c : Crew), s.tileReqs.find? (·.id == r.id) = some r → getCrew s r.crew = some c → c.where_ = .resident →
     let Woken := fun (u : State) (P : Thread → Thread → Prop) => u.mem = s.mem ∧ (∀ q ∈ u.tileReqs, q.id ≠ r.id) ∧ ∀ t, c.thread t.tid = some t → t.hold = .parked (.tile r.id) →
       ∃ t' : Thread, getThread u r.crew t.tid = some t' ∧ t'.hold = .none ∧ t'.pc = t.pc ∧ P t t'
     (r.phase = .running → seqRuns s r = true → nextStep s r = .done → ∃ u : State, exec (.tileRequestComplete r.id) s = .next u ∧ Woken u fun t t' =>
       (r.goal ≠ .implicit → t'.tileDone = some r.id ∧ t'.cnt = t.cnt) ∧ (r.goal = .implicit → t'.tileDone = none ∧ t'.cnt = { t.cnt with tiles := t.cnt.tiles - 1 })) ∧
     (∀ info slot step, r.fault = some (info, slot, step) → ∃ u : State, exec (.tileStepFault r.id) s = .next u ∧ Woken u fun t t' =>
       t'.cnt = { t.cnt with tiles := t.cnt.tiles - 1 } ∧ ∃ f, t'.wakeTrap = some f ∧ f.code = info.code ∧ f.sub = info.sub ∧ f.kind2 = 1 ∧ f.tids = r.tids)) ∧
   (∀ (s : State) (r : TileReq), s.tileReqs.find? (fun q => q.id == r.id && q.phase == .aside) = some r → waitOver s r = true → seqRuns s r = true →
     exec (.requestResume r.id) s = .next (updReq s r.id fun r => { r with phase := .running })) ∧
   (∀ (s : State) (r : TileReq) (c : Crew) (n : Node) (slot k : Nat), s.tileReqs.find? (·.id == r.id) = some r → nextStep s { r with phase := .running } = .wait slot → nodeAt s r.core slot = some n →
     getCrew s r.crew = some c → c.where_ = .resident → (r.phase = .running ∨ r.phase = .aside) → arrivalKey s { req := r.id, crew := c, tid := leastOr 0 r.tids } n.addr = .ok k →
     (BitVec.ofNat 32 (memRead s.mem (k + 8) 4) ≠ n.word → exec (.tdefWaitObserve r.id) s = .next (updReq (updNode s n.core slot fun n => { n with staged := true, watching := true }) r.id fun r => { r with phase := .running })) ∧
     (BitVec.ofNat 32 (memRead s.mem (k + 8) 4) = n.word → r.phase = .running → exec (.tdefWaitObserve r.id) s = .next (updReq s r.id fun r => { r with phase := .aside, since := s.cycle }))) ∧
   (∀ (s : State) (core slot : Nat), (∃ u : State, exec (.thunkSlotFreed core) s = .next u ∧ u = { s with crews := u.crews } ∧
       ∀ c t n w, getCrew s c.uid = some c → c.coreId = core → c.where_ = .resident → c.thread t.tid = some t → t.hold = .append n w → (openSlot s c w).isSome = true → getThread u c.uid t.tid = some { t with hold := .none }) ∧
     (∃ u : State, exec (.watchReached core slot) s = .next u ∧ u = { s with crews := u.crews, nodes := u.nodes } ∧
       (∀ n, nodeAt s core slot = some n → n.watchDue = true → nodeAt u core slot = some { n with watchDue := false, watching := true }) ∧
       ∀ c t, getCrew s c.uid = some c → c.coreId = core → c.where_ = .resident → c.thread t.tid = some t → t.live = true → t.hold = .watch slot → ∃ t' : Thread, getThread u c.uid t.tid = some t' ∧ t'.pc = t.pc + 8 ∧ t'.hold ≠ .watch slot)))

/-- The watched waits: a wait that has lasted its limit takes STALL for the threads that share it and names what they wait at; a meet that has lasted MEET_LIMIT is released alone; a group whose age has reached AGE_LIMIT keeps at least that age (R108, R114, R116, R225, R229, R247, R252, R289, R342, R408). Model readings and choices that it rests on: log entries 40, 141, 153. -/
def Obligations.WatchedWaits : Prop :=
  (∀ (s : State) (c : Crew) (t : Thread) (n : Nat), countingCrew s c.uid = some c → c.thread t.tid = some t → t.live = true → stallLimitOf s c ≤ c.counted - n →
    (∀ k g ea, t.hold = .arw k g n ea → Stalls (.arwWaitStall c.uid t.tid) s c.uid (· = t.tid) 17) ∧
    (∀ i, t.hold = .wait i n → Stalls (.waitStall c.uid t.tid) s c.uid (· = t.tid) 22) ∧
    (∀ q d, t.hold = .ring q n d → Stalls (.ringStall c.uid t.tid) s c.uid (· = t.tid) 18) ∧
    (t.hold = .hitld n → Stalls (.hitldStall c.uid t.tid) s c.uid (· = t.tid) 21) ∧
    (∀ z g, t.hold = .tacq z g n → Stalls (.tacqStall c.uid t.tid) s c.uid (· = t.tid) 19) ∧
    (∀ w, t.hold = .append n w → Stalls (.thunkAppendStall c.uid t.tid) s c.uid (· = t.tid) 20)) ∧
  (∀ (s : State) (c : Crew) (b : Nat), countingCrew s c.uid = some c → (∃ t ∈ c.threads, waitsAt b (barrierOf c b).phase t = true) → stallLimitOf s c ≤ (barrierOf c b).stall →
    Stalls (.barrierStall c.uid b) s c.uid (fun i => ∃ t ∈ c.threads, t.tid = i ∧ waitsAt b (barrierOf c b).phase t = true) b) ∧
  (∀ (s : State) (c : Crew) (g : Nat), countingCrew s c.uid = some c → (∃ t ∈ c.threads, t.live = true ∧ c.hgang t.tid = g ∧ t.hold = .regang) → stallLimitOf s c ≤ mget 0 c.regangStall g →
    Stalls (.regangStall c.uid g) s c.uid (fun i => ∃ t ∈ c.threads, t.tid = i ∧ t.live = true ∧ c.hgang t.tid = g ∧ t.hold = .regang) 16) ∧
  (∀ (s : State) (c : Crew) (x : Context) (t : Thread) (n : Nat), countingCrew s c.uid = some c → c.thread t.tid = some t → getCtx s c.ctx = some x → t.hold = .meet n → x.meetLimit ≤ c.vclk.toNat - n →
    ∃ ids, exec (.meetTimeout c.uid t.tid) s = .next (updCrew s c.uid fun c => releaseMeet c ids) ∧ t.tid ∈ ids ∧
      ∀ i ∈ ids, ∃ u ∈ c.threads, u.tid = i ∧ heldAtMeet u = true ∧ c.hgang u.tid = c.hgang t.tid ∧ u.meet = t.meet) ∧
  (∀ (s : State) (c : Crew) (t : Thread), getCrew s c.uid = some c → c.thread t.tid = some t → ageLimitOf s c.ctx ≤ t.age → t.hold = .none →
    ∃ f : Thread → Thread, exec (.ageLimitReached c.uid t.tid) s = .next (updCrew s c.uid (·.mapT f)) ∧ (∀ u, f u = { u with age := (f u).age } ∧ u.age ≤ (f u).age) ∧
      ∀ u ∈ c.threads, u.live = true → (t.bound = none ∧ u.bound = none ∧ u.queue = t.queue ∧ u.pc = t.pc ∧ u.hold = .none ∨ t.bound.isSome = true ∧ u.bound = t.bound) → t.age ≤ (f u).age)

/-- A walk that has a walker and ends at a leaf fills the caches and wakes the lanes parked on it; it waits while a read of its own must (R167, R168); at a busy leaf it waits for the entry to be rewritten; at an invalid entry that somebody needs it sends a fault request where its context has them sent; at a malformed one its lanes meet PAGE; the host's reply makes them walk again, or meet PAGE UNMAPPED; an invalidation stands until the context's stores are home, and then no copy that it names is left (R162, R163, R167, R168). Model readings and choices that it rests on: log entries 51, 72, 161. -/
def Obligations.TranslationEvents : Prop :=
  (∀ (s : State) (w : Walk), s.walks.find? (fun x => x.id == w.id && !x.faulted) = some w →
    let s0 := { s with walks := s.walks.filter (·.id != w.id) }
    let ts := parkedOn s (onWalk w.id)
    let Marked := fun (u : State) (f : Walk → Walk) => { u with walks := s.walks.map fun x => if x.id = w.id then f x else x }
    (walkWaits s w.ctx w.va = true ∨ walkShut s w.ctx w.va = true ∨ w.busy = false ∧ hasWalker s w = false → exec (.walkComplete w.id) s = .next s) ∧
    (walkWaits s w.ctx w.va = false → walkShut s w.ctx w.va = false → w.busy = true ∨ hasWalker s w = true →
      (∀ l log2 k, walkTree s w.ctx w.va = .leaf l log2 k → l.compressed = false →
        (l.busy = false → exec (.walkComplete w.id) s = .next (wakeParked (fillTlb (actPrefs s0 w
          { ctx := w.ctx, die := w.die, core := none, va := w.va / 2 ^ log2 * 2 ^ log2, log2 := log2, leaf := l } k) w.ctx w.die w.core w.va l log2) ts 1 none)) ∧
        (l.busy = true → exec (.walkComplete w.id) s = .next (Marked s fun x => { x with busy := true }))) ∧
      (walkTree s w.ctx w.va = .malformed → exec (.walkComplete w.id) s = .next (wakeParked (dropPrefs s0 w) ts 2 (some (pageTrap 3)))) ∧
      (walkTree s w.ctx w.va = .invalid →
        (ts = [] → w.engines = [] → exec (.walkComplete w.id) s = .next (dropPrefs s0 w)) ∧
        (ts ≠ [] ∨ w.engines ≠ [] → exec (.walkComplete w.id) s = .next { Marked (dropPrefs s w) fun x => { x with faulted := true, busy := false, prefs := [] } with
          outbox := s.outbox ++ [(1, [w.ctx, w.va, faultRoute s w.ctx])] })))) ∧
  (∀ (s : State) (w : Walk), s.walks.find? (fun x => x.id == w.id && x.faulted) = some w →
    let s0 := { s with walks := s.walks.filter (·.id != w.id) }
    exec (.faultReplyResolved w.id) s = .next (wakeParked s0 (parkedOn s (onWalk w.id)) 1 none) ∧
    exec (.faultReplyUnresolvable w.id) s = .next (wakeParked { s0 with demandFaults := s.demandFaults ++ w.engines.map fun id => (id, { pageTrap 2 with addr := BitVec.ofNat 64 w.va }) } (parkedOn s (onWalk w.id)) 2 (some (pageTrap 2)))) ∧
  (∀ (s : State) (ts : List (Crew × Thread)) (kind : Nat) (f : Option TrapInfo) (c : Crew) (t : Thread), (∀ x ∈ ts, x.1.where_ = .resident) → (c, t) ∈ ts → getThread s c.uid t.tid = some t →
    ∃ t' : Thread, getThread (wakeParked s ts kind f) c.uid t.tid = some t' ∧ t'.hold = .none ∧ t'.pc = t.pc ∧ t'.wakeTrap.map (fun g => (g.code, g.sub)) = f.map fun g => (g.code, g.sub)) ∧
  (∀ (s : State) (ctx : Nat) (v : Word64), exec (.xltInv ctx v) s = .next (if xltInvOk v then updCtx s ctx fun c => { c with xltInv := c.xltInv ++ [v] } else s)) ∧
  (∀ (s : State) (x : Context), getCtx s x.id = some x → x.xltInv ≠ [] → storesFlying s x.id = false → ∃ u : State, exec (.xltInvDone x.id) s = .next u ∧ (∀ y, getCtx u x.id = some y → y = { x with xltInv := [] }) ∧
    u.mem = s.mem ∧ (∀ e ∈ u.tlb, e ∈ s.tlb ∧ ¬ (e.ctx = x.id ∧ ∃ v ∈ x.xltInv, invNames v e = true)))

/-- A page asked to move takes a frame of the asked die, its lines are copied in order with no byte lost; after the last its leaves are made busy and the cached translations go, and once no store is on its way to the old frames the leaf names the new frame (R163, R164, R179). A change of the bin floor is asked for by the host and, once the transfers in flight are complete, is in force: the megabytes given up read as zero every other byte reads as before, and no line of the ways taken stays pinned (R168); that a value above 8 is ignored, its reserved bits among them, is the model's choice. Model readings and choices that it rests on: log entries 52, 53, 144, 146. -/
def Obligations.MigrationAndBinFloor : Prop :=
  (∀ (s : State) (ctx va frame die piece : Nat) (olds : List Nat), va % 2 ^ 21 = 0 → (∀ m ∈ s.migs, ¬ (m.ctx = ctx ∧ m.va = va)) → askedDie s ctx va = some die →
    (movable s ctx va die = true → frame % 2 ^ 21 = 0 → frame < 2 ^ 40 → bitsOf frame 39 38 = die → pageFrames s ctx va = some (olds, piece) → olds.all (frameEgressOk s piece) = true →
      exec (.migrationStart ctx va frame) s = .next { s with
        migs := s.migs ++ [{ id := s.nextId, ctx := ctx, va := va, olds := olds, piece := piece, newKey := hbmKey frame }], nextId := s.nextId + 1 }) ∧
    (movable s ctx va die = false → exec (.migrationStart ctx va frame) s = .next (pageSettled s ctx va))) ∧
  (∀ (s : State) (m : Migration), s.migs.find? (·.id == m.id) = some m →
    let old := m.oldLine m.line
    let new := m.newKey + 64 * m.line
    (m.line < 32768 → ∃ u : State, exec (.migrationLineCopy m.id) s = .next u ∧ u.migs = s.migs.map (fun x => if x.id = m.id then { x with line := m.line + 1 } else x) ∧
      (∀ i < 64, memByte u.mem (new + i) = homeByte s (old + i)) ∧ ∀ j, j < new ∨ new + 64 ≤ j → memByte u.mem j = memByte s.mem j) ∧
    (32768 ≤ m.line → inPlace s m = true →
      (m.shut = false → exec (.migrationLineCopy m.id) s = .next (shutPage s m) ∧ (∀ x ∈ (shutPage s m).migs, x.id = m.id → x.shut = true) ∧
        ∀ e ∈ (shutPage s m).tlb, e ∈ s.tlb ∧ ¬ (e.ctx = m.ctx ∧ e.va < m.va + 2 ^ 21 ∧ m.va < e.va + 2 ^ e.log2)) ∧
      (m.shut = true → flyingTo s m = true → exec (.migrationLineCopy m.id) s = .next s) ∧
      (m.shut = true → flyingTo s m = false → exec (.migrationLineCopy m.id) s = .next (switchPage s m) ∧ (∀ x ∈ (switchPage s m).migs, x.id ≠ m.id) ∧
        ∀ k x ls, level1Key s m.ctx m.va = some k → pageLeaves s m.ctx m.va = some (x :: ls) →
          (switchPage s m).mem = (homeWriteN { s with migs := s.migs.filter (·.id != m.id) } k 8 (movedEntry x.1 (keyOff m.newKey))).mem)) ∧
    (32768 ≤ m.line → inPlace s m = false → ∃ u : State, exec (.migrationLineCopy m.id) s = .next u ∧ u.mem = s.mem ∧ ∀ x ∈ u.migs, x.id ≠ m.id)) ∧
  (∀ (s : State) (core : Nat) (v : Word), core < 1024 → (v.toNat ≤ 8 → exec (.bfpScrWrite core v) s = .next (updCore s core fun k => { k with change := k.change ++ [{ mb := v.toNat, mark := s.nextId, who := none }] })) ∧
    (8 < v.toNat → exec (.bfpScrWrite core v) s = .next s)) ∧
  (∀ (s : State) (core : Nat) (ch : BfpChange) (rest : List BfpChange), (coreOf s core).change = ch :: rest → (binTransfers s core ch.mark = true → exec (.bfpChangeComplete core) s = .next s) ∧
    (binTransfers s core ch.mark = false → ∃ u : State, exec (.bfpChangeComplete core) s = .next u ∧
    (coreOf u core).mb = ch.mb ∧ (coreOf u core).change = rest ∧ (∀ j, (ch.mb < (coreOf s core).mb ∧ binKey core (ch.mb * 2 ^ 20) ≤ j ∧ j < binKey core (2 ^ 24)) → memByte u.mem j = 0) ∧
    (∀ j, ¬ (ch.mb < (coreOf s core).mb ∧ binKey core (ch.mb * 2 ^ 20) ≤ j ∧ j < binKey core (2 ^ 24)) → memByte u.mem j = memByte s.mem j) ∧
    ∀ l ∈ u.pinned, l ∈ s.pinned ∧ ((coreOf s core).mb < ch.mb → inTaken s core l = false)))

/-- What follows a trap: twelve cycles on every gang has stopped where SKID says, and a generator is gone while any other crew is saved once nothing of its own moves; a saved crew is off its core with its registers and PCs, its image lies in the save area, registers behind the header, and no other byte of memory changes; its record is written, once the crew's stores are acknowledged and what the device has accepted of them is performed, to the next entry of the ring when that entry is closed, and a handler is due; where the context has none or a handler trapped, the run is aborted, whether or not that entry is closed, and a record that was written is closed with it (R190, R352, R354, R356, R358, R368). A posted record starts a handler where a core of the die has room: a privileged crew of 32 threads at TRAPPC, told of the record by its uniform registers; the trapped crew and memory are as they were (R356). Model readings and choices that it rests on: log entries 29, 31, 34, 35, 36, 158. -/
def Obligations.TrapsReachHandlers : Prop :=
  ((∀ (s : State) (c : Crew) (h : Halt), getCrew s c.uid = some c → c.halt = some h → h.phase = .skid →
     (s.cycle < h.since + 12 → exec (.skidEnd c.uid) s = .next s) ∧
     (h.since + 12 ≤ s.cycle →
       ((∀ r b d q, c.kind ≠ .gen r b d q) → ∃ (u : State) (c' : Crew), exec (.skidEnd c.uid) s = .next u ∧ u = { s with crews := u.crews } ∧ getCrew u c.uid = some c' ∧
         c' = { c with halt := some { h with phase := .saving }, stops := c'.stops } ∧ ∀ g < 32, c'.stops[g]? = some (skidEntry c h.skid g)) ∧
       (∀ r b d q, c.kind = .gen r b d q → ∃ u : State, exec (.skidEnd c.uid) s = .next u ∧ ∀ k ∈ u.crews, k.uid ≠ c.uid))) ∧
   (∀ (s : State) (c : Crew) (h : Halt), getCrew s c.uid = some c → c.halt = some h → h.phase = .saving →
     (crewStill s c = false → exec (.crewSaveComplete c.uid) s = .next s) ∧
     (crewStill s c = true → ∃ (u : State) (c' : Crew), exec (.crewSaveComplete c.uid) s = .next u ∧ u.mem = (saveImage s c).mem ∧ getCrew u c.uid = some c' ∧ c'.where_ = .away ∧ c'.halt = some { h with phase := .toPost } ∧
       c'.s = c.s ∧ c'.threads.map (·.v) = c.threads.map (·.v) ∧ c'.threads.map (·.p) = c.threads.map (·.p) ∧ c'.threads.map (·.pc) = c.threads.map (·.pc))) ∧
   (∀ (s : State) (c : Crew) (k : Nat),
     ((∀ w ∈ imageWrites s c, place s w.1 ≠ k) → memByte (saveImage s c).mem k = memByte s.mem k) ∧
     ∀ t ts r, c.threads = t :: ts → r < c.budget (c.hgang t.tid) → ((crewImage s c).drop (8192 + 64 + 4 * r)).take 4 = wordLe (mget 0 t.v r)) ∧
   (∀ (s : State) (c : Crew) (h : Halt) (x : Context), getCrew s c.uid = some c → c.halt = some h → h.phase = .toPost → getCtx s c.ctx = some x → ctxOff s c.ctx = false →
     let i := x.trapNext % max 1 x.trapSlots
     let va := x.trapRing + 512 * i
     let n := (x.trapCnt + 1).toNat
     let bs := fieldBytes 512 (trapRecord c h n)
     let s0 := passStores s 2 c.uid (c.threads.map (·.tid))
     let Gives := fun u : State => exec (.trapRecordPost c.uid) s = .next u
     let Aborts := fun u : State => Gives (abortOf u c { h with seq := n })
     ((∃ p ∈ s.stores, p.crew = c.uid ∧ p.holds s 2 = true) ∨ devHeld s x.id va 512 = true ∨ abortHeld s c = true → Gives s) ∧
     ((∀ p ∈ s.stores, p.crew = c.uid → p.holds s 2 = false) → devHeld s x.id va 512 = false → abortHeld s c = false →
       (devNum s0 x.id (va + 6) 1 = none → Aborts s0) ∧
       (devNum s0 x.id (va + 6) 1 = some 1 → (x.trapPc ≠ 0 → c.isHandler = false → Gives s) ∧ (x.trapPc = 0 ∨ c.isHandler = true → Aborts s0)) ∧
       (∀ v, devNum s0 x.id (va + 6) 1 = some v → v ≠ 1 → (devWrite s0 x.id va bs = none → Aborts s0) ∧
         ∀ s1, devWrite s0 x.id va bs = some s1 →
           let next := updCtx s1 x.id fun y => { y with trapCnt := y.trapCnt + 1, trapNext := (i + 1) % max 1 y.trapSlots }
           (x.trapPc ≠ 0 → c.isHandler = false → Gives (updCrew next c.uid fun c => { c with halt := c.halt.map fun h => { h with phase := .posted i true, seq := n } })) ∧
           (x.trapPc = 0 ∨ c.isHandler = true → Aborts (closeRecord next x i))))) ∧
   (∀ (c : Crew) (h : Halt) (n : Nat),
     let bs := fieldBytes 512 (trapRecord c h n)
     let num := fun off len => bytesVal ((bs.drop off).take len)
     bs.length = 512 ∧ num 0 2 = h.trap.code % 2 ^ 16 ∧ num 2 2 = h.trap.sub % 2 ^ 16 ∧ num 6 1 = 1 ∧ num 8 8 = h.pc.toNat ∧ num 16 4 = c.num.toNat ∧ num 22 2 = c.coreId % 2 ^ 16 ∧
       num 24 8 = h.trap.lanes % 2 ^ 64 ∧ num 40 8 = h.vclk.toNat ∧ num 48 8 = h.trap.addr.toNat ∧ num 56 8 = n % 2 ^ 64 ∧
       ∀ g < 32, num (256 + 8 * g) 8 = c.stops.getD g 0 % 2 ^ 64)) ∧
  (∀ (s : State) (c : Crew) (h : Halt) (x : Context) (rec_ : Nat), getCrew s c.uid = some c → c.halt = some h → h.phase = .posted rec_ true → getCtx s c.ctx = some x → ctxOff s c.ctx = false →
     (handlerCore s c = none → exec (.handlerStart c.uid) s = .next s) ∧
     (∀ core, handlerCore s c = some core → ∃ (u : State) (k : Crew), exec (.handlerStart c.uid) s = .next u ∧ u.mem = s.mem ∧
       u.crews = (s.crews.map fun q => if q.uid = c.uid then { q with halt := q.halt.map fun h => { h with phase := .posted rec_ false } } else q) ++ [k] ∧
       k.uid = s.nextId ∧ k.kind = .handler rec_ h.seq ∧ k.ctx = c.ctx ∧ k.run = c.run ∧ k.priv = true ∧ k.num = 0xFFFFFFFE#32 ∧ k.where_ = .resident ∧ k.coreId = core ∧
       k.threads.length = 32 ∧ (∀ t ∈ k.threads, t.pc = x.trapPc ∧ t.live = true) ∧
       mget 0 k.s 0 = BitVec.ofNat 32 (recordVa x rec_) ∧ mget 0 k.s 1 = BitVec.ofNat 32 (recordVa x rec_ / 2 ^ 32) ∧ mget 0 k.s 2 = BitVec.ofNat 32 rec_ ∧ mget 0 k.s 3 = c.num))

/-- The dispositions: a crew resumed stands on a core with every PC as saved, its registers those of its image where one was written; resumed past, its trapping threads stand a word on; killed, its live threads exit; aborted, its run ends with every crew of it and the host gets the trap record. A crew with no core to stand on waits, and so does an abort whose writes must (R167, R168, R357, R358). Model readings and choices that it rests on: log entries 26, 35, 37, 158. -/
def Obligations.Dispositions : Prop :=
  (∀ (s : State) (c : Crew) (h : Halt) (rec_ : Nat), getCrew s c.uid = some c → c.halt = some h →
    let Back := fun (u : State) (past : Bool) => (c.image = none → (∀ w ∈ s.waiters, w.due = false) → u.mem = s.mem) ∧ ∃ c' : Crew, getCrew u c.uid = some c' ∧ c'.where_ = .resident ∧ c'.halt = none ∧ c'.s = c.s ∧
      ∀ t, c.thread t.tid = some t → ∃ t' : Thread, c'.thread t.tid = some t' ∧ (c.image = none → t'.v = t.v) ∧ t'.p = t.p ∧ t'.live = t.live ∧
        t'.pc = if past = true ∧ h.trap.exited = false ∧ h.trap.tids.contains t.tid = true then t.pc + 8 else t.pc
    (∀ core, ctxOff s c.ctx = false → restoreCore s c = some core →
      (h.phase = .disposed rec_ 0 → ∃ u : State, exec (.crewCtlResume c.uid) s = .next u ∧ Back u false) ∧
      (h.phase = .disposed rec_ 1 → ∃ u : State, exec (.crewCtlResumePast c.uid) s = .next u ∧ Back u true)) ∧
    (restoreCore s c = none → exec (.crewCtlResume c.uid) s = .next s ∧ exec (.crewCtlResumePast c.uid) s = .next s) ∧
    (h.phase = .disposed rec_ 2 → exec (.crewCtlKill c.uid) s = .next (exitThreads (updCrew s c.uid fun c => { c with halt := none, timer := none, timerDue := none }) c.uid
      ((c.threads.filter (·.live)).map (·.tid)))) ∧
    (h.phase = .disposed rec_ 3 → exec (.crewCtlAbort c.uid) s = .next (if abortHeld s c then s else abortOf s c h) ∧ ∀ r, c.run = some r → abortOf s c h = abortRun s r (bytesVal (fieldBytes 512 (trapRecord c h h.seq))))) ∧
  (∀ (s : State) (r : Run) (record : Nat), getRun s r.id = some r → r.state ≠ .complete → r.state ≠ .aborted →
    let u := abortRun s r.id record
    (3, [r.id, record]) ∈ u.outbox ∧ (∀ k ∈ u.crews, k.run ≠ some r.id) ∧ (∀ x ∈ u.ready, x.run ≠ r.id) ∧ ∃ r', getRun u r.id = some r' ∧ r'.state = .aborted)

/-- The context switch: a request starts a collector on every die, unless the save area is too small, and a crew that pre-emption has already taken off its core counts as switched out; a die's skid over, its collector drains; each engine at its stop point sets its bit, and the seventh bit starts the save; the save, once those crews are still, takes them off their cores, with images of the crews and of bin scratch in the save area, and the last one puts the context out (R366–R368). A context is restored whole or not at all: its descriptor is read again, its bin scratch is read back, every crew that the switch took finds a core, and the context is in again; while a read that it makes must wait, so does it. A restore reads the images: registers and bin scratch take the bytes that the save area holds (R167, R168, R349, R350, R353, R367). Model readings and choices that it rests on: log entries 30, 35, 37. -/
def Obligations.ContextSwitches : Prop :=
  ((∀ (s : State) (x : Context), getCtx s x.id = some x →
     (ctxOff s x.id = true → exec (.contextSwitchRequest x.id) s = .next s) ∧
     (ctxOff s x.id = false → x.saveSize < switchNeed s x.id → exec (.contextSwitchRequest x.id) s = .next { s with outbox := s.outbox ++ [(5, [x.id])] }) ∧
     (ctxOff s x.id = false → switchNeed s x.id ≤ x.saveSize → ∃ u : State, exec (.contextSwitchRequest x.id) s = .next u ∧ ctxOff u x.id = true ∧ u.mem = s.mem ∧
       (u.collectors = s.collectors ++ [0, 1, 2, 3].map fun d => { ctx := x.id, die := d, phase := .halting, since := s.cycle }) ∧
       ∀ c, getCrew s c.uid = some c → c.ctx = x.id → ∃ c', getCrew u c.uid = some c' ∧ c'.taking = none ∧
         (c'.switched = true ↔ c.switched = true ∨ c.taking.isSome = true ∧ c.where_ = .away))) ∧
   (∀ (s : State) (k : Collector), collectorIn s k.ctx k.die .halting = some k → k.since + 12 ≤ s.cycle →
     (∀ c ∈ s.crews, c.ctx = k.ctx → c.die = k.die → ∀ h, c.halt = some h → h.phase ≠ .skid) →
     exec (.collectorSkidDone k.ctx k.die) s = .next (updCollector s k.ctx k.die fun k => { k with phase := .draining, bits := [0] })) ∧
   (∀ (s : State) (k : Collector) (engine : Nat), collectorIn s k.ctx k.die .draining = some k → 1 ≤ engine → engine ≤ 6 → engine ∉ k.bits →
     (atStop s k.ctx k.die engine = false → exec (.engineStopPoint k.ctx k.die engine) s = .next s) ∧
     (atStop s k.ctx k.die engine = true → exec (.engineStopPoint k.ctx k.die engine) s = .next (updCollector s k.ctx k.die fun k =>
       { k with bits := k.bits ++ [engine], phase := if k.bits.length = 6 then .saving else .draining }))) ∧
   (∀ (s : State) (k : Collector) (x : Context), collectorIn s k.ctx k.die .saving = some k → getCtx s k.ctx = some x →
     ((switchCrews s k.ctx k.die).all (crewStill s) = false → exec (.saveDone k.ctx k.die) s = .next s) ∧
     ((switchCrews s k.ctx k.die).all (crewStill s) = true → ∃ u : State, exec (.saveDone k.ctx k.die) s = .next u ∧ u.mem = (saveDie s k.ctx k.die).mem ∧ (∀ c ∈ u.crews, c.ctx = k.ctx → c.die = k.die → c.where_ ≠ .resident) ∧
       ((∀ q ∈ s.collectors, q.ctx = k.ctx → q.die = k.die ∨ q.phase = .done) → (∃ y, getCtx u k.ctx = some y ∧ y.out = true) ∧ ∀ q ∈ u.collectors, q.ctx ≠ k.ctx)))) ∧
  ((∀ (s s1 s2 s3 : State) (x y : Context), getCtx s x.id = some x → s1 = rereadDescriptor s x.id → getCtx s1 x.id = some y →
     s2 = x.bins.foldl (fun s b => binBack s x.id b) s1 →
     let mine := s2.crews.filter fun c => c.ctx == x.id && c.switched
     let rest := mine.filter (·.nested.isEmpty)
     s3 = (mine.filter fun c => !c.nested.isEmpty).foldl deliverNested s2 →
     let placed := placeAll s3 (rest.filter sameCoreOnly ++ rest.filter fun c => !sameCoreOnly c)
     (x.out = false → exec (.contextRestore x.id) s = .next s) ∧
     let waits := devHeld s x.id x.desc 256 = true ∨ ∃ r ∈ imageRuns s x, devHeld s x.id r.1 r.2 = true
     (waits → exec (.contextRestore x.id) s = .next s) ∧
     (¬ waits → x.out = true → y.malformed = true → exec (.contextRestore x.id) s = .next (stopQueues s1 x.id)) ∧
     (¬ waits → x.out = true → y.malformed = false → placed = none → exec (.contextRestore x.id) s = .next s) ∧
     (∀ u, ¬ waits → x.out = true → y.malformed = false → placed = some u → exec (.contextRestore x.id) s = .next (updCtx u x.id fun x => { x with out := false, bins := [] }))) ∧
   (∀ (s u : State) (cs : List Crew), placeAll s cs = some u → ∀ c ∈ cs, ∀ k ∈ u.crews, k.uid = c.uid → k.where_ = .resident ∧ k.switched = false) ∧
   (∀ (s : State) (ctx core base n o : Nat) (v : Byte), o < n → (savedBytes s ctx base n)[o]? = some (some v) → memByte (binBack s ctx (core, base, n)).mem (binKey core o) = v) ∧
   (∀ (s : State) (c c' : Crew) (base r : Nat) (t : Thread) (ts : List Thread) (bs : List Byte), getCrew s c.uid = some c → c.image = some (base, crewImage s c) → c.threads = t :: ts →
     r < c.budget (c.hgang t.tid) → ((savedBytes s c.ctx base (crewImage s c).length).drop (8192 + 64 + 4 * r)).take 4 = bs.map some → bs.length = 4 → getCrew (imageBack s c) c.uid = some c' →
     ∃ t', c'.threads.head? = some t' ∧ t' = { t with v := t'.v } ∧ mget 0 t'.v r = BitVec.ofNat 32 (bytesVal bs)))

/-- The commands of a mapped queue: a bad one or one that cannot be read stops the queue with code 16 or 18; NOP completes; WAIT completes once Mem64[ADDR] is at least VALUE; SIGNAL writes VALUE once every earlier command is complete; LAUNCH admits a run whose record passes its checks, and otherwise stops the queue with the check's code; a BARRIER command waits for every earlier one, and one whose access must wait is taken later (R167, R168, R277–R281). A command taken advances HEAD by one, modulo 2^32, and leaves TAIL and the mapping; an error sets ERROR in the report that leaves the device. A launch record that passes its checks is within every limit of R278. Doorbells and the walker: NOTIFY sets the slot's TAIL of a mapped queue and the block's DOORBELL of any other; the switch to MAPPED takes HEAD and TAIL from the block, TAIL from DOORBELL where its PEND is 1; an unmapped queue's HEAD and TAIL are written back; a mapped queue idle for 2^16 cycles may be unmapped; a walker pass counts itself; its visit maps an UNMAPPED queue with work, reads the descriptor that the block names when the context is first mapped, and sets ERROR at a block or a descriptor that breaks its layout, 20 for the latter; where an access to the block must wait, so does the queue (R167, R168, R282–R284, R349, R350). Model readings and choices that it rests on: log entries 92, 147, 164, 165. -/
def Obligations.HostQueues : Prop :=
  (∀ (s : State) (x : HostQueue) (q : Nat),
     (nextCommand s q = some (x, none) → exec (.hostCmdNop q) s = .next (setQError s x 18)) ∧
     (∀ v, nextCommand s q = some (x, some v) → commandBad v = true →
       let err := Host.Outcome.next (setQError s x 16)
       (bitsOf v 7 0 = 0 ∨ 4 ≤ bitsOf v 7 0 → exec (.hostCmdNop q) s = err) ∧ (bitsOf v 7 0 = 1 → exec (.hostCmdLaunch q) s = err) ∧
       (bitsOf v 7 0 = 2 → exec (.hostCmdWait q) s = err) ∧ (bitsOf v 7 0 = 3 → exec (.hostCmdSignal q) s = err)) ∧
     (∀ v, nextCommand s q = some (x, some v) → commandBad v = false → (bitAt v 8 = true → x.started = []) →
       let addr := bitsOf v 127 64
       let value := bitsOf v 191 128
       (bitsOf v 7 0 = 0 → exec (.hostCmdNop q) s = .next (takeCommand s x true)) ∧
       (bitsOf v 7 0 = 2 → devHeld s x.ctx addr 8 = true → exec (.hostCmdWait q) s = .next s) ∧ (bitsOf v 7 0 = 3 → devHeld s x.ctx addr 8 true = true → exec (.hostCmdSignal q) s = .next s) ∧
       (bitsOf v 7 0 = 1 → devHeld s x.ctx addr 256 = true → exec (.hostCmdLaunch q) s = .next s) ∧
       (bitsOf v 7 0 = 2 → devHeld s x.ctx addr 8 = false → (devNum s x.ctx addr 8 = none → exec (.hostCmdWait q) s = .next (setQError s x 18)) ∧
         ∀ m, devNum s x.ctx addr 8 = some m → exec (.hostCmdWait q) s = .next (if value ≤ m then takeCommand s x true else s)) ∧
       (bitsOf v 7 0 = 3 → devHeld s x.ctx addr 8 true = false → (x.started ≠ [] → exec (.hostCmdSignal q) s = .next s) ∧
         (x.started = [] → ∀ ks, devKeys s x.ctx addr 8 true = some ks → (∀ k ∈ ks, poisonedAt s k = false) →
           exec (.hostCmdSignal q) s = .next (takeCommand (homeWrite s none (ks.zip ((byteList 0 value 8).map (·.2)))) x true)) ∧
         (x.started = [] → devKeys s x.ctx addr 8 true = none → exec (.hostCmdSignal q) s = .next (setQError s x 18))) ∧
       (bitsOf v 7 0 = 1 → devHeld s x.ctx addr 256 = false → (devNum s x.ctx addr 256 = none → exec (.hostCmdLaunch q) s = .next (setQError s x 18)) ∧
         ∀ w, devNum s x.ctx addr 256 = some w →
           let l := launchOf w
           (∀ k, launchError s x.ctx l = some k → exec (.hostCmdLaunch q) s = .next (setQError s x k)) ∧
           (launchError s x.ctx l = none → ∃ u : State, exec (.hostCmdLaunch q) s = .next u ∧ u.runs = s.runs ++ [{ id := s.nextId, ctx := x.ctx, queue := some q, cmd := x.head, prio := qPrio s x, launch := l, state := .migrating, counter := 0 }] ∧
             u.crews = s.crews ∧ u.ready = s.ready ∧
             let pages := runPages s x.ctx l (spanDies s l)
             u.moves = s.moves ++ (if pages = [] then [] else [{ id := s.nextId + 1, ctx := x.ctx, pages := pages, run := some s.nextId }])))) ∧
     (∀ v, nextCommand s q = some (x, some v) → commandBad v = false → bitAt v 8 = true → x.started ≠ [] →
       exec (.hostCmdNop q) s = .next s ∧ exec (.hostCmdWait q) s = .next s ∧ exec (.hostCmdSignal q) s = .next s ∧ exec (.hostCmdLaunch q) s = .next s)) ∧
  ((∀ (s : State) (x : HostQueue) (done : Bool), getQueue s x.q = some x → ∃ y : HostQueue, getQueue (takeCommand s x done) x.q = some y ∧ y.head = (x.head + 1) % 2 ^ 32 ∧
     y.tail = x.tail ∧ y.state = x.state ∧ (done = true → (∀ c ∈ x.started, c.2 = true) → y.started = []) ∧ (done = false → ∃ cs, y.started = cs ++ [(x.head, false)])) ∧
   (∀ (s : State) (x : HostQueue) (code : Nat), (setQError s x code).outbox = s.outbox ++ [(2, [x.q, code])] ∧ (setQError s x code).crews = s.crews) ∧
   (∀ (s : State) (ctx : Nat) (l : Launch), launchError s ctx l = none →
     l.entry ≠ 0 ∧ 1 ≤ l.product ∧ l.product ≤ 1024 ∧ (l.gang = 32 ∨ l.gang = 64) ∧ l.regs % 8 = 0 ∧ 8 ≤ l.regs ∧ l.regs ≤ 192 ∧ l.budget l.regsCopy ≤ l.regs ∧ l.budget l.regsEpi ≤ l.regs ∧
       l.scratch % 64 = 0 ∧ l.scratch ≤ 229376 ∧ l.tiles ≤ 16 ∧ 1 ≤ l.spans ∧ l.spans ≤ 4 ∧ l.poolN ≤ 16383 ∧ l.stackSize % 256 = 0 ∧ (∀ r ∈ l.ranges, r.2.2 ≤ 5) ∧ shapesFit [l.shape] = true)) ∧
  ((∀ (s : State) (x : HostQueue) (v : Word), getQueue s x.q = some x →
     (x.state ≠ 2 → exec (.notify x.q v) s = .next (qWrite s x 24 8 (v.toNat + 2 ^ 32))) ∧
     (x.state = 2 → ∃ (u : State) (y : HostQueue), exec (.notify x.q v) s = .next u ∧ getQueue u x.q = some y ∧ y = { x with tail := v.toNat, idle := false, idleSince := s.cycle } ∧ u.crews = s.crews) ∧
     (x.state = 1 → blockHeld s x = false → ∃ (u : State) (y : HostQueue), exec (.doorbellSwitch x.q) s = .next u ∧ getQueue u x.q = some y ∧ y.state = 2 ∧ y.head = qRead s x 16 4 ∧
       let d := qRead s x 24 8
       y.tail = if bitAt d 32 then bitsOf d 31 0 else qRead s x 20 4) ∧
     (blockHeld s x = true → exec (.doorbellSwitch x.q) s = .next s ∧ exec (.unmapWriteback x.q) s = .next s) ∧
     (x.state = 3 → blockHeld s x = false → ∃ (u : State) (y : HostQueue), exec (.unmapWriteback x.q) s = .next u ∧ u = qState (qWrite (qWrite s x 16 4 x.head) x 20 4 x.tail) x 0 ∧ getQueue u x.q = some y ∧ y.state = 0) ∧
     (x.state = 2 → x.head = x.tail → x.idleSince + 65536 ≤ s.cycle →
       exec (.queueIdleTimeout x.q) s = .next (updQueue s x.q fun y => { y with idle := true })) ∧
     (x.state = 2 → s.cycle < x.idleSince + 65536 → exec (.queueIdleTimeout x.q) s = .next s)) ∧
   (∀ s : State, s.bar.bootStage < 3 → exec .walkerPass s = .next s) ∧
   (∀ s : State, 3 ≤ s.bar.bootStage → ∃ u : State, exec .walkerPass s = .next u ∧ u.bar = { s.bar with rlPass := s.bar.rlPass + 1 } ∧ u.crews = s.crews ∧ u.runs = s.runs) ∧
   (∀ (s : State) (x : HostQueue), (blockHeld s x = true ∨ devHeld s x.ctx (qRead s x 40 8) 256 = true → visitBlock s x = s) ∧
     (blockHeld s x = false → devHeld s x.ctx (qRead s x 40 8) 256 = false →
     (qEnabled s x = false → visitBlock s x = if x.state = 2 then qState s x 3 else s) ∧
     (qEnabled s x = true → x.state = 0 → qError s x = false → (qRead s x 20 4 ≠ qRead s x 16 4 ∨ bitAt (qRead s x 24 8) 32 = true) →
       (blockBad s x = true → visitBlock s x = { setQError s x (Config.freeWord s.freeIdx % 65536) with freeIdx := s.freeIdx + 1 }) ∧
       (blockBad s x = false → slotsUsed s < 256 →
         let s1 := loadContext s x.ctx (qRead s x 40 8)
         visitBlock s x = (if (getCtx s1 x.ctx).any (·.malformed) = true then setQError s1 x 20 else qState s1 x 1) ∧
           ∀ c, getCtx s x.ctx = some c → c.loaded = true → s1 = s) ∧
       (blockBad s x = false → 256 ≤ slotsUsed s → visitBlock s x = match idleVictim s with
         | some y => qState s y 3
         | none => s)))))

/-- Power and the stages: power-good, a removal of power and a device reset leave stage 0 with no crew, no run and none of the device's own memory, and the fuses as they are; an image in flash, wherever it lies there, starts stage 1; one that the ROM accepts, by its key's fused hash, its signature and its version, is measured, starts stage 2 and locks the egress windows, and another leaves stage 1 with a failure code that is not 0; stacks train in order, on their spares where they must, or are retired, and the last starts stage 3 (R376–R378). Links and attestation: the host link trains to a rate and width of its standard; from stage 2 a peer port trains and the node identifier is assigned, and the boot core answers an attestation request with its report. Which numbers stand for rates is the model's choice (R35, R37, R38, R377). The mailbox: in stages 0 and 1 command 1 answers with the stage and failure code, command 2 boots the buffered image where the flash holds none, command 3 resets the device; later Millwright's firmware takes its turns: a message is taken and answered, contexts and queues are registered, and a core's mailbox holds 16 messages of 64 bytes. A message taken is posted no more; a read of the status clears its reply bit; the boot buffer is written only in stages 0 and 1. The words of Millwright's own replies are free, which is the model's choice (R40, R375, R377, R378). Model readings and choices that it rests on: log entries 13, 91, 122, 123, 124. -/
def Obligations.BringUp : Prop :=
  ((∀ s : State, exec .powerGood s = .next (powerUp s true) ∧ exec .powerRemoved s = .next (powerUp s false) ∧
     (∀ temp, exec (.thermalTrip temp) s = .next (if 110 ≤ temp then powerUp s false else s))) ∧
   (∀ (s : State) (on : Bool),
     let u := powerUp s on
     u.hw.powered = on ∧ u.bar.bootStage = 0 ∧ u.crews = [] ∧ u.contexts = [] ∧ u.runs = [] ∧ u.issue = none ∧ u.hw.fuses = s.hw.fuses ∧ u.hw.egressLocked = false ∧
       u.hw.rollback = s.hw.rollback ∧ u.hw.keyHash = s.hw.keyHash ∧ u.hw.flash = s.hw.flash ∧ u.hw.retiredStacks = s.hw.retiredStacks ∧ ∀ k, memByte u.mem k = if offDevice k then memByte s.mem k else 0) ∧
   (∀ (s : State) (off len code : Nat), s.bar.bootStage = 0 → let image := (s.hw.flash.drop off).take len
     exec (.bootRomAuthenticate off len code) s = .next (if image = [] then s else { s with bar := { s.bar with bootStage := 1, failCode := 0 }, hw := { s.hw with image := image } })) ∧
   (∀ (s : State) (off len code : Nat), s.bar.bootStage = 1 → s.bar.failCode = 0 → ∃ u : State, exec (.bootRomAuthenticate off len code) s = .next u ∧ u.mem = s.mem ∧
     let ok := Config.imageKey s.hw.image = s.hw.keyHash ∧ Config.sigVerifies s.hw.image = true ∧ s.hw.rollback ≤ Config.imageVersion s.hw.image
     (ok → u.bar.bootStage = 2 ∧ u.bar.failCode = 0 ∧ u.hw.egressLocked = true ∧ u.hw.measured = s.hw.measured ++ [Config.digest s.hw.image]) ∧
     (¬ ok → u.bar.bootStage = 1 ∧ u.bar.failCode ≠ 0 ∧ u.hw = s.hw)) ∧
   (∀ (s : State) (off len code : Nat), s.bar.bootStage = 1 ∧ s.bar.failCode ≠ 0 ∨ 2 ≤ s.bar.bootStage → exec (.bootRomAuthenticate off len code) s = .next s) ∧
   (∀ (s : State) (j : Nat) (passes spares : Bool), j < 16 → s.bar.bootStage = 2 → (∀ i < j, stackSettled s i = true) → stackSettled s j = false →
     ∃ u : State, exec (.stackTrainingDone j passes spares) s = .next u ∧ u.mem = s.mem ∧
       (passes = true ∨ spares = true ∧ mget 0 s.hw.channelSpares j < 2 → u.hw.trained = s.hw.trained ++ [j] ∧ u.hw.retiredStacks = s.hw.retiredStacks) ∧
       (passes = false → (spares = false ∨ 2 ≤ mget 0 s.hw.channelSpares j) → u.hw.trained = s.hw.trained ∧ u.hw.retiredStacks = s.hw.retiredStacks ++ [j]) ∧
       u.bar.bootStage = if (List.range 16).all (fun i => stackSettled s i || i == j) then 3 else 2)) ∧
  (∀ s : State,
     (∀ rate width, rate ∈ [640, 320, 160, 80, 50, 25] → width ∈ [16, 8, 4, 2, 1] →
       exec (.hostLinkTrain rate width) s = .next { s with hw := { s.hw with hostRate := rate, hostWidth := width } }) ∧
     (∀ rate width, rate ∉ [640, 320, 160, 80, 50, 25] ∨ width ∉ [16, 8, 4, 2, 1] → exec (.hostLinkTrain rate width) s = .next s) ∧
     (∀ port rate node, port < 32 → rate ≤ 4480 → 2 ≤ s.bar.bootStage → exec (.flozorLinkBringup port rate node) s = .next { s with hw := { s.hw with ports := mput 0 s.hw.ports port rate, node := node } }) ∧
     (∀ port rate node, s.bar.bootStage < 2 → exec (.flozorLinkBringup port rate node) s = .next s) ∧
     exec .attestationRequest s = .next (if s.bar.bootStage < 2 then s else { s with outbox := s.outbox ++ [(7, Config.report s.hw.measured)] })) ∧
  ((∀ s : State, s.bar.bootStage ≤ 1 → s.bar.mbxPosted = true →
     let Taken := fun (u : State) (reply : Bool) => u.bar.mbxPosted = false ∧ u.bar.mbxTaken = true ∧ u.bar.mbxReply = (s.bar.mbxReply || reply)
     (mbxByte s 0 = 1 → ∃ u : State, exec .bootStageRead s = .next u ∧ Taken u true ∧ u = { s with bar := u.bar } ∧
       bytesVal ((List.range 4).map (mget 0 u.bar.mbxIn)) = (s.bar.bootStage + 256 * s.bar.failCode) % 2 ^ 32) ∧
     (mbxByte s 0 = 2 → mbxNum s 8 8 ≤ 2 ^ 24 → ∃ u : State, exec .bootImage s = .next u ∧ Taken u false ∧ u.mem = s.mem ∧
       (s.hw.flash = [] → u.bar.bootStage = 1 ∧ u.bar.failCode = 0 ∧ u.hw = { s.hw with image := (List.range (mbxNum s 8 8)).map (mget 0 s.bar.bootBuffer) }) ∧
       (s.hw.flash ≠ [] → u.bar.bootStage = s.bar.bootStage ∧ u.hw = s.hw)) ∧
     (mbxByte s 0 = 3 → exec .deviceReset s = .next (powerUp s true)) ∧
     (mbxByte s 0 ≠ 1 → exec .bootStageRead s = .next s) ∧ (mbxByte s 0 ≠ 2 → exec .bootImage s = .next s) ∧ (mbxByte s 0 ≠ 3 → exec .deviceReset s = .next s)) ∧
   (∀ s : State, s.firmware = [] → exec .mbxMessage s = exec .mbxMessage { s with firmware := [.host] }) ∧
   (∀ s : State, 2 ≤ s.bar.bootStage → s.bar.mbxPosted = true → ∃ u : State, exec .mbxMessage { s with firmware := .host :: s.firmware } = .next u ∧ u.bar = { s.bar with mbxPosted := false, mbxTaken := true, mbxReply := true, mbxIn := u.bar.mbxIn } ∧
     u = { s with bar := u.bar, freeIdx := u.freeIdx }) ∧
   (∀ s : State, s.bar.mbxPosted = false → exec .mbxMessage { s with firmware := .host :: s.firmware } = .next (if s.bar.bootStage < 2 then { s with firmware := .host :: s.firmware } else s) ∧ exec .bootStageRead s = .next s ∧ exec .bootImage s = .next s ∧ exec .deviceReset s = .next s) ∧
   (∀ s : State, s.bar.bootStage < 2 → exec .mbxMessage s = .next s) ∧
   (∀ (s : State) (src dst msg : Nat), 2 ≤ s.bar.bootStage → src < 8 → dst < 8 → src ≠ dst →
     let box := mget [] s.hw.inbox dst
     let Put := fun b => Host.Outcome.next { s with hw := { s.hw with inbox := mput [] s.hw.inbox dst b } }
     let Turn := fun m : Mail => exec .mbxMessage { s with firmware := m :: s.firmware }
     (box.length < 16 → Turn (.post src dst msg) = Put (box ++ [msg % 2 ^ 512])) ∧ (16 ≤ box.length → Turn (.post src dst msg) = .next s) ∧
     Turn (.take dst) = Put (box.drop 1)) ∧
   (∀ (s : State) (ctx block q : Nat) (root : Word64), 2 ≤ s.bar.bootStage →
     let Turn := fun m : Mail => exec .mbxMessage { s with firmware := m :: s.firmware }
     (getCtx s ctx = none → ctx < 4096 → root.toNat % 4096 = 0 → root.toNat < 2 ^ 52 → ∃ u : State, Turn (.context ctx root) = .next u ∧ getCtx u ctx = some { id := ctx, xltRoot := root }) ∧
     ((getCtx s ctx).isSome = true → q < 32768 → block % 256 = 0 → (∀ x ∈ s.queues, x.q ≠ q ∧ ¬ (x.ctx = ctx ∧ x.block = block)) →
       ∃ u : State, Turn (.queue ctx block q) = .next u ∧ getQueue u q = some { q := q, ctx := ctx, block := block }) ∧
     ∃ u : State, Turn (.telem ctx) = .next u ∧ u.crews = s.crews ∧ u.contexts = s.contexts) ∧
   (∀ s : State, exec .mbxStatRead s = .next { s with bar := { s.bar with mbxReply := false }, outbox := s.outbox ++ [(8, [s.bar.mbxTaken.toNat + 2 * s.bar.mbxReply.toNat])] }) ∧
   (∀ (s : State) (off : Nat) (v : Word64), off % 8 = 0 → off + 8 ≤ 2 ^ 24 →
     (s.bar.bootStage ≤ 1 → ∃ u : State, exec (.bootBufferWrite off v) s = .next u ∧ u = { s with bar := { s.bar with bootBuffer := u.bar.bootBuffer } } ∧
       ∀ k, mget 0 u.bar.bootBuffer k = if off ≤ k ∧ k < off + 8 then BitVec.ofNat 8 (v.toNat / 256 ^ (k - off)) else mget 0 s.bar.bootBuffer k) ∧
     (1 < s.bar.bootStage → exec (.bootBufferWrite off v) s = .next s)))

/-- The windows: BAR2_WIN takes an address that is a multiple of the BAR's size and ignores another; a resize clears the bits of BAR2_WIN below the new size; an access of any width reads or writes the bytes of HBM under the window, once no fence and no change of a slice keeps it waiting, or is aborted with no memory changed where none stand there; the host's own writes reach its memory; an egress window is programmed only before the windows lock, by the host in stage 0 or the boot core in stage 1 (R39–R42, R167, R168, R376). The registers: a read answers the register's value, and of MBX_STAT clears the reply bit; a write that is not aligned, or not of the register's width, or at an offset that names no register that is written, changes nothing, and such a read returns zero; an index posted in SVC_DONE has its call's entry taken, or kept while the reply log has no room, and one that names no call is only posted, which is the model's reading; RAY_ADMIT and EXT_ADMIT are taken where every stack's pond keeps room for the rays admitted, and otherwise ignored, so the room is kept; the mailbox, BFP_SCR, SVC_DONE and doorbell registers act as their own events do (R8, R40, R316, R364). Model readings and choices that it rests on: log entries 39, 124, 125, 134, 139, 146, 154. -/
def Obligations.HostRegisters : Prop :=
  ((∀ (s : State) (v : Word64), exec (.bar2Win v) s = .next (if v.toNat < 2 ^ 52 ∧ v.toNat % 2 ^ s.bar.bar2Log2 = 0 then { s with bar := { s.bar with bar2Win := v } } else s)) ∧
   (∀ (s : State) (log2 : Nat), exec (.bar2Resize log2) s = .next (if 28 ≤ log2 ∧ log2 ≤ 40 then
     { s with bar := { s.bar with bar2Log2 := log2, bar2Win := BitVec.ofNat 64 (s.bar.bar2Win.toNat / 2 ^ log2 * 2 ^ log2) } } else s)) ∧
   (∀ (s : State) (off width : Nat),
     let pa := s.bar.bar2Win.toNat + off
     let Stores := fun (side : HostSide) (v : Nat) (m : List Host.Cell) => ∃ u : State, exec (.bar2Access ⟨side, off, width⟩ (some v)) s = .next u ∧ u.crews = s.crews ∧ u.mem = m
     let Loads := fun (side : HostSide) (ks : List Nat) => exec (.bar2Access ⟨side, off, width⟩ none) s = .next { s with
       freeIdx := s.freeIdx + width, outbox := s.outbox ++ [(10, [bytesVal (ks.map (homeByte s))])] }
     (∀ v, bar2Keys s off width = none → exec (.bar2Access ⟨.bar2, off, width⟩ v) s = .next { s with outbox := s.outbox ++ [(9, [off])] }) ∧
     (∀ ks, bar2Keys s off width = some ks → ks = (List.range width).map (hbmKey pa + ·) ∧ pa + width ≤ 2 ^ 40 ∧ s.bar.bootStage = 3 ∧ off + width ≤ 2 ^ s.bar.bar2Log2 ∧
       (0 < width → sliceWait s [(hbmKey pa, width)] ≠ none → ∀ v, exec (.bar2Access ⟨.bar2, off, width⟩ v) s = .next s) ∧
       (sliceWait s [(hbmKey pa, width)] = none → anyPoison s = false → (∀ k ∈ ks, channelWaits s s.nextId (place s k / 64) = false) → Loads .bar2 ks) ∧
       ∀ v, 0 < width → sliceWait s [(hbmKey pa, width)] = none → Stores .bar2 v (memPutAll s.mem ((byteList (hbmKey pa) v width).map fun b => (place s b.1, b.2)))) ∧
     (off + width ≤ 2 ^ 52 → (anyPoison s = false → Loads .memory ((List.range width).map (hostKey off + ·))) ∧ ∀ v, Stores .memory v (memPutAll s.mem (byteList (hostKey off) v width)))) ∧
   (∀ (s : State) (byHost : Bool) (idx base limit : Nat), idx < 16 → limit ≤ 2 ^ 52 →
     (s.hw.egressLocked = false → s.bar.bootStage = (if byHost then 0 else 1) → exec (.egressWindowProgram byHost idx base limit) s =
       .next { s with hw := { s.hw with egress := mput ⟨0, 0⟩ s.hw.egress idx ⟨base, limit⟩ } }) ∧
     (s.hw.egressLocked = true → exec (.egressWindowProgram byHost idx base limit) s = .next s))) ∧
  ((∀ (s : State) (off width : Nat) (v : Word64),
     let Ignored := exec (.registerWrite off width (some v)) s = .next s
     let Zero := exec (.registerWrite off width none) s = .next { s with freeIdx := s.freeIdx + 1, outbox := s.outbox ++ [(13, [off, 0])] }
     (off % width ≠ 0 ∨ width ∉ [1, 2, 4, 8] → Ignored ∧ Zero) ∧
     ((8 ≤ off ∧ off < 0x10 ∨ 0x40 ≤ off ∧ off < 0x80) → width ≠ 8 → Ignored) ∧
     ((0x80 ≤ off ∧ off < 0x100 ∨ 0x1040 ≤ off ∧ off < 0x1080) → width ≠ 4 → Ignored) ∧
     (0x100 ≤ off → off < 0x180 → (width ≠ 2 ∧ width ≠ 4) ∨ off % 4 ≠ 0 → Ignored) ∧
     (0x100000 ≤ off → off < 0x140000 → width ≠ 4 ∨ off % 0x40 ≠ 4 ∨ 0x4000 ≤ off % 0x10000 → Ignored) ∧
     (0x02000000 ≤ off → off < 0x03000000 → width ≠ 4 ∨ off % 0x1000 ≠ 0 → Ignored) ∧
     (0x08000000 ≤ off → off < 0x10000000 → width ≠ 4 ∨ off % 0x1000 ≠ 0 → Ignored) ∧
     ((off < 8 ∨ 0x10 ≤ off ∧ off < 0x40 ∨ 0x8C ≤ off ∧ off < 0x100 ∨ 0x180 ≤ off ∧ off < 0x1000 ∨ 0x1044 ≤ off ∧ off < 0x100000 ∨ 0x140000 ≤ off ∧ off < 0x01000000 ∨
       0x03000000 ≤ off ∧ off < 0x08000000 ∨ 0x10000000 ≤ off) → Ignored) ∧
     ((width = 1 ∨ width = 2) → (off < 0x100 ∨ 0x180 ≤ off ∧ off < 0x1000 ∨ 0x1040 ≤ off ∧ off < 0x1080 ∨ 0x10C0 ≤ off ∧ off < 0x01000000 ∨ 0x02000000 ≤ off) → Zero) ∧
     (width = 4 → (4 ≤ off ∧ off < 8 ∨ 0x14 ≤ off ∧ off < 0x40 ∨ 0x8C ≤ off ∧ off < 0x100 ∨ 0x180 ≤ off ∧ off < 0x1000 ∨ 0x1044 ≤ off ∧ off < 0x1080 ∨ 0x10C4 ≤ off ∧ off < 0x100000 ∨
       0x140000 ≤ off ∧ off < 0x01000000 ∨ 0x03000000 ≤ off ∧ off < 0x08000000 ∨ 0x10000000 ≤ off) → Zero) ∧
     (width = 8 → (off < 8 ∨ 0x10 ≤ off ∧ off < 0x40 ∨ 0x80 ≤ off ∧ off < 0x1000 ∨ 0x1040 ≤ off ∧ off < 0x1080 ∨ 0x10C0 ≤ off ∧ off < 0x01000000 ∨ 0x02000000 ≤ off) → Zero)) ∧
   (∀ (s : State) (off : Nat) (v : Word64), off % 8 = 0 →
     (off = 0x8 → exec (.registerWrite off 8 (some v)) s = exec (.bar2Win v) s) ∧
     (0x40 ≤ off → off < 0x80 → exec (.registerWrite off 8 (some v)) s = .next { s with bar := { s.bar with rlHead := mput 0 s.bar.rlHead ((off - 0x40) / 8) v } }) ∧
     (0x01000000 ≤ off → off < 0x02000000 → exec (.registerWrite off 8 (some v)) s = exec (.bootBufferWrite (off - 0x01000000) v) s)) ∧
   (∀ (s : State) (v : Word64),
     let w := v.toNat % 2 ^ 32
     (∀ ctx < 4096, exec (.registerWrite (0x02000000 + 0x1000 * ctx) 4 (some v)) s = exec (.svcDone ctx w) s) ∧
     (∀ q < 32768, exec (.registerWrite (0x08000000 + 0x1000 * q) 4 (some v)) s = exec (.notify q (BitVec.ofNat 32 w)) s) ∧
     (∀ die core, die < 4 → core < 256 → exec (.registerWrite (0x100000 + 0x10000 * die + 0x40 * core + 4) 4 (some v)) s = exec (.bfpScrWrite (256 * die + core) (BitVec.ofNat 32 w)) s) ∧
     (exec (.registerWrite 0x1040 4 (some v)) s = .next (if w = 1 then { s with bar := { s.bar with mbxPosted := true, mbxTaken := false } } else s)) ∧
     (exec (.registerWrite 0x80 4 (some v)) s = .next (if 4096 ≤ w ∧ w ≤ 2 ^ 26 ∧ pondsHold w s.bar.extAdmit (pondRays s) = true then { s with bar := { s.bar with rayAdmit := w } } else s)) ∧
     (exec (.registerWrite 0x84 4 (some v)) s = .next (if 1024 ≤ w then { s with bar := { s.bar with leatAge := w } } else s)) ∧
     (exec (.registerWrite 0x88 4 (some v)) s = .next (if w ≤ 2 ^ 26 ∧ pondsHold s.bar.rayAdmit w (pondRays s) = true then { s with bar := { s.bar with extAdmit := w } } else s))) ∧
   (∀ (s t : State) (off width : Nat) (v : Word64), off < 0x01000000 → exec (.registerWrite off width (some v)) s = .next t →
     pondsHold s.bar.rayAdmit s.bar.extAdmit (pondRays s) = true → pondsHold t.bar.rayAdmit t.bar.extAdmit (pondRays t) = true) ∧
   (∀ (s : State) (ctx idx : Nat), ctx < 4096 → idx < 2 ^ 32 →
     let s1 := { s with bar := { s.bar with svcDone := mput 0 s.bar.svcDone ctx (BitVec.ofNat 32 idx) } }
     (∀ k, s.svc.find? (fun k => k.ctx == ctx && k.idx == idx) = some k →
       let s2 := { s1 with svc := s1.svc.map fun q => if q.id = k.id then { q with answered := true } else q }
       (svcBlocked s k = false → exec (.svcDone ctx idx) s = .next (takeSvc s2 k)) ∧ (svcBlocked s k = true → exec (.svcDone ctx idx) s = .next s2)) ∧
     (s.svc.find? (fun k => k.ctx == ctx && k.idx == idx) = none → exec (.svcDone ctx idx) s = .next s1)) ∧
   (∀ s : State,
     let Reads := fun (off v : Nat) => exec (.registerWrite off 4 none) s = .next { s with freeIdx := s.freeIdx + 1, outbox := s.outbox ++ [(13, [off, v])] }
     Reads 0 (s.bar.bootStage + 256 * s.bar.failCode) ∧ Reads 0x10 s.bar.rlPass.toNat ∧ Reads 0x80 s.bar.rayAdmit ∧ Reads 0x84 s.bar.leatAge ∧ Reads 0x88 s.bar.extAdmit ∧
     Reads 8 (s.bar.bar2Win.toNat % 2 ^ 32) ∧ Reads 12 (s.bar.bar2Win.toNat / 2 ^ 32 % 2 ^ 32) ∧
     (∀ core < 1024, let off := 0x100000 + 0x10000 * (core / 256) + 0x40 * (core % 256)
       Reads off (16 - (coreOf s core).mb) ∧ Reads (off + 4) (coreOf s core).mb ∧ Reads (off + 8) (coreOf s core).wb) ∧
     exec (.registerWrite 0x10C0 4 none) s = .next { s with
       bar := { s.bar with mbxReply := false }, freeIdx := s.freeIdx + 1, outbox := s.outbox ++ [(13, [0x10C0, s.bar.mbxTaken.toNat + 2 * s.bar.mbxReply.toNat])] }))

/-- Heat and power: a sensor's reading makes a core hot, cool or neither; from 100 °C its issue is duty-cycled at 50 %, after 1 ms at 25 %, and below it no more; from 95 °C a stack's channels go narrow; none of these, nor the current limiter, changes anything that a program reads. Fantail moves a crew that may leave to a cool core of its die by pre-emption: its skid, its save, and its restore there with every PC. At the power share Fantail comes first, a duty cycle next, a stack at its thermal limit last (R26, R166, R294, R366, R374, R376). Errors and spares: a corrected error is counted, for every context too; an uncorrectable one poisons its 64-byte atom and no other; a failing lane, row, pipe or way takes a spare and blows a fuse, a pipe once its ray has left its treelet, and with none left the host is told; a spare core takes a failing core's index once its crews have been taken off it and the images of those that come back can be read; with none left the core is retired (R37, R167, R168, R366, R371, R373). The retirement of a channel: a spare takes new requests at once; when every request from before the fence is done the copy begins; each absent atom is copied in order, poisoned if its read is uncorrectable, and after the last the spare stands in its place. No byte of memory changes (R166, R167). Model readings and choices that it rests on: log entries 56, 126, 127, 128, 129, 130. -/
def Obligations.HeatErrorsAndSpares : Prop :=
  ((∀ (s : State) (core temp : Nat), core < 1024 → let k := coreOf s core
     exec (.coreHot ⟨core, temp⟩) s = .next (updCore s core fun k => { k with temp := temp, duty := if temp < 100 then 100 else k.duty }) ∧
     (k.duty = 100 → 100 ≤ k.temp → exec (.coreDutyCycle core) s = .next (updCore s core fun k => { k with duty := 50, dutySince := s.cycle })) ∧
     (k.temp < 100 → exec (.coreDutyCycle core) s = .next s) ∧
     (k.duty = 50 → 100 ≤ k.temp → k.dutySince + 1250000 ≤ s.cycle → exec (.dutyCycleDeepen core) s = .next (updCore s core fun k => { k with duty := 25 })) ∧
     (k.duty = 50 → s.cycle < k.dutySince + 1250000 → exec (.dutyCycleDeepen core) s = .next s)) ∧
   (∀ (s : State) (stack ch temp : Nat), stack < 16 → ch < 32 → (∃ u : State, exec (.channelNarrow stack ch) s = .next u ∧ u = { s with hw := { s.hw with channels := u.hw.channels } } ∧
       ∀ i, mget default u.hw.channels i = if i = 32 * stack + ch then { mget default s.hw.channels i with narrow := true } else mget default s.hw.channels i) ∧
     (∃ u : State, exec (.hbmThermalNarrow ⟨stack, temp⟩) s = .next u ∧ u = { s with hw := { s.hw with channels := u.hw.channels, stackTemp := mput 0 s.hw.stackTemp stack temp } } ∧
       ∀ i, mget default u.hw.channels i = if i / 32 = stack ∧ 95 ≤ temp then { mget default s.hw.channels i with narrow := true } else mget default s.hw.channels i)) ∧
   (∀ (s : State) (die : Nat), die < 4 → exec (.currentLimiter die) s = .next (if s.hw.currentLimited.contains die then s else { s with hw := { s.hw with currentLimited := s.hw.currentLimited ++ [die] } })) ∧
   (∀ (s : State) (c : Crew) (core : Nat), getCrew s c.uid = some c → (mayLeave s c = true → mayEnter s c core = true → exec (.fantailMigration c.uid core) s = .next (beginTaking s c.uid (some core))) ∧
     ((mayLeave s c && mayEnter s c core) = false → exec (.fantailMigration c.uid core) s = .next s)) ∧
   (∀ (s : State) (c : Crew) (dest : Option Nat), getCrew s c.uid = some c → beginTaking s c.uid dest = { s with crews := (beginTaking s c.uid dest).crews } ∧
     (∀ u, u ≠ c.uid → getCrew (beginTaking s c.uid dest) u = getCrew s u) ∧
     getCrew (beginTaking s c.uid dest) c.uid = some { c with taking := some { since := s.cycle, dest := dest }, switchSkid := [], switchStopped := [] }) ∧
   (∀ (s : State) (c : Crew) (k : Taking), getCrew s c.uid = some c → c.taking = some k → c.halt = none → c.where_ = .resident →
     (s.cycle < k.since + 12 → exec (.skidEnd c.uid) s = .next s) ∧
     (k.since + 12 ≤ s.cycle → exec (.skidEnd c.uid) s = .next (updCrew s c.uid fun c => { c with taking := some { k with saving := true } })) ∧
     (∀ core c1, k.saving = true → crewStill s c = true → k.dest = some core → core ≠ c.coreId → core / 256 = c.die →
       getCrew (leaveCore (saveImage s c) c.uid) c.uid = some c1 → coreTakes (leaveCore (saveImage s c) c.uid) c1 core = true →
       ∃ (u : State) (c' : Crew), exec (.crewSaveComplete c.uid) s = .next u ∧ getCrew u c.uid = some c' ∧ c'.where_ = .resident ∧ c'.coreId = core ∧ c'.taking = none ∧
         c'.s = c.s ∧ c'.vclk = c.vclk ∧ c'.threads.map (·.pc) = c.threads.map (·.pc) ∧ c'.threads.map (·.p) = c.threads.map (·.p))) ∧
   (∀ (s : State) (die : Nat), die < 4 →
     (∀ u core, fantailChoice s die = some (u, core) → exec (.powerShareReached die) s = .next (beginTaking s u (some core))) ∧
     (∀ k, fantailChoice s die = none → s.cores.find? (fun k => k.1 / 256 == die && coreHot k.2 && k.2.duty == 100) = some k →
       exec (.powerShareReached die) s = .next (updCore s k.1 fun x => { x with duty := 50, dutySince := s.cycle })) ∧
     (fantailChoice s die = none → s.cores.find? (fun k => k.1 / 256 == die && coreHot k.2 && k.2.duty == 100) = none → ∃ u : State, exec (.powerShareReached die) s = .next u ∧
       u = { s with hw := { s.hw with channels := u.hw.channels } } ∧ (u = s ∨ ∃ j, j / 4 = die ∧ 95 ≤ mget 0 s.hw.stackTemp j ∧
         ∀ i, mget default u.hw.channels i = if i / 32 = j then { mget default s.hw.channels i with narrow := true } else mget default s.hw.channels i)))) ∧
  ((∀ (s : State) (part : Nat), ∃ u : State, exec (.correctedError part) s = .next u ∧ u.crews = s.crews ∧ ((∀ x ∈ s.contexts, x.telem = 0) → u.mem = s.mem) ∧
     mget 0 u.hw.corrected part = mget 0 s.hw.corrected part + 1 ∧ ((s.contexts.map (·.id)).Nodup → ∀ x ∈ s.contexts, ∃ y ∈ u.contexts, y.id = x.id ∧ mget 0 y.telemetry 7 = mget 0 x.telemetry 7 + 1)) ∧
   (∀ (s : State) (key : Nat), ∃ u : State, exec (.uncorrectableError key) s = .next u ∧ u = { s with hw := { s.hw with poison := u.hw.poison } } ∧ ∀ a, a ∈ u.hw.poison ↔ a = key / 64 ∨ a ∈ s.hw.poison) ∧
   (∀ s : State,
     let Fused := fun (i : Instr) (code : Nat) => ∃ u : State, exec i s = .next u ∧ u.mem = s.mem ∧ u.crews = s.crews ∧ u.hw.fuses = s.hw.fuses ++ [code] ∧ u.outbox = s.outbox
     let Lost := fun (i : Instr) (part : List Nat) => ∃ u : State, exec i s = .next u ∧ u.mem = s.mem ∧ u.crews = s.crews ∧ u.hw.fuses = s.hw.fuses ∧ u.outbox = s.outbox ++ [(6, part)]
     (∀ port lane, port < 32 → lane < 4 → (s.hw.laneSpares.contains port = false → Fused (.flozorLaneFail port lane) (0x300 + port)) ∧
       (s.hw.laneSpares.contains port = true → Lost (.flozorLaneFail port lane) [1, port, lane])) ∧
     (∀ stack bank row, stack < 16 → bank < 2 ^ 20 → let used := mget 0 s.hw.rowSpares (stack * 2 ^ 20 + bank)
       (used < 64 → Fused (.dramRowRemap stack bank row) (0x500 + stack)) ∧ (64 ≤ used → Lost (.dramRowRemap stack bank row) [4, stack, bank, row])) ∧
     (∀ stack pipe, stack < 16 → pipe < 64 → (stack, pipe) ∉ s.hw.pipesLost → (stack, pipe) ∉ s.hw.pipesDue → let used := mget 0 s.hw.pipeSpares stack
       (inPipe s stack pipe = false → (used < 2 → Fused (.rayPipeSpare stack pipe) (0x600 + stack)) ∧ (2 ≤ used → Lost (.rayPipeSpare stack pipe) [5, stack, pipe])) ∧
       (inPipe s stack pipe = true → exec (.rayPipeSpare stack pipe) s = .next { s with hw := { s.hw with pipesDue := s.hw.pipesDue ++ [(stack, pipe)] } })) ∧
     (∀ core way, core < 1024 → way < 16 → (0 < (coreOf s core).waySpares → Fused (.binfloorWaySpare core way) (0x700 + core / 256)) ∧
       ((coreOf s core).waySpares = 0 → Lost (.binfloorWaySpare core way) [7, core, way]))) ∧
   (∀ (s : State) (core : Nat), core < 1024 → (coreOf s core).retired = false →
     (mget 0 s.hw.coreSpares (core / 256) < 8 →
       let waits := ∃ c ∈ s.crews, c.coreId = core ∧ c.taking.isSome = true ∧ c.where_ = .away ∧ imageHeld s c = true
       (waits → exec (.spareCoreReplace core) s = .next s) ∧
       (¬ waits → standOn s core = [] → ∃ u : State, exec (.spareCoreReplace core) s = .next u ∧ u.hw.fuses = s.hw.fuses ++ [0x400 + core / 256] ∧
         mget 0 u.hw.coreSpares (core / 256) = mget 0 s.hw.coreSpares (core / 256) + 1 ∧ (coreOf u core).spareUsed = true ∧ (coreOf u core).mb = (coreOf s core).mb) ∧
       (¬ waits → standOn s core ≠ [] → exec (.spareCoreReplace core) s = .next (takeAll s core fun c => c.coreId))) ∧
     (8 ≤ mget 0 s.hw.coreSpares (core / 256) → ((coreOf s core).mb ≠ 0 → exec (.spareCoreReplace core) s = .next s) ∧
       ((coreOf s core).mb = 0 → ∃ u : State, exec (.spareCoreReplace core) s = .next u ∧ u.mem = s.mem ∧ (coreOf u core).retired = true ∧ u.outbox = s.outbox ++ [(6, [3, core])]))) ∧
   (∀ (s : State) (core : Nat) (dest : Crew → Nat), takeAll s core dest = { s with crews := (takeAll s core dest).crews } ∧
     ∀ c ∈ standOn s core, mayTake s c = true → ∃ k ∈ (takeAll s core dest).crews, k.uid = c.uid ∧ k.taking.isSome = true)) ∧
  (∀ (s : State) (stack ch : Nat), stack < 16 → ch < 32 →
     let i := 32 * stack + ch
     let c := mget default s.hw.channels i
     let used := mget 0 s.hw.channelSpares stack
     (c.lost = false → c.phase ≠ .fenced → c.phase ≠ .copying →
       (used < 2 → ∃ u : State, exec (.channelRetireBegin stack ch) s = .next u ∧ u = { s with hw := u.hw } ∧ mget default u.hw.channels i = { c with phase := .fenced, present := [], fence := s.nextId, next := 0 } ∧
         mget 0 u.hw.channelSpares stack = used + 1 ∧ u.hw.fuses = s.hw.fuses ++ [0x100 + stack]) ∧
       (2 ≤ used → ∃ u : State, exec (.channelRetireBegin stack ch) s = .next u ∧ u.mem = s.mem ∧ (mget default u.hw.channels i = { c with narrow := true } ∧ u.outbox = s.outbox ∨
         mget default u.hw.channels i = { c with lost := true, present := [] } ∧ u.outbox = s.outbox ++ [(6, [2, stack, ch])]))) ∧
     (c.phase = .fenced → (beforeFence s i c.fence = false → ∃ u : State, exec (.channelFenceDrained stack ch) s = .next u ∧ u = { s with hw := u.hw } ∧ mget default u.hw.channels i = { c with phase := .copying }) ∧
       (beforeFence s i c.fence = true → exec (.channelFenceDrained stack ch) s = .next s)) ∧
     (∀ atom bad, c.phase = .copying → c.next ≤ atom → atom < 2 ^ 25 → (∀ n, c.next ≤ n → n < atom → channelAtom stack ch n ∈ c.present) → channelAtom stack ch atom ∉ c.present →
       ∃ u : State, exec (.atomCopy stack ch atom bad) s = .next u ∧ u = { s with hw := { s.hw with channels := u.hw.channels, poison := u.hw.poison } } ∧
         (∀ a, a ∈ u.hw.poison ↔ a ∈ s.hw.poison ∨ bad = true ∧ a = channelAtom stack ch atom) ∧
         (atom + 1 < 2 ^ 25 → mget default u.hw.channels i = { c with next := atom + 1 }) ∧
         (atom + 1 = 2 ^ 25 → mget default u.hw.channels i = { c with phase := .switched, present := [], next := 0, retired := true })))

/-- A message dropped on a link is counted, and its requester learns of it: a load completes with zeros and POISON, a ray and a collective end, and a filter request ends with status LOST (R37, R292, R372). A peer's requests act on the device's HBM at its homes: a load answers with the bytes there, a store writes them, an atomic writes what its operation gives and answers with the old value, and a ring request answers at the ring. That the words of a lost filter's result are free is the model's choice (R35, R219, R287, R288). Model readings and choices that it rests on: log entries 131, 132, 139. -/
def Obligations.PeersAreServed : Prop :=
  (∀ (s : State) (id : Nat),
    let s1 := { s with hw := { s.hw with dropped := s.hw.dropped + 1 } }
    (∀ l, s.loads.find? (fun l => l.id == id && l.peer) = some l → ∃ u : State, exec (.flozorMessageDrop (.load id)) s = .next u ∧ u.mem = s.mem ∧ u.hw = s1.hw ∧ u.loads.length = s.loads.length ∧
      ∀ q ∈ u.loads, q.id = id → (∀ w ∈ q.vdst ++ q.sdst, w.2 = 0) ∧ q.poison = some l.addr) ∧
    exec (.flozorMessageDrop (.ray id)) s = exec (.rayMessageLost id) s ∧
    (∀ r, s.filters.find? (·.id == id) = some r → ∃ u : State, exec (.flozorMessageDrop (.filter id)) s = .next u ∧ u.hw.dropped = s.hw.dropped + 1 ∧ ∀ c, getCrew s r.crew = some c → (∀ q ∈ u.filters, q.id ≠ r.id) ∧
      ∀ t, c.thread r.tid = some t → ∃ t', getThread u r.crew t.tid = some t' ∧ t'.filterStatus = 1) ∧
    (∀ r c, s.colls.find? (fun r => r.id == id && r.matched.isSome) = some r → getCrew s r.crew = some c →
      exec (.flozorMessageDrop (.coll id)) s = .next (endColl (putStatus s1 { req := id, crew := c, tid := r.tid } (r.desc.toNat + 40) 3) r))) ∧
  (∀ (s : State) (r : CollReq) (c : Crew), s.colls.find? (·.id == r.id) = some r → getCrew s r.crew = some c →
    exec (.flozorPeerRequest (.collFault r.id)) s = .next (endColl (putStatus s { req := r.id, crew := c, tid := r.tid } (r.desc.toNat + 40) 4) r)) ∧
  (∀ (s : State) (pa width : Nat),
    let k := hbmKey pa
    (peerServed s pa width true = true → anyPoison s = false → exec (.flozorPeerRequest (.load pa width)) s = .next { s with outbox := s.outbox ++ [(11, [bytesVal (homeBytes s k width), 0])] }) ∧
    (peerServed s pa width false = true → ∀ v, ∃ u : State, exec (.flozorPeerRequest (.store pa width v)) s = .next u ∧ u.crews = s.crews ∧
      u.mem = memPutAll s.mem ((byteList k v width).map fun b => (place s b.1, b.2))) ∧
    (∀ w64 signed op b x, let w := if w64 then 8 else 4
      peerServed s pa w true = true → pa % w = 0 → anyPoison s = false →
      let old := homeRead s k w
      ∃ u : State, exec (.flozorPeerRequest (.atomic pa w64 signed op b x)) s = .next u ∧ u.outbox = s.outbox ++ [(11, [old, 0])] ∧ u.crews = s.crews ∧
        u.mem = if atomWrites op old b then memPutAll s.mem ((byteList k (atomFn op w signed old b x) w).map fun b => (place s b.1, b.2)) else s.mem) ∧
    (pa % 64 = 0 → peerServed s pa 64 true = true →
      let g := ringOf (homeRead s k 64)
      ∀ ctx weir, ringBad (homeRead s k 64) (if weir then 2 else 1) = false →
        (∀ waits entry s1, g.ended = false → g.used ≠ g.slots → ringQueue s k true = false → devHeld s ctx (g.entryVa g.tail) 32 true = false → devWrite s ctx (g.entryVa g.tail) ((byteList 0 entry 32).map (·.2)) = some s1 → bitAt entry 1 = false →
          exec (.flozorPeerRequest (.push ctx pa weir waits entry)) s = .next (let s2 := homeWriteN s1 (k + 24) 8 ((g.tail + 1) % 2 ^ 64)
            { s2 with outbox := s2.outbox ++ [(12, [1])] })) ∧
        (∀ entry, g.ended = true → exec (.flozorPeerRequest (.push ctx pa weir false entry)) s = .next { s with outbox := s.outbox ++ [(12, [0])] }) ∧
        (∀ waits e, g.used ≠ 0 → ringQueue s k false = false → devHeld s ctx (g.entryVa g.head) 32 = false → devNum s ctx (g.entryVa g.head) 32 = some e → bitAt e 1 = false →
          exec (.flozorPeerRequest (.pop ctx pa weir waits)) s = .next (let s2 := homeWriteN s (k + 16) 8 ((g.head + 1) % 2 ^ 64)
            { s2 with outbox := s2.outbox ++ [(12, [1, e])] })) ∧
        (g.used = 0 → exec (.flozorPeerRequest (.pop ctx pa weir false)) s = .next { s with outbox := s.outbox ++ [(12, [0])] })))
end

