-- ==== Sys2Proof/Laws/Maps.lean ====
section
/-! SUPPORT. Laws of finite maps with a default and of memory: a read after a write, other keys untouched, and the canonical form kept. -/

namespace Sys2Proof.Machine

variable {α : Type}

@[simp] theorem mget_nil (d : α) (k : Nat) : mget d [] k = d := rfl

theorem mget_cons (d : α) (e : Nat × α) (m : SMap α) (k : Nat) : mget d (e :: m) k = if k = e.1 then e.2 else mget d m k := rfl

theorem mget_mdel (d : α) (m : SMap α) (k j : Nat) : mget d (mdel m k) j = if j = k then d else mget d m j := by
  induction m with
  | nil => simp [mdel]
  | cons e t ih =>
    unfold mdel at ih ⊢
    by_cases h : e.1 = k
    · simp only [List.filter_cons, h, bne_self_eq_false, Bool.false_eq_true, if_false, ih, mget_cons]
      split <;> rfl
    · have hb : (e.1 != k) = true := by simpa using h
      simp only [List.filter_cons, hb, if_true, mget_cons, ih]
      split
      · next he => rw [if_neg (by omega)]
      · rfl

theorem mget_mins (d : α) (m : SMap α) (k j : Nat) (v : α) (h : ∀ e ∈ m, e.1 ≠ k) :
    mget d (mins m k v) j = if j = k then v else mget d m j := by
  induction m with
  | nil => simp [mins, mget_cons]
  | cons e t ih =>
    have ht := ih fun x hx => h x (List.mem_cons_of_mem _ hx)
    have he := h e (List.mem_cons_self ..)
    unfold mins
    split
    · rfl
    · simp only [mget_cons, ht]
      by_cases hj : j = k
      · rw [if_neg (by omega)]; simp [hj]
      · simp [hj]

theorem mdel_keys (m : SMap α) (k : Nat) : ∀ e ∈ mdel m k, e.1 ≠ k := by
  intro e he
  simpa [mdel] using (List.mem_filter.mp he).2

/-- What a map reads after a write: the value at its key, and everywhere else what it read before. -/
theorem mget_mput [DecidableEq α] (d : α) (m : SMap α) (k j : Nat) (v : α) :
    mget d (mput d m k v) j = if j = k then v else mget d m j := by
  unfold mput
  split
  · next h => rw [mget_mdel]; split <;> simp_all
  · rw [mget_mins d _ k j v (mdel_keys m k), mget_mdel]; split <;> simp_all

@[simp] theorem mget_mput_same [DecidableEq α] (d : α) (m : SMap α) (k : Nat) (v : α) : mget d (mput d m k v) k = v := by
  simp [mget_mput]

theorem mget_mput_ne [DecidableEq α] (d : α) (m : SMap α) {k j : Nat} (v : α) (h : j ≠ k) : mget d (mput d m k v) j = mget d m j := by
  simp [mget_mput, h]

/-! ### The canonical form -/

theorem mwfFrom_weaken [DecidableEq α] (d : α) {lo hi : Nat} (m : SMap α) (h : lo ≤ hi) (w : mwfFrom d (some hi) m = true) :
    mwfFrom d (some lo) m = true := by
  cases m with
  | nil => rfl
  | cons e t =>
    simp only [mwfFrom, Bool.and_eq_true, decide_eq_true_eq] at w ⊢
    exact ⟨⟨by omega, w.1.2⟩, w.2⟩

theorem mwfFrom_none [DecidableEq α] (d : α) {lo : Nat} (m : SMap α) (w : mwfFrom d (some lo) m = true) : mwfFrom d none m = true := by
  cases m with
  | nil => rfl
  | cons e t =>
    simp only [mwfFrom, Bool.and_eq_true, decide_eq_true_eq, true_and] at w ⊢
    exact ⟨w.1.2, w.2⟩

/-- Entries may be left out of a canonical map. -/
theorem mwfFrom_filter [DecidableEq α] (d : α) (p : Nat × α → Bool) (lo : Option Nat) (m : SMap α) (w : mwfFrom d lo m = true) :
    mwfFrom d lo (m.filter p) = true := by
  induction m generalizing lo with
  | nil => rfl
  | cons e t ih =>
    simp only [mwfFrom, Bool.and_eq_true] at w
    simp only [List.filter_cons]
    split
    · simp only [mwfFrom, Bool.and_eq_true]
      exact ⟨w.1, ih _ w.2⟩
    · cases lo with
      | none => exact mwfFrom_none d _ (ih _ w.2)
      | some b => exact mwfFrom_weaken d _ (by simp only [decide_eq_true_eq] at w; omega) (ih _ w.2)

theorem mwf_filter [DecidableEq α] (d : α) (p : Nat × α → Bool) (m : SMap α) (w : mwf d m = true) : mwf d (m.filter p) = true :=
  mwfFrom_filter d p none m w

theorem mwfFrom_mins [DecidableEq α] (d : α) (m : SMap α) (k : Nat) (v : α) (lo : Option Nat) (hv : v ≠ d) (hk : ∀ e ∈ m, e.1 ≠ k)
    (hl : ∀ b, lo = some b → b < k) (w : mwfFrom d lo m = true) : mwfFrom d lo (mins m k v) = true := by
  induction m generalizing lo with
  | nil =>
    cases lo with
    | none => simp [mins, mwfFrom, hv]
    | some b => simp [mins, mwfFrom, hv, hl b rfl]
  | cons e t ih =>
    have he := hk e (List.mem_cons_self ..)
    simp only [mwfFrom, Bool.and_eq_true] at w
    unfold mins
    split
    · next h =>
      simp only [mwfFrom, Bool.and_eq_true, decide_eq_true_eq]
      refine ⟨⟨?_, hv⟩, ⟨h, by simpa using w.1.2⟩, w.2⟩
      cases lo with
      | none => rfl
      | some b => simpa using hl b rfl
    · next h =>
      simp only [mwfFrom, Bool.and_eq_true]
      exact ⟨w.1, ih _ (fun x hx => hk x (List.mem_cons_of_mem _ hx)) (fun b hb => by simp at hb; omega) w.2⟩

/-- A write keeps the canonical form. -/
theorem mwf_mput [DecidableEq α] (d : α) (m : SMap α) (k : Nat) (v : α) (w : mwf d m = true) : mwf d (mput d m k v) = true := by
  have hd : mwf d (mdel m k) = true := mwf_filter d _ m w
  unfold mput
  split
  · exact hd
  · next h => exact mwfFrom_mins d _ k v none h (mdel_keys m k) (by simp) hd

/-! ### Memory -/

@[simp] theorem memByte_nil (k : Nat) : memByte [] k = 0 := rfl

theorem memByte_memPut (m : List Host.Cell) (k j : Nat) (b : Byte) : memByte (memPut m k b) j = if j = k then b else memByte m j :=
  mget_mput 0 m k j b

theorem wf_memPut (m : List Host.Cell) (k : Nat) (b : Byte) (w : Memory.wf m = true) : Memory.wf (memPut m k b) = true := mwf_mput 0 m k b w

theorem wf_memFilter (m : List Host.Cell) (p : Host.Cell → Bool) (w : Memory.wf m = true) : Memory.wf (m.filter p) = true := mwf_filter 0 p m w

theorem wf_memPutAll (m : List Host.Cell) (ws : List (Nat × Byte)) (w : Memory.wf m = true) : Memory.wf (memPutAll m ws) = true := by
  induction ws generalizing m with
  | nil => exact w
  | cons x xs ih => exact ih _ (wf_memPut m x.1 x.2 w)

theorem wf_memWrite (m : List Host.Cell) (k n v : Nat) (w : Memory.wf m = true) : Memory.wf (memWrite m k n v) = true := wf_memPutAll m _ w

theorem wf_memFill (m : List Host.Cell) (k : Nat) (bs : List Byte) (w : Memory.wf m = true) : Memory.wf (memFill m k bs) = true := wf_memPutAll m _ w

/-- A byte that writes do not name reads as before. -/
theorem memByte_memPutAll_of_notMem (m : List Host.Cell) (ws : List (Nat × Byte)) (j : Nat) (h : ∀ w ∈ ws, w.1 ≠ j) :
    memByte (memPutAll m ws) j = memByte m j := by
  induction ws generalizing m with
  | nil => rfl
  | cons x xs ih =>
    have hx : j ≠ x.1 := fun he => h x (List.mem_cons_self ..) he.symm
    exact (ih _ fun w hw => h w (List.mem_cons_of_mem _ hw)).trans (by simp [memByte_memPut, hx])

theorem byteList_keys (k v n : Nat) : ∀ w ∈ byteList k v n, k ≤ w.1 ∧ w.1 < k + n := by
  induction n generalizing k v with
  | zero => simp [byteList]
  | succ n ih =>
    intro w hw
    rcases List.mem_cons.mp hw with rfl | hw
    · exact ⟨Nat.le_refl _, by omega⟩
    · have := ih (k + 1) (v / 256) w hw
      omega

end Sys2Proof.Machine
end

