-- ==== Sys2Proof/Laws/State.lean ====
section
/-! SUPPORT. What each update of the state leaves alone: one lemma per field and update. -/

namespace Sys2Proof.Machine

/-! ### `updCrew` -/

@[simp] theorem updCrew_mem (s : State) (u : Nat) (f : Crew → Crew) : (updCrew s u f).mem = s.mem := rfl
@[simp] theorem updCrew_hw (s : State) (u : Nat) (f : Crew → Crew) : (updCrew s u f).hw = s.hw := rfl
@[simp] theorem updCrew_bar (s : State) (u : Nat) (f : Crew → Crew) : (updCrew s u f).bar = s.bar := rfl
@[simp] theorem updCrew_cycle (s : State) (u : Nat) (f : Crew → Crew) : (updCrew s u f).cycle = s.cycle := rfl
@[simp] theorem updCrew_cclk (s : State) (u : Nat) (f : Crew → Crew) : (updCrew s u f).cclk = s.cclk := rfl
@[simp] theorem updCrew_cores (s : State) (u : Nat) (f : Crew → Crew) : (updCrew s u f).cores = s.cores := rfl
@[simp] theorem updCrew_contexts (s : State) (u : Nat) (f : Crew → Crew) : (updCrew s u f).contexts = s.contexts := rfl
@[simp] theorem updCrew_issue (s : State) (u : Nat) (f : Crew → Crew) : (updCrew s u f).issue = s.issue := rfl
@[simp] theorem updCrew_ports (s : State) (u : Nat) (f : Crew → Crew) : (updCrew s u f).ports = s.ports := rfl
@[simp] theorem updCrew_runs (s : State) (u : Nat) (f : Crew → Crew) : (updCrew s u f).runs = s.runs := rfl
@[simp] theorem updCrew_ready (s : State) (u : Nat) (f : Crew → Crew) : (updCrew s u f).ready = s.ready := rfl
@[simp] theorem updCrew_queues (s : State) (u : Nat) (f : Crew → Crew) : (updCrew s u f).queues = s.queues := rfl
@[simp] theorem updCrew_tlb (s : State) (u : Nat) (f : Crew → Crew) : (updCrew s u f).tlb = s.tlb := rfl
@[simp] theorem updCrew_walks (s : State) (u : Nat) (f : Crew → Crew) : (updCrew s u f).walks = s.walks := rfl
@[simp] theorem updCrew_lines (s : State) (u : Nat) (f : Crew → Crew) : (updCrew s u f).lines = s.lines := rfl
@[simp] theorem updCrew_dirty (s : State) (u : Nat) (f : Crew → Crew) : (updCrew s u f).dirty = s.dirty := rfl
@[simp] theorem updCrew_pinned (s : State) (u : Nat) (f : Crew → Crew) : (updCrew s u f).pinned = s.pinned := rfl
@[simp] theorem updCrew_tags (s : State) (u : Nat) (f : Crew → Crew) : (updCrew s u f).tags = s.tags := rfl
@[simp] theorem updCrew_loads (s : State) (u : Nat) (f : Crew → Crew) : (updCrew s u f).loads = s.loads := rfl
@[simp] theorem updCrew_stores (s : State) (u : Nat) (f : Crew → Crew) : (updCrew s u f).stores = s.stores := rfl
@[simp] theorem updCrew_waiters (s : State) (u : Nat) (f : Crew → Crew) : (updCrew s u f).waiters = s.waiters := rfl
@[simp] theorem updCrew_wokenReqs (s : State) (u : Nat) (f : Crew → Crew) : (updCrew s u f).wokenReqs = s.wokenReqs := rfl
@[simp] theorem updCrew_genQueue (s : State) (u : Nat) (f : Crew → Crew) : (updCrew s u f).genQueue = s.genQueue := rfl
@[simp] theorem updCrew_nodes (s : State) (u : Nat) (f : Crew → Crew) : (updCrew s u f).nodes = s.nodes := rfl
@[simp] theorem updCrew_tileReqs (s : State) (u : Nat) (f : Crew → Crew) : (updCrew s u f).tileReqs = s.tileReqs := rfl
@[simp] theorem updCrew_flume (s : State) (u : Nat) (f : Crew → Crew) : (updCrew s u f).flume = s.flume := rfl
@[simp] theorem updCrew_rings (s : State) (u : Nat) (f : Crew → Crew) : (updCrew s u f).rings = s.rings := rfl
@[simp] theorem updCrew_ringCame (s : State) (u : Nat) (f : Crew → Crew) : (updCrew s u f).ringCame = s.ringCame := rfl
@[simp] theorem updCrew_colls (s : State) (u : Nat) (f : Crew → Crew) : (updCrew s u f).colls = s.colls := rfl
@[simp] theorem updCrew_collSeq (s : State) (u : Nat) (f : Crew → Crew) : (updCrew s u f).collSeq = s.collSeq := rfl
@[simp] theorem updCrew_querns (s : State) (u : Nat) (f : Crew → Crew) : (updCrew s u f).querns = s.querns := rfl
@[simp] theorem updCrew_migs (s : State) (u : Nat) (f : Crew → Crew) : (updCrew s u f).migs = s.migs := rfl
@[simp] theorem updCrew_moves (s : State) (u : Nat) (f : Crew → Crew) : (updCrew s u f).moves = s.moves := rfl
@[simp] theorem updCrew_demandFaults (s : State) (u : Nat) (f : Crew → Crew) : (updCrew s u f).demandFaults = s.demandFaults := rfl
@[simp] theorem updCrew_engineWaits (s : State) (u : Nat) (f : Crew → Crew) : (updCrew s u f).engineWaits = s.engineWaits := rfl
@[simp] theorem updCrew_failed (s : State) (u : Nat) (f : Crew → Crew) : (updCrew s u f).failed = s.failed := rfl
@[simp] theorem updCrew_expansions (s : State) (u : Nat) (f : Crew → Crew) : (updCrew s u f).expansions = s.expansions := rfl
@[simp] theorem updCrew_rays (s : State) (u : Nat) (f : Crew → Crew) : (updCrew s u f).rays = s.rays := rfl
@[simp] theorem updCrew_drains (s : State) (u : Nat) (f : Crew → Crew) : (updCrew s u f).drains = s.drains := rfl
@[simp] theorem updCrew_slots (s : State) (u : Nat) (f : Crew → Crew) : (updCrew s u f).slots = s.slots := rfl
@[simp] theorem updCrew_held (s : State) (u : Nat) (f : Crew → Crew) : (updCrew s u f).held = s.held := rfl
@[simp] theorem updCrew_pubs (s : State) (u : Nat) (f : Crew → Crew) : (updCrew s u f).pubs = s.pubs := rfl
@[simp] theorem updCrew_filters (s : State) (u : Nat) (f : Crew → Crew) : (updCrew s u f).filters = s.filters := rfl
@[simp] theorem updCrew_vis (s : State) (u : Nat) (f : Crew → Crew) : (updCrew s u f).vis = s.vis := rfl
@[simp] theorem updCrew_replays (s : State) (u : Nat) (f : Crew → Crew) : (updCrew s u f).replays = s.replays := rfl
@[simp] theorem updCrew_svc (s : State) (u : Nat) (f : Crew → Crew) : (updCrew s u f).svc = s.svc := rfl
@[simp] theorem updCrew_collectors (s : State) (u : Nat) (f : Crew → Crew) : (updCrew s u f).collectors = s.collectors := rfl
@[simp] theorem updCrew_replies (s : State) (u : Nat) (f : Crew → Crew) : (updCrew s u f).replies = s.replies := rfl
@[simp] theorem updCrew_outbox (s : State) (u : Nat) (f : Crew → Crew) : (updCrew s u f).outbox = s.outbox := rfl
@[simp] theorem updCrew_agenda (s : State) (u : Nat) (f : Crew → Crew) : (updCrew s u f).agenda = s.agenda := rfl
@[simp] theorem updCrew_lastCore (s : State) (u : Nat) (f : Crew → Crew) : (updCrew s u f).lastCore = s.lastCore := rfl
@[simp] theorem updCrew_nextId (s : State) (u : Nat) (f : Crew → Crew) : (updCrew s u f).nextId = s.nextId := rfl
@[simp] theorem updCrew_freeIdx (s : State) (u : Nat) (f : Crew → Crew) : (updCrew s u f).freeIdx = s.freeIdx := rfl

/-! ### `updT` -/

@[simp] theorem updT_mem (s : State) (u i : Nat) (f : Thread → Thread) : (updT s u i f).mem = s.mem := rfl
@[simp] theorem updT_hw (s : State) (u i : Nat) (f : Thread → Thread) : (updT s u i f).hw = s.hw := rfl
@[simp] theorem updT_bar (s : State) (u i : Nat) (f : Thread → Thread) : (updT s u i f).bar = s.bar := rfl
@[simp] theorem updT_cycle (s : State) (u i : Nat) (f : Thread → Thread) : (updT s u i f).cycle = s.cycle := rfl
@[simp] theorem updT_cclk (s : State) (u i : Nat) (f : Thread → Thread) : (updT s u i f).cclk = s.cclk := rfl
@[simp] theorem updT_cores (s : State) (u i : Nat) (f : Thread → Thread) : (updT s u i f).cores = s.cores := rfl
@[simp] theorem updT_contexts (s : State) (u i : Nat) (f : Thread → Thread) : (updT s u i f).contexts = s.contexts := rfl
@[simp] theorem updT_issue (s : State) (u i : Nat) (f : Thread → Thread) : (updT s u i f).issue = s.issue := rfl
@[simp] theorem updT_ports (s : State) (u i : Nat) (f : Thread → Thread) : (updT s u i f).ports = s.ports := rfl
@[simp] theorem updT_runs (s : State) (u i : Nat) (f : Thread → Thread) : (updT s u i f).runs = s.runs := rfl
@[simp] theorem updT_ready (s : State) (u i : Nat) (f : Thread → Thread) : (updT s u i f).ready = s.ready := rfl
@[simp] theorem updT_queues (s : State) (u i : Nat) (f : Thread → Thread) : (updT s u i f).queues = s.queues := rfl
@[simp] theorem updT_tlb (s : State) (u i : Nat) (f : Thread → Thread) : (updT s u i f).tlb = s.tlb := rfl
@[simp] theorem updT_walks (s : State) (u i : Nat) (f : Thread → Thread) : (updT s u i f).walks = s.walks := rfl
@[simp] theorem updT_lines (s : State) (u i : Nat) (f : Thread → Thread) : (updT s u i f).lines = s.lines := rfl
@[simp] theorem updT_dirty (s : State) (u i : Nat) (f : Thread → Thread) : (updT s u i f).dirty = s.dirty := rfl
@[simp] theorem updT_pinned (s : State) (u i : Nat) (f : Thread → Thread) : (updT s u i f).pinned = s.pinned := rfl
@[simp] theorem updT_tags (s : State) (u i : Nat) (f : Thread → Thread) : (updT s u i f).tags = s.tags := rfl
@[simp] theorem updT_loads (s : State) (u i : Nat) (f : Thread → Thread) : (updT s u i f).loads = s.loads := rfl
@[simp] theorem updT_stores (s : State) (u i : Nat) (f : Thread → Thread) : (updT s u i f).stores = s.stores := rfl
@[simp] theorem updT_waiters (s : State) (u i : Nat) (f : Thread → Thread) : (updT s u i f).waiters = s.waiters := rfl
@[simp] theorem updT_wokenReqs (s : State) (u i : Nat) (f : Thread → Thread) : (updT s u i f).wokenReqs = s.wokenReqs := rfl
@[simp] theorem updT_genQueue (s : State) (u i : Nat) (f : Thread → Thread) : (updT s u i f).genQueue = s.genQueue := rfl
@[simp] theorem updT_nodes (s : State) (u i : Nat) (f : Thread → Thread) : (updT s u i f).nodes = s.nodes := rfl
@[simp] theorem updT_tileReqs (s : State) (u i : Nat) (f : Thread → Thread) : (updT s u i f).tileReqs = s.tileReqs := rfl
@[simp] theorem updT_flume (s : State) (u i : Nat) (f : Thread → Thread) : (updT s u i f).flume = s.flume := rfl
@[simp] theorem updT_rings (s : State) (u i : Nat) (f : Thread → Thread) : (updT s u i f).rings = s.rings := rfl
@[simp] theorem updT_ringCame (s : State) (u i : Nat) (f : Thread → Thread) : (updT s u i f).ringCame = s.ringCame := rfl
@[simp] theorem updT_colls (s : State) (u i : Nat) (f : Thread → Thread) : (updT s u i f).colls = s.colls := rfl
@[simp] theorem updT_collSeq (s : State) (u i : Nat) (f : Thread → Thread) : (updT s u i f).collSeq = s.collSeq := rfl
@[simp] theorem updT_querns (s : State) (u i : Nat) (f : Thread → Thread) : (updT s u i f).querns = s.querns := rfl
@[simp] theorem updT_migs (s : State) (u i : Nat) (f : Thread → Thread) : (updT s u i f).migs = s.migs := rfl
@[simp] theorem updT_moves (s : State) (u i : Nat) (f : Thread → Thread) : (updT s u i f).moves = s.moves := rfl
@[simp] theorem updT_demandFaults (s : State) (u i : Nat) (f : Thread → Thread) : (updT s u i f).demandFaults = s.demandFaults := rfl
@[simp] theorem updT_engineWaits (s : State) (u i : Nat) (f : Thread → Thread) : (updT s u i f).engineWaits = s.engineWaits := rfl
@[simp] theorem updT_failed (s : State) (u i : Nat) (f : Thread → Thread) : (updT s u i f).failed = s.failed := rfl
@[simp] theorem updT_expansions (s : State) (u i : Nat) (f : Thread → Thread) : (updT s u i f).expansions = s.expansions := rfl
@[simp] theorem updT_rays (s : State) (u i : Nat) (f : Thread → Thread) : (updT s u i f).rays = s.rays := rfl
@[simp] theorem updT_drains (s : State) (u i : Nat) (f : Thread → Thread) : (updT s u i f).drains = s.drains := rfl
@[simp] theorem updT_slots (s : State) (u i : Nat) (f : Thread → Thread) : (updT s u i f).slots = s.slots := rfl
@[simp] theorem updT_held (s : State) (u i : Nat) (f : Thread → Thread) : (updT s u i f).held = s.held := rfl
@[simp] theorem updT_pubs (s : State) (u i : Nat) (f : Thread → Thread) : (updT s u i f).pubs = s.pubs := rfl
@[simp] theorem updT_filters (s : State) (u i : Nat) (f : Thread → Thread) : (updT s u i f).filters = s.filters := rfl
@[simp] theorem updT_vis (s : State) (u i : Nat) (f : Thread → Thread) : (updT s u i f).vis = s.vis := rfl
@[simp] theorem updT_replays (s : State) (u i : Nat) (f : Thread → Thread) : (updT s u i f).replays = s.replays := rfl
@[simp] theorem updT_svc (s : State) (u i : Nat) (f : Thread → Thread) : (updT s u i f).svc = s.svc := rfl
@[simp] theorem updT_collectors (s : State) (u i : Nat) (f : Thread → Thread) : (updT s u i f).collectors = s.collectors := rfl
@[simp] theorem updT_replies (s : State) (u i : Nat) (f : Thread → Thread) : (updT s u i f).replies = s.replies := rfl
@[simp] theorem updT_outbox (s : State) (u i : Nat) (f : Thread → Thread) : (updT s u i f).outbox = s.outbox := rfl
@[simp] theorem updT_agenda (s : State) (u i : Nat) (f : Thread → Thread) : (updT s u i f).agenda = s.agenda := rfl
@[simp] theorem updT_lastCore (s : State) (u i : Nat) (f : Thread → Thread) : (updT s u i f).lastCore = s.lastCore := rfl
@[simp] theorem updT_nextId (s : State) (u i : Nat) (f : Thread → Thread) : (updT s u i f).nextId = s.nextId := rfl
@[simp] theorem updT_freeIdx (s : State) (u i : Nat) (f : Thread → Thread) : (updT s u i f).freeIdx = s.freeIdx := rfl

/-! ### `updCtx` -/

@[simp] theorem updCtx_mem (s : State) (i : Nat) (f : Context → Context) : (updCtx s i f).mem = s.mem := rfl
@[simp] theorem updCtx_hw (s : State) (i : Nat) (f : Context → Context) : (updCtx s i f).hw = s.hw := rfl
@[simp] theorem updCtx_bar (s : State) (i : Nat) (f : Context → Context) : (updCtx s i f).bar = s.bar := rfl
@[simp] theorem updCtx_cycle (s : State) (i : Nat) (f : Context → Context) : (updCtx s i f).cycle = s.cycle := rfl
@[simp] theorem updCtx_cclk (s : State) (i : Nat) (f : Context → Context) : (updCtx s i f).cclk = s.cclk := rfl
@[simp] theorem updCtx_cores (s : State) (i : Nat) (f : Context → Context) : (updCtx s i f).cores = s.cores := rfl
@[simp] theorem updCtx_crews (s : State) (i : Nat) (f : Context → Context) : (updCtx s i f).crews = s.crews := rfl
@[simp] theorem updCtx_issue (s : State) (i : Nat) (f : Context → Context) : (updCtx s i f).issue = s.issue := rfl
@[simp] theorem updCtx_ports (s : State) (i : Nat) (f : Context → Context) : (updCtx s i f).ports = s.ports := rfl
@[simp] theorem updCtx_runs (s : State) (i : Nat) (f : Context → Context) : (updCtx s i f).runs = s.runs := rfl
@[simp] theorem updCtx_ready (s : State) (i : Nat) (f : Context → Context) : (updCtx s i f).ready = s.ready := rfl
@[simp] theorem updCtx_queues (s : State) (i : Nat) (f : Context → Context) : (updCtx s i f).queues = s.queues := rfl
@[simp] theorem updCtx_tlb (s : State) (i : Nat) (f : Context → Context) : (updCtx s i f).tlb = s.tlb := rfl
@[simp] theorem updCtx_walks (s : State) (i : Nat) (f : Context → Context) : (updCtx s i f).walks = s.walks := rfl
@[simp] theorem updCtx_lines (s : State) (i : Nat) (f : Context → Context) : (updCtx s i f).lines = s.lines := rfl
@[simp] theorem updCtx_dirty (s : State) (i : Nat) (f : Context → Context) : (updCtx s i f).dirty = s.dirty := rfl
@[simp] theorem updCtx_pinned (s : State) (i : Nat) (f : Context → Context) : (updCtx s i f).pinned = s.pinned := rfl
@[simp] theorem updCtx_tags (s : State) (i : Nat) (f : Context → Context) : (updCtx s i f).tags = s.tags := rfl
@[simp] theorem updCtx_loads (s : State) (i : Nat) (f : Context → Context) : (updCtx s i f).loads = s.loads := rfl
@[simp] theorem updCtx_stores (s : State) (i : Nat) (f : Context → Context) : (updCtx s i f).stores = s.stores := rfl
@[simp] theorem updCtx_waiters (s : State) (i : Nat) (f : Context → Context) : (updCtx s i f).waiters = s.waiters := rfl
@[simp] theorem updCtx_wokenReqs (s : State) (i : Nat) (f : Context → Context) : (updCtx s i f).wokenReqs = s.wokenReqs := rfl
@[simp] theorem updCtx_genQueue (s : State) (i : Nat) (f : Context → Context) : (updCtx s i f).genQueue = s.genQueue := rfl
@[simp] theorem updCtx_nodes (s : State) (i : Nat) (f : Context → Context) : (updCtx s i f).nodes = s.nodes := rfl
@[simp] theorem updCtx_tileReqs (s : State) (i : Nat) (f : Context → Context) : (updCtx s i f).tileReqs = s.tileReqs := rfl
@[simp] theorem updCtx_flume (s : State) (i : Nat) (f : Context → Context) : (updCtx s i f).flume = s.flume := rfl
@[simp] theorem updCtx_rings (s : State) (i : Nat) (f : Context → Context) : (updCtx s i f).rings = s.rings := rfl
@[simp] theorem updCtx_ringCame (s : State) (i : Nat) (f : Context → Context) : (updCtx s i f).ringCame = s.ringCame := rfl
@[simp] theorem updCtx_colls (s : State) (i : Nat) (f : Context → Context) : (updCtx s i f).colls = s.colls := rfl
@[simp] theorem updCtx_collSeq (s : State) (i : Nat) (f : Context → Context) : (updCtx s i f).collSeq = s.collSeq := rfl
@[simp] theorem updCtx_querns (s : State) (i : Nat) (f : Context → Context) : (updCtx s i f).querns = s.querns := rfl
@[simp] theorem updCtx_migs (s : State) (i : Nat) (f : Context → Context) : (updCtx s i f).migs = s.migs := rfl
@[simp] theorem updCtx_moves (s : State) (i : Nat) (f : Context → Context) : (updCtx s i f).moves = s.moves := rfl
@[simp] theorem updCtx_demandFaults (s : State) (i : Nat) (f : Context → Context) : (updCtx s i f).demandFaults = s.demandFaults := rfl
@[simp] theorem updCtx_engineWaits (s : State) (i : Nat) (f : Context → Context) : (updCtx s i f).engineWaits = s.engineWaits := rfl
@[simp] theorem updCtx_failed (s : State) (i : Nat) (f : Context → Context) : (updCtx s i f).failed = s.failed := rfl
@[simp] theorem updCtx_expansions (s : State) (i : Nat) (f : Context → Context) : (updCtx s i f).expansions = s.expansions := rfl
@[simp] theorem updCtx_rays (s : State) (i : Nat) (f : Context → Context) : (updCtx s i f).rays = s.rays := rfl
@[simp] theorem updCtx_drains (s : State) (i : Nat) (f : Context → Context) : (updCtx s i f).drains = s.drains := rfl
@[simp] theorem updCtx_slots (s : State) (i : Nat) (f : Context → Context) : (updCtx s i f).slots = s.slots := rfl
@[simp] theorem updCtx_held (s : State) (i : Nat) (f : Context → Context) : (updCtx s i f).held = s.held := rfl
@[simp] theorem updCtx_pubs (s : State) (i : Nat) (f : Context → Context) : (updCtx s i f).pubs = s.pubs := rfl
@[simp] theorem updCtx_filters (s : State) (i : Nat) (f : Context → Context) : (updCtx s i f).filters = s.filters := rfl
@[simp] theorem updCtx_vis (s : State) (i : Nat) (f : Context → Context) : (updCtx s i f).vis = s.vis := rfl
@[simp] theorem updCtx_replays (s : State) (i : Nat) (f : Context → Context) : (updCtx s i f).replays = s.replays := rfl
@[simp] theorem updCtx_svc (s : State) (i : Nat) (f : Context → Context) : (updCtx s i f).svc = s.svc := rfl
@[simp] theorem updCtx_collectors (s : State) (i : Nat) (f : Context → Context) : (updCtx s i f).collectors = s.collectors := rfl
@[simp] theorem updCtx_replies (s : State) (i : Nat) (f : Context → Context) : (updCtx s i f).replies = s.replies := rfl
@[simp] theorem updCtx_outbox (s : State) (i : Nat) (f : Context → Context) : (updCtx s i f).outbox = s.outbox := rfl
@[simp] theorem updCtx_agenda (s : State) (i : Nat) (f : Context → Context) : (updCtx s i f).agenda = s.agenda := rfl
@[simp] theorem updCtx_lastCore (s : State) (i : Nat) (f : Context → Context) : (updCtx s i f).lastCore = s.lastCore := rfl
@[simp] theorem updCtx_nextId (s : State) (i : Nat) (f : Context → Context) : (updCtx s i f).nextId = s.nextId := rfl
@[simp] theorem updCtx_freeIdx (s : State) (i : Nat) (f : Context → Context) : (updCtx s i f).freeIdx = s.freeIdx := rfl

/-! ### `updRun` -/

@[simp] theorem updRun_mem (s : State) (i : Nat) (f : Run → Run) : (updRun s i f).mem = s.mem := rfl
@[simp] theorem updRun_hw (s : State) (i : Nat) (f : Run → Run) : (updRun s i f).hw = s.hw := rfl
@[simp] theorem updRun_bar (s : State) (i : Nat) (f : Run → Run) : (updRun s i f).bar = s.bar := rfl
@[simp] theorem updRun_cycle (s : State) (i : Nat) (f : Run → Run) : (updRun s i f).cycle = s.cycle := rfl
@[simp] theorem updRun_cclk (s : State) (i : Nat) (f : Run → Run) : (updRun s i f).cclk = s.cclk := rfl
@[simp] theorem updRun_cores (s : State) (i : Nat) (f : Run → Run) : (updRun s i f).cores = s.cores := rfl
@[simp] theorem updRun_contexts (s : State) (i : Nat) (f : Run → Run) : (updRun s i f).contexts = s.contexts := rfl
@[simp] theorem updRun_crews (s : State) (i : Nat) (f : Run → Run) : (updRun s i f).crews = s.crews := rfl
@[simp] theorem updRun_issue (s : State) (i : Nat) (f : Run → Run) : (updRun s i f).issue = s.issue := rfl
@[simp] theorem updRun_ports (s : State) (i : Nat) (f : Run → Run) : (updRun s i f).ports = s.ports := rfl
@[simp] theorem updRun_ready (s : State) (i : Nat) (f : Run → Run) : (updRun s i f).ready = s.ready := rfl
@[simp] theorem updRun_queues (s : State) (i : Nat) (f : Run → Run) : (updRun s i f).queues = s.queues := rfl
@[simp] theorem updRun_tlb (s : State) (i : Nat) (f : Run → Run) : (updRun s i f).tlb = s.tlb := rfl
@[simp] theorem updRun_walks (s : State) (i : Nat) (f : Run → Run) : (updRun s i f).walks = s.walks := rfl
@[simp] theorem updRun_lines (s : State) (i : Nat) (f : Run → Run) : (updRun s i f).lines = s.lines := rfl
@[simp] theorem updRun_dirty (s : State) (i : Nat) (f : Run → Run) : (updRun s i f).dirty = s.dirty := rfl
@[simp] theorem updRun_pinned (s : State) (i : Nat) (f : Run → Run) : (updRun s i f).pinned = s.pinned := rfl
@[simp] theorem updRun_tags (s : State) (i : Nat) (f : Run → Run) : (updRun s i f).tags = s.tags := rfl
@[simp] theorem updRun_loads (s : State) (i : Nat) (f : Run → Run) : (updRun s i f).loads = s.loads := rfl
@[simp] theorem updRun_stores (s : State) (i : Nat) (f : Run → Run) : (updRun s i f).stores = s.stores := rfl
@[simp] theorem updRun_waiters (s : State) (i : Nat) (f : Run → Run) : (updRun s i f).waiters = s.waiters := rfl
@[simp] theorem updRun_wokenReqs (s : State) (i : Nat) (f : Run → Run) : (updRun s i f).wokenReqs = s.wokenReqs := rfl
@[simp] theorem updRun_genQueue (s : State) (i : Nat) (f : Run → Run) : (updRun s i f).genQueue = s.genQueue := rfl
@[simp] theorem updRun_nodes (s : State) (i : Nat) (f : Run → Run) : (updRun s i f).nodes = s.nodes := rfl
@[simp] theorem updRun_tileReqs (s : State) (i : Nat) (f : Run → Run) : (updRun s i f).tileReqs = s.tileReqs := rfl
@[simp] theorem updRun_flume (s : State) (i : Nat) (f : Run → Run) : (updRun s i f).flume = s.flume := rfl
@[simp] theorem updRun_rings (s : State) (i : Nat) (f : Run → Run) : (updRun s i f).rings = s.rings := rfl
@[simp] theorem updRun_ringCame (s : State) (i : Nat) (f : Run → Run) : (updRun s i f).ringCame = s.ringCame := rfl
@[simp] theorem updRun_colls (s : State) (i : Nat) (f : Run → Run) : (updRun s i f).colls = s.colls := rfl
@[simp] theorem updRun_collSeq (s : State) (i : Nat) (f : Run → Run) : (updRun s i f).collSeq = s.collSeq := rfl
@[simp] theorem updRun_querns (s : State) (i : Nat) (f : Run → Run) : (updRun s i f).querns = s.querns := rfl
@[simp] theorem updRun_migs (s : State) (i : Nat) (f : Run → Run) : (updRun s i f).migs = s.migs := rfl
@[simp] theorem updRun_moves (s : State) (i : Nat) (f : Run → Run) : (updRun s i f).moves = s.moves := rfl
@[simp] theorem updRun_demandFaults (s : State) (i : Nat) (f : Run → Run) : (updRun s i f).demandFaults = s.demandFaults := rfl
@[simp] theorem updRun_engineWaits (s : State) (i : Nat) (f : Run → Run) : (updRun s i f).engineWaits = s.engineWaits := rfl
@[simp] theorem updRun_failed (s : State) (i : Nat) (f : Run → Run) : (updRun s i f).failed = s.failed := rfl
@[simp] theorem updRun_expansions (s : State) (i : Nat) (f : Run → Run) : (updRun s i f).expansions = s.expansions := rfl
@[simp] theorem updRun_rays (s : State) (i : Nat) (f : Run → Run) : (updRun s i f).rays = s.rays := rfl
@[simp] theorem updRun_drains (s : State) (i : Nat) (f : Run → Run) : (updRun s i f).drains = s.drains := rfl
@[simp] theorem updRun_slots (s : State) (i : Nat) (f : Run → Run) : (updRun s i f).slots = s.slots := rfl
@[simp] theorem updRun_held (s : State) (i : Nat) (f : Run → Run) : (updRun s i f).held = s.held := rfl
@[simp] theorem updRun_pubs (s : State) (i : Nat) (f : Run → Run) : (updRun s i f).pubs = s.pubs := rfl
@[simp] theorem updRun_filters (s : State) (i : Nat) (f : Run → Run) : (updRun s i f).filters = s.filters := rfl
@[simp] theorem updRun_vis (s : State) (i : Nat) (f : Run → Run) : (updRun s i f).vis = s.vis := rfl
@[simp] theorem updRun_replays (s : State) (i : Nat) (f : Run → Run) : (updRun s i f).replays = s.replays := rfl
@[simp] theorem updRun_svc (s : State) (i : Nat) (f : Run → Run) : (updRun s i f).svc = s.svc := rfl
@[simp] theorem updRun_collectors (s : State) (i : Nat) (f : Run → Run) : (updRun s i f).collectors = s.collectors := rfl
@[simp] theorem updRun_replies (s : State) (i : Nat) (f : Run → Run) : (updRun s i f).replies = s.replies := rfl
@[simp] theorem updRun_outbox (s : State) (i : Nat) (f : Run → Run) : (updRun s i f).outbox = s.outbox := rfl
@[simp] theorem updRun_agenda (s : State) (i : Nat) (f : Run → Run) : (updRun s i f).agenda = s.agenda := rfl
@[simp] theorem updRun_lastCore (s : State) (i : Nat) (f : Run → Run) : (updRun s i f).lastCore = s.lastCore := rfl
@[simp] theorem updRun_nextId (s : State) (i : Nat) (f : Run → Run) : (updRun s i f).nextId = s.nextId := rfl
@[simp] theorem updRun_freeIdx (s : State) (i : Nat) (f : Run → Run) : (updRun s i f).freeIdx = s.freeIdx := rfl

/-! ### `updCore` -/

@[simp] theorem updCore_mem (s : State) (k : Nat) (f : Core → Core) : (updCore s k f).mem = s.mem := rfl
@[simp] theorem updCore_hw (s : State) (k : Nat) (f : Core → Core) : (updCore s k f).hw = s.hw := rfl
@[simp] theorem updCore_bar (s : State) (k : Nat) (f : Core → Core) : (updCore s k f).bar = s.bar := rfl
@[simp] theorem updCore_cycle (s : State) (k : Nat) (f : Core → Core) : (updCore s k f).cycle = s.cycle := rfl
@[simp] theorem updCore_cclk (s : State) (k : Nat) (f : Core → Core) : (updCore s k f).cclk = s.cclk := rfl
@[simp] theorem updCore_contexts (s : State) (k : Nat) (f : Core → Core) : (updCore s k f).contexts = s.contexts := rfl
@[simp] theorem updCore_crews (s : State) (k : Nat) (f : Core → Core) : (updCore s k f).crews = s.crews := rfl
@[simp] theorem updCore_issue (s : State) (k : Nat) (f : Core → Core) : (updCore s k f).issue = s.issue := rfl
@[simp] theorem updCore_ports (s : State) (k : Nat) (f : Core → Core) : (updCore s k f).ports = s.ports := rfl
@[simp] theorem updCore_runs (s : State) (k : Nat) (f : Core → Core) : (updCore s k f).runs = s.runs := rfl
@[simp] theorem updCore_ready (s : State) (k : Nat) (f : Core → Core) : (updCore s k f).ready = s.ready := rfl
@[simp] theorem updCore_queues (s : State) (k : Nat) (f : Core → Core) : (updCore s k f).queues = s.queues := rfl
@[simp] theorem updCore_tlb (s : State) (k : Nat) (f : Core → Core) : (updCore s k f).tlb = s.tlb := rfl
@[simp] theorem updCore_walks (s : State) (k : Nat) (f : Core → Core) : (updCore s k f).walks = s.walks := rfl
@[simp] theorem updCore_lines (s : State) (k : Nat) (f : Core → Core) : (updCore s k f).lines = s.lines := rfl
@[simp] theorem updCore_dirty (s : State) (k : Nat) (f : Core → Core) : (updCore s k f).dirty = s.dirty := rfl
@[simp] theorem updCore_pinned (s : State) (k : Nat) (f : Core → Core) : (updCore s k f).pinned = s.pinned := rfl
@[simp] theorem updCore_tags (s : State) (k : Nat) (f : Core → Core) : (updCore s k f).tags = s.tags := rfl
@[simp] theorem updCore_loads (s : State) (k : Nat) (f : Core → Core) : (updCore s k f).loads = s.loads := rfl
@[simp] theorem updCore_stores (s : State) (k : Nat) (f : Core → Core) : (updCore s k f).stores = s.stores := rfl
@[simp] theorem updCore_waiters (s : State) (k : Nat) (f : Core → Core) : (updCore s k f).waiters = s.waiters := rfl
@[simp] theorem updCore_wokenReqs (s : State) (k : Nat) (f : Core → Core) : (updCore s k f).wokenReqs = s.wokenReqs := rfl
@[simp] theorem updCore_genQueue (s : State) (k : Nat) (f : Core → Core) : (updCore s k f).genQueue = s.genQueue := rfl
@[simp] theorem updCore_nodes (s : State) (k : Nat) (f : Core → Core) : (updCore s k f).nodes = s.nodes := rfl
@[simp] theorem updCore_tileReqs (s : State) (k : Nat) (f : Core → Core) : (updCore s k f).tileReqs = s.tileReqs := rfl
@[simp] theorem updCore_flume (s : State) (k : Nat) (f : Core → Core) : (updCore s k f).flume = s.flume := rfl
@[simp] theorem updCore_rings (s : State) (k : Nat) (f : Core → Core) : (updCore s k f).rings = s.rings := rfl
@[simp] theorem updCore_ringCame (s : State) (k : Nat) (f : Core → Core) : (updCore s k f).ringCame = s.ringCame := rfl
@[simp] theorem updCore_colls (s : State) (k : Nat) (f : Core → Core) : (updCore s k f).colls = s.colls := rfl
@[simp] theorem updCore_collSeq (s : State) (k : Nat) (f : Core → Core) : (updCore s k f).collSeq = s.collSeq := rfl
@[simp] theorem updCore_querns (s : State) (k : Nat) (f : Core → Core) : (updCore s k f).querns = s.querns := rfl
@[simp] theorem updCore_migs (s : State) (k : Nat) (f : Core → Core) : (updCore s k f).migs = s.migs := rfl
@[simp] theorem updCore_moves (s : State) (k : Nat) (f : Core → Core) : (updCore s k f).moves = s.moves := rfl
@[simp] theorem updCore_demandFaults (s : State) (k : Nat) (f : Core → Core) : (updCore s k f).demandFaults = s.demandFaults := rfl
@[simp] theorem updCore_engineWaits (s : State) (k : Nat) (f : Core → Core) : (updCore s k f).engineWaits = s.engineWaits := rfl
@[simp] theorem updCore_failed (s : State) (k : Nat) (f : Core → Core) : (updCore s k f).failed = s.failed := rfl
@[simp] theorem updCore_expansions (s : State) (k : Nat) (f : Core → Core) : (updCore s k f).expansions = s.expansions := rfl
@[simp] theorem updCore_rays (s : State) (k : Nat) (f : Core → Core) : (updCore s k f).rays = s.rays := rfl
@[simp] theorem updCore_drains (s : State) (k : Nat) (f : Core → Core) : (updCore s k f).drains = s.drains := rfl
@[simp] theorem updCore_slots (s : State) (k : Nat) (f : Core → Core) : (updCore s k f).slots = s.slots := rfl
@[simp] theorem updCore_held (s : State) (k : Nat) (f : Core → Core) : (updCore s k f).held = s.held := rfl
@[simp] theorem updCore_pubs (s : State) (k : Nat) (f : Core → Core) : (updCore s k f).pubs = s.pubs := rfl
@[simp] theorem updCore_filters (s : State) (k : Nat) (f : Core → Core) : (updCore s k f).filters = s.filters := rfl
@[simp] theorem updCore_vis (s : State) (k : Nat) (f : Core → Core) : (updCore s k f).vis = s.vis := rfl
@[simp] theorem updCore_replays (s : State) (k : Nat) (f : Core → Core) : (updCore s k f).replays = s.replays := rfl
@[simp] theorem updCore_svc (s : State) (k : Nat) (f : Core → Core) : (updCore s k f).svc = s.svc := rfl
@[simp] theorem updCore_collectors (s : State) (k : Nat) (f : Core → Core) : (updCore s k f).collectors = s.collectors := rfl
@[simp] theorem updCore_replies (s : State) (k : Nat) (f : Core → Core) : (updCore s k f).replies = s.replies := rfl
@[simp] theorem updCore_outbox (s : State) (k : Nat) (f : Core → Core) : (updCore s k f).outbox = s.outbox := rfl
@[simp] theorem updCore_agenda (s : State) (k : Nat) (f : Core → Core) : (updCore s k f).agenda = s.agenda := rfl
@[simp] theorem updCore_lastCore (s : State) (k : Nat) (f : Core → Core) : (updCore s k f).lastCore = s.lastCore := rfl
@[simp] theorem updCore_nextId (s : State) (k : Nat) (f : Core → Core) : (updCore s k f).nextId = s.nextId := rfl
@[simp] theorem updCore_freeIdx (s : State) (k : Nat) (f : Core → Core) : (updCore s k f).freeIdx = s.freeIdx := rfl

/-! ### `updQueue` -/

@[simp] theorem updQueue_mem (s : State) (q : Nat) (f : HostQueue → HostQueue) : (updQueue s q f).mem = s.mem := rfl
@[simp] theorem updQueue_hw (s : State) (q : Nat) (f : HostQueue → HostQueue) : (updQueue s q f).hw = s.hw := rfl
@[simp] theorem updQueue_bar (s : State) (q : Nat) (f : HostQueue → HostQueue) : (updQueue s q f).bar = s.bar := rfl
@[simp] theorem updQueue_cycle (s : State) (q : Nat) (f : HostQueue → HostQueue) : (updQueue s q f).cycle = s.cycle := rfl
@[simp] theorem updQueue_cclk (s : State) (q : Nat) (f : HostQueue → HostQueue) : (updQueue s q f).cclk = s.cclk := rfl
@[simp] theorem updQueue_cores (s : State) (q : Nat) (f : HostQueue → HostQueue) : (updQueue s q f).cores = s.cores := rfl
@[simp] theorem updQueue_contexts (s : State) (q : Nat) (f : HostQueue → HostQueue) : (updQueue s q f).contexts = s.contexts := rfl
@[simp] theorem updQueue_crews (s : State) (q : Nat) (f : HostQueue → HostQueue) : (updQueue s q f).crews = s.crews := rfl
@[simp] theorem updQueue_issue (s : State) (q : Nat) (f : HostQueue → HostQueue) : (updQueue s q f).issue = s.issue := rfl
@[simp] theorem updQueue_ports (s : State) (q : Nat) (f : HostQueue → HostQueue) : (updQueue s q f).ports = s.ports := rfl
@[simp] theorem updQueue_runs (s : State) (q : Nat) (f : HostQueue → HostQueue) : (updQueue s q f).runs = s.runs := rfl
@[simp] theorem updQueue_ready (s : State) (q : Nat) (f : HostQueue → HostQueue) : (updQueue s q f).ready = s.ready := rfl
@[simp] theorem updQueue_tlb (s : State) (q : Nat) (f : HostQueue → HostQueue) : (updQueue s q f).tlb = s.tlb := rfl
@[simp] theorem updQueue_walks (s : State) (q : Nat) (f : HostQueue → HostQueue) : (updQueue s q f).walks = s.walks := rfl
@[simp] theorem updQueue_lines (s : State) (q : Nat) (f : HostQueue → HostQueue) : (updQueue s q f).lines = s.lines := rfl
@[simp] theorem updQueue_dirty (s : State) (q : Nat) (f : HostQueue → HostQueue) : (updQueue s q f).dirty = s.dirty := rfl
@[simp] theorem updQueue_pinned (s : State) (q : Nat) (f : HostQueue → HostQueue) : (updQueue s q f).pinned = s.pinned := rfl
@[simp] theorem updQueue_tags (s : State) (q : Nat) (f : HostQueue → HostQueue) : (updQueue s q f).tags = s.tags := rfl
@[simp] theorem updQueue_loads (s : State) (q : Nat) (f : HostQueue → HostQueue) : (updQueue s q f).loads = s.loads := rfl
@[simp] theorem updQueue_stores (s : State) (q : Nat) (f : HostQueue → HostQueue) : (updQueue s q f).stores = s.stores := rfl
@[simp] theorem updQueue_waiters (s : State) (q : Nat) (f : HostQueue → HostQueue) : (updQueue s q f).waiters = s.waiters := rfl
@[simp] theorem updQueue_wokenReqs (s : State) (q : Nat) (f : HostQueue → HostQueue) : (updQueue s q f).wokenReqs = s.wokenReqs := rfl
@[simp] theorem updQueue_genQueue (s : State) (q : Nat) (f : HostQueue → HostQueue) : (updQueue s q f).genQueue = s.genQueue := rfl
@[simp] theorem updQueue_nodes (s : State) (q : Nat) (f : HostQueue → HostQueue) : (updQueue s q f).nodes = s.nodes := rfl
@[simp] theorem updQueue_tileReqs (s : State) (q : Nat) (f : HostQueue → HostQueue) : (updQueue s q f).tileReqs = s.tileReqs := rfl
@[simp] theorem updQueue_flume (s : State) (q : Nat) (f : HostQueue → HostQueue) : (updQueue s q f).flume = s.flume := rfl
@[simp] theorem updQueue_rings (s : State) (q : Nat) (f : HostQueue → HostQueue) : (updQueue s q f).rings = s.rings := rfl
@[simp] theorem updQueue_ringCame (s : State) (q : Nat) (f : HostQueue → HostQueue) : (updQueue s q f).ringCame = s.ringCame := rfl
@[simp] theorem updQueue_colls (s : State) (q : Nat) (f : HostQueue → HostQueue) : (updQueue s q f).colls = s.colls := rfl
@[simp] theorem updQueue_collSeq (s : State) (q : Nat) (f : HostQueue → HostQueue) : (updQueue s q f).collSeq = s.collSeq := rfl
@[simp] theorem updQueue_querns (s : State) (q : Nat) (f : HostQueue → HostQueue) : (updQueue s q f).querns = s.querns := rfl
@[simp] theorem updQueue_migs (s : State) (q : Nat) (f : HostQueue → HostQueue) : (updQueue s q f).migs = s.migs := rfl
@[simp] theorem updQueue_moves (s : State) (q : Nat) (f : HostQueue → HostQueue) : (updQueue s q f).moves = s.moves := rfl
@[simp] theorem updQueue_demandFaults (s : State) (q : Nat) (f : HostQueue → HostQueue) : (updQueue s q f).demandFaults = s.demandFaults := rfl
@[simp] theorem updQueue_engineWaits (s : State) (q : Nat) (f : HostQueue → HostQueue) : (updQueue s q f).engineWaits = s.engineWaits := rfl
@[simp] theorem updQueue_failed (s : State) (q : Nat) (f : HostQueue → HostQueue) : (updQueue s q f).failed = s.failed := rfl
@[simp] theorem updQueue_expansions (s : State) (q : Nat) (f : HostQueue → HostQueue) : (updQueue s q f).expansions = s.expansions := rfl
@[simp] theorem updQueue_rays (s : State) (q : Nat) (f : HostQueue → HostQueue) : (updQueue s q f).rays = s.rays := rfl
@[simp] theorem updQueue_drains (s : State) (q : Nat) (f : HostQueue → HostQueue) : (updQueue s q f).drains = s.drains := rfl
@[simp] theorem updQueue_slots (s : State) (q : Nat) (f : HostQueue → HostQueue) : (updQueue s q f).slots = s.slots := rfl
@[simp] theorem updQueue_held (s : State) (q : Nat) (f : HostQueue → HostQueue) : (updQueue s q f).held = s.held := rfl
@[simp] theorem updQueue_pubs (s : State) (q : Nat) (f : HostQueue → HostQueue) : (updQueue s q f).pubs = s.pubs := rfl
@[simp] theorem updQueue_filters (s : State) (q : Nat) (f : HostQueue → HostQueue) : (updQueue s q f).filters = s.filters := rfl
@[simp] theorem updQueue_vis (s : State) (q : Nat) (f : HostQueue → HostQueue) : (updQueue s q f).vis = s.vis := rfl
@[simp] theorem updQueue_replays (s : State) (q : Nat) (f : HostQueue → HostQueue) : (updQueue s q f).replays = s.replays := rfl
@[simp] theorem updQueue_svc (s : State) (q : Nat) (f : HostQueue → HostQueue) : (updQueue s q f).svc = s.svc := rfl
@[simp] theorem updQueue_collectors (s : State) (q : Nat) (f : HostQueue → HostQueue) : (updQueue s q f).collectors = s.collectors := rfl
@[simp] theorem updQueue_replies (s : State) (q : Nat) (f : HostQueue → HostQueue) : (updQueue s q f).replies = s.replies := rfl
@[simp] theorem updQueue_outbox (s : State) (q : Nat) (f : HostQueue → HostQueue) : (updQueue s q f).outbox = s.outbox := rfl
@[simp] theorem updQueue_agenda (s : State) (q : Nat) (f : HostQueue → HostQueue) : (updQueue s q f).agenda = s.agenda := rfl
@[simp] theorem updQueue_lastCore (s : State) (q : Nat) (f : HostQueue → HostQueue) : (updQueue s q f).lastCore = s.lastCore := rfl
@[simp] theorem updQueue_nextId (s : State) (q : Nat) (f : HostQueue → HostQueue) : (updQueue s q f).nextId = s.nextId := rfl
@[simp] theorem updQueue_freeIdx (s : State) (q : Nat) (f : HostQueue → HostQueue) : (updQueue s q f).freeIdx = s.freeIdx := rfl

/-! ### `updNode` -/

@[simp] theorem updNode_mem (s : State) (k i : Nat) (f : Node → Node) : (updNode s k i f).mem = s.mem := rfl
@[simp] theorem updNode_hw (s : State) (k i : Nat) (f : Node → Node) : (updNode s k i f).hw = s.hw := rfl
@[simp] theorem updNode_bar (s : State) (k i : Nat) (f : Node → Node) : (updNode s k i f).bar = s.bar := rfl
@[simp] theorem updNode_cycle (s : State) (k i : Nat) (f : Node → Node) : (updNode s k i f).cycle = s.cycle := rfl
@[simp] theorem updNode_cclk (s : State) (k i : Nat) (f : Node → Node) : (updNode s k i f).cclk = s.cclk := rfl
@[simp] theorem updNode_cores (s : State) (k i : Nat) (f : Node → Node) : (updNode s k i f).cores = s.cores := rfl
@[simp] theorem updNode_contexts (s : State) (k i : Nat) (f : Node → Node) : (updNode s k i f).contexts = s.contexts := rfl
@[simp] theorem updNode_crews (s : State) (k i : Nat) (f : Node → Node) : (updNode s k i f).crews = s.crews := rfl
@[simp] theorem updNode_issue (s : State) (k i : Nat) (f : Node → Node) : (updNode s k i f).issue = s.issue := rfl
@[simp] theorem updNode_ports (s : State) (k i : Nat) (f : Node → Node) : (updNode s k i f).ports = s.ports := rfl
@[simp] theorem updNode_runs (s : State) (k i : Nat) (f : Node → Node) : (updNode s k i f).runs = s.runs := rfl
@[simp] theorem updNode_ready (s : State) (k i : Nat) (f : Node → Node) : (updNode s k i f).ready = s.ready := rfl
@[simp] theorem updNode_queues (s : State) (k i : Nat) (f : Node → Node) : (updNode s k i f).queues = s.queues := rfl
@[simp] theorem updNode_tlb (s : State) (k i : Nat) (f : Node → Node) : (updNode s k i f).tlb = s.tlb := rfl
@[simp] theorem updNode_walks (s : State) (k i : Nat) (f : Node → Node) : (updNode s k i f).walks = s.walks := rfl
@[simp] theorem updNode_lines (s : State) (k i : Nat) (f : Node → Node) : (updNode s k i f).lines = s.lines := rfl
@[simp] theorem updNode_dirty (s : State) (k i : Nat) (f : Node → Node) : (updNode s k i f).dirty = s.dirty := rfl
@[simp] theorem updNode_pinned (s : State) (k i : Nat) (f : Node → Node) : (updNode s k i f).pinned = s.pinned := rfl
@[simp] theorem updNode_tags (s : State) (k i : Nat) (f : Node → Node) : (updNode s k i f).tags = s.tags := rfl
@[simp] theorem updNode_loads (s : State) (k i : Nat) (f : Node → Node) : (updNode s k i f).loads = s.loads := rfl
@[simp] theorem updNode_stores (s : State) (k i : Nat) (f : Node → Node) : (updNode s k i f).stores = s.stores := rfl
@[simp] theorem updNode_waiters (s : State) (k i : Nat) (f : Node → Node) : (updNode s k i f).waiters = s.waiters := rfl
@[simp] theorem updNode_wokenReqs (s : State) (k i : Nat) (f : Node → Node) : (updNode s k i f).wokenReqs = s.wokenReqs := rfl
@[simp] theorem updNode_genQueue (s : State) (k i : Nat) (f : Node → Node) : (updNode s k i f).genQueue = s.genQueue := rfl
@[simp] theorem updNode_tileReqs (s : State) (k i : Nat) (f : Node → Node) : (updNode s k i f).tileReqs = s.tileReqs := rfl
@[simp] theorem updNode_flume (s : State) (k i : Nat) (f : Node → Node) : (updNode s k i f).flume = s.flume := rfl
@[simp] theorem updNode_rings (s : State) (k i : Nat) (f : Node → Node) : (updNode s k i f).rings = s.rings := rfl
@[simp] theorem updNode_ringCame (s : State) (k i : Nat) (f : Node → Node) : (updNode s k i f).ringCame = s.ringCame := rfl
@[simp] theorem updNode_colls (s : State) (k i : Nat) (f : Node → Node) : (updNode s k i f).colls = s.colls := rfl
@[simp] theorem updNode_collSeq (s : State) (k i : Nat) (f : Node → Node) : (updNode s k i f).collSeq = s.collSeq := rfl
@[simp] theorem updNode_querns (s : State) (k i : Nat) (f : Node → Node) : (updNode s k i f).querns = s.querns := rfl
@[simp] theorem updNode_migs (s : State) (k i : Nat) (f : Node → Node) : (updNode s k i f).migs = s.migs := rfl
@[simp] theorem updNode_moves (s : State) (k i : Nat) (f : Node → Node) : (updNode s k i f).moves = s.moves := rfl
@[simp] theorem updNode_demandFaults (s : State) (k i : Nat) (f : Node → Node) : (updNode s k i f).demandFaults = s.demandFaults := rfl
@[simp] theorem updNode_engineWaits (s : State) (k i : Nat) (f : Node → Node) : (updNode s k i f).engineWaits = s.engineWaits := rfl
@[simp] theorem updNode_failed (s : State) (k i : Nat) (f : Node → Node) : (updNode s k i f).failed = s.failed := rfl
@[simp] theorem updNode_expansions (s : State) (k i : Nat) (f : Node → Node) : (updNode s k i f).expansions = s.expansions := rfl
@[simp] theorem updNode_rays (s : State) (k i : Nat) (f : Node → Node) : (updNode s k i f).rays = s.rays := rfl
@[simp] theorem updNode_drains (s : State) (k i : Nat) (f : Node → Node) : (updNode s k i f).drains = s.drains := rfl
@[simp] theorem updNode_slots (s : State) (k i : Nat) (f : Node → Node) : (updNode s k i f).slots = s.slots := rfl
@[simp] theorem updNode_held (s : State) (k i : Nat) (f : Node → Node) : (updNode s k i f).held = s.held := rfl
@[simp] theorem updNode_pubs (s : State) (k i : Nat) (f : Node → Node) : (updNode s k i f).pubs = s.pubs := rfl
@[simp] theorem updNode_filters (s : State) (k i : Nat) (f : Node → Node) : (updNode s k i f).filters = s.filters := rfl
@[simp] theorem updNode_vis (s : State) (k i : Nat) (f : Node → Node) : (updNode s k i f).vis = s.vis := rfl
@[simp] theorem updNode_replays (s : State) (k i : Nat) (f : Node → Node) : (updNode s k i f).replays = s.replays := rfl
@[simp] theorem updNode_svc (s : State) (k i : Nat) (f : Node → Node) : (updNode s k i f).svc = s.svc := rfl
@[simp] theorem updNode_collectors (s : State) (k i : Nat) (f : Node → Node) : (updNode s k i f).collectors = s.collectors := rfl
@[simp] theorem updNode_replies (s : State) (k i : Nat) (f : Node → Node) : (updNode s k i f).replies = s.replies := rfl
@[simp] theorem updNode_outbox (s : State) (k i : Nat) (f : Node → Node) : (updNode s k i f).outbox = s.outbox := rfl
@[simp] theorem updNode_agenda (s : State) (k i : Nat) (f : Node → Node) : (updNode s k i f).agenda = s.agenda := rfl
@[simp] theorem updNode_lastCore (s : State) (k i : Nat) (f : Node → Node) : (updNode s k i f).lastCore = s.lastCore := rfl
@[simp] theorem updNode_nextId (s : State) (k i : Nat) (f : Node → Node) : (updNode s k i f).nextId = s.nextId := rfl
@[simp] theorem updNode_freeIdx (s : State) (k i : Nat) (f : Node → Node) : (updNode s k i f).freeIdx = s.freeIdx := rfl

/-! ### `updReq` -/

@[simp] theorem updReq_mem (s : State) (i : Nat) (f : TileReq → TileReq) : (updReq s i f).mem = s.mem := rfl
@[simp] theorem updReq_hw (s : State) (i : Nat) (f : TileReq → TileReq) : (updReq s i f).hw = s.hw := rfl
@[simp] theorem updReq_bar (s : State) (i : Nat) (f : TileReq → TileReq) : (updReq s i f).bar = s.bar := rfl
@[simp] theorem updReq_cycle (s : State) (i : Nat) (f : TileReq → TileReq) : (updReq s i f).cycle = s.cycle := rfl
@[simp] theorem updReq_cclk (s : State) (i : Nat) (f : TileReq → TileReq) : (updReq s i f).cclk = s.cclk := rfl
@[simp] theorem updReq_cores (s : State) (i : Nat) (f : TileReq → TileReq) : (updReq s i f).cores = s.cores := rfl
@[simp] theorem updReq_contexts (s : State) (i : Nat) (f : TileReq → TileReq) : (updReq s i f).contexts = s.contexts := rfl
@[simp] theorem updReq_crews (s : State) (i : Nat) (f : TileReq → TileReq) : (updReq s i f).crews = s.crews := rfl
@[simp] theorem updReq_issue (s : State) (i : Nat) (f : TileReq → TileReq) : (updReq s i f).issue = s.issue := rfl
@[simp] theorem updReq_ports (s : State) (i : Nat) (f : TileReq → TileReq) : (updReq s i f).ports = s.ports := rfl
@[simp] theorem updReq_runs (s : State) (i : Nat) (f : TileReq → TileReq) : (updReq s i f).runs = s.runs := rfl
@[simp] theorem updReq_ready (s : State) (i : Nat) (f : TileReq → TileReq) : (updReq s i f).ready = s.ready := rfl
@[simp] theorem updReq_queues (s : State) (i : Nat) (f : TileReq → TileReq) : (updReq s i f).queues = s.queues := rfl
@[simp] theorem updReq_tlb (s : State) (i : Nat) (f : TileReq → TileReq) : (updReq s i f).tlb = s.tlb := rfl
@[simp] theorem updReq_walks (s : State) (i : Nat) (f : TileReq → TileReq) : (updReq s i f).walks = s.walks := rfl
@[simp] theorem updReq_lines (s : State) (i : Nat) (f : TileReq → TileReq) : (updReq s i f).lines = s.lines := rfl
@[simp] theorem updReq_dirty (s : State) (i : Nat) (f : TileReq → TileReq) : (updReq s i f).dirty = s.dirty := rfl
@[simp] theorem updReq_pinned (s : State) (i : Nat) (f : TileReq → TileReq) : (updReq s i f).pinned = s.pinned := rfl
@[simp] theorem updReq_tags (s : State) (i : Nat) (f : TileReq → TileReq) : (updReq s i f).tags = s.tags := rfl
@[simp] theorem updReq_loads (s : State) (i : Nat) (f : TileReq → TileReq) : (updReq s i f).loads = s.loads := rfl
@[simp] theorem updReq_stores (s : State) (i : Nat) (f : TileReq → TileReq) : (updReq s i f).stores = s.stores := rfl
@[simp] theorem updReq_waiters (s : State) (i : Nat) (f : TileReq → TileReq) : (updReq s i f).waiters = s.waiters := rfl
@[simp] theorem updReq_wokenReqs (s : State) (i : Nat) (f : TileReq → TileReq) : (updReq s i f).wokenReqs = s.wokenReqs := rfl
@[simp] theorem updReq_genQueue (s : State) (i : Nat) (f : TileReq → TileReq) : (updReq s i f).genQueue = s.genQueue := rfl
@[simp] theorem updReq_nodes (s : State) (i : Nat) (f : TileReq → TileReq) : (updReq s i f).nodes = s.nodes := rfl
@[simp] theorem updReq_flume (s : State) (i : Nat) (f : TileReq → TileReq) : (updReq s i f).flume = s.flume := rfl
@[simp] theorem updReq_rings (s : State) (i : Nat) (f : TileReq → TileReq) : (updReq s i f).rings = s.rings := rfl
@[simp] theorem updReq_ringCame (s : State) (i : Nat) (f : TileReq → TileReq) : (updReq s i f).ringCame = s.ringCame := rfl
@[simp] theorem updReq_colls (s : State) (i : Nat) (f : TileReq → TileReq) : (updReq s i f).colls = s.colls := rfl
@[simp] theorem updReq_collSeq (s : State) (i : Nat) (f : TileReq → TileReq) : (updReq s i f).collSeq = s.collSeq := rfl
@[simp] theorem updReq_querns (s : State) (i : Nat) (f : TileReq → TileReq) : (updReq s i f).querns = s.querns := rfl
@[simp] theorem updReq_migs (s : State) (i : Nat) (f : TileReq → TileReq) : (updReq s i f).migs = s.migs := rfl
@[simp] theorem updReq_moves (s : State) (i : Nat) (f : TileReq → TileReq) : (updReq s i f).moves = s.moves := rfl
@[simp] theorem updReq_demandFaults (s : State) (i : Nat) (f : TileReq → TileReq) : (updReq s i f).demandFaults = s.demandFaults := rfl
@[simp] theorem updReq_engineWaits (s : State) (i : Nat) (f : TileReq → TileReq) : (updReq s i f).engineWaits = s.engineWaits := rfl
@[simp] theorem updReq_failed (s : State) (i : Nat) (f : TileReq → TileReq) : (updReq s i f).failed = s.failed := rfl
@[simp] theorem updReq_expansions (s : State) (i : Nat) (f : TileReq → TileReq) : (updReq s i f).expansions = s.expansions := rfl
@[simp] theorem updReq_rays (s : State) (i : Nat) (f : TileReq → TileReq) : (updReq s i f).rays = s.rays := rfl
@[simp] theorem updReq_drains (s : State) (i : Nat) (f : TileReq → TileReq) : (updReq s i f).drains = s.drains := rfl
@[simp] theorem updReq_slots (s : State) (i : Nat) (f : TileReq → TileReq) : (updReq s i f).slots = s.slots := rfl
@[simp] theorem updReq_held (s : State) (i : Nat) (f : TileReq → TileReq) : (updReq s i f).held = s.held := rfl
@[simp] theorem updReq_pubs (s : State) (i : Nat) (f : TileReq → TileReq) : (updReq s i f).pubs = s.pubs := rfl
@[simp] theorem updReq_filters (s : State) (i : Nat) (f : TileReq → TileReq) : (updReq s i f).filters = s.filters := rfl
@[simp] theorem updReq_vis (s : State) (i : Nat) (f : TileReq → TileReq) : (updReq s i f).vis = s.vis := rfl
@[simp] theorem updReq_replays (s : State) (i : Nat) (f : TileReq → TileReq) : (updReq s i f).replays = s.replays := rfl
@[simp] theorem updReq_svc (s : State) (i : Nat) (f : TileReq → TileReq) : (updReq s i f).svc = s.svc := rfl
@[simp] theorem updReq_collectors (s : State) (i : Nat) (f : TileReq → TileReq) : (updReq s i f).collectors = s.collectors := rfl
@[simp] theorem updReq_replies (s : State) (i : Nat) (f : TileReq → TileReq) : (updReq s i f).replies = s.replies := rfl
@[simp] theorem updReq_outbox (s : State) (i : Nat) (f : TileReq → TileReq) : (updReq s i f).outbox = s.outbox := rfl
@[simp] theorem updReq_agenda (s : State) (i : Nat) (f : TileReq → TileReq) : (updReq s i f).agenda = s.agenda := rfl
@[simp] theorem updReq_lastCore (s : State) (i : Nat) (f : TileReq → TileReq) : (updReq s i f).lastCore = s.lastCore := rfl
@[simp] theorem updReq_nextId (s : State) (i : Nat) (f : TileReq → TileReq) : (updReq s i f).nextId = s.nextId := rfl
@[simp] theorem updReq_freeIdx (s : State) (i : Nat) (f : TileReq → TileReq) : (updReq s i f).freeIdx = s.freeIdx := rfl

/-! ### `updRay` -/

@[simp] theorem updRay_mem (s : State) (i : Nat) (f : Ray → Ray) : (updRay s i f).mem = s.mem := rfl
@[simp] theorem updRay_hw (s : State) (i : Nat) (f : Ray → Ray) : (updRay s i f).hw = s.hw := rfl
@[simp] theorem updRay_bar (s : State) (i : Nat) (f : Ray → Ray) : (updRay s i f).bar = s.bar := rfl
@[simp] theorem updRay_cycle (s : State) (i : Nat) (f : Ray → Ray) : (updRay s i f).cycle = s.cycle := rfl
@[simp] theorem updRay_cclk (s : State) (i : Nat) (f : Ray → Ray) : (updRay s i f).cclk = s.cclk := rfl
@[simp] theorem updRay_cores (s : State) (i : Nat) (f : Ray → Ray) : (updRay s i f).cores = s.cores := rfl
@[simp] theorem updRay_contexts (s : State) (i : Nat) (f : Ray → Ray) : (updRay s i f).contexts = s.contexts := rfl
@[simp] theorem updRay_crews (s : State) (i : Nat) (f : Ray → Ray) : (updRay s i f).crews = s.crews := rfl
@[simp] theorem updRay_issue (s : State) (i : Nat) (f : Ray → Ray) : (updRay s i f).issue = s.issue := rfl
@[simp] theorem updRay_ports (s : State) (i : Nat) (f : Ray → Ray) : (updRay s i f).ports = s.ports := rfl
@[simp] theorem updRay_runs (s : State) (i : Nat) (f : Ray → Ray) : (updRay s i f).runs = s.runs := rfl
@[simp] theorem updRay_ready (s : State) (i : Nat) (f : Ray → Ray) : (updRay s i f).ready = s.ready := rfl
@[simp] theorem updRay_queues (s : State) (i : Nat) (f : Ray → Ray) : (updRay s i f).queues = s.queues := rfl
@[simp] theorem updRay_tlb (s : State) (i : Nat) (f : Ray → Ray) : (updRay s i f).tlb = s.tlb := rfl
@[simp] theorem updRay_walks (s : State) (i : Nat) (f : Ray → Ray) : (updRay s i f).walks = s.walks := rfl
@[simp] theorem updRay_lines (s : State) (i : Nat) (f : Ray → Ray) : (updRay s i f).lines = s.lines := rfl
@[simp] theorem updRay_dirty (s : State) (i : Nat) (f : Ray → Ray) : (updRay s i f).dirty = s.dirty := rfl
@[simp] theorem updRay_pinned (s : State) (i : Nat) (f : Ray → Ray) : (updRay s i f).pinned = s.pinned := rfl
@[simp] theorem updRay_tags (s : State) (i : Nat) (f : Ray → Ray) : (updRay s i f).tags = s.tags := rfl
@[simp] theorem updRay_loads (s : State) (i : Nat) (f : Ray → Ray) : (updRay s i f).loads = s.loads := rfl
@[simp] theorem updRay_stores (s : State) (i : Nat) (f : Ray → Ray) : (updRay s i f).stores = s.stores := rfl
@[simp] theorem updRay_waiters (s : State) (i : Nat) (f : Ray → Ray) : (updRay s i f).waiters = s.waiters := rfl
@[simp] theorem updRay_wokenReqs (s : State) (i : Nat) (f : Ray → Ray) : (updRay s i f).wokenReqs = s.wokenReqs := rfl
@[simp] theorem updRay_genQueue (s : State) (i : Nat) (f : Ray → Ray) : (updRay s i f).genQueue = s.genQueue := rfl
@[simp] theorem updRay_nodes (s : State) (i : Nat) (f : Ray → Ray) : (updRay s i f).nodes = s.nodes := rfl
@[simp] theorem updRay_tileReqs (s : State) (i : Nat) (f : Ray → Ray) : (updRay s i f).tileReqs = s.tileReqs := rfl
@[simp] theorem updRay_flume (s : State) (i : Nat) (f : Ray → Ray) : (updRay s i f).flume = s.flume := rfl
@[simp] theorem updRay_rings (s : State) (i : Nat) (f : Ray → Ray) : (updRay s i f).rings = s.rings := rfl
@[simp] theorem updRay_ringCame (s : State) (i : Nat) (f : Ray → Ray) : (updRay s i f).ringCame = s.ringCame := rfl
@[simp] theorem updRay_colls (s : State) (i : Nat) (f : Ray → Ray) : (updRay s i f).colls = s.colls := rfl
@[simp] theorem updRay_collSeq (s : State) (i : Nat) (f : Ray → Ray) : (updRay s i f).collSeq = s.collSeq := rfl
@[simp] theorem updRay_querns (s : State) (i : Nat) (f : Ray → Ray) : (updRay s i f).querns = s.querns := rfl
@[simp] theorem updRay_migs (s : State) (i : Nat) (f : Ray → Ray) : (updRay s i f).migs = s.migs := rfl
@[simp] theorem updRay_moves (s : State) (i : Nat) (f : Ray → Ray) : (updRay s i f).moves = s.moves := rfl
@[simp] theorem updRay_demandFaults (s : State) (i : Nat) (f : Ray → Ray) : (updRay s i f).demandFaults = s.demandFaults := rfl
@[simp] theorem updRay_engineWaits (s : State) (i : Nat) (f : Ray → Ray) : (updRay s i f).engineWaits = s.engineWaits := rfl
@[simp] theorem updRay_failed (s : State) (i : Nat) (f : Ray → Ray) : (updRay s i f).failed = s.failed := rfl
@[simp] theorem updRay_expansions (s : State) (i : Nat) (f : Ray → Ray) : (updRay s i f).expansions = s.expansions := rfl
@[simp] theorem updRay_drains (s : State) (i : Nat) (f : Ray → Ray) : (updRay s i f).drains = s.drains := rfl
@[simp] theorem updRay_slots (s : State) (i : Nat) (f : Ray → Ray) : (updRay s i f).slots = s.slots := rfl
@[simp] theorem updRay_held (s : State) (i : Nat) (f : Ray → Ray) : (updRay s i f).held = s.held := rfl
@[simp] theorem updRay_pubs (s : State) (i : Nat) (f : Ray → Ray) : (updRay s i f).pubs = s.pubs := rfl
@[simp] theorem updRay_filters (s : State) (i : Nat) (f : Ray → Ray) : (updRay s i f).filters = s.filters := rfl
@[simp] theorem updRay_vis (s : State) (i : Nat) (f : Ray → Ray) : (updRay s i f).vis = s.vis := rfl
@[simp] theorem updRay_replays (s : State) (i : Nat) (f : Ray → Ray) : (updRay s i f).replays = s.replays := rfl
@[simp] theorem updRay_svc (s : State) (i : Nat) (f : Ray → Ray) : (updRay s i f).svc = s.svc := rfl
@[simp] theorem updRay_collectors (s : State) (i : Nat) (f : Ray → Ray) : (updRay s i f).collectors = s.collectors := rfl
@[simp] theorem updRay_replies (s : State) (i : Nat) (f : Ray → Ray) : (updRay s i f).replies = s.replies := rfl
@[simp] theorem updRay_outbox (s : State) (i : Nat) (f : Ray → Ray) : (updRay s i f).outbox = s.outbox := rfl
@[simp] theorem updRay_agenda (s : State) (i : Nat) (f : Ray → Ray) : (updRay s i f).agenda = s.agenda := rfl
@[simp] theorem updRay_lastCore (s : State) (i : Nat) (f : Ray → Ray) : (updRay s i f).lastCore = s.lastCore := rfl
@[simp] theorem updRay_nextId (s : State) (i : Nat) (f : Ray → Ray) : (updRay s i f).nextId = s.nextId := rfl
@[simp] theorem updRay_freeIdx (s : State) (i : Nat) (f : Ray → Ray) : (updRay s i f).freeIdx = s.freeIdx := rfl

/-! ### `updSlot` -/

@[simp] theorem updSlot_mem (s : State) (i : Nat) (f : RaySlot → RaySlot) : (updSlot s i f).mem = s.mem := rfl
@[simp] theorem updSlot_hw (s : State) (i : Nat) (f : RaySlot → RaySlot) : (updSlot s i f).hw = s.hw := rfl
@[simp] theorem updSlot_bar (s : State) (i : Nat) (f : RaySlot → RaySlot) : (updSlot s i f).bar = s.bar := rfl
@[simp] theorem updSlot_cycle (s : State) (i : Nat) (f : RaySlot → RaySlot) : (updSlot s i f).cycle = s.cycle := rfl
@[simp] theorem updSlot_cclk (s : State) (i : Nat) (f : RaySlot → RaySlot) : (updSlot s i f).cclk = s.cclk := rfl
@[simp] theorem updSlot_cores (s : State) (i : Nat) (f : RaySlot → RaySlot) : (updSlot s i f).cores = s.cores := rfl
@[simp] theorem updSlot_contexts (s : State) (i : Nat) (f : RaySlot → RaySlot) : (updSlot s i f).contexts = s.contexts := rfl
@[simp] theorem updSlot_crews (s : State) (i : Nat) (f : RaySlot → RaySlot) : (updSlot s i f).crews = s.crews := rfl
@[simp] theorem updSlot_issue (s : State) (i : Nat) (f : RaySlot → RaySlot) : (updSlot s i f).issue = s.issue := rfl
@[simp] theorem updSlot_ports (s : State) (i : Nat) (f : RaySlot → RaySlot) : (updSlot s i f).ports = s.ports := rfl
@[simp] theorem updSlot_runs (s : State) (i : Nat) (f : RaySlot → RaySlot) : (updSlot s i f).runs = s.runs := rfl
@[simp] theorem updSlot_ready (s : State) (i : Nat) (f : RaySlot → RaySlot) : (updSlot s i f).ready = s.ready := rfl
@[simp] theorem updSlot_queues (s : State) (i : Nat) (f : RaySlot → RaySlot) : (updSlot s i f).queues = s.queues := rfl
@[simp] theorem updSlot_tlb (s : State) (i : Nat) (f : RaySlot → RaySlot) : (updSlot s i f).tlb = s.tlb := rfl
@[simp] theorem updSlot_walks (s : State) (i : Nat) (f : RaySlot → RaySlot) : (updSlot s i f).walks = s.walks := rfl
@[simp] theorem updSlot_lines (s : State) (i : Nat) (f : RaySlot → RaySlot) : (updSlot s i f).lines = s.lines := rfl
@[simp] theorem updSlot_dirty (s : State) (i : Nat) (f : RaySlot → RaySlot) : (updSlot s i f).dirty = s.dirty := rfl
@[simp] theorem updSlot_pinned (s : State) (i : Nat) (f : RaySlot → RaySlot) : (updSlot s i f).pinned = s.pinned := rfl
@[simp] theorem updSlot_tags (s : State) (i : Nat) (f : RaySlot → RaySlot) : (updSlot s i f).tags = s.tags := rfl
@[simp] theorem updSlot_loads (s : State) (i : Nat) (f : RaySlot → RaySlot) : (updSlot s i f).loads = s.loads := rfl
@[simp] theorem updSlot_stores (s : State) (i : Nat) (f : RaySlot → RaySlot) : (updSlot s i f).stores = s.stores := rfl
@[simp] theorem updSlot_waiters (s : State) (i : Nat) (f : RaySlot → RaySlot) : (updSlot s i f).waiters = s.waiters := rfl
@[simp] theorem updSlot_wokenReqs (s : State) (i : Nat) (f : RaySlot → RaySlot) : (updSlot s i f).wokenReqs = s.wokenReqs := rfl
@[simp] theorem updSlot_genQueue (s : State) (i : Nat) (f : RaySlot → RaySlot) : (updSlot s i f).genQueue = s.genQueue := rfl
@[simp] theorem updSlot_nodes (s : State) (i : Nat) (f : RaySlot → RaySlot) : (updSlot s i f).nodes = s.nodes := rfl
@[simp] theorem updSlot_tileReqs (s : State) (i : Nat) (f : RaySlot → RaySlot) : (updSlot s i f).tileReqs = s.tileReqs := rfl
@[simp] theorem updSlot_flume (s : State) (i : Nat) (f : RaySlot → RaySlot) : (updSlot s i f).flume = s.flume := rfl
@[simp] theorem updSlot_rings (s : State) (i : Nat) (f : RaySlot → RaySlot) : (updSlot s i f).rings = s.rings := rfl
@[simp] theorem updSlot_ringCame (s : State) (i : Nat) (f : RaySlot → RaySlot) : (updSlot s i f).ringCame = s.ringCame := rfl
@[simp] theorem updSlot_colls (s : State) (i : Nat) (f : RaySlot → RaySlot) : (updSlot s i f).colls = s.colls := rfl
@[simp] theorem updSlot_collSeq (s : State) (i : Nat) (f : RaySlot → RaySlot) : (updSlot s i f).collSeq = s.collSeq := rfl
@[simp] theorem updSlot_querns (s : State) (i : Nat) (f : RaySlot → RaySlot) : (updSlot s i f).querns = s.querns := rfl
@[simp] theorem updSlot_migs (s : State) (i : Nat) (f : RaySlot → RaySlot) : (updSlot s i f).migs = s.migs := rfl
@[simp] theorem updSlot_moves (s : State) (i : Nat) (f : RaySlot → RaySlot) : (updSlot s i f).moves = s.moves := rfl
@[simp] theorem updSlot_demandFaults (s : State) (i : Nat) (f : RaySlot → RaySlot) : (updSlot s i f).demandFaults = s.demandFaults := rfl
@[simp] theorem updSlot_engineWaits (s : State) (i : Nat) (f : RaySlot → RaySlot) : (updSlot s i f).engineWaits = s.engineWaits := rfl
@[simp] theorem updSlot_failed (s : State) (i : Nat) (f : RaySlot → RaySlot) : (updSlot s i f).failed = s.failed := rfl
@[simp] theorem updSlot_expansions (s : State) (i : Nat) (f : RaySlot → RaySlot) : (updSlot s i f).expansions = s.expansions := rfl
@[simp] theorem updSlot_rays (s : State) (i : Nat) (f : RaySlot → RaySlot) : (updSlot s i f).rays = s.rays := rfl
@[simp] theorem updSlot_drains (s : State) (i : Nat) (f : RaySlot → RaySlot) : (updSlot s i f).drains = s.drains := rfl
@[simp] theorem updSlot_held (s : State) (i : Nat) (f : RaySlot → RaySlot) : (updSlot s i f).held = s.held := rfl
@[simp] theorem updSlot_pubs (s : State) (i : Nat) (f : RaySlot → RaySlot) : (updSlot s i f).pubs = s.pubs := rfl
@[simp] theorem updSlot_filters (s : State) (i : Nat) (f : RaySlot → RaySlot) : (updSlot s i f).filters = s.filters := rfl
@[simp] theorem updSlot_vis (s : State) (i : Nat) (f : RaySlot → RaySlot) : (updSlot s i f).vis = s.vis := rfl
@[simp] theorem updSlot_replays (s : State) (i : Nat) (f : RaySlot → RaySlot) : (updSlot s i f).replays = s.replays := rfl
@[simp] theorem updSlot_svc (s : State) (i : Nat) (f : RaySlot → RaySlot) : (updSlot s i f).svc = s.svc := rfl
@[simp] theorem updSlot_collectors (s : State) (i : Nat) (f : RaySlot → RaySlot) : (updSlot s i f).collectors = s.collectors := rfl
@[simp] theorem updSlot_replies (s : State) (i : Nat) (f : RaySlot → RaySlot) : (updSlot s i f).replies = s.replies := rfl
@[simp] theorem updSlot_outbox (s : State) (i : Nat) (f : RaySlot → RaySlot) : (updSlot s i f).outbox = s.outbox := rfl
@[simp] theorem updSlot_agenda (s : State) (i : Nat) (f : RaySlot → RaySlot) : (updSlot s i f).agenda = s.agenda := rfl
@[simp] theorem updSlot_lastCore (s : State) (i : Nat) (f : RaySlot → RaySlot) : (updSlot s i f).lastCore = s.lastCore := rfl
@[simp] theorem updSlot_nextId (s : State) (i : Nat) (f : RaySlot → RaySlot) : (updSlot s i f).nextId = s.nextId := rfl
@[simp] theorem updSlot_freeIdx (s : State) (i : Nat) (f : RaySlot → RaySlot) : (updSlot s i f).freeIdx = s.freeIdx := rfl

/-! ### `retire` -/

@[simp] theorem retire_mem (s : State) (is : Issue) : (retire is s).mem = s.mem := rfl
@[simp] theorem retire_hw (s : State) (is : Issue) : (retire is s).hw = s.hw := rfl
@[simp] theorem retire_bar (s : State) (is : Issue) : (retire is s).bar = s.bar := rfl
@[simp] theorem retire_cycle (s : State) (is : Issue) : (retire is s).cycle = s.cycle := rfl
@[simp] theorem retire_cclk (s : State) (is : Issue) : (retire is s).cclk = s.cclk := rfl
@[simp] theorem retire_cores (s : State) (is : Issue) : (retire is s).cores = s.cores := rfl
@[simp] theorem retire_contexts (s : State) (is : Issue) : (retire is s).contexts = s.contexts := rfl
@[simp] theorem retire_ports (s : State) (is : Issue) : (retire is s).ports = s.ports := rfl
@[simp] theorem retire_runs (s : State) (is : Issue) : (retire is s).runs = s.runs := rfl
@[simp] theorem retire_ready (s : State) (is : Issue) : (retire is s).ready = s.ready := rfl
@[simp] theorem retire_queues (s : State) (is : Issue) : (retire is s).queues = s.queues := rfl
@[simp] theorem retire_tlb (s : State) (is : Issue) : (retire is s).tlb = s.tlb := rfl
@[simp] theorem retire_walks (s : State) (is : Issue) : (retire is s).walks = s.walks := rfl
@[simp] theorem retire_lines (s : State) (is : Issue) : (retire is s).lines = s.lines := rfl
@[simp] theorem retire_dirty (s : State) (is : Issue) : (retire is s).dirty = s.dirty := rfl
@[simp] theorem retire_pinned (s : State) (is : Issue) : (retire is s).pinned = s.pinned := rfl
@[simp] theorem retire_tags (s : State) (is : Issue) : (retire is s).tags = s.tags := rfl
@[simp] theorem retire_loads (s : State) (is : Issue) : (retire is s).loads = s.loads := rfl
@[simp] theorem retire_stores (s : State) (is : Issue) : (retire is s).stores = s.stores := rfl
@[simp] theorem retire_waiters (s : State) (is : Issue) : (retire is s).waiters = s.waiters := rfl
@[simp] theorem retire_wokenReqs (s : State) (is : Issue) : (retire is s).wokenReqs = s.wokenReqs := rfl
@[simp] theorem retire_genQueue (s : State) (is : Issue) : (retire is s).genQueue = s.genQueue := rfl
@[simp] theorem retire_nodes (s : State) (is : Issue) : (retire is s).nodes = s.nodes := rfl
@[simp] theorem retire_tileReqs (s : State) (is : Issue) : (retire is s).tileReqs = s.tileReqs := rfl
@[simp] theorem retire_flume (s : State) (is : Issue) : (retire is s).flume = s.flume := rfl
@[simp] theorem retire_rings (s : State) (is : Issue) : (retire is s).rings = s.rings := rfl
@[simp] theorem retire_ringCame (s : State) (is : Issue) : (retire is s).ringCame = s.ringCame := rfl
@[simp] theorem retire_colls (s : State) (is : Issue) : (retire is s).colls = s.colls := rfl
@[simp] theorem retire_collSeq (s : State) (is : Issue) : (retire is s).collSeq = s.collSeq := rfl
@[simp] theorem retire_querns (s : State) (is : Issue) : (retire is s).querns = s.querns := rfl
@[simp] theorem retire_migs (s : State) (is : Issue) : (retire is s).migs = s.migs := rfl
@[simp] theorem retire_moves (s : State) (is : Issue) : (retire is s).moves = s.moves := rfl
@[simp] theorem retire_demandFaults (s : State) (is : Issue) : (retire is s).demandFaults = s.demandFaults := rfl
@[simp] theorem retire_engineWaits (s : State) (is : Issue) : (retire is s).engineWaits = s.engineWaits := rfl
@[simp] theorem retire_failed (s : State) (is : Issue) : (retire is s).failed = s.failed := rfl
@[simp] theorem retire_expansions (s : State) (is : Issue) : (retire is s).expansions = s.expansions := rfl
@[simp] theorem retire_rays (s : State) (is : Issue) : (retire is s).rays = s.rays := rfl
@[simp] theorem retire_drains (s : State) (is : Issue) : (retire is s).drains = s.drains := rfl
@[simp] theorem retire_slots (s : State) (is : Issue) : (retire is s).slots = s.slots := rfl
@[simp] theorem retire_held (s : State) (is : Issue) : (retire is s).held = s.held := rfl
@[simp] theorem retire_pubs (s : State) (is : Issue) : (retire is s).pubs = s.pubs := rfl
@[simp] theorem retire_filters (s : State) (is : Issue) : (retire is s).filters = s.filters := rfl
@[simp] theorem retire_vis (s : State) (is : Issue) : (retire is s).vis = s.vis := rfl
@[simp] theorem retire_replays (s : State) (is : Issue) : (retire is s).replays = s.replays := rfl
@[simp] theorem retire_svc (s : State) (is : Issue) : (retire is s).svc = s.svc := rfl
@[simp] theorem retire_collectors (s : State) (is : Issue) : (retire is s).collectors = s.collectors := rfl
@[simp] theorem retire_replies (s : State) (is : Issue) : (retire is s).replies = s.replies := rfl
@[simp] theorem retire_outbox (s : State) (is : Issue) : (retire is s).outbox = s.outbox := rfl
@[simp] theorem retire_agenda (s : State) (is : Issue) : (retire is s).agenda = s.agenda := rfl
@[simp] theorem retire_lastCore (s : State) (is : Issue) : (retire is s).lastCore = s.lastCore := rfl
@[simp] theorem retire_nextId (s : State) (is : Issue) : (retire is s).nextId = s.nextId := rfl
@[simp] theorem retire_freeIdx (s : State) (is : Issue) : (retire is s).freeIdx = s.freeIdx := rfl

/-! ### `retireSome` -/

@[simp] theorem retireSome_mem (s : State) (is : Issue) (ts : List Nat) : (retireSome is ts s).mem = s.mem := rfl
@[simp] theorem retireSome_hw (s : State) (is : Issue) (ts : List Nat) : (retireSome is ts s).hw = s.hw := rfl
@[simp] theorem retireSome_bar (s : State) (is : Issue) (ts : List Nat) : (retireSome is ts s).bar = s.bar := rfl
@[simp] theorem retireSome_cycle (s : State) (is : Issue) (ts : List Nat) : (retireSome is ts s).cycle = s.cycle := rfl
@[simp] theorem retireSome_cclk (s : State) (is : Issue) (ts : List Nat) : (retireSome is ts s).cclk = s.cclk := rfl
@[simp] theorem retireSome_cores (s : State) (is : Issue) (ts : List Nat) : (retireSome is ts s).cores = s.cores := rfl
@[simp] theorem retireSome_contexts (s : State) (is : Issue) (ts : List Nat) : (retireSome is ts s).contexts = s.contexts := rfl
@[simp] theorem retireSome_ports (s : State) (is : Issue) (ts : List Nat) : (retireSome is ts s).ports = s.ports := rfl
@[simp] theorem retireSome_runs (s : State) (is : Issue) (ts : List Nat) : (retireSome is ts s).runs = s.runs := rfl
@[simp] theorem retireSome_ready (s : State) (is : Issue) (ts : List Nat) : (retireSome is ts s).ready = s.ready := rfl
@[simp] theorem retireSome_queues (s : State) (is : Issue) (ts : List Nat) : (retireSome is ts s).queues = s.queues := rfl
@[simp] theorem retireSome_tlb (s : State) (is : Issue) (ts : List Nat) : (retireSome is ts s).tlb = s.tlb := rfl
@[simp] theorem retireSome_walks (s : State) (is : Issue) (ts : List Nat) : (retireSome is ts s).walks = s.walks := rfl
@[simp] theorem retireSome_lines (s : State) (is : Issue) (ts : List Nat) : (retireSome is ts s).lines = s.lines := rfl
@[simp] theorem retireSome_dirty (s : State) (is : Issue) (ts : List Nat) : (retireSome is ts s).dirty = s.dirty := rfl
@[simp] theorem retireSome_pinned (s : State) (is : Issue) (ts : List Nat) : (retireSome is ts s).pinned = s.pinned := rfl
@[simp] theorem retireSome_tags (s : State) (is : Issue) (ts : List Nat) : (retireSome is ts s).tags = s.tags := rfl
@[simp] theorem retireSome_loads (s : State) (is : Issue) (ts : List Nat) : (retireSome is ts s).loads = s.loads := rfl
@[simp] theorem retireSome_stores (s : State) (is : Issue) (ts : List Nat) : (retireSome is ts s).stores = s.stores := rfl
@[simp] theorem retireSome_waiters (s : State) (is : Issue) (ts : List Nat) : (retireSome is ts s).waiters = s.waiters := rfl
@[simp] theorem retireSome_wokenReqs (s : State) (is : Issue) (ts : List Nat) : (retireSome is ts s).wokenReqs = s.wokenReqs := rfl
@[simp] theorem retireSome_genQueue (s : State) (is : Issue) (ts : List Nat) : (retireSome is ts s).genQueue = s.genQueue := rfl
@[simp] theorem retireSome_nodes (s : State) (is : Issue) (ts : List Nat) : (retireSome is ts s).nodes = s.nodes := rfl
@[simp] theorem retireSome_tileReqs (s : State) (is : Issue) (ts : List Nat) : (retireSome is ts s).tileReqs = s.tileReqs := rfl
@[simp] theorem retireSome_flume (s : State) (is : Issue) (ts : List Nat) : (retireSome is ts s).flume = s.flume := rfl
@[simp] theorem retireSome_rings (s : State) (is : Issue) (ts : List Nat) : (retireSome is ts s).rings = s.rings := rfl
@[simp] theorem retireSome_ringCame (s : State) (is : Issue) (ts : List Nat) : (retireSome is ts s).ringCame = s.ringCame := rfl
@[simp] theorem retireSome_colls (s : State) (is : Issue) (ts : List Nat) : (retireSome is ts s).colls = s.colls := rfl
@[simp] theorem retireSome_collSeq (s : State) (is : Issue) (ts : List Nat) : (retireSome is ts s).collSeq = s.collSeq := rfl
@[simp] theorem retireSome_querns (s : State) (is : Issue) (ts : List Nat) : (retireSome is ts s).querns = s.querns := rfl
@[simp] theorem retireSome_migs (s : State) (is : Issue) (ts : List Nat) : (retireSome is ts s).migs = s.migs := rfl
@[simp] theorem retireSome_moves (s : State) (is : Issue) (ts : List Nat) : (retireSome is ts s).moves = s.moves := rfl
@[simp] theorem retireSome_demandFaults (s : State) (is : Issue) (ts : List Nat) : (retireSome is ts s).demandFaults = s.demandFaults := rfl
@[simp] theorem retireSome_engineWaits (s : State) (is : Issue) (ts : List Nat) : (retireSome is ts s).engineWaits = s.engineWaits := rfl
@[simp] theorem retireSome_failed (s : State) (is : Issue) (ts : List Nat) : (retireSome is ts s).failed = s.failed := rfl
@[simp] theorem retireSome_expansions (s : State) (is : Issue) (ts : List Nat) : (retireSome is ts s).expansions = s.expansions := rfl
@[simp] theorem retireSome_rays (s : State) (is : Issue) (ts : List Nat) : (retireSome is ts s).rays = s.rays := rfl
@[simp] theorem retireSome_drains (s : State) (is : Issue) (ts : List Nat) : (retireSome is ts s).drains = s.drains := rfl
@[simp] theorem retireSome_slots (s : State) (is : Issue) (ts : List Nat) : (retireSome is ts s).slots = s.slots := rfl
@[simp] theorem retireSome_held (s : State) (is : Issue) (ts : List Nat) : (retireSome is ts s).held = s.held := rfl
@[simp] theorem retireSome_pubs (s : State) (is : Issue) (ts : List Nat) : (retireSome is ts s).pubs = s.pubs := rfl
@[simp] theorem retireSome_filters (s : State) (is : Issue) (ts : List Nat) : (retireSome is ts s).filters = s.filters := rfl
@[simp] theorem retireSome_vis (s : State) (is : Issue) (ts : List Nat) : (retireSome is ts s).vis = s.vis := rfl
@[simp] theorem retireSome_replays (s : State) (is : Issue) (ts : List Nat) : (retireSome is ts s).replays = s.replays := rfl
@[simp] theorem retireSome_svc (s : State) (is : Issue) (ts : List Nat) : (retireSome is ts s).svc = s.svc := rfl
@[simp] theorem retireSome_collectors (s : State) (is : Issue) (ts : List Nat) : (retireSome is ts s).collectors = s.collectors := rfl
@[simp] theorem retireSome_replies (s : State) (is : Issue) (ts : List Nat) : (retireSome is ts s).replies = s.replies := rfl
@[simp] theorem retireSome_outbox (s : State) (is : Issue) (ts : List Nat) : (retireSome is ts s).outbox = s.outbox := rfl
@[simp] theorem retireSome_agenda (s : State) (is : Issue) (ts : List Nat) : (retireSome is ts s).agenda = s.agenda := rfl
@[simp] theorem retireSome_lastCore (s : State) (is : Issue) (ts : List Nat) : (retireSome is ts s).lastCore = s.lastCore := rfl
@[simp] theorem retireSome_nextId (s : State) (is : Issue) (ts : List Nat) : (retireSome is ts s).nextId = s.nextId := rfl
@[simp] theorem retireSome_freeIdx (s : State) (is : Issue) (ts : List Nat) : (retireSome is ts s).freeIdx = s.freeIdx := rfl

/-! ### `raise` -/

@[simp] theorem raise_mem (s : State) (u : Nat) (pc : Word64) (g : List Nat) (i : TrapInfo) : (raise s u pc g i).mem = s.mem := rfl
@[simp] theorem raise_hw (s : State) (u : Nat) (pc : Word64) (g : List Nat) (i : TrapInfo) : (raise s u pc g i).hw = s.hw := rfl
@[simp] theorem raise_bar (s : State) (u : Nat) (pc : Word64) (g : List Nat) (i : TrapInfo) : (raise s u pc g i).bar = s.bar := rfl
@[simp] theorem raise_cycle (s : State) (u : Nat) (pc : Word64) (g : List Nat) (i : TrapInfo) : (raise s u pc g i).cycle = s.cycle := rfl
@[simp] theorem raise_cclk (s : State) (u : Nat) (pc : Word64) (g : List Nat) (i : TrapInfo) : (raise s u pc g i).cclk = s.cclk := rfl
@[simp] theorem raise_cores (s : State) (u : Nat) (pc : Word64) (g : List Nat) (i : TrapInfo) : (raise s u pc g i).cores = s.cores := rfl
@[simp] theorem raise_contexts (s : State) (u : Nat) (pc : Word64) (g : List Nat) (i : TrapInfo) : (raise s u pc g i).contexts = s.contexts := rfl
@[simp] theorem raise_ports (s : State) (u : Nat) (pc : Word64) (g : List Nat) (i : TrapInfo) : (raise s u pc g i).ports = s.ports := rfl
@[simp] theorem raise_runs (s : State) (u : Nat) (pc : Word64) (g : List Nat) (i : TrapInfo) : (raise s u pc g i).runs = s.runs := rfl
@[simp] theorem raise_ready (s : State) (u : Nat) (pc : Word64) (g : List Nat) (i : TrapInfo) : (raise s u pc g i).ready = s.ready := rfl
@[simp] theorem raise_queues (s : State) (u : Nat) (pc : Word64) (g : List Nat) (i : TrapInfo) : (raise s u pc g i).queues = s.queues := rfl
@[simp] theorem raise_tlb (s : State) (u : Nat) (pc : Word64) (g : List Nat) (i : TrapInfo) : (raise s u pc g i).tlb = s.tlb := rfl
@[simp] theorem raise_walks (s : State) (u : Nat) (pc : Word64) (g : List Nat) (i : TrapInfo) : (raise s u pc g i).walks = s.walks := rfl
@[simp] theorem raise_lines (s : State) (u : Nat) (pc : Word64) (g : List Nat) (i : TrapInfo) : (raise s u pc g i).lines = s.lines := rfl
@[simp] theorem raise_dirty (s : State) (u : Nat) (pc : Word64) (g : List Nat) (i : TrapInfo) : (raise s u pc g i).dirty = s.dirty := rfl
@[simp] theorem raise_pinned (s : State) (u : Nat) (pc : Word64) (g : List Nat) (i : TrapInfo) : (raise s u pc g i).pinned = s.pinned := rfl
@[simp] theorem raise_tags (s : State) (u : Nat) (pc : Word64) (g : List Nat) (i : TrapInfo) : (raise s u pc g i).tags = s.tags := rfl
@[simp] theorem raise_loads (s : State) (u : Nat) (pc : Word64) (g : List Nat) (i : TrapInfo) : (raise s u pc g i).loads = s.loads := rfl
@[simp] theorem raise_stores (s : State) (u : Nat) (pc : Word64) (g : List Nat) (i : TrapInfo) : (raise s u pc g i).stores = s.stores := rfl
@[simp] theorem raise_waiters (s : State) (u : Nat) (pc : Word64) (g : List Nat) (i : TrapInfo) : (raise s u pc g i).waiters = s.waiters := rfl
@[simp] theorem raise_wokenReqs (s : State) (u : Nat) (pc : Word64) (g : List Nat) (i : TrapInfo) : (raise s u pc g i).wokenReqs = s.wokenReqs := rfl
@[simp] theorem raise_genQueue (s : State) (u : Nat) (pc : Word64) (g : List Nat) (i : TrapInfo) : (raise s u pc g i).genQueue = s.genQueue := rfl
@[simp] theorem raise_nodes (s : State) (u : Nat) (pc : Word64) (g : List Nat) (i : TrapInfo) : (raise s u pc g i).nodes = s.nodes := rfl
@[simp] theorem raise_tileReqs (s : State) (u : Nat) (pc : Word64) (g : List Nat) (i : TrapInfo) : (raise s u pc g i).tileReqs = s.tileReqs := rfl
@[simp] theorem raise_flume (s : State) (u : Nat) (pc : Word64) (g : List Nat) (i : TrapInfo) : (raise s u pc g i).flume = s.flume := rfl
@[simp] theorem raise_rings (s : State) (u : Nat) (pc : Word64) (g : List Nat) (i : TrapInfo) : (raise s u pc g i).rings = s.rings := rfl
@[simp] theorem raise_ringCame (s : State) (u : Nat) (pc : Word64) (g : List Nat) (i : TrapInfo) : (raise s u pc g i).ringCame = s.ringCame := rfl
@[simp] theorem raise_colls (s : State) (u : Nat) (pc : Word64) (g : List Nat) (i : TrapInfo) : (raise s u pc g i).colls = s.colls := rfl
@[simp] theorem raise_collSeq (s : State) (u : Nat) (pc : Word64) (g : List Nat) (i : TrapInfo) : (raise s u pc g i).collSeq = s.collSeq := rfl
@[simp] theorem raise_querns (s : State) (u : Nat) (pc : Word64) (g : List Nat) (i : TrapInfo) : (raise s u pc g i).querns = s.querns := rfl
@[simp] theorem raise_migs (s : State) (u : Nat) (pc : Word64) (g : List Nat) (i : TrapInfo) : (raise s u pc g i).migs = s.migs := rfl
@[simp] theorem raise_moves (s : State) (u : Nat) (pc : Word64) (g : List Nat) (i : TrapInfo) : (raise s u pc g i).moves = s.moves := rfl
@[simp] theorem raise_demandFaults (s : State) (u : Nat) (pc : Word64) (g : List Nat) (i : TrapInfo) : (raise s u pc g i).demandFaults = s.demandFaults := rfl
@[simp] theorem raise_engineWaits (s : State) (u : Nat) (pc : Word64) (g : List Nat) (i : TrapInfo) : (raise s u pc g i).engineWaits = s.engineWaits := rfl
@[simp] theorem raise_failed (s : State) (u : Nat) (pc : Word64) (g : List Nat) (i : TrapInfo) : (raise s u pc g i).failed = s.failed := rfl
@[simp] theorem raise_expansions (s : State) (u : Nat) (pc : Word64) (g : List Nat) (i : TrapInfo) : (raise s u pc g i).expansions = s.expansions := rfl
@[simp] theorem raise_rays (s : State) (u : Nat) (pc : Word64) (g : List Nat) (i : TrapInfo) : (raise s u pc g i).rays = s.rays := rfl
@[simp] theorem raise_drains (s : State) (u : Nat) (pc : Word64) (g : List Nat) (i : TrapInfo) : (raise s u pc g i).drains = s.drains := rfl
@[simp] theorem raise_slots (s : State) (u : Nat) (pc : Word64) (g : List Nat) (i : TrapInfo) : (raise s u pc g i).slots = s.slots := rfl
@[simp] theorem raise_held (s : State) (u : Nat) (pc : Word64) (g : List Nat) (i : TrapInfo) : (raise s u pc g i).held = s.held := rfl
@[simp] theorem raise_pubs (s : State) (u : Nat) (pc : Word64) (g : List Nat) (i : TrapInfo) : (raise s u pc g i).pubs = s.pubs := rfl
@[simp] theorem raise_filters (s : State) (u : Nat) (pc : Word64) (g : List Nat) (i : TrapInfo) : (raise s u pc g i).filters = s.filters := rfl
@[simp] theorem raise_vis (s : State) (u : Nat) (pc : Word64) (g : List Nat) (i : TrapInfo) : (raise s u pc g i).vis = s.vis := rfl
@[simp] theorem raise_replays (s : State) (u : Nat) (pc : Word64) (g : List Nat) (i : TrapInfo) : (raise s u pc g i).replays = s.replays := rfl
@[simp] theorem raise_svc (s : State) (u : Nat) (pc : Word64) (g : List Nat) (i : TrapInfo) : (raise s u pc g i).svc = s.svc := rfl
@[simp] theorem raise_collectors (s : State) (u : Nat) (pc : Word64) (g : List Nat) (i : TrapInfo) : (raise s u pc g i).collectors = s.collectors := rfl
@[simp] theorem raise_replies (s : State) (u : Nat) (pc : Word64) (g : List Nat) (i : TrapInfo) : (raise s u pc g i).replies = s.replies := rfl
@[simp] theorem raise_outbox (s : State) (u : Nat) (pc : Word64) (g : List Nat) (i : TrapInfo) : (raise s u pc g i).outbox = s.outbox := rfl
@[simp] theorem raise_agenda (s : State) (u : Nat) (pc : Word64) (g : List Nat) (i : TrapInfo) : (raise s u pc g i).agenda = s.agenda := rfl
@[simp] theorem raise_lastCore (s : State) (u : Nat) (pc : Word64) (g : List Nat) (i : TrapInfo) : (raise s u pc g i).lastCore = s.lastCore := rfl
@[simp] theorem raise_nextId (s : State) (u : Nat) (pc : Word64) (g : List Nat) (i : TrapInfo) : (raise s u pc g i).nextId = s.nextId := rfl
@[simp] theorem raise_freeIdx (s : State) (u : Nat) (pc : Word64) (g : List Nat) (i : TrapInfo) : (raise s u pc g i).freeIdx = s.freeIdx := rfl

/-! ### `holdT` -/

@[simp] theorem holdT_mem (s : State) (u : Nat) (ts : List Nat) (h : Hold) : (holdT s u ts h).mem = s.mem := rfl
@[simp] theorem holdT_hw (s : State) (u : Nat) (ts : List Nat) (h : Hold) : (holdT s u ts h).hw = s.hw := rfl
@[simp] theorem holdT_bar (s : State) (u : Nat) (ts : List Nat) (h : Hold) : (holdT s u ts h).bar = s.bar := rfl
@[simp] theorem holdT_cycle (s : State) (u : Nat) (ts : List Nat) (h : Hold) : (holdT s u ts h).cycle = s.cycle := rfl
@[simp] theorem holdT_cclk (s : State) (u : Nat) (ts : List Nat) (h : Hold) : (holdT s u ts h).cclk = s.cclk := rfl
@[simp] theorem holdT_cores (s : State) (u : Nat) (ts : List Nat) (h : Hold) : (holdT s u ts h).cores = s.cores := rfl
@[simp] theorem holdT_contexts (s : State) (u : Nat) (ts : List Nat) (h : Hold) : (holdT s u ts h).contexts = s.contexts := rfl
@[simp] theorem holdT_issue (s : State) (u : Nat) (ts : List Nat) (h : Hold) : (holdT s u ts h).issue = s.issue := rfl
@[simp] theorem holdT_ports (s : State) (u : Nat) (ts : List Nat) (h : Hold) : (holdT s u ts h).ports = s.ports := rfl
@[simp] theorem holdT_runs (s : State) (u : Nat) (ts : List Nat) (h : Hold) : (holdT s u ts h).runs = s.runs := rfl
@[simp] theorem holdT_ready (s : State) (u : Nat) (ts : List Nat) (h : Hold) : (holdT s u ts h).ready = s.ready := rfl
@[simp] theorem holdT_queues (s : State) (u : Nat) (ts : List Nat) (h : Hold) : (holdT s u ts h).queues = s.queues := rfl
@[simp] theorem holdT_tlb (s : State) (u : Nat) (ts : List Nat) (h : Hold) : (holdT s u ts h).tlb = s.tlb := rfl
@[simp] theorem holdT_walks (s : State) (u : Nat) (ts : List Nat) (h : Hold) : (holdT s u ts h).walks = s.walks := rfl
@[simp] theorem holdT_lines (s : State) (u : Nat) (ts : List Nat) (h : Hold) : (holdT s u ts h).lines = s.lines := rfl
@[simp] theorem holdT_dirty (s : State) (u : Nat) (ts : List Nat) (h : Hold) : (holdT s u ts h).dirty = s.dirty := rfl
@[simp] theorem holdT_pinned (s : State) (u : Nat) (ts : List Nat) (h : Hold) : (holdT s u ts h).pinned = s.pinned := rfl
@[simp] theorem holdT_tags (s : State) (u : Nat) (ts : List Nat) (h : Hold) : (holdT s u ts h).tags = s.tags := rfl
@[simp] theorem holdT_loads (s : State) (u : Nat) (ts : List Nat) (h : Hold) : (holdT s u ts h).loads = s.loads := rfl
@[simp] theorem holdT_stores (s : State) (u : Nat) (ts : List Nat) (h : Hold) : (holdT s u ts h).stores = s.stores := rfl
@[simp] theorem holdT_waiters (s : State) (u : Nat) (ts : List Nat) (h : Hold) : (holdT s u ts h).waiters = s.waiters := rfl
@[simp] theorem holdT_wokenReqs (s : State) (u : Nat) (ts : List Nat) (h : Hold) : (holdT s u ts h).wokenReqs = s.wokenReqs := rfl
@[simp] theorem holdT_genQueue (s : State) (u : Nat) (ts : List Nat) (h : Hold) : (holdT s u ts h).genQueue = s.genQueue := rfl
@[simp] theorem holdT_nodes (s : State) (u : Nat) (ts : List Nat) (h : Hold) : (holdT s u ts h).nodes = s.nodes := rfl
@[simp] theorem holdT_tileReqs (s : State) (u : Nat) (ts : List Nat) (h : Hold) : (holdT s u ts h).tileReqs = s.tileReqs := rfl
@[simp] theorem holdT_flume (s : State) (u : Nat) (ts : List Nat) (h : Hold) : (holdT s u ts h).flume = s.flume := rfl
@[simp] theorem holdT_rings (s : State) (u : Nat) (ts : List Nat) (h : Hold) : (holdT s u ts h).rings = s.rings := rfl
@[simp] theorem holdT_ringCame (s : State) (u : Nat) (ts : List Nat) (h : Hold) : (holdT s u ts h).ringCame = s.ringCame := rfl
@[simp] theorem holdT_colls (s : State) (u : Nat) (ts : List Nat) (h : Hold) : (holdT s u ts h).colls = s.colls := rfl
@[simp] theorem holdT_collSeq (s : State) (u : Nat) (ts : List Nat) (h : Hold) : (holdT s u ts h).collSeq = s.collSeq := rfl
@[simp] theorem holdT_querns (s : State) (u : Nat) (ts : List Nat) (h : Hold) : (holdT s u ts h).querns = s.querns := rfl
@[simp] theorem holdT_migs (s : State) (u : Nat) (ts : List Nat) (h : Hold) : (holdT s u ts h).migs = s.migs := rfl
@[simp] theorem holdT_moves (s : State) (u : Nat) (ts : List Nat) (h : Hold) : (holdT s u ts h).moves = s.moves := rfl
@[simp] theorem holdT_demandFaults (s : State) (u : Nat) (ts : List Nat) (h : Hold) : (holdT s u ts h).demandFaults = s.demandFaults := rfl
@[simp] theorem holdT_engineWaits (s : State) (u : Nat) (ts : List Nat) (h : Hold) : (holdT s u ts h).engineWaits = s.engineWaits := rfl
@[simp] theorem holdT_failed (s : State) (u : Nat) (ts : List Nat) (h : Hold) : (holdT s u ts h).failed = s.failed := rfl
@[simp] theorem holdT_expansions (s : State) (u : Nat) (ts : List Nat) (h : Hold) : (holdT s u ts h).expansions = s.expansions := rfl
@[simp] theorem holdT_rays (s : State) (u : Nat) (ts : List Nat) (h : Hold) : (holdT s u ts h).rays = s.rays := rfl
@[simp] theorem holdT_drains (s : State) (u : Nat) (ts : List Nat) (h : Hold) : (holdT s u ts h).drains = s.drains := rfl
@[simp] theorem holdT_slots (s : State) (u : Nat) (ts : List Nat) (h : Hold) : (holdT s u ts h).slots = s.slots := rfl
@[simp] theorem holdT_held (s : State) (u : Nat) (ts : List Nat) (h : Hold) : (holdT s u ts h).held = s.held := rfl
@[simp] theorem holdT_pubs (s : State) (u : Nat) (ts : List Nat) (h : Hold) : (holdT s u ts h).pubs = s.pubs := rfl
@[simp] theorem holdT_filters (s : State) (u : Nat) (ts : List Nat) (h : Hold) : (holdT s u ts h).filters = s.filters := rfl
@[simp] theorem holdT_vis (s : State) (u : Nat) (ts : List Nat) (h : Hold) : (holdT s u ts h).vis = s.vis := rfl
@[simp] theorem holdT_replays (s : State) (u : Nat) (ts : List Nat) (h : Hold) : (holdT s u ts h).replays = s.replays := rfl
@[simp] theorem holdT_svc (s : State) (u : Nat) (ts : List Nat) (h : Hold) : (holdT s u ts h).svc = s.svc := rfl
@[simp] theorem holdT_collectors (s : State) (u : Nat) (ts : List Nat) (h : Hold) : (holdT s u ts h).collectors = s.collectors := rfl
@[simp] theorem holdT_replies (s : State) (u : Nat) (ts : List Nat) (h : Hold) : (holdT s u ts h).replies = s.replies := rfl
@[simp] theorem holdT_outbox (s : State) (u : Nat) (ts : List Nat) (h : Hold) : (holdT s u ts h).outbox = s.outbox := rfl
@[simp] theorem holdT_agenda (s : State) (u : Nat) (ts : List Nat) (h : Hold) : (holdT s u ts h).agenda = s.agenda := rfl
@[simp] theorem holdT_lastCore (s : State) (u : Nat) (ts : List Nat) (h : Hold) : (holdT s u ts h).lastCore = s.lastCore := rfl
@[simp] theorem holdT_nextId (s : State) (u : Nat) (ts : List Nat) (h : Hold) : (holdT s u ts h).nextId = s.nextId := rfl
@[simp] theorem holdT_freeIdx (s : State) (u : Nat) (ts : List Nat) (h : Hold) : (holdT s u ts h).freeIdx = s.freeIdx := rfl

/-! ### `parkT` -/

@[simp] theorem parkT_mem (s : State) (u : Nat) (ts : List Nat) (p : Park) : (parkT s u ts p).mem = s.mem := rfl
@[simp] theorem parkT_hw (s : State) (u : Nat) (ts : List Nat) (p : Park) : (parkT s u ts p).hw = s.hw := rfl
@[simp] theorem parkT_bar (s : State) (u : Nat) (ts : List Nat) (p : Park) : (parkT s u ts p).bar = s.bar := rfl
@[simp] theorem parkT_cycle (s : State) (u : Nat) (ts : List Nat) (p : Park) : (parkT s u ts p).cycle = s.cycle := rfl
@[simp] theorem parkT_cclk (s : State) (u : Nat) (ts : List Nat) (p : Park) : (parkT s u ts p).cclk = s.cclk := rfl
@[simp] theorem parkT_cores (s : State) (u : Nat) (ts : List Nat) (p : Park) : (parkT s u ts p).cores = s.cores := rfl
@[simp] theorem parkT_contexts (s : State) (u : Nat) (ts : List Nat) (p : Park) : (parkT s u ts p).contexts = s.contexts := rfl
@[simp] theorem parkT_issue (s : State) (u : Nat) (ts : List Nat) (p : Park) : (parkT s u ts p).issue = s.issue := rfl
@[simp] theorem parkT_ports (s : State) (u : Nat) (ts : List Nat) (p : Park) : (parkT s u ts p).ports = s.ports := rfl
@[simp] theorem parkT_runs (s : State) (u : Nat) (ts : List Nat) (p : Park) : (parkT s u ts p).runs = s.runs := rfl
@[simp] theorem parkT_ready (s : State) (u : Nat) (ts : List Nat) (p : Park) : (parkT s u ts p).ready = s.ready := rfl
@[simp] theorem parkT_queues (s : State) (u : Nat) (ts : List Nat) (p : Park) : (parkT s u ts p).queues = s.queues := rfl
@[simp] theorem parkT_tlb (s : State) (u : Nat) (ts : List Nat) (p : Park) : (parkT s u ts p).tlb = s.tlb := rfl
@[simp] theorem parkT_walks (s : State) (u : Nat) (ts : List Nat) (p : Park) : (parkT s u ts p).walks = s.walks := rfl
@[simp] theorem parkT_lines (s : State) (u : Nat) (ts : List Nat) (p : Park) : (parkT s u ts p).lines = s.lines := rfl
@[simp] theorem parkT_dirty (s : State) (u : Nat) (ts : List Nat) (p : Park) : (parkT s u ts p).dirty = s.dirty := rfl
@[simp] theorem parkT_pinned (s : State) (u : Nat) (ts : List Nat) (p : Park) : (parkT s u ts p).pinned = s.pinned := rfl
@[simp] theorem parkT_tags (s : State) (u : Nat) (ts : List Nat) (p : Park) : (parkT s u ts p).tags = s.tags := rfl
@[simp] theorem parkT_loads (s : State) (u : Nat) (ts : List Nat) (p : Park) : (parkT s u ts p).loads = s.loads := rfl
@[simp] theorem parkT_stores (s : State) (u : Nat) (ts : List Nat) (p : Park) : (parkT s u ts p).stores = s.stores := rfl
@[simp] theorem parkT_waiters (s : State) (u : Nat) (ts : List Nat) (p : Park) : (parkT s u ts p).waiters = s.waiters := rfl
@[simp] theorem parkT_wokenReqs (s : State) (u : Nat) (ts : List Nat) (p : Park) : (parkT s u ts p).wokenReqs = s.wokenReqs := rfl
@[simp] theorem parkT_genQueue (s : State) (u : Nat) (ts : List Nat) (p : Park) : (parkT s u ts p).genQueue = s.genQueue := rfl
@[simp] theorem parkT_nodes (s : State) (u : Nat) (ts : List Nat) (p : Park) : (parkT s u ts p).nodes = s.nodes := rfl
@[simp] theorem parkT_tileReqs (s : State) (u : Nat) (ts : List Nat) (p : Park) : (parkT s u ts p).tileReqs = s.tileReqs := rfl
@[simp] theorem parkT_flume (s : State) (u : Nat) (ts : List Nat) (p : Park) : (parkT s u ts p).flume = s.flume := rfl
@[simp] theorem parkT_rings (s : State) (u : Nat) (ts : List Nat) (p : Park) : (parkT s u ts p).rings = s.rings := rfl
@[simp] theorem parkT_ringCame (s : State) (u : Nat) (ts : List Nat) (p : Park) : (parkT s u ts p).ringCame = s.ringCame := rfl
@[simp] theorem parkT_colls (s : State) (u : Nat) (ts : List Nat) (p : Park) : (parkT s u ts p).colls = s.colls := rfl
@[simp] theorem parkT_collSeq (s : State) (u : Nat) (ts : List Nat) (p : Park) : (parkT s u ts p).collSeq = s.collSeq := rfl
@[simp] theorem parkT_querns (s : State) (u : Nat) (ts : List Nat) (p : Park) : (parkT s u ts p).querns = s.querns := rfl
@[simp] theorem parkT_migs (s : State) (u : Nat) (ts : List Nat) (p : Park) : (parkT s u ts p).migs = s.migs := rfl
@[simp] theorem parkT_moves (s : State) (u : Nat) (ts : List Nat) (p : Park) : (parkT s u ts p).moves = s.moves := rfl
@[simp] theorem parkT_demandFaults (s : State) (u : Nat) (ts : List Nat) (p : Park) : (parkT s u ts p).demandFaults = s.demandFaults := rfl
@[simp] theorem parkT_engineWaits (s : State) (u : Nat) (ts : List Nat) (p : Park) : (parkT s u ts p).engineWaits = s.engineWaits := rfl
@[simp] theorem parkT_failed (s : State) (u : Nat) (ts : List Nat) (p : Park) : (parkT s u ts p).failed = s.failed := rfl
@[simp] theorem parkT_expansions (s : State) (u : Nat) (ts : List Nat) (p : Park) : (parkT s u ts p).expansions = s.expansions := rfl
@[simp] theorem parkT_rays (s : State) (u : Nat) (ts : List Nat) (p : Park) : (parkT s u ts p).rays = s.rays := rfl
@[simp] theorem parkT_drains (s : State) (u : Nat) (ts : List Nat) (p : Park) : (parkT s u ts p).drains = s.drains := rfl
@[simp] theorem parkT_slots (s : State) (u : Nat) (ts : List Nat) (p : Park) : (parkT s u ts p).slots = s.slots := rfl
@[simp] theorem parkT_held (s : State) (u : Nat) (ts : List Nat) (p : Park) : (parkT s u ts p).held = s.held := rfl
@[simp] theorem parkT_pubs (s : State) (u : Nat) (ts : List Nat) (p : Park) : (parkT s u ts p).pubs = s.pubs := rfl
@[simp] theorem parkT_filters (s : State) (u : Nat) (ts : List Nat) (p : Park) : (parkT s u ts p).filters = s.filters := rfl
@[simp] theorem parkT_vis (s : State) (u : Nat) (ts : List Nat) (p : Park) : (parkT s u ts p).vis = s.vis := rfl
@[simp] theorem parkT_replays (s : State) (u : Nat) (ts : List Nat) (p : Park) : (parkT s u ts p).replays = s.replays := rfl
@[simp] theorem parkT_svc (s : State) (u : Nat) (ts : List Nat) (p : Park) : (parkT s u ts p).svc = s.svc := rfl
@[simp] theorem parkT_collectors (s : State) (u : Nat) (ts : List Nat) (p : Park) : (parkT s u ts p).collectors = s.collectors := rfl
@[simp] theorem parkT_replies (s : State) (u : Nat) (ts : List Nat) (p : Park) : (parkT s u ts p).replies = s.replies := rfl
@[simp] theorem parkT_outbox (s : State) (u : Nat) (ts : List Nat) (p : Park) : (parkT s u ts p).outbox = s.outbox := rfl
@[simp] theorem parkT_agenda (s : State) (u : Nat) (ts : List Nat) (p : Park) : (parkT s u ts p).agenda = s.agenda := rfl
@[simp] theorem parkT_lastCore (s : State) (u : Nat) (ts : List Nat) (p : Park) : (parkT s u ts p).lastCore = s.lastCore := rfl
@[simp] theorem parkT_nextId (s : State) (u : Nat) (ts : List Nat) (p : Park) : (parkT s u ts p).nextId = s.nextId := rfl
@[simp] theorem parkT_freeIdx (s : State) (u : Nat) (ts : List Nat) (p : Park) : (parkT s u ts p).freeIdx = s.freeIdx := rfl

/-! ### `countUp` -/

@[simp] theorem countUp_mem (s : State) (u i : Nat) (f : Counters → Counters) : (countUp s u i f).mem = s.mem := rfl
@[simp] theorem countUp_hw (s : State) (u i : Nat) (f : Counters → Counters) : (countUp s u i f).hw = s.hw := rfl
@[simp] theorem countUp_bar (s : State) (u i : Nat) (f : Counters → Counters) : (countUp s u i f).bar = s.bar := rfl
@[simp] theorem countUp_cycle (s : State) (u i : Nat) (f : Counters → Counters) : (countUp s u i f).cycle = s.cycle := rfl
@[simp] theorem countUp_cclk (s : State) (u i : Nat) (f : Counters → Counters) : (countUp s u i f).cclk = s.cclk := rfl
@[simp] theorem countUp_cores (s : State) (u i : Nat) (f : Counters → Counters) : (countUp s u i f).cores = s.cores := rfl
@[simp] theorem countUp_contexts (s : State) (u i : Nat) (f : Counters → Counters) : (countUp s u i f).contexts = s.contexts := rfl
@[simp] theorem countUp_issue (s : State) (u i : Nat) (f : Counters → Counters) : (countUp s u i f).issue = s.issue := rfl
@[simp] theorem countUp_ports (s : State) (u i : Nat) (f : Counters → Counters) : (countUp s u i f).ports = s.ports := rfl
@[simp] theorem countUp_runs (s : State) (u i : Nat) (f : Counters → Counters) : (countUp s u i f).runs = s.runs := rfl
@[simp] theorem countUp_ready (s : State) (u i : Nat) (f : Counters → Counters) : (countUp s u i f).ready = s.ready := rfl
@[simp] theorem countUp_queues (s : State) (u i : Nat) (f : Counters → Counters) : (countUp s u i f).queues = s.queues := rfl
@[simp] theorem countUp_tlb (s : State) (u i : Nat) (f : Counters → Counters) : (countUp s u i f).tlb = s.tlb := rfl
@[simp] theorem countUp_walks (s : State) (u i : Nat) (f : Counters → Counters) : (countUp s u i f).walks = s.walks := rfl
@[simp] theorem countUp_lines (s : State) (u i : Nat) (f : Counters → Counters) : (countUp s u i f).lines = s.lines := rfl
@[simp] theorem countUp_dirty (s : State) (u i : Nat) (f : Counters → Counters) : (countUp s u i f).dirty = s.dirty := rfl
@[simp] theorem countUp_pinned (s : State) (u i : Nat) (f : Counters → Counters) : (countUp s u i f).pinned = s.pinned := rfl
@[simp] theorem countUp_tags (s : State) (u i : Nat) (f : Counters → Counters) : (countUp s u i f).tags = s.tags := rfl
@[simp] theorem countUp_loads (s : State) (u i : Nat) (f : Counters → Counters) : (countUp s u i f).loads = s.loads := rfl
@[simp] theorem countUp_stores (s : State) (u i : Nat) (f : Counters → Counters) : (countUp s u i f).stores = s.stores := rfl
@[simp] theorem countUp_waiters (s : State) (u i : Nat) (f : Counters → Counters) : (countUp s u i f).waiters = s.waiters := rfl
@[simp] theorem countUp_wokenReqs (s : State) (u i : Nat) (f : Counters → Counters) : (countUp s u i f).wokenReqs = s.wokenReqs := rfl
@[simp] theorem countUp_genQueue (s : State) (u i : Nat) (f : Counters → Counters) : (countUp s u i f).genQueue = s.genQueue := rfl
@[simp] theorem countUp_nodes (s : State) (u i : Nat) (f : Counters → Counters) : (countUp s u i f).nodes = s.nodes := rfl
@[simp] theorem countUp_tileReqs (s : State) (u i : Nat) (f : Counters → Counters) : (countUp s u i f).tileReqs = s.tileReqs := rfl
@[simp] theorem countUp_flume (s : State) (u i : Nat) (f : Counters → Counters) : (countUp s u i f).flume = s.flume := rfl
@[simp] theorem countUp_rings (s : State) (u i : Nat) (f : Counters → Counters) : (countUp s u i f).rings = s.rings := rfl
@[simp] theorem countUp_ringCame (s : State) (u i : Nat) (f : Counters → Counters) : (countUp s u i f).ringCame = s.ringCame := rfl
@[simp] theorem countUp_colls (s : State) (u i : Nat) (f : Counters → Counters) : (countUp s u i f).colls = s.colls := rfl
@[simp] theorem countUp_collSeq (s : State) (u i : Nat) (f : Counters → Counters) : (countUp s u i f).collSeq = s.collSeq := rfl
@[simp] theorem countUp_querns (s : State) (u i : Nat) (f : Counters → Counters) : (countUp s u i f).querns = s.querns := rfl
@[simp] theorem countUp_migs (s : State) (u i : Nat) (f : Counters → Counters) : (countUp s u i f).migs = s.migs := rfl
@[simp] theorem countUp_moves (s : State) (u i : Nat) (f : Counters → Counters) : (countUp s u i f).moves = s.moves := rfl
@[simp] theorem countUp_demandFaults (s : State) (u i : Nat) (f : Counters → Counters) : (countUp s u i f).demandFaults = s.demandFaults := rfl
@[simp] theorem countUp_engineWaits (s : State) (u i : Nat) (f : Counters → Counters) : (countUp s u i f).engineWaits = s.engineWaits := rfl
@[simp] theorem countUp_failed (s : State) (u i : Nat) (f : Counters → Counters) : (countUp s u i f).failed = s.failed := rfl
@[simp] theorem countUp_expansions (s : State) (u i : Nat) (f : Counters → Counters) : (countUp s u i f).expansions = s.expansions := rfl
@[simp] theorem countUp_rays (s : State) (u i : Nat) (f : Counters → Counters) : (countUp s u i f).rays = s.rays := rfl
@[simp] theorem countUp_drains (s : State) (u i : Nat) (f : Counters → Counters) : (countUp s u i f).drains = s.drains := rfl
@[simp] theorem countUp_slots (s : State) (u i : Nat) (f : Counters → Counters) : (countUp s u i f).slots = s.slots := rfl
@[simp] theorem countUp_held (s : State) (u i : Nat) (f : Counters → Counters) : (countUp s u i f).held = s.held := rfl
@[simp] theorem countUp_pubs (s : State) (u i : Nat) (f : Counters → Counters) : (countUp s u i f).pubs = s.pubs := rfl
@[simp] theorem countUp_filters (s : State) (u i : Nat) (f : Counters → Counters) : (countUp s u i f).filters = s.filters := rfl
@[simp] theorem countUp_vis (s : State) (u i : Nat) (f : Counters → Counters) : (countUp s u i f).vis = s.vis := rfl
@[simp] theorem countUp_replays (s : State) (u i : Nat) (f : Counters → Counters) : (countUp s u i f).replays = s.replays := rfl
@[simp] theorem countUp_svc (s : State) (u i : Nat) (f : Counters → Counters) : (countUp s u i f).svc = s.svc := rfl
@[simp] theorem countUp_collectors (s : State) (u i : Nat) (f : Counters → Counters) : (countUp s u i f).collectors = s.collectors := rfl
@[simp] theorem countUp_replies (s : State) (u i : Nat) (f : Counters → Counters) : (countUp s u i f).replies = s.replies := rfl
@[simp] theorem countUp_outbox (s : State) (u i : Nat) (f : Counters → Counters) : (countUp s u i f).outbox = s.outbox := rfl
@[simp] theorem countUp_agenda (s : State) (u i : Nat) (f : Counters → Counters) : (countUp s u i f).agenda = s.agenda := rfl
@[simp] theorem countUp_lastCore (s : State) (u i : Nat) (f : Counters → Counters) : (countUp s u i f).lastCore = s.lastCore := rfl
@[simp] theorem countUp_nextId (s : State) (u i : Nat) (f : Counters → Counters) : (countUp s u i f).nextId = s.nextId := rfl
@[simp] theorem countUp_freeIdx (s : State) (u i : Nat) (f : Counters → Counters) : (countUp s u i f).freeIdx = s.freeIdx := rfl

/-! ### `homeWrite` -/

@[simp] theorem homeWrite_bar (s : State) (b : Option Nat) (ws : List (Nat × Byte)) : (homeWrite s b ws).bar = s.bar := rfl
@[simp] theorem homeWrite_cycle (s : State) (b : Option Nat) (ws : List (Nat × Byte)) : (homeWrite s b ws).cycle = s.cycle := rfl
@[simp] theorem homeWrite_cclk (s : State) (b : Option Nat) (ws : List (Nat × Byte)) : (homeWrite s b ws).cclk = s.cclk := rfl
@[simp] theorem homeWrite_cores (s : State) (b : Option Nat) (ws : List (Nat × Byte)) : (homeWrite s b ws).cores = s.cores := rfl
@[simp] theorem homeWrite_contexts (s : State) (b : Option Nat) (ws : List (Nat × Byte)) : (homeWrite s b ws).contexts = s.contexts := rfl
@[simp] theorem homeWrite_crews (s : State) (b : Option Nat) (ws : List (Nat × Byte)) : (homeWrite s b ws).crews = s.crews := rfl
@[simp] theorem homeWrite_issue (s : State) (b : Option Nat) (ws : List (Nat × Byte)) : (homeWrite s b ws).issue = s.issue := rfl
@[simp] theorem homeWrite_ports (s : State) (b : Option Nat) (ws : List (Nat × Byte)) : (homeWrite s b ws).ports = s.ports := rfl
@[simp] theorem homeWrite_runs (s : State) (b : Option Nat) (ws : List (Nat × Byte)) : (homeWrite s b ws).runs = s.runs := rfl
@[simp] theorem homeWrite_ready (s : State) (b : Option Nat) (ws : List (Nat × Byte)) : (homeWrite s b ws).ready = s.ready := rfl
@[simp] theorem homeWrite_queues (s : State) (b : Option Nat) (ws : List (Nat × Byte)) : (homeWrite s b ws).queues = s.queues := rfl
@[simp] theorem homeWrite_tlb (s : State) (b : Option Nat) (ws : List (Nat × Byte)) : (homeWrite s b ws).tlb = s.tlb := rfl
@[simp] theorem homeWrite_walks (s : State) (b : Option Nat) (ws : List (Nat × Byte)) : (homeWrite s b ws).walks = s.walks := rfl
@[simp] theorem homeWrite_pinned (s : State) (b : Option Nat) (ws : List (Nat × Byte)) : (homeWrite s b ws).pinned = s.pinned := rfl
@[simp] theorem homeWrite_tags (s : State) (b : Option Nat) (ws : List (Nat × Byte)) : (homeWrite s b ws).tags = s.tags := rfl
@[simp] theorem homeWrite_loads (s : State) (b : Option Nat) (ws : List (Nat × Byte)) : (homeWrite s b ws).loads = s.loads := rfl
@[simp] theorem homeWrite_stores (s : State) (b : Option Nat) (ws : List (Nat × Byte)) : (homeWrite s b ws).stores = s.stores := rfl
@[simp] theorem homeWrite_waiters (s : State) (b : Option Nat) (ws : List (Nat × Byte)) : (homeWrite s b ws).waiters = s.waiters := rfl
@[simp] theorem homeWrite_wokenReqs (s : State) (b : Option Nat) (ws : List (Nat × Byte)) : (homeWrite s b ws).wokenReqs = s.wokenReqs := rfl
@[simp] theorem homeWrite_genQueue (s : State) (b : Option Nat) (ws : List (Nat × Byte)) : (homeWrite s b ws).genQueue = s.genQueue := rfl
@[simp] theorem homeWrite_nodes (s : State) (b : Option Nat) (ws : List (Nat × Byte)) : (homeWrite s b ws).nodes = s.nodes := rfl
@[simp] theorem homeWrite_tileReqs (s : State) (b : Option Nat) (ws : List (Nat × Byte)) : (homeWrite s b ws).tileReqs = s.tileReqs := rfl
@[simp] theorem homeWrite_flume (s : State) (b : Option Nat) (ws : List (Nat × Byte)) : (homeWrite s b ws).flume = s.flume := rfl
@[simp] theorem homeWrite_rings (s : State) (b : Option Nat) (ws : List (Nat × Byte)) : (homeWrite s b ws).rings = s.rings := rfl
@[simp] theorem homeWrite_ringCame (s : State) (b : Option Nat) (ws : List (Nat × Byte)) : (homeWrite s b ws).ringCame = s.ringCame := rfl
@[simp] theorem homeWrite_colls (s : State) (b : Option Nat) (ws : List (Nat × Byte)) : (homeWrite s b ws).colls = s.colls := rfl
@[simp] theorem homeWrite_collSeq (s : State) (b : Option Nat) (ws : List (Nat × Byte)) : (homeWrite s b ws).collSeq = s.collSeq := rfl
@[simp] theorem homeWrite_querns (s : State) (b : Option Nat) (ws : List (Nat × Byte)) : (homeWrite s b ws).querns = s.querns := rfl
@[simp] theorem homeWrite_migs (s : State) (b : Option Nat) (ws : List (Nat × Byte)) : (homeWrite s b ws).migs = s.migs := rfl
@[simp] theorem homeWrite_moves (s : State) (b : Option Nat) (ws : List (Nat × Byte)) : (homeWrite s b ws).moves = s.moves := rfl
@[simp] theorem homeWrite_demandFaults (s : State) (b : Option Nat) (ws : List (Nat × Byte)) : (homeWrite s b ws).demandFaults = s.demandFaults := rfl
@[simp] theorem homeWrite_engineWaits (s : State) (b : Option Nat) (ws : List (Nat × Byte)) : (homeWrite s b ws).engineWaits = s.engineWaits := rfl
@[simp] theorem homeWrite_failed (s : State) (b : Option Nat) (ws : List (Nat × Byte)) : (homeWrite s b ws).failed = s.failed := rfl
@[simp] theorem homeWrite_expansions (s : State) (b : Option Nat) (ws : List (Nat × Byte)) : (homeWrite s b ws).expansions = s.expansions := rfl
@[simp] theorem homeWrite_rays (s : State) (b : Option Nat) (ws : List (Nat × Byte)) : (homeWrite s b ws).rays = s.rays := rfl
@[simp] theorem homeWrite_drains (s : State) (b : Option Nat) (ws : List (Nat × Byte)) : (homeWrite s b ws).drains = s.drains := rfl
@[simp] theorem homeWrite_slots (s : State) (b : Option Nat) (ws : List (Nat × Byte)) : (homeWrite s b ws).slots = s.slots := rfl
@[simp] theorem homeWrite_held (s : State) (b : Option Nat) (ws : List (Nat × Byte)) : (homeWrite s b ws).held = s.held := rfl
@[simp] theorem homeWrite_pubs (s : State) (b : Option Nat) (ws : List (Nat × Byte)) : (homeWrite s b ws).pubs = s.pubs := rfl
@[simp] theorem homeWrite_filters (s : State) (b : Option Nat) (ws : List (Nat × Byte)) : (homeWrite s b ws).filters = s.filters := rfl
@[simp] theorem homeWrite_vis (s : State) (b : Option Nat) (ws : List (Nat × Byte)) : (homeWrite s b ws).vis = s.vis := rfl
@[simp] theorem homeWrite_replays (s : State) (b : Option Nat) (ws : List (Nat × Byte)) : (homeWrite s b ws).replays = s.replays := rfl
@[simp] theorem homeWrite_svc (s : State) (b : Option Nat) (ws : List (Nat × Byte)) : (homeWrite s b ws).svc = s.svc := rfl
@[simp] theorem homeWrite_collectors (s : State) (b : Option Nat) (ws : List (Nat × Byte)) : (homeWrite s b ws).collectors = s.collectors := rfl
@[simp] theorem homeWrite_replies (s : State) (b : Option Nat) (ws : List (Nat × Byte)) : (homeWrite s b ws).replies = s.replies := rfl
@[simp] theorem homeWrite_outbox (s : State) (b : Option Nat) (ws : List (Nat × Byte)) : (homeWrite s b ws).outbox = s.outbox := rfl
@[simp] theorem homeWrite_agenda (s : State) (b : Option Nat) (ws : List (Nat × Byte)) : (homeWrite s b ws).agenda = s.agenda := rfl
@[simp] theorem homeWrite_lastCore (s : State) (b : Option Nat) (ws : List (Nat × Byte)) : (homeWrite s b ws).lastCore = s.lastCore := rfl
@[simp] theorem homeWrite_nextId (s : State) (b : Option Nat) (ws : List (Nat × Byte)) : (homeWrite s b ws).nextId = s.nextId := rfl
@[simp] theorem homeWrite_freeIdx (s : State) (b : Option Nat) (ws : List (Nat × Byte)) : (homeWrite s b ws).freeIdx = s.freeIdx := rfl

@[simp] theorem retire_issue (is : Issue) (s : State) : (retire is s).issue = none := rfl
@[simp] theorem retireSome_issue (is : Issue) (ts : List Nat) (s : State) : (retireSome is ts s).issue = none := rfl
@[simp] theorem raise_issue (s : State) (u : Nat) (pc : Word64) (g : List Nat) (i : TrapInfo) : (raise s u pc g i).issue = none := rfl

end Sys2Proof.Machine
end

