-- ==== Sys2Proof/Laws/Threads.lean ====
section
/-! SUPPORT. Laws of crews and threads: lookups after updates, and what bindings, meets and the end of an issue leave unchanged. -/

namespace Sys2Proof.Machine

/-! ### Lookups after updates -/

theorem find?_map_of_key {α : Type} (l : List α) (f : α → α) (key : α → Nat) (k : Nat) (h : ∀ x, key (f x) = key x) :
    (l.map f).find? (fun x => key x == k) = (l.find? fun x => key x == k).map f := by
  induction l with
  | nil => rfl
  | cons x xs ih =>
    simp only [List.map_cons, List.find?_cons, h]
    split <;> simp_all

/-- A crew after an update of crews with one number. -/
theorem getCrew_updCrew (s : State) (uid u : Nat) (f : Crew → Crew) (hf : ∀ c, (f c).uid = c.uid) :
    getCrew (updCrew s uid f) u = (getCrew s u).map fun c => if c.uid = uid then f c else c := by
  unfold getCrew updCrew
  exact find?_map_of_key s.crews _ Crew.uid u (by intro c; split <;> simp [hf])

theorem getCrew_uid {s : State} {u : Nat} {c : Crew} (h : getCrew s u = some c) : c.uid = u := by
  simpa using List.find?_some h

theorem getCrew_updCrew_same {s : State} {uid : Nat} {f : Crew → Crew} {c : Crew} (hf : ∀ c, (f c).uid = c.uid) (h : getCrew s uid = some c) :
    getCrew (updCrew s uid f) uid = some (f c) := by
  rw [getCrew_updCrew s uid uid f hf, h]
  simp [getCrew_uid h]

theorem getCrew_updCrew_ne {s : State} {uid u : Nat} (f : Crew → Crew) (hf : ∀ c, (f c).uid = c.uid) (h : u ≠ uid) :
    getCrew (updCrew s uid f) u = getCrew s u := by
  rw [getCrew_updCrew s uid u f hf]
  cases hc : getCrew s u with
  | none => rfl
  | some c => simp [getCrew_uid hc, h]

theorem thread_tid {c : Crew} {i : Nat} {t : Thread} (h : c.thread i = some t) : t.tid = i := by
  simpa using List.find?_some h

@[simp] theorem mapT_threads (c : Crew) (f : Thread → Thread) : (c.mapT f).threads = c.threads.map f := rfl

/-- A thread after a change of every thread of its crew. -/
theorem thread_mapT (c : Crew) (f : Thread → Thread) (i : Nat) (hf : ∀ t, (f t).tid = t.tid) : (c.mapT f).thread i = (c.thread i).map f :=
  find?_map_of_key c.threads f Thread.tid i hf

theorem thread_upd (c : Crew) (tid i : Nat) (f : Thread → Thread) (hf : ∀ t, (f t).tid = t.tid) :
    (c.upd tid f).thread i = (c.thread i).map fun t => if t.tid = tid then f t else t :=
  thread_mapT c _ i (by intro t; split <;> simp [hf])

/-! ### What control may change of a crew -/

/-- A thread without what an arrival at a PC may change of it: its hold, pass bit and binding, and the gang with which it is to issue again. -/
def Thread.settled (t : Thread) : Thread := { t with hold := .none, pass := false, bound := none, gang := [] }

theorem settled_tid {t u : Thread} (h : t.settled = u.settled) : t.tid = u.tid := (Thread.mk.inj h).1

/-- A crew without its threads and the number of its next binding. -/
def Crew.shell (c : Crew) : Crew := { c with threads := [], nextBound := 0 }

/-- Two crews that agree in all but the holds, pass bits, bindings and gangs of their threads. -/
structure Settled (c c' : Crew) : Prop where
  shell : c'.shell = c.shell
  each : ∃ f : Thread → Thread, c'.threads = c.threads.map f ∧ ∀ t, (f t).settled = t.settled

theorem Settled.refl (c : Crew) : Settled c c := ⟨rfl, id, by simp, fun _ => rfl⟩

theorem Settled.trans {a b c : Crew} (h : Settled a b) (k : Settled b c) : Settled a c := by
  obtain ⟨hr, f, hf, hf'⟩ := h
  obtain ⟨kr, g, kg, kg'⟩ := k
  exact ⟨kr.trans hr, g ∘ f, by simp [kg, hf], fun t => (kg' (f t)).trans (hf' t)⟩

theorem Settled.mapT (c : Crew) (f : Thread → Thread) (h : ∀ t, (f t).settled = t.settled) : Settled c (c.mapT f) := ⟨rfl, f, rfl, h⟩

theorem foldl_settled {β : Type} (xs : List β) (f : Crew → β → Crew) (h : ∀ c x, Settled c (f c x)) (c : Crew) : Settled c (xs.foldl f c) := by
  induction xs generalizing c with
  | nil => exact .refl c
  | cons x xs ih => exact (h c x).trans (ih _)

theorem endBindings_settled (c : Crew) (ts : List Nat) : Settled c (endBindings c ts) :=
  .mapT c _ fun t => by
    split
    · split <;> rfl
    · rfl

theorem bindGang_settled (c : Crew) (ts : List Nat) : Settled c (bindGang c ts) := by
  refine (endBindings_settled c ts).trans ⟨rfl, _, rfl, fun t => ?_⟩
  split <;> rfl

theorem releaseMeet_settled (c : Crew) (ts : List Nat) : Settled c (releaseMeet c ts) := by
  refine Settled.trans (.mapT c _ fun t => ?_) (bindGang_settled _ ts)
  split <;> rfl

theorem releaseMeets_settled (arr : List Nat) (c : Crew) : Settled c (releaseMeets arr c) :=
  foldl_settled _ _ (fun c _ => releaseMeet_settled c _) c

/-- Arrivals at a PC change only holds, pass bits and bindings (R113, R114). -/
theorem settleMeets_settled (arr : List Nat) (c : Crew) : Settled c (settleMeets arr c) := by
  refine ((endBindings_settled c _).trans (.mapT _ _ fun t => ?_)).trans (releaseMeets_settled arr _)
  split <;> rfl

/-- A settled crew's threads are those of the crew before, changed by one function that keeps all but holds, pass bits and bindings. -/
theorem Settled.thread {c c' : Crew} (h : Settled c c') (i : Nat) {t : Thread} (ht : c.thread i = some t) :
    ∃ t', c'.thread i = some t' ∧ t'.settled = t.settled := by
  obtain ⟨-, f, hf, hs⟩ := h
  have hid : ∀ t, (f t).tid = t.tid := fun t => settled_tid (hs t)
  refine ⟨f t, ?_, hs t⟩
  show c'.threads.find? _ = _
  rw [hf, find?_map_of_key c.threads f Thread.tid i hid]
  exact congrArg (Option.map f) ht

/-- What `moveTo` does: the PCs of its threads change, and of every thread at most the hold, pass bit, binding and gang besides. -/
theorem moveTo_spec (ts : List Nat) (target : Nat → Word64) (c : Crew) :
    (moveTo ts target c).shell = c.shell ∧ ∃ f : Thread → Thread, (moveTo ts target c).threads = c.threads.map f ∧
      ∀ t, (f t).settled = { t with pc := if ts.contains t.tid then target t.tid else t.pc }.settled := by
  have h0 : Settled c (if 1 < ((ts.map target).eraseDups).length then endBindings c ts else c) := by
    split
    · exact endBindings_settled c ts
    · exact .refl c
  generalize hb : (if 1 < ((ts.map target).eraseDups).length then endBindings c ts else c) = b at h0
  have hm : moveTo ts target c = settleMeets ts (b.mapT fun t => if ts.contains t.tid then { t with pc := target t.tid, hold := .none, gang := [] } else t) := by
    rw [← hb]; rfl
  obtain ⟨r1, f1, e1, p1⟩ := h0
  obtain ⟨r2, f2, e2, p2⟩ := settleMeets_settled ts (b.mapT fun t => if ts.contains t.tid then { t with pc := target t.tid, hold := .none, gang := [] } else t)
  refine ⟨?_, f2 ∘ (fun t => if ts.contains t.tid then { t with pc := target t.tid, hold := .none, gang := [] } else t) ∘ f1, ?_, fun t => ?_⟩
  · rw [hm, r2]; exact r1
  · rw [hm, e2, mapT_threads, e1]; simp
  · have ht : (f1 t).tid = t.tid := settled_tid (p1 t)
    have hs := p1 t
    simp only [Function.comp, p2, ht]
    simp only [Thread.settled, Thread.mk.injEq] at hs ⊢
    split <;> simp_all

/-! ### The gang that issues -/

theorem gangDo_issues {s : State} {is : Issue} {c : Crew} (h : Issues s is c) (g : Guard) (f : Env → Out) :
    gangDo g s f = f (envOf s is c g) := by
  simp [gangDo, h.issue, h.crew, envOf, active]

theorem regInstr_issues {s : State} {is : Issue} {c : Crew} (h : Issues s is c) (a : Args) (f : Crew → Thread → List Wr) :
    regInstr a s f = .next (regsWritten s is ((active c is a.guard).flatMap fun t => (f c t).map fun w => (t.tid, w))) := by
  simp [regInstr, gangDo_issues h, envOf, regsWritten]

/-- An instruction that writes one register or predicate for each thread. -/
theorem regInstr_one {s : State} {is : Issue} {c : Crew} (h : Issues s is c) (a : Args) (f : Crew → Thread → List Wr) (g : Thread → Wr)
    (hf : ∀ t, f c t = [g t]) : regInstr a s f = .next (regsWritten s is (eachLane c is a.guard g)) := by
  rw [regInstr_issues h]
  simp only [eachLane, hf, List.map_cons, List.map_nil]
  congr 2
  induction active c is a.guard with
  | nil => rfl
  | cons x xs ih => simp [List.flatMap_cons, ih]

end Sys2Proof.Machine
end

