-- ==== Sys2Proof/Laws/Registers.lean ====
section
/-! SUPPORT. Laws of registers and predicates: a write is read back, and the writes of an instruction touch no register, thread or crew state that they do not name. -/

namespace Sys2Proof.Machine

/-! ### Groups of registers (R49) -/

theorem mget_groupPut (m : SMap Word) (k v n j : Nat) :
    mget 0 (groupPut m k v n) j = if k ≤ j ∧ j < k + n then BitVec.ofNat 32 (v / 2 ^ (32 * (j - k))) else mget 0 m j := by
  induction n generalizing m k v with
  | zero => simp only [groupPut]; rw [if_neg (by omega)]
  | succ n ih =>
    simp only [groupPut, ih, mget_mput]
    by_cases h : k + 1 ≤ j ∧ j < k + 1 + n
    · rw [if_pos h, if_pos (by omega), Nat.div_div_eq_div_mul, ← pow_add, show 32 + 32 * (j - (k + 1)) = 32 * (j - k) by omega]
    · rw [if_neg h]
      by_cases hj : j = k
      · subst hj; simp
      · rw [if_neg hj, if_neg (by omega)]

theorem groupVal_of_mget (m : SMap Word) (k v n : Nat) (h : ∀ i < n, mget 0 m (k + i) = BitVec.ofNat 32 (v / 2 ^ (32 * i))) :
    groupVal m k n = v % 2 ^ (32 * n) := by
  induction n generalizing k v with
  | zero => simp [groupVal, Nat.mod_one]
  | succ n ih =>
    have h0 : mget 0 m k = BitVec.ofNat 32 v := by simpa using h 0 (by omega)
    have hs := ih (k + 1) (v / 2 ^ 32) fun i hi => by
      have := h (i + 1) (by omega)
      rw [show k + 1 + i = k + (i + 1) by omega, this, Nat.div_div_eq_div_mul, ← pow_add, show 32 * (i + 1) = 32 + 32 * i by omega]
    simp only [groupVal, hs, h0, BitVec.toNat_ofNat]
    rw [show 32 * (n + 1) = 32 + 32 * n by omega, pow_add, Nat.mod_mul]

/-- A group of registers reads back what was written over it. -/
@[simp] theorem groupVal_groupPut (m : SMap Word) (k v n : Nat) : groupVal (groupPut m k v n) k n = v % 2 ^ (32 * n) := by
  apply groupVal_of_mget
  intro i hi
  rw [mget_groupPut, if_pos (by omega), show k + i - k = i by omega]

/-! ### The writes of an instruction -/

/-- A thread without its registers and predicates. -/
def Thread.blank (t : Thread) : Thread := { t with v := [], p := [] }

theorem blank_tid {t u : Thread} (h : t.blank = u.blank) : t.tid = u.tid := (Thread.mk.inj h).1

/-- A crew without its threads and its s registers. -/
def Crew.blank (c : Crew) : Crew := { c with threads := [], s := [] }

/-- Whether a write of a thread names the v register `j` of the thread `i`. -/
def namesV (w : Nat × Wr) (i j : Nat) : Prop := w.1 = i ∧ ∃ (k : Fin 192) (n v : Nat), w.2 = .reg (.v k) n v ∧ k.val ≤ j ∧ j < k.val + n

/-- Whether a write names the s register `j` of the crew. -/
def namesS (w : Nat × Wr) (j : Nat) : Prop := ∃ (k : Fin 48) (n v : Nat), w.2 = .reg (.s k) n v ∧ k.val ≤ j ∧ j < k.val + n

/-- Whether a write of a thread names the predicate `j` of the thread `i`. -/
def namesP (w : Nat × Wr) (i j : Nat) : Prop := w.1 = i ∧ ∃ (o : Opnd) (b : Bool), w.2 = .pred o b ∧ numOf o = j

theorem rp_wp (t : Thread) (k j : Nat) (b : Bool) : rp (wp t k b) j = if j = 7 then true else if j = k then b else rp t j := by
  by_cases hj : j = 7
  · simp [rp, hj]
  · have h7 : (j == 7) = false := by simpa using hj
    by_cases hk : k = 7
    · subst hk
      simp [wp, rp, hj]
    · by_cases he : j = k
      · subst he
        simp [wp, rp, hj, h7]
      · simp [wp, rp, hk, hj, h7, he, mget_mput]

theorem wp_blank (t : Thread) (k : Nat) (b : Bool) : (wp t k b).blank = t.blank := by
  unfold wp; split <;> rfl

/-- What one write does. -/
theorem applyWr_spec (c : Crew) (w : Nat × Wr) :
    (applyWr c w.1 w.2).blank = c.blank ∧ (∀ j, ¬ namesS w j → mget 0 (applyWr c w.1 w.2).s j = mget 0 c.s j) ∧
    ∃ f : Thread → Thread, (applyWr c w.1 w.2).threads = c.threads.map f ∧ ∀ t, (f t).blank = t.blank ∧
      (∀ j, ¬ namesV w t.tid j → mget 0 (f t).v j = mget 0 t.v j) ∧ ∀ j, ¬ namesP w t.tid j → rp (f t) j = rp t j := by
  obtain ⟨i, w⟩ := w
  cases w with
  | reg o n v =>
    cases o with
    | v k =>
      refine ⟨rfl, fun _ _ => rfl, _, rfl, fun t => ?_⟩
      by_cases h : t.tid = i
      · subst h
        simp only [if_true]
        refine ⟨rfl, fun j hj => ?_, fun _ _ => rfl⟩
        rw [mget_groupPut, if_neg fun hk => hj ⟨rfl, k, n, v, rfl, hk⟩]
      · simp [h]
    | s k =>
      refine ⟨rfl, fun j hj => ?_, id, (List.map_id _).symm, fun t => ⟨rfl, fun _ _ => rfl, fun _ _ => rfl⟩⟩
      show mget 0 (groupPut c.s k v n) j = _
      rw [mget_groupPut, if_neg fun hk => hj ⟨k, n, v, rfl, hk⟩]
    | sp x => exact ⟨rfl, fun _ _ => rfl, id, (List.map_id _).symm, fun t => ⟨rfl, fun _ _ => rfl, fun _ _ => rfl⟩⟩
    | none => exact ⟨rfl, fun _ _ => rfl, id, (List.map_id _).symm, fun t => ⟨rfl, fun _ _ => rfl, fun _ _ => rfl⟩⟩
  | pred o b =>
    have hw : ∀ o, applyWr c i (.pred o b) = c ∨ applyWr c i (.pred o b) = c.upd i fun t => wp t (numOf o) b := by
      intro o; cases o <;> simp [applyWr]
    rcases hw o with h | h
    · simp only [h]
      exact ⟨trivial, fun _ _ => trivial, id, (List.map_id _).symm, fun t => ⟨rfl, fun _ _ => rfl, fun _ _ => rfl⟩⟩
    · simp only [h]
      refine ⟨rfl, fun _ _ => rfl, _, rfl, fun t => ?_⟩
      by_cases ht : t.tid = i
      · subst ht
        simp only [if_true]
        refine ⟨wp_blank .., fun j _ => ?_, fun j hj => ?_⟩
        · unfold wp; split <;> rfl
        · rw [rp_wp]
          have hn : j ≠ numOf o := fun he => hj ⟨rfl, o, b, rfl, he.symm⟩
          rw [if_neg hn]
          split
          · next h7 => simp [h7, rp]
          · rfl
      · simp [ht]

/-- What the writes of an instruction do: they keep all but registers and predicates, and of those all that none of them names. -/
theorem applyWrs_spec (c : Crew) (ws : List (Nat × Wr)) :
    (applyWrs c ws).blank = c.blank ∧ (∀ j, (∀ w ∈ ws, ¬ namesS w j) → mget 0 (applyWrs c ws).s j = mget 0 c.s j) ∧
    ∃ f : Thread → Thread, (applyWrs c ws).threads = c.threads.map f ∧ ∀ t, (f t).blank = t.blank ∧
      (∀ j, (∀ w ∈ ws, ¬ namesV w t.tid j) → mget 0 (f t).v j = mget 0 t.v j) ∧
      ∀ j, (∀ w ∈ ws, ¬ namesP w t.tid j) → rp (f t) j = rp t j := by
  induction ws generalizing c with
  | nil => exact ⟨rfl, fun _ _ => rfl, id, (List.map_id _).symm, fun t => ⟨rfl, fun _ _ => rfl, fun _ _ => rfl⟩⟩
  | cons w ws ih =>
    obtain ⟨b1, s1, f1, e1, p1⟩ := applyWr_spec c w
    obtain ⟨b2, s2, f2, e2, p2⟩ := ih (applyWr c w.1 w.2)
    refine ⟨b2.trans b1, fun j hj => ?_, f2 ∘ f1, ?_, fun t => ⟨(p2 _).1.trans (p1 t).1, fun j hj => ?_, fun j hj => ?_⟩⟩
    · exact (s2 j fun w' hw => hj w' (List.mem_cons_of_mem _ hw)).trans (s1 j (hj w (List.mem_cons_self ..)))
    · show (applyWrs (applyWr c w.1 w.2) ws).threads = _
      rw [e2, e1, List.map_map]
    · have ht := blank_tid (p1 t).1
      exact ((p2 (f1 t)).2.1 j fun w' hw => by rw [ht]; exact hj w' (List.mem_cons_of_mem _ hw)).trans ((p1 t).2.1 j (hj w (List.mem_cons_self ..)))
    · have ht := blank_tid (p1 t).1
      exact ((p2 (f1 t)).2.2 j fun w' hw => by rw [ht]; exact hj w' (List.mem_cons_of_mem _ hw)).trans ((p1 t).2.2 j (hj w (List.mem_cons_self ..)))

end Sys2Proof.Machine
end

