-- ==== Sys2Proof/Laws/Values.lean ====
section
/-! SUPPORT. Laws of the values that operands hold: the elements of a packed value, the low bits of an exact integer, and the bounds of what an operand reads. -/

namespace Sys2Proof.Machine

theorem lowBits_lt (x : Int) (n : Nat) : lowBits x n < 2 ^ n := by
  have h : (0 : Int) < 2 ^ n := by positivity
  have h1 := Int.emod_nonneg x h.ne'
  have h2 := Int.emod_lt_of_pos x h
  have h3 : ((lowBits x n : Nat) : Int) < ((2 ^ n : Nat) : Int) := by
    rw [lowBits, Int.toNat_of_nonneg h1]; simpa using h2
  exact_mod_cast h3

@[simp] theorem lowBits_mod (x : Int) (n : Nat) : lowBits x n % 2 ^ n = lowBits x n := Nat.mod_eq_of_lt (lowBits_lt x n)

/-- The bits of a value made of elements. -/
theorem testBit_fromElems (w : Nat) (f : Nat → Nat) (n j : Nat) (hw : 0 < w) :
    (fromElems w f n).testBit j = (decide (j / w < n) && (f (j / w)).testBit (j % w)) := by
  have key : ∀ (l : List Nat) (acc : Nat), l.Nodup →
      ((l.foldr (fun e acc => acc ||| (f e % 2 ^ w) * 2 ^ (w * e)) acc).testBit j) =
        (acc.testBit j || (decide (j / w ∈ l) && (f (j / w)).testBit (j % w))) := by
    intro l
    induction l with
    | nil => intro acc _; simp
    | cons e l ih =>
      intro acc hn
      obtain ⟨he, hl⟩ := List.nodup_cons.mp hn
      simp only [List.foldr_cons, Nat.testBit_lor, ih acc hl, Nat.testBit_mul_two_pow, Nat.testBit_mod_two_pow]
      by_cases hj : j / w = e
      · subst hj
        have h1 : w * (j / w) ≤ j := Nat.mul_div_le j w
        have h2 : j - w * (j / w) = j % w := by have := Nat.div_add_mod j w; omega
        have h3 : j % w < w := Nat.mod_lt _ hw
        simp [h1, h2, h3, he]
      · have h1 : (decide (w * e ≤ j) && (decide (j - w * e < w) && (f e).testBit (j - w * e))) = false := by
          by_contra hc
          simp only [Bool.not_eq_false, Bool.and_eq_true, decide_eq_true_eq] at hc
          obtain ⟨ha, hb, -⟩ := hc
          apply hj
          rw [Nat.div_eq_iff hw]
          constructor
          · rw [mul_comm]; exact ha
          · rw [mul_comm]; omega
        simp only [h1, Bool.or_false, List.mem_cons, hj, false_or]
  unfold fromElems
  rw [key _ 0 List.nodup_range]
  simp [List.mem_range]

/-- An element of a value made of elements. -/
theorem elem_fromElems (w : Nat) (f : Nat → Nat) (n e : Nat) (hw : 0 < w) (he : e < n) : elem w (fromElems w f n) e = f e % 2 ^ w := by
  apply Nat.eq_of_testBit_eq
  intro j
  rw [elem, Nat.testBit_mod_two_pow, Nat.testBit_div_two_pow, testBit_fromElems w f n _ hw, Nat.testBit_mod_two_pow]
  by_cases hj : j < w
  · have h1 : (j + w * e) / w = e := by rw [mul_comm, Nat.add_mul_div_right _ _ hw, Nat.div_eq_of_lt hj, Nat.zero_add]
    have h2 : (j + w * e) % w = j := by rw [mul_comm, Nat.add_mul_mod_self_right, Nat.mod_eq_of_lt hj]
    simp [hj, h1, h2, he]
  · simp [hj]

theorem intMods_w_pos (m : Nat) : 0 < (intMods m).w := by
  unfold intMods intElems; split <;> exact Nat.succ_pos _

end Sys2Proof.Machine
end

