-- ==== Sys2Proof/Laws/Writes.lean ====
section
/-! SUPPORT. The shared operations of the meanings, each said once: instructions that write registers or predicates, element-wise results, and writes of memory at its homes. -/

namespace Sys2Proof.Machine

/-! ### Instructions whose effect is on registers and predicates -/

/-- An instruction that is `regInstr` of one register write per thread writes D, when each value has the property. -/
theorem writesD_of {i : Instr} {a : Args} {s : State} {is : Issue} {c : Crew} {n : Nat} {P : Thread → Nat → Prop} (h : Issues s is c)
    (f : Crew → Thread → List Wr) (hi : exec i s = regInstr a s f) (hf : ∀ t, ∃ v, f c t = [.reg a.d n v] ∧ P t v) : WritesD i a s is c n P := by
  choose g hg hp using hf
  exact ⟨g, by rw [hi]; exact regInstr_one h a f _ hg, fun t _ => hp t⟩

/-- An instruction that is `regInstr` of one predicate write per thread writes p[D]. -/
theorem writesP_of {i : Instr} {a : Args} {s : State} {is : Issue} {c : Crew} {b : Thread → Bool} (h : Issues s is c)
    (f : Crew → Thread → List Wr) (hi : exec i s = regInstr a s f) (hf : ∀ t, f c t = [.pred a.d (b t)]) : WritesP i a s is c b := by
  unfold WritesP; rw [hi]; exact regInstr_one h a f _ hf

/-- What the shared element-wise form writes: each element is the exact result on the matching elements, kept or clamped. -/
theorem intElementwise_spec (a : Args) (op : Int → Int → Int) (c : Crew) (t : Thread) :
    ∃ v, intElementwise a op c t = [.reg a.d (intMods a.m.toNat).regs v] ∧ Elements (intMods a.m.toNat) (intMods a.m.toNat).signed
      (fun e => op (asInt (intMods a.m.toNat).signed (intMods a.m.toNat).w (elem (intMods a.m.toNat).w (rd c t a.a (intMods a.m.toNat).regs) e))
        (asInt (intMods a.m.toNat).signed (intMods a.m.toNat).w (elem (intMods a.m.toNat).w (srcB c t a (intMods a.m.toNat)) e))) v := by
  refine ⟨_, rfl, fun e he => ?_⟩
  rw [elem_fromElems _ _ _ _ (intMods_w_pos _) he, lowBits_mod]

/-! ### Memory at its homes -/

/-- A write at homes keeps the canonical form of memory. -/
theorem wf_homeWrite (s : State) (b : Option Nat) (ws : List (Nat × Byte)) (w : Memory.wf s.mem = true) : Memory.wf (homeWrite s b ws).mem = true :=
  wf_memPutAll _ _ w

theorem wf_homeWriteN (s : State) (k n v : Nat) (w : Memory.wf s.mem = true) : Memory.wf (homeWriteN s k n v).mem = true := wf_homeWrite _ _ _ w

/-- A write at homes leaves every byte that it does not name. -/
theorem homeWrite_other (s : State) (b : Option Nat) (ws : List (Nat × Byte)) (j : Nat) (h : ∀ w ∈ ws, place s w.1 ≠ j) :
    memByte (homeWrite s b ws).mem j = memByte s.mem j := by
  refine memByte_memPutAll_of_notMem _ _ _ fun w hw => ?_
  obtain ⟨x, hx, rfl⟩ := List.mem_map.1 hw
  exact h x hx

/-- A write of the device's own keeps the canonical form, and changes no crew. -/
theorem devWrite_spec {s t : State} {ctx va : Nat} {bs : List Byte} (h : devWrite s ctx va bs = some t) :
    (Memory.wf s.mem = true → Memory.wf t.mem = true) ∧ t.crews = s.crews := by
  unfold devWrite at h
  obtain ⟨ks, _, h⟩ := Option.bind_eq_some_iff.1 h
  split at h
  · cases h
  · cases h; exact ⟨wf_homeWrite _ _ _, rfl⟩

theorem devPut_spec (s : State) (ctx va len v : Nat) :
    (Memory.wf s.mem = true → Memory.wf (devPut s ctx va len v).mem = true) ∧ (devPut s ctx va len v).crews = s.crews := by
  unfold devPut
  cases h : devWrite s ctx va ((byteList 0 v len).map (·.2)) with
  | none => exact ⟨id, rfl⟩
  | some t => exact devWrite_spec h

end Sys2Proof.Machine
end

