-- ==== Sys2Proof/Tests/Slice0.lean ====
section
/-! SUPPORT. Tests: words of the chapters decoded, terms that are not well-formed, single steps whose results the chapters give, and for each statement states and operands that meet its hypotheses. -/

namespace Sys2Proof.Tests

open Machine

set_option Elab.async false

/-! ### Small states -/

def g7 : Guard := { p := 7, neg := false }

/-- Operands of an instruction; a field not named is 0xFF or zero. -/
def ar (m : BitVec 8 := 0) (d : Opnd := .none) (a : Opnd := .none) (b : Opnd := .none) (c : Opnd := .none) (x : BitVec 11 := 0) (imm : Option (BitVec 27) := none) : Args :=
  { guard := g7, m := m, d := d, a := a, b := b, c := c, x := x, imm := imm }

/-- Page tables at 1 MiB that map the first 2 MiB onto themselves. -/
def tables : List Host.Cell :=
  memWrite (memWrite (memWrite (memWrite [] 0x100000 8 0x101001) 0x101000 8 0x102001) 0x102000 8 0x103001) 0x103000 8 0x383

def ctx0 : Context := { placeContext with xltRoot := 0x100000, loaded := true }

def thr (i : Nat) (v : SMap Word := []) : Thread := { tid := i, pc := 0x1000, bound := some 0, v := v }

/-- A crew of two threads on core 0 of die 0. -/
def cr (v : SMap Word := []) : Crew :=
  { uid := 5, kind := .seed, run := some 3, gw := 32, regs := 64, regsCopy := 64, regsEpi := 64, scratch := 4096, tiles := 4, threads := [thr 0 v, thr 1] }

def run3 : Run := { placeRun with id := 3, launch := { placeRun.launch with poolN := 4, pool := 0x20000 } }

def is0 : Issue := { crew := 5, pc := 0x1000, tids := [0, 1] }
def is1 : Issue := { crew := 5, pc := 0x1000, tids := [0] }

/-- A machine with that crew, a context and a run; the crew has `v` in the registers of its first thread. -/
def st (v : SMap Word := []) (is : Issue := is0) : State :=
  { State.reset with
    mem := tables, contexts := [ctx0], runs := [run3], crews := [cr v], issue := some is, nextId := 50
    tlb := [{ ctx := 0, die := 0, core := some 0, va := 0, log2 := 21, leaf := placeLeaf }] }

theorem issues (v : SMap Word) (is : Issue) (h : is.crew = 5) : Issues (st v is) is (cr v) := ⟨rfl, by rw [h]; rfl⟩

/-! ### Decoding: words that the chapters print, and words laid out from their encodings -/

def dec (w : Nat) : Option Instr := decodeTableWord 64 w

theorem test_decode_nop : dec 0x380007FFFFFFF800 = some (.nop (ar)) := by decide +kernel
theorem test_decode_exit : dec 0x383807FFFFFFF800 = some (.exit (ar)) := by decide +kernel
theorem test_decode_iadd_imm : dec 0x788000181FFFFFFB = some (.iadd (ar (d := .v 3) (a := .v 3) (imm := some (-5)))) := by decide +kernel
theorem test_decode_iadd_packed : dec 0x3880D0303847F800 = some (.iadd (ar (m := 0x1A) (d := .v 6) (a := .v 7) (b := .v 8))) := by decide +kernel
theorem test_decode_cvt : dec 0x3A05080817FFF800 = some (.cvt (ar (m := 0xA1) (d := .v 1) (a := .v 2))) := by decide +kernel
theorem test_decode_bar : dec 0x784007FFF8000003 = some (.barSync (ar (imm := some 3))) := by decide +kernel
theorem test_decode_ld : dec 0x3A42004027FFF810 = some (.ld (ar (m := 0x40) (d := .v 8) (a := .v 4) (x := 16))) := by decide +kernel
theorem test_decode_atom : dec 0x3AC07018202FF800 = some (.atom (ar (m := 0x0E) (d := .v 3) (a := .v 4) (b := .v 5))) := by decide +kernel
theorem test_decode_pfill_fail : dec 0x3A8907F82FFFF800 = some (.pfillFail (ar (m := 0x20) (a := .v 5))) := by decide +kernel
theorem test_decode_wait : dec 0x7AE007FFF81FFFFF = some (.wait (ar (imm := some 0x1FFFFF))) := by decide +kernel
theorem test_decode_tmm : dec 0x3B08006850586000 = some (.tmm (ar (d := .v 13) (a := .v 10) (b := .v 11) (c := .v 12))) := by decide +kernel
theorem test_decode_cpy : dec 0x3B60003010204800 = some (.cpy (ar (d := .v 6) (a := .v 2) (b := .v 4) (c := .v 9))) := by decide +kernel
theorem test_decode_smp : dec 0x3BCA00204617F800 = some (.smpBilin (ar (m := 0x40) (d := .v 4) (a := .v 8) (b := .s 2))) := by decide +kernel
theorem test_decode_trap_brk : dec 0x786207FFF8000000 = some (.trapBrk (ar (m := 0x40) (imm := some 0))) := by decide +kernel
theorem test_decode_sget : dec 0x78680037F8000010 = some (.sget (ar (d := .v 6) (imm := some 0x10))) := by decide +kernel
theorem test_decode_br : dec 0x780807FFF8000002 = some (.br (ar (imm := some 2))) := by decide +kernel
theorem test_decode_hitrep : dec 0x3BB007FFFFFFF800 = some (.hitrepAccept (ar)) := by decide +kernel
theorem test_decode_reserved_opcode : dec 0x392007FFFFFFF800 = none := by decide +kernel

/-! ### Terms that are not well-formed, one for each check of R66, R63 and R44 -/

theorem test_wf_add : (Instr.iadd (ar (d := .v 3) (a := .v 1) (b := .v 2))).wf = true := by decide +kernel
theorem test_wf_refuses_modifier : (Instr.iadd (ar (m := 0x20) (d := .v 3) (a := .v 1) (b := .v 2))).wf = false := by decide +kernel
theorem test_wf_refuses_kind : (Instr.icmp (ar (d := .v 8) (a := .v 1) (b := .v 2))).wf = false := by decide +kernel
theorem test_wf_refuses_group : (Instr.ld (ar (m := 0x60) (d := .v 9) (a := .v 4))).wf = false := by decide +kernel
theorem test_wf_refuses_field : (Instr.nop (ar (d := .v 0))).wf = false := by decide +kernel
theorem test_wf_refuses_iform : (Instr.br (ar)).wf = false := by decide +kernel
theorem test_wf_refuses_imm : (Instr.trapBrk (ar (m := 0x40) (imm := some 0x10000))).wf = false := by decide +kernel
theorem test_wf_refuses_never : (Instr.nop { ar with guard := { p := 7, neg := true } }).wf = false := by decide +kernel
theorem test_wf_refuses_uniform : (Instr.iadd (ar (d := .s 0) (a := .v 1) (b := .v 2))).wf = false := by decide +kernel
theorem test_wf_refuses_field_no_word_holds : (Instr.iadd (ar (d := .v 3) (a := .v 1) (b := .v 2) (imm := some 1))).wf = false := by decide +kernel
theorem test_wf_refuses_other_sub_op : (Instr.barArrive (ar (imm := some 3))).wf = false := by decide +kernel
theorem test_wf_refuses_half_op : (Instr.pairedWord false { op := 0x40, d := .v 0, s := .v 1, k := 0 } { op := 0, d := .none, s := .none, k := 0 }).wf = false := by decide +kernel
theorem test_wf_refuses_bank : (Instr.pairedWord false { op := 1, d := .v 0, s := .v 1, k := 0 } { op := 1, d := .v 4, s := .v 2, k := 0 }).wf = false := by decide +kernel
theorem test_wf_refuses_crossing : (Instr.pairedWord false { op := 1, d := .v 0, s := .v 2, k := 0 } { op := 1, d := .v 1, s := .v 0, k := 0 }).wf = false := by decide +kernel
theorem test_wf_refuses_third_read : (Instr.pairedWord false { op := 1, d := .v 0, s := .v 4, k := 0 } { op := 1, d := .v 1, s := .v 8, k := 0 }).wf = false := by decide +kernel

/-- Why the decoder refuses words, by the sub-codes of R66 and the rules of R63. -/
def bad (i : Instr) : Option Bad := match decodeWord {} (encode i) with
  | .inl e => some e
  | .inr _ => none

theorem test_ill_opcode : decodeWord {} 0x392007FFFFFFF800 = .inl (.ill 0x01) := by decide +kernel
theorem test_ill_operand : decodeWord {} 0x3880001fd017f800 = .inl (.ill 0x04) := by decide +kernel
theorem test_ill_half_op : bad (.pairedWord false { op := 0x40, d := .v 0, s := .v 1, k := 0 } { op := 0, d := .none, s := .none, k := 0 }) = some (.ill 0x02) := by decide +kernel
theorem test_ill_modifier : bad (.iadd (ar (m := 0x20) (d := .v 3) (a := .v 1) (b := .v 2))) = some (.ill 0x03) := by decide +kernel
theorem test_ill_kind : bad (.icmp (ar (d := .v 8) (a := .v 1) (b := .v 2))) = some (.ill 0x05) := by decide +kernel
theorem test_ill_group : bad (.ld (ar (m := 0x60) (d := .v 9) (a := .v 4))) = some (.ill 0x06) := by decide +kernel
theorem test_ill_field : bad (.nop (ar (d := .v 0))) = some (.ill 0x08) := by decide +kernel
theorem test_ill_iform : bad (.br (ar)) = some (.ill 0x09) := by decide +kernel
theorem test_ill_imm : bad (.trapBrk (ar (m := 0x40) (imm := some 0x10000))) = some (.ill 0x0A) := by decide +kernel
theorem test_ill_never : bad (.nop { ar with guard := { p := 7, neg := true } }) = some (.ill 0x0B) := by decide +kernel
theorem test_ill_uniform : bad (.iadd (ar (d := .s 0) (a := .v 1) (b := .v 2))) = some (.ill 0x0C) := by decide +kernel
theorem test_pairbank_1 : bad (.pairedWord false { op := 1, d := .v 0, s := .v 1, k := 0 } { op := 1, d := .v 4, s := .v 2, k := 0 }) = some (.pairbank 1) := by decide +kernel
theorem test_pairbank_2 : bad (.pairedWord false { op := 1, d := .v 0, s := .v 2, k := 0 } { op := 1, d := .v 1, s := .v 0, k := 0 }) = some (.pairbank 2) := by decide +kernel
theorem test_pairbank_3 : bad (.pairedWord false { op := 1, d := .v 0, s := .v 4, k := 0 } { op := 1, d := .v 1, s := .v 8, k := 0 }) = some (.pairbank 3) := by decide +kernel
theorem test_regrange : decodeWord { v := 8 } (encode (.iadd (ar (d := .v 8) (a := .v 1) (b := .v 2)))) = .inl (.ill 0x07) ∧
    (decodeWord { v := 8 } (encode (.iadd (ar (d := .v 7) (a := .v 1) (b := .v 2))))).isRight = true := by decide +kernel

/-! ### Single steps with results that the chapters give -/

def after (i : Instr) (s : State) : State := match exec i s with
  | .next t => t
  | _ => State.reset

/-- A register of the first thread after an instruction that it alone executes. -/
def result (i : Instr) (v : SMap Word) (k : Nat) : Word := mget 0 (((getThread (after i (st v is1)) 5 0).map (·.v)).getD []) k

/-- A predicate of that thread. -/
def truth (i : Instr) (v : SMap Word) (k : Nat) : Bool := ((getThread (after i (st v is1)) 5 0).map (rp · k)).getD false

theorem test_iadd_sat_packed : result (.iadd (ar (m := 0x1A) (d := .v 6) (a := .v 7) (b := .v 8))) [(7, 0x7FF08000), (8, 0x0020FFFF)] 6 = 0x7FFF8000 := by decide +kernel
theorem test_imul_hi_signed : result (.imul (ar (m := 0x30) (d := .v 3) (a := .v 1) (b := .v 2))) [(1, 0xFFFFFFFE), (2, 3)] 3 = 0xFFFFFFFF := by decide +kernel
theorem test_imul_hi : result (.imul (ar (m := 0x20) (d := .v 3) (a := .v 1) (b := .v 2))) [(1, 0xFFFFFFFE), (2, 3)] 3 = 2 := by decide +kernel
theorem test_icmp_lt : truth (.icmp (ar (m := 0x40) (d := .v 3) (a := .v 1) (b := .v 2))) [(1, 0xFFFFFFFF), (2, 1)] 3 = false := by decide +kernel
theorem test_icmp_lt_signed : truth (.icmp (ar (m := 0x50) (d := .v 3) (a := .v 1) (b := .v 2))) [(1, 0xFFFFFFFF), (2, 1)] 3 = true := by decide +kernel
theorem test_perm_reverses : result (.perm (ar (d := .v 3) (a := .v 1) (b := .v 2) (c := .v 4))) [(1, 0x11223344), (4, 0x0123)] 3 = 0x44332211 := by decide +kernel
theorem test_ffma_fused : result (.ffma (ar (d := .v 3) (a := .v 1) (b := .v 2) (c := .v 4))) [(1, 0x3F800001), (2, 0x3F7FFFFE), (4, 0xBF800000)] 3 = 0xA8800000 := by decide +kernel
theorem test_frcp_of_least : result (.frcp (ar (d := .v 3) (a := .v 1))) [(1, 1)] 3 = 0x7F800000 := by decide +kernel

/-- The nop of R118 runs first after reset from its printed word, and moves the PC by 8. -/
def afterWord (w : Nat) : Option State := match step (State.reset.withFetchWord 64 w) with
  | .next s => some s
  | _ => none

theorem test_nop_runs : ((afterWord 0x380007FFFFFFF800).bind fun s => getThread s 0 0).map (·.pc) = some 0x10008 := by decide +kernel

/-- `trap.brk` takes BRK, code 0x12, at its word (R351, R379). -/
theorem test_brk_halts : ((getCrew (after (.trapBrk (ar (m := 0x40) (imm := some 0))) (st [] is1)) 5).bind (·.halt)).map (fun h => (h.trap.code, h.pc)) = some (0x12, 0x1000) := by decide +kernel

/-- `br` goes to PC + 8 × imm27 (R117). -/
theorem test_br : (getThread (after (.br (ar (imm := some 2))) (st [] is1)) 5 0).map (·.pc) = some 0x1010 := by decide +kernel
theorem test_br_back : (getThread (after (.br (ar (imm := some (-1)))) (st [] is1)) 5 0).map (·.pc) = some 0xFF8 := by decide +kernel

/-! ### States and operands that meet the hypotheses of the statements: encoding, steps, registers and numbers -/

theorem witness_DecodeOfEncode : (Instr.iadd (ar (d := .v 3) (a := .v 1) (b := .v 2))).isEvent = false ∧ (Instr.iadd (ar (d := .v 3) (a := .v 1) (b := .v 2))).wf = true := by decide +kernel

theorem witness_WordsHaveOneMeaning : (0x3880001FD017F800 < 2 ^ 64 ∧ decodeWord {} 0x380007FFFFFFF800 = .inr (.nop (ar))) ∧
    bitAt 0x392007FFFFFFF800 63 = false ∧ opOf (bitsOf 0x392007FFFFFFF800 57 51) = none := by decide +kernel

/-- The machine with `nop` placed, and what its one step issues. -/
def placed : State := State.reset.withFetchWord 64 0x380007FFFFFFF800
def chosen : State := gather (pass 1 { placed with agenda := [], issue := none }) 0
def chosenIssue : Issue := { crew := 0, pc := 0x10000, tids := [0] }
def chosenCrew : Crew := (getCrew chosen 0).getD placeCrew
def placedEntry : TlbEntry := { ctx := 0, die := 0, core := some 0, va := 0, log2 := 21, leaf := placeLeaf }

theorem witness_StepRunsDecodedWord : placed.agenda = [{ cycles := 1, core := 0 }] ∧ placed.hw.powered = true ∧ Issues chosen chosenIssue chosenCrew ∧
    preTrap chosen chosenCrew chosenIssue = none ∧ chosenIssue.pc.toNat < 2 ^ 56 ∧ heldLeaf chosen chosenCrew.ctx chosenCrew.die chosenCrew.coreId 0x10000 = some placedEntry ∧
    placeLeaf.exec = true ∧ leafEgressOk chosen placeLeaf 0x10000 = true ∧ placeLeaf.proc = false ∧ sliceWait chosen [(placedEntry.key 0x10000, 8)] = none ∧ readWaits chosen [(placedEntry.key 0x10000, 8)] = false ∧ poisonedAt chosen (placedEntry.key 0x10000) = false ∧
    decodeWord { v := leastOr 192 (chosenIssue.tids.map fun i => chosenCrew.budget (chosenCrew.hgang i)), tiles := chosenCrew.tiles } (homeRead chosen (placedEntry.key 0x10000) 8) = .inr (.nop (ar)) := by
  refine ⟨?_, ?_, ⟨?_, ?_⟩, Option.isNone_iff_eq_none.1 ?_, ?_⟩ <;> and_intros <;> decide +kernel

theorem witness_StepRunsScheduledEvent : let s : State := { State.reset with agenda := [{ cycles := 3, ev := some .walkerPass }] }
    s.agenda = [{ cycles := 3, ev := some .walkerPass }] ∧ s.hw.powered = true ∧ { s with hw := { s.hw with powered := false } }.hw.powered = false := by decide +kernel

theorem witness_StepKeepsMemoryCanonical : Canonical placed ∧ ∃ t, Steps placed t := by
  refine ⟨by unfold Canonical; decide +kernel, ?_⟩
  have h : (afterWord 0x380007FFFFFFF800).isSome = true := by decide +kernel
  unfold Steps
  change (match step placed with | .next s => some s | _ => none).isSome = true at h
  split at h
  · exact ⟨_, by assumption⟩
  · cases h

theorem witness_WritesReadBack : (cr [(3, 7)]).thread (thr 0 [(3, 7)]).tid = some (thr 0 [(3, 7)]) := by decide +kernel

theorem witness_RegisterInstructionFrame : Issues (st) is0 (cr) ∧ Distinct (cr) := ⟨issues _ _ rfl, by unfold Distinct; decide +kernel⟩

theorem witness_NopMovesOn : Issues (st) is0 (cr) ∧ 0x380007FFFFFFF800 < 2 ^ 64 ∧ decodeWord {} 0x380007FFFFFFF800 = .inr (.nop (ar)) := ⟨issues _ _ rfl, by decide +kernel⟩

theorem witness_AddAndSubtract : Issues (st [(1, 0xFFFFFFFF), (2, 1)]) is0 (cr [(1, 0xFFFFFFFF), (2, 1)]) ∧ (intMods (ar (d := .v 3) (a := .v 1) (b := .v 2)).m.toNat).sat = false :=
  ⟨issues _ _ rfl, by decide +kernel⟩

/-- M fields of the sub-ops 0 to 4 at `.w32`, and of `.w64`. -/
theorem witness_IntegerArithmetic : Issues (st) is0 (cr) ∧ (intMods (ar (m := 0x00)).m.toNat).sub = 0 ∧ (intMods (ar (m := 0x20)).m.toNat).sub = 1 ∧ (intMods (ar (m := 0x40)).m.toNat).sub = 2 :=
  ⟨issues _ _ rfl, by decide +kernel⟩

theorem witness_LogicShiftAndBitFields : Issues (st) is0 (cr) ∧ (intMods 0x00).sub = 0 ∧ (intMods 0x00).sat = false ∧ (intMods 0x02).sat = true ∧ (intMods 0x20).sub = 1 ∧ (intMods 0x40).sub = 2 ∧ 2 < (intMods 0x60).sub ∧
    (intMods 0x20).n = 1 := ⟨issues _ _ rfl, by decide +kernel⟩

theorem witness_PredicatesMovesAndAddresses : Issues (st) is0 (cr) ∧ (intMods 0x00).n = 1 ∧ (intMods 0x08).n ≠ 1 ∧ 1 < (intMods 0x40).sub ∧ (intMods 0x40).regs = 1 ∧ 1 < (intMods 0x44).sub ∧ (intMods 0x44).regs = 2 ∧
    (ar).imm = none ∧ (ar (imm := some 1)).imm.isSome = true := ⟨issues _ _ rfl, by decide +kernel⟩

theorem witness_FloatRoundedOnce : Issues (st [(1, 0x3F800000), (2, 0x7F800000)]) is0 (cr [(1, 0x3F800000), (2, 0x7F800000)]) := issues _ _ rfl

theorem witness_FloatTestsAndApproximations : Issues (st [(1, 0x7FC00000)]) is0 (cr [(1, 0x7FC00000)]) ∧ (1 : Nat) ≠ 0 := ⟨issues _ _ rfl, by decide⟩

theorem witness_ConversionsAndFormats : Issues (st) is0 (cr) ∧ bitAt 0x04 2 = true ∧ bitAt 0x00 2 = false := ⟨issues _ _ rfl, by decide⟩

theorem witness_PairedWordRunsBothHalves : Issues (st) is0 (cr) ∧ ∀ n < 64, (BitVec.ofNat 7 n).toNat < 64 := ⟨issues _ _ rfl, by decide +kernel⟩

/-! ### Control -/

theorem witness_ControlTransfers : Issues (st [(2, 0x2000)]) is0 (cr [(2, 0x2000)]) ∧ (∀ t ∈ active (cr [(2, 0x2000)]) is0 g7, (BitVec.ofNat 64 (rd (cr [(2, 0x2000)]) t (.v 2) 2)).toNat % 8 = 0) ∧
    ∃ t ∈ active (cr [(2, 0x2004)]) is0 g7, (BitVec.ofNat 64 (rd (cr [(2, 0x2004)]) t (.v 2) 2)).toNat % 8 ≠ 0 := ⟨issues _ _ rfl, by and_intros <;> decide +kernel⟩

theorem witness_LanesMeet : Issues (st) is0 (cr) ∧ (active (cr) is0 g7).length = 2 := ⟨issues _ _ rfl, by decide +kernel⟩

/-- A crew one arrival short of completing barrier 3, and one whose first arrival it is. -/
theorem witness_CrewBarriers : Issues (st) is0 (cr) ∧ NoStoresOut (st) is0 (cr) g7 ∧ active (cr) is0 g7 ≠ [] ∧ Distinct (cr) ∧ (cr).thread 0 = some (thr 0) ∧
    mget 0 (thr 0).arrivals 3 ≠ (barrierOf (cr) 3).phase + 1 ∧ barrierDone (cr) { barrierOf (cr) 3 with arrived := [0], mode := some 0 } = false ∧
    barrierDone (cr) { barrierOf (cr) 3 with arrived := [0], mode := some 1 } = true ∧ mget 0 { thr 0 with arrivals := [(3, 1)] }.arrivals 3 = (barrierOf (cr) 3).phase + 1 :=
  ⟨issues _ _ rfl, by unfold NoStoresOut; decide +kernel, by decide +kernel, by unfold Distinct; decide +kernel, by and_intros <;> decide +kernel⟩

/-- A store of the first thread that its home has not acknowledged. -/
def store7 : PendingStore := { id := 7, crew := 5, tid := 0, region := .thread 5 0 0, bytes := [(0x8000, 1)], strong := true }
/-- A copy of that thread in flight. -/
def copy8 : FlumeReq := { id := 8, crew := 5, tid := 0, die := 0, core := 0, pc := 0x1000, gather := false, dst := 0x9000, src := 0xA000, len := 16, arw := none }
def copying : State := { st with flume := [copy8] }
def busy : State := { st with stores := [store7] }
/-- A store of it to its crew's scratchpad, which the core's own bank has not accepted. -/
def bankStore : PendingStore := { store7 with bytes := [(scrKey 5 0, 1)] }
def busyBank : State := { st with stores := [bankStore] }

theorem witness_ReleasesAndFences : Issues busyBank is0 (cr) ∧ ((active (cr) is0 g7).map (·.tid)).filter (owesStores busyBank 0 5) = [0] ∧ ((active (cr) is0 g7).map (·.tid)).filter (owesStores busy 3 5) = [0] ∧
    bitAt 0x08 3 = true ∧ (atomMods (ar (m := 0x08))).scope = 0 ∧ bankStore ∈ busyBank.stores ∧ bankStore.performed = false ∧ (∃ w ∈ bankStore.bytes, keyCore busyBank w.1 = some bankStore.core) ∧
    bitAt 0x0D 2 = true ∧ (atomMods (ar (m := 0x0D))).scope ≠ 0 ∧ active (cr) is0 { p := 7, neg := true } = [] ∧
    NoStoresOut (st) is0 (cr) g7 ∧ bitsOf 0x00 7 5 = 0 ∧ bitsOf 0x20 7 5 ≠ 0 ∧ (∀ t ∈ active (cr) is0 g7, pathBusy (st) 5 t.tid 1 = false) ∧
    (∃ t ∈ active (cr) is0 g7, pathBusy copying 5 t.tid 1 = true) :=
  ⟨⟨rfl, rfl⟩, by and_intros <;> decide +kernel⟩

/-- What the sampler may still see of the first line of HBM, and an L1 copy of another line. -/
def pastSt : State := { st with lines := [{ kind := .past 3, ctx := (cr).ctx, sector := 0, bytes := [] }, { kind := .l1 9, ctx := (cr).ctx, sector := 8, bytes := [] }] }

theorem witness_ReleasesAndFences_sampler : Issues pastSt is0 (cr) ∧ (ar (m := 0x0E)).imm = none ∧ 2 ≤ bitsOf (ar (m := 0x0E)).m.toNat 1 0 ∧ bitsOf (ar (m := 0x0E)).m.toNat 4 2 = 3 ∧
    (∃ l ∈ (dropPath pastSt (cr) 3 2 (fenceStacks (ar (m := 0x0E)) (cr).die 2)).lines, l.ctx = (cr).ctx) ∧ bitsOf (ar (m := 0x12)).m.toNat 4 2 = 4 :=
  ⟨⟨rfl, rfl⟩, by and_intros <;> decide +kernel⟩

/-- R304: a store of a program leaves what the sampler and the ray pipes may see as it was. -/
theorem test_store_leaves_past : ((performStore st { store7 with bytes := [(0x8000, 1)] }).lines.map fun l => (l.kind, l.sector, l.bytes.headD 9)) =
    [(.past 3, 0x800, 0), (.past 4, 0x800, 0)] := by decide +kernel

/-- With a channel of stack 0 fenced, none of its atoms on the spare yet: reads there wait. -/
def fenced (ch : Nat) (s : State) : State := { s with hw := { s.hw with channels := [(ch, { phase := .fenced })] } }

theorem witness_ExitAndRetire : Issues (st) is0 (cr) ∧ (cr).run.bind (getRun (st)) = some run3 ∧ retireHeld (st) run3 none = false ∧ NoStoresOut (st) is0 (cr) g7 ∧ active (cr) is0 g7 ≠ [] ∧ mayRetire (cr) = false ∧
    mayRetire { cr with threads := [{ thr 0 with live := false }] } = true :=
  ⟨issues _ _ rfl, by decide +kernel, by decide +kernel, by unfold NoStoresOut; decide +kernel, by and_intros <;> decide +kernel⟩

theorem witness_TrapsHalt : Issues (st) is0 (cr) ∧ active (cr) is0 g7 ≠ [] ∧ active (cr) is0 { p := 7, neg := true } = [] ∧ (cr).halt = none ∧ stopping (st) (cr) = false ∧
    ({ cr with halt := some { phase := .skid, trap := { code := 1 }, pc := 0, since := 0 } } : Crew).halt ≠ none :=
  ⟨issues _ _ rfl, by and_intros <;> decide +kernel⟩

/-! ### System -/

/-- A context whose system-call ring has one entry, free. -/
def ctxSvc : Context := { ctx0 with svcRing := 0x8000, svcSlots := 1 }
def svcSt : State := { st with contexts := [ctxSvc] }
def call9 : SvcCall := { id := 9, ctx := 0, idx := 0, crew := 5, tids := [0], dst := some (4, false) }
/-- An answer that comes while the crew is away and its context's reply log is full. -/
def logFilled : State := { svcSt with replies := List.replicate 4096 { ctx := 0, kind := 10, crew := 5, seq := 0 } }
def calling : State := { svcSt with mem := memWrite tables (hbmKey 0x8003) 1 2, svc := [call9], crews := [{ cr with threads := [{ thr 0 with hold := .svc (some 9) }, thr 1] }] }

theorem witness_SystemCalls : Issues svcSt is0 (cr) ∧ svcHeld svcSt ctxSvc = false ∧ svcBlocked (devPut calling 0 (svcVa ctxSvc 0 + 3) 1 2) call9 = false ∧ svcBlocked (devPut (fenced 0 calling) 0 (svcVa ctxSvc 0 + 3) 1 2) call9 = true ∧ NoStoresOut svcSt is0 (cr) g7 ∧ active (cr) is0 g7 ≠ [] ∧ getCtx svcSt 0 = some ctxSvc ∧ ctxSvc.svcRing ≠ 0 ∧ freeSvc svcSt ctxSvc = some 0 ∧
    freeSvc { svcSt with mem := memWrite tables (hbmKey 0x8003) 1 1 } ctxSvc = none ∧ ctx0.svcRing = 0 ∧
    calling.svc.find? (·.id == 9) = some call9 ∧ call9.answered = false ∧ (getCrew calling 5).any (fun c => !logBlocked calling c && c.where_ == .resident && (c.threads.map (·.tid) == [0, 1]) &&
      (c.thread 0).any fun t => t.live && t.hold == .svc (some 9)) = true ∧ logBlocked logFilled { cr with where_ := .away } = true ∧ (0 : Nat) ∈ call9.tids ∧ call9.tids = [] ++ [0] ∧
    devNum calling 0 (svcVa ctxSvc 0 + 3) 1 = some 2 ∧ devNum { calling with mem := memWrite tables (hbmKey 0x8003) 1 3 } 0 (svcVa ctxSvc 0 + 3) 1 = some 3 :=
  ⟨⟨rfl, rfl⟩, by decide +kernel, by decide +kernel, by decide +kernel, by unfold NoStoresOut; decide +kernel, by and_intros <;> decide +kernel⟩

theorem witness_SpecialRegisters : Issues (st) is0 (cr) ∧ getCtx (st) 0 = some ctx0 ∧ active (cr) is0 g7 = [thr 0, thr 1] ∧ (cr).priv = false ∧ ({ cr with priv := true } : Crew).priv = true ∧
    bitsOf (Args.immN (ar (imm := some 0x30))) 11 0 = 0x030 ∧ bitsOf (Args.immN (ar (imm := some 0x11))) 11 0 = 0x011 := ⟨issues _ _ rfl, by decide +kernel⟩

/-- A crew whose timer is due. -/
def timed : State := { st with crews := [{ cr with timer := some { wall := false, deadline := 0 } }] }

theorem witness_CountersAndTimers : Issues (st) is0 (cr) ∧ active (cr) is0 g7 = [thr 0, thr 1] ∧
    (getCrew timed 5).any (fun c => c.where_ == .resident && timerOf timed c == some ({ wall := false, deadline := 0 }, false) && !switching timed c
      && ((coreGroups timed c.coreId).find? fun g => g.crew == c.uid).isSome) = true := ⟨issues _ _ rfl, by decide +kernel⟩

/-! ### Memory -/

def clearB (s : State) (c : Crew) (n : Need) (ls : List LaneAcc) : Bool :=
  (ls.all fun l => !alignBad n l && (steerBad l).isNone && (permBad s c n l).isNone && (laneStay s c n l).isNone) && (aliasHit s c n ls).isNone

theorem clear_of {s : State} {c : Crew} {n : Need} {ls : List LaneAcc} (h : clearB s c n ls = true) : PathClear s c n ls := by
  simp only [clearB, Bool.and_eq_true, List.all_eq_true, Bool.not_eq_true', Option.isNone_iff_eq_none] at h
  exact ⟨fun l hl => ⟨(h.1 l hl).1.1.1, (h.1 l hl).1.1.2, (h.1 l hl).1.2, (h.1 l hl).2⟩, h.2⟩

/-- Registers of a thread: an address in 2 and 3, a record of 8 by 8 elements in 4 to 7, the same address at 8 and 9. -/
def vmem : SMap Word := [(2, 0x8000), (4, 0x8000), (6, 0x00080008), (7, 8), (8, 0x8000)]
def atV2 (m : BitVec 8) : Args := ar (m := m) (d := .v 10) (a := .v 2)
def lanesOf (a : Args) : List LaneAcc := moLanes (envOf (st vmem is1) is1 (cr vmem) g7) a (memWidth a)
def one : State := st vmem is1
def load7 : PendingLoad := { id := 7, crew := 5, tid := 0, vdst := [(10, 9)], sdst := [] }

theorem no_tags (s : State) (h : s.tags = []) : NoWriteTags s := by
  intro k sl hk
  rw [h] at hk
  exact nomatch (show sl ∈ ([] : List TagSlot) from hk)

def recArgs : Args := ar (m := 0x40) (d := .v 10) (a := .v 4) (imm := some 0x10001)

theorem witness_LoadsAndStores_issue : Issues one is1 (cr vmem) ∧ NoWriteTags one ∧ (memStrong (atV2 0x50) = true ∧ memStrong (atV2 0x40) = false ∧ one.tags = [] ∧ (active (cr vmem) is1 g7).length = 1) ∧
    PathClear one (cr vmem) { w := memWidth (atV2 0x50), load := true, strong := true } (lanesOf (atV2 0x50)) ∧ PathClear one (cr vmem) { w := memWidth (atV2 0x40), store := true } (lanesOf (atV2 0x40)) :=
  ⟨issues _ _ rfl, no_tags _ rfl, by decide +kernel, clear_of (by decide +kernel), clear_of (by decide +kernel)⟩

theorem witness_LoadsAndStores_records : RecordsFit one is1 (cr vmem) recArgs ∧ PathClear one (cr vmem) { w := memWidth recArgs, load := true } (recordLanes one is1 (cr vmem) recArgs) ∧
    PathClear one (cr vmem) { w := memWidth recArgs, store := true } (recordLanes one is1 (cr vmem) recArgs) :=
  ⟨by unfold RecordsFit; decide +kernel, clear_of (by decide +kernel), clear_of (by decide +kernel)⟩

theorem witness_LoadsAndStores_completion : { one with loads := [load7] }.loads.find? (·.id == 7) = some load7 ∧ load7.atoms.any (channelWaits { one with loads := [load7] } 7) = false ∧ load7.poison = none ∧
    (cr vmem).thread 0 = some (thr 0 vmem) ∧ busy.stores.find? (·.id == 7) = some store7 ∧ store7.wait = .free ∧ storeBlocked busy store7 = false := by decide +kernel

/-- Addresses that fail each check: misaligned, past an aperture, not canonical, in a page without permissions, in a node's region. -/
def atAddr (lo hi : Word) : SMap Word := [(2, lo), (3, hi)]
def lanesAt (s : State) (v : SMap Word) : List LaneAcc := moLanes (envOf s is1 (cr v) g7) (atV2 0x40) 4
def ld4 : Need := { w := 4, load := true }
def st4 : Need := { w := 4, store := true }
def sealed : State := { one with tlb := [{ ctx := 0, die := 0, core := some 0, va := 0, log2 := 21, leaf := { placeLeaf with read := false, write := false } }] }
theorem witness_AccessChecksInOrder : (∃ l ∈ lanesAt one (atAddr 0x8002 0), alignBad ld4 l = true) ∧
    ((∀ l ∈ lanesAt one (atAddr 0 0x01000000), alignBad ld4 l = false) ∧ ∃ l ∈ lanesAt one (atAddr 0 0x01000000), steerBad l ≠ none) ∧
    ((∀ l ∈ lanesAt sealed (atAddr 0x8000 0), alignBad ld4 l = false ∧ steerBad l = none) ∧ ∃ l ∈ lanesAt sealed (atAddr 0x8000 0), permBad sealed (cr (atAddr 0x8000 0)) ld4 l ≠ none) := by decide +kernel

/-- A source node whose 8 by 8 region at 0x8000 is watched. -/
def rec8 : Rec := { base := 0x8000, hint := 0, cols := 8, rows := 8, pitch := 8, fmt := 0, scale := false, ro := false, watch := true }
def src0 : Node := { core := 0, slot := 0, seq := 0, crew := 5, kind := .src, rows := 8, cols := 8, rec_ := some rec8, origin := 0x1000, watching := true }
def watched : State := { one with nodes := [src0] }

theorem witness_AccessChecksInOrder_alias : (∀ l ∈ lanesAt watched (atAddr 0x8000 0), alignBad st4 l = false ∧ steerBad l = none ∧ permBad watched (cr (atAddr 0x8000 0)) st4 l = none) ∧
    aliasHit watched (cr (atAddr 0x8000 0)) st4 (lanesAt watched (atAddr 0x8000 0)) ≠ none := by decide +kernel

theorem witness_HintsAndPlacement_pref : active (cr vmem) is1 g7 = [thr 0 vmem] ∧ bitsOf (atV2 0).m.toNat 7 5 = 0 ∧ bitsOf (atV2 0).m.toNat 3 2 ≠ 3 ∧ (effAddr (cr vmem) (thr 0 vmem) (atV2 0)).toNat = 0x8000 ∧
    inAperture one 0 0x8000 = false ∧ heldLeaf one 0 0 0 0x8000 = some placedEntry ∧ placeLeaf.read = true ∧ leafEgressOk one placeLeaf 0x8000 = true ∧ placeLeaf.busy = false ∧ placeLeaf.compressed = false ∧
    readWaits one [(placedEntry.key 0x8000 / 64 * 64, 64)] = false ∧ sliceWait one [(placedEntry.key 0x8000, 1)] = none := by decide +kernel

def rangeArgs : Args := ar (a := .v 2) (imm := some 64)

theorem witness_HintsAndPlacement_ranges : Issues one is1 (cr vmem) ∧ active (cr vmem) is1 g7 ≠ [] ∧ ((active (cr vmem) is1 g7).filter fun t => (rangeOf (cr vmem) t rangeArgs).2 != 0) = [thr 0 vmem] ∧
    runInAperture one 0 (rangeOf (cr vmem) (thr 0 vmem) rangeArgs).1 64 = false ∧ runInAperture one 0 0xFEFFFFFFFFFFFFF0 64 = true ∧ bitsOf 0x20 7 5 ≠ 2 := ⟨issues _ _ rfl, by decide +kernel⟩

/-- A context that may repartition its cores; and a machine whose pages lie on die 0, as the move to die 1 finds them. -/
def partSt : State := { one with contexts := [{ ctx0 with bfpCtl := true }] }
def moveRegs : SMap Word := [(2, 0), (4, 0x1000), (6, 1)]
def moveArgs : Args := ar (a := .v 2) (b := .v 4) (c := .v 6)

theorem witness_HintsAndPlacement : Issues partSt is1 (cr vmem) ∧ active (cr vmem) is1 g7 = [thr 0 vmem] ∧ getCtx partSt 0 = some { ctx0 with bfpCtl := true } ∧ (thr 0 vmem).result = none ∧
    partAllowed partSt (cr vmem) = true ∧ partAllowed one (cr vmem) = false ∧ (coreOf partSt 0).change = [] ∧ (coreOf partSt 0).mb = 0 ∧ ¬ ((coreOf partSt 0).change = [] ∧ 1 = (coreOf partSt 0).mb) ∧
    (migArgs (cr moveRegs) (thr 0 moveRegs) moveArgs).2.2 ≤ 5 ∧ ctx0.hints.length + 1 ≤ 256 ∧ rangePages 0 0x1000 (targetDie one (cr moveRegs) 1) ≠ [] ∧ ({ thr 0 with result := some 1 } : Thread).result.isSome = true ∧ movePages one 0 0 0x1000 (targetDie one (cr moveRegs) 1) ≠ [] :=
  ⟨⟨rfl, rfl⟩, by decide +kernel⟩

def atomArgs : Args := ar (d := .v 10) (a := .v 2) (b := .v 4)

theorem witness_Atomics : Issues one is1 (cr vmem) ∧ active (cr vmem) is1 g7 = [thr 0 vmem] ∧
    PathClear one (cr vmem) { w := (atomMods atomArgs).w, load := true, store := true, strong := true, now := true } (atomLanes (envOf one is1 (cr vmem) g7) atomArgs (atomMods atomArgs).w) ∧
    NoStoresOut one is1 (cr vmem) g7 ∧ one.stores = [] ∧ anyPoison one = false ∧ (5 : Nat) < 2 ^ (8 * 4) ∧ (0 : Nat) < 4 ∧
    (let f := fp32.dec (bitsOf 1 63 32); f ≠ .nan ∧ f.cmp f = .eq ∧ bitsOf 1 31 0 < bitsOf 2 31 0) ∧ (let f := fp32.dec (bitsOf (2 ^ 63) 63 32); let g := fp32.dec (bitsOf 0 63 32); f ≠ .nan ∧ f.cmp g = .eq ∧ f.sign = true ∧ g.sign = false) :=
  ⟨issues _ _ rfl, by decide +kernel, clear_of (by decide +kernel), by unfold NoStoresOut; decide +kernel, by and_intros <;> decide +kernel⟩

/-- Waits whose limits hold and do not hold; an arrival word at byte 64 of the crew's scratchpad. -/
def laden : State := { one with crews := [{ cr with threads := [{ thr 0 with cnt := { loads := 1 } }, thr 1] }] }
def arwRegs : SMap Word := [(2, 64), (3, 0xFF000000), (4, 1)]
def arwArgs : Args := ar (d := .v 10) (a := .v 2) (b := .v 4)
def arwEa : Word64 := addr64 ((rd (cr arwRegs) (thr 0 arwRegs) (.v 2) 2 : Nat) + Args.xs arwArgs)

theorem witness_WaitsAndArrivalWords : Issues one is1 (cr vmem) ∧ bitsOf 0x07FFFFFF 26 21 = 63 ∧ ({} : Counters).loads ≤ bitsOf 0 26 21 ∧ ¬ (({ loads := 1 } : Counters).loads ≤ bitsOf 0 26 21) ∧ bitsOf 0 26 21 ≠ 63 ∧
    ((({ target := 2, count := 2, gen := 0xFFFFFFFF, flags := 1 } : ArrWord).target ≠ 0 ∧ ({ target := 2, count := 2, gen := 0xFFFFFFFF, flags := 1 } : ArrWord).target ≤ 2) ∧ ({ target := 2, count := 1, gen := 0, flags := 0 } : ArrWord).count < 2) ∧
    active (cr arwRegs) is1 g7 = [thr 0 arwRegs] ∧ NoStoresOut (st arwRegs is1) is1 (cr arwRegs) g7 ∧ arrKey (st arwRegs is1) (cr arwRegs) arwEa = .ok (scrKey 5 64) ∧
    (arrSlice (st arwRegs is1) (cr arwRegs) arwEa).isNone = true ∧ (readArr (st arwRegs is1) (scrKey 5 64)).gen ≠ rd (cr arwRegs) (thr 0 arwRegs) (.v 4) 1 ∧
    (readArr (st arwRegs is1) (scrKey 5 64)).gen = rd (cr arwRegs) (thr 0 arwRegs) (.v 8) 1 :=
  ⟨issues _ _ rfl, by and_intros <;> first | rfl | decide +kernel⟩

/-- The line at 0x8000 as another crew's live thread has read and written it; that crew. -/
def crew6 : Crew := { cr with uid := 6, slot := 1, threads := [{ thr 0 with accessed := some 0 }] }
def slot6 : TagSlot := { region := .thread 6 0 0, die := 0, core := 0, read := 1, write := 1 }
def racy : State := { one with crews := [cr vmem, crew6], tags := [(hbmKey 0x8000 / 64, { slots := [slot6] })] }
def laneR : LaneAcc := { t := thr 0 vmem, ea := 0x8000, tgt := .glob [(0x8000, 4)] false }
def pieceR : Piece := { va := 0x8000, key := hbmKey 0x8000, len := 4, glob := true, home := some 0 }

theorem witness_RacesAndWaitingWrites_conflict : Issues racy is1 (cr vmem) ∧ active (cr vmem) is1 g7 = [thr 0 vmem] ∧ memStrong (atV2 0x40) = false ∧ moLanes (envOf racy is1 (cr vmem) g7) (atV2 0x40) 4 = [laneR] ∧
    lanePieces racy (cr vmem) 4 laneR = [pieceR] ∧ pieceR.key % 64 + pieceR.len ≤ 64 ∧ 0 < pieceR.len ∧
    slot6 ∈ (mget default racy.tags (place racy pieceR.key / 64)).slots ∧ slot6.region ≠ regionOf 5 (thr 0 vmem) ∧ regionLive racy slot6.region = true ∧ sameOwner racy slot6.region (regionOf 5 (thr 0 vmem)) = false ∧
    slot6.write &&& granules pieceR.key pieceR.len ≠ 0 ∧ slot6.read &&& granules pieceR.key pieceR.len ≠ 0 ∧
    PathClear racy (cr vmem) { w := 4, load := true } [laneR] ∧ PathClear racy (cr vmem) { w := 4, store := true } [laneR] :=
  ⟨⟨rfl, rfl⟩, by and_intros <;> first | rfl | decide +kernel⟩

/-- A store that waits at its home for readers, and one that has waited past RACE_WAIT. -/
def waitSt (n : Nat) : State := { st with stores := [{ store7 with wait := .shared, waited := n }] }

theorem witness_RacesAndWaitingWrites_waiting : ((waitSt 0).stores.find? fun q => q.id == 7 && q.wait != .free).isSome = true ∧ getCrew (waitSt 0) 5 = some (cr) ∧
    (match (raceRuns (waitSt 0) { region := store7.region, die := 0, core := 0 } true (storeRuns store7)).1 with
      | .ok _ => true
      | _ => false) = true ∧
    getCtx (waitSt 0) 0 = some ctx0 ∧ 0 ≤ ctx0.raceWait ∧ ctx0.raceWait < 0x00100001 ∧ (mget [] racy.hw.epochLive 0).any (regionLive racy) = false ∧
    (mget [] { racy.hw with epochLive := [(0, [.thread 6 0 0])] }.epochLive 0).any (regionLive racy) = true := by decide +kernel

/-! ### Ranges, blocks and generators -/

/-- A registration record at 0x8000: one block at 0x180000, its map at 0x9000, a generator of one thread. -/
def regRec : Nat := 0x180000 + 2 ^ 64 * 1 + 2 ^ 256 * 0x9000 + 2 ^ 320 * 1 + 2 ^ 328 * 8 + 2 ^ 352 * 32
def regSt : State := { st vmem is1 with mem := memWrite tables (hbmKey 0x8000) 64 regRec }
def regLane : LaneAcc := { t := thr 0 vmem, ea := 0x8000, tgt := steer regSt (cr vmem) 0 0x8000 64 }

theorem witness_RangesAndFills_register : Issues regSt is1 (cr vmem) ∧ active (cr vmem) is1 g7 = [thr 0 vmem] ∧ PathClear regSt (cr vmem) { w := 64, load := true, now := true } [regLane] ∧
    regSt.lines = [] ∧ regSt.stores = [] ∧ regSt.migs = [] ∧ anyPoison regSt = false ∧
    bytesVal ((lanePieces regSt (cr vmem) 64 regLane).flatMap fun x => homeBytes regSt x.key x.len) = regRec ∧
    (match regStatus regSt 0 regRec with | .ok k => k == 0 | _ => false) = true ∧ (match regStatus regSt 0 0 with | .error k => k == 0xFFFFFF01 | _ => false) = true ∧ (getCtx regSt 0).isSome = true :=
  ⟨⟨rfl, rfl⟩, by decide +kernel, clear_of (by decide +kernel), by and_intros <;> decide +kernel⟩

/-- Range 0 of that record, registered, its block in a state. -/
def rng0 : Range := { num := 0, base := 0x180000, blocks := 1, deferred := false, reclaim := true, gen := 0, frame := 0, map := 0x9000, threads := 1, regs := 8, scratch := 0, gang := 32, border := 0 }
def ranged (state : Nat) (kind : CrewKind := .seed) : State :=
  { st vmem is1 with mem := memWrite tables (hbmKey 0x9000) 1 state, contexts := [{ ctx0 with ranges := [rng0] }], crews := [{ cr vmem with kind := kind }] }
def genCrew : Crew := { cr vmem with kind := .gen 0 0 0 0 }

theorem witness_RangesAndFills_unregister : (rangesOf (ranged 2) 0).find? (·.num == 0) = some rng0 ∧ (rangesOf one 0).find? (·.num == 0) = none ∧ anyFilling (ranged 2) 0 rng0 = false ∧
    anyFilling (ranged 1) 0 rng0 = true ∧ blockState (ranged 1) 0 rng0 0 = stFilling ∧ blockState (ranged 2) 0 rng0 0 ≠ stFilling := by decide +kernel

theorem witness_RangesAndFills_fill : Issues (ranged 1 (.gen 0 0 0 0)) is1 genCrew ∧ active genCrew is1 g7 = [thr 0 vmem] ∧ genCrew.kind = .gen 0 0 0 0 ∧ (cr vmem).isGen = false ∧
    NoStoresOut (ranged 1 (.gen 0 0 0 0)) is1 genCrew g7 ∧ genCrew.fillOver = false ∧ ({ genCrew with fillOver := true } : Crew).fillOver = true :=
  ⟨⟨rfl, rfl⟩, by and_intros <;> decide +kernel⟩

def pstatRegs : SMap Word := [(2, 0x180000), (4, 0x10000)]
def away7 : SMap Word := [(2, 0x400000)]

theorem witness_BlocksAndGenerators : Issues (ranged 2) is1 (cr vmem) ∧ active (cr vmem) is1 g7 = [thr 0 vmem] ∧ pstatWord (ranged 2) (cr) 0x180000 = some 2 ∧
    (∀ p ∈ (countBlocks (pinOne 0 true) (ranged 2) (blocksIn (ranged 2) 0 0x180000 0x10000)).1.stores, p.id ≠ (countBlocks (pinOne 0 true) (ranged 2) (blocksIn (ranged 2) 0 0x180000 0x10000)).1.nextId) ∧
    blocksIn (ranged 2) 0 0x180000 0x10000 = [(rng0, 0)] ∧ (ranged 2).failed = [] := ⟨⟨rfl, rfl⟩, by decide +kernel⟩

/-- A page of the compressed tier at 0x400000, whose 2 MiB image stands at 0x600000; B marks an expansion in progress. -/
def squeezed (b : Bool) : State := { st vmem is1 with mem := memWrite tables 0x103010 8 (leafEntry { placeLeaf with compressed := true } true b 0x600000) }

theorem witness_BlocksAndGenerators_walk : pstatWord (squeezed false) (cr) 0x400000 = some 0x4000 ∧ pstatWord { squeezed false with mem := memWrite tables 0x103010 8 0x200383 } (cr) 0x400000 = none := by decide +kernel

def rec0 : GenRec := { ctx := 0, die := 0, core := 0, range := 0, block := 0, depth := 2, idx := 0 }
def asked : State := { ranged 1 with genQueue := [rec0] }
def filler : Crew := { genCrew with threads := [{ thr 0 with pfillAt := some 1 }] }
def held1 : Crew := { genCrew with sluiceSince := some 3, slot := 30, vclk := 300 }
def held2 : Crew := { held1 with uid := 6, slot := 31 }
def stuck : State := { asked with crews := [held1, held2], cores := ((List.range 256).map fun i => (i, { retired := decide (0 < i) })) }
def aside : Crew := { genCrew with where_ := .away }
def returning : State := { ranged 1 with crews := [aside] }

theorem witness_BlocksAndGenerators_generators : (∀ c ∈ asked.crews, ¬ (asideReady asked 0 c = true ∧ (restoreCore asked c).isSome = true)) ∧ firstRecord (waitingRecords asked 0) = some rec0 ∧
    recordCore asked rec0 = some 0 ∧ (rangesOf asked 0).find? (·.num == 0) = some rng0 ∧ genCrew.isGen = true ∧ getCrew { asked with crews := [filler] } 5 = some filler ∧ filler.kind = .gen 0 0 0 0 ∧ (∀ t ∈ filler.threads, t.pfillAt ≠ none) ∧ filler.threads.length = 1 ∧ (asked.stores = [] ∧ asked.flume = [] ∧ asked.tileReqs = [] ∧ asked.colls = [] ∧ asked.querns = []) ∧
    filler.fillOver = false ∧ blockState { asked with crews := [filler] } 0 rng0 0 = stFilling ∧ (∃ t ∈ genCrew.threads, t.live = true ∧ t.pfillAt = none) ∧ blockState (ranged 2) 0 rng0 0 ≠ stFilling ∧
    getCrew stuck 5 = some held1 ∧ mayTake stuck held1 = true ∧ mayTake stuck aside = false ∧ held1.sluiceSince = some 3 ∧ rec0 ∈ waitingRecords stuck 0 ∧ held1.depth < rec0.depth ∧ recordCore stuck rec0 = none ∧
    asideReady returning 0 aside = true ∧ restoreCore returning aside = some 0 := by decide +kernel

/-- A waiter on a die's overflow list; a page of 32 blocks that may be reclaimed. -/
def lane7 : Waiter := { ctx := 0, die := 0, block := some (0, 0), va := 0x180000, who := .lanes 5 [0], overflow := true }
def waiting (state : Nat) : State := { ranged state with waiters := [lane7] }
def rng32 : Range := { rng0 with base := 0x400000, blocks := 32 }
def plain4 : State := { st vmem is1 with mem := memWrite tables 0x103010 8 0x200383, contexts := [{ ctx0 with ranges := [rng32] }] }
def leaf4 : Leaf := { placeLeaf with pa := 0x200000 }

theorem witness_OverflowAndCompression_overflow : (waiting 2).waiters.find? (fun w => w.die == 0 && w.overflow) = some lane7 ∧ (rangesOf (waiting 2) 0).find? (·.num == 0) = some rng0 ∧ getCrew (waiting 2) 5 = some (cr vmem) ∧
    (match touchJudge { waiting 2 with waiters := [] } (cr vmem).toucher rng0 0 with | .go => true | _ => false) = true ∧
    (match touchJudge { waiting 3 with waiters := [] } (cr vmem).toucher rng0 0 with | .fault _ => true | _ => false) = true ∧
    (match touchJudge { waiting 1 with waiters := [] } (cr vmem).toucher rng0 0 with | .wait => true | _ => false) = true := by decide +kernel

theorem witness_OverflowAndCompression_pages : walkTree plain4 0 0x400000 = .leaf leaf4 21 0x103010 ∧ mayReclaim plain4 0 0x400000 = true ∧ mayReclaim (ranged 1) 0 0 = false ∧ plain4.migs = [] ∧ plain4.stores = [] ∧
    anyPoison plain4 = false ∧ 0x600000 ≠ leaf4.pa ∧ walkTree (squeezed true) 0 0x400000 = .leaf { leaf4 with compressed := true, busy := true, pa := 0x600000 } 21 0x103010 ∧
    bitsOf 0x800000 39 36 = bitsOf 0x600000 39 36 ∧ statusFits (squeezed true) 0x600000 1 = true := by decide +kernel

/-! ### Addresses of the first page -/

theorem entry_low {s : State} {va lvl : Nat} {g : Bool} {t : Nat} {d d' : Bool → Nat → WalkEnd} {r : WalkEnd} (hi : vaIndex lvl g va = vaIndex lvl g 0) (hd : ∀ g t, d g t = r → d' g t = r)
    (h : walkEntry s 0 lvl g t d = r) : walkEntry s va lvl g t d' = r := by
  unfold walkEntry at *
  rw [hi]
  dsimp only at *
  split_ifs at * <;> first | exact h | exact hd _ _ h

/-- An address of the first page is mapped as its first byte is. -/
theorem walk_low {s : State} {va : Nat} (h : va < 2 ^ 21) : ∀ (n : Nat), n ≤ 4 → ∀ g t l k, walkFrom s 0 n g t = .leaf l 21 k → walkFrom s va n g t = .leaf l 21 k := by
  intro n
  induction n with
  | zero =>
    intro _ g t l k hk
    simp only [walkFrom, walkEntry] at hk
    repeat' split at hk
    all_goals first | cases hk | (injection hk with _ hk _; cases g <;> simp [pageLog2] at hk)
  | succ n ih =>
    intro hn g t l k hk
    refine entry_low ?_ (fun g t h => ih (by omega) g t l k h) hk
    have h4 : n = 0 ∨ n = 1 ∨ n = 2 ∨ n = 3 := by omega
    rcases h4 with rfl | rfl | rfl | rfl <;> simp [vaIndex, bitsOf] <;> omega

theorem tree_low {s : State} {ctx va k : Nat} {l : Leaf} (h : walkTree s ctx 0 = .leaf l 21 k) (hv : va < 2 ^ 21) : walkTree s ctx va = .leaf l 21 k := by
  unfold walkTree at *
  split at h
  · cases h
  · exact walk_low hv 4 (by omega) _ _ _ _ h

/-- Where the first page lies at its own addresses, the device reaches the bytes of it. -/
theorem keys_low {s : State} {ctx k va len : Nat} (h : walkTree s ctx 0 = .leaf placeLeaf 21 k) (hv : va + len ≤ 2 ^ 21) (b : Bool) :
    devKeys s ctx va len b = some ((List.range len).map fun i => hbmKey (va + i)) := by
  unfold devKeys
  rw [if_neg (by omega)]
  dsimp only
  rw [List.map_congr_left (l := List.range len) (g := fun i => some (hbmKey (va + i)))]
  · simp [List.all_map, List.filterMap_map, Function.comp_def]
  · intro i hi
    have hi' : va + i < 2 ^ 21 := by have := List.mem_range.1 hi; omega
    have hd : (va + i) / 2097152 = 0 := Nat.div_eq_of_lt hi'
    rw [tree_low h hi']
    cases b <;> simp [hd, leafEgressOk, TlbEntry.key, placeLeaf]

/-- The device writes and reads there, where nothing is poisoned. -/
theorem write_low {s : State} {ctx k va : Nat} {bs : List Byte} (h : walkTree s ctx 0 = .leaf placeLeaf 21 k) (hp : anyPoison s = false) (hv : va + bs.length ≤ 2 ^ 21) : (devWrite s ctx va bs).isSome = true := by
  simp [devWrite, keys_low h hv, poisonedAt, hp]

theorem read_low {s : State} {ctx k va len : Nat} (h : walkTree s ctx 0 = .leaf placeLeaf 21 k) (hp : anyPoison s = false) (hv : va + len ≤ 2 ^ 21) :
    devNum s ctx va len = some (bytesVal ((List.range len).map fun i => homeByte s (hbmKey (va + i)))) := by
  simp [devNum, devRead, keys_low h hv, poisonedAt, hp, Function.comp_def]

/-! ### Thunks and tasks -/

/-- Records of regions at 0x8000 and at scratchpad byte 0, watched; 8 and 8; numbers 0 and 1; a format word. -/
def vthk : SMap Word := [(4, 0x8000), (6, 0x00080008), (7, 0x04000008), (9, 0x01000000), (10, 0x00080008), (11, 0x04000008), (12, 0x00080008), (14, 1), (16, 7)]
def thk : State := st vthk is1
def envT (s : State) : Env := envOf s is1 (cr vthk) g7

theorem witness_ThunkAppends_definitions : Issues thk is1 (cr vthk) ∧ active (cr vthk) is1 g7 = [thr 0 vthk] ∧ Agreed (envT thk) (.v 4) 4 ∧ recCheck thk (cr vthk) (recOf (lowVal (envT thk) (.v 4) 4)) = none ∧
    (recOf (lowVal (envT thk) (.v 4) 4)).watch = true ∧ recCheck thk (cr vthk) (recOf (lowVal (envT thk) (.v 8) 4)) = none ∧ (recOf (lowVal (envT thk) (.v 8) 4)).watch = true ∧
    (recOf (lowVal (envT thk) (.v 8) 4)).hint = 1 ∧ thk.nodes = [] ∧ (let r := recOf (lowVal (envT thk) (.v 4) 4); let g := recOf (lowVal (envT thk) (.v 8) 4); (g.rows, g.cols, g.fmt, g.scale) = (r.rows, r.cols, r.fmt, r.scale)) ∧ 1 ≤ lo16 0x00080008 ∧ hi16 0x00080008 ≤ 128 ∧ openSlot thk (cr vthk) 2 = some 0 :=
  ⟨⟨rfl, rfl⟩, by decide +kernel, by unfold Agreed; decide +kernel, by decide +kernel⟩

def recS : Rec := { rec8 with base := 0, hint := 1, watch := false }
def x0 : Node := { src0 with rec_ := some recS }
def y1 : Node := { x0 with slot := 1 }
def products : State := { thk with nodes := [x0, y1] }

theorem witness_ThunkAppends_products : NamesNode (envT products) (.v 5) x0 ∧ NamesNode (envT products) (.v 14) y1 ∧ recS.hint = 1 ∧ x0.rows ≤ 128 ∧ y1.cols ≤ 128 ∧ x0.region = some recS ∧ y1.region = some recS ∧ x0.cols = y1.rows ∧ Agreed (envT products) (.v 5) 1 ∧
    fmtReason 0 = 0 ∧ recS.fmt = bitsOf 0 3 0 ∧ recS.fmt = bitsOf 0 7 4 ∧ bitsOf 0 13 12 = 0 ∧ lo16 0 + 8 ≤ x0.rows ∧ openSlot products (cr vthk) 0 = some 2 := by
  and_intros <;> first | decide +kernel | (unfold Agreed; decide +kernel)

/-- A full table: with a DONE product, with an OPEN one, with neither. -/
def full (k : NodeKind) (st : NodeState) : State :=
  { thk with nodes := { x0 with slot := 0, kind := k, state := st } :: (List.range 59).map fun i => { x0 with slot := i + 1, crew := 9 } }
def roots (s : State) (st : NodeState) : Option Nat := (((crewNodes s (cr vthk)).filter fun m => m.kind == .tmm && isRoot s m).find? (·.state == st)).map (·.slot)

/-- A node whose destination windows take up the room for watches. -/
def crowded (n : Nat) : State := { thk with nodes := [{ src0 with bound := List.replicate n rec8 }] }

theorem crowded_watches (n : Nat) : watchCount (crowded n) = n + 1 := by
  simp [watchCount, crowded, Node.watched, src0, thk, st, getCrew, cr]

theorem witness_ThunkAppends_watches : 16384 < watchCount (crowded 16384) + 0 ∧ openSlot (crowded 16384) (cr vthk) 0 = none := by
  simp [openSlot, crowded_watches]

theorem witness_ThunkAppends_overflow : watchCount (full .tmm .done) + 0 ≤ 16384 ∧ watchCount (full .tmm .open_) + 0 ≤ 16384 ∧ openSlot (full .tmm .done) (cr vthk) 0 = none ∧ roots (full .tmm .done) .done = some 0 ∧ openSlot (freeNode (full .tmm .done) 0 0) (cr vthk) 0 = some 0 ∧
    openSlot (freeNode (full .tmm .done) 0 0) (cr vthk) 16385 = none ∧ roots (full .tmm .open_) .done = none ∧ roots (full .tmm .open_) .open_ = some 0 ∧ roots (full .src .open_) .open_ = none ∧
    (cr vthk).strict = false ∧ (cr vthk).isGen = false ∧ ({ cr vthk with strict := true } : Crew).strict = true ∧ nodeNamed thk (cr vthk) 7 = none := by decide +kernel

/-- A forced product whose record and window fit; its thread, and one whose request has ended. -/
def ended : Crew := { cr vthk with threads := [{ thr 0 vthk with tileDone := some 1 }, thr 1] }

theorem witness_ThunkDemands : Issues products is1 (cr vthk) ∧ (∀ t ∈ (envT products).act, t.tileDone = none) ∧ NoStoresOut products is1 (cr vthk) g7 ∧ NamesNode (envT products) (.v 5) x0 ∧ Agreed (envT products) (.v 4) 4 ∧
    (recOf (lowVal (envT products) (.v 4) 4)).rows ≤ x0.rows ∧ (recOf (lowVal (envT products) (.v 4) 4)).cols ≤ x0.cols ∧ x0.rows ≤ 128 ∧ x0.cols ≤ 128 ∧ recCheck products (cr vthk) (recOf (lowVal (envT products) (.v 4) 4)) = none ∧
    (recOf (lowVal (envT products) (.v 4) 4)).scale = ((recOf (lowVal (envT products) (.v 4) 4)).fmt == 5) ∧ (recOf (lowVal (envT products) (.v 8) 4)).hint = 1 ∧ tilesUsed products x0 x0.all (.store rec8 0 0) = [] ∧
    spanAlias products (cr vthk) (windowSpans products (cr vthk) rec8) = none ∧ recordsBad products (cr vthk) x0 x0.all = none ∧
    (∃ t ∈ (active ended is1 g7), t.tileDone.isSome = true) ∧ x0.state ≠ .forcing ∧ isRoot products x0 = true ∧ wanted products 0 0 = false ∧ is1.tids.Nodup := by
  refine ⟨⟨rfl, rfl⟩, ?_⟩
  and_intros <;> first | decide +kernel | (unfold Agreed; decide +kernel)

/-- Tile 1 held by gang 0, and by another with gang 0 waiting for it. -/
def holder (t : Token) : Crew := { cr with tokens := [(1, t)], tacqWait := [(1, 0)] }

theorem witness_TokensPass : Issues (st) is0 (cr) ∧ active (cr) is0 g7 ≠ [] ∧ holdsToken (holder (.gang 0)) 1 0 = true ∧ tokenOf (cr) 1 = .nobody ∧ holdsToken (holder (.gang 1)) 1 0 = false ∧
    tokenOf (holder (.gang 1)) 1 ≠ .nobody ∧ NoStoresOut (st) is0 (cr) g7 ∧ (holder (.gang 1)).tacqWait.find? (·.1 == 1) = some (1, 0) ∧ (cr).tacqWait.find? (·.1 == 1) = none :=
  ⟨issues _ _ rfl, by and_intros <;> decide +kernel⟩

/-- Entry 1 of the run's pool taken, its JOIN 2; a seed of a new run, and that run. -/
def joined : State := { one with mem := memWrite (memWrite tables (hbmKey 0x20020) 1 1) (hbmKey 0x20030) 4 2 }
def shape1 : Launch := { run3.launch with cx := 1, cy := 1, cz := 1, gang := 32, regs := 8, regsCopy := 8, regsEpi := 8, spans := 1, dieMask := 1 }
def run4 : Run := { run3 with id := 4, launch := shape1, state := .migrating, dies := [0] }
def seed4 : Ready := { run := 4, span := 0, prio := 0, entry := none, stage := 0 }
def ready4 : State := { one with runs := [{ run4 with state := .running }], ready := [seed4] }

theorem witness_TasksAndRuns : Issues one is1 (cr vmem) ∧ entryHeld one run3 0 = false ∧ entryHeld joined run3 1 = false ∧ entryRetireHeld joined run3 1 = false ∧ entryRetireHeld one run3 0 = false ∧ entryHeld (fenced 0 one) run3 0 = true ∧ entryRetireHeld (fenced 0 one) run3 0 = true ∧ (cr vmem).run = some run3.id ∧ getRun one run3.id = some run3 ∧ spawnBad run3 (2 ^ 160 * 0xFFFFFFFF + 2 ^ 60) 0 = false ∧ spawnBad run3 (2 ^ 160 * 0xFFFFFFFF + 2 ^ 60) 4 = true ∧ entryFree one run3 0 = true ∧
    entryFree joined run3 1 = false ∧ bitsOf (2 ^ 128 * 1) 159 128 ≠ 0 ∧ bitsOf 0 159 128 = 0 ∧ NoStoresOut one is1 (cr vmem) g7 ∧ lowerJoin joined run3 0 = none ∧ (lowerJoin joined run3 1).map (·.2) = some 1 ∧ 0 < run3.launch.poolN ∧ ¬ run3.launch.poolN ≤ 1 ∧ run3.launch.poolN ≤ 4 ∧ one.moves = [] ∧
    getRun { one with runs := [run4] } 4 = some run4 ∧ run4.state = .migrating ∧
    (sortHeads ready4 (readyHeads ready4 0)).filter (fun x => !handlerWaits ready4 x.2.ctx 0) = [] ++ (seed4, { run4 with state := .running }) :: [] ∧ placeCore ready4 0 shape1.shape = some 0 := by
  refine ⟨issues _ _ rfl, ?_⟩
  and_intros <;> decide +kernel

/-! ### Rings, copies, collectives, jobs -/

def okRuns (s : State) (r : Reach) (xs : List (Nat × Nat)) : Bool := match r with
  | .ok s1 ys => decide (s1 = s) && decide (ys = xs)
  | _ => false

theorem runs_of {s : State} {r : Reach} {xs : List (Nat × Nat)} (h : okRuns s r xs = true) : r = .ok s xs := by
  unfold okRuns at h
  split at h <;> simp_all

def freeB (s : State) (c : Crew) (req engine : Nat) : Bool := !engineHeld s req && (takeFault s req).isNone && !logBlocked s c && !engineStopped s c engine

theorem free_of {s : State} {c : Crew} {req engine : Nat} (h : freeB s c req engine = true) : EngineFree s c req engine := by
  simpa [freeB, EngineFree, and_assoc] using h

/-- A ring of four entries at 0x9000, its descriptor at 0x8000. -/
def ringDesc (kind head tail : Nat) (ended : Bool := false) : Nat := 0x9000 + 2 ^ 64 * 4 + 2 ^ 96 * kind + 2 ^ 104 * ended.toNat + 2 ^ 128 * head + 2 ^ 192 * tail
def ringSt (v : Nat) : State := { st vmem is1 with mem := memWrite tables (hbmKey 0x8000) 64 v }
def popaRegs : SMap Word := [(2, 0x8000), (4, 0x40), (5, 0xFF000000), (6, 0x80), (7, 0xFF000000)]
def popaArgs : Args := ar (d := .v 4) (a := .v 2) (b := .v 6)
def ringLane : LaneAcc := { t := thr 0 vmem, ea := 0x8000, tgt := steer one (cr vmem) 0 0x8000 64 }

theorem witness_Rings_issue : Issues (st popaRegs is1) is1 (cr popaRegs) ∧ active (cr popaRegs) is1 g7 = [thr 0 popaRegs] ∧ rd (cr popaRegs) (thr 0 popaRegs) (.v 2) 2 % 64 = 0 ∧
    (steerFail (st popaRegs is1) (cr popaRegs) 0 0x8000 64).isNone = true ∧ NoStoresOut (st popaRegs is1) is1 (cr popaRegs) g7 ∧ rd (cr popaRegs) (thr 0 popaRegs) popaArgs.d 2 % 16 = 0 ∧
    rd (cr popaRegs) (thr 0 popaRegs) popaArgs.b 2 % 32 = 0 ∧ (arwFail (st popaRegs is1) (cr popaRegs) 0 0xFF00000000000040).isNone = true ∧
    (match steer (st popaRegs is1) (cr popaRegs) 0 0xFF00000000000080 32 with | .bank k none => keySpace k == 16384 + 5 | _ => false) = true :=
  ⟨issues _ _ rfl, by and_intros <;> decide +kernel⟩

theorem witness_Rings_free : PathClear (ringSt (ringDesc 2 0 1)) (cr vmem) { w := 64, load := true, strong := true, now := true } [ringLane] ∧ (ringSt 0).stores = [] ∧ anyPoison (ringSt 0) = false ∧
    ringBad (ringDesc 2 0 1) 2 = false ∧ ringBad 0 2 = true ∧ (lanePieces (ringSt (ringDesc 2 0 1)) (cr vmem) 64 ringLane).all (·.glob) = true ∧
    bytesVal ((lanePieces (ringSt (ringDesc 2 0 1)) (cr vmem) 64 ringLane).flatMap fun x => homeBytes (ringSt (ringDesc 2 0 1)) x.key x.len) = ringDesc 2 0 1 :=
  ⟨clear_of (by decide +kernel), by decide +kernel⟩

def req9 (op : RingOp) : RingReq := { id := 9, crew := 5, tid := 0, core := 0, pc := 0x1000, op := op, desc := 0x8000, entry := 7 }
def served (v : Nat) (op : RingOp) : State := { ringSt v with rings := [req9 op] }
/-- An earlier pop of that thread before it, on its way or at home. -/
def inLine (order : Nat) : State := { served (ringDesc 2 0 1) .pop with rings := [{ req9 .pop with id := 8, order := order, home := hbmKey 0x8000 }, req9 .pop] }
def mover9 : Mover := { req := 9, crew := cr vmem, tid := 0 }
def descAt (v : Nat) : Nat := bytesVal (homeBytes (ringSt v) (hbmKey 0x8000) 64)

theorem witness_Rings_service : (served (ringDesc 2 0 1) .weirPush).rings.find? (fun q => q.id == 9 && q.answer.isNone) = some (req9 .weirPush) ∧ getCrew (served 0 .pop) 5 = some (cr vmem) ∧ engineHeld (served 0 .pop) 9 = false ∧
    (takeFault (served 0 .pop) 9).isNone = true ∧ logBlocked (served 0 .pop) (cr vmem) = false ∧ logBlocked { logFilled with rings := [req9 .pop], crews := [{ cr with where_ := .away }] } { cr with where_ := .away } = true ∧ anyPoison (served 0 .pop) = false ∧ comesLater (served 0 .pop) (req9 .pop) (hbmKey 0x8000) = false ∧ comesLater (inLine 0) (req9 .pop) (hbmKey 0x8000) = true ∧ (req9 .pop).order = 0 ∧
    olderWaits (comesHome (served (ringDesc 2 0 1) .pop) (req9 .pop) (hbmKey 0x8000)).1 (comesHome (served (ringDesc 2 0 1) .pop) (req9 .pop) (hbmKey 0x8000)).2 (ringOf (ringDesc 2 0 1)) = false ∧
    olderWaits (inLine 1) { req9 .pop with order := 2, home := hbmKey 0x8000 } (ringOf (ringDesc 2 0 1)) = true ∧ inAperture (served 0 .pop) 0 0x8000 = false ∧
    reach (served (ringDesc 2 0 1) .weirPush) mover9 { load := true, store := true } 0x8000 64 = .ok (served (ringDesc 2 0 1) .weirPush) [(hbmKey 0x8000, 64)] ∧
    reach (served (ringDesc 2 0 1) .weirPush) mover9 { store := true } ((ringOf (ringDesc 2 0 1)).entryVa 1) 32 = .ok (served (ringDesc 2 0 1) .weirPush) [(hbmKey 0x9020, 32)] ∧
    ringBad (descAt 0) 1 = true ∧ ringBad (descAt (ringDesc 2 0 1)) 2 = false ∧ (ringOf (descAt (ringDesc 2 0 0 true))).ended = true ∧ (ringOf (descAt (ringDesc 2 0 4))).used = 4 ∧ (ringOf (descAt (ringDesc 2 0 4))).slots = 4 ∧
    (ringOf (descAt (ringDesc 2 3 3))).used = 0 ∧ (ringOf (descAt (ringDesc 2 0 1))).used ≠ 4 :=
  by and_intros <;> first | decide +kernel | exact runs_of (by decide +kernel)

def popa9 : RingReq := { req9 .popa with answer := some 1, arw := some 0xFF00000000000040, buf := 0xFF00000000000080 }

theorem witness_Rings_popa : { one with rings := [popa9] }.rings.find? (·.id == 9) = some popa9 ∧ popa9.answer = some 1 ∧ (cr vmem).where_ = .resident ∧
    (match steer { one with rings := [popa9] } (cr vmem) 0 popa9.buf 32 with | .bank .. => true | _ => false) = true ∧
    (match arriveAtWord one mover9 0xFF00000000000040 32 with | .ok _ => true | _ => false) = true ∧ (match arrivalKey one mover9 0xFF00000000000040 with | .ok k => k == scrKey 5 64 | _ => false) = true := by decide +kernel

/-- A copy of 32 bytes from 0x9000 to 0x8000, without an arrival word. -/
def copyRegs : SMap Word := [(2, 0x8000), (4, 0x9000), (6, 32)]
def copyArgs : Args := ar (a := .v 2) (b := .v 4) (c := .v 6)
def flume9 (len : Nat) : FlumeReq := { id := 9, crew := 5, tid := 0, die := 0, core := 0, pc := 0x1000, gather := false, dst := 0x8000, src := 0x9000, len := len, arw := none }
def flumeSt (len : Nat) : State := { one with flume := [flume9 len] }
/-- The registers of a gather whose list is misaligned. -/
def gatherRegs : SMap Word := [(2, 0x8000), (4, 0x9000), (8, 0xA002), (10, 1), (11, 4)]
/-- The registers of a copy whose source ends past the scratchpad. -/
def pastRegs : SMap Word := [(2, 0x8000), (4, 0xFF0), (5, 0xFF000000), (6, 32)]

theorem witness_Copies_issue : Issues (st copyRegs is1) is1 (cr copyRegs) ∧ active (cr copyRegs) is1 g7 = [thr 0 copyRegs] ∧ flumeAlign (flumeOf copyArgs false (cr copyRegs) 0x1000 0 (thr 0 copyRegs)) = none ∧
    flumeCheck (st copyRegs is1) (cr copyRegs) (flumeOf copyArgs false (cr copyRegs) 0x1000 0 (thr 0 copyRegs)) = none ∧ spanAlias (st copyRegs is1) (cr copyRegs) (eaSpans (st copyRegs is1) mover9 0x8000 32) = none ∧
    flumeAlign (flumeOf (ar (a := .v 2) (b := .v 4) (c := .v 8)) true (cr gatherRegs) 0x1000 0 (thr 0 gatherRegs)) ≠ none ∧
    (flumeCheck (st pastRegs is1) (cr pastRegs) (flumeOf copyArgs false (cr pastRegs) 0x1000 0 (thr 0 pastRegs))).isSome = true ∧ is1.tids.Nodup :=
  ⟨issues _ _ rfl, by decide +kernel⟩

theorem witness_Copies_chunk : (flumeSt 32).flume.find? (·.id == 9) = some (flume9 32) ∧ getCrew (flumeSt 32) 5 = some (cr vmem) ∧ EngineFree (flumeSt 32) (cr vmem) 9 2 ∧ (flume9 32).chunkLen = 32 ∧
    leavesAperture (flumeSt 32) mover9 (flume9 32) (0x9000, 32) = false ∧ reachAll (flumeSt 32) mover9 { load := true } [(0x9000, 32)] = .ok (flumeSt 32) [(hbmKey 0x9000, 32)] ∧
    reachAll (flumeSt 32) mover9 { store := true } [(0x8000, 32)] = .ok (flumeSt 32) [(hbmKey 0x8000, 32)] ∧
    (match engineRace (flumeSt 32) mover9 false [(0x9000, 32)] [(hbmKey 0x9000, 32)] with
      | .ok w => (match engineRace w mover9 true [(0x8000, 32)] [(hbmKey 0x8000, 32)] with
        | .ok _ => true
        | _ => false)
      | _ => false) = true ∧
    (flume9 32).chunks = 1 ∧ (flume9 8192).chunks = 2 :=
  by and_intros <;> first | decide +kernel | exact free_of (by decide +kernel) | exact runs_of (by decide +kernel)

/-- A thread whose copy has met a fault, at its next word. -/
def faulted : Crew := { cr with threads := [{ thr 0 with deferred := [{ code := 6 }] }, thr 1] }
def faultSt : State := { st with crews := [faulted], issue := none }

theorem witness_Copies_fault : getCrew faultSt 5 = some faulted ∧ faulted.halt = none ∧ ctxOff faultSt 0 = false ∧ faulted.where_ = .resident ∧ faulted.threads.any (·.live) = true ∧
    ((coreGroups faultSt 0).find? fun g => g.crew == 5 && (gangOf g).contains 0).any (fun g => (gangThreads faulted { crew := 5, pc := g.pc, tids := gangOf g }).any (·.deferred != []) &&
      (preTrap faultSt faulted { crew := 5, pc := g.pc, tids := gangOf g }).isSome) = true := by decide +kernel

/-- A reduction of one word over this device and device 1, its descriptor at 0x8000 and its group record at 0xA000. -/
def collDesc : Nat := 0x9000 + 2 ^ 64 * 0x9100 + 2 ^ 128 * 0xA000 + 2 ^ 192 * 1 + 2 ^ 264 * 3
def group2 : Nat := 2 + 2 ^ 80 * 1
def collSt : State := { one with mem := memWrite (memWrite tables (hbmKey 0x8000) 64 collDesc) (hbmKey 0xA000) 12 group2 }
def env1 (s : State) : Env := envOf s is1 (cr vmem) g7

theorem witness_CollectivesAndQuern_issue : Issues collSt is1 (cr vmem) ∧ recordNum collSt (cr vmem) (recordLane (env1 collSt) (thr 0 vmem) 0x8000 64) 64 = collDesc ∧ (steerFail collSt (cr vmem) 0 0x8000 64).isNone = true ∧
    arwOf (cr vmem) (thr 0 vmem) .none = none ∧ PathClear collSt (cr vmem) { w := 1, load := true, now := true } [recordLane (env1 collSt) (thr 0 vmem) 0x8000 64] ∧ collBad collDesc = false ∧ collBad 0 = true ∧
    PathClear collSt (cr vmem) { w := 1, load := true, now := true } [recordLane (env1 collSt) (thr 0 vmem) 0xA000 8] ∧ recordNum collSt (cr vmem) (recordLane (env1 collSt) (thr 0 vmem) 0xA000 8) 8 % 2 ^ 32 = 2 ∧
    PathClear collSt (cr vmem) { w := 1, load := true, now := true } [recordLane (env1 collSt) (thr 0 vmem) 0xA000 12] ∧
    groupBad collSt collDesc (recordNum collSt (cr vmem) (recordLane (env1 collSt) (thr 0 vmem) 0xA000 12) 12) 2 = false :=
  ⟨⟨rfl, rfl⟩, by and_intros <;> decide +kernel⟩

def coll9 : CollReq := { id := 9, crew := 5, tid := 0, die := 0, core := 0, pc := 0x1000, desc := 0x8000, arw := none, src := 0x9000, dst := 0x9100, op := 0, ty := 3, red := 0, count := 1, root := 0, rank := 0, group := [0, 1], tag := 0, seq := 0 }
def peer1 : CollPeer := { rank := 1, op := 0, ty := 3, red := 0, count := 1, root := 0, group := [0, 1], input := [4] }
def matched9 : CollReq := { coll9 with matched := some [peer1] }

def partOk {α : Type} (p : Machine.Part α) (f : α → Bool) : Bool := match p with
  | .ok _ x => f x
  | _ => false

theorem witness_CollectivesAndQuern_match : { collSt with colls := [coll9] }.colls.find? (fun q => q.id == 9 && q.matched.isNone) = some coll9 ∧ engineHeld { collSt with colls := [coll9] } 9 = false ∧
    engineStopped { collSt with colls := [coll9] } (cr vmem) 5 = false ∧ [peer1].map (·.rank) = (List.range coll9.group.length).filter (· != coll9.rank) ∧ [peer1].all (agrees coll9) = true ∧
    (∀ p ∈ [peer1], coll9.inputLen p.rank ≤ p.input.length) ∧ [{ peer1 with red := 1 }].all (agrees coll9) = false ∧
    (match reach { collSt with colls := [coll9] } mover9 { store := true } 0x8028 4 with | .ok .. => true | _ => false) = true := by decide +kernel

theorem witness_CollectivesAndQuern_chunk : { collSt with colls := [matched9] }.colls.find? (·.id == 9) = some matched9 ∧ EngineFree { collSt with colls := [matched9] } (cr vmem) 9 5 ∧
    partOk (collStep { collSt with colls := [matched9] } mover9 matched9 [peer1] none) (fun x => x.1.isNone) = true := by
  and_intros <;> decide +kernel

/-- A job that expands one block of zeros. -/
def jobDesc : Nat := 0x9000 + 2 ^ 64 * 0x20000 + 2 ^ 128 * 1 + 2 ^ 160 * 1
def jobSt : State := { one with mem := memWrite tables (hbmKey 0x8000) 64 jobDesc }
def job9 : QuernJob := { id := 9, crew := 5, tid := 0, die := 0, core := 0, pc := 0x1000, desc := 0x8000, src := 0x9000, dst := 0x20000, blocks := 1, expand := true, arw := none }

theorem witness_CollectivesAndQuern_job : Issues jobSt is1 (cr vmem) ∧ recordNum jobSt (cr vmem) (recordLane (env1 jobSt) (thr 0 vmem) 0x8000 64) 64 = jobDesc ∧
    PathClear jobSt (cr vmem) { w := 1, load := true, now := true } [recordLane (env1 jobSt) (thr 0 vmem) 0x8000 64] ∧ jobBad jobDesc = false ∧ jobBad 0 = true ∧ { jobSt with querns := [job9] }.querns.find? (·.id == 9) = some job9 ∧
    (∀ x ∈ { jobSt with querns := [job9] }.querns, x.die = job9.die → job9.id ≤ x.id) ∧ engineStopped { jobSt with querns := [job9] } (cr vmem) 6 = false :=
  ⟨⟨rfl, rfl⟩, by decide +kernel, clear_of (by decide +kernel), by decide +kernel⟩

theorem witness_QuernExpandsWhatItPacked : (List.replicate 65536 (0 : Byte)).length = 65536 := List.length_replicate ..

/-- A block of zeros is packed as nothing. -/
theorem pack_zero {bs : List Byte} (h : ∀ b ∈ bs, b = 0) : packBlock bs = (1, []) := by
  have hl : ∀ l ∈ blockLines bs, zeroLine l = true := by
    intro l hl
    obtain ⟨i, -, rfl⟩ := List.mem_map.1 hl
    exact List.all_eq_true.2 fun b hb => by simpa using h b (List.mem_of_mem_drop (List.mem_of_mem_take hb))
  have hf : (blockLines bs).filter (fun l => !zeroLine l) = [] := List.filter_eq_nil_iff.2 fun l h => by simp [hl l h]
  simp [packBlock, hf]

theorem byte_past {m : List Host.Cell} {k : Nat} (h : ∀ c ∈ m, c.1 < k) : memByte m k = 0 := by
  unfold memByte
  induction m with
  | nil => rfl
  | cons c m ih =>
    change (if k = c.1 then c.2 else mget 0 m k) = 0
    rw [if_neg (by have := h c (by simp); omega)]
    exact ih fun c hc => h c (List.mem_cons_of_mem _ hc)

/-- A job that packs a block of zeros at 0x110000. -/
def pack9 : QuernJob := { job9 with src := 0x110000, dst := 0x140000, expand := false }
def packing : State := { one with querns := [pack9] }
def packKeys : List (Nat × Nat) := (List.range 16).map fun i => (hbmKey (0x110000 + 4096 * i), 4096)

def okPart (s : State) (r : Machine.Part (List (Nat × Nat))) (xs : List (Nat × Nat)) : Bool := match r with
  | .ok s1 ys => decide (s1 = s) && decide (ys = xs)
  | _ => false

theorem part_of {s : State} {r : Machine.Part (List (Nat × Nat))} {xs : List (Nat × Nat)} (h : okPart s r xs = true) : r = .ok s xs := by
  unfold okPart at h
  split at h <;> simp_all

/-- Bytes past the last that memory lists read zero. -/
theorem read_past {s : State} {lo : Nat} {runs : List (Nat × Nat)} (hp : anyPoison s = false) (hg : s.migs = []) (hm : ∀ c ∈ s.mem, c.1 < lo) (hr : ∀ r ∈ runs, lo ≤ r.1) :
    engineRead s runs = ((engineRead s runs).1, false) ∧ ∀ b ∈ (engineRead s runs).1, b = 0 := by
  refine ⟨by simp [engineRead, hp], fun b hb => ?_⟩
  simp only [engineRead, List.mem_map, List.mem_flatMap] at hb
  obtain ⟨k, ⟨r, hk, j, -, rfl⟩, rfl⟩ := hb
  have h0 : homeByte s (r.1 + j) = 0 := by
    unfold homeByte place
    rw [hg]
    exact byte_past fun c hc => by have := hm c hc; have := hr r hk; simp; omega
  simp [h0]

theorem bind_ok {α β : Type} {s t : State} {x : α} {y : β} {r : Machine.Part α} (h : r = .ok s x) {f : State → α → Machine.Part β} (k : f s x = .ok t y) : r.bind f = .ok t y := by
  rw [h]
  simp [Machine.Part.bind, k]

theorem block_ok {α : Type} {s : State} {x : α} {r : Machine.Part α} (h : r = .ok s x) {f : State → α → Machine.Part (BlockEnd × Nat)}
    (k : ∃ w ws pos n, f s x = .ok w (.good ws pos, n)) : ∃ w ws pos n, r.bind f = .ok w (.good ws pos, n) := by
  obtain ⟨w, ws, pos, n, k⟩ := k
  exact ⟨w, ws, pos, n, bind_ok h k⟩

/-- What the work on a block of zeros gives. -/
theorem zero_work {s : State} {m : Mover} {q : QuernJob} {runs : List (Nat × Nat)} (he : q.expand = false) (hq : q.done + 1 = q.blocks)
    (h1 : quernReach s m { load := true } none 1 [(q.src.toNat + 65536 * q.done, 65536)] = .ok s runs) (hr : (engineRead s runs).2 = false) (hz : ∀ b ∈ (engineRead s runs).1, b = 0) :
    quernWork s m q none = .ok s (.good [(q.dst.toNat + 8 * q.done, (byteList 0 (packEntry (engineRead s runs).1) 8).map (·.2) ++ List.replicate (tableLen q.blocks - 8 * q.blocks) 0),
      (q.dst.toNat + tableLen q.blocks + q.pos, [])] q.pos) := by
  unfold quernWork
  dsimp only
  rw [if_pos (by rw [he]; rfl)]
  refine bind_ok h1 ?_
  rw [hr, if_neg Bool.false_ne_true, if_pos hq, pack_zero hz]
  rfl

/-- A block of zeros, the last of its job, whose places can be reached is worked. -/
theorem zero_block {s : State} {m : Mover} {q : QuernJob} {runs dsts stat : List (Nat × Nat)} (he : q.expand = false) (hq : q.done + 1 = q.blocks)
    (h1 : quernReach s m { load := true } none 1 [(q.src.toNat + 65536 * q.done, 65536)] = .ok s runs) (hr : (engineRead s runs).2 = false) (hz : ∀ b ∈ (engineRead s runs).1, b = 0)
    (h2 : quernReach s m { store := true } none 2 [(q.dst.toNat + 8 * q.done, 8 + (tableLen q.blocks - 8 * q.blocks)), (q.dst.toNat + tableLen q.blocks + q.pos, 0)] = .ok s dsts)
    (h3 : reachSide s m { store := true } none 5 [(q.desc.toNat + 24, 12)] = .ok s stat) : ∃ w ws pos n, quernStep s m q none = .ok w (.good ws pos, n) := by
  unfold quernStep
  refine block_ok (zero_work he hq h1 hr hz) ?_
  dsimp only
  rw [if_pos hq]
  exact block_ok (x := dsts) (s := s) (by simpa [byteList, Nat.add_comm 8] using h2) (block_ok h3 ⟨_, _, _, _, rfl⟩)

theorem witness_CollectivesAndQuern_block : packing.querns.find? (·.id == 9) = some pack9 ∧ getCrew packing 5 = some (cr vmem) ∧ EngineFree packing (cr vmem) 9 6 ∧ (∀ x ∈ packing.querns, x.die = 0 → 9 ≤ x.id) ∧ (∀ x ∈ packing.expansions, x.1 ≠ pack9.die) ∧
    ∃ w ws pos n, quernStep packing mover9 pack9 none = .ok w (.good ws pos, n) := by
  obtain ⟨-, hz⟩ := read_past (s := packing) (lo := 0x110000) (runs := packKeys) (by decide +kernel) rfl (by decide +kernel) (by decide +kernel)
  exact ⟨by decide +kernel, by decide +kernel, free_of (by decide +kernel), by decide +kernel, by decide +kernel,
    zero_block rfl rfl (part_of (by decide +kernel)) (by decide +kernel) hz (part_of (xs := [(hbmKey 0x140000, 64)]) (by decide +kernel)) (part_of (xs := [(hbmKey 0x8018, 12)]) (by decide +kernel))⟩

/-! ### Rays and pipes -/

/-- A ray from the origin along z, its limits 0 and 1; its scene at 0x8000; the second takes FP64 registers it does not have. -/
def rayRegs : SMap Word := [(22, 0x3F800000), (23, 0x3F800000), (2, 0x8000), (24, 0x9000), (26, 0xB000)]
def rayArgs (m : BitVec 8 := 0) (d : Opnd := .none) : Args := ar (m := m) (d := d) (a := .v 16) (b := .v 2)
def raySt : State := { st rayRegs is1 with contexts := [{ ctx0 with telem := 0 }] }
def askOf (a : Args) : TraceAsk := traceAsk a (cr rayRegs) (thr 0 rayRegs)

theorem witness_Rays_trace : Issues raySt is1 (cr rayRegs) ∧ active (cr rayRegs) is1 g7 = [thr 0 rayRegs] ∧ (askOf (rayArgs)).scene % 64 = 0 ∧ (askOf (rayArgs)).log = none ∧ (askOf (rayArgs 0x10 (.v 24))).log = some 0x9000 ∧
    globalEa raySt (cr rayRegs) 0 0x9000 = true ∧ traceFits raySt (cr rayRegs) 0 (askOf (rayArgs)) = true ∧ traceFits { raySt with bar := { raySt.bar with rayAdmit := 0 } } (cr rayRegs) 0 (askOf (rayArgs)) = false ∧
    rayBad raySt 0 (askOf (rayArgs)) = false ∧ rayBad raySt 0 (askOf (ar (a := .v 40) (b := .v 2))) = true ∧ threadSlots raySt 5 0 = 0 := ⟨⟨rfl, rfl⟩, by decide +kernel⟩

def hit1 : Hit := { t := 0x3FE0000000000000, inst := 0, prim := 0 }
def slot8 (rs : List RayRecord) : RaySlot := { id := 8, idx := 0, crew := 5, tid := 0, pc := 0x1000, scene := 0x8000, ctrl := 0, f64 := false, logged := false, ray := 9, events := rs }
def ray9 (p : RayPlace) : Ray :=
  { id := 9, slot := 8, crew := 5, tid := 0, ctx := 0, pc := 0x1000, org := [0, 0, 0], tmin := 0, dir := [0, 0, 0x3FF0000000000000], tmax := 0x3FF0000000000000, f64 := false, ctrl := 0, mode := .closest,
    cullB := false, cullF := false, opq := false, fany := false, log := none, sceneVa := 0x8000, home := 0, admitted := true, reserved := 0, place := p }
def final8 : RayRecord := { hit := some hit1, event := 1 }
def cand8 : RayRecord := { hit := some hit1, event := 3 }
def fault8 : RayRecord := { hit := none, event := 0, status := 2, fault := some { code := 6 } }
def delivered (rs : List RayRecord) : State := { raySt with slots := [slot8 rs] }

theorem witness_Rays_hitld : firstEvent (delivered [final8]) 5 0 = some (slot8 [final8], final8) ∧ final8.status ≠ 2 ∧ codeVa final8 = none ∧ candidateEvent final8.event = false ∧ candidateEvent cand8.event = true ∧
    firstEvent (delivered []) 5 0 = none ∧ threadSlots (delivered []) 5 0 ≠ 0 ∧ firstEvent (delivered [fault8]) 5 0 = some (slot8 [fault8], fault8) ∧ fault8.status = 2 := by decide +kernel

theorem witness_Rays_room : is1.tids.Nodup ∧ coreSlots raySt 0 + 1 ≤ 4096 ∧ (raySt.rays.filter (·.admitted)).length + 1 ≤ raySt.bar.rayAdmit ∧
    extUsed raySt + ([thr 0 rayRegs].map fun t => extNeed raySt 0 (traceAsk (rayArgs) (cr rayRegs) t)).sum ≤ raySt.bar.extAdmit := by and_intros <;> decide +kernel

/-- A record whose callback row stands at 0x9000, where no callback is named; a code address that is misaligned. -/
def called8 : RayRecord := { final8 with row := 0x9000 }
def calledLane : LaneAcc := recordLane (envOf (delivered [called8]) is1 (cr rayRegs) g7) (thr 0 rayRegs) ((codeVa called8).getD 0) 8

theorem witness_Rays_callback : firstEvent (delivered [called8]) 5 0 = some (slot8 [called8], called8) ∧ (codeVa called8).isSome = true ∧ called8.status ≠ 2 ∧
    PathClear (delivered [called8]) (cr rayRegs) { w := 1, load := true, now := true } [calledLane] ∧ (delivered [called8]).stores = [] ∧ anyPoison (delivered [called8]) = false ∧
    codeBad (recordNum (delivered [called8]) (cr rayRegs) calledLane 8) = false ∧ codeBad 4 = true := by and_intros <;> decide +kernel

/-- A thread that holds a candidate, of each event; t values inside and outside the ray's limits. -/
def decider : Crew := { cr rayRegs with threads := [{ thr 0 rayRegs with candidate := some 8 }, thr 1] }
def deciding (ev : Nat) : State := { raySt with crews := [decider], slots := [slot8 []], rays := [{ ray9 (.suspended 0) with cand := some (hit1, ev) }] }

theorem witness_Rays_hitrep : Issues (deciding 3) is1 decider ∧ (active decider is1 g7).map (·.candidate) = [some 8] ∧ (thr 0).candidate = none ∧ getSlot (deciding 4) 8 = some (slot8 []) ∧
    (getRay (deciding 4) 9).bind (·.cand) = some (hit1, evCustom) ∧ (getRay (deciding 5) 9).bind (·.cand) = some (hit1, evUnresolved) ∧ evCustom ≠ evAnyHit ∧ (ray9 (.suspended 0)).f64 = bitAt 0x00 4 ∧
    (fp32.dec 0x7FC00000).isNan = true ∧ (fp32.dec 0x40000000).isNan = false ∧ (fp64.dec 0x3FF0000000000000).lt (fp32.dec 0x40000000) = true ∧ (fp32.dec 0xBF800000).lt (fp64.dec 0) = true ∧
    (fp32.dec 0x3F000000).isNan = false ∧ (fp32.dec 0x3F000000).lt (fp64.dec 0) = false ∧ (fp64.dec 0x3FF0000000000000).lt (fp32.dec 0x3F000000) = false := ⟨⟨rfl, rfl⟩, by decide +kernel⟩

def sent9 : State := { raySt with rays := [ray9 (.sent 0)] }
def hold7 : HeldTreelet := { id := 7, ctx := 0, entry := 0x9020, since := 0 }
def holding (h : HeldTreelet) : State := { raySt with held := [h], rays := [{ ray9 (.leat 0) with treelet := 1, entry := 0x9020 }], cycle := 0x04000000 }

theorem witness_RayMovesAndPublications_moves : getRay sent9 9 = some (ray9 (.sent 0)) ∧ (ray9 (.sent 0)).treelet = 0 ∧ getCrew sent9 5 = some (cr rayRegs) ∧ (ray9 (.sent 0)).log = none ∧
    (({ raySt with rays := [ray9 (.pond 0)] } : State).rays.map (·.id)).Nodup ∧ ((ray9 (.pond 0)).bytes) ≤ 4096 ∧ leatBytes { raySt with rays := [ray9 (.pond 0)] } 0 + (ray9 (.pond 0)).bytes ≤ 2 ^ 25 ∧
    ({ raySt with rays := [ray9 (.leat 0)] } : State).rays.filter (fun r => r.queuedAt 0) = [ray9 (.leat 0)] ∧ ctxOff raySt 0 = false ∧ freePipes { raySt with rays := [ray9 (.leat 0)] } 0 ≠ [] ∧ (ray9 (.leat 0)).treelet = 0 ∧ raySt.hw.pipesDue = [] ∧
    { hold7 with expired := true }.expired = true ∧ heldAt { raySt with held := [{ hold7 with expired := true }] } 0 0x9020 = some { hold7 with expired := true } ∧
    (holding hold7).held.find? (fun y => y.id == 7 && !y.expired) = some hold7 ∧ ctx0.holdLimit ≤ (holding hold7).cycle - hold7.since ∧ (holding hold7).rays.all (waitsIn 0 0x9020) = true := by decide +kernel

theorem witness_RayMovesAndPublications_numbered : RaysNumbered (holding hold7) := by unfold RaysNumbered; decide +kernel

/-- A scene of two treelets at 0x8000, its table at 0x9000, whose entry 1 is well formed. -/
def sceneDesc : Nat := 2 ^ 64 * 0x9000 + 2 ^ 128 * 2
def scenic : State := { raySt with mem := memWrite tables (hbmKey 0x8000) 64 sceneDesc }
def pubRegs : SMap Word := [(2, 0x8000), (4, 1)]
def pub7 : PubReq := { id := 7, crew := 5, tid := 0, dst := none, ctx := 0, entry := 0x9020 }
def pubSt : State := { st pubRegs is1 with mem := scenic.mem }
def envP : Env := envOf pubSt is1 (cr pubRegs) g7

theorem witness_RayMovesAndPublications_publish : Issues pubSt is1 (cr pubRegs) ∧ active (cr pubRegs) is1 g7 = [thr 0 pubRegs] ∧ rd (cr pubRegs) (thr 0 pubRegs) (.v 2) 2 % 64 = 0 ∧ rd (cr pubRegs) (thr 0 pubRegs) (.v 8) 1 = 0 ∧
    rd (cr pubRegs) (thr 0 pubRegs) (.v 4) 1 = 1 ∧ pubSt.stores = [] ∧ anyPoison pubSt = false ∧ PathClear pubSt (cr pubRegs) { w := 1, load := true, now := true } [recordLane envP (thr 0 pubRegs) 0x8000 64] ∧
    (sceneOf (recordNum pubSt (cr pubRegs) (recordLane envP (thr 0 pubRegs) 0x8000 64) 64)).map (·.1.count) = some 2 ∧ PathClear pubSt (cr pubRegs) { w := 1, load := true, now := true } [recordLane envP (thr 0 pubRegs) 0x9020 32] ∧
    entryBad (recordNum pubSt (cr pubRegs) (recordLane envP (thr 0 pubRegs) 0x9020 32) 32) = false ∧ pubSt.pubs = [] ∧ heldAt pubSt 0 0x9020 = none ∧ heldAt (holding hold7) 0 0x9020 = some hold7 ∧
    NoStoresOut pubSt is1 (cr pubRegs) g7 ∧ { holding hold7 with pubs := [pub7] }.pubs = [pub7] ∧ pub7.old = none ∧ insidePage 0 0 { ray9 (.inside 0) with treelet := 1, entry := 0x9020 } = true :=
  ⟨⟨rfl, rfl⟩, by and_intros <;> decide +kernel⟩

/-- Addresses for the pipes: descriptors at 0x8000, a log at 0x9000, a record at 0xB000, a buffer at scratchpad byte 64. -/
def pipeRegs : SMap Word := [(2, 0x8000), (4, 64), (5, 0xFF000000), (6, 0x9000), (8, 0xB000)]

theorem witness_FilterVisibilityAndReplay_issue : Issues (st pipeRegs is1) is1 (cr pipeRegs) ∧ active (cr pipeRegs) is1 g7 = [thr 0 pipeRegs] ∧ rd (cr pipeRegs) (thr 0 pipeRegs) (.v 2) 2 % 128 = 0 ∧
    globalEa (st pipeRegs is1) (cr pipeRegs) 0 (0x9000 / 8) = true ∧ rd (cr pipeRegs) (thr 0 pipeRegs) (.v 4) 2 % 16 = 0 ∧
    (match steer (st pipeRegs is1) (cr pipeRegs) 0 (BitVec.ofNat 64 (rd (cr pipeRegs) (thr 0 pipeRegs) (.v 4) 2)) 4 with | .bank k none => keySpace k == 16384 + 5 | _ => false) = true ∧
    (arwFail (st pipeRegs is1) (cr pipeRegs) 0 (rd (cr pipeRegs) (thr 0 pipeRegs) (.v 4) 2)).isNone = true ∧ rd (cr pipeRegs) (thr 0 pipeRegs) (.v 6) 2 % 4096 = 0 ∧ rd (cr pipeRegs) (thr 0 pipeRegs) (.v 8) 2 % 64 = 0 :=
  ⟨issues _ _ rfl, by decide +kernel⟩

def pipeRay : Ray := { ray9 (.inside 0) with entered := true }
def piping : State := { raySt with rays := [pipeRay], slots := [slot8 []] }
def overTail : Ray := { ray9 (.inside 0) with tail := [cand8] }
def mover8 : Mover := { req := 9, crew := cr rayRegs, tid := 0 }

/-- A suspended ray whose candidate has been decided. -/
def decided9 : Ray := { ray9 (.suspended 0) with entered := true, cand := some (hit1, evAnyHit), decision := some { dec := 2, hit := hit1 } }
def decidedSt : State := { raySt with rays := [decided9], slots := [slot8 []] }

theorem witness_FilterVisibilityAndReplay_suspended : decided9.place = .suspended 0 ∧ decided9.decision.isSome = true ∧ pipeFor decidedSt 0 decided9 = some decided9.pipe ∧ ctxOff decidedSt 0 = false ∧
    engineHeld decidedSt 9 = false ∧ (takeFault decidedSt 9).isNone = true ∧ engineStopped decidedSt (cr rayRegs) 3 = false ∧ partOk (rayStep decidedSt mover8 decided9 none) (fun _ => true) = true := by and_intros <;> decide +kernel

theorem witness_FilterVisibilityAndReplay_rays : getRay piping 9 = some pipeRay ∧ getCrew piping 5 = some (cr rayRegs) ∧ engineHeld piping 9 = false ∧ (takeFault piping 9).isNone = true ∧ engineStopped piping (cr rayRegs) 3 = false ∧
    partOk (rayStep piping mover8 pipeRay none) (fun _ => true) = true ∧
    (match rayStep piping mover8 (ray9 (.inside 0)) none with | .stop .. => true | _ => false) = true ∧
    getSlot piping 8 = some (slot8 []) ∧ overTail.tail = cand8 :: [] ∧ ((cr rayRegs).thread 0).any (·.live) = true ∧ (ray9 .ended).tail = [] ∧ (slot8 []).received = (ray9 .ended).sent ∧ (cr rayRegs).thread 0 = some (thr 0 rayRegs) := by decide +kernel

def tex : Nat := 0x9000 + 2 ^ 64 * 64 + 2 ^ 128 * 1 + 2 ^ 144 * 1 + 2 ^ 160 * 1 + 2 ^ 176 * 1 + 2 ^ 192 * 1 + 2 ^ 208 * 1
def filter9 : FilterReq := { id := 9, crew := 5, tid := 0, pc := 0x1000, hgrid := false, desc := 0x8000, args := [0, 0, 0, 0], dst := some (10, false), reshade := none }
def filtering : State := { raySt with mem := memWrite tables (hbmKey 0x8000) 64 tex, filters := [filter9] }
def replay9 : ReplayReq := { id := 9, crew := 5, tid := 0, pc := 0x1000, ray := [0, 0, 0, 0, 0, 0, 0, 0], log := 0x9000, dst := 0xB000, mask := 0 }
def replaying : State := { raySt with replays := [replay9] }

theorem witness_FilterVisibilityAndReplay_filter : filtering.filters.find? (·.id == 9) = some filter9 ∧ EngineFree filtering (cr rayRegs) 9 4 ∧ partOk (filterStep filtering mover8 filter9 none) (fun _ => true) = true ∧
    replaying.replays.find? (·.id == 9) = some replay9 ∧ EngineFree replaying (cr rayRegs) 9 3 ∧ partOk (replayStep replaying mover8 replay9 none) (fun _ => true) = true :=
  by and_intros <;> decide +kernel

/-- A visibility pass over one block of no triangles, on 8 by 8 pixels and on 16 by 8. -/
def visDesc (w : Nat) : Nat := 0x9000 + 2 ^ 64 * 1 + 2 ^ 128 * 0xB000 + 2 ^ 192 * w + 2 ^ 208 * 8
def vis9 : VisReq := { id := 9, crew := 5, tid := 0, pc := 0x1000, desc := 0x8000, arw := none, stack := 0 }
def seeing (w : Nat) (r : VisReq) : State := { raySt with mem := memWrite tables (hbmKey 0x8000) 128 (visDesc w), vis := [r] }
def seen (w : Nat) : VisReq := { vis9 with params := some (visDesc w) }

theorem witness_FilterVisibilityAndReplay_visibility : (seeing 8 vis9).vis.find? (·.id == 9) = some vis9 ∧ EngineFree (seeing 8 vis9) (cr rayRegs) 9 3 ∧ (∀ x ∈ (seeing 8 vis9).vis, x.stack = 0 → 9 ≤ x.id) ∧
    partOk (visRead (seeing 8 vis9) mover8 vis9 none 5 0x8000 128) (fun x => !visBad x.1) = true ∧ (seen 8).next < 4 * (visPass (visDesc 8)).blocks ∧ ¬ { seen 8 with next := 4 }.next < 4 * (visPass (visDesc 8)).blocks ∧
    partOk (visBlock (seeing 8 (seen 8)) mover8 (seen 8) none (visPass (visDesc 8)) 0) (fun _ => true) = true ∧
    partOk (visTile (seeing 8 (seen 8)) mover8 { seen 8 with binned := [(0, [0])] } none (visPass (visDesc 8)) 0) (fun _ => true) = true ∧
(let b := [(0, [0])]; ((visPass (visDesc 16)).tiles.drop 1).find? (fun t => b.any fun b => b.2.contains t) = none) ∧ (let b := [(0, [1])]; ((visPass (visDesc 16)).tiles.drop 1).find? (fun t => b.any fun b => b.2.contains t) = some 1) :=
  by and_intros <;> decide +kernel

/-- A pond whose bins take no room holds none. -/
theorem witness_FilterVisibilityAndReplay_bins : binsHold { raySt with bar := { raySt.bar with pondBins := [(0, 0)] } } 0 1 = false := by
  simp [binsHold, mget]

/-! ### The tile sequencer, watched waits, translation and migration -/

/-- A request that takes a step now, and what is asked of the step. -/
def runsB (s : State) (id : Nat) (st : TileStep) (slot : Nat) (f : State → TileReq → Mover → Node → Bool) : Bool :=
  let s1 := (beginStep s id).1
  (beginStep s id).2.any fun x => nextStep s1 x.1 == st && (takeFault s1 id).isNone &&
    ((s.tileReqs.find? (·.id == id)).any fun r0 => nextStep s r0 == st && r0.node == x.1.node) && (nodeAt s1 x.1.core slot).any fun n => f s1 x.1 x.2 n

theorem tile_runs {s : State} {id : Nat} {st : TileStep} {slot : Nat} {f : State → TileReq → Mover → Node → Bool} (h : runsB s id st slot f = true) :
    ∃ s1 r m n, TileRuns s id st slot s1 r m n ∧ f s1 r m n = true := by
  rcases e : beginStep s id with ⟨s1, o⟩
  simp [runsB, e, Option.any_eq_true] at h
  rcases h with ⟨r, m, rfl, ⟨⟨hs, hf⟩, r0, h0, hs0, hn0⟩, n, hn, hk⟩
  exact ⟨s1, r, m, n, { request := ⟨r0, h0, hs0, hn0⟩, begun := e, step := hs, node := hn, calm := hf }, hk⟩

def tile9 (node : Nat) (goal : TileGoal) (vs : List TileVals := []) (part : Option (Nat × List Nat) := none) : TileReq :=
  { id := 9, core := 0, crew := 5, tids := [0], hgang := 0, pc := 0x1000, node := node, win := { r0 := 0, c0 := 0, rows := 8, cols := 8 }, goal := goal, gen := false, phase := .running, values := vs, part := part }
def stage2 : Node := { src0 with slot := 2, kind := .stage, stage := some recS }
def tmm3 : Node := { x0 with slot := 3, kind := .tmm, ops := [0, 1], rec_ := none, watching := false }
def neg4 : Node := { tmm3 with slot := 4, kind := .tew, sub := 5, ops := [0] }
def dst8 : TileGoal := .store { rec8 with watch := false } 0 0
def sequencing (r : TileReq) : State := { thk with nodes := [x0, y1, stage2, tmm3, neg4], tileReqs := [r] }
def vals0 : TileVals := { slot := 0, win := { r0 := 0, c0 := 0, rows := 8, cols := 8 }, bits := List.replicate 64 0 }

theorem witness_TileSequencer_stage : ∃ s1 r m n, TileRuns (sequencing (tile9 2 dst8)) 9 (.stage 2) 2 s1 r m n ∧ (match n.rec_, n.stage with
    | some src, some dst => (match openRec s1 m false none src (cutPieces (recPieces src) 0 4096) with
      | .ok s2 _ => partOk (openRec s2 m true none dst (cutPieces (recPieces dst) 0 4096)) fun _ => true
      | _ => false) && !anyPoison s1
    | _, _ => false) = true := tile_runs (by decide +kernel)

theorem witness_TileSequencer_kstep : ∃ s1 r m n, TileRuns (sequencing (tile9 3 (.tile 0))) 9 (.kstep 3) 3 s1 r m n ∧ ((productArgs s1 n).any fun x =>
    (match readWin s1 m none x.2.1 { r0 := 0, c0 := 0, rows := 8, cols := 8 } with
      | .ok s2 a => a.2.isNone && partOk (readWin s2 m none x.2.2.2 { r0 := 0, c0 := 0, rows := 8, cols := 8 }) fun b => b.2.isNone
      | _ => false)) = true := tile_runs (by decide +kernel)

theorem witness_TileSequencer_promote : ∃ s1 r m n, TileRuns (sequencing (tile9 3 (.tile 0) [] (some (1, List.replicate 64 0)))) 9 (.promote 3) 3 s1 r m n ∧
    ((productArgs s1 n).isSome && r.part.isSome && bitsOf n.word.toNat 13 12 != 1 && (getCrew s1 m.crew.uid).isSome && kSteps s1 n == 1) = true := tile_runs (by decide +kernel)

theorem witness_TileSequencer_pass : (∃ s1 r m n, TileRuns (sequencing (tile9 0 dst8)) 9 (.pass 0) 0 s1 r m n ∧ (n.kind.isDef && (nodeAt s1 r.core r.node).isSome && partOk (nodeVals s1 m none r n r.win) fun x => x.2.isNone) = true) ∧
    ∃ s1 r m n, TileRuns (sequencing (tile9 4 dst8)) 9 (.pass 4) 4 s1 r m n ∧
      (!n.kind.isDef && n.kind != .tmm && n.state != .done && partOk (gatherOps m none r r.core (operandWins s1 n r.win) s1) fun x => x.2.isNone) = true :=
  ⟨tile_runs (by decide +kernel), tile_runs (by decide +kernel)⟩

theorem witness_TileSequencer_chunk : (∃ s1 r m n, TileRuns (sequencing (tile9 0 dst8 [vals0])) 9 .chunk 0 s1 r m n ∧ partOk (storeRegion s1 r m n { rec8 with watch := false } none) (fun _ => true) = true) ∧
    ∃ s1 r m n, TileRuns (sequencing (tile9 0 (.tile 0) [vals0])) 9 .chunk 0 s1 r m n ∧ (r.values.find? (·.slot == n.slot)).isSome = true :=
  ⟨tile_runs (by decide +kernel), tile_runs (by decide +kernel)⟩

def parker : Crew := { cr vthk with threads := [{ thr 0 vthk with hold := .parked (.tile 9) }, thr 1] }
def waitNode : Node := { src0 with slot := 5, kind := .wait, watching := false, addr := 0xFF00000000000040 }
def awaiting (gen : Word) (p : TilePhase) : State := { thk with nodes := [{ waitNode with word := gen }], tileReqs := [{ tile9 5 dst8 with phase := p }] }
def finished : State := { thk with crews := [parker], tileReqs := [tile9 7 .implicit] }
def aside9 : TileReq := { tile9 0 dst8 with phase := .aside }

theorem witness_TileSequencer_ends : finished.tileReqs.find? (·.id == 9) = some (tile9 7 .implicit) ∧ getCrew finished 5 = some parker ∧ seqRuns finished (tile9 7 .implicit) = true ∧ nextStep finished (tile9 7 .implicit) = .done ∧
    (parker.thread 0).map (·.hold) = some (.parked (.tile 9)) ∧ ({ tile9 0 dst8 with fault := some ({ code := 6 }, 0, 1) } : TileReq).fault.isSome = true ∧
    (sequencing aside9).tileReqs.find? (fun q => q.id == 9 && q.phase == .aside) = some aside9 ∧ waitOver (sequencing aside9) aside9 = true ∧ seqRuns (sequencing aside9) aside9 = true ∧
    nextStep (awaiting 1 .running) (tile9 5 dst8) = .wait 5 ∧ nodeAt (awaiting 1 .running) 0 5 = some { waitNode with word := 1 } ∧
    (match arrivalKey (awaiting 1 .running) { req := 9, crew := cr vthk, tid := 0 } waitNode.addr with | .ok k => BitVec.ofNat 32 (memRead (awaiting 1 .running).mem (k + 8) 4) == 0 | _ => false) = true := by decide +kernel

/-- A crew whose vclk stands at the limit, and threads that wait; one that waits at barrier 3. -/
def old (h : Hold) : Crew := { cr with vclk := 0x01000000, counted := 0x01000000, threads := [{ thr 0 with hold := h }, thr 1], barriers := [(3, { mode := some 0, stall := 0x01000000 })], regangStall := [(0, 0x01000000)] }
def oldSt (h : Hold) : State := { st with crews := [old h] }

theorem witness_WatchedWaits : countingCrew (oldSt (.wait 0 0)) 5 = some (old (.wait 0 0)) ∧ (old (.wait 0 0)).thread 0 = some { thr 0 with hold := .wait 0 0 } ∧ stallLimitOf (oldSt (.wait 0 0)) (cr) ≤ (old (.wait 0 0)).counted - 0 ∧ (thr 0).live = true ∧
    countingCrew (oldSt (.bar 3 0)) 5 = some (old (.bar 3 0)) ∧ (∃ t ∈ (old (.bar 3 0)).threads, waitsAt 3 (barrierOf (old (.bar 3 0)) 3).phase t = true) ∧ 0x01000000 ≤ (barrierOf (old (.bar 3 0)) 3).stall ∧
    (∃ t ∈ (old .regang).threads, t.live = true ∧ (old .regang).hgang t.tid = 0 ∧ t.hold = .regang) ∧ 0x01000000 ≤ mget 0 (old .regang).regangStall 0 ∧
    ctx0.meetLimit ≤ (old (.meet 0)).vclk.toNat - 0 ∧ ageLimitOf (st) 0 ≤ ({ thr 0 with age := 4096 } : Thread).age := by decide +kernel

/-- Walks: to a leaf, to a busy one, to a malformed entry, to none; a fault request that is outstanding; an invalidation. -/
def walk3 (f : Bool) : Walk := { id := 3, ctx := 0, die := 0, core := 0, va := 0x400000, faulted := f }
def walking (entry : Nat) (f : Bool := false) : State :=
  { st with mem := memWrite tables 0x103010 8 entry, walks := [walk3 f], crews := [{ cr with threads := [{ thr 0 with hold := .parked (.walk 3 0x400000) }, thr 1] }] }
def entryI (h : Nat) : TlbEntry := { ctx := 0, die := 0, core := some 0, va := h, log2 := 21, leaf := placeLeaf }
def invalidating : State := { st with contexts := [{ ctx0 with xltInv := [1] }] }

theorem witness_TranslationEvents : (walking 0x200383).walks.find? (fun x => x.id == 3 && !x.faulted) = some (walk3 false) ∧ walkTree (walking 0x200383) 0 0x400000 = .leaf leaf4 21 0x103010 ∧ leaf4.compressed = false ∧ leaf4.busy = false ∧
    walkTree (walking 0x200783) 0 0x400000 = .leaf { leaf4 with busy := true } 21 0x103010 ∧ walkTree (walking 0x201383) 0 0x400000 = .malformed ∧ walkTree (walking 0) 0 0x400000 = .invalid ∧
    (parkedOn (walking 0) (onWalk 3)).length = 1 ∧ (walking 0 true).walks.find? (fun x => x.id == 3 && x.faulted) = some (walk3 true) ∧ (cr).where_ = .resident ∧ walkWaits (walking 0) 0 0x400000 = false ∧ walkShut (walking 0) 0 0x400000 = false ∧ walkWaits (fenced 0 (walking 0)) 0 0x400000 = true ∧ (walk3 false).busy = false ∧ hasWalker (walking 0) (walk3 false) = true ∧
    hasWalker { walking 0 with walks := (List.range 64).map fun i => { walk3 false with id := 100 + i } } (walk3 false) = false ∧ xltInvOk 1 = true ∧ xltInvOk 0 = false ∧
    getCtx invalidating 0 = some { ctx0 with xltInv := [1] } ∧ storesFlying invalidating 0 = false ∧ invNames 1 (entryI 0) = true := by decide +kernel

def mig9 (n : Nat) : Migration := { id := 9, ctx := 0, va := 0x400000, olds := [hbmKey 0x200000], piece := 2 ^ 21, newKey := hbmKey 0x4000000000, line := n }
def migrating (n : Nat) : State := { plain4 with contexts := [ctx0], migs := [mig9 n] }
/-- Its last line moved, its leaf busy. -/
def shut9 : Migration := { mig9 32768 with shut := true }
def asked4 : State := { plain4 with contexts := [{ ctx0 with hints := [[(0x400000, 1)]] }] }

theorem witness_MigrationAndBinFloor : askedDie asked4 0 0x400000 = some 1 ∧ movable asked4 0 0x400000 1 = true ∧ movable asked4 0 0x400000 0 = false ∧ bitsOf 0x4000000000 39 38 = 1 ∧ pageFrames asked4 0 0x400000 = some ([hbmKey 0x200000], 2 ^ 21) ∧ [hbmKey 0x200000].all (frameEgressOk asked4 (2 ^ 21)) = true ∧ asked4.migs = [] ∧
    (migrating 0).migs.find? (·.id == 9) = some (mig9 0) ∧ (mig9 0).line < 32768 ∧ 32768 ≤ (mig9 32768).line ∧ flyingTo (migrating 32768) (mig9 32768) = false ∧ flyingTo { migrating 32768 with stores := [{ store7 with bytes := [(hbmKey 0x200000, 1)] }] } shut9 = true ∧ inPlace (migrating 32768) (mig9 32768) = true ∧
    inPlace { migrating 32768 with mem := tables } (mig9 32768) = false ∧ (mig9 32768).shut = false ∧ shut9.shut = true ∧ level1Key (migrating 32768) 0 0x400000 = some 0x103010 ∧
    (pageLeaves (migrating 32768) 0 0x400000).map (·.length) = some 1 ∧ binTransfers (st) 0 0 = false ∧ binTransfers { st with tileReqs := [tile9 3 (.tile 0)] } 0 50 = true ∧ (8#32).toNat ≤ 8 ∧ 8 < (9#32).toNat ∧
    (coreOf { st with cores := [(0, { mb := 2, change := [{ mb := 1, who := none }] })] } 0).change = { mb := 1, who := none } :: [] := by decide +kernel

/-! ### Traps, switches, queues, the host, repair -/

/-- A context whose trap ring stands at 0x8000, with a handler; a crew halted in a phase. -/
def ctxTrap : Context := { ctx0 with trapRing := 0x8000, trapSlots := 4, trapPc := 0x3000 }
def haltOf (p : HaltPhase) : Halt := { phase := p, trap := { code := 1 }, pc := 0x1000, since := 0 }
def halted (p : HaltPhase) (w : Residence := .away) : Crew := { cr with halt := some (haltOf p), where_ := w }
def haltSt (p : HaltPhase) (w : Residence := .away) : State := { st with contexts := [ctxTrap], crews := [halted p w], cycle := 12, issue := none }

theorem witness_TrapsReachHandlers : (getCrew (haltSt .skid .resident) 5 = some (halted .skid .resident) ∧ (haltOf .skid).phase = .skid ∧ (haltOf .skid).since + 12 ≤ (haltSt .skid .resident).cycle ∧ ¬ (haltOf .skid).since + 12 ≤ (st).cycle ∧ genCrew.kind = .gen 0 0 0 0) ∧
    (getCrew (haltSt .saving) 5 = some (halted .saving) ∧ crewStill (haltSt .saving) (halted .saving) = true ∧ crewStill { haltSt .saving with loads := [load7] } (halted .saving) = false ∧
      store7 ∈ busy.stores ∧ store7.crew = 5 ∧ store7.holds busy 2 = true ∧ (haltSt .toPost).stores = [] ∧ getCtx (haltSt .toPost) 0 = some ctxTrap ∧ ctxOff (haltSt .toPost) 0 = false ∧ ctxTrap.trapPc ≠ 0 ∧ ctx0.trapPc = 0 ∧ (halted .toPost).isHandler = false) ∧
    (devNum (haltSt .toPost) 0 (0x8000 + 512 * 0 + 6) 1 = some 0 ∧ devNum { haltSt .toPost with mem := memWrite tables (hbmKey 0x8006) 1 1 } 0 (0x8000 + 512 * 0 + 6) 1 = some 1 ∧ devNum (haltSt .toPost) 0 0x400006 1 = none) ∧
    (handlerCore (haltSt (.posted 0 true)) (halted (.posted 0 true)) = some 0 ∧ (haltOf (.posted 0 true)).phase = .posted 0 true) ∧
    (devWrite (haltSt .toPost) 0 0x8000 (fieldBytes 512 (trapRecord (halted .toPost) (haltOf .toPost) 1))).isSome = true ∧
    (passStores (haltSt .toPost) 2 5 [0, 1] = haltSt .toPost ∧ devHeld (haltSt .toPost) 0 0x8000 512 = false ∧ abortHeld (haltSt .toPost) (halted .toPost) = false ∧ devHeld (fenced 0 (haltSt .toPost)) 0 0x8000 512 = true) :=
  ⟨by decide +kernel, by and_intros <;> decide +kernel, by decide +kernel, by decide +kernel, write_low (k := hbmKey 0x103000) (by decide +kernel) (by decide +kernel) (by decide +kernel), rfl, by decide +kernel⟩

def noRoom : State := { haltSt (.disposed 0 0) with cores := (List.range 256).map fun i => (i, { retired := true }) }

theorem witness_Dispositions : getCrew (haltSt (.disposed 0 1)) 5 = some (halted (.disposed 0 1)) ∧ restoreCore (haltSt (.disposed 0 0)) (halted (.disposed 0 0)) = some 0 ∧ restoreCore noRoom (halted (.disposed 0 0)) = none ∧
    ctxOff (haltSt (.disposed 0 0)) 0 = false ∧ (haltOf (.disposed 0 2)).phase = .disposed 0 2 ∧ (haltOf (.disposed 0 3)).phase = .disposed 0 3 ∧ getRun (st) 3 = some run3 ∧ run3.state ≠ .complete ∧ run3.state ≠ .aborted ∧
    abortHeld (haltSt (.disposed 0 3)) (halted (.disposed 0 3)) = false ∧ (haltSt (.disposed 0 0)).waiters = [] ∧ (halted (.disposed 0 0)).image = none := by decide +kernel

/-- A context that may be switched out, one being switched, and one that is out and whose descriptor stands at 0x10000. -/
def switchable : State := { st with contexts := [{ ctx0 with saveSize := 2 ^ 20 }] }
def coll0 (p : CollectorPhase) : Collector := { ctx := 0, die := 0, phase := p, since := 0, bits := [0] }
def collecting (p : CollectorPhase) : State := { st with collectors := [coll0 p], cycle := 12, crews := [cr] }
def descOut : Nat := 0x100000 + 2 ^ 320 * 0x8000 + 2 ^ 384 * 1 + 2 ^ 448 * 0x20000 + 2 ^ 512 * 0x10000 + 2 ^ 576 * 0x40000 + 2 ^ 704 * 1
def outSt (v : Nat) : State := { st with mem := memWrite tables (hbmKey 0x10000) 256 v, contexts := [{ ctx0 with desc := 0x10000, out := true }], crews := [{ cr with where_ := .away, switched := true }] }

theorem witness_ContextSwitches_out : (getCtx switchable 0 = some { ctx0 with saveSize := 2 ^ 20 } ∧ ctxOff switchable 0 = false ∧ switchNeed switchable 0 ≤ 2 ^ 20 ∧ ctx0.saveSize < switchNeed (st) 0 ∧ ctxOff (collecting .halting) 0 = true) ∧
    (collectorIn (collecting .halting) 0 0 .halting = some (coll0 .halting) ∧ (coll0 .halting).since + 12 ≤ (collecting .halting).cycle ∧ (cr).halt = none) ∧
    (collectorIn (collecting .draining) 0 0 .draining = some (coll0 .draining) ∧ 3 ∉ (coll0 .draining).bits ∧ atStop (collecting .draining) 0 0 3 = true ∧ atStop { collecting .draining with rays := [ray9 (.inside 0)] } 0 0 3 = false) ∧
    (collectorIn (collecting .saving) 0 0 .saving = some (coll0 .saving) ∧ (switchCrews (collecting .saving) 0 0).all (crewStill (collecting .saving)) = true ∧
      (switchCrews (collecting .saving) 0 0).all (crewStill { collecting .saving with loads := [load7] }) = false) := by decide +kernel

theorem descriptor_read : devNum (outSt descOut) 0 0x10000 256 = some descOut := by
  rw [read_low (k := hbmKey 0x103000) (by decide +kernel) (by decide +kernel) (by decide)]
  decide +kernel

theorem reread_ok {s : State} {ctx v : Nat} {c : Context} (hx : getCtx s ctx = some c) (hv : devNum s ctx c.desc 256 = some v) (hb : descBad (updCtx s ctx fun _ => descContext c v) (descContext c v) v = false) :
    rereadDescriptor s ctx = updCtx (updCtx s ctx fun _ => descContext c v) ctx fun y => { y with xltRoot := c.xltRoot, aperScr := c.aperScr, aperSpan := c.aperSpan, aperStk := c.aperStk } := by
  simp [rereadDescriptor, readDescriptor, hx, hv, hb]

def ctxOut : Context := { ctx0 with desc := 0x10000, out := true }
def rereadOut : State := updCtx (updCtx (outSt descOut) 0 fun _ => descContext ctxOut descOut) 0 fun y =>
  { y with xltRoot := ctxOut.xltRoot, aperScr := ctxOut.aperScr, aperSpan := ctxOut.aperSpan, aperStk := ctxOut.aperStk }

theorem reread_out : rereadDescriptor (outSt descOut) 0 = rereadOut :=
  reread_ok (c := ctxOut) (by decide +kernel) descriptor_read (by decide +kernel)

theorem witness_ContextSwitches_restore : (devHeld (outSt descOut) 0 0x10000 256 = false ∧ imageRuns (outSt descOut) ctxOut = [] ∧ devHeld (fenced 0 (outSt descOut)) 0 0x10000 256 = true) ∧ (getCtx (rereadDescriptor (outSt descOut) 0) 0).map (·.malformed) = some false ∧ (placeAll (rereadDescriptor (outSt descOut) 0) (outSt descOut).crews).isSome = true ∧
    (getCtx (rereadDescriptor { outSt 0 with contexts := [{ ctx0 with desc := 2 ^ 56, out := true }] } 0) 0).map (·.malformed) = some true ∧ placeAll noRoom [halted (.disposed 0 0)] = none := by
  rw [reread_out]
  and_intros <;> decide +kernel

/-- A mapped queue whose block stands at 0x8000 and whose ring of 4 commands at 0x9000; the command at its head. -/
def blockNum (size flags : Nat) : Nat := 0x9000 + 2 ^ 64 * size + 2 ^ 104 * flags
def queue1 (state : Nat := 2) (started : List (Nat × Bool) := []) : HostQueue := { q := 1, ctx := 0, block := 0x8000, state := state, head := 0, tail := 1, started := started }
def queued (cmd : Nat) (x : HostQueue := queue1) (flags : Nat := 4) : State :=
  { st with mem := memWrite (memWrite tables (hbmKey 0x8000) 64 (blockNum 4 flags)) (hbmKey 0x9000) 64 cmd, queues := [x] }
def launchRec : Nat := 0x2000 + 2 ^ 64 * 1 + 2 ^ 80 * 1 + 2 ^ 96 * 1 + 2 ^ 112 * 32 + 2 ^ 120 * 8 + 2 ^ 208 * 1 + 2 ^ (8 * 135) * 0xFF + 2 ^ (8 * 151) * 0xFF + 2 ^ (8 * 167) * 0xFF + 2 ^ (8 * 183) * 0xFF +
  2 ^ (8 * 199) * 0xFF + 2 ^ (8 * 215) * 0xFF + 2 ^ (8 * 231) * 0xFF + 2 ^ (8 * 247) * 0xFF

theorem witness_HostQueues_waits : nextCommand (fenced 7 (queued 0)) 1 = some (queue1, some 0) ∧ devHeld (fenced 7 (queued 0)) 0 0x1000000 8 = true ∧ devHeld (fenced 7 (queued 0)) 0 0x1000000 8 true = true ∧ devHeld (fenced 7 (queued 0)) 0 0x1000000 256 = true ∧
    devHeld (queued 0) 0 0xA000 8 = false ∧ devHeld (queued 0) 0 0xA000 8 true = false ∧ devHeld (queued 0) 0 0xA000 256 = false ∧ blockHeld (queued 0) queue1 = false ∧ blockHeld (fenced 0 (queued 0)) queue1 = true := by decide +kernel

theorem witness_HostQueues_commands : nextCommand (queued 0) 1 = some (queue1, some 0) ∧ nextCommand { queued 0 with mem := memWrite tables (hbmKey 0x8000) 64 (blockNum 4 4 + 0x400000) } 1 = some (queue1, none) ∧ commandBad 0 = false ∧
    commandBad 4 = true ∧ commandBad (2 ^ 16 + 1) = true ∧ commandBad (2 ^ 16 + 2) = true ∧ commandBad (2 ^ 16 + 3) = true ∧ commandBad (2 + 2 ^ 64 * 0xA000) = false ∧ commandBad (3 + 2 ^ 64 * 0xA000) = false ∧
    commandBad (1 + 2 ^ 64 * 0xA000) = false ∧ commandBad 256 = false ∧ bitAt 256 8 = true ∧ (queue1 2 [(0, false)]).started ≠ [] ∧ devNum (queued 0) 0 0xA000 8 = some 0 ∧ devNum (queued 0) 0 0x400000 8 = none ∧
    (devKeys (queued 0) 0 0xA000 8 true).isSome = true ∧ (queued 0).hw.poison = [] ∧ devKeys (queued 0) 0 0x400000 8 true = none ∧ launchError (queued 0) 0 (launchOf launchRec) = none ∧ launchError (queued 0) 0 (launchOf 0) = some 2 := by decide +kernel

theorem witness_HostQueues_mapping : getQueue (queued 0) 1 = some queue1 ∧ (queue1 1).state = 1 ∧ (queue1 3).state = 3 ∧ (queue1 0).state ≠ 2 ∧ qEnabled (queued 0) queue1 = true ∧ qEnabled (queued 0 queue1 0) queue1 = false ∧
    qError (queued 0) queue1 = false ∧ qRead { queued 0 (queue1 0) with mem := memWrite tables (hbmKey 0x8000) 64 (blockNum 4 4 + 2 ^ 160) } (queue1 0) 20 4 = 1 ∧ slotsUsed (queued 0) < 256 ∧ blockBad (queued 0) queue1 = true ∧
    blockBad { queued 0 with mem := memWrite tables (hbmKey 0x8000) 64 (blockNum 16 4) } queue1 = false ∧ bitAt (qRead { queued 0 with mem := memWrite tables (hbmKey 0x8000) 64 (2 ^ 224) } queue1 24 8) 32 = true ∧ (queue1 0).state = 0 ∧
    (idleVictim (queued 0)).isNone = true ∧
    256 ≤ slotsUsed { queued 0 with queues := (List.range 256).map fun i => { queue1 with q := i } } ∧ getCtx (queued 0) 0 = some ctx0 ∧ ctx0.loaded = true ∧ ctx0.malformed = false := by decide +kernel

def staged (n : Nat) : State := { State.reset with bar := { State.reset.bar with bootStage := n } }
def posted (n cmd : Nat) : State := { staged n with bar := { (staged n).bar with mbxPosted := true, mbxOut := [(0, BitVec.ofNat 8 cmd)] } }

/-- Stage 1 with an image accepted so far, and after a failure; power with a mailbox of a core that holds one message, and one that is full. -/
def failed1 : State := { staged 1 with bar := { (staged 1).bar with failCode := 1 } }
def mailed (n : Nat) : State := { staged 2 with hw := { (staged 2).hw with inbox := [(1, List.replicate n 7)] } }

theorem witness_BringUp : (staged 0).bar.bootStage = 0 ∧ (staged 1).bar.bootStage = 1 ∧ (staged 1).bar.failCode = 0 ∧ failed1.bar.bootStage = 1 ∧ failed1.bar.failCode ≠ 0 ∧ (staged 2).bar.bootStage = 2 ∧
    (mget [] (mailed 1).hw.inbox 1).length < 16 ∧ 16 ≤ (mget [] (mailed 16).hw.inbox 1).length ∧ getCtx (staged 2) 7 = none ∧ (0x100000 : Word64).toNat % 4096 = 0 ∧ (getCtx { staged 2 with contexts := [ctx0] } 0).isSome = true ∧
    (staged 2).queues = [] ∧ 0x8000 % 256 = 0 ∧ (∀ i < 0, stackSettled (staged 2) i = true) ∧ stackSettled (staged 2) 0 = false ∧ mget 0 (staged 2).hw.channelSpares 0 < 2 ∧
    (640 : Nat) ∈ [640, 320, 160, 80, 50, 25] ∧ (16 : Nat) ∈ [16, 8, 4, 2, 1] ∧ (posted 0 1).bar.mbxPosted = true ∧ mbxByte (posted 0 1) 0 = 1 ∧ mbxByte (posted 0 2) 0 = 2 ∧ (posted 0 2).hw.flash = [] ∧ { (posted 0 2).hw with flash := [1] }.flash ≠ [] ∧ mbxNum (posted 0 2) 8 8 ≤ 2 ^ 24 ∧ mbxByte (posted 0 3) 0 = 3 ∧
    (posted 2 0).bar.mbxPosted = true ∧ 2 ≤ (posted 2 0).bar.bootStage ∧ State.reset.bar.mbxPosted = false ∧ State.reset.firmware = [] ∧ 0x10 + 8 ≤ 2 ^ 24 := by decide +kernel

def open3 : State := { staged 3 with hw := { (staged 3).hw with trained := [0] } }
def svcOne : State := { svcSt with svc := [call9] }

/-- Every slice of die 0 under a change: an access to a line of its memory waits. -/
def shutSt : State := { open3 with cores := (List.range 256).map fun i => (i, { change := [{ mb := 1, who := none }] }) }

theorem witness_HostRegisters_slice : bar2Keys shutSt 3 2 = some [hbmKey 3, hbmKey 4] ∧ sliceWait shutSt [(hbmKey (shutSt.bar.bar2Win.toNat + 3), 2)] ≠ none := by
  refine ⟨by decide +kernel, ?_⟩
  have h : shutSlices shutSt = List.range 256 := by decide +kernel
  have hk : hbmKey (shutSt.bar.bar2Win.toNat + 3) = 3 := by decide +kernel
  have hp : ∀ k, place shutSt k = k := fun _ => rfl
  have hb : bitsOf 0 39 38 = 0 := by decide
  simp [sliceWait, h, hk, hp, sliceOf, homeDie, keySpace, keyOff, hb, Nat.mod_lt]

theorem test_registers_keep_their_width : (∃ u, exec (.registerWrite 0x40 4 (some 7)) State.reset = .next u ∧ u.bar = State.reset.bar) ∧ ∃ u, exec (.registerWrite 0x80 8 (some 0x2000)) State.reset = .next u ∧ u.bar = State.reset.bar :=
  ⟨⟨_, rfl, rfl⟩, _, rfl, rfl⟩

theorem witness_HostRegisters : (0x40 ≤ 0x40 ∧ 0x40 < 0x80 ∧ (4 : Nat) ≠ 8) ∧ (0x80 ≤ 0x80 ∧ 0x80 < 0x100 ∧ (8 : Nat) ≠ 4) ∧ (0x17E % 4 ≠ 0 ∧ 0x17E < 0x180) ∧ (0x100008 % 0x40 ≠ 4 ∧ 0x100008 < 0x140000) ∧ (0x02000FFC % 0x1000 ≠ 0 ∧ 0x02000FFC < 0x03000000) ∧
    (0x0FFFFFFC % 0x1000 ≠ 0 ∧ 0x0FFFFFFC < 0x10000000) ∧ 0x3C < 0x40 ∧ (3 : Nat) ∉ [1, 2, 4, 8] ∧ sliceWait open3 [(hbmKey 3, 2)] = none ∧ svcBlocked svcOne call9 = false ∧ svcBlocked (fenced 0 svcOne) call9 = true ∧ bar2Keys State.reset 0 8 = none ∧ bar2Keys open3 3 2 = some [hbmKey 3, hbmKey 4] ∧ anyPoison open3 = false ∧ (∀ k ∈ [hbmKey 3, hbmKey 4], channelWaits open3 open3.nextId (place open3 k / 64) = false) ∧ 3 % 2 ≠ 0 ∧ (staged 0).hw.egressLocked = false ∧ (staged 0).bar.bootStage = 0 ∧ (staged 1).bar.bootStage = 1 ∧
    { (staged 0).hw with egressLocked := true }.egressLocked = true ∧ 0x3 % 4 ≠ 0 ∧ pondsHold State.reset.bar.rayAdmit State.reset.bar.extAdmit (pondRays State.reset) = true ∧
    svcOne.svc.find? (fun k => k.ctx == 0 && k.idx == 0) = some call9 ∧ State.reset.svc.find? (fun k => k.ctx == 0 && k.idx == 0) = none := by decide +kernel

/-- A crew that Fantail may move off a hot core; a crew whose pre-emption has begun, and is to be saved; channels in each phase of a retirement. -/
def hotSt : State := { st with cores := [(0, { temp := 101 })], cycle := 2 ^ 22 }
def leaving : Crew := { cr with taking := some { since := 0, dest := some 1, saving := true } }
def leavingSt : State := { st with crews := [leaving], cycle := 12, issue := none }
def chanSt (c : Channel) : State := { st with hw := { State.reset.hw with channels := [(0, c)] } }

theorem witness_HeatErrorsAndSpares : (coreOf (st) 0).duty = 100 ∧ 100 ≤ (coreOf hotSt 0).temp ∧ (coreOf (st) 0).temp < 100 ∧ ({ duty := 50 } : Core).dutySince + 1250000 ≤ 1250000 ∧ getCrew hotSt 5 = some (cr) ∧ mayLeave hotSt (cr) = true ∧
    mayEnter hotSt (cr) 1 = true ∧ (mayLeave (st) (cr) && mayEnter (st) (cr) 1) = false ∧ fantailChoice hotSt 0 = some (5, 1) ∧ fantailChoice (st) 0 = none ∧
    hotSt.cores.find? (fun k => k.1 / 256 == 1 && coreHot k.2 && k.2.duty == 100) = none ∧ (hotSt.cores.find? fun k => k.1 / 256 == 0 && coreHot k.2 && k.2.duty == 100).isSome = true ∧
    (st).hw.laneSpares.contains 0 = false ∧ mget 0 (st).hw.rowSpares 0 < 64 ∧ (0, 3) ∉ (st).hw.pipesLost ∧ (0, 3) ∉ (st).hw.pipesDue ∧ mget 0 (st).hw.pipeSpares 0 < 2 ∧ inPipe (st) 0 3 = false ∧
    inPipe { raySt with rays := [{ ray9 (.inside 0) with pipe := 3 }] } 0 3 = true ∧ 0 < (coreOf (st) 0).waySpares ∧ ((st).contexts.map (·.id)).Nodup ∧ (∀ x ∈ (st).contexts, x.telem = 0) := by decide +kernel

theorem witness_HeatErrorsAndSpares_taking : getCrew leavingSt 5 = some leaving ∧ leaving.halt.isNone = true ∧ leaving.where_ = .resident ∧ crewStill leavingSt leaving = true ∧
    (getCrew (leaveCore (saveImage leavingSt leaving) 5) 5).any (fun c1 => coreTakes (leaveCore (saveImage leavingSt leaving) 5) c1 1) = true ∧
    (standOn (st) 0).length = 1 ∧ standOn (st) 1 = [] ∧ (∀ c ∈ standOn (st) 0, mayTake (st) c = true) ∧ (coreOf (st) 0).retired = false ∧ mget 0 (st).hw.coreSpares 0 < 8 ∧ (coreOf (st) 0).mb = 0 ∧
    (coreOf { st with cores := [(0, { mb := 2 })] } 0).mb ≠ 0 ∧ (∀ c ∈ (st).crews, c.taking = none) ∧
    imageHeld (fenced 0 (st)) { leaving with where_ := .away, image := some (0x8000, [0]) } = true := by decide +kernel

theorem witness_HeatErrorsAndSpares_channels : (mget default (chanSt {}).hw.channels 0).lost = false ∧
    (mget default (chanSt {}).hw.channels 0).phase ≠ .fenced ∧ (mget default (chanSt { phase := .fenced }).hw.channels 0).phase = .fenced ∧ beforeFence (chanSt { phase := .fenced }) 0 0 = false ∧
    beforeFence { chanSt { phase := .fenced } with stores := [{ store7 with bytes := [(hbmKey 0, 1)] }] } 0 8 = true ∧ (mget default (chanSt { phase := .copying }).hw.channels 0).next ≤ 0 ∧
    channelAtom 0 0 0 ∉ (mget default (chanSt { phase := .copying }).hw.channels 0).present := by decide +kernel

/-- Requests that a message lost: a load at a peer, a filter request, a collective; a ring of this device, as a peer finds it. -/
def peerLoad : PendingLoad := { load7 with peer := true }
def peerRing (v : Nat) : State := { open3 with mem := memWrite tables (hbmKey 0x8000) 64 v, contexts := [ctx0] }

theorem witness_PeersAreServed : { one with loads := [peerLoad] }.loads.find? (fun l => l.id == 7 && l.peer) = some peerLoad ∧ filtering.filters.find? (·.id == 9) = some filter9 ∧
    { collSt with colls := [matched9] }.colls.find? (fun r => r.id == 9 && r.matched.isSome) = some matched9 ∧ getCrew { collSt with colls := [matched9] } 5 = some (cr vmem) ∧ peerServed open3 0x8000 8 true = true ∧
    peerServed open3 0x8000 8 false = true ∧ anyPoison open3 = false ∧ 0x8000 % 64 = 0 ∧ peerServed (peerRing 0) 0x8000 64 true = true ∧ ringBad (homeRead (peerRing (ringDesc 1 0 1)) (hbmKey 0x8000) 64) 1 = false ∧
    (ringOf (homeRead (peerRing (ringDesc 1 0 1)) (hbmKey 0x8000) 64)).ended = false ∧ (ringOf (homeRead (peerRing (ringDesc 1 0 1)) (hbmKey 0x8000) 64)).used = 1 ∧ ringQueue (peerRing 0) (hbmKey 0x8000) true = false ∧ devHeld (peerRing (ringDesc 1 0 1)) 0 0x9020 32 true = false ∧ devHeld (peerRing (ringDesc 1 0 1)) 0 0x9000 32 = false ∧
    (devWrite (peerRing (ringDesc 1 0 1)) 0 0x9020 ((byteList 0 8 32).map (·.2))).isSome = true ∧ bitAt 8 1 = false ∧ (ringOf (homeRead (peerRing (ringDesc 1 0 0 true)) (hbmKey 0x8000) 64)).ended = true ∧
    devNum (peerRing (ringDesc 1 0 1)) 0 0x9000 32 = some 0 ∧ (ringOf (homeRead (peerRing (ringDesc 1 2 2)) (hbmKey 0x8000) 64)).used = 0 := by decide +kernel

theorem witness_TrapsReachHandlers_image : imageWrites (haltSt .saving .resident) (halted .saving .resident) = [] ∧ ∃ t ts, (cr).threads = t :: ts ∧ 7 < (cr).budget ((cr).hgang t.tid) := by
  refine ⟨by decide +kernel, _, _, rfl, by decide⟩

/-! ### An image of 32 zero blocks -/

/-- The table of an image: `n` entries for zero blocks of this CRC, from a key. -/
def imageCells (c : Nat) : Nat → Nat → List Host.Cell
  | _, 0 => []
  | k, n + 1 => (k, 1) :: (k + 4, BitVec.ofNat 8 c) :: (k + 5, BitVec.ofNat 8 (c / 2 ^ 8)) :: (k + 6, BitVec.ofNat 8 (c / 2 ^ 16)) :: (k + 7, BitVec.ofNat 8 (c / 2 ^ 24))
      :: imageCells c (k + 8) n

def imaged (c : Nat) : State := { squeezed true with mem := (squeezed true).mem ++ imageCells c 0x600000 32 }

theorem mget_append_right {α : Type} (d : α) (m n : SMap α) (k : Nat) (h : ∀ e ∈ m, e.1 ≠ k) : mget d (m ++ n) k = mget d n k := by
  induction m with
  | nil => rfl
  | cons e m ih =>
    have he : k ≠ e.1 := fun x => h e (by simp) x.symm
    show (if k = e.1 then e.2 else mget d (m ++ n) k) = _
    rw [if_neg he]; exact ih fun e' he' => h e' (by simp [he'])

theorem mget_imageCells (c n k j r : Nat) (hj : j < n) (hr : r < 8) : mget 0 (imageCells c k n) (k + 8 * j + r) =
    if r = 0 then 1 else if r < 4 then 0 else BitVec.ofNat 8 (c / 2 ^ (8 * (r - 4))) := by
  have low : ∀ n k i, i < k → mget 0 (imageCells c k n) i = 0 := by
    intro n
    induction n with
    | zero => intros; rfl
    | succ n ih =>
      intro k i h
      simp only [imageCells, mget]
      iterate 5 rw [if_neg (by omega)]
      exact ih _ _ (by omega)
  induction n generalizing k j with
  | zero => omega
  | succ n ih =>
    simp only [imageCells, mget]
    rcases j with _ | j
    · interval_cases r <;> first | (simp; done) | (simp; exact low _ _ _ (by omega))
    · iterate 5 rw [if_neg (by omega)]
      have := ih (k + 8) j (by omega)
      rwa [show k + 8 + 8 * j + r = k + 8 * (j + 1) + r by omega] at this

/-- The entry of a zero block. -/
def entry0 (c : Nat) : Nat := 1 + 2 ^ 32 * c

theorem imaged_keys : ∀ e ∈ (squeezed true).mem, e.1 < 0x600000 := by decide +kernel

theorem imaged_byte (c j r : Nat) (hj : j < 32) (hr : r < 8) : homeByte (imaged c) (0x600000 + 8 * j + r) =
    if r = 0 then 1 else if r < 4 then 0 else BitVec.ofNat 8 (c / 2 ^ (8 * (r - 4))) := by
  show mget 0 ((squeezed true).mem ++ imageCells c 0x600000 32) (0x600000 + 8 * j + r) = _
  rw [mget_append_right _ _ _ _ fun e he => by have := imaged_keys e he; omega]
  exact mget_imageCells c 32 _ j r hj hr

theorem imaged_entry (c j : Nat) (hc : c < 2 ^ 32) (hj : j < 32) : homeRead (imaged c) (hbmKey (0x600000 + 8 * j)) 8 = entry0 c := by
  have hk : hbmKey (0x600000 + 8 * j) = 0x600000 + 8 * j := by simp [hbmKey, spaceKey]
  rw [hk]
  simp only [homeRead]
  have h0 := imaged_byte c j 0 hj (by omega)
  rw [Nat.add_zero] at h0
  rw [h0, imaged_byte c j 1 hj (by omega), imaged_byte c j 2 hj (by omega), imaged_byte c j 3 hj (by omega), imaged_byte c j 4 hj (by omega), imaged_byte c j 5 hj (by omega),
    imaged_byte c j 6 hj (by omega), imaged_byte c j 7 hj (by omega)]
  simp [entry0]; omega

theorem entry0_parts (c : Nat) (hc : c < 2 ^ 32) : entryMethod (entry0 c) = 1 ∧ entryLen (entry0 c) = 0 ∧ entrySpan (entry0 c) = 0 ∧ bitsOf (entry0 c) 63 32 = c ∧ bitsOf (entry0 c) 31 19 = 0 ∧
    entry0 c % 4 = 1 := by
  simp only [entryMethod, entryLen, entrySpan, bitsOf, entry0, Nat.shiftRight_eq_div_pow]
  omega

theorem entry0_expands (c : Nat) (hc : c < 2 ^ 32) (hs : (crc32c (List.replicate blockBytes 0)).toNat = c) (p : List Byte) : expandBlock (entry0 c) p = some (List.replicate blockBytes 0) := by
  obtain ⟨hm, hl, -, hb, hz, -⟩ := entry0_parts c hc
  have ho : entryOk (entry0 c) = true := by simp [entryOk, hm, hl, hz]
  simp [expandBlock, ho, hm, hb]; exact hs

theorem imaged_entries (c : Nat) (hc : c < 2 ^ 32) : ∃ l, imageEntries (imaged c) 0x600000 = l ∧ ∀ x ∈ l, x.1 = entry0 c := by
  refine ⟨_, rfl, ?_⟩
  unfold imageEntries
  have go : ∀ (is : List Nat) (acc : List (Nat × Nat) × Nat), (∀ i ∈ is, i < 32) → (∀ x ∈ acc.1, x.1 = entry0 c) →
      ∀ x ∈ (is.foldl (fun (acc : List (Nat × Nat) × Nat) i =>
        let e := homeRead (imaged c) (hbmKey (0x600000 + 8 * i)) 8
        (acc.1 ++ [(e, acc.2)], acc.2 + entrySpan e)) acc).1, x.1 = entry0 c := by
    intro is
    induction is with
    | nil => intro acc _ h; exact h
    | cons i is ih =>
      intro acc hi h
      refine ih _ (fun k hk => hi k (by simp [hk])) ?_
      intro x hx
      rcases List.mem_append.mp hx with hx | hx
      · exact h x hx
      · rw [List.mem_singleton] at hx; subst hx; exact imaged_entry c i hc (hi i (by simp))
  exact go _ _ (fun i hi => List.mem_range.mp hi) (by simp)

theorem imaged_good (c : Nat) (hc : c < 2 ^ 32) (hs : (crc32c (List.replicate blockBytes 0)).toNat = c) : ∃ bs, readImage (imaged c) 0x600000 = .good bs := by
  obtain ⟨l, hl, h⟩ := imaged_entries c hc
  have hp : runPoisoned (imaged c) (hbmKey 0x600000) (tableLen 32) = false := rfl
  unfold readImage
  rw [hp, hl, if_neg (by simp)]
  have go : ∀ (l : List (Nat × Nat)) (bs : List Byte), (∀ x ∈ l, x.1 = entry0 c) → ∃ cs, l.foldl (fun acc x => match acc with
      | .good bs =>
        if x.1 % 4 != 1 && runPoisoned (imaged c) (hbmKey (0x600000 + x.2)) (max 1 (entryLen x.1)) then .poisoned
        else match expandBlock x.1 (homeBytes (imaged c) (hbmKey (0x600000 + x.2)) (entryLen x.1)) with
          | some b => .good (bs ++ b)
          | none => .corrupt
      | e => e) (ImageEnd.good bs) = .good cs := by
    intro l
    induction l with
    | nil => exact fun bs _ => ⟨bs, rfl⟩
    | cons x l ih =>
      intro bs h
      have hx := h x (by simp)
      simp only [List.foldl_cons, hx, (entry0_parts c hc).2.2.2.2.2, entry0_expands c hc hs]
      exact ih _ fun y hy => h y (by simp [hy])
  exact go l [] h

theorem imaged_walk : walkTree (imaged (crc32c (List.replicate blockBytes 0)).toNat) 0 0x400000 = .leaf { leaf4 with compressed := true, busy := true, pa := 0x600000 } 21 0x103010 := by
  decide +kernel

theorem witness_OverflowAndCompression_image : ∃ s bs, walkTree s 0 0x400000 = .leaf { leaf4 with compressed := true, busy := true, pa := 0x600000 } 21 0x103010 ∧
    readImage s 0x600000 = .good bs := by
  obtain ⟨bs, h⟩ := imaged_good _ (crc32c (List.replicate blockBytes 0)).isLt rfl
  exact ⟨_, bs, imaged_walk, h⟩

end Sys2Proof.Tests
end

section
/-! PROOFS. The state at reset, and the step that runs a decoded word. -/

namespace Sys2Proof.Machine

/-- Settles O7: each field of the reset state is its default. -/
theorem resetState : Obligations.ResetState := by
  unfold Obligations.ResetState
  exact ⟨⟨rfl, rfl, rfl, rfl, rfl, rfl, fun _ => rfl, rfl, rfl, rfl, rfl, fun _ => rfl⟩, rfl⟩

/-- A turn that names no event lets its core issue, with power on. -/
theorem nextMove_issues {s : State} {t : Turn} {rest : List Turn} (ha : s.agenda = t :: rest) (he : t.ev = none) (hp : s.hw.powered = true) :
    nextMove s = issueOn (pass t.cycles { s with agenda := rest, issue := none }) t.core := by
  simp [nextMove, ha, he, hp]

/-- Where no trap comes before the word, the fetch is that of the word. -/
theorem fetch_issues {s : State} {is : Issue} {c : Crew} (h : Issues s is c) (hp : preTrap s c is = none) : fetch s = fetchWord s c is := by
  simp [fetch, h.issue, h.crew, hp]

/-- Where nothing stands before the word, its bytes are decoded. -/
theorem fetchWord_decodes {s : State} {is : Issue} {c : Crew} {x : TlbEntry} (hpc : is.pc.toNat < 2 ^ 56)
    (hx : heldLeaf s c.ctx c.die c.coreId is.pc.toNat = some x) (hexec : x.leaf.exec = true)
    (hegress : leafEgressOk s x.leaf (is.pc.toNat - x.va) = true) (hproc : x.leaf.proc = false)
    (hslice : sliceWait s [(x.key is.pc.toNat, 8)] = none) (hread : readWaits s [(x.key is.pc.toNat, 8)] = false)
    (hpoison : poisonedAt s (x.key is.pc.toNat) = false) :
    fetchWord s c is = decodeGang s c is (homeRead s (x.key is.pc.toNat) 8) := by
  have hlow : is.pc.toNat < 72057594037927936 := hpc
  simp [fetchWord, hlow, hx, hexec, hegress, hproc, hslice, hread, hpoison]

theorem decodeGang_inr {s : State} {is : Issue} {c : Crew} {w : Nat} {i : Instr}
    (h : decodeWord { v := leastOr 192 (is.tids.map fun tid => c.budget (c.hgang tid)), tiles := c.tiles } w = .inr i) :
    decodeGang s c is w = .run i s := by
  simp [decodeGang, h]

/-- Settles O4, by following the schedule, the fetch and the decoder in turn. -/
theorem stepRunsDecodedWord : Obligations.StepRunsDecodedWord := by
  unfold Obligations.StepRunsDecodedWord
  rintro s s1 t rest is c x i hagenda hev hpow hs1 hissue hpre hpc hx hexec hegress hproc hslice hread hpoison hdec
  have hfetch : fetch s1 = .run i s1 := by
    rw [fetch_issues hissue hpre, fetchWord_decodes hpc hx hexec hegress hproc hslice hread hpoison, decodeGang_inr hdec]
  have hmove : nextMove s = .run i s1 := by
    rw [nextMove_issues hagenda hev hpow, issueOn, ← hs1, hfetch]
  simp [step, stepWith, hmove]

end Sys2Proof.Machine
end

section
/-! PROOFS. What memory, registers and predicates read back. -/

namespace Sys2Proof.Machine

theorem memWrite_succ (m : List Host.Cell) (k n v : Nat) : memWrite m k (n + 1) v = memWrite (memPut m k (BitVec.ofNat 8 v)) (k + 1) n (v / 256) := rfl

theorem memByte_memWrite_outside (m : List Host.Cell) (k n v j : Nat) (h : j < k ∨ k + n ≤ j) : memByte (memWrite m k n v) j = memByte m j :=
  memByte_memPutAll_of_notMem _ _ _ fun w hw => by have := byteList_keys k v n w hw; omega

/-- A number written to memory reads back in its low bytes (R4). -/
theorem memRead_memWrite (m : List Host.Cell) (k n v : Nat) : memRead (memWrite m k n v) k n = v % 2 ^ (8 * n) := by
  induction n generalizing m k v with
  | zero => simp [memRead, Nat.mod_one]
  | succ n ih =>
    have hlow : memByte (memWrite m k (n + 1) v) k = BitVec.ofNat 8 v := by
      rw [memWrite_succ, memByte_memWrite_outside _ _ _ _ _ (by omega), memByte_memPut, if_pos rfl]
    have hhigh : memRead (memWrite m k (n + 1) v) (k + 1) n = v / 256 % 2 ^ (8 * n) := by rw [memWrite_succ]; exact ih ..
    simp only [memRead, hlow, hhigh, BitVec.toNat_ofNat]
    rw [show 2 ^ (8 * (n + 1)) = 256 * 2 ^ (8 * n) by rw [show 8 * (n + 1) = 8 + 8 * n by omega, pow_add]; norm_num, Nat.mod_mul]

/-- A v register written for one thread of a crew. -/
theorem thread_wr_v (c : Crew) (tid u : Nat) (k : Fin 192) (n v : Nat) :
    (wr c tid (.v k) n v).thread u = (c.thread u).map fun t => if t.tid = tid then { t with v := groupPut t.v k v n } else t :=
  thread_upd c tid u _ fun _ => rfl

theorem mget_groupPut_outside (m : SMap Word) (k v n j : Nat) (h : j < k ∨ k + n ≤ j) : mget 0 (groupPut m k v n) j = mget 0 m j := by
  rw [mget_groupPut, if_neg (by omega)]

/-- Settles O9, from the laws of maps, of groups of registers and of predicates. -/
theorem writesReadBack : Obligations.WritesReadBack := by
  unfold Obligations.WritesReadBack
  refine ⟨fun m k n v => ⟨memRead_memWrite m k n v, memByte_memWrite_outside m k n v, wf_memWrite m k n v⟩, ?_, ?_, ?_, ?_, rp_wp⟩
  · intro c t k n v ht
    refine ⟨{ t with v := groupPut t.v k v n }, ?_, groupVal_groupPut .., mget_groupPut_outside _ _ _ _, rfl, fun u hu => ?_⟩
    · simp [thread_wr_v, ht]
    · rw [thread_wr_v]
      cases hc : c.thread u with
      | none => rfl
      | some t' => simp [thread_tid hc, hu]
  · exact fun c t k n v => ⟨groupVal_groupPut .., mget_groupPut_outside _ _ _ _, rfl⟩
  · exact fun c tid n v x => ⟨rfl, rfl⟩
  · exact fun c t n => Nat.zero_mod _

end Sys2Proof.Machine
end

section
/-! PROOFS. What a register instruction leaves unchanged. -/

namespace Sys2Proof.Machine

/-- A crew that agrees with `b` but for what control changes, where `b` agrees with `c` but for registers: what is left of `c` in it. -/
theorem eq_of_shell_of_blank {c b c' : Crew} (hs : c'.shell = b.shell) (hb : b.blank = c.blank) :
    c' = { c with threads := c'.threads, s := c'.s, nextBound := c'.nextBound } ∧ c'.s = b.s := by
  cases c; cases b; cases c'
  simp_all [Crew.shell, Crew.blank]

/-- The same for a thread whose PC has been set besides. -/
theorem eq_of_settled_of_blank {t b t' : Thread} {pc : Word64} (hs : t'.settled = { b with pc := pc }.settled) (hb : b.blank = t.blank) :
    t' = { t with v := t'.v, p := t'.p, pc := pc, hold := t'.hold, pass := t'.pass, bound := t'.bound, gang := t'.gang } ∧ t'.v = b.v ∧ t'.p = b.p := by
  cases t; cases b; cases t'
  simp_all [Thread.settled, Thread.blank]

theorem applyWrs_uid (c : Crew) (ws : List (Nat × Wr)) : (applyWrs c ws).uid = c.uid := (congrArg Crew.uid (applyWrs_spec c ws).1 :)

theorem moveTo_uid (ts : List Nat) (target : Nat → Word64) (c : Crew) : (moveTo ts target c).uid = c.uid := (congrArg Crew.uid (moveTo_spec ts target c).1 :)

/-- The crew of the gang after the end of a register instruction. -/
theorem getCrew_regsWritten_same {s : State} {is : Issue} {c : Crew} (h : Issues s is c) (ws : List (Nat × Wr)) :
    getCrew (regsWritten s is ws) is.crew = some (moveTo is.tids (fun _ => is.pc + 8) (applyWrs c ws)) :=
  getCrew_updCrew_same (moveTo_uid _ _) (getCrew_updCrew_same (applyWrs_uid · ws) h.crew)

theorem getCrew_regsWritten_ne {s : State} {is : Issue} {u : Nat} (ws : List (Nat × Wr)) (h : u ≠ is.crew) :
    getCrew (regsWritten s is ws) u = getCrew s u :=
  (getCrew_updCrew_ne _ (moveTo_uid _ _) h).trans (getCrew_updCrew_ne _ (applyWrs_uid · ws) h)

theorem thread_map {c c' : Crew} {f : Thread → Thread} {i : Nat} {t : Thread} (hc : c'.threads = c.threads.map f) (hf : ∀ t, (f t).tid = t.tid)
    (ht : c.thread i = some t) : c'.thread i = some (f t) := by
  have h : c'.thread i = (c.thread i).map f := by
    unfold Crew.thread; rw [hc]; exact find?_map_of_key c.threads f Thread.tid i hf
  rw [h, ht]; rfl

/-- The crew of the gang, and each of its threads, after the writes of a register instruction and the move to the next word. -/
theorem applyWrs_moveTo_spec (is : Issue) (c : Crew) (ws : List (Nat × Wr)) :
    let c' := moveTo is.tids (fun _ => is.pc + 8) (applyWrs c ws)
    c' = { c with threads := c'.threads, s := c'.s, nextBound := c'.nextBound } ∧ (∀ j, (∀ w ∈ ws, ¬ namesS w j) → mget 0 c'.s j = mget 0 c.s j) ∧
    ∃ f : Thread → Thread, c'.threads = c.threads.map f ∧ ∀ t,
      f t = { t with v := (f t).v, p := (f t).p, pc := if is.tids.contains t.tid then is.pc + 8 else t.pc, hold := (f t).hold, pass := (f t).pass, bound := (f t).bound, gang := (f t).gang } ∧
      (∀ j, (∀ w ∈ ws, ¬ namesV w t.tid j) → mget 0 (f t).v j = mget 0 t.v j) ∧ ∀ j, (∀ w ∈ ws, ¬ namesP w t.tid j) → rp (f t) j = rp t j := by
  obtain ⟨hblank, hs, f, hf, hthread⟩ := applyWrs_spec c ws
  obtain ⟨hshell, g, hg, hsettled⟩ := moveTo_spec is.tids (fun _ => is.pc + 8) (applyWrs c ws)
  obtain ⟨heq, hsame⟩ := eq_of_shell_of_blank hshell hblank
  refine ⟨heq, fun j hj => by rw [hsame]; exact hs j hj, g ∘ f, by rw [hg, hf, List.map_map], fun t => ?_⟩
  obtain ⟨htb, hv, hp⟩ := hthread t
  have hid := blank_tid htb
  have hpc : (f t).pc = t.pc := (congrArg Thread.pc htb :)
  obtain ⟨he, hev, hep⟩ := eq_of_settled_of_blank (hsettled (f t)) htb
  rw [hid, hpc] at he
  exact ⟨he, fun j hj => by rw [Function.comp_apply, hev]; exact hv j hj, fun j hj => by rw [Function.comp_apply, rp, hep]; exact hp j hj⟩

/-- Settles O10: the writes and the move to the next word, each by what it says of the crew and of one thread. -/
theorem registerInstructionFrame : Obligations.RegisterInstructionFrame := by
  unfold Obligations.RegisterInstructionFrame
  intro s is c ws h _
  obtain ⟨heq, hs, f, hf, hthread⟩ := applyWrs_moveTo_spec is c ws
  have hid : ∀ t, (f t).tid = t.tid := fun t => (congrArg Thread.tid (hthread t).1 :)
  refine ⟨⟨rfl, fun u hu => getCrew_regsWritten_ne ws hu⟩, rfl, rfl, _, getCrew_regsWritten_same h ws, heq, fun j hj => hs j ?_, ?_, fun u u' hu hu' => ?_⟩
  · rintro w hw ⟨k, n, v, hk, hlow, hhigh⟩
    have := hj w hw k n v hk
    omega
  · rw [hf, List.map_map]
    exact List.map_congr_left fun t _ => hid t
  · obtain rfl : f u = u' := Option.some.inj ((thread_map hf hid hu).symm.trans hu')
    obtain ⟨he, hv, hp⟩ := hthread u
    refine ⟨he, fun j hj => hv j ?_, fun j hj => hp j ?_⟩
    · rintro w hw ⟨hi, k, n, v, hk, hlow, hhigh⟩
      have := hj w hw hi k n v hk
      omega
    · rintro w hw ⟨hi, o, b, ho, hn⟩
      exact hj w hw hi o b ho hn

end Sys2Proof.Machine
end

section
/-! PROOFS. The host's windows and registers. -/

namespace Sys2Proof.Machine

/-! ### What no register takes or answers -/

/-- An offset of BAR0 that names a register which a write of `width` bytes takes. -/
def WriteNamed (off width : Nat) : Prop :=
  (width = 8 ∧ (off = 0x8 ∨ 0x40 ≤ off ∧ off < 0x80)) ∨ (0x1000 ≤ off ∧ off < 0x1040) ∨ (0x01000000 ≤ off ∧ off < 0x02000000) ∨
  ((width = 2 ∨ width = 4) ∧ 0x100 ≤ off ∧ off < 0x180 ∧ off % 4 = 0) ∨
  (width = 4 ∧ (0x80 ≤ off ∧ off < 0x8C ∨ 0x1040 ≤ off ∧ off < 0x1044 ∨ (0x100000 ≤ off ∧ off < 0x140000 ∧ off % 0x40 = 4 ∧ off % 0x10000 < 0x4000) ∨
    (0x02000000 ≤ off ∧ off < 0x03000000 ∧ off % 0x1000 = 0) ∨ (0x08000000 ≤ off ∧ off < 0x10000000 ∧ off % 0x1000 = 0)))

theorem barWord_of_not_writeNamed {off : Nat} (s : State) (w : Nat) (h : ¬ WriteNamed off 4) (h4 : off % 4 = 0) : barWord s off w = s := by
  unfold WriteNamed at h
  simp only [barWord, Bool.and_eq_true, decide_eq_true_eq]
  rw [if_neg (by omega), if_neg (by omega), if_neg (by omega), if_neg (by omega), if_neg (by omega), if_neg (by omega)]

/-- A word written outside the windows of bytes: a register of its own event, or one of `barWord`. -/
theorem barWrite_four {off : Nat} (v : Word64) (s : State) (hm : off < 0x1000 ∨ 0x1040 ≤ off) (hb : off < 0x01000000 ∨ 0x02000000 ≤ off) (ha : off % 4 = 0) :
    barWrite off 4 v s =
      let w := v.toNat % 2 ^ 32
      let i := off - 0x100000
      if 0x100000 ≤ off ∧ off < 0x140000 then
        if i % 0x40 = 4 ∧ i % 0x10000 < 0x4000 then execBfpScrWrite (256 * (i / 0x10000) + i % 0x10000 / 0x40) (BitVec.ofNat 32 w) s else .next s
      else if 0x02000000 ≤ off ∧ off < 0x03000000 then if off % 0x1000 = 0 then execSvcDone ((off - 0x02000000) / 0x1000) w s else .next s
      else if 0x08000000 ≤ off ∧ off < 0x10000000 then if off % 0x1000 = 0 then execNotify ((off - 0x08000000) / 0x1000) (BitVec.ofNat 32 w) s else .next s
      else .next (barWord s off w) := by
  simp only [barWrite, Bool.and_eq_true, decide_eq_true_eq, Bool.or_eq_true, Nat.reducePow]
  rw [if_neg (by omega), if_neg (by omega), if_neg (by omega), if_pos (.inr trivial)]

theorem barWrite_of_not_writeNamed {off width : Nat} (v : Word64) (s : State) (h : ¬ WriteNamed off width) (ha : off % width = 0) (hw : width ∈ [1, 2, 4, 8]) :
    barWrite off width v s = .next s := by
  simp only [List.mem_cons, List.not_mem_nil, or_false] at hw
  by_cases h4 : width = 4
  · subst h4
    have hn := barWord_of_not_writeNamed s (v.toNat % 2 ^ 32) h ha
    unfold WriteNamed at h
    rw [barWrite_four v s (by omega) (by omega) ha]
    simp only [hn]
    by_cases h1 : 0x100000 ≤ off ∧ off < 0x140000
    · rw [if_pos h1, if_neg (by omega)]
    by_cases h2 : 0x02000000 ≤ off ∧ off < 0x03000000
    · rw [if_neg h1, if_pos h2, if_neg (by omega)]
    by_cases h3 : 0x08000000 ≤ off ∧ off < 0x10000000
    · rw [if_neg h1, if_neg h2, if_pos h3, if_neg (by omega)]
    · rw [if_neg h1, if_neg h2, if_neg h3]
  · unfold WriteNamed at h
    simp only [barWrite, Bool.and_eq_true, decide_eq_true_eq, Bool.or_eq_true, beq_iff_eq]
    by_cases h8 : width = 8
    · rw [if_pos h8, if_neg (by omega), if_neg (by omega), if_neg (by omega), if_neg (by omega)]
    · rw [if_neg h8, if_neg (by omega), if_neg (by omega), if_neg (by omega)]

/-- A write is at the width and the alignment of a register. -/
theorem exec_registerWrite_some (off width : Nat) (v : Word64) (s : State) :
    exec (.registerWrite off width (some v)) s = if width ∈ [1, 2, 4, 8] ∧ off % width = 0 then barWrite off width v s else .next s := by
  simp only [exec, execRegisterWrite, Bool.and_eq_true, List.contains_iff_mem, beq_iff_eq]

theorem registerWrite_ignored {off width : Nat} (v : Word64) (s : State) (h : ¬ (WriteNamed off width ∧ width ∈ [1, 2, 4, 8] ∧ off % width = 0)) :
    exec (.registerWrite off width (some v)) s = .next s := by
  rw [exec_registerWrite_some]
  split
  · next ha => exact barWrite_of_not_writeNamed v s (fun hn => h ⟨hn, ha⟩) ha.2 ha.1
  · rfl

/-- An offset of BAR0 at which a read of `width` bytes answers a register, or the bytes of a window. -/
def ReadNamed (off width : Nat) : Prop :=
  (0x1000 ≤ off ∧ off < 0x1040) ∨ (0x1080 ≤ off ∧ off < 0x10C0) ∨ (0x01000000 ≤ off ∧ off < 0x02000000) ∨
  (width = 8 ∧ (off = 0x8 ∨ 0x40 ≤ off ∧ off < 0x80)) ∨ (width = 2 ∧ 0x100 ≤ off ∧ off < 0x180) ∨
  (width = 4 ∧ (off < 4 ∨ 8 ≤ off ∧ off < 0x14 ∨ 0x40 ≤ off ∧ off < 0x8C ∨ 0x100 ≤ off ∧ off < 0x180 ∨ 0x1040 ≤ off ∧ off < 0x1044 ∨ 0x10C0 ≤ off ∧ off < 0x10C4 ∨
    0x100000 ≤ off ∧ off < 0x140000 ∨ 0x02000000 ≤ off ∧ off < 0x03000000 ∨ 0x08000000 ≤ off ∧ off < 0x10000000))

theorem barLong_eq_none {off : Nat} (s : State) (h8 : off ≠ 8) (h : off < 0x40 ∨ 0x80 ≤ off) : barLong s off = none := by
  simp only [barLong, Bool.and_eq_true, decide_eq_true_eq]
  rw [if_neg h8, if_neg (by omega)]

/-- A word read outside the windows of bytes and the registers of eight bytes. -/
theorem barRead_four {off : Nat} (s : State) (hm : off < 0x1000 ∨ 0x1040 ≤ off) (hi : off < 0x1080 ∨ 0x10C0 ≤ off) (hb : off < 0x01000000 ∨ 0x02000000 ≤ off)
    (h8 : off / 8 ≠ 1) (hl : off < 0x40 ∨ 0x80 ≤ off) : barRead s off 4 = barRead4 s off := by
  simp only [barRead, Bool.and_eq_true, decide_eq_true_eq]
  rw [if_neg (by omega), if_neg (by omega), if_neg (by omega), if_neg (by omega), if_pos trivial, barLong_eq_none s (by omega) (by omega)]

theorem barRead4_of_not_readNamed {off : Nat} (s : State) (h : ¬ ReadNamed off 4) : barRead4 s off = 0 := by
  unfold ReadNamed at h
  simp only [barRead4, Bool.and_eq_true, decide_eq_true_eq, Bool.or_eq_true]
  rw [if_neg (by omega), if_neg (by omega), if_neg (by omega), if_neg (by omega), if_neg (by omega), if_neg (by omega), if_neg (by omega), if_neg (by omega),
    if_neg (by omega), if_neg (by omega), if_neg (by omega)]

theorem barRead_of_not_readNamed {off width : Nat} (s : State) (h : ¬ ReadNamed off width) (ha : off % width = 0) (hw : width ∈ [1, 2, 4, 8]) :
    barRead s off width = 0 := by
  simp only [List.mem_cons, List.not_mem_nil, or_false] at hw
  by_cases h4 : width = 4
  · subst h4
    rw [← barRead4_of_not_readNamed s h]
    unfold ReadNamed at h
    exact barRead_four s (by omega) (by omega) (by omega) (by omega) (by omega)
  · unfold ReadNamed at h
    simp only [barRead, Bool.and_eq_true, decide_eq_true_eq, beq_iff_eq]
    rw [if_neg (by omega), if_neg (by omega), if_neg (by omega)]
    by_cases h8 : width = 8
    · rw [if_pos h8, barLong_eq_none s (by omega) (by omega)]; rfl
    · rw [if_neg h8, if_neg h4, if_neg (by omega)]

/-- A read, but of MBX_STAT. -/
theorem exec_registerWrite_none {off width : Nat} (s : State) (h : ¬ (off = 0x10C0 ∧ width = 4)) :
    exec (.registerWrite off width none) s = .next { s with
      freeIdx := s.freeIdx + 1, outbox := s.outbox ++ [(13, [off, if width ∈ [1, 2, 4, 8] ∧ off % width = 0 then barRead s off width else 0])] } := by
  simp only [exec, execRegisterWrite, report, Bool.and_eq_true, List.contains_iff_mem, beq_iff_eq, decide_eq_true_eq]
  rw [if_neg (fun hc => h ⟨hc.1.2, hc.2⟩)]

theorem registerRead_zero {off width : Nat} (s : State) (h : ¬ (ReadNamed off width ∧ width ∈ [1, 2, 4, 8] ∧ off % width = 0)) :
    exec (.registerWrite off width none) s = .next { s with freeIdx := s.freeIdx + 1, outbox := s.outbox ++ [(13, [off, 0])] } := by
  have hm : ¬ (off = 0x10C0 ∧ width = 4) := by
    rintro ⟨rfl, rfl⟩
    exact h (by simp [ReadNamed])
  rw [exec_registerWrite_none s hm]
  split
  · next ha => rw [barRead_of_not_readNamed s (fun hn => h ⟨hn, ha⟩) ha.2 ha.1]
  · rfl

theorem registerRead_word {off : Nat} (s : State) (ha : off % 4 = 0) (hm : off ≠ 0x10C0) :
    exec (.registerWrite off 4 none) s = .next { s with freeIdx := s.freeIdx + 1, outbox := s.outbox ++ [(13, [off, barRead s off 4])] } := by
  rw [exec_registerWrite_none s (fun hc => hm hc.1), if_pos ⟨by simp, ha⟩]

/-! ### Registers that are written -/

theorem registerWrite_long {off : Nat} (v : Word64) (s : State) (h8 : off % 8 = 0) : exec (.registerWrite off 8 (some v)) s = barWrite off 8 v s := by
  rw [exec_registerWrite_some, if_pos ⟨by simp, h8⟩]

theorem registerWrite_word {off : Nat} (v : Word64) (s : State) (h4 : off % 4 = 0) : exec (.registerWrite off 4 (some v)) s = barWrite off 4 v s := by
  rw [exec_registerWrite_some, if_pos ⟨by simp, h4⟩]

theorem barWrite_eight (off : Nat) (v : Word64) (s : State) :
    barWrite off 8 v s =
      if off = 0x8 then execBar2Win v s
      else if 0x40 ≤ off ∧ off < 0x80 then .next { s with bar := { s.bar with rlHead := mput 0 s.bar.rlHead ((off - 0x40) / 8) v } }
      else if 0x1000 ≤ off ∧ off < 0x1040 then .next { s with bar := { s.bar with mbxOut := putBytes s.bar.mbxOut (off - 0x1000) 8 v.toNat } }
      else if 0x01000000 ≤ off ∧ off < 0x02000000 then execBootBufferWrite (off - 0x01000000) v s
      else .next s := by
  simp only [barWrite, Bool.and_eq_true, decide_eq_true_eq, if_true]

theorem registerWrite_svcDone (s : State) (v : Word64) {ctx : Nat} (h : ctx < 4096) :
    exec (.registerWrite (0x02000000 + 0x1000 * ctx) 4 (some v)) s = exec (.svcDone ctx (v.toNat % 2 ^ 32)) s := by
  rw [registerWrite_word v s (by omega), barWrite_four v s (by omega) (by omega) (by omega)]
  simp only
  rw [if_neg (by omega), if_pos (by omega), if_pos (by omega), show (0x02000000 + 0x1000 * ctx - 0x02000000) / 0x1000 = ctx by omega]
  rfl

theorem registerWrite_notify (s : State) (v : Word64) {q : Nat} (h : q < 32768) :
    exec (.registerWrite (0x08000000 + 0x1000 * q) 4 (some v)) s = exec (.notify q (BitVec.ofNat 32 (v.toNat % 2 ^ 32))) s := by
  rw [registerWrite_word v s (by omega), barWrite_four v s (by omega) (by omega) (by omega)]
  simp only
  rw [if_neg (by omega), if_neg (by omega), if_pos (by omega), if_pos (by omega), show (0x08000000 + 0x1000 * q - 0x08000000) / 0x1000 = q by omega]
  rfl

theorem registerWrite_bfpScr (s : State) (v : Word64) {die core : Nat} (hd : die < 4) (hc : core < 256) :
    exec (.registerWrite (0x100000 + 0x10000 * die + 0x40 * core + 4) 4 (some v)) s =
      exec (.bfpScrWrite (256 * die + core) (BitVec.ofNat 32 (v.toNat % 2 ^ 32))) s := by
  rw [registerWrite_word v s (by omega), barWrite_four v s (by omega) (by omega) (by omega)]
  simp only
  rw [show 0x100000 + 0x10000 * die + 0x40 * core + 4 - 0x100000 = 0x10000 * die + 0x40 * core + 4 by omega, if_pos (by omega), if_pos (by omega),
    show 256 * ((0x10000 * die + 0x40 * core + 4) / 0x10000) + (0x10000 * die + 0x40 * core + 4) % 0x10000 / 0x40 = 256 * die + core by omega]
  rfl

/-- A word at the offsets of `barWord`. -/
theorem registerWrite_barWord {off : Nat} (s : State) (v : Word64) (h4 : off % 4 = 0) (hlo : off < 0x1000 ∨ 0x1040 ≤ off) (hhi : off < 0x100000) :
    exec (.registerWrite off 4 (some v)) s = .next (barWord s off (v.toNat % 2 ^ 32)) := by
  rw [registerWrite_word v s h4, barWrite_four v s hlo (by omega) h4]
  simp only
  rw [if_neg (by omega), if_neg (by omega), if_neg (by omega)]

/-! ### The room that ponds keep (R316) -/

/-- Every stack's pond keeps room for the rays admitted. -/
def RoomKept (s : State) : Prop := pondsHold s.bar.rayAdmit s.bar.extAdmit (pondRays s) = true

theorem roomKept_barWord (s : State) (off v : Nat) (h : RoomKept s) : RoomKept (barWord s off v) := by
  unfold barWord
  simp only [Bool.and_eq_true]
  split
  · split
    · next hv => exact hv.2
    · exact h
  split
  · split
    · exact h
    · exact h
  split
  · split
    · next hv => exact hv.2
    · exact h
  split
  · split
    · next hv =>
      have hpond : (fun i => if i = (off - 0x100) / 4 then v else pondRays s i) =
          pondRays { s with bar := { s.bar with pondRays := mput 512 s.bar.pondRays ((off - 0x100) / 4) v } } := by
        funext i
        simp only [pondRays, mget_mput]
      rw [hpond] at hv
      exact hv.2
    · exact h
  split
  · split <;> exact h
  split
  · split <;> exact h
  · exact h

/-- An outcome that leaves the room where the state before it had it. -/
def KeepsRoom (s : State) (o : Out) : Prop := ∀ t, o = .next t → RoomKept s → RoomKept t

theorem keepsRoom_next {s t : State} (h : RoomKept s → RoomKept t) : KeepsRoom s (.next t) := by
  rintro u ⟨⟩
  exact h

theorem keepsRoom_same (s : State) : KeepsRoom s (.next s) := keepsRoom_next id

theorem keepsRoom_ite {s : State} {p : Prop} [Decidable p] {x y : Out} (hx : p → KeepsRoom s x) (hy : ¬ p → KeepsRoom s y) : KeepsRoom s (if p then x else y) := by
  split
  · next h => exact hx h
  · next h => exact hy h

theorem keepsRoom_bfpScrWrite (core : Nat) (v : Word) (s : State) : KeepsRoom s (execBfpScrWrite core v s) :=
  keepsRoom_ite (fun _ => keepsRoom_same s) fun _ => keepsRoom_next id

theorem keepsRoom_bar2Win (v : Word64) (s : State) : KeepsRoom s (execBar2Win v s) :=
  keepsRoom_ite (fun _ => keepsRoom_next id) fun _ => keepsRoom_same s

/-- Below the boot buffer, no write takes away the room. -/
theorem keepsRoom_barWrite {off : Nat} (width : Nat) (v : Word64) (s : State) (hoff : off < 0x01000000) : KeepsRoom s (barWrite off width v s) := by
  simp only [barWrite, Bool.and_eq_true, decide_eq_true_eq, Bool.or_eq_true]
  refine keepsRoom_ite (fun _ => keepsRoom_ite (fun _ => keepsRoom_bar2Win v s) fun _ => keepsRoom_ite (fun _ => keepsRoom_next id) fun _ =>
    keepsRoom_ite (fun _ => keepsRoom_next id) fun _ => ?_) fun _ => keepsRoom_ite (fun _ => keepsRoom_next id) fun _ => ?_
  · rw [if_neg (by omega)]
    exact keepsRoom_same s
  · rw [if_neg (by omega)]
    refine keepsRoom_ite (fun _ => keepsRoom_ite (fun _ => keepsRoom_ite (fun _ => keepsRoom_bfpScrWrite _ _ s) fun _ => keepsRoom_same s) fun _ => ?_) fun _ => keepsRoom_same s
    rw [if_neg (by omega)]
    by_cases hd : 0x08000000 ≤ off ∧ off < 0x10000000
    · omega
    · rw [if_neg hd]
      exact keepsRoom_next (roomKept_barWord s off _)

theorem keepsRoom_registerWrite {off : Nat} (width : Nat) (v : Word64) (s : State) (hoff : off < 0x01000000) : KeepsRoom s (exec (.registerWrite off width (some v)) s) := by
  rw [exec_registerWrite_some]
  exact keepsRoom_ite (fun _ => keepsRoom_barWrite width v s hoff) fun _ => keepsRoom_same s

/-! ### SVC_DONE (R364) -/

theorem svcDone_only_posted {s : State} {ctx idx : Nat} (hc : ctx < 4096) (hi : idx < 2 ^ 32) (hk : s.svc.find? (fun k => k.ctx == ctx && k.idx == idx) = none) :
    exec (.svcDone ctx idx) s = .next { s with bar := { s.bar with svcDone := mput 0 s.bar.svcDone ctx (BitVec.ofNat 32 idx) } } := by
  simp only [exec, execSvcDone, Bool.or_eq_true, decide_eq_true_eq, hk]
  exact if_neg (by omega)

theorem svcDone_answered {s : State} {ctx idx : Nat} {k : SvcCall} (hc : ctx < 4096) (hi : idx < 2 ^ 32)
    (hk : s.svc.find? (fun k => k.ctx == ctx && k.idx == idx) = some k) :
    exec (.svcDone ctx idx) s =
      let s2 := { s with
        bar := { s.bar with svcDone := mput 0 s.bar.svcDone ctx (BitVec.ofNat 32 idx) }, svc := s.svc.map fun q => if q.id = k.id then { q with answered := true } else q }
      .next (if svcBlocked s k then s2 else takeSvc s2 k) := by
  simp only [exec, execSvcDone, Bool.or_eq_true, decide_eq_true_eq, hk]
  exact if_neg (by omega)

/-! ### Registers that are read -/

theorem registerRead_core (s : State) {core : Nat} (h : core < 1024) {reg : Nat} (hr : reg < 0x40) (h4 : reg % 4 = 0) :
    exec (.registerWrite (0x100000 + 0x10000 * (core / 256) + 0x40 * (core % 256) + reg) 4 none) s = .next { s with
      freeIdx := s.freeIdx + 1, outbox := s.outbox ++ [(13, [0x100000 + 0x10000 * (core / 256) + 0x40 * (core % 256) + reg, bfpRead (coreOf s core) reg])] } := by
  have hi : 0x100000 + 0x10000 * (core / 256) + 0x40 * (core % 256) + reg - 0x100000 = 0x10000 * (core / 256) + 0x40 * (core % 256) + reg := by omega
  rw [registerRead_word s (by omega) (by omega), barRead_four s (by omega) (by omega) (by omega) (by omega) (by omega)]
  simp only [barRead4, Bool.and_eq_true, decide_eq_true_eq, hi]
  rw [if_neg (by omega), if_neg (by omega), if_neg (by omega), if_neg (by omega), if_neg (by omega), if_neg (by omega), if_neg (by omega), if_neg (by omega),
    if_pos (by omega), if_pos (by omega),
    show 256 * ((0x10000 * (core / 256) + 0x40 * (core % 256) + reg) / 0x10000) + (0x10000 * (core / 256) + 0x40 * (core % 256) + reg) % 0x10000 / 0x40 = core by omega,
    show (0x10000 * (core / 256) + 0x40 * (core % 256) + reg) % 0x40 = reg by omega]

theorem registerRead_mbxStat (s : State) :
    exec (.registerWrite 0x10C0 4 none) s = .next { s with
      bar := { s.bar with mbxReply := false }, freeIdx := s.freeIdx + 1, outbox := s.outbox ++ [(13, [0x10C0, s.bar.mbxTaken.toNat + 2 * s.bar.mbxReply.toNat])] } := rfl

/-! ### The windows -/

theorem bar2Keys_eq_some {s : State} {off width : Nat} {ks : List Nat} (h : bar2Keys s off width = some ks) :
    ks = (List.range width).map (hbmKey (s.bar.bar2Win.toNat + off) + ·) ∧ s.bar.bar2Win.toNat + off + width ≤ 2 ^ 40 ∧ s.bar.bootStage = 3 ∧
      off + width ≤ 2 ^ s.bar.bar2Log2 := by
  simp only [bar2Keys, Bool.and_eq_true, decide_eq_true_eq, beq_iff_eq] at h
  split at h
  · next hc =>
    obtain ⟨⟨⟨hb, ho⟩, hp⟩, -⟩ := hc
    cases h
    exact ⟨rfl, hp, hb, ho⟩
  · cases h

theorem headD_map_range {width : Nat} (k : Nat) (h : 0 < width) : ((List.range width).map (k + ·)).headD 0 = k := by
  obtain ⟨n, rfl⟩ := Nat.exists_eq_succ_of_ne_zero h.ne'
  rw [List.range_succ_eq_map]
  rfl

theorem sliceWait_zero (s : State) : sliceWait s [(0, 0)] = none := by
  simp [sliceWait]

theorem hostBytes_of_no_poison {s : State} (h : anyPoison s = false) (ks : List Nat) : hostBytes s ks = bytesVal (ks.map (homeByte s)) := by
  have hp (k : Nat) : poisonedAt s k = false := by rw [poisonedAt, h, Bool.false_and]
  have hz : ks = (ks.zip (List.range ks.length)).map Prod.fst := (List.map_fst_zip (by simp)).symm
  simp only [hostBytes, hp, Bool.false_eq_true, if_false]
  conv_rhs => rw [hz, List.map_map]
  rfl

theorem headD_keys_wait (s : State) (k width : Nat) :
    (sliceWait s [(((List.range width).map (k + ·)).headD 0, width)]).isSome = (decide (0 < width) && (sliceWait s [(k, width)]).isSome) := by
  rcases Nat.eq_zero_or_pos width with rfl | h
  · simp [sliceWait_zero]
  · rw [headD_map_range k h]
    simp [h]

/-! #### Accesses through BAR2 -/

section
variable {s : State} {off width : Nat} {ks : List Nat} (h : bar2Keys s off width = some ks)
include h

theorem bar2Access_waits (hw : 0 < width) (hs : sliceWait s [(hbmKey (s.bar.bar2Win.toNat + off), width)] ≠ none) (v : Option Nat) :
    exec (.bar2Access ⟨.bar2, off, width⟩ v) s = .next s := by
  have hk := (bar2Keys_eq_some h).1
  have hsome : (sliceWait s [(ks.headD 0, width)]).isSome = true := by
    rw [hk, headD_keys_wait, Option.isSome_iff_ne_none.2 hs]
    simpa using hw
  cases v <;> simp only [exec, execBar2Access, h, hsome, Bool.true_or, if_true]

theorem bar2Access_loads (hs : sliceWait s [(hbmKey (s.bar.bar2Win.toNat + off), width)] = none) (hp : anyPoison s = false)
    (hc : ∀ k ∈ ks, channelWaits s s.nextId (place s k / 64) = false) :
    exec (.bar2Access ⟨.bar2, off, width⟩ none) s = .next { s with freeIdx := s.freeIdx + width, outbox := s.outbox ++ [(10, [bytesVal (ks.map (homeByte s))])] } := by
  have hany : (ks.any fun k => channelWaits s s.nextId (place s k / 64)) = false := List.any_eq_false.2 fun k hk => by simp [hc k hk]
  have hk := (bar2Keys_eq_some h).1
  have hw : (sliceWait s [(ks.headD 0, width)]).isSome = false := by rw [hk, headD_keys_wait, hs]; simp
  simp only [exec, execBar2Access, h, hw, hany, Bool.or_self, Bool.false_eq_true, if_false, report, hostBytes_of_no_poison hp]

theorem bar2Access_stores (v : Nat) (hw : 0 < width) (hs : sliceWait s [(hbmKey (s.bar.bar2Win.toNat + off), width)] = none) :
    exec (.bar2Access ⟨.bar2, off, width⟩ (some v)) s = .next (hostWrite s (byteList (hbmKey (s.bar.bar2Win.toNat + off)) v width)) := by
  obtain ⟨hk, -⟩ := bar2Keys_eq_some h
  have hh : ks.headD 0 = hbmKey (s.bar.bar2Win.toNat + off) := by rw [hk, headD_map_range _ hw]
  simp only [exec, execBar2Access, h, hh, hs, Option.isSome_none, Bool.false_eq_true, if_false]
end

theorem memoryAccess_loads {s : State} {off width : Nat} (hp : anyPoison s = false) (ho : off + width ≤ 2 ^ 52) :
    exec (.bar2Access ⟨.memory, off, width⟩ none) s =
      .next { s with freeIdx := s.freeIdx + width, outbox := s.outbox ++ [(10, [bytesVal (((List.range width).map (hostKey off + ·)).map (homeByte s))])] } := by
  simp only [exec, execBar2Access, report, hostBytes_of_no_poison hp]
  rw [if_neg (by omega)]

theorem memoryAccess_stores (s : State) {off width : Nat} (v : Nat) (ho : off + width ≤ 2 ^ 52) :
    exec (.bar2Access ⟨.memory, off, width⟩ (some v)) s = .next (hostStore s off width v) := by
  simp only [exec, execBar2Access]
  rw [if_neg (by omega)]

theorem exec_egressWindowProgram (s : State) (byHost : Bool) {idx limit : Nat} (base : Nat) (hi : idx < 16) (hl : limit ≤ 2 ^ 52) :
    exec (.egressWindowProgram byHost idx base limit) s =
      if s.hw.egressLocked = false ∧ s.bar.bootStage = (if byHost then 0 else 1) then
        .next { s with hw := { s.hw with egress := mput ⟨0, 0⟩ s.hw.egress idx ⟨base, limit⟩ } }
      else .next s := by
  have hl' : limit ≤ 4503599627370496 := hl
  simp [exec, execEgressWindowProgram, hi, hl']

/-! ### The registers of `barWord` -/

theorem barWord_mbxPost (s : State) (w : Nat) :
    barWord s 0x1040 w = if w = 1 then { s with bar := { s.bar with mbxPosted := true, mbxTaken := false } } else s := rfl

theorem barWord_leatAge (s : State) (w : Nat) : barWord s 0x84 w = if 1024 ≤ w then { s with bar := { s.bar with leatAge := w } } else s := rfl

theorem barWord_rayAdmit (s : State) (w : Nat) :
    barWord s 0x80 w = if 4096 ≤ w ∧ w ≤ 2 ^ 26 ∧ pondsHold w s.bar.extAdmit (pondRays s) = true then { s with bar := { s.bar with rayAdmit := w } } else s := by
  simp only [barWord, Bool.and_eq_true, decide_eq_true_eq, and_assoc, if_true]

theorem barWord_extAdmit (s : State) (w : Nat) :
    barWord s 0x88 w = if w ≤ 2 ^ 26 ∧ pondsHold s.bar.rayAdmit w (pondRays s) = true then { s with bar := { s.bar with extAdmit := w } } else s := by
  simp only [barWord, Bool.and_eq_true, decide_eq_true_eq]
  rfl

theorem barRead_bar2Win_high (s : State) : barRead s 12 4 = s.bar.bar2Win.toNat / 2 ^ 32 % 2 ^ 32 :=
  congrArg (· % 2 ^ 32) (Nat.shiftRight_eq_div_pow s.bar.bar2Win.toNat 32)

theorem registerRead_bar2Win_high (s : State) :
    exec (.registerWrite 12 4 none) s =
      .next { s with freeIdx := s.freeIdx + 1, outbox := s.outbox ++ [(13, [12, s.bar.bar2Win.toNat / 2 ^ 32 % 2 ^ 32])] } := by
  rw [registerRead_word s (by decide) (by decide), barRead_bar2Win_high]

/-- Settles O58: the windows by their events, the registers by what `barWrite` and `barRead` do at a named offset and at no named one. -/
theorem hostRegisters : Obligations.HostRegisters := by
  unfold Obligations.HostRegisters
  refine ⟨⟨fun s v => ?_, fun s log2 => ?_, fun s off width => ⟨fun v hk => ?_, fun ks hk => ?_, fun ho => ⟨fun hp => ?_, fun v => ?_⟩⟩,
      fun s byHost idx base limit hi hl => ⟨fun hlock hstage => ?_, fun hlock => ?_⟩⟩,
    fun s off width v => ?_, fun s off v h8 => ⟨?_, fun hlo hhi => ?_, fun hlo hhi => ?_⟩, fun s v => ⟨fun ctx hc => ?_, fun q hq => ?_, fun die core hd hc => ?_, ?_, ?_, ?_, ?_⟩,
    fun s t off width v hoff ht hroom => ?_, fun s ctx idx hc hi => ⟨fun k hk => ⟨fun hb => ?_, fun hb => ?_⟩, fun hk => ?_⟩, fun s => ?_⟩
  · simp only [exec, execBar2Win, Bool.and_eq_true, decide_eq_true_eq, beq_iff_eq]
    split <;> rfl
  · simp only [exec, execBar2Resize, Bool.and_eq_true, decide_eq_true_eq]
    split <;> rfl
  · simp only [exec, execBar2Access, hk, report]
  · obtain ⟨hkeys, hp, hb, ho⟩ := bar2Keys_eq_some hk
    exact ⟨hkeys, hp, hb, ho, bar2Access_waits hk, bar2Access_loads hk, fun v hw hs => ⟨_, bar2Access_stores hk v hw hs, rfl, rfl⟩⟩
  · exact memoryAccess_loads hp ho
  · exact ⟨_, memoryAccess_stores s v ho, rfl, rfl⟩
  · rw [exec_egressWindowProgram s byHost base hi hl, if_pos ⟨hlock, hstage⟩]
  · rw [exec_egressWindowProgram s byHost base hi hl, if_neg (by simp [hlock])]
  · have hw : width ∈ [1, 2, 4, 8] ↔ width = 1 ∨ width = 2 ∨ width = 4 ∨ width = 8 := by simp
    have ignored (h : ¬ (WriteNamed off width ∧ width ∈ [1, 2, 4, 8] ∧ off % width = 0)) := registerWrite_ignored v s h
    have zero (h : ¬ (ReadNamed off width ∧ width ∈ [1, 2, 4, 8] ∧ off % width = 0)) := registerRead_zero s h
    unfold WriteNamed at ignored
    unfold ReadNamed at zero
    rw [hw] at ignored zero
    refine ⟨fun h => ?_, fun h hn => ignored ?_, fun h hn => ignored ?_, fun hlo hhi h => ignored ?_, fun hlo hhi h => ignored ?_, fun hlo hhi h => ignored ?_,
      fun hlo hhi h => ignored ?_, fun h => ignored ?_, fun h hn => zero ?_, fun h hn => zero ?_, fun h hn => zero ?_⟩
    · rw [hw] at h
      exact ⟨ignored (by omega), zero (by omega)⟩
    all_goals omega
  · rintro rfl
    rfl
  · rw [registerWrite_long v s h8, barWrite_eight, if_neg (by omega), if_pos ⟨hlo, hhi⟩]
  · rw [registerWrite_long v s h8, barWrite_eight, if_neg (by omega), if_neg (by omega), if_neg (by omega), if_pos ⟨hlo, hhi⟩]
    rfl
  · exact registerWrite_svcDone s v hc
  · exact registerWrite_notify s v hq
  · exact registerWrite_bfpScr s v hd hc
  · rw [registerWrite_barWord s v (by decide) (by decide) (by decide), barWord_mbxPost]
  · rw [registerWrite_barWord s v (by decide) (by decide) (by decide), barWord_rayAdmit]
  · rw [registerWrite_barWord s v (by decide) (by decide) (by decide), barWord_leatAge]
  · rw [registerWrite_barWord s v (by decide) (by decide) (by decide), barWord_extAdmit]
  · exact keepsRoom_registerWrite width v s hoff t ht hroom
  · rw [svcDone_answered hc hi hk]
    simp only [hb, Bool.false_eq_true, if_false]
  · rw [svcDone_answered hc hi hk]
    simp only [hb, if_true]
  · exact svcDone_only_posted hc hi hk
  · exact ⟨rfl, rfl, rfl, rfl, rfl, rfl, registerRead_bar2Win_high s, fun core hc => ⟨registerRead_core s hc (reg := 0) (by decide) rfl,
      registerRead_core s hc (reg := 4) (by decide) rfl, registerRead_core s hc (reg := 8) (by decide) rfl⟩, registerRead_mbxStat s⟩

end Sys2Proof.Machine
end
section
/-! PROOFS. Memory stays canonical: for every function that hands on a state, that it leaves memory as it is, or that it keeps the canonical form of memory. In the order of the model. -/

namespace Sys2Proof.Machine

/-- The memory of the state that an outcome hands on, if it does, is in canonical form. -/
def OutWf : Out → Prop
  | .next t => Memory.wf t.mem = true
  | _ => True

/-- The same of a part of an engine's step. -/
def PartWf {α : Type} : Part α → Prop
  | .ok t _ => Memory.wf t.mem = true
  | .wait t => Memory.wf t.mem = true
  | .stop .. => True

/-- The same of what an access of an engine reaches. -/
def ReachWf : Reach → Prop
  | .ok t _ => Memory.wf t.mem = true
  | .wait t => Memory.wf t.mem = true
  | .fault _ => True

/-- The same of a check. -/
def CheckedWf : Checked → Prop
  | .ok t => Memory.wf t.mem = true
  | .wait t => Memory.wf t.mem = true
  | .fault _ => True

/-- The same of the end of a race check. -/
def RaceEndWf : RaceEnd → Prop
  | .ok t => Memory.wf t.mem = true
  | _ => True

/-- The same of a fetch. -/
def FetchedWf : Fetched → Prop
  | .done t => Memory.wf t.mem = true
  | .run _ t => Memory.wf t.mem = true

/-- The same of a move of the schedule. -/
def MoveWf : Move → Prop
  | .dead => True
  | .done t => Memory.wf t.mem = true
  | .run _ t => Memory.wf t.mem = true
  | .free t => Memory.wf t.mem = true

@[simp] theorem outWf_next (t : State) : OutWf (.next t) ↔ Memory.wf t.mem = true := Iff.rfl

theorem foldl_mem {β : Type} (f : State → β → State) (h : ∀ s x, (f s x).mem = s.mem) (xs : List β) (s : State) : (xs.foldl f s).mem = s.mem := by
  induction xs generalizing s with
  | nil => rfl
  | cons x xs ih => exact (ih _).trans (h s x)

theorem wf_foldl {β : Type} (f : State → β → State) (h : ∀ s x, Memory.wf s.mem = true → Memory.wf (f s x).mem = true) (xs : List β) (s : State)
    (w : Memory.wf s.mem = true) : Memory.wf (xs.foldl f s).mem = true := by
  induction xs generalizing s with
  | nil => exact w
  | cons x xs ih => exact ih _ (h s x w)

theorem wf_foldl_fst {β γ : Type} (f : State × γ → β → State × γ) (h : ∀ p x, Memory.wf p.1.mem = true → Memory.wf (f p x).1.mem = true) (xs : List β)
    (p : State × γ) (w : Memory.wf p.1.mem = true) : Memory.wf (xs.foldl f p).1.mem = true := by
  induction xs generalizing p with
  | nil => exact w
  | cons x xs ih => exact ih _ (h p x w)

/-- The same of a step whose payload is the state that it leaves. -/
def StepWf : Part State → Prop
  | .ok _ t => Memory.wf t.mem = true
  | .wait t => Memory.wf t.mem = true
  | .stop .. => True

theorem wf_stepBind {α : Type} (p : Part α) (f : State → α → Part State) (hp : PartWf p) (hf : ∀ s x, Memory.wf s.mem = true → StepWf (f s x)) :
    StepWf (p.bind f) := by
  cases p with
  | ok s x =>
    have h := hf s x hp
    simp only [Part.bind]
    split
    · trivial
    · exact h
  | wait s => exact hp
  | stop i side flags => trivial

@[simp] theorem outWf_fault (f : Fault) : OutWf (.fault f) := trivial
@[simp] theorem outWf_refused (r : Refusal) : OutWf (.refused r) := trivial
@[simp] theorem partWf_ok {α : Type} (t : State) (x : α) : PartWf (.ok t x) ↔ Memory.wf t.mem = true := Iff.rfl
@[simp] theorem partWf_wait {α : Type} (t : State) : PartWf (.wait t : Part α) ↔ Memory.wf t.mem = true := Iff.rfl
@[simp] theorem partWf_stop {α : Type} (f : TrapInfo) (side : Nat) (fl : List Nat) : PartWf (.stop f side fl : Part α) := trivial
@[simp] theorem stepWf_ok (s t : State) : StepWf (.ok s t) ↔ Memory.wf t.mem = true := Iff.rfl
@[simp] theorem stepWf_wait (t : State) : StepWf (.wait t) ↔ Memory.wf t.mem = true := Iff.rfl
@[simp] theorem stepWf_stop (f : TrapInfo) (side : Nat) (fl : List Nat) : StepWf (.stop f side fl) := trivial
@[simp] theorem stepWf_fault (f : TrapInfo) (side : Nat) : StepWf (Part.fault f side) := trivial
@[simp] theorem reachWf_ok (t : State) (xs : List (Nat × Nat)) : ReachWf (.ok t xs) ↔ Memory.wf t.mem = true := Iff.rfl
@[simp] theorem reachWf_wait (t : State) : ReachWf (.wait t) ↔ Memory.wf t.mem = true := Iff.rfl
@[simp] theorem reachWf_fault (f : TrapInfo) : ReachWf (.fault f) := trivial
@[simp] theorem checkedWf_ok (t : State) : CheckedWf (.ok t) ↔ Memory.wf t.mem = true := Iff.rfl
@[simp] theorem checkedWf_wait (t : State) : CheckedWf (.wait t) ↔ Memory.wf t.mem = true := Iff.rfl
@[simp] theorem checkedWf_fault (f : TrapInfo) : CheckedWf (.fault f) := trivial
@[simp] theorem raceEndWf_ok (t : State) : RaceEndWf (.ok t) ↔ Memory.wf t.mem = true := Iff.rfl
@[simp] theorem raceEndWf_conflict (sl : TagSlot) : RaceEndWf (.conflict sl) := trivial
@[simp] theorem raceEndWf_wait (k : StoreWait) : RaceEndWf (.wait k) := trivial
@[simp] theorem fetchedWf_done (t : State) : FetchedWf (.done t) ↔ Memory.wf t.mem = true := Iff.rfl
@[simp] theorem fetchedWf_run (i : Instr) (t : State) : FetchedWf (.run i t) ↔ Memory.wf t.mem = true := Iff.rfl
@[simp] theorem moveWf_dead : MoveWf .dead := trivial
@[simp] theorem moveWf_done (t : State) : MoveWf (.done t) ↔ Memory.wf t.mem = true := Iff.rfl
@[simp] theorem moveWf_run (i : Instr) (t : State) : MoveWf (.run i t) ↔ Memory.wf t.mem = true := Iff.rfl
@[simp] theorem moveWf_free (t : State) : MoveWf (.free t) ↔ Memory.wf t.mem = true := Iff.rfl

/-! ### Ops -/

@[simp] theorem wf_gangDo (g : Guard) (s : State) (f : Env → Out) (w : Memory.wf s.mem = true) (hf : ∀ e, Memory.wf e.s.mem = true → OutWf (f e)) :
    OutWf (gangDo g s f) := by
  unfold gangDo
  repeat' split
  all_goals simp [w, hf]

@[simp] theorem wf_regInstr (a : Args) (s : State) (f : Crew → Thread → List Wr) (w : Memory.wf s.mem = true) : OutWf (regInstr a s f) := by
  simp [regInstr, w]

@[simp] theorem wf_trapGang (e : Env) (info : TrapInfo) (w : Memory.wf e.s.mem = true) : OutWf (trapGang e info) := by
  simp [trapGang, w]

@[simp] theorem holdGang_mem (s : State) (uid : Nat) (gang : List Nat) (who : List Nat) (h1 : Hold) : (holdGang s uid gang who h1).mem = s.mem := rfl
@[simp] theorem leaveGang_mem (s : State) (uid : Nat) (tids : List Nat) : (leaveGang s uid tids).mem = s.mem := rfl
@[simp] theorem telemetry_mem (s : State) (ctx : Nat) (kind : Nat) : (telemetry s ctx kind).mem = s.mem := rfl
@[simp] theorem syncPoint_mem (s : State) (uid : Nat) (tid : Nat) : (syncPoint s uid tid).mem = s.mem := rfl

/-! ### Translate -/

@[simp] theorem wf_writeHome (goes : List Nat → CacheLine → Bool) (s : State) (ws : List (Nat × Byte)) (w : Memory.wf s.mem = true) :
    Memory.wf (writeHome goes s ws).mem = true := by
  unfold writeHome
  simp [w, wf_memPutAll]

@[simp] theorem wf_hostWrite (s : State) (ws : List (Nat × Byte)) (w : Memory.wf s.mem = true) : Memory.wf (hostWrite s ws).mem = true := by
  simp [hostWrite, w]

@[simp] theorem keepPast_mem (s : State) (ctx : Nat) (keys : List Nat) : (keepPast s ctx keys).mem = s.mem := rfl

@[simp] theorem pathSector_mem (path : Nat) (ctx : Nat) (sec : Nat) (s : State) : (pathSector path ctx sec s).1.mem = s.mem := by
  unfold pathSector
  repeat' split
  all_goals simp

@[simp] theorem fillTlb_mem (s : State) (ctx : Nat) (die : Nat) (core : Nat) (va : Nat) (l : Leaf) (log2 : Nat) :
    (fillTlb s ctx die core va l log2).mem = s.mem := rfl

@[simp] theorem startWalk_mem (s : State) (ctx : Nat) (die : Nat) (core : Nat) (va : Nat) (quiet : Bool) :
    (startWalk s ctx die core va quiet).1.mem = s.mem := by
  unfold startWalk
  split <;> rfl

@[simp] theorem parkWalk_mem (s : State) (c : Crew) (tid : Nat) (va : Nat) : (parkWalk s c tid va).mem = s.mem := by
  simp [parkWalk]

/-! ### Sync -/

@[simp] theorem updateL1_mem (s : State) (core : Nat) (ws : List (Nat × Byte)) : (updateL1 s core ws).mem = s.mem := rfl

@[simp] theorem wf_performStore (s : State) (p : PendingStore) (w : Memory.wf s.mem = true) : Memory.wf (performStore s p).mem = true := by
  unfold performStore
  repeat' split
  all_goals simp [w, wf_homeWrite]

@[simp] theorem wf_drainStores (s : State) (uid : Nat) (tid : Nat) (ks : List (Nat × Byte)) (w : Memory.wf s.mem = true) :
    Memory.wf (drainStores s uid tid ks).mem = true := by
  simp +contextual [drainStores, w, wf_foldl]

@[simp] theorem wf_passStores (s : State) (scope : Nat) (uid : Nat) (tids : List Nat) (w : Memory.wf s.mem = true) :
    Memory.wf (passStores s scope uid tids).mem = true := by
  unfold passStores
  grind only [wf_performStore, wf_foldl]

@[simp] theorem wf_releaseGate (scope : Nat) (s : State) (uid : Nat) (gang : List Nat) (who : List Nat) (k : State → Out) (w : Memory.wf s.mem = true) (hk : ∀ t, Memory.wf t.mem = true → OutWf (k t)) :
    OutWf (releaseGate scope s uid gang who k) := by
  unfold releaseGate
  simp only
  repeat' split
  all_goals simp [w, hk]

@[simp] theorem wf_withRelease (scope : Nat) (e : Env) (k : Env → Out) (w : Memory.wf e.s.mem = true) (hk : ∀ e, Memory.wf e.s.mem = true → OutWf (k e)) :
    OutWf (withRelease scope e k) := by
  unfold withRelease
  grind only [wf_releaseGate]

@[simp] theorem acquireOn_mem (s : State) (core : Nat) (scope : Nat) : (acquireOn s core scope).mem = s.mem := by
  unfold acquireOn
  split <;> rfl

@[simp] theorem acquire_mem (s : State) (uid : Nat) (scope : Nat) : (acquire s uid scope).mem = s.mem := by
  unfold acquire
  split <;> simp

@[simp] theorem syncActive_mem (s : State) (uid : Nat) (tids : List Nat) : (syncActive s uid tids).mem = s.mem := rfl

/-! ### Control -/

@[simp] theorem wf_execNop (a : Args) (s : State) (w : Memory.wf s.mem = true) : OutWf (execNop a s) := by
  simp [execNop, w]

@[simp] theorem transfer_mem (e : Env) (f : Crew → Crew) (target : Thread → Word64) : (transfer e f target).mem = e.s.mem := rfl

@[simp] theorem wf_execBr (a : Args) (s : State) (w : Memory.wf s.mem = true) : OutWf (execBr a s) := by
  simp [execBr, w]

@[simp] theorem wf_execBrd (a : Args) (s : State) (w : Memory.wf s.mem = true) : OutWf (execBrd a s) := by
  simp [execBrd, w]

@[simp] theorem wf_withTargets (a : Args) (e : Env) (k : (Thread → Word64) → Out) (w : Memory.wf e.s.mem = true) (hk : ∀ x, OutWf (k x)) :
    OutWf (withTargets a e k) := by
  unfold withTargets
  simp only
  repeat' split
  all_goals simp [w, hk]

@[simp] theorem wf_execBri (a : Args) (s : State) (w : Memory.wf s.mem = true) : OutWf (execBri a s) := by
  unfold execBri
  grind only [wf_gangDo, wf_withTargets, transfer_mem, OutWf]

@[simp] theorem wf_execCall (a : Args) (s : State) (w : Memory.wf s.mem = true) : OutWf (execCall a s) := by
  simp [execCall, w]

@[simp] theorem wf_execCalli (a : Args) (s : State) (w : Memory.wf s.mem = true) : OutWf (execCalli a s) := by
  unfold execCalli
  grind only [wf_gangDo, wf_withTargets, transfer_mem, updCrew_mem, OutWf]

@[simp] theorem wf_execRet (a : Args) (s : State) (w : Memory.wf s.mem = true) : OutWf (execRet a s) := by
  unfold execRet
  grind only [wf_gangDo, wf_withTargets, transfer_mem, OutWf]

@[simp] theorem wf_execBarSync (a : Args) (s : State) (w : Memory.wf s.mem = true) : OutWf (execBarSync a s) := by
  unfold execBarSync
  grind only [wf_gangDo, retire_mem, wf_withRelease, updCrew_mem, OutWf]

@[simp] theorem wf_execBarArrive (a : Args) (s : State) (w : Memory.wf s.mem = true) : OutWf (execBarArrive a s) := by
  simp +contextual [execBarArrive, w]

@[simp] theorem wf_execBarWait (a : Args) (s : State) (w : Memory.wf s.mem = true) : OutWf (execBarWait a s) := by
  simp [execBarWait, w]

@[simp] theorem wf_execVote (a : Args) (s : State) (w : Memory.wf s.mem = true) : OutWf (execVote a s) := by
  simp [execVote, w]

@[simp] theorem wf_execRegang (a : Args) (s : State) (w : Memory.wf s.mem = true) : OutWf (execRegang a s) := by
  simp [execRegang, w]

@[simp] theorem setMeet_mem (e : Env) (f : Thread → Word64) : (setMeet e f).mem = e.s.mem := rfl

@[simp] theorem wf_execMeetX (a : Args) (s : State) (w : Memory.wf s.mem = true) : OutWf (execMeetX a s) := by
  simp [execMeetX, w]

@[simp] theorem wf_execMeetSet (a : Args) (s : State) (w : Memory.wf s.mem = true) : OutWf (execMeetSet a s) := by
  simp [execMeetSet, w]

@[simp] theorem wf_execShfl (a : Args) (s : State) (w : Memory.wf s.mem = true) : OutWf (execShfl a s) := by
  simp [execShfl, w]

/-! ### Race -/

@[simp] theorem dropShared_mem (s : State) (line : Nat) (sh : Option SharedLine) : (dropShared s line sh).mem = s.mem := by
  unfold dropShared
  split <;> rfl

theorem wf_raceLine (s : State) (a : Accessor) (k : Nat) (n : Nat) (write : Bool) (w : Memory.wf s.mem = true) :
    RaceEndWf (raceLine s a k n write) := by
  unfold raceLine
  simp only
  repeat' split
  all_goals simp [w]

theorem wf_raceCheck (s : State) (a : Accessor) (write : Bool) (a1 : List (Nat × Nat)) (w : Memory.wf s.mem = true) :
    RaceEndWf (raceCheck s a write a1).1 := by
  induction a1 generalizing s with
  | nil => exact w
  | cons x xs ih => unfold raceCheck; grind +splitImp only [wf_raceLine, RaceEndWf]

theorem wf_raceRuns (s : State) (a : Accessor) (write : Bool) (runs : List (Nat × Nat)) (w : Memory.wf s.mem = true) :
    RaceEndWf (raceRuns s a write runs).1 := by
  unfold raceRuns
  grind only [wf_raceCheck]

/-! ### Touch -/

@[simp] theorem wf_setMapField (s : State) (ctx : Nat) (va : Nat) (lo : Nat) (n : Nat) (v : Nat) (w : Memory.wf s.mem = true) :
    Memory.wf (setMapField s ctx va lo n v).mem = true := by
  unfold setMapField
  repeat' split
  all_goals simp [w, wf_memPut]

@[simp] theorem wf_setBlockState (s : State) (ctx : Nat) (r : Range) (i : Nat) (v : Nat) (w : Memory.wf s.mem = true) :
    Memory.wf (setBlockState s ctx r i v).mem = true := by
  simp [setBlockState, w]

@[simp] theorem wf_setPin (s : State) (ctx : Nat) (r : Range) (i : Nat) (b : Bool) (w : Memory.wf s.mem = true) :
    Memory.wf (setPin s ctx r i b).mem = true := by
  simp [setPin, w]

@[simp] theorem wf_spawnGen (s : State) (t : Toucher) (r : Range) (i : Nat) (w : Memory.wf s.mem = true) :
    Memory.wf (spawnGen s t r i).mem = true := by
  simp [spawnGen, w]

@[simp] theorem wf_touchWait (s : State) (t : Toucher) (r : Range) (i : Nat) (who : Demander) (w : Memory.wf s.mem = true) :
    Memory.wf (touchWait s t r i who).mem = true := by
  unfold touchWait
  simp only
  repeat' split
  all_goals simp [w]

@[simp] theorem wf_touchQuiet (s : State) (t : Toucher) (r : Range) (i : Nat) (w : Memory.wf s.mem = true) :
    Memory.wf (touchQuiet s t r i).mem = true := by
  unfold touchQuiet
  repeat' split
  all_goals simp [w]

@[simp] theorem wf_logReply (s : State) (c : Crew) (kind : Nat) (target : Nat) (key : Nat) (payload : List PutField) (w : Memory.wf s.mem = true) :
    Memory.wf (logReply s c kind target key payload).mem = true := by
  unfold logReply
  grind only [wf_homeWriteN, updCtx_mem, wf_foldl]

@[simp] theorem wf_wakeLanes (s : State) (uid : Nat) (tids : List Nat) (key : Nat) (blk : Option (Nat × Nat)) (fault : Option TrapInfo) (w : Memory.wf s.mem = true) :
    Memory.wf (wakeLanes s uid tids key blk fault).mem = true := by
  unfold wakeLanes
  split <;> simp [w]

@[simp] theorem wakeOwners_mem (s : State) (id : Nat) : (wakeOwners s id).mem = s.mem := by
  unfold wakeOwners
  grind only [acquireOn_mem, syncPoint_mem, foldl_mem]

@[simp] theorem wf_wakeDemander (s : State) (w1 : Waiter) (fault : Option TrapInfo) (w : Memory.wf s.mem = true) :
    Memory.wf (wakeDemander s w1 fault).mem = true := by
  unfold wakeDemander
  repeat' split
  all_goals simp [w]

@[simp] theorem wf_settleDue (s : State) (w : Memory.wf s.mem = true) : Memory.wf (settleDue s).mem = true := by
  unfold settleDue
  grind only [wf_wakeDemander, wf_foldl]

@[simp] theorem wf_wakeBlock (s : State) (ctx : Nat) (blk : Nat × Nat) (fault : Option TrapInfo) (w : Memory.wf s.mem = true) :
    Memory.wf (wakeBlock s ctx blk fault).mem = true := by
  simp +contextual [wakeBlock, w, wf_foldl]

@[simp] theorem endFill_mem (s : State) (ctx : Nat) (range : Nat) (i : Nat) : (endFill s ctx range i).mem = s.mem := rfl

@[simp] theorem wf_failBlock (s : State) (ctx : Nat) (range : Nat) (i : Nat) (cause : Nat) (code : Nat) (gtrap : Nat) (gsub : Nat) (gpc : Nat) (w : Memory.wf s.mem = true) :
    Memory.wf (failBlock s ctx range i cause code gtrap gsub gpc).mem = true := by
  unfold failBlock
  repeat' split
  all_goals simp [w]

@[simp] theorem dropCopies_mem (s : State) (ctx : Nat) (keys : Nat → Bool) : (dropCopies s ctx keys).mem = s.mem := rfl

/-! ### Access -/

@[simp] theorem wf_lanesTrap (e : Env) (code : Nat) (sub : Nat) (ls : List LaneAcc) (more : List PutField) (w : Memory.wf e.s.mem = true) :
    OutWf (lanesTrap e code sub ls more) := by
  simp [lanesTrap, w]

@[simp] theorem wf_parkBlock (s : State) (c : Crew) (r : Range) (i : Nat) (tids : List Nat) (w : Memory.wf s.mem = true) :
    Memory.wf (parkBlock s c r i tids).mem = true := by
  simp [parkBlock, w]

@[simp] theorem wf_parkLanes (s : State) (c : Crew) (ls : List (LaneAcc × Stay)) (w : Memory.wf s.mem = true) :
    Memory.wf (parkLanes s c ls).mem = true := by
  unfold parkLanes
  grind only [parkWalk_mem, holdT_mem, leaveGang_mem, wf_parkBlock, wf_foldl]

@[simp] theorem wf_memGate (e : Env) (n : Need) (ls : List LaneAcc) (k : State → List Ready' → Out) (w : Memory.wf e.s.mem = true) (hk : ∀ t x, Memory.wf t.mem = true → OutWf (k t x)) :
    OutWf (memGate e n ls k) := by
  unfold memGate
  simp only
  repeat' split
  all_goals simp [w, hk]

@[simp] theorem dropL1Line_mem (s : State) (core : Nat) (line : Nat) : (dropL1Line s core line).mem = s.mem := rfl
@[simp] theorem fillSector_mem (s : State) (kind : CacheKind) (ctx : Nat) (sec : Nat) : (fillSector s kind ctx sec).mem = s.mem := rfl

theorem throughCache_mem (kind : CacheKind) (ctx : Nat) (sec : Nat) (fetch : State → State × List Byte) (s : State) (hf : ∀ s, (fetch s).1.mem = s.mem) :
    (throughCache kind ctx sec fetch s).1.mem = s.mem := by
  unfold throughCache
  grind

@[simp] theorem beyondL1_mem (c : Crew) (p : Piece) (sec : Nat) (s : State) : (beyondL1 c p sec s).1.mem = s.mem := by
  unfold beyondL1
  grind only [throughCache_mem]

@[simp] theorem ordinarySector_mem (c : Crew) (nol1 : Bool) (p : Piece) (s : State) (sec : Nat) : (ordinarySector c nol1 p s sec).1.mem = s.mem := by
  unfold ordinarySector
  grind only [beyondL1_mem, throughCache_mem]

@[simp] theorem ordinarySectors_mem (c : Crew) (nol1 : Bool) (p : Piece) (s : State) (a : List Nat) :
    (ordinarySectors c nol1 p s a).1.mem = s.mem := by
  induction a generalizing s with
  | nil => rfl
  | cons x xs ih => unfold ordinarySectors; grind +splitImp only [ordinarySector_mem]

@[simp] theorem readOrdinary_mem (s : State) (c : Crew) (nol1 : Bool) (p : Piece) : (readOrdinary s c nol1 p).1.mem = s.mem := by
  simp [readOrdinary]

@[simp] theorem fillRequests_mem (s : State) (c : Crew) (ps : List Piece) : (fillRequests s c ps).mem = s.mem := by
  unfold fillRequests
  grind only [fillSector_mem, foldl_mem]

@[simp] theorem wf_readPiece (s : State) (c : Crew) (tid : Nat) (path : Path) (p : Piece) (w : Memory.wf s.mem = true) :
    Memory.wf (readPiece s c tid path p).1.mem = true := by
  unfold readPiece
  repeat' split
  all_goals simp [w]

@[simp] theorem wf_readPieces (s : State) (c : Crew) (tid : Nat) (path : Path) (a : List Piece) (w : Memory.wf s.mem = true) :
    Memory.wf (readPieces s c tid path a).1.mem = true := by
  induction a generalizing s with
  | nil => exact w
  | cons x xs ih => unfold readPieces; grind +splitImp only [wf_readPiece]

@[simp] theorem issueLoad_mem (s : State) (uid : Nat) (tid : Nat) (d : Opnd) (n : Nat) (v : Nat) (poison : Option Word64) (atoms : List Nat) (ea : optParam Word64 0) (peer : optParam Bool false) :
    (issueLoad s uid tid d n v poison atoms ea peer).mem = s.mem := rfl

@[simp] theorem pinLine_mem (ctx : Nat) (s : State) (line : Nat) : (pinLine ctx s line).mem = s.mem := by
  unfold pinLine
  repeat' split
  all_goals simp

@[simp] theorem pinLines_mem (s : State) (ctx : Nat) (ps : List Piece) : (pinLines s ctx ps).mem = s.mem := by
  simp +contextual [pinLines, foldl_mem]

@[simp] theorem setPoison_mem (s : State) (uid : Nat) : (setPoison s uid).mem = s.mem := rfl

@[simp] theorem wf_loadLane (c : Crew) (path : Path) (d : Opnd) (n : Nat) (s : State) (l : Ready') (w : Memory.wf s.mem = true) :
    Memory.wf (loadLane c path d n s l).mem = true := by
  unfold loadLane
  simp only
  repeat' split
  all_goals simp [w]

@[simp] theorem issueStore_mem (s : State) (c : Crew) (t : Thread) (pc : Word64) (ea : Word64) (strong : Bool) (wait : StoreWait) (batch : Nat) (clears : List Nat) (bytes : List (Nat × Byte)) :
    (issueStore s c t pc ea strong wait batch clears bytes).mem = s.mem := rfl

@[simp] theorem storeLane_mem (c : Crew) (is : Issue) (path : Path) (batch : Nat) (clears : List Nat) (val : Thread → Nat) (wait : StoreWait) (s : State) (l : Ready') :
    (storeLane c is path batch clears val wait s l).mem = s.mem := by
  unfold storeLane
  grind only [dropL1Line_mem, updateL1_mem, pinLines_mem, issueStore_mem, foldl_mem]

@[simp] theorem wf_passLane (c : Crew) (checked : Bool) (store : Bool) (act : StoreWait → State → Ready' → State) (p : Passage) (l : Ready') (hact : ∀ x t y, Memory.wf t.mem = true → Memory.wf (act x t y).mem = true) (w : Memory.wf p.s.mem = true) :
    Memory.wf (passLane c checked store act p l).s.mem = true := by
  unfold passLane
  grind only [wf_raceRuns, updT_mem, holdT_mem, RaceEndWf]

@[simp] theorem onceS_mem (n : Nat) (s : State) : (onceS n s).mem = s.mem := rfl

@[simp] theorem wf_passAll (e : Env) (checked store : Bool) (act : StoreWait → State → Ready' → State) (fin : State → State) (s : State) (ls : List Ready')
    (hact : ∀ k s l, Memory.wf s.mem = true → Memory.wf (act k s l).mem = true) (hfin : ∀ s, Memory.wf s.mem = true → Memory.wf (fin s).mem = true)
    (w : Memory.wf s.mem = true) : OutWf (passAll e checked store act fin s ls) := by
  have hp : ∀ (p : Passage), Memory.wf p.s.mem = true → Memory.wf (ls.foldl (passLane e.c checked store act) p).s.mem = true := by
    induction ls with
    | nil => exact fun _ w => w
    | cons l ls ih => exact fun p w => ih _ (wf_passLane _ _ _ _ _ _ hact w)
  have h0 := hp { s := s } w
  unfold passAll
  simp only
  split
  · simp [h0]
  · simp only [outWf_next, retireSome_mem]
    exact hfin _ h0

/-! ### RayTable -/

@[simp] theorem reindexSlots_mem (s : State) (uid : Nat) (core : Nat) : (reindexSlots s uid core).mem = s.mem := rfl

/-! ### Crews -/

@[simp] theorem startCrew_mem (s : State) (kind : CrewKind) (ctx : Nat) (run : Option Nat) (span : Nat) (num : Word) (stage : Nat) (core : Nat) (slot : Nat) (h1 : CrewShape) (priv : Bool) (strict : Bool) (entry : Word64) (regs : SMap Word) :
    (startCrew s kind ctx run span num stage core slot h1 priv strict entry regs).mem = s.mem := rfl

@[simp] theorem carryNodes_mem (s : State) (uid : Nat) (core : Nat) : (carryNodes s uid core).mem = s.mem := rfl
@[simp] theorem withdrawRing_mem (s : State) (r : RingReq) : (withdrawRing s r).mem = s.mem := rfl

@[simp] theorem leaveCore_mem (s : State) (uid : Nat) : (leaveCore s uid).mem = s.mem :=
  foldl_mem _ withdrawRing_mem _ _

@[simp] theorem retagCrew_mem (s : State) (uid : Nat) (core : Nat) : (retagCrew s uid core).mem = s.mem := rfl

@[simp] theorem wf_restoreOn (s : State) (uid : Nat) (core : Nat) (w : Memory.wf s.mem = true) : Memory.wf (restoreOn s uid core).mem = true := by
  unfold restoreOn
  split <;> simp [w]

@[simp] theorem beginTaking_mem (s : State) (uid : Nat) (dest : Option Nat) : (beginTaking s uid dest).mem = s.mem := rfl

/-! ### Memory -/

@[simp] theorem wf_doLoad (e : Env) (a : Args) (ls : List LaneAcc) (w : Memory.wf e.s.mem = true) : OutWf (doLoad e a ls) := by
  unfold doLoad
  grind +splitImp only [wf_memGate, wf_passAll, wf_loadLane, onceS_mem, fillRequests_mem]

@[simp] theorem wf_doStore (e : Env) (a : Args) (ls : List LaneAcc) (w : Memory.wf e.s.mem = true) : OutWf (doStore e a ls) := by
  unfold doStore
  grind [wf_memGate, wf_passAll, storeLane_mem]

@[simp] theorem wf_execLd (a : Args) (s : State) (w : Memory.wf s.mem = true) : OutWf (execLd a s) := by
  unfold execLd
  grind only [wf_gangDo, wf_doLoad]

@[simp] theorem wf_execSt (a : Args) (s : State) (w : Memory.wf s.mem = true) : OutWf (execSt a s) := by
  unfold execSt
  grind only [wf_gangDo, wf_doStore]

@[simp] theorem wf_recLanes (e : Env) (a : Args) (k : List LaneAcc → Out) (w : Memory.wf e.s.mem = true) (hk : ∀ x, OutWf (k x)) :
    OutWf (recLanes e a k) := by
  unfold recLanes
  simp only
  repeat' split
  all_goals simp [w, hk]

@[simp] theorem wf_execLdx (a : Args) (s : State) (w : Memory.wf s.mem = true) : OutWf (execLdx a s) := by
  unfold execLdx
  grind only [wf_gangDo, wf_recLanes, wf_doLoad]

@[simp] theorem wf_execStx (a : Args) (s : State) (w : Memory.wf s.mem = true) : OutWf (execStx a s) := by
  unfold execStx
  grind only [wf_gangDo, wf_recLanes, wf_doStore]

@[simp] theorem fetchLine_mem (s : State) (c : Crew) (l1 : Bool) (p : Piece) : (fetchLine s c l1 p).mem = s.mem := by
  unfold fetchLine
  grind only [fillSector_mem, foldl_mem]

@[simp] theorem wf_startExpansion (s : State) (ctx : Nat) (va : Nat) (key : Nat) (l : Leaf) (w : Memory.wf s.mem = true) :
    Memory.wf (startExpansion s ctx va key l).mem = true := by
  unfold startExpansion
  repeat' split
  all_goals simp [w, wf_homeWriteN]

@[simp] theorem wf_prefAct (c : Crew) (sub : Nat) (pin : Bool) (va : Nat) (x : TlbEntry) (pte : Nat) (s : State) (w : Memory.wf s.mem = true) :
    Memory.wf (prefAct c sub pin va x pte s).mem = true := by
  unfold prefAct
  simp only
  repeat' split
  all_goals simp [w]

@[simp] theorem wf_prefLane (c : Crew) (sub : Nat) (pin : Bool) (s : State) (va : Nat) (w : Memory.wf s.mem = true) :
    Memory.wf (prefLane c sub pin s va).mem = true := by
  unfold prefLane
  simp only
  repeat' split
  all_goals simp [w]

@[simp] theorem wf_execPref (a : Args) (s : State) (w : Memory.wf s.mem = true) : OutWf (execPref a s) := by
  unfold execPref
  grind only [wf_gangDo, retire_mem, wf_prefLane, wf_foldl, OutWf]

@[simp] theorem issueAck_mem (s : State) (c : Crew) (t : Thread) : (issueAck s c t).mem = s.mem := rfl

@[simp] theorem wf_cctlRange (a : Args) (s : State) (f : Crew → State → (Nat → Bool) → State) (w : Memory.wf s.mem = true) (hf : ∀ x t y, Memory.wf t.mem = true → Memory.wf (f x t y).mem = true) :
    OutWf (cctlRange a s f) := by
  unfold cctlRange
  grind only [wf_gangDo, wf_trapGang, retire_mem, issueAck_mem, wf_foldl, OutWf]

@[simp] theorem wf_execCctlInvL1 (a : Args) (s : State) (w : Memory.wf s.mem = true) : OutWf (execCctlInvL1 a s) := by
  unfold execCctlInvL1
  grind only [wf_gangDo, retire_mem, OutWf]

@[simp] theorem wf_execCctlInvL1r (a : Args) (s : State) (w : Memory.wf s.mem = true) : OutWf (execCctlInvL1r a s) :=
  wf_cctlRange _ _ _ w fun _ _ _ w => w

@[simp] theorem wf_execCctlWbL2r (a : Args) (s : State) (w : Memory.wf s.mem = true) : OutWf (execCctlWbL2r a s) := by
  simp [execCctlWbL2r, w]

@[simp] theorem wf_execCctlInvL2r (a : Args) (s : State) (w : Memory.wf s.mem = true) : OutWf (execCctlInvL2r a s) :=
  wf_cctlRange _ _ _ w fun _ _ _ w => w

@[simp] theorem wf_execCctlInvRdcr (a : Args) (s : State) (w : Memory.wf s.mem = true) : OutWf (execCctlInvRdcr a s) :=
  wf_cctlRange _ _ _ w fun _ _ _ w => w

@[simp] theorem wf_execCctlUnpin (a : Args) (s : State) (w : Memory.wf s.mem = true) : OutWf (execCctlUnpin a s) := by
  simp [execCctlUnpin, w]

@[simp] theorem wf_privTrap (e : Env) (op : Nat) (w : Memory.wf e.s.mem = true) : OutWf (privTrap e op) := by
  simp [privTrap, w]

@[simp] theorem wf_execCctlPart (a : Args) (s : State) (w : Memory.wf s.mem = true) : OutWf (execCctlPart a s) := by
  unfold execCctlPart
  grind only [wf_gangDo, retire_mem, updCrew_mem, wf_privTrap, updCore_mem, holdGang_mem, OutWf]

@[simp] theorem wf_execMigHint (a : Args) (s : State) (w : Memory.wf s.mem = true) : OutWf (execMigHint a s) := by
  unfold execMigHint
  grind only [wf_gangDo, retire_mem, telemetry_mem, updCtx_mem, foldl_mem, OutWf]

@[simp] theorem wf_execMigMove (a : Args) (s : State) (w : Memory.wf s.mem = true) : OutWf (execMigMove a s) := by
  unfold execMigMove
  grind only [wf_gangDo, retire_mem, telemetry_mem, countUp_mem, foldl_mem, OutWf]

/-! ### Sluice -/

@[simp] theorem wf_setLeavesP (s : State) (ctx : Nat) (ls : List (Leaf × Nat × Nat × Nat)) (p : Bool) (w : Memory.wf s.mem = true) :
    Memory.wf (setLeavesP s ctx ls p).mem = true := by
  unfold setLeavesP
  grind only [wf_homeWrite, wf_foldl]

@[simp] theorem wf_zeroRun (s : State) (ctx : Nat) (va : Nat) (len : Nat) (w : Memory.wf s.mem = true) :
    Memory.wf (zeroRun s ctx va len).mem = true := by
  unfold zeroRun
  grind only [wf_homeWriteN, wf_foldl]

@[simp] theorem wf_registerRange (s : State) (ctx : Nat) (n : Nat) (v : Nat) (w : Memory.wf s.mem = true) :
    Memory.wf (registerRange s ctx n v).mem = true := by
  simp [registerRange, w]

@[simp] theorem putD_mem (s : State) (uid : Nat) (tid : Nat) (d : Opnd) (v : Nat) : (putD s uid tid d v).mem = s.mem := rfl

@[simp] theorem lanePoison_mem (s : State) (c : Crew) (tid : Nat) (ea : Word64) : (lanePoison s c tid ea).mem = s.mem := by
  unfold lanePoison
  split <;> rfl

@[simp] theorem lanePoisons_mem (before : State) (s : State) (c : Crew) (l : Ready') : (lanePoisons before s c l).mem = s.mem := by
  unfold lanePoisons
  split <;> simp

@[simp] theorem wf_regLane (a : Args) (c : Crew) (s : State) (l : Ready') (w : Memory.wf s.mem = true) : Memory.wf (regLane a c s l).mem = true := by
  unfold regLane
  simp only
  repeat' split
  all_goals simp [w]

@[simp] theorem stayTogether_mem (s : State) (uid : Nat) (tids : List Nat) : (stayTogether s uid tids).mem = s.mem := rfl

@[simp] theorem wf_execPgenReg (a : Args) (s : State) (w : Memory.wf s.mem = true) : OutWf (execPgenReg a s) := by
  unfold execPgenReg
  grind only [wf_gangDo, wf_memGate, retireSome_mem, stayTogether_mem, wf_regLane, wf_foldl, OutWf]

@[simp] theorem wf_removeRange (s : State) (ctx : Nat) (r : Range) (w : Memory.wf s.mem = true) : Memory.wf (removeRange s ctx r).mem = true := by
  simp [removeRange, w]

theorem wf_unregLane (s : State) (c : Crew) (n : Nat) (w : Memory.wf s.mem = true) :
    ∀ t x, unregLane s c n = some (t, x) → Memory.wf t.mem = true := by
  unfold unregLane
  simp only
  repeat' split
  all_goals simp [w]

@[simp] theorem wf_unregLanes (a : Args) (e : Env) (ts : List Thread) (s : State) (w : Memory.wf s.mem = true) :
    Memory.wf (unregLanes a e ts s).1.mem = true := by
  induction ts generalizing s with
  | nil => exact w
  | cons t ts ih =>
    unfold unregLanes
    split
    · exact w
    · next h => exact ih _ (by simp [wf_unregLane _ _ _ w _ _ h])

@[simp] theorem wf_execPgenUnreg (a : Args) (s : State) (w : Memory.wf s.mem = true) : OutWf (execPgenUnreg a s) := by
  unfold execPgenUnreg
  grind only [wf_gangDo, wf_unregLanes, retireSome_mem, stayTogether_mem, OutWf]

@[simp] theorem wf_inGenerator (e : Env) (k : Nat → Nat → Out) (w : Memory.wf e.s.mem = true) (hk : ∀ x y, OutWf (k x y)) :
    OutWf (inGenerator e k) := by
  unfold inGenerator
  repeat' split
  all_goals simp [w, hk]

@[simp] theorem wf_execPfill (a : Args) (s : State) (w : Memory.wf s.mem = true) : OutWf (execPfill a s) := by
  unfold execPfill
  grind only [wf_gangDo, wf_inGenerator, wf_withRelease, retire_mem, updCrew_mem, OutWf]

@[simp] theorem wf_execPfillFail (a : Args) (s : State) (w : Memory.wf s.mem = true) : OutWf (execPfillFail a s) := by
  unfold execPfillFail
  grind only [wf_gangDo, wf_inGenerator, retire_mem, wf_failBlock, OutWf]

@[simp] theorem wf_execPstat (a : Args) (s : State) (w : Memory.wf s.mem = true) : OutWf (execPstat a s) := by
  unfold execPstat
  grind only [wf_gangDo, issueLoad_mem, parkWalk_mem, retireSome_mem, onceS_mem, foldl_mem, OutWf]

@[simp] theorem wf_execPstatFault (a : Args) (s : State) (w : Memory.wf s.mem = true) : OutWf (execPstatFault a s) := by
  simp +contextual [execPstatFault, w, wf_foldl]

@[simp] theorem dropBlock_mem (s : State) (ctx : Nat) (r : Range) (i : Nat) : (dropBlock s ctx r i).mem = s.mem := by
  unfold dropBlock
  split <;> rfl

theorem wf_foldl_memPut (g : Nat → Byte) (ks : List Nat) (m : List Host.Cell) (w : Memory.wf m = true) :
    Memory.wf (ks.foldl (fun m k => memPut m k (g k)) m) = true := by
  induction ks generalizing m with
  | nil => exact w
  | cons k ks ih => exact ih _ (wf_memPut _ _ _ w)

@[simp] theorem wf_loseDirty (s : State) (ctx : Nat) (r : Range) (i : Nat) (w : Memory.wf s.mem = true) :
    Memory.wf (loseDirty s ctx r i).mem = true := by
  unfold loseDirty
  split
  · exact w
  · exact wf_foldl_memPut _ _ _ w

@[simp] theorem wf_evictBlock (s : State) (ctx : Nat) (r : Range) (i : Nat) (w : Memory.wf s.mem = true) :
    Memory.wf (evictBlock s ctx r i).mem = true := by
  simp [evictBlock, w]

@[simp] theorem wf_evictOne (s : State) (ctx : Nat) (r : Range) (i : Nat) (w : Memory.wf s.mem = true) :
    Memory.wf (evictOne s ctx r i).1.mem = true := by
  unfold evictOne
  simp only
  repeat' split
  all_goals simp [w]

@[simp] theorem wf_onBlocks (a : Args) (s : State) (f : State → Crew → Nat → Nat → State × Nat) (w : Memory.wf s.mem = true) (hf : ∀ t x y z, Memory.wf t.mem = true → Memory.wf (f t x y z).1.mem = true) :
    OutWf (onBlocks a s f) := by
  unfold onBlocks
  grind only [wf_gangDo, retire_mem, onceS_mem, issueAck_mem, issueLoad_mem, wf_foldl, OutWf]

@[simp] theorem wf_countBlocks (f : State → Range → Nat → State × Bool) (s : State) (xs : List (Range × Nat)) (hf : ∀ t x y, Memory.wf t.mem = true → Memory.wf (f t x y).1.mem = true) (w : Memory.wf s.mem = true) :
    Memory.wf (countBlocks f s xs).1.mem = true := by
  simp +contextual [countBlocks, hf, w, wf_foldl_fst]

@[simp] theorem wf_execPevict (a : Args) (s : State) (w : Memory.wf s.mem = true) : OutWf (execPevict a s) := by
  unfold execPevict
  grind only [wf_onBlocks, wf_countBlocks, wf_evictOne]

@[simp] theorem wf_pinOne (ctx : Nat) (b : Bool) (s : State) (r : Range) (i : Nat) (w : Memory.wf s.mem = true) :
    Memory.wf (pinOne ctx b s r i).1.mem = true := by
  simp [pinOne, w]

@[simp] theorem wf_execPpinPin (a : Args) (s : State) (w : Memory.wf s.mem = true) : OutWf (execPpinPin a s) := by
  unfold execPpinPin
  grind only [wf_onBlocks, wf_countBlocks, wf_pinOne]

@[simp] theorem wf_execPpinUnpin (a : Args) (s : State) (w : Memory.wf s.mem = true) : OutWf (execPpinUnpin a s) := by
  unfold execPpinUnpin
  grind only [wf_onBlocks, wf_countBlocks, wf_pinOne]

/-! ### Device -/

@[simp] theorem wf_flushTelemetry (s : State) (ctx : Nat) (w : Memory.wf s.mem = true) : Memory.wf (flushTelemetry s ctx).mem = true := by
  unfold flushTelemetry
  grind only [devPut_spec, wf_foldl]

@[simp] theorem readDescriptor_mem (s : State) (ctx : Nat) : (readDescriptor s ctx).mem = s.mem := by
  unfold readDescriptor
  simp only
  repeat' split
  all_goals simp

@[simp] theorem loadContext_mem (s : State) (ctx : Nat) (desc : Nat) : (loadContext s ctx desc).mem = s.mem := by
  unfold loadContext
  split <;> simp

@[simp] theorem report_mem (s : State) (kind : Nat) (v : List Nat) : (report s kind v).mem = s.mem := rfl
@[simp] theorem blowFuse_mem (s : State) (code : Nat) : (blowFuse s code).mem = s.mem := rfl
@[simp] theorem partLost_mem (s : State) (part : List Nat) : (partLost s part).mem = s.mem := rfl

/-! ### Images -/

@[simp] theorem wf_saveImage (s : State) (c : Crew) (w : Memory.wf s.mem = true) : Memory.wf (saveImage s c).mem = true := by
  unfold saveImage
  simp [w, wf_homeWrite]

@[simp] theorem wf_saveBin (s : State) (ctx : Nat) (core : Nat) (w : Memory.wf s.mem = true) : Memory.wf (saveBin s ctx core).mem = true := by
  unfold saveBin
  simp [w, wf_homeWrite]

@[simp] theorem wf_imageBack (s : State) (c : Crew) (w : Memory.wf s.mem = true) : Memory.wf (imageBack s c).mem = true := by
  unfold imageBack
  repeat' split
  all_goals simp [w, wf_memPutAll]

@[simp] theorem wf_binBack (s : State) (ctx : Nat) (b : Nat × Nat × Nat) (w : Memory.wf s.mem = true) : Memory.wf (binBack s ctx b).mem = true := by
  unfold binBack
  simp [w, wf_memPutAll]

@[simp] theorem wf_bringBack (s : State) (uid : Nat) (core : Nat) (w : Memory.wf s.mem = true) : Memory.wf (bringBack s uid core).mem = true := by
  unfold bringBack
  split <;> simp [w]

/-! ### MemEvents -/

@[simp] theorem wf_execLoadComplete (ld : Nat) (s : State) (w : Memory.wf s.mem = true) : OutWf (execLoadComplete ld s) := by
  unfold execLoadComplete
  repeat' split
  all_goals simp [w]

@[simp] theorem wf_execStoreAck (st : Nat) (s : State) (w : Memory.wf s.mem = true) : OutWf (execStoreAck st s) := by
  unfold execStoreAck
  repeat' split
  all_goals simp [w]

@[simp] theorem passWrite_mem (s : State) (p : PendingStore) : (passWrite s p).mem = s.mem := rfl
@[simp] theorem raceStore_mem (s : State) (p : PendingStore) (info : TrapInfo) : (raceStore s p info).mem = s.mem := rfl
@[simp] theorem noteDone_mem (s : State) (p : PendingStore) : (noteDone s p).mem = s.mem := rfl

@[simp] theorem wf_execSharedWriteRelease (st : Nat) (s : State) (w : Memory.wf s.mem = true) : OutWf (execSharedWriteRelease st s) := by
  unfold execSharedWriteRelease
  grind only [wf_raceRuns, updT_mem, passWrite_mem, noteDone_mem, raceStore_mem, OutWf, RaceEndWf]

@[simp] theorem wf_execRaceWaitExpiry (st : Nat) (s : State) (w : Memory.wf s.mem = true) : OutWf (execRaceWaitExpiry st s) := by
  unfold execRaceWaitExpiry
  repeat' split
  all_goals simp [w]

@[simp] theorem wf_execQuiescenceEpochAdvance (die : Nat) (s : State) (w : Memory.wf s.mem = true) : OutWf (execQuiescenceEpochAdvance die s) := by
  unfold execQuiescenceEpochAdvance
  split <;> simp [w]

@[simp] theorem wf_wakeParkedOne (kind : Nat) (trap : Option TrapInfo) (s : State) (x : Crew × Thread) (w : Memory.wf s.mem = true) :
    Memory.wf (wakeParkedOne kind trap s x).mem = true := by
  unfold wakeParkedOne
  repeat' split
  all_goals simp [w]

@[simp] theorem wf_wakeParked (s : State) (ts : List (Crew × Thread)) (kind : Nat) (trap : Option TrapInfo) (w : Memory.wf s.mem = true) :
    Memory.wf (wakeParked s ts kind trap).mem = true := by
  simp +contextual [wakeParked, w, wf_foldl]

@[simp] theorem repark_mem (s : State) (ts : List (Crew × Thread)) (p : Park) : (repark s ts p).mem = s.mem := by
  unfold repark
  grind only [holdT_mem, foldl_mem]

@[simp] theorem wf_actPrefs (s : State) (w1 : Walk) (x : TlbEntry) (pte : Nat) (w : Memory.wf s.mem = true) :
    Memory.wf (actPrefs s w1 x pte).mem = true := by
  unfold actPrefs
  grind only [wf_prefAct, wf_foldl]

@[simp] theorem dropPrefs_mem (s : State) (w1 : Walk) : (dropPrefs s w1).mem = s.mem :=
  foldl_mem _ (fun s _ => telemetry_mem s _ _) _ _

@[simp] theorem sendFault_mem (s : State) (w1 : Walk) : (sendFault s w1).mem = s.mem := by
  simp [sendFault]

@[simp] theorem wf_execWalkComplete (walk : Nat) (s : State) (w : Memory.wf s.mem = true) : OutWf (execWalkComplete walk s) := by
  unfold execWalkComplete
  simp only
  repeat' split
  all_goals simp [w]

@[simp] theorem wf_execFaultReplyResolved (walk : Nat) (s : State) (w : Memory.wf s.mem = true) : OutWf (execFaultReplyResolved walk s) := by
  unfold execFaultReplyResolved
  split <;> simp [w]

@[simp] theorem wf_execFaultReplyUnresolvable (walk : Nat) (s : State) (w : Memory.wf s.mem = true) : OutWf (execFaultReplyUnresolvable walk s) := by
  unfold execFaultReplyUnresolvable
  split <;> simp [w]

@[simp] theorem startInv_mem (s : State) (ctx : Nat) (v : Word64) : (startInv s ctx v).mem = s.mem := by
  unfold startInv
  split <;> rfl

@[simp] theorem wf_execXltInv (ctx : Nat) (v : Word64) (s : State) (w : Memory.wf s.mem = true) : OutWf (execXltInv ctx v s) := by
  simp [execXltInv, w]

@[simp] theorem wf_execXltInvDone (ctx : Nat) (s : State) (w : Memory.wf s.mem = true) : OutWf (execXltInvDone ctx s) := by
  unfold execXltInvDone
  repeat' split
  all_goals simp [w]

@[simp] theorem pageSettled_mem (s : State) (ctx : Nat) (va : Nat) : (pageSettled s ctx va).mem = s.mem := by
  unfold pageSettled
  grind only [countUp_mem, updCtx_mem, foldl_mem]

@[simp] theorem wf_execMigrationStart (ctx : Nat) (va : Nat) (frame : Nat) (s : State) (w : Memory.wf s.mem = true) :
    OutWf (execMigrationStart ctx va frame s) := by
  unfold execMigrationStart
  repeat' split
  all_goals simp [w]

@[simp] theorem wf_shutPage (s : State) (m : Migration) (w : Memory.wf s.mem = true) : Memory.wf (shutPage s m).mem = true := by
  unfold shutPage
  grind only [wf_homeWriteN, wf_foldl]

@[simp] theorem wf_switchPage (s : State) (m : Migration) (w : Memory.wf s.mem = true) : Memory.wf (switchPage s m).mem = true := by
  unfold switchPage
  repeat' split
  all_goals simp [w, wf_homeWriteN]

@[simp] theorem wf_execMigrationLineCopy (mig : Nat) (s : State) (w : Memory.wf s.mem = true) : OutWf (execMigrationLineCopy mig s) := by
  unfold execMigrationLineCopy
  repeat' split
  all_goals simp [w, wf_memFill]

@[simp] theorem wf_execBfpScrWrite (core : Nat) (v : Word) (s : State) (w : Memory.wf s.mem = true) : OutWf (execBfpScrWrite core v s) := by
  unfold execBfpScrWrite
  split <;> simp [w]

@[simp] theorem wf_execBfpChangeComplete (core : Nat) (s : State) (w : Memory.wf s.mem = true) : OutWf (execBfpChangeComplete core s) := by
  unfold execBfpChangeComplete
  simp only
  split
  · exact w
  next ch rest _ =>
  split
  · exact w
  have hkept : Memory.wf (if ch.mb < (coreOf s core).mb then
      s.mem.filter fun c => !(binKey core (ch.mb * 2 ^ 20) ≤ c.1 && c.1 < binKey core (2 ^ 24)) else s.mem) = true := by
    split
    · exact wf_memFilter _ _ w
    · exact w
  rw [outWf_next]
  split <;> exact hkept

/-! ### Runs -/

@[simp] theorem wf_keepGang (e : Env) (w : Memory.wf e.s.mem = true) : OutWf (keepGang e) := by
  simp [keepGang, w]

@[simp] theorem wf_unlessHeld (e : Env) (held : Bool) (k : Out) (w : Memory.wf e.s.mem = true) (hk : OutWf k) : OutWf (unlessHeld e held k) := by
  unfold unlessHeld
  split <;> simp [w, hk]

@[simp] theorem wf_qWrite (s : State) (x : HostQueue) (off : Nat) (len : Nat) (v : Nat) (w : Memory.wf s.mem = true) :
    Memory.wf (qWrite s x off len v).mem = true := by
  unfold qWrite
  grind only [devPut_spec]

@[simp] theorem wf_qState (s : State) (x : HostQueue) (st : Nat) (w : Memory.wf s.mem = true) : Memory.wf (qState s x st).mem = true := by
  simp [qState, w]

@[simp] theorem wf_setQError (s : State) (x : HostQueue) (code : Nat) (w : Memory.wf s.mem = true) : Memory.wf (setQError s x code).mem = true := by
  simp [setQError, w]

@[simp] theorem wf_advanceDone (s : State) (q : Nat) (w : Memory.wf s.mem = true) : Memory.wf (advanceDone s q).mem = true := by
  unfold advanceDone
  simp only
  repeat' split
  all_goals simp [w]

@[simp] theorem wf_commandDone (s : State) (q : Nat) (cmd : Nat) (w : Memory.wf s.mem = true) : Memory.wf (commandDone s q cmd).mem = true := by
  simp [commandDone, w]

@[simp] theorem wf_completeRun (s : State) (id : Nat) (st : RunState) (w : Memory.wf s.mem = true) : Memory.wf (completeRun s id st).mem = true := by
  unfold completeRun
  simp only
  repeat' split
  all_goals simp [w]

@[simp] theorem wf_lowerCounter (s : State) (id : Nat) (w : Memory.wf s.mem = true) : Memory.wf (lowerCounter s id).mem = true := by
  unfold lowerCounter
  repeat' split
  all_goals simp [w]

@[simp] theorem enqueue_mem (s : State) (r : Run) (i : Nat) (span : Nat) (stage : Nat) : (enqueue s r i span stage).mem = s.mem := rfl

theorem wf_lowerJoin (s : State) (r : Run) (i : Nat) (w : Memory.wf s.mem = true) :
    ∀ t x, lowerJoin s r i = some (t, x) → Memory.wf t.mem = true := by
  unfold lowerJoin
  grind only [devPut_spec]

@[simp] theorem enqueueSpawned_mem (s : State) (r : Run) (i : Nat) : (enqueueSpawned s r i).mem = s.mem := rfl

@[simp] theorem wf_retireEntry (s : State) (r : Run) (i : Nat) (w : Memory.wf s.mem = true) : Memory.wf (retireEntry s r i).mem = true := by
  unfold retireEntry
  grind only [devPut_spec, wf_lowerJoin, updRun_mem, enqueueSpawned_mem, wf_lowerCounter]

@[simp] theorem freeNodes_mem (s : State) (p : Node → Bool) : (freeNodes s p).mem = s.mem := by
  unfold freeNodes
  grind only [updCore_mem, foldl_mem]

@[simp] theorem wf_removeCrew (s : State) (uid : Nat) (w : Memory.wf s.mem = true) : Memory.wf (removeCrew s uid).mem = true := by
  refine wf_memFilter _ _ ?_
  rw [freeNodes_mem]
  exact wf_foldl _ (fun s p w => wf_performStore s p w) _ _ w

@[simp] theorem wf_closeRecord (s : State) (x : Context) (rec : Nat) (w : Memory.wf s.mem = true) : Memory.wf (closeRecord s x rec).mem = true := by
  unfold closeRecord
  grind only [devPut_spec]

@[simp] theorem wf_closeRecords (s : State) (run : Nat) (w : Memory.wf s.mem = true) : Memory.wf (closeRecords s run).mem = true := by
  unfold closeRecords
  grind only [wf_closeRecord, wf_foldl]

@[simp] theorem wf_abortRun (s : State) (id : Nat) (record : Nat) (w : Memory.wf s.mem = true) : Memory.wf (abortRun s id record).mem = true := by
  unfold abortRun
  grind only [wf_removeCrew, wf_closeRecords, wf_completeRun, wf_setQError, wf_foldl]

@[simp] theorem wf_takeCommand (s : State) (x : HostQueue) (done : Bool) (w : Memory.wf s.mem = true) :
    Memory.wf (takeCommand s x done).mem = true := by
  simp [takeCommand, w]

@[simp] theorem wf_onCommand (s : State) (q : Nat) (kind : Nat) (f : HostQueue → Nat → Out) (w : Memory.wf s.mem = true) (hf : ∀ x y, OutWf (f x y)) :
    OutWf (onCommand s q kind f) := by
  unfold onCommand
  repeat' split
  all_goals simp [w, hf]

@[simp] theorem wf_execHostCmdNop (q : Nat) (s : State) (w : Memory.wf s.mem = true) : OutWf (execHostCmdNop q s) := by
  simp [execHostCmdNop, w]

@[simp] theorem wf_execHostCmdWait (q : Nat) (s : State) (w : Memory.wf s.mem = true) : OutWf (execHostCmdWait q s) := by
  unfold execHostCmdWait
  grind only [wf_onCommand, wf_setQError, wf_takeCommand, OutWf]

@[simp] theorem wf_execHostCmdSignal (q : Nat) (s : State) (w : Memory.wf s.mem = true) : OutWf (execHostCmdSignal q s) := by
  unfold execHostCmdSignal
  grind only [wf_onCommand, devWrite_spec, wf_setQError, wf_takeCommand, OutWf]

@[simp] theorem wf_execHostCmdLaunch (q : Nat) (s : State) (w : Memory.wf s.mem = true) : OutWf (execHostCmdLaunch q s) := by
  unfold execHostCmdLaunch
  grind only [wf_onCommand, wf_setQError, wf_takeCommand, wf_qWrite, OutWf]

@[simp] theorem wf_execSeedEnqueue (run : Nat) (s : State) (w : Memory.wf s.mem = true) : OutWf (execSeedEnqueue run s) := by
  unfold execSeedEnqueue
  repeat' split
  all_goals simp [w]

@[simp] theorem wf_tailCheck (s : State) (q : Nat) (w : Memory.wf s.mem = true) : Memory.wf (tailCheck s q).mem = true := by
  unfold tailCheck
  split
  · exact w
  · split
    · exact wf_setQError _ _ _ w
    · exact w

@[simp] theorem wf_setTail (s : State) (x : HostQueue) (v : Nat) (w : Memory.wf s.mem = true) : Memory.wf (setTail s x v).mem = true := by
  simp [setTail, w]

@[simp] theorem wf_execNotify (q : Nat) (v : Word) (s : State) (w : Memory.wf s.mem = true) : OutWf (execNotify q v s) := by
  unfold execNotify
  repeat' split
  all_goals simp [w]

@[simp] theorem wf_execDoorbellSwitch (q : Nat) (s : State) (w : Memory.wf s.mem = true) : OutWf (execDoorbellSwitch q s) := by
  unfold execDoorbellSwitch
  grind only [wf_qWrite, wf_qState, updQueue_mem, wf_setTail, OutWf]

@[simp] theorem wf_execUnmapWriteback (q : Nat) (s : State) (w : Memory.wf s.mem = true) : OutWf (execUnmapWriteback q s) := by
  unfold execUnmapWriteback
  grind only [wf_qState, wf_qWrite, OutWf]

@[simp] theorem wf_execQueueIdleTimeout (q : Nat) (s : State) (w : Memory.wf s.mem = true) : OutWf (execQueueIdleTimeout q s) := by
  unfold execQueueIdleTimeout
  repeat' split
  all_goals simp [w]

@[simp] theorem wf_visitBlock (s : State) (x : HostQueue) (w : Memory.wf s.mem = true) : Memory.wf (visitBlock s x).mem = true := by
  unfold visitBlock
  simp only
  repeat' split
  all_goals simp [w]

@[simp] theorem wf_walkList (s : State) (a : Nat) (a1 : Nat) (w : Memory.wf s.mem = true) : Memory.wf (walkList s a a1).mem = true := by
  induction a generalizing s a1 with
  | zero => exact w
  | succ n ih => unfold walkList; grind +splitImp only [wf_visitBlock]

@[simp] theorem wf_execWalkerPass (s : State) (w : Memory.wf s.mem = true) : OutWf (execWalkerPass s) := by
  unfold execWalkerPass
  grind only [wf_walkList, wf_foldl, OutWf]

@[simp] theorem startRecord_mem (s : State) (x : Ready) (r : Run) (core : Nat) : (startRecord s x r core).mem = s.mem := by
  unfold startRecord
  split <;> rfl

@[simp] theorem wf_execCrewSlotTake (die : Nat) (s : State) (w : Memory.wf s.mem = true) : OutWf (execCrewSlotTake die s) := by
  unfold execCrewSlotTake
  simp only
  repeat' split
  all_goals simp [w]

/-! ### Fetch -/

@[simp] theorem tick_mem (n : Nat) (s : State) : (tick n s).mem = s.mem := by
  unfold tick
  split <;> rfl

@[simp] theorem ageGroups_mem (s : State) (core : Nat) (groups : List Group) (queues : List Group) (chosen : Option Group) (opportunity : Bool) :
    (ageGroups s core groups queues chosen opportunity).mem = s.mem := rfl

@[simp] theorem pass_mem (n : Nat) (s : State) : (pass n s).mem = s.mem := by
  unfold pass
  split <;> simp

@[simp] theorem gather_mem (s : State) (core : Nat) : (gather s core).mem = s.mem := by
  unfold gather
  grind only [ageGroups_mem, updCrew_mem]

theorem wf_fetchTrap (s : State) (c : Crew) (is : Issue) (code : Nat) (sub : Nat) (more : List PutField) (w : Memory.wf s.mem = true) :
    FetchedWf (fetchTrap s c is code sub more) := by
  unfold fetchTrap
  simp [w]

theorem wf_decodeGang (s : State) (c : Crew) (is : Issue) (w1 : Nat) (w : Memory.wf s.mem = true) : FetchedWf (decodeGang s c is w1) := by
  unfold decodeGang
  simp only
  repeat' split
  all_goals simp [w]

theorem wf_fetchWord (s : State) (c : Crew) (is : Issue) (w : Memory.wf s.mem = true) : FetchedWf (fetchWord s c is) := by
  unfold fetchWord
  grind only [wf_fetchTrap, startWalk_mem, parkT_mem, wf_parkBlock, raise_mem, holdGang_mem, wf_decodeGang, FetchedWf]

@[simp] theorem takePre_mem (s : State) (c : Crew) (is : Issue) (f : TrapInfo) (clear : Crew → Crew) : (takePre s c is f clear).mem = s.mem := by
  unfold takePre
  split <;> rfl

theorem wf_fetch (s : State) (w : Memory.wf s.mem = true) : FetchedWf (fetch s) := by
  unfold fetch
  grind only [takePre_mem, wf_fetchWord, FetchedWf]

theorem wf_issueOn (s : State) (core : Nat) (w : Memory.wf s.mem = true) : MoveWf (issueOn s core) := by
  unfold issueOn
  grind only [wf_fetch, gather_mem, FetchedWf, MoveWf]

theorem wf_nextMove (s : State) (w : Memory.wf s.mem = true) : MoveWf (nextMove s) := by
  unfold nextMove
  grind only [pass_mem, wf_issueOn, MoveWf]

/-! ### SluiceEvents -/

@[simp] theorem startGenerator_mem (s : State) (g : GenRec) (r : Range) (core : Nat) : (startGenerator s g r core).mem = s.mem := rfl

@[simp] theorem wf_execGeneratorSlotTake (die : Nat) (s : State) (w : Memory.wf s.mem = true) : OutWf (execGeneratorSlotTake die s) := by
  unfold execGeneratorSlotTake
  repeat' split
  all_goals simp [w]

@[simp] theorem wf_execGeneratorStepAside (crew : Nat) (s : State) (w : Memory.wf s.mem = true) : OutWf (execGeneratorStepAside crew s) := by
  unfold execGeneratorStepAside
  simp only
  repeat' split
  all_goals simp [w]

@[simp] theorem wf_execGeneratorRestore (crew : Nat) (s : State) (w : Memory.wf s.mem = true) : OutWf (execGeneratorRestore crew s) := by
  unfold execGeneratorRestore
  repeat' split
  all_goals simp [w]

@[simp] theorem wf_fillBlock (s : State) (c : Crew) (w : Memory.wf s.mem = true) : Memory.wf (fillBlock s c).mem = true := by
  unfold fillBlock
  repeat' split
  all_goals simp [w]

@[simp] theorem wf_execBlockFull (crew : Nat) (s : State) (w : Memory.wf s.mem = true) : OutWf (execBlockFull crew s) := by
  unfold execBlockFull
  repeat' split
  all_goals simp [w]

theorem wf_retouch {s u : State} {q : Waiter} {r : Range} {i : Nat} {t : Toucher} (w : Memory.wf s.mem = true) (h : retouch s q r i t = some u) :
    Memory.wf u.mem = true := by
  unfold retouch at h
  split at h
  · split at h
    · cases h; exact w
    · split at h
      · cases h; simp [w]
      · cases h
  · split at h
    · cases h; simp [w]
    · cases h; simp [w]
    · simp only at h
      split at h
      · cases h
      · cases h; simp [w]

@[simp] theorem wf_execWaitListOverflowRetry (die : Nat) (s : State) (w : Memory.wf s.mem = true) : OutWf (execWaitListOverflowRetry die s) := by
  unfold execWaitListOverflowRetry
  split
  · exact w
  next q _ =>
  simp only
  split
  · next r i t _ _ =>
    generalize hs : ({ s with waiters := s.waiters.erase q } : State) = s0
    have w0 : Memory.wf s0.mem = true := by rw [← hs]; exact w
    rw [outWf_next]
    cases h : retouch s0 q r i t with
    | none => exact w
    | some u => exact wf_retouch w0 h
  · simp [w]
  · exact w

@[simp] theorem wf_execReclaim (ctx : Nat) (va : Nat) (s : State) (w : Memory.wf s.mem = true) : OutWf (execReclaim ctx va s) := by
  unfold execReclaim
  grind only [wf_evictBlock, wf_setBlockState, wf_homeWriteN, wf_foldl, OutWf]

@[simp] theorem wf_wakePageEngines (s : State) (ctx : Nat) (page : Nat) (fault : Option TrapInfo) (w : Memory.wf s.mem = true) :
    Memory.wf (wakePageEngines s ctx page fault).mem = true := by
  simp +contextual [wakePageEngines, w, wf_foldl]

@[simp] theorem wf_endExpansion (s : State) (ctx : Nat) (va : Nat) (fault : optParam (Option TrapInfo) none) (w : Memory.wf s.mem = true) :
    Memory.wf (endExpansion s ctx va fault).mem = true := by
  simp [endExpansion, w]

@[simp] theorem wf_execQuernExpansionDone (ctx : Nat) (va : Nat) (frame : Nat) (s : State) (w : Memory.wf s.mem = true) :
    OutWf (execQuernExpansionDone ctx va frame s) := by
  unfold execQuernExpansionDone
  grind only [wf_endExpansion, wf_homeWrite, wf_homeWriteN, wf_wakeParked, OutWf]

@[simp] theorem wf_execQuernExpansionFail (ctx : Nat) (va : Nat) (status : Nat) (s : State) (w : Memory.wf s.mem = true) :
    OutWf (execQuernExpansionFail ctx va status s) := by
  unfold execQuernExpansionFail
  grind only [wf_endExpansion, wf_homeWriteN, wf_wakeParked, OutWf]

@[simp] theorem wf_execRecompression (ctx : Nat) (va : Nat) (image : Nat) (s : State) (w : Memory.wf s.mem = true) :
    OutWf (execRecompression ctx va image s) := by
  unfold execRecompression
  simp only
  repeat' split
  all_goals simp [w, wf_homeWrite, wf_homeWriteN]

/-! ### Float -/

@[simp] theorem wf_execFadd (a : Args) (s : State) (w : Memory.wf s.mem = true) : OutWf (execFadd a s) := by
  simp [execFadd, w]

@[simp] theorem wf_execFsub (a : Args) (s : State) (w : Memory.wf s.mem = true) : OutWf (execFsub a s) := by
  simp [execFsub, w]

@[simp] theorem wf_execFmul (a : Args) (s : State) (w : Memory.wf s.mem = true) : OutWf (execFmul a s) := by
  simp [execFmul, w]

@[simp] theorem wf_execFfma (a : Args) (s : State) (w : Memory.wf s.mem = true) : OutWf (execFfma a s) := by
  simp [execFfma, w]

@[simp] theorem wf_execFminmax (a : Args) (s : State) (w : Memory.wf s.mem = true) : OutWf (execFminmax a s) := by
  simp [execFminmax, w]

@[simp] theorem wf_execFabsneg (a : Args) (s : State) (w : Memory.wf s.mem = true) : OutWf (execFabsneg a s) := by
  simp [execFabsneg, w]

@[simp] theorem wf_execFcmp (a : Args) (s : State) (w : Memory.wf s.mem = true) : OutWf (execFcmp a s) := by
  simp [execFcmp, w]

@[simp] theorem wf_execFround (a : Args) (s : State) (w : Memory.wf s.mem = true) : OutWf (execFround a s) := by
  simp [execFround, w]

@[simp] theorem wf_execFldexp (a : Args) (s : State) (w : Memory.wf s.mem = true) : OutWf (execFldexp a s) := by
  simp [execFldexp, w]

@[simp] theorem wf_execFclass (a : Args) (s : State) (w : Memory.wf s.mem = true) : OutWf (execFclass a s) := by
  simp [execFclass, w]

@[simp] theorem wf_execFdot2 (a : Args) (s : State) (w : Memory.wf s.mem = true) : OutWf (execFdot2 a s) := by
  simp [execFdot2, w]

@[simp] theorem wf_execFsqrt (a : Args) (s : State) (w : Memory.wf s.mem = true) : OutWf (execFsqrt a s) := by
  simp [execFsqrt, w]

@[simp] theorem wf_execFdiv (a : Args) (s : State) (w : Memory.wf s.mem = true) : OutWf (execFdiv a s) := by
  simp [execFdiv, w]

@[simp] theorem wf_execFrcp (a : Args) (s : State) (w : Memory.wf s.mem = true) : OutWf (execFrcp a s) := by
  simp [execFrcp, w]

@[simp] theorem wf_execFrsq (a : Args) (s : State) (w : Memory.wf s.mem = true) : OutWf (execFrsq a s) := by
  simp [execFrsq, w]

@[simp] theorem wf_execFex2 (a : Args) (s : State) (w : Memory.wf s.mem = true) : OutWf (execFex2 a s) := by
  simp [execFex2, w]

@[simp] theorem wf_execFlg2 (a : Args) (s : State) (w : Memory.wf s.mem = true) : OutWf (execFlg2 a s) := by
  simp [execFlg2, w]

@[simp] theorem wf_execFsin (a : Args) (s : State) (w : Memory.wf s.mem = true) : OutWf (execFsin a s) := by
  simp [execFsin, w]

@[simp] theorem wf_execFcos (a : Args) (s : State) (w : Memory.wf s.mem = true) : OutWf (execFcos a s) := by
  simp [execFcos, w]

/-! ### Engine -/

theorem takeFault_mem {s t : State} {req : Nat} {f : TrapInfo} (h : takeFault s req = some (f, t)) : t.mem = s.mem := by
  obtain ⟨g, -, hg⟩ := Option.map_eq_some_iff.1 h
  cases hg
  rfl

theorem wf_takeFault {s t : State} {req : Nat} {f : TrapInfo} (h : takeFault s req = some (f, t)) (w : Memory.wf s.mem = true) :
    Memory.wf t.mem = true := (congrArg Memory.wf (takeFault_mem h)).trans w

@[simp] theorem engineWalk_mem (s : State) (m : Mover) (va : Nat) : (engineWalk s m va).mem = s.mem := by
  simp [engineWalk]

@[simp] theorem stepMade_mem (s : State) (req : Nat) (blk : Nat × Nat) : (stepMade s req blk).mem = s.mem := by
  unfold stepMade
  split <;> rfl

@[simp] theorem awaitPage_mem (s : State) (m : Mover) (page : Nat) (l : Leaf) : (awaitPage s m page l).mem = s.mem := rfl

theorem wf_reachPage (s : State) (m : Mover) (u : Use) (va : Nat) (len : Nat) (w : Memory.wf s.mem = true) : ReachWf (reachPage s m u va len) := by
  unfold reachPage
  simp only
  repeat' split
  all_goals simp [w]

theorem wf_reachParts (s : State) (m : Mover) (u : Use) (a : List (Nat × Nat)) (w : Memory.wf s.mem = true) : ReachWf (reachParts s m u a) := by
  induction a generalizing s with
  | nil => exact w
  | cons x xs ih => unfold reachParts; grind +splitImp only [wf_reachPage, ReachWf]

theorem wf_reach (s : State) (m : Mover) (u : Use) (ea : Nat) (len : Nat) (w : Memory.wf s.mem = true) : ReachWf (reach s m u ea len) := by
  unfold reach
  grind only [wf_reachParts, ReachWf]

theorem wf_reachAll (s : State) (m : Mover) (u : Use) (a : List (Nat × Nat)) (w : Memory.wf s.mem = true) : ReachWf (reachAll s m u a) := by
  induction a generalizing s with
  | nil => exact w
  | cons x xs ih => unfold reachAll; grind +splitImp only [wf_reach, ReachWf]

@[simp] theorem wf_engineWrite (s : State) (runs : List (Nat × Nat)) (bs : List Byte) (bad : Bool) (w : Memory.wf s.mem = true) :
    Memory.wf (engineWrite s runs bs bad).mem = true := by
  unfold engineWrite
  repeat' split
  all_goals simp [w, wf_homeWrite]

theorem wf_engineRace (s : State) (m : Mover) (store : Bool) (xs : List (Nat × Nat)) (runs : List (Nat × Nat)) (w : Memory.wf s.mem = true) :
    CheckedWf (engineRace s m store xs runs) := by
  unfold engineRace
  grind only [wf_raceRuns, CheckedWf, RaceEndWf]

@[simp] theorem wf_chargeFault (s : State) (m : Mover) (info : TrapInfo) (w : Memory.wf s.mem = true) :
    Memory.wf (chargeFault s m info).mem = true := by
  unfold chargeFault
  repeat' split
  all_goals simp [w]

@[simp] theorem enginePoison_mem (s : State) (m : Mover) (addr : Nat) : (enginePoison s m addr).1.mem = s.mem := rfl

theorem enginePoison_eq_mem {s t : State} {m : Mover} {addr : Nat} {f : Option TrapInfo} (h : enginePoison s m addr = (t, f)) : t.mem = s.mem := by
  rw [← enginePoison_mem s m addr, h]

/-! ### Tasks -/

@[simp] theorem wf_threadsTrap (e : Env) (code : Nat) (sub : Nat) (bad : List (Thread × Nat)) (w : Memory.wf e.s.mem = true) :
    OutWf (threadsTrap e code sub bad) := by
  simp [threadsTrap, w]

@[simp] theorem wf_issueGate (e : Env) (align : Thread → Option Nat) (check : Thread → Option (Nat × Nat × Nat)) (k : Out) (w : Memory.wf e.s.mem = true) (hk : OutWf k) :
    OutWf (issueGate e align check k) := by
  unfold issueGate
  repeat' split
  all_goals simp [w, hk]

@[simp] theorem wf_spawnOne (r : Run) (span : Nat) (stage : Nat) (s : State) (x : Nat × Nat) (w : Memory.wf s.mem = true) :
    Memory.wf (spawnOne r span stage s x).mem = true := by
  unfold spawnOne
  grind only [devPut_spec, updRun_mem, enqueue_mem]

@[simp] theorem wf_execSpawn (a : Args) (s : State) (w : Memory.wf s.mem = true) : OutWf (execSpawn a s) := by
  unfold execSpawn
  grind only [wf_gangDo, retire_mem, wf_privTrap, wf_keepGang, wf_threadsTrap, wf_withRelease, wf_spawnOne, syncActive_mem, wf_foldl, OutWf]

@[simp] theorem wf_joinLanes (a : Args) (s : State) (held : State → Run → Nat → Bool) (f : State → Run → Nat → State × Nat)
    (w : Memory.wf s.mem = true) (hf : ∀ s r i, Memory.wf s.mem = true → Memory.wf (f s r i).1.mem = true) : OutWf (joinLanes a s held f) := by
  refine wf_gangDo _ _ _ w fun e w => ?_
  simp only
  split
  · simp [w]
  refine wf_withRelease _ _ _ w fun e w => ?_
  refine wf_unlessHeld _ _ _ w ?_
  rw [outWf_next, retire_mem, syncActive_mem]
  refine wf_foldl _ (fun s t w => ?_) _ _ w
  split
  · exact w
  · next r _ =>
    have w1 := hf s r (rd e.c t a.a 1) w
    split
    · exact w1
    · simpa using w1

@[simp] theorem wf_execJoinDec (a : Args) (s : State) (w : Memory.wf s.mem = true) : OutWf (execJoinDec a s) := by
  refine wf_joinLanes _ _ _ _ w fun s r i w => ?_
  split
  · exact w
  · next h =>
    have w1 := wf_lowerJoin _ _ _ w _ _ h
    simp only
    split <;> simp [w1]

@[simp] theorem wf_execJoinRet (a : Args) (s : State) (w : Memory.wf s.mem = true) : OutWf (execJoinRet a s) := by
  unfold execJoinRet
  grind only [wf_joinLanes, wf_retireEntry]

@[simp] theorem sendRing_mem (a : Args) (op : RingOp) (c : Crew) (pc : Word64) (s : State) (t : Thread) : (sendRing a op c pc s t).mem = s.mem := by
  unfold sendRing
  grind only [countUp_mem, holdT_mem]

@[simp] theorem wf_ringInstr (a : Args) (op : RingOp) (s : State) (w : Memory.wf s.mem = true) : OutWf (ringInstr a op s) := by
  unfold ringInstr
  grind only [wf_gangDo, wf_issueGate, sendRing_mem, syncActive_mem, retireSome_mem, retire_mem, wf_withRelease, foldl_mem, OutWf]

@[simp] theorem wf_execQPush (a : Args) (s : State) (w : Memory.wf s.mem = true) : OutWf (execQPush a s) := by
  simp [execQPush, w]

@[simp] theorem wf_execQPop (a : Args) (s : State) (w : Memory.wf s.mem = true) : OutWf (execQPop a s) := by
  simp [execQPop, w]

@[simp] theorem wf_execQPopTry (a : Args) (s : State) (w : Memory.wf s.mem = true) : OutWf (execQPopTry a s) := by
  simp [execQPopTry, w]

@[simp] theorem wf_execQPopa (a : Args) (s : State) (w : Memory.wf s.mem = true) : OutWf (execQPopa a s) := by
  simp [execQPopa, w]

@[simp] theorem wf_execWeirPush (a : Args) (s : State) (w : Memory.wf s.mem = true) : OutWf (execWeirPush a s) := by
  simp [execWeirPush, w]

@[simp] theorem wf_execWeirPop (a : Args) (s : State) (w : Memory.wf s.mem = true) : OutWf (execWeirPop a s) := by
  simp [execWeirPop, w]

@[simp] theorem wf_execWeirFree (a : Args) (s : State) (w : Memory.wf s.mem = true) : OutWf (execWeirFree a s) := by
  unfold execWeirFree
  grind only [wf_gangDo, wf_memGate, lanePoisons_mem, wf_threadsTrap, putD_mem, retireSome_mem, foldl_mem, OutWf]

@[simp] theorem endRing_mem (s : State) (r : RingReq) : (endRing s r).mem = s.mem := by
  unfold endRing
  split <;> rfl

@[simp] theorem ringPred_mem (s : State) (r : RingReq) (b : Bool) : (ringPred s r b).mem = s.mem := by
  unfold ringPred
  split <;> rfl

@[simp] theorem wf_ringFault (s : State) (m : Mover) (r : RingReq) (info : TrapInfo) (side : Nat) (w : Memory.wf s.mem = true) :
    Memory.wf (ringFault s m r info side).mem = true := by
  unfold ringFault
  split <;> simp [w]

@[simp] theorem deliver_mem (s : State) (c : Crew) (r : RingReq) (v : Nat) : (deliver s c r v).mem = s.mem := by
  simp [deliver]

@[simp] theorem comesHome_mem (s : State) (r : RingReq) (key : Nat) : (comesHome s r key).1.mem = s.mem := by
  unfold comesHome
  split <;> rfl

@[simp] theorem markWaiting_mem (s : State) (r : RingReq) : (markWaiting s r).mem = s.mem := rfl

@[simp] theorem wf_ringPoison (s : State) (m : Mover) (r : RingReq) (bad : Bool) (side : Nat) (ea : Nat) (k : State → Out) (w : Memory.wf s.mem = true) (hk : ∀ t, Memory.wf t.mem = true → OutWf (k t)) :
    OutWf (ringPoison s m r bad side ea k) := by
  unfold ringPoison
  grind only [enginePoison_mem, wf_ringFault, OutWf]

@[simp] theorem wf_servePush (s : State) (m : Mover) (r : RingReq) (runs : List (Nat × Nat)) (g : Ring) (w : Memory.wf s.mem = true) :
    OutWf (servePush s m r runs g) := by
  unfold servePush
  split
  · simp [w]
  split
  · simp [w]
  have hr := wf_reach s m { store := true } (g.entryVa g.tail) 32 w
  split
  · next h => rw [h] at hr; exact hr
  · simp [w]
  · next s1 eruns h =>
    rw [h, ReachWf] at hr
    have w1 := wf_homeWriteN _ ((((runs.head?).map (·.1)).getD 0) + 24) 8 ((g.tail + 1) % 2 ^ 64) (wf_engineWrite _ eruns ((byteList 0 r.entry 32).map (·.2)) false hr)
    rw [outWf_next, endRing_mem, ringPred_mem]
    split
    · exact wf_homeWriteN _ _ _ _ w1
    · exact w1

@[simp] theorem wf_servePop (s : State) (m : Mover) (r : RingReq) (runs : List (Nat × Nat)) (g : Ring) (w : Memory.wf s.mem = true) :
    OutWf (servePop s m r runs g) := by
  unfold servePop
  split
  · split <;> simp [w]
  have hr := wf_reach s m { load := true } (g.entryVa g.head) 32 w
  split
  · next h => rw [h] at hr; exact hr
  · simp [w]
  · next h =>
    rw [h, ReachWf] at hr
    refine wf_ringPoison _ _ _ _ _ _ _ hr fun s1 w1 => ?_
    simp only
    split <;> split <;> simp [w1, wf_homeWriteN]

@[simp] theorem wf_execRingServe (req : Nat) (s : State) (w : Memory.wf s.mem = true) : OutWf (execRingServe req s) := by
  unfold execRingServe
  rcases hf : takeFault s req with _ | ⟨f, s1⟩ <;> grind only [wf_reach, wf_ringFault, comesHome_mem, wf_ringPoison, wf_servePush, wf_servePop, takeFault_mem, OutWf, ReachWf]

theorem wf_arriveAtWord (s : State) (m : Mover) (ea : Word64) (n : Nat) (w : Memory.wf s.mem = true) :
    ∀ t, arriveAtWord s m ea n = .ok t → Memory.wf t.mem = true := by
  unfold arriveAtWord
  grind only [wf_memWrite]

theorem wf_engineArrive (s : State) (m : Mover) (ea : Word64) (n : Nat) (w : Memory.wf s.mem = true) :
    ∀ t, engineArrive s m ea n = .ok t → Memory.wf t.mem = true := by
  unfold engineArrive
  grind only [wf_arriveAtWord, wf_logReply]

@[simp] theorem wf_execPopaAnswer (req : Nat) (s : State) (w : Memory.wf s.mem = true) : OutWf (execPopaAnswer req s) := by
  unfold execPopaAnswer
  split
  · exact w
  split
  · simp only
    split
    · exact w
    split
    · rw [outWf_next, endRing_mem]
      split <;> simp [w, wf_homeWriteN]
    · split
      · next h =>
        have w2 := wf_arriveAtWord _ _ _ _ (by split <;> simp [w, wf_homeWriteN]) _ h
        simp [w2]
      · rw [outWf_next]
        exact wf_ringFault _ _ _ _ _ (by split <;> simp [w, wf_homeWriteN])
  · exact w

/-! ### Flume -/

@[simp] theorem wf_flumeInstr (a : Args) (gather : Bool) (s : State) (w : Memory.wf s.mem = true) : OutWf (flumeInstr a gather s) := by
  unfold flumeInstr
  grind only [wf_gangDo, wf_issueGate, wf_trapGang, retire_mem, countUp_mem, foldl_mem, OutWf]

@[simp] theorem wf_execCpy (a : Args) (s : State) (w : Memory.wf s.mem = true) : OutWf (execCpy a s) := by
  simp [execCpy, w]

@[simp] theorem wf_execCpyg (a : Args) (s : State) (w : Memory.wf s.mem = true) : OutWf (execCpyg a s) := by
  simp [execCpyg, w]

@[simp] theorem wf_partFault {α : Type} (f : TrapInfo) (side : Nat) : PartWf (Part.fault f side : Part α) := trivial

@[simp] theorem keepPoison_mem (s : State) (flags : List Nat) : (keepPoison s flags).mem = s.mem :=
  foldl_mem _ setPoison_mem _ _

theorem wf_settle (late : Option TrapInfo) (side : Nat) (parts : List (Nat × Nat)) (r : Reach) (hr : ReachWf r) :
    PartWf (settle late side parts r) := by
  unfold settle
  grind only [wf_partFault, PartWf, ReachWf]

theorem wf_reachSide (s : State) (m : Mover) (u : Use) (late : Option TrapInfo) (side : Nat) (xs : List (Nat × Nat)) (w : Memory.wf s.mem = true) :
    PartWf (reachSide s m u late side xs) := by
  unfold reachSide
  grind only [wf_settle, wf_reachAll]

theorem wf_raceSide (s : State) (m : Mover) (store : Bool) (side : Nat) (xs : List (Nat × Nat)) (runs : List (Nat × Nat)) (w : Memory.wf s.mem = true) :
    PartWf (raceSide s m store side xs runs) := by
  unfold raceSide
  grind only [wf_engineRace, wf_partFault, CheckedWf, PartWf]

theorem wf_partBind {α β : Type} (p : Part α) (f : State → α → Part β) (hp : PartWf p) (hf : ∀ s x, Memory.wf s.mem = true → PartWf (f s x)) :
    PartWf (p.bind f) := by
  cases p with
  | ok s x =>
    have h := hf s x hp
    simp only [Part.bind]
    split
    · trivial
    · exact h
  | wait s => exact hp
  | stop i side flags => trivial

theorem outWf_ite {p : Prop} [Decidable p] {x y : Out} (hx : OutWf x) (hy : OutWf y) : OutWf (if p then x else y) := by
  split
  · exact hx
  · exact hy

theorem wf_of_eq_ok {α : Type} {p : Part α} {s : State} {x : α} (hp : PartWf p) (h : p = .ok s x) : Memory.wf s.mem = true := by
  rw [h] at hp; exact hp

theorem wf_of_eq_wait {α : Type} {p : Part α} {s : State} (hp : PartWf p) (h : p = .wait s) : Memory.wf s.mem = true := by
  rw [h] at hp; exact hp

@[simp] theorem wf_markedWrite (s : State) (runs : List (Nat × Nat)) (bs : List (Byte × Bool)) (w : Memory.wf s.mem = true) :
    Memory.wf (markedWrite s runs bs).mem = true := by
  unfold markedWrite
  repeat' split
  all_goals simp [w, wf_homeWrite]

theorem wf_readList (m : Mover) (r : FlumeReq) (late : Option TrapInfo) (a : Nat) (a1 : State) (a2 : ListRead) (w : Memory.wf a1.mem = true) :
    PartWf (readList m r late a a1 a2) := by
  induction a generalizing a1 a2 with
  | zero => exact w
  | succ n ih => unfold readList; grind +splitImp only [wf_partBind, wf_reachSide, wf_raceSide, PartWf]

@[simp] theorem pinRuns_mem (s : State) (ctx : Nat) (runs : List (Nat × Nat)) : (pinRuns s ctx runs).mem = s.mem := by
  simp +contextual [pinRuns, foldl_mem]

theorem wf_flumeStep (s : State) (m : Mover) (r : FlumeReq) (late : Option TrapInfo) (w : Memory.wf s.mem = true) :
    PartWf (flumeStep s m r late) := by
  unfold flumeStep
  grind only [wf_partBind, wf_readList, setPoison_mem, wf_partFault, wf_reachSide, wf_raceSide, wf_markedWrite, pinRuns_mem, PartWf]

@[simp] theorem endFlume_mem (s : State) (r : FlumeReq) : (endFlume s r).mem = s.mem := rfl

@[simp] theorem wf_flumeFault (s : State) (m : Mover) (r : FlumeReq) (info : TrapInfo) (side : Nat) (w : Memory.wf s.mem = true) :
    Memory.wf (flumeFault s m r info side).mem = true := by
  simp [flumeFault, w]

@[simp] theorem wf_flumeArrive (s : State) (m : Mover) (r : FlumeReq) (w : Memory.wf s.mem = true) : Memory.wf (flumeArrive s m r).mem = true := by
  unfold flumeArrive
  grind only [endFlume_mem, wf_engineArrive, wf_flumeFault]

@[simp] theorem wf_execFlumeChunk (req : Nat) (s : State) (w : Memory.wf s.mem = true) : OutWf (execFlumeChunk req s) := by
  unfold execFlumeChunk
  split
  · exact w
  split
  · exact w
  simp only
  split
  · exact w
  rcases hf : takeFault s req with _ | ⟨f, s0⟩
  on_goal 2 => replace w := wf_takeFault hf w
  all_goals
    simp only
    split
    · next h => exact wf_of_eq_wait (wf_flumeStep _ _ _ _ w) h
    · simp [w]
    · next h =>
      have w1 := wf_of_eq_ok (wf_flumeStep _ _ _ _ w) h
      split
      · simp [w1]
      · split
        · next h => simp [enginePoison_eq_mem h, w1]
        · next h => simp [enginePoison_eq_mem h, w1]

@[simp] theorem wf_execDeferredEngineFault (crew : Nat) (tid : Nat) (s : State) (w : Memory.wf s.mem = true) :
    OutWf (execDeferredEngineFault crew tid s) := by
  unfold execDeferredEngineFault
  simp only
  repeat' split
  all_goals simp [w]

/-! ### Coll -/

@[simp] theorem wf_readRecords (e : Env) (xs : List (Thread × Nat × Nat)) (k : Env → List (Thread × Nat) → Out) (w : Memory.wf e.s.mem = true) (hk : ∀ e x, Memory.wf e.s.mem = true → OutWf (k e x)) :
    OutWf (readRecords e xs k) := by
  unfold readRecords
  grind only [wf_memGate, lanePoisons_mem, foldl_mem]

@[simp] theorem wf_pastWith (e : Env) (go : List Nat) (s : State) (w : Memory.wf s.mem = true) :
    OutWf (pastWith e go s) := by
  simp [pastWith, w]

@[simp] theorem wf_jobGate (a : Args) (e : Env) (k : Out) (w : Memory.wf e.s.mem = true) (hk : OutWf k) : OutWf (jobGate a e k) := by
  simp [jobGate, w, hk]

@[simp] theorem wf_badRecord (e : Env) (a : Args) (bad : List Thread) (w : Memory.wf e.s.mem = true) : OutWf (badRecord e a bad) := by
  simp [badRecord, w]

@[simp] theorem issueColl_mem (a : Args) (c : Crew) (pc : Word64) (s : State) (x : Thread × Nat × List Nat) :
    (issueColl a c pc s x).mem = s.mem := rfl

@[simp] theorem wf_execColl (a : Args) (s : State) (w : Memory.wf s.mem = true) : OutWf (execColl a s) := by
  unfold execColl
  grind only [wf_gangDo, wf_jobGate, wf_readRecords, wf_badRecord, issueColl_mem, wf_pastWith, foldl_mem]

@[simp] theorem endColl_mem (s : State) (r : CollReq) : (endColl s r).mem = s.mem := rfl

@[simp] theorem wf_putStatus (s : State) (m : Mover) (ea : Nat) (v : Nat) (w : Memory.wf s.mem = true) :
    Memory.wf (putStatus s m ea v).mem = true := by
  unfold putStatus
  grind only [wf_reach, wf_engineWrite, ReachWf]

@[simp] theorem wf_collFaultAt (s : State) (m : Mover) (r : CollReq) (info : TrapInfo) (side : Nat) (w : Memory.wf s.mem = true) :
    Memory.wf (collFaultAt s m r info side).mem = true := by
  simp [collFaultAt, w]

@[simp] theorem wf_execCollMatch (req : Nat) (peers : List CollPeer) (s : State) (w : Memory.wf s.mem = true) :
    OutWf (execCollMatch req peers s) := by
  unfold execCollMatch
  grind only [wf_reachSide, endColl_mem, wf_putStatus, wf_chargeFault, OutWf, PartWf]

theorem wf_collStep (s : State) (m : Mover) (r : CollReq) (peers : List CollPeer) (late : Option TrapInfo) (w : Memory.wf s.mem = true) :
    PartWf (collStep s m r peers late) := by
  refine wf_partBind _ _ (wf_reachSide _ _ _ _ _ _ w) fun s _ w => ?_
  refine wf_partBind _ _ (wf_reachSide _ _ _ _ _ _ w) fun s _ w => ?_
  refine wf_partBind _ _ (wf_reachSide _ _ _ _ _ _ w) fun s _ w => ?_
  refine wf_partBind _ _ (wf_raceSide _ _ _ _ _ _ w) fun s _ w => ?_
  refine wf_partBind _ _ (wf_raceSide _ _ _ _ _ _ w) fun s _ w => ?_
  refine wf_partBind _ _ (wf_raceSide _ _ _ _ _ _ w) fun s _ w => ?_
  simp only [partWf_ok]
  split
  · exact wf_engineWrite _ _ _ _ (wf_markedWrite _ _ _ w)
  · exact wf_markedWrite _ _ _ w

@[simp] theorem wf_collArrive (s : State) (m : Mover) (r : CollReq) (n : Nat) (w : Memory.wf s.mem = true) :
    Memory.wf (collArrive s m r n).mem = true := by
  unfold collArrive
  simp only
  split
  · split
    · simp [w]
    · exact w
  · split
    · next h =>
      have w1 := wf_engineArrive _ _ _ _ w _ h
      split
      · simp [w1]
      · exact w1
    · simp [w]

@[simp] theorem wf_execCollChunk (req : Nat) (s : State) (w : Memory.wf s.mem = true) : OutWf (execCollChunk req s) := by
  unfold execCollChunk
  split
  · exact w
  split
  case h_2 => exact w
  simp only
  split
  · exact w
  rcases hf : takeFault s req with _ | ⟨f, s0⟩
  on_goal 2 => replace w := wf_takeFault hf w
  all_goals
    simp only
    split
    · next h => exact wf_of_eq_wait (wf_collStep _ _ _ _ _ w) h
    · simp [w]
    · next h => simp [wf_of_eq_ok (wf_collStep _ _ _ _ _ w) h]
    · next h =>
      have w1 := wf_of_eq_ok (wf_collStep _ _ _ _ _ w) h
      split
      · next h => simp [enginePoison_eq_mem h, w1]
      · next h => simp [enginePoison_eq_mem h, w1]

@[simp] theorem issueJob_mem (a : Args) (c : Crew) (pc : Word64) (s : State) (x : Thread × Nat) : (issueJob a c pc s x).mem = s.mem := rfl

@[simp] theorem wf_execDcmp (a : Args) (s : State) (w : Memory.wf s.mem = true) : OutWf (execDcmp a s) := by
  unfold execDcmp
  grind only [wf_gangDo, wf_jobGate, wf_readRecords, wf_badRecord, wf_pastWith, issueJob_mem, foldl_mem]

theorem wf_quernReach (s : State) (m : Mover) (u : Use) (late : Option TrapInfo) (side : Nat) (xs : List (Nat × Nat)) (w : Memory.wf s.mem = true) :
    PartWf (quernReach s m u late side xs) := by
  unfold quernReach
  grind only [wf_settle, wf_reachParts]

@[simp] theorem endJob_mem (s : State) (q : QuernJob) : (endJob s q).mem = s.mem := rfl

@[simp] theorem wf_jobFault (s : State) (m : Mover) (q : QuernJob) (info : TrapInfo) (side : Nat) (w : Memory.wf s.mem = true) :
    Memory.wf (jobFault s m q info side).mem = true := by
  simp [jobFault, w]

theorem wf_quernWork (s : State) (m : Mover) (q : QuernJob) (late : Option TrapInfo) (w : Memory.wf s.mem = true) :
    PartWf (quernWork s m q late) := by
  unfold quernWork
  grind only [wf_partBind, wf_quernReach, PartWf]

theorem wf_quernStep (s : State) (m : Mover) (q : QuernJob) (late : Option TrapInfo) (w : Memory.wf s.mem = true) :
    PartWf (quernStep s m q late) := by
  unfold quernStep
  grind only [wf_partBind, wf_quernWork, wf_quernReach, wf_reachSide, wf_engineWrite, setPoison_mem, PartWf]

@[simp] theorem wf_jobArrive (s : State) (m : Mover) (q : QuernJob) (pos : Nat) (n : Nat) (w : Memory.wf s.mem = true) :
    Memory.wf (jobArrive s m q pos n).mem = true := by
  unfold jobArrive
  grind only [endJob_mem, wf_engineArrive, wf_jobFault]

@[simp] theorem wf_execQuernBlock (req : Nat) (s : State) (w : Memory.wf s.mem = true) : OutWf (execQuernBlock req s) := by
  unfold execQuernBlock
  split
  · exact w
  split
  · exact w
  simp only
  split
  · exact w
  rcases hf : takeFault s req with _ | ⟨f, s0⟩
  on_goal 2 => replace w := wf_takeFault hf w
  all_goals
    simp only
    split
    · next h => exact wf_of_eq_wait (wf_quernStep _ _ _ _ w) h
    · simp [w]
    · next h => simp [wf_of_eq_ok (wf_quernStep _ _ _ _ w) h]
    · next h =>
      have w1 := wf_of_eq_ok (wf_quernStep _ _ _ _ w) h
      split
      · split
        · next h => simp [enginePoison_eq_mem h, w1]
        · next h => simp [enginePoison_eq_mem h, w1]
      · simp [w1]

/-! ### Order -/

@[simp] theorem wf_atomAt (s : State) (c : Crew) (tid : Nat) (ps : List Piece) (op : Nat) (w1 : Nat) (signed : Bool) (b : Nat) (x : Nat) (w : Memory.wf s.mem = true) :
    Memory.wf (atomAt s c tid ps op w1 signed b x).1.mem = true := by
  unfold atomAt
  grind only [wf_drainStores, dropL1Line_mem, setPoison_mem, wf_homeWrite, keepPast_mem, foldl_mem]

@[simp] theorem retireLanes_mem (e : Env) (s : State) (go : List Nat) : (retireLanes e s go).mem = s.mem := rfl

@[simp] theorem wf_doAtomic (a : Args) (s : State) (load : Bool) (w : Memory.wf s.mem = true) : OutWf (doAtomic a s load) := by
  unfold doAtomic
  grind only [wf_gangDo, wf_memGate, wf_releaseGate, onceS_mem, wf_atomAt, issueLoad_mem, issueAck_mem, acquire_mem, syncActive_mem, retireLanes_mem, wf_foldl, OutWf]

@[simp] theorem wf_execAtom (a : Args) (s : State) (w : Memory.wf s.mem = true) : OutWf (execAtom a s) := by
  simp [execAtom, w]

@[simp] theorem wf_execRed (a : Args) (s : State) (w : Memory.wf s.mem = true) : OutWf (execRed a s) := by
  simp [execRed, w]

@[simp] theorem wf_execFence (a : Args) (s : State) (w : Memory.wf s.mem = true) : OutWf (execFence a s) := by
  unfold execFence
  grind only [wf_gangDo, acquire_mem, retire_mem, syncActive_mem, wf_withRelease, OutWf]

@[simp] theorem dropPath_mem (s : State) (c : Crew) (path : Nat) (scope : Nat) (which : List Nat) : (dropPath s c path scope which).mem = s.mem := by
  unfold dropPath
  split <;> simp

@[simp] theorem wf_execXfence (a : Args) (s : State) (w : Memory.wf s.mem = true) : OutWf (execXfence a s) := by
  unfold execXfence
  grind only [wf_gangDo, retire_mem, dropPath_mem, wf_withRelease, wf_passStores, holdGang_mem, OutWf]

@[simp] theorem wf_execWait (a : Args) (s : State) (w : Memory.wf s.mem = true) : OutWf (execWait a s) := by
  unfold execWait
  grind only [wf_gangDo, retire_mem, holdGang_mem, OutWf]

@[simp] theorem wf_writeArr (s : State) (k : Nat) (w1 : ArrWord) (w : Memory.wf s.mem = true) : Memory.wf (writeArr s k w1).mem = true := by
  unfold writeArr
  grind only [wf_memWrite]

@[simp] theorem wf_settleArr (s : State) (uid : Nat) (ls : List (Nat × Nat)) (w : Memory.wf s.mem = true) :
    Memory.wf (settleArr s uid ls).mem = true := by
  simp +contextual [settleArr, w, wf_foldl]

@[simp] theorem wf_arriveArr (s : State) (k : Nat) (n : Nat) (w : Memory.wf s.mem = true) : Memory.wf (arriveArr s k n).mem = true := by
  simp [arriveArr, w]

@[simp] theorem wf_arrLanes (a : Args) (e : Env) (k : State → List ArrLane → Out) (w : Memory.wf e.s.mem = true) (hk : ∀ t x, Memory.wf t.mem = true → OutWf (k t x)) :
    OutWf (arrLanes a e k) := by
  unfold arrLanes
  grind only [wf_settleArr, wf_trapGang, holdGang_mem, foldl_mem, OutWf]

@[simp] theorem arrDst_mem (a : Args) (s : State) (uid : Nat) (tid : Nat) (v : Nat) : (arrDst a s uid tid v).mem = s.mem := by
  unfold arrDst
  split <;> rfl

@[simp] theorem wf_execArwInit (a : Args) (s : State) (w : Memory.wf s.mem = true) : OutWf (execArwInit a s) := by
  unfold execArwInit
  grind only [wf_gangDo, wf_arrLanes, retire_mem, issueAck_mem, wf_writeArr, wf_foldl, OutWf]

@[simp] theorem wf_execArwExpect (a : Args) (s : State) (w : Memory.wf s.mem = true) : OutWf (execArwExpect a s) := by
  unfold execArwExpect
  grind only [wf_gangDo, wf_arrLanes, retire_mem, wf_writeArr, arrDst_mem, issueAck_mem, wf_foldl, OutWf]

@[simp] theorem wf_execArwArrive (a : Args) (s : State) (w : Memory.wf s.mem = true) : OutWf (execArwArrive a s) := by
  unfold execArwArrive
  grind only [wf_gangDo, wf_arrLanes, wf_withRelease, arrDst_mem, issueAck_mem, wf_arriveArr, retire_mem, syncActive_mem, wf_foldl, OutWf]

@[simp] theorem wf_execArwWait (a : Args) (s : State) (w : Memory.wf s.mem = true) : OutWf (execArwWait a s) := by
  unfold execArwWait
  grind only [wf_gangDo, wf_arrLanes, arrDst_mem, acquire_mem, retire_mem, syncActive_mem, holdGang_mem, wf_writeArr, wf_foldl, OutWf]

/-! ### Thunk -/

@[simp] theorem freeSlot_mem (a : Nat) (a1 : State) (a2 : Nat) (a3 : Nat) : (freeSlot a a1 a2 a3).mem = a1.mem := by
  induction a generalizing a1 a2 a3 with
  | zero => rfl
  | succ n ih => unfold freeSlot; grind +splitImp [foldl_mem, updNode_mem, freeNodes_mem]

@[simp] theorem freeNode_mem (s : State) (core : Nat) (slot : Nat) : (freeNode s core slot).mem = s.mem := by
  simp [freeNode]

@[simp] theorem sweepDropped_mem (s : State) (core : Nat) : (sweepDropped s core).mem = s.mem := by
  unfold sweepDropped
  grind only [freeNode_mem, foldl_mem]

@[simp] theorem wf_nodeTrap (e : Env) (field : Nat) (v : Nat) (w : Memory.wf e.s.mem = true) : OutWf (nodeTrap e field v) := by
  simp [nodeTrap, w]

@[simp] theorem wf_agreeGate (e : Env) (xs : List Agree) (k : Out) (w : Memory.wf e.s.mem = true) (hk : OutWf k) : OutWf (agreeGate e xs k) := by
  unfold agreeGate
  repeat' split
  all_goals simp [w, hk]

@[simp] theorem wf_boundsAll (e : Env) (reason : Nat) (w : Memory.wf e.s.mem = true) : OutWf (boundsAll e reason) := by
  simp [boundsAll, w]

@[simp] theorem wf_fmtTrap (e : Env) (detail : Nat) (w : Memory.wf e.s.mem = true) : OutWf (fmtTrap e detail) := by
  simp [fmtTrap, w]

@[simp] theorem wf_voted (e : Env) (o : Opnd) (k : Nat → Out) (w : Memory.wf e.s.mem = true) (hk : ∀ x, OutWf (k x)) : OutWf (voted e o k) := by
  unfold voted
  split <;> simp [w, hk]

@[simp] theorem wf_votedFormat (e : Env) (o : Opnd) (k : Nat → Out) (w : Memory.wf e.s.mem = true) (hk : ∀ x, OutWf (k x)) :
    OutWf (votedFormat e o k) := by
  unfold votedFormat
  grind only [wf_voted, wf_fmtTrap]

@[simp] theorem wf_boundsGate (e : Env) (xs : List (Option Nat)) (k : Out) (w : Memory.wf e.s.mem = true) (hk : OutWf k) :
    OutWf (boundsGate e xs k) := by
  unfold boundsGate
  split <;> simp [w, hk]

@[simp] theorem wf_tokenTrap (e : Env) (z : Nat) (cause : Nat) (w : Memory.wf e.s.mem = true) : OutWf (tokenTrap e z cause) := by
  simp [tokenTrap, w]

@[simp] theorem wf_makeRequest (e : Env) (n : Node) (w1 : Win) (goal : TileGoal) (tiles : List Nat) (w : Memory.wf e.s.mem = true) :
    OutWf (makeRequest e n w1 goal tiles) := by
  simp +contextual [makeRequest, w, wf_foldl]

@[simp] theorem wf_tokenGate (e : Env) (tiles : List Nat) (k : Out) (w : Memory.wf e.s.mem = true) (hk : OutWf k) : OutWf (tokenGate e tiles k) := by
  unfold tokenGate
  split <;> simp [w, hk]

@[simp] theorem wf_thunkFull (e : Env) (w : Memory.wf e.s.mem = true) : OutWf (thunkFull e) := by
  simp [thunkFull, w]

@[simp] theorem wf_placeNode (e : Env) (d : Opnd) (n : Node) (slot : Nat) (w : Memory.wf e.s.mem = true) : OutWf (placeNode e d n slot) := by
  unfold placeNode
  simp only
  repeat' split
  all_goals simp [w]

@[simp] theorem wf_execWatchReached (core : Nat) (slot : Nat) (s : State) (w : Memory.wf s.mem = true) : OutWf (execWatchReached core slot s) := by
  simp [execWatchReached, w]

@[simp] theorem wf_append (e : Env) (d : Opnd) (n : Node) (w : Memory.wf e.s.mem = true) : OutWf (append e d n) := by
  unfold append
  simp only
  repeat' split
  all_goals simp [w]

@[simp] theorem wf_execTdefSrc (a : Args) (s : State) (w : Memory.wf s.mem = true) : OutWf (execTdefSrc a s) := by
  unfold execTdefSrc
  grind only [wf_gangDo, wf_agreeGate, wf_boundsGate, wf_append]

@[simp] theorem wf_execTdefStage (a : Args) (s : State) (w : Memory.wf s.mem = true) : OutWf (execTdefStage a s) := by
  unfold execTdefStage
  grind only [wf_gangDo, wf_agreeGate, wf_boundsGate, wf_trapGang, wf_append]

@[simp] theorem wf_execTdefWait (a : Args) (s : State) (w : Memory.wf s.mem = true) : OutWf (execTdefWait a s) := by
  unfold execTdefWait
  grind only [wf_gangDo, wf_agreeGate, wf_boundsGate, wf_append]

@[simp] theorem wf_execTdefAcc (a : Args) (s : State) (w : Memory.wf s.mem = true) : OutWf (execTdefAcc a s) := by
  unfold execTdefAcc
  grind only [wf_gangDo, wf_agreeGate, wf_boundsGate, wf_append]

@[simp] theorem wf_nodeArg (e : Env) (o : Opnd) (k : Node → Out) (w : Memory.wf e.s.mem = true) (hk : ∀ x, OutWf (k x)) : OutWf (nodeArg e o k) := by
  unfold nodeArg
  split <;> simp [w, hk]

@[simp] theorem wf_execTmm (a : Args) (s : State) (w : Memory.wf s.mem = true) : OutWf (execTmm a s) := by
  unfold execTmm
  grind only [wf_gangDo, wf_agreeGate, wf_nodeArg, wf_boundsGate, wf_votedFormat, wf_fmtTrap, wf_append]

@[simp] theorem wf_execTew (a : Args) (s : State) (w : Memory.wf s.mem = true) : OutWf (execTew a s) := by
  unfold execTew
  grind only [wf_gangDo, wf_agreeGate, wf_nodeArg, wf_boundsGate, wf_append, wf_voted]

@[simp] theorem wf_execTred (a : Args) (s : State) (w : Memory.wf s.mem = true) : OutWf (execTred a s) := by
  unfold execTred
  grind only [wf_gangDo, wf_agreeGate, wf_nodeArg, wf_append]

@[simp] theorem wf_execTmap (a : Args) (s : State) (w : Memory.wf s.mem = true) : OutWf (execTmap a s) := by
  unfold execTmap
  grind only [wf_gangDo, wf_agreeGate, wf_nodeArg, wf_boundsGate, wf_append]

@[simp] theorem wf_execTcvt (a : Args) (s : State) (w : Memory.wf s.mem = true) : OutWf (execTcvt a s) := by
  unfold execTcvt
  grind only [wf_gangDo, wf_agreeGate, wf_nodeArg, wf_votedFormat, wf_append]

@[simp] theorem wf_afterRequest (e : Env) (k : Env → Out) (w : Memory.wf e.s.mem = true) (hk : ∀ e, Memory.wf e.s.mem = true → OutWf (k e)) :
    OutWf (afterRequest e k) := by
  unfold afterRequest
  simp only
  repeat' split
  all_goals simp [w, hk]

@[simp] theorem wf_demand (e : Env) (n : Node) (w1 : Win) (goal : TileGoal) (dest : List (Option Nat)) (spans : List Span) (w : Memory.wf e.s.mem = true) :
    OutWf (demand e n w1 goal dest spans) := by
  unfold demand
  grind only [wf_tokenGate, wf_boundsGate, wf_trapGang, wf_withRelease, wf_makeRequest]

@[simp] theorem wf_execTforceAcc (a : Args) (s : State) (w : Memory.wf s.mem = true) : OutWf (execTforceAcc a s) := by
  unfold execTforceAcc
  grind only [wf_gangDo, wf_afterRequest, wf_agreeGate, wf_nodeArg, wf_demand]

@[simp] theorem wf_windowForm (a : Args) (s : State) (near : Bool) (goal : Rec → Nat → Nat → TileGoal) (w : Memory.wf s.mem = true) :
    OutWf (windowForm a s near goal) := by
  unfold windowForm
  grind only [wf_gangDo, wf_afterRequest, wf_agreeGate, wf_nodeArg, wf_demand]

@[simp] theorem wf_execTforceScr (a : Args) (s : State) (w : Memory.wf s.mem = true) : OutWf (execTforceScr a s) := by
  simp [execTforceScr, w]

@[simp] theorem wf_execTst (a : Args) (s : State) (w : Memory.wf s.mem = true) : OutWf (execTst a s) := by
  simp [execTst, w]

@[simp] theorem tookToken_mem (e : Env) (s : State) : (tookToken e s).mem = s.mem := rfl

@[simp] theorem wf_execTacq (a : Args) (s : State) (w : Memory.wf s.mem = true) : OutWf (execTacq a s) := by
  unfold execTacq
  grind only [wf_gangDo, retire_mem, tookToken_mem, updCrew_mem, holdGang_mem, OutWf]

@[simp] theorem wf_execTacqTry (a : Args) (s : State) (w : Memory.wf s.mem = true) : OutWf (execTacqTry a s) := by
  unfold execTacqTry
  grind only [wf_gangDo, updCrew_mem, retire_mem, tookToken_mem, OutWf]

@[simp] theorem wf_execTrel (a : Args) (s : State) (w : Memory.wf s.mem = true) : OutWf (execTrel a s) := by
  unfold execTrel
  grind only [wf_gangDo, retire_mem, wf_tokenTrap, wf_withRelease, tookToken_mem, updCrew_mem, OutWf]

@[simp] theorem wf_execTdrop (a : Args) (s : State) (w : Memory.wf s.mem = true) : OutWf (execTdrop a s) := by
  unfold execTdrop
  grind only [wf_gangDo, wf_agreeGate, wf_nodeArg, retire_mem, sweepDropped_mem, updNode_mem, OutWf]

@[simp] theorem wf_execTdropAll (a : Args) (s : State) (w : Memory.wf s.mem = true) : OutWf (execTdropAll a s) := by
  unfold execTdropAll
  grind only [wf_gangDo, retire_mem, sweepDropped_mem, OutWf]

@[simp] theorem wf_statInstr (a : Args) (s : State) (f : Env → Thread → Nat) (w : Memory.wf s.mem = true) : OutWf (statInstr a s f) := by
  simp [statInstr, w]

@[simp] theorem wf_execTstat (a : Args) (s : State) (w : Memory.wf s.mem = true) : OutWf (execTstat a s) := by
  simp [execTstat, w]

@[simp] theorem wf_execTstatTab (a : Args) (s : State) (w : Memory.wf s.mem = true) : OutWf (execTstatTab a s) := by
  simp [execTstatTab, w]

@[simp] theorem wf_execTstatTok (a : Args) (s : State) (w : Memory.wf s.mem = true) : OutWf (execTstatTok a s) := by
  simp [execTstatTok, w]

/-! ### Rays -/

@[simp] theorem dropSlot_mem (s : State) (id : Nat) : (dropSlot s id).mem = s.mem := rfl

@[simp] theorem decide'_mem (s : State) (uid : Nat) (tid : Nat) (d : Hit → Decision) : (decide' s uid tid d).mem = s.mem := by
  unfold decide'
  repeat' split
  all_goals simp

@[simp] theorem defaultCand_mem (s : State) (uid : Nat) (tid : Nat) : (defaultCand s uid tid).mem = s.mem := by
  simp [defaultCand]

@[simp] theorem issueRay_mem (a : Args) (c : Crew) (pc : Word64) (s : State) (t : Thread) : (issueRay a c pc s t).mem = s.mem := by
  simp [issueRay]

@[simp] theorem wf_execTrace (a : Args) (s : State) (w : Memory.wf s.mem = true) : OutWf (execTrace a s) := by
  unfold execTrace
  grind only [wf_gangDo, wf_issueGate, issueRay_mem, retireSome_mem, leaveGang_mem, wf_foldl_fst, OutWf]

@[simp] theorem takeEvent_mem (s : State) (uid : Nat) (tid : Nat) (x : RaySlot) (r : RayRecord) : (takeEvent s uid tid x r).mem = s.mem := by
  unfold takeEvent
  split <;> rfl

@[simp] theorem hitldLane_mem (a : Args) (tr : Bool) (pc : Word64) (c : Crew) (codes : List (Nat × Nat)) (s : State) (t : Thread) :
    (hitldLane a tr pc c codes s t).1.mem = s.mem := by
  unfold hitldLane
  repeat' split
  all_goals simp

@[simp] theorem wf_hitldLanes (a : Args) (tr : Bool) (e : Env) (lanes : List Thread) (codes : List (Nat × Nat)) (w : Memory.wf e.s.mem = true) :
    OutWf (hitldLanes a tr e lanes codes) := by
  unfold hitldLanes
  grind only [defaultCand_mem, hitldLane_mem, updCrew_mem, foldl_mem, wf_foldl_fst, OutWf]

@[simp] theorem wf_hitldInstr (a : Args) (tr : Bool) (s : State) (w : Memory.wf s.mem = true) : OutWf (hitldInstr a tr s) := by
  unfold hitldInstr
  grind only [wf_gangDo, dropSlot_mem, defaultCand_mem, raise_mem, wf_threadsTrap, wf_hitldLanes, wf_readRecords, OutWf]

@[simp] theorem wf_execHitld (a : Args) (s : State) (w : Memory.wf s.mem = true) : OutWf (execHitld a s) := by
  simp [execHitld, w]

@[simp] theorem wf_execHitldTry (a : Args) (s : State) (w : Memory.wf s.mem = true) : OutWf (execHitldTry a s) := by
  simp [execHitldTry, w]

@[simp] theorem wf_hitrepInstr (a : Args) (judge : Crew → Thread → Ray → Hit → Nat → Verdict) (s : State) (w : Memory.wf s.mem = true) :
    OutWf (hitrepInstr a judge s) := by
  unfold hitrepInstr
  grind only [wf_gangDo, decide'_mem, retire_mem, updCrew_mem, foldl_mem, OutWf]

@[simp] theorem wf_execHitrepAccept (a : Args) (s : State) (w : Memory.wf s.mem = true) : OutWf (execHitrepAccept a s) := by
  simp [execHitrepAccept, w]

@[simp] theorem wf_execHitrepIgnore (a : Args) (s : State) (w : Memory.wf s.mem = true) : OutWf (execHitrepIgnore a s) := by
  simp [execHitrepIgnore, w]

@[simp] theorem wf_execHitrepTerm (a : Args) (s : State) (w : Memory.wf s.mem = true) : OutWf (execHitrepTerm a s) := by
  simp [execHitrepTerm, w]

@[simp] theorem wf_execHitrepCommit (a : Args) (s : State) (w : Memory.wf s.mem = true) : OutWf (execHitrepCommit a s) := by
  simp [execHitrepCommit, w]

@[simp] theorem wf_execHitrepCommitTerm (a : Args) (s : State) (w : Memory.wf s.mem = true) : OutWf (execHitrepCommitTerm a s) := by
  simp [execHitrepCommitTerm, w]

@[simp] theorem wf_putEntry (s : State) (ctx : Nat) (va : Nat) (off : Nat) (len : Nat) (v : Nat) (w : Memory.wf s.mem = true) :
    Memory.wf (putEntry s ctx va off len v).mem = true := by
  unfold putEntry
  repeat' split
  all_goals simp [w, wf_homeWriteN]

@[simp] theorem dropNodePage_mem (s : State) (ctx : Nat) (va : Nat) : (dropNodePage s ctx va).mem = s.mem := by
  unfold dropNodePage
  split <;> rfl

@[simp] theorem finishPub_mem (s : State) (p : PubReq) (v : Nat) : (finishPub s p v).mem = s.mem := rfl

@[simp] theorem wf_servePub (s : State) (p : PubReq) (w : Memory.wf s.mem = true) : Memory.wf (servePub s p).mem = true := by
  unfold servePub
  grind only [finishPub_mem, wf_putEntry, dropNodePage_mem]

@[simp] theorem wf_servePubs (s : State) (ctx : Nat) (entry : Nat) (w : Memory.wf s.mem = true) : Memory.wf (servePubs s ctx entry).mem = true := by
  simp +contextual [servePubs, w, wf_foldl]

@[simp] theorem wf_execPublishExchange (hold : Nat) (s : State) (w : Memory.wf s.mem = true) : OutWf (execPublishExchange hold s) := by
  unfold execPublishExchange
  split
  · exact w
  next p _ =>
  have w1 := wf_foldl servePub wf_servePub (s.pubs.filter fun q => q.id ≤ p.id && q.ctx == p.ctx && q.entry == p.entry) s w
  simp only
  split
  · exact w1
  · split
    · rw [outWf_next]
      split
      · exact w1
      · simpa using w1
    · exact w1

@[simp] theorem wf_tlpubInstr (a : Args) (f : Env → State → Thread → Nat → State) (s : State) (hf : ∀ e t x y, Memory.wf e.s.mem = true → Memory.wf t.mem = true → Memory.wf (f e t x y).mem = true) (w : Memory.wf s.mem = true) :
    OutWf (tlpubInstr a f s) := by
  unfold tlpubInstr
  grind only [wf_gangDo, wf_issueGate, wf_readRecords, wf_threadsTrap, onceS_mem, issueLoad_mem, wf_pastWith, wf_foldl]

@[simp] theorem wf_execTlpubHold (a : Args) (s : State) (w : Memory.wf s.mem = true) : OutWf (execTlpubHold a s) := by
  unfold execTlpubHold
  grind only [wf_tlpubInstr, wf_servePubs, issueLoad_mem, wf_putEntry]

@[simp] theorem wf_execTlpubStat (a : Args) (s : State) (w : Memory.wf s.mem = true) : OutWf (execTlpubStat a s) := by
  unfold execTlpubStat
  grind only [wf_tlpubInstr, wf_servePubs, issueLoad_mem]

@[simp] theorem wf_execTlpubPub (a : Args) (s : State) (w : Memory.wf s.mem = true) : OutWf (execTlpubPub a s) := by
  unfold execTlpubPub
  grind only [wf_gangDo, wf_withRelease, wf_tlpubInstr, countUp_mem]

/-! ### Traverse -/

theorem foldl_fst_mem {β γ : Type} (f : State × γ → β → State × γ) (h : ∀ p x, (f p x).1.mem = p.1.mem) (xs : List β) (p : State × γ) :
    (xs.foldl f p).1.mem = p.1.mem := by
  induction xs generalizing p with
  | nil => rfl
  | cons x xs ih => exact (ih _).trans (h p x)

@[simp] theorem cachedRun_mem (kind : Nat → CacheKind) (ctx : Nat) (s : State) (run : Nat × Nat) : (cachedRun kind ctx s run).1.mem = s.mem := by
  refine foldl_fst_mem (γ := List Byte) _ (fun p i => ?_) _ _
  exact throughCache_mem _ _ _ _ p.1 fun s => pathSector_mem _ _ _ s

@[simp] theorem cachedRead_mem (kind : Nat → CacheKind) (ctx : Nat) (s : State) (runs : List (Nat × Nat)) :
    (cachedRead kind ctx s runs).1.mem = s.mem :=
  foldl_fst_mem (γ := List Byte × Bool) _ (fun p run => cachedRun_mem kind ctx p.1 run) _ _

@[simp] theorem wf_stopKeeping {α : Type} (s : State) (f : TrapInfo) (side : Nat) : PartWf (stopKeeping s f side : Part α) := trivial

theorem wf_rayFetch (s : State) (m : Mover) (r : Ray) (late : Option TrapInfo) (off : Nat) (va : Nat) (len : Nat) (w : Memory.wf s.mem = true) :
    PartWf (rayFetch s m r late off va len) := by
  unfold rayFetch
  grind only [wf_partBind, wf_quernReach, cachedRead_mem, enginePoison_mem, wf_stopKeeping, PartWf]

theorem wf_putLog (s : State) (m : Mover) (r : Ray) (late : Option TrapInfo) (entry : Nat) (v : Nat) (w : Memory.wf s.mem = true) :
    PartWf (putLog s m r late entry v) := by
  unfold putLog
  grind only [wf_partBind, wf_quernReach, wf_engineWrite, PartWf]

theorem wf_logEvent (s : State) (m : Mover) (r : Ray) (late : Option TrapInfo) (v : Nat) (w : Memory.wf s.mem = true) :
    PartWf (logEvent s m r late v) := by
  unfold logEvent
  grind only [wf_partBind, wf_putLog, PartWf]

theorem wf_closeLog (s : State) (m : Mover) (r : Ray) (late : Option TrapInfo) (fin : Option Hit) (w : Memory.wf s.mem = true) :
    PartWf (closeLog s m r late fin) := by
  unfold closeLog
  grind only [wf_partBind, wf_putLog, PartWf]

theorem wf_acceptHit (s : State) (m : Mover) (r : Ray) (late : Option TrapInfo) (h1 : Hit) (w : Memory.wf s.mem = true) :
    PartWf (acceptHit s m r late h1) := by
  unfold acceptHit
  grind only [wf_partBind, wf_logEvent, PartWf]

theorem wf_settleDecision (s : State) (m : Mover) (r : Ray) (late : Option TrapInfo) (d : Decision) (ev : Nat) (w : Memory.wf s.mem = true) :
    PartWf (settleDecision s m r late d ev) := by
  unfold settleDecision
  grind only [wf_partBind, wf_logEvent, PartWf]

theorem wf_rowCode (s : State) (m : Mover) (r : Ray) (late : Option TrapInfo) (byte : Nat) (w : Memory.wf s.mem = true) :
    PartWf (rowCode s m r late byte) := by
  unfold rowCode
  grind only [wf_partBind, wf_rayFetch, wf_partFault, PartWf]

theorem wf_visitNode (s : State) (m : Mover) (r : Ray) (late : Option TrapInfo) (ref : Nat) (rest : List RayItem) (w : Memory.wf s.mem = true) :
    PartWf (visitNode s m r late ref rest) := by
  unfold visitNode
  grind only [wf_partFault, wf_partBind, wf_rayFetch, PartWf]

theorem wf_addVisit (s : State) (m : Mover) (r : Ray) (off : Nat) (v : RayVisit) (w : Memory.wf s.mem = true) : PartWf (addVisit s m r off v) := by
  unfold addVisit
  repeat' split
  all_goals simp [w]

theorem wf_visitInst (s : State) (m : Mover) (r : Ray) (late : Option TrapInfo) (it : RayItem) (w : Memory.wf s.mem = true) :
    PartWf (visitInst s m r late it) := by
  unfold visitInst
  grind only [wf_partFault, wf_partBind, wf_rayFetch, wf_addVisit, PartWf]

theorem wf_carryOut (s : State) (m : Mover) (r : Ray) (late : Option TrapInfo) (h1 : Hit) (a : Settle) (w : Memory.wf s.mem = true) :
    PartWf (carryOut s m r late h1 a) := by
  unfold carryOut
  grind only [wf_acceptHit, PartWf]

theorem wf_readOmm (s : State) (m : Mover) (r : Ray) (late : Option TrapInfo) (off : Nat) (u : FV) (v : FV) (w : Memory.wf s.mem = true) :
    PartWf (readOmm s m r late off u v) := by
  unfold readOmm
  grind only [wf_partFault, wf_partBind, wf_rayFetch, PartWf]

theorem wf_visitTri (s : State) (m : Mover) (r : Ray) (late : Option TrapInfo) (off : Nat) (v : Nat) (k : Nat) (w : Memory.wf s.mem = true) :
    PartWf (visitTri s m r late off v k) := by
  unfold visitTri
  grind only [wf_carryOut, wf_partBind, wf_readOmm, wf_rowCode, PartWf]

theorem wf_visitTris (m : Mover) (late : Option TrapInfo) (off v : Nat) (it : RayItem) (rest : List RayItem) (total base : Nat) (ks : List Nat) (s : State) (r : Ray)
    (w : Memory.wf s.mem = true) : PartWf (visitTris m late off v it rest total base ks s r) := by
  induction ks generalizing s r with
  | nil => exact w
  | cons k ks ih =>
    unfold visitTris
    refine wf_partBind _ _ (wf_visitTri _ _ _ _ _ _ _ w) fun s x w => ?_
    simp only
    split
    · exact w
    · exact ih _ _ w

theorem wf_askIsect (s : State) (m : Mover) (r : Ray) (late : Option TrapInfo) (h1 : Hit) (ev : Nat) (w : Memory.wf s.mem = true) :
    PartWf (askIsect s m r late h1 ev) := by
  unfold askIsect
  grind only [wf_partBind, wf_acceptHit, wf_rowCode, telemetry_mem, PartWf]

theorem wf_visitAsphere (s : State) (m : Mover) (r : Ray) (late : Option TrapInfo) (off : Nat) (v : Nat) (w : Memory.wf s.mem = true) :
    PartWf (visitAsphere s m r late off v) := by
  unfold visitAsphere
  grind only [wf_partFault, wf_partBind, wf_carryOut, wf_askIsect, PartWf]

theorem wf_visitCustom (s : State) (m : Mover) (r : Ray) (late : Option TrapInfo) (off : Nat) (v : Nat) (w : Memory.wf s.mem = true) :
    PartWf (visitCustom s m r late off v) := by
  unfold visitCustom
  grind only [wf_partFault, wf_askIsect, PartWf]

theorem wf_visitLeaf (s : State) (m : Mover) (r : Ray) (late : Option TrapInfo) (it : RayItem) (rest : List RayItem) (w : Memory.wf s.mem = true) :
    PartWf (visitLeaf s m r late it rest) := by
  unfold visitLeaf
  grind only [wf_partFault, wf_partBind, wf_rayFetch, wf_visitTris, wf_visitAsphere, wf_visitCustom, PartWf]

theorem wf_entryFetch (s : State) (m : Mover) (r : Ray) (late : Option TrapInfo) (w : Memory.wf s.mem = true) : PartWf (entryFetch s m r late) := by
  unfold entryFetch
  grind only [wf_partBind, wf_quernReach, enginePoison_mem, wf_stopKeeping, PartWf]

theorem wf_enterTreelet (s : State) (m : Mover) (r : Ray) (late : Option TrapInfo) (w : Memory.wf s.mem = true) :
    PartWf (enterTreelet s m r late) := by
  unfold enterTreelet
  grind only [wf_partBind, wf_rayFetch, wf_partFault, wf_logEvent, wf_entryFetch, wf_quernReach, PartWf]

theorem wf_leaveTreelet (s : State) (m : Mover) (r : Ray) (late : Option TrapInfo) (w : Memory.wf s.mem = true) :
    PartWf (leaveTreelet s m r late) := by
  unfold leaveTreelet
  grind only [wf_partBind, wf_closeLog, wf_partFault, wf_entryFetch, wf_quernReach, PartWf]

theorem wf_rayStep (s : State) (m : Mover) (r : Ray) (late : Option TrapInfo) (w : Memory.wf s.mem = true) : PartWf (rayStep s m r late) := by
  unfold rayStep
  grind only [wf_settleDecision, wf_enterTreelet, wf_leaveTreelet, wf_visitNode, wf_addVisit, wf_visitInst, wf_visitLeaf, PartWf]

@[simp] theorem replacePipe_mem (s : State) (stack : Nat) (pipe : Nat) : (replacePipe s stack pipe).mem = s.mem := by
  unfold replacePipe
  simp only
  repeat' split
  all_goals simp

@[simp] theorem settlePipes_mem (s : State) : (settlePipes s).mem = s.mem := by
  simp +contextual [settlePipes, foldl_mem]

@[simp] theorem wf_abandonRay (s : State) (m : Mover) (r : Ray) (status : Nat) (fault : Option TrapInfo) (w : Memory.wf s.mem = true) :
    Memory.wf (abandonRay s m r status fault).mem = true := by
  unfold abandonRay
  grind only [wf_closeLog, updRay_mem, PartWf]

@[simp] theorem wf_execNodeVisit (ray : Nat) (s : State) (w : Memory.wf s.mem = true) : OutWf (execNodeVisit ray s) := by
  unfold execNodeVisit
  rcases hf : takeFault s ray with _ | ⟨f, s1⟩ <;> grind only [takeFault_mem, wf_rayStep, settlePipes_mem, updRay_mem, wf_abandonRay, keepPoison_mem, OutWf, PartWf]

@[simp] theorem wf_endQueued (s : State) (status : Nat) (r : Ray) (w : Memory.wf s.mem = true) : Memory.wf (endQueued s status r).mem = true := by
  unfold endQueued
  split <;> simp [w]

@[simp] theorem wf_execRayArrival (ray : Nat) (s : State) (w : Memory.wf s.mem = true) : OutWf (execRayArrival ray s) := by
  unfold execRayArrival
  repeat' split
  all_goals simp [w]

@[simp] theorem wf_execLeatReload (stack : Nat) (s : State) (w : Memory.wf s.mem = true) : OutWf (execLeatReload stack s) := by
  unfold execLeatReload
  grind only [OutWf]

@[simp] theorem wf_execTreeletSchedule (stack : Nat) (s : State) (w : Memory.wf s.mem = true) : OutWf (execTreeletSchedule stack s) := by
  unfold execTreeletSchedule
  simp only
  repeat' split
  all_goals simp [w]

@[simp] theorem wf_execLeatAgeExpiry (stack : Nat) (s : State) (w : Memory.wf s.mem = true) : OutWf (execLeatAgeExpiry stack s) := by
  simp [execLeatAgeExpiry, w]

@[simp] theorem wf_execHoldLimitExpiry (hold : Nat) (s : State) (w : Memory.wf s.mem = true) : OutWf (execHoldLimitExpiry hold s) := by
  unfold execHoldLimitExpiry
  grind only [wf_putEntry, wf_endQueued, wf_foldl, OutWf]

@[simp] theorem wf_execRayMessageLost (ray : Nat) (s : State) (w : Memory.wf s.mem = true) : OutWf (execRayMessageLost ray s) := by
  unfold execRayMessageLost
  repeat' split
  all_goals simp [w]

@[simp] theorem pushEvent_mem (s : State) (x : RaySlot) (rec : RayRecord) : (pushEvent s x rec).mem = s.mem := rfl

@[simp] theorem wf_execTailraceRecord (ray : Nat) (s : State) (w : Memory.wf s.mem = true) : OutWf (execTailraceRecord ray s) := by
  unfold execTailraceRecord
  repeat' split
  all_goals simp [w]

@[simp] theorem wf_execRayEnd (ray : Nat) (s : State) (w : Memory.wf s.mem = true) : OutWf (execRayEnd ray s) := by
  unfold execRayEnd
  repeat' split
  all_goals simp [w]

/-! ### Exit -/

@[simp] theorem defaultOn_mem (s : State) (x : RaySlot) : (defaultOn s x).mem = s.mem := rfl

@[simp] theorem leaveRays_mem (s : State) (uid : Nat) (tid : Nat) : (leaveRays s uid tid).mem = s.mem := by
  unfold leaveRays
  grind only [defaultCand_mem, defaultOn_mem, dropSlot_mem, updSlot_mem, foldl_mem]

@[simp] theorem wf_leaveFill (s : State) (uid : Nat) (w : Memory.wf s.mem = true) : Memory.wf (leaveFill s uid).mem = true := by
  unfold leaveFill
  repeat' split
  all_goals simp [w]

@[simp] theorem wf_exitThreads (s : State) (uid : Nat) (tids : List Nat) (w : Memory.wf s.mem = true) :
    Memory.wf (exitThreads s uid tids).mem = true := by
  simp +contextual [exitThreads, w, foldl_mem]

@[simp] theorem wf_execExit (a : Args) (s : State) (w : Memory.wf s.mem = true) : OutWf (execExit a s) := by
  unfold execExit
  grind only [wf_gangDo, retire_mem, wf_withRelease, updCrew_mem, wf_exitThreads, OutWf]

@[simp] theorem wf_execCrewRetire (crew : Nat) (s : State) (w : Memory.wf s.mem = true) : OutWf (execCrewRetire crew s) := by
  unfold execCrewRetire
  simp only
  repeat' split
  all_goals simp [w]

/-! ### System -/

@[simp] theorem wf_trapInstr (a : Args) (code : Nat) (s : State) (w : Memory.wf s.mem = true) : OutWf (trapInstr a code s) := by
  unfold trapInstr
  grind only [wf_gangDo, retire_mem, wf_trapGang, OutWf]

@[simp] theorem wf_execTrapTrap (a : Args) (s : State) (w : Memory.wf s.mem = true) : OutWf (execTrapTrap a s) := by
  simp [execTrapTrap, w]

@[simp] theorem wf_execTrapBrk (a : Args) (s : State) (w : Memory.wf s.mem = true) : OutWf (execTrapBrk a s) := by
  simp [execTrapBrk, w]

@[simp] theorem wf_devFields (s : State) (ctx : Nat) (va : Nat) (fs : List PutField) (w : Memory.wf s.mem = true) :
    Memory.wf (devFields s ctx va fs).mem = true := by
  unfold devFields
  grind only [devPut_spec, wf_foldl]

@[simp] theorem wf_postSvc (a : Args) (e : Env) (x : Context) (idx : Nat) (num : Nat) (w : Memory.wf e.s.mem = true) :
    Memory.wf (postSvc a e x idx num).mem = true := by
  unfold postSvc
  grind only [wf_devFields, devPut_spec, updCtx_mem, holdT_mem]

@[simp] theorem wf_execTrapSvc (a : Args) (s : State) (w : Memory.wf s.mem = true) : OutWf (execTrapSvc a s) := by
  unfold execTrapSvc
  grind only [wf_gangDo, retire_mem, wf_trapGang, wf_withRelease, wf_unlessHeld, holdGang_mem, wf_postSvc, syncActive_mem, OutWf]

@[simp] theorem wakeSvc_mem (s : State) (ctx : Nat) : (wakeSvc s ctx).mem = s.mem := rfl

@[simp] theorem wf_freeEntry (s : State) (x : Context) (k : SvcCall) (w : Memory.wf s.mem = true) : Memory.wf (freeEntry s x k).mem = true := by
  unfold freeEntry
  grind only [wakeSvc_mem, devPut_spec]

@[simp] theorem wf_takeSvc (s : State) (k : SvcCall) (w : Memory.wf s.mem = true) : Memory.wf (takeSvc s k).mem = true := by
  unfold takeSvc
  grind only [wf_logReply, updCrew_mem, wf_freeEntry, acquire_mem, syncActive_mem, devPut_spec]

@[simp] theorem wf_takeAnswered (call : Nat) (s : State) (w : Memory.wf s.mem = true) : OutWf (takeAnswered call s) := by
  unfold takeAnswered
  repeat' split
  all_goals simp [w]

@[simp] theorem wf_answerSvc (s : State) (call : Nat) (st : Nat) (replies : List Word64) (w : Memory.wf s.mem = true) :
    Memory.wf (answerSvc s call st replies).mem = true := by
  unfold answerSvc
  grind only [devPut_spec, wf_takeSvc, wf_foldl]

@[simp] theorem wf_execSvcReply (call : Nat) (replies : List Word64) (s : State) (w : Memory.wf s.mem = true) :
    OutWf (execSvcReply call replies s) := by
  simp [execSvcReply, w]

@[simp] theorem wf_execSvcRefused (call : Nat) (s : State) (w : Memory.wf s.mem = true) : OutWf (execSvcRefused call s) := by
  simp [execSvcRefused, w]

@[simp] theorem wf_execSget (a : Args) (s : State) (w : Memory.wf s.mem = true) : OutWf (execSget a s) := by
  simp [execSget, w]

@[simp] theorem wf_crewCtl (s : State) (w1 : Crew) (v : Nat) (w : Memory.wf s.mem = true) : Memory.wf (crewCtl s w1 v).mem = true := by
  unfold crewCtl
  repeat' split
  all_goals simp [w]

@[simp] theorem ranged_mem (s : State) (ctx : Nat) (v : Nat) (lo : Nat) (hi : Nat) (f : Context → Context) :
    (ranged s ctx v lo hi f).mem = s.mem := by
  unfold ranged
  split <;> rfl

@[simp] theorem setAper_mem (s : State) (x : Context) (v : Nat) (f : Context → Context) : (setAper s x v f).mem = s.mem := by
  unfold setAper
  simp only
  repeat' split
  all_goals simp

@[simp] theorem wf_sprWrite (s : State) (c : Crew) (x : Context) (n : Nat) (v : Nat) (w : Memory.wf s.mem = true) :
    Memory.wf (sprWrite s c x n v).mem = true := by
  unfold sprWrite
  repeat' split
  all_goals simp [w]

@[simp] theorem wf_execSset (a : Args) (s : State) (w : Memory.wf s.mem = true) : OutWf (execSset a s) := by
  unfold execSset
  grind only [wf_gangDo, retire_mem, wf_trapGang, wf_sprWrite, OutWf]

@[simp] theorem wf_putPair (a : Args) (f : State → Crew → Nat) (s : State) (w : Memory.wf s.mem = true) : OutWf (putPair a f s) := by
  simp [putPair, w]

@[simp] theorem wf_execCntCclk (a : Args) (s : State) (w : Memory.wf s.mem = true) : OutWf (execCntCclk a s) := by
  simp [execCntCclk, w]

@[simp] theorem wf_execCntVclk (a : Args) (s : State) (w : Memory.wf s.mem = true) : OutWf (execCntVclk a s) := by
  simp [execCntVclk, w]

@[simp] theorem wf_execCntLeft (a : Args) (s : State) (w : Memory.wf s.mem = true) : OutWf (execCntLeft a s) := by
  simp [execCntLeft, w]

@[simp] theorem wf_execCntArm (a : Args) (s : State) (w : Memory.wf s.mem = true) : OutWf (execCntArm a s) := by
  unfold execCntArm
  grind only [wf_gangDo, retire_mem, updCrew_mem, OutWf]

@[simp] theorem wf_execCntDisarm (a : Args) (s : State) (w : Memory.wf s.mem = true) : OutWf (execCntDisarm a s) := by
  unfold execCntDisarm
  grind only [wf_gangDo, retire_mem, updCrew_mem, OutWf]

/-! ### Halt -/

@[simp] theorem setPhase_mem (s : State) (uid : Nat) (p : HaltPhase) : (setPhase s uid p).mem = s.mem := rfl

@[simp] theorem wf_endGenerator (s : State) (c : Crew) (f : TrapInfo) (pc : Word64) (w : Memory.wf s.mem = true) :
    Memory.wf (endGenerator s c f pc).mem = true := by
  unfold endGenerator
  repeat' split
  all_goals simp [w]

@[simp] theorem wf_execSkidEnd (crew : Nat) (s : State) (w : Memory.wf s.mem = true) : OutWf (execSkidEnd crew s) := by
  unfold execSkidEnd
  repeat' split
  all_goals simp [w]

@[simp] theorem wf_afterTaking (s : State) (c : Crew) (k : Taking) (w : Memory.wf s.mem = true) : Memory.wf (afterTaking s c k).mem = true := by
  unfold afterTaking
  repeat' split
  all_goals simp [w]

@[simp] theorem wf_execCrewSaveComplete (crew : Nat) (s : State) (w : Memory.wf s.mem = true) : OutWf (execCrewSaveComplete crew s) := by
  unfold execCrewSaveComplete
  simp only
  repeat' split
  all_goals simp [w]

@[simp] theorem wf_abortOf (s : State) (c : Crew) (h1 : Halt) (w : Memory.wf s.mem = true) : Memory.wf (abortOf s c h1).mem = true := by
  unfold abortOf
  split <;> simp [w]

@[simp] theorem wf_execTrapRecordPost (crew : Nat) (s : State) (w : Memory.wf s.mem = true) : OutWf (execTrapRecordPost crew s) := by
  unfold execTrapRecordPost
  split
  · exact w
  split
  · simp only
    split
    · exact w
    split
    · simp [w]
    · simp [w]
    · exact w
    · split
      · simp [w]
      · next h =>
        have w1 := (devWrite_spec h).1 (by simp [w])
        split <;> simp [w1]
  · exact w

@[simp] theorem wf_execHandlerStart (crew : Nat) (s : State) (w : Memory.wf s.mem = true) : OutWf (execHandlerStart crew s) := by
  unfold execHandlerStart
  repeat' split
  all_goals simp [w]

@[simp] theorem wf_resumeWith (crew : Nat) (act : Nat) (f : Halt → Crew → Crew) (s : State) (w : Memory.wf s.mem = true) :
    OutWf (resumeWith crew act f s) := by
  unfold resumeWith
  repeat' split
  all_goals simp [w]

@[simp] theorem wf_execCrewCtlResume (crew : Nat) (s : State) (w : Memory.wf s.mem = true) : OutWf (execCrewCtlResume crew s) := by
  simp [execCrewCtlResume, w]

@[simp] theorem wf_execCrewCtlResumePast (crew : Nat) (s : State) (w : Memory.wf s.mem = true) : OutWf (execCrewCtlResumePast crew s) := by
  simp [execCrewCtlResumePast, w]

@[simp] theorem wf_execCrewCtlKill (crew : Nat) (s : State) (w : Memory.wf s.mem = true) : OutWf (execCrewCtlKill crew s) := by
  unfold execCrewCtlKill
  repeat' split
  all_goals simp [w]

@[simp] theorem wf_execCrewCtlAbort (crew : Nat) (s : State) (w : Memory.wf s.mem = true) : OutWf (execCrewCtlAbort crew s) := by
  unfold execCrewCtlAbort
  repeat' split
  all_goals simp [w]

@[simp] theorem wf_execTimerDue (crew : Nat) (s : State) (w : Memory.wf s.mem = true) : OutWf (execTimerDue crew s) := by
  unfold execTimerDue
  simp only
  repeat' split
  all_goals simp [w]

@[simp] theorem wf_execContextSwitchRequest (ctx : Nat) (s : State) (w : Memory.wf s.mem = true) : OutWf (execContextSwitchRequest ctx s) := by
  unfold execContextSwitchRequest
  repeat' split
  all_goals simp [w]

@[simp] theorem updCollector_mem (s : State) (ctx : Nat) (die : Nat) (f : Collector → Collector) : (updCollector s ctx die f).mem = s.mem := rfl

@[simp] theorem wf_execCollectorSkidDone (ctx : Nat) (die : Nat) (s : State) (w : Memory.wf s.mem = true) :
    OutWf (execCollectorSkidDone ctx die s) := by
  unfold execCollectorSkidDone
  simp only
  repeat' split
  all_goals simp [w]

@[simp] theorem wf_execEngineStopPoint (ctx : Nat) (die : Nat) (engine : Nat) (s : State) (w : Memory.wf s.mem = true) :
    OutWf (execEngineStopPoint ctx die engine s) := by
  unfold execEngineStopPoint
  repeat' split
  all_goals simp [w]

@[simp] theorem wf_saveDie (s : State) (ctx : Nat) (die : Nat) (w : Memory.wf s.mem = true) : Memory.wf (saveDie s ctx die).mem = true := by
  unfold saveDie
  grind only [wf_saveBin, wf_saveImage, wf_foldl]

@[simp] theorem takeOff_mem (s : State) (ctx : Nat) (die : Nat) : (takeOff s ctx die).mem = s.mem := by
  unfold takeOff
  grind only [setPhase_mem, leaveCore_mem, updCrew_mem, foldl_mem]

@[simp] theorem wf_execSaveDone (ctx : Nat) (die : Nat) (s : State) (w : Memory.wf s.mem = true) : OutWf (execSaveDone ctx die s) := by
  unfold execSaveDone
  simp only
  repeat' split
  all_goals simp [w]

@[simp] theorem rereadDescriptor_mem (s : State) (ctx : Nat) : (rereadDescriptor s ctx).mem = s.mem := by
  unfold rereadDescriptor
  split <;> simp

@[simp] theorem wf_deliverNested (s : State) (c : Crew) (w : Memory.wf s.mem = true) : Memory.wf (deliverNested s c).mem = true := by
  unfold deliverNested
  repeat' split
  all_goals simp [w]

theorem wf_placeAll {s t : State} {cs : List Crew} (w : Memory.wf s.mem = true) (h : placeAll s cs = some t) : Memory.wf t.mem = true := by
  induction cs generalizing s with
  | nil => cases h; exact w
  | cons c cs ih =>
    unfold placeAll at h
    obtain ⟨core, -, h⟩ := Option.bind_eq_some_iff.1 h
    exact ih (by simp [w]) h

@[simp] theorem wf_stopQueues (s : State) (ctx : Nat) (w : Memory.wf s.mem = true) : Memory.wf (stopQueues s ctx).mem = true := by
  simp +contextual [stopQueues, w, wf_foldl]

@[simp] theorem wf_execContextRestore (ctx : Nat) (s : State) (w : Memory.wf s.mem = true) : OutWf (execContextRestore ctx s) := by
  unfold execContextRestore
  grind only [rereadDescriptor_mem, wf_stopQueues, wf_binBack, wf_deliverNested, wf_placeAll, updCtx_mem, wf_foldl, OutWf]

/-! ### Boot -/

@[simp] theorem wf_powerUp (s : State) (powered : Bool) (w : Memory.wf s.mem = true) : Memory.wf (powerUp s powered).mem = true := by
  exact wf_memFilter _ _ w

@[simp] theorem wf_execPowerGood (s : State) (w : Memory.wf s.mem = true) : OutWf (execPowerGood s) := by
  simp [execPowerGood, w]

@[simp] theorem wf_execPowerRemoved (s : State) (w : Memory.wf s.mem = true) : OutWf (execPowerRemoved s) := by
  simp [execPowerRemoved, w]

@[simp] theorem wf_execBootRomAuthenticate (off : Nat) (len : Nat) (code : Nat) (s : State) (w : Memory.wf s.mem = true) :
    OutWf (execBootRomAuthenticate off len code s) := by
  unfold execBootRomAuthenticate
  simp only
  repeat' split
  all_goals simp [w]

@[simp] theorem wf_execStackTrainingDone (stack : Nat) (passes : Bool) (passesOnSpares : Bool) (s : State) (w : Memory.wf s.mem = true) :
    OutWf (execStackTrainingDone stack passes passesOnSpares s) := by
  unfold execStackTrainingDone
  grind only [blowFuse_mem, report_mem, OutWf]

@[simp] theorem wf_execHostLinkTrain (rate : Nat) (width : Nat) (s : State) (w : Memory.wf s.mem = true) :
    OutWf (execHostLinkTrain rate width s) := by
  unfold execHostLinkTrain
  split <;> simp [w]

@[simp] theorem wf_execFlozorLinkBringup (port : Nat) (rate : Nat) (node : BitVec 12) (s : State) (w : Memory.wf s.mem = true) :
    OutWf (execFlozorLinkBringup port rate node s) := by
  unfold execFlozorLinkBringup
  split <;> simp [w]

@[simp] theorem wf_execAttestationRequest (s : State) (w : Memory.wf s.mem = true) : OutWf (execAttestationRequest s) := by
  unfold execAttestationRequest
  split <;> simp [w]

@[simp] theorem takeMessage_mem (s : State) (reply : Bool) : (takeMessage s reply).mem = s.mem := rfl

@[simp] theorem wf_execBootStageRead (s : State) (w : Memory.wf s.mem = true) : OutWf (execBootStageRead s) := by
  unfold execBootStageRead
  split <;> simp [w]

@[simp] theorem wf_execBootImage (s : State) (w : Memory.wf s.mem = true) : OutWf (execBootImage s) := by
  unfold execBootImage
  repeat' split
  all_goals simp [w]

@[simp] theorem wf_execDeviceReset (s : State) (w : Memory.wf s.mem = true) : OutWf (execDeviceReset s) := by
  unfold execDeviceReset
  split <;> simp [w]

@[simp] theorem serveHost_mem (s : State) : (serveHost s).mem = s.mem := by
  unfold serveHost
  split <;> rfl

@[simp] theorem postMail_mem (s : State) (src : Nat) (dst : Nat) (msg : Nat) : (postMail s src dst msg).mem = s.mem := by
  unfold postMail
  simp only
  repeat' split
  all_goals simp

@[simp] theorem addContext_mem (s : State) (ctx : Nat) (root : Word64) : (addContext s ctx root).mem = s.mem := by
  unfold addContext
  split <;> rfl

@[simp] theorem wf_addQueue (s : State) (ctx : Nat) (block : Nat) (q : Nat) (w : Memory.wf s.mem = true) :
    Memory.wf (addQueue s ctx block q).mem = true := by
  unfold addQueue
  grind only [devPut_spec]

@[simp] theorem wf_firmwareTurn (s : State) (m : Mail) (w : Memory.wf s.mem = true) : Memory.wf (firmwareTurn s m).mem = true := by
  unfold firmwareTurn
  split <;> simp [w]

@[simp] theorem wf_execMbxMessage (s : State) (w : Memory.wf s.mem = true) : OutWf (execMbxMessage s) := by
  unfold execMbxMessage
  repeat' split
  all_goals simp [w]

@[simp] theorem wf_execMbxStatRead (s : State) (w : Memory.wf s.mem = true) : OutWf (execMbxStatRead s) := by
  simp [execMbxStatRead, w]

@[simp] theorem wf_execBootBufferWrite (off : Nat) (v : Word64) (s : State) (w : Memory.wf s.mem = true) : OutWf (execBootBufferWrite off v s) := by
  unfold execBootBufferWrite
  split <;> simp [w]

@[simp] theorem wf_execBar2Win (v : Word64) (s : State) (w : Memory.wf s.mem = true) : OutWf (execBar2Win v s) := by
  unfold execBar2Win
  split <;> simp [w]

@[simp] theorem wf_execBar2Resize (log2 : Nat) (s : State) (w : Memory.wf s.mem = true) : OutWf (execBar2Resize log2 s) := by
  unfold execBar2Resize
  split <;> simp [w]

@[simp] theorem wf_hostStore (s : State) (off : Nat) (width : Nat) (v : Nat) (w : Memory.wf s.mem = true) :
    Memory.wf (hostStore s off width v).mem = true := by
  unfold hostStore
  simp [w, wf_memPutAll]

@[simp] theorem wf_execBar2Access (x : HostSpan) (store : Option Nat) (s : State) (w : Memory.wf s.mem = true) :
    OutWf (execBar2Access x store s) := by
  unfold execBar2Access
  simp only
  repeat' split
  all_goals simp [w]

@[simp] theorem wf_execSvcDone (ctx : Nat) (idx : Nat) (s : State) (w : Memory.wf s.mem = true) : OutWf (execSvcDone ctx idx s) := by
  unfold execSvcDone
  repeat' split
  all_goals simp [w]

@[simp] theorem wf_execEgressWindowProgram (byHost : Bool) (idx : Nat) (base : Nat) (limit : Nat) (s : State) (w : Memory.wf s.mem = true) :
    OutWf (execEgressWindowProgram byHost idx base limit s) := by
  unfold execEgressWindowProgram
  repeat' split
  all_goals simp [w]

@[simp] theorem barWord_mem (s : State) (off : Nat) (v : Nat) : (barWord s off v).mem = s.mem := by
  unfold barWord
  grind only []

@[simp] theorem wf_barWrite (off : Nat) (width : Nat) (v : Word64) (s : State) (w : Memory.wf s.mem = true) : OutWf (barWrite off width v s) := by
  refine outWf_ite ?_ (outWf_ite ?_ (outWf_ite ?_ (outWf_ite ?_ ?_)))
  · refine outWf_ite ?_ (outWf_ite ?_ (outWf_ite ?_ (outWf_ite ?_ ?_)))
    · exact wf_execBar2Win _ _ w
    · exact w
    · exact w
    · exact wf_execBootBufferWrite _ _ _ w
    · exact w
  · exact w
  · refine outWf_ite ?_ ?_ <;> exact w
  · refine outWf_ite ?_ (outWf_ite ?_ (outWf_ite ?_ ?_))
    · generalize off - 0x100000 = i
      exact outWf_ite (wf_execBfpScrWrite _ _ _ w) w
    · exact outWf_ite (wf_execSvcDone _ _ _ w) w
    · exact outWf_ite (wf_execNotify _ _ _ w) w
    · rw [outWf_next, barWord_mem]; exact w
  · exact w

@[simp] theorem wf_execRegisterWrite (off : Nat) (width : Nat) (v : Option Word64) (s : State) (w : Memory.wf s.mem = true) :
    OutWf (execRegisterWrite off width v s) := by
  unfold execRegisterWrite
  simp only
  repeat' split
  all_goals simp [w]

/-! ### Convert -/

@[simp] theorem wf_execCvt (a : Args) (s : State) (w : Memory.wf s.mem = true) : OutWf (execCvt a s) := by
  simp [execCvt, w]

@[simp] theorem wf_execCvtf8 (a : Args) (s : State) (w : Memory.wf s.mem = true) : OutWf (execCvtf8 a s) := by
  simp [execCvtf8, w]

@[simp] theorem wf_execPxpack (a : Args) (s : State) (w : Memory.wf s.mem = true) : OutWf (execPxpack a s) := by
  simp [execPxpack, w]

@[simp] theorem wf_execPxunpack (a : Args) (s : State) (w : Memory.wf s.mem = true) : OutWf (execPxunpack a s) := by
  simp [execPxunpack, w]

@[simp] theorem wf_execAmax (a : Args) (s : State) (w : Memory.wf s.mem = true) : OutWf (execAmax a s) := by
  simp [execAmax, w]

@[simp] theorem wf_execFmtwMk (a : Args) (s : State) (w : Memory.wf s.mem = true) : OutWf (execFmtwMk a s) := by
  simp [execFmtwMk, w]

@[simp] theorem wf_execFmtwChk (a : Args) (s : State) (w : Memory.wf s.mem = true) : OutWf (execFmtwChk a s) := by
  simp [execFmtwChk, w]

@[simp] theorem wf_execFmtwWhy (a : Args) (s : State) (w : Memory.wf s.mem = true) : OutWf (execFmtwWhy a s) := by
  simp [execFmtwWhy, w]

/-! ### Filters -/

@[simp] theorem wf_filterInstr (a : Args) (hgrid : Bool) (op : Nat) (s : State) (w : Memory.wf s.mem = true) : OutWf (filterInstr a hgrid op s) := by
  unfold filterInstr
  grind only [wf_gangDo, wf_issueGate, countUp_mem, retire_mem, foldl_mem, OutWf]

@[simp] theorem wf_execHgrid (a : Args) (s : State) (w : Memory.wf s.mem = true) : OutWf (execHgrid a s) := by
  simp [execHgrid, w]

@[simp] theorem wf_execSmpLd (a : Args) (s : State) (w : Memory.wf s.mem = true) : OutWf (execSmpLd a s) := by
  simp [execSmpLd, w]

@[simp] theorem wf_execSmpPoint (a : Args) (s : State) (w : Memory.wf s.mem = true) : OutWf (execSmpPoint a s) := by
  simp [execSmpPoint, w]

@[simp] theorem wf_execSmpBilin (a : Args) (s : State) (w : Memory.wf s.mem = true) : OutWf (execSmpBilin a s) := by
  simp [execSmpBilin, w]

@[simp] theorem wf_execSmpTrilin (a : Args) (s : State) (w : Memory.wf s.mem = true) : OutWf (execSmpTrilin a s) := by
  simp [execSmpTrilin, w]

@[simp] theorem wf_execSmpAniso (a : Args) (s : State) (w : Memory.wf s.mem = true) : OutWf (execSmpAniso a s) := by
  simp [execSmpAniso, w]

theorem wf_sampleRead (s : State) (m : Mover) (late : Option TrapInfo) (va : Nat) (len : Nat) (w : Memory.wf s.mem = true) :
    PartWf (sampleRead s m late va len) := by
  unfold sampleRead
  grind only [wf_partFault, wf_touchQuiet, wf_partBind, wf_quernReach, cachedRead_mem, setPoison_mem, PartWf]

theorem wf_sampleAll (m : Mover) (late : Option TrapInfo) (len : Nat) (a : List Nat) (a1 : State) (w : Memory.wf a1.mem = true) :
    PartWf (sampleAll m late len a a1) := by
  induction a generalizing a1 with
  | nil => exact w
  | cons x xs ih => unfold sampleAll; grind +splitImp only [wf_partBind, wf_sampleRead, PartWf]

theorem wf_descRead (s : State) (m : Mover) (late : Option TrapInfo) (va : Nat) (len : Nat) (w : Memory.wf s.mem = true) :
    PartWf (descRead s m late va len) := by
  unfold descRead
  grind only [wf_partBind, wf_quernReach, cachedRead_mem, setPoison_mem, PartWf]

@[simp] theorem endFilter_mem (s : State) (r : FilterReq) : (endFilter s r).mem = s.mem := rfl
@[simp] theorem filterAs_mem (s : State) (r : FilterReq) (status : Nat) : (filterAs s r status).mem = s.mem := rfl

@[simp] theorem wf_filterFault (s : State) (m : Mover) (r : FilterReq) (info : TrapInfo) (side : Nat) (w : Memory.wf s.mem = true) :
    Memory.wf (filterFault s m r info side).mem = true := by
  simp [filterFault, w]

theorem wf_setReshade (s : State) (m : Mover) (r : FilterReq) (late : Option TrapInfo) (mark : Bool) (w : Memory.wf s.mem = true) :
    PartWf (setReshade s m r late mark) := by
  unfold setReshade
  grind only [wf_partBind, wf_quernReach, wf_homeWrite, PartWf]

@[simp] theorem writeQuad_mem (s : State) (r : FilterReq) (v : Nat) : (writeQuad s r v).mem = s.mem := rfl

theorem wf_filterStep (s : State) (m : Mover) (r : FilterReq) (late : Option TrapInfo) (w : Memory.wf s.mem = true) :
    PartWf (filterStep s m r late) := by
  unfold filterStep
  grind only [wf_partBind, wf_descRead, wf_partFault, wf_sampleAll, wf_setReshade, wf_homeWriteN, writeQuad_mem, PartWf]

@[simp] theorem wf_execFilterRequest (req : Nat) (s : State) (w : Memory.wf s.mem = true) : OutWf (execFilterRequest req s) := by
  unfold execFilterRequest
  grind only [takeFault_mem, wf_filterStep, filterAs_mem, endFilter_mem, wf_filterFault, keepPoison_mem, OutWf, PartWf]

/-! ### Health -/

@[simp] theorem dutyHalf_mem (s : State) (core : Nat) : (dutyHalf s core).mem = s.mem := rfl

@[simp] theorem wf_execCoreHot (r : Reading) (s : State) (w : Memory.wf s.mem = true) : OutWf (execCoreHot r s) := by
  unfold execCoreHot
  split <;> simp [w]

@[simp] theorem wf_execCoreDutyCycle (core : Nat) (s : State) (w : Memory.wf s.mem = true) : OutWf (execCoreDutyCycle core s) := by
  unfold execCoreDutyCycle
  split <;> simp [w]

@[simp] theorem wf_execDutyCycleDeepen (core : Nat) (s : State) (w : Memory.wf s.mem = true) : OutWf (execDutyCycleDeepen core s) := by
  unfold execDutyCycleDeepen
  split <;> simp [w]

@[simp] theorem updChannel_mem (s : State) (i : Nat) (f : Channel → Channel) : (updChannel s i f).mem = s.mem := rfl

@[simp] theorem narrowStack_mem (s : State) (stack : Nat) : (narrowStack s stack).mem = s.mem :=
  foldl_mem _ (fun s ch => updChannel_mem s (32 * stack + ch) _) _ _

@[simp] theorem wf_execHbmThermalNarrow (r : Reading) (s : State) (w : Memory.wf s.mem = true) : OutWf (execHbmThermalNarrow r s) := by
  unfold execHbmThermalNarrow
  repeat' split
  all_goals simp [w]

@[simp] theorem wf_execChannelNarrow (stack : Nat) (ch : Nat) (s : State) (w : Memory.wf s.mem = true) : OutWf (execChannelNarrow stack ch s) := by
  unfold execChannelNarrow
  split <;> simp [w]

@[simp] theorem wf_execThermalTrip (temp : Nat) (s : State) (w : Memory.wf s.mem = true) : OutWf (execThermalTrip temp s) := by
  unfold execThermalTrip
  split <;> simp [w]

@[simp] theorem wf_execFantailMigration (crew : Nat) (core : Nat) (s : State) (w : Memory.wf s.mem = true) :
    OutWf (execFantailMigration crew core s) := by
  unfold execFantailMigration
  repeat' split
  all_goals simp [w]

@[simp] theorem wf_execPowerShareReached (die : Nat) (s : State) (w : Memory.wf s.mem = true) : OutWf (execPowerShareReached die s) := by
  unfold execPowerShareReached
  repeat' split
  all_goals simp [w]

@[simp] theorem wf_execCurrentLimiter (die : Nat) (s : State) (w : Memory.wf s.mem = true) : OutWf (execCurrentLimiter die s) := by
  unfold execCurrentLimiter
  split <;> simp [w]

@[simp] theorem wf_execCorrectedError (part : Nat) (s : State) (w : Memory.wf s.mem = true) : OutWf (execCorrectedError part s) := by
  simp +contextual [execCorrectedError, w, wf_foldl]

@[simp] theorem wf_execUncorrectableError (key : Nat) (s : State) (w : Memory.wf s.mem = true) : OutWf (execUncorrectableError key s) := by
  unfold execUncorrectableError
  split <;> simp [w]

@[simp] theorem wf_execFlozorLaneFail (port : Nat) (lane : Nat) (s : State) (w : Memory.wf s.mem = true) :
    OutWf (execFlozorLaneFail port lane s) := by
  unfold execFlozorLaneFail
  repeat' split
  all_goals simp [w]

@[simp] theorem wf_execChannelRetireBegin (stack : Nat) (ch : Nat) (s : State) (w : Memory.wf s.mem = true) :
    OutWf (execChannelRetireBegin stack ch s) := by
  unfold execChannelRetireBegin
  simp only
  repeat' split
  all_goals simp [w]

@[simp] theorem wf_execChannelFenceDrained (stack : Nat) (ch : Nat) (s : State) (w : Memory.wf s.mem = true) :
    OutWf (execChannelFenceDrained stack ch s) := by
  unfold execChannelFenceDrained
  simp only
  repeat' split
  all_goals simp [w]

@[simp] theorem wf_execAtomCopy (stack : Nat) (ch : Nat) (atom : Nat) (uncorrectable : Bool) (s : State) (w : Memory.wf s.mem = true) :
    OutWf (execAtomCopy stack ch atom uncorrectable s) := by
  unfold execAtomCopy
  grind only [updChannel_mem, OutWf]

@[simp] theorem dropCore_mem (s : State) (core : Nat) : (dropCore s core).mem = s.mem := rfl

@[simp] theorem takeAll_mem (s : State) (core : Nat) (dest : Crew → Nat) : (takeAll s core dest).mem = s.mem :=
  foldl_mem _ (fun s (c : Crew) => beginTaking_mem s c.uid _) _ _

@[simp] theorem wf_spareTakes (s : State) (core : Nat) (w : Memory.wf s.mem = true) : Memory.wf (spareTakes s core).mem = true := by
  unfold spareTakes
  grind only [updCore_mem, dropCore_mem, wf_bringBack, blowFuse_mem, wf_foldl]

@[simp] theorem wf_execSpareCoreReplace (core : Nat) (s : State) (w : Memory.wf s.mem = true) : OutWf (execSpareCoreReplace core s) := by
  unfold execSpareCoreReplace
  simp only
  repeat' split
  all_goals simp [w]

@[simp] theorem wf_execDramRowRemap (stack : Nat) (bank : Nat) (row : Nat) (s : State) (w : Memory.wf s.mem = true) :
    OutWf (execDramRowRemap stack bank row s) := by
  unfold execDramRowRemap
  simp only
  repeat' split
  all_goals simp [w]

@[simp] theorem wf_execRayPipeSpare (stack : Nat) (pipe : Nat) (s : State) (w : Memory.wf s.mem = true) : OutWf (execRayPipeSpare stack pipe s) := by
  unfold execRayPipeSpare
  repeat' split
  all_goals simp [w]

@[simp] theorem wf_execBinfloorWaySpare (core : Nat) (way : Nat) (s : State) (w : Memory.wf s.mem = true) :
    OutWf (execBinfloorWaySpare core way s) := by
  unfold execBinfloorWaySpare
  repeat' split
  all_goals simp [w]

@[simp] theorem freeWords_mem (s : State) (n : Nat) : (freeWords s n).2.mem = s.mem := rfl

@[simp] theorem wf_loseFilter (s : State) (r : FilterReq) (w : Memory.wf s.mem = true) : Memory.wf (loseFilter s r).mem = true := by
  unfold loseFilter
  simp only
  repeat' split
  all_goals simp [w, wf_homeWriteN]

@[simp] theorem wf_execFlozorMessageDrop (m : LostMessage) (s : State) (w : Memory.wf s.mem = true) : OutWf (execFlozorMessageDrop m s) := by
  unfold execFlozorMessageDrop
  repeat' split
  all_goals simp [w]

@[simp] theorem wf_peerPush (s : State) (ctx k : Nat) (weir waits : Bool) (entry : Nat) (w : Memory.wf s.mem = true) :
    Memory.wf (peerPush s ctx k weir waits entry).mem = true := by
  unfold peerPush
  simp only
  generalize ringBad _ _ = bad
  split
  · simp [w]
  split
  · simp [w]
  split
  · split <;> simp [w]
  split
  · exact w
  split
  · simp [w]
  · next h =>
    have w1 := (devWrite_spec h).1 w
    simp only [report_mem]
    split <;> simp [w1, wf_homeWriteN]

@[simp] theorem wf_peerPop (s : State) (ctx k : Nat) (weir waits : Bool) (w : Memory.wf s.mem = true) :
    Memory.wf (peerPop s ctx k weir waits).mem = true := by
  unfold peerPop
  simp only
  generalize ringBad _ _ = bad
  split
  · simp [w]
  split
  · split <;> simp [w]
  split
  · exact w
  split
  · simp [w]
  · rw [report_mem]
    split
    · exact w
    · exact wf_homeWriteN _ _ _ _ w

@[simp] theorem wf_execFlozorPeerRequest (r : PeerRequest) (s : State) (w : Memory.wf s.mem = true) : OutWf (execFlozorPeerRequest r s) := by
  unfold execFlozorPeerRequest
  simp only
  repeat' split
  all_goals simp [w, wf_homeWrite, wf_homeWriteN]

/-! ### Integer -/

@[simp] theorem wf_execIadd (a : Args) (s : State) (w : Memory.wf s.mem = true) : OutWf (execIadd a s) := by
  simp [execIadd, w]

@[simp] theorem wf_execIsub (a : Args) (s : State) (w : Memory.wf s.mem = true) : OutWf (execIsub a s) := by
  simp [execIsub, w]

@[simp] theorem wf_execImul (a : Args) (s : State) (w : Memory.wf s.mem = true) : OutWf (execImul a s) := by
  simp [execImul, w]

@[simp] theorem wf_execImad (a : Args) (s : State) (w : Memory.wf s.mem = true) : OutWf (execImad a s) := by
  simp [execImad, w]

@[simp] theorem wf_execIminmax (a : Args) (s : State) (w : Memory.wf s.mem = true) : OutWf (execIminmax a s) := by
  simp [execIminmax, w]

@[simp] theorem wf_execIabsneg (a : Args) (s : State) (w : Memory.wf s.mem = true) : OutWf (execIabsneg a s) := by
  simp [execIabsneg, w]

@[simp] theorem wf_execLogic (a : Args) (s : State) (w : Memory.wf s.mem = true) : OutWf (execLogic a s) := by
  simp [execLogic, w]

@[simp] theorem wf_execShift (a : Args) (s : State) (w : Memory.wf s.mem = true) : OutWf (execShift a s) := by
  simp [execShift, w]

@[simp] theorem wf_execBfx (a : Args) (s : State) (w : Memory.wf s.mem = true) : OutWf (execBfx a s) := by
  simp [execBfx, w]

@[simp] theorem wf_execBfi (a : Args) (s : State) (w : Memory.wf s.mem = true) : OutWf (execBfi a s) := by
  simp [execBfi, w]

@[simp] theorem wf_execBitc (a : Args) (s : State) (w : Memory.wf s.mem = true) : OutWf (execBitc a s) := by
  simp [execBitc, w]

@[simp] theorem wf_execIcmp (a : Args) (s : State) (w : Memory.wf s.mem = true) : OutWf (execIcmp a s) := by
  simp [execIcmp, w]

@[simp] theorem wf_execSel (a : Args) (s : State) (w : Memory.wf s.mem = true) : OutWf (execSel a s) := by
  simp [execSel, w]

@[simp] theorem wf_execPlog (a : Args) (s : State) (w : Memory.wf s.mem = true) : OutWf (execPlog a s) := by
  simp [execPlog, w]

@[simp] theorem wf_execMov (a : Args) (s : State) (w : Memory.wf s.mem = true) : OutWf (execMov a s) := by
  simp [execMov, w]

@[simp] theorem wf_execMovi (a : Args) (s : State) (w : Memory.wf s.mem = true) : OutWf (execMovi a s) := by
  simp [execMovi, w]

@[simp] theorem wf_execLea (a : Args) (s : State) (w : Memory.wf s.mem = true) : OutWf (execLea a s) := by
  simp [execLea, w]

@[simp] theorem wf_execPerm (a : Args) (s : State) (w : Memory.wf s.mem = true) : OutWf (execPerm a s) := by
  simp [execPerm, w]

@[simp] theorem wf_execIdiv (a : Args) (s : State) (w : Memory.wf s.mem = true) : OutWf (execIdiv a s) := by
  simp [execIdiv, w]

/-! ### Paired -/

@[simp] theorem wf_execPairedWord (p : Bool) (h0 : Half) (h1 : Half) (s : State) (w : Memory.wf s.mem = true) : OutWf (execPairedWord p h0 h1 s) := by
  simp [execPairedWord, w]

/-! ### Vis -/

@[simp] theorem wf_execVis (a : Args) (s : State) (w : Memory.wf s.mem = true) : OutWf (execVis a s) := by
  unfold execVis
  grind only [wf_gangDo, wf_issueGate, countUp_mem, retire_mem, foldl_mem, OutWf]

theorem wf_visRead (s : State) (m : Mover) (r : VisReq) (late : Option TrapInfo) (side : Nat) (va : Nat) (len : Nat) (w : Memory.wf s.mem = true) :
    PartWf (visRead s m r late side va len) := by
  unfold visRead
  grind only [wf_partBind, wf_quernReach, cachedRead_mem, setPoison_mem, PartWf]

theorem wf_visBlock (s : State) (m : Mover) (r : VisReq) (late : Option TrapInfo) (p : VisPass) (b : Nat) (w : Memory.wf s.mem = true) :
    PartWf (visBlock s m r late p b) := by
  unfold visBlock
  grind only [wf_partBind, wf_visRead, wf_partFault, PartWf]

theorem wf_visOpaque (s : State) (m : Mover) (r : VisReq) (late : Option TrapInfo) (va : Nat) (omm : Nat) (u : FV) (v : FV) (w : Memory.wf s.mem = true) :
    PartWf (visOpaque s m r late va omm u v) := by
  unfold visOpaque
  grind only [wf_partFault, wf_partBind, wf_visRead, PartWf]

theorem wf_visTri (s : State) (m : Mover) (r : VisReq) (late : Option TrapInfo) (p : VisPass) (b : Nat) (v : Nat) (k : Nat) (x : Nat) (y : Nat) (w : Memory.wf s.mem = true) :
    PartWf (visTri s m r late p b v k x y) := by
  unfold visTri
  grind only [wf_partBind, wf_visOpaque, PartWf]

theorem wf_visKeys (m : Mover) (r : VisReq) (late : Option TrapInfo) (p : VisPass) (a : List (Nat × Nat × Nat × Nat × Nat)) (a1 : State) (w : Memory.wf a1.mem = true) :
    PartWf (visKeys m r late p a a1) := by
  induction a generalizing a1 with
  | nil => exact w
  | cons x xs ih => unfold visKeys; grind +splitImp only [wf_partBind, wf_visTri, PartWf]

theorem wf_visBlocks (m : Mover) (r : VisReq) (late : Option TrapInfo) (p : VisPass) (a : List Nat) (a1 : State) (w : Memory.wf a1.mem = true) :
    PartWf (visBlocks m r late p a a1) := by
  induction a generalizing a1 with
  | nil => exact w
  | cons x xs ih => unfold visBlocks; grind +splitImp only [wf_partBind, wf_visBlock, PartWf]

@[simp] theorem wf_minkeyAt (s : State) (runs : List (Nat × Nat)) (key : VisKey) (w : Memory.wf s.mem = true) :
    Memory.wf (minkeyAt s runs key).mem = true := by
  unfold minkeyAt
  simp only
  repeat' split
  all_goals simp [w, wf_homeWrite]

theorem wf_visApply (m : Mover) (late : Option TrapInfo) (p : VisPass) (a : List (Nat × Nat × VisKey)) (a1 : State) (w : Memory.wf a1.mem = true) :
    PartWf (visApply m late p a a1) := by
  induction a generalizing a1 with
  | nil => exact w
  | cons x xs ih => unfold visApply; grind +splitImp only [wf_partBind, wf_quernReach, setPoison_mem, wf_minkeyAt, PartWf]

theorem wf_visTile (s : State) (m : Mover) (r : VisReq) (late : Option TrapInfo) (p : VisPass) (t : Nat) (w : Memory.wf s.mem = true) :
    PartWf (visTile s m r late p t) := by
  unfold visTile
  grind only [wf_partBind, wf_visBlocks, wf_visKeys, wf_visApply]

@[simp] theorem endVis_mem (s : State) (r : VisReq) : (endVis s r).mem = s.mem := rfl
@[simp] theorem updVis_mem (s : State) (r : VisReq) : (updVis s r).mem = s.mem := rfl

@[simp] theorem wf_visFault (s : State) (m : Mover) (r : VisReq) (info : TrapInfo) (side : Nat) (w : Memory.wf s.mem = true) :
    Memory.wf (visFault s m r info side).mem = true := by
  simp [visFault, w]

@[simp] theorem wf_finishVis (s : State) (m : Mover) (r : VisReq) (p : VisPass) (w : Memory.wf s.mem = true) :
    Memory.wf (finishVis s m r p).mem = true := by
  unfold finishVis
  grind only [endVis_mem, wf_engineArrive, wf_visFault]

@[simp] theorem wf_visDo (req : Nat) (s : State) (go : State → Mover → VisReq → Option TrapInfo → Part State) (w : Memory.wf s.mem = true) (hgo : ∀ t x y z, Memory.wf t.mem = true → StepWf (go t x y z)) :
    OutWf (visDo req s go) := by
  unfold visDo
  rcases hf : takeFault s req with _ | ⟨f, s1⟩ <;> grind only [takeFault_mem, wf_visFault, keepPoison_mem, OutWf, PartWf, StepWf]

@[simp] theorem binTiles_mem (s : State) (p : VisPass) (v : Nat) (k : Nat) : (binTiles s p v k).1.mem = s.mem := by
  unfold binTiles
  split <;> rfl

@[simp] theorem wf_visTiles (s : State) (m : Mover) (r : VisReq) (p : VisPass) (t : Nat) (w : Memory.wf s.mem = true) :
    Memory.wf (visTiles s m r p t).mem = true := by
  unfold visTiles
  repeat' split
  all_goals simp [w]

@[simp] theorem wf_execVisBinning (req : Nat) (s : State) (w : Memory.wf s.mem = true) : OutWf (execVisBinning req s) := by
  refine wf_visDo _ _ _ w fun s m r late w => ?_
  split
  · refine wf_stepBind _ _ (wf_visRead _ _ _ _ _ _ _ w) fun s x w => ?_
    split
    · trivial
    · simp [StepWf, w]
  · simp only
    split
    · exact w
    · refine wf_stepBind _ _ (wf_visBlock _ _ _ _ _ _ w) fun s x w => ?_
      split
      · simp [StepWf, w]
      · simp only [StepWf]
        split <;> simp [w]

@[simp] theorem wf_execVisTileTest (req : Nat) (s : State) (w : Memory.wf s.mem = true) : OutWf (execVisTileTest req s) := by
  unfold execVisTileTest
  grind only [wf_visDo, wf_visTile, wf_visTiles, wf_stepBind, StepWf]

/-! ### Replay -/

@[simp] theorem wf_execReplay (a : Args) (s : State) (w : Memory.wf s.mem = true) : OutWf (execReplay a s) := by
  unfold execReplay
  grind only [wf_gangDo, wf_issueGate, countUp_mem, retire_mem, foldl_mem, OutWf]

theorem wf_replayRead (s : State) (m : Mover) (late : Option TrapInfo) (va : Nat) (len : Nat) (w : Memory.wf s.mem = true) :
    PartWf (replayRead s m late va len) := by
  unfold replayRead
  grind only [wf_partBind, wf_quernReach, cachedRead_mem, setPoison_mem, PartWf]

theorem wf_replayXform (s : State) (m : Mover) (late : Option TrapInfo) (f64 : Bool) (va : Nat) (w : Memory.wf s.mem = true) :
    PartWf (replayXform s m late f64 va) := by
  unfold replayXform
  grind only [wf_partBind, wf_replayRead, wf_partFault, PartWf]

theorem wf_replayShape (s : State) (m : Mover) (late : Option TrapInfo) (f64 : Bool) (asphere : Bool) (va : Nat) (w : Memory.wf s.mem = true) :
    PartWf (replayShape s m late f64 asphere va) := by
  unfold replayShape
  grind only [wf_partBind, wf_replayRead, PartWf]

theorem wf_replayWrite (s : State) (m : Mover) (late : Option TrapInfo) (va : Nat) (len : Nat) (v : Nat) (w : Memory.wf s.mem = true) :
    PartWf (replayWrite s m late va len v) := by
  unfold replayWrite
  grind only [wf_partBind, wf_quernReach, wf_engineWrite, PartWf]

@[simp] theorem noSolveRecord_mem (s : State) (mask : Nat) : (noSolveRecord s mask).1.mem = s.mem := rfl

theorem wf_replayStep (s : State) (m : Mover) (r : ReplayReq) (late : Option TrapInfo) (w : Memory.wf s.mem = true) :
    PartWf (replayStep s m r late) := by
  unfold replayStep
  grind only [wf_partBind, wf_replayRead, wf_partFault, noSolveRecord_mem, wf_replayWrite, wf_replayXform, wf_replayShape]

@[simp] theorem endReplay_mem (s : State) (r : ReplayReq) : (endReplay s r).mem = s.mem := rfl

@[simp] theorem wf_execReplayResult (req : Nat) (s : State) (w : Memory.wf s.mem = true) : OutWf (execReplayResult req s) := by
  unfold execReplayResult
  grind only [takeFault_mem, wf_replayStep, endReplay_mem, wf_chargeFault, keepPoison_mem, OutWf, PartWf]

/-! ### Sequencer -/

theorem wf_reachRec (s : State) (m : Mover) (u : Use) (r : Rec) (a : List (Nat × Nat)) (w : Memory.wf s.mem = true) :
    ReachWf (reachRec s m u r a) := by
  induction a generalizing s with
  | nil => exact w
  | cons x xs ih => unfold reachRec; grind +splitImp only [wf_reachParts, ReachWf]

theorem wf_openRec (s : State) (m : Mover) (store : Bool) (late : Option TrapInfo) (r : Rec) (xs : List (Nat × Nat)) (w : Memory.wf s.mem = true) :
    PartWf (openRec s m store late r xs) := by
  unfold openRec
  grind only [wf_partFault, wf_partBind, wf_settle, wf_reachRec, wf_raceSide, PartWf]

theorem wf_readWin (s : State) (m : Mover) (late : Option TrapInfo) (r : Rec) (w1 : Win) (w : Memory.wf s.mem = true) :
    PartWf (readWin s m late r w1) := by
  unfold readWin
  grind only [wf_partBind, wf_openRec, PartWf]

theorem takePlace_mem {s t : State} {r : TileReq} (h : takePlace s r = some t) : t.mem = s.mem := by
  unfold takePlace at h
  simp only at h
  split at h
  · cases h
  obtain ⟨s1, h1, rfl⟩ := Option.map_eq_some_iff.1 h
  rw [updReq_mem]
  split at h1
  · cases h1; rfl
  split at h1
  · cases h1
  split at h1
  · cases h1; rfl
  · cases h1

@[simp] theorem beginStep_mem (s : State) (id : Nat) : (beginStep s id).1.mem = s.mem := by
  unfold beginStep
  split
  · rfl
  next r _ =>
  simp only
  split
  · rfl
  split
  · rfl
  next s1 hs1 =>
  have h1 : s1.mem = s.mem := by
    split at hs1
    · cases hs1; rfl
    · exact takePlace_mem hs1
  split
  · exact h1
  · split
    · exact h1
    · rfl

@[simp] theorem setAside_mem (s : State) (id : Nat) : (setAside s id).mem = s.mem := by
  unfold setAside
  split <;> rfl

@[simp] theorem stepFault_mem (s : State) (id : Nat) (slot : Nat) (kind : Nat) (info : TrapInfo) : (stepFault s id slot kind info).mem = s.mem := rfl

@[simp] theorem wf_stepPoison (s : State) (m : Mover) (slot : Nat) (kind : Nat) (bad : Option Nat) (k : State → State) (w : Memory.wf s.mem = true) (hk : ∀ t, Memory.wf t.mem = true → Memory.wf (k t).mem = true) :
    Memory.wf (stepPoison s m slot kind bad k).mem = true := by
  unfold stepPoison
  grind only [updReq_mem, enginePoison_mem, stepFault_mem]

@[simp] theorem wf_tileEvent (s : State) (req : Nat) (kind : Nat) (pick : TileStep → Option Nat) (run : State → TileReq → Mover → Node → Option TrapInfo → Part State)
    (w : Memory.wf s.mem = true) (hrun : ∀ s r m n late, Memory.wf s.mem = true → StepWf (run s r m n late)) : OutWf (tileEvent s req kind pick run) := by
  have hb := beginStep_mem s req
  unfold tileEvent
  split
  · exact w
  split
  · exact w
  split
  · next h =>
    rw [h] at hb
    exact (congrArg Memory.wf hb).trans w
  · next s1 r m h =>
    rw [h] at hb
    have w1 : Memory.wf s1.mem = true := by rw [hb]; exact w
    split
    · exact w1
    · next n _ =>
      rcases hf : takeFault s1 req with _ | ⟨f, s2⟩
      · have hr := hrun s1 r m n none w1
        simp only
        split
        · next h => rw [h] at hr; exact hr
        · next h => rw [h] at hr; simpa using hr
        · simp [w1]
      · have w2 : Memory.wf s2.mem = true := by rw [takeFault_mem hf]; exact w1
        have hr := hrun s2 r m n (some f) w2
        simp only
        split
        · next h => rw [h] at hr; exact hr
        · next h => rw [h] at hr; simpa using hr
        · simp [w2]

@[simp] theorem wf_execStagingLoadChunk (req : Nat) (s : State) (w : Memory.wf s.mem = true) : OutWf (execStagingLoadChunk req s) := by
  unfold execStagingLoadChunk
  grind only [wf_tileEvent, wf_openRec, wf_markedWrite, wf_stepPoison, updReq_mem, updNode_mem, wf_stepBind, StepWf]

@[simp] theorem wf_execTdefWaitObserve (req : Nat) (s : State) (w : Memory.wf s.mem = true) : OutWf (execTdefWaitObserve req s) := by
  unfold execTdefWaitObserve
  split
  · exact w
  simp only
  split
  · split
    · split
      · simp [w]
      split
      · simp [w]
      split
      · simp only [outWf_next]
        split <;> simp [w]
      · simp [w]
    · exact w
  · exact w

@[simp] theorem wf_execRequestResume (req : Nat) (s : State) (w : Memory.wf s.mem = true) : OutWf (execRequestResume req s) := by
  unfold execRequestResume
  repeat' split
  all_goals simp [w]

@[simp] theorem wf_execKStep (req : Nat) (s : State) (w : Memory.wf s.mem = true) : OutWf (execKStep req s) := by
  unfold execKStep
  grind only [wf_tileEvent, wf_readWin, wf_stepPoison, updCrew_mem, updReq_mem, wf_stepBind, StepWf]

theorem wf_readScales (s : State) (m : Mover) (late : Option TrapInfo) (r : Rec) (offs : List Nat) (w : Memory.wf s.mem = true) :
    PartWf (readScales s m late r offs) := by
  unfold readScales
  grind only [wf_partBind, wf_openRec, PartWf]

@[simp] theorem wf_execPromotion (req : Nat) (s : State) (w : Memory.wf s.mem = true) : OutWf (execPromotion req s) := by
  unfold execPromotion
  grind only [wf_tileEvent, wf_readScales, wf_stepPoison, updReq_mem, updCrew_mem, sweepDropped_mem, updNode_mem, wf_stepBind, PartWf, StepWf]

theorem wf_nodeVals (s : State) (m : Mover) (late : Option TrapInfo) (r : TileReq) (n : Node) (w1 : Win) (w : Memory.wf s.mem = true) :
    PartWf (nodeVals s m late r n w1) := by
  unfold nodeVals
  grind only [wf_partBind, wf_readWin, PartWf]

theorem wf_gatherOps (m : Mover) (late : Option TrapInfo) (r : TileReq) (core : Nat) (a : List (Nat × Win)) (a1 : State) (w : Memory.wf a1.mem = true) :
    PartWf (gatherOps m late r core a a1) := by
  induction a generalizing a1 with
  | nil => exact w
  | cons x xs ih => unfold gatherOps; grind +splitImp only [wf_partBind, wf_nodeVals, PartWf]

@[simp] theorem wf_execElementwisePass (req : Nat) (s : State) (w : Memory.wf s.mem = true) : OutWf (execElementwisePass req s) := by
  unfold execElementwisePass
  grind only [wf_tileEvent, wf_stepPoison, updReq_mem, wf_nodeVals, wf_gatherOps, wf_stepBind, StepWf]

theorem wf_storeRegion (s : State) (r : TileReq) (m : Mover) (n : Node) (d : Rec) (late : Option TrapInfo) (w : Memory.wf s.mem = true) :
    StepWf (storeRegion s r m n d late) := by
  unfold storeRegion
  split
  · exact w
  simp only
  split
  · trivial
  · exact wf_stepBind _ _ (wf_openRec _ _ _ _ _ _ w) fun s x w => by simp [StepWf, w]

@[simp] theorem wf_execStoreChunk (req : Nat) (s : State) (w : Memory.wf s.mem = true) : OutWf (execStoreChunk req s) := by
  unfold execStoreChunk
  grind only [wf_tileEvent, wf_storeRegion, updCrew_mem, updNode_mem, updReq_mem, StepWf]

@[simp] theorem removeReq_mem (s : State) (r : TileReq) : (removeReq s r).mem = s.mem := rfl

@[simp] theorem settleTarget_mem (s : State) (r : TileReq) (n : Node) : (settleTarget s r n).mem = s.mem := by
  unfold settleTarget
  simp only
  repeat' split
  all_goals simp

@[simp] theorem wf_wakeRequest (s : State) (r : TileReq) (w : Memory.wf s.mem = true) : Memory.wf (wakeRequest s r).mem = true := by
  unfold wakeRequest
  split <;> simp [w]

@[simp] theorem wf_execTileRequestComplete (req : Nat) (s : State) (w : Memory.wf s.mem = true) : OutWf (execTileRequestComplete req s) := by
  unfold execTileRequestComplete
  simp only
  repeat' split
  all_goals simp [w]

@[simp] theorem wf_execTileStepFault (req : Nat) (s : State) (w : Memory.wf s.mem = true) : OutWf (execTileStepFault req s) := by
  unfold execTileStepFault
  repeat' split
  all_goals simp [w]

@[simp] theorem wf_execThunkSlotFreed (core : Nat) (s : State) (w : Memory.wf s.mem = true) : OutWf (execThunkSlotFreed core s) := by
  simp [execThunkSlotFreed, w]

/-! ### Stall -/

@[simp] theorem raiseStall_mem (s : State) (c : Crew) (tids : List Nat) (kind : Nat) (addr : Nat) (more : List PutField) :
    (raiseStall s c tids kind addr more).mem = s.mem := by
  unfold raiseStall
  split <;> rfl

@[simp] theorem stallAt_mem (s : State) (crew : Nat) (tid : Nat) (since : Hold → Option Nat) (reset : Nat → Hold → Hold) (info : Thread → Nat × Nat × List PutField) :
    (stallAt s crew tid since reset info).mem = s.mem := by
  unfold stallAt
  simp only
  repeat' split
  all_goals simp

@[simp] theorem wf_execArwWaitStall (crew : Nat) (tid : Nat) (s : State) (w : Memory.wf s.mem = true) : OutWf (execArwWaitStall crew tid s) := by
  simp [execArwWaitStall, w]

@[simp] theorem wf_execWaitStall (crew : Nat) (tid : Nat) (s : State) (w : Memory.wf s.mem = true) : OutWf (execWaitStall crew tid s) := by
  simp [execWaitStall, w]

@[simp] theorem wf_execRingStall (crew : Nat) (tid : Nat) (s : State) (w : Memory.wf s.mem = true) : OutWf (execRingStall crew tid s) := by
  simp [execRingStall, w]

@[simp] theorem wf_execHitldStall (crew : Nat) (tid : Nat) (s : State) (w : Memory.wf s.mem = true) : OutWf (execHitldStall crew tid s) := by
  simp [execHitldStall, w]

@[simp] theorem wf_execTacqStall (crew : Nat) (tid : Nat) (s : State) (w : Memory.wf s.mem = true) : OutWf (execTacqStall crew tid s) := by
  simp [execTacqStall, w]

@[simp] theorem wf_execThunkAppendStall (crew : Nat) (tid : Nat) (s : State) (w : Memory.wf s.mem = true) :
    OutWf (execThunkAppendStall crew tid s) := by
  simp [execThunkAppendStall, w]

@[simp] theorem wf_execBarrierStall (crew : Nat) (bar : Nat) (s : State) (w : Memory.wf s.mem = true) : OutWf (execBarrierStall crew bar s) := by
  unfold execBarrierStall
  simp only
  repeat' split
  all_goals simp [w]

@[simp] theorem wf_execRegangStall (crew : Nat) (hgang : Nat) (s : State) (w : Memory.wf s.mem = true) : OutWf (execRegangStall crew hgang s) := by
  unfold execRegangStall
  grind only [raiseStall_mem, updCrew_mem, OutWf]

@[simp] theorem wf_execMeetTimeout (crew : Nat) (tid : Nat) (s : State) (w : Memory.wf s.mem = true) : OutWf (execMeetTimeout crew tid s) := by
  unfold execMeetTimeout
  simp only
  repeat' split
  all_goals simp [w]

@[simp] theorem wf_execAgeLimitReached (crew : Nat) (tid : Nat) (s : State) (w : Memory.wf s.mem = true) :
    OutWf (execAgeLimitReached crew tid s) := by
  unfold execAgeLimitReached
  repeat' split
  all_goals simp [w]

/-! ### Schedule -/

/-- Every event of the list keeps the canonical form of memory. -/
def KeepWf (fs : List Event) : Prop := ∀ f ∈ fs, ∀ s, Memory.wf s.mem = true → OutWf (f s)

@[simp] theorem keepWf_nil : KeepWf [] := by simp [KeepWf]

@[simp] theorem keepWf_cons (f : Event) (fs : List Event) : KeepWf (f :: fs) ↔ (∀ s, Memory.wf s.mem = true → OutWf (f s)) ∧ KeepWf fs :=
  List.forall_mem_cons

@[simp] theorem keepWf_append (fs gs : List Event) : KeepWf (fs ++ gs) ↔ KeepWf fs ∧ KeepWf gs := List.forall_mem_append

@[simp] theorem keepWf_ite (p : Prop) [Decidable p] (fs gs : List Event) : KeepWf (if p then fs else gs) ↔ (p → KeepWf fs) ∧ (¬ p → KeepWf gs) := by
  split <;> simp [*]

theorem keepWf_map {α : Type} (xs : List α) (f : α → Event) (h : ∀ x s, Memory.wf s.mem = true → OutWf (f x s)) : KeepWf (xs.map f) := by
  intro g hg
  obtain ⟨x, -, rfl⟩ := List.mem_map.1 hg
  exact h x

theorem keepWf_flatMap {α : Type} (xs : List α) (f : α → List Event) (h : ∀ x, KeepWf (f x)) : KeepWf (xs.flatMap f) := by
  intro g hg
  obtain ⟨x, -, hx⟩ := List.mem_flatMap.1 hg
  exact h x g hx

theorem keepWf_memoryEvents (s : State) : KeepWf (memoryEvents s) := by
  simp +contextual [memoryEvents, keepWf_map, keepWf_flatMap]

theorem keepWf_engineEvents (s : State) : KeepWf (engineEvents s) := by
  simp +contextual [engineEvents, keepWf_map, keepWf_flatMap]

theorem keepWf_rayEvents (s : State) : KeepWf (rayEvents s) := by
  simp +contextual [rayEvents, keepWf_map, keepWf_flatMap]

theorem keepWf_threadEvents (c : Crew) (t : Thread) : KeepWf (threadEvents c t) := by
  unfold threadEvents
  cases t.hold <;> simp +contextual

theorem keepWf_crewEvents (s : State) : KeepWf (crewEvents s) := by
  refine keepWf_flatMap _ _ fun c => ?_
  cases c.taking <;> simp +contextual [keepWf_map, keepWf_flatMap, keepWf_threadEvents]

theorem keepWf_runEvents (s : State) : KeepWf (runEvents s) := by
  have hc (k : Collector) : KeepWf ((List.range 6).map fun i => execEngineStopPoint k.ctx k.die (i + 1)) :=
    keepWf_map _ _ fun i => wf_execEngineStopPoint k.ctx k.die (i + 1)
  simp +contextual [runEvents, keepWf_map, keepWf_flatMap, hc]

theorem keepWf_deviceEvents (s : State) : KeepWf (deviceEvents s) := by
  simp +contextual [deviceEvents, keepWf_map]

theorem keepWf_candidates (s : State) : KeepWf (candidates s) := by
  have h : KeepWf (memoryEvents s ++ engineEvents s ++ rayEvents s ++ crewEvents s ++ runEvents s ++ deviceEvents s) := by
    simp only [keepWf_append, keepWf_memoryEvents, keepWf_engineEvents, keepWf_rayEvents, keepWf_crewEvents, keepWf_runEvents, keepWf_deviceEvents, and_self]
  intro f hf
  rcases List.mem_append.1 hf with hf | hf
  · exact h f (List.mem_of_mem_drop hf)
  · exact h f (List.mem_of_mem_take hf)

theorem wf_eventMove {s : State} {o : Out} (w : Memory.wf s.mem = true) (h : eventMove s = some o) : OutWf o := by
  obtain ⟨f, hf, h⟩ := List.exists_of_findSome?_eq_some h
  have hk := keepWf_candidates s f hf s w
  split at h
  · next hs =>
    rw [hs] at hk
    split at h
    · cases h
    · cases h; exact hk
  · cases h

@[simp] theorem wf_stepFree (ex : Instr → State → Out) (s : State) (hex : ∀ i s, Memory.wf s.mem = true → OutWf (ex i s)) (w : Memory.wf s.mem = true) :
    OutWf (stepFree ex s) := by
  have w1 : Memory.wf (pass 1 { s with issue := none }).mem = true := by
    rw [pass_mem]
    exact w
  have ho : OutWf ((eventMove (pass 1 { s with issue := none })).getD (.next (pass 1 { s with issue := none }))) := by
    cases h : eventMove (pass 1 { s with issue := none }) with
    | none => exact w1
    | some o => exact wf_eventMove w1 h
  unfold stepFree
  simp only
  split
  · next h =>
    split at h
    · cases h
    · exact wf_eventMove w1 h
  · split
    · next k _ =>
      have hm := wf_issueOn _ k w1
      split
      · next h => rw [h] at hm; exact hex _ _ hm
      · next h => rw [h] at hm; exact hm
      · exact w1
    · exact ho

@[simp] theorem wf_stepWith (ex : Instr → State → Out) (s : State) (hex : ∀ x t, Memory.wf t.mem = true → OutWf (ex x t)) (w : Memory.wf s.mem = true) :
    OutWf (stepWith ex s) := by
  unfold stepWith
  grind only [wf_nextMove, wf_stepFree, MoveWf, OutWf]

/-! ### Dispatch -/

theorem wf_exec (i : Instr) (s : State) (w : Memory.wf s.mem = true) : OutWf (exec i s) := by
  cases i <;> simp [exec, w]

/-! ### Every step -/

theorem wf_of_eq_next {o : Out} {t : State} (h : OutWf o) (ho : o = .next t) : Memory.wf t.mem = true := by
  rw [ho] at h
  exact h

/-- Settles O8: a step is the end of one instruction or event, and each keeps the canonical form (`wf_exec`, `wf_stepFree`). -/
theorem stepKeepsMemoryCanonical : Obligations.StepKeepsMemoryCanonical := by
  unfold Obligations.StepKeepsMemoryCanonical
  intro s t w h
  exact wf_of_eq_next (wf_stepWith exec s wf_exec w) h

end Sys2Proof.Machine
end

section
/-! PROOFS. Heat, errors and spares: a crew whose image must wait is not restored at once. -/

namespace Sys2Proof.Machine

/-! ### An image that waits for a slice (R168) -/

/-- The line with the entry of a context's root table that maps an address. -/
def rootLine (s : State) (x : Context) (va : Nat) : Nat :=
  place s (hbmKey (bitsOf x.xltRoot.toNat 51 12 * 4096 + 8 * vaIndex 4 false va) / 64 * 64) / 64

/-- An access waits where the first line of its first run has its home in a shut slice. -/
theorem sliceWait_of_shut {s : State} {k n : Nat} (runs : List (Nat × Nat)) (hn : 0 < n) (hspace : keySpace (64 * (place s (k / 64 * 64) / 64)) ≤ 1)
    (hshut : sliceOf (place s (k / 64 * 64) / 64) ∈ shutSlices s) : (sliceWait s ((k, n) :: runs)).isSome = true := by
  have hne : (shutSlices s).isEmpty = false := List.isEmpty_eq_false_iff_exists_mem.2 ⟨_, hshut⟩
  have hlen : (k % 64 + n + 63) / 64 = (k % 64 + n - 1) / 64 + 1 := by omega
  simp [sliceWait, hne, hlen, List.range_succ_eq_map, hspace, hshut]

/-- A walk reads the root's entry, so it waits where that entry's home is a shut slice. -/
theorem walkShut_of_root {s : State} {x : Context} {ctx va : Nat} (hx : getCtx s ctx = some x) (hspace : keySpace (64 * rootLine s x va) ≤ 1)
    (hshut : sliceOf (rootLine s x va) ∈ shutSlices s) : walkShut s ctx va = true := by
  have hne : (shutSlices s).isEmpty = false := List.isEmpty_eq_false_iff_exists_mem.2 ⟨_, hshut⟩
  simp only [walkShut, hne, hx, Option.any_some, walkKeys, List.map_cons, Bool.not_false, Bool.true_and]
  exact sliceWait_of_shut _ (by decide) hspace hshut

theorem devHeld_of_walkShut {s : State} {ctx va len : Nat} (store : Bool) (hlen : 0 < len) (h : walkShut s ctx (va / 64 * 64) = true) :
    devHeld s ctx va len store = true := by
  have hne : (shutSlices s).isEmpty = false := by
    simp only [walkShut, Bool.and_eq_true, Bool.not_eq_true'] at h
    exact h.1
  have hn : (va % 64 + len + 63) / 64 = (va % 64 + len - 1) / 64 + 1 := by omega
  simp [devHeld, hne, hn, List.range_succ_eq_map, h]

theorem imageHeld_of_walkShut {s : State} {c : Crew} {base : Nat} {bytes : List Byte} (himage : c.image = some (base, bytes)) (hlen : 0 < bytes.length)
    (h : walkShut s c.ctx (base / 64 * 64) = true) : imageHeld s c = true := by
  simpa only [imageHeld, himage, Option.any_some] using devHeld_of_walkShut false hlen h

theorem crewImage_length_pos (s : State) (c : Crew) : 0 < (crewImage s c).length := by
  simp [crewImage, openPart]

/-! ### Pre-emption of a crew whose image waits (R294, R366) -/

theorem afterTaking_of_imageHeld {s : State} {c : Crew} {k : Taking} {core : Nat} (hdest : k.dest = some core) (hne : core ≠ c.coreId)
    (h : imageHeld s c = true) : afterTaking s c k = s := by
  simp [afterTaking, hdest, hne, restoreCore, h]

/-- The save of a crew that is still, and then what follows its pre-emption. -/
theorem exec_crewSaveComplete_taken {s : State} {c c1 : Crew} {k : Taking} (hc : getCrew s c.uid = some c) (htaking : c.taking = some k) (hhalt : c.halt = none)
    (hres : c.where_ = .resident) (hsaving : k.saving = true) (hstill : crewStill s c = true) (h1 : getCrew (leaveCore (saveImage s c) c.uid) c.uid = some c1) :
    exec (.crewSaveComplete c.uid) s = .next (afterTaking (leaveCore (saveImage s c) c.uid) c1 k) := by
  have hfilter : (c.taking.filter fun k => k.saving && c.halt.isNone) = some k := by simp [htaking, Option.filter, hsaving, hhalt]
  have hsave : haltOf c (· == .saving) = none := by simp [haltOf, hhalt]
  simp only [exec, execCrewSaveComplete, hc, hsave, hfilter, hres, hstill, h1] <;> rfl

/-! ### A machine in which this happens -/

/-- A crew that Fantail moves from core 0 to core 1, its skid over. -/
def movedCrew : Crew := { placeCrew with run := none, taking := some { since := 0, saving := true, dest := some 1 } }

/-- Its context: a root table at 1 MiB, and a save area that holds one image. -/
def movedContext : Context := { placeContext with xltRoot := 0x100000, save := 0x10000, saveSize := 0x50000, loaded := true }

/-- The tables map a page of 2 MiB at address 0. The slice that is the home of the root table is under repartition (R168). -/
def movedState : State :=
  { State.reset with
    cycle := 12, contexts := [movedContext], crews := [movedCrew], nextId := 1
    mem := memWrite (memWrite (memWrite (memWrite [] 0x100000 8 0x101001) 0x101000 8 0x102001) 0x102000 8 0x103001) 0x103000 8 0x383
    cores := [(sliceOf (0x100000 / 64), { change := [{ mb := 1, who := none }] })] }

/-- The crew once its image is written: away, with its image at the start of the save area. -/
def savedCrew : Crew := { movedCrew with where_ := .away, image := some (0x10000, crewImage movedState movedCrew) }

/-- The machine once the crew has left its core. -/
def leftState : State := leaveCore (saveImage movedState movedCrew) movedCrew.uid

theorem getCrew_leftState : getCrew leftState movedCrew.uid = some savedCrew := by
  have hbase : imageBase movedState movedCrew.ctx (imageSize movedState movedCrew) = some 0x10000 := by rfl
  rw [leftState, saveImage, hbase]
  rfl

theorem shutSlices_leftState : shutSlices leftState = [sliceOf (0x100000 / 64)] := rfl

/-- The saved image cannot be read back: the walk for it meets the shut slice at once. -/
theorem imageHeld_savedCrew : imageHeld leftState savedCrew = true := by
  have hline : rootLine leftState movedContext 0x10000 = 0x100000 / 64 := by rfl
  have hwalk : walkShut leftState savedCrew.ctx (0x10000 / 64 * 64) = true :=
    walkShut_of_root (x := movedContext) rfl (by rw [hline]; decide) (by rw [hline, shutSlices_leftState]; exact List.mem_singleton.2 rfl)
  have himage : savedCrew.image = some (0x10000, crewImage movedState movedCrew) := rfl
  exact imageHeld_of_walkShut himage (crewImage_length_pos _ _) hwalk

/-- Core 1, which the crew is to go to, has room for it. -/
theorem coreTakes_savedCrew : coreTakes leftState savedCrew 1 = true := by
  have hretired : (coreOf leftState 1).retired = false := by
    show (if 1 = sliceOf (0x100000 / 64) then ({ change := [{ mb := 1, who := none }] } : Core) else default).retired = false
    split <;> rfl
  have hreplacing : replacing leftState 1 = false := by rfl
  have hshapes : shapesFit (savedCrew.shape :: (ordinaryOn leftState 1).map (·.shape)) = true := by rfl
  have hnodes : nodesFit leftState savedCrew 1 = true := by rfl
  have hgen : savedCrew.isGen = false := rfl
  simp [coreTakes, coreHasRoom, coreOpen, hretired, hreplacing, hshapes, hnodes, hgen]

/-- The save ends with the crew away, though its core could take it. -/
theorem exec_crewSaveComplete_movedState : exec (.crewSaveComplete movedCrew.uid) movedState = .next leftState := by
  rw [exec_crewSaveComplete_taken (s := movedState) (c := movedCrew) rfl rfl rfl rfl rfl rfl getCrew_leftState]
  exact congrArg _ (afterTaking_of_imageHeld rfl (by decide) imageHeld_savedCrew)

/-- Refutes O59: a crew that Fantail moves is not restored when its save ends, where the reading back of its image must wait (R168). Here the slice that is the home of
its context's root table is under repartition; the destination has room, and the crew stays away. -/
theorem not_heatErrorsAndSpares : ¬ Obligations.HeatErrorsAndSpares := by
  unfold Obligations.HeatErrorsAndSpares
  rintro ⟨⟨-, -, -, -, -, htaken, -⟩, -, -⟩
  obtain ⟨-, -, hrestored⟩ := htaken movedState movedCrew _ rfl rfl rfl rfl
  obtain ⟨u, c, hexec, hget, hresident, -⟩ := hrestored 1 savedCrew rfl rfl rfl (by decide) (by decide) getCrew_leftState coreTakes_savedCrew
  obtain rfl : leftState = u := Host.Outcome.next.inj (exec_crewSaveComplete_movedState.symm.trans hexec)
  obtain rfl : savedCrew = c := Option.some.inj (getCrew_leftState.symm.trans hget)
  cases hresident

end Sys2Proof.Machine
end

section
/-! PROOFS. Lost messages: what a dropped load leaves of the loads on their way. -/

namespace Sys2Proof.Machine

/-- Two loads on their way under one number, from different addresses. -/
def twoLoads : State :=
  { State.reset with
    loads := [{ id := 7, crew := 5, tid := 0, vdst := [], sdst := [], addr := 0x40, peer := true }, { id := 7, crew := 5, tid := 0, vdst := [], sdst := [], addr := 0x80, peer := true }] }

/-- Refutes O60: loads are given by number, and a dropped message ends each load of that number with POISON at the load's own address; where two loads share a number,
the second does not name the address of the first. The clause has no premise that keeps numbers apart. -/
theorem not_peersAreServed : ¬ Obligations.PeersAreServed := by
  unfold Obligations.PeersAreServed
  rintro ⟨hdropped, -, -⟩
  obtain ⟨hload, -⟩ := hdropped twoLoads 7
  obtain ⟨u, hexec, -, -, -, hpoison⟩ := hload _ rfl
  have hu : u.loads = twoLoads.loads.map fun q => { q with poison := some q.addr } := by
    obtain rfl := Host.Outcome.next.inj hexec
    rfl
  have hsecond := (hpoison { id := 7, crew := 5, tid := 0, vdst := [], sdst := [], addr := 0x80, peer := true, poison := some 0x80 } (by rw [hu]; simp [twoLoads]) rfl).2
  exact absurd hsecond (by decide)

end Sys2Proof.Machine
end

section
/-! PROOFS. The encoding: fields and words are each other's inverse, and so are instructions and their fields. -/

namespace Sys2Proof

/-! ### Fields that fit their places -/

/-- The numbers of a full-form word's fields fit the places of R44. -/
structure Raw.Fits (r : Raw) : Prop where
  g : r.g < 8
  op : r.op < 128
  m : r.m < 256
  d : r.d < 256
  a : r.a < 256
  b : r.b < 256
  c : r.c < 256
  x : r.x < 2048
  imm : ∀ v, r.imm = some v → v < 2 ^ 27

/-- The numbers of a half's fields fit the places of R61. -/
structure RawHalf.Fits (h : RawHalf) : Prop where
  op : h.op < 128
  d : h.d < 256
  s : h.s < 256
  k : h.k < 256

/-- The numbers of the fields fit the places of a word. -/
def Fields.Fits : Fields → Prop
  | .full r => r.Fits
  | .paired _ h0 h1 => h0.Fits ∧ h1.Fits

theorem bitsOf_eq_div_mod (x hi lo : Nat) : bitsOf x hi lo = x / 2 ^ lo % 2 ^ (hi + 1 - lo) := by
  rw [bitsOf, Nat.shiftRight_eq_div_pow]

theorem bitsOf_lt (x hi lo : Nat) : bitsOf x hi lo < 2 ^ (hi + 1 - lo) := Nat.mod_lt _ (by positivity)

theorem bitAt_eq_decide (x n : Nat) : bitAt x n = decide (x / 2 ^ n % 2 = 1) := Nat.testBit_eq_decide_div_mod_eq

theorem bitAt_of_toNat {x n : Nat} {b : Bool} (h : x / 2 ^ n % 2 = b.toNat) : bitAt x n = b := by
  rw [bitAt_eq_decide, h]
  cases b <;> rfl

/-- A bit is a field of one bit. -/
theorem toNat_bitAt (x n : Nat) : (bitAt x n).toNat = bitsOf x n n := by
  rw [bitsOf_eq_div_mod, Nat.add_sub_cancel_left]
  exact Nat.toNat_testBit x n

theorem bitsOf_of_bitAt {x n : Nat} {b : Bool} (h : bitAt x n = b) : bitsOf x n n = b.toNat := by rw [← toNat_bitAt, h]

/-- A field above the low bits of a number adds its bits to them. -/
theorem mod_add_bitsOf (x : Nat) {hi lo : Nat} (h : lo ≤ hi + 1) : x % 2 ^ lo + bitsOf x hi lo * 2 ^ lo = x % 2 ^ (hi + 1) := by
  obtain ⟨n, hn⟩ := Nat.exists_eq_add_of_le h
  rw [bitsOf_eq_div_mod, hn, Nat.add_sub_cancel_left, pow_add, Nat.mod_mul, Nat.mul_comm]

/-! ### Words and fields -/

theorem fits_unpackHalf (h : Nat) : (unpackHalf h).Fits := ⟨bitsOf_lt .., bitsOf_lt .., bitsOf_lt .., bitsOf_lt ..⟩

theorem fits_unpack (w : Nat) : (unpack w).Fits := by
  unfold unpack
  split
  · exact ⟨fits_unpackHalf _, fits_unpackHalf _⟩
  split
  · exact ⟨bitsOf_lt .., bitsOf_lt .., bitsOf_lt .., bitsOf_lt .., bitsOf_lt .., Nat.lt_add_one 255, Nat.lt_add_one 255, Nat.succ_pos 2047, fun v hv => Option.some.inj hv ▸ bitsOf_lt ..⟩
  · exact ⟨bitsOf_lt .., bitsOf_lt .., bitsOf_lt .., bitsOf_lt .., bitsOf_lt .., bitsOf_lt .., bitsOf_lt .., bitsOf_lt .., nofun⟩

theorem held_unpack (w : Nat) : (unpack w).held = true := by
  unfold unpack
  split
  · rfl
  split <;> rfl

theorem packHalf_lt {h : RawHalf} (f : h.Fits) : packHalf h < 2 ^ 31 := by
  obtain ⟨hop, hd, hs, hk⟩ := f
  simp only [packHalf]
  omega

theorem pack_lt {f : Fields} (h : f.Fits) : pack f < 2 ^ 64 := by
  cases f with
  | full r =>
    obtain ⟨hg, hop, hm, hd, ha, hb, hc, hx, himm⟩ := h
    have hneg := Bool.toNat_lt r.neg
    cases hi : r.imm with
    | some v =>
      have hv := himm v hi
      simp only [pack, hi]
      omega
    | none =>
      simp only [pack, hi]
      omega
  | paired p h0 h1 =>
    have hp := Bool.toNat_lt p
    have hlow := packHalf_lt h.1
    have hhigh := packHalf_lt h.2
    simp only [pack]
    omega

/-- The fields of a half read back from its 31 bits. -/
theorem unpackHalf_packHalf {h : RawHalf} (f : h.Fits) : unpackHalf (packHalf h) = h := by
  obtain ⟨op, d, s, k⟩ := h
  obtain ⟨hop, hd, hs, hk⟩ := f
  simp only [unpackHalf, packHalf, bitsOf_eq_div_mod, RawHalf.mk.injEq] at *
  omega

theorem packHalf_unpackHalf {n : Nat} (h : n < 2 ^ 31) : packHalf (unpackHalf n) = n := by
  simp only [unpackHalf, packHalf, bitsOf_eq_div_mod]
  omega

/-- Bit 63 tells a paired word from a full form (R44, R61). -/
theorem bitAt_pack_full {r : Raw} (h : r.Fits) : bitAt (pack (.full r)) 63 = false := by
  obtain ⟨hg, hop, hm, hd, ha, hb, hc, hx, himm⟩ := h
  have hneg := Bool.toNat_lt r.neg
  rw [bitAt_eq_decide, decide_eq_false_iff_not]
  cases hi : r.imm with
  | some v =>
    have hv := himm v hi
    simp only [pack, hi]
    omega
  | none =>
    simp only [pack, hi]
    omega

/-- The fields of an R form read back from its word. -/
theorem unpack_pack_rForm {r : Raw} (h : r.Fits) (hi : r.imm = none) : unpack (pack (.full r)) = .full r := by
  have h63 := bitAt_pack_full h
  obtain ⟨g, neg, op, m, d, a, b, c, x, imm⟩ := r
  obtain ⟨hg, hop, hm, hd, ha, hb, hc, hx, himm⟩ := h
  subst hi
  have hneg := Bool.toNat_lt neg
  have h62 : bitAt (pack (.full { g, neg, op, m, d, a, b, c, x, imm := none })) 62 = false := by
    rw [bitAt_eq_decide, decide_eq_false_iff_not]
    simp only [pack] at *
    omega
  have h58 : bitAt (pack (.full { g, neg, op, m, d, a, b, c, x, imm := none })) 58 = neg := by
    refine bitAt_of_toNat ?_
    simp only [pack] at *
    omega
  simp only [unpack, h63, h62, h58, Bool.false_eq_true, if_false, Fields.full.injEq, Raw.mk.injEq, true_and, and_true]
  simp only [pack, bitsOf_eq_div_mod] at *
  omega

/-- The fields of an I form read back from its word. -/
theorem unpack_pack_iForm {r : Raw} (h : r.Fits) {v : Nat} (hi : r.imm = some v) (hheld : (Fields.full r).held = true) : unpack (pack (.full r)) = .full r := by
  have h63 := bitAt_pack_full h
  obtain ⟨g, neg, op, m, d, a, b, c, x, imm⟩ := r
  obtain ⟨hg, hop, hm, hd, ha, hb, hc, hx, himm⟩ := h
  subst hi
  obtain ⟨⟨rfl, rfl⟩, rfl⟩ : (b = 0xFF ∧ c = 0xFF) ∧ x = 0 := by simpa [Fields.held] using hheld
  have hv := himm v rfl
  have hneg := Bool.toNat_lt neg
  have h62 : bitAt (pack (.full { g, neg, op, m, d, a, imm := some v })) 62 = true := by
    rw [bitAt_eq_decide, decide_eq_true_eq]
    simp only [pack] at *
    omega
  have h58 : bitAt (pack (.full { g, neg, op, m, d, a, imm := some v })) 58 = neg := by
    refine bitAt_of_toNat ?_
    simp only [pack] at *
    omega
  simp only [unpack, h63, h62, h58, Bool.false_eq_true, if_false, if_true, Fields.full.injEq, Raw.mk.injEq, true_and, Option.some.injEq]
  simp only [pack, bitsOf_eq_div_mod] at *
  omega

/-- The halves of a paired word read back from it. -/
theorem unpack_pack_paired {p : Bool} {h0 h1 : RawHalf} (f0 : h0.Fits) (f1 : h1.Fits) : unpack (pack (.paired p h0 h1)) = .paired p h0 h1 := by
  have hp := Bool.toNat_lt p
  have hlow := packHalf_lt f0
  have hhigh := packHalf_lt f1
  have h63 : bitAt (pack (.paired p h0 h1)) 63 = true := by
    rw [bitAt_eq_decide, decide_eq_true_eq]
    simp only [pack]
    omega
  have h62 : bitAt (pack (.paired p h0 h1)) 62 = p := by
    refine bitAt_of_toNat ?_
    simp only [pack]
    omega
  have hfirst : bitsOf (pack (.paired p h0 h1)) 30 0 = packHalf h0 := by
    simp only [pack, bitsOf_eq_div_mod]
    omega
  have hsecond : bitsOf (pack (.paired p h0 h1)) 61 31 = packHalf h1 := by
    simp only [pack, bitsOf_eq_div_mod]
    omega
  simp only [unpack, h63, h62, hfirst, hsecond, if_true, unpackHalf_packHalf f0, unpackHalf_packHalf f1]

/-- Fields that a word can hold read back from it (R44, R61). -/
theorem unpack_pack {f : Fields} (h : f.Fits) (hheld : f.held = true) : unpack (pack f) = f := by
  cases f with
  | full r =>
    cases hi : r.imm with
    | some v => exact unpack_pack_iForm h hi hheld
    | none => exact unpack_pack_rForm h hi
  | paired p h0 h1 => exact unpack_pack_paired h.1 h.2

/-- The fields that both forms share, and the bit that tells them apart, are the bits of a full-form word above its operands B, C and X. -/
theorem mod_add_upper {w : Nat} (h : w < 2 ^ 64) (h63 : bitAt w 63 = false) :
    w % 2 ^ 27 + bitsOf w 34 27 * 2 ^ 27 + bitsOf w 42 35 * 2 ^ 35 + bitsOf w 50 43 * 2 ^ 43 + bitsOf w 57 51 * 2 ^ 51 + (bitAt w 58).toNat * 2 ^ 58 +
      bitsOf w 61 59 * 2 ^ 59 + (bitAt w 62).toNat * 2 ^ 62 = w := by
  have htop := mod_add_bitsOf w (show 63 ≤ 63 + 1 by decide)
  rw [bitsOf_of_bitAt h63, Bool.toNat_false, Nat.zero_mul, Nat.add_zero, Nat.mod_eq_of_lt h] at htop
  rw [mod_add_bitsOf w (by decide), mod_add_bitsOf w (by decide), mod_add_bitsOf w (by decide), mod_add_bitsOf w (by decide), toNat_bitAt,
    mod_add_bitsOf w (by decide), mod_add_bitsOf w (by decide), toNat_bitAt, mod_add_bitsOf w (by decide), htop]

/-- No bit of a word is outside its fields. -/
theorem pack_unpack {w : Nat} (h : w < 2 ^ 64) : pack (unpack w) = w := by
  unfold unpack
  split
  next h63 =>
    have htop := mod_add_bitsOf w (show 63 ≤ 63 + 1 by decide)
    have hp := mod_add_bitsOf w (show 62 ≤ 62 + 1 by decide)
    have hhigh := mod_add_bitsOf w (show 31 ≤ 61 + 1 by decide)
    rw [bitsOf_of_bitAt h63, Nat.mod_eq_of_lt h] at htop
    simp only [pack, toNat_bitAt, packHalf_unpackHalf (bitsOf_lt w 30 0), packHalf_unpackHalf (bitsOf_lt w 61 31)]
    rw [show bitsOf w 30 0 = w % 2 ^ 31 by rw [bitsOf_eq_div_mod, pow_zero, Nat.div_one]]
    simp only [Bool.toNat_true] at htop
    linarith
  next h63 =>
    have hupper := mod_add_upper h (Bool.eq_false_iff.2 h63)
    split
    next h62 =>
      have hlow : bitsOf w 26 0 = w % 2 ^ 27 := by rw [bitsOf_eq_div_mod, pow_zero, Nat.div_one]
      rw [h62, Bool.toNat_true] at hupper
      simp only [pack]
      linarith
    next h62 =>
      have hx : bitsOf w 10 0 = w % 2 ^ 11 := by rw [bitsOf_eq_div_mod, pow_zero, Nat.div_one]
      have hc := mod_add_bitsOf w (show 11 ≤ 18 + 1 by decide)
      have hb := mod_add_bitsOf w (show 19 ≤ 26 + 1 by decide)
      rw [Bool.eq_false_iff.2 h62, Bool.toNat_false] at hupper
      simp only [pack]
      linarith

/-! ### Instructions and fields -/

theorem opCode_lt (op : Op) : opCode op < 128 := by cases op <;> decide

/-- An opcode has one code (R58). -/
theorem opCode_of_opOf {n : Nat} {op : Op} (hn : n < 128) (h : opOf n = some op) : opCode op = n := by
  have hall : ∀ k < 128, ((opOf k).all fun o => opCode o == k) = true := by decide
  simpa [h] using hall n hn

theorem Opnd.code_lt (o : Opnd) : o.code < 256 := by
  cases o with
  | v n => exact n.isLt.trans (by decide)
  | s n => simp only [Opnd.code]; omega
  | sp x => cases x <;> decide
  | none => decide

theorem Opnd.code_ofCode_special : ∀ j < 16, codeReserved (240 + j) = false → (Opnd.ofCode (240 + j)).code = 240 + j := by decide

/-- A code that is not reserved names one operand (R47). -/
theorem Opnd.code_ofCode {k : Nat} (hk : k < 256) (h : codeReserved k = false) : (Opnd.ofCode k).code = k := by
  by_cases hv : k < 192
  · simp [Opnd.ofCode, hv, Opnd.code]
  by_cases hs : k < 240
  · simp only [Opnd.ofCode, hv, show k - 192 < 48 by omega, dif_pos, dif_neg, not_false_eq_true, Opnd.code]
    omega
  · obtain ⟨j, rfl⟩ := Nat.exists_eq_add_of_le (Nat.le_of_not_lt hs)
    exact Opnd.code_ofCode_special j (by omega) h

theorem fits_raw (op : Op) (a : Args) : (a.raw op).Fits where
  g := a.guard.p.isLt
  op := opCode_lt op
  m := a.m.isLt
  d := a.d.code_lt
  a := a.a.code_lt
  b := a.b.code_lt
  c := a.c.code_lt
  x := a.x.isLt
  imm v hv := by
    obtain ⟨i, -, rfl⟩ := Option.map_eq_some_iff.1 hv
    exact i.isLt

theorem fits_halfRaw (h : Half) : h.raw.Fits := ⟨h.op.isLt, h.d.code_lt, h.s.code_lt, h.k.isLt⟩

/-- An instruction other than a paired word has the fields of its opcode and operands. -/
theorem fieldsOf_of_full {i : Instr} {op : Op} {a : Args} (h : i.full = some (op, a)) : fieldsOf i = some (.full (a.raw op)) := by
  unfold fieldsOf
  split
  · cases h
  · rw [h]; rfl

theorem fits_fieldsOf {i : Instr} {f : Fields} (h : fieldsOf i = some f) : f.Fits := by
  unfold fieldsOf at h
  split at h
  · obtain rfl := Option.some.inj h
    exact ⟨fits_halfRaw _, fits_halfRaw _⟩
  · obtain ⟨⟨op, a⟩, -, rfl⟩ := Option.map_eq_some_iff.1 h
    exact fits_raw op a

/-- The opcode and sub-op that choose an instruction's constructor are those of its fields. -/
theorem full_of_build {op : Op} {a : Args} {i : Instr} (h : build op a = some i) : i.full = some (op, a) := by
  cases op
  all_goals
    dsimp only [build] at h
    try split at h
    all_goals cases h <;> rfl

/-! ### Fields that pass the checks -/

/-- A full form that passes every check has a listed opcode and no reserved operand code (R46, R66). -/
theorem Raw.of_ill_none {lim : Limits} {r : Raw} (h : r.ill lim = none) :
    ∃ op s, opOf r.op = some op ∧ ∀ f ∈ r.fields s, codeReserved f.2 = false := by
  unfold Raw.ill at h
  split at h
  · cases h
  next op hop =>
  split at h
  · cases h
  next s hs =>
  refine ⟨op, s, hop, ?_⟩
  by_contra hbad
  have hany : ((r.fields s).any fun f => codeReserved f.2) = true := by
    simpa using hbad
  simp [hany] at h

/-- A half that passes every check names no reserved operand code. -/
theorem RawHalf.of_ill_none {lim : Limits} {h : RawHalf} (hill : h.ill lim = none) : codeReserved h.d = false ∧ codeReserved h.s = false := by
  unfold RawHalf.ill at hill
  split at hill
  · cases hill
  next r hr =>
  by_contra hbad
  have hany : (codeReserved h.d || codeReserved h.s) = true := by
    by_contra hno
    simp_all
  simp [hany] at hill

theorem half_raw_half {lim : Limits} {h : RawHalf} (f : h.Fits) (hill : h.ill lim = none) : h.half.raw = h := by
  obtain ⟨op, d, s, k⟩ := h
  obtain ⟨hop, hd, hs, hk⟩ := f
  obtain ⟨hrd, hrs⟩ := RawHalf.of_ill_none hill
  simp only [Half.raw, RawHalf.half, BitVec.toNat_ofNat, RawHalf.mk.injEq]
  exact ⟨Nat.mod_eq_of_lt hop, Opnd.code_ofCode hd hrd, Opnd.code_ofCode hs hrs, Nat.mod_eq_of_lt hk⟩

/-- The operands of a full form that passes every check have its codes again. -/
theorem operands_of_ill_none {lim : Limits} {r : Raw} (f : r.Fits) (hheld : (Fields.full r).held = true) (hill : r.ill lim = none) :
    r.args.d.code = r.d ∧ r.args.a.code = r.a ∧ r.args.b.code = r.b ∧ r.args.c.code = r.c := by
  obtain ⟨op, s, -, hres⟩ := Raw.of_ill_none hill
  cases hi : r.imm with
  | none =>
    have hfields : r.fields s = [(s.d, r.d), (s.a, r.a), (s.b, r.b), (s.c, r.c)] := by simp [Raw.fields, hi]
    simp only [hfields, List.forall_mem_cons, List.not_mem_nil, false_implies, implies_true, and_true] at hres
    obtain ⟨hrd, hra, hrb, hrc⟩ := hres
    exact ⟨Opnd.code_ofCode f.d hrd, Opnd.code_ofCode f.a hra, Opnd.code_ofCode f.b hrb, Opnd.code_ofCode f.c hrc⟩
  | some v =>
    have hfields : r.fields s = [(s.d, r.d), (s.a, r.a)] := by simp [Raw.fields, hi]
    simp only [hfields, List.forall_mem_cons, List.not_mem_nil, false_implies, implies_true, and_true] at hres
    obtain ⟨hrd, hra⟩ := hres
    obtain ⟨⟨hb, hc⟩, -⟩ : (r.b = 0xFF ∧ r.c = 0xFF) ∧ r.x = 0 := by simpa [Fields.held, hi] using hheld
    refine ⟨Opnd.code_ofCode f.d hrd, Opnd.code_ofCode f.a hra, ?_, ?_⟩
    · rw [hb]; exact congrArg (fun k => (Opnd.ofCode k).code) hb
    · rw [hc]; exact congrArg (fun k => (Opnd.ofCode k).code) hc

theorem args_raw_args {lim : Limits} {r : Raw} {op : Op} (f : r.Fits) (hheld : (Fields.full r).held = true) (hill : r.ill lim = none)
    (hop : opOf r.op = some op) : r.args.raw op = r := by
  obtain ⟨hd, ha, hb, hc⟩ := operands_of_ill_none f hheld hill
  have himm : r.args.imm.map BitVec.toNat = r.imm := by
    cases hi : r.imm with
    | none => simp [Raw.args, hi]
    | some v => simp only [Raw.args, hi, Option.map_some, BitVec.toNat_ofNat, Nat.mod_eq_of_lt (f.imm v hi)]
  have hg : (r.args.guard.p : Nat) = r.g := Nat.mod_eq_of_lt f.g
  have hm : r.args.m.toNat = r.m := Nat.mod_eq_of_lt f.m
  have hx : r.args.x.toNat = r.x := Nat.mod_eq_of_lt f.x
  rw [Args.raw, hd, ha, hb, hc, himm, hg, hm, hx, opCode_of_opOf f.op hop]
  rfl

/-- Fields that pass every check are those of the instruction that they stand for. -/
theorem fieldsOf_instr {lim : Limits} {f : Fields} {i : Instr} (hf : f.Fits) (hheld : f.held = true) (hbad : f.bad lim = none) (hi : f.instr = some i) :
    fieldsOf i = some f := by
  cases f with
  | full r =>
    obtain ⟨op, hop, hbuild⟩ := Option.bind_eq_some_iff.1 hi
    have hill : r.ill lim = none := by simpa [Fields.bad] using hbad
    rw [fieldsOf_of_full (full_of_build hbuild), args_raw_args hf hheld hill hop]
  | paired p h0 h1 =>
    obtain rfl : Instr.pairedWord p h0.half h1.half = i := Option.some.inj hi
    obtain ⟨hill0, hill1⟩ : h0.ill lim = none ∧ h1.ill lim = none := by
      simp only [Fields.bad] at hbad
      split at hbad
      · cases hbad
      · cases hbad
      · exact ⟨‹_›, ‹_›⟩
    simp only [fieldsOf, half_raw_half hf.1 hill0, half_raw_half hf.2 hill1]

/-! ### Decoding -/

/-- The decoder answers an instruction exactly where the fields of the word pass every check and stand for it. -/
theorem decodeWord_inr_iff {lim : Limits} {w : Nat} {i : Instr} :
    decodeWord lim w = .inr i ↔ (unpack w).bad lim = none ∧ (unpack w).instr = some i := by
  unfold decodeWord
  dsimp only
  cases (unpack w).bad lim with
  | some e => simp
  | none => cases (unpack w).instr with
    | none => simp
    | some j => simp

/-- What it is for an instruction to be legal: a word can hold its fields, they pass every check, and they stand for it. -/
theorem legal_iff {lim : Limits} {i : Instr} :
    legal lim i = true ↔ ∃ f, fieldsOf i = some f ∧ f.held = true ∧ f.bad lim = none ∧ f.instr = some i := by
  unfold legal
  cases fieldsOf i with
  | none => simp
  | some f => simp [and_assoc]

theorem encode_of_fieldsOf {i : Instr} {f : Fields} (h : fieldsOf i = some f) : encode i = pack f := by simp [encode, h]

/-- The word of a legal instruction decodes to it, under the limits that it is legal under. -/
theorem decodeWord_encode {lim : Limits} {i : Instr} (h : legal lim i = true) : encode i < 2 ^ 64 ∧ decodeWord lim (encode i) = .inr i := by
  obtain ⟨f, hf, hheld, hbad, hi⟩ := legal_iff.1 h
  have hfits := fits_fieldsOf hf
  rw [encode_of_fieldsOf hf]
  refine ⟨pack_lt hfits, decodeWord_inr_iff.2 ?_⟩
  rw [unpack_pack hfits hheld]
  exact ⟨hbad, hi⟩

/-- What a word decodes to is encoded by that word, and legal under the same limits. -/
theorem encode_decodeWord {lim : Limits} {w : Nat} {i : Instr} (hw : w < 2 ^ 64) (h : decodeWord lim w = .inr i) : encode i = w ∧ legal lim i = true := by
  obtain ⟨hbad, hi⟩ := decodeWord_inr_iff.1 h
  have hf := fieldsOf_instr (fits_unpack w) (held_unpack w) hbad hi
  exact ⟨by rw [encode_of_fieldsOf hf, pack_unpack hw], legal_iff.2 ⟨_, hf, held_unpack w, hbad, hi⟩⟩

/-- A full-form word keeps its opcode in bits 57 to 51 (R44). -/
theorem unpack_full {w : Nat} (h : bitAt w 63 = false) : ∃ r, unpack w = .full r ∧ r.op = bitsOf w 57 51 := by
  unfold unpack
  rw [h, if_neg Bool.false_ne_true]
  split <;> exact ⟨_, rfl, rfl⟩

theorem Raw.ill_of_opOf_none {lim : Limits} {r : Raw} (h : opOf r.op = none) : r.ill lim = some 0x01 := by simp [Raw.ill, h]

/-- Settles O1: each printed word is decoded. -/
theorem printedWordsDecode : Obligations.PrintedWordsDecode := by
  unfold Obligations.PrintedWordsDecode
  refine ⟨?_, ?_, ?_, ?_, ?_, ?_, ?_⟩ <;> decide +kernel

/-- Settles O2: what is well-formed and no event is legal, and a legal instruction's fields read back from its word. -/
theorem decodeOfEncode : Obligations.DecodeOfEncode := by
  unfold Obligations.DecodeOfEncode
  intro i hevent hwf
  rw [Instr.wf, hevent, Bool.false_or] at hwf
  exact decodeWord_encode hwf

/-- Settles O3: the fields that the decoder accepts are those of the instruction it answers, and an opcode that is not listed fails the first check. -/
theorem wordsHaveOneMeaning : Obligations.WordsHaveOneMeaning := by
  unfold Obligations.WordsHaveOneMeaning
  refine ⟨fun lim w i hw h => encode_decodeWord hw h, fun lim w h63 hop => ?_⟩
  obtain ⟨r, hr, hrop⟩ := unpack_full h63
  have hill : r.ill lim = some 0x01 := Raw.ill_of_opOf_none (by rw [hrop, hop])
  simp [decodeWord, hr, Fields.bad, hill]

end Sys2Proof
end

section
/-! PROOFS. Paired words: what a half writes is what its full form writes. -/

namespace Sys2Proof.Machine

/-- The rows of the half-op table, in the order of their codes (R65). -/
def halfRows : List HalfRow := halfRowsInt ++ halfRowsFloat

theorem halfRow_eq (n : Nat) : halfRow n = halfRows[n]? := by
  unfold halfRow halfRows
  split
  next h => exact (List.getElem?_append_left h).symm
  next h => exact (List.getElem?_append_right (l₁ := halfRowsInt) (Nat.le_of_not_lt h)).symm

/-- The opcodes that stand in a half. -/
def halfOps : List Op :=
  [.nop, .iadd, .isub, .imul, .iminmax, .logic, .shift, .mov, .iabsneg, .fadd, .fsub, .fmul, .fminmax, .fabsneg, .fldexp, .cvt, .sel, .bitc]

theorem op_mem_halfOps : ∀ r ∈ halfRows, r.op ∈ halfOps := by decide

/-- The writes of a gang's active threads, where each thread makes those of a list. -/
def gangWrites (c : Crew) (is : Issue) (g : Guard) (f : Thread → List Wr) : List (Nat × Wr) :=
  (active c is g).flatMap fun t => (f t).map fun w => (t.tid, w)

theorem regsWritten_nil (s : State) (is : Issue) : regsWritten s is [] = retire is s := by
  simp [regsWritten, applyWrs, updCrew]

/-- An instruction whose opcode stands in a half makes the writes of `halfWrites`. -/
theorem exec_of_halfOp {s : State} {is : Issue} {c : Crew} (h : Issues s is c) {op : Op} {a : Args} {i : Instr} (hop : op ∈ halfOps) (hi : build op a = some i) :
    exec i s = .next (regsWritten s is (gangWrites c is a.guard (halfWrites op a c))) := by
  simp only [halfOps, List.mem_cons, List.not_mem_nil, or_false] at hop
  rcases hop with rfl | hop
  · obtain rfl : Instr.nop a = i := Option.some.inj hi
    have hnone : gangWrites c is a.guard (halfWrites .nop a c) = [] := by simp [gangWrites, halfWrites]
    rw [hnone, regsWritten_nil]
    rw [show exec (.nop a) s = execNop a s from rfl, execNop, gangDo_issues h]
    rfl
  · rcases hop with rfl | rfl | rfl | rfl | rfl | rfl | rfl | rfl | rfl | rfl | rfl | rfl | rfl | rfl | rfl | rfl | rfl <;>
      exact Option.some.inj hi ▸ regInstr_issues h a _

theorem wrHalf_of_row {g : Guard} {h : Half} {r : HalfRow} (hr : halfRow h.op.toNat = some r) (c : Crew) (t : Thread) :
    wrHalf g h c t = halfWrites r.op (halfArgs g r h) c t := by simp [wrHalf, hr]

theorem halfArgs_guard (g : Guard) (r : HalfRow) (h : Half) : (halfArgs g r h).guard = g := by
  unfold halfArgs
  cases r.form <;> rfl

/-- The full form of a half's row makes the writes of the half. -/
theorem exec_of_halfRow {s : State} {is : Issue} {c : Crew} (hs : Issues s is c) {g : Guard} {h : Half} {r : HalfRow} {i : Instr}
    (hr : halfRow h.op.toNat = some r) (hi : build r.op (halfArgs g r h) = some i) :
    exec i s = .next (regsWritten s is (gangWrites c is g (wrHalf g h c))) := by
  have hop : r.op ∈ halfOps := op_mem_halfOps r (List.mem_of_getElem? (halfRow_eq h.op.toNat ▸ hr))
  rw [exec_of_halfOp hs hop hi, halfArgs_guard, funext (wrHalf_of_row hr c)]

/-- A paired word makes the writes of both halves, each computed from the crew as it stood (R64). -/
theorem exec_pairedWord {s : State} {is : Issue} {c : Crew} (hs : Issues s is c) (p : Bool) (h0 h1 : Half) :
    exec (.pairedWord p h0 h1) s = .next (regsWritten s is (gangWrites c is (pairGuard p) fun t => wrHalf (pairGuard p) h0 c t ++ wrHalf (pairGuard p) h1 c t)) := by
  rw [show exec (.pairedWord p h0 h1) s = execPairedWord p h0 h1 s from rfl, execPairedWord, gangDo_issues hs]
  rfl

/-- Settles O19: the table of the statement lists, code by code, what the rows of R65 build. -/
theorem pairedWordRunsBothHalves : Obligations.PairedWordRunsBothHalves := by
  unfold Obligations.PairedWordRunsBothHalves
  intro s is c p hs g form dds ds ddk signed plain e4m3 arithmetic bits single packed
  refine ⟨fun h0 h1 => ?_, fun h full hfull => ?_⟩
  · rw [exec_pairedWord hs]
    simp only [gangWrites, List.map_append]
    rfl
  · have hrows : (arithmetic ++ bits ++ single ++ packed).map (fun f => some (f h)) = halfRows.map fun r => build r.op (halfArgs g r h) := rfl
    have hn : (halfRows[h.op.toNat]?).map (fun r => build r.op (halfArgs g r h)) = some (some (full h)) := by
      rw [← List.getElem?_map, ← hrows, List.getElem?_map, hfull]
      rfl
    obtain ⟨r, hr, hbuild⟩ := Option.map_eq_some_iff.1 hn
    exact exec_of_halfRow hs ((halfRow_eq _).trans hr) hbuild

end Sys2Proof.Machine
end

section
/-! PROOFS. Releases: what a gang waits for, and that it goes on as it stands where nothing is out. -/

namespace Sys2Proof.Machine

variable {s : State} {is : Issue} {c : Crew} {g : Guard}

theorem mem_active_tids {i : Nat} : i ∈ (active c is g).map (·.tid) ↔ ∃ t ∈ active c is g, t.tid = i := List.mem_map

/-- With no store out no active thread has anything to wait for, at any scope. -/
theorem owesStores_of_noStoresOut (h : NoStoresOut s is c g) (scope : Nat) {i : Nat} (hi : i ∈ (active c is g).map (·.tid)) :
    owesStores s scope is.crew i = false := by
  obtain ⟨hstores, hrings⟩ := h
  obtain ⟨t, ht, rfl⟩ := mem_active_tids.1 hi
  have hs : (s.stores.any fun p => p.crew == is.crew && p.tid == t.tid && p.holds s scope) = false := by
    simp only [List.any_eq_false, Bool.and_eq_true, beq_iff_eq, not_and]
    exact fun p hp ⟨hc, hid⟩ => absurd hid ((hstores p hp hc).2 t ht)
  have hr : (s.rings.any fun r => r.crew == is.crew && r.tid == t.tid && r.op.isPush) = false := by
    simp only [List.any_eq_false, Bool.and_eq_true, beq_iff_eq, not_and]
    exact fun r hr ⟨hc, hid⟩ hpush => hrings r hr hc hpush t ht hid
  simp [owesStores, hs, hr]

/-- With no store out a release leaves nothing behind it. -/
theorem passStores_of_noStoresOut (h : NoStoresOut s is c g) (scope : Nat) : passStores s scope is.crew ((active c is g).map (·.tid)) = s := by
  obtain ⟨hstores, -⟩ := h
  have hnone : ∀ p ∈ s.stores, p.crew = is.crew → p.rel = false ∧ p.tid ∉ (active c is g).map (·.tid) := by
    intro p hp hc
    obtain ⟨hrel, hid⟩ := hstores p hp hc
    exact ⟨hrel, fun hm => by obtain ⟨t, ht, he⟩ := mem_active_tids.1 hm; exact hid t ht he.symm⟩
  unfold passStores
  split
  · have hmap : (s.stores.map fun p => if p.crew == is.crew && ((active c is g).map (·.tid)).contains p.tid then { p with rel := true } else p) = s.stores := by
      refine (List.map_congr_left fun p hp => if_neg fun hboth => ?_).trans (List.map_id _)
      simp only [Bool.and_eq_true, beq_iff_eq, List.contains_iff_mem] at hboth
      exact (hnone p hp hboth.1).2 hboth.2
    rw [hmap]
  · have hfilter : (s.stores.filter fun p => p.crew == is.crew && (((active c is g).map (·.tid)).contains p.tid || p.rel) && !p.performed && p.wait == .free) = [] := by
      rw [List.filter_eq_nil_iff]
      intro p hp hall
      simp only [Bool.and_eq_true, Bool.or_eq_true, beq_iff_eq, List.contains_iff_mem] at hall
      obtain ⟨⟨⟨hc, hor⟩, -⟩, -⟩ := hall
      obtain ⟨hrel, hid⟩ := hnone p hp hc
      rcases hor with hm | hr
      · exact hid hm
      · simp [hrel] at hr
    rw [hfilter]
    rfl

/-- A release whose threads have nothing to wait for goes on, with what it leaves behind it. -/
theorem releaseGate_of_none {scope uid : Nat} {gang who : List Nat} (h : who.filter (owesStores s scope uid) = []) (k : State → Out) :
    releaseGate scope s uid gang who k = k (passStores s scope uid who) := by
  simp [releaseGate, h]

/-- A release with something to wait for holds the threads that owe it, and its gang stands at the word (R68). -/
theorem releaseGate_of_late {scope uid : Nat} {gang who : List Nat} (h : who.filter (owesStores s scope uid) ≠ []) (k : State → Out) :
    releaseGate scope s uid gang who k =
      .next { holdGang s uid gang (who.filter (owesStores s scope uid)) (.release scope (who.filter (owesStores s scope uid))) with issue := none } := by
  unfold releaseGate
  exact if_neg (by simpa using h)

theorem late_of_noStoresOut (h : NoStoresOut s is c g) (scope : Nat) : ((active c is g).map (·.tid)).filter (owesStores s scope is.crew) = [] := by
  rw [List.filter_eq_nil_iff]
  exact fun i hi => by simp [owesStores_of_noStoresOut h scope hi]

/-- With no store out a release of the active threads goes on in the state as it stands. -/
theorem withRelease_of_noStoresOut (h : NoStoresOut s is c g) (scope : Nat) (k : Env → Out) : withRelease scope (envOf s is c g) k = k (envOf s is c g) := by
  unfold withRelease
  refine (releaseGate_of_none (late_of_noStoresOut h scope) _).trans ?_
  rw [passStores_of_noStoresOut h scope]
  rfl

end Sys2Proof.Machine
end

section
/-! PROOFS. Tile tokens. -/

namespace Sys2Proof.Machine

variable {s : State} {is : Issue} {c : Crew} {a : Args}

theorem tokenOf_setToken (c : Crew) (z y : Nat) (t : Token) : tokenOf (setToken c z t) y = if y = z then t else tokenOf c y := mget_mput ..

theorem moveTo_tokens (ts : List Nat) (target : Nat → Word64) (c : Crew) : (moveTo ts target c).tokens = c.tokens :=
  (congrArg Crew.tokens (moveTo_spec ts target c).1 :)

theorem foldl_tokens {β : Type} (f : Crew → β → Crew) (h : ∀ c x, (f c x).tokens = c.tokens) (xs : List β) (c : Crew) : (xs.foldl f c).tokens = c.tokens := by
  induction xs generalizing c with
  | nil => rfl
  | cons x xs ih => exact (ih _).trans (h c x)

theorem passToken_of_none {z : Nat} (h : c.tacqWait.find? (·.1 == z) = none) : passToken c z = setToken c z .nobody := by
  unfold passToken
  rw [h]

/-- A token given up goes to the home gang of the oldest waiter. -/
theorem tokenOf_passToken_of_some {z : Nat} {x : Nat × Nat} (h : c.tacqWait.find? (·.1 == z) = some x) : tokenOf (passToken c z) z = .gang x.2 := by
  obtain ⟨y, g⟩ := x
  have htokens : (passToken c z).tokens = (setToken c z (.gang g)).tokens := by
    unfold passToken
    rw [h]
    exact foldl_tokens _ (fun c pc => moveTo_tokens _ _ c) _ _
  rw [tokenOf, htokens]
  exact (tokenOf_setToken c z z (.gang g)).trans (if_pos rfl)

theorem not_holdsToken_of_nobody {z g : Nat} (h : tokenOf c z = .nobody) : holdsToken c z g = false := by
  unfold holdsToken
  rw [h]
  rfl

theorem act_isEmpty {g : Guard} (h : active c is g ≠ []) : (envOf s is c g).act.isEmpty = false := by simpa [envOf] using h

theorem exec_tacq (hi : Issues s is c) (hact : active c is a.guard ≠ []) : exec (.tacq a) s =
    let e := envOf s is c a.guard
    if holdsToken c (numOf a.a) (actingGang e) then .next (retire is (tookToken e s))
    else if tokenOf c (numOf a.a) == .nobody then .next (retire is (tookToken e (updCrew s is.crew fun w => setToken w (numOf a.a) (.gang (actingGang e)))))
    else .next { holdGang (updCrew s is.crew fun w => { w with tacqWait := w.tacqWait ++ [(numOf a.a, actingGang e)] }) is.crew is.tids (e.act.map (·.tid))
      (.tacq (numOf a.a) (actingGang e) c.counted) with issue := none } := by
  rw [show exec (.tacq a) s = execTacq a s from rfl, execTacq, gangDo_issues hi]
  simp only [act_isEmpty hact, Bool.false_eq_true, if_false]
  rfl

theorem exec_tacqTry (hi : Issues s is c) (hact : active c is a.guard ≠ []) : exec (.tacqTry a) s =
    let e := envOf s is c a.guard
    let s1 := if tokenOf c (numOf a.a) == .nobody then updCrew s is.crew fun w => setToken w (numOf a.a) (.gang (actingGang e)) else s
    .next (retire is (tookToken e (updCrew s1 is.crew fun w =>
      applyWrs w (e.act.map fun t => (t.tid, Wr.pred a.d (holdsToken c (numOf a.a) (actingGang e) || tokenOf c (numOf a.a) == .nobody)))))) := by
  rw [show exec (.tacqTry a) s = execTacqTry a s from rfl, execTacqTry, gangDo_issues hi]
  simp only [act_isEmpty hact, Bool.not_false, Bool.true_and]
  rfl

theorem exec_trel (hi : Issues s is c) (hact : active c is a.guard ≠ []) : exec (.trel a) s =
    let e := envOf s is c a.guard
    if tokenOf c (numOf a.a) != .gang (actingGang e) then tokenTrap e (numOf a.a) 2
    else withRelease 0 e fun e => .next (retire e.is (tookToken e (updCrew e.s e.is.crew fun w => passToken w (numOf a.a)))) := by
  rw [show exec (.trel a) s = execTrel a s from rfl, execTrel, gangDo_issues hi]
  simp only [act_isEmpty hact, Bool.false_eq_true, if_false]
  rfl

/-- A TOKEN names the active threads and stops their gang at the word (R253). -/
theorem tokenTrap_raises (e : Env) (z cause : Nat) :
    ∃ f : TrapInfo, f.code = 0x0E ∧ f.tids = e.act.map (·.tid) ∧ tokenTrap e z cause = .next (raise e.s e.is.crew e.is.pc e.is.tids f) := by
  unfold tokenTrap
  split
  exact ⟨_, rfl, rfl, rfl⟩

/-- Settles O40: each operation by whose the token is. -/
theorem tokensPass : Obligations.TokensPass := by
  unfold Obligations.TokensPass
  refine ⟨fun s is c a hi hact => ?_, fun c z => ⟨passToken_of_none, fun x => tokenOf_passToken_of_some⟩, tokenOf_setToken⟩
  intro e z g tids given waits D
  refine ⟨fun hmine => ?_, fun hfree => ?_, fun hnot hheld => ?_, fun hmine hout => ?_, fun hnot => ?_⟩
  · have hbusy : (tokenOf c z == .nobody) = false := beq_eq_false_iff_ne.2 fun h => by simp [not_holdsToken_of_nobody h] at hmine
    rw [exec_tacq hi hact, exec_tacqTry hi hact]
    exact ⟨if_pos hmine, by dsimp only; rw [hmine, hbusy]; rfl⟩
  · have hnone : holdsToken c z g = false := not_holdsToken_of_nobody hfree
    rw [exec_tacq hi hact, exec_tacqTry hi hact]
    dsimp only
    rw [hnone, hfree]
    exact ⟨rfl, rfl⟩
  · have hbusy : (tokenOf c z == .nobody) = false := beq_eq_false_iff_ne.2 hheld
    rw [exec_tacq hi hact, exec_tacqTry hi hact]
    dsimp only
    rw [hnot, hbusy]
    exact ⟨rfl, rfl⟩
  · rw [exec_trel hi hact]
    dsimp only
    rw [if_neg (by simp only [bne_iff_ne, ne_eq, not_not]; exact hmine), withRelease_of_noStoresOut hout]
    rfl
  · rw [exec_trel hi hact]
    dsimp only
    rw [if_pos (by simpa using hnot)]
    exact tokenTrap_raises e z 2

end Sys2Proof.Machine
end

section
/-! PROOFS. Releases that wait, and fences. -/

namespace Sys2Proof.Machine

variable {s : State} {is : Issue} {c : Crew} {a : Args}

/-- The active threads of a gang that a release at a scope must wait for. -/
def lateThreads (s : State) (is : Issue) (c : Crew) (g : Guard) (scope : Nat) : List Nat :=
  ((active c is g).map (·.tid)).filter (owesStores s scope is.crew)

/-- The state after a release that must wait: the late threads are held, and the gang is to issue the word again as formed (R68). -/
def releaseHeld (s : State) (is : Issue) (late : List Nat) (scope : Nat) : State :=
  { holdGang s is.crew is.tids late (.release scope late) with issue := none }

theorem withRelease_of_late {g : Guard} {scope : Nat} (h : lateThreads s is c g scope ≠ []) (k : Env → Out) :
    withRelease scope (envOf s is c g) k = .next (releaseHeld s is (lateThreads s is c g scope) scope) :=
  releaseGate_of_late h _

theorem active_ne_nil_of_late {g : Guard} {scope : Nat} (h : lateThreads s is c g scope ≠ []) : active c is g ≠ [] := by
  rintro hnil
  simp [lateThreads, hnil] at h

theorem exec_barSync_of_late (hi : Issues s is c) (h : lateThreads s is c a.guard 0 ≠ []) :
    exec (.barSync a) s = .next (releaseHeld s is (lateThreads s is c a.guard 0) 0) := by
  rw [show exec (.barSync a) s = execBarSync a s from rfl, execBarSync, gangDo_issues hi, act_isEmpty (active_ne_nil_of_late h), if_neg Bool.false_ne_true,
    withRelease_of_late h]

theorem exec_barArrive_of_late (hi : Issues s is c) (h : lateThreads s is c a.guard 0 ≠ []) :
    exec (.barArrive a) s = .next (releaseHeld s is (lateThreads s is c a.guard 0) 0) := by
  rw [show exec (.barArrive a) s = execBarArrive a s from rfl, execBarArrive, gangDo_issues hi, withRelease_of_late h]

theorem exec_exit_of_late (hi : Issues s is c) (h : lateThreads s is c a.guard 3 ≠ []) :
    exec (.exit a) s = .next (releaseHeld s is (lateThreads s is c a.guard 3) 3) := by
  rw [show exec (.exit a) s = execExit a s from rfl, execExit, gangDo_issues hi, act_isEmpty (active_ne_nil_of_late h), if_neg Bool.false_ne_true,
    withRelease_of_late h]

/-! ### Which stores are waited for -/

theorem mem_lateThreads {g : Guard} {scope i : Nat} :
    i ∈ lateThreads s is c g scope ↔ (∃ t ∈ active c is g, t.tid = i) ∧ owesStores s scope is.crew i = true := by
  simp [lateThreads, List.mem_filter]

theorem owesStores_of_store {p : PendingStore} (hp : p ∈ s.stores) {scope : Nat} (hh : p.holds s scope = true) : owesStores s scope p.crew p.tid = true := by
  have hany : (s.stores.any fun q => q.crew == p.crew && q.tid == p.tid && q.holds s scope) = true := List.any_eq_true.2 ⟨p, hp, by simp [hh]⟩
  simp [owesStores, hany]

/-- At crew scope a store is waited for while its own core has yet to accept it. -/
theorem holds_crew_iff {p : PendingStore} : p.holds s 0 = true ↔ p.performed = false ∧ ∃ w ∈ p.bytes, keyCore s w.1 = some p.core := by
  simp [PendingStore.holds]

theorem owesStores_crew_iff {uid tid : Nat} :
    owesStores s 0 uid tid = true ↔ ∃ p ∈ s.stores, p.crew = uid ∧ p.tid = tid ∧ p.performed = false ∧ ∃ w ∈ p.bytes, keyCore s w.1 = some p.core := by
  simp only [owesStores, bne_self_eq_false, Bool.false_and, Bool.or_false, List.any_eq_true, Bool.and_eq_true, beq_iff_eq, holds_crew_iff, and_assoc]

/-! ### `fence` (R223) -/

/-- A bit of a field is a bit of the word. -/
theorem bitAt_bitsOf {x hi lo n : Nat} (h : n < hi + 1 - lo) : bitAt (bitsOf x hi lo) n = bitAt x (lo + n) := by
  simp [bitAt, bitsOf, Nat.testBit_mod_two_pow, h, Nat.testBit_shiftRight]

theorem atomMods_releases (a : Args) : (atomMods a).releases = bitAt a.m.toNat 3 := bitAt_bitsOf (by decide)

theorem atomMods_acquires (a : Args) : (atomMods a).acquires = bitAt a.m.toNat 2 := bitAt_bitsOf (by decide)

/-- What a fence does once its release is made: the acquire, where it has one, and the end of its active threads' regions. -/
def fenceEnd (a : Args) (e : Env) : Out :=
  let s1 := if (atomMods a).acquires && !e.act.isEmpty then acquire e.s e.is.crew (atomMods a).scope else e.s
  .next (retire e.is (syncActive s1 e.is.crew (e.act.map (·.tid))))

theorem exec_fence (hi : Issues s is c) : exec (.fence a) s =
    if (atomMods a).releases then withRelease (atomMods a).scope (envOf s is c a.guard) (fenceEnd a) else fenceEnd a (envOf s is c a.guard) := by
  rw [show exec (.fence a) s = execFence a s from rfl, execFence, gangDo_issues hi]
  rfl

theorem exec_fence_of_late (hi : Issues s is c) (hrel : bitAt a.m.toNat 3 = true) (h : lateThreads s is c a.guard (atomMods a).scope ≠ []) :
    exec (.fence a) s = .next (releaseHeld s is (lateThreads s is c a.guard (atomMods a).scope) (atomMods a).scope) := by
  rw [exec_fence hi, if_pos (by rw [atomMods_releases, hrel]), withRelease_of_late h]

/-- A fence whose release has nothing to wait for goes on. -/
theorem exec_fence_of_noStoresOut (hi : Issues s is c) (h : bitAt a.m.toNat 3 = true → NoStoresOut s is c a.guard) :
    exec (.fence a) s = fenceEnd a (envOf s is c a.guard) := by
  rw [exec_fence hi]
  split
  next hrel => exact withRelease_of_noStoresOut (h (by rw [← atomMods_releases, hrel])) _ _
  next => rfl

/-- An acquire on a core drops lines alone: at span scope or wider, those of its L1 without registration (R207). -/
theorem acquireOn_spec (s : State) (core scope : Nat) :
    acquireOn s core scope = { s with lines := (acquireOn s core scope).lines } ∧ (∀ l ∈ (acquireOn s core scope).lines, l ∈ s.lines) ∧
    (scope ≠ 0 → ∀ l ∈ (acquireOn s core scope).lines, l.kind = .l1 core → registered s core (l.sector / 4) = true) := by
  unfold acquireOn
  split
  next h => exact ⟨rfl, fun _ => id, fun hne => absurd h hne⟩
  next h =>
    refine ⟨rfl, fun l hl => List.mem_of_mem_filter hl, fun _ l hl hk => ?_⟩
    have hkept := (List.mem_filter.1 hl).2
    simpa [hk] using hkept

/-- What a fence that goes on changes: lines are dropped, and its active threads' regions end. -/
theorem fenceEnd_spec (hi : Issues s is c) : ∃ s1 : State,
    fenceEnd a (envOf s is c a.guard) = .next (retire is (syncActive s1 is.crew ((active c is a.guard).map (·.tid)))) ∧
    s1 = { s with lines := s1.lines } ∧ (∀ l ∈ s1.lines, l ∈ s.lines) ∧
    (active c is a.guard ≠ [] → bitAt a.m.toNat 2 = true → (atomMods a).scope ≠ 0 →
      ∀ l ∈ s1.lines, l.kind = .l1 c.coreId → registered s c.coreId (l.sector / 4) = true) := by
  by_cases hacq : ((atomMods a).acquires && !(envOf s is c a.guard).act.isEmpty) = true
  · have hacquire : acquire s is.crew (atomMods a).scope = acquireOn s c.coreId (atomMods a).scope := by simp [acquire, hi.crew]
    obtain ⟨hlines, hkept, hreg⟩ := acquireOn_spec s c.coreId (atomMods a).scope
    refine ⟨acquireOn s c.coreId (atomMods a).scope, ?_, hlines, hkept, fun _ _ => hreg⟩
    rw [← hacquire, fenceEnd, if_pos hacq]
    rfl
  · refine ⟨s, ?_, rfl, fun _ => id, fun hact h2 _ => absurd ?_ hacq⟩
    · rw [fenceEnd, if_neg hacq]
      rfl
    · rw [atomMods_acquires, h2, act_isEmpty hact]
      rfl

/-! ### `xfence` (R218, R224) -/

/-- What an `xfence` drops of the caches of P2. -/
def xfenceDrop (s : State) (c : Crew) (a : Args) : State :=
  dropPath s c (bitsOf a.m.toNat 4 2) (bitsOf a.m.toNat 1 0) (fenceStacks a c.die (bitsOf a.m.toNat 1 0))

/-- What an `xfence` does once its threads' requests are complete. -/
def xfenceEnd (a : Args) (e : Env) : Out :=
  if e.act.isEmpty then .next (retire e.is e.s) else .next (retire e.is (xfenceDrop e.s e.c a))

theorem exec_xfence (hi : Issues s is c) : exec (.xfence a) s =
    let e := envOf s is c a.guard
    if bitsOf a.m.toNat 7 5 = 0 then withRelease (bitsOf a.m.toNat 1 0) e fun e => xfenceEnd a { e with s := passStores e.s 3 e.is.crew (e.act.map (·.tid)) }
    else if e.act.any fun t => pathBusy s is.crew t.tid (bitsOf a.m.toNat 7 5) then .next { holdGang s is.crew is.tids [] .none with issue := none }
    else xfenceEnd a e := by
  rw [show exec (.xfence a) s = execXfence a s from rfl, execXfence, gangDo_issues hi]
  rfl

theorem exec_xfence_of_noStoresOut (hi : Issues s is c) (hp : bitsOf a.m.toNat 7 5 = 0) (hout : NoStoresOut s is c a.guard) :
    exec (.xfence a) s = xfenceEnd a (envOf s is c a.guard) := by
  rw [exec_xfence hi]
  dsimp only
  rw [if_pos hp, withRelease_of_noStoresOut hout]
  exact congrArg (fun w => xfenceEnd a { envOf s is c a.guard with s := w }) (passStores_of_noStoresOut hout 3)

theorem exec_xfence_of_idle (hi : Issues s is c) (hp : bitsOf a.m.toNat 7 5 ≠ 0)
    (hidle : ∀ t ∈ active c is a.guard, pathBusy s is.crew t.tid (bitsOf a.m.toNat 7 5) = false) :
    exec (.xfence a) s = xfenceEnd a (envOf s is c a.guard) := by
  have hany : ((envOf s is c a.guard).act.any fun t => pathBusy s is.crew t.tid (bitsOf a.m.toNat 7 5)) = false :=
    List.any_eq_false.2 fun t ht => by simpa using hidle t ht
  rw [exec_xfence hi]
  dsimp only
  rw [if_neg hp, hany, if_neg Bool.false_ne_true]

theorem exec_xfence_of_busy (hi : Issues s is c) (hp : bitsOf a.m.toNat 7 5 ≠ 0)
    (hbusy : ∃ t ∈ active c is a.guard, pathBusy s is.crew t.tid (bitsOf a.m.toNat 7 5) = true) :
    exec (.xfence a) s = .next { holdGang s is.crew is.tids [] .none with issue := none } := by
  have hany : ((envOf s is c a.guard).act.any fun t => pathBusy s is.crew t.tid (bitsOf a.m.toNat 7 5)) = true := List.any_eq_true.2 hbusy
  rw [exec_xfence hi]
  dsimp only
  rw [if_neg hp, if_pos hany]

theorem xfenceEnd_of_active (hact : active c is a.guard ≠ []) : xfenceEnd a (envOf s is c a.guard) = .next (retire is (xfenceDrop s c a)) :=
  if_neg (by simpa [envOf] using hact)

theorem xfenceEnd_of_none (hact : active c is a.guard = []) : xfenceEnd a (envOf s is c a.guard) = .next (retire is s) :=
  if_pos (by simpa [envOf] using hact)

theorem homeStack_lt (k : Nat) : homeStack k < 16 := bitsOf_lt ..

/-- At device scope and without a mask an `xfence` names every stack (R224). -/
theorem fenceStacks_device {die scope : Nat} (himm : a.imm = none) (hscope : 2 ≤ scope) : fenceStacks a die scope = List.range 16 := by
  simp [fenceStacks, himm, Nat.not_lt.2 hscope]

/-- What such an `xfence` leaves of the context's lines: none of a sampler and none of what samplers may still hold. -/
theorem dropPath_sampler {scope : Nat} {l : CacheLine} (hl : l ∈ (dropPath s c 3 scope (List.range 16)).lines) (hctx : l.ctx = c.ctx) :
    l.kind ≠ .past 3 ∧ ∀ j, j < 16 → l.kind ≠ .sampler j := by
  have hkept := (List.mem_filter.1 hl).2
  simp only [hctx, beq_self_eq_true, Bool.true_and, Bool.not_eq_true', Bool.or_eq_false_iff] at hkept
  obtain ⟨hsampler, hpast⟩ := hkept
  refine ⟨fun hk => ?_, fun j hj hk => ?_⟩
  · have hstack : homeStack (16 * l.sector) ∈ List.range 16 := List.mem_range.2 (homeStack_lt _)
    simp [hk, hstack] at hpast
  · have hother : ∀ k, k < 16 → j ≠ k := by simpa [hk] using hsampler
    exact hother j hj rfl

/-- The same of the nodes of the ray pipes. -/
theorem dropPath_node {scope : Nat} {l : CacheLine} (hl : l ∈ (dropPath s c 4 scope (List.range 16)).lines) (hctx : l.ctx = c.ctx) :
    l.kind ≠ .past 4 ∧ ∀ j, j < 16 → l.kind ≠ .node j := by
  have hkept := (List.mem_filter.1 hl).2
  simp only [hctx, beq_self_eq_true, Bool.true_and, Bool.not_eq_true', Bool.or_eq_false_iff] at hkept
  obtain ⟨hnode, hpast⟩ := hkept
  refine ⟨fun hk => by simp [hk] at hpast, fun j hj hk => ?_⟩
  have hother : ∀ k, k < 16 → j ≠ k := by simpa [hk] using hnode
  exact hother j hj rfl

/-- Settles O23: a release by whether a thread has something to wait for, `xfence` by its first path. -/
theorem releasesAndFences : Obligations.ReleasesAndFences := by
  unfold Obligations.ReleasesAndFences
  refine ⟨fun s is c a hi => ?_, fun s is c a hi => ?_⟩
  · intro late held
    refine ⟨fun h => ⟨exec_barSync_of_late hi h, exec_barArrive_of_late hi h⟩, exec_exit_of_late hi, exec_fence_of_late hi, ?_, ?_⟩
    · intro p hp t ht hcrew htid
      have howes : ∀ scope, p.holds s scope = true → t.tid ∈ late scope := fun scope hh =>
        mem_lateThreads.2 ⟨⟨t, ht, rfl⟩, by rw [← hcrew, ← htid]; exact owesStores_of_store hp hh⟩
      exact ⟨howes 3 rfl, fun hperf hcore => howes 0 (holds_crew_iff.2 ⟨hperf, hcore⟩)⟩
    · exact fun t ht => owesStores_crew_iff.1 (mem_lateThreads.1 ht).2
  · intro k act p1 dropped
    refine ⟨fun hout => ?_, ?_, ?_, ?_, exec_xfence_of_busy hi, ?_⟩
    · rw [exec_fence_of_noStoresOut hi hout]
      exact fenceEnd_spec hi
    · intro himm hscope l hl hctx
      rw [show dropped = dropPath s c _ _ (List.range 16) by rw [← fenceStacks_device himm hscope]] at hl
      exact ⟨fun h3 => dropPath_sampler (h3 ▸ hl) hctx, fun h4 => dropPath_node (h4 ▸ hl) hctx⟩
    · intro hact hp hout
      rw [exec_xfence_of_noStoresOut hi hp hout, xfenceEnd_of_active hact]
      rfl
    · intro hact hp hidle
      rw [exec_xfence_of_idle hi hp hidle, xfenceEnd_of_active hact]
      rfl
    · intro hact hout
      by_cases hp : p1 = 0
      · rw [exec_xfence_of_noStoresOut hi hp hout, xfenceEnd_of_none hact]
      · rw [exec_xfence_of_idle hi hp (by rw [show active c is a.guard = [] from hact]; simp), xfenceEnd_of_none hact]

end Sys2Proof.Machine
end

section
/-! PROOFS. The active threads of a gang, what their operands are bounded by, and numbers in memory. -/

namespace Sys2Proof.Machine

theorem mem_active {c : Crew} {is : Issue} {g : Guard} {t : Thread} (h : t ∈ active c is g) : t.tid ∈ is.tids ∧ c.thread t.tid = some t := by
  obtain ⟨i, hi, ht⟩ := List.mem_filterMap.1 (List.mem_filter.1 h).1
  obtain rfl := thread_tid ht
  exact ⟨hi, ht⟩

/-- A thread number names one active thread. -/
theorem active_ext {c : Crew} {is : Issue} {g : Guard} {t u : Thread} (ht : t ∈ active c is g) (hu : u ∈ active c is g) (h : t.tid = u.tid) : t = u :=
  Option.some.inj ((mem_active ht).2.symm.trans (h ▸ (mem_active hu).2))

theorem groupVal_lt (m : SMap Word) (k n : Nat) : groupVal m k n < 2 ^ (32 * n) := by
  induction n generalizing k with
  | zero => exact Nat.one_pos
  | succ n ih =>
    have hlow := (mget 0 m k).isLt
    have hhigh := ih (k + 1)
    rw [groupVal, show 32 * (n + 1) = 32 + 32 * n by omega, pow_add]
    nlinarith

theorem rd_lt (c : Crew) (t : Thread) (o : Opnd) (n : Nat) : rd c t o n < 2 ^ (32 * n) := by
  cases o with
  | v k => exact groupVal_lt ..
  | s k => exact groupVal_lt ..
  | sp x => exact Nat.mod_lt _ (by positivity)
  | none => exact Nat.two_pow_pos _

theorem memRead_congr {m m' : List Host.Cell} {k n : Nat} (h : ∀ j, k ≤ j → j < k + n → memByte m j = memByte m' j) : memRead m k n = memRead m' k n := by
  induction n generalizing k with
  | zero => rfl
  | succ n ih => rw [memRead, memRead, h k (Nat.le_refl k) (by omega), ih fun j hk hj => h j (by omega) (by omega)]

theorem memRead_lt (m : List Host.Cell) (k n : Nat) : memRead m k n < 2 ^ (8 * n) := by
  induction n generalizing k with
  | zero => exact Nat.one_pos
  | succ n ih =>
    have hlow := (memByte m k).isLt
    have hhigh := ih (k + 1)
    rw [memRead, show 8 * (n + 1) = 8 + 8 * n by omega, pow_add]
    nlinarith

theorem memRead_memWrite_outside (m : List Host.Cell) {k n v j l : Nat} (h : j + l ≤ k ∨ k + n ≤ j) : memRead (memWrite m k n v) j l = memRead m j l :=
  memRead_congr fun i _ _ => memByte_memWrite_outside m k n v i (by omega)

end Sys2Proof.Machine
end

section
/-! PROOFS. `wait`, and arrival words. -/

namespace Sys2Proof.Machine

/-! ### Arrival words as numbers in memory (R226) -/

/-- The fields of an arrival word are 32-bit numbers. -/
structure ArrWord.Fits (w : ArrWord) : Prop where
  target : w.target < 2 ^ 32
  count : w.count < 2 ^ 32
  gen : w.gen < 2 ^ 32
  flags : w.flags < 2 ^ 32

theorem readArr_fits (s : State) (k : Nat) : (readArr s k).Fits := ⟨memRead_lt .., memRead_lt .., memRead_lt .., memRead_lt ..⟩

theorem memByte_writeArr_outside (s : State) (w : ArrWord) {k j : Nat} (h : j < k ∨ k + 16 ≤ j) : memByte (writeArr s k w).mem j = memByte s.mem j := by
  rw [writeArr, memByte_memWrite_outside _ _ _ _ _ (by omega), memByte_memWrite_outside _ _ _ _ _ (by omega), memByte_memWrite_outside _ _ _ _ _ (by omega),
    memByte_memWrite_outside _ _ _ _ _ (by omega)]

theorem readArr_writeArr (s : State) (k : Nat) {w : ArrWord} (h : w.Fits) : readArr (writeArr s k w) k = w := by
  obtain ⟨ht, hc, hg, hf⟩ := h
  have htarget : memRead (writeArr s k w).mem k 4 = w.target := by
    rw [writeArr, memRead_memWrite_outside _ (by omega), memRead_memWrite_outside _ (by omega), memRead_memWrite_outside _ (by omega), memRead_memWrite, Nat.mod_eq_of_lt ht]
  have hcount : memRead (writeArr s k w).mem (k + 4) 4 = w.count := by
    rw [writeArr, memRead_memWrite_outside _ (by omega), memRead_memWrite_outside _ (by omega), memRead_memWrite, Nat.mod_eq_of_lt hc]
  have hgen : memRead (writeArr s k w).mem (k + 8) 4 = w.gen := by
    rw [writeArr, memRead_memWrite_outside _ (by omega), memRead_memWrite, Nat.mod_eq_of_lt hg]
  have hflags : memRead (writeArr s k w).mem (k + 12) 4 = w.flags := by
    rw [writeArr, memRead_memWrite, Nat.mod_eq_of_lt hf]
  rw [readArr, htarget, hcount, hgen, hflags]

/-! ### Completion (R227) -/

theorem completeArr_of_short {w : ArrWord} (h : w.target = 0 ∨ w.count < w.target) : completeArr w = w := if_neg (by omega)

/-- The flags that a completed generation leaves: KEEP as it was, EXCESS, and WAITED cleared. -/
theorem testBit_completeFlags (keep excess : Bool) :
    (keep.toNat + 2 * excess.toNat).testBit 0 = keep ∧ (keep.toNat + 2 * excess.toNat).testBit 1 = excess ∧ (keep.toNat + 2 * excess.toNat).testBit 2 = false := by
  cases keep <;> cases excess <;> decide

theorem completeArr_of_full {w : ArrWord} (h0 : w.target ≠ 0) (h : w.target ≤ w.count) : completeArr w =
    { target := if bitAt w.flags 0 then w.target else 0, count := 0, gen := (w.gen + 1) % 2 ^ 32
      flags := (bitAt w.flags 0).toNat + 2 * (bitAt w.flags 1 || decide (w.target < w.count)).toNat } := if_pos ⟨h0, h⟩

theorem completeArr_fits {w : ArrWord} (h : w.Fits) : (completeArr w).Fits := by
  by_cases hfull : w.target ≠ 0 ∧ w.target ≤ w.count
  · rw [completeArr_of_full hfull.1 hfull.2]
    have hkeep := Bool.toNat_lt (bitAt w.flags 0)
    have hexcess := Bool.toNat_lt (bitAt w.flags 1 || decide (w.target < w.count))
    refine ⟨?_, Nat.two_pow_pos 32, Nat.mod_lt _ (Nat.two_pow_pos 32), by dsimp only; omega⟩
    dsimp only
    split
    · exact h.target
    · exact Nat.two_pow_pos 32
  · rw [completeArr_of_short (by omega)]
    exact h

/-! ### The state operations of the `arw` forms -/

/-- The machine but for memory, the stores on their way, cached lines and one crew is as it was. -/
def OnlyWordsAndCrew (s t : State) (uid : Nat) : Prop :=
  (∃ mem stores nextId lines crews, t = { s with mem := mem, stores := stores, nextId := nextId, lines := lines, crews := crews }) ∧
    ∀ u, u ≠ uid → getCrew t u = getCrew s u

theorem OnlyWordsAndCrew.trans {s t u : State} {uid : Nat} (h : OnlyWordsAndCrew s t uid) (k : OnlyWordsAndCrew t u uid) : OnlyWordsAndCrew s u uid := by
  obtain ⟨⟨m, st, n, l, cs, rfl⟩, hc⟩ := h
  obtain ⟨⟨m', st', n', l', cs', rfl⟩, kc⟩ := k
  exact ⟨⟨m', st', n', l', cs', rfl⟩, fun v hv => (kc v hv).trans (hc v hv)⟩

theorem onlyWords_updCrew (s : State) (uid : Nat) {f : Crew → Crew} (hf : ∀ c, (f c).uid = c.uid) : OnlyWordsAndCrew s (updCrew s uid f) uid :=
  ⟨⟨s.mem, s.stores, s.nextId, s.lines, _, rfl⟩, fun _ hu => getCrew_updCrew_ne f hf hu⟩

theorem onlyWords_writeArr (s : State) (k : Nat) (w : ArrWord) (uid : Nat) : OnlyWordsAndCrew s (writeArr s k w) uid :=
  ⟨⟨_, s.stores, s.nextId, s.lines, s.crews, rfl⟩, fun _ _ => rfl⟩

theorem onlyWords_issueAck (s : State) (c : Crew) (t : Thread) : OnlyWordsAndCrew s (issueAck s c t) c.uid :=
  (onlyWords_updCrew s c.uid (f := fun d => d.upd t.tid fun t => { t with cnt := { t.cnt with stores := t.cnt.stores + 1 } }) fun _ => rfl).trans
    ⟨⟨s.mem, _, _, s.lines, _, rfl⟩, fun _ _ => rfl⟩

theorem wr_uid (c : Crew) (tid : Nat) (o : Opnd) (n v : Nat) : (wr c tid o n v).uid = c.uid := by cases o <;> rfl

/-- A D that is not absent is written as any register is. -/
theorem arrDst_eq (a : Args) (s : State) (uid tid v : Nat) :
    (a.d = .none ∧ arrDst a s uid tid v = s) ∨ (a.d ≠ .none ∧ arrDst a s uid tid v = updCrew s uid fun c => wr c tid a.d 1 v) := by
  unfold arrDst
  split
  next h => exact .inl ⟨h, rfl⟩
  next h => exact .inr ⟨h, rfl⟩

@[simp] theorem arrDst_mem_eq (a : Args) (s : State) (uid tid v : Nat) : (arrDst a s uid tid v).mem = s.mem := by
  rcases arrDst_eq a s uid tid v with ⟨-, h⟩ | ⟨-, h⟩ <;> rw [h]
  rfl

@[simp] theorem arrDst_stores (a : Args) (s : State) (uid tid v : Nat) : (arrDst a s uid tid v).stores = s.stores := by
  rcases arrDst_eq a s uid tid v with ⟨-, h⟩ | ⟨-, h⟩ <;> rw [h]
  rfl

theorem onlyWords_refl (s : State) (uid : Nat) : OnlyWordsAndCrew s s uid := ⟨⟨_, _, _, _, _, rfl⟩, fun _ _ => rfl⟩

theorem onlyWords_arrDst (a : Args) (s : State) (uid tid v : Nat) : OnlyWordsAndCrew s (arrDst a s uid tid v) uid := by
  rcases arrDst_eq a s uid tid v with ⟨-, h⟩ | ⟨-, h⟩ <;> rw [h]
  · exact onlyWords_refl s uid
  · exact onlyWords_updCrew s uid fun c => wr_uid c tid a.d 1 v

theorem onlyWords_syncActive (s : State) (uid : Nat) (tids : List Nat) : OnlyWordsAndCrew s (syncActive s uid tids) uid := onlyWords_updCrew s uid fun _ => rfl

/-- An acquire changes cached lines alone. -/
theorem acquire_eq (s : State) (uid scope : Nat) : ∃ lines, acquire s uid scope = { s with lines := lines } := by
  unfold acquire
  split
  · exact ⟨_, (acquireOn_spec s _ scope).1⟩
  · exact ⟨s.lines, rfl⟩

theorem onlyWords_acquire (s : State) (uid scope : Nat) : OnlyWordsAndCrew s (acquire s uid scope) uid := by
  obtain ⟨lines, h⟩ := acquire_eq s uid scope
  exact h ▸ ⟨⟨s.mem, s.stores, s.nextId, lines, s.crews, rfl⟩, fun _ _ => rfl⟩

/-- Where only words and one crew changed, the statement's frame holds. -/
theorem onlyCrew_of_onlyWords {s t : State} {uid : Nat} (h : OnlyWordsAndCrew s t uid) :
    OnlyCrew { s with mem := t.mem, stores := t.stores, nextId := t.nextId } { t with lines := s.lines } uid := by
  obtain ⟨⟨m, st, n, l, cs, rfl⟩, hc⟩ := h
  exact ⟨rfl, hc⟩

/-- The crew's D holds a value for a thread: absent, or a v register with the value (R227). -/
def DstHolds (s : State) (uid tid : Nat) (d : Opnd) (v : Nat) : Prop :=
  ∃ c1, getCrew s uid = some c1 ∧ (d = .none ∨ ∃ t1, c1.thread tid = some t1 ∧ ∀ r : Fin 192, d = .v r → mget 0 t1.v r = BitVec.ofNat 32 v)

/-- A written D of a thread reads back. -/
theorem thread_wr_dst {c : Crew} {t : Thread} {tid : Nat} (ht : c.thread tid = some t) (d : Opnd) (v : Nat) :
    ∃ t1, (wr c tid d 1 v).thread tid = some t1 ∧ ∀ r : Fin 192, d = .v r → mget 0 t1.v r = BitVec.ofNat 32 v := by
  cases d with
  | v k =>
    refine ⟨{ t with v := groupPut t.v k v 1 }, ?_, fun r hr => ?_⟩
    · simp [thread_wr_v, ht, thread_tid ht]
    · obtain rfl := Opnd.v.inj hr
      rw [mget_groupPut, if_pos ⟨Nat.le_refl _, Nat.lt_succ_self _⟩, Nat.sub_self, Nat.mul_zero, pow_zero, Nat.div_one]
  | s k => exact ⟨t, ht, nofun⟩
  | sp x => exact ⟨t, ht, nofun⟩
  | none => exact ⟨t, ht, nofun⟩

theorem dstHolds_arrDst {s : State} {uid tid : Nat} {c : Crew} {t : Thread} (hc : getCrew s uid = some c) (ht : c.thread tid = some t) (a : Args) (v : Nat) :
    DstHolds (arrDst a s uid tid v) uid tid a.d v := by
  rcases arrDst_eq a s uid tid v with ⟨hd, h⟩ | ⟨-, h⟩ <;> rw [h]
  · exact ⟨c, hc, .inl hd⟩
  · exact ⟨_, getCrew_updCrew_same (fun c => wr_uid c tid a.d 1 v) hc, .inr (thread_wr_dst ht a.d v)⟩

theorem dstHolds_syncActive {s : State} {uid tid v : Nat} {d : Opnd} (h : DstHolds s uid tid d v) (tids : List Nat) : DstHolds (syncActive s uid tids) uid tid d v := by
  obtain ⟨c1, hc, hd⟩ := h
  refine ⟨_, getCrew_updCrew_same (fun _ => rfl) hc, hd.imp_right ?_⟩
  rintro ⟨t1, ht, hv⟩
  refine ⟨if tids.contains t1.tid then { t1 with region := t1.region + 1 } else t1, ?_, ?_⟩
  · rw [thread_mapT _ _ _ (by intro t; split <;> rfl), ht]
    rfl
  · intro r hr
    split <;> exact hv r hr

theorem dstHolds_acquire {s : State} {uid tid v : Nat} {d : Opnd} (h : DstHolds s uid tid d v) (scope : Nat) : DstHolds (acquire s uid scope) uid tid d v := by
  obtain ⟨lines, hl⟩ := acquire_eq s uid scope
  exact hl ▸ h

/-- The crew and the thread of a counted request. -/
theorem getCrew_issueAck {s : State} {c d : Crew} {t u : Thread} {i : Nat} (hc : getCrew s c.uid = some d) (hu : d.thread i = some u) :
    ∃ d' u', getCrew (issueAck s c t) c.uid = some d' ∧ d'.thread i = some u' := by
  refine ⟨_, if u.tid = t.tid then { u with cnt := { u.cnt with stores := u.cnt.stores + 1 } } else u,
    getCrew_updCrew_same (f := fun d => d.upd t.tid fun t => { t with cnt := { t.cnt with stores := t.cnt.stores + 1 } }) (fun _ => rfl) hc, ?_⟩
  rw [thread_upd d t.tid i _ (by intro _; rfl), hu]
  rfl

@[simp] theorem issueAck_mem_eq (s : State) (c : Crew) (t : Thread) : (issueAck s c t).mem = s.mem := rfl

theorem issueAck_stores_length (s : State) (c : Crew) (t : Thread) : (issueAck s c t).stores.length = s.stores.length + 1 := by
  simp [issueAck, countUp]

end Sys2Proof.Machine
end

section
/-! PROOFS. `wait` and the `arw` forms. -/

namespace Sys2Proof.Machine

variable {s : State} {is : Issue} {c : Crew} {a : Args}

/-! ### `wait` (R225) -/

/-- A counter is within a limit where it is no greater or the limit stands for none. -/
theorem withinLimit_iff {n lim all : Nat} : (lim == all || decide (n ≤ lim)) = true ↔ lim = all ∨ n ≤ lim := by simp

theorem waitMet_iff {i : Nat} {t : Thread} : waitMet i t = true ↔
    (bitsOf i 26 21 = 63 ∨ t.cnt.loads ≤ bitsOf i 26 21) ∧ (bitsOf i 20 15 = 63 ∨ t.cnt.stores ≤ bitsOf i 20 15) ∧
      (bitsOf i 14 9 = 63 ∨ t.cnt.copies ≤ bitsOf i 14 9) ∧ (bitsOf i 8 4 = 31 ∨ t.cnt.tiles ≤ bitsOf i 8 4) ∧ (bitsOf i 3 0 = 15 ∨ t.cnt.rays ≤ bitsOf i 3 0) := by
  simp only [waitMet, Bool.and_eq_true, withinLimit_iff, and_assoc]

/-- The active threads of a `wait` that are above a limit. -/
def overLimit (c : Crew) (is : Issue) (a : Args) : List Nat := ((active c is a.guard).filter fun t => !waitMet (Args.immN a) t).map (·.tid)

theorem exec_wait (hi : Issues s is c) : exec (.wait a) s =
    if (overLimit c is a).isEmpty then .next (retire is s)
    else .next { holdGang s is.crew is.tids (overLimit c is a) (.wait (Args.immN a) c.counted) with issue := none } := by
  rw [show exec (.wait a) s = execWait a s from rfl, execWait, gangDo_issues hi]
  rfl

theorem overLimit_isEmpty_iff : (overLimit c is a).isEmpty = true ↔ ∀ t ∈ active c is a.guard, waitMet (Args.immN a) t = true := by
  simp [overLimit, List.filter_eq_nil_iff]

/-- Of the active threads exactly those above a limit are held. -/
theorem mem_overLimit {t : Thread} (ht : t ∈ active c is a.guard) : t.tid ∈ overLimit c is a ↔ waitMet (Args.immN a) t = false := by
  simp only [overLimit, List.mem_map, List.mem_filter, Bool.not_eq_true']
  refine ⟨?_, fun h => ⟨t, ⟨ht, h⟩, rfl⟩⟩
  rintro ⟨u, ⟨hu, hover⟩, hid⟩
  exact active_ext hu ht hid ▸ hover

/-- A thread of the gang that is kept at its word. -/
theorem thread_holdGang {gang who : List Nat} {h : Hold} {t : Thread} (hi : Issues s is c) (ht : c.thread t.tid = some t) :
    ∃ c', getCrew { holdGang s is.crew gang who h with issue := none } is.crew = some c' ∧
      c'.thread t.tid = some (let t1 := if who.contains t.tid then { t with hold := h } else t; if gang.contains t.tid then { t1 with gang := gang } else t1) := by
  refine ⟨_, getCrew_updCrew_same (fun _ => rfl) hi.crew, ?_⟩
  rw [thread_mapT _ _ _ ?_, ht]
  · rfl
  · intro t
    dsimp only
    split <;> split <;> rfl

theorem onlyCrew_holdGang (s : State) (uid : Nat) (gang who : List Nat) (h : Hold) : OnlyCrew s { holdGang s uid gang who h with issue := none } uid :=
  ⟨rfl, fun _ hu => getCrew_updCrew_ne _ (fun _ => rfl) hu⟩

/-- What a `wait` with a thread above a limit does: that thread is held, and every active one is to issue the word again with its gang. -/
theorem exec_wait_holds (hi : Issues s is c) (h : ¬ ∀ t ∈ active c is a.guard, waitMet (Args.immN a) t = true) :
    ∃ (u : State) (c' : Crew), exec (.wait a) s = .next u ∧ u.issue = none ∧ OnlyCrew s u is.crew ∧ getCrew u is.crew = some c' ∧
      ∀ t ∈ active c is a.guard, ∃ t' : Thread, c'.thread t.tid = some t' ∧
        (waitMet (Args.immN a) t = false → t' = { t with hold := .wait (Args.immN a) c.counted, gang := is.tids }) ∧
        (waitMet (Args.immN a) t = true → t' = { t with gang := is.tids }) := by
  rw [exec_wait hi, if_neg (overLimit_isEmpty_iff.not.2 h)]
  obtain ⟨c', hc'⟩ : ∃ c', getCrew { holdGang s is.crew is.tids (overLimit c is a) (.wait (Args.immN a) c.counted) with issue := none } is.crew = some c' :=
    ⟨_, getCrew_updCrew_same (fun _ => rfl) hi.crew⟩
  refine ⟨_, c', rfl, rfl, onlyCrew_holdGang .., hc', fun t ht => ?_⟩
  obtain ⟨htid, hthread⟩ := mem_active ht
  obtain ⟨d, hd, hdt⟩ := thread_holdGang (gang := is.tids) (who := overLimit c is a) (h := .wait (Args.immN a) c.counted) hi hthread
  obtain rfl : c' = d := Option.some.inj (hc'.symm.trans hd)
  have hgang : is.tids.contains t.tid = true := List.contains_iff_mem.2 htid
  refine ⟨_, hdt, fun hover => ?_, fun hmet => ?_⟩
  · have hwho : (overLimit c is a).contains t.tid = true := List.contains_iff_mem.2 ((mem_overLimit ht).2 hover)
    simp only [hwho, hgang, if_true]
  · have hwho : (overLimit c is a).contains t.tid = false := by
      rw [Bool.eq_false_iff, Ne, List.contains_iff_mem, mem_overLimit ht, hmet]
      exact Bool.noConfusion
    simp only [hwho, hgang, if_true, Bool.false_eq_true, if_false]

/-! ### The lanes of an `arw` -/

/-- The address of a lane's word. -/
def arrAddr (c : Crew) (a : Args) (t : Thread) : Word64 := addr64 ((rd c t a.a 2 : Nat) + Args.xs a)

/-- The active threads' words are well formed and free of a repartition, and no store is out. -/
structure WordsReady (s : State) (is : Issue) (c : Crew) (a : Args) (key : Thread → Nat) : Prop where
  out : NoStoresOut s is c a.guard
  key : ∀ t ∈ active c is a.guard, arrKey s c (arrAddr c a t) = .ok (key t)
  slice : ∀ t ∈ active c is a.guard, arrSlice s c (arrAddr c a t) = none

/-- The lane of an active thread whose word has a key. -/
def arrLane (c : Crew) (a : Args) (t : Thread) (k : Nat) : ArrLane := { t := t, ea := arrAddr c a t, key := k }

/-- The lanes whose words are ready. -/
def arrLanesOf (c : Crew) (is : Issue) (a : Args) (key : Thread → Nat) : List ArrLane :=
  (active c is a.guard).map fun t => arrLane c a t (key t)

theorem standBefore_of_none {sel : PendingStore → Bool} {ps : List PendingStore} (h : ∀ p ∈ ps, sel p = false) (ks : List (Nat × Byte)) :
    standBefore sel ks ps = ([], ks) := by
  induction ps with
  | nil => rfl
  | cons p ps ih =>
    rw [standBefore, ih fun q hq => h q (List.mem_cons_of_mem _ hq), h p (List.mem_cons_self ..)]
    rfl

/-- With no store out nothing stands before an active thread's accesses. -/
theorem drainStores_of_noStoresOut {g : Guard} (h : NoStoresOut s is c g) {i : Nat} (hid : i ∈ (active c is g).map (·.tid)) (ks : List (Nat × Byte)) :
    drainStores s is.crew i ks = s := by
  obtain ⟨hstores, -⟩ := h
  obtain ⟨t, ht, rfl⟩ := mem_active_tids.1 hid
  have hnone : ∀ p ∈ s.stores, p.before is.crew t.tid = false := by
    intro p hp
    by_cases hc : p.crew = is.crew
    · obtain ⟨hrel, hne⟩ := hstores p hp hc
      simp [PendingStore.before, hrel, hne t ht]
    · simp [PendingStore.before, hc]
  rw [drainStores, standBefore_of_none hnone]
  rfl

theorem settleArr_of_noStoresOut {g : Guard} (h : NoStoresOut s is c g) {ls : List (Nat × Nat)} (hls : ∀ l ∈ ls, l.1 ∈ (active c is g).map (·.tid)) :
    settleArr s is.crew ls = s := by
  induction ls with
  | nil => rfl
  | cons l ls ih =>
    rw [settleArr, List.foldl_cons, drainStores_of_noStoresOut h (hls l (List.mem_cons_self ..))]
    exact ih fun x hx => hls x (List.mem_cons_of_mem _ hx)

theorem arrKeys_tids {g : Guard} (ea : Thread → Word64) : ∀ l ∈ arrKeys (envOf s is c g) ea, l.1 ∈ (active c is g).map (·.tid) := by
  intro l hl
  obtain ⟨t, ht, hk⟩ := List.mem_filterMap.1 hl
  refine List.mem_map.2 ⟨t, ht, ?_⟩
  split at hk
  · cases hk
  · split at hk
    · exact congrArg Prod.fst (Option.some.inj hk)
    · cases hk

/-- Where every word is ready the lanes go on, in order, in the state as it stands. -/
theorem arrLanes_of_ready {key : Thread → Nat} (h : WordsReady s is c a key) (k : State → List ArrLane → Out) :
    arrLanes a (envOf s is c a.guard) k = k s (arrLanesOf c is a key) := by
  have hsettle : settleArr s is.crew (arrKeys { s := s, c := c, is := is, act := active c is a.guard } fun t => arrAddr c a t) = s :=
    settleArr_of_noStoresOut h.out (arrKeys_tids (g := a.guard) _)
  have hlanes : ((active c is a.guard).map fun t => (t, arrAddr c a t, arrKey s c (arrAddr c a t))) =
      (active c is a.guard).map fun t => (t, arrAddr c a t, .ok (key t)) := List.map_congr_left fun t ht => by rw [h.key t ht]
  have hheld : (active c is a.guard).filterMap (fun t => (arrSlice s c (arrAddr c a t)).map fun core => (t.tid, core)) = [] :=
    List.filterMap_eq_nil_iff.2 fun t ht => by rw [h.slice t ht]; rfl
  have hok : (active c is a.guard).filterMap (fun t => some ({ t := t, ea := arrAddr c a t, key := key t } : ArrLane)) = arrLanesOf c is a key :=
    congrFun List.filterMap_eq_map _
  simp only [arrAddr] at hsettle hlanes hheld hok
  simp only [arrLanes, envOf, hsettle, hlanes, List.filter_map, List.filterMap_map, Function.comp_def, List.filter_false, List.map_nil, List.isEmpty_nil, Bool.not_true,
    Bool.false_eq_true, if_false, hheld, hok]

/-! ### What a lane does to its word -/

/-- A lane of `arw.init`: the word is set, and a counted request is on its way. -/
def initLane (a : Args) (c : Crew) (s : State) (l : ArrLane) : State :=
  issueAck (writeArr s l.key { target := rd c l.t a.b 1, count := 0, gen := 0, flags := if rd c l.t a.b 1 ≠ 0 then 1 else 0 }) c l.t

/-- A lane of `arw.expect` or `arw.arrive`: the word is changed by B and judged complete or not, and D receives the generation before. -/
def judgeLane (f : ArrWord → Nat → ArrWord) (a : Args) (c : Crew) (s : State) (l : ArrLane) : State :=
  arrDst a (issueAck (writeArr s l.key (completeArr (f (readArr s l.key) (rd c l.t a.b 1)))) c l.t) c.uid l.t.tid (readArr s l.key).gen

/-- B added to TARGET (R227). -/
def addTarget (w : ArrWord) (b : Nat) : ArrWord := { w with target := (w.target + b) % 2 ^ 32 }

/-- B added to COUNT (R227). -/
def addCount (w : ArrWord) (b : Nat) : ArrWord := { w with count := (w.count + b) % 2 ^ 32 }

/-- A lane of `arw.wait` that goes on: D receives the generation. -/
def genLane (a : Args) (c : Crew) (s : State) (l : ArrLane) : State := arrDst a s c.uid l.t.tid (readArr s l.key).gen

/-- Whether a lane of `arw.wait` is held: its word's generation is B (R227). -/
def laneHeld (a : Args) (c : Crew) (s : State) (l : ArrLane) : Bool := (readArr s l.key).gen == rd c l.t a.b 1

theorem addTarget_fits {w : ArrWord} (h : w.Fits) (b : Nat) : (addTarget w b).Fits := ⟨Nat.mod_lt _ (Nat.two_pow_pos 32), h.count, h.gen, h.flags⟩

theorem addCount_fits {w : ArrWord} (h : w.Fits) (b : Nat) : (addCount w b).Fits := ⟨h.target, Nat.mod_lt _ (Nat.two_pow_pos 32), h.gen, h.flags⟩

/-- The acquire of an `arw.wait` that goes on, where it has a lane. -/
def waitAcquired (uid : Nat) (ls : List ArrLane) (s : State) : State := if ls.isEmpty then s else acquire s uid 1

theorem waitAcquired_cases (uid : Nat) (ls : List ArrLane) (s : State) : waitAcquired uid ls s = s ∨ waitAcquired uid ls s = acquire s uid 1 := by
  unfold waitAcquired
  split
  · exact .inl rfl
  · exact .inr rfl

section Ready

variable {key : Thread → Nat} (hi : Issues s is c) (hr : WordsReady s is c a key)
include hi hr

theorem exec_arwInit_of_ready : exec (.arwInit a) s = .next (retire is ((arrLanesOf c is a key).foldl (initLane a c) s)) := by
  rw [show exec (.arwInit a) s = execArwInit a s from rfl, execArwInit, gangDo_issues hi, arrLanes_of_ready hr]
  rfl

theorem exec_arwExpect_of_ready : exec (.arwExpect a) s = .next (retire is ((arrLanesOf c is a key).foldl (judgeLane addTarget a c) s)) := by
  rw [show exec (.arwExpect a) s = execArwExpect a s from rfl, execArwExpect, gangDo_issues hi, arrLanes_of_ready hr]
  unfold judgeLane
  rw [getCrew_uid hi.crew]
  rfl

theorem exec_arwArrive_of_ready : exec (.arwArrive a) s =
    .next (retire is (syncActive ((arrLanesOf c is a key).foldl (judgeLane addCount a c) s) is.crew ((active c is a.guard).map (·.tid)))) := by
  rw [show exec (.arwArrive a) s = execArwArrive a s from rfl, execArwArrive, gangDo_issues hi, arrLanes_of_ready hr]
  refine (withRelease_of_noStoresOut hr.out 1 _).trans ?_
  rw [arrLanes_of_ready hr]
  unfold judgeLane
  rw [getCrew_uid hi.crew]
  rfl

theorem exec_arwWait_of_ready : exec (.arwWait a) s =
    let ls := arrLanesOf c is a key
    if (ls.filter (laneHeld a c s)).isEmpty then
      .next (retire is (syncActive (waitAcquired is.crew ls (ls.foldl (genLane a c) s)) is.crew ((active c is a.guard).map (·.tid))))
    else .next { (ls.filter (laneHeld a c s)).foldl (fun s l =>
      holdGang (writeArr s l.key { readArr s l.key with flags := (readArr s l.key).flags ||| 4 }) is.crew is.tids [l.t.tid]
        (.arw l.key (readArr s l.key).gen c.counted l.ea)) s with issue := none } := by
  rw [show exec (.arwWait a) s = execArwWait a s from rfl, execArwWait, gangDo_issues hi, arrLanes_of_ready hr]
  unfold genLane
  rw [getCrew_uid hi.crew]
  rfl

/-- Where no word's generation is its lane's B the gang of an `arw.wait` goes on. -/
theorem exec_arwWait_goes (hgen : ∀ t ∈ active c is a.guard, (readArr s (key t)).gen ≠ rd c t a.b 1) : exec (.arwWait a) s =
    .next (retire is (syncActive (waitAcquired is.crew (arrLanesOf c is a key) ((arrLanesOf c is a key).foldl (genLane a c) s)) is.crew
      ((active c is a.guard).map (·.tid)))) := by
  have hnone : (arrLanesOf c is a key).filter (laneHeld a c s) = [] := by
    simp only [List.filter_eq_nil_iff, arrLanesOf, List.forall_mem_map, laneHeld, beq_iff_eq]
    exact hgen
  rw [exec_arwWait_of_ready hi hr]
  dsimp only
  rw [hnone]
  rfl

end Ready

/-! ### What the lanes leave -/

theorem memByte_initLane {l : ArrLane} {j : Nat} (h : j < l.key ∨ l.key + 16 ≤ j) : memByte (initLane a c s l).mem j = memByte s.mem j :=
  memByte_writeArr_outside s _ h

theorem memByte_judgeLane {f : ArrWord → Nat → ArrWord} {l : ArrLane} {j : Nat} (h : j < l.key ∨ l.key + 16 ≤ j) :
    memByte (judgeLane f a c s l).mem j = memByte s.mem j := by
  rw [judgeLane, arrDst_mem_eq, issueAck_mem_eq, memByte_writeArr_outside s _ h]

theorem initLane_stores_length (l : ArrLane) : (initLane a c s l).stores.length = s.stores.length + 1 := issueAck_stores_length ..

theorem judgeLane_stores_length (f : ArrWord → Nat → ArrWord) (l : ArrLane) : (judgeLane f a c s l).stores.length = s.stores.length + 1 := by
  rw [judgeLane, arrDst_stores, issueAck_stores_length]
  rfl

/-- Lanes that each make one counted request and keep to their words. -/
theorem foldl_arrLanes {step : State → ArrLane → State} (hlen : ∀ s l, (step s l).stores.length = s.stores.length + 1)
    (hmem : ∀ s l j, j < l.key ∨ l.key + 16 ≤ j → memByte (step s l).mem j = memByte s.mem j) (ls : List ArrLane) (s : State) :
    (ls.foldl step s).stores.length = s.stores.length + ls.length ∧
      ∀ j, (∀ l ∈ ls, j < l.key ∨ l.key + 16 ≤ j) → memByte (ls.foldl step s).mem j = memByte s.mem j := by
  induction ls generalizing s with
  | nil => exact ⟨rfl, fun _ _ => rfl⟩
  | cons l ls ih =>
    obtain ⟨hl, hm⟩ := ih (step s l)
    refine ⟨by rw [List.foldl_cons, hl, hlen, List.length_cons]; omega, fun j hj => ?_⟩
    rw [List.foldl_cons, hm j fun x hx => hj x (List.mem_cons_of_mem _ hx), hmem s l j (hj l (List.mem_cons_self ..))]

theorem foldl_genLane (ls : List ArrLane) (s : State) : (ls.foldl (genLane a c) s).mem = s.mem ∧ (ls.foldl (genLane a c) s).stores = s.stores := by
  induction ls generalizing s with
  | nil => exact ⟨rfl, rfl⟩
  | cons l ls ih =>
    obtain ⟨hm, hs⟩ := ih (genLane a c s l)
    exact ⟨hm.trans (arrDst_mem_eq ..), hs.trans (arrDst_stores ..)⟩

theorem waitAcquired_mem_stores (uid : Nat) (ls : List ArrLane) (s : State) : (waitAcquired uid ls s).mem = s.mem ∧ (waitAcquired uid ls s).stores = s.stores := by
  rcases waitAcquired_cases uid ls s with h | h <;> rw [h]
  · exact ⟨rfl, rfl⟩
  · obtain ⟨lines, hl⟩ := acquire_eq s uid 1
    rw [hl]
    exact ⟨rfl, rfl⟩

/-! ### One lane -/

theorem initWord_fits (c : Crew) (t : Thread) (o : Opnd) : ({ target := rd c t o 1, count := 0, gen := 0, flags := if rd c t o 1 ≠ 0 then 1 else 0 } : ArrWord).Fits := by
  refine ⟨rd_lt c t o 1, Nat.two_pow_pos 32, Nat.two_pow_pos 32, ?_⟩
  dsimp only
  split <;> decide

theorem readArr_initLane (l : ArrLane) :
    readArr (initLane a c s l) l.key = { target := rd c l.t a.b 1, count := 0, gen := 0, flags := if rd c l.t a.b 1 ≠ 0 then 1 else 0 } :=
  readArr_writeArr s l.key (initWord_fits c l.t a.b)

theorem readArr_judgeLane {f : ArrWord → Nat → ArrWord} (hf : ∀ w b, w.Fits → (f w b).Fits) (l : ArrLane) :
    readArr (judgeLane f a c s l) l.key = completeArr (f (readArr s l.key) (rd c l.t a.b 1)) := by
  have hword := readArr_writeArr s l.key (completeArr_fits (hf _ (rd c l.t a.b 1) (readArr_fits s l.key)))
  unfold readArr at hword ⊢
  rw [judgeLane, arrDst_mem_eq, issueAck_mem_eq]
  exact hword

theorem onlyWords_judgeLane (f : ArrWord → Nat → ArrWord) (l : ArrLane) : OnlyWordsAndCrew s (judgeLane f a c s l) c.uid :=
  ((onlyWords_writeArr s ..).trans (onlyWords_issueAck ..)).trans (onlyWords_arrDst ..)

theorem dstHolds_judgeLane (f : ArrWord → Nat → ArrWord) {l : ArrLane} (hc : getCrew s c.uid = some c) (ht : c.thread l.t.tid = some l.t) :
    DstHolds (judgeLane f a c s l) c.uid l.t.tid a.d (readArr s l.key).gen := by
  have hc1 : getCrew (writeArr s l.key (completeArr (f (readArr s l.key) (rd c l.t a.b 1)))) c.uid = some c := hc
  obtain ⟨c2, t2, hc2, ht2⟩ := getCrew_issueAck (t := l.t) hc1 ht
  exact dstHolds_arrDst hc2 ht2 a _

theorem onlyWords_genLane (l : ArrLane) : OnlyWordsAndCrew s (genLane a c s l) c.uid := onlyWords_arrDst ..

theorem dstHolds_genLane {l : ArrLane} (hc : getCrew s c.uid = some c) (ht : c.thread l.t.tid = some l.t) :
    DstHolds (genLane a c s l) c.uid l.t.tid a.d (readArr s l.key).gen := dstHolds_arrDst hc ht a _

theorem onlyWords_waitAcquired (s : State) (uid : Nat) (ls : List ArrLane) : OnlyWordsAndCrew s (waitAcquired uid ls s) uid := by
  rcases waitAcquired_cases uid ls s with h | h <;> rw [h]
  · exact onlyWords_refl s uid
  · exact onlyWords_acquire s uid 1

theorem dstHolds_waitAcquired {uid tid v : Nat} {d : Opnd} (h : DstHolds s uid tid d v) (ls : List ArrLane) : DstHolds (waitAcquired uid ls s) uid tid d v := by
  rcases waitAcquired_cases uid ls s with hw | hw <;> rw [hw]
  · exact h
  · exact dstHolds_acquire h 1

section Single

variable {t : Thread} {k : Nat} (hi : Issues s is c) (hact : active c is a.guard = [t]) (hr : WordsReady s is c a fun _ => k)
include hact

theorem arrLanesOf_single : arrLanesOf c is a (fun _ => k) = [arrLane c a t k] := by
  rw [arrLanesOf, hact]
  rfl

include hi hr

theorem exec_arwInit_single : exec (.arwInit a) s = .next (retire is (initLane a c s (arrLane c a t k))) := by
  rw [exec_arwInit_of_ready hi hr, arrLanesOf_single hact]
  rfl

theorem exec_arwExpect_single : exec (.arwExpect a) s = .next (retire is (judgeLane addTarget a c s (arrLane c a t k))) := by
  rw [exec_arwExpect_of_ready hi hr, arrLanesOf_single hact]
  rfl

theorem exec_arwArrive_single : exec (.arwArrive a) s = .next (retire is (syncActive (judgeLane addCount a c s (arrLane c a t k)) is.crew ((active c is a.guard).map (·.tid)))) := by
  rw [exec_arwArrive_of_ready hi hr, arrLanesOf_single hact]
  rfl

theorem exec_arwWait_single_goes (hgen : (readArr s k).gen ≠ rd c t a.b 1) : exec (.arwWait a) s =
    .next (retire is (syncActive (waitAcquired is.crew [arrLane c a t k] (genLane a c s (arrLane c a t k))) is.crew ((active c is a.guard).map (·.tid)))) := by
  rw [exec_arwWait_goes hi hr (by rw [hact]; exact List.forall_mem_singleton.2 hgen), arrLanesOf_single hact]
  rfl

/-- One lane whose word's generation is B is held at it, and the word's WAITED flag is set (R227). -/
theorem exec_arwWait_single_holds (hgen : (readArr s k).gen = rd c t a.b 1) :
    exec (.arwWait a) s = .next { holdGang (writeArr s k { readArr s k with flags := (readArr s k).flags ||| 4 }) is.crew is.tids [t.tid]
      (.arw k (readArr s k).gen c.counted (arrAddr c a t)) with issue := none } := by
  have hheld : laneHeld a c s (arrLane c a t k) = true := beq_iff_eq.2 hgen
  rw [exec_arwWait_of_ready hi hr, arrLanesOf_single hact]
  dsimp only
  rw [List.filter_cons_of_pos hheld]
  rfl

end Single

/-- The one active thread of a gang, held at its word. -/
theorem thread_holdGang_single {g : Guard} {t : Thread} {h : Hold} (hi : Issues s is c) (hact : active c is g = [t]) :
    ∃ c', getCrew { holdGang s is.crew is.tids [t.tid] h with issue := none } is.crew = some c' ∧ c'.thread t.tid = some { t with hold := h, gang := is.tids } := by
  obtain ⟨htid, hthread⟩ := mem_active (g := g) (hact ▸ List.mem_singleton_self t)
  obtain ⟨c', hc', ht'⟩ := thread_holdGang (gang := is.tids) (who := [t.tid]) (h := h) hi hthread
  refine ⟨c', hc', ?_⟩
  simpa [htid] using ht'

theorem flags_or_waited_fits {w : ArrWord} (h : w.Fits) : ({ w with flags := w.flags ||| 4 } : ArrWord).Fits :=
  ⟨h.target, h.count, h.gen, Nat.or_lt_two_pow h.flags (by decide)⟩

/-- Settles O33: `wait` by its threads' counters, completion by its condition, and the `arw` forms lane by lane. -/
theorem waitsAndArrivalWords : Obligations.WaitsAndArrivalWords := by
  unfold Obligations.WaitsAndArrivalWords
  refine ⟨fun s is c a hi => ?_, fun w => ⟨completeArr_of_short, fun h0 h => ?_⟩, ?_, ?_⟩
  · intro i Within
    have hmet : ∀ t : Thread, Within t ↔ waitMet (Args.immN a) t = true := fun t => waitMet_iff.symm
    refine ⟨fun hall => ?_, fun hover => ?_⟩
    · rw [exec_wait hi, if_pos (overLimit_isEmpty_iff.2 fun t ht => (hmet t).1 (hall t ht))]
    · obtain ⟨u, c', hexec, hissue, honly, hc', hthreads⟩ := exec_wait_holds (a := a) hi fun hall => hover fun t ht => (hmet t).2 (hall t ht)
      refine ⟨u, c', hexec, hissue, honly, hc', fun t ht => ?_⟩
      obtain ⟨t', ht', hheld, hfree⟩ := hthreads t ht
      exact ⟨t', ht', fun hnot => hheld (Bool.eq_false_iff.2 fun h => hnot ((hmet t).2 h)), fun h => hfree ((hmet t).1 h)⟩
  · obtain ⟨hkeep, hexcess, hwaited⟩ := testBit_completeFlags (bitAt w.flags 0) (bitAt w.flags 1 || decide (w.target < w.count))
    rw [completeArr_of_full h0 h]
    exact ⟨rfl, rfl, rfl, hkeep, hexcess, hwaited⟩
  · intro s is c a t k hi hact hout ea hkey hslice b w Else Gets
    have hready : WordsReady s is c a fun _ => k :=
      ⟨hout, by rw [hact]; exact List.forall_mem_singleton.2 hkey, by rw [hact]; exact List.forall_mem_singleton.2 hslice⟩
    have huid := getCrew_uid hi.crew
    have hcrew : getCrew s c.uid = some c := huid ▸ hi.crew
    have hthread : c.thread t.tid = some t := (mem_active (g := a.guard) (hact ▸ List.mem_singleton_self t)).2
    refine ⟨⟨_, exec_arwInit_single hi hact hready, ?_, ?_⟩, ⟨_, exec_arwExpect_single hi hact hready, ?_, ?_, ?_⟩, ⟨_, exec_arwArrive_single hi hact hready, ?_, ?_, ?_⟩,
      fun hgen => ⟨_, exec_arwWait_single_goes hi hact hready hgen, ?_, ?_⟩, fun hgen => ?_⟩
    · exact readArr_initLane (arrLane c a t k)
    · exact fun j hj => memByte_initLane (l := arrLane c a t k) hj
    · exact readArr_judgeLane (fun w b h => addTarget_fits h b) (arrLane c a t k)
    · exact ⟨_, rfl, onlyCrew_of_onlyWords (huid ▸ onlyWords_judgeLane addTarget (arrLane c a t k)),
        huid ▸ dstHolds_judgeLane addTarget (l := arrLane c a t k) hcrew hthread⟩
    · exact fun j hj => memByte_judgeLane (l := arrLane c a t k) hj
    · exact readArr_judgeLane (fun w b h => addCount_fits h b) (arrLane c a t k)
    · exact ⟨_, rfl, onlyCrew_of_onlyWords ((huid ▸ onlyWords_judgeLane addCount (arrLane c a t k)).trans (onlyWords_syncActive ..)),
        dstHolds_syncActive (huid ▸ dstHolds_judgeLane addCount (l := arrLane c a t k) hcrew hthread) _⟩
    · exact fun j hj => memByte_judgeLane (l := arrLane c a t k) hj
    · exact (waitAcquired_mem_stores ..).1.trans (arrDst_mem_eq ..)
    · exact ⟨_, rfl, onlyCrew_of_onlyWords (((huid ▸ onlyWords_genLane (arrLane c a t k)).trans (onlyWords_waitAcquired ..)).trans (onlyWords_syncActive ..)),
        dstHolds_syncActive (dstHolds_waitAcquired (huid ▸ dstHolds_genLane (l := arrLane c a t k) hcrew hthread) _) _⟩
    · obtain ⟨c', hc', ht'⟩ := thread_holdGang_single (s := writeArr s k { w with flags := w.flags ||| 4 }) (h := .arw k w.gen c.counted ea) ⟨hi.issue, hi.crew⟩ hact
      exact ⟨_, c', _, exec_arwWait_single_holds hi hact hready hgen, rfl, readArr_writeArr s k (flags_or_waited_fits (readArr_fits s k)),
        fun j hj => memByte_writeArr_outside s _ hj, hc', ht', rfl⟩
  · intro s is c a key hi hout ea act hok Else
    have hready : WordsReady s is c a key := ⟨hout, fun t ht => (hok t ht).1, fun t ht => (hok t ht).2⟩
    have hlen : (arrLanesOf c is a key).length = act.length := List.length_map _
    have hmem : ∀ {u : State}, (∀ j, (∀ l ∈ arrLanesOf c is a key, j < l.key ∨ l.key + 16 ≤ j) → memByte u.mem j = memByte s.mem j) → Else u :=
      fun h j hj => h j (List.forall_mem_map.2 hj)
    obtain ⟨hinit, hinitMem⟩ := foldl_arrLanes (step := initLane a c) (fun _ l => initLane_stores_length l) (fun _ _ _ => memByte_initLane) (arrLanesOf c is a key) s
    obtain ⟨hexpect, hexpectMem⟩ := foldl_arrLanes (step := judgeLane addTarget a c) (fun _ l => judgeLane_stores_length _ l) (fun _ _ _ => memByte_judgeLane)
      (arrLanesOf c is a key) s
    obtain ⟨harrive, harriveMem⟩ := foldl_arrLanes (step := judgeLane addCount a c) (fun _ l => judgeLane_stores_length _ l) (fun _ _ _ => memByte_judgeLane)
      (arrLanesOf c is a key) s
    obtain ⟨hgenMem, hgenStores⟩ := foldl_genLane (a := a) (c := c) (arrLanesOf c is a key) s
    exact ⟨⟨_, exec_arwInit_of_ready hi hready, hlen ▸ hinit, hmem hinitMem⟩, ⟨_, exec_arwExpect_of_ready hi hready, hlen ▸ hexpect, hmem hexpectMem⟩,
      ⟨_, exec_arwArrive_of_ready hi hready, hlen ▸ harrive, hmem harriveMem⟩,
      fun hgen => ⟨_, exec_arwWait_goes hi hready hgen, (waitAcquired_mem_stores ..).1.trans hgenMem, (waitAcquired_mem_stores ..).2.trans hgenStores⟩⟩

end Sys2Proof.Machine
end

section
/-! PROOFS. The path of a load: what caches and pins leave unchanged, and what the performance of earlier stores changes. -/

namespace Sys2Proof.Machine

/-! ### What caches, pins and counters leave unchanged -/

/-- Memory, the records of the hardware, the pages that move, the tags of lines, and the loads and stores on their way are the same. -/
structure SameHomes (s u : State) : Prop where
  mem : u.mem = s.mem
  hw : u.hw = s.hw
  migs : u.migs = s.migs
  tags : u.tags = s.tags
  loads : u.loads = s.loads
  stores : u.stores = s.stores

theorem SameHomes.refl (s : State) : SameHomes s s := ⟨rfl, rfl, rfl, rfl, rfl, rfl⟩

theorem SameHomes.trans {s t u : State} (h : SameHomes s t) (k : SameHomes t u) : SameHomes s u :=
  ⟨k.mem.trans h.mem, k.hw.trans h.hw, k.migs.trans h.migs, k.tags.trans h.tags, k.loads.trans h.loads, k.stores.trans h.stores⟩

theorem sameHomes_foldl {β : Type} {f : State → β → State} (h : ∀ s x, SameHomes s (f s x)) (xs : List β) (s : State) : SameHomes s (xs.foldl f s) := by
  induction xs generalizing s with
  | nil => exact .refl s
  | cons x xs ih => exact (h s x).trans (ih _)

theorem sameHomes_dropL1Line (s : State) (core line : Nat) : SameHomes s (dropL1Line s core line) := ⟨rfl, rfl, rfl, rfl, rfl, rfl⟩

theorem sameHomes_updateL1 (s : State) (core : Nat) (ws : List (Nat × Byte)) : SameHomes s (updateL1 s core ws) := ⟨rfl, rfl, rfl, rfl, rfl, rfl⟩

theorem sameHomes_throughCache {fetch : State → State × List Byte} (h : ∀ s, SameHomes s (fetch s).1) (kind : CacheKind) (ctx sec : Nat) (s : State) :
    SameHomes s (throughCache kind ctx sec fetch s).1 := by
  have hmiss : ∀ (s : State) (lines : List CacheLine), SameHomes s { (fetch s).1 with lines := lines } := fun s _ =>
    (h s).trans ⟨rfl, rfl, rfl, rfl, rfl, rfl⟩
  have hcount : SameHomes s { s with freeIdx := s.freeIdx + 1 } := ⟨rfl, rfl, rfl, rfl, rfl, rfl⟩
  unfold throughCache
  dsimp only
  split
  · split
    · exact hcount
    · exact hcount.trans (hmiss _ _)
  · exact hmiss s _

theorem sameHomes_beyondL1 (c : Crew) (p : Piece) (sec : Nat) (s : State) : SameHomes s (beyondL1 c p sec s).1 := by
  unfold beyondL1
  split
  · exact sameHomes_throughCache (fun s => .refl s) _ _ _ s
  · exact .refl s

theorem sameHomes_ordinarySector (c : Crew) (nol1 : Bool) (p : Piece) (s : State) (sec : Nat) : SameHomes s (ordinarySector c nol1 p s sec).1 := by
  unfold ordinarySector
  split
  · exact sameHomes_beyondL1 c p sec s
  · exact sameHomes_throughCache (sameHomes_beyondL1 c p sec) _ _ _ s

theorem sameHomes_ordinarySectors (c : Crew) (nol1 : Bool) (p : Piece) (secs : List Nat) (s : State) : SameHomes s (ordinarySectors c nol1 p s secs).1 := by
  induction secs generalizing s with
  | nil => exact .refl s
  | cons sec secs ih => exact (sameHomes_ordinarySector c nol1 p s sec).trans (ih _)

theorem sameHomes_readOrdinary (s : State) (c : Crew) (nol1 : Bool) (p : Piece) : SameHomes s (readOrdinary s c nol1 p).1 :=
  sameHomes_ordinarySectors c nol1 p _ s

theorem sameHomes_pinLine (ctx : Nat) (s : State) (line : Nat) : SameHomes s (pinLine ctx s line) := by
  unfold pinLine
  split
  · exact .refl s
  split <;> exact ⟨rfl, rfl, rfl, rfl, rfl, rfl⟩

theorem sameHomes_pinLines (s : State) (ctx : Nat) (ps : List Piece) : SameHomes s (pinLines s ctx ps) := sameHomes_foldl (sameHomes_pinLine ctx) _ s

theorem sameHomes_fillRequests (s : State) (c : Crew) (ps : List Piece) : SameHomes s (fillRequests s c ps) := by
  refine sameHomes_foldl (fun s sec => ?_) _ s
  split
  · exact .refl s
  · exact ⟨rfl, rfl, rfl, rfl, rfl, rfl⟩

/-! ### What the reads of a crew's threads change -/

/-- The crew has no store that is still to be performed. -/
def AllPerformed (s : State) (uid : Nat) : Prop := ∀ p ∈ s.stores, p.crew = uid → p.performed = true

/-- No store of the crew writes the byte at a place. -/
def NoStoreAt (s : State) (uid k : Nat) : Prop := ∀ p ∈ s.stores, p.crew = uid → ∀ w ∈ p.bytes, place s w.1 ≠ k

/-- From `s` to `u` memory has changed at most where stores of a crew on their way write, and not at all where none was still to be performed. -/
structure OwnWrites (s u : State) (uid : Nat) : Prop where
  migs : u.migs = s.migs
  stores : ∀ q ∈ u.stores, ∃ p ∈ s.stores, p.crew = q.crew ∧ p.bytes = q.bytes
  mem : ∀ k, NoStoreAt s uid k → memByte u.mem k = memByte s.mem k
  quiet : AllPerformed s uid → u.mem = s.mem ∧ u.stores = s.stores ∧ u.hw = s.hw

theorem place_congr {s u : State} (h : u.migs = s.migs) (k : Nat) : place u k = place s k := by rw [place, place, h]

theorem OwnWrites.noStoreAt {s u : State} {uid k : Nat} (h : OwnWrites s u uid) (hk : NoStoreAt s uid k) : NoStoreAt u uid k := by
  intro q hq hc w hw
  obtain ⟨p, hp, hcrew, hbytes⟩ := h.stores q hq
  rw [place_congr h.migs]
  exact hk p hp (hcrew.trans hc) w (hbytes ▸ hw)

theorem OwnWrites.trans {s t u : State} {uid : Nat} (h : OwnWrites s t uid) (k : OwnWrites t u uid) : OwnWrites s u uid where
  migs := k.migs.trans h.migs
  stores q hq := by
    obtain ⟨p, hp, hc, hb⟩ := k.stores q hq
    obtain ⟨r, hr, hc', hb'⟩ := h.stores p hp
    exact ⟨r, hr, hc'.trans hc, hb'.trans hb⟩
  mem j hj := (k.mem j (h.noStoreAt hj)).trans (h.mem j hj)
  quiet hall := by
    obtain ⟨hmem, hstores, hhw⟩ := h.quiet hall
    obtain ⟨kmem, kstores, khw⟩ := k.quiet fun p hp => hall p (hstores ▸ hp)
    exact ⟨kmem.trans hmem, kstores.trans hstores, khw.trans hhw⟩

/-- Where memory, the hardware, the moving pages and the stores are the same, nothing of the crew has been written. -/
theorem ownWrites_of_same {s u : State} (uid : Nat) (hmem : u.mem = s.mem) (hhw : u.hw = s.hw) (hmigs : u.migs = s.migs) (hstores : u.stores = s.stores) :
    OwnWrites s u uid :=
  ⟨hmigs, fun q hq => ⟨q, hstores ▸ hq, rfl, rfl⟩, fun _ _ => by rw [hmem], fun _ => ⟨hmem, hstores, hhw⟩⟩

/-- A step of a read: the crew's stores before it may have been performed, and the tags and the loads on their way are the same. -/
structure ReadStep (s u : State) (uid : Nat) : Prop extends OwnWrites s u uid where
  tags : u.tags = s.tags
  loads : u.loads = s.loads

theorem ReadStep.trans {s t u : State} {uid : Nat} (h : ReadStep s t uid) (k : ReadStep t u uid) : ReadStep s u uid :=
  ⟨h.toOwnWrites.trans k.toOwnWrites, k.tags.trans h.tags, k.loads.trans h.loads⟩

theorem SameHomes.readStep {s u : State} (h : SameHomes s u) (uid : Nat) : ReadStep s u uid :=
  ⟨ownWrites_of_same uid h.mem h.hw h.migs h.stores, h.tags, h.loads⟩

/-- What a performed store changes: the bytes at their places, and that it is performed. -/
theorem performStore_spec (s : State) (p : PendingStore) :
    (performStore s p).mem = memPutAll s.mem (p.bytes.map fun w => (place s w.1, w.2)) ∧
    (performStore s p).stores = (s.stores.map fun q => if q.id = p.id then { q with performed := true } else q) ∧
    (performStore s p).migs = s.migs ∧ (performStore s p).tags = s.tags ∧ (performStore s p).loads = s.loads ∧ (performStore s p).issue = s.issue := by
  unfold performStore
  split <;> exact ⟨rfl, rfl, rfl, rfl, rfl, rfl⟩

theorem performStore_memByte (s : State) (p : PendingStore) {k : Nat} (h : ∀ w ∈ p.bytes, place s w.1 ≠ k) : memByte (performStore s p).mem k = memByte s.mem k := by
  rw [(performStore_spec s p).1]
  exact memByte_memPutAll_of_notMem _ _ _ (List.forall_mem_map.2 h)

/-- Stores of the crew on their way in `s`, performed in turn from a state that the crew's stores have led to. -/
theorem foldl_performStore {s : State} {uid : Nat} {ps : List PendingStore} (hps : ∀ p ∈ ps, p ∈ s.stores ∧ p.crew = uid) {u : State}
    (hmigs : u.migs = s.migs) (hstores : ∀ q ∈ u.stores, ∃ p ∈ s.stores, p.crew = q.crew ∧ p.bytes = q.bytes) :
    (ps.foldl performStore u).migs = s.migs ∧ (∀ q ∈ (ps.foldl performStore u).stores, ∃ p ∈ s.stores, p.crew = q.crew ∧ p.bytes = q.bytes) ∧
      (∀ k, NoStoreAt s uid k → memByte (ps.foldl performStore u).mem k = memByte u.mem k) ∧
      (ps.foldl performStore u).tags = u.tags ∧ (ps.foldl performStore u).loads = u.loads := by
  induction ps generalizing u with
  | nil => exact ⟨hmigs, hstores, fun _ _ => rfl, rfl, rfl⟩
  | cons p ps ih =>
    obtain ⟨-, hst, hmg, htags, hloads, -⟩ := performStore_spec u p
    obtain ⟨hp, hc⟩ := hps p (List.mem_cons_self ..)
    have hstores' : ∀ q ∈ (performStore u p).stores, ∃ p ∈ s.stores, p.crew = q.crew ∧ p.bytes = q.bytes := by
      intro q hq
      rw [hst] at hq
      obtain ⟨r, hr, rfl⟩ := List.mem_map.1 hq
      obtain ⟨x, hx, hcx, hbx⟩ := hstores r hr
      refine ⟨x, hx, ?_⟩
      split <;> exact ⟨hcx, hbx⟩
    obtain ⟨h1, h2, h3, h4, h5⟩ := ih (fun q hq => hps q (List.mem_cons_of_mem _ hq)) (hmg.trans hmigs) hstores'
    refine ⟨h1, h2, fun k hk => (h3 k hk).trans (performStore_memByte u p fun w hw => ?_), h4.trans htags, h5.trans hloads⟩
    rw [place_congr hmigs]
    exact hk p hp hc w hw

theorem standBefore_sublist (sel : PendingStore → Bool) (ks : List (Nat × Byte)) (ps : List PendingStore) :
    ∀ p ∈ (standBefore sel ks ps).1, p ∈ ps ∧ sel p = true := by
  induction ps with
  | nil => intro p hp; cases hp
  | cons q qs ih =>
    intro p hp
    rw [standBefore] at hp
    dsimp only at hp
    split at hp
    next hq =>
      rcases List.mem_cons.1 hp with rfl | hp
      · exact ⟨List.mem_cons_self .., (Bool.and_eq_true _ _ ▸ hq).1⟩
      · exact ⟨List.mem_cons_of_mem _ (ih p hp).1, (ih p hp).2⟩
    next => exact ⟨List.mem_cons_of_mem _ (ih p hp).1, (ih p hp).2⟩

/-- The stores that stand before a thread's access are its crew's, and none of them is performed. -/
theorem before_iff {p : PendingStore} {uid tid : Nat} : p.before uid tid = true ↔ p.crew = uid ∧ (p.tid = tid ∨ p.rel = true) ∧ p.performed = false := by
  simp [PendingStore.before, and_assoc]

theorem readStep_drainStores (s : State) (uid tid : Nat) (ks : List (Nat × Byte)) : ReadStep s (drainStores s uid tid ks) uid := by
  have hps : ∀ p ∈ (standBefore (·.before uid tid) ks s.stores).1, p ∈ s.stores ∧ p.crew = uid := fun p hp =>
    ⟨(standBefore_sublist _ ks _ p hp).1, (before_iff.1 (standBefore_sublist _ ks _ p hp).2).1⟩
  obtain ⟨hmigs, hstores, hmem, htags, hloads⟩ := foldl_performStore hps (u := s) rfl fun q hq => ⟨q, hq, rfl, rfl⟩
  refine ⟨⟨hmigs, hstores, hmem, fun hall => ?_⟩, htags, hloads⟩
  have hnone : ∀ p ∈ s.stores, p.before uid tid = false := fun p hp => Bool.eq_false_iff.2 fun hb => by
    obtain ⟨hc, -, hperf⟩ := before_iff.1 hb
    simp [hall p hp hc] at hperf
  rw [drainStores, standBefore_of_none hnone]
  exact ⟨rfl, rfl, rfl⟩

/-! ### Reading pieces (R169, R171) -/

/-- The state in which a read of a piece begins: a strong one has dropped the core's copy of its line (R169). -/
def readBase (s : State) (c : Crew) (path : Path) (p : Piece) : State := if path.strong && p.glob then dropL1Line s c.coreId (place s p.key / 64) else s

/-- The state in which a piece is read, once the stores that stand before it are performed. -/
def readDrained (s : State) (c : Crew) (tid : Nat) (path : Path) (p : Piece) : State :=
  drainStores (readBase s c path p) c.uid tid ((List.range p.len).map fun i => (p.key + i, 0))

theorem readStep_readBase (s : State) (c : Crew) (path : Path) (p : Piece) : ReadStep s (readBase s c path p) c.uid := by
  unfold readBase
  split
  · exact (sameHomes_dropL1Line ..).readStep c.uid
  · exact (SameHomes.refl s).readStep c.uid

theorem readStep_readDrained (s : State) (c : Crew) (tid : Nat) (path : Path) (p : Piece) : ReadStep s (readDrained s c tid path p) c.uid :=
  (readStep_readBase s c path p).trans (readStep_drainStores ..)

theorem readStep_readPiece (s : State) (c : Crew) (tid : Nat) (path : Path) (p : Piece) : ReadStep s (readPiece s c tid path p).1 c.uid := by
  have hdrain := readStep_readDrained s c tid path p
  unfold readPiece
  dsimp only
  split
  · exact hdrain
  split
  · exact readStep_readBase s c path p
  split
  · exact hdrain
  · exact hdrain.trans ((sameHomes_readOrdinary ..).readStep c.uid)

theorem readStep_readPieces (c : Crew) (tid : Nat) (path : Path) (ps : List Piece) (s : State) : ReadStep s (readPieces s c tid path ps).1 c.uid := by
  induction ps generalizing s with
  | nil => exact (SameHomes.refl s).readStep c.uid
  | cons p ps ih => exact (readStep_readPiece s c tid path p).trans (ih _)

theorem homeBytes_congr {s u : State} (hmem : u.mem = s.mem) (hmigs : u.migs = s.migs) (k n : Nat) : homeBytes u k n = homeBytes s k n := by
  simp only [homeBytes, homeByte, hmem, place_congr hmigs]

/-- A strong read of a piece with no store on its way and nothing poisoned gives the bytes at their homes (R175, R212). -/
theorem readPiece_strong {s : State} {path : Path} (hstrong : path.strong = true) (hstores : s.stores = []) (hpoison : anyPoison s = false) (c : Crew) (tid : Nat)
    (p : Piece) : (readPiece s c tid path p).2 = homeBytes s p.key p.len := by
  have hclean : piecePoison s p = false := by simp [piecePoison, poisonedAt, hpoison]
  have hown : ownBytes s c.uid tid p.key p.len = none := by simp [ownBytes, passedStore, hstores]
  have hdrain := readStep_readDrained s c tid path p
  obtain ⟨hmem, -, -⟩ := hdrain.quiet (by simp [AllPerformed, hstores])
  have hread : (readPiece s c tid path p).2 = homeBytes (readDrained s c tid path p) p.key p.len := by
    simp only [readPiece, readDrained, readBase, hclean, hown, hstrong, Bool.true_or, Bool.false_eq_true, if_true, if_false]
  rw [hread, homeBytes_congr hmem hdrain.migs]

/-- The same of a list of pieces. -/
theorem readPieces_strong {path : Path} (hstrong : path.strong = true) (c : Crew) (tid : Nat) (ps : List Piece) {s : State} (hstores : s.stores = [])
    (hpoison : anyPoison s = false) : (readPieces s c tid path ps).2 = ps.flatMap fun p => homeBytes s p.key p.len := by
  induction ps generalizing s with
  | nil => rfl
  | cons p ps ih =>
    have hstep := readStep_readPiece s c tid path p
    obtain ⟨hmem, hst, hhw⟩ := hstep.quiet (by simp [AllPerformed, hstores])
    have hrest := ih (hst.trans hstores) (by rw [anyPoison, hhw]; exact hpoison)
    rw [readPieces]
    dsimp only
    rw [hrest, readPiece_strong hstrong hstores hpoison, List.flatMap_cons]
    simp only [homeBytes_congr hmem hstep.migs]

end Sys2Proof.Machine
end

section
/-! PROOFS. Lanes that pass the race check: what the tags must hold, and the common end of a load or store. -/

namespace Sys2Proof.Machine

/-! ### The race check (R207, R208) -/

/-- The tags of a line let a read pass: no slot has a write on record. -/
def ReadPasses (l : TagLine) : Prop := ∀ sl ∈ l.slots, sl.write = 0

/-- The tags of a line let a region's write pass: it has no slot but the region's own, and is not read-shared. -/
def WritePasses (r : Region) (l : TagLine) : Prop := l.shared = none ∧ ∀ sl ∈ l.slots, sl.region = r

/-- Where the tags of a line let an access pass, the access is entered and the line still lets it pass. -/
def EntersLine (P : TagLine → Prop) (a : Accessor) (write : Bool) : Prop :=
  ∀ (s : State) (k n : Nat), P (mget default s.tags (place s k / 64)) →
    ∃ l, P l ∧ raceLine s a k n write = .ok { s with tags := mput default s.tags (place s k / 64) l }

theorem enterSlot_readPasses {s : State} {a : Accessor} {m : BitVec 16} {l l' : TagLine} (h : ReadPasses l) (he : enterSlot s a m false l = some l') : ReadPasses l' := by
  unfold enterSlot at he
  dsimp only at he
  split at he
  · obtain rfl := Option.some.inj he
    refine List.forall_mem_map.2 fun sl hsl => ?_
    split <;> exact h sl hsl
  split at he
  · obtain rfl := Option.some.inj he
    exact List.forall_mem_append.2 ⟨h, List.forall_mem_singleton.2 rfl⟩
  split at he
  · obtain rfl := Option.some.inj he
    refine List.forall_mem_map.2 fun sl hsl => ?_
    split
    · rfl
    · exact h sl hsl
  · cases he

theorem raceLine_read (a : Accessor) : EntersLine ReadPasses a false := by
  intro s k n h
  have hnone : (mget default s.tags (place s k / 64)).slots.find? (fun sl => sl.conflicts (granules k n) false && sl.region != a.region && regionLive s sl.region &&
      !sameOwner s sl.region a.region) = none := by
    rw [List.find?_eq_none]
    intro sl hsl
    simp [TagSlot.conflicts, h sl hsl]
  have hshared : (mget default s.tags (place s k / 64)).shared.filter (fun sh => false && (sh.mask &&& granules k n) != 0) = none := by
    cases (mget default s.tags (place s k / 64)).shared <;> rfl
  unfold raceLine
  dsimp only
  rw [hnone, hshared]
  dsimp only
  cases he : enterSlot s a (granules k n) false (mget default s.tags (place s k / 64)) with
  | some l => exact ⟨l, enterSlot_readPasses h he, by simp [dropShared, he]⟩
  | none => exact ⟨joinShared s a (granules k n) (mget default s.tags (place s k / 64)), h, by simp [he]⟩

theorem enterSlot_writePasses (s : State) (a : Accessor) (m : BitVec 16) {l : TagLine} (h : WritePasses a.region l) :
    ∃ l', enterSlot s a m true l = some l' ∧ WritePasses a.region l' := by
  obtain ⟨hshared, hslots⟩ := h
  unfold enterSlot
  dsimp only
  by_cases hany : l.slots.any (·.region == a.region) = true
  · rw [if_pos hany]
    refine ⟨_, rfl, hshared, List.forall_mem_map.2 fun sl hsl => ?_⟩
    split <;> exact hslots sl hsl
  · have hnil : l.slots = [] := List.eq_nil_iff_forall_not_mem.2 fun sl hsl => hany (List.any_eq_true.2 ⟨sl, hsl, by simp [hslots sl hsl]⟩)
    rw [if_neg hany, if_pos (by simp [hnil])]
    exact ⟨_, rfl, hshared, List.forall_mem_append.2 ⟨hslots, List.forall_mem_singleton.2 rfl⟩⟩

theorem raceLine_write (a : Accessor) : EntersLine (WritePasses a.region) a true := by
  intro s k n h
  have hnone : (mget default s.tags (place s k / 64)).slots.find? (fun sl => sl.conflicts (granules k n) true && sl.region != a.region && regionLive s sl.region &&
      !sameOwner s sl.region a.region) = none := by
    rw [List.find?_eq_none]
    intro sl hsl
    simp [h.2 sl hsl]
  obtain ⟨l, hl, hpass⟩ := enterSlot_writePasses s a (granules k n) h
  refine ⟨l, hpass, ?_⟩
  unfold raceLine
  dsimp only
  rw [hnone, h.1]
  dsimp only [Option.filter_none]
  simp [hl, dropShared]

/-- Every line of the tags lets an access pass. -/
def TagsPass (P : TagLine → Prop) (s : State) : Prop := ∀ k, P (mget default s.tags k)

/-- An access that each line lets pass is entered line by line, and changes the tags alone. -/
theorem raceRuns_of_enters {P : TagLine → Prop} {a : Accessor} {write : Bool} (he : EntersLine P a write) {s : State} (h : TagsPass P s) (runs : List (Nat × Nat)) :
    ∃ tags k, raceRuns s a write runs = (.ok { s with tags := tags }, k) ∧ TagsPass P { s with tags := tags } := by
  unfold raceRuns
  generalize (runs.flatMap fun r => lineParts r.1 r.2) = parts
  induction parts generalizing s with
  | nil => exact ⟨s.tags, 0, rfl, h⟩
  | cons x xs ih =>
    obtain ⟨l, hl, hline⟩ := he s x.1 x.2 (h _)
    have hput : TagsPass P { s with tags := mput default s.tags (place s x.1 / 64) l } := by
      intro k
      dsimp only
      rw [mget_mput]
      split
      · exact hl
      · exact h k
    obtain ⟨tags, k, hrest, hpass⟩ := ih hput
    refine ⟨tags, k, ?_, hpass⟩
    rw [raceCheck, hline]
    exact hrest

/-! ### Lane by lane (R210) -/

/-- Whether a lane goes to its home unchecked: a strong access, or one to a stack. -/
def laneFree (checked : Bool) (l : Ready') : Bool := !checked || (match l.1.tgt with
  | .glob _ true => true
  | _ => false)

/-- The outcome of a lane's check. -/
def laneRace (c : Crew) (store : Bool) (s : State) (l : Ready') : RaceEnd × Nat :=
  raceRuns s { region := regionOf c.uid l.1.t, die := c.die, core := c.coreId } store (l.2.map fun x => (x.key, x.len))

/-- The state in which a lane that goes on acts. -/
def laneEntered (c : Crew) (checked store : Bool) (s : State) (l : Ready') : State :=
  if laneFree checked l then s
  else match laneRace c store s l with
    | (.ok s1, _) => updT s1 c.uid l.1.t.tid fun x => { x with accessed := some x.region }
    | _ => s

/-- A lane goes on: it is not checked, or its check passes. -/
def LaneGoes (c : Crew) (checked store : Bool) (s : State) (l : Ready') : Prop :=
  laneFree checked l = true ∨ ∃ s1 k, laneRace c store s l = (.ok s1, k)

/-- Every lane of a list goes on, each in the state that those before it have left. -/
def LanesGo (c : Crew) (checked store : Bool) (act : State → Ready' → State) (s : State) : List Ready' → Prop
  | [] => True
  | l :: ls => LaneGoes c checked store s l ∧ LanesGo c checked store act (act (laneEntered c checked store s l) l) ls

theorem passLane_of_goes {c : Crew} {checked store : Bool} {act : StoreWait → State → Ready' → State} {p : Passage} {l : Ready'} (hrace : p.race = none)
    (h : LaneGoes c checked store p.s l) :
    passLane c checked store act p l = { p with s := act .free (laneEntered c checked store p.s l) l, done := p.done ++ [l.1.t.tid] } := by
  unfold passLane
  rw [hrace, Option.isSome_none, if_neg Bool.false_ne_true]
  by_cases hfree : laneFree checked l = true
  · rw [laneEntered, if_pos hfree]
    exact if_pos hfree
  · obtain ⟨s1, k, hok⟩ := h.resolve_left hfree
    rw [laneEntered, if_neg hfree, hok]
    refine (if_neg hfree).trans ?_
    unfold laneRace at hok
    dsimp only
    rw [hok]

theorem foldl_passLane {c : Crew} {checked store : Bool} {act : StoreWait → State → Ready' → State} (ls : List Ready') {p : Passage} (hrace : p.race = none)
    (h : LanesGo c checked store (act .free) p.s ls) : ls.foldl (passLane c checked store act) p =
      { p with s := ls.foldl (fun s l => act .free (laneEntered c checked store s l) l) p.s, done := p.done ++ ls.map (·.1.t.tid) } := by
  induction ls generalizing p with
  | nil => simp
  | cons l ls ih =>
    rw [List.foldl_cons, passLane_of_goes hrace h.1,
      ih (p := { p with s := act .free (laneEntered c checked store p.s l) l, done := p.done ++ [l.1.t.tid] }) hrace h.2]
    simp

/-- Where every lane goes on the gang moves on with the requests that its lanes have made. -/
theorem passAll_of_go {e : Env} {checked store : Bool} {act : StoreWait → State → Ready' → State} {s : State} {ls : List Ready'} (fin : State → State)
    (h : LanesGo e.c checked store (act .free) s ls) : ∃ moved, passAll e checked store act fin s ls =
      .next (retireSome e.is moved (fin (ls.foldl (fun s l => act .free (laneEntered e.c checked store s l) l) s))) := by
  refine ⟨e.is.tids.filter fun i => !(e.act.map (·.tid)).contains i || (ls.map (·.1.t.tid)).contains i, ?_⟩
  unfold passAll
  dsimp only
  rw [foldl_passLane ls rfl h]
  simp

/-! ### The checks before (R175) -/

/-- Where no check fails and nothing keeps a lane, every lane goes to its home, with its pieces. -/
theorem memGate_of_clear {e : Env} {n : Need} {ls : List LaneAcc} (h : PathClear e.s e.c n ls) (k : State → List Ready' → Out) :
    memGate e n ls k = k e.s (ls.map fun l => (l, lanePieces e.s e.c n.w l)) := by
  obtain ⟨hlanes, halias⟩ := h
  have halign : ls.filter (alignBad n) = [] := List.filter_eq_nil_iff.2 fun l hl => by simp [(hlanes l hl).1]
  have hsteer : ls.filter (fun l => (steerBad l).isSome) = [] := List.filter_eq_nil_iff.2 fun l hl => by simp [(hlanes l hl).2.1]
  have hperm : ls.filter (fun l => (permBad e.s e.c n l).isSome) = [] := List.filter_eq_nil_iff.2 fun l hl => by simp [(hlanes l hl).2.2.1]
  have hstay : ls.filterMap (fun l => (laneStay e.s e.c n l).map fun x => (l, x)) = [] := List.filterMap_eq_nil_iff.2 fun l hl => by simp [(hlanes l hl).2.2.2]
  have hpark : parkLanes e.s e.c [] = e.s := by simp [parkLanes]
  simp [memGate, halign, hsteer, hperm, halias, hstay, hpark]

end Sys2Proof.Machine
end

section
/-! PROOFS. Loads and stores: the request of each lane, their completion, and O29. -/

namespace Sys2Proof.Machine

/-! ### Lanes that are entered (R207, R210) -/

/-- Memory, the records of the hardware, the pages that move, and the loads and stores on their way are the same. -/
structure SameRequests (s u : State) : Prop where
  mem : u.mem = s.mem
  hw : u.hw = s.hw
  migs : u.migs = s.migs
  loads : u.loads = s.loads
  stores : u.stores = s.stores

/-- The accessor that a lane's check names. -/
def laneAccessor (c : Crew) (l : Ready') : Accessor := { region := regionOf c.uid l.1.t, die := c.die, core := c.coreId }

/-- The lanes are not checked, or the tags let each of them pass. -/
def ChecksPass (P : TagLine → Prop) (c : Crew) (checked store : Bool) (rs : List Ready') (u : State) : Prop :=
  checked = false ∨ (∀ l ∈ rs, EntersLine P (laneAccessor c l) store) ∧ TagsPass P u

theorem ChecksPass.congr {P : TagLine → Prop} {c : Crew} {checked store : Bool} {rs : List Ready'} {u v : State} (h : ChecksPass P c checked store rs u)
    (htags : v.tags = u.tags) : ChecksPass P c checked store rs v := by
  unfold ChecksPass TagsPass
  rw [htags]
  exact h

/-- A lane that passes its check is entered, and no request changes. -/
theorem laneEntered_of_checksPass {P : TagLine → Prop} {c : Crew} {checked store : Bool} {rs : List Ready'} {u : State} (h : ChecksPass P c checked store rs u)
    {l : Ready'} (hl : l ∈ rs) : LaneGoes c checked store u l ∧ SameRequests u (laneEntered c checked store u l) ∧
      ChecksPass P c checked store rs (laneEntered c checked store u l) := by
  by_cases hfree : laneFree checked l = true
  · rw [laneEntered, if_pos hfree]
    exact ⟨.inl hfree, ⟨rfl, rfl, rfl, rfl, rfl⟩, h⟩
  · obtain ⟨henters, htags⟩ := h.resolve_left fun hc => hfree (by simp [laneFree, hc])
    obtain ⟨tags, k, hok, hpass⟩ := raceRuns_of_enters (henters l hl) htags (l.2.map fun x => (x.key, x.len))
    have hrace : laneRace c store u l = (.ok { u with tags := tags }, k) := hok
    rw [laneEntered, if_neg hfree, hrace]
    exact ⟨.inr ⟨_, k, hrace⟩, ⟨rfl, rfl, rfl, rfl, rfl⟩, .inr ⟨henters, hpass⟩⟩

/-- Where each lane in turn adds one request to a list of them, all the lanes go on and the list has one more for each. -/
theorem lanes_request {γ : Type} {P : TagLine → Prop} {Q : Ready' → γ → Prop} {J : State → Prop} {requests : State → List γ} {act : State → Ready' → State}
    {c : Crew} {checked store : Bool} {rs : List Ready'} (henter : ∀ u v, SameRequests u v → J u → J v ∧ requests v = requests u)
    (hact : ∀ u, ∀ l ∈ rs, J u → (act u l).tags = u.tags ∧ J (act u l) ∧ ∃ p, requests (act u l) = requests u ++ [p] ∧ Q l p)
    {u : State} (hpass : ChecksPass P c checked store rs u) (hu : J u) {ls : List Ready'} (hls : ∀ l ∈ ls, l ∈ rs) :
    LanesGo c checked store act u ls ∧ J (ls.foldl (fun s l => act (laneEntered c checked store s l) l) u) ∧
      ∃ new, requests (ls.foldl (fun s l => act (laneEntered c checked store s l) l) u) = requests u ++ new ∧ List.Forall₂ Q ls new := by
  induction ls generalizing u with
  | nil => exact ⟨trivial, hu, [], (List.append_nil _).symm, .nil⟩
  | cons l ls ih =>
    have hl := hls l (List.mem_cons_self ..)
    obtain ⟨hgoes, hsame, hpass'⟩ := laneEntered_of_checksPass hpass hl
    obtain ⟨hj, hreq⟩ := henter _ _ hsame hu
    obtain ⟨htags, hj', p, hp, hq⟩ := hact _ l hl hj
    obtain ⟨hgo, hend, new, hnew, hall⟩ := ih (hpass'.congr htags) hj' fun k hk => hls k (List.mem_cons_of_mem _ hk)
    refine ⟨⟨hgoes, hgo⟩, hend, p :: new, ?_, .cons hq hall⟩
    rw [List.foldl_cons, hnew, hp, hreq, List.append_assoc, List.singleton_append]

/-! ### Loads (R175) -/

/-- A load on its way is a lane's: of its thread, at its address, with the registers of one value, which a strong load reads at the homes of its bytes where nothing is on its way or poisoned. -/
def LoadOf (s : State) (c : Crew) (a : Args) (l : Ready') (p : PendingLoad) : Prop :=
  p.crew = c.uid ∧ p.tid = l.1.t.tid ∧ p.addr = l.1.ea ∧ ∃ v,
    p.vdst = (dstWords a.d (memRegs (memWidth a)) v).1 ∧ p.sdst = (dstWords a.d (memRegs (memWidth a)) v).2 ∧
    (memStrong a = true → s.stores = [] → anyPoison s = false → v = bytesVal (l.2.flatMap fun x => homeBytes s x.key x.len))

/-- What the issue of a load changes, beside its thread's counter and the next number. -/
theorem issueLoad_spec (s : State) (uid tid : Nat) (d : Opnd) (n v : Nat) (poison : Option Word64) (atoms : List Nat) (ea : Word64) (peer : Bool) :
    OwnWrites s (issueLoad s uid tid d n v poison atoms ea peer) uid ∧ (issueLoad s uid tid d n v poison atoms ea peer).tags = s.tags ∧
    ∃ p, (issueLoad s uid tid d n v poison atoms ea peer).loads = s.loads ++ [p] ∧ p.crew = uid ∧ p.tid = tid ∧ p.addr = ea ∧
      p.vdst = (dstWords d n v).1 ∧ p.sdst = (dstWords d n v).2 :=
  ⟨ownWrites_of_same uid rfl rfl rfl rfl, rfl, _, rfl, rfl, rfl, rfl, rfl, rfl⟩

/-- A lane's load: its reads, and one load on its way with the value read. -/
theorem loadLane_spec (c : Crew) (path : Path) (d : Opnd) (n : Nat) (s : State) (l : Ready') :
    OwnWrites s (loadLane c path d n s l) c.uid ∧ (loadLane c path d n s l).tags = s.tags ∧
    ∃ p, (loadLane c path d n s l).loads = s.loads ++ [p] ∧ p.crew = c.uid ∧ p.tid = l.1.t.tid ∧ p.addr = l.1.ea ∧
      p.vdst = (dstWords d n (bytesVal (readPieces s c l.1.t.tid path l.2).2)).1 ∧
      p.sdst = (dstWords d n (bytesVal (readPieces s c l.1.t.tid path l.2).2)).2 := by
  have hread := readStep_readPieces c l.1.t.tid path l.2 s
  unfold loadLane
  dsimp only
  generalize hu : (if path.policy = 3 then pinLines (readPieces s c l.1.t.tid path l.2).1 c.ctx l.2 else (readPieces s c l.1.t.tid path l.2).1) = u
  have hpin : ReadStep s u c.uid := by
    rw [← hu]
    split
    · exact hread.trans ((sameHomes_pinLines ..).readStep c.uid)
    · exact hread
  obtain ⟨hissue, htags, p, hp, hcrew, htid, haddr, hv, hs⟩ := issueLoad_spec u c.uid l.1.t.tid d n (bytesVal (readPieces s c l.1.t.tid path l.2).2)
    (poisonEa s l.1.ea l.2) (pieceAtoms s l.2) l.1.ea (piecesPeer l.2)
  have hown := hpin.toOwnWrites.trans hissue
  rw [hpin.loads] at hp
  split
  · exact ⟨hown.trans (ownWrites_of_same c.uid rfl rfl rfl rfl), htags.trans hpin.tags, p, hp, hcrew, htid, haddr, hv, hs⟩
  · exact ⟨hown, htags.trans hpin.tags, p, hp, hcrew, htid, haddr, hv, hs⟩

/-- One lane of a load instruction. -/
def loadAct (c : Crew) (a : Args) : State → Ready' → State := loadLane c (memPath a) a.d (memRegs (memWidth a))

/-- A lane's load in a state that only the crew's own stores have changed. -/
theorem loadOf_loadAct {s u : State} {c : Crew} (hu : OwnWrites s u c.uid) (a : Args) (l : Ready') :
    (loadAct c a u l).tags = u.tags ∧ OwnWrites s (loadAct c a u l) c.uid ∧ ∃ p, (loadAct c a u l).loads = u.loads ++ [p] ∧ LoadOf s c a l p := by
  obtain ⟨hown, htags, p, hp, hcrew, htid, haddr, hv, hs⟩ := loadLane_spec c (memPath a) a.d (memRegs (memWidth a)) u l
  refine ⟨htags, hu.trans hown, p, hp, hcrew, htid, haddr, _, hv, hs, fun hstrong hstores hpoison => ?_⟩
  obtain ⟨hmem, hst, hhw⟩ := hu.quiet (by simp [AllPerformed, hstores])
  have hclean : anyPoison u = false := by rw [anyPoison, hhw]; exact hpoison
  rw [readPieces_strong (path := memPath a) hstrong c l.1.t.tid l.2 (hst.trans hstores) hclean]
  simp only [homeBytes_congr hmem hu.migs]

/-- The loads of an instruction after those before it become one batch. -/
theorem onceS_loads {s t : State} {new : List PendingLoad} (h : t.loads = s.loads ++ new) :
    ∃ batch, onceS s.loads.length t = { t with loads := s.loads ++ new.map fun p => { p with batch := batch } } :=
  ⟨((t.loads.drop s.loads.length).head?.map (·.id)).getD 0, by simp [onceS, h]⟩

section
variable {s : State} {is : Issue} {c : Crew} {a : Args}

/-- The end of the loads of an instruction: the sectors of its requests are filled and the loads are one batch. -/
def loadsEnd (s : State) (c : Crew) (a : Args) (rs : List Ready') (t : State) : State :=
  onceS s.loads.length (if (memPath a).cached then fillRequests t c (rs.flatMap (·.2)) else t)

theorem loadsEnd_spec {t : State} {new : List PendingLoad} (h : t.loads = s.loads ++ new) (rs : List Ready') :
    OwnWrites t (loadsEnd s c a rs t) c.uid ∧ ∃ batch, (loadsEnd s c a rs t).loads = s.loads ++ new.map fun p => { p with batch := batch } := by
  unfold loadsEnd
  generalize hu : (if (memPath a).cached then fillRequests t c (rs.flatMap (·.2)) else t) = u
  have hfill : SameHomes t u := by
    rw [← hu]
    split
    · exact sameHomes_fillRequests ..
    · exact .refl t
  obtain ⟨batch, hbatch⟩ := onceS_loads (hfill.loads.trans h)
  rw [hbatch]
  exact ⟨ownWrites_of_same c.uid hfill.mem hfill.hw hfill.migs hfill.stores, batch, rfl⟩

/-- The lanes of an access with their pieces. -/
def readyLanes (s : State) (c : Crew) (w : Nat) (ls : List LaneAcc) : List Ready' := ls.map fun l => (l, lanePieces s c w l)

theorem doLoad_of_clear {ls : List LaneAcc} (h : PathClear s c { w := memWidth a, load := true, strong := memStrong a } ls) :
    doLoad (envOf s is c a.guard) a ls = passAll (envOf s is c a.guard) (!memStrong a) false (fun _ => loadAct c a)
      (loadsEnd s c a (readyLanes s c (memWidth a) ls)) s (readyLanes s c (memWidth a) ls) := by
  rw [doLoad, memGate_of_clear (e := envOf s is c a.guard) h]
  rfl

/-- The lanes of a load whose checks pass each have a load on its way. -/
theorem loadsLanes_of_clear (hi : Issues s is c) (htags : memStrong a = true ∨ NoWriteTags s) {ls : List LaneAcc} {i : Instr}
    (hclear : PathClear s c { w := memWidth a, load := true, strong := memStrong a } ls) (hexec : exec i s = doLoad (envOf s is c a.guard) a ls) :
    LoadsLanes i a s is c ls := by
  have hpass : ChecksPass ReadPasses c (!memStrong a) false (readyLanes s c (memWidth a) ls) s :=
    htags.imp (fun h => by rw [h]; rfl) fun h => ⟨fun l _ => raceLine_read (laneAccessor c l), h⟩
  obtain ⟨hgo, hown, new, hnew, hall⟩ := lanes_request (J := fun u => OwnWrites s u c.uid) (requests := State.loads) (Q := LoadOf s c a)
    (act := loadAct c a)
    (fun u v hsame hu => ⟨hu.trans (ownWrites_of_same c.uid hsame.mem hsame.hw hsame.migs hsame.stores), hsame.loads⟩)
    (fun u l _ hu => loadOf_loadAct hu a l) hpass (ownWrites_of_same c.uid rfl rfl rfl rfl) fun _ hl => hl
  obtain ⟨moved, hmoved⟩ := passAll_of_go (e := envOf s is c a.guard) (act := fun _ => loadAct c a) (loadsEnd s c a (readyLanes s c (memWidth a) ls)) hgo
  obtain ⟨hend, batch, hbatch⟩ := loadsEnd_spec (c := c) (a := a) hnew (readyLanes s c (memWidth a) ls)
  obtain ⟨-, -, hmem, hquiet⟩ := hown.trans hend
  have huid := getCrew_uid hi.crew
  rw [huid] at hquiet hmem
  have hlanes := List.forall₂_map_left_iff.1 hall
  have hnext := hexec.trans ((doLoad_of_clear hclear).trans hmoved)
  refine ⟨_, _, batch, hnext, rfl, hbatch, by simp [hlanes.length_eq],
    fun h => ⟨(hquiet h).1, (hquiet h).2.1⟩, hmem, fun j l p hl hp => ?_⟩
  rw [List.getElem?_map, Option.map_eq_some_iff] at hp
  obtain ⟨q, hq, rfl⟩ := hp
  obtain ⟨hjl, rfl⟩ := List.getElem?_eq_some_iff.1 hl
  obtain ⟨hjq, rfl⟩ := List.getElem?_eq_some_iff.1 hq
  obtain ⟨hcrew, htid, haddr, v, hv, hs, hval⟩ := (List.forall₂_iff_get.1 hlanes).2 j hjl hjq
  exact ⟨hcrew.trans huid, htid, haddr, v, hv, hs, rfl, hval⟩

/-! ### Stores (R175) -/

/-- A store on its way is a lane's: of its thread, at its address, not performed, with the bytes of its register. -/
def StoreOf (c : Crew) (a : Args) (l : Ready') (p : PendingStore) : Prop :=
  p.crew = c.uid ∧ p.tid = l.1.t.tid ∧ p.addr = l.1.ea ∧ p.performed = false ∧ p.bytes = pieceBytes (rd c l.1.t a.d (memRegs (memWidth a))) l.2

/-- A lane's store: memory, tags and loads are as they were, and one store is on its way. -/
theorem storeLane_spec (c : Crew) (is : Issue) (path : Path) (batch : Nat) (clears : List Nat) (val : Thread → Nat) (wait : StoreWait) (s : State) (l : Ready') :
    (storeLane c is path batch clears val wait s l).mem = s.mem ∧ (storeLane c is path batch clears val wait s l).tags = s.tags ∧
    (storeLane c is path batch clears val wait s l).loads = s.loads ∧
    ∃ p, (storeLane c is path batch clears val wait s l).stores = s.stores ++ [p] ∧ p.crew = c.uid ∧ p.tid = l.1.t.tid ∧ p.addr = l.1.ea ∧
      p.performed = false ∧ p.bytes = pieceBytes (val l.1.t) l.2 := by
  unfold storeLane
  dsimp only
  generalize hu : (if (!path.cached || wait != .free) = true then l.2.foldl (fun s p => if p.glob = true then dropL1Line s c.coreId (place s p.key / 64) else s) s
    else updateL1 s c.coreId (pieceBytes (val l.1.t) l.2)) = u
  have hl1 : SameHomes s u := by
    rw [← hu]
    split
    · refine sameHomes_foldl (fun s p => ?_) _ s
      split
      · exact sameHomes_dropL1Line ..
      · exact .refl s
    · exact sameHomes_updateL1 ..
  generalize hv : (if path.policy = 3 then pinLines u c.ctx l.2 else u) = v
  have hpin : SameHomes s v := by
    rw [← hv]
    split
    · exact hl1.trans (sameHomes_pinLines ..)
    · exact hl1
  exact ⟨hpin.mem, hpin.tags, hpin.loads, _, congrArg (· ++ [_]) hpin.stores, rfl, rfl, rfl, rfl, rfl⟩

/-- One lane of a store instruction. -/
def storeAct (s : State) (is : Issue) (c : Crew) (a : Args) (rs : List Ready') : StoreWait → State → Ready' → State :=
  storeLane c is (memPath a) s.nextId (coveredAtoms s rs) fun t => rd c t a.d (memRegs (memWidth a))

theorem doStore_of_clear {ls : List LaneAcc} (h : PathClear s c { w := memWidth a, store := true, strong := memStrong a } ls) :
    doStore (envOf s is c a.guard) a ls = passAll (envOf s is c a.guard) (!memStrong a) true (storeAct s is c a (readyLanes s c (memWidth a) ls)) id s
      (readyLanes s c (memWidth a) ls) := by
  rw [doStore, memGate_of_clear (e := envOf s is c a.guard) h]
  rfl

/-- Tags of no line let a region's write pass. -/
theorem tagsPass_of_nil (htags : s.tags = []) (r : Region) : TagsPass (WritePasses r) s := by
  intro k
  rw [htags]
  exact ⟨rfl, fun sl hsl => nomatch hsl⟩

/-- The lanes of a store whose checks pass each have a store on its way. -/
theorem storesLanes_of_clear (hi : Issues s is c) (htags : memStrong a = true ∨ s.tags = [] ∧ (active c is a.guard).length = 1) {ls : List LaneAcc} {i : Instr}
    (hls : ∀ l ∈ ls, l.t ∈ active c is a.guard) (hclear : PathClear s c { w := memWidth a, store := true, strong := memStrong a } ls)
    (hexec : exec i s = doStore (envOf s is c a.guard) a ls) : StoresLanes i a s is c ls := by
  have hpass : ∃ r, ChecksPass (WritePasses r) c (!memStrong a) true (readyLanes s c (memWidth a) ls) s := by
    rcases htags with h | ⟨hnil, hone⟩
    · exact ⟨.thread 0 0 0, .inl (by rw [h]; rfl)⟩
    · obtain ⟨t, ht⟩ := List.length_eq_one_iff.1 hone
      refine ⟨regionOf c.uid t, .inr ⟨List.forall_mem_map.2 fun l hl => ?_, tagsPass_of_nil hnil _⟩⟩
      obtain rfl : l.t = t := List.mem_singleton.1 (ht ▸ hls l hl)
      exact raceLine_write (laneAccessor c (l, lanePieces s c (memWidth a) l))
  obtain ⟨r, hpass⟩ := hpass
  obtain ⟨hgo, ⟨hmem, hloads⟩, new, hnew, hall⟩ := lanes_request (J := fun u => u.mem = s.mem ∧ u.loads = s.loads) (requests := State.stores) (Q := StoreOf c a)
    (act := storeAct s is c a (readyLanes s c (memWidth a) ls) .free)
    (fun u v hsame hu => ⟨⟨hsame.mem.trans hu.1, hsame.loads.trans hu.2⟩, hsame.stores⟩)
    (fun u l _ hu => by
      obtain ⟨hmem, htags, hloads, hp⟩ := storeLane_spec c is (memPath a) s.nextId (coveredAtoms s (readyLanes s c (memWidth a) ls))
        (fun t => rd c t a.d (memRegs (memWidth a))) .free u l
      exact ⟨htags, ⟨hmem.trans hu.1, hloads.trans hu.2⟩, hp⟩) hpass ⟨rfl, rfl⟩ fun _ hl => hl
  obtain ⟨moved, hmoved⟩ := passAll_of_go (e := envOf s is c a.guard) (act := storeAct s is c a (readyLanes s c (memWidth a) ls)) id hgo
  have hnext := hexec.trans ((doStore_of_clear hclear).trans hmoved)
  have hlanes := List.forall₂_map_left_iff.1 hall
  refine ⟨_, hnext, hmem, hloads, rfl, ?_, fun l hl => ?_⟩
  · rw [hlanes.length_eq, ← List.length_append]
    exact congrArg List.length hnew
  · obtain ⟨j, hj, rfl⟩ := List.getElem_of_mem hl
    have hjn : j < new.length := hlanes.length_eq ▸ hj
    obtain ⟨hcrew, hrest⟩ := (List.forall₂_iff_get.1 hlanes).2 j hj hjn
    have hmem : new[j] ∈ s.stores ++ new := List.mem_append_right _ (List.getElem_mem hjn)
    exact ⟨new[j], hnew ▸ hmem, hcrew.trans (getCrew_uid hi.crew), hrest⟩

/-! ### Lanes of the two forms (R175, R176) -/

/-- Where every record and element passes its checks, an access through records has one lane for each active thread. -/
theorem recLanes_of_fit (h : RecordsFit s is c a) (k : List LaneAcc → Out) :
    recLanes (envOf s is c a.guard) a k = k (recordLanes s is c a) := by
  have hbad : ((active c is a.guard).map fun t => (t, recOf (rd c t a.a 4))).filter (fun x => (recCheck s c x.2).isSome) = [] :=
    List.filter_eq_nil_iff.2 (List.forall_mem_map.2 fun t ht => by simp [(h t ht).1])
  have hoff : ((active c is a.guard).map fun t => (t, recOf (rd c t a.a 4))).filter
      (fun x => (elemBad (memWidth a) x.2 (rowCol c x.1 a).1 (rowCol c x.1 a).2).isSome) = [] :=
    List.filter_eq_nil_iff.2 (List.forall_mem_map.2 fun t ht => by simp [(h t ht).2])
  unfold recLanes
  simp only [envOf, hbad, hoff, List.head?_nil, Option.bind_none, List.map_map]
  rfl

theorem moLanes_active {w : Nat} : ∀ l ∈ moLanes (envOf s is c a.guard) a w, l.t ∈ active c is a.guard :=
  List.forall_mem_map.2 fun _ ht => ht

theorem recordLanes_active : ∀ l ∈ recordLanes s is c a, l.t ∈ active c is a.guard :=
  List.forall_mem_map.2 fun _ ht => ht

theorem exec_ld (hi : Issues s is c) : exec (.ld a) s = doLoad (envOf s is c a.guard) a (moLanes (envOf s is c a.guard) a (memWidth a)) := by
  rw [show exec (.ld a) s = execLd a s from rfl, execLd, gangDo_issues hi]

theorem exec_st (hi : Issues s is c) : exec (.st a) s = doStore (envOf s is c a.guard) a (moLanes (envOf s is c a.guard) a (memWidth a)) := by
  rw [show exec (.st a) s = execSt a s from rfl, execSt, gangDo_issues hi]

theorem exec_ldx (hi : Issues s is c) (h : RecordsFit s is c a) : exec (.ldx a) s = doLoad (envOf s is c a.guard) a (recordLanes s is c a) := by
  rw [show exec (.ldx a) s = execLdx a s from rfl, execLdx, gangDo_issues hi, recLanes_of_fit h]

theorem exec_stx (hi : Issues s is c) (h : RecordsFit s is c a) : exec (.stx a) s = doStore (envOf s is c a.guard) a (recordLanes s is c a) := by
  rw [show exec (.stx a) s = execStx a s from rfl, execStx, gangDo_issues hi, recLanes_of_fit h]

end

/-! ### Completion (R50, R123, R175) -/

theorem exec_loadComplete {s : State} {l : PendingLoad} {id : Nat} (hl : s.loads.find? (·.id == id) = some l) (hgo : l.atoms.any (channelWaits s l.id) = false)
    (hclean : l.poison = none) : exec (.loadComplete id) s = .next { updCrew s l.crew (writeLoad l) with loads := loadsAfter s l } := by
  rw [show exec (.loadComplete id) s = execLoadComplete id s from rfl]
  simp [execLoadComplete, hl, hgo, hclean]

/-- What a completed load makes of its thread. -/
def loadedThread (l : PendingLoad) (t : Thread) : Thread :=
  let t1 := if t.live then { t with v := l.vdst.foldl (fun m w => mput 0 m w.1 w.2) t.v } else t
  let t2 := match l.pred with
    | some (k, b) => if t.live then wp t1 k b else t1
    | none => t1
  { t2 with cnt := { t2.cnt with loads := t2.cnt.loads - (if l.counts then 1 else 0) } }

theorem loadedThread_of_dead (l : PendingLoad) {t : Thread} (h : t.live = false) :
    loadedThread l t = { t with cnt := { t.cnt with loads := t.cnt.loads - (if l.counts then 1 else 0) } } := by
  cases hp : l.pred <;> simp [loadedThread, h, hp]

theorem loadedThread_of_live (l : PendingLoad) {t : Thread} (h : t.live = true) : (loadedThread l t).tid = t.tid ∧
    (loadedThread l t).v = l.vdst.foldl (fun m w => mput 0 m w.1 w.2) t.v ∧ (loadedThread l t).pc = t.pc ∧
    (loadedThread l t).cnt.loads = t.cnt.loads - (if l.counts then 1 else 0) := by
  cases hp : l.pred with
  | none => simp [loadedThread, h, hp]
  | some x =>
    have hwp : ∀ t : Thread, (wp t x.1 x.2).tid = t.tid ∧ (wp t x.1 x.2).v = t.v ∧ (wp t x.1 x.2).pc = t.pc ∧ (wp t x.1 x.2).cnt = t.cnt := fun t => by
      unfold wp
      split <;> exact ⟨rfl, rfl, rfl, rfl⟩
    simp [loadedThread, h, hp, hwp]

theorem loadedThread_tid (l : PendingLoad) (t : Thread) : (loadedThread l t).tid = t.tid := by
  cases h : t.live with
  | false => rw [loadedThread_of_dead l h]
  | true => exact (loadedThread_of_live l h).1

theorem thread_writeLoad {l : PendingLoad} {c : Crew} {t : Thread} (ht : c.thread l.tid = some t) : (writeLoad l c).thread l.tid = some (loadedThread l t) := by
  have h := thread_upd { c with s := if (c.thread l.tid).any (·.live) then l.sdst.foldl (fun m w => mput 0 m w.1 w.2) c.s else c.s } l.tid l.tid
    (loadedThread l) (loadedThread_tid l)
  have ht' : ({ c with s := if (c.thread l.tid).any (·.live) then l.sdst.foldl (fun m w => mput 0 m w.1 w.2) c.s else c.s } : Crew).thread l.tid = some t := ht
  rw [ht', Option.map_some, if_pos (thread_tid ht)] at h
  exact h

/-- The s registers that a completed load writes. -/
theorem writeLoad_s {l : PendingLoad} {c : Crew} {t : Thread} (ht : c.thread l.tid = some t) :
    (writeLoad l c).s = if t.live then l.sdst.foldl (fun m w => mput 0 m w.1 w.2) c.s else c.s := by
  simp [writeLoad, Crew.upd, Crew.mapT, ht]

/-- The acknowledgement of a store that nothing keeps performs it and takes it off its way. -/
theorem exec_storeAck {s : State} {p : PendingStore} {id : Nat} (hp : s.stores.find? (·.id == id) = some p) (hwait : p.wait = .free) (hperf : p.performed = false)
    (hgo : storeBlocked s p = false) : exec (.storeAck id) s = .next (countUp { performStore s p with stores := (performStore s p).stores.filter (·.id != id) }
      p.crew p.tid fun k => { k with stores := k.stores - 1 }) := by
  rw [show exec (.storeAck id) s = execStoreAck id s from rfl]
  simp [execStoreAck, hp, hwait, hperf, hgo]

/-- Once a store is performed the others are as they were. -/
theorem performStore_others (s : State) (p : PendingStore) : (performStore s p).stores.filter (·.id != p.id) = s.stores.filter (·.id != p.id) := by
  rw [(performStore_spec s p).2.1]
  induction s.stores with
  | nil => rfl
  | cons q qs ih =>
    rw [List.map_cons, List.filter_cons, List.filter_cons, ih]
    by_cases hq : q.id = p.id <;> simp [hq]

/-- Settles O29: each lane whose check passes adds one request to those on their way, by induction on the lanes; what a read changes is the performance of its thread's stores before it. -/
theorem loadsAndStores : Obligations.LoadsAndStores := by
  unfold Obligations.LoadsAndStores
  refine ⟨fun s is c a hi => ?_, fun s is c a hi => ?_, fun s l id hl hgo hclean => ?_, fun l c t ht hdead => ?_, fun l c t ht hlive => ?_,
    fun s p id hp hwait hperf hgo => ?_⟩
  · intro need htags
    exact ⟨fun hclear => loadsLanes_of_clear hi htags hclear (exec_ld hi), fun hfit hclear => loadsLanes_of_clear hi htags hclear (exec_ldx hi hfit)⟩
  · intro need htags
    exact ⟨fun hclear => storesLanes_of_clear hi htags moLanes_active hclear (exec_st hi),
      fun hfit hclear => storesLanes_of_clear hi htags recordLanes_active hclear (exec_stx hi hfit)⟩
  · obtain rfl : l.id = id := by simpa using List.find?_some hl
    exact exec_loadComplete hl hgo hclean
  · refine ⟨by rw [writeLoad_s ht, if_neg (by simp [hdead])], _, thread_writeLoad ht, ?_⟩
    rw [loadedThread_of_dead l hdead]
    exact ⟨rfl, rfl⟩
  · obtain ⟨-, hv, hpc, hcnt⟩ := loadedThread_of_live l hlive
    exact ⟨_, thread_writeLoad ht, hv, by rw [writeLoad_s ht, if_pos hlive], hpc, hcnt⟩
  · obtain rfl : p.id = id := by simpa using List.find?_some hp
    obtain ⟨hmem, -, -, -, hloads, hissue⟩ := performStore_spec s p
    exact ⟨_, exec_storeAck hp hwait hperf hgo, performStore_others s p, hloads, hissue, hmem, fun k hk => performStore_memByte s p hk⟩

end Sys2Proof.Machine
end

section
/-! PROOFS. Conversions, packed formats and format words. -/

namespace Sys2Proof.Machine

variable {s : State} {is : Issue} {c : Crew} {a : Args}

/-- A gang-wide instruction that writes one register for each active thread, from values that it computes from the whole gang. -/
theorem writesD_of_gang {i : Instr} {n : Nat} {P : Thread → Nat → Prop} (hi : Issues s is c) (f : Env → Thread → Nat)
    (hexec : exec i s = gangDo a.guard s fun e =>
      .next (retire e.is (updCrew e.s e.is.crew fun c => applyWrs c (e.act.map fun t => (t.tid, .reg a.d n (f e t))))))
    (hval : ∀ t ∈ active c is a.guard, P t (f (envOf s is c a.guard) t)) : WritesD i a s is c n P :=
  ⟨f (envOf s is c a.guard), by rw [hexec, gangDo_issues hi]; rfl, hval⟩

theorem tyFmt_bits_pos (ty : Nat) : 0 < (tyFmt ty).bits := by
  unfold tyFmt
  split <;> decide

/-- A value made of elements fits in their bits. -/
theorem fromElems_lt (w : Nat) (f : Nat → Nat) (n : Nat) (hw : 0 < w) : fromElems w f n < 2 ^ (w * n) := by
  refine Nat.lt_pow_two_of_testBit _ fun j hj => ?_
  have hout : ¬ j / w < n := by rw [Nat.div_lt_iff_lt_mul hw, mul_comm]; omega
  simp [testBit_fromElems w f n j hw, hout]

/-- What `pxpack` writes of a block: exponent and micro-bits above the sixteen codes (R83, R99). -/
def px4Word (b : Nat × Nat × List Nat) : Nat := fromElems 4 (fun j => b.2.2.getD j 0) 16 + 2 ^ 64 * (b.2.1 * 256 + b.1)

theorem px4Word_div (b : Nat × Nat × List Nat) : px4Word b / 2 ^ 64 = b.2.1 * 256 + b.1 := by
  have hlt : fromElems 4 (fun j => b.2.2.getD j 0) 16 < 2 ^ 64 := fromElems_lt 4 _ 16 (by decide)
  rw [px4Word, Nat.add_mul_div_left _ _ (by positivity), Nat.div_eq_of_lt hlt, Nat.zero_add]

theorem elem_px4Word (b : Nat × Nat × List Nat) {j : Nat} (hj : j < 16) : elem 4 (px4Word b % 2 ^ 64) j = b.2.2.getD j 0 % 16 := by
  have hlt : fromElems 4 (fun j => b.2.2.getD j 0) 16 < 2 ^ 64 := fromElems_lt 4 _ 16 (by decide)
  rw [px4Word, Nat.add_mul_mod_self_left, Nat.mod_eq_of_lt hlt]
  exact elem_fromElems 4 _ 16 j (by decide) hj

/-- `pxpack` gives each active lane the block of its sixteen lanes (R99). -/
theorem pxpack_writes (hi : Issues s is c) : WritesD (.pxpack a) a s is c 4 fun t v =>
    let b := px4Block (px4Inputs (envOf s is c a.guard) a (bitAt a.m.toNat 5) (c.lane t.tid / 16))
    v / 2 ^ 64 = b.2.1 * 256 + b.1 ∧ ∀ j < 16, elem 4 (v % 2 ^ 64) j = b.2.2.getD j 0 % 16 :=
  writesD_of_gang hi (fun e t => px4Word (px4Block (px4Inputs e a (bitAt a.m.toNat 5) (e.c.lane t.tid / 16)))) rfl
    fun _ _ => ⟨px4Word_div _, fun _ => elem_px4Word _⟩

/-- `amax` gives every active lane, element by element, the greatest magnitude of the gang (R101). -/
theorem amax_writes (hi : Issues s is c) :
    let k := floatMods a.m.toNat
    let fm := tyFmt k.ty
    WritesD (.amax a) a s is c (tyRegs k.ty) fun _ v => ∀ h < tyElems k.ty, elem fm.bits v h =
      rne fm (absMax k.low ((active c is a.guard).map fun t => fm.decF k.fi (elem fm.bits (rd c t a.a (tyRegs k.ty)) h))) % 2 ^ fm.bits := by
  intro k fm
  refine writesD_of_gang hi (fun e _ => fromElems fm.bits (fun h => rne fm (absMax k.low
    ((e.act.map fun t => rd e.c t a.a (tyRegs k.ty)).map fun x => fm.decF k.fi (elem fm.bits x h)))) (tyElems k.ty)) rfl fun t _ h hh => ?_
  rw [elem_fromElems _ _ _ _ (tyFmt_bits_pos _) hh, List.map_map]
  rfl

/-- `cvtf8` from four 8-bit elements scales and converts each to FP32 (R98). -/
theorem cvtf8_expands (hi : Issues s is c) (hdir : bitAt a.m.toNat 2 = true) : WritesD (.cvtf8 a) a s is c 4 fun t v => ∀ i < 4,
    elem 32 v i = cvtTo fp32 .rne (bitAt a.m.toNat 4) (bitAt a.m.toNat 1)
      (((if bitAt a.m.toNat 3 then fpE5M2 else fpE4M3).decF (bitAt a.m.toNat 5) (elem 8 (rd c t a.a 1) i)).mul (fp32.dec (rd c t a.b 1))) % 2 ^ 32 :=
  writesD_of hi (wrCvtf8 a) rfl fun t => ⟨_, by rw [wrCvtf8]; exact if_pos hdir, fun _ h => elem_fromElems 32 _ 4 _ (by decide) h⟩

/-- `cvtf8` to four 8-bit elements scales and converts each from FP32 (R98). -/
theorem cvtf8_narrows (hi : Issues s is c) (hdir : bitAt a.m.toNat 2 = false) :
    let f8 := if bitAt a.m.toNat 3 then fpE5M2 else fpE4M3
    WritesD (.cvtf8 a) a s is c 1 fun t v => ∀ i < 4,
      elem 8 v i = cvtTo f8 .rne (bitAt a.m.toNat 4) (bitAt a.m.toNat 1)
        ((fp32.decF (bitAt a.m.toNat 5) (elem 32 (rd c t a.a 4) i)).mul (fp32.dec (rd c t a.b 1))) % 2 ^ 8 :=
  writesD_of hi (wrCvtf8 a) rfl fun t => ⟨_, by rw [wrCvtf8]; exact if_neg (by simp [hdir]), fun _ h => elem_fromElems 8 _ 4 _ (by decide) h⟩

/-- `cvt` writes the conversion of its types into the registers of the destination (R95, R96). -/
theorem cvt_writes (hi : Issues s is c) :
    let dt := bitsOf a.m.toNat 7 4
    let st := bitsOf a.m.toNat 3 0
    WritesD (.cvt a) a s is c (if (st = 12 ∨ st = 13) ∧ dt = 10 then 2 else cvtRegs dt) fun t v =>
      v = convert (cvtMods a.x.toNat) dt st (rd c t a.a (cvtRegs st)) (rd c t a.b 1) := by
  intro dt st
  exact writesD_of hi (wrCvt a) rfl fun t => ⟨convert (cvtMods a.x.toNat) dt st (rd c t a.a (cvtRegs st)) (rd c t a.b 1), rfl, rfl⟩

/-- `pxunpack` gives one element of the block in A, by the number in B (R100). -/
theorem pxunpack_writes (hi : Issues s is c) : WritesD (.pxunpack a) a s is c 1 fun t v =>
    let x := rd c t a.a 4
    let j := rd c t a.b 1 % 16
    v = cvtTo fp32 .rne (bitAt a.m.toNat 4) (bitAt a.m.toNat 1) (px4Val (bitsOf x 71 64) (bitsOf x (72 + j / 2) (72 + j / 2)) (elem 4 x j)) :=
  writesD_of hi (wrPxunpack a) rfl fun _ => ⟨_, rfl, rfl⟩

/-- Settles O18: each instruction writes one value for each active thread, and the elements of a packed value read back one by one. -/
theorem conversionsAndFormats : Obligations.ConversionsAndFormats := by
  unfold Obligations.ConversionsAndFormats
  refine ⟨fun s is c a hi => ?_, fun s is c a hi => ⟨?mk, ?why, ?chk⟩⟩
  · exact ⟨cvt_writes hi, cvtf8_expands hi, cvtf8_narrows hi, pxunpack_writes hi, pxpack_writes hi, amax_writes hi⟩
  case mk => exact writesD_of hi (fun _ _ => [.reg a.d 1 (bitsOf (Args.immN a) 21 0)]) rfl fun t => ⟨_, rfl, rfl⟩
  case why => exact writesD_of hi (fun c t => [.reg a.d 1 (fmtReason (rd c t a.a 1))]) rfl fun t => ⟨_, rfl, rfl⟩
  case chk => exact writesP_of hi (fun c t => [.pred a.d (fmtReason (rd c t a.a 1) == 0)]) rfl fun t => rfl

end Sys2Proof.Machine
end

section
/-! PROOFS. The steps of the tile sequencer: what an event whose request takes its step answers. -/

namespace Sys2Proof.Machine

variable {s s1 s2 s3 : State} {id slot : Nat} {r : TileReq} {m : Mover} {n : Node}

/-- A part that is reached is followed by the next. -/
theorem bind_of_ok {α β : Type} {p : Part α} {f : State → α → Part β} {x : α} {y : β} (hp : p = .ok s x) (hf : ∃ t, f s x = .ok t y) :
    ∃ t, p.bind f = .ok t y := by
  obtain ⟨t, ht⟩ := hf
  exact ⟨t, by simp [hp, Part.bind, ht]⟩

/-- An event whose request takes its step now answers what the step makes of the state. -/
theorem tileEvent_runs {st : TileStep} {kind : Nat} {pick : TileStep → Option Nat} {run : State → TileReq → Mover → Node → Option TrapInfo → Part State} {u : State}
    (h : TileRuns s id st slot s1 r m n) (hpick : pick st = some slot) (hrun : ∃ t, run s1 r m n none = .ok t u) : tileEvent s id kind pick run = .next u := by
  obtain ⟨⟨r0, hfind, hnext, -⟩, hbegun, hstep, hnode, hcalm⟩ := h
  obtain ⟨t, ht⟩ := hrun
  simp [tileEvent, hfind, hnext, hpick, hbegun, hstep, hnode, hcalm, ht]

/-- A chunk is a step of its request's target. -/
theorem storeTarget_of_runs {st : TileStep} (h : TileRuns s id st slot s1 r m n) : (s.tileReqs.find? (·.id == id)).map (·.node) = some r.node := by
  obtain ⟨⟨r0, hfind, -, hnode⟩, -⟩ := h
  simp [hfind, hnode]

theorem recPoison_of_clean (h : anyPoison s = false) (c : Crew) (q : Rec) (xs runs : List (Nat × Nat)) : recPoison s c q xs runs = none := by
  simp [recPoison, poisonAddr, h]

/-! ### Each step -/

/-- STAGING_LOAD_CHUNK copies one chunk of the source, and the node counts it (R257). -/
theorem exec_stagingLoadChunk {src dst : Rec} {xs ys : List (Nat × Nat)} (h : TileRuns s id (.stage slot) slot s1 r m n) (hsrc : n.rec_ = some src) (hdst : n.stage = some dst)
    (hclean : anyPoison s3 = false)
    (hread : openRec s1 m false none src (cutPieces (recPieces src) (4096 * n.progress) (4096 * n.progress + 4096)) = .ok s2 xs)
    (hwrite : openRec s2 m true none dst (cutPieces (recPieces dst) (4096 * n.progress) (4096 * n.progress + 4096)) = .ok s3 ys) :
    exec (.stagingLoadChunk id) s = .next (updReq (updNode (markedWrite s3 ys (markedRead s3 xs)) n.core n.slot fun n' =>
      { n' with progress := n'.progress + 1, staged := decide (piecesLen (recPieces src) ≤ 4096 * n.progress + 4096) }) m.req fun r => { r with atPoint := true }) := by
  rw [show exec (.stagingLoadChunk id) s = execStagingLoadChunk id s from rfl, execStagingLoadChunk]
  refine tileEvent_runs h rfl ?_
  simp only [hsrc, hdst]
  exact bind_of_ok hread (bind_of_ok hwrite ⟨_, by rw [recPoison_of_clean hclean]; rfl⟩)

/-- The exact sums of one k-step, a place each, of `len` columns of A and rows of B (R92). -/
def kSums (n x y : Node) (p q : Rec) (len : Nat) (xs ys : List Nat) : List FV :=
  let fi := bitAt n.word.toNat 17
  let cols := asCols (.fin false 0 0) y.cols (asRows y.cols len (ys.map (fmtValF fi q.fmt)))
  (asRows len x.rows (xs.map (fmtValF fi p.fmt))).flatMap fun a => cols.map fun b => dotExact a b

/-- The state in which a k-step adds its sums: the tile is cleared at k-step 0 of a product that does not accumulate (R92). -/
def kStepBase (s : State) (m : Mover) (n : Node) (k : Nat) : State :=
  if k = 0 ∧ n.accum = false then updCrew s m.crew.uid fun c => putAcc c n.tile n.all 0 (List.replicate (n.rows * n.cols) 0) else s

/-- K_STEP adds one exact sum a place to the partial (R92). -/
theorem exec_kStep {x y : Node} {p q : Rec} {xs ys part : List Nat} {k : Nat} (h : TileRuns s id (.kstep slot) slot s1 r m n)
    (hargs : productArgs s1 n = some (x, p, y, q)) (hpart : r.part.getD (n.progress, List.replicate (n.rows * n.cols) 0) = (k, part))
    (hx : readWin s1 m none p { r0 := 0, c0 := 32 * k, rows := x.rows, cols := min 32 (x.cols - 32 * k) } = .ok s2 (xs, none))
    (hy : readWin s2 m none q { r0 := 32 * k, c0 := 0, rows := min 32 (x.cols - 32 * k), cols := y.cols } = .ok s3 (ys, none)) :
    exec (.kStep id) s = .next (updReq (kStepBase s3 m n k) id fun r => { r with
      part := some (k + 1, List.zipWith (addPartial (bitsOf n.word.toNat 3 0 == 6)) part (kSums n x y p q (min 32 (x.cols - 32 * k)) xs ys)), atPoint := false }) := by
  have hbase : kStepBase s3 m n k =
      if (k = 0 && !n.accum) = true then updCrew s3 m.crew.uid fun c => putAcc c n.tile n.all 0 (List.replicate (n.rows * n.cols) 0) else s3 := by
    simp [kStepBase]
  rw [show exec (.kStep id) s = execKStep id s from rfl, execKStep, hbase]
  refine tileEvent_runs h rfl ?_
  simp only [hargs, hpart]
  exact bind_of_ok hx (bind_of_ok hy ⟨s3, rfl⟩)

/-- The values of a tile after a promotion: the partial, scaled row by column, is added and rounded (R92, R93). -/
def promoted (c : Crew) (n : Node) (part : List Nat) (as bs : List FV) : List Word :=
  let vals := part.map fun z => if bitsOf n.word.toNat 3 0 = 6 then roundTo fp32 (fvInt (signExt z 32)) else fp22.dec z
  let scs := as.flatMap fun a => bs.map fun b => roundTo fp32 (a.mul b)
  List.zipWith (fun (z : Word) (v : FV) => BitVec.ofNat 32 (rne fp32 ((fp32.dec z.toNat).add .rne v))) (accVals c n.tile n.all)
    (List.zipWith (fun v sc => roundTo fp32 (v.mul sc)) vals scs)

/-- The two reads of scales before a promotion: a product without them has ones in their place. -/
theorem scales_read {p q : Rec} {A B : List Nat} {as bs : List FV} {scaled : Bool}
    (hscaled : scaled = true → readScales s1 m none p A = .ok s2 (as, none) ∧ readScales s2 m none q B = .ok s3 (bs, none))
    (hplain : scaled = false → s3 = s1 ∧ as = List.replicate n.rows (.fin false 1 0) ∧ bs = List.replicate n.cols (.fin false 1 0)) :
    ∃ t, (if scaled then readScales s1 m none p A else .ok s1 (List.replicate n.rows (.fin false 1 0), none)) = .ok t (as, none) ∧
      (if scaled then readScales t m none q B else .ok t (List.replicate n.cols (.fin false 1 0), none)) = .ok s3 (bs, none) := by
  cases scaled with
  | true => exact ⟨s2, hscaled rfl⟩
  | false =>
    obtain ⟨rfl, rfl, rfl⟩ := hplain rfl
    exact ⟨s3, rfl, rfl⟩

/-- PROMOTION rounds the scaled partial into the tile; after the last k-step the node is bound to it (R92, R238). -/
theorem exec_promotion {x y : Node} {p q : Rec} {k : Nat} {part : List Nat} {as bs : List FV} {c : Crew} (h : TileRuns s id (.promote slot) slot s1 r m n)
    (hargs : productArgs s1 n = some (x, p, y, q)) (hpart : r.part = some (k, part))
    (hscaled : (bitsOf n.word.toNat 13 12 == 1) = true →
      readScales s1 m none p ((List.range n.rows).map fun i => i * ((p.pitch + 127) / 128) + 32 * (k - 1) / 128) = .ok s2 (as, none) ∧
      readScales s2 m none q ((List.range n.cols).map fun j => 32 * (k - 1) / 128 * ((q.pitch + 127) / 128) + j / 128) = .ok s3 (bs, none))
    (hplain : (bitsOf n.word.toNat 13 12 == 1) = false → s3 = s1 ∧ as = List.replicate n.rows (.fin false 1 0) ∧ bs = List.replicate n.cols (.fin false 1 0))
    (hc : getCrew s3 m.crew.uid = some c) :
    let w := updReq (updCrew s3 m.crew.uid fun c' => putAcc c' n.tile n.all 0 (promoted c n part as bs)) id fun r => { r with part := none, atPoint := true }
    exec (.promotion id) s = .next (
      if k = kSteps s3 n then sweepDropped (updNode w n.core n.slot fun n =>
        { n with progress := k, state := .done, owner := none, bind := .tile n.tile, byForce := false }) n.core
      else updNode w n.core n.slot fun n => { n with progress := k }) := by
  obtain ⟨t, hA, hB⟩ := scales_read hscaled hplain
  rw [show exec (.promotion id) s = execPromotion id s from rfl, execPromotion]
  refine tileEvent_runs h rfl ?_
  simp only [hargs, hpart]
  refine bind_of_ok hA (bind_of_ok hB ⟨s3, ?_⟩)
  simp only [stepPoison, hc, Option.getD_some, beq_iff_eq]
  rfl

/-- The window of a node that a pass brings or computes (R241). -/
def passWin (s : State) (r : TileReq) (n target : Node) : Win := (((demands s target r.win).find? (·.1 == n.slot)).map (·.2)).getD r.win

/-- The values that a pass keeps for its request. -/
def keptVals (s : State) (id : Nat) (n : Node) (w : Win) (x : List Word × List Nat) : State :=
  updReq s id fun r => { r with values := r.values ++ [{ slot := n.slot, win := w, bits := x.1, raw := x.2 }], atPoint := false }

/-- A pass over a node whose values need no computing keeps them. -/
theorem exec_elementwisePass_reads {target : Node} {v : List Word × List Nat} (h : TileRuns s id (.pass slot) slot s1 r m n) (htarget : nodeAt s1 r.core r.node = some target)
    (hkind : n.kind.isDef = true ∨ n.kind = .tmm ∨ n.state = .done) (hv : nodeVals s1 m none r n (passWin s1 r n target) = .ok s2 (v, none)) :
    exec (.elementwisePass id) s = .next (keptVals s2 id n (passWin s1 r n target) v) := by
  rw [show exec (.elementwisePass id) s = execElementwisePass id s from rfl, execElementwisePass]
  refine tileEvent_runs h rfl ?_
  simp only [htarget]
  rw [if_pos (by simpa [or_assoc] using hkind)]
  exact bind_of_ok hv ⟨s2, rfl⟩

/-- A pass over any other node keeps what its kind computes from its operands (R260–R264). -/
theorem exec_elementwisePass_computes {target : Node} {ops : List (Win × List Word)} (h : TileRuns s id (.pass slot) slot s1 r m n)
    (htarget : nodeAt s1 r.core r.node = some target) (hdef : n.kind.isDef = false) (htmm : n.kind ≠ .tmm) (hopen : n.state ≠ .done)
    (hops : gatherOps m none r r.core (operandWins s1 n (passWin s1 r n target)) s1 = .ok s2 (ops, none)) :
    exec (.elementwisePass id) s = .next (keptVals s2 id n (passWin s1 r n target) (computeNode s2 n (passWin s1 r n target) ops)) := by
  rw [show exec (.elementwisePass id) s = execElementwisePass id s from rfl, execElementwisePass]
  refine tileEvent_runs h rfl ?_
  simp only [htarget]
  rw [if_neg (by simp [hdef, htmm, hopen])]
  exact bind_of_ok hops ⟨s2, rfl⟩

/-- STORE_CHUNK of a request for a region writes one chunk of it (R244). -/
theorem exec_storeChunk_region {d : Rec} {a b : Nat} {t : State} (h : TileRuns s id .chunk r.node s1 r m n) (hgoal : r.goal = .store d a b ∨ r.goal = .scratch d a b)
    (ht : storeRegion s1 r m n d none = .ok s2 t) : exec (.storeChunk id) s = .next t := by
  rw [show exec (.storeChunk id) s = execStoreChunk id s from rfl, execStoreChunk]
  refine tileEvent_runs h (storeTarget_of_runs h) ⟨s2, ?_⟩
  rcases hgoal with hgoal | hgoal
  · simpa only [hgoal] using ht
  · simpa only [hgoal] using ht

/-- STORE_CHUNK of a request for a tile writes 1024 of its values (R244). -/
theorem exec_storeChunk_tile {z : Nat} {v : TileVals} (h : TileRuns s id .chunk r.node s1 r m n) (hgoal : r.goal = .tile z)
    (hv : r.values.find? (·.slot == n.slot) = some v) :
    let w := updCrew s1 r.crew fun c => putAcc c z r.win (1024 * r.chunk) (((v.cut r.win).1.drop (1024 * r.chunk)).take 1024)
    exec (.storeChunk id) s = .next (updNode (updReq w id fun r => { r with chunk := r.chunk + 1, atPoint := true }) n.core n.slot
      fun n => if n.kind == .tmm then n else { n with progress := r.chunk + 1 }) := by
  intro w
  rw [show exec (.storeChunk id) s = execStoreChunk id s from rfl, execStoreChunk]
  refine tileEvent_runs h (storeTarget_of_runs h) ⟨w, ?_⟩
  simp only [hgoal, hv]
  rfl

end Sys2Proof.Machine
end

section
/-! PROOFS. The ends of tile requests: what the freeing of nodes and the settling of a target leave alone, and what becomes of the threads that wait. -/

namespace Sys2Proof.Machine

variable {s t u : State} {r : TileReq} {c : Crew}

/-! ### What the freeing of nodes changes -/

/-- A state that differs at most in the nodes and in the use counts of their slots. -/
def NodesAlone (s t : State) : Prop := ∃ ns ks, t = { s with nodes := ns, cores := ks }

theorem NodesAlone.refl (s : State) : NodesAlone s s := ⟨s.nodes, s.cores, rfl⟩

theorem NodesAlone.trans (h : NodesAlone s t) (k : NodesAlone t u) : NodesAlone s u := by
  obtain ⟨_, _, rfl⟩ := h
  obtain ⟨ns, ks, rfl⟩ := k
  exact ⟨ns, ks, rfl⟩

theorem NodesAlone.foldl {β : Type} (f : State → β → State) (h : ∀ s x, NodesAlone s (f s x)) (xs : List β) (s : State) : NodesAlone s (xs.foldl f s) := by
  induction xs generalizing s with
  | nil => exact .refl s
  | cons x xs ih => exact (h s x).trans (ih _)

theorem updNode_alone (s : State) (core slot : Nat) (f : Node → Node) : NodesAlone s (updNode s core slot f) := ⟨_, _, rfl⟩

theorem freeNodes_alone (s : State) (p : Node → Bool) : NodesAlone s (freeNodes s p) := by
  have hcount : ∀ (s : State) (n : Node), NodesAlone s (if 1024 ≤ n.core then s else
      updCore s n.core fun k => { k with useCount := mput 0 k.useCount n.slot ((mget 0 k.useCount n.slot + 1) % 65536) }) := by
    intro s n
    split
    · exact .refl s
    · exact ⟨_, _, rfl⟩
  exact (NodesAlone.foldl _ hcount _ s).trans ⟨_, _, rfl⟩

theorem freeSlot_alone (fuel : Nat) (s : State) (core slot : Nat) : NodesAlone s (freeSlot fuel s core slot) := by
  induction fuel generalizing s slot with
  | zero => exact .refl s
  | succ fuel ih =>
    unfold freeSlot
    split
    · exact .refl s
    split
    · exact updNode_alone ..
    refine (freeNodes_alone s _).trans (.foldl _ (fun s o => ?_) _ _)
    split
    · exact .refl s
    split
    · split
      · exact updNode_alone ..
      · exact ih ..
    · exact .refl s

theorem sweepDropped_alone (s : State) (core : Nat) : NodesAlone s (sweepDropped s core) := by
  refine .foldl _ (fun s n => ?_) _ _
  split
  · split
    · exact freeSlot_alone ..
    · exact .refl s
  · exact .refl s

theorem settleTarget_alone (s : State) (r : TileReq) (n : Node) : NodesAlone s (settleTarget s r n) := by
  unfold settleTarget
  cases r.goal with
  | store d a b => dsimp only; split <;> [exact freeSlot_alone ..; exact .refl s]
  | scratch d a b => dsimp only; split <;> [exact updNode_alone ..; exact .refl s]
  | tile z => dsimp only; split <;> [exact .refl s; exact updNode_alone ..]
  | implicit => dsimp only; split <;> [exact freeSlot_alone ..; exact .refl s]

/-! ### A request that leaves the sequencer -/

/-- The state `t` is one that the request `r` has left: memory is as it was, no request of its number is there, and its crew stands where it stood with its threads as they were (R240). -/
structure Left (s t : State) (r : TileReq) (c : Crew) : Prop where
  mem : t.mem = s.mem
  gone : ∀ q ∈ t.tileReqs, q.id ≠ r.id
  crew : ∃ k, getCrew t r.crew = some k ∧ k.where_ = c.where_ ∧ k.threads = c.threads

theorem Left.alone (h : Left s t r c) (k : NodesAlone t u) : Left s u r c := by
  obtain ⟨_, _, rfl⟩ := k
  exact ⟨h.mem, h.gone, h.crew⟩

theorem Left.acquireOn (h : Left s t r c) (core scope : Nat) : Left s (acquireOn t core scope) r c := by
  rw [(acquireOn_spec t core scope).1]
  exact ⟨h.mem, h.gone, h.crew⟩

/-- A crew to whose home gang a request gives its tokens back (R252). -/
def returnedTokens (s : State) (r : TileReq) (c : Crew) : Crew :=
  r.tiles.foldl (fun c z => if tokenOf c z == .seq r.hgang && !((s.tileReqs.filter fun q => q.id != r.id && q.crew == r.crew && q.hgang == r.hgang).any (·.tiles.contains z))
    then setToken c z (.gang r.hgang) else c) c

theorem returnTokens_eq (s : State) (r : TileReq) : returnTokens s r = updCrew s r.crew (returnedTokens s r) := rfl

theorem returnedTokens_only (s : State) (r : TileReq) (c : Crew) : ∃ ks, returnedTokens s r c = { c with tokens := ks } := by
  unfold returnedTokens
  induction r.tiles generalizing c with
  | nil => exact ⟨_, rfl⟩
  | cons z zs ih =>
    obtain ⟨ks, hks⟩ := ih (if tokenOf c z == .seq r.hgang && !((s.tileReqs.filter fun q => q.id != r.id && q.crew == r.crew && q.hgang == r.hgang).any (·.tiles.contains z))
      then setToken c z (.gang r.hgang) else c)
    refine ⟨ks, hks.trans ?_⟩
    split <;> rfl

theorem returnedTokens_uid (s : State) (r : TileReq) (c : Crew) : (returnedTokens s r c).uid = c.uid := by
  obtain ⟨ks, h⟩ := returnedTokens_only s r c
  rw [h]

theorem left_removeReq (hc : getCrew s r.crew = some c) : Left s (removeReq s r) r c := by
  have hcrew : getCrew (returnTokens s r) r.crew = some (returnedTokens s r c) := by
    rw [returnTokens_eq, getCrew_updCrew_same (returnedTokens_uid s r) hc]
  refine ⟨rfl, fun q hq => by simpa using (List.mem_filter.1 hq).2, returnedTokens s r c, hcrew, ?_⟩
  obtain ⟨ks, hks⟩ := returnedTokens_only s r c
  rw [hks]
  exact ⟨rfl, rfl⟩

/-- The state in which a request has left the sequencer and its target is settled (R238). -/
def settledState (s : State) (r : TileReq) : State := match nodeAt (removeReq s r) r.core r.node with
  | some n => settleTarget (removeReq s r) r n
  | none => removeReq s r

/-- The state that the threads of a request that is done wake in: its crew's core has acquired, and dropped nodes are freed (R238, R243). -/
def doneState (s : State) (r : TileReq) : State := sweepDropped (match getCrew (settledState s r) r.crew with
  | some c => acquireOn (settledState s r) c.coreId 1
  | none => settledState s r) r.core

theorem left_settledState (hc : getCrew s r.crew = some c) : Left s (settledState s r) r c := by
  unfold settledState
  split
  · exact (left_removeReq hc).alone (settleTarget_alone ..)
  · exact left_removeReq hc

theorem left_doneState (hc : getCrew s r.crew = some c) : Left s (doneState s r) r c := by
  refine Left.alone ?_ (sweepDropped_alone ..)
  split
  · exact (left_settledState hc).acquireOn _ _
  · exact left_settledState hc

theorem exec_tileRequestComplete (hr : s.tileReqs.find? (·.id == r.id) = some r) (hrun : r.phase = .running) (hgo : seqRuns s r = true) (hdone : nextStep s r = .done) :
    exec (.tileRequestComplete r.id) s = .next (wakeRequest (doneState s r) r) := by
  have hnow : (r.phase != .running || !seqRuns s r || nextStep s r != .done) = false := by simp [hrun, hgo, hdone]
  rw [show exec (.tileRequestComplete r.id) s = execTileRequestComplete r.id s from rfl]
  simp only [execTileRequestComplete, hr, hnow]
  rfl

/-! ### Threads that wake -/

/-- A change of the threads of a crew that are parked on a request. -/
def onParked (id : Nat) (g : Thread → Thread) (t : Thread) : Thread := if t.hold == .parked (.tile id) then g t else t

theorem onParked_tid (id : Nat) {g : Thread → Thread} (hg : ∀ t, (g t).tid = t.tid) (t : Thread) : (onParked id g t).tid = t.tid := by
  unfold onParked
  split
  · exact hg t
  · rfl

/-- A thread parked on a request that has left, after the change of those parked on it. -/
theorem Left.getThread_onParked (h : Left s u r c) {g : Thread → Thread} (hg : ∀ t, (g t).tid = t.tid) {t : Thread} (ht : c.thread t.tid = some t)
    (hold : t.hold = .parked (.tile r.id)) : getThread (updCrew u r.crew (·.mapT (onParked r.id g))) r.crew t.tid = some (g t) := by
  obtain ⟨k, hk, -, hthreads⟩ := h.crew
  have hthread : k.thread t.tid = some t := by rw [Crew.thread, hthreads]; exact ht
  rw [getThread, getCrew_updCrew_same (f := (·.mapT (onParked r.id g))) (fun c => rfl) hk, Option.bind_some,
    thread_mapT _ _ _ (onParked_tid r.id hg), hthread]
  simp [onParked, hold]

theorem logReply_of_resident (hres : c.where_ = .resident) (kind target key : Nat) (payload : List PutField) : logReply s c kind target key payload = s := by
  simp [logReply, hres]

/-- A thread that wakes to find its request done (R240). -/
def wokenBy (r : TileReq) (t : Thread) : Thread :=
  { t with hold := .none, tileDone := if r.goal == .implicit then none else some r.id, cnt := if r.goal == .implicit then { t.cnt with tiles := t.cnt.tiles - 1 } else t.cnt }

theorem Left.wakeRequest (h : Left s u r c) (hres : c.where_ = .resident) : wakeRequest u r = updCrew u r.crew (·.mapT (onParked r.id (wokenBy r))) := by
  obtain ⟨k, hk, hwhere, -⟩ := h.crew
  unfold Machine.wakeRequest
  simp only [hk, logReply_of_resident (hwhere.trans hres)]
  rfl

theorem wokenBy_tid (r : TileReq) (t : Thread) : (wokenBy r t).tid = t.tid := rfl

/-- A thread that wakes to take the fault of its request (R246). -/
def faultedBy (f : TrapInfo) (t : Thread) : Thread := { t with hold := .none, wakeTrap := some f, cnt := { t.cnt with tiles := t.cnt.tiles - 1 } }

theorem faultedBy_tid (f : TrapInfo) (t : Thread) : (faultedBy f t).tid = t.tid := rfl

theorem exec_tileStepFault (hr : s.tileReqs.find? (·.id == r.id) = some r) (hc : getCrew s r.crew = some c) (hres : c.where_ = .resident)
    {info : TrapInfo} {slot step : Nat} (hf : r.fault = some (info, slot, step)) : exec (.tileStepFault r.id) s =
      .next (updCrew (sweepDropped (removeReq s r) r.core) r.crew (·.mapT (onParked r.id (faultedBy { info with
        kind2 := 1, extra := tileDetail (nodeAt s r.core slot) step, tids := r.tids, lanes := laneMask c r.tids })))) := by
  have hlog : logBlocked s c = false := by simp [logBlocked, hres]
  rw [show exec (.tileStepFault r.id) s = execTileStepFault r.id s from rfl]
  simp only [execTileStepFault, hr, hf, hc, hlog, logReply_of_resident hres]
  rfl

/-! ### An awaited generation -/

/-- The observation of an arrival word for a request on its core: while the generation is the awaited one the request is set aside, and once it has passed the region is watched (R257). -/
theorem exec_tdefWaitObserve {n : Node} {slot k : Nat} (hr : s.tileReqs.find? (·.id == r.id) = some r) (hstep : nextStep s { r with phase := .running } = .wait slot)
    (hn : nodeAt s r.core slot = some n) (hc : getCrew s r.crew = some c) (hres : c.where_ = .resident) (hphase : r.phase = .running ∨ r.phase = .aside)
    (hkey : arrivalKey s { req := r.id, crew := c, tid := leastOr 0 r.tids } n.addr = .ok k) :
    exec (.tdefWaitObserve r.id) s = .next (
      if BitVec.ofNat 32 (memRead s.mem (k + 8) 4) = n.word then (if r.phase = .running then updReq s r.id fun r => { r with phase := .aside, since := s.cycle } else s)
      else updReq (updNode s n.core slot fun n => { n with staged := true, watching := true }) r.id fun r => { r with phase := .running }) := by
  have hon : (r.phase == .queued || r.phase == .faulted || c.where_ != .resident) = false := by
    rcases hphase with h | h <;> simp [h, hres]
  rw [show exec (.tdefWaitObserve r.id) s = execTdefWaitObserve r.id s from rfl]
  simp only [execTdefWaitObserve, hr, hstep, hn, hc, hon, hkey, beq_iff_eq, Bool.false_eq_true, if_false]
  split <;> rfl

/-! ### A watch that has reached every die -/

theorem nodeAt_updNode (s : State) (core slot : Nat) {f : Node → Node} (hf : ∀ n, (f n).core = n.core ∧ (f n).slot = n.slot) :
    nodeAt (updNode s core slot f) core slot = (nodeAt s core slot).map f := by
  unfold nodeAt updNode
  induction s.nodes with
  | nil => rfl
  | cons n ns ih =>
    by_cases hn : n.core = core ∧ n.slot = slot
    · simp [hn, hf n]
    · have hskip : (n.core == core && n.slot == slot) = false := by simpa using hn
      simp only [List.map_cons, if_neg hn, List.find?_cons, hskip]
      exact ih

/-- A node whose watch, if it is still to reach every die, now has (R249). -/
def watchMade (n : Node) : Node := if n.watchDue then { n with watchDue := false, watching := true } else n

theorem watchMade_place (n : Node) : (watchMade n).core = n.core ∧ (watchMade n).slot = n.slot := by
  unfold watchMade
  split <;> exact ⟨rfl, rfl⟩

theorem exec_watchReached (s : State) (core slot : Nat) :
    exec (.watchReached core slot) s = .next { updNode s core slot watchMade with crews := s.crews.map (watchSpread core slot) } := rfl

section Keeps

variable {P : Thread → Prop} {c : Crew}

theorem mapT_if_keeps {f : Thread → Thread} (hf : ∀ t, P t → P (f t)) (ids : List Nat) (h : ∀ t ∈ c.threads, P t) :
    ∀ t ∈ (c.mapT fun t => if ids.contains t.tid then f t else t).threads, P t := by
  refine List.forall_mem_map.2 fun t ht => ?_
  split
  · exact hf t (h t ht)
  · exact h t ht

theorem endBindings_keeps (hbound : ∀ t b, P t → P { t with bound := b }) (ids : List Nat) (h : ∀ t ∈ c.threads, P t) : ∀ t ∈ (endBindings c ids).threads, P t := by
  refine List.forall_mem_map.2 fun t ht => ?_
  split
  · split
    · exact hbound t _ (h t ht)
    · exact h t ht
  · exact h t ht

theorem releaseMeet_keeps (hbound : ∀ t b, P t → P { t with bound := b }) (hpass : ∀ t, P t → P { t with pass := true, hold := .none }) (ids : List Nat)
    (h : ∀ t ∈ c.threads, P t) : ∀ t ∈ (releaseMeet c ids).threads, P t :=
  mapT_if_keeps (fun t => hbound t _) ids (endBindings_keeps hbound ids (mapT_if_keeps hpass ids h))

theorem foldl_releaseMeet_keeps (hbound : ∀ t b, P t → P { t with bound := b }) (hpass : ∀ t, P t → P { t with pass := true, hold := .none }) {β : Type}
    (ids : Crew → β → List Nat) (keys : List β) (h : ∀ t ∈ c.threads, P t) : ∀ t ∈ (keys.foldl (fun c key => releaseMeet c (ids c key)) c).threads, P t := by
  induction keys generalizing c with
  | nil => exact h
  | cons key keys ih =>
    rw [List.foldl_cons]
    exact ih (releaseMeet_keeps hbound hpass _ h)

/-- What settling the meets keeps of every thread: any property that an ended or new binding, a hold at a meet and a release from one keep. -/
theorem settleMeets_keeps (hbound : ∀ t b, P t → P { t with bound := b }) (hmeet : ∀ t n, P t → P { t with hold := .meet n })
    (hpass : ∀ t, P t → P { t with pass := true, hold := .none }) (arr : List Nat) (h : ∀ t ∈ c.threads, P t) : ∀ t ∈ (settleMeets arr c).threads, P t :=
  foldl_releaseMeet_keeps hbound hpass _ _ (mapT_if_keeps (fun t => hmeet t _) _ (endBindings_keeps hbound _ h))

end Keeps

/-- A thread that has moved waits for nothing, or at its meet (R113). -/
theorem moveTo_hold {ids : List Nat} {target : Nat → Word64} {c : Crew} {t : Thread} (ht : t ∈ (moveTo ids target c).threads) (hid : t.tid ∈ ids) :
    t.hold = .none ∨ ∃ n, t.hold = .meet n := by
  refine settleMeets_keeps (P := fun t => t.tid ∈ ids → t.hold = .none ∨ ∃ n, t.hold = .meet n) (fun t b h => h) (fun t n _ _ => .inr ⟨n, rfl⟩)
    (fun t _ _ => .inl rfl) ids (List.forall_mem_map.2 fun t _ => ?_) t ht hid
  split
  · exact fun _ => .inl rfl
  next hout => exact fun hin => absurd (List.contains_iff_mem.2 hin) hout

/-- A thread of a crew after its gang has moved. -/
theorem thread_moveTo {ids : List Nat} (target : Nat → Word64) {c : Crew} {t : Thread} (ht : c.thread t.tid = some t) (hid : t.tid ∈ ids) :
    ∃ t', (moveTo ids target c).thread t.tid = some t' ∧ t'.pc = target t.tid ∧ (t'.hold = .none ∨ ∃ n, t'.hold = .meet n) := by
  obtain ⟨-, f, hf, hset⟩ := moveTo_spec ids target c
  have htid : ∀ u, (f u).tid = u.tid := fun u => (settled_tid (hset u)).trans rfl
  have hfind : (moveTo ids target c).thread t.tid = some (f t) := by
    rw [Crew.thread, hf, find?_map_of_key c.threads f Thread.tid t.tid htid]
    exact congrArg (Option.map f) ht
  have hpc : (f t).pc = if ids.contains t.tid then target t.tid else t.pc := (congrArg Thread.pc (hset t) :)
  refine ⟨f t, hfind, hpc.trans (if_pos (List.contains_iff_mem.2 hid)), moveTo_hold (List.mem_of_find?_eq_some hfind) ?_⟩
  rw [htid]
  exact hid

/-- A thread whose watch has reached every die stands a word on (R249). -/
theorem thread_watchSpread {core slot : Nat} {c : Crew} {t : Thread} (hcore : c.coreId = core) (hres : c.where_ = .resident) (ht : c.thread t.tid = some t)
    (hlive : t.live = true) (hold : t.hold = .watch slot) : ∃ t', (watchSpread core slot c).thread t.tid = some t' ∧ t'.pc = t.pc + 8 ∧ t'.hold ≠ .watch slot := by
  have hmem : t.tid ∈ (c.threads.filter fun t => t.live && t.hold == .watch slot).map (·.tid) :=
    List.mem_map.2 ⟨t, List.mem_filter.2 ⟨List.mem_of_find?_eq_some ht, by simp [hlive, hold]⟩, rfl⟩
  obtain ⟨t', hfind, hpc, hstands⟩ := thread_moveTo (fun i => ((c.thread i).map (·.pc)).getD 0 + 8) ht hmem
  refine ⟨t', ?_, by simpa [ht] using hpc, fun hw => ?_⟩
  · have hne : ((c.threads.filter fun t => t.live && t.hold == .watch slot).map (·.tid)).isEmpty = false := by
      rw [List.isEmpty_eq_false_iff]
      exact List.ne_nil_of_mem hmem
    have hspread : watchSpread core slot c = moveTo ((c.threads.filter fun t => t.live && t.hold == .watch slot).map (·.tid))
        (fun i => ((c.thread i).map (·.pc)).getD 0 + 8) c :=
      if_pos (by simp only [hcore, hres, hne, beq_self_eq_true, Bool.not_false, Bool.and_self])
    rw [hspread]
    exact hfind
  · rw [hw] at hstands
    rcases hstands with h | ⟨n, h⟩ <;> cases h

theorem watchSpread_uid (core slot : Nat) (c : Crew) : (watchSpread core slot c).uid = c.uid := by
  unfold watchSpread
  dsimp only
  split
  · exact moveTo_uid ..
  · rfl

/-! ### A slot that is free -/

/-- A thread whose append waits, once a slot is open to it (R247). -/
def slotOpened (s : State) (c : Crew) (t : Thread) : Thread := match t.hold with
  | .append _ w => if (openSlot s c w).isSome then { t with hold := .none } else t
  | _ => t

theorem slotOpened_of_append {s : State} {c : Crew} {t : Thread} {n w : Nat} (h : t.hold = .append n w) (hopen : (openSlot s c w).isSome = true) :
    slotOpened s c t = { t with hold := .none } := by
  simp [slotOpened, h, hopen]

theorem slotOpened_tid (s : State) (c : Crew) (t : Thread) : (slotOpened s c t).tid = t.tid := by
  unfold slotOpened
  split
  · split <;> rfl
  · rfl

/-- A crew of a core on which a slot has been freed. -/
def slotFreed (s : State) (core : Nat) (c : Crew) : Crew := if c.coreId == core && c.where_ == .resident then c.mapT (slotOpened s c) else c

theorem slotFreed_uid (s : State) (core : Nat) (c : Crew) : (slotFreed s core c).uid = c.uid := by
  unfold slotFreed
  split <;> rfl

theorem thread_slotFreed {s : State} {core n w : Nat} {c : Crew} {t : Thread} (hcore : c.coreId = core) (hres : c.where_ = .resident) (ht : c.thread t.tid = some t)
    (hold : t.hold = .append n w) (hopen : (openSlot s c w).isSome = true) : (slotFreed s core c).thread t.tid = some { t with hold := .none } := by
  have hc : slotFreed s core c = c.mapT (slotOpened s c) := if_pos (by simp [hcore, hres])
  rw [hc, thread_mapT _ _ _ (slotOpened_tid s c), ht, Option.map_some, slotOpened_of_append hold hopen]

theorem exec_thunkSlotFreed (s : State) (core : Nat) : exec (.thunkSlotFreed core) s = .next { s with crews := s.crews.map (slotFreed s core) } := rfl

/-- A thread of a state whose crews were changed each by itself. -/
theorem getThread_of_map {s u : State} {g : Crew → Crew} (hg : ∀ c, (g c).uid = c.uid) (hu : u.crews = s.crews.map g) {uid tid : Nat} {c : Crew}
    (hc : getCrew s uid = some c) : getThread u uid tid = (g c).thread tid := by
  have hcrew : getCrew u uid = some (g c) := by
    rw [getCrew, hu, find?_map_of_key s.crews g Crew.uid uid hg]
    exact congrArg (Option.map g) hc
  rw [getThread, hcrew, Option.bind_some]

/-- Settles O49: each step answers what its reads and writes make of the state; what the ends of a request change beside its nodes, tokens and lines is its parked threads. -/
theorem tileSequencer : Obligations.TileSequencer := by
  unfold Obligations.TileSequencer
  refine ⟨fun s s1 s2 s3 id slot r m n => ⟨?stage, ?kstep, ?promote, ?pass, fun d a b t => exec_storeChunk_region, fun z v => exec_storeChunk_tile⟩,
    fun s r c hr hc hres => ⟨?complete, ?fault⟩, ?resume, ?observe, fun s core slot => ⟨?freed, ?watch⟩⟩
  case stage => exact fun src dst xs ys h hsrc hdst hclean => exec_stagingLoadChunk h hsrc hdst hclean
  case kstep => exact fun x p y q xs ys h hargs => exec_kStep h hargs rfl
  case promote =>
    intro x p y q k part as bs h hargs hpart scaled one A B hscaled hplain c hc vals scs out w
    rw [exec_promotion h hargs hpart hscaled hplain hc]
    exact ⟨fun hk => by rw [if_neg hk]; rfl, fun hk => by rw [if_pos hk]; rfl⟩
  case pass =>
    exact fun target h htarget => ⟨fun v hkind => exec_elementwisePass_reads h htarget hkind, fun ops hdef htmm hopen => exec_elementwisePass_computes h htarget hdef htmm hopen⟩
  case complete =>
    intro hrun hgo hdone
    have hleft := left_doneState hc
    refine ⟨_, exec_tileRequestComplete hr hrun hgo hdone, ?_⟩
    rw [hleft.wakeRequest hres]
    refine ⟨hleft.mem, hleft.gone, fun t ht hold => ⟨_, hleft.getThread_onParked (wokenBy_tid r) ht hold, rfl, rfl, fun hne => ?_, fun himp => ?_⟩⟩
    · simp [wokenBy, hne]
    · simp [wokenBy, himp]
  case fault =>
    intro info slot step hf
    have hleft := (left_removeReq hc).alone (sweepDropped_alone _ r.core)
    exact ⟨_, exec_tileStepFault hr hc hres hf, hleft.mem, hleft.gone, fun t ht hold =>
      ⟨_, hleft.getThread_onParked (faultedBy_tid _) ht hold, rfl, rfl, rfl, _, rfl, rfl, rfl, rfl, rfl⟩⟩
  case resume =>
    intro s r hr hover hgo
    rw [show exec (.requestResume r.id) s = execRequestResume r.id s from rfl]
    simp [execRequestResume, hr, hover, hgo]
  case observe =>
    intro s r c n slot k hr hstep hn hc hres hphase hkey
    rw [exec_tdefWaitObserve hr hstep hn hc hres hphase hkey]
    exact ⟨fun hpassed => by rw [if_neg hpassed], fun hsame hrun => by rw [if_pos hsame, if_pos hrun]⟩
  case freed =>
    refine ⟨_, exec_thunkSlotFreed s core, rfl, fun c t n w hc hcore hres ht hold hopen => ?_⟩
    rw [getThread_of_map (slotFreed_uid s core) rfl hc]
    exact thread_slotFreed hcore hres ht hold hopen
  case watch =>
    refine ⟨_, exec_watchReached s core slot, rfl, fun n hn hdue => ?_, fun c t hc hcore hres ht hlive hold => ?_⟩
    · exact (nodeAt_updNode s core slot watchMade_place).trans (by rw [hn, Option.map_some, watchMade, if_pos hdue])
    · rw [getThread_of_map (watchSpread_uid core slot) rfl hc]
      exact thread_watchSpread hcore hres ht hlive hold

end Sys2Proof.Machine
end

section
/-! PROOFS. `nop`: its one word for each guard, and that it only moves its gang on. -/

namespace Sys2Proof

/-! ### The word (R66, R118) -/

theorem ite_some_eq_none_iff {α : Type} {p : Prop} [Decidable p] {x : α} {o : Option α} : (if p then some x else o) = none ↔ ¬p ∧ o = none := by
  split <;> simp [*]

theorem Raw.ill_of_shape_none {lim : Limits} {r : Raw} {op : Op} (hop : opOf r.op = some op) (hs : shapeOf op r.m r.x (r.imm.getD 0) r.imm.isSome = none) :
    r.ill lim = some 0x03 := by
  simp only [Raw.ill, hop, hs]

/-- The checks of R66 that a full-form word with a listed opcode and an allowed shape passes. -/
theorem Raw.ill_eq_none_iff {lim : Limits} {r : Raw} {op : Op} {s : Shape} (hop : opOf r.op = some op)
    (hs : shapeOf op r.m r.x (r.imm.getD 0) r.imm.isSome = some s) : r.ill lim = none ↔
      ((r.fields s).any fun f => codeReserved f.2) = false ∧ ((r.fields s).all fun f => f.1.kindOk f.2) = true ∧ ((r.fields s).all fun f => f.1.groupOk f.2) = true ∧
      (((r.fields s).all fun f => f.1.rangeOk lim f.2) && (r.imm.isSome || tileXOk lim op r.m r.x)) = true ∧
      (((r.fields s).all fun f => f.1.fieldOk f.2) && (r.imm.isSome || s.x r.x) && (op != .regang || (r.g == 7 && !r.neg))) = true ∧
      s.form = true ∧ r.imm.all s.imm = true ∧ (r.g == 7 && r.neg) = false ∧
      (((r.fields s).any fun f => f.1.writesS f.2) && (r.fields s).any fun f => f.1.nonUniform f.2) = false := by
  simp only [Raw.ill, hop, hs, ite_some_eq_none_iff, Bool.not_eq_true, Bool.not_eq_eq_eq_not, Bool.not_eq_false, Bool.not_true, and_true]

/-- The operands of a `nop` under a guard. -/
def nopArgs (g : Guard) : Args := { guard := g, m := 0, d := .none, a := .none, b := .none, c := .none, x := 0, imm := none }

theorem Opnd.code_eq_ff_iff {o : Opnd} : o.code = 0xFF ↔ o = .none := by
  cases o with
  | v n => simp only [Opnd.code, reduceCtorEq, iff_false]; omega
  | s n => simp only [Opnd.code, reduceCtorEq, iff_false]; omega
  | sp x => cases x <;> decide
  | none => decide

theorem opOf_opCode_nop : opOf (opCode .nop) = some .nop := rfl

theorem shapeOf_nop (m x imm : Nat) (i : Bool) : shapeOf .nop m x imm i = if m = 0 then some { form := !i } else none := by
  simp [shapeOf, controlShape, shapeIf]

/-- A `nop` passes every check under each guard but the one that is NEVER. -/
theorem ill_raw_nopArgs {lim : Limits} {g : Guard} (h : ¬(g.p = 7 ∧ g.neg = true)) : ((nopArgs g).raw .nop).ill lim = none := by
  have hnever : ((g.p : Nat) == 7 && g.neg) = false := by
    rw [Bool.and_eq_false_iff, beq_eq_false_iff_ne]
    exact (not_and_or.1 h).imp (fun hp he => hp (Fin.ext he)) Bool.eq_false_iff.2
  exact (Raw.ill_eq_none_iff opOf_opCode_nop (shapeOf_nop ..)).2 ⟨rfl, rfl, rfl, rfl, rfl, rfl, rfl, hnever, rfl⟩

/-- A `nop` that passes the checks has M 0, no operands and X 0, in the R form. -/
theorem eq_nopArgs_of_ill_none {lim : Limits} {a : Args} (h : (a.raw .nop).ill lim = none) : a = nopArgs a.guard := by
  by_cases hm : a.m.toNat = 0
  · have hs : shapeOf .nop (a.raw .nop).m (a.raw .nop).x ((a.raw .nop).imm.getD 0) (a.raw .nop).imm.isSome = some { form := !(a.raw .nop).imm.isSome } :=
      (shapeOf_nop ..).trans (if_pos hm)
    obtain ⟨-, -, -, -, hfields, hform, -, -, -⟩ := (Raw.ill_eq_none_iff opOf_opCode_nop hs).1 h
    have himm : a.imm = none := by simpa [Args.raw] using hform
    obtain ⟨⟨hd, ha, hb, hc⟩, hx⟩ : (a.d.code = 0xFF ∧ a.a.code = 0xFF ∧ a.b.code = 0xFF ∧ a.c.code = 0xFF) ∧ a.x.toNat = 0 := by
      simpa [Args.raw, Raw.fields, Role.fieldOk, himm] using hfields
    obtain ⟨g, m, d, o, b, c, x, imm⟩ := a
    simp only [nopArgs, Args.mk.injEq, true_and]
    exact ⟨BitVec.eq_of_toNat_eq hm, Opnd.code_eq_ff_iff.1 hd, Opnd.code_eq_ff_iff.1 ha, Opnd.code_eq_ff_iff.1 hb, Opnd.code_eq_ff_iff.1 hc, BitVec.eq_of_toNat_eq hx, himm⟩
  · rw [Raw.ill_of_shape_none opOf_opCode_nop ((shapeOf_nop ..).trans (if_neg hm))] at h
    cases h

theorem fieldsOf_nop (a : Args) : fieldsOf (.nop a) = some (.full (a.raw .nop)) := fieldsOf_of_full rfl

theorem legal_nop {lim : Limits} {g : Guard} (h : ¬(g.p = 7 ∧ g.neg = true)) : legal lim (.nop (nopArgs g)) = true := by
  refine legal_iff.2 ⟨_, fieldsOf_nop _, rfl, congrArg (Option.map Bad.ill) (ill_raw_nopArgs h), ?_⟩
  simp [Fields.instr, opOf_opCode_nop, build, Args.raw, Raw.args, nopArgs, Opnd.code, Opnd.ofCode]

/-- The fields of a word that decodes to a `nop`. -/
theorem unpack_of_decodeWord_nop {lim : Limits} {w : Nat} {a : Args} (h : decodeWord lim w = .inr (.nop a)) :
    unpack w = .full (a.raw .nop) ∧ a = nopArgs a.guard := by
  obtain ⟨hbad, hi⟩ := decodeWord_inr_iff.1 h
  have hf := fieldsOf_instr (fits_unpack w) (held_unpack w) hbad hi
  have hu : unpack w = .full (a.raw .nop) := (Option.some.inj ((fieldsOf_nop a).symm.trans hf)).symm
  rw [hu] at hbad
  exact ⟨hu, eq_nopArgs_of_ill_none (Option.map_eq_none_iff.1 hbad)⟩

/-- The opcode and the form of an R-form word (R44). -/
theorem bits_of_unpack_rForm {w : Nat} {r : Raw} (h : unpack w = .full r) (hi : r.imm = none) : bitsOf w 57 51 = r.op ∧ bitAt w 62 = false := by
  unfold unpack at h
  split at h
  · cases h
  split at h
  · obtain rfl := Fields.full.inj h
    cases hi
  next h62 =>
    obtain rfl := Fields.full.inj h
    exact ⟨rfl, Bool.eq_false_iff.2 h62⟩

end Sys2Proof
end

section
/-! PROOFS. Control transfers: where the threads of a gang stand after one, and what else it changes. -/

namespace Sys2Proof.Machine

variable {s t : State} {is : Issue} {c : Crew} {a : Args} {g : Guard}

/-! ### Lists without repetitions -/

theorem eraseDups_eq_nil_iff {α : Type} [DecidableEq α] {l : List α} : l.eraseDups = [] ↔ l = [] := by
  simp only [List.eq_nil_iff_forall_not_mem, List.mem_eraseDups]

/-- A list has at most one value where any two of its members are equal. -/
theorem length_eraseDups_le_one_iff {α : Type} [DecidableEq α] {l : List α} : l.eraseDups.length ≤ 1 ↔ ∀ x ∈ l, ∀ y ∈ l, x = y := by
  cases l with
  | nil => simp
  | cons x xs =>
    have hrest : (x :: xs).eraseDups.length ≤ 1 ↔ ∀ y ∈ xs, y = x := by
      simp [List.eraseDups_cons, eraseDups_eq_nil_iff]
    rw [hrest]
    refine ⟨fun h y hy z hz => ?_, fun h y hy => h y (List.mem_cons_of_mem _ hy) x (List.mem_cons_self ..)⟩
    have heq : ∀ y ∈ x :: xs, y = x := by simpa using h
    rw [heq y hy, heq z hz]

/-! ### The threads of a gang -/

theorem mem_gangThreads_iff {u : Thread} (hu : c.thread u.tid = some u) : u ∈ gangThreads c is ↔ u.tid ∈ is.tids := by
  refine ⟨fun h => ?_, fun h => List.mem_filterMap.2 ⟨u.tid, h, hu⟩⟩
  obtain ⟨i, hi, ht⟩ := List.mem_filterMap.1 h
  obtain rfl := thread_tid ht
  exact hi

theorem mem_active_tids_iff {u : Thread} (hu : c.thread u.tid = some u) : u.tid ∈ (active c is g).map (·.tid) ↔ u ∈ active c is g := by
  refine ⟨fun h => ?_, List.mem_map_of_mem⟩
  obtain ⟨t, ht, he⟩ := mem_active_tids.1 h
  obtain rfl : t = u := Option.some.inj ((mem_active ht).2.symm.trans (he ▸ hu))
  exact ht

/-- The active thread with a number. -/
theorem find?_active {u : Thread} (hu : c.thread u.tid = some u) : (active c is g).find? (·.tid == u.tid) = if u ∈ active c is g then some u else none := by
  cases h : (active c is g).find? (·.tid == u.tid) with
  | some t =>
    have hmem := List.mem_of_find?_eq_some h
    have hid : t.tid = u.tid := by simpa using List.find?_some h
    obtain rfl : t = u := Option.some.inj ((mem_active hmem).2.symm.trans (hid ▸ hu))
    rw [if_pos hmem]
  | none => rw [if_neg fun hmem => by simpa using List.find?_eq_none.1 h u hmem]

/-! ### What a transfer changes -/

/-- A thread that agrees with another but for what an arrival at a PC may change. -/
theorem eq_of_settled {t u : Thread} (h : t.settled = u.settled) : t = { u with hold := t.hold, pass := t.pass, bound := t.bound, gang := t.gang } := by
  cases t; cases u
  simp_all [Thread.settled]

theorem eq_of_shell {c c' : Crew} (h : c'.shell = c.shell) : c' = { c with threads := c'.threads, nextBound := c'.nextBound } := by
  cases c; cases c'
  simp_all [Crew.shell]

/-- Where a thread of the gang stands after a transfer: an active one at its target, another a word on. -/
def landing (e : Env) (target : Thread → Word64) (i : Nat) : Word64 := (e.act.find? (·.tid == i)).elim (e.is.pc + 8) target

theorem transfer_eq (e : Env) (f : Crew → Crew) (target : Thread → Word64) :
    transfer e f target = { updCrew e.s e.is.crew (fun c => moveTo e.is.tids (landing e target) (f c)) with issue := none } := by
  have hland : (fun i => match e.act.find? (·.tid == i) with
      | some t => target t
      | none => e.is.pc + 8) = landing e target := by
    funext i
    unfold landing
    cases e.act.find? (·.tid == i) <;> rfl
  exact congrArg (fun pcs => { updCrew e.s e.is.crew (fun c => moveTo e.is.tids pcs (f c)) with issue := none }) hland

theorem landing_thread {u : Thread} (hu : c.thread u.tid = some u) (target : Thread → Word64) :
    landing (envOf s is c g) target u.tid = if u ∈ active c is g then target u else is.pc + 8 := by
  unfold landing
  rw [show (envOf s is c g).act = active c is g from rfl, find?_active hu]
  split <;> rfl

/-- The link of a thread after `call` and `calli` (R121). -/
def linked (link : Bool) (is : Issue) (act : List Thread) (t : Thread) : Thread := if link = true ∧ t.tid ∈ act.map (·.tid) then { t with link := is.pc + 8 } else t

theorem linked_tid (link : Bool) (is : Issue) (act : List Thread) (t : Thread) : (linked link is act t).tid = t.tid := by
  unfold linked
  split <;> rfl

/-- A transfer that writes links or none. -/
theorem transferred_transfer {f : Crew → Crew} {link : Bool} (hf : ∀ c', f c' = c'.mapT (linked link is (active c is g))) (hi : Issues s is c)
    (target : Thread → Word64) : Transferred s (transfer (envOf s is c g) f target) is c g link false target := by
  have huid : ∀ c', (moveTo is.tids (landing (envOf s is c g) target) (f c')).uid = c'.uid := fun c' => by rw [moveTo_uid, hf]; rfl
  obtain ⟨hshell, h, hthreads, hsettled⟩ := moveTo_spec is.tids (landing (envOf s is c g) target) (f c)
  rw [transfer_eq]
  refine ⟨⟨rfl, fun u hu => getCrew_updCrew_ne _ huid hu⟩, _, getCrew_updCrew_same huid hi.crew, eq_of_shell (hshell.trans (by rw [hf]; rfl)), fun u hu => ?_⟩
  have hmaps : (moveTo is.tids (landing (envOf s is c g) target) (f c)).threads = c.threads.map (h ∘ linked link is (active c is g)) := by
    rw [hthreads, hf, mapT_threads, List.map_map]
  have htid : ∀ t, ((h ∘ linked link is (active c is g)) t).tid = t.tid := fun t => (settled_tid (hsettled _)).trans (linked_tid link is _ t)
  refine ⟨_, thread_map hmaps htid hu, (eq_of_settled (hsettled _)).trans ?_⟩
  rw [linked_tid, landing_thread hu]
  have hin : u ∈ active c is g → u.tid ∈ is.tids := fun h => (mem_active h).1
  simp only [linked, mem_active_tids_iff hu, mem_gangThreads_iff hu, Function.comp, List.contains_iff_mem]
  by_cases hact : u ∈ active c is g
  · simp only [hact, hin hact]
    cases link <;> rfl
  · simp only [hact]
    split <;> rfl

/-- A change of the callee queues of a crew's threads. -/
def Queued (c c' : Crew) : Prop := ∃ q : Thread → Option Word64, c' = c.mapT fun t => { t with queue := q t }

theorem joinQueue_queued (c : Crew) (i : Nat) (x : Word64) : Queued c (joinQueue c i x) := by
  unfold joinQueue
  dsimp only
  split
  · refine ⟨fun t => if t.tid = i then some x else t.queue, congrArg c.mapT (funext fun t => ?_)⟩
    by_cases h : t.tid = i <;> simp [h]
  · exact ⟨Thread.queue, by simp [Crew.mapT]⟩

theorem foldl_joinQueue_queued (x : Thread → Word64) (act : List Thread) (c : Crew) : Queued c (act.foldl (fun c t => joinQueue c t.tid (x t)) c) := by
  induction act generalizing c with
  | nil => exact ⟨Thread.queue, by simp [Crew.mapT]⟩
  | cons t ts ih =>
    obtain ⟨q, hq⟩ := joinQueue_queued c t.tid (x t)
    obtain ⟨r, hr⟩ := ih (joinQueue c t.tid (x t))
    exact ⟨fun t => r { t with queue := q t }, by rw [List.foldl_cons, hr, hq]; simp [Crew.mapT]⟩

/-- A transfer that queues its threads besides (R111). -/
theorem transferred_queued {f : Crew → Crew} {link : Bool} {target : Thread → Word64} (h : Transferred s t is c g link false target) (hf : ∀ c, Queued c (f c)) :
    Transferred s (updCrew t is.crew f) is c g link true target := by
  obtain ⟨⟨hstate, hothers⟩, c', hc', heq, hthreads⟩ := h
  have huid : ∀ c, (f c).uid = c.uid := fun c => by
    obtain ⟨q, hq⟩ := hf c
    rw [hq]
    rfl
  obtain ⟨q, hq⟩ := hf c'
  refine ⟨⟨by rw [hstate]; rfl, fun u hu => (getCrew_updCrew_ne f huid hu).trans (hothers u hu)⟩, f c', getCrew_updCrew_same huid hc', ?_, fun u hu => ?_⟩
  · rw [hq, heq]
    rfl
  · obtain ⟨u', hu', he⟩ := hthreads u hu
    refine ⟨{ u' with queue := q u' }, ?_, by rw [he]; rfl⟩
    rw [hq, thread_mapT _ _ _ fun _ => by rfl, hu', Option.map_some]

theorem transferred_queues {link : Bool} {target : Thread → Word64} (h : Transferred s t is c g link false target) : Transferred s t is c g link true target := by
  obtain ⟨hstate, c', hc', heq, hthreads⟩ := h
  refine ⟨hstate, c', hc', heq, fun u hu => ?_⟩
  obtain ⟨u', hu', he⟩ := hthreads u hu
  exact ⟨u', hu', he.trans (by rw [he]; rfl)⟩

/-! ### The instructions -/

/-- A transfer that leaves the links. -/
theorem transferred_plain (hi : Issues s is c) (g : Guard) (target : Thread → Word64) : Transferred s (transfer (envOf s is c g) id target) is c g false false target := by
  have hnone : linked false is (active c is g) = id := funext fun t => if_neg fun h => Bool.false_ne_true h.1
  exact transferred_transfer (fun c' => by simp [hnone, Crew.mapT]) hi target

/-- A transfer that writes the links of the active threads. -/
theorem transferred_linked (hi : Issues s is c) (g : Guard) (target : Thread → Word64) :
    Transferred s (transfer (envOf s is c g) (linkActive (envOf s is c g)) target) is c g true false target :=
  transferred_transfer (fun c' => congrArg c'.mapT (funext fun t => by simp only [linked, envOf, List.contains_iff_mem, true_and])) hi target

theorem retire_eq_transfer (s : State) (is : Issue) (c : Crew) (g : Guard) : retire is s = transfer (envOf s is c g) id fun _ => is.pc + 8 := by
  have hland : landing (envOf s is c g) (fun _ => is.pc + 8) = fun _ => is.pc + 8 := by
    funext i
    unfold landing
    cases (envOf s is c g).act.find? (·.tid == i) <;> rfl
  rw [transfer_eq, hland]
  rfl

/-- The end of an instruction that leaves its gang at one PC, as a transfer to the next word. -/
theorem transferred_retire (hi : Issues s is c) (g : Guard) : Transferred s (retire is s) is c g false false fun _ => is.pc + 8 := by
  rw [retire_eq_transfer s is c g]
  exact transferred_plain hi g _

theorem exec_nop (hi : Issues s is c) (a : Args) : exec (.nop a) s = .next (retire is s) := by
  rw [show exec (.nop a) s = execNop a s from rfl, execNop, gangDo_issues hi]
  rfl

theorem exec_br (hi : Issues s is c) (a : Args) : exec (.br a) s = .next (transfer (envOf s is c a.guard) id fun _ => brTarget is.pc a) := by
  rw [show exec (.br a) s = execBr a s from rfl, execBr, gangDo_issues hi]
  rfl

theorem exec_brd (s : State) (a : Args) : exec (.brd a) s = exec (.br a) s := rfl

theorem exec_call (hi : Issues s is c) (a : Args) :
    exec (.call a) s = .next (transfer (envOf s is c a.guard) (linkActive (envOf s is c a.guard)) fun _ => brTarget is.pc a) := by
  rw [show exec (.call a) s = execCall a s from rfl, execCall, gangDo_issues hi]
  rfl

/-- The target of a thread in an indirect transfer. -/
def indirect (c : Crew) (a : Args) (t : Thread) : Word64 := BitVec.ofNat 64 (rd c t a.a 2)

/-- The active threads whose targets are no multiple of 8. -/
def misdirected (is : Issue) (c : Crew) (a : Args) : List Thread := (active c is a.guard).filter fun t => (indirect c a t).toNat % 8 != 0

theorem mem_misdirected {u : Thread} : u ∈ misdirected is c a ↔ u ∈ active c is a.guard ∧ (indirect c a u).toNat % 8 ≠ 0 := by
  simp [misdirected, List.mem_filter]

theorem withTargets_of_aligned (h : misdirected is c a = []) (k : (Thread → Word64) → Out) : withTargets a (envOf s is c a.guard) k = k (indirect c a) := by
  unfold withTargets
  dsimp only
  split
  · rfl
  next hne => exact absurd h hne

/-- ALIGN of a gang with targets that are no multiples of 8: its active threads trap, at the address of the first such target (R117). -/
def alignTrap (is : Issue) (c : Crew) (a : Args) : TrapInfo :=
  { trapOf c tcALIGN 0 ((active c is a.guard).map (·.tid)) [laneField c ((misdirected is c a).map (·.tid))] with
    addr := ((misdirected is c a).head?.map (indirect c a)).getD 0 }

theorem alignTrap_addr (h : misdirected is c a ≠ []) : (alignTrap is c a).addr.toNat % 8 ≠ 0 := by
  obtain ⟨b, bs, hb⟩ := List.exists_cons_of_ne_nil h
  have haddr : (alignTrap is c a).addr = indirect c a b := by simp [alignTrap, hb]
  rw [haddr]
  exact (mem_misdirected.1 (hb ▸ List.mem_cons_self)).2

theorem withTargets_of_misdirected (h : misdirected is c a ≠ []) (k : (Thread → Word64) → Out) :
    withTargets a (envOf s is c a.guard) k = .next (raise s is.crew is.pc is.tids (alignTrap is c a)) := by
  unfold withTargets
  dsimp only
  split
  next hnil => exact absurd hnil h
  · rfl

theorem exec_bri (hi : Issues s is c) (a : Args) :
    exec (.bri a) s = withTargets a (envOf s is c a.guard) fun x => .next (transfer (envOf s is c a.guard) id x) := by
  rw [show exec (.bri a) s = execBri a s from rfl, execBri, gangDo_issues hi]

theorem exec_ret (s : State) (a : Args) : exec (.ret a) s = exec (.bri a) s := rfl

theorem exec_calli (hi : Issues s is c) (a : Args) :
    exec (.calli a) s = withTargets a (envOf s is c a.guard) fun x =>
      if ((active c is a.guard).map x).eraseDups.length ≤ 1 then .next (transfer (envOf s is c a.guard) (linkActive (envOf s is c a.guard)) x)
      else .next (updCrew (transfer (envOf s is c a.guard) (linkActive (envOf s is c a.guard)) x) is.crew fun k =>
        (active c is a.guard).foldl (fun k t => joinQueue k t.tid (x t)) k) := by
  rw [show exec (.calli a) s = execCalli a s from rfl, execCalli, gangDo_issues hi]
  rfl

/-- Settles O11: what the decoder accepts of opcode 0x00 has no operands, and the end of the instruction is a transfer to the next word. -/
theorem nopMovesOn : Obligations.NopMovesOn := by
  unfold Obligations.NopMovesOn
  refine ⟨fun lim w a _ h => ?_, fun lim g => ⟨fun hg => (decodeWord_encode (legal_nop hg)).2, fun hg => by subst hg; rfl⟩,
    fun s is c a hi => ⟨exec_nop hi a, transferred_retire hi a.guard⟩⟩
  obtain ⟨hunpack, hargs⟩ := unpack_of_decodeWord_nop h
  obtain ⟨hop, hform⟩ := bits_of_unpack_rForm hunpack (by rw [hargs]; rfl)
  exact ⟨hop, hform, hargs⟩

/-- Settles O20: each transfer by its equation, an indirect one by whether it has a target that is no multiple of 8. -/
theorem controlTransfers : Obligations.ControlTransfers := by
  unfold Obligations.ControlTransfers
  refine ⟨fun s is c a hi => ⟨exec_nop hi a, ⟨_, exec_br hi a, transferred_plain hi _ _⟩, ⟨_, (exec_brd s a).trans (exec_br hi a), transferred_plain hi _ _⟩,
    ⟨_, exec_call hi a, transferred_linked hi _ _⟩⟩, fun s is c a hi => ⟨fun haligned => ?_, fun ⟨t, ht, hbad⟩ => ?_⟩⟩
  · have hnone : misdirected is c a = [] := List.eq_nil_iff_forall_not_mem.2 fun t ht => (mem_misdirected.1 ht).2 (haligned t (mem_misdirected.1 ht).1)
    have hbri := (exec_bri hi a).trans (withTargets_of_aligned hnone _)
    have hplain := transferred_plain hi a.guard (indirect c a)
    have hlink := transferred_linked hi a.guard (indirect c a)
    refine ⟨⟨_, hbri, hplain⟩, ⟨_, (exec_ret s a).trans hbri, hplain⟩, ?_⟩
    rw [exec_calli hi, withTargets_of_aligned hnone]
    split
    · exact ⟨_, rfl, transferred_queues hlink, fun _ => hlink⟩
    next hmany =>
      refine ⟨_, rfl, transferred_queued hlink (foldl_joinQueue_queued _ _), fun hsame => absurd ?_ hmany⟩
      rw [length_eraseDups_le_one_iff]
      exact List.forall_mem_map.2 fun u hu => List.forall_mem_map.2 fun v hv => hsame u hu v hv
  · have hne : misdirected is c a ≠ [] := List.ne_nil_of_mem (mem_misdirected.2 ⟨ht, hbad⟩)
    have hbri := (exec_bri hi a).trans (withTargets_of_misdirected hne _)
    exact ⟨alignTrap is c a, rfl, alignTrap_addr hne, rfl, hbri, (exec_calli hi a).trans (withTargets_of_misdirected hne _), (exec_ret s a).trans hbri⟩

end Sys2Proof.Machine
end

section
/-! PROOFS. Compares, selects, votes, moves and addresses: the value that each writes. -/

namespace Sys2Proof.Machine

variable {s : State} {is : Issue} {c : Crew} {a : Args}

/-! ### Predicates (R139) -/

theorem intCond_eq (cc : Nat) (x y : Int) : intCond cc x y = match cc with
    | 0 => decide (x = y) | 1 => decide (x ≠ y) | 2 => decide (x < y) | 3 => decide (x ≤ y) | 4 => decide (x > y) | _ => decide (x ≥ y) := by
  unfold intCond
  split <;> simp [bne, beq_eq_decide]

theorem predOp_eq (sub : Nat) (x y : Bool) : predOp sub x y = match sub with
    | 0 => x && y | 1 => x || y | 2 => x ^^ y | 3 => !x | _ => x := by
  unfold predOp
  split <;> simp 

/-! ### Votes (R125) -/

/-- The ballot of a gang: the home lanes of the threads whose predicate holds. -/
def ballot (c : Crew) (act : List Thread) (a : Args) : Nat := act.foldl (fun m t => if rp t (numOf a.a) then m ||| 2 ^ c.lane t.tid else m) 0

theorem testBit_foldl_lor (p : Thread → Bool) (l : Thread → Nat) (ts : List Thread) (m h : Nat) :
    (ts.foldl (fun m t => if p t then m ||| 2 ^ l t else m) m).testBit h = (m.testBit h || ts.any fun t => l t == h && p t) := by
  induction ts generalizing m with
  | nil => simp
  | cons t ts ih =>
    rw [List.foldl_cons, ih, List.any_cons]
    cases hp : p t with
    | false => simp
    | true => simp [Nat.testBit_two_pow, Bool.or_assoc, beq_eq_decide]

theorem testBit_ballot (c : Crew) (act : List Thread) (a : Args) (h : Nat) : (ballot c act a).testBit h = act.any fun t => c.lane t.tid == h && rp t (numOf a.a) := by
  rw [ballot, testBit_foldl_lor, Nat.zero_testBit, Bool.false_or]

theorem any_id_map (p : Thread → Bool) (ts : List Thread) : (ts.map p).any id = decide (true ∈ ts.map p) := by
  rw [Bool.eq_iff_iff]
  simp

theorem all_id_map (p : Thread → Bool) (ts : List Thread) : (ts.map p).all id = decide (false ∉ ts.map p) := by
  rw [Bool.eq_iff_iff]
  simp

/-- A vote writes one thing for each active thread. -/
def voteWr (c : Crew) (act : List Thread) (a : Args) : Wr := match a.m.toNat with
  | 0 => .pred a.d ((act.map fun t => rp t (numOf a.a)).any id)
  | 1 => .pred a.d ((act.map fun t => rp t (numOf a.a)).all id)
  | 2 => .reg a.d 2 (ballot c act a)
  | _ => .pred a.d ((act.map fun t => rd c t a.a 1).eraseDups.length ≤ 1)

theorem exec_vote (hi : Issues s is c) (a : Args) :
    exec (.vote a) s = .next (regsWritten s is (eachLane c is a.guard fun _ => voteWr c (active c is a.guard) a)) := by
  rw [show exec (.vote a) s = execVote a s from rfl, execVote, gangDo_issues hi]
  rfl

theorem voteWr_lanes (hm : 2 < a.m.toNat) (act : List Thread) : voteWr c act a = .pred a.d (decide (∀ t ∈ act, ∀ u ∈ act, rd c t a.a 1 = rd c u a.a 1)) := by
  have hsame : (act.map fun t => rd c t a.a 1).eraseDups.length ≤ 1 ↔ ∀ t ∈ act, ∀ u ∈ act, rd c t a.a 1 = rd c u a.a 1 := by
    simp only [length_eraseDups_le_one_iff, List.forall_mem_map]
  unfold voteWr
  split
  · omega
  · omega
  · omega
  · simp only [hsame]

/-! ### Parts of D that `movi` replaces (R140) -/

theorem immN_lt (a : Args) : Args.immN a < 2 ^ 27 := by
  unfold Args.immN
  cases a.imm with
  | none => decide
  | some v => exact v.isLt

theorem immN_of_some {v : BitVec 27} (h : a.imm = some v) : Args.immN a = v.toNat := by simp [Args.immN, h]

/-- A middle field replaced. -/
theorem bitsOf_replace_middle {v x n : Nat} (h : v = bitsOf x 26 0 + n * 2 ^ 27 + bitsOf x 63 54 * 2 ^ 54) (hn : n < 2 ^ 27) :
    bitsOf v 53 27 = n ∧ bitsOf v 26 0 = bitsOf x 26 0 ∧ bitsOf v 63 54 = bitsOf x 63 54 := by
  subst h
  simp only [bitsOf_eq_div_mod]
  omega

/-- A field and what lies below it read back from their sum. -/
theorem bitsOf_of_join {lo top k hi : Nat} (hk : 0 < k) (hlo : lo < 2 ^ k) (htop : top < 2 ^ (hi + 1 - k)) :
    bitsOf (lo + top * 2 ^ k) hi k = top ∧ bitsOf (lo + top * 2 ^ k) (k - 1) 0 = lo := by
  constructor
  · rw [bitsOf_eq_div_mod, Nat.add_mul_div_right _ _ (Nat.two_pow_pos k), Nat.div_eq_of_lt hlo, Nat.zero_add, Nat.mod_eq_of_lt htop]
  · rw [bitsOf_eq_div_mod, Nat.sub_add_cancel hk, pow_zero, Nat.div_one, Nat.sub_zero, Nat.add_mul_mod_self_right, Nat.mod_eq_of_lt hlo]

theorem wrMovi_low (h : (intMods a.m.toNat).sub = 0) (c : Crew) (t : Thread) : wrMovi a c t = [.reg a.d (intMods a.m.toNat).regs (Args.immN a)] := by
  simp only [wrMovi, h]

theorem wrMovi_middle (h : (intMods a.m.toNat).sub = 1) (c : Crew) (t : Thread) : wrMovi a c t =
    let old := rd c t a.d (intMods a.m.toNat).regs
    [.reg a.d 2 (bitsOf old 26 0 + Args.immN a * 2 ^ 27 + bitsOf old 63 54 * 2 ^ 54)] := by
  simp only [wrMovi, h]

theorem wrMovi_high (h : 1 < (intMods a.m.toNat).sub) (c : Crew) (t : Thread) : wrMovi a c t =
    let old := rd c t a.d (intMods a.m.toNat).regs
    if (intMods a.m.toNat).regs = 2 then [.reg a.d 2 (bitsOf old 53 0 + bitsOf (Args.immN a) 9 0 * 2 ^ 54)]
    else [.reg a.d 1 (bitsOf old 26 0 + bitsOf (Args.immN a) 4 0 * 2 ^ 27)] := by
  unfold wrMovi
  dsimp only
  split
  · omega
  · omega
  · rfl

/-- Settles O15: each instruction writes one value for each active thread, by its equation. -/
theorem predicatesMovesAndAddresses : Obligations.PredicatesMovesAndAddresses := by
  unfold Obligations.PredicatesMovesAndAddresses
  refine ⟨fun s is c a h => ⟨?icmp, ?sel, ?plog, fun hm => ?any, fun hm => ?all, fun hm => ?ballot, fun hm => ?equal⟩,
    fun s is c a h => ⟨fun hR => ?copy, fun hI h1 => ?wide, fun hI hn => ?packed, fun hk => ?whole, fun hk => ?middle, fun hk hr => ?high32, fun hk hr => ?high64,
      fun hR => ?leaR, fun hI => ?leaI⟩⟩
  case icmp => exact writesP_of h (wrIcmp a) rfl fun t => congrArg (fun b => [Wr.pred a.d b]) (intCond_eq ..)
  case sel => exact writesD_of h (wrSel a) rfl fun t => ⟨_, rfl, rfl⟩
  case plog => exact writesP_of h (wrPlog a) rfl fun t => congrArg (fun b => [Wr.pred a.d b]) (predOp_eq ..)
  case any =>
    rw [WritesP, exec_vote h, voteWr, hm, any_id_map]
    rfl
  case all =>
    rw [WritesP, exec_vote h, voteWr, hm, all_id_map]
    rfl
  case ballot =>
    refine ⟨fun _ => ballot c (active c is a.guard) a, ?_, fun _ _ => testBit_ballot c _ a⟩
    rw [exec_vote h, voteWr, hm]
    rfl
  case equal => rw [WritesP, exec_vote h, voteWr_lanes hm]
  case copy => exact writesD_of h (wrMov a) rfl fun t => ⟨_, rfl, by rw [hR]⟩
  case wide =>
    obtain ⟨v, hv⟩ := Option.isSome_iff_exists.1 hI
    exact writesD_of h (wrMov a) rfl fun t => ⟨_, rfl, by rw [hv, immN_of_some hv]; exact if_pos h1⟩
  case packed =>
    obtain ⟨v, hv⟩ := Option.isSome_iff_exists.1 hI
    refine writesD_of h (wrMov a) rfl fun t => ⟨_, rfl, fun e he => ?_⟩
    rw [hv]
    simp only [ibVal, if_neg hn, immN_of_some hv, elem_fromElems _ _ _ _ (intMods_w_pos _) he]
  case whole => exact writesD_of h (wrMovi a) rfl fun t => ⟨_, wrMovi_low hk c t, rfl⟩
  case middle => exact writesD_of h (wrMovi a) rfl fun t => ⟨_, wrMovi_middle hk c t, bitsOf_replace_middle rfl (immN_lt a)⟩
  case high32 =>
    exact writesD_of h (wrMovi a) rfl fun t => ⟨_, (wrMovi_high hk c t).trans (if_neg (by rw [hr]; decide)),
      bitsOf_of_join (hi := 31) (by decide) (bitsOf_lt _ 26 0) (bitsOf_lt _ 4 0)⟩
  case high64 =>
    exact writesD_of h (wrMovi a) rfl fun t => ⟨_, (wrMovi_high hk c t).trans (if_pos hr),
      bitsOf_of_join (hi := 63) (by decide) (bitsOf_lt _ 53 0) (bitsOf_lt _ 9 0)⟩
  case leaR =>
    refine writesD_of h (wrLea a) rfl fun t => ⟨_, rfl, ?_⟩
    rw [hR, add_assoc]
    rfl
  case leaI =>
    obtain ⟨v, hv⟩ := Option.isSome_iff_exists.1 hI
    exact writesD_of h (wrLea a) rfl fun t => ⟨_, rfl, by rw [hv]; rfl⟩

end Sys2Proof.Machine
end

section
/-! PROOFS. What becomes of a crew's threads when waits at meets, barriers and `regang` end: they keep their numbers, and stay live or not. -/

namespace Sys2Proof.Machine

variable {c : Crew}

/-- A crew that keeps its number, and whose threads keep theirs and whether they are live. -/
structure KeepsLives (c c' : Crew) : Prop where
  uid : c'.uid = c.uid
  each : ∃ f : Thread → Thread, c'.threads = c.threads.map f ∧ ∀ t, (f t).tid = t.tid ∧ (f t).live = t.live

theorem KeepsLives.refl (c : Crew) : KeepsLives c c := ⟨rfl, id, by rw [List.map_id], fun _ => ⟨rfl, rfl⟩⟩

theorem KeepsLives.trans {c' c'' : Crew} (h : KeepsLives c c') (k : KeepsLives c' c'') : KeepsLives c c'' := by
  obtain ⟨hu, f, hf, hkeep⟩ := h
  obtain ⟨ku, g, kg, kkeep⟩ := k
  refine ⟨ku.trans hu, g ∘ f, by rw [kg, hf, List.map_map], fun t => ?_⟩
  obtain ⟨htid, hlive⟩ := hkeep t
  obtain ⟨ktid, klive⟩ := kkeep (f t)
  exact ⟨ktid.trans htid, klive.trans hlive⟩

theorem KeepsLives.foldl {β : Type} {f : Crew → β → Crew} (hf : ∀ c x, KeepsLives c (f c x)) {c c' : Crew} (h : KeepsLives c c') (xs : List β) :
    KeepsLives c (xs.foldl f c') := by
  induction xs generalizing c' with
  | nil => exact h
  | cons x xs ih => exact ih (h.trans (hf c' x))

/-- A change of some threads of the crew that keeps the same of each. -/
theorem KeepsLives.mapT_if {c' : Crew} (h : KeepsLives c c') {p : Thread → Prop} [DecidablePred p] {f : Thread → Thread}
    (hf : ∀ t, (f t).tid = t.tid ∧ (f t).live = t.live) : KeepsLives c (c'.mapT fun t => if p t then f t else t) :=
  h.trans ⟨rfl, _, rfl, fun t => by
    split
    · exact hf t
    · exact ⟨rfl, rfl⟩⟩

theorem KeepsLives.upd {c' : Crew} (h : KeepsLives c c') (i : Nat) {f : Thread → Thread} (hf : ∀ t, (f t).tid = t.tid ∧ (f t).live = t.live) :
    KeepsLives c (c'.upd i f) := h.mapT_if hf

/-- A change of the crew beside its threads. -/
theorem KeepsLives.beside {c' c'' : Crew} (h : KeepsLives c c') (huid : c''.uid = c'.uid) (hthreads : c''.threads = c'.threads) : KeepsLives c c'' :=
  h.trans ⟨huid, id, by rw [hthreads, List.map_id], fun _ => ⟨rfl, rfl⟩⟩

theorem KeepsLives.settled {c' c'' : Crew} (h : KeepsLives c c') (hs : Settled c' c'') : KeepsLives c c'' := by
  obtain ⟨hshell, f, hf, hkeep⟩ := hs
  exact h.trans ⟨(congrArg Crew.uid hshell :), f, hf, fun t => ⟨settled_tid (hkeep t), (congrArg Thread.live (hkeep t) :)⟩⟩

theorem bindReleased_settled (c : Crew) (ids : List Nat) : Settled c (bindReleased c ids) := foldl_settled _ _ (fun c _ => bindGang_settled c _) c

theorem completeBarrier_keepsLives (b : Nat) (c : Crew) : KeepsLives c (completeBarrier b c) := by
  unfold completeBarrier
  dsimp only
  split
  · refine .settled ?_ (settleMeets_settled _ _)
    refine .settled ?_ (bindReleased_settled _ _)
    refine .mapT_if ?_ (fun t => ?_)
    · exact .beside (.refl c) rfl rfl
    · exact ⟨rfl, rfl⟩
  · exact .refl c

/-- Threads of a home gang that move on together from `regang`. -/
def regangMoved (ids : List Nat) (c : Crew) : Crew := bindGang (c.mapT fun t => if ids.contains t.tid then { t with hold := .none, pc := t.pc + 8 } else t) ids

theorem regangMoved_keepsLives (ids : List Nat) (c : Crew) : KeepsLives c (regangMoved ids c) := by
  refine .settled ?_ (bindGang_settled _ ids)
  refine .mapT_if (.refl c) fun t => ?_
  exact ⟨rfl, rfl⟩

theorem releaseRegangs_keepsLives (c : Crew) : KeepsLives c (releaseRegangs c) := by
  refine .foldl (fun c g => ?_) (.refl c) (List.range c.hgangs)
  dsimp only
  split
  · generalize ((c.threads.filter fun t => t.live && c.hgang t.tid == g).map (·.tid)) = ids
    have hbeside : KeepsLives c { regangMoved ids c with regangStall := mput 0 c.regangStall g 0 } := .beside (regangMoved_keepsLives ids c) rfl rfl
    exact .settled hbeside (settleMeets_settled ids _)
  · exact .refl c

end Sys2Proof.Machine
end

section
/-! PROOFS. Lanes that exchange values, threads that set their meets, and `regang`. -/

namespace Sys2Proof.Machine

variable {s : State} {is : Issue} {c : Crew} {a : Args}

/-! ### What one crew's update leaves alone -/

theorem onlyCrew_updCrew {uid : Nat} {f : Crew → Crew} (hf : ∀ c, (f c).uid = c.uid) (s : State) (i : Option Issue) :
    OnlyCrew s { updCrew s uid f with issue := i } uid :=
  ⟨rfl, fun _ hu => getCrew_updCrew_ne f hf hu⟩

/-! ### `shfl` (R128) -/

/-- The thread that an active thread of `shfl` reads from: the active one of the lane that its sub-op names, if there is one. -/
def shflFrom (is : Issue) (c : Crew) (a : Args) (t : Thread) : Option Thread :=
  (shflSource (intMods a.m.toNat).sub c.gw (c.lane t.tid) (a.imm.elim (rd c t a.b 1) BitVec.toNat)).bind fun l =>
    (active c is a.guard).find? fun u => c.lane u.tid == l

theorem shflFrom_some {t u : Thread} (h : shflFrom is c a t = some u) : u ∈ active c is a.guard ∧
    shflSource (intMods a.m.toNat).sub c.gw (c.lane t.tid) (a.imm.elim (rd c t a.b 1) BitVec.toNat) = some (c.lane u.tid) := by
  obtain ⟨l, hl, hfind⟩ := Option.bind_eq_some_iff.1 h
  have hlane : c.lane u.tid = l := by simpa using List.find?_some hfind
  exact ⟨List.mem_of_find?_eq_some hfind, by rw [hl, hlane]⟩

theorem shflFrom_none {t u : Thread} (h : shflFrom is c a t = none) (hu : u ∈ active c is a.guard) :
    shflSource (intMods a.m.toNat).sub c.gw (c.lane t.tid) (a.imm.elim (rd c t a.b 1) BitVec.toNat) ≠ some (c.lane u.tid) := by
  intro hl
  simpa using List.find?_eq_none.1 (Option.bind_eq_none_iff.1 h _ hl) u hu

theorem exec_shfl (hi : Issues s is c) (a : Args) : exec (.shfl a) s = .next (regsWritten s is ((active c is a.guard).flatMap fun t =>
    (t.tid, Wr.reg a.d (intMods a.m.toNat).regs (rd c ((shflFrom is c a t).getD t) a.a (intMods a.m.toNat).regs)) ::
      if a.imm.isSome then [] else [(t.tid, .pred a.c (shflFrom is c a t).isSome)])) := by
  rw [show exec (.shfl a) s = execShfl a s from rfl, execShfl, gangDo_issues hi]
  unfold shflFrom
  cases a.imm <;> rfl

/-! ### Meets and `regang` (R126, R127) -/

/-- A thread whose meet is set anew (R127). -/
def setMeetOf (act : List Thread) (f : Thread → Word64) (u : Thread) : Thread :=
  if (act.map (·.tid)).contains u.tid then { u with meet := f u, pass := false } else u

theorem getCrew_setMeet (hi : Issues s is c) (g : Guard) (f : Thread → Word64) :
    getCrew (setMeet (envOf s is c g) f) is.crew = some (c.mapT (setMeetOf (active c is g) f)) :=
  getCrew_updCrew_same (f := (·.mapT (setMeetOf (active c is g) f))) (fun _ => rfl) hi.crew

theorem onlyCrew_setMeet (s : State) (is : Issue) (c : Crew) (g : Guard) (f : Thread → Word64) : OnlyCrew s (setMeet (envOf s is c g) f) is.crew :=
  onlyCrew_updCrew (f := (·.mapT (setMeetOf (active c is g) f))) (fun _ => rfl) s s.issue

theorem exec_meetX (hi : Issues s is c) (a : Args) : exec (.meetX a) s = .next (retire is (setMeet (envOf s is c a.guard) fun _ => brTarget is.pc a)) := by
  rw [show exec (.meetX a) s = execMeetX a s from rfl, execMeetX, gangDo_issues hi]
  rfl

theorem exec_meetSet (hi : Issues s is c) (a : Args) : exec (.meetSet a) s = .next (retire is (setMeet (envOf s is c a.guard) (indirect c a))) := by
  rw [show exec (.meetSet a) s = execMeetSet a s from rfl, execMeetSet, gangDo_issues hi]
  rfl

/-- The crew of a gang that has come to `regang`. -/
def regangArrived (is : Issue) (c : Crew) : Crew := releaseRegangs ((endBindings c is.tids).mapT fun u => if is.tids.contains u.tid then { u with hold := .regang } else u)

theorem exec_regang (hi : Issues s is c) (a : Args) : exec (.regang a) s = .next { updCrew s is.crew (regangArrived is) with issue := none } := by
  rw [show exec (.regang a) s = execRegang a s from rfl, execRegang, gangDo_issues hi]
  rfl

/-- Settles O21: the lane that `shfl` reads is found among the active ones or not, and the others change their own crew only. -/
theorem lanesMeet : Obligations.LanesMeet := by
  unfold Obligations.LanesMeet
  refine ⟨fun s is c a hi => ⟨shflFrom is c a, exec_shfl hi a, fun t _ => ⟨fun u => shflFrom_some, fun h u => shflFrom_none h⟩⟩, fun s is c a hi => ⟨?meetX, ?meetSet, ?regang⟩⟩
  case meetX => exact ⟨_, exec_meetX hi a, _, rfl, onlyCrew_setMeet s is c _ _, getCrew_setMeet hi _ _⟩
  case meetSet => exact ⟨_, exec_meetSet hi a, _, rfl, onlyCrew_setMeet s is c _ _, getCrew_setMeet hi _ _⟩
  case regang =>
    have huid : ∀ c, (regangArrived is c).uid = c.uid := fun c => (releaseRegangs_keepsLives _).uid
    exact ⟨_, exec_regang hi a, rfl, onlyCrew_updCrew huid s none, getCrew_updCrew_same huid hi.crew⟩

end Sys2Proof.Machine
end

section
/-! PROOFS. Crew barriers: an arrival, the completion of a phase, and the three instructions. -/

namespace Sys2Proof.Machine

variable {s : State} {is : Issue} {c : Crew} {a : Args}

/-! ### The state of a barrier (R115) -/

@[simp] theorem barrierOf_setBarrier_same (c : Crew) (b : Nat) (x : Barrier) : barrierOf (setBarrier c b x) b = x := mget_mput_same ..

theorem Settled.barrierOf {c' : Crew} (h : Settled c c') (b : Nat) : Machine.barrierOf c' b = Machine.barrierOf c b :=
  congrArg (mget default · b) (congrArg Crew.barriers h.shell :)

/-- Whether a phase is complete is a matter of which threads have arrived and which are live. -/
theorem KeepsLives.barrierDone {c' : Crew} (h : KeepsLives c c') (x : Barrier) : Machine.barrierDone c' x = Machine.barrierDone c x := by
  obtain ⟨-, f, hf, hkeep⟩ := h
  have hcount : (c'.threads.filter fun t => x.arrived.contains t.tid || !t.live).length = (c.threads.filter fun t => x.arrived.contains t.tid || !t.live).length := by
    have hsame : (fun t => x.arrived.contains t.tid || !t.live) ∘ f = fun t => x.arrived.contains t.tid || !t.live :=
      funext fun t => by simp only [Function.comp, (hkeep t).1, (hkeep t).2]
    rw [hf, List.filter_map, List.length_map, hsame]
  have hlength : c'.threads.length = c.threads.length := by rw [hf, List.length_map]
  unfold Machine.barrierDone
  rw [hcount, hlength]

/-! ### The completion of a phase -/

theorem completeBarrier_of_not_done {b : Nat} (h : barrierDone c (barrierOf c b) = false) : completeBarrier b c = c := by
  simp [completeBarrier, h]

/-- The threads that wait at a barrier for its phase. -/
def waiting (b : Nat) (c : Crew) : List Nat := (c.threads.filter (waitsAt b (barrierOf c b).phase)).map (·.tid)

/-- A thread released from a barrier: it goes on past its word. -/
def released (b : Nat) (t : Thread) : Thread := { t with hold := .none, pc := t.pc + 8, arrivals := mput 0 t.arrivals b 0, region := t.region + 1 }

/-- A crew whose barrier has gone on to its next phase. -/
def phasePassed (b : Nat) (c : Crew) : Crew :=
  (setBarrier c b { phase := (barrierOf c b).phase + 1 }).mapT fun t => if (waiting b c).contains t.tid then released b t else t

theorem completeBarrier_of_done {b : Nat} (h : barrierDone c (barrierOf c b) = true) :
    completeBarrier b c = settleMeets (waiting b c) (bindReleased (phasePassed b c) (waiting b c)) := by
  unfold completeBarrier
  dsimp only
  rw [if_pos h]
  rfl

theorem completeBarrier_settled {b : Nat} (h : barrierDone c (barrierOf c b) = true) : Settled (phasePassed b c) (completeBarrier b c) := by
  rw [completeBarrier_of_done h]
  exact (bindReleased_settled _ _).trans (settleMeets_settled _ _)

theorem bindReleased_keeps {P : Thread → Prop} (hbound : ∀ t b, P t → P { t with bound := b }) (ids : List Nat) (h : ∀ t ∈ c.threads, P t) :
    ∀ t ∈ (bindReleased c ids).threads, P t := by
  have hfold : ∀ (keys : List (Nat × Word64)) (c : Crew), (∀ t ∈ c.threads, P t) → ∀ t ∈ (keys.foldl (fun c k => bindGang c ((c.threads.filter fun t =>
      ids.contains t.tid && c.hgang t.tid == k.1 && t.pc == k.2).map (·.tid))) c).threads, P t := by
    intro keys
    induction keys with
    | nil => exact fun c h => h
    | cons k ks ih =>
      intro c h
      rw [List.foldl_cons]
      exact ih _ (mapT_if_keeps (fun t => hbound t _) _ (endBindings_keeps hbound _ h))
  exact hfold _ c h

theorem not_waitsAt_of_phasePassed {b : Nat} : ∀ t ∈ (phasePassed b c).threads, waitsAt b (barrierOf c b).phase t = false := by
  refine List.forall_mem_map.2 fun t ht => ?_
  split
  · rfl
  next hout =>
    refine Bool.eq_false_iff.2 fun hwait => hout (List.contains_iff_mem.2 ?_)
    exact List.mem_map_of_mem (List.mem_filter.2 ⟨ht, hwait⟩)

/-- When a phase completes nobody waits for it any more. -/
theorem not_waitsAt_of_completeBarrier {b : Nat} (h : barrierDone c (barrierOf c b) = true) :
    ∀ t ∈ (completeBarrier b c).threads, waitsAt b (barrierOf c b).phase t = false := by
  rw [completeBarrier_of_done h]
  exact settleMeets_keeps (fun t _ ht => ht) (fun t _ _ => rfl) (fun t _ => rfl) _ (bindReleased_keeps (fun t _ ht => ht) _ not_waitsAt_of_phasePassed)

/-- A thread that waited for the phase that completes stands a word on. -/
theorem thread_completeBarrier {b u : Nat} {v : Thread} (h : barrierDone c (barrierOf c b) = true) (hv : c.thread u = some v)
    (hwait : waitsAt b (barrierOf c b).phase v = true) :
    ∃ v', (completeBarrier b c).thread u = some v' ∧ v'.pc = v.pc + 8 ∧ waitsAt b (barrierOf c b).phase v' = false := by
  have hin : (waiting b c).contains v.tid = true :=
    List.contains_iff_mem.2 (List.mem_map_of_mem (List.mem_filter.2 ⟨List.mem_of_find?_eq_some hv, hwait⟩))
  have hpassed : (phasePassed b c).thread u = some (released b v) := by
    rw [phasePassed, thread_mapT _ _ _ fun t => by split <;> rfl, show (setBarrier c b _).thread u = some v from hv, Option.map_some, if_pos hin]
  obtain ⟨v', hv', hset⟩ := (completeBarrier_settled h).thread u hpassed
  exact ⟨v', hv', (congrArg Thread.pc hset :), not_waitsAt_of_completeBarrier h v' (List.mem_of_find?_eq_some hv')⟩

theorem barrierOf_completeBarrier {b : Nat} (h : barrierDone c (barrierOf c b) = true) :
    barrierOf (completeBarrier b c) b = { phase := (barrierOf c b).phase + 1 } := by
  rw [(completeBarrier_settled h).barrierOf]
  exact barrierOf_setBarrier_same c b { phase := (barrierOf c b).phase + 1 }

/-! ### An arrival -/

/-- A crew in which an arrival of a thread is counted, before the phase is looked at. -/
def counted (b count i : Nat) (c : Crew) : Crew :=
  (setBarrier c b { barrierOf c b with arrived := (barrierOf c b).arrived ++ [i], mode := some ((barrierOf c b).mode.getD count) }).upd i fun t =>
    { t with arrivals := mput 0 t.arrivals b ((barrierOf c b).phase + 1), region := t.region + 1 }

theorem counted_keepsLives (b count i : Nat) (c : Crew) : KeepsLives c (counted b count i c) := by
  refine .upd ?_ i fun t => ?_
  · exact .beside (.refl c) rfl rfl
  · exact ⟨rfl, rfl⟩

theorem barrierOf_counted (b count i : Nat) (c : Crew) : barrierOf (counted b count i c) b =
    { barrierOf c b with arrived := (barrierOf c b).arrived ++ [i], mode := some ((barrierOf c b).mode.getD count) } :=
  barrierOf_setBarrier_same c b _

/-- A counted arrival moves nobody. -/
theorem thread_counted {b count i u : Nat} {v : Thread} (hv : c.thread u = some v) : ∃ v', (counted b count i c).thread u = some v' ∧ v'.pc = v.pc ∧ v'.hold = v.hold := by
  refine ⟨_, (thread_upd _ _ _ _ fun _ => by rfl).trans (congrArg (Option.map _) hv), ?_⟩
  dsimp only
  split <;> exact ⟨rfl, rfl⟩

theorem arriveAt_again {b count : Nat} {t : Thread} (ht : c.thread t.tid = some t) (h : mget 0 t.arrivals b = (barrierOf c b).phase + 1) :
    arriveAt b count t.tid c = c.upd t.tid fun t => { t with region := t.region + 1 } := by
  simp only [arriveAt, ht, if_pos h]

theorem arriveAt_first {b count : Nat} {t : Thread} (ht : c.thread t.tid = some t) (h : mget 0 t.arrivals b ≠ (barrierOf c b).phase + 1) :
    arriveAt b count t.tid c = completeBarrier b (counted b count t.tid c) := by
  simp only [arriveAt, ht, if_neg h]
  rfl

theorem arriveAt_keepsLives (b count i : Nat) (c : Crew) : KeepsLives c (arriveAt b count i c) := by
  cases hi : c.thread i with
  | none =>
    rw [show arriveAt b count i c = c by simp only [arriveAt, hi]]
    exact .refl c
  | some t =>
    obtain rfl := thread_tid hi
    by_cases h : mget 0 t.arrivals b = (barrierOf c b).phase + 1
    · rw [arriveAt_again hi h]
      refine .upd (.refl c) _ fun t => ?_
      exact ⟨rfl, rfl⟩
    · rw [arriveAt_first hi h]
      exact (counted_keepsLives b count _ c).trans (completeBarrier_keepsLives b _)

theorem arriveWait_keepsLives (b count i : Nat) (c : Crew) : KeepsLives c (arriveWait b count i c) := by
  have hheld : KeepsLives c (c.upd i fun t => { t with hold := .bar b (barrierOf c b).phase }) := .upd (.refl c) i fun t => ⟨rfl, rfl⟩
  exact hheld.trans (arriveAt_keepsLives b count i _)

/-! ### The instructions (R124) -/

/-- The crew of a gang at `bar.sync`: its active threads arrive and wait, the others move on. -/
def syncedCrew (is : Issue) (act : List Thread) (b count : Nat) (c : Crew) : Crew :=
  moveTo (is.tids.filter fun i => !(act.map (·.tid)).contains i) (fun _ => is.pc + 8) (act.foldl (fun c u => arriveWait b count u.tid c) (endBindings c is.tids))

theorem syncedCrew_uid (is : Issue) (act : List Thread) (b count : Nat) (c : Crew) : (syncedCrew is act b count c).uid = c.uid := by
  have hended : KeepsLives c (endBindings c is.tids) := .settled (.refl c) (endBindings_settled c is.tids)
  have hwaits := KeepsLives.foldl (fun (c : Crew) (u : Thread) => arriveWait_keepsLives b count u.tid c) hended act
  exact (moveTo_uid _ _ _).trans hwaits.uid

theorem exec_barSync (hi : Issues s is c) (hact : active c is a.guard ≠ []) (hout : NoStoresOut s is c a.guard) :
    exec (.barSync a) s = .next { updCrew s is.crew (syncedCrew is (active c is a.guard) (barIndex a) (barCount a)) with issue := none } := by
  rw [show exec (.barSync a) s = execBarSync a s from rfl, execBarSync, gangDo_issues hi, act_isEmpty hact, if_neg Bool.false_ne_true, withRelease_of_noStoresOut hout]
  rfl

/-- The crew of a gang at `bar.arrive`. -/
def arrivedCrew (act : List Thread) (b count : Nat) (c : Crew) : Crew := act.foldl (fun c u => arriveAt b count u.tid c) c

theorem arrivedCrew_uid (act : List Thread) (b count : Nat) (c : Crew) : (arrivedCrew act b count c).uid = c.uid :=
  (KeepsLives.foldl (fun (c : Crew) (u : Thread) => arriveAt_keepsLives b count u.tid c) (.refl c) act).uid

theorem exec_barArrive (hi : Issues s is c) (hout : NoStoresOut s is c a.guard) :
    exec (.barArrive a) s = .next (retire is (updCrew s is.crew (arrivedCrew (active c is a.guard) (barIndex a) (barCount a)))) := by
  rw [show exec (.barArrive a) s = execBarArrive a s from rfl, execBarArrive, gangDo_issues hi, withRelease_of_noStoresOut hout]
  rfl

/-! ### `bar.wait` (R124) -/

/-- The active threads of a gang whose arrival at a barrier is pending. -/
def pending (is : Issue) (c : Crew) (a : Args) : List Nat := ((active c is a.guard).filter (arrivalPending c (barIndex a))).map (·.tid)

theorem mem_pending {u : Thread} (hu : u ∈ active c is a.guard) : u.tid ∈ pending is c a ↔ arrivalPending c (barIndex a) u = true := by
  refine ⟨fun h => ?_, fun h => List.mem_map_of_mem (List.mem_filter.2 ⟨hu, h⟩)⟩
  obtain ⟨t, ht, hid⟩ := List.mem_map.1 h
  obtain ⟨hact, hpend⟩ := List.mem_filter.1 ht
  obtain rfl := active_ext hact hu hid
  exact hpend

/-- A thread at `bar.wait` of the crew `c`: held, gone past the barrier, or not concerned. -/
def barWaited (is : Issue) (c : Crew) (a : Args) (t : Thread) : Thread :=
  if (pending is c a).contains t.tid then { t with hold := .bar (barIndex a) (barrierOf c (barIndex a)).phase }
  else if (((active c is a.guard).filter fun t => !arrivalPending c (barIndex a) t).map (·.tid)).contains t.tid then
    { t with arrivals := mput 0 t.arrivals (barIndex a) 0, region := t.region + 1 }
  else t

theorem barWaited_same (is : Issue) (c : Crew) (a : Args) (t : Thread) : (barWaited is c a t).tid = t.tid ∧ (barWaited is c a t).pc = t.pc := by
  unfold barWaited
  split
  · exact ⟨rfl, rfl⟩
  split <;> exact ⟨rfl, rfl⟩

theorem barWaited_held {t : Thread} (h : t.tid ∈ pending is c a) : (barWaited is c a t).hold = .bar (barIndex a) (barrierOf c (barIndex a)).phase := by
  rw [barWaited, if_pos (List.contains_iff_mem.2 h)]

theorem barWaited_gone {t u : Thread} (hu : u ∈ active c is a.guard) (hgo : u.tid ∉ pending is c a) (ht : t.tid = u.tid) :
    mget 0 (barWaited is c a t).arrivals (barIndex a) = 0 := by
  have hnot : arrivalPending c (barIndex a) u = false := Bool.eq_false_iff.2 fun h => hgo ((mem_pending hu).2 h)
  have hin : u.tid ∈ ((active c is a.guard).filter fun t => !arrivalPending c (barIndex a) t).map (·.tid) :=
    List.mem_map_of_mem (List.mem_filter.2 ⟨hu, by rw [hnot]; rfl⟩)
  rw [barWaited, ht, if_neg fun h => hgo (List.contains_iff_mem.1 h), if_pos (List.contains_iff_mem.2 hin)]
  exact mget_mput_same 0 t.arrivals (barIndex a) 0

/-- The crew `k` of a gang at `bar.wait`, where the gang was issued with the crew `c`. -/
def barWaitCrew (is : Issue) (c : Crew) (a : Args) (k : Crew) : Crew :=
  moveTo (is.tids.filter fun i => !(pending is c a).contains i) (fun _ => is.pc + 8)
    ((if (pending is c a).isEmpty then k else endBindings k is.tids).mapT (barWaited is c a))

theorem barWaitCrew_uid (is : Issue) (c : Crew) (a : Args) (k : Crew) : (barWaitCrew is c a k).uid = k.uid := by
  rw [barWaitCrew, moveTo_uid]
  split <;> rfl

/-- Two changes of one crew, one after the other. -/
theorem updCrew_updCrew (s : State) (uid : Nat) {f g : Crew → Crew} (hf : ∀ c, (f c).uid = c.uid) : updCrew (updCrew s uid f) uid g = updCrew s uid (g ∘ f) := by
  have hmap : (s.crews.map fun c => if c.uid = uid then f c else c).map (fun c => if c.uid = uid then g c else c) =
      s.crews.map fun c => if c.uid = uid then (g ∘ f) c else c := by
    rw [List.map_map]
    refine List.map_congr_left fun c _ => ?_
    by_cases h : c.uid = uid
    · simp [h, hf]
    · simp [h]
  simp only [updCrew, hmap]

theorem exec_barWait (hi : Issues s is c) (a : Args) : exec (.barWait a) s = .next { updCrew s is.crew (barWaitCrew is c a) with issue := none } := by
  have huid : ∀ k : Crew, ((if (pending is c a).isEmpty then k else endBindings k is.tids).mapT (barWaited is c a)).uid = k.uid := fun k => by split <;> rfl
  have htwice := updCrew_updCrew s is.crew (g := moveTo (is.tids.filter fun i => !(pending is c a).contains i) fun _ => is.pc + 8) huid
  rw [show exec (.barWait a) s = execBarWait a s from rfl, execBarWait, gangDo_issues hi]
  exact congrArg (fun t : State => Host.Outcome.next { t with issue := none }) htwice

/-! ### Threads that a move does not touch -/

/-- Every thread of a number waits in this way. -/
def HoldsAs (i : Nat) (h : Hold) (c : Crew) : Prop := ∀ t ∈ c.threads, t.tid = i → t.hold = h

theorem HoldsAs.mapT_if {i : Nat} {h : Hold} (hc : HoldsAs i h c) {ids : List Nat} (hid : i ∉ ids) {f : Thread → Thread} (hf : ∀ t, (f t).tid = t.tid) :
    HoldsAs i h (c.mapT fun t => if ids.contains t.tid then f t else t) := by
  refine List.forall_mem_map.2 fun t ht => ?_
  split
  next hin => exact fun he => absurd (List.contains_iff_mem.1 hin) (by rw [← hf t, he]; exact hid)
  · exact hc t ht

theorem HoldsAs.endBindings {i : Nat} {h : Hold} (hc : HoldsAs i h c) (ids : List Nat) : HoldsAs i h (endBindings c ids) :=
  endBindings_keeps (fun _ _ ht => ht) ids hc

theorem HoldsAs.releaseMeet {i : Nat} {h : Hold} (hc : HoldsAs i h c) {ids : List Nat} (hid : i ∉ ids) : HoldsAs i h (releaseMeet c ids) := by
  have hpassed : HoldsAs i h (c.mapT fun t => if ids.contains t.tid then { t with pass := true, hold := .none } else t) := hc.mapT_if hid fun t => rfl
  generalize hk : (c.mapT fun t => if ids.contains t.tid then { t with pass := true, hold := .none } else t) = k at hpassed
  have hbound : HoldsAs i h ((Machine.endBindings k ids).mapT fun t => if ids.contains t.tid then { t with bound := some (Machine.endBindings k ids).nextBound } else t) :=
    (hpassed.endBindings ids).mapT_if hid fun t => rfl
  rw [Machine.releaseMeet, hk]
  exact hbound

theorem heldAtMeet_iff {t : Thread} : heldAtMeet t = true ↔ ∃ n, t.hold = .meet n := by
  unfold heldAtMeet
  split
  next n h => exact iff_of_true rfl ⟨n, h⟩
  next hne => exact iff_of_false Bool.false_ne_true fun ⟨n, h⟩ => hne n h

/-- The threads of a meet group that are released when some have arrived (R114). -/
def meetGroup (arr : List Nat) (c : Crew) (key : Nat × Word64) : List Nat :=
  (c.threads.filter fun t => c.hgang t.tid == key.1 && t.meet == key.2 && t.live && !t.pass && t.pc == t.meet &&
    (heldAtMeet t || (arr.contains t.tid && standsAtMeet t))).map (·.tid)

theorem HoldsAs.not_mem_meetGroup {i : Nat} {h : Hold} (hc : HoldsAs i h c) (hmeet : ∀ n, h ≠ .meet n) {arr : List Nat} (hid : i ∉ arr) (key : Nat × Word64) :
    i ∉ meetGroup arr c key := by
  intro hin
  obtain ⟨t, ht, rfl⟩ := List.mem_map.1 hin
  obtain ⟨hmem, hcond⟩ := List.mem_filter.1 ht
  simp only [Bool.and_eq_true, Bool.or_eq_true, List.contains_iff_mem, heldAtMeet_iff] at hcond
  rcases hcond.2 with ⟨n, hn⟩ | ⟨harr, -⟩
  · exact hmeet n ((hc t hmem rfl).symm.trans hn)
  · exact hid harr

theorem HoldsAs.foldl_releaseMeet {i : Nat} {h : Hold} (hmeet : ∀ n, h ≠ .meet n) {arr : List Nat} (hid : i ∉ arr) (keys : List (Nat × Word64)) (hc : HoldsAs i h c) :
    HoldsAs i h (keys.foldl (fun c key => Machine.releaseMeet c (meetGroup arr c key)) c) := by
  induction keys generalizing c with
  | nil => exact hc
  | cons key keys ih =>
    rw [List.foldl_cons]
    exact ih (hc.releaseMeet (hc.not_mem_meetGroup hmeet hid key))

/-- Arrivals of others release no thread that waits elsewhere than at a meet (R113, R114). -/
theorem HoldsAs.settleMeets {i : Nat} {h : Hold} (hc : HoldsAs i h c) (hmeet : ∀ n, h ≠ .meet n) {arr : List Nat} (hid : i ∉ arr) :
    HoldsAs i h (settleMeets arr c) := by
  refine HoldsAs.foldl_releaseMeet hmeet hid _ (HoldsAs.mapT_if (hc.endBindings _) (fun hin => ?_) fun t => ?_)
  · obtain ⟨t, ht, rfl⟩ := List.mem_map.1 hin
    obtain ⟨-, hcond⟩ := List.mem_filter.1 ht
    simp only [Bool.and_eq_true, List.contains_iff_mem] at hcond
    exact hid hcond.1.1
  · rfl

theorem HoldsAs.moveTo {i : Nat} {h : Hold} (hc : HoldsAs i h c) (hmeet : ∀ n, h ≠ .meet n) {ids : List Nat} (hid : i ∉ ids) (target : Nat → Word64) :
    HoldsAs i h (moveTo ids target c) := by
  unfold Machine.moveTo
  dsimp only
  refine HoldsAs.settleMeets (HoldsAs.mapT_if ?_ hid fun t => ?_) hmeet hid
  · split
    · exact hc.endBindings ids
    · exact hc
  · rfl

/-! ### What `bar.wait` makes of a thread -/

theorem endedOrNot_settled (p : Bool) (k : Crew) (ids : List Nat) : Settled k (if p then k else endBindings k ids) := by
  split
  · exact .refl k
  · exact endBindings_settled k ids

theorem holdsAs_barWaited {i : Nat} (h : i ∈ pending is c a) (k : Crew) : HoldsAs i (.bar (barIndex a) (barrierOf c (barIndex a)).phase) (k.mapT (barWaited is c a)) :=
  List.forall_mem_map.2 fun t _ hid => barWaited_held (by rwa [← (barWaited_same is c a t).1, hid])

theorem mem_movedOn {i : Nat} : i ∈ is.tids.filter (fun i => !(pending is c a).contains i) ↔ i ∈ is.tids ∧ i ∉ pending is c a := by
  simp [List.mem_filter]

/-- A thread of the gang after `bar.wait`. -/
theorem thread_barWaitCrew {u : Thread} (hu : c.thread u.tid = some u) (hact : u ∈ active c is a.guard) :
    ∃ u', (barWaitCrew is c a c).thread u.tid = some u' ∧
      if mget 0 u.arrivals (barIndex a) = (barrierOf c (barIndex a)).phase + 1 then u'.pc = u.pc ∧ u'.hold = .bar (barIndex a) (barrierOf c (barIndex a)).phase
      else u'.pc = is.pc + 8 ∧ mget 0 u'.arrivals (barIndex a) = 0 := by
  obtain ⟨u0, hu0, hset0⟩ := (endedOrNot_settled (pending is c a).isEmpty c is.tids).thread u.tid hu
  have hid : u0.tid = u.tid := settled_tid hset0
  obtain ⟨hsame, hpc0⟩ := barWaited_same is c a u0
  obtain ⟨-, f, hf, hset⟩ := moveTo_spec (is.tids.filter fun i => !(pending is c a).contains i) (fun _ => is.pc + 8)
    ((if (pending is c a).isEmpty then c else endBindings c is.tids).mapT (barWaited is c a))
  have hthread : (barWaitCrew is c a c).thread u.tid = some (f (barWaited is c a u0)) := by
    refine thread_map (t := barWaited is c a u0) hf (fun t => (congrArg Thread.tid (hset t) :)) ?_
    rw [thread_mapT _ _ _ fun t => (barWaited_same is c a t).1, hu0, Option.map_some]
  have hpc : (f (barWaited is c a u0)).pc = if (is.tids.filter fun i => !(pending is c a).contains i).contains u.tid then is.pc + 8 else u.pc := by
    have hset0pc : u0.pc = u.pc := (congrArg Thread.pc hset0 :)
    rw [← hid, ← hset0pc, ← hpc0, ← hsame]
    exact (congrArg Thread.pc (hset (barWaited is c a u0)) :)
  have harr : (f (barWaited is c a u0)).arrivals = (barWaited is c a u0).arrivals := (congrArg Thread.arrivals (hset (barWaited is c a u0)) :)
  refine ⟨_, hthread, ?_⟩
  split
  next hpend =>
    have hin : u.tid ∈ pending is c a := (mem_pending hact).2 (beq_iff_eq.2 hpend)
    have hstays : u.tid ∉ is.tids.filter fun i => !(pending is c a).contains i := fun h => (mem_movedOn.1 h).2 hin
    exact ⟨hpc.trans (if_neg fun h => hstays (List.contains_iff_mem.1 h)),
      (holdsAs_barWaited hin _).moveTo (fun n => Hold.noConfusion) hstays _ _ (List.mem_of_find?_eq_some hthread) (thread_tid hthread)⟩
  next hnot =>
    have hgo : u.tid ∉ pending is c a := fun h => hnot (beq_iff_eq.1 ((mem_pending hact).1 h))
    have hmoved : u.tid ∈ is.tids.filter fun i => !(pending is c a).contains i := mem_movedOn.2 ⟨(mem_active hact).1, hgo⟩
    exact ⟨hpc.trans (if_pos (List.contains_iff_mem.2 hmoved)), by rw [harr]; exact barWaited_gone hact hgo hid⟩

/-- Settles O22: an arrival by whether it is the thread's first of the phase and completes it; the instructions by what they make of their crew. -/
theorem crewBarriers : Obligations.CrewBarriers := by
  unfold Obligations.CrewBarriers
  refine ⟨fun c b count t _ ht => ⟨arriveAt_again ht, fun hfirst hnot => ?_, fun hfirst hdone => ?_⟩, fun s is c a hi hout => ⟨fun hact => ?_, ?_, ?_⟩⟩
  · have hstays : barrierDone (counted b count t.tid c) (barrierOf (counted b count t.tid c) b) = false := by
      rw [(counted_keepsLives b count t.tid c).barrierDone, barrierOf_counted]
      exact hnot
    rw [arriveAt_first ht hfirst, completeBarrier_of_not_done hstays]
    exact ⟨barrierOf_counted b count t.tid c, fun u v => thread_counted⟩
  · have hcompletes : barrierDone (counted b count t.tid c) (barrierOf (counted b count t.tid c) b) = true := by
      rw [(counted_keepsLives b count t.tid c).barrierDone, barrierOf_counted]
      exact hdone
    have hphase : (barrierOf (counted b count t.tid c) b).phase = (barrierOf c b).phase := by rw [barrierOf_counted]
    rw [arriveAt_first ht hfirst]
    refine ⟨by rw [barrierOf_completeBarrier hcompletes, hphase], fun u v hv hwait => ?_⟩
    obtain ⟨v1, hv1, hpc, hhold⟩ := thread_counted (b := b) (count := count) (i := t.tid) hv
    obtain ⟨v', hv', hpc', hfree⟩ := thread_completeBarrier hcompletes hv1 (by rw [hphase, waitsAt, hhold]; exact hwait)
    exact ⟨v', hv', by rw [hpc', hpc], by rw [← hphase]; exact hfree⟩
  · exact ⟨_, exec_barSync hi hact hout, rfl, onlyCrew_updCrew (syncedCrew_uid is _ _ _) s none, getCrew_updCrew_same (syncedCrew_uid is _ _ _) hi.crew⟩
  · exact ⟨_, exec_barArrive hi hout, onlyCrew_updCrew (arrivedCrew_uid _ _ _) s s.issue, getCrew_updCrew_same (arrivedCrew_uid _ _ _) hi.crew⟩
  · exact ⟨_, _, exec_barWait hi a, rfl, onlyCrew_updCrew (barWaitCrew_uid is c a) s none, getCrew_updCrew_same (barWaitCrew_uid is c a) hi.crew,
      fun u hu hact => thread_barWaitCrew hu hact⟩

end Sys2Proof.Machine
end

section
/-! PROOFS. `exit` where two crews have one number. -/

namespace Sys2Proof.Machine

theorem exec_exit {s : State} {is : Issue} {c : Crew} {a : Args} (hi : Issues s is c) (hact : active c is a.guard ≠ []) (hout : NoStoresOut s is c a.guard) :
    exec (.exit a) s = .next { exitThreads (updCrew s is.crew fun k => moveTo (is.tids.filter fun i => !((active c is a.guard).map (·.tid)).contains i)
      (fun _ => is.pc + 8) (endBindings k is.tids)) is.crew ((active c is a.guard).map (·.tid)) with issue := none } := by
  rw [show exec (.exit a) s = execExit a s from rfl, execExit, gangDo_issues hi, act_isEmpty hact, if_neg Bool.false_ne_true, withRelease_of_noStoresOut hout]
  rfl

/-- A crew of one thread, with what its p0 holds. -/
def soleCrew (p : SMap Bool) : Crew := { uid := 5, kind := .seed, threads := [{ tid := 0, pc := 0x1000, p := p }] }

/-- Two crews of one number: p0 is true in the thread of the first, and false in that of the second. -/
def twoCrews : State := { State.reset with crews := [soleCrew [(0, true)], soleCrew []], issue := some { crew := 5, pc := 0x1000, tids := [0] } }

/-- `exit` under p0. -/
def exitUnderP0 : Args := { guard := { p := 0, neg := false }, m := 0, d := .none, a := .none, b := .none, c := .none, x := 0, imm := none }

/-- Where the threads of every crew stand. -/
def pcsOf (s : State) : List (List Word64) := s.crews.map fun c => c.threads.map (·.pc)

theorem issues_twoCrews : Issues twoCrews { crew := 5, pc := 0x1000, tids := [0] } (soleCrew [(0, true)]) := ⟨rfl, rfl⟩

/-- The first crew, which issues, has no thread that moves on; so neither has the second. -/
theorem exec_exit_twoCrews : ∃ t, exec (.exit exitUnderP0) twoCrews = .next t ∧ pcsOf t = [[0x1000], [0x1000]] :=
  ⟨_, exec_exit issues_twoCrews (by decide +kernel) (by unfold NoStoresOut; decide +kernel), by decide +kernel⟩

/-- Refutes O24: `exit` moves on the inactive threads of the gang that issues, which is one of the first crew of its number; the statement takes the active threads anew
from each crew of that number, and no premise keeps the numbers of crews apart. Here the guard is false in the second crew, which the statement would have move on. -/
theorem not_exitAndRetire : ¬ Obligations.ExitAndRetire := by
  unfold Obligations.ExitAndRetire
  rintro ⟨hexit, -⟩
  obtain ⟨t, hexec, -, ht⟩ := hexit twoCrews _ _ exitUnderP0 issues_twoCrews (by unfold NoStoresOut; decide +kernel) (by decide +kernel)
  obtain ⟨u, hu, hstands⟩ := exec_exit_twoCrews
  obtain rfl : u = t := Host.Outcome.next.inj (hu.symm.trans hexec)
  have hmoves : pcsOf u = [[0x1000], [0x1008]] := by
    rw [ht]
    decide +kernel
  exact absurd (hstands.symm.trans hmoves) (by decide)

end Sys2Proof.Machine
end

section
/-! PROOFS. Watched waits: each takes STALL at its limit, and what ends a meet or an age does. -/

namespace Sys2Proof.Machine

variable {s : State} {c : Crew} {t : Thread}

/-! ### The least of a list -/

theorem leastOr_mem_and_le {d : Nat} {l : List Nat} (h : l ≠ []) : leastOr d l ∈ l ∧ ∀ y ∈ l, leastOr d l ≤ y := by
  cases l with
  | nil => exact absurd rfl h
  | cons x xs => exact List.min?_eq_some_iff.1 List.min?_cons'

theorem leastOr_congr {d d' : Nat} {l : List Nat} (h : l ≠ []) : leastOr d l = leastOr d' l := by
  cases l with
  | nil => exact absurd rfl h
  | cons x xs => rfl

/-- A crew has a thread of each number that one of its threads has. -/
theorem thread_of_mem_tids {p : Thread → Bool} {i : Nat} (h : i ∈ (c.threads.filter p).map (·.tid)) : ∃ t, c.thread i = some t := by
  obtain ⟨t, ht, rfl⟩ := List.mem_map.1 h
  refine Option.isSome_iff_exists.1 (List.find?_isSome.2 ⟨t, (List.mem_filter.1 ht).1, beq_self_eq_true _⟩)

theorem getCrew_of_counting {uid : Nat} (h : countingCrew s uid = some c) : getCrew s uid = some c :=
  (Option.filter_eq_some_iff.1 h).1

/-! ### STALL (R116, R408) -/

theorem raiseStall_of_mem {ids : List Nat} {low : Thread} (h : c.thread (leastOr 0 ids) = some low) (kind addr : Nat) (more : List PutField) :
    raiseStall s c ids kind addr more = raise s c.uid low.pc ids (stallTrap c ids kind addr more) := by
  simp only [raiseStall, h]

/-- A step that raises STALL for some threads of a crew and then renews only their waits is one that `Stalls`. -/
theorem stalls_of_raiseStall {i : Instr} {P : Nat → Prop} {ids : List Nat} {kind addr : Nat} {more : List PutField} {g : Crew → Crew}
    (hids : ∀ i ∈ ids, ∃ t, c.thread i = some t) (hne : ids ≠ []) (hP : ∀ i, P i → i ∈ ids)
    (hexec : exec i s = .next (updCrew (raiseStall s c ids kind addr more) c.uid g))
    (hg : ∀ c, (g c).halt = c.halt ∧ (g c).uid = c.uid ∧ (g c).threads.map (·.pc) = c.threads.map (·.pc)) : Stalls i s c.uid P kind := by
  obtain ⟨low, hlow⟩ := hids _ (leastOr_mem_and_le (d := 0) hne).1
  rw [raiseStall_of_mem hlow] at hexec
  exact ⟨stallTrap c ids kind addr more, low.pc, g, rfl, hP, List.mem_cons_self .., hg, hexec⟩

/-! ### Waits watched by their threads' own counters -/

theorem mem_stalledWith {since : Hold → Option Nat} {n : Nat} (ht : c.thread t.tid = some t) (hlive : t.live = true) (hsince : since t.hold = some n)
    (hlimit : stallLimitOf s c ≤ c.counted - n) : t.tid ∈ stalledWith s c t since :=
  List.mem_map_of_mem (List.mem_filter.2 ⟨List.mem_of_find?_eq_some ht, by simp [hlive, hsince, hlimit]⟩)

/-- The crew after STALL: the waits of the threads that share it begin anew. -/
def renewed (ids : List Nat) (reset : Nat → Hold → Hold) (now : Nat) (c : Crew) : Crew := c.mapT fun t => if ids.contains t.tid then { t with hold := reset now t.hold } else t

theorem renewed_same (ids : List Nat) (reset : Nat → Hold → Hold) (now : Nat) (c : Crew) :
    (renewed ids reset now c).halt = c.halt ∧ (renewed ids reset now c).uid = c.uid ∧ (renewed ids reset now c).threads.map (·.pc) = c.threads.map (·.pc) := by
  refine ⟨rfl, rfl, ?_⟩
  rw [renewed, mapT_threads, List.map_map]
  refine List.map_congr_left fun t _ => ?_
  dsimp only [Function.comp]
  split <;> rfl

/-- A thread whose wait has lasted its limit takes STALL with those that share the wait. -/
theorem stallAt_of_limit {since : Hold → Option Nat} {reset : Nat → Hold → Hold} {info : Thread → Nat × Nat × List PutField} {n : Nat} (hc : countingCrew s c.uid = some c)
    (ht : c.thread t.tid = some t) (hlive : t.live = true) (hsince : since t.hold = some n) (hlimit : stallLimitOf s c ≤ c.counted - n) :
    ∃ low, stallAt s c.uid t.tid since reset info = updCrew (raiseStall s c (stalledWith s c t since) (info low).1 (info low).2.1 (info low).2.2) c.uid
      (renewed (stalledWith s c t since) reset c.counted) := by
  have hin := mem_stalledWith ht hlive hsince hlimit
  obtain ⟨low, hlow⟩ := thread_of_mem_tids (leastOr_mem_and_le (d := t.tid) (List.ne_nil_of_mem hin)).1
  refine ⟨low, ?_⟩
  have hcontains : (!(stalledWith s c t since).contains t.tid) = false := by rw [List.contains_iff_mem.2 hin]; rfl
  unfold stallAt
  simp only [hc, ht, hlow, hcontains, Bool.false_eq_true, if_false]
  rfl

theorem stalls_of_stallAt {since : Hold → Option Nat} {reset : Nat → Hold → Hold} {info : Thread → Nat × Nat × List PutField} {n kind : Nat} {i : Instr}
    (hexec : exec i s = .next (stallAt s c.uid t.tid since reset info)) (hkind : ∀ u, (info u).1 = kind) (hc : countingCrew s c.uid = some c)
    (ht : c.thread t.tid = some t) (hlive : t.live = true) (hlimit : stallLimitOf s c ≤ c.counted - n) (hsince : since t.hold = some n) : Stalls i s c.uid (· = t.tid) kind := by
  obtain ⟨low, hlow⟩ := stallAt_of_limit (reset := reset) (info := info) hc ht hlive hsince hlimit
  have hin := mem_stalledWith ht hlive hsince hlimit
  rw [hlow, hkind] at hexec
  exact stalls_of_raiseStall (fun _ => thread_of_mem_tids) (List.ne_nil_of_mem hin) (fun _ hi => hi ▸ hin) hexec (renewed_same _ reset _)

/-! ### Barriers and `regang` (R116) -/

theorem exec_barrierStall {b : Nat} (hc : countingCrew s c.uid = some c) (hne : waiting b c ≠ []) (hlimit : stallLimitOf s c ≤ (barrierOf c b).stall) :
    exec (.barrierStall c.uid b) s = .next (updCrew (raiseStall s c (waiting b c) b 0 [threadMap ((c.threads.filter (missing (barrierOf c b))).map (·.tid))]) c.uid
      fun k => setBarrier k b { barrierOf c b with stall := 0 }) := by
  have hgo : ((waiting b c).isEmpty || decide ((barrierOf c b).stall < stallLimitOf s c)) = false := by simp [hne, hlimit]
  rw [show exec (.barrierStall c.uid b) s = execBarrierStall c.uid b s from rfl]
  simp only [execBarrierStall, hc]
  exact if_neg (Bool.eq_false_iff.1 hgo)

theorem mem_waiting {b i : Nat} : i ∈ waiting b c ↔ ∃ t ∈ c.threads, t.tid = i ∧ waitsAt b (barrierOf c b).phase t = true := by
  simp [waiting, List.mem_filter, and_assoc, and_comm (a := waitsAt _ _ _ = true)]

theorem stalls_barrier {b : Nat} (hc : countingCrew s c.uid = some c) (hwait : ∃ t ∈ c.threads, waitsAt b (barrierOf c b).phase t = true)
    (hlimit : stallLimitOf s c ≤ (barrierOf c b).stall) :
    Stalls (.barrierStall c.uid b) s c.uid (fun i => ∃ t ∈ c.threads, t.tid = i ∧ waitsAt b (barrierOf c b).phase t = true) b := by
  obtain ⟨t, ht, hw⟩ := hwait
  have hne : waiting b c ≠ [] := List.ne_nil_of_mem (mem_waiting.2 ⟨t, ht, rfl, hw⟩)
  exact stalls_of_raiseStall (fun _ => thread_of_mem_tids) hne (fun _ => mem_waiting.2) (exec_barrierStall hc hne hlimit) fun _ => ⟨rfl, rfl, rfl⟩

/-- The live threads of a home gang. -/
def homeGang (g : Nat) (c : Crew) : List Thread := c.threads.filter fun t => t.live && c.hgang t.tid == g

/-- Those of them that wait at `regang`. -/
def atRegang (g : Nat) (c : Crew) : List Thread := (homeGang g c).filter (·.hold == .regang)

theorem mem_atRegang {g : Nat} : t ∈ atRegang g c ↔ t ∈ c.threads ∧ t.live = true ∧ c.hgang t.tid = g ∧ t.hold = .regang := by
  simp only [atRegang, homeGang, List.mem_filter, Bool.and_eq_true, beq_iff_eq, and_assoc]

theorem exec_regangStall {g : Nat} {ts : List Thread} (hc : countingCrew s c.uid = some c) (hwait : atRegang g c = t :: ts)
    (hlimit : stallLimitOf s c ≤ mget 0 c.regangStall g) : exec (.regangStall c.uid g) s =
      .next (updCrew (raiseStall s c ((t :: ts).map (·.tid)) 16 t.pc.toNat [threadMap (((homeGang g c).filter (·.pc != t.pc)).map (·.tid))]) c.uid
        fun c => { c with regangStall := mput 0 c.regangStall g 0 }) := by
  have hgo : ¬mget 0 c.regangStall g < stallLimitOf s c := Nat.not_lt.2 hlimit
  have hwaits : (c.threads.filter fun t => t.live && c.hgang t.tid == g).filter (·.hold == .regang) = t :: ts := hwait
  rw [show exec (.regangStall c.uid g) s = execRegangStall c.uid g s from rfl]
  simp only [execRegangStall, hc, hwaits, if_neg hgo]
  rfl

theorem stalls_regang {g : Nat} (hc : countingCrew s c.uid = some c) (hwait : ∃ t ∈ c.threads, t.live = true ∧ c.hgang t.tid = g ∧ t.hold = .regang)
    (hlimit : stallLimitOf s c ≤ mget 0 c.regangStall g) :
    Stalls (.regangStall c.uid g) s c.uid (fun i => ∃ t ∈ c.threads, t.tid = i ∧ t.live = true ∧ c.hgang t.tid = g ∧ t.hold = .regang) 16 := by
  obtain ⟨t, ht, hstands⟩ := hwait
  obtain ⟨u, us, hus⟩ := List.exists_cons_of_ne_nil (List.ne_nil_of_mem (mem_atRegang.2 ⟨ht, hstands⟩))
  have hin : ∀ i, (∃ t ∈ c.threads, t.tid = i ∧ t.live = true ∧ c.hgang t.tid = g ∧ t.hold = .regang) → i ∈ (u :: us).map (·.tid) := by
    rintro _ ⟨t, ht, rfl, hstands⟩
    exact List.mem_map_of_mem (hus ▸ mem_atRegang.2 ⟨ht, hstands⟩)
  have hthreads : ∀ i ∈ (u :: us).map (·.tid), ∃ t, c.thread i = some t := by
    intro i hi
    obtain ⟨t, ht, rfl⟩ := List.mem_map.1 hi
    rw [← hus] at ht
    exact Option.isSome_iff_exists.1 (List.find?_isSome.2 ⟨t, (mem_atRegang.1 ht).1, beq_self_eq_true _⟩)
  exact stalls_of_raiseStall hthreads (List.cons_ne_nil _ _) hin (exec_regangStall hc hus hlimit) fun _ => ⟨rfl, rfl, rfl⟩

/-! ### Meets (R114) -/

/-- The threads held at the meet of a thread of their home gang. -/
def heldWith (c : Crew) (t : Thread) : List Thread := c.threads.filter fun u => heldAtMeet u && c.hgang u.tid == c.hgang t.tid && u.meet == t.meet

theorem mem_heldWith {u : Thread} : u ∈ heldWith c t ↔ u ∈ c.threads ∧ heldAtMeet u = true ∧ c.hgang u.tid = c.hgang t.tid ∧ u.meet = t.meet := by
  simp [heldWith, List.mem_filter, and_assoc]

theorem exec_meetTimeout {x : Context} {n : Nat} (hc : countingCrew s c.uid = some c) (ht : c.thread t.tid = some t) (hx : getCtx s c.ctx = some x) (hold : t.hold = .meet n)
    (hlimit : x.meetLimit ≤ c.vclk.toNat - n) : exec (.meetTimeout c.uid t.tid) s = .next (updCrew s c.uid fun k => releaseMeet k ((heldWith c t).map (·.tid))) := by
  have hheld : heldAtMeet t = true := heldAtMeet_iff.2 ⟨n, hold⟩
  have hself : t ∈ heldWith c t := mem_heldWith.2 ⟨List.mem_of_find?_eq_some ht, hheld, rfl, rfl⟩
  have hsince : n ∈ (heldWith c t).filterMap meetSince := List.mem_filterMap.2 ⟨t, hself, by simp [meetSince, hold]⟩
  have hfirst : leastOr c.vclk.toNat ((heldWith c t).filterMap meetSince) ≤ n := (leastOr_mem_and_le (List.ne_nil_of_mem hsince)).2 n hsince
  have hdue : (heldAtMeet t && decide (x.meetLimit ≤ c.vclk.toNat - leastOr c.vclk.toNat ((heldWith c t).filterMap meetSince))) = true := by
    rw [hheld, Bool.true_and, decide_eq_true_eq]
    omega
  rw [show exec (.meetTimeout c.uid t.tid) s = execMeetTimeout c.uid t.tid s from rfl]
  simp only [execMeetTimeout, hc, ht, hx]
  exact if_pos hdue

/-! ### Ages (R108) -/

/-- Whether a thread is of the group of another: its bound gang, or the unbound threads that are ready at its PC and queue. -/
def sameGroup (t u : Thread) : Bool := match t.bound with
  | some b => u.bound == some b
  | none => u.bound.isNone && u.queue == t.queue && u.pc == t.pc && u.hold == .none

theorem sameGroup_of {u : Thread} (h : t.bound = none ∧ u.bound = none ∧ u.queue = t.queue ∧ u.pc = t.pc ∧ u.hold = .none ∨ t.bound.isSome = true ∧ u.bound = t.bound) :
    sameGroup t u = true := by
  rcases h with ⟨ht, hu, hq, hpc, hh⟩ | ⟨ht, hu⟩
  · simp [sameGroup, ht, hu, hq, hpc, hh]
  · obtain ⟨b, hb⟩ := Option.isSome_iff_exists.1 ht
    simp [sameGroup, hb, hu]

/-- A thread whose group has a thread of this age: its own is no less. -/
def aged (t u : Thread) : Thread := if sameGroup t u && u.live then { u with age := max u.age t.age } else u

theorem aged_spec (t u : Thread) : aged t u = { u with age := (aged t u).age } ∧ u.age ≤ (aged t u).age := by
  unfold aged
  split
  · exact ⟨rfl, le_max_left u.age t.age⟩
  · exact ⟨rfl, le_refl u.age⟩

theorem le_aged {u : Thread} (hlive : u.live = true) (h : sameGroup t u = true) : t.age ≤ (aged t u).age := by
  rw [aged, if_pos (by rw [h, hlive]; rfl)]
  exact le_max_right u.age t.age

theorem exec_ageLimitReached (hc : getCrew s c.uid = some c) (ht : c.thread t.tid = some t) (hlimit : ageLimitOf s c.ctx ≤ t.age) (hold : t.hold = .none) :
    exec (.ageLimitReached c.uid t.tid) s = .next (updCrew s c.uid (·.mapT (aged t))) := by
  have hgo : (decide (t.age < ageLimitOf s c.ctx) || t.hold != .none) = false := by simp [hlimit, hold]
  rw [show exec (.ageLimitReached c.uid t.tid) s = execAgeLimitReached c.uid t.tid s from rfl]
  simp only [execAgeLimitReached, hc, ht]
  exact if_neg (Bool.eq_false_iff.1 hgo)

/-- Settles O50: a wait by the counter that watches it, and then the threads that share it; a meet and an age by their groups. -/
theorem watchedWaits : Obligations.WatchedWaits := by
  unfold Obligations.WatchedWaits
  refine ⟨fun s c t n hc ht hlive hlimit => ⟨fun k g ea hold => ?arw, fun i hold => ?wait, fun q d hold => ?ring, fun hold => ?hitld, fun z g hold => ?tacq, fun w hold => ?append⟩,
    fun s c b => stalls_barrier, fun s c g => stalls_regang, fun s c x t n hc ht hx hold hlimit => ?meet, fun s c t hc ht hlimit hold => ?age⟩
  case arw => exact stalls_of_stallAt rfl (fun u => by split <;> rfl) hc ht hlive hlimit (by rw [hold])
  case wait => exact stalls_of_stallAt rfl (fun u => by split <;> rfl) hc ht hlive hlimit (by rw [hold])
  case ring => exact stalls_of_stallAt rfl (fun u => by split <;> rfl) hc ht hlive hlimit (by rw [hold])
  case hitld => exact stalls_of_stallAt rfl (fun _ => rfl) hc ht hlive hlimit (by rw [hold])
  case tacq => exact stalls_of_stallAt rfl (fun u => by split <;> rfl) hc ht hlive hlimit (by rw [hold])
  case append => exact stalls_of_stallAt rfl (fun _ => rfl) hc ht hlive hlimit (by rw [hold])
  case meet =>
    have hself : t ∈ heldWith c t := mem_heldWith.2 ⟨List.mem_of_find?_eq_some ht, heldAtMeet_iff.2 ⟨n, hold⟩, rfl, rfl⟩
    refine ⟨_, exec_meetTimeout hc ht hx hold hlimit, List.mem_map_of_mem hself, fun i hi => ?_⟩
    obtain ⟨u, hu, rfl⟩ := List.mem_map.1 hi
    obtain ⟨hmem, hstands⟩ := mem_heldWith.1 hu
    exact ⟨u, hmem, rfl, hstands⟩
  case age => exact ⟨aged t, exec_ageLimitReached hc ht hlimit hold, aged_spec t, fun u _ hlive h => le_aged hlive (sameGroup_of h)⟩

end Sys2Proof.Machine
end

section
/-! PROOFS. Integer arithmetic, element by element, wide and divided. -/

namespace Sys2Proof.Machine

variable {i : Instr} {s : State} {is : Issue} {c : Crew} {a : Args} {k : IntMods}

theorem writesD_mono {n : Nat} {P Q : Thread → Nat → Prop} (h : WritesD i a s is c n P) (hPQ : ∀ t v, P t v → Q t v) : WritesD i a s is c n Q := by
  obtain ⟨f, hexec, hf⟩ := h
  exact ⟨f, hexec, fun t ht => hPQ t (f t) (hf t ht)⟩

/-! ### The two readings of an element (R131) -/

theorem lowBits_congr {x y : Int} {n : Nat} (h : x ≡ y [ZMOD 2 ^ n]) : lowBits x n = lowBits y n := congrArg Int.toNat h

theorem natCast_mod_two_pow_modEq (x n : Nat) : ((x % 2 ^ n : Nat) : Int) ≡ x [ZMOD 2 ^ n] :=
  mod_cast Int.natCast_modEq_iff.2 (Nat.mod_modEq x (2 ^ n))

theorem signExt_modEq (x n : Nat) : signExt x n ≡ x [ZMOD 2 ^ n] := by
  unfold signExt
  dsimp only
  split
  · exact Int.sub_modulus_modEq_iff.2 (natCast_mod_two_pow_modEq x n)
  · exact natCast_mod_two_pow_modEq x n

theorem asInt_modEq (g : Bool) (w x : Nat) : asInt g w x ≡ x [ZMOD 2 ^ w] := by
  cases g with
  | true => exact signExt_modEq x w
  | false => exact natCast_mod_two_pow_modEq x w

/-- Both readings of an element leave the same low bits. -/
theorem asInt_modEq_asInt (g g' : Bool) (w x : Nat) : asInt g w x ≡ asInt g' w x [ZMOD 2 ^ w] := (asInt_modEq g w x).trans (asInt_modEq g' w x).symm

theorem signExt_bounds (x : Nat) {n : Nat} (hn : 0 < n) : -(2 ^ (n - 1)) ≤ signExt x n ∧ signExt x n < 2 ^ (n - 1) := by
  have hlt := Nat.mod_lt x (Nat.two_pow_pos n)
  have hdouble : 2 ^ n = 2 * 2 ^ (n - 1) := by rw [← pow_succ', Nat.sub_add_cancel hn]
  unfold signExt
  dsimp only
  zify at hlt hdouble ⊢
  split <;> omega

/-- Without `.sat` only the residues of the exact results matter. -/
theorem elements_of_modEq {g g' : Bool} {x y : Nat → Int} {v : Nat} (h : Elements k g x v) (hsat : k.sat = false) (hxy : ∀ e, x e ≡ y e [ZMOD 2 ^ k.w]) :
    Elements k g' y v := by
  intro e he
  simpa [hsat, lowBits_congr (hxy e)] using h e he

/-! ### Element by element (R133–R135) -/

/-- An instruction of the shared element-wise form, by its exact operation. -/
theorem writesD_of_elementwise (hi : Issues s is c) (op : Int → Int → Int) (hexec : exec i s = regInstr a s (intElementwise a op)) :
    let k := intMods a.m.toNat
    WritesD i a s is c k.regs fun t => Elements k k.signed fun e =>
      op (asInt k.signed k.w (elem k.w (rd c t a.a k.regs) e)) (asInt k.signed k.w (elem k.w (srcB c t a k) e)) :=
  writesD_of hi (intElementwise a op) hexec (intElementwise_spec a op c)

theorem iadd_writes (hi : Issues s is c) :
    let k := intMods a.m.toNat
    WritesD (.iadd a) a s is c k.regs fun t => Elements k k.signed fun e =>
      asInt k.signed k.w (elem k.w (rd c t a.a k.regs) e) + asInt k.signed k.w (elem k.w (srcB c t a k) e) :=
  writesD_of_elementwise hi (· + ·) rfl

theorem isub_writes (hi : Issues s is c) :
    let k := intMods a.m.toNat
    WritesD (.isub a) a s is c k.regs fun t => Elements k k.signed fun e =>
      asInt k.signed k.w (elem k.w (rd c t a.a k.regs) e) - asInt k.signed k.w (elem k.w (srcB c t a k) e) :=
  writesD_of_elementwise hi (· - ·) rfl

/-- Settles O12: both are element-wise, and the two readings of their sources leave the same residue. -/
theorem addAndSubtract : Obligations.AddAndSubtract := by
  unfold Obligations.AddAndSubtract
  intro s is c a hi
  refine ⟨iadd_writes hi, isub_writes hi, fun hsat g => ⟨?add, ?sub⟩⟩
  case add => exact writesD_mono (iadd_writes hi) fun t v hv => elements_of_modEq hv hsat fun e => (asInt_modEq_asInt ..).add (asInt_modEq_asInt ..)
  case sub => exact writesD_mono (isub_writes hi) fun t v hv => elements_of_modEq hv hsat fun e => (asInt_modEq_asInt ..).sub (asInt_modEq_asInt ..)

theorem wrImul_low (h : (intMods a.m.toNat).sub = 0) : wrImul a = intElementwise a (· * ·) := by
  funext c t
  exact if_pos h

theorem wrImul_high (h : (intMods a.m.toNat).sub = 1) (c : Crew) (t : Thread) : wrImul a c t =
    let k := intMods a.m.toNat
    [.reg a.d k.regs (lowBits (intProduct k (rd c t a.a k.regs) (srcB c t a k) / 2 ^ k.w) k.w)] := by
  simp [wrImul, h]

theorem wrImul_wide (h : (intMods a.m.toNat).sub = 2) (c : Crew) (t : Thread) : wrImul a c t =
    let k := intMods a.m.toNat
    [.reg a.d 2 (lowBits (intProduct k (rd c t a.a k.regs) (srcB c t a k)) 64)] := by
  simp [wrImul, h]

/-- `imad.lo` keeps the low bits of each product and addend (R134). -/
theorem imad_low_writes (hi : Issues s is c) (h : (intMods a.m.toNat).sub ≠ 2) :
    let k := intMods a.m.toNat
    WritesD (.imad a) a s is c k.regs fun t => Elements { k with sat := false } k.signed fun e =>
      asInt k.signed k.w (elem k.w (rd c t a.a k.regs) e) * asInt k.signed k.w (elem k.w (rd c t a.b k.regs) e) +
        asInt k.signed k.w (elem k.w (rd c t a.c k.regs) e) := by
  intro k
  refine writesD_of hi (wrImad a) rfl fun t => ⟨_, if_neg h, fun e he => ?_⟩
  exact (elem_fromElems _ _ _ _ (intMods_w_pos _) he).trans (lowBits_mod _ _)

/-- `iabsneg` reads its elements signed and clamps to the signed range (R135). -/
theorem iabsneg_writes (hi : Issues s is c) :
    let k := intMods a.m.toNat
    WritesD (.iabsneg a) a s is c k.regs fun t => Elements k true fun e =>
      let x := signExt (elem k.w (rd c t a.a k.regs) e) k.w
      if k.sub = 0 then |x| else -x := by
  intro k
  refine writesD_of hi (wrIabsneg a) rfl fun t => ⟨_, rfl, fun e he => ?_⟩
  have habs : ∀ x : Int, (if x < 0 then -x else x) = |x| := fun x => by
    split
    · next hneg => exact (abs_of_neg hneg).symm
    · next hneg => exact (abs_of_nonneg (not_lt.1 hneg)).symm
  rw [elem_fromElems _ _ _ _ (intMods_w_pos _) he, lowBits_mod, habs]

/-! ### Division (R143) -/

/-- Only the most negative dividend divided by −1 has a quotient above the signed range. -/
theorem tdiv_eq_half_iff {A B : Int} {n : Nat} (hlow : -(2 ^ n) ≤ A) (hhigh : A < 2 ^ n) : A.tdiv B = 2 ^ n ↔ A = -(2 ^ n) ∧ B = -1 := by
  have hpos : (0 : Int) < 2 ^ n := by positivity
  constructor
  · intro h
    have hquot : A.natAbs / B.natAbs = 2 ^ n := by
      have := congrArg Int.natAbs h
      rwa [Int.natAbs_tdiv, Int.natAbs_pow] at this
    have hA : A.natAbs ≤ 2 ^ n := by
      zify
      exact abs_le.2 ⟨hlow, hhigh.le⟩
    have hB : B.natAbs = 1 := by
      have hne : B.natAbs ≠ 0 := fun h0 => (Nat.two_pow_pos n).ne (by simpa [h0] using hquot)
      have hmul : 2 ^ n * B.natAbs ≤ 2 ^ n := (Nat.mul_le_of_le_div _ _ _ hquot.ge).trans hA
      have hle := Nat.le_of_mul_le_mul_left (hmul.trans_eq (mul_one _).symm) (Nat.two_pow_pos n)
      omega
    rcases Int.natAbs_eq_iff.1 hB with rfl | rfl
    · rw [Nat.cast_one, Int.tdiv_one] at h
      omega
    · rw [Nat.cast_one, Int.tdiv_neg, Int.tdiv_one] at h
      exact ⟨by omega, rfl⟩
  · rintro ⟨rfl, rfl⟩
    rw [Int.neg_tdiv_neg, Int.tdiv_one]

/-- The quotient of R143, with the results of its borderline cases. -/
def quotient (k : IntMods) (A B : Int) : Int :=
  if B = 0 then -1 else if k.sat ∧ k.signed ∧ A = -(2 ^ (k.w - 1)) ∧ B = -1 then 2 ^ (k.w - 1) - 1 else A.tdiv B

/-- The remainder of R143: that of a zero divisor is the dividend. -/
def remainder (A B : Int) : Int := if B = 0 then A else A.tmod B

/-- The model finds the quotient that does not fit by its value, the rule by its operands. -/
theorem quotient_overflows_iff (hw : 0 < k.w) (x : Nat) (B : Int) :
    (k.sat && decide ((asInt k.signed k.w x).tdiv B = 2 ^ (k.w - 1)) && k.signed) = true ↔
      k.sat ∧ k.signed ∧ asInt k.signed k.w x = -(2 ^ (k.w - 1)) ∧ B = -1 := by
  simp only [Bool.and_eq_true, decide_eq_true_eq, and_assoc, and_congr_right_iff]
  intro _
  rw [and_comm, and_congr_right_iff]
  intro hs
  rw [hs]
  exact tdiv_eq_half_iff (signExt_bounds x hw).1 (signExt_bounds x hw).2

theorem divRem_eq (hw : 0 < k.w) (x y : Nat) : divRem k x y =
    (quotient k (asInt k.signed k.w x) (asInt k.signed k.w y), remainder (asInt k.signed k.w x) (asInt k.signed k.w y)) := by
  unfold divRem quotient remainder
  dsimp only
  by_cases hzero : asInt k.signed k.w y = 0
  · simp only [if_pos hzero]
  · rw [if_neg hzero, if_neg hzero, if_neg hzero]
    by_cases hover : k.sat ∧ k.signed ∧ asInt k.signed k.w x = -(2 ^ (k.w - 1)) ∧ asInt k.signed k.w y = -1
    · obtain ⟨_, _, hx, hy⟩ := id hover
      rw [if_pos hover, if_pos ((quotient_overflows_iff hw x _).2 hover), hx, hy, Int.neg_tdiv_neg, Int.tdiv_one]
    · rw [if_neg hover, if_neg (mt (quotient_overflows_iff hw x _).1 hover)]

/-- The quotient and remainder that `idiv` computes of the operands of a thread. -/
def divided (c : Crew) (t : Thread) (a : Args) : Int × Int :=
  let k := intMods a.m.toNat
  divRem k (rd c t a.a k.regs) (srcB c t a k)

theorem wrIdiv_div (h : (intMods a.m.toNat).sub = 0) (c : Crew) (t : Thread) : wrIdiv a c t =
    let k := intMods a.m.toNat
    [.reg a.d k.regs (lowBits (divided c t a).1 k.w)] := by
  simp only [wrIdiv, h, divided]

theorem wrIdiv_rem (h : (intMods a.m.toNat).sub = 1) (c : Crew) (t : Thread) : wrIdiv a c t =
    let k := intMods a.m.toNat
    [.reg a.d k.regs (lowBits (divided c t a).2 k.w)] := by
  simp only [wrIdiv, h, divided]

theorem wrIdiv_divrem (h : 1 < (intMods a.m.toNat).sub) (c : Crew) (t : Thread) : wrIdiv a c t =
    let k := intMods a.m.toNat
    [.reg a.d (2 * k.regs) (lowBits (divided c t a).1 k.w + 2 ^ k.w * lowBits (divided c t a).2 k.w)] := by
  unfold wrIdiv divided
  dsimp only
  split
  · omega
  · omega
  · rfl

theorem divided_eq (c : Crew) (t : Thread) (a : Args) : divided c t a =
    let k := intMods a.m.toNat
    let A := asInt k.signed k.w (rd c t a.a k.regs)
    let B := asInt k.signed k.w (srcB c t a k)
    (quotient k A B, remainder A B) := divRem_eq (intMods_w_pos _) _ _

/-- Settles O13: the element-wise forms by their exact operations, the wide ones by their products, and division by the two tests of its borderline case. -/
theorem integerArithmetic : Obligations.IntegerArithmetic := by
  unfold Obligations.IntegerArithmetic
  refine ⟨fun s is c a hi => ⟨iadd_writes hi, isub_writes hi, fun h => ?mulLow, imad_low_writes hi, ?minmax, iabsneg_writes hi⟩,
    fun s is c a hi => ⟨fun h => ?mulHigh, fun h => ?mulWide, fun h => ?madWide, fun h => ?div, fun h => ?rem, fun h => ?divrem⟩⟩
  case mulLow => exact writesD_of_elementwise hi (· * ·) (by rw [← wrImul_low h]; rfl)
  case minmax =>
    exact writesD_mono (writesD_of_elementwise hi (if (intMods a.m.toNat).sub = 0 then min else max) rfl) fun t v hv => by simpa only [ite_apply] using hv
  case mulHigh => exact writesD_of hi (wrImul a) rfl fun t => ⟨_, wrImul_high h c t, rfl⟩
  case mulWide => exact writesD_of hi (wrImul a) rfl fun t => ⟨_, wrImul_wide h c t, rfl⟩
  case madWide => exact writesD_of hi (wrImad a) rfl fun t => ⟨_, if_pos h, rfl⟩
  case div => exact writesD_of hi (wrIdiv a) rfl fun t => ⟨_, wrIdiv_div h c t, by rw [divided_eq]; rfl⟩
  case rem => exact writesD_of hi (wrIdiv a) rfl fun t => ⟨_, wrIdiv_rem h c t, by rw [divided_eq]; rfl⟩
  case divrem => exact writesD_of hi (wrIdiv a) rfl fun t => ⟨_, wrIdiv_divrem h c t, by rw [divided_eq]; rfl⟩

end Sys2Proof.Machine
end

section
/-! PROOFS. Logic, shifts, bit fields, bit counts and chosen bytes: each value bit by bit. -/

namespace Sys2Proof.Machine

variable {s : State} {is : Issue} {c : Crew} {a : Args} {k : IntMods}

/-! ### Bits of values -/

theorem testBit_mod_of_lt {x w j : Nat} (hj : j < w) : (x % 2 ^ w).testBit j = x.testBit j := by
  rw [Nat.testBit_mod_two_pow, decide_eq_true hj, Bool.true_and]

theorem lowBits_eq_toNat_ofInt (x : Int) (n : Nat) : lowBits x n = (BitVec.ofInt n x).toNat := by
  rw [BitVec.toNat_ofInt, Nat.cast_pow, Nat.cast_ofNat, lowBits]

theorem signExt_eq_toInt (x n : Nat) : signExt x n = (BitVec.ofNat n x).toInt := by
  rw [BitVec.toInt_eq_toNat_cond, BitVec.toNat_ofNat, Nat.cast_pow, Nat.cast_ofNat]
  cases n with
  | zero => simp [signExt, Nat.mod_one]
  | succ n =>
    unfold signExt
    dsimp only
    have hdouble : 2 ^ (n + 1) = 2 * 2 ^ n := pow_succ' 2 n
    by_cases hneg : 2 ^ n ≤ x % 2 ^ (n + 1)
    · rw [if_pos ⟨n.succ_ne_zero, hneg⟩, if_neg (by omega)]
    · rw [if_neg (fun h => hneg h.2), if_pos (by omega)]

theorem msb_ofNat {n : Nat} (hn : 0 < n) (x : Nat) : (BitVec.ofNat n x).msb = x.testBit (n - 1) := by
  rw [BitVec.msb_eq_getLsbD_last, BitVec.getLsbD_ofNat, decide_eq_true (Nat.sub_lt hn Nat.one_pos), Bool.true_and]

/-- Bits of a signed reading extended to a width: those of the field, then copies of its top bit. -/
theorem testBit_lowBits_signExt {len w j : Nat} (x : Nat) (hlen : 0 < len) (hj : j < w) :
    (lowBits (signExt x len) w).testBit j = x.testBit (min j (len - 1)) := by
  have hext : lowBits (signExt x len) w = ((BitVec.ofNat len x).signExtend w).toNat := by rw [lowBits_eq_toNat_ofInt, signExt_eq_toInt, BitVec.signExtend]
  rw [hext, BitVec.testBit_toNat, BitVec.getLsbD_signExtend, decide_eq_true hj, Bool.true_and, msb_ofNat hlen, BitVec.getLsbD_ofNat]
  by_cases hin : j < len
  · rw [if_pos hin, decide_eq_true hin, Bool.true_and, min_eq_left (by omega)]
  · rw [if_neg hin, min_eq_right (by omega)]

/-- Bits of a signed reading divided by a power of two: those above, then copies of the top bit. -/
theorem testBit_lowBits_signExt_div {w j : Nat} (x m : Nat) (hj : j < w) :
    (lowBits (signExt x w / 2 ^ m) w).testBit j = x.testBit (min (j + m) (w - 1)) := by
  have hshift : lowBits (signExt x w / 2 ^ m) w = ((BitVec.ofNat w x).sshiftRight m).toNat := by
    rw [lowBits_eq_toNat_ofInt, signExt_eq_toInt, BitVec.sshiftRight, Int.shiftRight_eq_div_pow, Nat.cast_pow, Nat.cast_ofNat]
  rw [hshift, BitVec.testBit_toNat, BitVec.getLsbD_sshiftRight, decide_eq_false (not_le.2 hj), Bool.not_false, Bool.true_and, msb_ofNat (by omega),
    BitVec.getLsbD_ofNat, Nat.add_comm m j]
  by_cases hin : j + m < w
  · rw [if_pos hin, decide_eq_true hin, Bool.true_and, min_eq_left (by omega)]
  · rw [if_neg hin, min_eq_right (by omega)]

/-! ### Logic (R136) -/

/-- The operation of a `logic` sub-op on one bit. -/
def logicBit (sub : Nat) (x y : Bool) : Bool := match sub with
  | 0 => x && y
  | 1 => x || y
  | 2 => x ^^ y
  | 3 => x && !y
  | 4 => x || !y
  | _ => !x

theorem testBit_ones_sub {x n j : Nat} (hx : x < 2 ^ n) (hj : j < n) : (2 ^ n - 1 - x).testBit j = !x.testBit j := by
  rw [Nat.sub_sub, Nat.add_comm, Nat.testBit_two_pow_sub_succ hx, decide_eq_true hj, Bool.true_and]

theorem testBit_logicOp {sub n x y j : Nat} (hx : x < 2 ^ n) (hj : j < n) :
    (logicOp sub n x (y % 2 ^ n)).testBit j = logicBit sub (x.testBit j) (y.testBit j) := by
  have hy : (y % 2 ^ n).testBit j = y.testBit j := testBit_mod_of_lt hj
  have hny : (2 ^ n - 1 - y % 2 ^ n).testBit j = !y.testBit j := by rw [testBit_ones_sub (Nat.mod_lt _ (Nat.two_pow_pos n)) hj, hy]
  match sub with
  | 0 => exact (Nat.testBit_land ..).trans (congrArg (x.testBit j && ·) hy)
  | 1 => exact (Nat.testBit_lor ..).trans (congrArg (x.testBit j || ·) hy)
  | 2 => exact (Nat.testBit_xor ..).trans (congrArg (x.testBit j ^^ ·) hy)
  | 3 => exact (Nat.testBit_land ..).trans (congrArg (x.testBit j && ·) hny)
  | 4 => exact (Nat.testBit_lor ..).trans (congrArg (x.testBit j || ·) hny)
  | _ + 5 => exact testBit_ones_sub hx hj

theorem logic_writes (hi : Issues s is c) :
    let k := intMods a.m.toNat
    WritesD (.logic a) a s is c k.regs fun t v => ∀ j < 32 * k.regs, v.testBit j = logicBit k.sub ((rd c t a.a k.regs).testBit j) ((srcB c t a k).testBit j) :=
  writesD_of hi (wrLogic a) rfl fun _ => ⟨_, rfl, fun _ hj => testBit_logicOp (rd_lt ..) hj⟩

/-! ### Shifts (R136) -/

theorem shiftElem_shl (h : k.sub = 0) (hsat : k.sat = false) (x n : Nat) : shiftElem k x n = if n < k.w then x * 2 ^ n % 2 ^ k.w else 0 := by
  simp [shiftElem, h, hsat]

theorem half_bounds (w : Nat) : (0 : Int) < 2 ^ (w - 1) ∧ (2 : Int) ^ (w - 1) ≤ 2 ^ w :=
  ⟨by positivity, pow_le_pow_right₀ (by decide) (Nat.sub_le w 1)⟩

theorem clampInt_zero (g : Bool) (w : Nat) : clampInt g w 0 = 0 := by
  obtain ⟨hpos, hle⟩ := half_bounds w
  unfold clampInt
  cases g
  all_goals simp only [if_true, Bool.false_eq_true, if_false]; omega

theorem clampInt_of_above {w : Nat} {x : Int} (g : Bool) (h : 2 ^ w ≤ x) : clampInt g w x = if g then 2 ^ (w - 1) - 1 else 2 ^ w - 1 := by
  obtain ⟨hpos, hle⟩ := half_bounds w
  unfold clampInt
  cases g
  all_goals simp only [if_true, Bool.false_eq_true, if_false]; omega

theorem clampInt_of_below {w : Nat} {x : Int} (g : Bool) (h : x ≤ -(2 ^ w)) : clampInt g w x = if g then -(2 ^ (w - 1)) else 0 := by
  obtain ⟨hpos, hle⟩ := half_bounds w
  unfold clampInt
  cases g
  all_goals simp only [if_true, Bool.false_eq_true, if_false]; omega

/-- From the width on, every further place clamps to the same end of the range. -/
theorem clampInt_mul_two_pow_of_le {w n : Nat} (g : Bool) (v : Int) (h : w ≤ n) : clampInt g w (v * 2 ^ n) = clampInt g w (v * 2 ^ w) := by
  have hpow : (2 : Int) ^ w ≤ 2 ^ n := pow_le_pow_right₀ (by decide) h
  have hpos : (0 : Int) < 2 ^ w := by positivity
  rcases lt_trichotomy v 0 with hv | rfl | hv
  · rw [clampInt_of_below g (by nlinarith), clampInt_of_below g (by nlinarith)]
  · rw [zero_mul, zero_mul]
  · rw [clampInt_of_above g (by nlinarith), clampInt_of_above g (by nlinarith)]

/-- Under `.sat` the rule's two columns are one clamp of the exact product. -/
theorem shiftElem_shl_sat (h : k.sub = 0) (hsat : k.sat = true) (x n : Nat) :
    shiftElem k x n = lowBits (clampInt k.signed k.w (asInt k.signed k.w x * 2 ^ n)) k.w := by
  simp only [shiftElem, h, hsat, if_true]
  by_cases hn : n < k.w
  · rw [if_pos hn]
  rw [if_neg hn, clampInt_mul_two_pow_of_le _ _ (not_lt.1 hn)]
  split
  · next hzero =>
    rw [hzero, zero_mul, clampInt_zero]
    exact (Int.toNat_eq_zero.2 (Int.zero_emod _).le).symm
  · rfl

theorem testBit_shiftElem_shr (h : k.sub = 1) {x : Nat} (hx : x < 2 ^ k.w) (n j : Nat) :
    (shiftElem k x n).testBit j = (decide (j + n < k.w) && x.testBit (j + n)) := by
  simp only [shiftElem, h]
  by_cases hin : j + n < k.w
  · rw [if_pos (by omega), Nat.testBit_div_two_pow, decide_eq_true hin, Bool.true_and]
  · have hout : x.testBit (j + n) = false := Nat.testBit_lt_two_pow (hx.trans_le (Nat.pow_le_pow_right (by decide) (not_lt.1 hin)))
    rw [decide_eq_false hin, Bool.false_and]
    split
    · rw [Nat.testBit_div_two_pow, hout]
    · exact Nat.zero_testBit j

theorem testBit_shiftElem_sar (h : k.sub = 2) {j : Nat} (hj : j < k.w) (x n : Nat) :
    (shiftElem k x n).testBit j = x.testBit (min (j + n) (k.w - 1)) := by
  simp only [shiftElem, h]
  rw [testBit_lowBits_signExt_div _ _ hj]
  congr 1
  omega

theorem shiftElem_rot (h : 2 < k.sub) (x n : Nat) : shiftElem k x n = (2 ^ (n % k.w) * x + x / 2 ^ (k.w - n % k.w)) % 2 ^ k.w := by
  unfold shiftElem
  dsimp only
  split
  · omega
  · omega
  · omega
  · rw [mul_comm]

theorem testBit_rotated {w r x j : Nat} (hr : r < w) (hx : x < 2 ^ w) (hj : j < w) :
    ((2 ^ r * x + x / 2 ^ (w - r)) % 2 ^ w).testBit j = x.testBit ((j + w - r) % w) := by
  have hhigh : x / 2 ^ (w - r) < 2 ^ r := by
    rw [Nat.div_lt_iff_lt_mul (Nat.two_pow_pos _), ← pow_add, Nat.add_sub_cancel' hr.le]
    exact hx
  rw [testBit_mod_of_lt hj, Nat.testBit_two_pow_mul_add _ hhigh]
  by_cases hlow : j < r
  · rw [if_pos hlow, Nat.testBit_div_two_pow, Nat.mod_eq_of_lt (by omega), Nat.add_sub_assoc hr.le]
  · rw [if_neg hlow, show j + w - r = j - r + w by omega, Nat.add_mod_right, Nat.mod_eq_of_lt (by omega)]

theorem testBit_shiftElem_rot (h : 2 < k.sub) {x j : Nat} (hx : x < 2 ^ k.w) (hj : j < k.w) (n : Nat) :
    (shiftElem k x n).testBit j = x.testBit ((j + k.w - n % k.w) % k.w) := by
  rw [shiftElem_rot h, testBit_rotated (Nat.mod_lt _ (by omega)) hx hj]

/-- An element of the result of `shift`, before any sub-op is chosen. -/
theorem shift_writes (hi : Issues s is c) :
    let k := intMods a.m.toNat
    WritesD (.shift a) a s is c k.regs fun t v => ∀ e < k.n,
      elem k.w v e = shiftElem k (elem k.w (rd c t a.a k.regs) e) (elem k.w (srcB c t a k) e) % 2 ^ k.w :=
  writesD_of hi (wrShift a) rfl fun _ => ⟨_, rfl, fun _ he => elem_fromElems _ _ _ _ (intMods_w_pos _) he⟩

theorem elem_lt (w v e : Nat) : elem w v e < 2 ^ w := Nat.mod_lt _ (Nat.two_pow_pos w)

/-! ### Bit fields (R137) -/

theorem testBit_fieldAt (w x pos len j : Nat) : (fieldAt w x pos len).testBit j = (decide (j < len) && (decide (pos + j < w) && x.testBit (pos + j))) := by
  rw [fieldAt, Nat.testBit_mod_two_pow, Nat.testBit_div_two_pow, Nat.testBit_mod_two_pow, Nat.add_comm]

/-- What `bfx` makes of a field. -/
def extracted (k : IntMods) (x pos len : Nat) : Nat :=
  if len = 0 then 0 else if k.signed then lowBits (signExt (fieldAt k.w x pos len) len) k.w else fieldAt k.w x pos len

theorem extracted_lt {x pos len : Nat} (h : len ≤ k.w) : extracted k x pos len < 2 ^ k.w := by
  unfold extracted
  split
  · exact Nat.two_pow_pos _
  split
  · exact lowBits_lt ..
  · exact (Nat.mod_lt _ (Nat.two_pow_pos len)).trans_le (Nat.pow_le_pow_right (by decide) h)

theorem testBit_extracted (x pos len : Nat) {j : Nat} (hj : j < k.w) :
    let bit := fun i => decide (i < k.w) && x.testBit i
    (extracted k x pos len).testBit j = (decide (0 < len) && (if j < len then bit (pos + j) else k.signed && bit (pos + len - 1))) := by
  intro bit
  unfold extracted
  by_cases hzero : len = 0
  · simp [hzero]
  have hpos : 0 < len := Nat.pos_of_ne_zero hzero
  rw [if_neg hzero, decide_eq_true hpos, Bool.true_and]
  cases hs : k.signed with
  | false =>
    rw [if_neg (by decide), testBit_fieldAt]
    by_cases hin : j < len
    · simp [hin, bit]
    · simp [hin]
  | true =>
    rw [if_pos rfl, testBit_lowBits_signExt _ hpos hj, testBit_fieldAt, decide_eq_true (by omega), Bool.true_and]
    by_cases hin : j < len
    · rw [if_pos hin, min_eq_left (by omega)]
    · rw [if_neg hin, min_eq_right (by omega), Nat.add_sub_assoc hpos, Bool.true_and]

theorem testBit_insertField {w pos j : Nat} (x y len : Nat) (hpos : pos ≤ w) (hj : j < w) :
    (insertField w x y pos len).testBit j = if pos ≤ j ∧ j < pos + len then y.testBit (j - pos) else x.testBit j := by
  have hmask : (2 ^ min len (w - pos) - 1) * 2 ^ pos < 2 ^ w := by
    calc (2 ^ min len (w - pos) - 1) * 2 ^ pos < 2 ^ min len (w - pos) * 2 ^ pos :=
          Nat.mul_lt_mul_of_pos_right (Nat.sub_lt (Nat.two_pow_pos _) Nat.one_pos) (Nat.two_pow_pos pos)
      _ ≤ 2 ^ w := by rw [← pow_add]; exact Nat.pow_le_pow_right (by decide) (by omega)
  unfold insertField
  dsimp only
  rw [Nat.testBit_lor, Nat.testBit_land, testBit_ones_sub hmask hj, Nat.testBit_mul_two_pow, Nat.testBit_mul_two_pow, Nat.testBit_two_pow_sub_one,
    Nat.testBit_mod_two_pow]
  by_cases hin : pos ≤ j ∧ j < pos + len
  · have hlow : j - pos < min len (w - pos) := by omega
    simp [hin, hlow]
  · have hout : ¬ (pos ≤ j ∧ j - pos < min len (w - pos)) := by omega
    rw [if_neg hin, ← Bool.and_assoc, ← Bool.decide_and, decide_eq_false hout]
    simp

/-- What `bfi` writes: a field that begins at or above the width is dropped. -/
def inserted (w x y pos len : Nat) : Nat := if w ≤ pos then x else insertField w x y pos len

theorem testBit_inserted {w j : Nat} (x y pos len : Nat) (hj : j < w) :
    (inserted w x y pos len).testBit j = if pos ≤ j ∧ j < pos + len then y.testBit (j - pos) else x.testBit j := by
  unfold inserted
  by_cases hout : w ≤ pos
  · rw [if_pos hout, if_neg (by omega)]
  · rw [if_neg hout, testBit_insertField _ _ _ (not_le.1 hout).le hj]

/-! ### Counts and reversal (R138) -/

/-- The leading zeros of a number of `w` bits are those above its highest one. -/
theorem leadingZeros_spec {w x v : Nat} (hx : x < 2 ^ w) (hv : v = w - (if x = 0 then 0 else Nat.log2 x + 1)) :
    v ≤ w ∧ x < 2 ^ (w - v) ∧ (v < w → x.testBit (w - 1 - v) = true) := by
  by_cases hzero : x = 0
  · subst hzero
    simp [hv]
  · have hlog : Nat.log2 x < w := (Nat.log2_lt hzero).2 hx
    rw [if_neg hzero] at hv
    have hw : w - v = Nat.log2 x + 1 := by omega
    refine ⟨by omega, by rw [hw]; exact Nat.lt_log2_self, fun _ => ?_⟩
    rw [show w - 1 - v = Nat.log2 x by omega]
    exact Nat.testBit_log2 hzero

theorem trailingZeros_eq_findIdx (w x : Nat) : trailingZeros w x = (List.range w).findIdx x.testBit := by
  rw [trailingZeros, List.takeWhile_eq_take_findIdx_not, List.length_take, min_eq_left List.findIdx_le_length]
  simp only [Bool.not_not]

theorem trailingZeros_spec (w x : Nat) :
    let v := trailingZeros w x
    v ≤ w ∧ (∀ j < v, x.testBit j = false) ∧ (v < w → x.testBit v = true) := by
  rw [trailingZeros_eq_findIdx]
  refine ⟨List.findIdx_le_length.trans_eq List.length_range, fun j hj => ?_, fun hv => ?_⟩
  · simpa using List.not_of_lt_findIdx hj
  · have hin : (List.range w).findIdx x.testBit < (List.range w).length := hv.trans_eq List.length_range.symm
    exact (congrArg x.testBit (List.getElem_range hin)).symm.trans (List.findIdx_getElem (w := hin))

theorem bitReverse_succ (w x : Nat) : bitReverse (w + 1) x = 2 * bitReverse w x + (x.testBit w).toNat := by
  simp only [bitReverse, List.range_succ, List.foldl_append, List.foldl_cons, List.foldl_nil]

theorem testBit_bitReverse (w x : Nat) {j : Nat} (hj : j < w) : (bitReverse w x).testBit j = x.testBit (w - 1 - j) := by
  induction w generalizing j with
  | zero => omega
  | succ w ih =>
    rw [bitReverse_succ]
    cases j with
    | zero =>
      have hmod : (2 * bitReverse w x + (x.testBit w).toNat) % 2 = (x.testBit w).toNat := by have := Bool.toNat_lt (x.testBit w); omega
      rw [Nat.testBit_zero, hmod, Nat.add_sub_cancel, Nat.sub_zero]
      cases x.testBit w <;> rfl
    | succ j =>
      rw [Nat.testBit_add_one, show (2 * bitReverse w x + (x.testBit w).toNat) / 2 = bitReverse w x by have := Bool.toNat_lt (x.testBit w); omega, ih (by omega)]
      congr 1
      omega

theorem popCount_eq_countP (w x : Nat) : popCount w x = (List.range w).countP fun j => x.testBit j := List.countP_eq_length_filter.symm

theorem wrBitc_popc (h : (intMods a.m.toNat).sub = 0) (c : Crew) (t : Thread) : wrBitc a c t =
    let k := intMods a.m.toNat
    [.reg a.d 1 (popCount k.w (rd c t a.a k.regs))] := by
  simp only [wrBitc, h]

theorem wrBitc_clz (h : (intMods a.m.toNat).sub = 1) (c : Crew) (t : Thread) : wrBitc a c t =
    let k := intMods a.m.toNat
    let x := rd c t a.a k.regs
    [.reg a.d 1 (k.w - (if x = 0 then 0 else Nat.log2 x + 1))] := by
  simp only [wrBitc, h]

theorem wrBitc_ctz (h : (intMods a.m.toNat).sub = 2) (c : Crew) (t : Thread) : wrBitc a c t =
    let k := intMods a.m.toNat
    [.reg a.d 1 (trailingZeros k.w (rd c t a.a k.regs))] := by
  simp only [wrBitc, h]

theorem wrBitc_brev (h : 2 < (intMods a.m.toNat).sub) (c : Crew) (t : Thread) : wrBitc a c t =
    let k := intMods a.m.toNat
    [.reg a.d k.regs (bitReverse k.w (rd c t a.a k.regs))] := by
  unfold wrBitc
  dsimp only
  split
  · omega
  · omega
  · omega
  · rfl

/-- One element fills its registers. -/
theorem width_of_single (m : Nat) (h : (intMods m).n = 1) : 32 * (intMods m).regs = (intMods m).w := by
  revert h
  unfold IntMods.regs intMods intElems
  split <;> simp

/-! ### Chosen bytes (R142) -/

/-- The eight bytes that `perm` chooses from: a pair in the I form, two registers in the R form. -/
def permSource (c : Crew) (t : Thread) (a : Args) : Nat := if a.imm.isSome then rd c t a.a 2 else rd c t a.a 1 + 2 ^ 32 * rd c t a.b 1

def permSelector (c : Crew) (t : Thread) (a : Args) : Nat := if a.imm.isSome then Args.immN a else rd c t a.c 1

theorem wrPerm_eq (a : Args) (c : Crew) (t : Thread) : wrPerm a c t = [.reg a.d 1 (fromElems 8 (fun i =>
    if (elem 4 (permSelector c t a) i).testBit 3 then 0 else elem 8 (permSource c t a) (elem 4 (permSelector c t a) i % 8)) 4)] := by
  unfold wrPerm permSource permSelector Args.immN
  cases a.imm with
  | none => rfl
  | some v => rfl

/-- The top bit of a nibble of a selector. -/
theorem testBit_nibble (sel i : Nat) : (elem 4 sel i).testBit 3 = sel.testBit (4 * i + 3) := by
  rw [elem, testBit_mod_of_lt (by decide), Nat.testBit_div_two_pow, Nat.add_comm]

theorem perm_writes (hi : Issues s is c) : WritesD (.perm a) a s is c 1 fun t v => ∀ i < 4,
    let sel := permSelector c t a
    elem 8 v i = if sel.testBit (4 * i + 3) then 0 else elem 8 (permSource c t a) (elem 4 sel i % 8) := by
  refine writesD_of hi (wrPerm a) rfl fun t => ⟨_, wrPerm_eq a c t, fun i h4 => ?_⟩
  rw [elem_fromElems _ _ _ _ (by decide) h4, testBit_nibble]
  dsimp only
  split
  · exact Nat.zero_mod _
  · exact Nat.mod_eq_of_lt (elem_lt ..)

/-- Settles O14: each value is known by its bits, and the sub-ops by their equations. -/
theorem logicShiftAndBitFields : Obligations.LogicShiftAndBitFields := by
  unfold Obligations.LogicShiftAndBitFields
  refine ⟨fun s is c a hi => ⟨logic_writes hi, writesD_mono (shift_writes hi) fun t v hv e he => ?shift⟩,
    fun s is c a hi => ⟨?bfx, ?bfi, fun h => ?popc, fun h h1 => ?clz, fun h => ?ctz, fun h => ?brev, perm_writes hi⟩⟩
  case shift =>
    have hx := elem_lt (intMods a.m.toNat).w (rd c t a.a (intMods a.m.toNat).regs) e
    rw [hv e he]
    refine ⟨fun h hsat => ?_, fun h hsat => ?_, fun h j hj => ?_, fun h j hj => ?_, fun h j hj => ?_⟩
    · rw [shiftElem_shl h hsat]
      split
      · exact Nat.mod_mod _ _
      · exact Nat.zero_mod _
    · rw [shiftElem_shl_sat h hsat, lowBits_mod]
    · rw [testBit_mod_of_lt hj, testBit_shiftElem_shr h hx]
    · rw [testBit_mod_of_lt hj, testBit_shiftElem_sar h hj]
    · rw [testBit_mod_of_lt hj, testBit_shiftElem_rot h hx hj]
  case bfx =>
    exact writesD_of hi (wrBfx a) rfl fun t => ⟨extracted _ _ _ _, rfl, extracted_lt (min_le_right _ _), fun j hj => testBit_extracted _ _ _ hj⟩
  case bfi => exact writesD_of hi (wrBfi a) rfl fun t => ⟨inserted _ _ _ _ _, rfl, fun j hj => testBit_inserted _ _ _ _ hj⟩
  case popc => exact writesD_of hi (wrBitc a) rfl fun t => ⟨_, wrBitc_popc h c t, popCount_eq_countP _ _⟩
  case clz => exact writesD_of hi (wrBitc a) rfl fun t => ⟨_, wrBitc_clz h c t, leadingZeros_spec (width_of_single _ h1 ▸ rd_lt ..) rfl⟩
  case ctz => exact writesD_of hi (wrBitc a) rfl fun t => ⟨_, wrBitc_ctz h c t, trailingZeros_spec _ _⟩
  case brev => exact writesD_of hi (wrBitc a) rfl fun t => ⟨_, wrBitc_brev h c t, fun j hj => testBit_bitReverse _ _ hj⟩

end Sys2Proof.Machine
end

section
/-! PROOFS. Floating-point results: exact results rounded once, selections, tests and approximations. -/

namespace Sys2Proof.Machine

variable {i : Instr} {s : State} {is : Issue} {c : Crew} {a : Args}

/-! ### Results rounded once (R144) -/

/-- Each element of a value is an exact result delivered by Cvt. -/
def RoundedElements (k : FloatMods) (x : Nat → FV) (v : Nat) : Prop :=
  ∀ e < tyElems k.ty, elem (tyFmt k.ty).bits v e = cvtTo (tyFmt k.ty) k.mode k.fo k.sat (x e) % 2 ^ (tyFmt k.ty).bits

theorem roundedElements_floatResult (k : FloatMods) (x : Nat → FV) : RoundedElements k x (floatResult k x) :=
  fun e he => elem_fromElems _ _ _ e (tyFmt_bits_pos _) he

/-- An instruction that delivers one exact result for each element, by those results. -/
theorem writesD_of_floatResult {x : Thread → Nat → FV} (hi : Issues s is c) (f : Crew → Thread → List Wr) (hexec : exec i s = regInstr a s f)
    (hf : ∀ t, f c t = [.reg a.d (tyRegs (floatMods a.m.toNat).ty) (floatResult (floatMods a.m.toNat) (x t))]) :
    WritesD i a s is c (tyRegs (floatMods a.m.toNat).ty) fun t => RoundedElements (floatMods a.m.toNat) (x t) :=
  writesD_of hi f hexec fun t => ⟨_, hf t, roundedElements_floatResult _ _⟩

/-- Settles O16: each instruction delivers one exact result for each element, and Cvt rounds it. -/
theorem floatRoundedOnce : Obligations.FloatRoundedOnce := by
  unfold Obligations.FloatRoundedOnce
  intro s is c a hi
  refine ⟨?add, ?sub, ?mul, ?fma, ?sqrt, ?div, ?round, ?ldexp, ?dot2⟩
  case add => exact writesD_of_floatResult hi (wrFadd a) rfl fun _ => rfl
  case sub => exact writesD_of_floatResult hi (wrFsub a) rfl fun _ => rfl
  case mul => exact writesD_of_floatResult hi (wrFmul a) rfl fun _ => rfl
  case fma => exact writesD_of_floatResult hi (wrFfma a) rfl fun _ => rfl
  case sqrt => exact writesD_of_floatResult hi (wrFsqrt a) rfl fun _ => rfl
  case div => exact writesD_of_floatResult hi (wrFdiv a) rfl fun _ => rfl
  case round => exact writesD_of_floatResult hi (wrFround a) rfl fun _ => rfl
  case ldexp => exact writesD_of_floatResult hi (wrFldexp a) rfl fun _ => rfl
  case dot2 => exact writesD_of hi (wrFdot2 a) rfl fun t => ⟨_, rfl, rfl⟩

/-! ### Selections and signs (R147) -/

theorem nan_lt_two_pow_bits (ty : Nat) : (tyFmt ty).nan < 2 ^ (tyFmt ty).bits := by
  unfold tyFmt
  split <;> decide

theorem isNan_eq_true_iff {x : FV} : x.isNan = true ↔ x = .nan := by cases x <;> simp [FV.isNan]

theorem minFirst_nan_right {x : FV} (h : x.isNan = false) : minFirst x .nan = true := by
  cases x with
  | nan => cases h
  | inf n => rfl
  | fin n m e => rfl

theorem maxFirst_nan_right {x : FV} (h : x.isNan = false) : maxFirst x .nan = true := by
  cases x with
  | nan => cases h
  | inf n => rfl
  | fin n m e => rfl

/-- Whether `fminmax` takes its first operand. -/
def takesFirst (isMax : Bool) (x y : FV) : Bool := if isMax then maxFirst x y else minFirst x y

theorem takesFirst_of_nan_left {x : FV} (h : x.isNan = true) (isMax : Bool) (y : FV) : takesFirst isMax x y = false := by
  obtain rfl := isNan_eq_true_iff.1 h
  cases isMax <;> rfl

theorem takesFirst_of_nan_right {x y : FV} (hx : x.isNan = false) (hy : y.isNan = true) (isMax : Bool) : takesFirst isMax x y = true := by
  obtain rfl := isNan_eq_true_iff.1 hy
  cases isMax
  · exact minFirst_nan_right hx
  · exact maxFirst_nan_right hx

/-- The low bits that `fminmax` gives, by which of its operands are NaN. -/
theorem minmaxBits_mod {f : Fmt} (hf : f.nan < 2 ^ f.bits) (isMax fi : Bool) (x y : Nat) :
    let A := flushBits f fi x
    let B := flushBits f fi y
    let an := (f.dec A).isNan
    let bn := (f.dec B).isNan
    let r := minmaxBits f isMax fi x y % 2 ^ f.bits
    (an = true → bn = true → r = f.nan) ∧ (an = true → bn = false → r = B % 2 ^ f.bits) ∧ (an = false → bn = true → r = A % 2 ^ f.bits) ∧
      (an = false → bn = false → r = (if takesFirst isMax (f.dec A) (f.dec B) then A else B) % 2 ^ f.bits) := by
  intro A B an bn r
  have hr : r = (if an && bn then f.nan else if takesFirst isMax (f.dec A) (f.dec B) then A else B) % 2 ^ f.bits := rfl
  refine ⟨fun ha hb => ?_, fun ha hb => ?_, fun ha hb => ?_, fun ha hb => ?_⟩
  · rw [hr, ha, hb]; exact Nat.mod_eq_of_lt hf
  · rw [hr, ha, hb, takesFirst_of_nan_left ha]; rfl
  · rw [hr, ha, hb, takesFirst_of_nan_right ha hb]; rfl
  · rw [hr, ha, hb]; rfl

theorem fminmax_writes (hi : Issues s is c) :
    let k := floatMods a.m.toNat
    let fm := tyFmt k.ty
    WritesD (.fminmax a) a s is c (tyRegs k.ty) fun t v => ∀ e < tyElems k.ty,
      elem fm.bits v e = minmaxBits fm k.low k.fi (elem fm.bits (rd c t a.a (tyRegs k.ty)) e) (elem fm.bits (srcFB c t a k.ty) e) % 2 ^ fm.bits :=
  writesD_of hi (wrFminmax a) rfl fun _ => ⟨_, rfl, fun _ he => elem_fromElems _ _ _ _ (tyFmt_bits_pos _) he⟩

/-- `fabsneg` on one element of `w` bits. -/
theorem testBit_signChanged {w j : Nat} (neg : Bool) (x : Nat) (hj : j < w) :
    (if neg then x ^^^ 2 ^ (w - 1) else x % 2 ^ (w - 1)).testBit j = if j + 1 < w then x.testBit j else neg && !x.testBit j := by
  cases neg with
  | true =>
    rw [if_pos rfl, Nat.testBit_xor, Nat.testBit_two_pow]
    by_cases hlow : j + 1 < w
    · rw [if_pos hlow, decide_eq_false (by omega), Bool.xor_false]
    · rw [if_neg hlow, decide_eq_true (by omega), Bool.xor_true, Bool.true_and]
  | false =>
    rw [if_neg (by decide), Nat.testBit_mod_two_pow, Bool.false_and]
    by_cases hlow : j + 1 < w
    · rw [if_pos hlow, decide_eq_true (by omega), Bool.true_and]
    · rw [if_neg hlow, decide_eq_false (by omega), Bool.false_and]

theorem fabsneg_writes (hi : Issues s is c) :
    let k := floatMods a.m.toNat
    let w := (tyFmt k.ty).bits
    WritesD (.fabsneg a) a s is c (tyRegs k.ty) fun t v => ∀ e < tyElems k.ty, ∀ j < w,
      let x := elem w (rd c t a.a (tyRegs k.ty)) e
      (elem w v e).testBit j = if j + 1 < w then x.testBit j else k.low && !x.testBit j := by
  intro k w
  refine writesD_of hi (wrFabsneg a) rfl fun t => ⟨_, rfl, fun e he j hj => ?_⟩
  rw [elem_fromElems _ _ _ _ (tyFmt_bits_pos _) he, testBit_mod_of_lt hj]
  exact testBit_signChanged _ _ hj

/-! ### Tests (R148, R150) -/

/-- The conditions of `fcmp` on operands that are ordered or not. -/
def orderedCond (cc : Nat) (x y : FV) : Bool :=
  let ord := !x.isNan && !y.isNan
  match cc with
  | 0 => ord && x.cmp y == .eq
  | 1 => !ord || x.cmp y != .eq
  | 2 => ord && x.cmp y == .lt
  | 3 => ord && x.cmp y != .gt
  | 4 => ord && x.cmp y == .gt
  | 5 => ord && x.cmp y != .lt
  | 6 => ord
  | _ => !ord

theorem floatCond_eq (cc : Nat) (x y : FV) : floatCond cc x y = orderedCond cc x y := by
  unfold floatCond orderedCond
  rw [← Bool.not_or]
  cases x.isNan || y.isNan <;> rfl

theorem fclass_writes (hi : Issues s is c) :
    let k := floatMods a.m.toNat
    let fm := tyFmt k.ty
    WritesP (.fclass a) a s is c fun t => (a.imm.elim a.x.toNat BitVec.toNat).testBit
      (floatClass fm k.fi (elem fm.bits (rd c t a.a (tyRegs k.ty)) (if k.low then 1 else 0))) := by
  refine writesP_of hi (wrFclass a) rfl fun t => ?_
  unfold wrFclass
  cases a.imm with
  | none => rfl
  | some v => rfl

/-! ### Approximations (R153) -/

theorem approx_nan (fn : ApproxFn) (f : Fmt) : approx fn f .nan = .nan := rfl

section
variable (f : Fmt) {m : Nat} (e : Int) (hm : m ≠ 0)
include hm

/-- The free offset of `frcp`, `fsin` and `fcos` is that of the magnitude. -/
theorem approx_rcp_neg : approx .rcp f (.fin true m e) = (approx .rcp f (.fin false m e)).neg := by
  simp only [approx, if_neg hm, FV.abs, if_true, Bool.false_eq_true, if_false]

theorem approx_sin_neg : approx .sin f (.fin true m e) = (approx .sin f (.fin false m e)).neg := by
  simp only [approx, if_neg hm, FV.abs, if_true, Bool.false_eq_true, if_false]

theorem approx_cos_neg : approx .cos f (.fin true m e) = approx .cos f (.fin false m e) := by
  simp only [approx, if_neg hm, FV.abs]

theorem approx_rsq_neg : approx .rsq f (.fin true m e) = .nan := by
  simp only [approx, if_neg hm, if_true]

theorem approx_lg2_neg : approx .lg2 f (.fin true m e) = .nan := by
  simp only [approx, if_neg hm, if_true]

end

theorem approx_rcp_one (f : Fmt) (neg : Bool) (e : Int) : approx .rcp f (.fin neg 1 e) = .fin neg 1 (-e) := by
  have hlog : Nat.log2 1 = 0 := by decide
  have hpow : isPow2 1 = true := by decide
  simp only [approx, if_neg Nat.one_ne_zero, hpow, hlog, if_true, Nat.cast_zero, add_zero]
  cases neg <;> rfl

/-- Settles O17: selections by which operands are NaN, signs bit by bit, tests by their conditions, and the approximations by the table of special values. -/
theorem floatTestsAndApproximations : Obligations.FloatTestsAndApproximations := by
  unfold Obligations.FloatTestsAndApproximations
  refine ⟨fun s is c a hi => ⟨writesD_mono (fminmax_writes hi) fun t v hv e he => ?minmax, fabsneg_writes hi, ?cmp, fclass_writes hi⟩,
    fun s is c a hi => ⟨?rcp, ?rsq, ?ex2, ?lg2, ?sin, ?cos⟩, fun f neg m e hm => ?symmetries, fun f neg e => ?special⟩
  case minmax =>
    dsimp only
    rw [hv e he]
    exact minmaxBits_mod (nan_lt_two_pow_bits _) ..
  case cmp => exact writesP_of hi (wrFcmp a) rfl fun t => congrArg (fun b => [Wr.pred a.d b]) (floatCond_eq ..)
  case rcp => exact writesD_of hi (wrFrcp a) rfl fun t => ⟨_, rfl, rfl⟩
  case rsq => exact writesD_of hi (wrFrsq a) rfl fun t => ⟨_, rfl, rfl⟩
  case ex2 => exact writesD_of hi (wrFex2 a) rfl fun t => ⟨_, rfl, rfl⟩
  case lg2 => exact writesD_of hi (wrFlg2 a) rfl fun t => ⟨_, rfl, rfl⟩
  case sin => exact writesD_of hi (wrFsin a) rfl fun t => ⟨_, rfl, rfl⟩
  case cos => exact writesD_of hi (wrFcos a) rfl fun t => ⟨_, rfl, rfl⟩
  case symmetries =>
    exact ⟨approx_rcp_neg f e hm, approx_sin_neg f e hm, approx_cos_neg f e hm, approx_rsq_neg f e hm, approx_lg2_neg f e hm, approx_rcp_one f neg e⟩
  case special => exact ⟨rfl, rfl, rfl, rfl, rfl, rfl, rfl, rfl, rfl, rfl, rfl, rfl, fun fn => approx_nan fn f⟩

end Sys2Proof.Machine
end

section
/-! PROOFS. The checks of an access in their order (R165, R175, R250). -/

namespace Sys2Proof.Machine

/-- That an access answers a trap of its gang at the word, with a property of the trap. -/
def TrapsWith (e : Env) (P : TrapInfo → Prop) (out : Out) : Prop :=
  ∃ f : TrapInfo, P f ∧ out = .next (raise e.s e.is.crew e.is.pc e.is.tids f)

theorem steerBad_code {l : LaneAcc} {code sub : Nat} (h : steerBad l = some (code, sub)) : code = 0x05 ∨ code = 0x06 ∧ sub = 1 := by
  unfold steerBad at h
  split at h
  · cases h; exact .inl rfl
  · cases h; exact .inr ⟨rfl, rfl⟩
  · cases h

/-- The first element that a filter keeps of a list in which some element answers, and what it answers. -/
theorem head_bind_of_exists {α β : Type} {f : α → Option β} {ls : List α} (h : ∃ l ∈ ls, f l ≠ none) :
    ∃ l y, f l = some y ∧ (ls.filter fun l => (f l).isSome).head?.bind f = some y := by
  obtain ⟨l, hl, hne⟩ := h
  have hmem : l ∈ ls.filter fun l => (f l).isSome := List.mem_filter.2 ⟨hl, Option.isSome_iff_ne_none.2 hne⟩
  obtain ⟨x, xs, hx⟩ := List.exists_cons_of_ne_nil (List.ne_nil_of_mem hmem)
  have hsome : (f x).isSome = true := (List.mem_filter.1 (show x ∈ ls.filter fun l => (f l).isSome by rw [hx]; exact List.mem_cons_self ..)).2
  obtain ⟨y, hy⟩ := Option.isSome_iff_exists.1 hsome
  exact ⟨x, y, hy, by simp [hx, hy]⟩

section
variable {e : Env} {n : Need} {ls : List LaneAcc} (k : State → List Ready' → Out)

theorem filter_alignBad_of_aligned (h : ∀ l ∈ ls, alignBad n l = false) : ls.filter (alignBad n) = [] :=
  List.filter_eq_nil_iff.2 fun l hl => by simp [h l hl]

theorem memGate_misaligned (h : ∃ l ∈ ls, alignBad n l = true) : TrapsWith e (·.code = 0x04) (memGate e n ls k) := by
  obtain ⟨l, hl, hbad⟩ := h
  have hne : (ls.filter (alignBad n)).isEmpty = false := List.isEmpty_eq_false_iff_exists_mem.2 ⟨l, List.mem_filter.2 ⟨hl, hbad⟩⟩
  refine ⟨_, ?_, by simp only [memGate, hne, Bool.not_false, if_true]; rfl⟩
  rfl

theorem memGate_steered (hal : ∀ l ∈ ls, alignBad n l = false) (h : ∃ l ∈ ls, steerBad l ≠ none) :
    TrapsWith e (fun f => f.code = 0x05 ∨ f.code = 0x06 ∧ f.sub = 1) (memGate e n ls k) := by
  obtain ⟨l, ⟨code, sub⟩, hl, hhead⟩ := head_bind_of_exists h
  refine ⟨_, ?_, by simp only [memGate, filter_alignBad_of_aligned hal, hhead, List.isEmpty_nil, Bool.not_true, Bool.false_eq_true, if_false]; rfl⟩
  exact steerBad_code hl

theorem filter_steerBad_of_steered (h : ∀ l ∈ ls, steerBad l = none) : ls.filter (fun l => (steerBad l).isSome) = [] :=
  List.filter_eq_nil_iff.2 fun l hl => by simp [h l hl]

theorem memGate_unpermitted (hal : ∀ l ∈ ls, alignBad n l = false) (hst : ∀ l ∈ ls, steerBad l = none) (h : ∃ l ∈ ls, permBad e.s e.c n l ≠ none) :
    TrapsWith e (·.code = 0x07) (memGate e n ls k) := by
  obtain ⟨l, b, -, hhead⟩ := head_bind_of_exists h
  refine ⟨_, ?_, by
    simp only [memGate, filter_alignBad_of_aligned hal, filter_steerBad_of_steered hst, hhead, List.isEmpty_nil, Bool.not_true, Bool.false_eq_true, if_false,
      List.head?_nil, Option.bind_none]; rfl⟩
  rfl

theorem memGate_watched (hal : ∀ l ∈ ls, alignBad n l = false) (hst : ∀ l ∈ ls, steerBad l = none) (hpm : ∀ l ∈ ls, permBad e.s e.c n l = none)
    (h : aliasHit e.s e.c n ls ≠ none) : TrapsWith e (·.code = 0x0A) (memGate e n ls k) := by
  obtain ⟨⟨addr, node, hit⟩, hhit⟩ := Option.ne_none_iff_exists'.1 h
  have hperm : ls.filter (fun l => (permBad e.s e.c n l).isSome) = [] := List.filter_eq_nil_iff.2 fun l hl => by simp [hpm l hl]
  refine ⟨_, ?_, by
    simp only [memGate, filter_alignBad_of_aligned hal, filter_steerBad_of_steered hst, hperm, hhit, List.isEmpty_nil, Bool.not_true, Bool.false_eq_true, if_false,
      List.head?_nil, Option.bind_none]; rfl⟩
  rfl

end

/-- What an access answers where a check fails, in the order of the checks. -/
def ChecksTrap (s : State) (is : Issue) (c : Crew) (n : Need) (ls : List LaneAcc) (out : Out) : Prop :=
  ((∃ l ∈ ls, alignBad n l = true) → ∃ f : TrapInfo, f.code = 0x04 ∧ out = .next (raise s is.crew is.pc is.tids f)) ∧
  ((∀ l ∈ ls, alignBad n l = false) → (∃ l ∈ ls, steerBad l ≠ none) →
    ∃ f : TrapInfo, (f.code = 0x05 ∨ f.code = 0x06 ∧ f.sub = 1) ∧ out = .next (raise s is.crew is.pc is.tids f)) ∧
  ((∀ l ∈ ls, alignBad n l = false ∧ steerBad l = none) → (∃ l ∈ ls, permBad s c n l ≠ none) →
    ∃ f : TrapInfo, f.code = 0x07 ∧ out = .next (raise s is.crew is.pc is.tids f)) ∧
  ((∀ l ∈ ls, alignBad n l = false ∧ steerBad l = none ∧ permBad s c n l = none) → aliasHit s c n ls ≠ none →
    ∃ f : TrapInfo, f.code = 0x0A ∧ out = .next (raise s is.crew is.pc is.tids f))

theorem checksTrap_memGate {s : State} {is : Issue} {c : Crew} {g : Guard} {n : Need} {ls : List LaneAcc} {out : Out} (k : State → List Ready' → Out)
    (h : out = memGate (envOf s is c g) n ls k) : ChecksTrap s is c n ls out := by
  subst h
  let e := envOf s is c g
  exact ⟨memGate_misaligned (e := e) k, memGate_steered (e := e) k, fun h => memGate_unpermitted (e := e) k (fun l hl => (h l hl).1) fun l hl => (h l hl).2,
    fun h => memGate_watched (e := e) k (fun l hl => (h l hl).1) (fun l hl => (h l hl).2.1) fun l hl => (h l hl).2.2⟩

section
variable {s : State} {is : Issue} {c : Crew} {a : Args}

theorem doLoad_gate (e : Env) (a : Args) (ls : List LaneAcc) :
    ∃ k, doLoad e a ls = memGate e { w := memWidth a, load := true, strong := memStrong a } ls k := by
  unfold doLoad
  exact ⟨_, rfl⟩

theorem doStore_gate (e : Env) (a : Args) (ls : List LaneAcc) :
    ∃ k, doStore e a ls = memGate e { w := memWidth a, store := true, strong := memStrong a } ls k := by
  unfold doStore
  exact ⟨_, rfl⟩

theorem checksTrap_ld (hi : Issues s is c) : ChecksTrap s is c { w := memWidth a, load := true, strong := memStrong a }
    (moLanes (envOf s is c a.guard) a (memWidth a)) (exec (.ld a) s) := by
  obtain ⟨k, hgate⟩ := doLoad_gate (envOf s is c a.guard) a (moLanes (envOf s is c a.guard) a (memWidth a))
  exact checksTrap_memGate k ((exec_ld hi).trans hgate)

theorem checksTrap_st (hi : Issues s is c) : ChecksTrap s is c { w := memWidth a, store := true, strong := memStrong a }
    (moLanes (envOf s is c a.guard) a (memWidth a)) (exec (.st a) s) := by
  obtain ⟨k, hgate⟩ := doStore_gate (envOf s is c a.guard) a (moLanes (envOf s is c a.guard) a (memWidth a))
  exact checksTrap_memGate k ((exec_st hi).trans hgate)

end

/-- Settles O30: loads and stores pass one gate, which makes the checks one after another. -/
theorem accessChecksInOrder : Obligations.AccessChecksInOrder := by
  unfold Obligations.AccessChecksInOrder
  exact fun s is c a hi => ⟨checksTrap_ld hi, checksTrap_st hi⟩

end Sys2Proof.Machine
end

section
/-! PROOFS. Walks, fault replies and invalidations (R162, R163). -/

namespace Sys2Proof.Machine

/-! ### The end of a walk (R162) -/

/-- A walk that is on its way, has a walker and whose reads need not wait (R162, R167, R168). -/
structure WalkGoes (s : State) (w : Walk) : Prop where
  found : s.walks.find? (fun x => x.id == w.id && !x.faulted) = some w
  open_ : walkWaits s w.ctx w.va = false
  unshut : walkShut s w.ctx w.va = false
  walker : w.busy = true ∨ hasWalker s w = true

/-- A state in which a walk has ended. -/
def withoutWalk (s : State) (w : Walk) : State := { s with walks := s.walks.filter (·.id != w.id) }

/-- The threads parked on a walk. -/
abbrev walkParked (s : State) (w : Walk) : List (Crew × Thread) := parkedOn s (onWalk w.id)

section
variable {s : State} {w : Walk}

theorem exec_walkComplete_waits (hw : s.walks.find? (fun x => x.id == w.id && !x.faulted) = some w)
    (h : walkWaits s w.ctx w.va = true ∨ walkShut s w.ctx w.va = true ∨ w.busy = false ∧ hasWalker s w = false) :
    exec (.walkComplete w.id) s = .next s := by
  have hstays : (walkWaits s w.ctx w.va || walkShut s w.ctx w.va || !(w.busy || hasWalker s w)) = true := by
    rcases h with h | h | ⟨hb, hn⟩
    · simp [h]
    · simp [h]
    · simp [hb, hn]
  simp only [exec, execWalkComplete, hw, hstays, if_true]

theorem WalkGoes.test (h : WalkGoes s w) : (walkWaits s w.ctx w.va || walkShut s w.ctx w.va || !(w.busy || hasWalker s w)) = false := by
  rcases h.walker with hb | hn
  · simp [h.open_, h.unshut, hb]
  · simp [h.open_, h.unshut, hn]

theorem exec_walkComplete_leaf (h : WalkGoes s w) {l : Leaf} {log2 k : Nat} (htree : walkTree s w.ctx w.va = .leaf l log2 k) (hcomp : l.compressed = false)
    (hbusy : l.busy = false) : exec (.walkComplete w.id) s = .next (wakeParked (fillTlb (actPrefs (withoutWalk s w) w
      { ctx := w.ctx, die := w.die, core := none, va := w.va / 2 ^ log2 * 2 ^ log2, log2 := log2, leaf := l } k) w.ctx w.die w.core w.va l log2) (walkParked s w) 1 none) := by
  simp only [exec, execWalkComplete, h.found, h.test, htree, hcomp, hbusy, Bool.false_eq_true, if_false, withoutWalk]

theorem exec_walkComplete_busy (h : WalkGoes s w) {l : Leaf} {log2 k : Nat} (htree : walkTree s w.ctx w.va = .leaf l log2 k) (hcomp : l.compressed = false)
    (hbusy : l.busy = true) :
    exec (.walkComplete w.id) s = .next { s with walks := s.walks.map fun x => if x.id = w.id then { x with busy := true } else x } := by
  simp only [exec, execWalkComplete, h.found, h.test, htree, hcomp, hbusy, Bool.false_eq_true, if_false, if_true]

theorem exec_walkComplete_malformed (h : WalkGoes s w) (htree : walkTree s w.ctx w.va = .malformed) :
    exec (.walkComplete w.id) s = .next (wakeParked (dropPrefs (withoutWalk s w) w) (walkParked s w) 2 (some (pageTrap 3))) := by
  simp only [exec, execWalkComplete, h.found, h.test, htree, Bool.false_eq_true, if_false, withoutWalk]

theorem exec_walkComplete_invalid (h : WalkGoes s w) (htree : walkTree s w.ctx w.va = .invalid) :
    exec (.walkComplete w.id) s = .next (if (walkParked s w).isEmpty && w.engines.isEmpty then dropPrefs (withoutWalk s w) w else sendFault s w) := by
  simp only [exec, execWalkComplete, h.found, h.test, htree, Bool.false_eq_true, if_false, withoutWalk]

/-! ### Fault replies (R162) -/

theorem exec_faultReplyResolved (hw : s.walks.find? (fun x => x.id == w.id && x.faulted) = some w) :
    exec (.faultReplyResolved w.id) s = .next (wakeParked (withoutWalk s w) (walkParked s w) 1 none) := by
  simp only [exec, execFaultReplyResolved, hw, withoutWalk]

theorem exec_faultReplyUnresolvable (hw : s.walks.find? (fun x => x.id == w.id && x.faulted) = some w) :
    exec (.faultReplyUnresolvable w.id) s = .next (wakeParked { withoutWalk s w with
      demandFaults := s.demandFaults ++ w.engines.map fun id => (id, { pageTrap 2 with addr := BitVec.ofNat 64 w.va }) } (walkParked s w) 2 (some (pageTrap 2))) := by
  simp only [exec, execFaultReplyUnresolvable, hw, withoutWalk]

end

/-! ### Threads that a walk's end wakes -/

/-- What a trap is named by: its code and its sub-code. -/
def TrapInfo.name (f : TrapInfo) : Nat × Nat := (f.code, f.sub)

/-- A thread that has been woken with a trap to meet, or none. -/
def Woken (f : Option TrapInfo) (t t' : Thread) : Prop := t'.hold = .none ∧ t'.pc = t.pc ∧ t'.wakeTrap.map TrapInfo.name = f.map TrapInfo.name

/-- The wake of a parked thread of a resident crew changes that thread alone. -/
theorem wakeParkedOne_of_resident (s : State) {x : Crew × Thread} (h : x.1.where_ = .resident) (kind : Nat) (f : Option TrapInfo) :
    ∃ g : Option TrapInfo, g.map TrapInfo.name = f.map TrapInfo.name ∧
      wakeParkedOne kind f s x = updT s x.1.uid x.2.tid fun t => { t with hold := .none, wakeTrap := g } := by
  obtain ⟨c, t⟩ := x
  have hlog : logBlocked s c = false := by simp [logBlocked, show c.where_ = .resident from h]
  refine ⟨f.map fun f => if f.code == tcPAGE then { f with addr := BitVec.ofNat 64 (parkVa t) } else f, ?_, ?_⟩
  · cases f with
    | none => rfl
    | some f =>
      simp only [Option.map_some]
      split <;> rfl
  · simp only [wakeParkedOne, hlog, Bool.false_and, Bool.false_eq_true, if_false, logReply_of_resident h]

theorem getThread_updT (s : State) (uid tid u i : Nat) (f : Thread → Thread) (hf : ∀ t, (f t).tid = t.tid) :
    getThread (updT s uid tid f) u i = (getThread s u i).map fun t => if u = uid ∧ i = tid then f t else t := by
  rw [getThread, updT, getCrew_updCrew s uid u (·.upd tid f) fun c => rfl, getThread]
  cases hc : getCrew s u with
  | none => rfl
  | some c =>
    simp only [Option.map_some, Option.bind_some, getCrew_uid hc]
    by_cases hu : u = uid
    · simp only [hu, if_true, true_and, thread_upd c tid i f hf]
      cases ht : c.thread i with
      | none => rfl
      | some t => simp [thread_tid ht]
    · simp only [hu, if_false, false_and]
      cases c.thread i <;> rfl

/-- A wake leaves a thread as it is, or wakes it. -/
theorem getThread_wakeParkedOne {s : State} {x : Crew × Thread} (h : x.1.where_ = .resident) (kind : Nat) (f : Option TrapInfo) {u i : Nat} {t : Thread}
    (ht : getThread s u i = some t) : ∃ t', getThread (wakeParkedOne kind f s x) u i = some t' ∧
      if u = x.1.uid ∧ i = x.2.tid then Woken f t t' else t' = t := by
  obtain ⟨g, hg, hstep⟩ := wakeParkedOne_of_resident s h kind f
  refine ⟨_, by
    rw [hstep, getThread_updT s x.1.uid x.2.tid u i (fun t => { t with hold := .none, wakeTrap := g }) fun _ => rfl, ht]
    rfl, ?_⟩
  split
  · exact ⟨rfl, rfl, hg⟩
  · rfl

theorem getThread_wakeParked_of_woken {ts : List (Crew × Thread)} (h : ∀ x ∈ ts, x.1.where_ = .resident) (kind : Nat) (f : Option TrapInfo) {s : State} {u i : Nat}
    {t₀ t : Thread} (ht : getThread s u i = some t) (hwoken : Woken f t₀ t) : ∃ t', getThread (wakeParked s ts kind f) u i = some t' ∧ Woken f t₀ t' := by
  induction ts generalizing s t with
  | nil => exact ⟨t, ht, hwoken⟩
  | cons x xs ih =>
    obtain ⟨t', ht', hstep⟩ := getThread_wakeParkedOne (h x (List.mem_cons_self ..)) kind f ht
    refine ih (fun y hy => h y (List.mem_cons_of_mem _ hy)) ht' ?_
    split at hstep
    · obtain ⟨hhold, hpc, htrap⟩ := hstep
      exact ⟨hhold, hpc.trans hwoken.2.1, htrap⟩
    · exact hstep ▸ hwoken

/-- Every thread of a list of resident crews' threads is woken. -/
theorem getThread_wakeParked {ts : List (Crew × Thread)} (h : ∀ x ∈ ts, x.1.where_ = .resident) (kind : Nat) (f : Option TrapInfo) {s : State} {c : Crew} {t t₀ : Thread}
    (hmem : (c, t₀) ∈ ts) (ht : getThread s c.uid t₀.tid = some t) : ∃ t', getThread (wakeParked s ts kind f) c.uid t₀.tid = some t' ∧ Woken f t t' := by
  induction ts generalizing s t with
  | nil => cases hmem
  | cons x xs ih =>
    obtain ⟨t', ht', hstep⟩ := getThread_wakeParkedOne (h x (List.mem_cons_self ..)) kind f ht
    have hrest : ∀ y ∈ xs, y.1.where_ = .resident := fun y hy => h y (List.mem_cons_of_mem _ hy)
    split at hstep
    · exact getThread_wakeParked_of_woken hrest kind f ht' hstep
    · next hne =>
      subst hstep
      rcases List.mem_cons.1 hmem with rfl | hin
      · exact absurd ⟨rfl, rfl⟩ hne
      · exact ih hrest hin ht'

/-! ### Invalidations (R163) -/

theorem exec_xltInvDone {s : State} {x : Context} (hx : getCtx s x.id = some x) (hne : x.xltInv ≠ []) (hhome : storesFlying s x.id = false) :
    exec (.xltInvDone x.id) s = .next { updCtx s x.id (fun c => { c with xltInv := [] }) with
      tlb := s.tlb.filter fun e => !(e.ctx == x.id && x.xltInv.any (invNames · e)) } := by
  simp [exec, execXltInvDone, hx, hne, hhome]

theorem getCtx_id {s : State} {i : Nat} {x : Context} (h : getCtx s i = some x) : x.id = i := by
  simpa using List.find?_some h

theorem getCtx_updCtx (s : State) (id i : Nat) (f : Context → Context) (hf : ∀ x, (f x).id = x.id) :
    getCtx (updCtx s id f) i = (getCtx s i).map fun x => if x.id = id then f x else x :=
  find?_map_of_key s.contexts _ Context.id i (by intro x; split <;> simp [hf])

/-- Settles O51: the end of a walk by where it ends, the threads that it wakes one after another, and the invalidation by what it filters. -/
theorem translationEvents : Obligations.TranslationEvents := by
  unfold Obligations.TranslationEvents
  refine ⟨fun s w hw => ⟨exec_walkComplete_waits hw, fun hopen hunshut hwalker => ?ends⟩, fun s w hw => ⟨exec_faultReplyResolved hw, exec_faultReplyUnresolvable hw⟩,
    fun s ts kind f c t hres hmem ht => getThread_wakeParked hres kind f hmem ht, fun s ctx v => rfl, fun s x hx hne hhome => ?inv⟩
  case ends =>
    have hgoes : WalkGoes s w := ⟨hw, hopen, hunshut, hwalker⟩
    refine ⟨fun l log2 k htree hcomp => ⟨exec_walkComplete_leaf hgoes htree hcomp, exec_walkComplete_busy hgoes htree hcomp⟩,
      exec_walkComplete_malformed hgoes, fun htree => ⟨fun hnone hengines => ?_, fun hneeded => ?_⟩⟩
    · rw [exec_walkComplete_invalid hgoes htree, if_pos (by simp [hnone, hengines])]; rfl
    · rw [exec_walkComplete_invalid hgoes htree, if_neg (by simpa [← not_and_or] using hneeded)]; rfl
  case inv =>
    refine ⟨_, exec_xltInvDone hx hne hhome, fun y hy => ?_, rfl, fun e he => ?_⟩
    · have hy' : getCtx (updCtx s x.id fun c => { c with xltInv := [] }) x.id = some y := hy
      rw [getCtx_updCtx s x.id x.id (fun c => { c with xltInv := [] }) fun _ => rfl, hx] at hy'
      simpa using hy'.symm
    · obtain ⟨hin, hkept⟩ := List.mem_filter.1 he
      exact ⟨hin, by simpa [imp_iff_not_or] using hkept⟩

end Sys2Proof.Machine
end

section
/-! PROOFS. Page migration and the bin floor (R163, R164, R168, R179). -/

namespace Sys2Proof.Machine

/-! ### Memory that is filled or thinned out -/

/-- A byte that writes at distinct keys name reads as written. -/
theorem memByte_memPutAll_of_mem (m : List Host.Cell) {ws : List (Nat × Byte)} (hnodup : (ws.map (·.1)).Nodup) {w : Nat × Byte} (hw : w ∈ ws) :
    memByte (memPutAll m ws) w.1 = w.2 := by
  induction ws generalizing m with
  | nil => cases hw
  | cons x xs ih =>
    obtain ⟨hx, hxs⟩ := List.nodup_cons.1 (List.map_cons .. ▸ hnodup)
    rcases List.mem_cons.1 hw with rfl | hin
    · have hrest : ∀ y ∈ xs, y.1 ≠ w.1 := fun y hy he => hx (he ▸ List.mem_map_of_mem hy)
      exact (memByte_memPutAll_of_notMem _ _ _ hrest).trans (by simp [memByte_memPut])
    · exact ih _ hxs hin

/-- The writes of bytes from a key upwards. -/
theorem zip_range_map_keys (k : Nat) (bs : List Byte) :
    (((List.range bs.length).zip bs).map fun p => (k + p.1, p.2)).map (·.1) = (List.range bs.length).map (k + ·) := by
  calc _ = (((List.range bs.length).zip bs).map Prod.fst).map (k + ·) := by simp only [List.map_map]; rfl
    _ = _ := by rw [List.map_fst_zip (by simp)]

theorem memByte_memFill_inside (m : List Host.Cell) (k : Nat) (bs : List Byte) {i : Nat} (hi : i < bs.length) : memByte (memFill m k bs) (k + i) = bs[i] := by
  have hnodup : ((((List.range bs.length).zip bs).map fun p => (k + p.1, p.2)).map (·.1)).Nodup := by
    rw [zip_range_map_keys]
    exact List.nodup_range.map fun a b h => Nat.add_left_cancel h
  refine memByte_memPutAll_of_mem m hnodup (w := (k + i, bs[i])) (List.mem_map.2 ⟨(i, bs[i]), ?_, rfl⟩)
  exact List.mem_iff_getElem.2 ⟨i, by simpa using hi, by simp⟩

theorem memByte_memFill_outside (m : List Host.Cell) (k : Nat) (bs : List Byte) {j : Nat} (hj : j < k ∨ k + bs.length ≤ j) :
    memByte (memFill m k bs) j = memByte m j := by
  refine memByte_memPutAll_of_notMem _ _ _ fun w hw => ?_
  have hkey := List.mem_map_of_mem (f := (·.1)) hw
  rw [zip_range_map_keys] at hkey
  obtain ⟨i, hi, hik⟩ := List.mem_map.1 hkey
  have := List.mem_range.1 hi
  omega

/-- A byte of a memory of which only some keys are kept. -/
theorem memByte_filter (m : List Host.Cell) (p : Nat → Bool) (j : Nat) : memByte (m.filter fun c => p c.1) j = if p j then memByte m j else 0 := by
  induction m with
  | nil => simp
  | cons e es ih =>
    have hcons : memByte (e :: es) j = if j = e.1 then e.2 else memByte es j := rfl
    by_cases he : p e.1 = true
    · rw [List.filter_cons_of_pos (p := fun c : Host.Cell => p c.1) he, hcons]
      show (if j = e.1 then e.2 else memByte (es.filter fun c => p c.1) j) = _
      by_cases hj : j = e.1
      · simp [hj, he]
      · simp [hj, ih]
    · rw [List.filter_cons_of_neg (p := fun c : Host.Cell => p c.1) he, ih, hcons]
      by_cases hj : j = e.1
      · simp [hj, he]
      · simp [hj]

/-- What a step of a fold keeps, the fold keeps. -/
theorem foldl_keeps {β γ : Type} (π : State → γ) (f : State → β → State) (h : ∀ s x, π (f s x) = π s) (xs : List β) (s : State) : π (xs.foldl f s) = π s := by
  induction xs generalizing s with
  | nil => rfl
  | cons x xs ih => exact (ih _).trans (h s x)

/-! ### A page that leaves the requests that named it (R179) -/

/-- A fold whose steps change only crews does so. -/
theorem foldl_crews {β : Type} (f : State → β → State) (h : ∀ s x, ∃ cs, f s x = { s with crews := cs }) (xs : List β) (s : State) :
    ∃ cs, xs.foldl f s = { s with crews := cs } := by
  induction xs generalizing s with
  | nil => exact ⟨s.crews, rfl⟩
  | cons x xs ih =>
    obtain ⟨cs, hstep⟩ := h s x
    obtain ⟨ds, hrest⟩ := ih (f s x)
    exact ⟨ds, by rw [List.foldl_cons, hrest, hstep]⟩

/-- A settled page changes only crews, requests and contexts. -/
theorem pageSettled_eq (s : State) (ctx va : Nat) : ∃ cs ms xs, pageSettled s ctx va = { s with crews := cs, moves := ms, contexts := xs } := by
  unfold pageSettled
  dsimp only
  generalize hu : List.foldl _ s _ = u
  have hcrews : ∃ cs, u = { s with crews := cs } := by
    rw [← hu]
    refine foldl_crews _ (fun s m => ?_) _ s
    split
    · exact ⟨_, rfl⟩
    · exact ⟨_, rfl⟩
  obtain ⟨cs, rfl⟩ := hcrews
  exact ⟨cs, _, _, rfl⟩

theorem pageSettled_migs (s : State) (ctx va : Nat) : (pageSettled s ctx va).migs = s.migs := by
  obtain ⟨cs, ms, xs, h⟩ := pageSettled_eq s ctx va
  rw [h]

/-! ### The start of a migration (R164) -/

section
variable {s : State} {ctx va frame die piece : Nat} {olds : List Nat}

theorem pageFree_test (hpage : va % 2 ^ 21 = 0) (hfree : ∀ m ∈ s.migs, ¬ (m.ctx = ctx ∧ m.va = va)) :
    (va % 2 ^ 21 != 0 || s.migs.any fun m => m.ctx == ctx && m.va == va) = false := by
  have hnew : s.migs.any (fun m => m.ctx == ctx && m.va == va) = false := by simpa using hfree
  simp only [hpage, hnew, bne_self_eq_false, Bool.or_false]

theorem exec_migrationStart (hpage : va % 2 ^ 21 = 0) (hfree : ∀ m ∈ s.migs, ¬ (m.ctx = ctx ∧ m.va = va)) (hasked : askedDie s ctx va = some die)
    (hmov : movable s ctx va die = true) (haligned : frame % 2 ^ 21 = 0) (hlow : frame < 2 ^ 40) (hdie : bitsOf frame 39 38 = die)
    (hframes : pageFrames s ctx va = some (olds, piece)) (hegress : olds.all (frameEgressOk s piece) = true) :
    exec (.migrationStart ctx va frame) s = .next { s with
      migs := s.migs ++ [{ id := s.nextId, ctx := ctx, va := va, olds := olds, piece := piece, newKey := hbmKey frame }], nextId := s.nextId + 1 } := by
  have hframe : (frame % 2 ^ 21 != 0 || decide (2 ^ 40 ≤ frame) || bitsOf frame 39 38 != die) = false := by
    simp only [haligned, hdie, bne_self_eq_false, Bool.or_false, decide_eq_false (Nat.not_le.2 hlow)]
  simp only [exec, execMigrationStart, pageFree_test hpage hfree, hasked, hmov, hframe, hframes, hegress, Bool.not_true, Bool.false_eq_true, if_false]

theorem exec_migrationStart_passes (hpage : va % 2 ^ 21 = 0) (hfree : ∀ m ∈ s.migs, ¬ (m.ctx = ctx ∧ m.va = va)) (hasked : askedDie s ctx va = some die)
    (hmov : movable s ctx va die = false) : exec (.migrationStart ctx va frame) s = .next (pageSettled s ctx va) := by
  simp only [exec, execMigrationStart, pageFree_test hpage hfree, hasked, hmov, Bool.not_false, Bool.false_eq_true, if_false, if_true]

end

/-! ### The copy of a line, and what follows the last (R164) -/

section
variable {s : State} {m : Migration} (hm : s.migs.find? (·.id == m.id) = some m)
include hm

theorem exec_migrationLineCopy_line (hline : m.line < 32768) : ∃ u : State, exec (.migrationLineCopy m.id) s = .next u ∧
    u.migs = s.migs.map (fun x => if x.id = m.id then { x with line := m.line + 1 } else x) ∧
    u.mem = memFill s.mem (m.newKey + 64 * m.line) (homeBytes s (m.oldLine m.line) 64) := by
  refine ⟨_, by simp only [exec, execMigrationLineCopy, hm, hline, if_true]; rfl, rfl, rfl⟩

theorem exec_migrationLineCopy_moved (hline : 32768 ≤ m.line) (hin : inPlace s m = false) :
    exec (.migrationLineCopy m.id) s = .next (pageSettled { s with migs := s.migs.filter (·.id != m.id) } m.ctx m.va) := by
  simp [exec, execMigrationLineCopy, hm, Nat.not_lt.2 hline, hin]

theorem exec_migrationLineCopy_shuts (hline : 32768 ≤ m.line) (hin : inPlace s m = true) (hshut : m.shut = false) :
    exec (.migrationLineCopy m.id) s = .next (shutPage s m) := by
  simp [exec, execMigrationLineCopy, hm, Nat.not_lt.2 hline, hin, hshut]

theorem exec_migrationLineCopy_waits (hline : 32768 ≤ m.line) (hin : inPlace s m = true) (hshut : m.shut = true) (hfly : flyingTo s m = true) :
    exec (.migrationLineCopy m.id) s = .next s := by
  simp [exec, execMigrationLineCopy, hm, Nat.not_lt.2 hline, hin, hshut, hfly]

theorem exec_migrationLineCopy_switches (hline : 32768 ≤ m.line) (hin : inPlace s m = true) (hshut : m.shut = true) (hfly : flyingTo s m = false) :
    exec (.migrationLineCopy m.id) s = .next (switchPage s m) := by
  simp [exec, execMigrationLineCopy, hm, Nat.not_lt.2 hline, hin, hshut, hfly]

end

theorem mem_shutPage_migs {s : State} {m x : Migration} (hx : x ∈ (shutPage s m).migs) (hid : x.id = m.id) : x.shut = true := by
  obtain ⟨y, -, rfl⟩ := List.mem_map.1 hx
  by_cases hy : y.id = m.id
  · simp [hy]
  · simp [hy] at hid

theorem mem_shutPage_tlb {s : State} {m : Migration} {e : TlbEntry} (he : e ∈ (shutPage s m).tlb) :
    e ∈ s.tlb ∧ ¬ (e.ctx = m.ctx ∧ e.va < m.va + 2 ^ 21 ∧ m.va < e.va + 2 ^ e.log2) := by
  have htlb : (shutPage s m).tlb = s.tlb.filter fun e => !(e.ctx == m.ctx && e.va < m.va + 2 ^ 21 && m.va < e.va + 2 ^ e.log2) :=
    congrArg (List.filter _) (foldl_keeps State.tlb _ (fun _ _ => by rfl) _ _)
  obtain ⟨hin, hkept⟩ := List.mem_filter.1 (htlb ▸ he)
  refine ⟨hin, fun ⟨hctx, hlo, hhi⟩ => ?_⟩
  simp only [hctx, hlo, hhi, beq_self_eq_true, decide_true, Bool.and_self, Bool.not_true, Bool.false_eq_true] at hkept

/-- The page's new leaf is written before the requests that named the page are settled. -/
theorem switchPage_eq (s : State) (m : Migration) : ∃ u : State, switchPage s m = pageSettled u m.ctx m.va ∧ u.migs = s.migs.filter (·.id != m.id) ∧
    ∀ k x ls, level1Key s m.ctx m.va = some k → pageLeaves s m.ctx m.va = some (x :: ls) →
      u = homeWriteN { s with migs := s.migs.filter (·.id != m.id) } k 8 (movedEntry x.1 (keyOff m.newKey)) := by
  unfold switchPage
  refine ⟨_, rfl, ?_, fun k x ls hk hls => by simp [hk, hls]⟩
  split <;> rfl

/-! ### The bin floor (R168) -/

theorem exec_bfpScrWrite {s : State} {core : Nat} {v : Word} (hcore : core < 1024) (hv : v.toNat ≤ 8) :
    exec (.bfpScrWrite core v) s = .next (updCore s core fun k => { k with change := k.change ++ [{ mb := v.toNat, mark := s.nextId, who := none }] }) := by
  simp [exec, execBfpScrWrite, Nat.not_le.2 hcore, Nat.not_lt.2 hv]

theorem exec_bfpScrWrite_reserved {s : State} {core : Nat} {v : Word} (hv : 8 < v.toNat) : exec (.bfpScrWrite core v) s = .next s := by
  simp [exec, execBfpScrWrite, hv]

@[simp] theorem coreOf_updCore_same (s : State) (k : Nat) (f : Core → Core) : coreOf (updCore s k f) k = f (coreOf s k) := mget_mput_same ..

/-- Whether a key is a byte of a core's bin scratch from a number of megabytes up. -/
def binAbove (core mb k : Nat) : Bool := binKey core (mb * 2 ^ 20) ≤ k && k < binKey core (2 ^ 24)

/-- Memory once a core's bin floor has gone to a number of megabytes. -/
def memAtFloor (s : State) (core mb : Nat) : List Host.Cell :=
  if mb < (coreOf s core).mb then s.mem.filter fun c => !binAbove core mb c.1 else s.mem

/-- The pinned lines that then stay. -/
def pinnedAtFloor (s : State) (core mb : Nat) : List Nat := if (coreOf s core).mb < mb then s.pinned.filter fun l => !inTaken s core l else s.pinned

theorem memByte_memAtFloor_given {s : State} {core mb j : Nat} (hmb : mb < (coreOf s core).mb) (hj : binAbove core mb j = true) :
    memByte (memAtFloor s core mb) j = 0 := by
  rw [memAtFloor, if_pos hmb, memByte_filter _ (fun k => !binAbove core mb k), hj]
  rfl

theorem memByte_memAtFloor_kept {s : State} {core mb j : Nat} (hj : ¬ (mb < (coreOf s core).mb ∧ binAbove core mb j = true)) :
    memByte (memAtFloor s core mb) j = memByte s.mem j := by
  unfold memAtFloor
  split
  · next hmb =>
    have habove : binAbove core mb j = false := by simpa [hmb] using hj
    rw [memByte_filter _ (fun k => !binAbove core mb k), habove]
    rfl
  · rfl

theorem mem_pinnedAtFloor {s : State} {core mb l : Nat} (hl : l ∈ pinnedAtFloor s core mb) : l ∈ s.pinned ∧ ((coreOf s core).mb < mb → inTaken s core l = false) := by
  unfold pinnedAtFloor at hl
  split at hl
  · obtain ⟨hin, hkept⟩ := List.mem_filter.1 hl
    exact ⟨hin, fun _ => by simpa using hkept⟩
  · next hmb => exact ⟨hl, fun h => absurd h hmb⟩

section
variable {s : State} {core : Nat} {ch : BfpChange} {rest : List BfpChange} (hch : (coreOf s core).change = ch :: rest)
include hch

theorem exec_bfpChangeComplete_waits (hbusy : binTransfers s core ch.mark = true) : exec (.bfpChangeComplete core) s = .next s := by
  simp only [exec, execBfpChangeComplete, hch, hbusy, if_true]

/-- A change in force: the split, memory, and the pinned lines. -/
theorem exec_bfpChangeComplete_done (hidle : binTransfers s core ch.mark = false) : ∃ u : State, exec (.bfpChangeComplete core) s = .next u ∧
    (∃ wb, coreOf u core = { coreOf s core with mb := ch.mb, wb := wb, change := rest }) ∧ u.mem = memAtFloor s core ch.mb ∧ u.pinned = pinnedAtFloor s core ch.mb := by
  simp only [exec, execBfpChangeComplete, hch, hidle, Bool.false_eq_true, if_false]
  cases ch.who <;> exact ⟨_, rfl, ⟨_, mget_mput_same default s.cores core _⟩, rfl, rfl⟩

end

/-- Settles O52: each event by its branch; a line's bytes by the keys that its copy writes, and the bytes of a bin floor by the keys that it gives up. -/
theorem migrationAndBinFloor : Obligations.MigrationAndBinFloor := by
  unfold Obligations.MigrationAndBinFloor
  refine ⟨fun s ctx va frame die piece olds hpage hfree hasked => ⟨exec_migrationStart hpage hfree hasked, exec_migrationStart_passes hpage hfree hasked⟩,
    fun s m hm => ⟨fun hline => ?line, fun hline hin => ⟨fun hshut => ?shut, exec_migrationLineCopy_waits hm hline hin, fun hshut hfly => ?switch⟩, fun hline hin => ?moved⟩,
    fun s core v hcore => ⟨exec_bfpScrWrite hcore, exec_bfpScrWrite_reserved⟩,
    fun s core ch rest hch => ⟨exec_bfpChangeComplete_waits hch, fun hidle => ?floor⟩⟩
  case line =>
    obtain ⟨u, hexec, hmigs, hmem⟩ := exec_migrationLineCopy_line hm hline
    have hlen : (homeBytes s (m.oldLine m.line) 64).length = 64 := by simp [homeBytes]
    refine ⟨u, hexec, hmigs, fun i hi => ?_, fun j hj => ?_⟩
    · rw [hmem, memByte_memFill_inside _ _ _ (by omega)]
      simp [homeBytes]
    · rw [hmem, memByte_memFill_outside _ _ _ (by omega)]
  case shut => exact ⟨exec_migrationLineCopy_shuts hm hline hin hshut, fun x => mem_shutPage_migs, fun e => mem_shutPage_tlb⟩
  case switch =>
    obtain ⟨u, hu, hmigs, hentry⟩ := switchPage_eq s m
    refine ⟨exec_migrationLineCopy_switches hm hline hin hshut hfly, fun x hx => ?_, fun k x ls hk hls => ?_⟩
    · rw [hu, pageSettled_migs, hmigs] at hx
      simpa using (List.mem_filter.1 hx).2
    · rw [hu, pageSettled_mem, hentry k x ls hk hls]
  case moved =>
    refine ⟨_, exec_migrationLineCopy_moved hm hline hin, pageSettled_mem .., fun x hx => ?_⟩
    rw [pageSettled_migs] at hx
    simpa using (List.mem_filter.1 hx).2
  case floor =>
    obtain ⟨u, hexec, ⟨wb, hcore⟩, hmem, hpinned⟩ := exec_bfpChangeComplete_done hch hidle
    have hrange : ∀ j, binAbove core ch.mb j = true ↔ binKey core (ch.mb * 2 ^ 20) ≤ j ∧ j < binKey core (2 ^ 24) := fun j => by simp [binAbove]
    refine ⟨u, hexec, by rw [hcore], by rw [hcore], fun j ⟨hmb, hj⟩ => ?_, fun j hj => ?_, fun l hl => mem_pinnedAtFloor (hpinned ▸ hl)⟩
    · rw [hmem]; exact memByte_memAtFloor_given hmb ((hrange j).2 hj)
    · rw [hmem]; exact memByte_memAtFloor_kept fun h => hj ⟨h.1, (hrange j).1 h.2⟩

end Sys2Proof.Machine
end

section
/-! PROOFS. What the device's own writes leave alone: they change memory, cached lines and the records of the hardware, and nothing else. -/

namespace Sys2Proof.Machine

/-- Two states that agree in all but memory, cached and dirty lines, and the records of the hardware. -/
def HomesAlone (s u : State) : Prop := ∃ m ls ds h, u = { s with mem := m, lines := ls, dirty := ds, hw := h }

theorem HomesAlone.refl (s : State) : HomesAlone s s := ⟨s.mem, s.lines, s.dirty, s.hw, rfl⟩

theorem HomesAlone.trans {s t u : State} (h : HomesAlone s t) (k : HomesAlone t u) : HomesAlone s u := by
  obtain ⟨m, ls, ds, w, rfl⟩ := h
  obtain ⟨m', ls', ds', w', rfl⟩ := k
  exact ⟨m', ls', ds', w', rfl⟩

theorem HomesAlone.foldl {β : Type} (f : State → β → State) (h : ∀ s x, HomesAlone s (f s x)) (xs : List β) (s : State) : HomesAlone s (xs.foldl f s) := by
  induction xs generalizing s with
  | nil => exact .refl s
  | cons x xs ih => exact (h s x).trans (ih _)

/-- What such a step leaves as it was, of what the proofs ask for. -/
theorem HomesAlone.keeps {s u : State} (h : HomesAlone s u) : u.crews = s.crews ∧ u.runs = s.runs ∧ u.ready = s.ready ∧ u.queues = s.queues ∧ u.outbox = s.outbox ∧
    u.bar = s.bar ∧ u.cycle = s.cycle ∧ u.contexts = s.contexts ∧ u.moves = s.moves := by
  obtain ⟨m, ls, ds, w, rfl⟩ := h
  exact ⟨rfl, rfl, rfl, rfl, rfl, rfl, rfl, rfl, rfl⟩

theorem homeWrite_homesAlone (s : State) (src : Option Nat) (ws : List (Nat × Byte)) : HomesAlone s (homeWrite s src ws) := ⟨_, _, _, _, rfl⟩

theorem devWrite_homesAlone {s t : State} {ctx va : Nat} {bs : List Byte} (h : devWrite s ctx va bs = some t) : HomesAlone s t := by
  unfold devWrite at h
  obtain ⟨ks, -, h⟩ := Option.bind_eq_some_iff.1 h
  split at h
  · cases h
  · cases h; exact homeWrite_homesAlone ..

theorem devPut_homesAlone (s : State) (ctx va len v : Nat) : HomesAlone s (devPut s ctx va len v) := by
  unfold devPut
  cases h : devWrite s ctx va ((byteList 0 v len).map (·.2)) with
  | none => exact .refl s
  | some t => exact devWrite_homesAlone h

theorem qWrite_homesAlone (s : State) (x : HostQueue) (off len v : Nat) : HomesAlone s (qWrite s x off len v) := devPut_homesAlone ..

/-! ### Queue blocks (R282) -/

/-- ERROR is written to the block of the queue and reported. -/
theorem setQError_eq (s : State) (x : HostQueue) (code : Nat) : ∃ u, HomesAlone s u ∧ setQError s x code = { u with outbox := s.outbox ++ [(2, [x.q, code])] } := by
  have h := (qWrite_homesAlone s x 13 1 (qRead s x 13 1 ||| 8)).trans (qWrite_homesAlone _ x 14 2 code)
  refine ⟨_, h, ?_⟩
  rw [← h.keeps.2.2.2.2.1]
  rfl

/-- DONE advances by writes to the block, and commands leave the queue's list. -/
theorem advanceDone_eq (s : State) (q : Nat) : ∃ u f, HomesAlone s u ∧ advanceDone s q = updQueue u q f ∧
    ∀ x, getQueue s q = some x → ∀ y, f y = { y with started := y.started.drop (x.started.takeWhile (·.2)).length } := by
  unfold advanceDone
  cases hx : getQueue s q with
  | none => exact ⟨s, id, .refl s, by simp [updQueue], nofun⟩
  | some x =>
    refine ⟨_, _, ?_, rfl, fun x' hx' y => by cases hx'; rfl⟩
    split
    · exact .refl s
    · exact qWrite_homesAlone ..

/-- Two states that agree in all but the host's queues and what writes of the device change. -/
def QueuesAlone (s u : State) : Prop := ∃ t qs, HomesAlone s t ∧ u = { t with queues := qs }

theorem HomesAlone.queuesAlone {s u : State} (h : HomesAlone s u) : QueuesAlone s u := ⟨u, u.queues, h, rfl⟩

theorem QueuesAlone.trans {s t u : State} (h : QueuesAlone s t) (k : QueuesAlone t u) : QueuesAlone s u := by
  obtain ⟨a, qs, ⟨m, ls, ds, w, rfl⟩, rfl⟩ := h
  obtain ⟨b, qs', ⟨m', ls', ds', w', rfl⟩, rfl⟩ := k
  exact ⟨_, qs', ⟨m', ls', ds', w', rfl⟩, rfl⟩

theorem QueuesAlone.keeps {s u : State} (h : QueuesAlone s u) : u.crews = s.crews ∧ u.runs = s.runs ∧ u.ready = s.ready ∧ u.outbox = s.outbox ∧ u.moves = s.moves := by
  obtain ⟨t, qs, ⟨m, ls, ds, w, rfl⟩, rfl⟩ := h
  exact ⟨rfl, rfl, rfl, rfl, rfl⟩

theorem updQueue_queuesAlone (s : State) (q : Nat) (f : HostQueue → HostQueue) : QueuesAlone s (updQueue s q f) := ⟨s, _, .refl s, rfl⟩

theorem advanceDone_queuesAlone (s : State) (q : Nat) : QueuesAlone s (advanceDone s q) := by
  obtain ⟨u, f, hu, heq, -⟩ := advanceDone_eq s q
  exact heq ▸ hu.queuesAlone.trans (updQueue_queuesAlone ..)

theorem takeCommand_queuesAlone (s : State) (x : HostQueue) (done : Bool) : QueuesAlone s (takeCommand s x done) :=
  (updQueue_queuesAlone ..).trans (advanceDone_queuesAlone ..)

/-- The end of a run changes the run, and what its queue is told. -/
theorem completeRun_queuesAlone {s : State} {id : Nat} {r : Run} (hr : getRun s id = some r) (st : RunState) :
    QueuesAlone (updRun s id fun r => { r with state := st }) (completeRun s id st) := by
  simp only [completeRun, hr]
  split
  · exact (HomesAlone.refl _).queuesAlone
  · exact (qWrite_homesAlone ..).queuesAlone.trans ((updQueue_queuesAlone ..).trans (advanceDone_queuesAlone ..))

end Sys2Proof.Machine
end

section
/-! PROOFS. Dispositions of a halted crew: what a restore keeps of it, and the end of a run that is aborted (R357, R358, R367). -/

namespace Sys2Proof.Machine

/-! ### Crews that are roused -/

/-- A thread without what a wake may change of it. -/
def Thread.asleep (t : Thread) : Thread := { t with hold := .none, wakeTrap := none, woken := none, region := 0 }

/-- A crew whose threads a wake may have changed. -/
def Roused (c c' : Crew) : Prop := ∃ g : Thread → Thread, c' = c.mapT g ∧ ∀ t, (g t).asleep = t.asleep

theorem Roused.refl (c : Crew) : Roused c c := ⟨id, by simp [Crew.mapT], fun _ => rfl⟩

theorem Roused.trans {a b c : Crew} (h : Roused a b) (k : Roused b c) : Roused a c := by
  obtain ⟨f, rfl, hf⟩ := h
  obtain ⟨g, rfl, hg⟩ := k
  exact ⟨g ∘ f, by simp [Crew.mapT], fun t => (hg (f t)).trans (hf t)⟩

/-- Two states whose crews differ at most by wakes. -/
def CrewsRoused (s u : State) : Prop := ∃ G : Crew → Crew, u.crews = s.crews.map G ∧ ∀ c, Roused c (G c)

theorem CrewsRoused.of_same {s u : State} (h : u.crews = s.crews) : CrewsRoused s u := ⟨id, by simp [h], .refl⟩

theorem CrewsRoused.trans {s t u : State} (h : CrewsRoused s t) (k : CrewsRoused t u) : CrewsRoused s u := by
  obtain ⟨F, hF, hF'⟩ := h
  obtain ⟨G, hG, hG'⟩ := k
  exact ⟨G ∘ F, by rw [hG, hF, List.map_map], fun c => (hF' c).trans (hG' (F c))⟩

theorem CrewsRoused.foldl {β : Type} (f : State → β → State) (h : ∀ s x, CrewsRoused s (f s x)) (xs : List β) (s : State) : CrewsRoused s (xs.foldl f s) := by
  induction xs generalizing s with
  | nil => exact .of_same rfl
  | cons x xs ih => exact (h s x).trans (ih _)

theorem logReply_crews (s : State) (c : Crew) (kind target key : Nat) (payload : List PutField) : (logReply s c kind target key payload).crews = s.crews := by
  unfold logReply
  split
  · split
    · rfl
    · refine foldl_keeps State.crews _ (fun s f => ?_) _ s
      split <;> rfl
  · rfl

theorem acquireOn_crews (s : State) (core scope : Nat) : (acquireOn s core scope).crews = s.crews := by
  unfold acquireOn
  split <;> rfl

/-- What the wake of lanes makes of a thread. -/
def wokenLane (tids : List Nat) (blk : Option (Nat × Nat)) (fault : Option TrapInfo) (t : Thread) : Thread :=
  if tids.contains t.tid then { t with hold := .none, wakeTrap := fault, woken := blk, region := t.region + 1 } else t

theorem wakeLanes_roused (s : State) (uid : Nat) (tids : List Nat) (key : Nat) (blk : Option (Nat × Nat)) (fault : Option TrapInfo) :
    CrewsRoused s (wakeLanes s uid tids key blk fault) := by
  unfold wakeLanes
  cases getCrew s uid with
  | none => exact .of_same rfl
  | some c =>
    refine ⟨fun d => if d.uid = uid then d.mapT (wokenLane tids blk fault) else d, ?_, fun d => ?_⟩
    · simp only [acquireOn_crews, updCrew, logReply_crews]
      rfl
    · dsimp only
      split
      · refine ⟨_, rfl, fun t => ?_⟩
        unfold wokenLane
        split <;> rfl
      · exact .refl d

theorem syncPoint_roused (s : State) (uid tid : Nat) : CrewsRoused s (syncPoint s uid tid) := by
  refine ⟨_, rfl, fun d => ?_⟩
  split
  · refine ⟨_, rfl, fun t => ?_⟩
    split <;> rfl
  · exact .refl d

theorem wakeOwners_roused (s : State) (id : Nat) : CrewsRoused s (wakeOwners s id) := by
  refine CrewsRoused.foldl _ (fun s o => ?_) _ s
  split
  · exact (syncPoint_roused ..).trans (.of_same (acquireOn_crews ..))
  · exact .of_same rfl

theorem wakeDemander_roused (s : State) (w : Waiter) (fault : Option TrapInfo) : CrewsRoused s (wakeDemander s w fault) := by
  unfold wakeDemander
  split
  · split
    · exact .of_same rfl
    · exact wakeLanes_roused ..
  · next id _ =>
    have howners := wakeOwners_roused s id
    dsimp only
    split
    · exact howners.trans (.of_same rfl)
    · exact howners.trans (.of_same rfl)
    · exact howners
  · exact .of_same rfl

/-- Results that waited reach threads, and change nothing else of any crew (R370). -/
theorem settleDue_roused (s : State) : CrewsRoused s (settleDue s) := by
  refine CrewsRoused.foldl _ (fun s w => ?_) _ s
  split
  · split
    · exact .of_same rfl
    · exact (CrewsRoused.of_same (u := { s with waiters := s.waiters.erase w }) rfl).trans (wakeDemander_roused ..)
  · exact .of_same rfl

theorem settleDue_of_none_due {s : State} (h : ∀ w ∈ s.waiters, w.due = false) : settleDue s = s := by
  have hnone : s.waiters.filter (·.due) = [] := List.filter_eq_nil_iff.2 fun w hw => by simp [h w hw]
  simp [settleDue, hnone]

/-! ### Crews that are restored (R367) -/

/-- What of a thread a restore keeps even where it reads registers back: its predicates, whether it is live, and its PC. -/
def Thread.control (t : Thread) : SMap Bool × Bool × Word64 := (t.p, t.live, t.pc)

/-- One crew is another carried on: with its s registers, and of each thread the control state, and, under a condition, the v registers. -/
structure Carried (regs : Prop) (c c' : Crew) : Prop where
  s : c'.s = c.s
  each : ∀ i t, c.thread i = some t → ∃ t', c'.thread i = some t' ∧ t'.control = t.control ∧ (regs → t'.v = t.v)

theorem Carried.trans {regs : Prop} {a b c : Crew} (h : Carried regs a b) (k : Carried regs b c) : Carried regs a c := by
  refine ⟨k.s.trans h.s, fun i t ht => ?_⟩
  obtain ⟨u, hu, hcontrol, hv⟩ := h.each i t ht
  obtain ⟨w, hw, hcontrol', hv'⟩ := k.each i u hu
  exact ⟨w, hw, hcontrol'.trans hcontrol, fun hr => (hv' hr).trans (hv hr)⟩

theorem Carried.of_threads {regs : Prop} {c c' : Crew} (hs : c'.s = c.s) (h : c'.threads = c.threads) : Carried regs c c' :=
  ⟨hs, fun i t ht => ⟨t, by rw [Crew.thread, h]; exact ht, rfl, fun _ => rfl⟩⟩

theorem Carried.mapT {regs : Prop} (c : Crew) {g : Thread → Thread} (h : ∀ t, (g t).tid = t.tid ∧ (g t).control = t.control ∧ (g t).v = t.v) :
    Carried regs c (c.mapT g) :=
  ⟨rfl, fun i t ht => ⟨g t, by rw [thread_mapT c g i fun t => (h t).1, ht]; rfl, (h t).2.1, fun _ => (h t).2.2⟩⟩

theorem Thread.kept_of_asleep {t u : Thread} (h : t.asleep = u.asleep) : t.tid = u.tid ∧ t.control = u.control ∧ t.v = u.v := by
  simp only [Thread.asleep, Thread.mk.injEq] at h
  simp [Thread.control, h]

theorem Roused.carried {regs : Prop} {c c' : Crew} (h : Roused c c') : Carried regs c c' := by
  obtain ⟨g, rfl, hg⟩ := h
  exact .mapT c fun t => Thread.kept_of_asleep (hg t)

/-- Registers read back leave of every thread all but its v registers. -/
theorem threadsBack_spec (c : Crew) (ts : List Thread) (bs : List Byte) : List.Forall₂ (fun t t' => t' = { t with v := t'.v }) ts (threadsBack c ts bs).1 := by
  induction ts generalizing bs with
  | nil => exact .nil
  | cons t ts ih => exact .cons rfl (ih _)

theorem find?_of_forall₂ {α : Type} {R : α → α → Prop} {p : α → Bool} (hp : ∀ x y, R x y → p y = p x) {xs ys : List α} (h : List.Forall₂ R xs ys) {x : α}
    (hx : xs.find? p = some x) : ∃ y, ys.find? p = some y ∧ R x y := by
  induction h with
  | nil => cases hx
  | cons hR _ ih =>
    rename_i a b as bs hrest
    rw [List.find?_cons] at hx ⊢
    rw [hp _ _ hR]
    split at hx
    · cases hx; exact ⟨b, rfl, hR⟩
    · exact ih hx

/-- The crew whose image is read back. -/
theorem getCrew_imageBack {s : State} {c : Crew} (hc : getCrew s c.uid = some c) :
    ∃ c', getCrew (imageBack s c) c.uid = some c' ∧ c'.uid = c.uid ∧ Carried (c.image = none) c c' := by
  unfold imageBack
  split
  · exact ⟨c, hc, rfl, .of_threads rfl rfl⟩
  · next base saved himage =>
    refine ⟨_, getCrew_updCrew_same (fun _ => rfl) hc, rfl, rfl, fun i t ht => ?_⟩
    obtain ⟨t', ht', hkept⟩ := find?_of_forall₂ (p := fun u : Thread => u.tid == i) (fun x y hxy => by rw [hxy]) (threadsBack_spec c c.threads _) ht
    exact ⟨t', ht', by rw [hkept]; rfl, fun hno => by simp [himage] at hno⟩

/-- A crew as it is placed on a core. -/
def placedCrew (s : State) (core slot : Nat) (c : Crew) : Crew :=
  { c with
    where_ := .resident, core := core % 256, slot := slot, since := s.cycle, sluiceSince := none, taking := none, sawBin := (coreOf s core).mb != 0
    timerDue := if c.timer.any (·.wall) && timerReached s c && c.timerDue.isNone then some true else c.timerDue }

/-- A restore places the crew, and then the results that have waited reach their threads. -/
theorem restoreOn_settles {s : State} {c' : Crew} {uid : Nat} (core : Nat) (hc : getCrew s uid = some c') : ∃ u slot, restoreOn s uid core = settleDue u ∧
    u.crews = (updCrew s uid (placedCrew s core slot)).crews ∧ u.mem = s.mem ∧ u.waiters = s.waiters := by
  unfold restoreOn
  simp only [hc]
  exact ⟨_, _, rfl, rfl, rfl, rfl⟩

/-- What becomes of a crew that is brought back: it is resident, and carried on. -/
theorem getCrew_bringBack {s : State} {c : Crew} (core : Nat) (hc : getCrew s c.uid = some c) :
    ∃ c', getCrew (bringBack s c.uid core) c.uid = some c' ∧ c'.where_ = .resident ∧ Carried (c.image = none) c c' := by
  obtain ⟨b, hb, hbuid, hback⟩ := getCrew_imageBack hc
  obtain ⟨u, slot, hsettle, hcrews, -, -⟩ := restoreOn_settles core hb
  obtain ⟨G, hG, hroused⟩ := settleDue_roused u
  have hu : getCrew u c.uid = some (placedCrew (imageBack s c) core slot b) := by
    rw [getCrew, hcrews]
    exact getCrew_updCrew_same (fun _ => rfl) hb
  have hkeys : ∀ d, (G d).uid = d.uid := fun d => by obtain ⟨g, hg, -⟩ := hroused d; rw [hg]; rfl
  have hplaced : Carried (c.image = none) b (placedCrew (imageBack s c) core slot b) := .of_threads rfl rfl
  refine ⟨G (placedCrew (imageBack s c) core slot b), ?_, ?_, (hback.trans hplaced).trans (hroused _).carried⟩
  · rw [bringBack, hc]
    show getCrew (restoreOn (imageBack s c) c.uid core) c.uid = _
    rw [hsettle, getCrew, hG, find?_map_of_key u.crews G Crew.uid c.uid hkeys]
    exact congrArg (Option.map G) hu
  · obtain ⟨g, hg, -⟩ := hroused (placedCrew (imageBack s c) core slot b)
    rw [hg]
    rfl

theorem bringBack_mem {s : State} {c : Crew} (core : Nat) (hc : getCrew s c.uid = some c) (himage : c.image = none) (hdue : ∀ w ∈ s.waiters, w.due = false) :
    (bringBack s c.uid core).mem = s.mem := by
  have hback : imageBack s c = s := by simp [imageBack, himage]
  obtain ⟨u, slot, hsettle, -, hmem, hwaiters⟩ := restoreOn_settles core hc
  rw [bringBack, hc]
  show (restoreOn (imageBack s c) c.uid core).mem = _
  rw [hback, hsettle, settleDue_of_none_due (by rw [hwaiters]; exact hdue), hmem]

/-! ### Resume (R357) -/

/-- The halt of a crew that has been disposed of with an action. -/
theorem disposed_of_phase {c : Crew} {h : Halt} {rec_ act : Nat} (hh : c.halt = some h) (hp : h.phase = .disposed rec_ act) : disposed c act = some h := by
  simp [disposed, haltOf, hh, hp, Option.filter]

theorem resumeWith_goes {s : State} {c : Crew} {h : Halt} {act core : Nat} (f : Halt → Crew → Crew) (hc : getCrew s c.uid = some c) (hd : disposed c act = some h)
    (hcore : restoreCore s c = some core) (hon : ctxOff s c.ctx = false) :
    resumeWith c.uid act f s = .next (updCrew (bringBack s c.uid core) c.uid fun c => f h { c with halt := none }) := by
  simp [resumeWith, hc, hd, hcore, hon]

theorem resumeWith_waits {s : State} {c : Crew} (act : Nat) (f : Halt → Crew → Crew) (hc : getCrew s c.uid = some c) (hcore : restoreCore s c = none) :
    resumeWith c.uid act f s = .next s := by
  cases hd : disposed c act <;> simp [resumeWith, hc, hd, hcore]

/-- A crew goes on from its saved PCs, with a deferred fault to be met again. -/
def deferAgain (h : Halt) (c : Crew) : Crew := if h.trap.deferred && !h.trap.exited then
  c.mapT fun t => if h.trap.tids.contains t.tid then { t with deferred := h.trap :: t.deferred } else t else c

theorem deferAgain_uid (h : Halt) (c : Crew) : (deferAgain h c).uid = c.uid := by
  unfold deferAgain
  split <;> rfl

theorem deferAgain_halt (h : Halt) (c : Crew) : (deferAgain h c).halt = c.halt ∧ (deferAgain h c).where_ = c.where_ := by
  unfold deferAgain
  split <;> exact ⟨rfl, rfl⟩

theorem deferAgain_carried (regs : Prop) (h : Halt) (c : Crew) : Carried regs c (deferAgain h c) := by
  unfold deferAgain
  split
  · refine .mapT c fun t => ?_
    split <;> exact ⟨rfl, rfl, rfl⟩
  · exact .of_threads rfl rfl

/-! ### Resume past (R357, R408) -/

/-- Where a thread stands that has been moved past its trap. -/
def pastPc (h : Halt) (t : Thread) : Word64 := if h.trap.exited = false ∧ h.trap.tids.contains t.tid = true then t.pc + 8 else t.pc

/-- What resuming past a trap keeps of a crew: all but its threads, bindings and the waits at tokens. -/
theorem pastTrap_spec (h : Halt) (c : Crew) : (pastTrap h c).uid = c.uid ∧ (pastTrap h c).halt = c.halt ∧ (pastTrap h c).where_ = c.where_ ∧ (pastTrap h c).s = c.s ∧
    ∀ i t, c.thread i = some t → ∃ t', (pastTrap h c).thread i = some t' ∧ t'.settled = { t with pc := pastPc h t }.settled := by
  unfold pastTrap
  split
  · next hex => exact ⟨rfl, rfl, rfl, rfl, fun i t ht => ⟨t, ht, by simp [pastPc, hex]⟩⟩
  · next hex =>
    dsimp only
    generalize hb : (if h.trap.gang.any (fun i => !h.trap.tids.contains i) then endBindings c h.trap.gang else c) = b
    have hbound : Settled c b := by
      rw [← hb]
      split
      · exact endBindings_settled ..
      · exact .refl c
    obtain ⟨hshell, f, hthreads, hf⟩ := moveTo_spec h.trap.tids (fun i => ((c.thread i).map (·.pc)).getD 0 + 8) b
    have hsame : (moveTo h.trap.tids (fun i => ((c.thread i).map (·.pc)).getD 0 + 8) b).shell = c.shell := hshell.trans hbound.shell
    have huid := congrArg Crew.uid hsame
    have hhalt := congrArg Crew.halt hsame
    have hwhere := congrArg Crew.where_ hsame
    have hs := congrArg Crew.s hsame
    refine ⟨huid, hhalt, hwhere, hs, fun i t ht => ?_⟩
    obtain ⟨u, hu, hsettled⟩ := hbound.thread i ht
    have hid : ∀ t, (f t).tid = t.tid := fun t => by simpa using settled_tid (hf t)
    refine ⟨f u, ?_, ?_⟩
    · show (moveTo _ _ b).threads.find? _ = _
      rw [hthreads, find?_map_of_key b.threads f Thread.tid i hid]
      exact congrArg (Option.map f) hu
    · have hti : t.tid = i := thread_tid ht
      have hui : u.tid = t.tid := settled_tid hsettled
      rw [hf u]
      simp only [Thread.settled, Thread.mk.injEq] at hsettled ⊢
      simp only [pastPc, hui, hti, ht]
      simp [hsettled, hex]

/-! ### The crew that goes on -/

/-- What O54 asks of a crew that was resumed, by resume or by resume past. -/
def Back (s : State) (c : Crew) (h : Halt) (u : State) (past : Bool) : Prop :=
  (c.image = none → (∀ w ∈ s.waiters, w.due = false) → u.mem = s.mem) ∧ ∃ c' : Crew, getCrew u c.uid = some c' ∧ c'.where_ = .resident ∧ c'.halt = none ∧ c'.s = c.s ∧
    ∀ t, c.thread t.tid = some t → ∃ t' : Thread, c'.thread t.tid = some t' ∧ (c.image = none → t'.v = t.v) ∧ t'.p = t.p ∧ t'.live = t.live ∧
      t'.pc = if past = true ∧ h.trap.exited = false ∧ h.trap.tids.contains t.tid = true then t.pc + 8 else t.pc

/-- A crew brought back, with an end of its halt that keeps what a disposition keeps, is as O54 asks. -/
theorem back_of_end {s : State} {c : Crew} {h : Halt} {past : Bool} (core : Nat) (hc : getCrew s c.uid = some c) {f : Crew → Crew}
    (huid : ∀ b, (f b).uid = b.uid) (hhalt : ∀ b, (f b).halt = b.halt) (hwhere : ∀ b, (f b).where_ = b.where_) (hs : ∀ b, (f b).s = b.s)
    (hf : ∀ b i t, Crew.thread b i = some t → ∃ t', (f b).thread i = some t' ∧ t'.v = t.v ∧ t'.p = t.p ∧ t'.live = t.live ∧
      t'.pc = if past = true ∧ h.trap.exited = false ∧ h.trap.tids.contains i = true then t.pc + 8 else t.pc) :
    Back s c h (updCrew (bringBack s c.uid core) c.uid fun b => f { b with halt := none }) past := by
  obtain ⟨b, hb, hres, hcarried⟩ := getCrew_bringBack core hc
  refine ⟨fun himage hdue => bringBack_mem core hc himage hdue, f { b with halt := none }, ?_, ?_, ?_, ?_, fun t ht => ?_⟩
  · exact getCrew_updCrew_same (f := fun b => f { b with halt := none }) (fun d => huid { d with halt := none }) hb
  · rw [hwhere]; exact hres
  · rw [hhalt]
  · rw [hs]; exact hcarried.s
  · obtain ⟨t1, ht1, hcontrol, hv⟩ := hcarried.each t.tid t ht
    obtain ⟨t2, ht2, hv2, hp2, hlive2, hpc2⟩ := hf { b with halt := none } t.tid t1 ht1
    simp only [Thread.control, Prod.mk.injEq] at hcontrol
    obtain ⟨hp, hlive, hpc⟩ := hcontrol
    exact ⟨t2, ht2, fun hno => hv2.trans (hv hno), hp2.trans hp, hlive2.trans hlive, by rw [hpc2, hpc]⟩

theorem exec_crewCtlResume {s : State} {c : Crew} {h : Halt} {core : Nat} (hc : getCrew s c.uid = some c) (hd : disposed c 0 = some h)
    (hcore : restoreCore s c = some core) (hon : ctxOff s c.ctx = false) : ∃ u, exec (.crewCtlResume c.uid) s = .next u ∧ Back s c h u false := by
  refine ⟨_, resumeWith_goes deferAgain hc hd hcore hon, ?_⟩
  refine back_of_end core hc (deferAgain_uid h) (fun b => (deferAgain_halt h b).1) (fun b => (deferAgain_halt h b).2) (fun b => (deferAgain_carried True h b).s) ?_
  intro b i t ht
  obtain ⟨t', ht', hcontrol, hv⟩ := (deferAgain_carried True h b).each i t ht
  simp only [Thread.control, Prod.mk.injEq] at hcontrol
  obtain ⟨hp, hlive, hpc⟩ := hcontrol
  exact ⟨t', ht', hv trivial, hp, hlive, by simp [hpc]⟩

theorem exec_crewCtlResumePast {s : State} {c : Crew} {h : Halt} {core : Nat} (hc : getCrew s c.uid = some c) (hd : disposed c 1 = some h)
    (hcore : restoreCore s c = some core) (hon : ctxOff s c.ctx = false) : ∃ u, exec (.crewCtlResumePast c.uid) s = .next u ∧ Back s c h u true := by
  refine ⟨_, resumeWith_goes pastTrap hc hd hcore hon, ?_⟩
  refine back_of_end core hc (fun b => (pastTrap_spec h b).1) (fun b => (pastTrap_spec h b).2.1) (fun b => (pastTrap_spec h b).2.2.1) (fun b => (pastTrap_spec h b).2.2.2.1) ?_
  intro b i t ht
  obtain ⟨-, -, -, -, hthread⟩ := pastTrap_spec h b
  obtain ⟨t', ht', hsettled⟩ := hthread i t ht
  have hv := congrArg Thread.v hsettled
  have hp := congrArg Thread.p hsettled
  have hlive := congrArg Thread.live hsettled
  have hpc := congrArg Thread.pc hsettled
  exact ⟨t', ht', hv, hp, hlive, hpc.trans (by simp [Thread.settled, pastPc, thread_tid ht])⟩

/-! ### The end of a run (R358) -/

/-- What of a state the end of a run is told by, besides the crews. -/
def State.runTables (s : State) : List Run × List Ready × List HostQueue × List (Nat × List Nat) := (s.runs, s.ready, s.queues, s.outbox)

theorem performStore_tables (s : State) (p : PendingStore) : (performStore s p).crews = s.crews ∧ (performStore s p).runTables = s.runTables := by
  unfold performStore
  split <;> exact ⟨rfl, rfl⟩

theorem NodesAlone.tables {s u : State} (h : NodesAlone s u) : u.crews = s.crews ∧ u.runTables = s.runTables := by
  obtain ⟨ns, ks, rfl⟩ := h
  exact ⟨rfl, rfl⟩

theorem removeCrew_tables (s : State) (uid : Nat) : (removeCrew s uid).crews = s.crews.filter (·.uid != uid) ∧ (removeCrew s uid).runTables = s.runTables := by
  have hstores : ∀ (ps : List PendingStore) (u : State), (ps.foldl performStore u).crews = u.crews ∧ (ps.foldl performStore u).runTables = u.runTables := fun ps u =>
    ⟨foldl_keeps State.crews _ (fun u p => (performStore_tables u p).1) ps u, foldl_keeps State.runTables _ (fun u p => (performStore_tables u p).2) ps u⟩
  obtain ⟨hcrews, htables⟩ := hstores (s.stores.filter fun p => p.crew == uid && !p.performed && p.wait == .free) s
  obtain ⟨hcrews', htables'⟩ := (freeNodes_alone ((s.stores.filter fun p => p.crew == uid && !p.performed && p.wait == .free).foldl performStore s) fun n => n.crew == uid).tables
  exact ⟨congrArg (List.filter _) (hcrews'.trans hcrews), htables'.trans htables⟩

theorem foldl_removeCrew_tables (uids : List Nat) (s : State) :
    (∀ k ∈ (uids.foldl removeCrew s).crews, k ∈ s.crews ∧ k.uid ∉ uids) ∧ (uids.foldl removeCrew s).runTables = s.runTables := by
  induction uids generalizing s with
  | nil => exact ⟨fun k hk => ⟨hk, by simp⟩, rfl⟩
  | cons uid uids ih =>
    obtain ⟨hcrews, htables⟩ := removeCrew_tables s uid
    obtain ⟨hrest, htables'⟩ := ih (removeCrew s uid)
    refine ⟨fun k hk => ?_, htables'.trans htables⟩
    obtain ⟨hmem, hnot⟩ := hrest k hk
    rw [hcrews, List.mem_filter] at hmem
    exact ⟨hmem.1, by simpa [hnot] using hmem.2⟩

theorem closeRecords_homesAlone (s : State) (run : Nat) : HomesAlone s (closeRecords s run) := by
  refine .foldl _ (fun u c => ?_) _ s
  split
  · split
    · split
      · exact devPut_homesAlone ..
      · exact .refl u
    · exact .refl u
  · exact .refl u

/-- A report of the queue's error leaves the runs and crews, and the reports already sent. -/
theorem setQError_keeps (s : State) (x : HostQueue) (code : Nat) : (setQError s x code).crews = s.crews ∧ (setQError s x code).runs = s.runs ∧
    (setQError s x code).ready = s.ready ∧ ∀ m ∈ s.outbox, m ∈ (setQError s x code).outbox := by
  obtain ⟨u, hu, heq⟩ := setQError_eq s x code
  obtain ⟨hcrews, hruns, hready, -⟩ := hu.keeps
  rw [heq]
  exact ⟨hcrews, hruns, hready, fun m hm => List.mem_append_left _ hm⟩

/-- A run is over: its state says so, no crew of it is left and none of its tasks waits, and the host has the record (R358). -/
theorem abortRun_ends {s : State} {r : Run} {record : Nat} (hr : getRun s r.id = some r) (hopen : r.state ≠ .complete) (hopen' : r.state ≠ .aborted) :
    let u := abortRun s r.id record
    (3, [r.id, record]) ∈ u.outbox ∧ (∀ k ∈ u.crews, k.run ≠ some r.id) ∧ (∀ x ∈ u.ready, x.run ≠ r.id) ∧ ∃ r', getRun u r.id = some r' ∧ r'.state = .aborted := by
  intro u
  obtain ⟨hcrews0, hruns0, -⟩ := (closeRecords_homesAlone s r.id).keeps
  obtain ⟨hleft, htables⟩ := foldl_removeCrew_tables ((s.crews.filter fun c => c.run == some r.id).map (·.uid)) (closeRecords s r.id)
  simp only [State.runTables, Prod.mk.injEq] at htables
  generalize hs1 : ((s.crews.filter fun c => c.run == some r.id).map (·.uid)).foldl removeCrew (closeRecords s r.id) = s1 at hleft htables
  generalize hs2 : { s1 with ready := s1.ready.filter (·.run != r.id), outbox := s1.outbox ++ [(3, [r.id, record])] } = s2
  have hgone : ∀ k ∈ s2.crews, k.run ≠ some r.id := fun k hk hrun => by
    rw [← hs2] at hk
    obtain ⟨hmem, hnot⟩ := hleft k hk
    rw [hcrews0] at hmem
    exact hnot (List.mem_map.2 ⟨k, List.mem_filter.2 ⟨hmem, by simp [hrun]⟩, rfl⟩)
  have hready : ∀ x ∈ s2.ready, x.run ≠ r.id := fun x hx => by
    rw [← hs2] at hx
    simpa using (List.mem_filter.1 hx).2
  have hsent : (3, [r.id, record]) ∈ s2.outbox := by simp [← hs2]
  have hr2 : getRun s2 r.id = some r := by rw [← hr, getRun, getRun, ← hs2, ← hruns0, ← htables.1]
  obtain ⟨hcrews3, hruns3, hready3, houtbox3, -⟩ := (completeRun_queuesAlone hr2 .aborted).keeps
  have hend : getRun (updRun s2 r.id fun r => { r with state := .aborted }) r.id = some { r with state := .aborted } := by
    rw [getRun, updRun, find?_map_of_key s2.runs _ Run.id r.id (by intro x; split <;> rfl)]
    show Option.map _ (getRun s2 r.id) = _
    simp [hr2]
  have hu : u = match r.queue.bind (getQueue (completeRun s2 r.id .aborted)) with
      | none => completeRun s2 r.id .aborted
      | some x => setQError (completeRun s2 r.id .aborted) x 19 := by
    rw [← hs2, ← hs1]
    simp only [u, abortRun, hr]
    rw [if_neg (by simp [hopen, hopen'])] <;> rfl
  have hkeeps : u.crews = s2.crews ∧ u.runs = (updRun s2 r.id fun r => { r with state := .aborted }).runs ∧ u.ready = s2.ready ∧ ∀ m ∈ s2.outbox, m ∈ u.outbox := by
    rw [hu]
    split
    · exact ⟨hcrews3, hruns3, hready3, fun m hm => by rw [houtbox3]; exact hm⟩
    · next x _ =>
      obtain ⟨hcrews4, hruns4, hready4, houtbox4⟩ := setQError_keeps (completeRun s2 r.id .aborted) x 19
      exact ⟨hcrews4.trans hcrews3, hruns4.trans hruns3, hready4.trans hready3, fun m hm => houtbox4 m (by rw [houtbox3]; exact hm)⟩
  obtain ⟨hcrews, hruns, hready', houtbox⟩ := hkeeps
  exact ⟨houtbox _ hsent, by rw [hcrews]; exact hgone, by rw [hready']; exact hready, _, by rw [getRun, hruns]; exact hend, rfl⟩

/-- Settles O54: each disposition finds the crew's halt disposed of with its action; a restore carries the crew on, and an abort takes out every crew of the run. -/
theorem dispositions : Obligations.Dispositions := by
  refine ⟨fun s c h rec_ hc hh => ⟨fun core hon hcore => ⟨fun hp => ?_, fun hp => ?_⟩, fun hno => ⟨?_, ?_⟩, fun hp => ?_, fun hp => ⟨?_, fun r hr => ?_⟩⟩, fun s r record hr hopen hopen' => ?_⟩
  · exact exec_crewCtlResume hc (disposed_of_phase hh hp) hcore hon
  · exact exec_crewCtlResumePast hc (disposed_of_phase hh hp) hcore hon
  · exact resumeWith_waits 0 deferAgain hc hno
  · exact resumeWith_waits 1 pastTrap hc hno
  · show execCrewCtlKill c.uid s = _
    simp only [execCrewCtlKill, hc, disposed_of_phase hh hp]
  · show execCrewCtlAbort c.uid s = _
    simp only [execCrewCtlAbort, hc, disposed_of_phase hh hp]
    split <;> rfl
  · simp only [abortOf, hr]
    rfl
  · exact abortRun_ends hr hopen hopen'

end Sys2Proof.Machine
end

section
/-! PROOFS. Host queues: the record of a queue in its slot, the checks of a launch, the commands, the doorbells and the walker's pass (R277 to R284). -/

namespace Sys2Proof.Machine

/-! ### A queue's slot -/

theorem getQueue_q {s : State} {q : Nat} {x : HostQueue} (h : getQueue s q = some x) : x.q = q := by
  simpa using List.find?_some h

/-- A queue after a change of its slot. -/
theorem getQueue_updQueue {s : State} {q : Nat} {x : HostQueue} (f : HostQueue → HostQueue) (hf : ∀ y, (f y).q = y.q) (hx : getQueue s q = some x) :
    getQueue (updQueue s q f) q = some (f x) := by
  have hkey : ∀ y : HostQueue, (if y.q = q then f y else y).q = y.q := fun y => by split <;> simp [hf]
  rw [getQueue, updQueue, find?_map_of_key s.queues _ HostQueue.q q hkey]
  show Option.map _ (getQueue s q) = _
  simp [hx, getQueue_q hx]

theorem HomesAlone.getQueue {s u : State} (h : HomesAlone s u) (q : Nat) : getQueue u q = getQueue s q := by
  rw [Machine.getQueue, Machine.getQueue, h.keeps.2.2.2.1]

theorem setQError_getQueue (s : State) (x : HostQueue) (code q : Nat) : getQueue (setQError s x code) q = getQueue s q := by
  obtain ⟨u, hu, heq⟩ := setQError_eq s x code
  rw [heq]
  exact hu.getQueue q

/-- A mapping state set in the slot. -/
theorem getQueue_qState {s : State} {x : HostQueue} (st : Nat) (hx : getQueue s x.q = some x) : getQueue (qState s x st) x.q = some { x with state := st } :=
  getQueue_updQueue (fun y => { y with state := st }) (fun _ => rfl) (by rw [(qWrite_homesAlone ..).getQueue, hx])

/-- The commands that are complete leave the front of a queue's list. -/
theorem getQueue_advanceDone {s : State} {q : Nat} {x : HostQueue} (hx : getQueue s q = some x) :
    getQueue (advanceDone s q) q = some { x with started := x.started.drop (x.started.takeWhile (·.2)).length } := by
  obtain ⟨u, hu, heq⟩ : ∃ u, HomesAlone s u ∧ advanceDone s q = updQueue u q fun y => { y with started := y.started.drop (x.started.takeWhile (·.2)).length } := by
    simp only [advanceDone, hx]
    split
    · exact ⟨s, .refl s, rfl⟩
    · exact ⟨_, qWrite_homesAlone .., rfl⟩
  rw [heq]
  exact getQueue_updQueue _ (by intro y; rfl) (by rw [hu.getQueue, hx])

theorem getQueue_takeCommand {s : State} {x : HostQueue} (done : Bool) (hx : getQueue s x.q = some x) :
    let cs := x.started ++ [(x.head, done)]
    getQueue (takeCommand s x done) x.q = some { x with head := (x.head + 1) % 2 ^ 32, idleSince := s.cycle, idle := false, started := cs.drop (cs.takeWhile (·.2)).length } :=
  getQueue_advanceDone (getQueue_updQueue _ (by intro y; rfl) hx)

/-- A command not complete stays at the end of the list. -/
theorem drop_takeWhile_pending (cs : List (Nat × Bool)) (n : Nat) :
    ∃ ds, (cs ++ [(n, false)]).drop ((cs ++ [(n, false)]).takeWhile (·.2)).length = ds ++ [(n, false)] := by
  have hshort : ((cs ++ [(n, false)]).takeWhile (·.2)).length ≤ cs.length := by
    rw [List.takeWhile_append]
    split
    · simp
    · exact (List.takeWhile_sublist _).length_le
  exact ⟨_, List.drop_append_of_le_length hshort⟩

/-- Commands that are all complete all leave the list. -/
theorem drop_takeWhile_done {cs : List (Nat × Bool)} (h : ∀ c ∈ cs, c.2 = true) : cs.drop (cs.takeWhile (·.2)).length = [] := by
  simp [List.takeWhile_eq_self_iff.2 h]

/-- What taking a command makes of the slot (R280, R281). -/
theorem takeCommand_slot {s : State} {x : HostQueue} (done : Bool) (hx : getQueue s x.q = some x) :
    ∃ y : HostQueue, getQueue (takeCommand s x done) x.q = some y ∧ y.head = (x.head + 1) % 2 ^ 32 ∧ y.tail = x.tail ∧ y.state = x.state ∧
      (done = true → (∀ c ∈ x.started, c.2 = true) → y.started = []) ∧ (done = false → ∃ cs, y.started = cs ++ [(x.head, false)]) := by
  refine ⟨_, getQueue_takeCommand done hx, rfl, rfl, rfl, fun hdone hall => ?_, fun hdone => ?_⟩
  · refine drop_takeWhile_done fun c hc => ?_
    rcases List.mem_append.1 hc with h | h
    · exact hall c h
    · rw [List.mem_singleton.1 h, hdone]
  · subst hdone
    exact drop_takeWhile_pending x.started x.head

/-! ### The checks of a launch (R278) -/

theorem ite_some_eq_none_iff {α : Type} (p : Prop) [Decidable p] (a : α) (r : Option α) : (if p then some a else r) = none ↔ ¬ p ∧ r = none := by
  by_cases h : p <;> simp [h]

theorem regsLegal_iff (n : Nat) : regsLegal n = true ↔ n % 8 = 0 ∧ 8 ≤ n ∧ n ≤ 192 := by
  simp [regsLegal, and_assoc]

/-- A record that passes is within every limit. -/
theorem launchError_none {s : State} {ctx : Nat} {l : Launch} (h : launchError s ctx l = none) :
    l.entry ≠ 0 ∧ 1 ≤ l.product ∧ l.product ≤ 1024 ∧ (l.gang = 32 ∨ l.gang = 64) ∧ l.regs % 8 = 0 ∧ 8 ≤ l.regs ∧ l.regs ≤ 192 ∧ l.budget l.regsCopy ≤ l.regs ∧ l.budget l.regsEpi ≤ l.regs ∧
      l.scratch % 64 = 0 ∧ l.scratch ≤ 229376 ∧ l.tiles ≤ 16 ∧ 1 ≤ l.spans ∧ l.spans ≤ 4 ∧ l.poolN ≤ 16383 ∧ l.stackSize % 256 = 0 ∧ (∀ r ∈ l.ranges, r.2.2 ≤ 5) ∧ shapesFit [l.shape] = true := by
  simp only [launchError, ite_some_eq_none_iff] at h
  obtain ⟨-, hentry, hgang, hscratch, htiles, hspans, hpool, hstack, hranges, hshape, -⟩ := h
  simp only [Bool.or_eq_true, not_or, Bool.not_eq_true, Bool.or_eq_false_iff, Bool.not_eq_false', Bool.and_eq_false_iff, decide_eq_false_iff_not,
    bne_eq_false_iff_eq, decide_eq_true_eq, beq_iff_eq, regsLegal_iff, Nat.not_lt] at hentry hgang hscratch htiles hspans hpool hstack hshape
  simp only [List.any_eq_true, not_exists, not_and, Bool.or_eq_true, decide_eq_true_eq, not_or, Nat.not_lt] at hranges
  grind

/-! ### Commands (R281) -/

theorem onCommand_runs {s : State} {q kind v : Nat} {x : HostQueue} (f : HostQueue → Nat → Out) (hn : nextCommand s q = some (x, some v)) (hgood : commandBad v = false)
    (hkind : bitsOf v 7 0 = kind) (hgo : bitAt v 8 = true → x.started = []) : onCommand s q kind f = f x v := by
  have hbarrier : (bitAt v 8 && !x.started.isEmpty) = false := by
    cases hb : bitAt v 8
    · rfl
    · simp [hgo hb]
  simp [onCommand, hn, hgood, hkind, hbarrier]

theorem onCommand_bad {s : State} {q kind v : Nat} {x : HostQueue} (f : HostQueue → Nat → Out) (hn : nextCommand s q = some (x, some v)) (hbad : commandBad v = true)
    (hkind : bitsOf v 7 0 = kind ∨ kind = 0 ∧ 4 ≤ bitsOf v 7 0) : onCommand s q kind f = .next (setQError s x 16) := by
  have h : (bitsOf v 7 0 = kind || (4 ≤ bitsOf v 7 0 && kind = 0)) = true := by
    simp only [Bool.or_eq_true, Bool.and_eq_true, decide_eq_true_eq]
    exact hkind.imp id fun h => ⟨h.2, h.1⟩
  simp [onCommand, hn, hbad, h]

/-- A command with BARRIER waits for every earlier one. -/
theorem onCommand_barrier {s : State} {q v : Nat} {x : HostQueue} (kind : Nat) (f : HostQueue → Nat → Out) (hn : nextCommand s q = some (x, some v)) (hgood : commandBad v = false)
    (hb : bitAt v 8 = true) (hopen : x.started ≠ []) : onCommand s q kind f = .next s := by
  simp [onCommand, hn, hgood, hb, hopen]

theorem devWrite_of_keys {s : State} {ctx va : Nat} {bs : List Byte} {ks : List Nat} (hks : devKeys s ctx va bs.length true = some ks) (hclean : ∀ k ∈ ks, poisonedAt s k = false) :
    devWrite s ctx va bs = some (homeWrite s none (ks.zip bs)) := by
  simpa [devWrite, hks] using hclean

theorem devWrite_none {s : State} {ctx va : Nat} {bs : List Byte} (hks : devKeys s ctx va bs.length true = none) : devWrite s ctx va bs = none := by
  simp [devWrite, hks]

theorem byteList_length (k v n : Nat) : (byteList k v n).length = n := by
  induction n generalizing k v with
  | zero => rfl
  | succ n ih => simp [byteList, ih]

theorem hostCmdWait_eq {s : State} {q v : Nat} {x : HostQueue} (hn : nextCommand s q = some (x, some v)) (hgood : commandBad v = false) (hkind : bitsOf v 7 0 = 2)
    (hgo : bitAt v 8 = true → x.started = []) : exec (.hostCmdWait q) s = if devHeld s x.ctx (bitsOf v 127 64) 8 then .next s else match devNum s x.ctx (bitsOf v 127 64) 8 with
      | none => .next (setQError s x 18)
      | some m => if bitsOf v 191 128 ≤ m then .next (takeCommand s x true) else .next s :=
  onCommand_runs _ hn hgood hkind hgo

theorem hostCmdSignal_eq {s : State} {q v : Nat} {x : HostQueue} (hn : nextCommand s q = some (x, some v)) (hgood : commandBad v = false) (hkind : bitsOf v 7 0 = 3)
    (hgo : bitAt v 8 = true → x.started = []) : exec (.hostCmdSignal q) s = if !x.started.isEmpty || devHeld s x.ctx (bitsOf v 127 64) 8 true then .next s
      else match devWrite s x.ctx (bitsOf v 127 64) ((byteList 0 (bitsOf v 191 128) 8).map (·.2)) with
        | none => .next (setQError s x 18)
        | some s1 => .next (takeCommand s1 x true) :=
  onCommand_runs _ hn hgood hkind hgo

/-- A launch whose record is held, cannot be read, or fails its checks. -/
theorem hostCmdLaunch_refused {s : State} {q v : Nat} {x : HostQueue} (hn : nextCommand s q = some (x, some v)) (hgood : commandBad v = false) (hkind : bitsOf v 7 0 = 1)
    (hgo : bitAt v 8 = true → x.started = []) :
    (devHeld s x.ctx (bitsOf v 127 64) 256 = true → exec (.hostCmdLaunch q) s = .next s) ∧
    (devHeld s x.ctx (bitsOf v 127 64) 256 = false → devNum s x.ctx (bitsOf v 127 64) 256 = none → exec (.hostCmdLaunch q) s = .next (setQError s x 18)) ∧
    ∀ w k, devHeld s x.ctx (bitsOf v 127 64) 256 = false → devNum s x.ctx (bitsOf v 127 64) 256 = some w → launchError s x.ctx (launchOf w) = some k →
      exec (.hostCmdLaunch q) s = .next (setQError s x k) := by
  have h : exec (.hostCmdLaunch q) s = _ := onCommand_runs _ hn hgood hkind hgo
  rw [h]
  refine ⟨fun hheld => by simp only [hheld, if_true], fun hheld hnone => by simp only [hheld, hnone, Bool.false_eq_true, if_false], fun w k hheld hw hk => ?_⟩
  simp only [hheld, hw, hk, Bool.false_eq_true, if_false]

/-- The run that a launch admits. -/
def launchedRun (s : State) (x : HostQueue) (q : Nat) (l : Launch) : Run :=
  { id := s.nextId, ctx := x.ctx, queue := some q, cmd := x.head, prio := qPrio s x, launch := l, state := .migrating, counter := 0 }

/-- A launch that passes admits its run and asks for its migrations (R279). -/
theorem hostCmdLaunch_admits {s : State} {q v w : Nat} {x : HostQueue} (hn : nextCommand s q = some (x, some v)) (hgood : commandBad v = false) (hkind : bitsOf v 7 0 = 1)
    (hgo : bitAt v 8 = true → x.started = []) (hheld : devHeld s x.ctx (bitsOf v 127 64) 256 = false) (hw : devNum s x.ctx (bitsOf v 127 64) 256 = some w)
    (hpass : launchError s x.ctx (launchOf w) = none) : ∃ u : State, exec (.hostCmdLaunch q) s = .next u ∧ u.runs = s.runs ++ [launchedRun s x q (launchOf w)] ∧
      u.crews = s.crews ∧ u.ready = s.ready ∧
      let pages := runPages s x.ctx (launchOf w) (spanDies s (launchOf w))
      u.moves = s.moves ++ (if pages = [] then [] else [{ id := s.nextId + 1, ctx := x.ctx, pages := pages, run := some s.nextId }]) := by
  have h : exec (.hostCmdLaunch q) s = _ := onCommand_runs _ hn hgood hkind hgo
  simp only [hheld, hw, hpass, Bool.false_eq_true, if_false] at h
  obtain ⟨hcrews, hruns, hready, -, hmoves⟩ := ((qWrite_homesAlone _ x 52 4 _).queuesAlone.trans (takeCommand_queuesAlone _ x false)).keeps
  refine ⟨_, h, hruns, hcrews, hready, ?_⟩
  intro pages
  rw [hmoves]
  show (if pages.isEmpty then s.moves else s.moves ++ _) = _
  by_cases hpages : pages = []
  · simp [hpages]
  · simp only [List.isEmpty_iff, hpages, if_false]
    rfl

/-! ### Doorbells (R283) -/

/-- The check of a new TAIL leaves the slots and the crews. -/
theorem tailCheck_keeps (s : State) (q : Nat) : (∀ p, getQueue (tailCheck s q) p = getQueue s p) ∧ (tailCheck s q).crews = s.crews := by
  unfold tailCheck
  split
  · exact ⟨fun _ => rfl, rfl⟩
  · split
    · exact ⟨setQError_getQueue _ _ _, (setQError_keeps ..).1⟩
    · exact ⟨fun _ => rfl, rfl⟩

theorem setTail_slot {s : State} {x : HostQueue} {y : HostQueue} (v : Nat) (hy : getQueue s x.q = some y) :
    getQueue (setTail s x v) x.q = some { y with tail := v, idle := false, idleSince := s.cycle } ∧ (setTail s x v).crews = s.crews := by
  obtain ⟨hqueues, hcrews⟩ := tailCheck_keeps (updQueue (qWrite s x 20 4 v) x.q fun y => { y with tail := v, idle := false, idleSince := s.cycle }) x.q
  have hblock := qWrite_homesAlone s x 20 4 v
  exact ⟨(hqueues x.q).trans (getQueue_updQueue _ (by intro y; rfl) (by rw [hblock.getQueue, hy])), hcrews.trans hblock.keeps.1⟩

theorem notify_unmapped {s : State} {x : HostQueue} (v : Word) (hx : getQueue s x.q = some x) (hst : x.state ≠ 2) :
    exec (.notify x.q v) s = .next (qWrite s x 24 8 (v.toNat + 2 ^ 32)) := by
  show execNotify x.q v s = _
  simp only [execNotify, hx, hst, if_false]

theorem notify_mapped {s : State} {x : HostQueue} (v : Word) (hx : getQueue s x.q = some x) (hst : x.state = 2) : ∃ (u : State) (y : HostQueue),
    exec (.notify x.q v) s = .next u ∧ getQueue u x.q = some y ∧ y = { x with tail := v.toNat, idle := false, idleSince := s.cycle } ∧ u.crews = s.crews := by
  obtain ⟨hslot, hcrews⟩ := setTail_slot v.toNat hx
  refine ⟨_, _, ?_, hslot, rfl, hcrews⟩
  show execNotify x.q v s = _
  simp only [execNotify, hx, hst, if_true]

/-- The switch to MAPPED takes HEAD and TAIL from the block, and TAIL from DOORBELL where its PEND is 1. -/
theorem doorbellSwitch_maps {s : State} {x : HostQueue} (hx : getQueue s x.q = some x) (hst : x.state = 1) (hgo : blockHeld s x = false) : ∃ (u : State) (y : HostQueue),
    exec (.doorbellSwitch x.q) s = .next u ∧ getQueue u x.q = some y ∧ y.state = 2 ∧ y.head = qRead s x 16 4 ∧
      let d := qRead s x 24 8
      y.tail = if bitAt d 32 then bitsOf d 31 0 else qRead s x 20 4 := by
  have hblock := qWrite_homesAlone (qState s x 2) x 24 8 0
  have hslot : getQueue (qWrite (qState s x 2) x 24 8 0) x.q = some { x with state := 2 } := by rw [hblock.getQueue, getQueue_qState 2 hx]
  have hmapped := getQueue_updQueue (fun y => { y with head := qRead s x 16 4, tail := qRead s x 20 4, idle := false, idleSince := s.cycle }) (fun _ => rfl) hslot
  have hgo' : (x.state != 1 || blockHeld s x) = false := by simp [hst, hgo]
  rw [show exec (.doorbellSwitch x.q) s = execDoorbellSwitch x.q s from rfl]
  simp only [execDoorbellSwitch, hx, hgo', Bool.false_eq_true, if_false, hmapped]
  by_cases hpend : bitAt (qRead s x 24 8) 32 = true
  · simp only [hpend, if_true]
    exact ⟨_, _, rfl, (setTail_slot (x := { x with state := 2, head := qRead s x 16 4, tail := qRead s x 20 4, idle := false, idleSince := s.cycle }) _ hmapped).1, rfl, rfl, rfl⟩
  · simp only [hpend, Bool.false_eq_true, if_false]
    exact ⟨_, _, rfl, hmapped, rfl, rfl, rfl⟩

theorem doorbell_held {s : State} {x : HostQueue} (hx : getQueue s x.q = some x) (hheld : blockHeld s x = true) :
    exec (.doorbellSwitch x.q) s = .next s ∧ exec (.unmapWriteback x.q) s = .next s := by
  constructor
  · show execDoorbellSwitch x.q s = _
    simp [execDoorbellSwitch, hx, hheld]
  · show execUnmapWriteback x.q s = _
    simp [execUnmapWriteback, hx, hheld]

theorem unmapWriteback_unmaps {s : State} {x : HostQueue} (hx : getQueue s x.q = some x) (hst : x.state = 3) (hgo : blockHeld s x = false) : ∃ (u : State) (y : HostQueue),
    exec (.unmapWriteback x.q) s = .next u ∧ u = qState (qWrite (qWrite s x 16 4 x.head) x 20 4 x.tail) x 0 ∧ getQueue u x.q = some y ∧ y.state = 0 := by
  have hblock := (qWrite_homesAlone s x 16 4 x.head).trans (qWrite_homesAlone _ x 20 4 x.tail)
  refine ⟨_, _, ?_, rfl, getQueue_qState 0 (by rw [hblock.getQueue, hx]), rfl⟩
  show execUnmapWriteback x.q s = _
  simp only [execUnmapWriteback, hx, hst, hgo, decide_true, Bool.not_false, Bool.and_self, if_true]

theorem queueIdleTimeout_idle {s : State} {x : HostQueue} (hx : getQueue s x.q = some x) :
    (x.state = 2 → x.head = x.tail → x.idleSince + 65536 ≤ s.cycle → exec (.queueIdleTimeout x.q) s = .next (updQueue s x.q fun y => { y with idle := true })) ∧
    (x.state = 2 → s.cycle < x.idleSince + 65536 → exec (.queueIdleTimeout x.q) s = .next s) := by
  have h : exec (.queueIdleTimeout x.q) s = execQueueIdleTimeout x.q s := rfl
  rw [h]
  refine ⟨fun hst hempty hlong => ?_, fun _ hshort => ?_⟩
  · simp [execQueueIdleTimeout, hx, hst, hempty, hlong]
  · simp [execQueueIdleTimeout, hx, Nat.not_le.2 hshort]

/-! ### The walker (R284) -/

/-- What the walker keeps. -/
def State.unwalked (s : State) : Bar0 × List Crew × List Run := (s.bar, s.crews, s.runs)

theorem HomesAlone.unwalked {s u : State} (h : HomesAlone s u) : u.unwalked = s.unwalked := by
  obtain ⟨m, ls, ds, w, rfl⟩ := h
  rfl

theorem setQError_unwalked (s : State) (x : HostQueue) (code : Nat) : (setQError s x code).unwalked = s.unwalked := by
  obtain ⟨u, hu, heq⟩ := setQError_eq s x code
  rw [heq]
  exact hu.unwalked

theorem qState_unwalked (s : State) (x : HostQueue) (st : Nat) : (qState s x st).unwalked = s.unwalked := (qWrite_homesAlone ..).unwalked

theorem readDescriptor_unwalked (s : State) (ctx : Nat) : (readDescriptor s ctx).unwalked = s.unwalked := by
  unfold readDescriptor
  split
  · rfl
  · split
    · rfl
    · dsimp only
      split <;> rfl

theorem loadContext_unwalked (s : State) (ctx desc : Nat) : (loadContext s ctx desc).unwalked = s.unwalked := by
  unfold loadContext
  split
  · rfl
  · exact readDescriptor_unwalked ..

theorem visitBlock_unwalked (s : State) (x : HostQueue) : (visitBlock s x).unwalked = s.unwalked := by
  unfold visitBlock
  split
  · rfl
  · split
    · split
      · exact qState_unwalked ..
      · rfl
    · split
      · split
        · exact setQError_unwalked s x _
        · split
          · have hload := loadContext_unwalked s x.ctx (qRead s x 40 8)
            dsimp only
            split
            · exact (setQError_unwalked ..).trans hload
            · exact (qState_unwalked ..).trans hload
          · split
            · exact qState_unwalked ..
            · rfl
      · rfl

theorem walkList_unwalked (s : State) (n va : Nat) : (walkList s n va).unwalked = s.unwalked := by
  induction n generalizing s va with
  | zero => rfl
  | succ n ih =>
    unfold walkList
    split
    · rfl
    · split
      · rfl
      · exact (ih ..).trans (visitBlock_unwalked ..)

/-- A pass counts itself, and keeps the crews and the runs. -/
theorem walkerPass_counts {s : State} (hst : 3 ≤ s.bar.bootStage) :
    ∃ u : State, exec .walkerPass s = .next u ∧ u.bar = { s.bar with rlPass := s.bar.rlPass + 1 } ∧ u.crews = s.crews ∧ u.runs = s.runs := by
  have hexec : exec .walkerPass s = execWalkerPass s := rfl
  rw [hexec, execWalkerPass, if_neg (Nat.not_lt.2 hst)]
  generalize hs1 : [7, 6, 5, 4, 3, 2, 1, 0].foldl (fun s p => walkList s 32768 (mget 0 s.bar.rlHead p).toNat) s = s1
  have hkept : s1.unwalked = s.unwalked := by
    rw [← hs1]
    exact foldl_keeps State.unwalked _ (fun s p => walkList_unwalked s 32768 _) _ s
  simp only [State.unwalked, Prod.mk.injEq] at hkept
  obtain ⟨hbar, hcrews, hruns⟩ := hkept
  exact ⟨_, rfl, by rw [← hbar], hcrews, hruns⟩

/-- A block of an enabled queue with work, whose queue is UNMAPPED. -/
theorem visitBlock_work {s : State} {x : HostQueue} (hgo : blockHeld s x = false) (hgo' : devHeld s x.ctx (qRead s x 40 8) 256 = false) (hon : qEnabled s x = true)
    (hst : x.state = 0) (hok : qError s x = false) (hwork : qRead s x 20 4 ≠ qRead s x 16 4 ∨ bitAt (qRead s x 24 8) 32 = true) :
    visitBlock s x = if blockBad s x then { setQError s x (Config.freeWord s.freeIdx % 65536) with freeIdx := s.freeIdx + 1 }
      else if slotsUsed s < 256 then
        if (getCtx (loadContext s x.ctx (qRead s x 40 8)) x.ctx).any (·.malformed) then setQError (loadContext s x.ctx (qRead s x 40 8)) x 20
        else qState (loadContext s x.ctx (qRead s x 40 8)) x 1
      else match idleVictim s with
        | some y => qState s y 3
        | none => s := by
  have hmaps : (x.state = 0 && !qError s x && (qRead s x 20 4 != qRead s x 16 4 || bitAt (qRead s x 24 8) 32)) = true := by simp [hst, hok, hwork]
  rw [visitBlock, hgo, hgo', hon, if_neg (by simp), if_neg (by simp), if_pos hmaps] <;> rfl

theorem loadContext_loaded {s : State} {ctx : Nat} {c : Context} (desc : Nat) (hc : getCtx s ctx = some c) (hl : c.loaded = true) : loadContext s ctx desc = s := by
  simp [loadContext, hc, hl]

/-- Settles O56: a command runs by the one equation of its kind, the slot is read after each change of it, and what the device writes leaves the rest. -/
theorem hostQueues : Obligations.HostQueues := by
  refine ⟨fun s x q => ⟨fun hn => ?_, fun v hn hbad => ⟨fun hop => ?_, fun hop => ?_, fun hop => ?_, fun hop => ?_⟩, fun v hn hgood hgo => ⟨fun hop => ?_, fun hop hheld => ?_,
      fun hop hheld => ?_, fun hop hheld => ?_, fun hop hheld => ⟨fun hnone => ?_, fun m hm => ?_⟩, fun hop hheld => ⟨fun hopen => ?_, fun hempty ks hks hclean => ?_, fun hempty hks => ?_⟩,
      fun hop hheld => ⟨fun hnone => ?_, fun w hw => ⟨fun k hk => ?_, fun hpass => ?_⟩⟩⟩, fun v hn hgood hb hopen => ⟨?_, ?_, ?_, ?_⟩⟩,
    ⟨fun s x done hx => takeCommand_slot done hx, fun s x code => ?_, fun s ctx l hpass => launchError_none hpass⟩,
    fun s x v hx => ⟨notify_unmapped v hx, notify_mapped v hx, doorbellSwitch_maps hx, doorbell_held hx, unmapWriteback_unmaps hx, queueIdleTimeout_idle hx⟩,
    fun s hst => ?_, fun s hst => walkerPass_counts hst, fun s x => ⟨fun hheld => ?_, fun hgo hgo' => ⟨fun hoff => ?_, fun hon hst hok hwork => ⟨fun hbad => ?_, fun hgood hroom => ⟨?_, ?_⟩,
      fun hgood hfull => ?_⟩⟩⟩⟩
  · show execHostCmdNop q s = _
    simp [execHostCmdNop, onCommand, hn]
  · exact onCommand_bad _ hn hbad (hop.imp id fun h => ⟨rfl, h⟩)
  · exact onCommand_bad _ hn hbad (.inl hop)
  · exact onCommand_bad _ hn hbad (.inl hop)
  · exact onCommand_bad _ hn hbad (.inl hop)
  · exact onCommand_runs _ hn hgood hop hgo
  · rw [hostCmdWait_eq hn hgood hop hgo, if_pos hheld]
  · rw [hostCmdSignal_eq hn hgood hop hgo, if_pos (by simp [hheld])]
  · exact (hostCmdLaunch_refused hn hgood hop hgo).1 hheld
  · simp only [hostCmdWait_eq hn hgood hop hgo, hheld, hnone, Bool.false_eq_true, if_false]
  · simp only [hostCmdWait_eq hn hgood hop hgo, hheld, hm, Bool.false_eq_true, if_false]
    split <;> rfl
  · rw [hostCmdSignal_eq hn hgood hop hgo, if_pos (by simp [hopen])]
  · rw [hostCmdSignal_eq hn hgood hop hgo, if_neg (by simp [hheld, hempty]), devWrite_of_keys (by simpa [byteList_length] using hks) hclean]
  · rw [hostCmdSignal_eq hn hgood hop hgo, if_neg (by simp [hheld, hempty]), devWrite_none (by simpa [byteList_length] using hks)]
  · exact (hostCmdLaunch_refused hn hgood hop hgo).2.1 hheld hnone
  · exact (hostCmdLaunch_refused hn hgood hop hgo).2.2 w k hheld hw hk
  · exact hostCmdLaunch_admits hn hgood hop hgo hheld hw hpass
  · exact onCommand_barrier _ _ hn hgood hb hopen
  · exact onCommand_barrier _ _ hn hgood hb hopen
  · exact onCommand_barrier _ _ hn hgood hb hopen
  · exact onCommand_barrier _ _ hn hgood hb hopen
  · obtain ⟨u, hu, heq⟩ := setQError_eq s x code
    exact ⟨by rw [heq], by rw [heq]; exact hu.keeps.1⟩
  · show execWalkerPass s = _
    simp only [execWalkerPass, hst, if_true]
  · rw [visitBlock, if_pos (by simpa using hheld)]
  · rw [visitBlock, hgo, hgo', hoff, if_neg (by simp), if_pos (by simp)]
  · rw [visitBlock_work hgo hgo' hon hst hok hwork, if_pos hbad]
  · rw [visitBlock_work hgo hgo' hon hst hok hwork, hgood, if_neg (by simp), if_pos hroom]
  · exact fun c hc hl => loadContext_loaded _ hc hl
  · rw [visitBlock_work hgo hgo' hon hst hok hwork, hgood, if_neg (by simp), if_neg (Nat.not_lt.2 hfull)] <;> rfl

end Sys2Proof.Machine
end

section
/-! PROOFS. Prefetch: a hint leaves memory, the crews and the requests alone, and a line that it brings holds its home's bytes (R177). -/

namespace Sys2Proof.Machine

/-! ### What a prefetch leaves alone -/

/-- Memory, the crews, the loads and the stores. -/
def State.work (s : State) : List Host.Cell × List Crew × List PendingLoad × List PendingStore := (s.mem, s.crews, s.loads, s.stores)

theorem fillSector_work (s : State) (kind : CacheKind) (ctx sec : Nat) : (fillSector s kind ctx sec).work = s.work := rfl

/-- One sector of a line that is fetched. -/
def fetchSector (c : Crew) (l1 : Bool) (p : Piece) (s : State) (i : Nat) : State :=
  let sec := place s (p.key / 64 * 64 + 16 * i) / 16
  let s1 := if p.home.any (· != c.die) then fillSector s (.rdc c.die) c.ctx sec else s
  if l1 then fillSector s1 (.l1 c.coreId) c.ctx sec else s1

theorem fetchLine_eq (s : State) (c : Crew) (l1 : Bool) (p : Piece) : fetchLine s c l1 p = (List.range 4).foldl (fetchSector c l1 p) s := rfl

theorem fetchSector_work (c : Crew) (l1 : Bool) (p : Piece) (s : State) (i : Nat) : (fetchSector c l1 p s i).work = s.work := by
  unfold fetchSector
  dsimp only
  split <;> split <;> rfl

theorem fetchLine_work (s : State) (c : Crew) (l1 : Bool) (p : Piece) : (fetchLine s c l1 p).work = s.work :=
  foldl_keeps State.work _ (fetchSector_work c l1 p) _ s

theorem pinLine_work (ctx : Nat) (s : State) (line : Nat) : (pinLine ctx s line).work = s.work := by
  unfold pinLine
  split
  · rfl
  · split <;> rfl

theorem pinLines_work (s : State) (ctx : Nat) (ps : List Piece) : (pinLines s ctx ps).work = s.work := foldl_keeps State.work _ (pinLine_work ctx) _ s

theorem prefAct_work {sub : Nat} (hsub : sub ≠ 2) (c : Crew) (pin : Bool) (va : Nat) (x : TlbEntry) (pte : Nat) (s : State) : (prefAct c sub pin va x pte s).work = s.work := by
  unfold prefAct
  dsimp only
  split
  · rfl
  · split
    · rfl
    · split
      · exact (pinLines_work ..).trans (fetchLine_work ..)
      · exact fetchLine_work ..

theorem startWalk_work (s : State) (ctx die core va : Nat) (quiet : Bool) : (startWalk s ctx die core va quiet).1.work = s.work := by
  unfold startWalk
  split <;> rfl

theorem prefLane_work {sub : Nat} (hsub : sub ≠ 2) (c : Crew) (pin : Bool) (s : State) (va : Nat) : (prefLane c sub pin s va).work = s.work := by
  unfold prefLane
  split
  · rfl
  · split
    · exact prefAct_work hsub ..
    · have hwalk := startWalk_work s c.ctx c.die c.coreId va true
      dsimp only
      split
      · exact hwalk
      · exact hwalk

/-! ### The line that it brings -/

/-- A cache's copy of a sector as it lies at its place. -/
def trueCopy (s : State) (kind : CacheKind) (ctx sec : Nat) : CacheLine := { kind := kind, ctx := ctx, sector := sec, bytes := sectorBytes s sec }

theorem trueCopy_mem_fillSector (s : State) (kind : CacheKind) (ctx sec : Nat) : trueCopy s kind ctx sec ∈ (fillSector s kind ctx sec).lines :=
  List.mem_append_right _ (List.mem_singleton.2 rfl)

/-- A true copy in a core's L1 stays through fills: one that takes its place is the same. -/
theorem trueCopy_stays {s : State} {core ctx sec : Nat} (h : trueCopy s (.l1 core) ctx sec ∈ s.lines) (kind : CacheKind) (ctx' sec' : Nat) :
    trueCopy s (.l1 core) ctx sec ∈ (fillSector s kind ctx' sec').lines := by
  by_cases hcopy : (trueCopy s (.l1 core) ctx sec).isCopy kind ctx' sec' = true
  · simp only [CacheLine.isCopy, trueCopy, Bool.and_eq_true, beq_iff_eq] at hcopy
    obtain ⟨⟨hkind, hsec⟩, hctx⟩ := hcopy
    subst hkind hsec
    have hctx' : ctx = ctx' := by simpa using hctx
    subst hctx'
    exact trueCopy_mem_fillSector s (.l1 core) ctx sec
  · exact List.mem_append_left _ (List.mem_filter.2 ⟨h, by simpa using hcopy⟩)

/-- The sector of a piece's line, by its number. -/
def lineSector (s : State) (key i : Nat) : Nat := place s (key / 64 * 64 + 16 * i) / 16

/-- Two states with the same memory and the same pages in motion. -/
def SamePlaces (s u : State) : Prop := u.mem = s.mem ∧ u.migs = s.migs

theorem fetchSector_same (c : Crew) (l1 : Bool) (p : Piece) (s : State) (i : Nat) : SamePlaces s (fetchSector c l1 p s i) := by
  unfold fetchSector
  dsimp only
  split <;> split <;> exact ⟨rfl, rfl⟩

theorem SamePlaces.trueCopy {s u : State} (h : SamePlaces s u) (kind : CacheKind) (ctx sec : Nat) : trueCopy u kind ctx sec = trueCopy s kind ctx sec := by
  simp only [Machine.trueCopy, sectorBytes, h.1]

theorem SamePlaces.lineSector {s u : State} (h : SamePlaces s u) (key i : Nat) : lineSector u key i = lineSector s key i := by
  rw [Machine.lineSector, Machine.lineSector, place_congr h.2]

/-- The fill of the remote-data cache that goes before that of the L1. -/
def fetchRemote (c : Crew) (p : Piece) (s : State) (i : Nat) : State :=
  if p.home.any (· != c.die) then fillSector s (.rdc c.die) c.ctx (lineSector s p.key i) else s

theorem fetchSector_l1 (c : Crew) (p : Piece) (s : State) (i : Nat) :
    fetchSector c true p s i = fillSector (fetchRemote c p s i) (.l1 c.coreId) c.ctx (lineSector s p.key i) := rfl

theorem fetchRemote_same (c : Crew) (p : Piece) (s : State) (i : Nat) : SamePlaces s (fetchRemote c p s i) := by
  unfold fetchRemote
  split <;> exact ⟨rfl, rfl⟩

theorem fetchSector_brings (c : Crew) (p : Piece) (s : State) (i : Nat) :
    trueCopy s (.l1 c.coreId) c.ctx (lineSector s p.key i) ∈ (fetchSector c true p s i).lines := by
  rw [fetchSector_l1, ← (fetchRemote_same c p s i).trueCopy]
  exact trueCopy_mem_fillSector ..

theorem fetchSector_stays {c : Crew} {s : State} {core ctx sec : Nat} (p : Piece) (i : Nat) (h : trueCopy s (.l1 core) ctx sec ∈ s.lines) :
    trueCopy s (.l1 core) ctx sec ∈ (fetchSector c true p s i).lines := by
  have hremote : trueCopy s (.l1 core) ctx sec ∈ (fetchRemote c p s i).lines := by
    unfold fetchRemote
    split
    · exact trueCopy_stays h ..
    · exact h
  rw [← (fetchRemote_same c p s i).trueCopy] at hremote ⊢
  exact trueCopy_stays hremote ..

/-- After the sectors of some numbers, the L1 holds each of them. -/
theorem foldl_fetchSector (c : Crew) (p : Piece) (is : List Nat) (s : State) : SamePlaces s (is.foldl (fetchSector c true p) s) ∧
    (∀ core ctx sec, trueCopy s (.l1 core) ctx sec ∈ s.lines → trueCopy s (.l1 core) ctx sec ∈ (is.foldl (fetchSector c true p) s).lines) ∧
    ∀ j ∈ is, trueCopy s (.l1 c.coreId) c.ctx (lineSector s p.key j) ∈ (is.foldl (fetchSector c true p) s).lines := by
  induction is generalizing s with
  | nil => exact ⟨⟨rfl, rfl⟩, fun _ _ _ h => h, nofun⟩
  | cons i is ih =>
    have hsame := fetchSector_same c true p s i
    obtain ⟨hrest, hstays, hbrings⟩ := ih (fetchSector c true p s i)
    simp only [hsame.trueCopy, hsame.lineSector] at hstays hbrings
    refine ⟨⟨hrest.1.trans hsame.1, hrest.2.trans hsame.2⟩, fun core ctx sec h => hstays _ _ _ (fetchSector_stays p i h), fun j hj => ?_⟩
    rcases List.mem_cons.1 hj with rfl | hj
    · exact hstays _ _ _ (fetchSector_brings c p s j)
    · exact hbrings j hj

theorem fetchLine_brings (s : State) (c : Crew) (p : Piece) {j : Nat} (hj : j < 4) :
    trueCopy s (.l1 c.coreId) c.ctx (lineSector s p.key j) ∈ (fetchLine s c true p).lines :=
  (foldl_fetchSector c p (List.range 4) s).2.2 j (List.mem_range.2 hj)

/-- The translated byte that a prefetch brings the line of. -/
def prefPiece (va : Nat) (x : TlbEntry) : Piece :=
  { va := va, key := x.key va, len := 1, glob := true, home := if x.leaf.rn then none else some (homeDie (x.key va) (x.leaf.tier == 1)) }

theorem prefLane_fetches {s : State} {c : Crew} {va : Nat} {x : TlbEntry} (hap : inAperture s c.ctx va = false) (hva : va < 2 ^ 56)
    (hx : heldLeaf s c.ctx c.die c.coreId va = some x) (hread : x.leaf.read = true) (hegress : leafEgressOk s x.leaf (va - x.va) = true) (hbusy : x.leaf.busy = false)
    (hplain : x.leaf.compressed = false) (hwait : readWaits s [(x.key va / 64 * 64, 64)] = false) (hslice : sliceWait s [(x.key va, 1)] = none) :
    prefLane c 0 false s va = fetchLine s c true (prefPiece va x) := by
  rw [prefLane, if_neg (by simpa [hap] using hva), hx]
  simp only [prefAct, hread, hegress, hbusy, hplain, hwait, hslice, Bool.not_true, Bool.or_self, Bool.false_eq_true, if_false, Option.isSome_none]
  rfl

/-- `pref` moves its gang on after what it does for each active lane. -/
theorem exec_pref {s : State} {is : Issue} {c : Crew} (hi : Issues s is c) (a : Args) : exec (.pref a) s = .next (retire is ((active c is a.guard).foldl (fun s t =>
    prefLane c (bitsOf a.m.toNat 7 5) (bitsOf a.m.toNat 3 2 == 3) s (effAddr c t a).toNat) s)) :=
  gangDo_issues hi a.guard fun e => .next (retire e.is (e.act.foldl (fun s t => prefLane e.c (bitsOf a.m.toNat 7 5) (bitsOf a.m.toNat 3 2 == 3) s (effAddr e.c t a).toNat) e.s))

theorem exec_cctlInvL1 {s : State} {is : Issue} {c : Crew} (hi : Issues s is c) (a : Args) : exec (.cctlInvL1 a) s = .next (retire is (if (active c is a.guard).isEmpty then s
    else { s with lines := s.lines.filter fun l => l.kind != .l1 c.coreId })) :=
  gangDo_issues hi a.guard fun e => .next (retire e.is (if e.act.isEmpty then e.s else { e.s with lines := e.s.lines.filter fun l => l.kind != .l1 e.c.coreId }))

end Sys2Proof.Machine
end

section
/-! PROOFS. What the translations of a context rest on, and the range forms of `cctl` (R159, R178). -/

namespace Sys2Proof.Machine

/-! ### Tables -/

/-- What of a context its translations and maps rest on. -/
def Context.tables (c : Context) : Word64 × List Range := (c.xltRoot, c.ranges)

/-- Two states in which every translation, every map and every place is the same. -/
structure SameTables (s u : State) : Prop where
  mem : u.mem = s.mem
  hw : u.hw = s.hw
  migs : u.migs = s.migs
  tlb : u.tlb = s.tlb
  runs : u.runs = s.runs
  ctx : ∀ i, (getCtx u i).map Context.tables = (getCtx s i).map Context.tables

theorem SameTables.trans {s t u : State} (h : SameTables s t) (k : SameTables t u) : SameTables s u :=
  ⟨k.mem.trans h.mem, k.hw.trans h.hw, k.migs.trans h.migs, k.tlb.trans h.tlb, k.runs.trans h.runs, fun i => (k.ctx i).trans (h.ctx i)⟩

theorem SameTables.updCtx (s : State) (id : Nat) {f : Context → Context} (hid : ∀ x, (f x).id = x.id) (hf : ∀ x, (f x).tables = x.tables) : SameTables s (updCtx s id f) := by
  refine ⟨rfl, rfl, rfl, rfl, rfl, fun i => ?_⟩
  rw [getCtx_updCtx s id i f hid, Option.map_map]
  congr 1
  funext x
  simp only [Function.comp]
  split
  · exact hf x
  · rfl

section
variable {s u : State} (h : SameTables s u)
include h

theorem SameTables.homeByte (k : Nat) : homeByte u k = homeByte s k := by
  rw [Machine.homeByte, Machine.homeByte, place_congr h.migs, h.mem]

theorem SameTables.homeRead (k n : Nat) : homeRead u k n = homeRead s k n := by
  induction n generalizing k with
  | zero => rfl
  | succ n ih => simp only [Machine.homeRead, h.homeByte, ih]

theorem SameTables.poisonedAt (k : Nat) : poisonedAt u k = poisonedAt s k := by
  simp only [Machine.poisonedAt, anyPoison, channelLost, place_congr h.migs, h.hw]

theorem SameTables.walkFrom (va n : Nat) (g64 : Bool) (table : Nat) : walkFrom u va n g64 table = walkFrom s va n g64 table := by
  induction n generalizing g64 table with
  | zero => simp only [Machine.walkFrom, walkEntry, h.poisonedAt, h.homeRead, h.hw]
  | succ n ih => simp only [Machine.walkFrom, walkEntry, h.poisonedAt, h.homeRead, h.hw, ih]

theorem SameTables.walkTree (ctx va : Nat) : walkTree u ctx va = walkTree s ctx va := by
  have hctx := h.ctx ctx
  unfold Machine.walkTree
  cases hs : getCtx s ctx with
  | none =>
    rw [hs, Option.map_none, Option.map_eq_none_iff] at hctx
    simp only [hctx]
  | some x =>
    rw [hs, Option.map_some, Option.map_eq_some_iff] at hctx
    obtain ⟨y, hy, htables⟩ := hctx
    simp only [hy, h.walkFrom, show y.xltRoot = x.xltRoot from congrArg Prod.fst htables]

theorem SameTables.ranges (ctx : Nat) : (getCtx u ctx).map (·.ranges) = (getCtx s ctx).map (·.ranges) := by
  have hctx := congrArg (Option.map Prod.snd) (h.ctx ctx)
  rw [Option.map_map, Option.map_map] at hctx
  exact hctx

theorem SameTables.walkNow (ctx die va : Nat) : walkNow u ctx die va = walkNow s ctx die va := by
  simp only [Machine.walkNow, h.tlb, h.walkTree]

theorem SameTables.rangeRuns (ctx die va len : Nat) : rangeRuns u ctx die va len = rangeRuns s ctx die va len := by
  simp only [Machine.rangeRuns, h.walkNow]

theorem SameTables.namedLine (ctx die va len : Nat) : namedLine u ctx die va len = namedLine s ctx die va len := by
  funext line
  have hruns : Machine.rangeRuns u = Machine.rangeRuns s := by
    funext ctx die va len
    exact h.rangeRuns ctx die va len
  have hline : lineIn u = lineIn s := by
    have hplace : unplace u = unplace s := by
      funext k
      rw [unplace, unplace, h.migs]
    funext runs line
    rw [lineIn, lineIn, hplace]
  rw [Machine.namedLine, Machine.namedLine, hruns, hline, h.ranges]

theorem SameTables.blockState (ctx : Nat) (r : Range) (i : Nat) : blockState u ctx r i = blockState s ctx r i := by
  simp only [Machine.blockState, mapField, mapKey, h.walkTree, h.homeByte]

theorem SameTables.pageLeaves (ctx va : Nat) : pageLeaves u ctx va = pageLeaves s ctx va := by
  simp only [Machine.pageLeaves, h.walkTree]

theorem SameTables.leafEgressOk (l : Leaf) (off : Nat) : leafEgressOk u l off = leafEgressOk s l off := by
  simp only [Machine.leafEgressOk, egressOk, h.hw]

theorem SameTables.movable (ctx va die : Nat) : movable u ctx va die = movable s ctx va die := by
  have hall : ∀ p : Range → Bool, ((getCtx u ctx).all fun c => c.ranges.all p) = (getCtx s ctx).all fun c => c.ranges.all p := fun p => by
    simpa only [Option.all_map] using congrArg (Option.all fun rs => rs.all p) (h.ranges ctx)
  simp only [Machine.movable, h.pageLeaves, h.leafEgressOk, h.blockState, hall]

theorem SameTables.movePages (ctx base len : Nat) (die : Nat → Nat) : movePages u ctx base len die = movePages s ctx base len die := by
  simp only [Machine.movePages, h.movable]

theorem SameTables.targetDie (c : Crew) (target : Nat) : targetDie u c target = targetDie s c target := by
  funext i
  have hrun : getRun u = getRun s := by
    funext id
    rw [getRun, getRun, h.runs]
  rw [Machine.targetDie, Machine.targetDie, hrun]

end

/-! ### Range forms of `cctl` (R178) -/

/-- Which cached lines, lines to be written back, and pins a form of `cctl` leaves, given the lines that are named. -/
structure Leaves where
  lines : (Nat → Bool) → CacheLine → Bool
  dirty : (Nat → Bool) → Nat → Bool
  pinned : (Nat → Bool) → Nat → Bool

/-- What such a form does for one range. -/
def Leaves.act (d : Leaves) (s : State) (named : Nat → Bool) : State :=
  { s with lines := s.lines.filter (d.lines named), dirty := s.dirty.filter (d.dirty named), pinned := s.pinned.filter (d.pinned named) }

/-- The lines that a thread's range names. -/
def namedBy (s : State) (c : Crew) (a : Args) (t : Thread) : Nat → Bool := namedLine s c.ctx c.die (rangeOf c t a).1 (rangeOf c t a).2

/-- What a form does for one thread. -/
def Leaves.step (d : Leaves) (c : Crew) (a : Args) (s : State) (t : Thread) : State := issueAck (d.act s (namedBy s c a t)) c t

theorem Leaves.step_tables (d : Leaves) (c : Crew) (a : Args) (s : State) (t : Thread) : SameTables s (d.step c a s t) := ⟨rfl, rfl, rfl, rfl, rfl, fun _ => rfl⟩

/-- What a form has done for some threads of a gang. -/
structure Done (d : Leaves) (s : State) (c : Crew) (a : Args) (ts : List Thread) (u v : State) : Prop where
  mem : v.mem = u.mem
  loads : v.loads = u.loads
  count : v.stores.length = u.stores.length + ts.length
  acks : ∀ p ∈ v.stores, p ∈ u.stores ∨ p.performed = true ∧ p.bytes = []
  lines : v.lines = u.lines.filter fun l => ts.all fun t => d.lines (namedBy s c a t) l
  dirty : v.dirty = u.dirty.filter fun l => ts.all fun t => d.dirty (namedBy s c a t) l
  pinned : v.pinned = u.pinned.filter fun l => ts.all fun t => d.pinned (namedBy s c a t) l

theorem Leaves.foldl_step (d : Leaves) (s : State) (c : Crew) (a : Args) (ts : List Thread) {u : State} (h : SameTables s u) : Done d s c a ts u (ts.foldl (d.step c a) u) := by
  induction ts generalizing u with
  | nil => exact ⟨rfl, rfl, rfl, fun p hp => .inl hp, by simp, by simp, by simp⟩
  | cons t ts ih =>
    have hnamed : namedBy u c a t = namedBy s c a t := h.namedLine ..
    have hrest := ih (h.trans (d.step_tables c a u t))
    have hlines : (d.step c a u t).lines = u.lines.filter (d.lines (namedBy s c a t)) := by rw [← hnamed]; rfl
    have hdirty : (d.step c a u t).dirty = u.dirty.filter (d.dirty (namedBy s c a t)) := by rw [← hnamed]; rfl
    have hpinned : (d.step c a u t).pinned = u.pinned.filter (d.pinned (namedBy s c a t)) := by rw [← hnamed]; rfl
    refine ⟨hrest.mem, hrest.loads, ?_, fun p hp => ?_, ?_, ?_, ?_⟩
    · have hone : (d.step c a u t).stores.length = u.stores.length + 1 := by simp [step, issueAck, act]
      rw [List.foldl_cons, hrest.count, hone, List.length_cons]
      omega
    · rcases hrest.acks p hp with h1 | h1
      · rcases List.mem_append.1 (show p ∈ u.stores ++ [_] from h1) with h2 | h2
        · exact .inl h2
        · rw [List.mem_singleton.1 h2]
          exact .inr ⟨rfl, rfl⟩
      · exact .inr h1
    · rw [List.foldl_cons, hrest.lines, hlines, List.filter_filter]
      simp only [List.all_cons, Bool.and_comm]
    · rw [List.foldl_cons, hrest.dirty, hdirty, List.filter_filter]
      simp only [List.all_cons, Bool.and_comm]
    · rw [List.foldl_cons, hrest.pinned, hpinned, List.filter_filter]
      simp only [List.all_cons, Bool.and_comm]

/-- The active threads whose ranges have a length. -/
def rangers (is : Issue) (c : Crew) (a : Args) : List Thread := (active c is a.guard).filter fun t => (rangeOf c t a).2 != 0

theorem cctlRange_issues {s : State} {is : Issue} {c : Crew} (hi : Issues s is c) (a : Args) (f : Crew → State → (Nat → Bool) → State) :
    cctlRange a s f =
      let bad := (rangers is c a).filter fun t => runInAperture s c.ctx (rangeOf c t a).1 (rangeOf c t a).2
      if !bad.isEmpty then .next (raise s is.crew is.pc is.tids (trapOf c tcBOUNDS 6 (bad.map (·.tid)) [laneField c (bad.map (·.tid))]
        (BitVec.ofNat 64 ((bad.head?.map fun t => (rangeOf c t a).1).getD 0))))
      else .next (retire is ((rangers is c a).foldl (fun s t => issueAck (f c s (namedBy s c a t)) c t) s)) :=
  gangDo_issues hi ..

/-- A range form does what it leaves says, once for each range, or meets a window (R178). -/
theorem rangeForm_of_leaves {s : State} {is : Issue} {c : Crew} {a : Args} {i : Instr} {P : State → (Nat → Bool) → Prop} (hi : Issues s is c) (d : Leaves)
    {f : Crew → State → (Nat → Bool) → State} (hexec : exec i s = cctlRange a s f) (hf : ∀ s named, f c s named = d.act s named)
    (hP : ∀ v, Done d s c a (rangers is c a) s v → ∀ t ∈ rangers is c a, P v (namedBy s c a t)) : RangeForm i a s is c P := by
  have hsteps : (rangers is c a).foldl (fun s t => issueAck (f c s (namedBy s c a t)) c t) s = (rangers is c a).foldl (d.step c a) s := by
    simp only [hf]
    rfl
  rw [RangeForm, hexec, cctlRange_issues hi]
  refine ⟨fun hclear => ?_, fun hmeets => ?_⟩
  · have hnone : (rangers is c a).filter (fun t => runInAperture s c.ctx (rangeOf c t a).1 (rangeOf c t a).2) = [] := List.filter_eq_nil_iff.2 fun t ht => by simp [hclear t ht]
    have hdone := d.foldl_step s c a (rangers is c a) (u := s) ⟨rfl, rfl, rfl, rfl, rfl, fun _ => rfl⟩
    simp only [hnone, List.isEmpty_nil, Bool.not_true, Bool.false_eq_true, if_false, hsteps]
    exact ⟨_, rfl, hdone.mem, hdone.loads, hdone.count, hdone.acks, hP _ hdone⟩
  · obtain ⟨t, ht, hmeet⟩ := hmeets
    have hsome : ((rangers is c a).filter fun t => runInAperture s c.ctx (rangeOf c t a).1 (rangeOf c t a).2).isEmpty = false :=
      List.isEmpty_eq_false_iff.2 (List.ne_nil_of_mem (List.mem_filter.2 ⟨ht, hmeet⟩))
    simp only [hsome, Bool.not_false, if_true]
    exact ⟨_, rfl, rfl, rfl⟩

end Sys2Proof.Machine
end

section
/-! PROOFS. Hints, cache control, repartition and migration requests (R168, R177 to R179). -/

namespace Sys2Proof.Machine

variable {s : State} {is : Issue} {c : Crew} {a : Args}

/-! ### The range forms, one by one (R178) -/

theorem Done.mem_lines {d : Leaves} {ts : List Thread} {u v : State} (h : Done d s c a ts u v) (l : CacheLine) :
    l ∈ v.lines ↔ l ∈ u.lines ∧ ∀ t ∈ ts, d.lines (namedBy s c a t) l = true := by
  rw [h.lines, List.mem_filter, List.all_eq_true]

theorem Done.mem_dirty {d : Leaves} {ts : List Thread} {u v : State} (h : Done d s c a ts u v) (l : Nat) :
    l ∈ v.dirty ↔ l ∈ u.dirty ∧ ∀ t ∈ ts, d.dirty (namedBy s c a t) l = true := by
  rw [h.dirty, List.mem_filter, List.all_eq_true]

theorem Done.mem_pinned {d : Leaves} {ts : List Thread} {u v : State} (h : Done d s c a ts u v) (l : Nat) :
    l ∈ v.pinned ↔ l ∈ u.pinned ∧ ∀ t ∈ ts, d.pinned (namedBy s c a t) l = true := by
  rw [h.pinned, List.mem_filter, List.all_eq_true]

/-- A form that drops nothing leaves the list as it was. -/
theorem filter_all_true {α β : Type} (xs : List α) (ts : List β) : xs.filter (fun _ => ts.all fun _ => true) = xs := by simp

/-- The form that drops named lines from the caches of one kind. -/
def dropsKind (k : CacheKind) : Leaves where
  lines named l := !(l.kind == k && named (l.sector / 4))
  dirty _ _ := true
  pinned _ _ := true

theorem dropsKind_done {k : CacheKind} {ts : List Thread} {v : State} (h : Done (dropsKind k) s c a ts s v) {t : Thread} (ht : t ∈ ts) : v.dirty = s.dirty ∧ v.pinned = s.pinned ∧
    (∀ l ∈ v.lines, l ∈ s.lines ∧ ¬ (l.kind = k ∧ namedBy s c a t (l.sector / 4) = true)) ∧ ∀ l ∈ s.lines, l.kind ≠ k → l ∈ v.lines := by
  refine ⟨h.dirty.trans (filter_all_true ..), h.pinned.trans (filter_all_true ..), fun l hl => ?_, fun l hl hkind => ?_⟩
  · obtain ⟨hin, hkept⟩ := (h.mem_lines l).1 hl
    refine ⟨hin, ?_⟩
    simpa [dropsKind, imp_iff_not_or] using hkept t ht
  · exact (h.mem_lines l).2 ⟨hl, fun u _ => by simp [dropsKind, hkind]⟩

theorem dropNamed_eq_act (s : State) (k : CacheKind) (named : Nat → Bool) : dropNamed s (· == k) named = (dropsKind k).act s named := by
  simp only [dropNamed, Leaves.act, dropsKind, List.filter_true]

theorem cctlInvL1r_form (hi : Issues s is c) : RangeForm (.cctlInvL1r a) a s is c (fun s1 named => s1.dirty = s.dirty ∧ s1.pinned = s.pinned ∧
    (∀ l ∈ s1.lines, l ∈ s.lines ∧ ¬ (l.kind = .l1 c.coreId ∧ named (l.sector / 4) = true)) ∧ ∀ l ∈ s.lines, l.kind ≠ .l1 c.coreId → l ∈ s1.lines) :=
  rangeForm_of_leaves hi (dropsKind (.l1 c.coreId)) (f := fun c s named => dropNamed s (· == .l1 c.coreId) named) rfl
    (fun s named => dropNamed_eq_act s (.l1 c.coreId) named) fun _ hdone _ ht => dropsKind_done hdone ht

theorem cctlInvRdcr_form (hi : Issues s is c) : RangeForm (.cctlInvRdcr a) a s is c (fun s1 named => s1.dirty = s.dirty ∧ s1.pinned = s.pinned ∧
    (∀ l ∈ s1.lines, l ∈ s.lines ∧ ¬ (l.kind = .rdc c.die ∧ named (l.sector / 4) = true)) ∧ ∀ l ∈ s.lines, l.kind ≠ .rdc c.die → l ∈ s1.lines) :=
  rangeForm_of_leaves hi (dropsKind (.rdc c.die)) (f := fun c s named => dropNamed s (· == .rdc c.die) named) rfl
    (fun s named => dropNamed_eq_act s (.rdc c.die) named) fun _ hdone _ ht => dropsKind_done hdone ht

/-- Named lines are written back, and stay. -/
def writesBack : Leaves where
  lines _ _ := true
  dirty named l := !named l
  pinned _ _ := true

theorem cctlWbL2r_form (hi : Issues s is c) : RangeForm (.cctlWbL2r a) a s is c (fun s1 named => s1.lines = s.lines ∧ s1.pinned = s.pinned ∧
    ∀ l ∈ s1.dirty, l ∈ s.dirty ∧ named l = false) := by
  refine rangeForm_of_leaves hi writesBack (f := fun _ s named => { s with dirty := s.dirty.filter fun l => !named l }) rfl (fun s named => ?_) fun v hdone t ht =>
    ⟨hdone.lines.trans (filter_all_true ..), hdone.pinned.trans (filter_all_true ..), fun l hl => ?_⟩
  · simp only [Leaves.act, writesBack, List.filter_true]
  · obtain ⟨hin, hkept⟩ := (hdone.mem_dirty l).1 hl
    exact ⟨hin, by simpa [writesBack] using hkept t ht⟩

/-- Pins of named lines end. -/
def endsPins : Leaves where
  lines _ _ := true
  dirty _ _ := true
  pinned named l := !named l

theorem cctlUnpin_form (hi : Issues s is c) : RangeForm (.cctlUnpin a) a s is c (fun s1 named => s1.lines = s.lines ∧ s1.dirty = s.dirty ∧
    ∀ l ∈ s1.pinned, l ∈ s.pinned ∧ named l = false) := by
  refine rangeForm_of_leaves hi endsPins (f := fun _ s named => { s with pinned := s.pinned.filter fun l => !named l }) rfl (fun s named => ?_) fun v hdone t ht =>
    ⟨hdone.lines.trans (filter_all_true ..), hdone.dirty.trans (filter_all_true ..), fun l hl => ?_⟩
  · simp only [Leaves.act, endsPins, List.filter_true]
  · obtain ⟨hin, hkept⟩ := (hdone.mem_pinned l).1 hl
    exact ⟨hin, by simpa [endsPins] using hkept t ht⟩

/-- Whether a cache is a die's remote-data cache. -/
def isRdc (k : CacheKind) : Bool := match k with
  | .rdc _ => true
  | _ => false

theorem isRdc_iff (k : CacheKind) : isRdc k = true ↔ ∃ die, k = .rdc die := by
  cases k <;> simp [isRdc]

/-- Named lines are written back and go from the L2, with their pins, and from every remote-data cache. -/
def invalidatesL2 : Leaves where
  lines named l := !(isRdc l.kind && named (l.sector / 4))
  dirty named l := !named l
  pinned named l := !named l

theorem cctlInvL2r_form (hi : Issues s is c) : RangeForm (.cctlInvL2r a) a s is c (fun s1 named => (∀ l ∈ s1.dirty, l ∈ s.dirty ∧ named l = false) ∧
    (∀ l ∈ s1.pinned, l ∈ s.pinned ∧ named l = false) ∧ (∀ l ∈ s1.lines, l ∈ s.lines ∧ ∀ die, l.kind = .rdc die → named (l.sector / 4) = false) ∧
    ∀ l ∈ s.lines, (∀ die, l.kind ≠ .rdc die) → l ∈ s1.lines) := by
  refine rangeForm_of_leaves hi invalidatesL2 (f := fun _ s named => dropNamed { s with dirty := s.dirty.filter fun l => !named l, pinned := s.pinned.filter fun l => !named l } isRdc named)
    rfl (fun s named => rfl) fun v hdone t ht => ⟨fun l hl => ?_, fun l hl => ?_, fun l hl => ?_, fun l hl hother => ?_⟩
  · obtain ⟨hin, hkept⟩ := (hdone.mem_dirty l).1 hl
    exact ⟨hin, by simpa [invalidatesL2] using hkept t ht⟩
  · obtain ⟨hin, hkept⟩ := (hdone.mem_pinned l).1 hl
    exact ⟨hin, by simpa [invalidatesL2] using hkept t ht⟩
  · obtain ⟨hin, hkept⟩ := (hdone.mem_lines l).1 hl
    refine ⟨hin, fun die hdie => ?_⟩
    simpa [invalidatesL2, hdie, isRdc] using hkept t ht
  · refine (hdone.mem_lines l).2 ⟨hl, fun u _ => ?_⟩
    have hnot : isRdc l.kind = false := by
      rw [← Bool.not_eq_true, isRdc_iff]
      exact fun ⟨die, h⟩ => hother die h
    simp [invalidatesL2, hnot]

/-! ### Repartition (R168, R178) -/

variable {t : Thread} {ts : List Thread}

/-- The count that a `cctl.part` asks for. -/
def partAsked (c : Crew) (t : Thread) (a : Args) : Nat := a.imm.elim (rd c t a.b 1) BitVec.toNat

/-- The answer of a `cctl.part`, which ends it. -/
def partAnswers (s : State) (is : Issue) (c : Crew) (a : Args) (v : Thread → Nat) : Out :=
  .next (retire is (updCrew s is.crew fun k => (applyWrs k ((active c is a.guard).map fun u => (u.tid, Wr.reg a.d 1 (v u)))).mapT fun u =>
    { u with result := if ((active c is a.guard).map (·.tid)).contains u.tid then none else u.result }))

/-- The core's record with a change of its split asked for. -/
def splitAsked (s : State) (is : Issue) (c : Crew) (a : Args) (n : Nat) (k : Core) : Core :=
  { k with change := k.change ++ [{ mb := n, mark := s.nextId, who := some (is.crew, (active c is a.guard).map (·.tid)) }] }

/-- The state in which a `cctl.part` has asked and its gang waits. -/
def partAsks (s : State) (is : Issue) (c : Crew) (a : Args) (n : Nat) : State :=
  { holdGang (updCore s c.coreId (splitAsked s is c a n)) is.crew is.tids ((active c is a.guard).map (·.tid)) (.service 0) with issue := none }

/-- The cases of `cctl.part`, in their order. -/
theorem exec_cctlPart (hi : Issues s is c) (hact : active c is a.guard = t :: ts) : exec (.cctlPart a) s =
    if (active c is a.guard).all (·.result.isSome) then partAnswers s is c a fun u => u.result.getD 0
    else if !partAllowed s c then .next (raise s is.crew is.pc is.tids (trapOf c tcPRIV 0 ((active c is a.guard).map (·.tid)) [{ off := 0, len := 2, val := 0x4D }]))
    else if 8 < partAsked c t a then partAnswers s is c a fun _ => 0xFFFFFFFF
    else if (coreOf s c.coreId).change.isEmpty && partAsked c t a = (coreOf s c.coreId).mb then partAnswers s is c a fun _ => 0
    else .next (partAsks s is c a (partAsked c t a)) := by
  have hne : (active c is a.guard).isEmpty = false := by simp [hact]
  show execCctlPart a s = _
  rw [execCctlPart, gangDo_issues hi]
  simp only [envOf, hne, Bool.false_eq_true, if_false]
  cases himm : a.imm with
  | none =>
    have hn : ((active c is a.guard).head?.map fun t => rd c t a.b 1).getD 0 = partAsked c t a := by simp [hact, partAsked, himm]
    simp only [hn]
    rfl
  | some v =>
    have hn : v.toNat = partAsked c t a := by simp [partAsked, himm]
    simp only [hn]
    rfl

/-- Where the split is asked for, the core's changes hold the request, and the gang waits at the word. -/
theorem partAsks_waits (hi : Issues s is c) (n : Nat) : (partAsks s is c a n).mem = s.mem ∧ (partAsks s is c a n).issue = none ∧
    coreOf (partAsks s is c a n) c.coreId = splitAsked s is c a n (coreOf s c.coreId) ∧
    ∀ u ∈ active c is a.guard, ∃ u', getThread (partAsks s is c a n) is.crew u.tid = some u' ∧ u'.hold = .service 0 ∧ u'.gang = is.tids ∧ u'.pc = u.pc := by
  refine ⟨rfl, rfl, coreOf_updCore_same s c.coreId (splitAsked s is c a n), fun u hu => ?_⟩
  obtain ⟨hid, hthread⟩ := mem_active hu
  obtain ⟨c', hc', ht'⟩ := thread_holdGang (gang := is.tids) (who := (active c is a.guard).map (·.tid)) (h := .service 0)
    (s := updCore s c.coreId (splitAsked s is c a n)) ⟨hi.issue, hi.crew⟩ hthread
  have hwho : ((active c is a.guard).map (·.tid)).contains u.tid = true := by simpa using ⟨u, hu, rfl⟩
  have hgang : is.tids.contains u.tid = true := by simpa using hid
  simp only [hwho, hgang, if_true] at ht'
  have hget : getThread (partAsks s is c a n) is.crew u.tid = some { u with hold := .service 0, gang := is.tids } := by
    rw [getThread, partAsks, hc']
    exact ht'
  exact ⟨_, hget, rfl, rfl, rfl⟩

/-- A thread with no answer yet is active, so the word is not ended by answers. -/
theorem not_all_answered (hact : active c is a.guard = t :: ts) (hres : t.result = none) : (active c is a.guard).all (·.result.isSome) = false := by simp [hact, hres]

theorem cctlPart_asks (hi : Issues s is c) (hact : active c is a.guard = t :: ts) (hres : t.result = none) (hmay : partAllowed s c = true) (hn : partAsked c t a ≤ 8)
    (hnew : ¬ ((coreOf s c.coreId).change = [] ∧ partAsked c t a = (coreOf s c.coreId).mb)) : exec (.cctlPart a) s = .next (partAsks s is c a (partAsked c t a)) := by
  rw [exec_cctlPart hi hact, not_all_answered hact hres, if_neg (by simp), if_neg (by simp [hmay]), if_neg (by omega), if_neg (by simpa using hnew)]

theorem cctlPart_stands (hi : Issues s is c) (hact : active c is a.guard = t :: ts) (hres : t.result = none) (hmay : partAllowed s c = true) (hn : partAsked c t a ≤ 8)
    (hidle : (coreOf s c.coreId).change = []) (hsame : partAsked c t a = (coreOf s c.coreId).mb) : exec (.cctlPart a) s = partAnswers s is c a fun _ => 0 := by
  rw [exec_cctlPart hi hact, not_all_answered hact hres, if_neg (by simp), if_neg (by simp [hmay]), if_neg (by omega), if_pos (by simp [hidle, hsame])]

theorem cctlPart_above (hi : Issues s is c) (hact : active c is a.guard = t :: ts) (hres : t.result = none) (hmay : partAllowed s c = true) (hn : 8 < partAsked c t a) :
    exec (.cctlPart a) s = partAnswers s is c a fun _ => 0xFFFFFFFF := by
  rw [exec_cctlPart hi hact, not_all_answered hact hres, if_neg (by simp), if_neg (by simp [hmay]), if_pos hn]

theorem cctlPart_answered (hi : Issues s is c) (hact : active c is a.guard = t :: ts) (hres : ∀ u ∈ t :: ts, u.result.isSome = true) :
    exec (.cctlPart a) s = partAnswers s is c a fun u => u.result.getD 0 := by
  rw [exec_cctlPart hi hact, if_pos (by rw [hact]; exact List.all_eq_true.2 hres)]

theorem cctlPart_refused (hi : Issues s is c) (hact : active c is a.guard = t :: ts) (hres : t.result = none) (hmay : partAllowed s c = false) :
    ∃ f : TrapInfo, f.code = 0x03 ∧ exec (.cctlPart a) s = .next (raise s is.crew is.pc is.tids f) := by
  rw [exec_cctlPart hi hact, not_all_answered hact hres, if_neg (by simp), if_pos (by simp [hmay])]
  exact ⟨_, rfl, rfl⟩

/-! ### Hints (R179) -/

/-- The pages that a thread's hint names. -/
def hintPages (s : State) (c : Crew) (a : Args) (u : Thread) : List (Nat × Nat) := rangePages (migArgs c u a).1 (migArgs c u a).2.1 (targetDie s c (migArgs c u a).2.2)

/-- One thread's `mig.hint`. -/
def hintStep (c : Crew) (a : Args) (s : State) (t : Thread) : State :=
  if 5 < (migArgs c t a).2.2 then telemetry s c.ctx telMoveDropped
  else if 256 ≤ ((getCtx s c.ctx).map (·.hints.length)).getD 0 then telemetry s c.ctx telHintDropped
  else match hintPages s c a t with
    | [] => s
    | p :: ps => updCtx s c.ctx fun x => { x with hints := x.hints ++ [p :: ps] }

theorem exec_migHint (hi : Issues s is c) : exec (.migHint a) s = .next (retire is ((active c is a.guard).foldl (hintStep c a) s)) := by
  show execMigHint a s = _
  rw [execMigHint, gangDo_issues hi]
  rfl

/-- Whether a thread's hint names pages, and its target is legal. -/
def hints (s : State) (c : Crew) (a : Args) (u : Thread) : Prop := (migArgs c u a).2.2 ≤ 5 ∧ hintPages s c a u ≠ []

/-- One hint adds at most its pages; it adds them where it names some and there is room. -/
theorem hintStep_adds {x : Context} (hx : getCtx s c.ctx = some x) (t : Thread) : ∃ y more, getCtx (hintStep c a s t) c.ctx = some y ∧ y.hints = x.hints ++ more ∧
    (more = [] ∨ more = [hintPages s c a t]) ∧ (x.hints.length < 256 → hints s c a t → more = [hintPages s c a t]) ∧
    (hintStep c a s t).mem = s.mem ∧ (hintStep c a s t).crews = s.crews ∧ (hintStep c a s t).runs = s.runs := by
  have hid := getCtx_id hx
  have htel : ∀ k, ∃ y, getCtx (telemetry s c.ctx k) c.ctx = some y ∧ y.hints = x.hints ++ [] := fun k => by
    refine ⟨_, by rw [telemetry, getCtx_updCtx s c.ctx c.ctx (fun c => { c with telemetry := mput 0 c.telemetry k (mget 0 c.telemetry k + 1) }) fun _ => rfl, hx]; rfl, ?_⟩
    simp [hid]
  unfold hintStep
  split
  · next hbad =>
    obtain ⟨y, hy, hhints⟩ := htel telMoveDropped
    exact ⟨y, [], hy, hhints, .inl rfl, fun _ h => absurd h.1 (by omega), rfl, rfl, rfl⟩
  · split
    · next hfull =>
      obtain ⟨y, hy, hhints⟩ := htel telHintDropped
      have hfull' : 256 ≤ x.hints.length := by simpa [hx] using hfull
      exact ⟨y, [], hy, hhints, .inl rfl, fun h _ => absurd h (by omega), rfl, rfl, rfl⟩
    · split
      · next hnone => exact ⟨x, [], hx, by simp, .inl rfl, fun _ h => absurd hnone h.2, rfl, rfl, rfl⟩
      · next p ps hpages =>
        rw [hpages]
        refine ⟨_, [p :: ps], by rw [getCtx_updCtx s c.ctx c.ctx (fun x => { x with hints := x.hints ++ [p :: ps] }) fun _ => rfl, hx]; rfl, ?_, .inr rfl, fun _ _ => rfl, rfl, rfl, rfl⟩
        simp [hid]

theorem hintPages_congr {u : State} (h : u.runs = s.runs) : hintPages u c a = hintPages s c a := by
  have hrun : getRun u = getRun s := by
    funext id
    rw [getRun, getRun, h]
  funext t
  unfold hintPages targetDie
  rw [hrun]

/-- The hints of some threads, in order: each adds its pages where there is room for all. -/
theorem foldl_hintStep (us : List Thread) {x : Context} (hx : getCtx s c.ctx = some x) : ∃ y more, getCtx (us.foldl (hintStep c a) s) c.ctx = some y ∧
    y.hints = x.hints ++ more ∧ (∀ h ∈ more, ∃ u ∈ us, h = hintPages s c a u) ∧
    (x.hints.length + us.length ≤ 256 → ∀ u ∈ us, hints s c a u → hintPages s c a u ∈ more) ∧
    (us.foldl (hintStep c a) s).mem = s.mem ∧ (us.foldl (hintStep c a) s).crews = s.crews := by
  induction us generalizing s x with
  | nil => exact ⟨x, [], hx, by simp, fun _ hh => absurd hh List.not_mem_nil, fun _ _ hu => absurd hu List.not_mem_nil, rfl, rfl⟩
  | cons t us ih =>
    obtain ⟨y, first, hy, hhints, hfirst, hroom, hmem, hcrews, hruns⟩ := hintStep_adds (a := a) hx t
    obtain ⟨z, more, hz, hmore, hfrom, hall, hmem', hcrews'⟩ := ih hy
    have hpages := hintPages_congr (c := c) (a := a) hruns
    have hlen : first.length ≤ 1 := by rcases hfirst with h | h <;> simp [h]
    rw [hpages] at hfrom hall
    refine ⟨z, first ++ more, hz, by rw [hmore, hhints, List.append_assoc], fun h hh => ?_, fun hfits u hu hhas => ?_, hmem'.trans hmem, hcrews'.trans hcrews⟩
    · rcases List.mem_append.1 hh with hh | hh
      · refine ⟨t, List.mem_cons_self, ?_⟩
        rcases hfirst with h | h
        · rw [h] at hh
          exact absurd hh List.not_mem_nil
        · rw [h] at hh
          exact List.mem_singleton.1 hh
      · obtain ⟨u, hu, h⟩ := hfrom h hh
        exact ⟨u, List.mem_cons_of_mem _ hu, h⟩
    · rw [List.length_cons] at hfits
      rcases List.mem_cons.1 hu with rfl | hu
      · rw [hroom (by omega) hhas]
        exact List.mem_append_left _ (List.mem_singleton.2 rfl)
      · refine List.mem_append_right _ (hall ?_ u hu ⟨hhas.1, by rw [hpages]; exact hhas.2⟩)
        rw [hhints, List.length_append]
        omega

/-! ### Moves (R179) -/

/-- The pages that a thread's move is to move. -/
def movedPages (s : State) (c : Crew) (a : Args) (u : Thread) : List (Nat × Nat) := movePages s c.ctx (migArgs c u a).1 (migArgs c u a).2.1 (targetDie s c (migArgs c u a).2.2)

/-- Whether a thread's move has pages to move, and its target is legal. -/
def movesPages (s : State) (c : Crew) (a : Args) (u : Thread) : Prop := (migArgs c u a).2.2 ≤ 5 ∧ movedPages s c a u ≠ []

/-- A thread that waits for one copy more. -/
def Thread.copying (t : Thread) : Thread := { t with cnt := { t.cnt with copies := t.cnt.copies + 1 } }

/-- A request to move a thread's pages. -/
def requestMove (s : State) (c : Crew) (a : Args) (uid : Nat) (t : Thread) : State :=
  { countUp s uid t.tid fun k => { k with copies := k.copies + 1 } with
    moves := s.moves ++ [{ id := s.nextId, ctx := c.ctx, pages := movedPages s c a t, who := some (uid, t.tid) }], nextId := s.nextId + 1 }

/-- One thread's `mig.move`. -/
def moveStep (c : Crew) (a : Args) (uid : Nat) (s : State) (t : Thread) : State :=
  if 5 < (migArgs c t a).2.2 then telemetry s c.ctx telMoveDropped
  else if (movedPages s c a t).isEmpty then s
  else requestMove s c a uid t

theorem exec_migMove (hi : Issues s is c) : exec (.migMove a) s = .next (retire is ((active c is a.guard).foldl (moveStep c a is.crew) s)) := by
  show execMigMove a s = _
  rw [execMigMove, gangDo_issues hi]
  rfl

theorem moveStep_moves {uid : Nat} (h : movesPages s c a t) : moveStep c a uid s t = requestMove s c a uid t := by
  rw [moveStep, if_neg (Nat.not_lt.2 h.1), if_neg (by simpa using h.2)]

theorem moveStep_drops {uid : Nat} (h : ¬ movesPages s c a t) : moveStep c a uid s t = s ∨ moveStep c a uid s t = telemetry s c.ctx telMoveDropped := by
  unfold moveStep
  split
  · exact .inr rfl
  · next hlegal =>
    have hnone : movedPages s c a t = [] := by_contra fun hsome => h ⟨by omega, hsome⟩
    rw [hnone]
    exact .inl rfl

theorem telemetry_tables (s : State) (ctx kind : Nat) : SameTables s (telemetry s ctx kind) := .updCtx s ctx (fun _ => rfl) fun _ => rfl

theorem moveStep_tables (uid : Nat) (t : Thread) : SameTables s (moveStep c a uid s t) := by
  by_cases h : movesPages s c a t
  · rw [moveStep_moves h]
    exact ⟨rfl, rfl, rfl, rfl, rfl, fun _ => rfl⟩
  · rcases moveStep_drops (uid := uid) h with h | h <;> rw [h]
    · exact ⟨rfl, rfl, rfl, rfl, rfl, fun _ => rfl⟩
    · exact telemetry_tables ..

theorem SameTables.movedPages {u : State} (h : SameTables s u) (c : Crew) (a : Args) : movedPages u c a = movedPages s c a := by
  funext t
  rw [Machine.movedPages, Machine.movedPages, h.targetDie, h.movePages]

/-- One move adds its request where it has pages. -/
theorem moveStep_adds (uid : Nat) (t : Thread) : ∃ more, (moveStep c a uid s t).moves = s.moves ++ more ∧
    (∀ m ∈ more, m.ctx = c.ctx ∧ m.who = some (uid, t.tid) ∧ m.pages = movedPages s c a t ∧ m.pages ≠ []) ∧ (movesPages s c a t → more ≠ []) := by
  by_cases h : movesPages s c a t
  · rw [moveStep_moves h]
    refine ⟨[_], rfl, fun m hm => ?_, fun _ => List.cons_ne_nil _ _⟩
    rw [List.mem_singleton.1 hm]
    exact ⟨rfl, rfl, rfl, h.2⟩
  · refine ⟨[], ?_, fun m hm => absurd hm List.not_mem_nil, fun h' => absurd h' h⟩
    rcases moveStep_drops (uid := uid) h with h | h <;> simp [h, telemetry, updCtx]

/-- One move raises the copies counter of its own thread, and of no other. -/
theorem moveStep_thread (uid : Nat) (t : Thread) (i : Nat) :
    (i ≠ t.tid → getThread (moveStep c a uid s t) uid i = getThread s uid i) ∧
    (movesPages s c a t → getThread (moveStep c a uid s t) uid t.tid = (getThread s uid t.tid).map Thread.copying) := by
  have hcopy : ∀ i, getThread (requestMove s c a uid t) uid i = (getThread s uid i).map fun u => if uid = uid ∧ i = t.tid then u.copying else u :=
    fun i => getThread_updT s uid t.tid uid i Thread.copying fun _ => rfl
  refine ⟨fun hne => ?_, fun h => ?_⟩
  · by_cases h : movesPages s c a t
    · rw [moveStep_moves h, hcopy i]
      simp [hne]
    · rcases moveStep_drops (uid := uid) h with h | h <;> rw [h]
      rfl
  · rw [moveStep_moves h, hcopy t.tid]
    simp

/-- The moves of some threads, in order. -/
theorem foldl_moveStep (uid : Nat) (us : List Thread) {u : State} (h : SameTables s u) : ∃ more, (us.foldl (moveStep c a uid) u).moves = u.moves ++ more ∧
    (us.foldl (moveStep c a uid) u).mem = s.mem ∧
    (∀ m ∈ more, m.ctx = c.ctx ∧ ∃ t ∈ us, m.who = some (uid, t.tid) ∧ m.pages = movedPages s c a t ∧ m.pages ≠ []) ∧
    ∀ t ∈ us, movesPages s c a t → ∃ m ∈ more, m.who = some (uid, t.tid) ∧ m.pages = movedPages s c a t := by
  induction us generalizing u with
  | nil => exact ⟨[], by simp, h.mem, fun _ hm => absurd hm List.not_mem_nil, fun _ ht => absurd ht List.not_mem_nil⟩
  | cons t us ih =>
    obtain ⟨first, hfirst, hwhat, hsome⟩ := moveStep_adds (s := u) (c := c) (a := a) uid t
    obtain ⟨more, hmore, hmem, hfrom, hall⟩ := ih (h.trans (moveStep_tables (c := c) (a := a) uid t))
    have hpages := h.movedPages c a
    rw [hpages] at hwhat
    refine ⟨first ++ more, by rw [List.foldl_cons, hmore, hfirst, List.append_assoc], hmem, fun m hm => ?_, fun w hw hmoves => ?_⟩
    · rcases List.mem_append.1 hm with hm | hm
      · exact ⟨(hwhat m hm).1, t, List.mem_cons_self, (hwhat m hm).2⟩
      · obtain ⟨hctx, w, hw, hrest⟩ := hfrom m hm
        exact ⟨hctx, w, List.mem_cons_of_mem _ hw, hrest⟩
    · rcases List.mem_cons.1 hw with rfl | hw
      · obtain ⟨m, hm⟩ := List.exists_mem_of_ne_nil _ (hsome ⟨hmoves.1, by rw [hpages]; exact hmoves.2⟩)
        obtain ⟨-, hwho, hmpages, -⟩ := hwhat m hm
        exact ⟨m, List.mem_append_left _ hm, hwho, hmpages⟩
      · obtain ⟨m, hm, hrest⟩ := hall w hw hmoves
        exact ⟨m, List.mem_append_right _ hm, hrest⟩

/-- A thread that is none of them is as it was. -/
theorem foldl_moveStep_other (uid : Nat) (us : List Thread) (u : State) {i : Nat} (hi : i ∉ us.map (·.tid)) :
    getThread (us.foldl (moveStep c a uid) u) uid i = getThread u uid i := by
  induction us generalizing u with
  | nil => rfl
  | cons t us ih =>
    rw [List.map_cons, List.mem_cons, not_or] at hi
    rw [List.foldl_cons, ih _ hi.2, (moveStep_thread uid t i).1 hi.1]

/-- Each thread that moves pages waits for one copy more. -/
theorem foldl_moveStep_thread (uid : Nat) (us : List Thread) {u : State} (h : SameTables s u) (hdistinct : (us.map (·.tid)).Nodup) {w : Thread} (hw : w ∈ us) (hmoves : movesPages s c a w) :
    getThread (us.foldl (moveStep c a uid) u) uid w.tid = (getThread u uid w.tid).map Thread.copying := by
  induction us generalizing u with
  | nil => exact absurd hw List.not_mem_nil
  | cons t us ih =>
    rw [List.map_cons, List.nodup_cons] at hdistinct
    rw [List.foldl_cons]
    rcases List.mem_cons.1 hw with rfl | hw
    · rw [foldl_moveStep_other uid us _ hdistinct.1, (moveStep_thread uid w w.tid).2 ⟨hmoves.1, by rw [h.movedPages]; exact hmoves.2⟩]
    · have hne : w.tid ≠ t.tid := fun heq => hdistinct.1 (heq ▸ List.mem_map.2 ⟨w, hw, rfl⟩)
      rw [ih (h.trans (moveStep_tables uid t)) hdistinct.2 hw, (moveStep_thread uid t w.tid).1 hne]

theorem active_distinct (g : Guard) (h : is.tids.Nodup) : ((active c is g).map (·.tid)).Nodup := by
  refine List.Nodup.sublist ?_ h
  refine (List.filter_sublist.map _).trans ?_
  unfold gangThreads
  induction is.tids with
  | nil => exact .slnil
  | cons i ids ih =>
    rw [List.filterMap_cons]
    split
    · exact ih.cons i
    · next t ht =>
      rw [List.map_cons, thread_tid ht]
      exact ih.cons_cons i

end Sys2Proof.Machine
end

section
/-! PROOFS. The statement on hints, cache control, repartition and migration requests, from the parts (R168, R177 to R179). -/

namespace Sys2Proof.Machine

theorem pref_form {s : State} {is : Issue} {c : Crew} (hi : Issues s is c) (a : Args) :
    ∃ s1 : State, exec (.pref a) s = .next (retire is s1) ∧
      (bitsOf a.m.toNat 7 5 ≠ 2 → s1.mem = s.mem ∧ s1.crews = s.crews ∧ s1.loads = s.loads ∧ s1.stores = s.stores) ∧
      ∀ (t : Thread) (x : TlbEntry), active c is a.guard = [t] → bitsOf a.m.toNat 7 5 = 0 → bitsOf a.m.toNat 3 2 ≠ 3 →
        let va := (effAddr c t a).toNat
        inAperture s c.ctx va = false → va < 2 ^ 56 → heldLeaf s c.ctx c.die c.coreId va = some x → x.leaf.read = true →
        leafEgressOk s x.leaf (va - x.va) = true → x.leaf.busy = false → x.leaf.compressed = false → readWaits s [(x.key va / 64 * 64, 64)] = false → sliceWait s [(x.key va, 1)] = none →
        ∀ j, j < 4 → trueCopy s (.l1 c.coreId) c.ctx (lineSector s (x.key va) j) ∈ s1.lines := by
  refine ⟨_, exec_pref hi a, fun hsub => ?_, fun t x hact hsub hpin hap hva hx hread hegress hbusy hplain hwait hslice j hj => ?_⟩
  · have hwork := foldl_keeps State.work (fun s t => prefLane c (bitsOf a.m.toNat 7 5) (bitsOf a.m.toNat 3 2 == 3) s (effAddr c t a).toNat) (fun s t => prefLane_work hsub ..)
      (active c is a.guard) s
    simpa only [State.work, Prod.mk.injEq] using hwork
  · have hnopin : (bitsOf a.m.toNat 3 2 == 3) = false := by simpa using hpin
    rw [hact, hsub, hnopin, List.foldl_cons, List.foldl_nil, prefLane_fetches hap hva hx hread hegress hbusy hplain hwait hslice]
    exact fetchLine_brings s c (prefPiece (effAddr c t a).toNat x) hj

/-- Settles O31: a prefetch changes caches only, a range form is one filter for each range, and the requests of `cctl.part` and `mig` are read off step by step. -/
theorem hintsAndPlacement : Obligations.HintsAndPlacement := by
  refine ⟨fun s is c a hi => ⟨pref_form hi a, fun hact => ?_, fun hact => ?_, cctlInvL1r_form hi, cctlWbL2r_form hi, cctlInvL2r_form hi, cctlInvRdcr_form hi, cctlUnpin_form hi⟩,
    fun s is c a t ts x hi hact hx => ⟨fun hres hmay hn hnew => ?_, fun hres hmay hn hidle hsame => ?_, fun hres hmay hn => ?_, fun hres => ?_, cctlPart_refused hi hact, ?_, ?_⟩⟩
  · rw [exec_cctlInvL1 hi, if_neg (by simpa using hact)]
  · rw [exec_cctlInvL1 hi, hact]
    rfl
  · obtain ⟨hmem, hissue, hcore, hthreads⟩ := partAsks_waits (a := a) hi (partAsked c t a)
    rw [hact] at hthreads
    refine ⟨_, cctlPart_asks hi hact hres hmay hn hnew, hmem, hissue, ?_, hthreads⟩
    rw [hcore, splitAsked, hact]
    rfl
  · rw [← hact]
    exact cctlPart_stands hi hact hres hmay hn hidle hsame
  · rw [← hact]
    exact cctlPart_above hi hact hres hmay hn
  · rw [← hact]
    exact cctlPart_answered hi hact hres
  · obtain ⟨y, more, hy, hhints, hfrom, hall, hmem, hcrews⟩ := foldl_hintStep (a := a) (t :: ts) hx
    refine ⟨_, y, exec_migHint hi, ?_, ?_, ?_, ⟨more, hhints, hfrom⟩, fun hfits u hu htarget hpages => ?_⟩
    · rw [hact]; exact hmem
    · rw [hact]; exact hcrews
    · rw [hact]; exact hy
    · rw [hhints]
      exact List.mem_append_right _ (hall hfits u hu ⟨htarget, hpages⟩)
  · have hsame : SameTables s s := ⟨rfl, rfl, rfl, rfl, rfl, fun _ => rfl⟩
    obtain ⟨more, hmoves, hmem, hfrom, hall⟩ := foldl_moveStep (c := c) (a := a) is.crew (active c is a.guard) hsame
    refine ⟨_, more, exec_migMove hi, hmem, hmoves, by rw [← hact]; exact hfrom, fun u hu htarget hpages => ⟨?_, fun hdistinct => ?_⟩⟩
    · exact hall u (hact ▸ hu) ⟨htarget, hpages⟩
    · have hu' : u ∈ active c is a.guard := hact ▸ hu
      have hget : getThread s is.crew u.tid = some u := by rw [getThread, hi.crew]; exact (mem_active hu').2
      refine ⟨u.copying, ?_, rfl⟩
      rw [foldl_moveStep_thread is.crew _ hsame (active_distinct a.guard hdistinct) hu' ⟨htarget, hpages⟩, hget]
      rfl

end Sys2Proof.Machine
end

section
/-! PROOFS. Overflow lists, reclaim, and the compressed tier (R187, R195, R197). -/

namespace Sys2Proof.Machine

variable {s : State}

/-! ### The overflow list (R187) -/

/-- The oldest demander of a die's overflow list touches again, for the crew whose lanes it is. -/
theorem exec_waitListOverflowRetry {die uid i : Nat} {w : Waiter} {r : Range} {tids : List Nat} {c : Crew}
    (hw : s.waiters.find? (fun w => w.die == die && w.overflow) = some w) (hblock : w.block = some (r.num, i))
    (hr : (rangesOf s w.ctx).find? (·.num == r.num) = some r) (hwho : w.who = .lanes uid tids) (hc : getCrew s uid = some c) :
    exec (.waitListOverflowRetry die) s = .next ((retouch { s with waiters := s.waiters.erase w } w r i c.toucher).getD s) := by
  show execWaitListOverflowRetry die s = _
  simp only [execWaitListOverflowRetry, hw, hblock, Option.bind_some, hr, Option.map_some, Waiter.toucher, hwho, hc]

section
variable {w : Waiter} {uid i : Nat} {tids : List Nat} {r : Range} {t : Toucher} (hwho : w.who = .lanes uid tids)
include hwho

theorem retouch_of_go (h : touchJudge s t r i = .go) : retouch s w r i t = some (wakeDemander s w none) := by simp only [retouch, hwho, h]

theorem retouch_of_fault {f : TrapInfo} (h : touchJudge s t r i = .fault f) : retouch s w r i t = some (wakeDemander s w (some f)) := by
  simp only [retouch, hwho, h]

/-- Lanes that must wait stand in the block's wait list, unless they would only overflow again. -/
theorem retouch_of_wait (h : touchJudge s t r i = .wait) : retouch s w r i t = none ∨ retouch s w r i t = some (touchWait s t r i w.who) := by
  simp only [retouch, hwho, h]
  split
  · exact .inl rfl
  · exact .inr rfl

end

/-- A demander that waits stands in a list. -/
theorem mem_touchWait (s : State) (t : Toucher) (r : Range) (i : Nat) (who : Demander) :
    ∃ x ∈ (touchWait s t r i who).waiters, x.who = who ∧ x.block = some (r.num, i) := ⟨_, List.mem_append_right _ (List.mem_singleton.2 rfl), rfl, rfl⟩

/-! ### Reclaim (R195) -/

/-- What reclaim does to one block of its page. -/
def reclaimBlock (ctx : Nat) (s : State) (x : Range × Nat) : State :=
  if blockState s ctx x.1 x.2 = stFull then evictBlock s ctx x.1 x.2 else setBlockState s ctx x.1 x.2 stEmpty

/-- The page's blocks go to EMPTY and the leaf's V to 0, and no cached translation of the page is left. -/
def reclaimed (s : State) (ctx va k : Nat) : State :=
  let s1 := (blocksIn s ctx va (2 ^ 21)).foldl (reclaimBlock ctx) s
  let s2 := homeWriteN s1 k 1 ((homeByte s1 k).toNat - 1)
  { s2 with tlb := s2.tlb.filter fun e => !(e.ctx == ctx && e.covers va) }

theorem exec_reclaim {ctx va k : Nat} {l : Leaf} (hleaf : walkTree s ctx va = .leaf l 21 k) (hva : va % 2 ^ 21 = 0) (hbusy : l.busy = false)
    (hmigs : ∀ m ∈ s.migs, ¬ (m.ctx = ctx ∧ m.va = va)) :
    exec (.reclaim ctx va) s = .next (if mayReclaim s ctx va then reclaimed s ctx va k else s) := by
  have hstill : (s.migs.any fun m => m.ctx == ctx && m.va == va) = false := by simpa using hmigs
  show execReclaim ctx va s = _
  simp only [execReclaim, hleaf, hva, hbusy, hstill, decide_true, Bool.not_false, Bool.true_and]
  split <;> rfl

/-- No cached translation of a page is left when those that cover it have gone. -/
theorem covers_of_mem_dropped {es : List TlbEntry} {ctx va : Nat} {e : TlbEntry} (he : e ∈ es.filter fun e => !(e.ctx == ctx && e.covers va)) (hctx : e.ctx = ctx) :
    e.covers va = false := by
  simpa [hctx] using (List.mem_filter.1 he).2

/-! ### The compressed tier (R197) -/

/-- An expanded page: its bytes in the frame, and the leaf that names it. -/
def expanded (s : State) (frame k : Nat) (l : Leaf) (bs : List Byte) : State :=
  homeWriteN (homeWrite s none (((List.range bs.length).zip bs).map fun x => (hbmKey frame + x.1, x.2))) k 8 (leafEntry l false false frame)

theorem exec_quernExpansionDone {ctx va frame log2 k : Nat} {l : Leaf} {bs : List Byte} (hleaf : walkTree s ctx va = .leaf l log2 k) (hcomp : l.compressed = true)
    (hbusy : l.busy = true) (hva : va % 2 ^ 21 = 0) (hframe : frame % 2 ^ 21 = 0) (hlow : frame < 2 ^ 40) (hstack : bitsOf frame 39 36 = bitsOf l.pa 39 36)
    (himage : readImage s l.pa = .good bs) :
    exec (.quernExpansionDone ctx va frame) s = .next (wakeParked { endExpansion (expanded s frame k l bs) ctx va with
      tlb := (expanded s frame k l bs).tlb.filter fun e => !(e.ctx == ctx && e.covers va) } (onPage ctx va (expanded s frame k l bs)) 1 none) := by
  have hfits : ¬ 2 ^ 40 ≤ frame := by omega
  show execQuernExpansionDone ctx va frame s = _
  simp only [execQuernExpansionDone, hleaf, hcomp, hbusy, hva, hframe, hfits, hstack, himage, Bool.and_self, Bool.not_true, bne_self_eq_false, decide_false, Bool.or_self,
    Bool.false_eq_true, if_false]
  rfl

theorem exec_quernExpansionFail {ctx va status log2 k : Nat} {l : Leaf} (hleaf : walkTree s ctx va = .leaf l log2 k) (hcomp : l.compressed = true)
    (hbusy : l.busy = true) (hva : va % 2 ^ 21 = 0) (hstatus : statusFits s l.pa status = true) :
    let f := genFault 0xFFFF 5 status va 0 0 0
    let s1 := homeWriteN s k 8 (leafEntry l true false l.pa)
    let s2 := { endExpansion s1 ctx va (some f) with failed := addFailed s1.failed (bitsOf l.pa 39 38, ctx, va, status) }
    exec (.quernExpansionFail ctx va status) s = .next (wakeParked s2 (onPage ctx va s2) 4 (some f)) := by
  show execQuernExpansionFail ctx va status s = _
  simp only [execQuernExpansionFail, hleaf, hcomp, hbusy, hva, hstatus, Bool.and_self, Bool.not_true, bne_self_eq_false, Bool.or_self, Bool.false_eq_true, if_false]

/-- Where nothing is poisoned no run is. -/
theorem runPoisoned_of_clean (h : anyPoison s = false) (k len : Nat) : runPoisoned s k len = false := by
  simp only [anyPoison, Bool.or_eq_false_iff, Bool.not_eq_false', List.isEmpty_iff] at h
  simp [runPoisoned, h]

/-- Where no page is in motion every byte lies at its key. -/
theorem place_of_no_migs (h : s.migs = []) (k : Nat) : place s k = k := by simp [place, h]

theorem homeWrite_mem_of_no_migs (h : s.migs = []) (src : Option Nat) (ws : List (Nat × Byte)) : (homeWrite s src ws).mem = memPutAll s.mem ws := by
  show memPutAll s.mem (ws.map fun w => (place s w.1, w.2)) = _
  simp only [place_of_no_migs h, List.map_id']

theorem homeWriteN_homeWrite_mem (h : s.migs = []) (src : Option Nat) (ws : List (Nat × Byte)) (k n v : Nat) :
    (homeWriteN (homeWrite s src ws) k n v).mem = memWrite (memPutAll s.mem ws) k n v := by
  rw [← homeWrite_mem_of_no_migs h src ws]
  exact homeWrite_mem_of_no_migs (s := homeWrite s src ws) h none _

/-- A page's image is written, its leaf names it with C = 1, and no copy or translation of the page is left. -/
def recompressed (s : State) (ctx va image k : Nat) (l : Leaf) (img : List Byte) : State :=
  let key := hbmKey l.pa
  let s2 := homeWriteN (homeWrite s none (((List.range img.length).zip img).map fun x => (hbmKey image + x.1, x.2))) k 8 (leafEntry l true false image)
  dropCopies { s2 with
    tlb := s2.tlb.filter fun e => !(e.ctx == ctx && e.covers va)
    dirty := s2.dirty.filter fun a => !(key / 64 ≤ a && a < (key + 2 ^ 21) / 64) } ctx fun x => key ≤ x && x < key + 2 ^ 21

theorem exec_recompression {ctx va image k : Nat} {l : Leaf} (hleaf : walkTree s ctx va = .leaf l 21 k) (hva : va % 2 ^ 21 = 0) (hbusy : l.busy = false)
    (hcomp : l.compressed = false) (hproc : l.proc = false) (hrn : l.rn = false) (himage : image % 2 ^ 21 = 0) (hlow : image < 2 ^ 40) (hne : image ≠ l.pa)
    (hmigs : s.migs = []) (hstores : s.stores = []) (hclean : anyPoison s = false) :
    exec (.recompression ctx va image) s = .next (recompressed s ctx va image k l (pageImage (homeBytes s (hbmKey l.pa) (2 ^ 21)))) := by
  have hfits : ¬ 2 ^ 40 ≤ image := by omega
  have hother : (image == l.pa) = false := by simpa using hne
  show execRecompression ctx va image s = _
  simp only [execRecompression, hleaf, hva, hbusy, hcomp, hproc, hrn, himage, hfits, hother, hmigs, hstores, runPoisoned_of_clean hclean, bne_self_eq_false, decide_false,
    List.any_nil, Bool.or_self, Bool.false_eq_true, if_false]
  rfl

theorem recompressed_mem (hmigs : s.migs = []) (ctx va image k : Nat) (l : Leaf) (img : List Byte) : (recompressed s ctx va image k l img).mem =
    memWrite (memPutAll s.mem (((List.range img.length).zip img).map fun x => (hbmKey image + x.1, x.2))) k 8 (leafEntry l true false image) :=
  homeWriteN_homeWrite_mem hmigs ..

/-- Settles O37: a touch made again by how it is judged, reclaim by whether the page allows it, and each event of the compressed tier by the one branch that its premises leave. -/
theorem overflowAndCompression : Obligations.OverflowAndCompression := by
  unfold Obligations.OverflowAndCompression
  refine ⟨⟨fun s die w r i uid tids c hw hblock hr hwho hc => ?overflow, fun s ctx va l k hleaf hva hbusy hmigs => ?reclaim⟩,
    fun s ctx va frame log2 k l bs hleaf hcomp hbusy hva hframe hlow hstack himage => exec_quernExpansionDone hleaf hcomp hbusy hva hframe hlow hstack himage,
    fun s ctx va status log2 k l hleaf hcomp hbusy hva hstatus => exec_quernExpansionFail hleaf hcomp hbusy hva hstatus,
    fun s ctx va image k l hleaf hva hbusy hcomp hproc hrn himage hlow hne hmigs hstores hclean => ?recompression⟩
  case overflow =>
    intro s0
    have hexec := exec_waitListOverflowRetry hw hblock hr hwho hc
    refine ⟨fun hgo => ?_, fun f hfault => ?_, fun hwait => ?_⟩
    · rw [hexec, retouch_of_go hwho hgo, Option.getD_some]
    · rw [hexec, retouch_of_fault hwho hfault, Option.getD_some]
    · refine ⟨_, hexec, ?_⟩
      rcases retouch_of_wait hwho hwait with hnone | hsome
      · rw [hnone, Option.getD_none]
        exact ⟨w, List.mem_of_find?_eq_some hw, rfl, rfl⟩
      · rw [hsome, Option.getD_some, hblock]
        exact mem_touchWait ..
  case reclaim =>
    intro s1
    have hexec := exec_reclaim hleaf hva hbusy hmigs
    refine ⟨fun hmay => ?_, fun hnot => ?_⟩
    · rw [if_pos hmay] at hexec
      exact ⟨_, hexec, fun e he hctx => covers_of_mem_dropped he hctx, rfl⟩
    · rw [hexec, hnot]
      rfl
  case recompression =>
    intro img
    exact ⟨_, exec_recompression hleaf hva hbusy hcomp hproc hrn himage hlow hne hmigs hstores hclean, fun e he hctx => covers_of_mem_dropped he hctx,
      recompressed_mem hmigs ctx va image k l img⟩

end Sys2Proof.Machine
end

section
/-! PROOFS. The layout of saved images and trap records: runs of bytes at their offsets (R354, R368). -/

namespace Sys2Proof.Machine

/-! ### Bytes at an offset -/

/-- Of pieces of one length, one after another, each stands at its offset. -/
theorem take_drop_flatMap_range {α : Type} {k : Nat} {f : Nat → List α} (hf : ∀ i, (f i).length = k) {n r : Nat} (hr : r < n) (rest : List α) :
    (((List.range n).flatMap f ++ rest).drop (k * r)).take k = f r := by
  induction r generalizing n f with
  | zero =>
    obtain ⟨m, rfl⟩ := Nat.exists_eq_succ_of_ne_zero (Nat.ne_of_gt hr)
    rw [List.range_succ_eq_map, List.flatMap_cons, Nat.mul_zero, List.drop_zero, List.append_assoc, List.take_left' (hf 0)]
  | succ r ih =>
    obtain ⟨m, rfl⟩ := Nat.exists_eq_succ_of_ne_zero (Nat.ne_zero_of_lt hr)
    have hrest := ih (f := fun i => f (i + 1)) (fun i => hf (i + 1)) (Nat.lt_of_succ_lt_succ hr)
    rw [List.range_succ_eq_map, List.flatMap_cons, List.append_assoc, show k * (r + 1) = k + k * r by ring, ← List.drop_drop, List.drop_left' (hf 0), List.flatMap_map]
    exact hrest

/-- The low bytes of a number form its residue. -/
theorem bytesVal_map_range (v n : Nat) : bytesVal ((List.range n).map fun j => BitVec.ofNat 8 (v / 2 ^ (8 * j))) = v % 2 ^ (8 * n) := by
  induction n generalizing v with
  | zero => simp [bytesVal, Nat.mod_one]
  | succ n ih =>
    have hnext : ((List.range n).map fun j => BitVec.ofNat 8 (v / 2 ^ (8 * (j + 1)))) = (List.range n).map fun j => BitVec.ofNat 8 (v / 2 ^ 8 / 2 ^ (8 * j)) :=
      List.map_congr_left fun j _ => by rw [Nat.div_div_eq_div_mul, ← pow_add, show 8 * (j + 1) = 8 + 8 * j by ring]
    have hrest : bytesVal ((List.range n).map fun j => BitVec.ofNat 8 (v / 2 ^ (8 * (j + 1)))) = v / 2 ^ 8 % 2 ^ (8 * n) := by rw [hnext, ih]
    have hcons : bytesVal ((List.range (n + 1)).map fun j => BitVec.ofNat 8 (v / 2 ^ (8 * j))) =
        v % 2 ^ 8 + 2 ^ 8 * bytesVal ((List.range n).map fun j => BitVec.ofNat 8 (v / 2 ^ (8 * (j + 1)))) := by
      rw [List.range_succ_eq_map, List.map_cons, List.map_map]
      simp [bytesVal, Function.comp_def]
    rw [hcons, hrest, show 8 * (n + 1) = 8 + 8 * n by ring, pow_add, Nat.mod_mul]

/-! ### Fields laid over zeros -/

/-- One field ends where another begins, or before. -/
def PutField.Before (f y : PutField) : Prop := f.off + f.len ≤ y.off

/-- A field of a record that none after it overlaps reads back. -/
theorem bytesVal_fieldBytes {len : Nat} {f : PutField} {xs ys : List PutField} (hin : f.off + f.len ≤ len) (hys : ∀ y ∈ ys, f.Before y) :
    bytesVal (((fieldBytes len (xs ++ f :: ys)).drop f.off).take f.len) = f.val % 2 ^ (8 * f.len) := by
  have hbyte : ∀ j < f.len, (fieldBytes len (xs ++ f :: ys))[f.off + j]? = some (BitVec.ofNat 8 (f.val / 2 ^ (8 * j))) := by
    intro j hj
    have hlater : ys.filter (fun y => y.off ≤ f.off + j && f.off + j < y.off + y.len) = [] := List.filter_eq_nil_iff.2 fun y hy => by
      have := hys y hy
      simp only [PutField.Before] at this
      simp only [Bool.and_eq_true, decide_eq_true_eq, not_and]
      omega
    have hcovers : (decide (f.off ≤ f.off + j) && decide (f.off + j < f.off + f.len)) = true := by simpa using hj
    have hlast : ((xs ++ f :: ys).filter fun y => y.off ≤ f.off + j && f.off + j < y.off + y.len).getLast? = some f := by
      simp only [List.filter_append, List.filter_cons, hcovers, hlater, if_true, List.getLast?_concat]
    simp only [fieldBytes, List.getElem?_map, List.getElem?_range (show f.off + j < len by omega), Option.map_some, hlast, Nat.add_sub_cancel_left]
  have hbytes : ((fieldBytes len (xs ++ f :: ys)).drop f.off).take f.len = (List.range f.len).map fun j => BitVec.ofNat 8 (f.val / 2 ^ (8 * j)) := by
    refine List.ext_getElem? fun j => ?_
    by_cases hj : j < f.len
    · rw [List.getElem?_take_of_lt hj, List.getElem?_drop, hbyte j hj, List.getElem?_map, List.getElem?_range hj, Option.map_some]
    · rw [List.getElem?_eq_none (by simp; omega), List.getElem?_eq_none (by simp; omega)]
  rw [hbytes, bytesVal_map_range]

/-- Each of some fields in ascending order reads back, where those that come later lie behind it. -/
theorem bytesVal_fieldBytes_of_mem {len : Nat} {f : PutField} {xs fs ys : List PutField} (hf : f ∈ fs) (hfs : fs.Pairwise PutField.Before)
    (hin : f.off + f.len ≤ len) (hys : ∀ y ∈ ys, f.Before y) :
    bytesVal (((fieldBytes len (xs ++ (fs ++ ys))).drop f.off).take f.len) = f.val % 2 ^ (8 * f.len) := by
  obtain ⟨as, bs, rfl⟩ := List.append_of_mem hf
  have hlater : ∀ y ∈ bs ++ ys, f.Before y := fun y hy => (List.mem_append.1 hy).elim
    (fun hb => (List.pairwise_cons.1 (List.pairwise_append.1 hfs).2.1).1 y hb) (hys y)
  have hread := bytesVal_fieldBytes (xs := xs ++ as) hin hlater
  rwa [List.append_assoc, show as ++ f :: (bs ++ ys) = as ++ f :: bs ++ ys by simp] at hread

/-! ### The trap record (R354) -/

/-- The fields of a record's first 64 bytes. -/
def recordHead (c : Crew) (h : Halt) (seq : Nat) : List PutField :=
  let f := h.trap
  [{ off := 0, len := 2, val := f.code }, { off := 2, len := 2, val := f.sub }, { off := 4, len := 1, val := trapFlags f },
   { off := 5, len := 1, val := f.kind2 }, { off := 6, len := 1, val := 1 }, { off := 7, len := 1, val := 0 }, { off := 8, len := 8, val := h.pc.toNat },
   { off := 16, len := 4, val := c.num.toNat }, { off := 20, len := 2, val := c.hgang (leastOr 0 f.tids) }, { off := 22, len := 2, val := c.coreId },
   { off := 24, len := 8, val := f.lanes }, { off := 32, len := 8, val := gangMask c (if f.exited then f.tids else f.gang) }, { off := 40, len := 8, val := h.vclk.toNat },
   { off := 48, len := 8, val := f.addr.toNat }, { off := 56, len := 8, val := seq }]

/-- DETAIL and EXTRA of a record. -/
def recordDetail (h : Halt) : List PutField :=
  { off := 64, len := 192, val := 0 } :: (h.trap.detail.map (fun d => { d with off := 64 + d.off }) ++ h.trap.extra.map fun d => { d with off := 224 + d.off })

/-- An entry of SKID in a record. -/
def recordStop (c : Crew) (g : Nat) : PutField := { off := 256 + 8 * g, len := 8, val := c.stops.getD g 0 }

def recordStops (c : Crew) : List PutField := (List.range 32).map (recordStop c)

theorem trapRecord_eq (c : Crew) (h : Halt) (n : Nat) : trapRecord c h n = recordHead c h n ++ (recordDetail h ++ recordStops c) := by
  simp [trapRecord, recordHead, recordDetail, recordStops, recordStop]

theorem recordHead_pairwise (c : Crew) (h : Halt) (n : Nat) : (recordHead c h n).Pairwise PutField.Before := by
  simp [recordHead, PutField.Before]

theorem recordHead_end (c : Crew) (h : Halt) (n : Nat) : ∀ f ∈ recordHead c h n, f.off + f.len ≤ 64 := by
  simp [recordHead]

theorem recordDetail_start (h : Halt) : ∀ f ∈ recordDetail h, 64 ≤ f.off := by
  intro f hf
  simp only [recordDetail, List.mem_cons, List.mem_append, List.mem_map] at hf
  rcases hf with rfl | ⟨d, -, rfl⟩ | ⟨d, -, rfl⟩
  · exact Nat.le_refl 64
  · exact Nat.le_add_right 64 d.off
  · exact Nat.le_add_right_of_le (by decide)

theorem recordStops_start (c : Crew) : ∀ f ∈ recordStops c, 256 ≤ f.off := by
  intro f hf
  obtain ⟨g, -, rfl⟩ := List.mem_map.1 hf
  exact Nat.le_add_right 256 (8 * g)

theorem recordStops_pairwise (c : Crew) : (recordStops c).Pairwise PutField.Before := by
  refine List.pairwise_map.2 (List.pairwise_lt_range.imp fun {a b} hab => ?_)
  simp only [PutField.Before, recordStop]
  omega

/-- A field of the first 64 bytes of a trap record reads back. -/
theorem recordHead_reads {c : Crew} {h : Halt} {n : Nat} {f : PutField} (hf : f ∈ recordHead c h n) :
    bytesVal (((fieldBytes 512 (trapRecord c h n)).drop f.off).take f.len) = f.val % 2 ^ (8 * f.len) := by
  have hend := recordHead_end c h n f hf
  rw [trapRecord_eq, ← List.nil_append (recordHead c h n ++ _)]
  refine bytesVal_fieldBytes_of_mem hf (recordHead_pairwise c h n) (by omega) fun y hy => ?_
  have hstart : 64 ≤ y.off := (List.mem_append.1 hy).elim (recordDetail_start h y) fun hs => Nat.le_trans (by decide) (recordStops_start c y hs)
  exact Nat.le_trans hend hstart

/-- An entry of SKID in a trap record reads back. -/
theorem recordStop_reads (c : Crew) (h : Halt) (n : Nat) {g : Nat} (hg : g < 32) :
    bytesVal (((fieldBytes 512 (trapRecord c h n)).drop (256 + 8 * g)).take 8) = c.stops.getD g 0 % 2 ^ 64 := by
  rw [trapRecord_eq, ← List.append_assoc, ← List.append_nil (recordStops c)]
  have hin : 256 + 8 * g + 8 ≤ 512 := by omega
  exact bytesVal_fieldBytes_of_mem (f := recordStop c g) (List.mem_map_of_mem (List.mem_range.2 hg)) (recordStops_pairwise c) hin (by simp)

theorem fieldBytes_length (len : Nat) (fs : List PutField) : (fieldBytes len fs).length = len := by simp [fieldBytes]

/-- What the device's record of a trap says, field by field. -/
theorem trapRecord_reads (c : Crew) (h : Halt) (n : Nat) :
    let bs := fieldBytes 512 (trapRecord c h n)
    let num := fun off len => bytesVal ((bs.drop off).take len)
    bs.length = 512 ∧ num 0 2 = h.trap.code % 2 ^ 16 ∧ num 2 2 = h.trap.sub % 2 ^ 16 ∧ num 6 1 = 1 ∧ num 8 8 = h.pc.toNat ∧ num 16 4 = c.num.toNat ∧ num 22 2 = c.coreId % 2 ^ 16 ∧
      num 24 8 = h.trap.lanes % 2 ^ 64 ∧ num 40 8 = h.vclk.toNat ∧ num 48 8 = h.trap.addr.toNat ∧ num 56 8 = n % 2 ^ 64 ∧
      ∀ g < 32, num (256 + 8 * g) 8 = c.stops.getD g 0 % 2 ^ 64 := by
  intro bs num
  have hread : ∀ f ∈ recordHead c h n, num f.off f.len = f.val % 2 ^ (8 * f.len) := fun f hf => recordHead_reads hf
  simp only [recordHead, List.forall_mem_cons] at hread
  obtain ⟨hcode, hsub, -, -, hstate, -, hpc, hnum, -, hcore, hlanes, -, hvclk, haddr, hseq, -⟩ := hread
  exact ⟨fieldBytes_length .., hcode, hsub, hstate, hpc.trans (Nat.mod_eq_of_lt h.pc.isLt), hnum.trans (Nat.mod_eq_of_lt c.num.isLt), hcore, hlanes,
    hvclk.trans (Nat.mod_eq_of_lt h.vclk.isLt), haddr.trans (Nat.mod_eq_of_lt h.trap.addr.isLt), hseq, fun g hg => recordStop_reads c h n hg⟩

/-! ### Saved images (R368) -/

@[simp] theorem wordLe_length (w : Word) : (wordLe w).length = 4 := rfl

@[simp] theorem openPart_length (kind len : Nat) (ws : List Nat) : (openPart kind len ws).length = len := by simp [openPart]

/-- The registers of a crew's first thread stand behind the header and its control state. -/
theorem crewImage_register (s : State) {c : Crew} {t : Thread} {ts : List Thread} (hts : c.threads = t :: ts) {r : Nat} (hr : r < c.budget (c.hgang t.tid)) :
    ((crewImage s c).drop (8192 + 64 + 4 * r)).take 4 = wordLe (mget 0 t.v r) := by
  simp only [crewImage, hts, List.flatMap_cons, List.append_assoc]
  rw [Nat.add_assoc, ← List.drop_drop, List.drop_left' (openPart_length ..), ← List.drop_drop, List.drop_left' (openPart_length ..)]
  exact take_drop_flatMap_range (fun i => wordLe_length _) hr _

/-- The save of an image leaves every byte of memory at a place where it writes none. -/
theorem saveImage_other (s : State) (c : Crew) {k : Nat} (h : ∀ w ∈ imageWrites s c, place s w.1 ≠ k) : memByte (saveImage s c).mem k = memByte s.mem k :=
  homeWrite_other s none (imageWrites s c) k h

end Sys2Proof.Machine
end

section
/-! PROOFS. From a trap to its handler: the end of the skid, the save, the record and the start of a handler (R190, R352, R356, R358). -/

namespace Sys2Proof.Machine

variable {s : State} {c : Crew} {h : Halt} {x : Context}

/-- The halt of a crew in its phase. -/
theorem haltOf_of_phase {p : HaltPhase → Bool} (hh : c.halt = some h) (hp : p h.phase = true) : haltOf c p = some h := by simp [haltOf, hh, Option.filter, hp]

/-! ### The end of the skid (R352, R190) -/

section
variable (hc : getCrew s c.uid = some c) (hh : c.halt = some h) (hp : h.phase = .skid)
include hc hh hp

theorem exec_skidEnd_runs (hlate : s.cycle < h.since + 12) : exec (.skidEnd c.uid) s = .next s := by
  show execSkidEnd c.uid s = _
  simp only [execSkidEnd, hc, haltOf_of_phase (p := (· == .skid)) hh (beq_iff_eq.2 hp), if_pos hlate]

theorem exec_skidEnd_saves (hend : h.since + 12 ≤ s.cycle) (hkind : ∀ r b d q, c.kind ≠ .gen r b d q) :
    exec (.skidEnd c.uid) s = .next (setPhase (updCrew s c.uid (atItsStop h.skid)) c.uid .saving) := by
  show execSkidEnd c.uid s = _
  simp only [execSkidEnd, hc, haltOf_of_phase (p := (· == .skid)) hh (beq_iff_eq.2 hp), if_neg (Nat.not_lt.2 hend)]

theorem exec_skidEnd_generator (hend : h.since + 12 ≤ s.cycle) {r b d q : Nat} (hkind : c.kind = .gen r b d q) :
    exec (.skidEnd c.uid) s = .next (endGenerator s c h.trap h.pc) := by
  show execSkidEnd c.uid s = _
  simp only [execSkidEnd, hc, haltOf_of_phase (p := (· == .skid)) hh (beq_iff_eq.2 hp), if_neg (Nat.not_lt.2 hend), hkind]

end

/-- Every home gang has stopped, and its place stands in SKID. -/
theorem getCrew_saving (hc : getCrew s c.uid = some c) (hh : c.halt = some h) : getCrew (setPhase (updCrew s c.uid (atItsStop h.skid)) c.uid .saving) c.uid =
    some { c with halt := some { h with phase := .saving }, stops := (List.range 32).map (skidEntry c h.skid) } := by
  have hstop := getCrew_updCrew_same (f := atItsStop h.skid) (fun _ => rfl) hc
  have hphase := getCrew_updCrew_same (f := fun c => { c with halt := c.halt.map fun h => { h with phase := .saving } }) (fun _ => rfl) hstop
  rw [setPhase, hphase]
  simp only [atItsStop, hh, Option.map_some]

/-- A generator that trapped is gone (R190). -/
theorem endGenerator_gone (f : TrapInfo) (pc : Word64) {r b d q : Nat} (hkind : c.kind = .gen r b d q) : ∀ k ∈ (endGenerator s c f pc).crews, k.uid ≠ c.uid := by
  intro k hk
  simp only [endGenerator, hkind] at hk
  rw [(removeCrew_tables _ _).1] at hk
  simpa using (List.mem_filter.1 hk).2

/-! ### The save (R352) -/

/-- What a save keeps of a thread: its registers, predicates and PC. -/
def Thread.saved (t : Thread) : SMap Word × SMap Bool × Word64 := (t.v, t.p, t.pc)

/-- One crew is another but for what a save may change of its threads. -/
def SavedAs (c c' : Crew) : Prop := ∃ f : Thread → Thread, c' = c.mapT f ∧ ∀ t, (f t).saved = t.saved

theorem SavedAs.refl (c : Crew) : SavedAs c c := ⟨id, by simp [Crew.mapT], fun _ => rfl⟩

theorem SavedAs.trans {a b c : Crew} (h : SavedAs a b) (k : SavedAs b c) : SavedAs a c := by
  obtain ⟨f, rfl, hf⟩ := h
  obtain ⟨g, rfl, hg⟩ := k
  exact ⟨g ∘ f, by simp [Crew.mapT], fun t => (hg (f t)).trans (hf t)⟩

theorem SavedAs.threads {c c' : Crew} (h : SavedAs c c') : c'.threads.map Thread.saved = c.threads.map Thread.saved := by
  obtain ⟨f, rfl, hf⟩ := h
  simp [Function.comp_def, hf]

/-- A change of one thread that keeps what a save keeps. -/
theorem getCrew_updT_savedAs {u uid tid : Nat} {f : Thread → Thread} (hf : ∀ t, (f t).saved = t.saved) (hc : getCrew s u = some c) :
    ∃ c', getCrew (updT s uid tid f) u = some c' ∧ SavedAs c c' := by
  have hget := getCrew_updCrew s uid u (fun d => d.upd tid f) fun _ => rfl
  rw [hc, Option.map_some] at hget
  refine ⟨_, hget, ?_⟩
  split
  · refine ⟨_, rfl, fun t => ?_⟩
    split
    · exact hf t
    · rfl
  · exact .refl c

/-- A ring request that is withdrawn leaves of each crew what a save keeps. -/
theorem getCrew_withdrawRing {u : Nat} (r : RingReq) (hc : getCrew s u = some c) : ∃ c', getCrew (withdrawRing s r) u = some c' ∧ SavedAs c c' := by
  obtain ⟨c1, hc1, h1⟩ := getCrew_updT_savedAs (s := { s with rings := s.rings.filter (·.id != r.id) }) (uid := r.crew) (tid := r.tid)
    (f := fun t => { t with cnt := r.op.count (· - 1) t.cnt }) (fun _ => rfl) hc
  obtain ⟨c2, hc2, h2⟩ := getCrew_updT_savedAs (uid := r.crew) (tid := r.tid) (f := fun t => { t with hold := match t.hold with
    | .ring i n d => if i = r.id then .none else .ring i n d
    | h => h }) (fun _ => rfl) hc1
  exact ⟨c2, hc2, h1.trans h2⟩

theorem getCrew_foldl_withdrawRing {u : Nat} (rs : List RingReq) (hc : getCrew s u = some c) : ∃ c', getCrew (rs.foldl withdrawRing s) u = some c' ∧ SavedAs c c' := by
  induction rs generalizing s c with
  | nil => exact ⟨c, hc, .refl c⟩
  | cons r rs ih =>
    obtain ⟨c1, hc1, h1⟩ := getCrew_withdrawRing r hc
    obtain ⟨c2, hc2, h2⟩ := ih hc1
    exact ⟨c2, hc2, h1.trans h2⟩

/-- A crew that leaves its core is away, and keeps what a save keeps. -/
theorem getCrew_leaveCore (hc : getCrew s c.uid = some c) :
    ∃ c' : Crew, getCrew (leaveCore s c.uid) c.uid = some c' ∧ c'.where_ = .away ∧ c'.halt = c.halt ∧ c'.s = c.s ∧ c'.threads.map Thread.saved = c.threads.map Thread.saved := by
  obtain ⟨d, hd, hsaved⟩ := getCrew_foldl_withdrawRing (s.rings.filter fun r => r.crew == c.uid && r.op.waits) hc
  refine ⟨_, getCrew_updCrew_same (fun _ => rfl) (show getCrew (carryNodes _ c.uid (savedTable c.uid)) c.uid = some d from hd), rfl, ?_, ?_, hsaved.threads⟩
  · obtain ⟨f, rfl, -⟩ := hsaved
    rfl
  · obtain ⟨f, rfl, -⟩ := hsaved
    rfl

theorem exec_crewSaveComplete (hc : getCrew s c.uid = some c) (hh : c.halt = some h) (hp : h.phase = .saving) :
    exec (.crewSaveComplete c.uid) s = .next (if crewStill s c then setPhase (leaveCore (saveImage s c) c.uid) c.uid .toPost else s) := by
  show execCrewSaveComplete c.uid s = _
  simp only [execCrewSaveComplete, hc, haltOf_of_phase (p := (· == .saving)) hh (beq_iff_eq.2 hp)]

theorem getCrew_saveImage (hc : getCrew s c.uid = some c) :
    getCrew (saveImage s c) c.uid = some { c with image := (imageBase s c.ctx (imageSize s c)).map fun b => (b, crewImage s c) } :=
  getCrew_updCrew_same (s := { homeWrite s none (imageWrites s c) with freeIdx := s.freeIdx + 1 })
    (f := fun d => { d with image := (imageBase s c.ctx (imageSize s c)).map fun b => (b, crewImage s c) }) (fun _ => rfl) hc

/-- The crew whose save is complete: off its core, with its registers and PCs, and its record is to be written. -/
theorem getCrew_saved (hc : getCrew s c.uid = some c) (hh : c.halt = some h) : ∃ c' : Crew,
    getCrew (setPhase (leaveCore (saveImage s c) c.uid) c.uid .toPost) c.uid = some c' ∧ c'.where_ = .away ∧ c'.halt = some { h with phase := .toPost } ∧ c'.s = c.s ∧
      c'.threads.map Thread.saved = c.threads.map Thread.saved := by
  obtain ⟨d, hd, haway, hhalt, hs, hthreads⟩ := getCrew_leaveCore (s := saveImage s c) (c := { c with image := (imageBase s c.ctx (imageSize s c)).map fun b => (b, crewImage s c) })
    (getCrew_saveImage hc)
  refine ⟨_, getCrew_updCrew_same (fun _ => rfl) hd, haway, ?_, hs, hthreads⟩
  simp only [hhalt, hh, Option.map_some]

/-! ### The record (R356, R358) -/

/-- The entry of TRAPRING that a context's next record takes. -/
def nextRecord (x : Context) : Nat := x.trapNext % max 1 x.trapSlots

/-- The state in which a crew's record is written: the crew's stores have been passed, as a release at device scope leaves them. -/
def recordBase (s : State) (c : Crew) : State := passStores s 2 c.uid (c.threads.map (·.tid))

/-- Whether a crew's record must wait for its stores, for the ring or for the writes that end its run. -/
def recordHeld (s : State) (c : Crew) (x : Context) : Bool :=
  s.stores.any (fun p => p.crew == c.uid && p.holds s 2) || devHeld s x.id (recordVa x (nextRecord x)) 512 || abortHeld s c

/-- The context's ring once a record stands in an entry: TRAPCNT and the next entry. -/
def ringNext (s : State) (x : Context) : State :=
  updCtx s x.id fun y => { y with trapCnt := y.trapCnt + 1, trapNext := (nextRecord x + 1) % max 1 y.trapSlots }

/-- What follows the write of a crew's record: a handler is due, or, where the record could not be written or nobody would handle the trap, its run is aborted. -/
def afterRecord (s : State) (c : Crew) (h : Halt) (x : Context) (seq : Nat) : Option State → State
  | none => abortOf s c { h with seq := seq }
  | some s1 =>
    if decide (x.trapPc = 0) || c.isHandler then abortOf (closeRecord (ringNext s1 x) x (nextRecord x)) c { h with seq := seq }
    else updCrew (ringNext s1 x) c.uid fun c => { c with halt := c.halt.map fun h => { h with phase := .posted (nextRecord x) true, seq := seq } }

/-- A saved crew of a context that runs, whose record is to be written. -/
structure ToPost (s : State) (c : Crew) (h : Halt) (x : Context) : Prop where
  crew : getCrew s c.uid = some c
  halt : c.halt = some h
  phase : h.phase = .toPost
  ctx : getCtx s c.ctx = some x
  on : ctxOff s c.ctx = false

namespace ToPost

variable (hpost : ToPost s c h x)
include hpost

theorem waits (hheld : recordHeld s c x = true) : exec (.trapRecordPost c.uid) s = .next s := by
  simp only [recordHeld, nextRecord, Bool.or_eq_true] at hheld
  show execTrapRecordPost c.uid s = _
  simp only [execTrapRecordPost, hpost.crew, haltOf_of_phase (p := (· == .toPost)) hpost.halt (beq_iff_eq.2 hpost.phase), hpost.ctx, hpost.on, Bool.false_or]
  rw [if_pos (by simpa only [Bool.or_eq_true] using hheld)]

section
variable (hfree : recordHeld s c x = false)
include hfree

/-- A record that cannot be read in its place ends the run. -/
theorem aborts_of_unreadable (hstate : devNum (recordBase s c) x.id (recordVa x (nextRecord x) + 6) 1 = none) :
    exec (.trapRecordPost c.uid) s = .next (abortOf (recordBase s c) c { h with seq := (x.trapCnt + 1).toNat }) := by
  simp only [recordHeld, recordBase, nextRecord] at hfree hstate
  show execTrapRecordPost c.uid s = _
  simp only [execTrapRecordPost, hpost.crew, haltOf_of_phase (p := (· == .toPost)) hpost.halt (beq_iff_eq.2 hpost.phase), hpost.ctx, hpost.on, Bool.false_or, hfree,
    Bool.false_eq_true, if_false, hstate]
  rfl

/-- While the next entry is open the record waits, or its run is aborted where nobody would handle it. -/
theorem of_open (hstate : devNum (recordBase s c) x.id (recordVa x (nextRecord x) + 6) 1 = some 1) :
    exec (.trapRecordPost c.uid) s = .next (if decide (x.trapPc = 0) || c.isHandler then abortOf (recordBase s c) c { h with seq := (x.trapCnt + 1).toNat } else s) := by
  simp only [recordHeld, recordBase, nextRecord] at hfree hstate
  show execTrapRecordPost c.uid s = _
  simp only [execTrapRecordPost, hpost.crew, haltOf_of_phase (p := (· == .toPost)) hpost.halt (beq_iff_eq.2 hpost.phase), hpost.ctx, hpost.on, Bool.false_or, hfree,
    Bool.false_eq_true, if_false, hstate]
  cases decide (x.trapPc = 0) || c.isHandler <;> rfl

/-- A closed entry takes the record. -/
theorem of_closed {v : Nat} (hstate : devNum (recordBase s c) x.id (recordVa x (nextRecord x) + 6) 1 = some v) (hv : v ≠ 1) {r : Option State}
    (hr : devWrite (recordBase s c) x.id (recordVa x (nextRecord x)) (fieldBytes 512 (trapRecord c h (x.trapCnt + 1).toNat)) = r) :
    exec (.trapRecordPost c.uid) s = .next (afterRecord (recordBase s c) c h x (x.trapCnt + 1).toNat r) := by
  simp only [recordHeld, recordBase, nextRecord] at hfree hstate hr
  show execTrapRecordPost c.uid s = _
  simp only [execTrapRecordPost, hpost.crew, haltOf_of_phase (p := (· == .toPost)) hpost.halt (beq_iff_eq.2 hpost.phase), hpost.ctx, hpost.on, Bool.false_or, hfree,
    Bool.false_eq_true, if_false, hstate, hr]
  split
  next hnone => cases hnone
  next hopen _ => exact absurd (Option.some.inj hopen) hv
  next hopen _ => exact absurd (Option.some.inj hopen) hv
  next =>
    cases r with
    | none => rfl
    | some s1 =>
      simp only [afterRecord]
      split <;> rfl

end

end ToPost

/-! ### The handler (R356) -/

/-- A crew's record stands posted in its entry and a handler is due, in a context that runs. -/
structure HandlerDue (s : State) (c : Crew) (h : Halt) (x : Context) (rec_ : Nat) : Prop where
  crew : getCrew s c.uid = some c
  halt : c.halt = some h
  phase : h.phase = .posted rec_ true
  ctx : getCtx s c.ctx = some x
  on : ctxOff s c.ctx = false

/-- The uniform registers of a handler: the address of the record, its index and the number of the trapped crew. -/
def handlerRegs (c : Crew) (x : Context) (rec_ : Nat) : SMap Word := uniformRegs [(0, recordVa x rec_)] [(2, rec_), (3, c.num.toNat)]

/-- The handler of a crew's record as it starts on a core. -/
def handlerCrew (s : State) (c : Crew) (h : Halt) (x : Context) (rec_ core : Nat) : Crew :=
  { uid := s.nextId, kind := .handler rec_ h.seq, ctx := c.ctx, run := c.run, span := c.span, num := 0xFFFFFFFE#32, stage := 0, die := core / 256, core := core % 256
    slot := handlerSlot s c core, gw := 32, regs := 64, regsCopy := 64, regsEpi := 64, nCopy := 0, nEpi := 0, scratch := 4096, tiles := 0, priv := true, strict := c.strict
    threads := newThreads handlerShape x.trapPc, s := handlerRegs c x rec_, nextBound := handlerShape.gangs, since := s.cycle, sawBin := (coreOf s core).mb != 0 }

theorem handlerRegs_read (c : Crew) (x : Context) (rec_ : Nat) :
    mget 0 (handlerRegs c x rec_) 0 = BitVec.ofNat 32 (recordVa x rec_) ∧ mget 0 (handlerRegs c x rec_) 1 = BitVec.ofNat 32 (recordVa x rec_ / 2 ^ 32) ∧
      mget 0 (handlerRegs c x rec_) 2 = BitVec.ofNat 32 rec_ ∧ mget 0 (handlerRegs c x rec_) 3 = c.num := by
  simp [handlerRegs, uniformRegs, groupPut, mget_mput]

theorem handlerCrew_threads (s : State) (c : Crew) (h : Halt) (x : Context) (rec_ core : Nat) :
    (handlerCrew s c h x rec_ core).threads.length = 32 ∧ ∀ t ∈ (handlerCrew s c h x rec_ core).threads, t.pc = x.trapPc ∧ t.live = true := by
  refine ⟨by simp [handlerCrew, newThreads, handlerShape], fun t ht => ?_⟩
  obtain ⟨i, -, rfl⟩ := List.mem_map.1 ht
  exact ⟨rfl, rfl⟩

namespace HandlerDue

variable {rec_ : Nat} (hdue : HandlerDue s c h x rec_)
include hdue

theorem waits (hcore : handlerCore s c = none) : exec (.handlerStart c.uid) s = .next s := by
  show execHandlerStart c.uid s = _
  simp only [execHandlerStart, hdue.crew, hdue.halt, hdue.ctx, hdue.phase, hdue.on, hcore, Bool.false_eq_true, if_false]

/-- The handler starts, and the trapped crew's record needs no other. -/
theorem starts {core : Nat} (hcore : handlerCore s c = some core) : ∃ u, exec (.handlerStart c.uid) s = .next u ∧ u.mem = s.mem ∧
    u.crews = (setPhase s c.uid (.posted rec_ false)).crews ++ [handlerCrew s c h x rec_ core] := by
  refine ⟨acquireOn (startCrew (setPhase s c.uid (.posted rec_ false)) (.handler rec_ h.seq) c.ctx c.run c.span 0xFFFFFFFE#32 0 core (handlerSlot s c core)
    handlerShape true c.strict x.trapPc (handlerRegs c x rec_)) core 2, ?_, ?_, ?_⟩
  · show execHandlerStart c.uid s = _
    simp only [execHandlerStart, hdue.crew, hdue.halt, hdue.ctx, hdue.phase, hdue.on, hcore, Bool.false_eq_true, if_false]
    rfl
  · rw [(acquireOn_spec _ core 2).1]
    rfl
  · rw [acquireOn_crews]
    rfl

end HandlerDue

/-- Settles O53: each event by the halt's phase and what its premises leave open; the record and the image by the offsets of their parts. -/
theorem trapsReachHandlers : Obligations.TrapsReachHandlers := by
  unfold Obligations.TrapsReachHandlers
  refine ⟨⟨fun s c h hc hh hp => ⟨exec_skidEnd_runs hc hh hp, fun hend => ⟨fun hkind => ?stops, fun r b d q hkind => ?gone⟩⟩,
    fun s c h hc hh hp => ⟨fun hbusy => ?busy, fun hstill => ?saved⟩,
    fun s c k => ⟨saveImage_other s c, fun t ts r hts hr => crewImage_register s hts hr⟩,
    fun s c h x hc hh hp hx hon => ?record, trapRecord_reads⟩, fun s c h x rec_ hc hh hp hx hon => ?handler⟩
  case stops =>
    refine ⟨_, _, exec_skidEnd_saves hc hh hp hend hkind, rfl, getCrew_saving hc hh, rfl, fun g hg => ?_⟩
    rw [List.getElem?_map, List.getElem?_range hg, Option.map_some]
  case gone => exact ⟨_, exec_skidEnd_generator hc hh hp hend hkind, endGenerator_gone h.trap h.pc hkind⟩
  case busy =>
    rw [exec_crewSaveComplete hc hh hp, hbusy]
    rfl
  case saved =>
    obtain ⟨c', hc', haway, hhalt, hs, hthreads⟩ := getCrew_saved hc hh
    have hpart : ∀ {α : Type} (π : SMap Word × SMap Bool × Word64 → α), c'.threads.map (fun t => π t.saved) = c.threads.map fun t => π t.saved := fun π => by
      have hparts := congrArg (List.map π) hthreads
      rw [List.map_map, List.map_map] at hparts
      exact hparts
    have hexec := exec_crewSaveComplete hc hh hp
    rw [if_pos hstill] at hexec
    exact ⟨_, c', hexec, leaveCore_mem .., hc', haway, hhalt, hs, hpart (·.1), hpart (·.2.1), hpart (·.2.2)⟩
  case record =>
    have hpost : ToPost s c h x := ⟨hc, hh, hp, hx, hon⟩
    intro i va n bs s0 Gives Aborts
    refine ⟨fun hheld => hpost.waits ?_, fun hstores hring hend => ?_⟩
    · simp only [recordHeld, Bool.or_eq_true, List.any_eq_true, Bool.and_eq_true, beq_iff_eq]
      exact (or_assoc).2 hheld
    · have hfree : recordHeld s c x = false := by
        have hpassed : (s.stores.any fun p => p.crew == c.uid && p.holds s 2) = false := by simpa using hstores
        simp only [recordHeld, hpassed, hend, Bool.false_or, Bool.or_false]
        exact hring
      have hends : (decide (x.trapPc = 0) || c.isHandler) = true ↔ x.trapPc = 0 ∨ c.isHandler = true := by simp
      have hgoes : x.trapPc ≠ 0 → c.isHandler = false → (decide (x.trapPc = 0) || c.isHandler) = false := fun hpc hno => by rw [decide_eq_false hpc, hno]; rfl
      refine ⟨hpost.aborts_of_unreadable hfree, fun hopen => ⟨fun hpc hno => ?_, fun hnobody => ?_⟩, fun v hstate hv => ⟨hpost.of_closed hfree hstate hv, fun s1 hw => ?_⟩⟩
      · exact (hpost.of_open hfree hopen).trans (by rw [hgoes hpc hno]; rfl)
      · exact (hpost.of_open hfree hopen).trans (by rw [if_pos (hends.2 hnobody)]; rfl)
      · have hwritten := hpost.of_closed hfree hstate hv hw
        refine ⟨fun hpc hno => ?_, fun hnobody => ?_⟩
        · exact hwritten.trans (by rw [afterRecord, hgoes hpc hno]; rfl)
        · exact hwritten.trans (by rw [afterRecord, if_pos (hends.2 hnobody)]; rfl)
  case handler =>
    have hdue : HandlerDue s c h x rec_ := ⟨hc, hh, hp, hx, hon⟩
    refine ⟨hdue.waits, fun core hcore => ?_⟩
    obtain ⟨u, hexec, hmem, hcrews⟩ := hdue.starts hcore
    obtain ⟨hlen, hthreads⟩ := handlerCrew_threads s c h x rec_ core
    exact ⟨u, _, hexec, hmem, hcrews, rfl, rfl, rfl, rfl, rfl, rfl, rfl, Nat.div_add_mod core 256, hlen, hthreads, handlerRegs_read c x rec_⟩

end Sys2Proof.Machine
end

section
/-! PROOFS. `pstat`, `pevict` and `ppin`: what one lane and every gang does (R195, R196, R200, R201). -/

namespace Sys2Proof.Machine

variable {s : State} {is : Issue} {c : Crew} {a : Args}

/-! ### The loads of an instruction -/

/-- A load of a value is on its way for a thread. -/
def LoadsWord (u : State) (uid tid : Nat) (d : Opnd) (n v : Nat) : Prop := ∃ p ∈ u.loads, p.crew = uid ∧ p.tid = tid ∧ (p.vdst, p.sdst) = dstWords d n v

theorem loadsWord_issueLoad (s : State) (uid tid : Nat) (d : Opnd) (n v : Nat) : LoadsWord (issueLoad s uid tid d n v none []) uid tid d n v := by
  obtain ⟨-, -, p, hloads, hcrew, htid, -, hv, hs⟩ := issueLoad_spec s uid tid d n v none [] 0 false
  exact ⟨p, hloads ▸ List.mem_append_right _ (List.mem_singleton_self p), hcrew, htid, by rw [hv, hs]⟩

/-- Loads that become one batch keep what they write. -/
theorem LoadsWord.onceS {u : State} {uid tid n v : Nat} {d : Opnd} (h : LoadsWord u uid tid d n v) (k : Nat) : LoadsWord (onceS k u) uid tid d n v := by
  obtain ⟨p, hp, hof⟩ := h
  rw [← List.take_append_drop k u.loads, List.mem_append] at hp
  rcases hp with hp | hp
  · exact ⟨p, List.mem_append_left _ hp, hof⟩
  · exact ⟨_, List.mem_append_right _ (List.mem_map_of_mem hp), hof⟩

/-- A load issued by an instruction stays on its way when the gang moves on. -/
theorem LoadsWord.retire {u : State} {uid tid n v : Nat} {d : Opnd} (h : LoadsWord u uid tid d n v) (is : Issue) (k : Nat) :
    LoadsWord (retire is (Machine.onceS k u)) uid tid d n v := h.onceS k

theorem onceS_loads_length (k : Nat) (u : State) : (onceS k u).loads.length = u.loads.length := by
  show (u.loads.take k ++ (u.loads.drop k).map _).length = _
  rw [List.length_append, List.length_map, ← List.length_append, List.take_append_drop]

theorem issueLoad_loads_length (s : State) (uid tid : Nat) (d : Opnd) (n v : Nat) : (issueLoad s uid tid d n v none []).loads.length = s.loads.length + 1 := by
  obtain ⟨-, -, p, hloads, -⟩ := issueLoad_spec s uid tid d n v none [] 0 false
  rw [hloads, List.length_append, List.length_singleton]

theorem foldl_issueLoad_length (uid n : Nat) (d : Opnd) (v : State → Thread → Nat) (ts : List Thread) (s : State) :
    (ts.foldl (fun s t => issueLoad s uid t.tid d n (v s t) none []) s).loads.length = s.loads.length + ts.length := by
  induction ts generalizing s with
  | nil => rfl
  | cons t ts ih => rw [List.foldl_cons, ih, issueLoad_loads_length, List.length_cons, Nat.add_assoc, Nat.add_comm 1]

theorem foldl_issueLoad_mem (uid n : Nat) (d : Opnd) (v : State → Thread → Nat) (ts : List Thread) (s : State) :
    (ts.foldl (fun s t => issueLoad s uid t.tid d n (v s t) none []) s).mem = s.mem :=
  foldl_keeps State.mem (fun s t => issueLoad s uid t.tid d n (v s t) none []) (fun _ _ => rfl) ts s

/-! ### `pstat` (R200) -/

/-- What `pstat` does for one lane: a load of its word, or a walk on which its thread parks. -/
def pstatLane (a : Args) (uid : Nat) (c : Crew) (s : State) (l : Thread × Nat × Option Nat) : State := match l.2.2 with
  | some v => issueLoad s uid l.1.tid a.d 1 v none []
  | none => parkWalk s c l.1.tid l.2.1

/-- The lanes of a `pstat`, each with its address and the word that answers it. -/
def pstatLanes (s : State) (c : Crew) (a : Args) (ts : List Thread) : List (Thread × Nat × Option Nat) :=
  ts.map fun t => (t, rd c t a.a 2, pstatWord s c (rd c t a.a 2))

theorem exec_pstat (hi : Issues s is c) : exec (.pstat a) s =
    .next (retireSome is (is.tids.filter fun i => !((active c is a.guard).map (·.tid)).contains i ||
        (((pstatLanes s c a (active c is a.guard)).filter (·.2.2.isSome)).map (·.1.tid)).contains i)
      (onceS s.loads.length ((pstatLanes s c a (active c is a.guard)).foldl (pstatLane a is.crew c) s))) := by
  rw [show exec (.pstat a) s = execPstat a s from rfl, execPstat, gangDo_issues hi]
  rfl

/-- Where no address of an active thread needs a walk, each active thread has one load and the whole gang moves on. -/
theorem exec_pstat_all (hi : Issues s is c) (hall : ∀ t ∈ active c is a.guard, (pstatWord s c (rd c t a.a 2)).isSome = true) : exec (.pstat a) s =
    .next (retire is (onceS s.loads.length ((active c is a.guard).foldl
      (fun u t => issueLoad u is.crew t.tid a.d 1 ((pstatWord s c (rd c t a.a 2)).getD 0) none []) s))) := by
  have hgo : (pstatLanes s c a (active c is a.guard)).filter (·.2.2.isSome) = pstatLanes s c a (active c is a.guard) :=
    List.filter_eq_self.2 (List.forall_mem_map.2 hall)
  have hmoved : (is.tids.filter fun i => !((active c is a.guard).map (·.tid)).contains i || ((pstatLanes s c a (active c is a.guard)).map (·.1.tid)).contains i) = is.tids := by
    rw [pstatLanes, List.map_map]
    exact List.filter_eq_self.2 fun i _ => Bool.not_or_self _
  have hlanes : (pstatLanes s c a (active c is a.guard)).foldl (pstatLane a is.crew c) s = (active c is a.guard).foldl
      (fun u t => issueLoad u is.crew t.tid a.d 1 ((pstatWord s c (rd c t a.a 2)).getD 0) none []) s := by
    rw [pstatLanes, List.foldl_map]
    refine List.foldl_ext _ _ _ fun u t ht => ?_
    obtain ⟨v, hv⟩ := Option.isSome_iff_exists.1 (hall t ht)
    rw [pstatLane, hv, Option.getD_some]
  rw [exec_pstat hi, hgo, hmoved, hlanes]
  rfl

/-- The number of the walk on which a thread of a crew would park. -/
def walkId (s : State) (c : Crew) (va : Nat) : Nat := (startWalk s c.ctx c.die c.coreId va false).2

/-- A crew one of whose threads parks. -/
def parkedCrew (p : Park) (tid : Nat) (c : Crew) : Crew := (endBindings c [tid]).mapT fun t => if [tid].contains t.tid then { t with hold := .parked p } else t

theorem parkedCrew_settled (p : Park) (tid : Nat) (c : Crew) : Settled c (parkedCrew p tid c) :=
  (endBindings_settled c _).trans (.mapT _ _ fun t => by split <;> rfl)

theorem parkedCrew_holds (p : Park) (tid : Nat) (c : Crew) : HoldsAs tid (.parked p) (parkedCrew p tid c) := by
  refine List.forall_mem_map.2 fun t _ => ?_
  split
  · exact fun _ => rfl
  next hnot => exact fun htid => absurd (by simp [htid]) hnot

theorem startWalk_keeps (s : State) (ctx die core va : Nat) (quiet : Bool) :
    (startWalk s ctx die core va quiet).1.crews = s.crews ∧ (startWalk s ctx die core va quiet).1.loads = s.loads := by
  unfold startWalk
  split <;> exact ⟨rfl, rfl⟩

theorem getCrew_parkWalk {tid va : Nat} (hc : getCrew s c.uid = some c) : getCrew (parkWalk s c tid va) c.uid = some (parkedCrew (.walk (walkId s c va) va) tid c) := by
  have hstarted : getCrew (startWalk s c.ctx c.die c.coreId va false).1 c.uid = some c := by
    rw [getCrew, (startWalk_keeps ..).1]
    exact hc
  exact getCrew_updCrew_same (f := parkedCrew (.walk (walkId s c va) va) tid) (fun _ => rfl) hstarted

theorem parkWalk_loads (s : State) (c : Crew) (tid va : Nat) : (parkWalk s c tid va).loads = s.loads := (startWalk_keeps ..).2

/-- A parked thread stays at its word, parked, when others of its gang move on. -/
theorem thread_moveTo_parked {p : Park} {t : Thread} {moved : List Nat} (ht : c.thread t.tid = some t) (hstays : t.tid ∉ moved) (target : Nat → Word64) :
    ∃ t', (moveTo moved target (parkedCrew p t.tid c)).thread t.tid = some t' ∧ t'.hold = .parked p ∧ t'.pc = t.pc := by
  obtain ⟨t1, ht1, hsettled⟩ := (parkedCrew_settled p t.tid c).thread t.tid ht
  obtain ⟨-, f, hthreads, hf⟩ := moveTo_spec moved target (parkedCrew p t.tid c)
  have hfind : (moveTo moved target (parkedCrew p t.tid c)).thread t.tid = some (f t1) := by
    have hid : ∀ x, (f x).tid = x.tid := fun x => by
      have htid := settled_tid (hf x)
      exact htid
    unfold Crew.thread at ht1 ⊢
    rw [hthreads, find?_map_of_key _ f Thread.tid t.tid hid, ht1, Option.map_some]
  refine ⟨f t1, hfind, ?_, ?_⟩
  · exact (parkedCrew_holds p t.tid c).moveTo (fun _ => nofun) hstays target _ (List.mem_of_find?_eq_some hfind) (thread_tid hfind)
  · have hpc := congrArg Thread.pc (hf t1)
    have hsame := congrArg Thread.pc hsettled
    have htid : t1.tid = t.tid := thread_tid ht1
    simp only [Thread.settled, htid, List.contains_iff_mem, if_neg hstays] at hpc hsame
    exact hpc.trans hsame

/-- The one active thread of a `pstat` whose answer needs a walk is parked on it. -/
theorem exec_pstat_parks {t : Thread} (hi : Issues s is c) (hact : active c is a.guard = [t]) (hword : pstatWord s c (rd c t a.a 2) = none) :
    ∃ u c' t' id, exec (.pstat a) s = .next u ∧ u.loads = s.loads ∧ getCrew u is.crew = some c' ∧ c'.thread t.tid = some t' ∧
      t'.hold = .parked (.walk id (rd c t a.a 2)) ∧ t'.pc = t.pc := by
  obtain ⟨-, ht⟩ := mem_active (g := a.guard) (hact ▸ List.mem_singleton_self t)
  have huid : c.uid = is.crew := getCrew_uid hi.crew
  have hexec := exec_pstat (a := a) hi
  simp only [hact, pstatLanes, List.map_cons, List.map_nil, hword, List.foldl_cons, List.foldl_nil, pstatLane] at hexec
  generalize hmoved : (is.tids.filter _) = moved at hexec
  have hstays : t.tid ∉ moved := by
    rw [← hmoved, List.mem_filter]
    simp
  have hcrew := getCrew_parkWalk (tid := t.tid) (va := rd c t a.a 2) (huid ▸ hi.crew)
  obtain ⟨t', ht', hhold, hpc⟩ := thread_moveTo_parked (p := .walk (walkId s c (rd c t a.a 2)) (rd c t a.a 2)) ht hstays fun _ => is.pc + 8
  obtain ⟨batch, honce⟩ := onceS_loads (s := s) (t := parkWalk s c t.tid (rd c t a.a 2)) (new := []) (by rw [parkWalk_loads, List.append_nil])
  refine ⟨_, _, t', _, hexec, ?_, getCrew_updCrew_same (moveTo_uid _ _) (huid ▸ hcrew), ht', hhold, hpc⟩
  show (onceS s.loads.length (parkWalk s c t.tid (rd c t a.a 2))).loads = s.loads
  rw [honce]
  exact List.append_nil _

/-! ### `pstat.fault` (R200) -/

/-- The last-fault word of a range, or RANGE 0xFFFF. -/
def faultWord (s : State) (ctx n : Nat) : Nat := ((rangesOf s ctx).find? (·.num == n)).elim 0xFFFF (·.lastFault)

theorem exec_pstatFault (hi : Issues s is c) : exec (.pstatFault a) s = .next (retire is (onceS s.loads.length ((active c is a.guard).foldl
    (fun u t => issueLoad u is.crew t.tid a.d 4 (faultWord u c.ctx (rd c t a.a 1)) none []) s))) := by
  have hword : ∀ u n, faultWord u c.ctx n = match (rangesOf u c.ctx).find? (·.num == n) with
      | some r => r.lastFault
      | none => 0xFFFF := fun u n => by
    unfold faultWord
    cases (rangesOf u c.ctx).find? (·.num == n) <;> rfl
  rw [show exec (.pstatFault a) s = execPstatFault a s from rfl, execPstatFault, gangDo_issues hi]
  simp only [hword]
  rfl

/-! ### What acts on blocks (R195, R196, R201) -/

/-- At most memory, its lines and the free values differ. -/
def MapsAlone (s u : State) : Prop := ∃ m ls ds i, u = { s with mem := m, lines := ls, dirty := ds, freeIdx := i }

theorem MapsAlone.refl (s : State) : MapsAlone s s := ⟨s.mem, s.lines, s.dirty, s.freeIdx, rfl⟩

theorem MapsAlone.trans {s t u : State} (h : MapsAlone s t) (k : MapsAlone t u) : MapsAlone s u := by
  obtain ⟨m, ls, ds, i, rfl⟩ := h
  obtain ⟨m', ls', ds', i', rfl⟩ := k
  exact ⟨m', ls', ds', i', rfl⟩

theorem setMapField_mapsAlone (s : State) (ctx va lo n v : Nat) : MapsAlone s (setMapField s ctx va lo n v) := by
  unfold setMapField
  split
  · exact ⟨_, _, s.dirty, s.freeIdx, rfl⟩
  · exact .refl s

theorem dropBlock_mapsAlone (s : State) (ctx : Nat) (r : Range) (i : Nat) : MapsAlone s (dropBlock s ctx r i) := by
  unfold dropBlock
  split
  · exact ⟨s.mem, _, s.dirty, s.freeIdx, rfl⟩
  · exact .refl s

theorem loseDirty_mapsAlone (s : State) (ctx : Nat) (r : Range) (i : Nat) : MapsAlone s (loseDirty s ctx r i) := by
  unfold loseDirty
  split
  · exact .refl s
  · exact ⟨_, s.lines, _, _, rfl⟩

theorem evictOne_mapsAlone (s : State) (ctx : Nat) (r : Range) (i : Nat) : MapsAlone s (evictOne s ctx r i).1 := by
  have hevict : MapsAlone s (evictBlock s ctx r i) := ((dropBlock_mapsAlone s ctx r i).trans (loseDirty_mapsAlone ..)).trans (setMapField_mapsAlone ..)
  have hset : MapsAlone s (setBlockState s ctx r i stEmpty) := setMapField_mapsAlone ..
  unfold evictOne
  dsimp only
  split
  · split
    · exact .refl s
    · exact hevict
  · split
    · exact hset
    · exact .refl s

theorem countBlocks_mapsAlone {f : State → Range → Nat → State × Bool} (hf : ∀ s r i, MapsAlone s (f s r i).1) (s : State) (xs : List (Range × Nat)) :
    MapsAlone s (countBlocks f s xs).1 := by
  have hfold : ∀ acc : State × Nat, MapsAlone acc.1 (xs.foldl (fun acc x => ((f acc.1 x.1 x.2).1, acc.2 + (f acc.1 x.1 x.2).2.toNat)) acc).1 := by
    induction xs with
    | nil => exact fun acc => .refl acc.1
    | cons x xs ih => exact fun acc => (hf acc.1 x.1 x.2).trans (ih _)
  exact hfold (s, 0)

/-- The failed pages of a context that a run of addresses overlaps. -/
def failedIn (ctx va len : Nat) (f : Nat × Nat × Nat × Nat) : Bool := f.2.1 == ctx && 0 < len && runsMeet va len f.2.2.1 (2 ^ 21)

/-- What `pevict` does for one lane: its blocks, then its failed pages. -/
def evictRun (s : State) (c : Crew) (va len : Nat) : State × Nat :=
  let r := countBlocks (fun s r i => evictOne s c.ctx r i) s (blocksIn s c.ctx va len)
  ({ r.1 with failed := r.1.failed.filter fun f => !failedIn c.ctx va len f },
    r.2 + (((r.1.failed.filter (failedIn c.ctx va len)).map fun f => f.2.2.1).eraseDups).length)

/-- What `ppin` does for one lane. -/
def pinRun (b : Bool) (s : State) (c : Crew) (va len : Nat) : State × Nat := countBlocks (pinOne c.ctx b) s (blocksIn s c.ctx va len)

theorem pinRun_mapsAlone (b : Bool) (s : State) (c : Crew) (va len : Nat) : MapsAlone s (pinRun b s c va len).1 :=
  countBlocks_mapsAlone (fun _ _ _ => setMapField_mapsAlone ..) ..

/-- The acts of a lane leave the loads and stores that are on their way. -/
def KeepsRequests (f : State → Crew → Nat → Nat → State × Nat) : Prop :=
  ∀ s c va len, (f s c va len).1.loads = s.loads ∧ (f s c va len).1.stores = s.stores

theorem keepsRequests_pinRun (b : Bool) : KeepsRequests (pinRun b) := fun s c va len => by
  obtain ⟨m, ls, ds, i, h⟩ := pinRun_mapsAlone b s c va len
  rw [h]
  exact ⟨rfl, rfl⟩

theorem evictRun_blocks_mapsAlone (s : State) (c : Crew) (va len : Nat) :
    MapsAlone s (countBlocks (fun s r i => evictOne s c.ctx r i) s (blocksIn s c.ctx va len)).1 :=
  countBlocks_mapsAlone (fun s r i => evictOne_mapsAlone s c.ctx r i) ..

theorem keepsRequests_evictRun : KeepsRequests evictRun := fun s c va len => by
  obtain ⟨m, ls, ds, i, h⟩ := evictRun_blocks_mapsAlone s c va len
  rw [evictRun, h]
  exact ⟨rfl, rfl⟩

/-- Where no page has failed, `pevict` counts its blocks alone. -/
theorem evictRun_count (h : s.failed = []) (c : Crew) (va len : Nat) :
    (evictRun s c va len).2 = (countBlocks (fun s r i => evictOne s c.ctx r i) s (blocksIn s c.ctx va len)).2 := by
  obtain ⟨m, ls, ds, i, hblocks⟩ := evictRun_blocks_mapsAlone s c va len
  have hfailed : (countBlocks (fun s r i => evictOne s c.ctx r i) s (blocksIn s c.ctx va len)).1.failed = [] := by
    rw [hblocks]
    exact h
  simp [evictRun, hfailed]

/-- One lane of an instruction that acts on blocks: the act, its counted request, and the load of the count where D is given. -/
def blockLane (a : Args) (uid : Nat) (c : Crew) (f : State → Crew → Nat → Nat → State × Nat) (s : State) (t : Thread) : State :=
  let r := f s c (rd c t a.a 2) (rd c t a.b 1)
  if a.d = .none then issueAck r.1 c t else issueLoad (issueAck r.1 c t) uid t.tid a.d 1 r.2 none []

theorem exec_onBlocks (hi : Issues s is c) (f : State → Crew → Nat → Nat → State × Nat) :
    onBlocks a s f = .next (retire is (onceS s.loads.length ((active c is a.guard).foldl (blockLane a is.crew c f) s))) := by
  have hlane : (fun (u : State) t => match a.d with
      | .none => issueAck (f u c (rd c t a.a 2) (rd c t a.b 1)).1 c t
      | d => issueLoad (issueAck (f u c (rd c t a.a 2) (rd c t a.b 1)).1 c t) is.crew t.tid d 1 (f u c (rd c t a.a 2) (rd c t a.b 1)).2 none []) =
      blockLane a is.crew c f := by
    funext u t
    unfold blockLane
    cases a.d <;> rfl
  rw [← hlane, onBlocks, gangDo_issues hi]
  rfl

theorem exec_ppinPin (hi : Issues s is c) :
    exec (.ppinPin a) s = .next (retire is (onceS s.loads.length ((active c is a.guard).foldl (blockLane a is.crew c (pinRun true)) s))) := by
  rw [← exec_onBlocks hi (pinRun true)]
  rfl

theorem exec_ppinUnpin (hi : Issues s is c) :
    exec (.ppinUnpin a) s = .next (retire is (onceS s.loads.length ((active c is a.guard).foldl (blockLane a is.crew c (pinRun false)) s))) := by
  rw [← exec_onBlocks hi (pinRun false)]
  rfl

theorem exec_pevict (hi : Issues s is c) :
    exec (.pevict a) s = .next (retire is (onceS s.loads.length ((active c is a.guard).foldl (blockLane a is.crew c evictRun) s))) := by
  rw [← exec_onBlocks hi evictRun]
  rfl

/-- A lane's counted request is on its way, and the load of its count where D is given. -/
theorem blockLane_requests (a : Args) (uid : Nat) (c : Crew) (f : State → Crew → Nat → Nat → State × Nat) (s : State) (t : Thread) :
    (blockLane a uid c f s t).mem = (f s c (rd c t a.a 2) (rd c t a.b 1)).1.mem ∧
    (blockLane a uid c f s t).contexts = (f s c (rd c t a.a 2) (rd c t a.b 1)).1.contexts ∧
    (∃ p ∈ (blockLane a uid c f s t).stores, p.crew = c.uid ∧ p.tid = t.tid ∧ p.performed = true) ∧
    (a.d ≠ .none → LoadsWord (blockLane a uid c f s t) uid t.tid a.d 1 (f s c (rd c t a.a 2) (rd c t a.b 1)).2) := by
  unfold blockLane
  dsimp only
  split
  next hd => exact ⟨rfl, rfl, ⟨_, List.mem_append_right _ (List.mem_singleton_self _), rfl, rfl, rfl⟩, fun hne => absurd hd hne⟩
  next => exact ⟨rfl, rfl, ⟨_, List.mem_append_right _ (List.mem_singleton_self _), rfl, rfl, rfl⟩, fun _ => loadsWord_issueLoad ..⟩

theorem blockLane_lengths {f : State → Crew → Nat → Nat → State × Nat} (hf : KeepsRequests f) (uid : Nat) (c : Crew) (s : State) (t : Thread) :
    (blockLane a uid c f s t).stores.length = s.stores.length + 1 ∧ (blockLane a uid c f s t).loads.length = s.loads.length + (if a.d = .none then 0 else 1) := by
  obtain ⟨hloads, hstores⟩ := hf s c (rd c t a.a 2) (rd c t a.b 1)
  have hack := issueAck_stores_length (f s c (rd c t a.a 2) (rd c t a.b 1)).1 c t
  rw [hstores] at hack
  unfold blockLane
  dsimp only
  split
  · exact ⟨hack, congrArg List.length hloads⟩
  · refine ⟨hack, (issueLoad_loads_length ..).trans (congrArg (· + 1) ?_)⟩
    exact congrArg List.length hloads

/-- One counted request for each active thread, and one load for each where D is given. -/
theorem foldl_blockLane_lengths {f : State → Crew → Nat → Nat → State × Nat} (hf : KeepsRequests f) (uid : Nat) (c : Crew) (ts : List Thread) (s : State) :
    (ts.foldl (blockLane a uid c f) s).stores.length = s.stores.length + ts.length ∧
      (ts.foldl (blockLane a uid c f) s).loads.length = s.loads.length + (if a.d = .none then 0 else ts.length) := by
  induction ts generalizing s with
  | nil => simp
  | cons t ts ih =>
    obtain ⟨hstores, hloads⟩ := blockLane_lengths (a := a) hf uid c s t
    obtain ⟨hstores', hloads'⟩ := ih (blockLane a uid c f s t)
    rw [List.foldl_cons, hstores', hloads', hstores, hloads, List.length_cons]
    refine ⟨by omega, ?_⟩
    split <;> omega

/-! ### As O36 says it -/

/-- What one lane that acts on blocks leaves. -/
theorem onBlocks_acts {f : State → Crew → Nat → Nat → State × Nat} {i : Instr} {t : Thread} {r : State × Nat} (hi : Issues s is c) (hact : active c is a.guard = [t])
    (hexec : exec i s = .next (retire is (onceS s.loads.length ((active c is a.guard).foldl (blockLane a is.crew c f) s))))
    (hmem : (f s c (rd c t a.a 2) (rd c t a.b 1)).1.mem = r.1.mem) (hcontexts : (f s c (rd c t a.a 2) (rd c t a.b 1)).1.contexts = r.1.contexts)
    (hcount : (f s c (rd c t a.a 2) (rd c t a.b 1)).2 = r.2) : ∃ u : State, exec i s = .next u ∧ u.mem = r.1.mem ∧ u.contexts = r.1.contexts ∧
      (∃ p ∈ u.stores, p.crew = is.crew ∧ p.tid = t.tid ∧ p.performed = true) ∧ (a.d ≠ .none → LoadsWord u is.crew t.tid a.d 1 r.2) := by
  obtain ⟨hm, hx, ⟨p, hp, hcrew, hof⟩, hload⟩ := blockLane_requests a is.crew c f s t
  rw [hact, List.foldl_cons, List.foldl_nil] at hexec
  exact ⟨_, hexec, hm.trans hmem, hx.trans hcontexts, ⟨p, hp, hcrew.trans (getCrew_uid hi.crew), hof⟩, fun hd => hcount ▸ (hload hd).retire is _⟩

/-- What every gang that acts on blocks leaves. -/
theorem onBlocks_counted {f : State → Crew → Nat → Nat → State × Nat} (hf : KeepsRequests f) {i : Instr}
    (hexec : exec i s = .next (retire is (onceS s.loads.length ((active c is a.guard).foldl (blockLane a is.crew c f) s)))) :
    ∃ s1 : State, exec i s = .next (retire is s1) ∧ s1.stores.length = s.stores.length + (active c is a.guard).length ∧
      s1.loads.length = s.loads.length + (if a.d = .none then 0 else (active c is a.guard).length) := by
  obtain ⟨hstores, hloads⟩ := foldl_blockLane_lengths (a := a) hf is.crew c (active c is a.guard) s
  exact ⟨_, hexec, hstores, (onceS_loads_length ..).trans hloads⟩

end Sys2Proof.Machine
end

section
/-! PROOFS. Generators: the slot they take, the end of a fill, stepping aside and return; and O36 (R188, R189, R191, R366). -/

namespace Sys2Proof.Machine

variable {s : State} {c : Crew}

/-! ### The record that a slot takes (R188) -/

theorem firstRecord_eq_none {gs : List GenRec} (h : firstRecord gs = none) : gs = [] := by
  cases gs with
  | nil => rfl
  | cons g gs =>
    rw [firstRecord] at h
    split at h
    · cases h
    · split at h <;> cases h

/-- The deepest record, and of these the oldest. -/
theorem firstRecord_splits {gs : List GenRec} {g : GenRec} (h : firstRecord gs = some g) :
    ∃ older newer, gs = older ++ g :: newer ∧ (∀ h ∈ older, h.depth < g.depth) ∧ ∀ h ∈ newer, h.depth ≤ g.depth := by
  induction gs generalizing g with
  | nil => cases h
  | cons first gs ih =>
    rw [firstRecord] at h
    split at h
    next hnone =>
      obtain rfl := Option.some.inj h
      rw [firstRecord_eq_none hnone]
      exact ⟨[], [], rfl, nofun, nofun⟩
    next best hbest =>
      obtain ⟨older, newer, rfl, holder, hnewer⟩ := ih hbest
      split at h
      next hdeeper =>
        obtain rfl := Option.some.inj h
        exact ⟨first :: older, newer, rfl, List.forall_mem_cons.2 ⟨hdeeper, holder⟩, hnewer⟩
      next hnot =>
        obtain rfl := Option.some.inj h
        have hbound : best.depth ≤ first.depth := Nat.le_of_not_lt hnot
        refine ⟨[], older ++ best :: newer, rfl, nofun, fun r hr => ?_⟩
        rcases List.mem_append.1 hr with hr | hr
        · exact (holder r hr).le.trans hbound
        · rcases List.mem_cons.1 hr with rfl | hr
          · exact hbound
          · exact (hnewer r hr).trans hbound

theorem exec_generatorSlotTake {die core : Nat} {g : GenRec} {r : Range} (haside : ∀ c ∈ s.crews, ¬ (asideReady s die c = true ∧ (restoreCore s c).isSome = true))
    (hfirst : firstRecord (waitingRecords s die) = some g) (hcore : recordCore s g = some core) (hrange : (rangesOf s g.ctx).find? (·.num == g.range) = some r) :
    exec (.generatorSlotTake die) s = .next (startGenerator { s with genQueue := s.genQueue.erase g } g r core) := by
  have hnone : (s.crews.any fun c => asideReady s die c && (restoreCore s c).isSome) = false := by
    rw [List.any_eq_false]
    exact fun c hc h => haside c hc (Bool.and_eq_true_iff.1 h)
  show execGeneratorSlotTake die s = _
  simp only [execGeneratorSlotTake, hnone, hfirst, hcore, hrange, Bool.false_eq_true, if_false]

/-! ### Stepping aside and return (R191, R366) -/

/-- Whether a generator crew has waited on Sluice lists for more than 256 of its cycles. -/
def waitedLong (c : Crew) : Bool := match c.sluiceSince with
  | some n => 256 < c.vclk.toNat - n
  | none => false

/-- Whether a record deeper than a crew waits for a slot of its die. -/
def deeperWaits (s : State) (c : Crew) : Bool := (waitingRecords s c.die).any fun g => c.depth < g.depth && (recordCore s g).isNone

theorem exec_generatorStepAside {uid : Nat} (hc : getCrew s uid = some c) :
    exec (.generatorStepAside uid) s = .next (if c.isGen && mayTake s c && waitedLong c && deeperWaits s c then beginTaking s uid none else s) := by
  show execGeneratorStepAside uid s = _
  simp only [execGeneratorStepAside, hc]
  exact (apply_ite _ _ _ _).symm

theorem waitedLong_of_since {n : Nat} (h : c.sluiceSince = some n) : waitedLong c = decide (n + 256 < c.vclk.toNat) := by
  rw [waitedLong, h]
  exact decide_eq_decide.2 ⟨fun h => by omega, fun h => by omega⟩

theorem deeperWaits_of_mem {g : GenRec} (hg : g ∈ waitingRecords s c.die) (hdepth : c.depth < g.depth) (hcore : recordCore s g = none) : deeperWaits s c = true :=
  List.any_eq_true.2 ⟨g, hg, by simp [hdepth, hcore]⟩

theorem deeperWaits_eq_false (h : ∀ g ∈ waitingRecords s c.die, g.depth ≤ c.depth) : deeperWaits s c = false :=
  List.any_eq_false.2 fun g hg => by simp [h g hg]

theorem exec_generatorRestore {uid core : Nat} (hc : getCrew s uid = some c) (hready : asideReady s c.die c = true) (hcore : restoreCore s c = some core) :
    exec (.generatorRestore uid) s = .next (bringBack s uid core) := by
  show execGeneratorRestore uid s = _
  simp only [execGeneratorRestore, hc, hready, hcore]

/-! ### When a fill is complete (R189) -/

/-- What a thread issued before its arrival is acknowledged. -/
def SettledBefore (s : State) (uid : Nat) (t : Thread) (mark : Nat) : Prop :=
  (∀ p ∈ s.stores, p.crew = uid → p.tid = t.tid → mark ≤ p.id) ∧ (∀ p ∈ s.flume, p.crew = uid → p.tid = t.tid → mark ≤ p.id) ∧
  (∀ p ∈ s.tileReqs, p.crew = uid → t.tid ∈ p.tids → p.id < mark → p.phase = .complete ∨ p.phase = .faulted) ∧
  (∀ p ∈ s.colls, p.crew = uid → p.tid = t.tid → mark ≤ p.id) ∧ (∀ p ∈ s.querns, p.crew = uid → p.tid = t.tid → mark ≤ p.id)

theorem fillSettled_iff (uid : Nat) (t : Thread) : fillSettled s uid t = true ↔ SettledBefore s uid t (t.pfillAt.getD s.nextId) := by
  simp [fillSettled, SettledBefore, and_assoc, or_iff_not_imp_left]

/-- The crew's fill is complete. -/
def FillDone (s : State) (c : Crew) : Prop :=
  (∀ t ∈ c.threads, t.live = true → t.pfillAt ≠ none) ∧ (∃ t ∈ c.threads, t.pfillAt ≠ none) ∧
    ∀ t ∈ c.threads, SettledBefore s c.uid t (t.pfillAt.getD s.nextId)

theorem fillComplete_iff : fillComplete s c = true ↔ FillDone s c := by
  simp only [fillComplete, FillDone, Bool.and_eq_true, List.all_eq_true, List.any_eq_true, fillSettled_iff, and_assoc, Bool.or_eq_true, Bool.not_eq_true',
    Option.isSome_iff_ne_none]
  refine and_congr_left' (forall₂_congr fun t _ => ?_)
  cases t.live <;> simp

/-! ### The byte of a block's state (R183) -/

/-- A two-bit field of a number replaced. -/
theorem replaceField_eq (x lo v : Nat) (hv : v < 4) :
    x - bitsOf x (lo + 2 - 1) lo * 2 ^ lo + v % 2 ^ 2 * 2 ^ lo = 2 ^ lo * (2 ^ 2 * (x / 2 ^ lo / 4) + v) + x % 2 ^ lo := by
  have hfield : bitsOf x (lo + 2 - 1) lo = x / 2 ^ lo % 4 := by
    rw [bitsOf_eq_div_mod]
    congr 1
    rw [show lo + 2 - 1 + 1 - lo = 2 by omega]
    rfl
  have hx := Nat.div_add_mod x (2 ^ lo)
  have hq := Nat.div_add_mod (x / 2 ^ lo) 4
  rw [hfield, Nat.mod_eq_of_lt (show v < 2 ^ 2 from hv)]
  generalize hp : 2 ^ lo = p at *
  generalize hr : x % p = r at *
  generalize x / p = q at *
  generalize hm : q % 4 = m at *
  generalize q / 4 = d at *
  subst hq hx
  have h1 : p * (4 * d + m) = p * 4 * d + p * m := by ring
  have h2 : m * p = p * m := Nat.mul_comm ..
  have h3 : p * (2 ^ 2 * d + v) = p * 4 * d + v * p := by ring
  omega

theorem testBit_replaceField (x lo v : Nat) (hv : v < 4) (j : Nat) :
    (x - bitsOf x (lo + 2 - 1) lo * 2 ^ lo + v % 2 ^ 2 * 2 ^ lo).testBit j = if j < lo then x.testBit j else if j < lo + 2 then v.testBit (j - lo) else x.testBit j := by
  have hlow : x % 2 ^ lo < 2 ^ lo := Nat.mod_lt _ (by positivity)
  rw [replaceField_eq x lo v hv, Nat.testBit_two_pow_mul_add _ hlow, Nat.testBit_two_pow_mul_add _ (show v < 2 ^ 2 from hv), Nat.testBit_mod_two_pow]
  rcases Nat.lt_or_ge j lo with h | h
  · simp [h]
  · rw [if_neg h.not_gt, if_neg h.not_gt]
    refine if_ctx_congr (by omega) (fun _ => rfl) fun h2 => ?_
    rw [show x / 2 ^ lo / 4 = x / 2 ^ (lo + 2) from (Nat.div_div_eq_div_mul ..).trans (by rw [pow_add]; rfl), Nat.testBit_div_two_pow]
    congr 1
    omega

/-- A byte of block states with one of them replaced. -/
def stateByte (x m v : Nat) : Byte := BitVec.ofNat 8 (x - bitsOf x (2 * m + 2 - 1) (2 * m) * 2 ^ (2 * m) + v % 2 ^ 2 * 2 ^ (2 * m))

theorem testBit_stateByte (x : Byte) {m v j : Nat} (hv : v < 4) (hj : j / 2 ≠ m) : (stateByte x.toNat m v).toNat.testBit j = x.toNat.testBit j := by
  have hbyte : 8 ≤ j → x.toNat.testBit j = false := fun h => Nat.testBit_lt_two_pow (x.isLt.trans_le (Nat.pow_le_pow_right (by decide) h))
  rw [stateByte, BitVec.toNat_ofNat, Nat.testBit_mod_two_pow, testBit_replaceField _ _ _ hv]
  rcases Nat.lt_or_ge j 8 with h8 | h8
  · rw [decide_eq_true h8, Bool.true_and]
    split
    · rfl
    · rw [if_neg (by omega)]
  · rw [decide_eq_false h8.not_gt, Bool.false_and, hbyte h8]

theorem bitsOf_stateByte (x m v : Nat) (hm : m < 4) (hv : v < 4) : bitsOf (stateByte x m v).toNat (2 * m + 1) (2 * m) = v := by
  rw [stateByte, replaceField_eq x (2 * m) v hv, BitVec.toNat_ofNat, bitsOf_eq_div_mod]
  have hfour : m = 0 ∨ m = 1 ∨ m = 2 ∨ m = 3 := by omega
  rcases hfour with rfl | rfl | rfl | rfl <;> simp <;> omega

theorem setBlockState_mem {ctx i k : Nat} {r : Range} (hk : mapKey s ctx (r.map + i / 4) = some k) (v : Nat) :
    (setBlockState s ctx r i v).mem = memPut s.mem (place s k) (stateByte (homeByte s k).toNat (i % 4) v) := by
  rw [setBlockState, setMapField, hk]
  rfl

/-- A block whose state is not EMPTY has its byte mapped. -/
theorem mapKey_of_blockState {ctx i : Nat} {r : Range} (h : blockState s ctx r i ≠ stEmpty) : ∃ k, mapKey s ctx (r.map + i / 4) = some k := by
  rw [blockState, mapField] at h
  split at h
  next k hk => exact ⟨k, hk⟩
  next => exact absurd rfl h

/-! ### FILLING to FULL (R189) -/

theorem any_rangesOf (s : State) (ctx : Nat) (p : Range → Bool) : ((getCtx s ctx).any fun x => x.ranges.any p) = (rangesOf s ctx).any p := by
  unfold rangesOf
  cases getCtx s ctx <;> rfl

theorem stillFills_eq {r b d i : Nat} (hkind : c.kind = .gen r b d i) :
    stillFills s c = (!c.fillOver && (rangesOf s c.ctx).any fun q => q.num == r && blockState s c.ctx q b == stFilling) := by
  rw [← any_rangesOf, stillFills, hkind]

theorem stillFills_of_filling {r b d i : Nat} {q : Range} (hkind : c.kind = .gen r b d i) (hover : c.fillOver = false)
    (hq : (rangesOf s c.ctx).find? (·.num == r) = some q) (hstate : blockState s c.ctx q b = stFilling) : stillFills s c = true := by
  have hnum : (q.num == r) = true := List.find?_some (p := fun q : Range => q.num == r) hq
  rw [stillFills_eq hkind, hover, Bool.not_false, Bool.true_and]
  exact List.any_eq_true.2 ⟨q, List.mem_of_find?_eq_some hq, by rw [hnum, hstate]; rfl⟩

theorem stillFills_eq_false {r b d i : Nat} (hkind : c.kind = .gen r b d i)
    (h : c.fillOver = true ∨ ∀ q ∈ rangesOf s c.ctx, q.num = r → blockState s c.ctx q b ≠ stFilling) : stillFills s c = false := by
  rw [stillFills_eq hkind]
  rcases h with hover | hnone
  · rw [hover]
    rfl
  · refine Bool.and_eq_false_iff.2 (.inr (List.any_eq_false.2 fun q hq => ?_))
    simpa using hnone q hq

/-- A generator's block reads FULL, its copies gone, and its generators fill it no more. -/
def filled (s : State) (c : Crew) (q : Range) (r b : Nat) : State := endFill (setBlockState (dropBlock s c.ctx q b) c.ctx q b stFull) c.ctx r b

theorem exec_blockFull {uid r b d i : Nat} {q : Range} (hc : getCrew s uid = some c) (hkind : c.kind = .gen r b d i)
    (hq : (rangesOf s c.ctx).find? (·.num == r) = some q) :
    exec (.blockFull uid) s = .next (if fillComplete s c && stillFills s c then wakeBlock (filled s c q r b) c.ctx (r, b) none else s) := by
  have hgen : c.isGen = true := by rw [Crew.isGen, hkind]
  show execBlockFull uid s = _
  simp only [execBlockFull, hc, hgen, Bool.true_and, fillBlock, hkind, hq]
  cases fillComplete s c <;> rfl

theorem dropBlock_tables (s : State) (ctx : Nat) (r : Range) (i : Nat) : SameTables s (dropBlock s ctx r i) := by
  unfold dropBlock
  split <;> exact ⟨rfl, rfl, rfl, rfl, rfl, fun _ => rfl⟩

theorem SameTables.mapKey {s u : State} (h : SameTables s u) (ctx va : Nat) : mapKey u ctx va = mapKey s ctx va := by
  rw [Machine.mapKey, Machine.mapKey, h.walkTree]

theorem filled_mem {q : Range} {r b k : Nat} (hk : mapKey s c.ctx (q.map + b / 4) = some k) :
    (filled s c q r b).mem = memPut s.mem (place s k) (stateByte (memByte s.mem (place s k)).toNat (b % 4) stFull) := by
  have htables := dropBlock_tables s c.ctx q b
  refine (setBlockState_mem ((htables.mapKey ..).trans hk) stFull).trans ?_
  rw [htables.homeByte, htables.mem, place_congr htables.migs]
  rfl

theorem fullState_mapsAlone (s : State) (ctx : Nat) (q : Range) (b : Nat) : MapsAlone s (setBlockState (dropBlock s ctx q b) ctx q b stFull) :=
  (dropBlock_mapsAlone s ctx q b).trans (setMapField_mapsAlone ..)

theorem filled_waiters (s : State) (c : Crew) (q : Range) (r b : Nat) : (filled s c q r b).waiters = s.waiters := by
  obtain ⟨m, ls, ds, i, h⟩ := fullState_mapsAlone s c.ctx q b
  rw [show (filled s c q r b).waiters = (setBlockState (dropBlock s c.ctx q b) c.ctx q b stFull).waiters from rfl, h]

theorem setBlockState_lines {ctx i v : Nat} {r : Range} {l : CacheLine} (hl : l ∈ (setBlockState s ctx r i v).lines) : l ∈ s.lines := by
  rw [setBlockState, setMapField] at hl
  split at hl
  · exact (List.mem_filter.1 hl).1
  · exact hl

/-- No L1 of the context and no other cache keeps a line of the block. -/
theorem inBlock_of_filled {q : Range} {r b key : Nat} (hkey : mapKey s c.ctx (q.blockVa b) = some key) {l : CacheLine} (hl : l ∈ (filled s c q r b).lines)
    (hctx : ∀ core, l.kind = .l1 core → l.ctx = c.ctx) : inBlock s key (16 * l.sector) = false := by
  have hkept : l ∈ (dropBlock s c.ctx q b).lines := setBlockState_lines hl
  rw [dropBlock, hkey] at hkept
  have hgone := (List.mem_filter.1 hkept).2
  cases hkind : l.kind with
  | l1 core => simpa [hkind, hctx core hkind] using hgone
  | rdc | sampler | node | past => simpa [hkind] using hgone

theorem getCrew_filled {uid r b d i : Nat} {q : Range} (hc : getCrew s uid = some c) (hkind : c.kind = .gen r b d i) :
    getCrew (filled s c q r b) uid = some { c with fillOver := true } := by
  obtain ⟨m, ls, ds, n, h⟩ := fullState_mapsAlone s c.ctx q b
  have hcrews : (setBlockState (dropBlock s c.ctx q b) c.ctx q b stFull).crews = s.crews := by rw [h]
  show (List.map _ (setBlockState (dropBlock s c.ctx q b) c.ctx q b stFull).crews).find? _ = _
  rw [hcrews, find?_map_of_key s.crews _ Crew.uid uid ?_, show s.crews.find? (fun c => c.uid == uid) = some c from hc, Option.map_some, hkind]
  · simp
  · intro x
    split
    · split <;> rfl
    · rfl

/-- Settles O36: the instructions by their lanes' loads and counted requests, each generator event by the one branch that its premises leave, and a fill's end by the byte, the lines and the crew it leaves. -/
theorem blocksAndGenerators : Obligations.BlocksAndGenerators := by
  unfold Obligations.BlocksAndGenerators
  refine ⟨fun s is c a t hi hact => ?lane, fun s is c a hi => ?gang,
    fun s die g core r haside hfirst hcore hrange => exec_generatorSlotTake haside hfirst hcore hrange, fun gs g hfirst => firstRecord_splits hfirst,
    fun s uid r b d i c q hc hkind hq => ?full, fun s uid n c g hc hgen hmay hsince hg hdepth hcore => ?aside, fun s uid c hc hnot => ?stays,
    fun s uid core c hc hready hcore => exec_generatorRestore hc hready hcore⟩
  case lane =>
    intro va len Loads Acts
    refine ⟨fun v hv => ?_, fun hnone => ?_, ?_, ?_, ?_, fun hfailed => ?_⟩
    · have hexec := exec_pstat_all hi fun u hu => by
        rw [hact, List.mem_singleton] at hu
        rw [hu, hv]
        rfl
      rw [hact, List.foldl_cons, List.foldl_nil, hv, Option.getD_some] at hexec
      exact ⟨_, hexec, rfl, (loadsWord_issueLoad ..).retire is _⟩
    · exact exec_pstat_parks hi hact hnone
    · have hexec := exec_pstatFault (a := a) hi
      rw [hact, List.foldl_cons, List.foldl_nil] at hexec
      exact ⟨_, hexec, rfl, (loadsWord_issueLoad ..).retire is _⟩
    · exact onBlocks_acts (r := pinRun true s c va len) hi hact (exec_ppinPin hi) rfl rfl rfl
    · exact onBlocks_acts (r := pinRun false s c va len) hi hact (exec_ppinUnpin hi) rfl rfl rfl
    · exact onBlocks_acts (r := countBlocks (fun s r i => evictOne s c.ctx r i) s (blocksIn s c.ctx va len)) hi hact (exec_pevict hi) rfl rfl (evictRun_count hfailed c va len)
  case gang =>
    intro act Counted
    refine ⟨⟨_, exec_pstatFault hi, ?_, ?_⟩, fun hall => ⟨_, exec_pstat_all hi hall, ?_, ?_⟩, onBlocks_counted (keepsRequests_pinRun true) (exec_ppinPin hi),
      onBlocks_counted (keepsRequests_pinRun false) (exec_ppinUnpin hi), onBlocks_counted keepsRequests_evictRun (exec_pevict hi)⟩
    · exact foldl_issueLoad_mem is.crew 4 a.d (fun u t => faultWord u c.ctx (rd c t a.a 1)) _ s
    · exact (onceS_loads_length ..).trans (foldl_issueLoad_length is.crew 4 a.d (fun u t => faultWord u c.ctx (rd c t a.a 1)) _ s)
    · exact foldl_issueLoad_mem is.crew 1 a.d (fun _ t => (pstatWord s c (rd c t a.a 2)).getD 0) _ s
    · exact (onceS_loads_length ..).trans (foldl_issueLoad_length is.crew 1 a.d (fun _ t => (pstatWord s c (rd c t a.a 2)).getD 0) _ s)
  case full =>
    intro Over Filled
    have hexec := exec_blockFull hc hkind hq
    have hfill : fillComplete s c = true ↔ Filled := fillComplete_iff
    refine ⟨fun hnot => ?_, fun hdone hover hstate => ?_⟩
    · rw [hexec, if_neg]
      rw [Bool.and_eq_true, hfill]
      rintro ⟨hdone, hstill⟩
      rw [stillFills_eq_false hkind (hnot.resolve_left (not_not_intro hdone))] at hstill
      cases hstill
    · rw [hfill.2 hdone, stillFills_of_filling hkind hover hq hstate, Bool.and_self, if_pos rfl] at hexec
      obtain ⟨k, hk⟩ := mapKey_of_blockState (s := s) (ctx := c.ctx) (r := q) (i := b) (by rw [hstate]; decide)
      refine ⟨_, k, hexec, hk, filled_waiters .., ?_, fun j hj => ?_, fun j hj => ?_, fun key hkey l hl hctx => inBlock_of_filled hkey hl hctx,
        _, getCrew_filled hc hkind, rfl⟩
      all_goals rw [filled_mem hk, memByte_memPut]
      · rw [if_pos rfl]
        exact bitsOf_stateByte _ _ _ (Nat.mod_lt _ (by decide)) (by decide)
      · rw [if_pos rfl]
        exact testBit_stateByte _ (by decide) hj
      · exact if_neg hj
  case aside =>
    rw [exec_generatorStepAside hc, hgen, hmay, waitedLong_of_since hsince, deeperWaits_of_mem hg hdepth hcore]
    simp
  case stays =>
    rw [exec_generatorStepAside hc, if_neg]
    rcases hnot with hmay | hsince | hdepth
    · simp [hmay]
    · simp [waitedLong, hsince]
    · simp [deeperWaits_eq_false hdepth]

end Sys2Proof.Machine
end

section
/-! PROOFS. Ordinary reads where nothing is on its way: caches that hold what memory holds (R165, R169, R171). -/

namespace Sys2Proof.Machine

variable {s : State} {c : Crew}

/-! ### Caches that hold what memory holds -/

/-- At most cached lines and free values differ. -/
def LinesAlone (s u : State) : Prop := ∃ ls i, u = { s with lines := ls, freeIdx := i }

theorem LinesAlone.refl (s : State) : LinesAlone s s := ⟨s.lines, s.freeIdx, rfl⟩

theorem LinesAlone.trans {s t u : State} (h : LinesAlone s t) (k : LinesAlone t u) : LinesAlone s u := by
  obtain ⟨ls, i, rfl⟩ := h
  obtain ⟨ls', i', rfl⟩ := k
  exact ⟨ls', i', rfl⟩

theorem LinesAlone.tables {u : State} (h : LinesAlone s u) : SameTables s u := by
  obtain ⟨ls, i, rfl⟩ := h
  exact ⟨rfl, rfl, rfl, rfl, rfl, fun _ => rfl⟩

/-- Every cached sector reads as memory does. -/
def LinesTrue (s : State) : Prop := ∀ l ∈ s.lines, l.bytes = sectorBytes s l.sector

/-- A way to a sector that gives it as it lies in memory and leaves every cached sector so. -/
def GivesSector (sec : Nat) (r : State → State × List Byte) : Prop :=
  ∀ s, LinesTrue s → LinesAlone s (r s).1 ∧ LinesTrue (r s).1 ∧ (r s).2 = sectorBytes s sec

theorem sector_of_isCopy {l : CacheLine} {kind : CacheKind} {ctx sec : Nat} (h : l.isCopy kind ctx sec = true) : l.sector = sec := by
  simp only [CacheLine.isCopy, Bool.and_eq_true, beq_iff_eq] at h
  exact h.1.2

theorem LinesAlone.sectorBytes {u : State} (h : LinesAlone s u) (sec : Nat) : sectorBytes u sec = sectorBytes s sec := by
  obtain ⟨ls, i, rfl⟩ := h
  rfl

/-- A state in which a cache has taken in a sector as it came. -/
def taken (kind : CacheKind) (ctx sec : Nat) (r : State × List Byte) : State :=
  { r.1 with lines := r.1.lines.filter (fun l => !l.isCopy kind ctx sec) ++ [{ kind := kind, ctx := ctx, sector := sec, bytes := r.2 }] }

/-- A cache gives its copy, or takes in the sector as it comes. -/
theorem throughCache_cases (kind : CacheKind) (ctx sec : Nat) (fetch : State → State × List Byte) (s : State) :
    (∃ l, s.lines.find? (fun l => l.isCopy kind ctx sec) = some l ∧ throughCache kind ctx sec fetch s = ({ s with freeIdx := s.freeIdx + 1 }, l.bytes)) ∨
      ∃ i, throughCache kind ctx sec fetch s = (taken kind ctx sec (fetch { s with freeIdx := i }), (fetch { s with freeIdx := i }).2) := by
  unfold throughCache
  dsimp only
  split
  next l hl =>
    split
    · exact .inl ⟨l, hl, rfl⟩
    · exact .inr ⟨s.freeIdx + 1, rfl⟩
  next => exact .inr ⟨s.freeIdx, rfl⟩

/-- A cache that takes in a sector as it lies in memory still holds what memory holds. -/
theorem taken_true {kind : CacheKind} {ctx sec : Nat} {fetch : State → State × List Byte} (hfetch : GivesSector sec fetch) (h : LinesTrue s) :
    LinesAlone s (taken kind ctx sec (fetch s)) ∧ LinesTrue (taken kind ctx sec (fetch s)) := by
  obtain ⟨halone, htrue, hbytes⟩ := hfetch s h
  refine ⟨halone.trans ⟨_, _, rfl⟩, fun l hl => ?_⟩
  rcases List.mem_append.1 hl with hl | hl
  · exact htrue l (List.mem_filter.1 hl).1
  · obtain rfl := List.mem_singleton.1 hl
    exact hbytes.trans (halone.sectorBytes sec).symm

theorem givesSector_throughCache {sec : Nat} {fetch : State → State × List Byte} (hfetch : GivesSector sec fetch) (kind : CacheKind) (ctx : Nat) :
    GivesSector sec (throughCache kind ctx sec fetch) := by
  intro s h
  rcases throughCache_cases kind ctx sec fetch s with ⟨l, hfound, heq⟩ | ⟨i, heq⟩ <;> rw [heq]
  · have hcopy : l.isCopy kind ctx sec = true := List.find?_some (p := fun l : CacheLine => l.isCopy kind ctx sec) hfound
    refine ⟨⟨_, _, rfl⟩, h, ?_⟩
    rw [h l (List.mem_of_find?_eq_some hfound), sector_of_isCopy hcopy]
  · have hcount : LinesAlone s { s with freeIdx := i } := ⟨_, _, rfl⟩
    obtain ⟨halone, htrue⟩ := taken_true (kind := kind) (ctx := ctx) hfetch (s := { s with freeIdx := i }) h
    exact ⟨hcount.trans halone, htrue, (hfetch { s with freeIdx := i } h).2.2⟩

theorem givesSector_home (sec : Nat) : GivesSector sec fun s => (s, sectorBytes s sec) := fun s h => ⟨.refl s, h, rfl⟩

theorem givesSector_beyondL1 (c : Crew) (p : Piece) (sec : Nat) : GivesSector sec (beyondL1 c p sec) := fun s h => by
  unfold beyondL1
  split
  · exact givesSector_throughCache (givesSector_home sec) _ _ s h
  · exact givesSector_home sec s h

theorem givesSector_ordinary (c : Crew) (nol1 : Bool) (p : Piece) (sec : Nat) : GivesSector sec fun s => ordinarySector c nol1 p s sec := fun s h => by
  unfold ordinarySector
  split
  · exact givesSector_beyondL1 c p sec s h
  · exact givesSector_throughCache (givesSector_beyondL1 c p sec) _ _ s h

theorem ordinarySectors_true (c : Crew) (nol1 : Bool) (p : Piece) (secs : List Nat) (h : LinesTrue s) :
    LinesAlone s (ordinarySectors c nol1 p s secs).1 ∧ LinesTrue (ordinarySectors c nol1 p s secs).1 ∧
      (ordinarySectors c nol1 p s secs).2 = secs.flatMap (sectorBytes s) := by
  induction secs generalizing s with
  | nil => exact ⟨.refl s, h, rfl⟩
  | cons sec secs ih =>
    obtain ⟨halone, htrue, hbytes⟩ := givesSector_ordinary c nol1 p sec s h
    obtain ⟨halone', htrue', hbytes'⟩ := ih htrue
    refine ⟨halone.trans halone', htrue', ?_⟩
    rw [ordinarySectors, List.flatMap_cons]
    dsimp only
    rw [hbytes, hbytes', funext halone.sectorBytes]

/-! ### Runs of bytes over sectors -/

/-- Sectors one after another are the run of bytes that they cover. -/
theorem flatMap_sectorBytes (s : State) (first n : Nat) :
    ((List.range n).map (first + ·)).flatMap (sectorBytes s) = (List.range (16 * n)).map fun i => memByte s.mem (16 * first + i) := by
  induction n with
  | zero => rfl
  | succ n ih =>
    rw [List.range_succ, List.map_append, List.flatMap_append, ih, Nat.mul_succ, List.range_add, List.map_append]
    congr 1
    simp [sectorBytes, mul_add, add_assoc]

theorem readOrdinary_true (nol1 : Bool) (p : Piece) (hmigs : s.migs = []) (h : LinesTrue s) :
    LinesAlone s (readOrdinary s c nol1 p).1 ∧ LinesTrue (readOrdinary s c nol1 p).1 ∧ (readOrdinary s c nol1 p).2 = homeBytes s p.key p.len := by
  obtain ⟨halone, htrue, hbytes⟩ := ordinarySectors_true c nol1 p ((List.range ((p.key % 16 + p.len + 15) / 16)).map (p.key / 16 + ·)) h
  unfold readOrdinary
  dsimp only
  rw [place_of_no_migs hmigs]
  refine ⟨halone, htrue, ?_⟩
  rw [hbytes, flatMap_sectorBytes]
  refine List.ext_getElem (by simp [homeBytes]; omega) fun i hi hi' => ?_
  have hkey := Nat.div_add_mod p.key 16
  simp only [List.getElem_take, List.getElem_drop, List.getElem_map, List.getElem_range, homeBytes, homeByte, place_of_no_migs hmigs]
  congr 1
  omega

/-! ### Reads where nothing is on its way -/

/-- Nothing is on its way, in motion or poisoned, and every cached sector reads as memory does. -/
structure Quiet (s : State) : Prop where
  stores : s.stores = []
  migs : s.migs = []
  clean : anyPoison s = false
  lines : LinesTrue s

theorem Quiet.of_alone {u : State} (h : Quiet s) (hu : LinesAlone s u) (hlines : LinesTrue u) : Quiet u := by
  obtain ⟨ls, i, rfl⟩ := hu
  exact ⟨h.stores, h.migs, h.clean, hlines⟩

theorem drainStores_of_none (h : s.stores = []) (uid tid : Nat) (ks : List (Nat × Byte)) : drainStores s uid tid ks = s := by
  rw [drainStores, h]
  rfl

theorem readPiece_quiet (h : Quiet s) (tid : Nat) {path : Path} (hweak : path.strong = false) (p : Piece) :
    LinesAlone s (readPiece s c tid path p).1 ∧ LinesTrue (readPiece s c tid path p).1 ∧ (readPiece s c tid path p).2 = homeBytes s p.key p.len := by
  have hclean : piecePoison s p = false := by simp [piecePoison, poisonedAt, h.clean]
  have hown : ownBytes s c.uid tid p.key p.len = none := by simp [ownBytes, passedStore, h.stores]
  have hread : readPiece s c tid path p = if (!p.glob) = true then (s, homeBytes s p.key p.len) else readOrdinary s c (path.policy == 2) p := by
    simp only [readPiece, hweak, hclean, hown, drainStores_of_none h.stores, Bool.false_and, Bool.false_or, Bool.false_eq_true, if_false]
  rw [hread]
  split
  · exact ⟨.refl s, h.lines, rfl⟩
  · exact readOrdinary_true _ p h.migs h.lines

/-- Pieces read in turn are the bytes at their homes (R171). -/
theorem readPieces_quiet (h : Quiet s) (tid : Nat) {path : Path} (hweak : path.strong = false) (ps : List Piece) :
    LinesAlone s (readPieces s c tid path ps).1 ∧ (readPieces s c tid path ps).2 = ps.flatMap fun p => homeBytes s p.key p.len := by
  induction ps generalizing s with
  | nil => exact ⟨.refl s, rfl⟩
  | cons p ps ih =>
    obtain ⟨halone, htrue, hbytes⟩ := readPiece_quiet (c := c) h tid hweak p
    obtain ⟨halone', hbytes'⟩ := ih (h.of_alone halone htrue)
    refine ⟨halone.trans halone', ?_⟩
    rw [readPieces]
    dsimp only
    rw [hbytes, hbytes', List.flatMap_cons]
    simp only [homeBytes_congr halone.tables.mem halone.tables.migs]

end Sys2Proof.Machine
end

section
/-! PROOFS. Registration, `pfill` and O35 (R181–R183, R189, R198, R199). -/

namespace Sys2Proof.Machine

variable {s : State} {is : Issue} {c : Crew} {a : Args}

/-! ### What a registration's status rests on (R198) -/

section
variable {u : State} (h : SameTables s u)
include h

theorem SameTables.rangesOf (ctx : Nat) : rangesOf u ctx = rangesOf s ctx := by
  rw [Machine.rangesOf, Machine.rangesOf, h.ranges]

theorem SameTables.leavesFrom (ctx stop n va : Nat) : leavesFrom u ctx stop n va = leavesFrom s ctx stop n va := by
  induction n generalizing va with
  | zero => rfl
  | succ n ih => simp only [Machine.leavesFrom, h.walkTree, ih]

theorem SameTables.coverLeaves (ctx va len : Nat) : coverLeaves u ctx va len = coverLeaves s ctx va len := h.leavesFrom ..

theorem SameTables.mapOk (ctx : Nat) (r : RegRecord) : mapOk u ctx r = mapOk s ctx r := by
  rw [Machine.mapOk, Machine.mapOk, h.rangesOf, h.coverLeaves]

theorem SameTables.regStatus (ctx v : Nat) : regStatus u ctx v = regStatus s ctx v := by
  unfold Machine.regStatus
  dsimp only
  rw [h.rangesOf, h.coverLeaves, h.mapOk]

end

/-! ### What registration changes -/

theorem setLeavesP_keeps (s : State) (ctx : Nat) (ls : List (Leaf × Nat × Nat × Nat)) (p : Bool) :
    (setLeavesP s ctx ls p).crews = s.crews ∧ (setLeavesP s ctx ls p).contexts = s.contexts := by
  unfold setLeavesP
  dsimp only
  generalize hu : ls.foldl _ s = u
  obtain ⟨m, lines, ds, hw, rfl⟩ : HomesAlone s u := hu ▸ HomesAlone.foldl _ (fun s _ => homeWrite_homesAlone s none _) ls s
  exact ⟨rfl, rfl⟩

theorem zeroRun_keeps (s : State) (ctx va len : Nat) : (zeroRun s ctx va len).crews = s.crews ∧ (zeroRun s ctx va len).contexts = s.contexts := by
  unfold zeroRun
  dsimp only
  generalize hu : List.foldl _ s _ = u
  obtain ⟨m, lines, ds, hw, rfl⟩ : HomesAlone s u := hu ▸ HomesAlone.foldl _ (fun s _ => homeWrite_homesAlone s none _) _ s
  exact ⟨rfl, rfl⟩

/-- The range that a registration adds. -/
def registeredRange (n v : Nat) : Range :=
  let r := regRecordOf v
  { num := n, base := r.base, blocks := r.blocks, deferred := r.mode == 1, reclaim := r.reclaim, gen := BitVec.ofNat 64 r.gen, frame := BitVec.ofNat 64 r.frame,
    map := r.map, threads := r.threads, regs := r.regs, scratch := r.scratch, gang := r.gang, border := r.border }

theorem registerRange_crews (s : State) (ctx n v : Nat) : (registerRange s ctx n v).crews = s.crews :=
  (zeroRun_keeps ..).1.trans (setLeavesP_keeps ..).1

/-- The context has the range. -/
theorem getCtx_registerRange {ctx n v : Nat} {x : Context} (hx : getCtx s ctx = some x) :
    getCtx (registerRange s ctx n v) ctx = some { x with ranges := x.ranges ++ [registeredRange n v] } := by
  unfold registerRange
  dsimp only
  generalize hu : zeroRun _ _ _ _ = u
  have hcontexts : u.contexts = s.contexts := hu ▸ (zeroRun_keeps ..).2.trans (setLeavesP_keeps ..).2
  have hget : getCtx u ctx = some x := by
    rw [getCtx, hcontexts]
    exact hx
  rw [getCtx_updCtx u ctx ctx _ (by intro; rfl), hget, Option.map_some, if_pos (getCtx_id hx)]
  rfl

theorem removeRange_crews (s : State) (ctx : Nat) (r : Range) : (removeRange s ctx r).crews = s.crews := (setLeavesP_keeps s ctx _ false).1

/-- No range of the number is left. -/
theorem num_of_removeRange {ctx : Nat} {r q : Range} {x : Context} (hx : getCtx (removeRange s ctx r) ctx = some x) (hq : q ∈ x.ranges) : q.num ≠ r.num := by
  unfold removeRange at hx
  dsimp only at hx
  generalize setLeavesP _ _ _ _ = u at hx
  rw [getCtx_updCtx u ctx ctx _ (by intro; rfl)] at hx
  obtain ⟨y, hy, rfl⟩ := Option.map_eq_some_iff.1 hx
  rw [if_pos (getCtx_id hy)] at hq
  simpa using (List.mem_filter.1 hq).2

/-! ### Threads that stay at the word -/

theorem endBindings_nil (c : Crew) : endBindings c [] = c := by
  refine congrArg (fun ts => { c with threads := ts }) ((List.map_congr_left fun t _ => ?_).trans (List.map_id c.threads))
  split
  · simp
  · rfl

theorem updCrew_id {f : Crew → Crew} (hf : ∀ c, f c = c) (s : State) (uid : Nat) : updCrew s uid f = s := by
  simp [updCrew, hf]

/-- Where no thread stays nothing changes. -/
theorem stayTogether_nil (s : State) (uid : Nat) : stayTogether s uid [] = s := by
  rw [stayTogether, leaveGang, updCrew_id fun c => endBindings_nil c, holdGang, updCrew_id fun c => by simp [Crew.mapT]]

/-- Where none stays the whole gang moves on. -/
theorem filter_moved (is : Issue) : (is.tids.filter fun i => !([] : List Nat).contains i) = is.tids := List.filter_eq_self.2 fun _ _ => rfl

/-! ### `pgen.reg` (R198) -/

/-- The access of a registration's lane to its record. -/
def recordAcc (s : State) (c : Crew) (a : Args) (t : Thread) : LaneAcc :=
  { t := t, ea := BitVec.ofNat 64 (rd c t a.a 2), tgt := steer s c t.tid (BitVec.ofNat 64 (rd c t a.a 2)) 64 }

/-- The record's lanes that go on, each with its pieces. -/
def recordReady (s : State) (c : Crew) (a : Args) (ts : List Thread) : List Ready' := (ts.map (recordAcc s c a)).map fun l => (l, lanePieces s c 64 l)

/-- The lanes that go on, up to the first that stays at the word. -/
def servedLanes (tids : List Nat) (rs : List Ready') : List Nat := tids.takeWhile fun i => rs.any (·.1.t.tid == i)

/-- A `pgen.reg` after its checks: the lanes that go on register in order, and the others stay at the word. -/
def registerLanes (a : Args) (is : Issue) (c : Crew) (tids : List Nat) (s : State) (rs : List Ready') : Out :=
  let stay := tids.filter fun i => !(servedLanes tids rs).contains i
  .next (retireSome is (is.tids.filter fun i => !stay.contains i)
    (stayTogether ((rs.filter fun l => (servedLanes tids rs).contains l.1.t.tid).foldl (regLane a c) s) is.crew stay))

theorem servedLanes_all (rs : List Ready') : servedLanes (rs.map (·.1.t.tid)) rs = rs.map (·.1.t.tid) := by
  refine List.takeWhile_eq_self_iff.2 fun i hi => ?_
  obtain ⟨l, hl, rfl⟩ := List.mem_map.1 hi
  exact List.any_eq_true.2 ⟨l, hl, beq_self_eq_true _⟩

theorem registerLanes_all (a : Args) (is : Issue) (c : Crew) (s : State) (rs : List Ready') :
    registerLanes a is c (rs.map (·.1.t.tid)) s rs = .next (retireSome is is.tids (rs.foldl (regLane a c) s)) := by
  have hgo : (rs.filter fun l => (rs.map (·.1.t.tid)).contains l.1.t.tid) = rs :=
    List.filter_eq_self.2 fun l hl => List.contains_iff_mem.2 (List.mem_map_of_mem hl)
  have hstay : ((rs.map (·.1.t.tid)).filter fun i => !(rs.map (·.1.t.tid)).contains i) = [] :=
    List.filter_eq_nil_iff.2 fun i hi => by rw [List.contains_iff_mem.2 hi]; decide
  simp only [registerLanes, servedLanes_all, hgo, hstay, filter_moved, stayTogether_nil]

/-- Where every lane goes on the lanes register in order and the gang moves on. -/
theorem exec_pgenReg (hi : Issues s is c) (h : PathClear s c { w := 64, load := true, now := true } ((active c is a.guard).map (recordAcc s c a))) :
    exec (.pgenReg a) s = .next (retireSome is is.tids ((recordReady s c a (active c is a.guard)).foldl (regLane a c) s)) := by
  have hgate : exec (.pgenReg a) s = memGate (envOf s is c a.guard) { w := 64, load := true, now := true } ((active c is a.guard).map (recordAcc s c a))
      (registerLanes a is c (((active c is a.guard).map (recordAcc s c a)).map (·.t.tid))) := by
    rw [show exec (.pgenReg a) s = execPgenReg a s from rfl, execPgenReg, gangDo_issues hi]
    rfl
  have htids : ((active c is a.guard).map (recordAcc s c a)).map (·.t.tid) = (recordReady s c a (active c is a.guard)).map (·.1.t.tid) := by
    simp [recordReady]
  rw [hgate, memGate_of_clear (e := envOf s is c a.guard) h, htids]
  exact registerLanes_all ..

theorem lanePoisons_of_clean (h : anyPoison s = false) (u : State) (c : Crew) (l : Ready') : lanePoisons s u c l = u := by
  simp [lanePoisons, poisonEa, h]

/-- The number that a lane's record forms at its homes. -/
def recordValue (s : State) (l : Ready') : Nat := bytesVal (l.2.flatMap fun x => homeBytes s x.key x.len)

/-- A lane's status, by the record that it has read where nothing is on its way. -/
theorem regLane_quiet (h : Quiet s) (a : Args) (c : Crew) (l : Ready') : ∃ u, LinesAlone s u ∧
    (∀ k, regStatus s c.ctx (recordValue s l) = .error k → regLane a c s l = putD u c.uid l.1.t.tid a.d k) ∧
    ∀ n, regStatus s c.ctx (recordValue s l) = .ok n → regLane a c s l = putD (registerRange u c.ctx n (recordValue s l)) c.uid l.1.t.tid a.d n := by
  obtain ⟨halone, hbytes⟩ := readPieces_quiet (c := c) h l.1.t.tid (path := { strong := false, policy := 0 }) rfl l.2
  have hvalue : bytesVal (readPieces s c l.1.t.tid { strong := false, policy := 0 } l.2).2 = recordValue s l := congrArg bytesVal hbytes
  refine ⟨_, halone, fun k hk => ?_, fun n hn => ?_⟩
  all_goals
    unfold regLane
    dsimp only
    rw [lanePoisons_of_clean h.clean, hvalue, halone.tables.regStatus]
  · rw [hk]
  · rw [hn]

theorem getCrew_putD {u : State} {uid : Nat} (hu : u.crews = s.crews) (hc : getCrew s uid = some c) (tid : Nat) (d : Opnd) (v : Nat) :
    getCrew (putD u uid tid d v) uid = some (wr c tid d 1 v) := by
  have hget : getCrew u uid = some c := by
    rw [getCrew, hu]
    exact hc
  exact getCrew_updCrew_same (fun c => wr_uid c tid d 1 v) hget

/-! ### `pgen.unreg` (R198) -/

theorem exec_pgenUnreg (hi : Issues s is c) {u : State} {done : List Nat} (h : unregLanes a (envOf s is c a.guard) (active c is a.guard) s = (u, done)) :
    exec (.pgenUnreg a) s = .next (retireSome is (is.tids.filter fun i => !(((active c is a.guard).map (·.tid)).filter fun i => !done.contains i).contains i)
      (stayTogether u is.crew (((active c is a.guard).map (·.tid)).filter fun i => !done.contains i))) := by
  rw [show exec (.pgenUnreg a) s = execPgenUnreg a s from rfl, execPgenUnreg, gangDo_issues hi]
  simp only [envOf] at h ⊢
  rw [h]

/-- The one active thread of a `pgen.unreg` that need not wait. -/
theorem exec_pgenUnreg_one {t : Thread} {u : State} {v : Nat} (hi : Issues s is c) (hact : active c is a.guard = [t])
    (hlane : unregLane s c (rd c t a.a 1) = some (u, v)) : exec (.pgenUnreg a) s = .next (retireSome is is.tids (putD u is.crew t.tid a.d v)) := by
  have hlanes : unregLanes a (envOf s is c a.guard) (active c is a.guard) s = (putD u is.crew t.tid a.d v, [t.tid]) := by
    simp only [hact, unregLanes, envOf, hlane]
  rw [exec_pgenUnreg hi hlanes, hact]
  simp [stayTogether_nil]

/-- The one active thread of a `pgen.unreg` that waits stays at the word. -/
theorem exec_pgenUnreg_waits {t : Thread} (hi : Issues s is c) (hact : active c is a.guard = [t]) (hlane : unregLane s c (rd c t a.a 1) = none) :
    exec (.pgenUnreg a) s = .next (retireSome is (is.tids.filter fun i => !([t.tid].contains i)) (stayTogether s is.crew [t.tid])) := by
  have hlanes : unregLanes a (envOf s is c a.guard) (active c is a.guard) s = (s, []) := by
    simp only [hact, unregLanes, envOf, hlane]
  rw [exec_pgenUnreg hi hlanes, hact]
  rfl

section
variable {n : Nat}

theorem unregLane_of_none (h : (rangesOf s c.ctx).find? (·.num == n) = none) : unregLane s c n = some (s, 0xFFFFFF06) := by
  rw [unregLane, h]

/-- Whether a crew is a generator's of a range. -/
def generates (c : Crew) (n : Nat) : Bool := match c.kind with
  | .gen q _ _ _ => q == n
  | _ => false

theorem unregLane_of_some {r : Range} (h : (rangesOf s c.ctx).find? (·.num == n) = some r) : unregLane s c n =
    if generates c n = true then some (s, 0xFFFFFF07) else if anyFilling s c.ctx r = true then none else some (removeRange s c.ctx r, 0) := by
  rw [unregLane, h]
  rfl

theorem generates_eq_false (h : ∀ q b d i, c.kind = .gen q b d i → q ≠ n) : generates c n = false := by
  unfold generates
  split
  next q b d i hkind => exact beq_eq_false_iff_ne.2 (h q b d i hkind)
  · rfl

theorem generates_of_kind {b d i : Nat} (h : c.kind = .gen n b d i) : generates c n = true := by
  rw [generates, h]
  exact beq_self_eq_true n

end

/-- The lanes that are served: the first is one of them unless it must wait. -/
theorem unregLanes_serves {ts : List Thread} {t : Thread} (h : (unregLane s c (rd c t a.a 1)).isSome = true) :
    t.tid ∈ (unregLanes a (envOf s is c a.guard) (t :: ts) s).2 := by
  obtain ⟨⟨u, v⟩, hlane⟩ := Option.isSome_iff_exists.1 h
  simp only [unregLanes, envOf, hlane]
  exact List.mem_cons_self ..

/-! ### `pfill` (R189, R199) -/

/-- The arrival of threads at `pfill`. -/
def arrived (tids : List Nat) (mark : Nat) (t : Thread) : Thread :=
  if tids.contains t.tid then { t with pfillAt := some (t.pfillAt.getD mark), region := t.region + 1 } else t

theorem exec_pfill {r b d i : Nat} (hi : Issues s is c) (hkind : c.kind = .gen r b d i) (hout : NoStoresOut s is c a.guard) :
    exec (.pfill a) s = .next (retire is (updCrew s is.crew (·.mapT (arrived ((active c is a.guard).map (·.tid)) s.nextId)))) := by
  rw [show exec (.pfill a) s = execPfill a s from rfl, execPfill, gangDo_issues hi]
  unfold inGenerator
  rw [show (envOf s is c a.guard).c.kind = .gen r b d i from hkind]
  exact withRelease_of_noStoresOut hout _ _

theorem exec_pfillFail {r b d i : Nat} {t : Thread} {ts : List Thread} (hi : Issues s is c) (hkind : c.kind = .gen r b d i) (hact : active c is a.guard = t :: ts) :
    exec (.pfillFail a) s = .next (retire is (if stillFills s c then failBlock s c.ctx r b 2 (rd c t a.a 1) 0 0 0 else s)) := by
  rw [show exec (.pfillFail a) s = execPfillFail a s from rfl, execPfillFail, gangDo_issues hi]
  unfold inGenerator
  rw [show (envOf s is c a.guard).c.kind = .gen r b d i from hkind]
  simp only [envOf, hact, List.head?_cons]

/-- Outside a generator crew the instruction is PRIV. -/
theorem inGenerator_priv {e : Env} (hgen : e.c.isGen = false) (hact : e.act ≠ []) (k : Nat → Nat → Out) : inGenerator e k = privTrap e 0x51 := by
  have hsome : e.act.isEmpty = false := by simpa using hact
  unfold inGenerator
  split
  next hkind =>
    rw [Crew.isGen, hkind] at hgen
    cases hgen
  · rw [hsome]
    rfl

/-- Settles O35: a registration by its lane's read of quiet memory, a removal by what its lane meets, and the ends of a fill by the crew's kind. -/
theorem rangesAndFills : Obligations.RangesAndFills := by
  unfold Obligations.RangesAndFills
  refine ⟨fun s is c a t hi hact => ?lane, fun s is c a hi => ?gang, fun s is c a t ts hi hact => ⟨fun r b d i hkind => ?fill, fun hgen => ?priv⟩⟩
  case lane =>
    intro ea l v n Answers
    have huid : c.uid = is.crew := getCrew_uid hi.crew
    have hone : ∀ k u, unregLane s c n = some (u, k) → u.crews = s.crews → ∀ P : State → Prop, P (putD u is.crew t.tid a.d k) → Answers (.pgenUnreg a) k P :=
      fun k u hlane hcrews P hP => ⟨_, exec_pgenUnreg_one hi hact hlane, getCrew_putD hcrews hi.crew .., hP⟩
    refine ⟨fun hclear hlines hstores hmigs hclean => ?_, fun hnone => hone _ s (unregLane_of_none hnone) rfl _ ⟨rfl, rfl⟩,
      fun r hr hother => ⟨fun hidle => ?_, fun hfilling => ?_⟩, fun r b d i hr hkind => ?_⟩
    · have hexec := exec_pgenReg (a := a) hi (by rw [hact]; exact hclear)
      rw [hact] at hexec
      have hquiet : Quiet s := ⟨hstores, hmigs, hclean, fun l hl => by rw [hlines] at hl; cases hl⟩
      obtain ⟨u, halone, herror, hok⟩ := regLane_quiet hquiet a c (l, lanePieces s c 64 l)
      have hcrews : u.crews = s.crews := by
        obtain ⟨ls, i, rfl⟩ := halone
        rfl
      have hcontexts : u.contexts = s.contexts := by
        obtain ⟨ls, i, rfl⟩ := halone
        rfl
      refine ⟨fun k hk => ⟨_, hexec, ?_⟩, fun k hk hctx => ⟨_, hexec, ?_⟩⟩
      · rw [show (recordReady s c a [t]).foldl (regLane a c) s = putD u is.crew t.tid a.d k from huid ▸ herror k hk]
        exact ⟨getCrew_putD hcrews hi.crew .., halone.tables.mem, hcontexts⟩
      · rw [show (recordReady s c a [t]).foldl (regLane a c) s = putD (registerRange u c.ctx k v) is.crew t.tid a.d k from huid ▸ hok k hk]
        obtain ⟨x, hx⟩ := Option.isSome_iff_exists.1 hctx
        have hx' : getCtx u c.ctx = some x := by
          rw [getCtx, hcontexts]
          exact hx
        exact ⟨getCrew_putD ((registerRange_crews ..).trans hcrews) hi.crew .., _, getCtx_registerRange hx', registeredRange k v,
          List.mem_append_right _ (List.mem_singleton_self _), rfl⟩
    · have hnum : r.num = n := by simpa using List.find?_some hr
      refine hone 0 _ ?_ (removeRange_crews s c.ctx r) _ fun x hx q hq => hnum ▸ num_of_removeRange hx hq
      rw [unregLane_of_some hr, generates_eq_false hother, hidle]
      rfl
    · refine exec_pgenUnreg_waits hi hact ?_
      rw [unregLane_of_some hr, generates_eq_false hother, hfilling]
      rfl
    · refine hone _ s ?_ rfl _ rfl
      rw [unregLane_of_some hr, generates_of_kind hkind]
      rfl
  case gang =>
    intro act
    refine ⟨fun hclear => ⟨_, exec_pgenReg hi hclear⟩, _, _, exec_pgenUnreg hi rfl, fun i hmem => (List.mem_filter.1 hmem).1, fun t ts hts hsome => ?_⟩
    have hserved := unregLanes_serves (is := is) (a := a) (ts := ts) hsome
    rw [← hts] at hserved
    rw [show act.map (·.tid) = t.tid :: ts.map (·.tid) by rw [hts]; rfl, List.filter_cons_of_neg (by simpa using hserved)]
    exact (List.length_filter_le ..).trans (List.length_map ..).le
  case fill =>
    refine ⟨fun hout => ⟨_, exec_pfill hi hkind hout, ⟨rfl, fun _ hu => getCrew_updCrew_ne _ (fun _ => rfl) hu⟩, ?_⟩, fun q hover hq hstate => ?_, fun hnot => ?_⟩
    · rw [hact]
      exact getCrew_updCrew_same (fun _ => rfl) hi.crew
    · rw [exec_pfillFail hi hkind hact, stillFills_of_filling hkind hover hq hstate]
      rfl
    · rw [exec_pfillFail hi hkind hact, stillFills_eq_false hkind hnot]
      rfl
  case priv =>
    refine ⟨trapOf c tcPRIV 0 ((t :: ts).map (·.tid)) [{ off := 0, len := 2, val := 0x51 }], rfl, rfl, ?_, ?_⟩
    · rw [show exec (.pfill a) s = execPfill a s from rfl, execPfill, gangDo_issues hi, inGenerator_priv hgen (by simp [envOf, hact]), privTrap]
      simp only [envOf, hact]
      rfl
    · rw [show exec (.pfillFail a) s = execPfillFail a s from rfl, execPfillFail, gangDo_issues hi, inGenerator_priv hgen (by simp [envOf, hact]), privTrap]
      simp only [envOf, hact]
      rfl

end Sys2Proof.Machine
end
